-- ==== Sys2Proof/Word.lean ====
section
/-! DEFINITION. The word types of the Virlia 9 and their plainest arithmetic. -/
namespace Sys2Proof

/-- One byte of memory. -/
abbrev Byte := BitVec 8
/-- One halfword of the instruction stream (R123). -/
abbrev Half := BitVec 16
/-- A scalar register, a location word or a virtual address (R14, R54). -/
abbrev Word := BitVec 64
/-- The 64 bytes of a vector register (R14). -/
abbrev Vec := BitVec 512
/-- The 1,024 bits of a membership register (R176). -/
abbrev QSet := BitVec 1024

end Sys2Proof
end

