-- ==== Sys2Proof/Config.lean ====
section
/-! DEFINITION. What one implementation fixes, and the free values the spec leaves open. -/
namespace Sys2Proof

/-- Mesh side: 64 × 64 cores (R1). -/
def Config.meshSide : Nat := 64
/-- Cores of the device (Table 0.1). -/
def Config.coreCount : Nat := 4096
/-- Bytes of main memory: 384 GiB (Table 0.2). -/
def Config.dramBytes : Nat := 384 * 2 ^ 30
/-- Local granules below the context region (R55). -/
def Config.localGranules : Nat := 448
/-- Scratchpad granules (R55). -/
def Config.scratchGranules : Nat := 1024
/-- The watchdog period's least value, used until a table names another (R240). -/
def Config.watchdogPeriod : Nat := 250000

/-- A free byte: what the spec leaves open in a value of one byte (log 7). -/
opaque Config.freeByte : Nat → Byte
/-- A free word (log 7). -/
opaque Config.freeWord : Nat → Word
/-- The first 64 KiB granule of the crash region, which is sixteen granules 512 KiB apart, each wholly in stack 0 (R243,
log 52). -/
def Config.crashGranule : Nat := 6291328

/-- The version of a firmware image and the signature of a report, which the device's key fixes (R244, log 12). -/
opaque Config.firmwareVersion : List Byte → Word
opaque Config.signature : List Byte → BitVec 768
/-- What the device answers to an SPDM message that asks for no measurements (R244, log 12). -/
opaque Config.spdmAnswer : List Byte → List Byte
/-- A free choice between two outcomes the spec allows (log 7). -/
opaque Config.freeBool : Nat → Bool

end Sys2Proof
end

