-- ==== Sys2Proof/Syntax.lean ====
section
/-! DEFINITION. The syntax: one constructor per row of spec/opcode_table.json, and the data some steps carry. -/
namespace Sys2Proof

/-- Where an uncorrectable error is found (Table 14.2). -/
inductive ErrorSite where
  /-- A word of a core's local memory, by physical offset. -/
  | localWord (core offset : Nat)
  /-- A word of a cluster's scratchpad, by physical offset. -/
  | scratchWord (cluster offset : Nat)
  /-- A 64-byte line of main memory, by physical address. -/
  | dramLine (pa : Nat)
  /-- A tile of the accumulator store. -/
  | tile (core tile : Nat)
  /-- A message held in a mailbox. -/
  | mailboxEntry (core index : Nat)
  /-- A record held in a task inbox. -/
  | inboxEntry (core index : Nat)
  /-- An entry of a confluence table. -/
  | confluenceEntry (core index : Nat)
  /-- The line buffer of the engine that performs a queue's head copy. -/
  | copyBuffer (core queue : Nat)
  /-- A replay slot of a link; the flag says whether the header was lost. -/
  | replaySlot (link seq : Nat) (headerLost : Bool)
  /-- A line that holds page-table entries. -/
  | pageTableLine (pa : Nat)
  /-- Register file cache, context region, tile table or instruction buffer. -/
  | coreMachinery (core : Nat)
  deriving DecidableEq, Repr

/-- Who sent a TLV packet (R230, R235). -/
inductive Sender where
  | host (id : Nat)
  | peer (id : Nat)
  deriving DecidableEq, Repr

/-- One field of a TLV packet (R235): its header's type, mandatory flag and value. -/
structure TlvField where
  type      : BitVec 12
  mandatory : Bool
  reserved  : BitVec 3
  length    : Nat
  value     : List Byte
  deriving DecidableEq, Repr

/-- A TLV packet (R235). `verifies` is the outcome of the signature check the security core makes of what the packet
carries (R244, R245); the cryptography itself is not modelled (log 12). -/
structure TlvPacket where
  sender   : Sender
  fields   : List TlvField
  verifies : Bool
  deriving DecidableEq, Repr

/-- Who orders an invalidation of translations (R68): a host by a packet, or Bilrok on its own account for an owner
domain and a range, together with the page-table entries that it writes there first (physical address and entry). -/
inductive InvOrder where
  | packet (p : TlvPacket)
  | bilrok (odi : Nat) (range : Option (Nat × Nat)) (writes : List (Nat × Word))
  deriving DecidableEq, Repr

/-- What a UALink peer asks of this device (R236). -/
inductive PeerOp where
  | read (bytes : Nat)
  | write (data : List Byte)
  | atomic (op : BitVec 6) (bytes : Nat) (value expected : Word)
  deriving DecidableEq, Repr

/-- A UALink peer's request into device memory (R236, R237). `meta` is the order, scope and source core a Virlia 9
peer sends; none for a peer of another vendor. -/
structure PeerReq where
  peer : Nat
  pa   : Nat
  op   : PeerOp
  info : Option (BitVec 2 × BitVec 4 × Nat)
  /-- A posted write or atomic, which nothing answers. -/
  posted : Bool := false
  deriving DecidableEq, Repr

/-- What comes from a UALink peer about a request of this device (R85, R236, R239), with the peer: the data, which may be
poisoned, with the release that its home has recorded for the line (the agent: below 4,096 a core of this device, from 8,192 on one
of a pod device (log 59); scope) and whether the home's check held; an error; or a credit, which completes no request. -/
inductive PeerAnswer where
  | data (peer : Nat) (bytes : List Byte) (poison : Bool) (release : Option (Nat × BitVec 4 × Bool))
  | error (peer : Nat)
  | credit (peer : Nat)
  deriving DecidableEq, Repr

/-- The transport's delivery services: reliable ordered, reliable unordered, and those the device does not support
(R229). -/
inductive DeliveryService where
  | rod | rud | other
  deriving DecidableEq, Repr

/-- What a host's RMA does (R229, R230): a write of a kick register, a write or read at a virtual address. -/
inductive HostWrite where
  | kick (queue : Nat) (index : BitVec 32)
  | ring (at' : Word) (data : List Byte)
  | read (at' : Word) (bytes : Nat)
  deriving DecidableEq, Repr

/-- An SRAM array that enters or leaves retention (R214). -/
inductive SramArray where
  | localMemory (core : Nat)
  | scratchpad (cluster : Nat)
  deriving DecidableEq, Repr

/-- An error that is corrected (R212): at the home of a request, in main memory one of a device by its number; or at
an access without a request, one performed at issue or by an engine or a unit, or at a re-encode: in an SRAM array, or in
a line of main memory by its address and the device. -/
inductive Correction where
  | device (device : Nat)
  | array (array : SramArray)
  | line (pa device : Nat)
  deriving DecidableEq, Repr

/-- A request that reaches its home, and the error that is corrected (R79, R212). -/
structure HomeArrival where
  id        : Nat
  corrected : Option Correction := none
  deriving DecidableEq, Repr

/-- A copy queue, and the piece that the engine copies when one has the queue's head (R90, R149). -/
structure CopyTurn where
  queue : Nat
  piece : Nat := 0
  deriving DecidableEq, Repr

/-- A core's periodic self-test, or the host's setting of its interval in cycles (R225; log 61). -/
inductive SelfTestMove where
  | test (core : Nat)
  | interval (cycles : Nat)
  deriving DecidableEq, Repr

/-- What happens to a firmware core's role (R243): its watchdog expires, the core takes a trap (cause, pc, value) that
Bilrok's handler does not resume, or Bilrok restarts the watchdog. -/
inductive RoleEvent where
  | expired
  | trapped (cause : BitVec 16) (pc value : Word)
  | restarted
  deriving DecidableEq, Repr

/-- Such an event at a core of the firmware column. -/
structure RoleMove where
  core : Nat
  what : RoleEvent
  deriving DecidableEq, Repr

/-- What the scrub engine finds in the line it reads (R215). -/
inductive ScrubOutcome where
  | clean
  | corrected (device : Nat)
  | uncorrectable
  deriving DecidableEq, Repr

/-- An entry of the fence table (Table 14.5). -/
structure FenceEntry where
  core    : Nat
  classes : BitVec 28
  killed  : Bool
  cause   : BitVec 3
  cyc     : BitVec 32
  boot    : BitVec 32
  deriving DecidableEq, Repr

/-- The configuration table of the firmware column (R240). -/
structure ColumnTable where
  firstColumn : Nat
  width       : Nat
  roles       : List Nat
  watchdog    : Nat
  /-- Inbox handles of column cores to which any core may post stores: core and handle (R242). -/
  inboxes     : List (Nat × Nat) := []
  deriving DecidableEq, Repr

/-- What Bilrok makes of a partition at a change of owner (R65, R70, R72, R230, R241): its owner domain, table base,
clusters and owning host, and the 64 KiB granules of main memory that are handed to it (log 21). -/
structure PartitionSpec where
  odi      : Nat
  table    : Word
  clusters : List Nat
  host     : Nat
  granules : List Nat
  deriving DecidableEq, Repr

/-- A table the host supplies (R226, R240), with the outcome of its signature check. -/
inductive HostTable where
  | fences (entries : List FenceEntry) (signed : Bool)
  | column (table : ColumnTable) (signed : Bool)
  deriving DecidableEq, Repr

/-- One constructor per row of the opcode table: the 181 instructions with their encoded fields, named as the table
names them, then the 104 steps of the part that no instruction word names, with the operands that say where they happen. -/
inductive Instr where
  /-- ADD: Adds two format A operands into a scalar or vector destination. (R256) -/
  | add (d : BitVec 6) (t : BitVec 2) (s : BitVec 6) (u : BitVec 2) (r : BitVec 6)
  /-- ADD_G16: 16-bit form of scalar ADD gD, gD, gS. (R256) -/
  | addG16 (d : BitVec 5) (s : BitVec 6)
  /-- ADD_V16: 16-bit form of vector ADD vD, vD, vS. (R256) -/
  | addV16 (d : BitVec 5) (s : BitVec 6)
  /-- SUB: Subtracts the second format A operand from the first. (R349) -/
  | sub (d : BitVec 6) (t : BitVec 2) (s : BitVec 6) (u : BitVec 2) (r : BitVec 6)
  /-- SUB_G16: 16-bit form of scalar SUB gD, gD, gS. (R349) -/
  | subG16 (d : BitVec 5) (s : BitVec 6)
  /-- MUL: Multiplies two format A operands. (R322) -/
  | mul (d : BitVec 6) (t : BitVec 2) (s : BitVec 6) (u : BitVec 2) (r : BitVec 6)
  /-- MUL_V16: 16-bit form of vector MUL vD, vD, vS. (R322) -/
  | mulV16 (d : BitVec 5) (s : BitVec 6)
  /-- MULH: Returns the high half of an integer product. (R322) -/
  | mulh (d : BitVec 6) (t : BitVec 2) (s : BitVec 6) (u : BitVec 2) (r : BitVec 6)
  /-- AND: Bitwise AND of two operands. (R259) -/
  | and (d : BitVec 6) (t : BitVec 2) (s : BitVec 6) (u : BitVec 2) (r : BitVec 6)
  /-- AND_G16: 16-bit form of AND gD, gD, gS. (R259) -/
  | andG16 (d : BitVec 5) (s : BitVec 6)
  /-- OR: Bitwise OR of two operands. (R329) -/
  | or (d : BitVec 6) (t : BitVec 2) (s : BitVec 6) (u : BitVec 2) (r : BitVec 6)
  /-- OR_G16: 16-bit form of OR gD, gD, gS. (R329) -/
  | orG16 (d : BitVec 5) (s : BitVec 6)
  /-- XOR: Bitwise XOR of two operands. (R362) -/
  | xor (d : BitVec 6) (t : BitVec 2) (s : BitVec 6) (u : BitVec 2) (r : BitVec 6)
  /-- XOR_G16: 16-bit form of XOR gD, gD, gS. (R362) -/
  | xorG16 (d : BitVec 5) (s : BitVec 6)
  /-- ANDN: Computes a AND NOT b. (R259) -/
  | andn (d : BitVec 6) (t : BitVec 2) (s : BitVec 6) (u : BitVec 2) (r : BitVec 6)
  /-- SHL: Shifts left with zero fill. (R340) -/
  | shl (d : BitVec 6) (t : BitVec 2) (s : BitVec 6) (u : BitVec 2) (r : BitVec 6)
  /-- SHL_G16: 16-bit form of SHL gD, gD, imm6. (R340) -/
  | shlG16 (d : BitVec 5) (i : BitVec 6)
  /-- SHR: Logical shift right. (R340) -/
  | shr (d : BitVec 6) (t : BitVec 2) (s : BitVec 6) (u : BitVec 2) (r : BitVec 6)
  /-- SHR_G16: 16-bit form of SHR gD, gD, imm6. (R340) -/
  | shrG16 (d : BitVec 5) (i : BitVec 6)
  /-- SAR: Arithmetic shift right. (R340) -/
  | sar (d : BitVec 6) (t : BitVec 2) (s : BitVec 6) (u : BitVec 2) (r : BitVec 6)
  /-- ROT: Left rotation by the count. (R340) -/
  | rot (d : BitVec 6) (t : BitVec 2) (s : BitVec 6) (u : BitVec 2) (r : BitVec 6)
  /-- MIN: Selects the smaller of two operands. (R310) -/
  | min (d : BitVec 6) (t : BitVec 2) (s : BitVec 6) (u : BitVec 2) (r : BitVec 6)
  /-- MAX: Selects the larger of two operands. (R310) -/
  | max (d : BitVec 6) (t : BitVec 2) (s : BitVec 6) (u : BitVec 2) (r : BitVec 6)
  /-- ABSD: Absolute difference of two operands. (R254) -/
  | absd (d : BitVec 6) (t : BitVec 2) (s : BitVec 6) (u : BitVec 2) (r : BitVec 6)
  /-- NEG: Negates its operand. (R327) -/
  | neg (d : BitVec 6) (t : BitVec 2) (s : BitVec 6)
  /-- DIV: Divides two operands. (R285) -/
  | div (d : BitVec 6) (t : BitVec 2) (s : BitVec 6) (u : BitVec 2) (r : BitVec 6)
  /-- REM: Integer remainder of two operands. (R285) -/
  | rem (d : BitVec 6) (t : BitVec 2) (s : BitVec 6) (u : BitVec 2) (r : BitVec 6)
  /-- SQRT: Correctly rounded square root per lane. (R341) -/
  | sqrt (d : BitVec 6) (s : BitVec 6)
  /-- RSQ: Correctly rounded reciprocal square root per lane. (R341) -/
  | rsq (d : BitVec 6) (s : BitVec 6)
  /-- FMA: Fused d := a·b + d. (R292) -/
  | fma (d : BitVec 6) (t : BitVec 2) (s : BitVec 6) (u : BitVec 2) (r : BitVec 6)
  /-- FMS: Fused d := a·b − d. (R292) -/
  | fms (d : BitVec 6) (t : BitVec 2) (s : BitVec 6) (u : BitVec 2) (r : BitVec 6)
  /-- DOT: Adds sums of adjacent products into wider lanes of vD. (R286) -/
  | dot (d : BitVec 6) (s : BitVec 6) (r : BitVec 6)
  /-- SCALE: Multiplies every lane by a power of two. (R342) -/
  | scale (d : BitVec 6) (s : BitVec 6) (u : BitVec 2) (r : BitVec 6)
  /-- CEQ: Compares for equality into g or k. (R275) -/
  | ceq (d : BitVec 6) (t : BitVec 2) (s : BitVec 6) (u : BitVec 2) (r : BitVec 6)
  /-- CNE: Compares for inequality into g or k. (R275) -/
  | cne (d : BitVec 6) (t : BitVec 2) (s : BitVec 6) (u : BitVec 2) (r : BitVec 6)
  /-- CLT: Compares less-than into g or k. (R275) -/
  | clt (d : BitVec 6) (t : BitVec 2) (s : BitVec 6) (u : BitVec 2) (r : BitVec 6)
  /-- CLE: Compares less-or-equal into g or k. (R275) -/
  | cle (d : BitVec 6) (t : BitVec 2) (s : BitVec 6) (u : BitVec 2) (r : BitVec 6)
  /-- CLZ: Counts leading zero bits. (R278) -/
  | clz (d : BitVec 6) (t : BitVec 2) (s : BitVec 6)
  /-- FFS: Gives the index of the lowest set bit. (R278) -/
  | ffs (d : BitVec 6) (t : BitVec 2) (s : BitVec 6)
  /-- POPC: Counts set bits. (R278) -/
  | popc (d : BitVec 6) (t : BitVec 2) (s : BitVec 6)
  /-- BREV: Reverses the bits of the operand or each lane. (R269) -/
  | brev (d : BitVec 6) (t : BitVec 2) (s : BitVec 6)
  /-- CVT: Converts vector elements to the destination type. (R46) -/
  | cvt (d : BitVec 6) (s : BitVec 6) (l : BitVec 6)
  /-- CVTF: Converts with error-feedback rounding, optionally chained through efr. (R47) -/
  | cvtf (d : BitVec 6) (s : BitVec 6) (l : BitVec 6)
  /-- TAG: Copies bits and retags without converting. (R48) -/
  | tag (d : BitVec 6) (s : BitVec 6) (l : BitVec 6)
  /-- SHUF: Permutes lanes of vS by an index vector or constant. (R344) -/
  | shuf (d : BitVec 6) (s : BitVec 6) (u : BitVec 2) (r : BitVec 6)
  /-- BCAST: Converts one value and writes it to every lane. (R266) -/
  | bcast (d : BitVec 6) (t : BitVec 2) (s : BitVec 6) (y : BitVec 6)
  /-- SLIDE: Moves lanes toward lane 0 by k lanes. (R345) -/
  | slide (d : BitVec 6) (s : BitVec 6) (u : BitVec 2) (r : BitVec 6)
  /-- ZIP: Interleaves the low halves of two vectors. (R363) -/
  | zip (d : BitVec 6) (s : BitVec 6) (r : BitVec 6)
  /-- MOV: Copies its operand, destination kind following the source. (R319) -/
  | mov (d : BitVec 6) (t : BitVec 2) (s : BitVec 6)
  /-- MOV_G16: 16-bit form of MOV gD, gS. (R319) -/
  | movG16 (d : BitVec 5) (s : BitVec 6)
  /-- MOV_V16: 16-bit form of MOV vD, vS. (R319) -/
  | movV16 (d : BitVec 5) (s : BitVec 6)
  /-- MVS: Moves one lane of a vector into a scalar. (R323) -/
  | mvs (d : BitVec 6) (s : BitVec 6) (u : BitVec 2) (r : BitVec 6)
  /-- MVV: Writes one lane of vD and keeps the rest. (R324) -/
  | mvv (d : BitVec 6) (t : BitVec 2) (s : BitVec 6) (u : BitVec 2) (r : BitVec 6)
  /-- SEL: Merges two vectors lane by lane under km. (R343) -/
  | sel (d : BitVec 6) (s : BitVec 6) (r : BitVec 6)
  /-- RSUM: Tree sum of lanes into lane 0. (R339) -/
  | rsum (d : BitVec 6) (s : BitVec 6)
  /-- RMAX: Tree maximum of lanes into lane 0. (R339) -/
  | rmax (d : BitVec 6) (s : BitVec 6)
  /-- RMIN: Tree minimum of lanes into lane 0. (R339) -/
  | rmin (d : BitVec 6) (s : BitVec 6)
  /-- ROR: Tree OR of lanes into lane 0. (R339) -/
  | ror (d : BitVec 6) (s : BitVec 6)
  /-- KAND: ANDs two mask registers. (R303) -/
  | kand (d : BitVec 6) (s : BitVec 6) (r : BitVec 6)
  /-- KOR: ORs two mask registers. (R303) -/
  | kor (d : BitVec 6) (s : BitVec 6) (r : BitVec 6)
  /-- KNOT: Inverts a mask register. (R303) -/
  | knot (d : BitVec 6) (s : BitVec 6)
  /-- KUSE: Sets km from a mask register. (R303) -/
  | kuse (s : BitVec 6)
  /-- EXP2: Correctly rounded 2^x per lane. (R288) -/
  | exp2 (d : BitVec 6) (s : BitVec 6)
  /-- LOG2: Correctly rounded log2 per lane. (R288) -/
  | log2 (d : BitVec 6) (s : BitVec 6)
  /-- RCP: Correctly rounded reciprocal per lane. (R288) -/
  | rcp (d : BitVec 6) (s : BitVec 6)
  /-- TANH: Correctly rounded tanh per lane. (R288) -/
  | tanh (d : BitVec 6) (s : BitVec 6)
  /-- QAND: ANDs two membership registers. (R331) -/
  | qand (d : BitVec 6) (s : BitVec 6) (r : BitVec 6)
  /-- QOR: ORs two membership registers. (R331) -/
  | qor (d : BitVec 6) (s : BitVec 6) (r : BitVec 6)
  /-- QANDN: Computes qA AND NOT qB. (R331) -/
  | qandn (d : BitVec 6) (s : BitVec 6) (r : BitVec 6)
  /-- QXOR: XORs two membership registers. (R331) -/
  | qxor (d : BitVec 6) (s : BitVec 6) (r : BitVec 6)
  /-- QCNT: Counts the set bits of a membership register. (R333) -/
  | qcnt (d : BitVec 6) (s : BitVec 6)
  /-- QIDX: Extracts up to 16 members into vD, sets km and advances gC. (R334) -/
  | qidx (d : BitVec 6) (s : BitVec 6) (r : BitVec 6)
  /-- QMARK: Sets membership bits named by lanes of vI. (R332) -/
  | qmark (d : BitVec 6) (s : BitVec 6)
  /-- QCLR: Clears membership bits named by lanes of vI. (R332) -/
  | qclr (d : BitVec 6) (s : BitVec 6)
  /-- VGTH: Gathers one element per lane from indexed locations. (R357) -/
  | vgth (d : BitVec 6) (s : BitVec 6) (r : BitVec 6)
  /-- VSCT: Scatters one element per lane to indexed locations. (R357) -/
  | vsct (d : BitVec 6) (s : BitVec 6) (r : BitVec 6)
  /-- ADDI: Adds a signed 12-bit immediate. (R257) -/
  | addi (d : BitVec 6) (s : BitVec 6) (i : BitVec 12)
  /-- ADDI_G16: 16-bit form of ADDI gD, gD, imm6. (R257) -/
  | addiG16 (d : BitVec 5) (i : BitVec 6)
  /-- ANDI: ANDs with a sign-extended 12-bit immediate. (R260) -/
  | andi (d : BitVec 6) (s : BitVec 6) (i : BitVec 12)
  /-- LIT: Sets gD to a sign-extended 18-bit literal. (R307) -/
  | lit (d : BitVec 6) (i : BitVec 18)
  /-- LIT_G16: 16-bit form of LIT gD, imm6. (R307) -/
  | litG16 (d : BitVec 5) (i : BitVec 6)
  /-- LITH: Shifts gD left by 18 and ORs in an unsigned literal. (R307) -/
  | lith (d : BitVec 6) (i : BitVec 18)
  /-- LD: Loads 1, 2, 4 or 8 bytes into gD. (R304) -/
  | ld (d : BitVec 6) (b : BitVec 6) (c : BitVec 5) (o : BitVec 7)
  /-- LD_G16: 16-bit form of LD.n64 gD, [gS]. (R304) -/
  | ldG16 (d : BitVec 5) (s : BitVec 6)
  /-- ST: Stores the low bytes of gS. (R347) -/
  | st (d : BitVec 6) (b : BitVec 6) (c : BitVec 5) (o : BitVec 7)
  /-- ST_G16: 16-bit form of ST.n64 gS, [gB]. (R347) -/
  | stG16 (d : BitVec 5) (s : BitVec 6)
  /-- VLD: Loads one vector and sets its tag from the class. (R358) -/
  | vld (d : BitVec 6) (b : BitVec 6) (c : BitVec 5) (o : BitVec 7)
  /-- VST: Stores one vector under km. (R358) -/
  | vst (d : BitVec 6) (b : BitVec 6) (c : BitVec 5) (o : BitVec 7)
  /-- AADD: Atomic 64-bit add at the home. (R253) -/
  | aadd (d : BitVec 6) (a : BitVec 6) (v : BitVec 6) (p : BitVec 4) (o : BitVec 2)
  /-- AAND: Atomic 64-bit AND at the home. (R253) -/
  | aand (d : BitVec 6) (a : BitVec 6) (v : BitVec 6) (p : BitVec 4) (o : BitVec 2)
  /-- AOR: Atomic 64-bit OR at the home. (R253) -/
  | aor (d : BitVec 6) (a : BitVec 6) (v : BitVec 6) (p : BitVec 4) (o : BitVec 2)
  /-- AXOR: Atomic 64-bit XOR at the home. (R253) -/
  | axor (d : BitVec 6) (a : BitVec 6) (v : BitVec 6) (p : BitVec 4) (o : BitVec 2)
  /-- AMIN: Atomic signed minimum at the home. (R253) -/
  | amin (d : BitVec 6) (a : BitVec 6) (v : BitVec 6) (p : BitVec 4) (o : BitVec 2)
  /-- AMAX: Atomic signed maximum at the home. (R253) -/
  | amax (d : BitVec 6) (a : BitVec 6) (v : BitVec 6) (p : BitVec 4) (o : BitVec 2)
  /-- AXCH: Atomic exchange at the home. (R253) -/
  | axch (d : BitVec 6) (a : BitVec 6) (v : BitVec 6) (p : BitVec 4) (o : BitVec 2)
  /-- ACAS: Atomic compare-and-swap against g(d). (R255) -/
  | acas (d : BitVec 6) (a : BitVec 6) (v : BitVec 6) (p : BitVec 4) (o : BitVec 2)
  /-- AFADD: Atomic f32 add at the home, rounded RNE. (R258) -/
  | afadd (d : BitVec 6) (a : BitVec 6) (v : BitVec 6) (p : BitVec 4) (o : BitVec 2)
  /-- AVADD: Posted atomic element-wise vector add into a 64-byte line. (R261) -/
  | avadd (a : BitVec 6) (v : BitVec 6) (p : BitVec 4) (o : BitVec 2)
  /-- LDAQ: Non-posted 8-byte load, optionally an acquire. (R305) -/
  | ldaq (d : BitVec 6) (a : BitVec 6) (p : BitVec 4) (o : BitVec 2)
  /-- STRL: Non-posted 8-byte store, optionally a release. (R348) -/
  | strl (a : BitVec 6) (v : BitVec 6) (p : BitVec 4) (o : BitVec 2)
  /-- FENCE: Stalls until the fence kind's condition holds and applies its effect. (R291) -/
  | fence (p : BitVec 4) (k : BitVec 2)
  /-- WAITA: Parks until a word differs from gV or the timeout expires. (R359) -/
  | waita (d : BitVec 6) (a : BitVec 6) (v : BitVec 6) (p : BitVec 4) (o : BitVec 2)
  /-- BZ: Branches when g(s) is zero. (R262) -/
  | bz (s : BitVec 6) (o : BitVec 18)
  /-- BZ_G16: 16-bit form of BZ with a 6-bit offset. (R262) -/
  | bzG16 (d : BitVec 5) (o : BitVec 6)
  /-- BNZ: Branches when g(s) is nonzero. (R262) -/
  | bnz (s : BitVec 6) (o : BitVec 18)
  /-- BNZ_G16: 16-bit form of BNZ with a 6-bit offset. (R262) -/
  | bnzG16 (d : BitVec 5) (o : BitVec 6)
  /-- BANY: Branches when k(s) is nonzero. (R262) -/
  | bany (s : BitVec 6) (o : BitVec 18)
  /-- BNONE: Branches when k(s) is zero. (R262) -/
  | bnone (s : BitVec 6) (o : BitVec 18)
  /-- LOOP: Opens a zero-overhead loop level or skips the body on count 0. (R309) -/
  | loop (s : BitVec 6) (o : BitVec 18)
  /-- JTAB: Continues at the jump-table entry indexed by gI, or after the table. (R302) -/
  | jtab (s : BitVec 6) (n : BitVec 18)
  /-- BR: Unconditional relative branch. (R268) -/
  | br (o : BitVec 24)
  /-- BR_16: 16-bit form of BR with an 11-bit offset. (R268) -/
  | br16 (o : BitVec 11)
  /-- CALL: Writes the link to g63 and branches. (R270) -/
  | call (o : BitVec 24)
  /-- JR: Jumps to gS and writes the return address to gD. (R301) -/
  | jr (d : BitVec 6) (s : BitVec 6)
  /-- RET: Jumps to g63. (R337) -/
  | ret
  /-- RET_16: 16-bit form of RET. (R337) -/
  | ret16
  /-- LEAVE: Closes the innermost loop level and continues at its end. (R306) -/
  | leave
  /-- TRAP: Raises a software trap with tval n. (R354) -/
  | trap (n : BitVec 10)
  /-- RETT: Ends a handler, resuming or ending the trapped helper. (R338) -/
  | rett (e : BitVec 4)
  /-- BKPT: Raises a breakpoint with tval n. (R267) -/
  | bkpt (n : BitVec 10)
  /-- NOP: Takes one issue slot with no effect. (R328) -/
  | nop
  /-- NOP_16: 16-bit form of NOP. (R328) -/
  | nop16
  /-- HSTART: Starts the lowest free helper at gS. (R298) -/
  | hstart (d : BitVec 6) (s : BitVec 6)
  /-- HEXIT: Ends the issuing helper. (R296) -/
  | hexit
  /-- HEXIT_16: 16-bit form of HEXIT. (R296) -/
  | hexit16
  /-- HWAIT: Parks while any named helper is live. (R299) -/
  | hwait (s : BitVec 6)
  /-- LIVE: Sets liveness of one group of 32 registers. (R308) -/
  | live (s : BitVec 6) (e : BitVec 4)
  /-- GANG: Requests formation of a gang of aligned cores. (R293) -/
  | gang (s : BitVec 6)
  /-- UNGANG: Disbands the gang. (R355) -/
  | ungang
  /-- MFS: Reads a status register into gD. (R315) -/
  | mfs (d : BitVec 6) (n : BitVec 10)
  /-- MTS: Writes gS to a status register under Table 20.3. (R316) -/
  | mts (s : BitVec 6) (n : BitVec 10)
  /-- CHKERR: Reads and clears chk. (R277) -/
  | chkerr (d : BitVec 6)
  /-- TNEXT: Parks until a task record is in the inbox. (R353) -/
  | tnext (d : BitVec 6)
  /-- TEND: Reports the current task's completion and frees its slot. (R350) -/
  | tend (d : BitVec 6)
  /-- TEND_16: 16-bit form of TEND gS. (R350) -/
  | tend16 (d : BitVec 5)
  /-- PAIR: Requests redundant pairing with the partner core. (R330) -/
  | pair
  /-- UNPAIR: Ends the interval and uncouples the pair once verified. (R356) -/
  | unpair
  /-- EXTL: Writes gS into an e register. (R289) -/
  | extl (s : BitVec 6) (e : BitVec 4)
  /-- EXTR: Reads an e register into gD. (R290) -/
  | extr (d : BitVec 6) (e : BitVec 4)
  /-- HALLOC: Allocates a local or scratchpad handle. (R295) -/
  | halloc (d : BitVec 6) (s : BitVec 6) (e : BitVec 4)
  /-- HFREE: Frees a handle after queued entries naming it finish. (R297) -/
  | hfree (s : BitVec 6)
  /-- MSEND: Sends a 16-byte program message to a core's mailbox. (R320) -/
  | msend (m : BitVec 6) (c : BitVec 6)
  /-- MWAIT: Parks until the mailbox is non-empty. (R325) -/
  | mwait
  /-- MWAIT_16: 16-bit form of MWAIT. (R325) -/
  | mwait16
  /-- MTAKE: Pops the oldest mailbox message into a register pair. (R321) -/
  | mtake (d : BitVec 6)
  /-- MTAKE_16: 16-bit form of MTAKE gD. (R321) -/
  | mtake16 (d : BitVec 5)
  /-- CPYSET: Writes a shadow copy field. (R280) -/
  | cpyset (s : BitVec 6) (f : BitVec 4)
  /-- CPYGO: Checks flags and enqueues a copy from the shadow fields. (R279) -/
  | cpygo (d : BitVec 6)
  /-- CPYST: Returns the state of a recent transfer. (R281) -/
  | cpyst (d : BitVec 6) (s : BitVec 6)
  /-- EQF: Joins the named engine and matrix queues. (R287) -/
  | eqf (s : BitVec 6)
  /-- CBINIT: Configures a circular buffer. (R273) -/
  | cbinit (d : BitVec 6) (s : BitVec 6) (n : BitVec 4)
  /-- CBACQ: Requests a free stage of a circular buffer. (R271) -/
  | cbacq (d : BitVec 6) (n : BitVec 4)
  /-- CBCOM: Releases and marks the oldest acquired stage filled. (R272) -/
  | cbcom (n : BitVec 4)
  /-- CBWAIT: Requests a filled stage of a circular buffer. (R274) -/
  | cbwait (d : BitVec 6) (n : BitVec 4)
  /-- CBREL: Releases and marks the oldest taken stage free. (R336) -/
  | cbrel (n : BitVec 4)
  /-- MMA: Checks records and enqueues an n-step matrix product. (R317) -/
  | mma (d : BitVec 6) (a : BitVec 6) (e : BitVec 4)
  /-- MMAG: Checks records and enqueues a grouped matrix product. (R318) -/
  | mmag (d : BitVec 6) (a : BitVec 6) (e : BitVec 4)
  /-- MCOMMIT: Closes the open batch and returns its number. (R312) -/
  | mcommit (d : BitVec 6)
  /-- MWAITB: Parks until at most n batches are outstanding. (R326) -/
  | mwaitb (n : BitVec 4)
  /-- TLD: Enqueues filling a tile from memory. (R351) -/
  | tld (d : BitVec 6) (a : BitVec 6)
  /-- TLDT: Enqueues filling a tile from memory in transposed order. (R351) -/
  | tldt (d : BitVec 6) (a : BitVec 6)
  /-- TST: Enqueues storing a tile to memory. (R351) -/
  | tst (d : BitVec 6) (a : BitVec 6)
  /-- TRD: Reads a tile row or column into a vector. (R352) -/
  | trd (d : BitVec 6) (i : BitVec 6) (e : BitVec 4)
  /-- TWR: Writes a vector into a tile row or column. (R352) -/
  | twr (d : BitVec 6) (i : BitVec 6) (e : BitVec 4)
  /-- TZERO: Zeroes a tile and sets it f32. (R352) -/
  | tzero (d : BitVec 6)
  /-- BARSET: Configures a barrier's plot and exchange. (R264) -/
  | barset (d : BitVec 6) (s : BitVec 6) (n : BitVec 4)
  /-- BARWAIT: Arrives at a barrier and parks until release. (R265) -/
  | barwait (n : BitVec 4)
  /-- BARARV: Arrives at a barrier without waiting. (R263) -/
  | bararv (n : BitVec 4)
  /-- XMIT: Schedules a vector transfer on an exchange lateral. (R361) -/
  | xmit (d : BitVec 6) (s : BitVec 6) (e : BitVec 4)
  /-- INTAKE: Schedules latching of an exchange lateral at a phase cycle. (R300) -/
  | intake (d : BitVec 6) (s : BitVec 6) (e : BitVec 4)
  /-- XCHG: All-to-all slice exchange among gang members. (R360) -/
  | xchg (d : BitVec 6) (s : BitVec 6)
  /-- GRPSET: Configures a multicast group. (R294) -/
  | grpset (d : BitVec 6) (s : BitVec 6)
  /-- MCAST: Sends a vector to every member of a multicast group. (R311) -/
  | mcast (d : BitVec 6) (s : BitVec 6)
  /-- QLD: Loads a 128-byte membership register. (R335) -/
  | qld (d : BitVec 6) (s : BitVec 6)
  /-- QST: Stores a 128-byte membership register. (R335) -/
  | qst (d : BitVec 6) (s : BitVec 6)
  /-- MEET: Posts the thread's arrival at a node home. (R313) -/
  | meet (s : BitVec 6)
  /-- MEETQ: Parks until b0 releases, then asks the home for the role. (R314) -/
  | meetq (d : BitVec 6) (e : BitVec 4)
  /-- SPLIT: Divides the thread's set into a child or held record. (R346) -/
  | split (d : BitVec 6) (s : BitVec 6) (e : BitVec 4)
  /-- CFCFG: Configures node homes, holding queue and table clearing. (R276) -/
  | cfcfg (s : BitVec 6)
  /-- CVDONE: Releases and declares the point result final. (R282) -/
  | cvdone
  /-- CVST: Reads the coverage controller's state. (R283) -/
  | cvst (d : BitVec 6) (e : BitVec 4)
  /-- HELPER_TRAP_DELIVERY: A frozen helper's trap is delivered to the control context at its next boundary. (R99) -/
  | helperTrapDelivery (core : Nat)
  /-- TASK_REDELIVERY: Once the core's outstanding count is zero, the record is delivered again with attempt + 1. (R109) -/
  | taskRedelivery (core : Nat)
  /-- GANG_FORM: When all members have issued GANG, the gang forms with the leader's stream. (R25) -/
  | gangForm (core : Nat)
  /-- TNEXT_TAKE: A parked TNEXT takes the oldest record into e0–e7 and clears chk. (R27) -/
  | tnextTake (core : Nat)
  /-- TASK_DELIVERY: The distributor places a ready point's record into an eligible core's inbox. (R201) -/
  | taskDelivery (launch : Nat)
  /-- STATIC_HANDLE_FREE: Static handles are freed after launch completion and a drained count. (R120) -/
  | staticHandleFree (launch : Nat)
  /-- HOME_ACCESS_PERFORM: A request arriving at a home is checked and performed in arrival order. (R79) -/
  | homeAccessPerform (arrival : HomeArrival)
  /-- ACCESS_REPLY: The reply to a non-posted access arrives and releases the context. (R59) -/
  | accessReply (id : Nat)
  /-- WAITA_TIMEOUT: On timeout the home reads the word once and returns it. (R93) -/
  | waitaTimeout (core ctx : Nat)
  /-- WAITA_POLL: Without a free monitor, the home polls the word every 2,500 cycles. (R94) -/
  | waitaPoll (core ctx : Nat)
  /-- MAILBOX_ARRIVAL: A message enters a mailbox when it arrives or when room appears. (R152) -/
  | mailboxArrival (core : Nat)
  /-- COPY_START: A free copy engine takes the queue head, reads the guard and copies. (R149) -/
  | copyStart (core : Nat) (turn : CopyTurn)
  /-- COPY_COMPLETION: A finished copy sends its completion message, commits cbN or does nothing. (R150) -/
  | copyCompletion (core queue : Nat)
  /-- CBACQ_GRANT: A parked CBACQ receives the freed head stage. (R271) -/
  | cbacqGrant (cluster n : Nat)
  /-- CBWAIT_GRANT: A parked CBWAIT receives the filled tail stage. (R274) -/
  | cbwaitGrant (cluster n : Nat)
  /-- ARBITER_GRANT: The cluster arbiter grants the matrix unit steps by weighted round robin. (R140) -/
  | arbiterGrant (cluster : Nat)
  /-- MATRIX_ENTRY_COMPLETE: A tile transfer entry completes when all rows have returned or performed. (R139) -/
  | matrixEntryComplete (core : Nat)
  /-- BATCH_COMPLETE: A batch's entries have completed and it stops being outstanding. (R145) -/
  | batchComplete (core : Nat)
  /-- BARRIER_ARRIVAL_SEND: The core's arrival is sent once its pending-byte count reaches zero. (R160) -/
  | barrierArrivalSend (core b : Nat)
  /-- BARRIER_ARRIVAL_RECEIVE: The corner core receives and compares an arrival. (R159) -/
  | barrierArrivalReceive (corner b : Nat)
  /-- BARRIER_RELEASE: All members leave BARWAIT on one cycle and increment ssnN. (R160) -/
  | barrierRelease (corner b : Nat)
  /-- EXCHANGE_PHASE_END: At phc = L the phase ends and compute resumes. (R164) -/
  | exchangePhaseEnd (core : Nat)
  /-- XMIT_DRIVE: At its slot an XMIT drives the vector onto its segments. (R166) -/
  | xmitDrive (core : Nat)
  /-- XMIT_ARRIVAL: A transfer arrives at phase cycle a and the XMIT completes. (R166) -/
  | xmitArrival (core : Nat)
  /-- INTAKE_LATCH: At its phase cycle an INTAKE latches the arrival or zero. (R167) -/
  | intakeLatch (core : Nat)
  /-- XCHG_EXCHANGE: When all members reach XCHG, slices are exchanged. (R168) -/
  | xchgExchange (core : Nat)
  /-- MEET_ARRIVAL: A meet arrival merges into or creates a confluence entry at the home. (R185) -/
  | meetArrival (id : Nat)
  /-- MEETQ_RESOLVE: After b0 releases, MEETQ obtains its role and sets. (R186) -/
  | meetqResolve (core ctx : Nat)
  /-- GRPSET_RESUME: A stalled GRPSET completes once earlier packets have landed. (R171) -/
  | grpsetResume (core ctx : Nat)
  /-- GRPSET_TIMEOUT: After 2^22 stalled cycles GRPSET drops stale packets and sets chk bit 3. (R171) -/
  | grpsetTimeout (core ctx : Nat)
  /-- TRANSLATION_WALK: A page-table walk completes for queued misses. (R66) -/
  | translationWalk (die : Nat)
  /-- STA_TIMEOUT: No answer in 50,000 cycles gives a translation fault with subcode 4. (R238) -/
  | staTimeout (tag : Nat)
  /-- INVALIDATION_COMPLETE: An invalidation completes when accesses under dropped entries are performed. (R68) -/
  | invalidationComplete (id : Nat)
  /-- PAIR_RENDEZVOUS: Both partners have issued PAIR; each takes a checkpoint and the first interval starts. (R217) -/
  | pairRendezvous (core : Nat)
  /-- PAIR_TIMEOUT: The partner does not issue PAIR within 2^20 cycles; gang fault. (R217) -/
  | pairTimeout (core : Nat)
  /-- PAIR_INTERVAL_COMPARE: At interval end the cores exchange fingerprints and commit or roll back. (R221) -/
  | pairIntervalCompare (core : Nat)
  /-- REBALANCE: At each rebalance instant donors give cores to receivers. (R199) -/
  | rebalance (launch : Nat)
  /-- PRIORITY_AGING: A waiting launch's effective priority rises by one each millisecond. (R200) -/
  | priorityAging (launch : Nat)
  /-- CLUSTER_WAKE: A gated cluster is woken when the stage's backlog warrants it. (R202) -/
  | clusterWake (cluster : Nat)
  /-- CLUSTER_GATE: A cluster idle for 50,000 cycles is gated with SRAM in retention. (R202) -/
  | clusterGate (cluster : Nat)
  /-- BAND_START: The walker starts a band and fixes its code. (R205) -/
  | bandStart (launch stage : Nat)
  /-- RECONSTRUCTION: A reconstruction unit rebuilds a skipped point once its sources are final. (R206) -/
  | reconstruction (launch stage point : Nat)
  /-- CONTROLLER_UPDATE: At a band's update instant the controller moves the coverage code. (R208) -/
  | controllerUpdate (launch stage : Nat)
  /-- LAUNCH_COMPLETE: A launch completes and the distributor writes status and completion signal. (R203) -/
  | launchComplete (launch : Nat)
  /-- BUDGET_PERIOD: Every 25,000 cycles activity budgets are renewed. (R211) -/
  | budgetPeriod
  /-- CL_NOP: Command-list entry with no effect. (R193) -/
  | clNop (queue : Nat)
  /-- CL_LAUNCH: Command-list entry that checks and starts a launch. (R196) -/
  | clLaunch (queue : Nat)
  /-- CL_COPY: Command-list entry that enqueues a copy. (R193) -/
  | clCopy (queue : Nat)
  /-- CL_WAIT: Command-list entry that reads a word until a test holds. (R193) -/
  | clWait (queue : Nat)
  /-- CL_SIGNAL: Command-list entry that stores a value as a release. (R193) -/
  | clSignal (queue : Nat)
  /-- CL_SKIPIF: Command-list entry that skips entries when a test holds. (R193) -/
  | clSkipif (queue : Nat)
  /-- CL_JUMP: Command-list entry that continues at another entry. (R193) -/
  | clJump (queue : Nat)
  /-- CL_CALL: Command-list entry that pushes a return and continues at addr. (R193) -/
  | clCall (queue : Nat)
  /-- CL_RETURN: Command-list entry that pops the return stack. (R193) -/
  | clReturn (queue : Nat)
  /-- CL_SETREG: Command-list entry that writes a shadow register. (R193) -/
  | clSetreg (queue : Nat)
  /-- STATUS_RECORD_WRITE: The headgate writes a queue's status record on change and periodically. (R234) -/
  | statusRecordWrite (queue : Nat)
  /-- ILLEGAL_INSTRUCTION: An instruction word with a reserved major, minor or fn raises illegal instruction at issue. (R134) -/
  | illegalInstruction (word : BitVec 32) (wide : Bool)
  /-- CL_BAD_OP: A command-list entry with op 0x0A–0xFF stops its queue with stop cause 1. (R194) -/
  | clBadOp (queue : Nat)
  /-- POSTED_ACCESS_RESPONSE: The notice that a posted store, atomic or MCAST packet was performed, dropped or refused reaches the sender; it lowers the pending-byte and outstanding counts, and a NACK sets chk bit 5. (R162) -/
  | postedAccessResponse (id : Nat)
  /-- RE_ENCODE_COMPLETE: The in-place re-encode of an array that enters or leaves retention ends after 2,048 or 4,096 cycles, and the accesses stalled at its home proceed. (R214) -/
  | reEncodeComplete (array : SramArray)
  /-- PARTITION_CLEAR_COMPLETE: Zeroing of a partition's SRAM, context regions and tile tables ends after about 3 ms, so its cores may be assigned and a killed core's storage freed. (R74) -/
  | partitionClearComplete (part : Nat)
  /-- CORE_ASSIGNMENT: A core is assigned to a partition, clearing windows and creating context 0. (R12) -/
  | coreAssignment (core part : Nat) (tvec entry : Word)
  /-- PARTITION_CLEAR: On owner change, the partition's SRAM is zeroed and tile tables freed. (R74) -/
  | partitionClear (part : Nat) (next : PartitionSpec)
  /-- PREEMPTION: The supervisor stops and saves a task's state at instruction and step boundaries. (R111) -/
  | preemption (core : Nat)
  /-- PREEMPTION_RESUME: A pre-empted task's state is restored on the same cores. (R112) -/
  | preemptionResume (core : Nat)
  /-- UNCORRECTABLE_ERROR: An uncorrectable error is detected and handled by its location. (R213) -/
  | uncorrectableError (site : ErrorSite)
  /-- STA_ANSWER: The agent's answer is cached and the access proceeds. (R238) -/
  | staAnswer (tag : Nat) (leaf : Word) (level : Nat)
  /-- STA_REFUSAL: The agent's refusal gives a translation fault with subcode 4. (R238) -/
  | staRefusal (tag : Nat)
  /-- STA_INVALIDATE: An agent invalidation runs the invalidation steps before acknowledgement. (R238) -/
  | staInvalidate (seq odi : Nat) (range : Option (Nat × Nat))
  /-- SELF_TEST_COMPLETION: A core's self-test ends after up to 250,000 cycles per class; failing classes are fenced, a base-set failure kills the core, and a passing ordered test restores classes and returns the core to placement. (R225) -/
  | selfTestCompletion (core : Nat) (failed : BitVec 28) (baseFailed : Bool)
  /-- KICK: An RMA kick write advances the queue's kick register or is ignored. (R232) -/
  | kick (host : Nat) (service : DeliveryService) (request : HostWrite)
  /-- DELTA_UPDATE: Delta packet opcode 0 updates shadow registers. (R233) -/
  | deltaUpdate (host : Nat) (packet : List Byte)
  /-- DELTA_DISPATCH: Delta packet opcode 1 updates shadow registers and dispatches a launch. (R233) -/
  | deltaDispatch (host : Nat) (packet : List Byte)
  /-- QUEUE_CONFIGURATION: TLV field 0x010 configures a command queue. (R231) -/
  | queueConfiguration (packet : TlvPacket)
  /-- SUBMISSION: TLV field 0x011 appends ring entries and kicks as one step. (R235) -/
  | submission (packet : TlvPacket)
  /-- BUDGET: TLV field 0x020 sets a consumer's activity budget. (R211) -/
  | budget (packet : TlvPacket)
  /-- PEER_READMIT: TLV field 0x021 re-admits an isolated peer. (R239) -/
  | peerReadmit (packet : TlvPacket)
  /-- SELF_TEST_ORDER: TLV field 0x022 orders a self-test that may restore classes. (R225) -/
  | selfTestOrder (packet : TlvPacket)
  /-- FENCE_COMMAND: TLV field 0x023 clears capability classes of a core. (R224) -/
  | fenceCommand (packet : TlvPacket)
  /-- TRANSLATION_INVALIDATE: TLV field 0x024 starts a translation invalidation for an ODI. (R68) -/
  | translationInvalidate (order : InvOrder)
  /-- SPDM: TLV field 0x030 carries an SPDM attestation message. (R244) -/
  | spdm (packet : TlvPacket)
  /-- COUNTER_READ: TLV field 0x040 returns a reliability counter. (R212) -/
  | counterRead (packet : TlvPacket)
  /-- CRASH_RECORD_READ: TLV field 0x041 returns a crash record slot. (R243) -/
  | crashRecordRead (packet : TlvPacket)
  /-- IMAGE_CHUNK: TLV field 0x050 delivers a chunk of incoming firmware. (R245) -/
  | imageChunk (packet : TlvPacket)
  /-- HAND_OVER_BEGIN: Hand-over control value 1 begins a live hand-over. (R245) -/
  | handOverBegin (packet : TlvPacket)
  /-- HAND_OVER_COMMIT: Hand-over control value 2 switches the root role to the new firmware. (R245) -/
  | handOverCommit (packet : TlvPacket)
  /-- HAND_OVER_CANCEL: Hand-over control value 3 discards the incoming image. (R245) -/
  | handOverCancel (packet : TlvPacket)
  /-- PEER_REQUEST: A UALink peer request is performed at its home and completed. (R237) -/
  | peerRequest (request : PeerReq)
  /-- PEER_COMPLETION: A peer's completion arrives and is delivered to the requester. (R236) -/
  | peerCompletion (id : Nat) (answer : PeerAnswer)
  /-- PEER_ISOLATION: A silent peer for 50,000 cycles is isolated. (R239) -/
  | peerIsolation (peer : Nat)
  /-- WATCHDOG_EXPIRY: A firmware watchdog expiry fails the role to a spare and writes a crash record. (R243) -/
  | watchdogExpiry (move : RoleMove)
  /-- STACK_PARK: A management packet parks or unparks a memory stack. (R247) -/
  | stackPark (stack : Nat) (parked : Bool)
  /-- SCRUB_READ: The scrub engine reads and corrects a DRAM line. (R215) -/
  | scrubRead (die : Nat) (outcome : ScrubOutcome)
  /-- LOSS_MARKER: An uncorrectable replay slot sends a loss marker and advances the window. (R172) -/
  | lossMarker (link seq : Nat)
  /-- LINK_REPLAY: A die-to-die or UALink sender replays a slot from its send window, which is counted per link. (R172) -/
  | linkReplay (link seq : Nat)
  /-- ULTRA_ETHERNET_ACKNOWLEDGEMENT: The Ultra Ethernet transport acknowledges delivery of a message to a host-side address, which makes it performed and lets host- or net-scope releases proceed. (R82) -/
  | ultraEthernetAcknowledgement (id : Nat)
  /-- NETWORK_MERGE: Two eligible posted atomics in one router queue merge into one packet. (R170) -/
  | networkMerge (a b : Nat)
  /-- DEADLOCK_PROBE: A queue head blocked 4,096 cycles sends a probe along its wait chain. (R169) -/
  | deadlockProbe (router : Nat)
  /-- DEADLOCK_ESCAPE: A returning probe moves every packet of the cycle one hop through escape slots. (R169) -/
  | deadlockEscape (router : Nat)
  /-- HOST_TABLE_SUPPLY: The host supplies a valid signed fence table or configuration table, which ends firmware-only service. (R226) -/
  | hostTableSupply (table : HostTable)
  /-- EXCHANGE_COLLISION: Two transfers on one segment in one cycle are discarded and their senders trap. (R166) -/
  | exchangeCollision
  /-- SELF_TEST_PERIODIC: Periodic self-test of an idle core fences failing classes. (R225) -/
  | selfTestPeriodic (move : SelfTestMove)
  /-- POWER_ON_RESET: Runs the full reset sequence. (R246) -/
  | powerOnReset
  /-- WARM_RESET: Runs the reset sequence without root of trust and stack training. (R246) -/
  | warmReset
  deriving DecidableEq, Repr

end Sys2Proof
end

