-- ==== Sys2Proof/Machine/State.lean ====
section
/-! DEFINITION. The state of the device: every register, store, queue, table and piece of work in progress that the
spec names, and the model's own turn list and free-value counter. All of it is plain data. -/
namespace Sys2Proof.Machine

/-- Why a step can stop the machine for good. The spec gives every instruction and event an effect, so nothing raises
a fault: the type has no constructor, which is safe. -/
inductive Fault
  deriving DecidableEq, Repr

/-- Why a step can have no meaning. -/
inductive Refusal where
  /-- Raised by an arm of `exec` that has no meaning yet. Safe: nothing is claimed of it. -/
  | notModelled (mnemonic : String)
  deriving DecidableEq, Repr

/-- A sparse table: pairs of a number and an entry, numbers rising. What an unlisted number holds is the reader's. -/
abbrev Tab (α : Type) := List (Nat × α)

/-- Bytes by address in the form of `Host.Cell`; an unlisted address reads as 0 (log 1). -/
abbrev Memory := List Host.Cell

/-! ### Registers -/

/-- A g register: its bits and its poison bit (R14, R108). -/
structure GVal where
  bits   : Word := 0
  poison : Bool := false
  deriving DecidableEq, Repr

/-- A v register: its bits, its tag and its poison bit (R14, R32). Dead or never written: zero, raw, clear (R19). -/
structure VVal where
  bits   : Vec := 0
  tag    : BitVec 5 := 13
  poison : Bool := false
  deriving DecidableEq, Repr

/-- A register of a context by kind and number; `status n` is status register n (R31, R219). -/
inductive Reg where
  | g (n : Nat) | v (n : Nat) | k (n : Nat) | q (n : Nat) | e (n : Nat) | status (n : Nat)
  deriving DecidableEq, Repr

/-- An open or closed loop level: lp0-lp3 (R22). -/
structure Level where
  start : Word := 0
  stop  : Word := 0
  count : Word := 0
  deriving DecidableEq, Repr

/-- The meet record (R185). -/
structure Meet where
  node  : BitVec 32
  stamp : BitVec 16
  deriving DecidableEq, Repr

/-- A release as a home records it for a line: the agent's core and context and its scope (R84). `isEngine` marks a
release by a copy; `wrote` has a bit for each byte of the line that the release wrote. -/
structure Release where
  core     : Nat
  ctx      : Nat
  isEngine : Bool
  scope    : BitVec 4
  wrote    : BitVec 64 := BitVec.allOnes 64
  deriving DecidableEq, Repr

/-- What a helper froze with (R99). -/
structure Frozen where
  cause : BitVec 8
  sub   : BitVec 8
  pc    : Word
  tval  : Word
  /-- The cycle at which it froze (R100). -/
  since : Nat
  deriving DecidableEq, Repr

/-- A trap that the control context takes once its outstanding accesses have returned (R97). -/
structure DueTrap where
  cause : BitVec 8
  sub   : BitVec 8
  tval  : Word
  len   : Nat
  deriving DecidableEq, Repr

/-- What a context that issues nothing is waiting for (R16, R59, R66, R221). -/
inductive Wait where
  /-- Ready. -/
  | none
  /-- Held for the reply of the non-posted access or WAITA with this number. -/
  | reply (op : Nat)
  | waita (op : Nat)
  /-- Held for a page-table walk. -/
  | walk
  | mwait
  | cbacq (n : Nat) (d : Nat)
  | cbwait (n : Nat) (d : Nat)
  | tnext (d : Nat)
  | hwait (mask : Word)
  | barwait (b : Nat)
  /-- MEETQ with the record it issued with (R186). -/
  | meetq (d x : Nat) (record : Meet)
  /-- MCOMMIT while eight batches are outstanding. -/
  | mcommit (d : Nat)
  | mwaitb (n : Nat)
  /-- GRPSET stalled since a cycle, with the operands it issued with (R171). -/
  | grpset (since : Nat) (group : Nat) (conf : Word)
  /-- GANG of n; a follower had a live helper when it issued it (R25). -/
  | gang (n : Nat) (bad : Bool)
  | pair (since : Nat)
  | xchg (d s : Nat)
  | xmit
  | intake (d slot dir : Nat)
  /-- Stopped at the end of a pairing interval (R221). -/
  | interval
  deriving DecidableEq, Repr

/-- One context (R14, Tables 1.2 and 1.5). -/
structure Context where
  live    : Bool := false
  pc      : Word := 0
  g       : Tab GVal := []
  v       : Tab VVal := []
  k       : Tab Word := []
  q       : Tab QSet := []
  e       : Tab Word := []
  fm      : Tab (BitVec 32) := []
  lp      : Tab Level := []
  lpd     : Nat := 0
  km      : Word := BitVec.allOnes 64
  rmode   : BitVec 2 := 0
  fpf     : BitVec 5 := 0
  efr     : BitVec 32 := 0
  chk     : BitVec 7 := 0
  det     : Bool := false
  /-- Liveness masks of g0-g63 and v0-v63 (R19). -/
  liveG   : Word := 0
  liveV   : Word := 0
  /-- The ten copy shadow fields (R148). -/
  shadow  : Tab GVal := []
  meet    : Option Meet := Option.none
  /-- The scope of an unconsumed release fence (R366). -/
  relMark : Option (BitVec 4) := Option.none
  /-- Recorded releases that loads have read, for the fences after them (R86). -/
  seen    : List Release := []
  wait    : Wait := Wait.none
  /-- The size of the waiting instruction, whether it read a poisoned source (R108), and its classes (R219). -/
  waitLen : Nat := 4
  waitTaint : Bool := false
  waitClasses : List Nat := []
  /-- Destinations of outstanding loads, each as often as it is awaited (R15, R64). -/
  loads   : List Reg := []
  frozen  : Option Frozen := Option.none
  /-- The walk that failed for the instruction at pc: its virtual page and subcode (R64, R69). -/
  walkErr : Option (Nat × BitVec 8) := Option.none
  /-- Words read by request and reply for the instruction at pc, by address (R106, R143). -/
  side    : List (Nat × (Word × Bool)) := []
  /-- The half of the instruction buffer the context fetches into (R20). -/
  half    : Bool := false
  /-- The cycle at which it last issued (R15). -/
  issued  : Option Nat := Option.none
  /-- The cycle of its last CHKERR: what sets a chk bit in that cycle has come first (R277). The model's own. -/
  chkRead : Option Nat := Option.none
  /-- Which context of this number it is; tells an event of an ended helper (R27). The model's own. -/
  life    : Nat := 0
  deriving DecidableEq, Repr

/-! ### Storage -/

/-- An entry of a tile table (R55). -/
structure TileEntry where
  used     : Bool := false
  gen      : BitVec 4 := 0
  rows     : Nat := 0
  rowBytes : Nat := 0
  rot      : Nat := 0
  granules : List Nat := []
  deriving DecidableEq, Repr

/-- A local memory or a scratchpad: its bytes by physical offset, the poison marks of its 8-byte words, its tile table
and its release records by 64-byte line (R55, R84, R108). -/
structure Store where
  bytes    : Memory := []
  poison   : Tab Bool := []
  tiles    : Tab TileEntry := []
  releases : Tab (Option Release) := []
  deriving DecidableEq, Repr

/-- A translation: the space it belongs to (a partition's, which fixes its table and its owner domain), virtual and
physical base, the size, and permissions (R65). -/
structure Trans where
  space  : Nat
  va     : Nat
  pa     : Nat
  size   : Nat
  r      : Bool
  w      : Bool
  x      : Bool
  deriving DecidableEq, Repr

/-- A line of the instruction buffer, and whether a context has issued from it (R20). -/
structure CodeLine where
  va     : Nat
  bytes  : List Byte
  poison : Bool
  half   : Bool
  used   : Bool := false
  deriving DecidableEq, Repr

/-- A message as a mailbox holds it. `copy` is the visibility scope and core of a completion (R150-R152). -/
structure Msg where
  w0     : Word
  w1     : Word
  poison : Bool
  src    : Nat
  ctx    : Nat
  copy   : Option (BitVec 4) := Option.none
  deriving DecidableEq, Repr

/-- A task record in an inbox slot with what the distributor delivers beside it (R27). -/
structure Task where
  /-- e0-e7. -/
  record  : List Word
  mask    : BitVec 28
  fv      : Nat
  fq      : Nat
  poison  : Bool
  /-- Which launch it belongs to: the device's own number of it, stage and point number. -/
  launch  : Nat
  stage   : Nat
  point   : Nat
  /-- The first point of the plot group it was delivered with (R201). -/
  group   : Nat
  /-- The odd core's copy of a paired task: the even core reports it (R201, R221). -/
  shadow  : Bool := false
  /-- The even core of the pair that has escalated with it: it goes to another pair (R223). -/
  barred  : List Nat := []
  /-- The cycle at which TNEXT took it. -/
  since   : Nat := 0
  /-- Killed cores that held it: it is delivered again only once nothing of theirs is outstanding (R216). -/
  after   : List Nat := []
  deriving DecidableEq, Repr

/-- A static handle that an object declares (R120). -/
structure StaticHandle where
  level    : Nat
  number   : Nat
  rows     : Nat
  rowBytes : Nat
  rot      : Nat
  deriving DecidableEq, Repr

/-! ### Engines -/

/-- Where a tile operation finds an operand: the 24-register group copied at issue, or memory (R141, R142). -/
structure Operand where
  loc   : Word
  rot   : Nat
  tp    : Nat
  rp    : Nat
  /-- The 1,536 bytes of a VG operand. -/
  group : Option (List Byte)
  deriving DecidableEq, Repr

/-- What an entry of the matrix queue does. -/
inductive MatKind where
  | mma | mmag | tld | tldt | tst
  deriving DecidableEq, Repr

/-- An entry of mq (R139, R143, R147). -/
structure MatEntry where
  kind    : MatKind
  tile    : Nat
  options : Word
  a       : Operand
  b       : Operand
  /-- Row counts of the groups; one group of 16 for MMA. -/
  rows    : List Nat
  /-- Formats of narrow A and B types, as the format registers held them at issue. -/
  fmA     : BitVec 32
  fmB     : BitVec 32
  guarded : Bool
  poison  : Bool
  ctx     : Nat
  /-- Transfers issued and not yet returned or performed; none until the step has issued some. -/
  rowsOut : Option Nat
  /-- Data that has come for the step, by piece. -/
  rowData : List (Nat × (List Byte × Bool))
  /-- A TST row failed or a step read poison (R142, R108). -/
  failed  : Bool
  readPoison : Bool
  /-- Serial number of the entry at its core, and the entries it waits for under EQF (R88). -/
  serial  : Nat
  joins   : List (Nat × Nat)
  /-- Next step to run (tstep of a saved entry, R111). -/
  next    : Nat
  deriving DecidableEq, Repr

/-- A tile of the accumulator store: elements by 16·row + column, type, poison, and whether an issued instruction
naming it is not yet covered (R143, R146). -/
structure Tile where
  elems  : Tab (BitVec 32) := []
  isInt  : Bool := false
  poison : Bool := false
  deriving DecidableEq, Repr

/-- A batch: its number, the serial numbers of its unfinished entries, the tiles they name, whether it has stopped being
outstanding, and what MWAITB is to report when it covers it (R145, R146). -/
structure Batch where
  number  : BitVec 64 := 0
  entries : List Nat := []
  tiles   : List Nat := []
  done    : Bool := false
  poison  : Bool := false
  failed  : Bool := false
  deriving DecidableEq, Repr

/-- An entry of a copy queue: the ten fields and who issued it (R148, R149). -/
structure CopyEntry where
  fields : List Word
  /-- Saved when it had begun: the pieces left, the status and the bytes so far (R111). -/
  begun  : Option (List Nat × Nat × Nat) := Option.none
  id     : BitVec 16
  ctx    : Nat
  life   : Nat
  era    : Nat
  serial : Nat
  joins  : List (Nat × Nat)
  /-- A command-queue copy: the queue (R193). -/
  queue  : Option Nat
  deriving DecidableEq, Repr

/-- What a copy did: set by COPY_START, reported by COPY_COMPLETION (R107, R150). -/
structure CopyRun where
  entry  : CopyEntry
  engine : Nat
  status : Nat
  bytes  : Nat
  /-- Requests for its lines and writes of them, to pod peers and to other dies, that are not answered. -/
  left   : Nat
  /-- Pieces, each within a line of either side, that are not yet copied (R90), and whether the guard word is awaited. -/
  todo   : List Nat := []
  guard  : Bool := false
  deriving DecidableEq, Repr

/-- One of eq0-eq3. -/
structure CopyQueue where
  entries : List CopyEntry := []
  running : Option CopyRun := Option.none
  deriving DecidableEq, Repr

/-- What CPYST knows of a transfer (R150). -/
inductive CopyState where
  | queued | running | done (status : Nat)
  deriving DecidableEq, Repr

/-- A recent transfer: its id, its state and its visibility scope and context. -/
structure Transfer where
  id    : BitVec 16
  state : CopyState
  scope : BitVec 4
  ctx   : Nat
  deriving DecidableEq, Repr

/-! ### Barriers, exchange, traversal, groups -/

/-- A barrier register of a core (R158-R162). -/
structure Barrier where
  /-- The rectangle word's upper half and the configuration word, once BARSET has set them. -/
  conf    : Option (BitVec 32 × Word) := Option.none
  arrived : Bool := false
  sent    : Bool := false
  /-- A BARARV has been issued since the last BARWAIT. -/
  byArv   : Bool := false
  /-- Released while no BARWAIT was parked; the next BARWAIT returns at once. -/
  passed  : Bool := false
  pending : BitVec 48 := 0
  /-- The arrival waits for packets numbered below this, and the cycle at which it was sent (R160, R162). -/
  mark    : Nat := 0
  sentAt  : Nat := 0
  /-- The cycle of a release that let a parked BARWAIT go: the next instruction issues in it (R174). -/
  freed   : Option Nat := Option.none
  deriving DecidableEq, Repr

/-- The exchange phase of a core: barrier, first cycle and length (R164). -/
structure Phase where
  b     : Nat
  start : Nat
  len   : Nat
  deriving DecidableEq, Repr

/-- A transfer on the exchange plane (R166). -/
structure Transfer2 where
  src     : Nat
  slot    : Nat
  hops    : Nat
  dir     : Nat
  arrive  : Nat
  /-- The cycle phc 0 of its phase. -/
  start   : Nat
  value   : VVal
  driven  : Bool
  /-- The XMIT has completed; an INTAKE has taken the value. -/
  landed  : Bool := false
  taken   : Bool := false
  deriving DecidableEq, Repr

/-- An entry of a confluence table (R184). -/
structure Conf where
  node  : BitVec 32
  stamp : BitVec 16
  owner : BitVec 16
  set   : QSet
  deriving DecidableEq, Repr

/-- The holding queue that a CFCFG named, and the slots of it that hold records, oldest first (R183, R189, R276). -/
structure Holding where
  handle : Nat
  gen    : BitVec 4
  slots  : List Nat
  deriving DecidableEq, Repr

/-- A multicast group: its configuration and the packets not yet landed (R171). -/
structure Group where
  conf    : Option Word := Option.none
  pending : Nat := 0
  deriving DecidableEq, Repr

/-- What a gang member takes back when a window refuses another member's access of the same instruction: the
instruction's registers, the bytes and poison marks of its local memory and the release records, as they were before
it (R26). The model's own. -/
structure Before where
  context  : Context
  regs     : List Reg
  bytes    : List (Nat × Byte)
  marks    : List (Nat × Bool)
  releases : List (Nat × Option Release)
  /-- Bits of chk that the instruction has set. -/
  chk      : BitVec 7
  deriving DecidableEq, Repr

/-- The gang a core belongs to: members in core-number order, the leader first (R25). -/
structure Gang where
  members : List Nat
  before  : Option Before := none
  deriving DecidableEq, Repr

/-! ### Accesses in flight -/

/-- A home (R75). -/
inductive Home where
  | localMem (core : Nat)
  | scratch (cluster : Nat)
  | channel (ch : Nat)
  | peer (id : Nat)
  deriving DecidableEq, Repr

/-- What a packet does at its home. Atomic operations are numbered as their majors (Table 18.2, R255, R258). -/
inductive Act where
  | read (bytes : Nat)
  /-- Write the bits of the data that the mask selects; an empty mask selects all (R358). -/
  | write (data mask : List Byte)
  | atomic (op : Nat) (bytes : Nat) (value expected : Word)
  | vadd (tag : BitVec 5) (km : Word) (data : List Byte)
  | watch (old : Word) (timeout : Nat)
  deriving DecidableEq, Repr

/-- What an access's reply is written to. -/
inductive Dest where
  /-- Nothing. -/
  | none
  /-- A g register, from a load of a memory class (R304). -/
  | scalar (d : Nat) (cls : Nat)
  /-- A v register loaded under a mask; `half` marks nibble-packed elements, `width` the bits of a narrow one (R358). -/
  | vector (d : Nat) (tag : BitVec 5) (half : Bool) (width : Nat) (km : Word)
  /-- The lanes of a v register named by the parts (R357). -/
  | lanes (d : Nat) (tag : BitVec 5) (bytes : Nat)
  /-- A q register (R335). -/
  | query (d : Nat)
  /-- A g register, the whole word (atomics, LDAQ, WAITA). -/
  | word (d : Nat)
  /-- A line of code for a half of the instruction buffer (R20, R65). -/
  | code (va : Nat) (half : Bool)
  /-- A word of the waiting instruction's own (Context.side). -/
  | side (key : Nat)
  /-- A row of the tile entry with this serial number. -/
  | tileRow (serial row : Nat)
  /-- A line that the running copy of a queue writes at a location, with a rotation code; its guard word. -/
  | copied (queue : Nat) (dest : Word) (rot : Nat)
  | guard (queue : Nat)
  /-- Bytes of a pod peer that a partition's unit reads, by physical address. -/
  | unit (pa : Nat)
  deriving DecidableEq, Repr

/-- A non-posted access: who issued it, where its data goes, and what has come back (R59). -/
structure Op where
  core  : Nat
  ctx   : Nat
  life  : Nat
  era   : Nat
  dest  : Dest
  loc   : Word
  /-- The context is held until the last reply. -/
  holds : Bool
  left  : Nat
  parts : List (Nat × (List Byte × Bool))
  /-- Acquire scope of an acquiring access (R84). -/
  acq   : Option (BitVec 4)
  /-- The lowest part that a window refused, and its location (R59). -/
  nack  : Option (Nat × Word)
  /-- A register source of the access was poisoned (R108). -/
  taint : Bool
  /-- The releases that its replies have brought, each with the outcome of its home's check (R85). -/
  read  : List (Release × Bool) := []
  deriving DecidableEq, Repr

/-- A request on the message plane or on its way to a main-memory home or a peer (R169). -/
structure Packet where
  id      : Nat
  core    : Nat
  ctx     : Nat
  life    : Nat
  era     : Nat
  loc     : Word
  /-- Its physical address when the location is a virtual address. -/
  pa      : Option Nat
  home    : Home
  act     : Act
  poison  : Bool
  odi     : Nat
  /-- The non-posted access it belongs to, and which part of it; none when posted. -/
  op      : Option Nat
  part    : Nat
  order   : BitVec 2
  scope   : BitVec 4
  /-- Barriers whose pending-byte counts hold its bytes, and how many (R162). -/
  counted : List Nat
  bytes   : Nat
  group   : Option Nat
  noMerge : Bool
  /-- Issued to local storage of the issuer: no window check (R58). -/
  isLocal : Bool
  /-- When a WAITA armed at its home times out, and when it is next polled; both 0 before it arrives (R93, R94). -/
  timeout : Nat := 0
  armed   : Option Bool := Option.none
  poll    : Nat := 0
  /-- The whole access it is a part of, when its home checks that: location and size (R58, R181). -/
  whole   : Option (Word × Nat) := Option.none
  /-- Packets that it has absorbed: core, context, its life, the core's era, and number (R170). -/
  merged  : List (Nat × Nat × Nat × Nat × Nat) := []
  /-- The matrix entry whose row it carries, and the rotation code of its record (R62). -/
  row     : Option Nat := Option.none
  rot     : Option Nat := Option.none
  /-- The launch whose rebuilt result it carries (R206). -/
  result  : Option Nat := Option.none
  /-- The router in whose queue it waits, since when, and whether a probe has been sent for it (R169). -/
  router  : Nat := 0
  since   : Nat := 0
  probed  : Bool := false
  deriving DecidableEq, Repr

/-- What a slot of a link's send window holds: a request, a reply or notice, a message, a MEET, or a completion to a
peer, by its number. -/
inductive Carried where
  | request | reply | message | meet | completion
  deriving DecidableEq, Repr

/-- A slot of a link's send window: the packet it holds, and what of it an uncorrectable error has lost, the header when
true (R172). -/
structure ReplaySlot where
  link   : Nat
  seq    : Nat
  kind   : Carried
  packet : Nat
  lost   : Option Bool
  deriving DecidableEq, Repr

/-- How a home answered. -/
inductive Answer where
  | done | nack | dropped | lost
  deriving DecidableEq, Repr

/-- A reply or notice on its way back to the issuer. -/
structure Reply where
  packet  : Packet
  answer  : Answer
  data    : List Byte
  poison  : Bool
  /-- The release recorded for the line that was read, and whether the home's check of R85 held. -/
  release : Option (Release × Bool)
  deriving DecidableEq, Repr

/-- A message on its way to a mailbox (R151). -/
structure MsgFlight where
  id  : Nat := 0
  dst : Nat
  msg : Msg
  era : Nat
  /-- The cycle at which it was sent, the engine whose copy it reports, and whether it has reached the mailbox's
  interface and waits there for room (R320). -/
  since   : Nat := 0
  engine  : Option Nat := Option.none
  waiting : Bool := false
  deriving DecidableEq, Repr

/-- A MEET on its way to a node's home (R185). -/
structure MeetFlight where
  id    : Nat
  core  : Nat
  home  : Nat
  node  : BitVec 32
  stamp : BitVec 16
  tid   : BitVec 16
  set   : QSet
  deriving DecidableEq, Repr

/-- An arrival on its way to the corner of a barrier (R160). -/
structure ArrivalFlight where
  core   : Nat
  corner : Nat
  b      : Nat
  conf   : BitVec 32 × Word
  deriving DecidableEq, Repr

/-! ### Pairing -/

/-- What is written to the outbox of a paired core (R220). -/
inductive Held where
  | packet (p : Packet)
  /-- The packets of one MCAST. -/
  | packets (ps : List Packet)
  | message (m : MsgFlight)
  | meet (m : MeetFlight)
  /-- A CVDONE: launch, stage and point (R282). -/
  | final (launch stage point : Nat)
  /-- A CBINIT, CBCOM or CBREL of a buffer of the core's cluster (R272, R273). -/
  | cbInit (n : Nat) (base : Word) (bytes count : Nat)
  | cbCommit (n : Nat)
  | cbFree (n : Nat)
  deriving DecidableEq, Repr

/-- What the even core of a pair passes on of an access: its parts, or the location that a window refused; and the
releases that it read (R85, R220). -/
structure Passed where
  parts   : List (Nat × (List Byte × Bool)) := []
  refused : Option Word := Option.none
  read    : List (Release × Bool) := []
  deriving DecidableEq, Repr

/-- The pairing state of a core (R217-R221). -/
structure Pairing where
  partner    : Nat
  even       : Bool
  print      : BitVec 64
  retired    : Nat
  interval   : Nat
  classes    : BitVec 28
  /-- Old contents of local lines written in this interval, first write first: address, 64 bytes, 8 poison marks. -/
  undo       : List (Nat × (List Byte × List Bool))
  outbox     : List Held
  /-- The stores of the instruction in progress: location, size, data. -/
  stores     : List (Word × Nat × List Byte)
  checkpoint : Context
  mismatches : BitVec 8
  verified   : BitVec 32
  /-- Replies the even core has received and the odd core has not yet taken. -/
  replies    : List Passed
  /-- The interval has verified and its outbox is being sent; a release in it waits for what is before it. -/
  committing : Bool := false
  deriving DecidableEq, Repr

/-! ### Cores, clusters, dies -/

/-- A task that pre-emption saved (R111): what is restored on the same core. -/
structure Saved where
  contexts : Tab Context
  store    : Store
  tiles    : Tab Tile
  mq       : List MatEntry
  eqs      : Tab CopyQueue
  mailbox  : List Msg
  inbox    : List Task
  conf     : List Conf
  barriers : Tab Barrier
  step     : Word
  deriving DecidableEq, Repr

/-- A self-test in progress (R225): the classes it tests beside the base set, what it is for (1 an escalation, 2 the
periodic test, 3 the host's order, as Table 14.5 numbers causes), and when it began. -/
structure SelfTest where
  classes : BitVec 28
  cause   : BitVec 3
  since   : Nat
  deriving DecidableEq, Repr

/-- One core. -/
structure Core where
  /-- The partition it is assigned to. -/
  part      : Option Nat := Option.none
  killed    : Bool := false
  /-- What the core was killed for, as the notices carry it (R151). -/
  killCause : Word := 0
  /-- The cores that have a notice of its kill: one each (R151). -/
  told      : List Nat := []
  ctxs      : Tab Context := []
  store     : Store := {}
  cap       : Word := BitVec.allOnes 64
  /-- Classes of the tensor block that a fence of the cluster has cleared here and no ordered test has restored (R224,
  R225). -/
  shared    : BitVec 28 := 0
  need      : Word := 0
  mqw       : BitVec 4 := 1
  tvec      : Word := 0
  tcause    : BitVec 16 := 0
  tpc       : Word := 0
  tval      : Word := 0
  tctx      : BitVec 4 := 0
  tret      : Word := 0
  tstep     : Word := 0
  hchk      : BitVec 7 := 0
  tsk       : BitVec 32 := 0
  cov       : BitVec 4 := 0
  win       : Tab Word := []
  ssn       : Tab (BitVec 32) := []
  mgc       : BitVec 32 := 0
  pivl      : BitVec 17 := 4096
  /-- The address of Bilrok's handler, and of the resident loop (R28, R96, R367), both set at assignment. -/
  bilrok    : Option Word := Option.none
  loopPc    : Word := 0
  /-- tstat H, and the helpers with undelivered traps, oldest first (R96, R100). -/
  handler   : Bool := false
  trapQueue : List Nat := []
  dueTrap   : Option DueTrap := Option.none
  gang      : Option Gang := Option.none
  pairing   : Option Pairing := Option.none
  phase     : Option Phase := Option.none
  barriers  : Tab Barrier := []
  /-- The context that issued last, and when the core last issued (R15). -/
  turn      : Nat := 0
  issued    : Option Nat := Option.none
  /-- The instruction buffer: of each half the least recently used line first (R20). -/
  buffer    : List CodeLine := []
  micro     : List Trans := []
  mailbox   : List Msg := []
  inbox     : List Task := []
  /-- The record TNEXT took, and whether its CVDONE has been issued; the first inbox slot is its (R27). -/
  task      : Option Task := Option.none
  cvdone    : Bool := false
  /-- Counts tasks taken: tells an event of an earlier task (R27). The model's own. -/
  era       : Nat := 0
  lastId    : Option (BitVec 32) := Option.none
  consts    : List Word := []
  mq        : List MatEntry := []
  /-- Batches committed and not covered, oldest first, the open batch, and the next number (R145). -/
  batches   : List Batch := []
  openBatch : Batch := {}
  nextBatch : BitVec 64 := 1
  tiles     : Tab Tile := []
  eqs       : Tab CopyQueue := []
  /-- Serial numbers of queue entries, and the joins that later entries of a queue take (EQF, R88). -/
  serial    : Nat := 0
  joins     : Tab (List (Nat × Nat)) := []
  nextId    : BitVec 16 := 1
  transfers : List Transfer := []
  conf      : List Conf := []
  mode      : BitVec 2 := 0
  holding   : Option Holding := Option.none
  oldHolds  : List Holding := []
  groups    : Tab Group := []
  /-- Launches whose static handles this core holds (R120). -/
  statics   : List Nat := []
  selfTest  : Option SelfTest := Option.none
  /-- The cycle of the last periodic self-test (R225). -/
  tested    : Nat := 0
  saved     : Option Saved := Option.none
  /-- Stopped tasks that wait for redelivery until the outstanding count is zero (R109, R216). -/
  redeliver : List Task := []
  tracing   : Bool := false
  trace     : List (Nat × Nat × Nat × Nat) := []
  deriving DecidableEq, Repr

/-- The state of a circular-buffer stage (R154). -/
inductive Stage where
  | free | acquired | filled | taken
  deriving DecidableEq, Repr

/-- A circular buffer (R153). `release` is the release a stage's commit or free recorded. -/
structure CircBuf where
  base    : Word
  bytes   : Nat
  count   : Nat
  head    : Nat
  tail    : Nat
  stages  : List Stage
  /-- Releases by stage: who committed or freed it, at which scope. -/
  commits : Tab (Option Release)
  waitAcq : List (Nat × Nat)
  waitRd  : List (Nat × Nat)
  deriving DecidableEq, Repr

/-- Power of a cluster (R202, R214). -/
inductive Power where
  | awake | gated | waking (since : Nat)
  deriving DecidableEq, Repr

/-- One cluster. -/
structure Cluster where
  store   : Store := {}
  cbs     : Tab (Option CircBuf) := []
  /-- The arbiter's last-granted position, 0-7, and the steps it has had in this run (R140). -/
  last    : Nat := 7
  run     : Nat := 0
  cache   : List Trans := []
  power   : Power := Power.awake
  /-- The trace ring of the scratchpad port (R80). -/
  trace   : List (Nat × Nat × Nat × Nat) := []
  /-- The scratchpad and the circular buffers, saved when all its cores are pre-empted (R111). -/
  saved   : Option (Store × Tab (Option CircBuf)) := Option.none
  /-- The cycle since which its cores have been idle (R202). -/
  idle    : Nat := 0
  deriving DecidableEq, Repr

/-- A page-table walk that is queued (R66). -/
structure Walk where
  space   : Nat
  va      : Nat
  waiters : List (Nat × Nat)
  /-- The access kind that it serves, as `StaReq.kind` numbers them, and the tables' lines read from pod peers. -/
  kind    : Nat := 0
  deriving DecidableEq, Repr

/-- One die. -/
structure Die where
  cache   : List Trans := []
  /-- Non-leaf entries: space, level, index prefix, entry. -/
  walkTab : List (Nat × Nat × Nat × Word) := []
  walks   : List Walk := []
  /-- Lines of uncorrectable page-table entries (R69). -/
  bad     : List Nat := []
  deriving DecidableEq, Repr

/-! ### Launches -/

/-- A stage descriptor (Table 13.3). -/
structure StageDesc where
  entry    : Word
  i        : Nat
  j        : Nat
  k        : Nat
  mask     : BitVec 28
  rtype    : Nat
  coverage : Bool
  join     : Bool
  paired   : Bool
  plotW    : Nat
  plotH    : Nat
  tile     : Nat
  result   : Word
  args     : Word
  capacity : Nat
  high     : Nat
  low      : Nat
  share    : Nat
  fg       : Nat
  fv       : Nat
  fq       : Nat
  fm       : BitVec 32
  deriving DecidableEq, Repr

/-- A band of a coverage stage (R204-R208). -/
structure Band where
  code    : Nat
  /-- Errors of the sample points compared so far, as f32 codes (R207). -/
  errors  : List (Nat × BitVec 32)
  deriving DecidableEq, Repr

/-- The running state of a stage. -/
structure StageRun where
  desc    : StageDesc
  /-- Points the walker has passed; points ready and not dispatched, in order; points in flight. -/
  walked  : Nat
  ready   : List Nat
  flight  : List (Nat × Nat)
  /-- Points complete, rebuilt or reported, in rising order; points declared final by CVDONE. -/
  done    : List Nat
  final   : List Nat
  cores   : List Nat
  queue   : Option (Nat × Nat)
  bands   : Tab Band
  /-- What the reconstruction unit has formed for skipped points: the codes of the elements and their poison. -/
  recs    : Tab (List (Nat × Bool))
  /-- The controller: its code, the last updated band and its error, updates and changes made, whether the previous
  band counted as below lo (R208, R210). -/
  code    : Nat
  last    : Option (Nat × BitVec 32)
  updates : BitVec 32
  changes : BitVec 16
  below   : Bool
  /-- The code after each update: band b + 2 takes the code after band b's (R208). -/
  codes   : List Nat
  /-- Mean task time: the last 64 durations (R202). -/
  times   : List Nat
  /-- Tasks to deliver again, with their attempts and masks already raised (R109, R114). -/
  retries : List Task
  /-- Cores that join once their inbox holds no task of another stage (R199). -/
  joining : List Nat
  /-- Which side of the high and low watermarks the input queue was on at the last rebalance instant (R199). -/
  above   : Bool
  under   : Bool
  deriving DecidableEq, Repr

/-- A launch in progress (Table 13.2). -/
structure Launch where
  id       : BitVec 32
  queue    : Option Nat
  part     : Nat
  stages   : List StageRun
  code     : Nat
  cmin     : Nat
  cmax     : Nat
  /-- Expert control; else hi is tol and lo is tol/4 (R208). -/
  expert   : Bool
  hi       : BitVec 32
  lo       : BitVec 32
  floor    : BitVec 32
  mean     : Bool
  height   : Nat
  period   : Nat
  user     : Word
  consts   : List Word
  signal   : Word
  value    : Word
  status   : Nat
  /-- The cycle since which the launch waits: of its last dispatch, or at which it got a ready point after that; and the
  effective priority reached since (R200). -/
  waited   : Nat
  aged     : Nat
  prio     : Nat
  weight   : Nat
  /-- Dispatches left in this round of the weighted round robin among equals. -/
  credit   : Nat
  excluded : List Nat
  /-- Static handles, and the clusters that hold those of level 01 (R120). -/
  handles  : List StaticHandle
  clusters : List Nat
  /-- The last rebalance instant: a multiple of 4,096 cycles (R199). -/
  balance  : Nat
  finished : Bool
  /-- The status stands at the signal; the completion value does not yet (R203). -/
  told     : Bool := false
  deriving DecidableEq, Repr

/-! ### Host, pod, firmware -/

/-- Where a command-list interpreter reads its next entry: in the ring, or at an address a JUMP or CALL gave. -/
inductive Cursor where
  | ring | addr (a : Word)
  deriving DecidableEq, Repr

/-- A command queue (R193, R231-R234). -/
structure Queue where
  base     : Word := 0
  log      : Nat := 0
  prio     : Nat := 0
  weight   : Nat := 1
  part     : Nat := 0
  status   : Word := 0
  peers    : List Nat := []
  k        : BitVec 32 := 0
  head     : BitVec 32 := 0
  cursor   : Cursor := Cursor.ring
  shadow   : Tab Word := []
  stack    : List Word := []
  enabled  : Bool := false
  stopped  : Bool := false
  cause    : Nat := 0
  stopAt   : BitVec 32 := 0
  ignored  : BitVec 64 := 0
  rejected : BitVec 64 := 0
  /-- The record differs from what was last written, and when it was. -/
  dirty    : Bool := false
  wrote    : Nat := 0
  issued   : Bool := false
  /-- Launches and copies issued and not complete. -/
  work     : List Nat := []
  copies   : Nat := 0
  /-- Delta packets that take effect after the entries admitted before them: the index k held on arrival, sender,
  bytes (R233). -/
  deltas   : List (BitVec 32 × Nat × List Byte) := []
  deriving DecidableEq, Repr

/-- A partition (R65, R70, R230). -/
structure Partition where
  odi      : Nat
  table    : Word
  clusters : List Nat
  host     : Nat
  clearing : Bool
  /-- Clusters that have left it and are still to be cleared (R74). -/
  leaving  : List Nat := []
  deriving DecidableEq, Repr

/-- A UALink peer (R236, R239). -/
structure Peer where
  isolated : Bool := false
  odi      : Nat := 0
  /-- The cycle of the last completion or credit, or of the first outstanding request since. -/
  heard    : Nat := 0
  bound    : Bool := false
  deriving DecidableEq, Repr

/-- A request to the pod's shared translation agent (R238). -/
structure StaReq where
  tag     : Nat
  space   : Nat
  va      : Nat
  die     : Nat
  since   : Nat
  /-- The access kind it carries: read, write, atomic or fetch as 0-3 (R238). -/
  kind    : Nat
  waiters : List (Nat × Nat)
  /-- An invalidation covered it: discard the answer and send it again. -/
  stale   : Bool
  /-- Refused or not answered, for a unit or an engine that asked: its access fails (log 48). -/
  refused : Bool := false
  deriving DecidableEq, Repr

/-- Who is told that an invalidation has completed (R68, R238). -/
inductive InvFor where
  /-- The class and the fields of the reply, and a number of the packet that ordered it. -/
  | host (sender : Sender) (cls packet : Nat) (fields : List TlvField)
  | agent (seq : Nat)
  | firmware
  deriving DecidableEq, Repr

/-- An invalidation in progress and the accesses it waits for (R68). -/
structure Inv where
  id     : Nat
  odi    : Nat
  range  : Option (Nat × Nat)
  waits  : List Nat
  asked  : InvFor
  deriving DecidableEq, Repr

/-- What the device sends to a host, a peer or the agent (R229, R236, R238). -/
inductive OutBody where
  | tlv (fields : List TlvField)
  | store (addr : Word) (data : List Byte)
  | staRequest (tag odi va kind : Nat)
  | staAck (seq : Nat)
  /-- The completion of a peer's request, with the release recorded for the line and whether the home's check held
  (R85, R236). -/
  | completion (data : List Byte) (poison error : Bool) (release : Option (Release × Bool))
  | probe (core : Nat)
  deriving DecidableEq, Repr

/-- A transmission. `acked` says that its transport has acknowledged it (R82). -/
structure Out where
  id    : Nat
  dst   : Sender
  body  : OutBody
  core  : Option (Nat × Nat)
  acked : Bool
  /-- It has gone out: the host's budget held it back no longer (R211). -/
  sent  : Bool := true
  deriving DecidableEq, Repr

/-- The state of the incoming firmware (R245). -/
inductive HandOver where
  | none | pending | committed
  deriving DecidableEq, Repr

/-- A budget (R211): its activity and consumer, share or amount, and what is left of the period. Activities are numbered
as Table 13.7 has them from 0; 7 is UALink's other direction, towards this device. -/
structure BudgetRow where
  activity : Nat
  consumer : Nat
  expert   : Bool
  amount   : Nat
  left     : Nat
  stalls   : Nat
  /-- The consumer has no share of its own: it divides with its like what the shares leave. -/
  implied  : Bool := false
  deriving DecidableEq, Repr

/-- The firmware column and what Bilrok keeps (R212, R226, R240-R247). -/
structure Firmware where
  column    : ColumnTable := ⟨63, 1, [], Config.watchdogPeriod, []⟩
  /-- The configuration table that flash holds; the fence table in flash is `fences`. -/
  flash     : ColumnTable := ⟨63, 1, [], Config.watchdogPeriod, []⟩
  /-- Role of each column core that differs from the table's: taken over by a spare, or failed (0). -/
  roles     : Tab Nat := []
  service   : Bool := true
  fences    : List FenceEntry := []
  fencesOk  : Bool := true
  columnOk  : Bool := true
  boot      : BitVec 32 := 0
  /-- The address of the pod's shared translation agent (R238; log 53). -/
  agent     : Nat := 0
  dogs      : Tab Nat := []
  /-- The crash region's next slot and sequence number; its 256 slots of 4 KiB stand in main memory (R243). -/
  crashNext : Nat := 0
  crashSeq  : BitVec 32 := 0
  image     : Memory := []
  imageLen  : Nat := 0
  started   : Bool := false
  handOver  : HandOver := HandOver.none
  /-- The image of the firmware in force (R244). -/
  running   : List Byte := []
  /-- The last 16 TLV field headers each headgate core has received (R243). -/
  headers   : Tab (List (BitVec 32)) := []
  /-- Hosts Bilrok's access table admits for management and attestation (R230), and each host's domain (R229). -/
  hosts     : Tab (Bool × Bool × Nat) := []
  counters  : Tab (BitVec 64) := []
  /-- Static handles of loaded objects, by the entry address of each of their kernels (R120). -/
  objects   : Tab (List StaticHandle) := []
  selfTestPeriod : Nat := 216000000000000
  deriving DecidableEq, Repr

/-- A memory stack (R215, R247). -/
structure Stack where
  parked  : Bool := false
  failed  : List Nat := []
  lines   : Tab (List Nat) := []
  deriving DecidableEq, Repr

/-- Who moves next: the model's own (log 5). -/
inductive Turn where
  /-- A context issues. -/
  | issue (core ctx : Nat)
  /-- A row without an encoding comes about. -/
  | event (i : Instr)
  /-- Time passes. -/
  | tick (cycles : Nat)
  deriving DecidableEq, Repr

/-- The device. -/
structure State where
  /-- The context that issues: core and number (the model's own). -/
  cur       : Nat × Nat
  agenda    : List Turn
  cycle     : Nat
  freeCtr   : Nat
  /-- Numbers for packets, accesses, launches and the like (the model's own). -/
  nextNum   : Nat
  cores     : Tab Core
  clusters  : Tab Cluster
  dies      : Tab Die
  /-- Main memory by physical address, its poisoned lines, its owner tags by 64 KiB granule, its release records. -/
  dram      : Memory
  dramBad   : Tab Bool
  owners    : Tab Nat
  releases  : Tab (Option Release)
  net       : List Packet
  replies   : List Reply
  ops       : Tab (Option Op)
  msgs      : List MsgFlight
  meets     : List MeetFlight
  arrivals  : List ArrivalFlight
  /-- Arrivals a corner has received: by 4·core + barrier, the members and their configurations. -/
  corners   : Tab (List (Nat × (BitVec 32 × Word)))
  exchange  : List Transfer2
  /-- The send windows of the links (R172). -/
  replay    : List ReplaySlot
  invs      : List Inv
  stas      : List StaReq
  parts     : Tab (Option Partition)
  launches  : Tab (Option Launch)
  queues    : Tab Queue
  budgets   : List BudgetRow
  period    : Nat
  peers     : Tab Peer
  outbox    : List Out
  firmware  : Firmware
  dramStacks : Tab Stack
  scrub     : Tab Nat
  /-- Arrays in a re-encode and when it ends (R214). -/
  reencode  : List (SramArray × Nat)
  /-- The last arrival at each home's port: its cycle and its rank among those of one cycle (R79). -/
  ports     : Tab (Nat × Nat)
  /-- Bytes that units have read from pod peers and not yet used, by physical address (R193). -/
  unitLines : List (Nat × (List Byte × Bool))
  deriving DecidableEq, Repr

/-- The machine right after a power-on reset (R246): no core is assigned, no queue is enabled, SRAM is clear, nothing
is in flight; the fence table is empty and the default column is in force (log 3). -/
def State.reset : State where
  cur := (0, 0)
  agenda := []
  cycle := 0
  freeCtr := 0
  nextNum := 1
  cores := []
  clusters := []
  dies := []
  dram := []
  dramBad := []
  owners := []
  releases := []
  net := []
  replies := []
  ops := []
  msgs := []
  meets := []
  arrivals := []
  corners := []
  exchange := []
  replay := []
  invs := []
  stas := []
  parts := []
  launches := []
  queues := []
  budgets := []
  period := 0
  peers := []
  outbox := []
  firmware := {}
  dramStacks := []
  scrub := []
  reencode := []
  ports := []
  unitLines := []

end Sys2Proof.Machine
end

