-- ==== Sys2Proof/Machine/Tab.lean ====
section
/-! DEFINITION. Operations of sparse tables, of memory and of little-endian bytes. -/
namespace Sys2Proof.Machine

/-- The entry listed under a number; an unlisted number holds `d`. -/
def Tab.get {α : Type} (d : α) : Tab α → Nat → α
  | [], _ => d
  | (k', v) :: t, k => if k = k' then v else if k < k' then d else Tab.get d t k

/-- List `v` under `k`. -/
def Tab.put {α : Type} : Tab α → Nat → α → Tab α
  | [], k, v => [(k, v)]
  | (k', v') :: t, k, v =>
    if k < k' then (k, v) :: (k', v') :: t
    else if k = k' then (k, v) :: t
    else (k', v') :: Tab.put t k v

/-- The tail from the first number above `k`. -/
def Tab.above {α : Type} (k : Nat) : Tab α → Tab α
  | [] => []
  | (k', v') :: t => if k < k' then (k', v') :: t else Tab.above k t

/-- List nothing under `k`. -/
def Tab.erase {α : Type} : Tab α → Nat → Tab α
  | [], _ => []
  | (k', v') :: t, k =>
    if k < k' then (k', v') :: t
    else if k = k' then Tab.above k t
    else (k', v') :: Tab.erase t k

/-- `put`, or `erase` when the value is what an unlisted number holds: the canonical form stays. -/
def Tab.set {α : Type} [DecidableEq α] (d : α) (t : Tab α) (k : Nat) (v : α) : Tab α :=
  if v = d then Tab.erase t k else Tab.put t k v

/-- Apply a function to the entry under `k`. -/
def Tab.update {α : Type} (d : α) (t : Tab α) (k : Nat) (f : α → α) : Tab α := Tab.put t k (f (Tab.get d t k))

/-- Numbers rise strictly, each above `b`. -/
def Tab.rising {α : Type} : Nat → Tab α → Bool
  | _, [] => true
  | b, (k, _) :: t => decide (b ≤ k) && Tab.rising (k + 1) t

/-- The canonical form of memory: addresses rise and no byte is 0. -/
def Memory.wf (m : Memory) : Bool := Tab.rising 0 m && m.all fun c => c.2 != 0

/-- One byte; an unlisted one is 0 (log 1). -/
def Memory.byte (m : Memory) (a : Nat) : Byte := Tab.get 0 m a

/-- Write one byte. -/
def Memory.setByte (m : Memory) (a : Nat) (b : Byte) : Memory := Tab.set 0 m a b

/-- `n` bytes from an address. -/
def Memory.read (m : Memory) (a : Nat) : Nat → List Byte
  | 0 => []
  | n + 1 => Memory.byte m a :: Memory.read m (a + 1) n

/-- Write bytes from an address. -/
def Memory.write (m : Memory) (a : Nat) : List Byte → Memory
  | [] => m
  | b :: bs => Memory.write (Memory.setByte m a b) (a + 1) bs

/-- The number that little-endian bytes spell. -/
def leNat : List Byte → Nat
  | [] => 0
  | b :: bs => b.toNat + 256 * leNat bs

/-- The low `n` bytes of a number, little-endian. -/
def leBytes : Nat → Nat → List Byte
  | 0, _ => []
  | n + 1, x => BitVec.ofNat 8 (x % 256) :: leBytes n (x / 256)

/-- Bytes as a word of any width. -/
def leBits (w : Nat) (bs : List Byte) : BitVec w := BitVec.ofNat w (leNat bs)

/-- The bytes of a word. -/
def bytesOf (n : Nat) {w : Nat} (x : BitVec w) : List Byte := leBytes n x.toNat

/-- Bits `hi` down to `lo` of a word, as a number. -/
def bitsN {w : Nat} (x : BitVec w) (hi lo : Nat) : Nat := x.toNat / 2 ^ lo % 2 ^ (hi + 1 - lo)

/-- Insert into a rising list of numbers without repeats. -/
def insertNat (n : Nat) : List Nat → List Nat
  | [] => [n]
  | m :: t => if n < m then n :: m :: t else if n = m then m :: t else m :: insertNat n t

/-- The entries of a table in order. -/
def Tab.keys {α : Type} (t : Tab α) : List Nat := t.map (·.1)

/-- Remove the first element that satisfies a test, and say which it was. -/
def takeFirst {α : Type} (p : α → Bool) : List α → Option (α × List α)
  | [] => none
  | a :: t => if p a then some (a, t) else (takeFirst p t).map fun r => (r.1, a :: r.2)

/-- Replace every element that satisfies a test. -/
def replaceWhere {α : Type} (p : α → Bool) (f : α → α) (l : List α) : List α := l.map fun a => if p a then f a else a
/-- Change the first entry that a test picks. -/
def replaceFirst {α : Type} (p : α → Bool) (f : α → α) : List α → List α
  | [] => []
  | a :: t => if p a then f a :: t else a :: replaceFirst p f t

/-- Set the element at an index. -/
def setAt {α : Type} : List α → Nat → α → List α
  | [], _, _ => []
  | _ :: t, 0, b => b :: t
  | a :: t, n + 1, b => a :: setAt t n b

/-- Sort by a key; equal keys keep their order. -/
def insertBy {α : Type} (key : α → Nat) (a : α) : List α → List α
  | [] => [a]
  | b :: t => if key a ≤ key b then a :: b :: t else b :: insertBy key a t
def sortBy {α : Type} (key : α → Nat) (l : List α) : List α := l.foldr (insertBy key) []

/-- The numbers from `a` on, `n` of them. -/
def span (a : Nat) : Nat → List Nat
  | 0 => []
  | n + 1 => a :: span (a + 1) n

/-- Other bytes at `n` addresses from `a`. -/
def Memory.replace (m : Memory) (a n : Nat) (f : Nat → Byte) : Memory :=
  let fresh : Memory := (span a n).filterMap fun x => if f x = 0 then none else some (x, f x)
  m.filter (fun c => decide (c.1 < a)) ++ fresh ++ m.filter fun c => decide (a + n ≤ c.1)

end Sys2Proof.Machine
end

