-- ==== Sys2Proof/Machine/Ops.lean ====
section
/-! DEFINITION. Named operations over the state: geometry, registers, the loop step, taking an exception and returning
from one, ending helpers, stopping tasks and killing cores. -/
namespace Sys2Proof.Machine

/-! ### Geometry (R2) -/

def xOf (c : Nat) : Nat := c % 64
def yOf (c : Nat) : Nat := c / 64
def coreAt (x y : Nat) : Nat := y * 64 + x
def clusterOf (c : Nat) : Nat := yOf c / 2 * 16 + xOf c / 4
def dieOf (c : Nat) : Nat := xOf c / 32 + 2 * (yOf c / 32)
/-- The cores of a cluster in ascending number. -/
def clusterCores (cl : Nat) : List Nat :=
  (span 0 2).flatMap fun dy => (span 0 4).map fun dx => coreAt (4 * (cl % 16) + dx) (2 * (cl / 16) + dy)
def dieOfCluster (cl : Nat) : Nat := (cl % 16) / 8 + 2 * (cl / 256)
/-- A rectangle word's upper half: x0, y0, w, h (Tables 1.6, 3.4, 9.1). -/
def rectX (r : BitVec 32) : Nat := bitsN r 31 24
def rectY (r : BitVec 32) : Nat := bitsN r 23 16
def rectW (r : BitVec 32) : Nat := bitsN r 15 8
def rectH (r : BitVec 32) : Nat := bitsN r 7 0
/-- The core lies in the rectangle; a rectangle is clipped at the mesh edge (R61). -/
def inRect (r : BitVec 32) (c : Nat) : Bool :=
  rectX r ≤ xOf c && xOf c < rectX r + rectW r && rectY r ≤ yOf c && yOf c < rectY r + rectH r
/-- The cores of a rectangle in ascending number. -/
def rectCores (r : BitVec 32) : List Nat :=
  (span 0 (rectH r)).flatMap fun dy => (span 0 (rectW r)).map fun dx => coreAt (rectX r + dx) (rectY r + dy)
/-- Die boundaries that the rectangle spans: 0, 1 or 2 (R160). -/
def rectDies (r : BitVec 32) : Nat :=
  (if rectX r / 32 = (rectX r + rectW r - 1) / 32 then 0 else 1) +
    (if rectY r / 32 = (rectY r + rectH r - 1) / 32 then 0 else 1)
/-- The partner of a pair: x XOR 1 in the same row (R217). -/
def partnerOf (c : Nat) : Nat := if c % 2 = 0 then c + 1 else c - 1

/-! ### Accessors -/

def State.core (s : State) (c : Nat) : Core := Tab.get {} s.cores c
def State.setCore (s : State) (c : Nat) (k : Core) : State := { s with cores := Tab.put s.cores c k }
def State.modCore (s : State) (c : Nat) (f : Core → Core) : State := s.setCore c (f (s.core c))
def Core.ctx (k : Core) (x : Nat) : Context := Tab.get {} k.ctxs x
def Core.modCtx (k : Core) (x : Nat) (f : Context → Context) : Core := { k with ctxs := Tab.update {} k.ctxs x f }
def State.ctx (s : State) (c x : Nat) : Context := (s.core c).ctx x
def State.modCtx (s : State) (c x : Nat) (f : Context → Context) : State := s.modCore c fun k => k.modCtx x f
def State.cluster (s : State) (n : Nat) : Cluster := Tab.get {} s.clusters n
def State.modCluster (s : State) (n : Nat) (f : Cluster → Cluster) : State :=
  { s with clusters := Tab.update {} s.clusters n f }
def State.die (s : State) (n : Nat) : Die := Tab.get {} s.dies n
def State.modDie (s : State) (n : Nat) (f : Die → Die) : State := { s with dies := Tab.update {} s.dies n f }
def State.queue (s : State) (n : Nat) : Queue := Tab.get {} s.queues n
def State.modQueue (s : State) (n : Nat) (f : Queue → Queue) : State := { s with queues := Tab.update {} s.queues n f }
def State.peer (s : State) (n : Nat) : Peer := Tab.get {} s.peers n
def State.modPeer (s : State) (n : Nat) (f : Peer → Peer) : State := { s with peers := Tab.update {} s.peers n f }
def State.part (s : State) (n : Nat) : Option Partition := Tab.get none s.parts n
def State.launch (s : State) (n : Nat) : Option Launch := Tab.get none s.launches n
def State.modLaunch (s : State) (n : Nat) (f : Launch → Launch) : State :=
  { s with launches := Tab.put s.launches n ((s.launch n).map f) }
def State.modFirmware (s : State) (f : Firmware → Firmware) : State := { s with firmware := f s.firmware }

/-- The issuing core and context. -/
def State.me (s : State) : Context := s.ctx s.cur.1 s.cur.2
def State.modMe (s : State) (f : Context → Context) : State := s.modCtx s.cur.1 s.cur.2 f
def State.here (s : State) : Core := s.core s.cur.1
def State.modHere (s : State) (f : Core → Core) : State := s.modCore s.cur.1 f

/-- A fresh number for a packet, an access or a launch. -/
def State.fresh (s : State) : Nat × State := (s.nextNum, { s with nextNum := s.nextNum + 1 })
/-- A free word: what the spec leaves open (log 7). -/
def State.freeWord (s : State) : Word × State := (Config.freeWord s.freeCtr, { s with freeCtr := s.freeCtr + 1 })
def State.freeBool (s : State) : Bool × State := (Config.freeBool s.freeCtr, { s with freeCtr := s.freeCtr + 1 })

/-! ### Bilrok's counters (R212) -/

/-- Counters of Table 14.1 in its order, then what other rules count for Bilrok (log 13). -/
def Count.sramCorrected : Nat := 0
def Count.sramCorrectedCluster : Nat := 1
def Count.sramUncorrectable : Nat := 2
def Count.sramUncorrectableCluster : Nat := 3
def Count.dramCorrected : Nat := 4
def Count.dramUncorrectable : Nat := 5
def Count.linkReplay : Nat := 6
def Count.lossMarker : Nat := 7
def Count.droppedWrite : Nat := 8
def Count.capabilityFault : Nat := 9
def Count.pairMismatch : Nat := 10
def Count.rollback : Nat := 11
def Count.escalation : Nat := 12
def Count.selfTestRun : Nat := 13
def Count.selfTestFailure : Nat := 14
def Count.kill : Nat := 15
def Count.droppedMessage : Nat := 32
def Count.droppedMeet : Nat := 33
def Count.idleCommit : Nat := 34
def Count.repeatedDone : Nat := 35
def Count.lateEvent : Nat := 36
def Count.staleMulticast : Nat := 37
def Count.lostExchange : Nat := 38
def Count.staticFailure : Nat := 39
def Count.taskCause : Nat := 40
def Count.droppedRequest : Nat := 41
def Count.badPage : Nat := 42
def Count.rejectedPacket : Nat := 43
def Count.strayTaskEnd : Nat := 44
def Count.lateCompletion : Nat := 45
def Count.rebuildFailure : Nat := 46
def Count.ownerMismatch : Nat := 47
def Count.failedRead : Nat := 48
def Count.hostRequest : Nat := 49
def Count.slotFault : Nat := 50

/-- The key of a counter: its kind and index. -/
def countKey (kind index : Nat) : Nat := kind * 2 ^ 24 + index
/-- Add one; a counter saturates (R212). -/
def State.count (s : State) (kind index : Nat) : State :=
  s.modFirmware fun f =>
    { f with counters := Tab.update 0 f.counters (countKey kind index) fun n => if n = BitVec.allOnes 64 then n else n + 1 }
/-- The number by which a home is counted: cores, then clusters, then channels, then peers. -/
def homeIndex : Home → Nat
  | .localMem c => c
  | .scratch n => 4096 + n
  | .channel n => 8192 + n
  | .peer n => 16384 + n

/-! ### Registers (R14, R19) -/

/-- g0 reads zero whatever has been written (R19). -/
def Context.readG (x : Context) (n : Nat) : GVal := if n = 0 then {} else Tab.get {} x.g n
/-- A write makes the register live; a write to g0 is discarded. -/
def Context.writeG (x : Context) (n : Nat) (bits : Word) (poison : Bool) : Context :=
  if n = 0 then x
  else { x with g := Tab.put x.g n { bits := bits, poison := poison }, liveG := x.liveG ||| (1 <<< n) }
def Context.readV (x : Context) (n : Nat) : VVal := Tab.get {} x.v n
def Context.writeV (x : Context) (n : Nat) (v : VVal) : Context :=
  { x with v := Tab.put x.v n v, liveV := x.liveV ||| (1 <<< n) }
def Context.readK (x : Context) (n : Nat) : Word := Tab.get 0 x.k n
def Context.writeK (x : Context) (n : Nat) (w : Word) : Context := { x with k := Tab.put x.k n w }
def Context.readQ (x : Context) (n : Nat) : QSet := Tab.get 0 x.q n
def Context.writeQ (x : Context) (n : Nat) (w : QSet) : Context := { x with q := Tab.put x.q n w }
def Context.readE (x : Context) (n : Nat) : Word := Tab.get 0 x.e n
def Context.writeE (x : Context) (n : Nat) (w : Word) : Context := { x with e := Tab.put x.e n w }
def Context.readFm (x : Context) (n : Nat) : BitVec 32 := Tab.get 0 x.fm n
def Context.setChk (x : Context) (bit : Nat) : Context := { x with chk := x.chk ||| (1 <<< bit) }

/-- The poison bit of a register; k, q, e and status registers have none (R176, R108). -/
def Context.poison (x : Context) : Reg → Bool
  | .g n => (x.readG n).poison
  | .v n => (x.readV n).poison
  | _ => false

/-- A g register of the issuing context. -/
def State.g (s : State) (n : Nat) : Word := (s.me.readG n).bits
def State.v (s : State) (n : Nat) : VVal := s.me.readV n
def State.writeG (s : State) (n : Nat) (bits : Word) (poison : Bool) : State := s.modMe fun x => x.writeG n bits poison
def State.writeV (s : State) (n : Nat) (v : VVal) : State := s.modMe fun x => x.writeV n v

/-- Set a chk bit for an event of a context of a task: in the context, in hchk when that context has ended, nowhere
when the task has been reported or stopped (R27). -/
def State.chkEvent (s : State) (c x life era bit : Nat) : State :=
  let k := s.core c
  if k.era ≠ era then s.count Count.lateEvent c
  else if (k.ctx x).live && (k.ctx x).life == life then s.modCtx c x fun t => t.setChk bit
  else s.modCore c fun k => { k with hchk := k.hchk ||| (1 <<< bit) }

/-! ### The next pc and the loop step (R22, R100) -/

/-- `n` levels are open and the pc stands at the innermost level's end. -/
def loopStep : Nat → Context → Context
  | 0, x => x
  | n + 1, x =>
    let l : Level := Tab.get {} x.lp n
    let count := l.count - 1
    let x := { x with lp := Tab.put x.lp n { l with count := count } }
    if count ≠ 0 then { x with pc := l.start, lpd := n + 1 }
    else
      let x := { x with lpd := n }
      match n with
      | 0 => x
      | m + 1 => if x.pc = (Tab.get {} x.lp m : Level).stop then loopStep (m + 1) x else x

/-- Continue at `next`; a loop step is taken when it is the innermost level's end, unless levels are frozen. -/
def Context.goto (x : Context) (frozen : Bool) (next : Word) : Context :=
  let x := { x with pc := next }
  if frozen || x.lpd == 0 then x
  else if next = (Tab.get {} x.lp (x.lpd - 1) : Level).stop then loopStep x.lpd x else x

/-- While the handler runs, the control context's loop levels are frozen (R100). -/
def State.loopsFrozen (s : State) (c x : Nat) : Bool := x == 0 && (s.core c).handler

def State.gotoCtx (s : State) (c x : Nat) (next : Word) : State :=
  s.modCtx c x fun t => t.goto (s.loopsFrozen c x) next

/-! ### Local storage by handle (R55, R62) -/

/-- Bytes of a granule: 1 KiB in local memory, 2 KiB in a scratchpad. -/
def granule (level : Nat) : Nat := if level = 0 then 1024 else 2048

/-- The physical offset of a byte of a handle; `rot` moves lines within a 2 KiB block of a scratchpad. -/
def TileEntry.phys (t : TileEntry) (level rot off : Nat) : Nat :=
  if level = 0 then t.granules.getD (off / 1024) 0 * 1024 + off % 1024
  else
    let line := off % 2048 / 64
    let k := if rot = 0 then 0 else 2 ^ (rot - 1)
    let stored := Nat.xor line (off / t.rowBytes * k % 32)
    t.granules.getD (off / 2048) 0 * 2048 + stored * 64 + off % 64

/-- The physical offsets of `n` bytes of a handle. -/
def TileEntry.physAll (t : TileEntry) (level rot off n : Nat) : List Nat := (span off n).map (t.phys level rot)

def Store.tile (m : Store) (h : Nat) : TileEntry := Tab.get {} m.tiles h
/-- Bytes at physical offsets, and whether any of their words is poisoned (R108). -/
def Store.load (m : Store) (at' : List Nat) : List Byte × Bool :=
  (at'.map m.bytes.byte, at'.any fun a => Tab.get false m.poison (a / 8))
/-- Whether a list of offsets covers the whole unit of `size` bytes with the given number. -/
def covers (at' : List Nat) (size unit : Nat) : Bool := (at'.filter fun a => a / size == unit).length == size
/-- Set or clear the marks of the units that a write touches: poisoned data marks them, clean data clears those it
covers whole (R108). -/
def markPoison (marks : Tab Bool) (size : Nat) (poison : Bool) (at' : List Nat) : Tab Bool :=
  at'.foldl (init := marks) fun t a =>
    if poison then Tab.set false t (a / size) true
    else if covers at' size (a / size) then Tab.set false t (a / size) false else t
/-- Write bytes at physical offsets. -/
def writeBytes (m : Memory) : List Nat → List Byte → Memory
  | a :: as, b :: bs => writeBytes (m.setByte a b) as bs
  | _, _ => m
/-- Record or drop the release of each 64-byte line written, with the bytes that it wrote (R84, R85). -/
def markRelease (t : Tab (Option Release)) (rel : Option Release) (at' : List Nat) : Tab (Option Release) :=
  at'.foldl (init := t) fun t a =>
    let own := (at'.filter fun b => b / 64 == a / 64).foldl (init := (0 : BitVec 64)) fun m b => m ||| ((1 : BitVec 64) <<< (b % 64))
    Tab.set none t (a / 64) (rel.map fun r => { r with wrote := own })
/-- The release that reading `n` bytes from an offset sees: the line's, when they hold a byte that it wrote (R85). -/
def readRelease (t : Tab (Option Release)) (a n : Nat) : Option Release :=
  match (Tab.get none t (a / 64) : Option Release) with
  | some r => if (span (a % 64) n).any r.wrote.getLsbD then some r else none
  | none => none
def Store.save (m : Store) (at' : List Nat) (data : List Byte) (poison : Bool) (rel : Option Release) : Store :=
  { m with bytes := writeBytes m.bytes at' data, poison := markPoison m.poison 8 poison at',
           releases := markRelease m.releases rel at' }

/-! ### Helpers (R12, R189, R296) -/

/-- The lowest free helper number (R12). -/
def Core.freeHelper (k : Core) : Option Nat := (span 1 10).find? fun n => !(k.ctx n).live

/-- Start a helper: g1-g15 and q0 are given, every other register is dead, and R36 gives the rest. -/
def Core.startHelper (k : Core) (n : Nat) (pc : Word) (regs : Tab GVal) (q0 : QSet) : Core :=
  k.modCtx n fun old =>
    { live := true, pc := pc, g := regs, liveG := 0xFFFE, q := if q0 = 0 then [] else [(0, q0)], life := old.life + 1 }

/-- g1-g15 of a context, as a new helper receives them. -/
def Context.inherit (x : Context) : Tab GVal := (span 1 15).map fun n => (n, x.readG n)

/-- The record in a slot of a holding queue (R189). -/
def Core.heldRecord (k : Core) (h : Holding) (slot : Nat) : Word × Tab GVal × QSet :=
  let t := k.store.tile h.handle
  let rd := fun off n => k.store.load (t.physAll 0 0 (256 * slot + off) n)
  (leBits 64 (rd 0 8).1,
   (span 1 15).map fun n => let r := rd (8 * n) 8; (n, { bits := leBits 64 r.1, poison := r.2 }),
   leBits 1024 (rd 128 128).1)

/-- The oldest held record: those of earlier queues first (R189, R276). -/
def Core.oldestHeld (k : Core) : Option (Holding × Nat × Core) :=
  match k.oldHolds with
  | h :: rest =>
    match h.slots with
    | j :: js => some (h, j, { k with oldHolds := if js = [] then rest else { h with slots := js } :: rest })
    | [] => none
  | [] =>
    match k.holding with
    | some h =>
      match h.slots with
      | j :: js => some (h, j, { k with holding := some { h with slots := js } })
      | [] => none
    | none => none

/-- Take a helper out of service: nothing of it stays but its number's life. -/
def Core.dropHelper (k : Core) (n : Nat) : Core :=
  { k.modCtx n (fun x => { life := x.life }) with trapQueue := k.trapQueue.filter (· != n) }

/-- End a helper by HEXIT or RETT 1: its chk is kept in hchk, and the oldest held record starts in its number. -/
def Core.endHelper (k : Core) (n : Nat) : Core :=
  let k := { k.dropHelper n with hchk := k.hchk ||| (k.ctx n).chk }
  match k.oldestHeld with
  | some (h, slot, k') =>
    let r := k.heldRecord h slot
    k'.startHelper n r.1 r.2.1 r.2.2
  | none => k

/-! ### Stopping a task (R109) -/

/-- Leave the gang or pair: the members go on alone. -/
def State.uncouple (s : State) (members : List Nat) : State :=
  members.foldl (init := s) fun s m => s.modCore m fun k => { k with gang := none, pairing := none }

/-- Every helper ends and the control context leaves the handler for the resident loop. What it awaits goes to nobody:
its life is another one (R109, R367). -/
def Core.backToLoop (k : Core) : Core :=
  let k := (span 1 10).foldl (init := k) fun k n => if (k.ctx n).live then k.dropHelper n else k
  let k := k.modCtx 0 fun x => { x with meet := none, lpd := 0, chk := 0, wait := .none, pc := k.loopPc, walkErr := none,
                                        side := [], relMark := none, seen := [], loads := [], life := x.life + 1 }
  { k with handler := false, trapQueue := [], dueTrap := none, hchk := 0, phase := none }
/-- A pre-empted task is there again; what was counted of its barriers meanwhile stays counted (R112). -/
def Core.restore (k : Core) : Core :=
  match k.saved with
  | none => k
  | some s =>
    let pending := fun (n : Nat) => (Tab.get {} k.barriers n : Barrier).pending
    { k with ctxs := s.contexts, store := s.store, tiles := s.tiles, mq := s.mq, eqs := s.eqs, mailbox := s.mailbox,
             inbox := s.inbox, conf := s.conf, barriers := s.barriers.map (fun e => (e.1, { e.2 with pending := pending e.1 })),
             saved := none }
def Cluster.restore (k : Cluster) : Cluster :=
  match k.saved with
  | none => k
  | some s => { k with store := s.1, cbs := s.2, saved := none }
/-- The scratchpad of a core's cluster is there again. -/
def State.restoreCluster (s : State) (c : Nat) : State :=
  if (s.cluster (clusterOf c)).saved.isSome then s.modCluster (clusterOf c) Cluster.restore else s

/-- What stopping a task does at one core. -/
def Core.stop (k : Core) : Core :=
  { k.restore.backToLoop with
                      holding := k.holding.map (fun h => { h with slots := [] }), oldHolds := [], mq := [], batches := [],
                      openBatch := ({} : Batch), task := none, cvdone := false, era := k.era + 1 }

/-- The cores that one task holds together: the gang's or pair's members, or the core alone. -/
def Core.bound (k : Core) (c : Nat) : List Nat :=
  match k.gang with
  | some g => g.members
  | none => match k.pairing with
    | some p => if c < p.partner then [c, p.partner] else [p.partner, c]
    | none => [c]

/-- A context that leaves a CBACQ or a CBWAIT no longer stands among the waiters of its buffer (R154). -/
def State.unpark (s : State) (c x : Nat) : State :=
  match (s.ctx c x).wait with
  | .cbacq n _ | .cbwait n _ =>
    s.modCluster (clusterOf c) fun k =>
      { k with cbs := Tab.update none k.cbs n fun b => b.map fun b =>
          { b with waitAcq := b.waitAcq.filter (· != (c, x)), waitRd := b.waitRd.filter (· != (c, x)) } }
  | _ => s
def State.unparkAll (s : State) (c : Nat) : State := (span 0 11).foldl (init := s) fun s x => s.unpark c x

/-- A transfer on the exchange plane that its core no longer drives is no XMIT's (R166). -/
def State.dropDrive (s : State) (c : Nat) : State :=
  { s with exchange := s.exchange.filter fun e => e.src != c || e.landed }

/-- Stop the task of a core and of the gang or pair that holds it. -/
def State.stopTask (s : State) (c : Nat) : State :=
  let members := (s.core c).bound c
  members.foldl (init := s.uncouple members) fun s m => (((s.restoreCluster m).unparkAll m).dropDrive m).modCore m Core.stop

/-- Free the inbox slot of the current task and queue its record for redelivery, with classes added to its mask
(R109, R114); a killed core that held it too is waited for (R216). A paired task is queued once, by the even core. -/
def Core.queueRedelivery (k : Core) (classes : BitVec 28) (killed : List Nat := []) : Core :=
  let k := k.restore
  match k.task with
  | some t =>
    let again := if t.shadow && k.pairing.isSome then [] else [{ t with mask := t.mask ||| classes, after := killed }]
    { k with inbox := k.inbox.drop 1, redeliver := k.redeliver ++ again, task := none }
  | none => k
/-- A killed core's inbox is sealed: every record in it is delivered elsewhere (R114). -/
def Core.sealInbox (k : Core) : Core :=
  let k := k.queueRedelivery 0
  { k with inbox := [], redeliver := k.redeliver ++ k.inbox.filter fun t => !t.shadow }

/-! ### Fences and kills (R113, R114, R216, R224, R226) -/

/-- Clear classes in cap; classes 16-21 on all eight cores of the cluster (R224), until an ordered test of each core
restores them there (R225). -/
def State.clearClasses (s : State) (c : Nat) (classes : BitVec 28) : State :=
  let tensor := classes &&& 0x3F0000
  let s := s.modCore c fun k => { k with cap := k.cap &&& ~~~(classes.setWidth 64) }
  (clusterCores (clusterOf c)).foldl (init := s) fun s m =>
    s.modCore m fun k => { k with cap := k.cap &&& ~~~(tensor.setWidth 64), shared := k.shared ||| tensor }

/-- Add or rewrite the core's entry of the fence table (R226, Table 14.5). -/
def State.writeFence (s : State) (c : Nat) (classes : BitVec 28) (killed : Bool) (cause : BitVec 3) : State :=
  s.modFirmware fun f =>
    let old := f.fences.find? fun e => e.core == c
    let entry : FenceEntry :=
      { core := c, classes := classes ||| (old.map (·.classes)).getD 0, killed := killed || (old.map (·.killed)).getD false,
        cause := cause, cyc := BitVec.ofNat 32 (s.cycle / 2 ^ 32), boot := f.boot }
    { f with fences := if old.isSome then replaceWhere (fun e => e.core == c) (fun _ => entry) f.fences
                       else f.fences ++ [entry] }

def State.fence (s : State) (c : Nat) (classes : BitVec 28) (cause : BitVec 3) : State :=
  if classes = 0 then s else (s.clearClasses c classes).writeFence c classes false cause

/-- Send a service message from the supervisor (R151, kinds 2 and 3). -/
def State.notify (s : State) (dst : Nat) (w0 w1 : Word) : State :=
  { s with msgs := s.msgs ++ [{ dst := dst, era := 0, since := s.cycle, msg := { w0 := w0, w1 := w1, poison := false, src := 4096, ctx := 0 } }] }

/-- The core-kill notice, one to a core: core and launch id, and the cause (R151; log 58). -/
def State.notifyKill (s : State) (dst killed : Nat) (tsk : BitVec 32) (cause : Word) : State :=
  if (s.core killed).told.contains dst then s
  else (s.modCore killed fun k => { k with told := k.told ++ [dst] }).notify dst
    (BitVec.ofNat 64 (killed + 2 * 2 ^ 28 + tsk.toNat * 2 ^ 32)) cause

/-- The other cores of the co-resident units that contain a core: its gang, its pair partner, the plots of its
configured barriers (R151). -/
def State.unitsOf (s : State) (c : Nat) : List Nat :=
  let k := s.core c
  let inPlot := fun m => k.barriers.any fun b => (b.2.conf.map fun q => inRect q.1 m).getD false
  (Tab.keys s.cores).filter fun m =>
    m != c && (s.core m).part.isSome && (s.core m).part == k.part && !(s.core m).killed && ((k.bound c).contains m || inPlot m)

/-- The cores whose tasks stop when a core is killed: every member of its units, and of the gangs and pairs that hold
them (R109, R114). -/
def State.affected (s : State) (c : Nat) : List Nat := ((s.unitsOf c).flatMap fun m => (s.core m).bound m).eraseDups.filter (· != c)

/-- Kill a core (R113): every context stops, the mailbox and inbox are sealed, its mq entries and the messages that wait
for a full mailbox are dropped, its copies will end with status 8, the other members of its units are stopped, every affected task is queued
for redelivery, and notices are sent. -/
def State.killCore (s : State) (c : Nat) (cause : Word) : State :=
  let units := s.unitsOf c
  let others := s.affected c
  let tsk := (s.core c).tsk
  let stuck := fun (m : MsgFlight) =>
    m.msg.src == c && m.msg.copy.isNone && (m.waiting || decide (32 ≤ (s.core m.dst).mailbox.length))
  let withdrawn := s.msgs.filter stuck
  let s := { s with msgs := s.msgs.filter fun m => !stuck m }
  let s := withdrawn.foldl (init := s) fun s m => s.count Count.droppedMessage m.dst
  let bound := (s.core c).bound c
  let s := others.foldl (init := s.modCore c Core.sealInbox) fun s m => s.modCore m fun k =>
    k.queueRedelivery 0 (if bound.contains m then [c] else [])
  let s := others.foldl (init := s) fun s m => s.stopTask m
  let s := (s.stopTask c).modCore c fun k =>
    { k with killed := true, killCause := cause, told := [], cap := 0, mq := [], ctxs := k.ctxs.map fun e => (e.1, { e.2 with live := false, wait := .none }),
             eqs := k.eqs.map fun e => (e.1, { e.2 with running := e.2.running.map fun r => { r with status := 8, todo := [], guard := false } }) }
  -- a WAITA armed at its local memory is answered like any other access to it (R114)
  let net := s.net.map fun p => if p.home == .localMem c then { p with armed := none } else p
  let s := (({ s with net := net }).writeFence c 0 true 4).count Count.kill c
  units.foldl (init := s) fun s m => s.notifyKill m c tsk cause

/-! ### Gang members that take an instruction back (R26) -/

/-- A register as another context has it. -/
def Context.copyReg (x y : Context) : Reg → Context
  | .g n => { x with g := Tab.put x.g n (Tab.get {} y.g n), liveG := (x.liveG &&& ~~~((1 : Word) <<< n)) ||| (y.liveG &&& ((1 : Word) <<< n)) }
  | .v n => { x with v := Tab.put x.v n (y.readV n), liveV := (x.liveV &&& ~~~((1 : Word) <<< n)) ||| (y.liveV &&& ((1 : Word) <<< n)) }
  | .k n => x.writeK n (y.readK n)
  | .q n => x.writeQ n (y.readQ n)
  | .e n => x.writeE n (y.readE n)
  | .status _ => x
/-- A store with the bytes, marks and releases that it had before an instruction. -/
def Store.putBack (m : Store) (b : Before) : Store :=
  { m with bytes := b.bytes.foldl (fun t e => t.setByte e.1 e.2) m.bytes,
           poison := b.marks.foldl (fun t e => Tab.set false t e.1 e.2) m.poison,
           releases := b.releases.foldl (fun t e => Tab.set none t e.1 e.2) m.releases }
/-- Keys at which two tables differ. -/
def changedKeys {α : Type} [DecidableEq α] (d : α) (old new : Tab α) : List Nat :=
  ((Tab.keys old ++ Tab.keys new).eraseDups).filter fun n => decide (Tab.get d old n ≠ Tab.get d new n)
/-- What an instruction with these registers takes back at a member: of the store what it has changed. -/
def Core.before (old new : Core) (regs : List Reg) : Before :=
  let a := old.store
  let b := new.store
  let bytes := ((a.bytes.map (·.1) ++ b.bytes.map (·.1)).eraseDups).filter fun n => a.bytes.byte n != b.bytes.byte n
  { context := old.ctx 0, regs := regs, bytes := bytes.map fun n => (n, a.bytes.byte n),
    marks := (changedKeys false a.poison b.poison).map fun n => (n, Tab.get false a.poison n),
    releases := (changedKeys none a.releases b.releases).map fun n => (n, Tab.get none a.releases n),
    chk := (new.ctx 0).chk &&& ~~~(old.ctx 0).chk }
/-- A member takes an instruction back. -/
def Core.takeBack (k : Core) : Core :=
  match k.gang.bind (·.before) with
  | some b =>
    let back := fun (x : Context) =>
      { b.regs.foldl (fun x r => x.copyReg b.context r) x with
        relMark := b.context.relMark, seen := b.context.seen, chk := x.chk &&& ~~~b.chk }
    { k.modCtx 0 back with store := k.store.putBack b }
  | none => k

/-! ### Taking an exception (R98-R102, R165) -/

/-- The entry of the control context into its handler: saved cause, address and value, the context that trapped, the
return address, H, and the pc. A running exchange phase ends at the core. -/
def Core.enterHandler (k : Core) (ctx : Nat) (cause sub : BitVec 8) (tval tpc tret : Word) : Core :=
  { k.modCtx 0 (fun x => { x with pc := k.tvec &&& ~~~1, wait := .none, side := [], walkErr := none }) with
    tcause := sub ++ cause, tval := tval, tpc := tpc, tctx := BitVec.ofNat 4 ctx, tret := tret, handler := true,
    phase := none, dueTrap := none }

/-- A trap of the control context of one core, gang apart: a double trap kills the core (R102). -/
def State.controlTrap (s : State) (c : Nat) (cause sub : BitVec 8) (tval : Word) (len : Nat) : State :=
  let k := s.core c
  if k.handler || (k.tvec >>> 1) = 0 then s.killCore c ((sub ++ cause).setWidth 64)
  else
    let pc := (k.ctx 0).pc
    let tret := if cause = 0x11 || cause = 0x12 then pc + BitVec.ofNat 64 len else pc
    ((s.unpark c 0).dropDrive c).modCore c fun k => k.enterHandler 0 cause sub tval pc tret

/-- The context awaits the reply of a non-posted access issued before: a load's, or the one it is held for. -/
def Context.awaits (t : Context) : Bool := t.loads != [] || match t.wait with | .reply _ => true | _ => false
/-- A trap that did not come from the control context's own issue: it is taken once the accesses the context has
outstanding have returned (R97). -/
def State.laterTrap (s : State) (c : Nat) (cause sub : BitVec 8) (tval : Word) (len : Nat) : State :=
  if ((s.core c).ctx 0).awaits then
    s.modCore c fun k => { k with dueTrap := some { cause := cause, sub := sub, tval := tval, len := len } }
  else s.controlTrap c cause sub tval len
/-- Take a trap that has waited for replies, now that they have come. -/
def State.takeDue (s : State) (c : Nat) : State :=
  match (s.core c).dueTrap with
  | some d =>
    if ((s.core c).ctx 0).awaits then s
    else (s.modCore c fun k => { k with dueTrap := none }).controlTrap c d.cause d.sub d.tval d.len
  | none => s

/-- The members of a gang other than the faulting one, and than some that fault themselves, trap with a gang fault, tval
the faulting rank (R26). -/
def State.disbandBut (s : State) (c : Nat) (spared : List Nat) : State :=
  match (s.core c).gang with
  | none => s
  | some g =>
    let rank := g.members.idxOf c
    let s := g.members.foldl (init := s) fun s m => s.modCore m fun k => { k with gang := none }
    (g.members.filter fun m => m != c && !spared.contains m).foldl (init := s) fun s m =>
      s.laterTrap m 0x16 0 (BitVec.ofNat 64 rank) 0
def State.disband (s : State) (c : Nat) : State := s.disbandBut c []

/-- Undelivered traps stand in the order in which they occurred; those of one cycle by context number (R100). -/
def Core.queueTrap (k : Core) (x cycle : Nat) : List Nat :=
  let before := fun (n : Nat) =>
    match (k.ctx n).frozen with
    | some f => f.since != cycle || decide (n < x)
    | none => true
  k.trapQueue.takeWhile before ++ x :: k.trapQueue.dropWhile before

/-- A fault of a context (R97-R99): the control context enters its handler, and its gang disbands; a helper freezes.
Capability and slot faults are counted, whoever handles them (R109, R175). -/
def State.trapCtx (s : State) (c x : Nat) (cause sub : BitVec 8) (tval : Word) (len : Nat) : State :=
  let s := if cause = 0x03 then s.count Count.capabilityFault (c * 28 + tval.toNat % 28)
    else if cause = 0x0C then s.count Count.slotFault c else s
  if x = 0 then (s.disband c).laterTrap c cause sub tval len
  else
    (s.unpark c x).modCore c fun k =>
      let f : Frozen := { cause := cause, sub := sub, pc := (k.ctx x).pc, tval := tval, since := s.cycle }
      { k.modCtx x (fun t => { t with frozen := some f, wait := .none, side := [], walkErr := none }) with
        trapQueue := k.queueTrap x s.cycle }

/-- A fault of the issuing context. -/
def State.trap (s : State) (cause sub : BitVec 8) (tval : Word) (len : Nat) : State :=
  s.trapCtx s.cur.1 s.cur.2 cause sub tval len

/-- Deliver a frozen helper's trap to the control context (R99): the trap registers take the helper's address and
number; a delivery while tvec is 0 kills the core. -/
def State.deliverTrap (s : State) (c n : Nat) (tret : Word) : State :=
  match ((s.core c).ctx n).frozen with
  | none => s
  | some f =>
    if ((s.core c).tvec >>> 1) = 0 then s.killCore c ((f.sub ++ f.cause).setWidth 64)
    else
      ((s.unpark c 0).dropDrive c).modCore c fun k =>
        { k.enterHandler n f.cause f.sub f.tval f.pc tret with trapQueue := k.trapQueue.filter (· != n) }

end Sys2Proof.Machine
end

