-- ==== Sys2Proof/Machine/Access.lean ====
section
/-! DEFINITION. Locations, homes, scopes, translation and the checks made on every access. -/
namespace Sys2Proof.Machine

/-! ### Location words (R54) -/

def isChip (w : Word) : Bool := w.getLsbD 63
def chipLevel (w : Word) : Nat := bitsN w 62 61
def chipCore (w : Word) : Nat := bitsN w 60 48
def chipHandle (w : Word) : Nat := bitsN w 47 36
def chipGen (w : Word) : BitVec 4 := w.extractLsb' 32 4
def chipOff (w : Word) : Nat := bitsN w 31 0
/-- The core a location word names: 0x1FFF names the issuing core. -/
def namedCore (c : Nat) (w : Word) : Nat := if chipCore w = 0x1FFF then c else chipCore w

/-- The channel of a physical address (R364). -/
def channelOf (pa : Nat) : Nat :=
  Nat.xor (Nat.xor (pa / 2 ^ 10 % 512) (pa / 2 ^ 19 % 512)) (Nat.xor (pa / 2 ^ 28 % 512) (pa / 2 ^ 37 % 4))
def stackOf (pa : Nat) : Nat := channelOf pa / 64
/-- The peer of a physical address with bit 51 set (R65). -/
def peerOf (pa : Nat) : Nat := pa / 2 ^ 41 % 1024
def inPeer (pa : Nat) : Bool := 2 ^ 51 ≤ pa

/-- A granule of the crash region; the address of a crash record's slot (R243). -/
def crashGranule (g : Nat) : Bool :=
  Config.crashGranule ≤ g && g < Config.crashGranule + 128 && (g - Config.crashGranule) % 8 == 0
def crashAt (slot : Nat) : Nat := (Config.crashGranule + 8 * (slot / 16)) * 65536 + slot % 16 * 4096

/-- What an access wants of its location (R58, R61, R64). -/
inductive Want where
  | read | write | atomic | fetch
  deriving DecidableEq, Repr

/-- A location after the checks: an on-chip handle, local to the issuer or not, or a physical address. -/
inductive Place where
  | chip (level core handle : Nat) (gen : BitVec 4) (off : Nat) (isLocal : Bool)
  | mem (pa : Nat)
  deriving DecidableEq, Repr

/-- What the checks found. -/
inductive Checked where
  | ok (p : Place)
  | trap (cause sub : BitVec 8)
  /-- The page's translation is not held: a walk is needed. -/
  | walk (va : Nat)
  deriving DecidableEq, Repr

def Place.home : Place → Home
  | .chip 0 core _ _ _ _ => .localMem core
  | .chip _ core _ _ _ _ => .scratch (clusterOf core)
  | .mem pa => if inPeer pa then .peer (peerOf pa) else .channel (channelOf pa)

def Place.isLocal : Place → Bool
  | .chip _ _ _ _ _ l => l
  | .mem _ => false

/-- The core stands in the firmware column (R240; log 60). -/
def State.inColumn (s : State) (c : Nat) : Bool :=
  let t := s.firmware.column
  t.firstColumn ≤ xOf c && xOf c < t.firstColumn + t.width
/-- The partition that a core lies in: the one it is assigned to, else the one whose clusters hold it; column cores lie
in none (R58, R241). -/
def State.partOf (s : State) (c : Nat) : Option Nat :=
  match (s.core c).part with
  | some n => some n
  | none =>
    if s.inColumn c then none
    else (s.parts.find? fun e => (e.2.map fun p => p.clusters.contains (clusterOf c)).getD false).map (·.1)
/-- The owner domain of a core's requests (R70). -/
def State.odiOf (s : State) (c : Nat) : Nat := (((s.partOf c).bind s.part).map (·.odi)).getD 0
/-- The translation space of a partition with an owner domain, which is below 16 (R65, R70). -/
def spaceFor (part odi : Nat) : Nat := odi + 16 * part
/-- The translation space of a core's requests. -/
def State.spaceOf (s : State) (c : Nat) : Nat := spaceFor ((s.partOf c).getD 0) (s.odiOf c)

/-! ### Translation (R64-R66) -/

def Trans.hit (t : Trans) (space va : Nat) : Bool := t.space == space && t.va ≤ va && va < t.va + t.size
/-- The translation of an address that a core finds in its micro-table, its cluster's or its die's table. -/
def State.lookup (s : State) (c va : Nat) : Option Trans :=
  let space := s.spaceOf c
  let hit := fun (l : List Trans) => l.find? fun t => t.hit space va
  (hit (s.core c).micro).or ((hit (s.cluster (clusterOf c)).cache).or (hit (s.die (dieOf c)).cache))
def Trans.grants (t : Trans) : Want → Bool
  | .read => t.r
  | .write => t.w
  | .atomic => t.r && t.w
  | .fetch => t.x

/-- Keep at most `n` entries, the newest first (log 9). -/
def keep {α : Type} (n : Nat) (a : α) (l : List α) : List α := (a :: l).take n

/-- A virtual address as an access of a core's context sees it. `failed` is what its last walk found. -/
def State.translate (s : State) (c : Nat) (failed : Option (Nat × BitVec 8)) (w : Word) (want : Want) : Checked :=
  if bitsN w 62 57 ≠ 0 then .trap 0x05 2
  else
    let va := bitsN w 56 0
    match s.lookup c va with
    | some t => if t.grants want then .ok (.mem (t.pa + (va - t.va))) else .trap 0x06 0
    | none =>
      match failed with
      | some (page, sub) => if page = va / 4096 then .trap 0x05 sub else .walk va
      | none => .walk va

/-- The core that a word of core `c`'s program names. A paired odd core reads the even core's number in coreid, so that
number in a word of its own names itself (R218, R220; log 30). -/
def State.named (s : State) (c : Nat) (w : Word) : Nat :=
  let n := namedCore c w
  match (s.core c).pairing with
  | some p => if !p.even && chipLevel w == 0 && n == p.partner then c else n
  | none => n

/-- An inbox handle of a column core, to which every core may post stores (R242). -/
def State.columnInbox (s : State) (core h : Nat) : Bool := s.inColumn core && s.firmware.column.inboxes.contains (core, h)

/-- The checks of a location at the issuing core (R58, R64): subcode 4, partition, alignment, then for a local access
allocation, generation and bounds; for a virtual address translation and permission, then alignment. -/
def State.check (s : State) (c : Nat) (failed : Option (Nat × BitVec 8)) (w : Word) (size align : Nat) (want : Want) :
    Checked :=
  if isChip w then
    let lvl := chipLevel w
    let core := s.named c w
    let h := chipHandle w
    if lvl > 1 || core > 4095 || h == 0 then .trap 0x09 4
    else if s.partOf core ≠ s.partOf c && !(s.columnInbox core h && want == .write) then .trap 0x06 0
    else if chipOff w % align ≠ 0 then .trap 0x08 0
    else
      let loc := if lvl = 0 then core == c else clusterOf core == clusterOf c
      let t := if lvl = 0 then (s.core core).store.tile h else (s.cluster (clusterOf core)).store.tile h
      if !loc then .ok (.chip lvl core h (chipGen w) (chipOff w) false)
      else if !t.used then .trap 0x09 1
      else if t.gen ≠ chipGen w then .trap 0x09 2
      else if chipOff w + size > t.rows * t.rowBytes then .trap 0x09 3
      else .ok (.chip lvl core h (chipGen w) (chipOff w) true)
  else
    match s.translate c failed w want with
    | .ok p => if bitsN w 56 0 % align ≠ 0 then .trap 0x08 0 else .ok p
    | r => r

/-! ### Page-table walks (R65, R69) -/

/-- What a walk ends with. -/
inductive WalkEnd where
  | leaf (t : Trans)
  | fault (sub : BitVec 8)
  /-- A line of an entry is uncorrectable: its address (R69). -/
  | bad (line : Nat)
  /-- The rest is the shared translation agent's (R238). -/
  | shared
  /-- An entry lies in a pod peer: its physical address. -/
  | peer (pa : Nat)
  /-- The stack that holds an entry is parked (R247). -/
  | busy
  deriving DecidableEq, Repr

/-- An entry's bits outside its fields are 0, and its address is a stack's or a peer's (Table 3.8). -/
def pteOk (e : Word) : Bool :=
  e.getLsbD 0 && bitsN e 63 52 == 0 && bitsN e 11 7 == 0 &&
    (let pa := bitsN e 51 12 * 4096; pa < Config.dramBytes || inPeer pa)
def ptePa (e : Word) : Nat := bitsN e 51 12 * 4096
def pteLeaf (e : Word) : Bool := e.getLsbD 1
/-- The first bit of a level's index, and the log of what a leaf there maps (Table 3.7). -/
def levelShift : Nat → Nat
  | 0 => 43
  | 1 => 30
  | 2 => 21
  | _ => 12
def levelIndex (level va : Nat) : Nat :=
  va / 2 ^ levelShift level % (match level with | 0 => 16384 | 1 => 8192 | _ => 512)
/-- The translation that a leaf gives; address bits below the page size are not used (log 69). -/
def leafTrans (space va level : Nat) (e : Word) : Trans :=
  let size := 2 ^ levelShift level
  { space := space, va := va / size * size, pa := ptePa e / size * size, size := size,
    r := e.getLsbD 2, w := e.getLsbD 3, x := e.getLsbD 4 }
/-- The 16 aligned entries of a 64 KiB page agree but in their addresses (Table 3.8) (log 14). Those of a table in a pod
peer are not compared (log 78). -/
def c64Ok (m : Memory) (at' : Nat) (e : Word) : Bool :=
  (span 0 16).all fun n =>
    let o := leBits 64 (m.read (at' / 128 * 128 + 8 * n) 8)
    o &&& 0xFFF0000000000FFF == e &&& 0xFFF0000000000FFF

/-- A channel that serves no access now: its stack is parked (R247). -/
def State.channelParked (s : State) (pa : Nat) : Bool := (Tab.get {} s.dramStacks (stackOf pa) : Stack).parked
/-- The number under which an entry read from a pod peer is kept for walks. -/
def tableKey (pa : Nat) : Nat := 2 ^ 60 + pa

/-- Read entries from `level` on, `fuel` levels at most; `table` is the table's physical address. C64 counts at L3 only
(log 69); an entry in a pod peer is read as a request to it (log 15). The walker's reads carry no domain: a granule's
owner tag is not compared (log 79). -/
def walkFrom (s : State) (die space va : Nat) : Nat → Nat → Nat → WalkEnd × List (Nat × Nat × Nat × Word)
  | 0, _, _ => (.fault 1, [])
  | fuel + 1, level, table =>
    let pos := table + 8 * levelIndex level va
    let line := pos / 64
    let prefx := va / 2 ^ levelShift level
    let held := (s.die die).walkTab.find? fun w => w.1 == space && w.2.1 == level && w.2.2.1 == prefx
    let far := s.unitLines.find? fun q => q.1 == tableKey pos
    if held.isNone && inPeer pos && far.isNone then (.peer pos, [])
    else if held.isNone && ((s.die die).bad.contains line || (if inPeer pos then (far.map (·.2.2)).getD false
        else Tab.get false s.dramBad line)) then (.bad line, [])
    else if held.isNone && !inPeer pos && s.channelParked pos then (.busy, [])
    else
      let e := match held with
        | some w => w.2.2.2
        | none => if inPeer pos then leBits 64 ((far.map (·.2.1)).getD []) else leBits 64 (s.dram.read pos 8)
      if !pteOk e then (.fault 1, [])
      else if e.getLsbD 6 then (.shared, [])
      else if pteLeaf e then
        if level = 0 then (.fault 1, [])
        else if level = 3 && e.getLsbD 5 && !inPeer pos && !c64Ok s.dram pos e then (.fault 1, [])
        else (.leaf (leafTrans space va level e), [])
      else if level = 3 then (.fault 1, [])
      else
        let r := walkFrom s die space va fuel (level + 1) (ptePa e)
        (r.1, (space, level, prefx, e) :: r.2)

/-- A whole walk of a space, from the table base of its partition (R65). -/
def State.walk (s : State) (die space va : Nat) : WalkEnd × List (Nat × Nat × Nat × Word) :=
  match s.part (space / 16) with
  | some p => walkFrom s die space va 4 0 (bitsN p.table 51 0)
  | none => (.fault 1, [])

/-- An access kind as requests to the shared agent carry it (R238). -/
def Want.code : Want → Nat
  | .read => 0
  | .write => 1
  | .atomic => 2
  | .fetch => 3

/-- Queue a walk for a context, or join one to the same page (R66). -/
def State.requestWalk (s : State) (c x va kind : Nat) : State :=
  let space := s.spaceOf c
  let page := va / 4096 * 4096
  let join := fun (l : List (Nat × Nat)) => if l.contains (c, x) then l else l ++ [(c, x)]
  if s.stas.any fun r => r.space == space && r.va == page && !r.refused then
    let stas := s.stas.map fun r =>
      if r.space == space && r.va == page && !r.refused then { r with waiters := join r.waiters } else r
    { s with stas := stas }
  else
    s.modDie (dieOf c) fun d =>
      if d.walks.any fun w => w.space == space && w.va == page then
        let walks := d.walks.map fun w => if w.space == space && w.va == page then { w with waiters := join w.waiters } else w
        { d with walks := walks }
      else if d.walks.length ≥ 1024 then d
      else { d with walks := d.walks ++ [{ space := space, va := page, waiters := [(c, x)], kind := kind }] }

/-- The issuing context waits for a page's walk. -/
def State.awaitWalk (s : State) (va kind : Nat) : State :=
  let s := s.requestWalk s.cur.1 s.cur.2 va kind
  let full := !((s.die (dieOf s.cur.1)).walks.any fun w => w.waiters.contains s.cur) &&
    !(s.stas.any fun r => r.waiters.contains s.cur)
  if full then s else s.modMe fun x => { x with wait := .walk }

/-- A refusal by the shared agent that units and engines still see (log 48). -/
def State.refusedPage (s : State) (space va : Nat) : Bool :=
  s.stas.any fun r => r.refused && r.space == space && r.va == va / 4096 * 4096 && decide (s.cycle < r.since + 50000)

/-- A translation for engines, the interpreter and reconstruction units, which do not wait in a context: from the
die's table or a whole walk. -/
inductive Direct where
  | ok (pa : Nat)
  | failed
  /-- The shared translation agent, or the pod peer that holds a table, has to be asked first; or a parked stack holds
  the table. -/
  | ask
  deriving DecidableEq, Repr

def State.translateNow (s : State) (die space : Nat) (w : Word) (want : Want) : Direct :=
  if bitsN w 62 57 ≠ 0 || isChip w then .failed
  else
    let va := bitsN w 56 0
    let found := match (s.die die).cache.find? fun t => t.hit space va with
      | some t => WalkEnd.leaf t
      | none => (s.walk die space va).1
    match found with
    | .leaf t => if t.grants want then .ok (t.pa + (va - t.va)) else .failed
    | .shared => if s.refusedPage space va then .failed else .ask
    | .peer _ | .busy => .ask
    | _ => .failed
/-- A line that a walk finds uncorrectable is listed at the die, up to 256, and counted (R69). -/
def State.noteBad (s : State) (die line : Nat) : State :=
  let note := fun (d : Die) =>
    { d with bad := if d.bad.length < 256 && !d.bad.contains line then d.bad ++ [line] else d.bad }
  (s.modDie die note).count Count.badPage die
/-- What a walk of a unit or an engine that fails leaves behind (R69). -/
def State.walkFailed (s : State) (die space : Nat) (w : Word) : State :=
  if isChip w || ((s.die die).cache.any fun t => t.hit space (bitsN w 56 0)) then s
  else match (s.walk die space (bitsN w 56 0)).1 with
    | .bad line => s.noteBad die line
    | _ => s

/-! ### Scopes (R81, R82, R85) -/

/-- The rectangle of a core's b0. -/
def Core.plot (k : Core) : Option (BitVec 32) := ((Tab.get {} k.barriers 0 : Barrier).conf).map (·.1)

/-- A scope code that raises a scope fault (R82). -/
def State.scopeFault (s : State) (c : Nat) (scope : BitVec 4) : Bool :=
  scope.toNat ≥ 12 || (scope == 4 && (s.core c).plot.isNone)

/-- Members of a core's gang, or the core alone. -/
def Core.gangOf (k : Core) (c : Nat) : List Nat := (k.gang.map (·.members)).getD [c]

/-- The number of a core of a pod peer as an agent, from 8192 on (log 59); the peer and the core of such an agent. -/
def peerAgent (id core : Nat) : Nat := 8192 + 1024 * core + id
def agentPeer (n : Nat) : Nat := (n - 8192) % 1024
def agentCore (n : Nat) : Nat := (n - 8192) / 1024

/-- Agent B lies in the scope set of agent A (Table 4.1). -/
def State.inScope (s : State) (scope : BitVec 4) (a : Nat) (actx : Nat) (engine : Bool) (b bctx : Nat) : Bool :=
  let bound := fun n => (s.peer (agentPeer n)).bound
  let ka := s.core a
  if a ≥ 8192 then
    let x := agentCore a
    let y := agentCore b
    let same := decide (8192 ≤ b) && agentPeer a == agentPeer b &&
      (decide (6 ≤ scope.toNat) || (scope == 5 && dieOf x == dieOf y) || (scope == 3 && clusterOf x == clusterOf y))
    scope == 8 || scope == 11 || (scope == 7 && bound a) || a == b || same
  else if b ≥ 8192 then scope == 8 || scope == 11 || (scope == 7 && bound b)
  else
    match scope.toNat with
    | 0 => a == b && actx == bctx && !engine
    | 1 => a == b
    | 2 => (ka.gangOf a).contains b
    | 3 => clusterOf a == clusterOf b
    | 4 => (ka.plot.map fun r => inRect r b).getD false
    | 5 => dieOf a == dieOf b
    | _ => true

/-- A home that a release at a scope waits for (H(S), Table 4.1). -/
def State.homeInScope (s : State) (scope : BitVec 4) (c : Nat) (h : Home) : Bool :=
  let k := s.core c
  match scope.toNat, h with
  | 0, .localMem m | 1, .localMem m => m == c
  | 2, .localMem m => (k.gangOf c).contains m
  | 3, .localMem m => clusterOf m == clusterOf c
  | 3, .scratch n => n == clusterOf c
  | 4, .localMem m => (k.plot.map fun r => inRect r m).getD false
  | 4, .scratch n => (k.plot.map fun r => (clusterCores n).any (inRect r)).getD false
  | 5, .localMem m => dieOf m == dieOf c
  | 5, .scratch n => dieOfCluster n == dieOf c
  | 6, .peer _ => false
  | 7, .peer id => (s.peer id).bound
  | 8, _ => true
  | 9, .peer _ | 10, .peer _ => false
  | 11, _ => true
  | n, _ => n ≥ 6

/-- Messages to host-side addresses count as performed once acknowledged (R82). -/
def State.hostQuiet (s : State) (scope : BitVec 4) (c x : Nat) : Bool :=
  scope.toNat < 9 || s.outbox.all fun o => o.acked || o.core != some (c, x)

/-- Every earlier access of a context to a home in H(scope) has been performed (R84). -/
def State.released (s : State) (scope : BitVec 4) (c x : Nat) : Bool :=
  let own := fun (p : Packet) => (p.core == c && p.ctx == x && p.row.isNone) || p.merged.any fun m => m.1 == c && m.2.1 == x
  (s.net.all fun p => !own p || !s.homeInScope scope c p.home) &&
    s.hostQuiet scope c x

/-! ### Barriers and windows -/

/-- The configured barriers of a core whose plot storage holds a home (R162). -/
def State.plotsHolding (s : State) (c : Nat) (h : Home) : List Nat :=
  (span 0 4).filter fun n =>
    match (Tab.get {} (s.core c).barriers n : Barrier).conf with
    | none => false
    | some q => match h with
      | .localMem m => inRect q.1 m
      | .scratch cl => (clusterCores cl).any (inRect q.1)
      | _ => false

/-- A barrier with det = 1 whose plot storage holds the home (R158, R170). -/
def State.detPlot (s : State) (c : Nat) (h : Home) : Bool :=
  (s.plotsHolding c h).any fun n =>
    (((Tab.get {} (s.core c).barriers n : Barrier).conf.map fun q => q.2.getLsbD 17)).getD false

/-- Add or subtract bytes of pending-byte counts (R162). -/
def State.addPending (s : State) (c : Nat) (bs : List Nat) (n : Nat) : State :=
  if bs = [] then s else s.modCore c fun k =>
    { k with barriers := bs.foldl (init := k.barriers) fun t b =>
        Tab.update {} t b fun (q : Barrier) => { q with pending := q.pending + BitVec.ofNat 48 n } }
def State.subPending (s : State) (c : Nat) (bs : List Nat) (n : Nat) : State :=
  if bs = [] then s else s.modCore c fun k =>
    { k with barriers := bs.foldl (init := k.barriers) fun t b =>
        Tab.update {} t b fun (q : Barrier) => { q with pending := q.pending - BitVec.ofNat 48 n } }

/-- One window admits a source core, a level, a handle and a kind of access (R61, Table 3.4). -/
def windowAdmits (w : Word) (src level h : Nat) (want : Want) : Bool :=
  let wd := bitsN w 47 40
  let perm := match want with
    | .read => w.getLsbD 3
    | .write => w.getLsbD 4
    | _ => w.getLsbD 5 && w.getLsbD 4 && w.getLsbD 3
  wd != 0 && bitsN w 7 6 == level && bitsN w 19 8 ≤ h && h ≤ bitsN w 31 20 &&
    bitsN w 63 56 ≤ xOf src && xOf src < bitsN w 63 56 + wd &&
    bitsN w 55 48 ≤ yOf src && yOf src < bitsN w 55 48 + bitsN w 39 32 && perm

/-- Some window of the named core admits the access. -/
def Core.admits (k : Core) (src level h : Nat) (want : Want) : Bool :=
  (span 0 8).any fun n => windowAdmits (Tab.get 0 k.win n) src level h want

/-- A cluster's power and re-encodes hold accesses at its arrays (R214). -/
def State.arrayBusy (s : State) (h : Home) : Bool :=
  match h with
  | .localMem c => s.reencode.any fun r => r.1 == SramArray.localMemory c
  | .scratch n => s.reencode.any fun r => r.1 == SramArray.scratchpad n
  | .channel ch => (Tab.get {} s.dramStacks (ch / 64) : Stack).parked
  | .peer _ => false

/-- A request of a rank may arrive at a home's port in this cycle: none of a later rank has (R79). -/
def State.portOpen (s : State) (h : Home) (rank : Nat) : Bool :=
  let q : Nat × Nat := Tab.get (0, 0) s.ports (homeIndex h)
  q.1 != s.cycle || decide (q.2 ≤ rank)
/-- A request of a rank has arrived at a home's port. -/
def State.arriveAt (s : State) (h : Home) (rank : Nat) : State :=
  { s with ports := Tab.put s.ports (homeIndex h) (s.cycle, rank) }
/-- Ranks of R79: the owner core's own issue is 0, then come message-plane requests by source core, copy engines by
number, reconstruction units, and peers and hosts by id. The other units, which R79 does not name, come with the
reconstruction units (log 80). -/
def messageRank (core : Nat) : Nat := 1 + core
def engineRank (die engine : Nat) : Nat := 10000 + 16 * die + engine
def unitRank : Nat := 40000
def peerRank (id : Nat) : Nat := 50000 + id

/-! ### Budgets (R211) -/

/-- What an activity can do in a period of 25,000 cycles (Table 13.7). -/
def State.capacity (s : State) (activity consumer : Nat) : Nat :=
  match activity with
  | 0 => 64 * 64 * 25000
  | 1 | 7 => 8000000
  | 2 => 4000000
  | 3 => match (s.core consumer).plot with
    | some r => 64 * 25000 * (rectW r * rectH r)
    | none => 64 * 25000
  | 4 => 8 * 16 * 25000
  | 5 => 250000
  | _ => 6553600
/-- The consumer of message-plane injection that a core belongs to: the corner of its plot of b0 (Table 13.7). -/
def State.injector (s : State) (c : Nat) : Option Nat := (s.core c).plot.map fun r => coreAt (rectX r) (rectY r)
/-- The consumers of an activity that the device knows now (log 42). -/
def State.consumers (s : State) (activity : Nat) : List Nat :=
  match activity with
  | 0 => (s.parts.filterMap fun e => e.2.map (·.odi)).eraseDups
  | 1 | 7 => Tab.keys s.peers
  | 2 => (s.parts.filterMap fun e => e.2.map (·.host)).eraseDups
  | 3 => (s.cores.filterMap fun e => s.injector e.1).eraseDups
  | 4 => s.launches.filterMap fun e => e.2.bind fun l => if l.finished then none else some l.id.toNat
  | 5 => (s.queues.filter fun e => e.2.enabled).map (·.1)
  | _ => span 0 4
/-- What a consumer without a share may do in a period: an equal part of what the shares leave, of all when none is set;
none, and nothing is metered, when the activity has amounts alone (R211; log 42). -/
def State.remainder (s : State) (activity consumer : Nat) : Option Nat :=
  let set := s.budgets.filter fun r => r.activity == activity && !r.implied
  let shares := (set.filter fun r => !r.expert).map (·.amount)
  if shares = [] && set != [] then none
  else
    let others := ((s.consumers activity).filter fun n => n != consumer && !set.any fun r => r.consumer == n).length
    some (s.capacity activity consumer * (100 - shares.foldl (· + ·) 0) / 100 / (others + 1))
/-- What a row grants for a period: a percentage of the capacity, or an amount. -/
def State.grant (s : State) (r : BudgetRow) : Nat :=
  if r.expert then r.amount else s.capacity r.activity r.consumer * r.amount / 100
def BudgetRow.is (r : BudgetRow) (activity consumer : Nat) : Bool := r.activity == activity && r.consumer == consumer
/-- The row of a consumer; one without a row of its own gets the remainder's when that is metered. -/
def State.withRow (s : State) (activity consumer : Nat) : State :=
  if s.budgets.any fun r => r.is activity consumer then s
  else match s.remainder activity consumer with
    | some n => { s with budgets := s.budgets ++ [{ activity := activity, consumer := consumer, expert := false, amount := 0,
                                                    left := n, stalls := 0, implied := true }] }
    | none => s
/-- A consumer has something left of its budget of an activity. -/
def State.budgetLeft (s : State) (activity consumer : Nat) : Bool :=
  (s.withRow activity consumer).budgets.all fun r => !r.is activity consumer || (r.expert && r.amount == 0) || r.left > 0
def State.spend (s : State) (activity consumer n : Nat) : State :=
  let s := s.withRow activity consumer
  { s with budgets := replaceWhere (·.is activity consumer) (fun r => { r with left := r.left - n }) s.budgets }
/-- A request stalls until the next period, and the stall is counted for the consumer (log 44). -/
def State.budgetStall (s : State) (activity consumer : Nat) : State :=
  let s := s.withRow activity consumer
  { s with budgets := replaceWhere (·.is activity consumer) (fun r => { r with stalls := r.stalls + 1 }) s.budgets }

/-- The budget that holds back an injection of a core: activity and consumer. -/
def State.injectionStall (s : State) (c : Nat) : Option (Nat × Nat) :=
  match s.injector c with
  | some n => if s.budgetLeft 3 n then none else some (3, n)
  | none => none
/-- The budget that holds back an access to a place: of a pod peer each direction has its own. -/
def State.accessStall (s : State) (c : Nat) (pl : Place) (want : Want) : Option (Nat × Nat) :=
  if pl.isLocal then none
  else match pl with
    | .mem pa =>
      let out := (want == .write || want == .atomic) && !s.budgetLeft 1 (peerOf pa)
      let back := want != .write && !s.budgetLeft 7 (peerOf pa)
      if inPeer pa && out then some (1, peerOf pa) else if inPeer pa && back then some (7, peerOf pa) else s.injectionStall c
    | _ => s.injectionStall c
/-- What a packet takes of its consumers' budgets; `back` says that its bytes come towards this device. -/
def State.spendPacket (s : State) (c : Nat) (home : Home) (isLocal back : Bool) (n : Nat) : State :=
  let s := match home with | .peer id => s.spend (if back then 7 else 1) id n | _ => s
  match if isLocal || c ≥ 4096 then none else s.injector c with
  | some p => s.spend 3 p n
  | none => s

end Sys2Proof.Machine
end

