-- ==== Sys2Proof/WellFormed.lean ====
section
/-! DEFINITION. The field values an instruction may hold (R126-R130, R134, R135 and the reference entries): what the
encoding alone decides. A violation raises illegal instruction. -/
namespace Sys2Proof

/-- Why a word is no instruction (R134). -/
inductive Reject where
  /-- A reserved major, minor or fn, or a nonzero field where the row requires zero. -/
  | reservedWord
  /-- An operand kind the row does not allow in a field (R126). -/
  | operandKind
  /-- A register number outside the row's range, or odd where it must be even (R130, R135). -/
  | registerNumber
  /-- A type code or memory class the row does not allow (R46, R127, R266). -/
  | typeCode
  /-- A memory order the row does not accept (R83). -/
  | order
  /-- A literal the row does not allow: a group, a slot direction, a count, an offset. -/
  | literal
  /-- A status register number that is unlisted, or read-only for MTS (R31, R316). -/
  | statusNumber
  /-- Fewer bytes than the instruction has. -/
  | tooShort
  deriving DecidableEq, Repr

/-- Register numbers below a limit. -/
def below (n : Nat) {w : Nat} (r : BitVec w) : Bool := r.toNat < n

/-- Status registers MFS reads (Tables 1.5, 2.4, 3.3, 5.2, 7.3, 14.3). -/
def statusListed (n : Nat) : Bool :=
  n ≤ 0x00E || (0x010 ≤ n && n ≤ 0x01C) || (0x020 ≤ n && n ≤ 0x025) || (0x030 ≤ n && n ≤ 0x03F) ||
    (0x040 ≤ n && n ≤ 0x047)

/-- Status registers MTS may write (Table 20.3). -/
def statusWritable (n : Nat) : Bool :=
  (0x006 ≤ n && n ≤ 0x00A) || n == 0x00D || n == 0x00E || (0x010 ≤ n && n ≤ 0x013) || n == 0x016 || n == 0x019 ||
    n == 0x01A || n == 0x01C || (0x030 ≤ n && n ≤ 0x03F) || (0x040 ≤ n && n ≤ 0x047)

/-- A vector compare writes k0-k7 (R126). -/
def compareOk (d : BitVec 6) (t u : BitVec 2) : Option Reject :=
  if (t == 1 || u == 1) && !below 8 d then some .registerNumber else none

/-- An atomic with d = g0 is posted and takes rlx or rel only (R83). -/
def atomicOk (d : BitVec 6) (o : BitVec 2) : Option Reject :=
  if d == 0 && (o == 1 || o == 3) then some .order else none

/-- A type code that CVT, CVTF, TAG and BCAST accept (R46, R266). -/
def typeOk (l : BitVec 5) : Bool := l != 14 && l != 15

def orReject (ok : Bool) (r : Reject) : Option Reject := if ok then none else some r

/-- What is wrong with an instruction's fields; none when it is well formed. -/
def Instr.illFormed : Instr → Option Reject
  | .addG16 _ s | .subG16 _ s | .addV16 _ s | .mulV16 _ s | .andG16 _ s | .orG16 _ s | .xorG16 _ s
  | .movG16 _ s | .movV16 _ s | .ldG16 _ s | .stG16 _ s => orReject (below 32 s) .registerNumber
  | .ceq d t _ u _ | .cne d t _ u _ | .clt d t _ u _ | .cle d t _ u _ => compareOk d t u
  | .cvt _ _ l | .tag _ _ l => orReject (below 32 l && typeOk (l.setWidth 5)) .typeCode
  | .cvtf _ _ l => orReject (typeOk (l.setWidth 5)) .typeCode
  | .shuf _ _ u _ => orReject (u == 1 || u == 2) .operandKind
  | .bcast _ t _ y =>
    if t == 1 then some .operandKind else orReject (below 32 y && typeOk (y.setWidth 5)) .typeCode
  | .slide _ _ u _ | .mvs _ _ u _ => orReject (u != 1) .operandKind
  | .mvv _ t _ u _ => orReject (t != 1 && u != 1) .operandKind
  | .kand d s r | .kor d s r => orReject (below 8 d && below 8 s && below 8 r) .registerNumber
  | .knot d s => orReject (below 8 d && below 8 s) .registerNumber
  | .kuse s => orReject (below 8 s) .registerNumber
  | .qand d s r | .qor d s r | .qandn d s r | .qxor d s r =>
    orReject (below 4 d && below 4 s && below 4 r) .registerNumber
  | .qcnt _ s | .qidx _ s _ => orReject (below 4 s) .registerNumber
  | .qmark d _ | .qclr d _ | .qld d _ | .qst d _ => orReject (below 4 d) .registerNumber
  | .ld _ _ c _ | .st _ _ c _ => orReject (below 8 c) .typeCode
  | .vld _ _ c _ | .vst _ _ c _ => orReject (typeOk c) .typeCode
  | .aadd d _ _ _ o | .aand d _ _ _ o | .aor d _ _ _ o | .axor d _ _ _ o | .amin d _ _ _ o | .amax d _ _ _ o
  | .axch d _ _ _ o | .acas d _ _ _ o | .afadd d _ _ _ o => atomicOk d o
  | .avadd _ _ _ o | .strl _ _ _ o => orReject (o == 0 || o == 2) .order
  | .ldaq _ _ _ o | .waita _ _ _ _ o => orReject (o == 0 || o == 1) .order
  | .bany s _ | .bnone s _ => orReject (below 8 s) .registerNumber
  | .loop _ o => orReject (3 ≤ o.toInt) .literal
  | .rett e => orReject (below 2 e) .literal
  | .live _ e => orReject (below 4 e) .literal
  | .mfs _ n => orReject (statusListed n.toNat) .statusNumber
  | .mts _ n => orReject (statusWritable n.toNat) .statusNumber
  | .msend m _ => orReject (m.toNat % 2 == 0) .registerNumber
  | .mtake d => orReject (d.toNat % 2 == 0 && d != 0) .registerNumber
  | .mtake16 d => orReject (d.toNat % 2 == 0 && d != 0) .registerNumber
  | .cpyset _ f => orReject (below 10 f) .literal
  | .mma d a _ | .mmag d a _ => orReject (below 8 d && a.toNat % 2 == 0) .registerNumber
  | .mwaitb n => orReject (below 9 n) .literal
  | .tld d a | .tldt d a | .tst d a => orReject (below 8 d && a.toNat % 2 == 0) .registerNumber
  | .tzero d => orReject (below 8 d) .registerNumber
  | .barset _ _ n | .barwait n | .bararv n => orReject (below 4 n) .registerNumber
  | .xmit _ _ e | .intake _ _ e => orReject (below 4 e) .literal
  | .meetq _ e => orReject (below 4 e && e != 0) .registerNumber
  | .split _ _ e => orReject (below 4 e) .registerNumber
  | .cvst _ e => orReject (below 3 e) .literal
  | _ => none

/-- The instruction's fields are among those the spec allows. -/
def Instr.wf (i : Instr) : Bool := i.illFormed == none

end Sys2Proof
end

