-- ==== Sys2Proof/Decode.lean ====
section
/-! DEFINITION. Decoding, total on any bytes (R123, R125-R135), and the encoder, both written from the spec's encoding
tables. -/
namespace Sys2Proof

/-- An instruction word: 16 or 32 bits (R123). -/
inductive Code where
  | short (h : BitVec 16)
  | wide (w : BitVec 32)
  deriving DecidableEq, Repr

/-- The word's fixed bits are those of the row. -/
def fits {n : Nat} (w mask bits : BitVec n) : Bool := w &&& mask == bits

/-- 32-bit words of majors 0x00 to 0x07 (Tables 6.6 to 6.8). -/
def wordArith (w : BitVec 32) : Option Instr :=
  match (w.extractLsb' 24 6).toNat with
  | 0x00 =>
    if fits w 0xFF000003 0xC0000000 then some (.add (w.extractLsb' 18 6) (w.extractLsb' 16 2) (w.extractLsb' 10 6) (w.extractLsb' 8 2) (w.extractLsb' 2 6))
    else if fits w 0xFF000003 0xC0000001 then some (.sub (w.extractLsb' 18 6) (w.extractLsb' 16 2) (w.extractLsb' 10 6) (w.extractLsb' 8 2) (w.extractLsb' 2 6))
    else if fits w 0xFF000003 0xC0000002 then some (.mul (w.extractLsb' 18 6) (w.extractLsb' 16 2) (w.extractLsb' 10 6) (w.extractLsb' 8 2) (w.extractLsb' 2 6))
    else if fits w 0xFF000003 0xC0000003 then some (.mulh (w.extractLsb' 18 6) (w.extractLsb' 16 2) (w.extractLsb' 10 6) (w.extractLsb' 8 2) (w.extractLsb' 2 6))
    else none
  | 0x01 =>
    if fits w 0xFF000003 0xC1000000 then some (.and (w.extractLsb' 18 6) (w.extractLsb' 16 2) (w.extractLsb' 10 6) (w.extractLsb' 8 2) (w.extractLsb' 2 6))
    else if fits w 0xFF000003 0xC1000001 then some (.or (w.extractLsb' 18 6) (w.extractLsb' 16 2) (w.extractLsb' 10 6) (w.extractLsb' 8 2) (w.extractLsb' 2 6))
    else if fits w 0xFF000003 0xC1000002 then some (.xor (w.extractLsb' 18 6) (w.extractLsb' 16 2) (w.extractLsb' 10 6) (w.extractLsb' 8 2) (w.extractLsb' 2 6))
    else if fits w 0xFF000003 0xC1000003 then some (.andn (w.extractLsb' 18 6) (w.extractLsb' 16 2) (w.extractLsb' 10 6) (w.extractLsb' 8 2) (w.extractLsb' 2 6))
    else none
  | 0x02 =>
    if fits w 0xFF000003 0xC2000000 then some (.shl (w.extractLsb' 18 6) (w.extractLsb' 16 2) (w.extractLsb' 10 6) (w.extractLsb' 8 2) (w.extractLsb' 2 6))
    else if fits w 0xFF000003 0xC2000001 then some (.shr (w.extractLsb' 18 6) (w.extractLsb' 16 2) (w.extractLsb' 10 6) (w.extractLsb' 8 2) (w.extractLsb' 2 6))
    else if fits w 0xFF000003 0xC2000002 then some (.sar (w.extractLsb' 18 6) (w.extractLsb' 16 2) (w.extractLsb' 10 6) (w.extractLsb' 8 2) (w.extractLsb' 2 6))
    else if fits w 0xFF000003 0xC2000003 then some (.rot (w.extractLsb' 18 6) (w.extractLsb' 16 2) (w.extractLsb' 10 6) (w.extractLsb' 8 2) (w.extractLsb' 2 6))
    else none
  | 0x03 =>
    if fits w 0xFF000003 0xC3000000 then some (.min (w.extractLsb' 18 6) (w.extractLsb' 16 2) (w.extractLsb' 10 6) (w.extractLsb' 8 2) (w.extractLsb' 2 6))
    else if fits w 0xFF000003 0xC3000001 then some (.max (w.extractLsb' 18 6) (w.extractLsb' 16 2) (w.extractLsb' 10 6) (w.extractLsb' 8 2) (w.extractLsb' 2 6))
    else if fits w 0xFF000003 0xC3000002 then some (.absd (w.extractLsb' 18 6) (w.extractLsb' 16 2) (w.extractLsb' 10 6) (w.extractLsb' 8 2) (w.extractLsb' 2 6))
    else if fits w 0xFF0003FF 0xC3000003 then some (.neg (w.extractLsb' 18 6) (w.extractLsb' 16 2) (w.extractLsb' 10 6))
    else none
  | 0x04 =>
    if fits w 0xFF000003 0xC4000000 then some (.div (w.extractLsb' 18 6) (w.extractLsb' 16 2) (w.extractLsb' 10 6) (w.extractLsb' 8 2) (w.extractLsb' 2 6))
    else if fits w 0xFF000003 0xC4000001 then some (.rem (w.extractLsb' 18 6) (w.extractLsb' 16 2) (w.extractLsb' 10 6) (w.extractLsb' 8 2) (w.extractLsb' 2 6))
    else if fits w 0xFF0303FF 0xC4010002 then some (.sqrt (w.extractLsb' 18 6) (w.extractLsb' 10 6))
    else if fits w 0xFF0303FF 0xC4010003 then some (.rsq (w.extractLsb' 18 6) (w.extractLsb' 10 6))
    else none
  | 0x05 =>
    if fits w 0xFF000003 0xC5000000 then some (.fma (w.extractLsb' 18 6) (w.extractLsb' 16 2) (w.extractLsb' 10 6) (w.extractLsb' 8 2) (w.extractLsb' 2 6))
    else if fits w 0xFF000003 0xC5000001 then some (.fms (w.extractLsb' 18 6) (w.extractLsb' 16 2) (w.extractLsb' 10 6) (w.extractLsb' 8 2) (w.extractLsb' 2 6))
    else if fits w 0xFF030303 0xC5010102 then some (.dot (w.extractLsb' 18 6) (w.extractLsb' 10 6) (w.extractLsb' 2 6))
    else if fits w 0xFF030003 0xC5010003 then some (.scale (w.extractLsb' 18 6) (w.extractLsb' 10 6) (w.extractLsb' 8 2) (w.extractLsb' 2 6))
    else none
  | 0x06 =>
    if fits w 0xFF000003 0xC6000000 then some (.ceq (w.extractLsb' 18 6) (w.extractLsb' 16 2) (w.extractLsb' 10 6) (w.extractLsb' 8 2) (w.extractLsb' 2 6))
    else if fits w 0xFF000003 0xC6000001 then some (.cne (w.extractLsb' 18 6) (w.extractLsb' 16 2) (w.extractLsb' 10 6) (w.extractLsb' 8 2) (w.extractLsb' 2 6))
    else if fits w 0xFF000003 0xC6000002 then some (.clt (w.extractLsb' 18 6) (w.extractLsb' 16 2) (w.extractLsb' 10 6) (w.extractLsb' 8 2) (w.extractLsb' 2 6))
    else if fits w 0xFF000003 0xC6000003 then some (.cle (w.extractLsb' 18 6) (w.extractLsb' 16 2) (w.extractLsb' 10 6) (w.extractLsb' 8 2) (w.extractLsb' 2 6))
    else none
  | 0x07 =>
    if fits w 0xFF0003FF 0xC7000000 then some (.clz (w.extractLsb' 18 6) (w.extractLsb' 16 2) (w.extractLsb' 10 6))
    else if fits w 0xFF0003FF 0xC7000001 then some (.ffs (w.extractLsb' 18 6) (w.extractLsb' 16 2) (w.extractLsb' 10 6))
    else if fits w 0xFF0003FF 0xC7000002 then some (.popc (w.extractLsb' 18 6) (w.extractLsb' 16 2) (w.extractLsb' 10 6))
    else if fits w 0xFF0003FF 0xC7000003 then some (.brev (w.extractLsb' 18 6) (w.extractLsb' 16 2) (w.extractLsb' 10 6))
    else none
  | _ => none

/-- 32-bit words of majors 0x08 to 0x10 (Tables 6.6 to 6.8). -/
def wordVector (w : BitVec 32) : Option Instr :=
  match (w.extractLsb' 24 6).toNat with
  | 0x08 =>
    if fits w 0xFF030303 0xC8010300 then some (.cvt (w.extractLsb' 18 6) (w.extractLsb' 10 6) (w.extractLsb' 2 6))
    else if fits w 0xFF030303 0xC8010301 then some (.cvtf (w.extractLsb' 18 6) (w.extractLsb' 10 6) (w.extractLsb' 2 6))
    else if fits w 0xFF030303 0xC8010302 then some (.tag (w.extractLsb' 18 6) (w.extractLsb' 10 6) (w.extractLsb' 2 6))
    else none
  | 0x09 =>
    if fits w 0xFF030003 0xC9010000 then some (.shuf (w.extractLsb' 18 6) (w.extractLsb' 10 6) (w.extractLsb' 8 2) (w.extractLsb' 2 6))
    else if fits w 0xFF000303 0xC9000301 then some (.bcast (w.extractLsb' 18 6) (w.extractLsb' 16 2) (w.extractLsb' 10 6) (w.extractLsb' 2 6))
    else if fits w 0xFF030003 0xC9010002 then some (.slide (w.extractLsb' 18 6) (w.extractLsb' 10 6) (w.extractLsb' 8 2) (w.extractLsb' 2 6))
    else if fits w 0xFF030303 0xC9010103 then some (.zip (w.extractLsb' 18 6) (w.extractLsb' 10 6) (w.extractLsb' 2 6))
    else none
  | 0x0A =>
    if fits w 0xFF0003FF 0xCA000000 then some (.mov (w.extractLsb' 18 6) (w.extractLsb' 16 2) (w.extractLsb' 10 6))
    else if fits w 0xFF030003 0xCA010001 then some (.mvs (w.extractLsb' 18 6) (w.extractLsb' 10 6) (w.extractLsb' 8 2) (w.extractLsb' 2 6))
    else if fits w 0xFF000003 0xCA000002 then some (.mvv (w.extractLsb' 18 6) (w.extractLsb' 16 2) (w.extractLsb' 10 6) (w.extractLsb' 8 2) (w.extractLsb' 2 6))
    else if fits w 0xFF030303 0xCA010103 then some (.sel (w.extractLsb' 18 6) (w.extractLsb' 10 6) (w.extractLsb' 2 6))
    else none
  | 0x0B =>
    if fits w 0xFF0303FF 0xCB010000 then some (.rsum (w.extractLsb' 18 6) (w.extractLsb' 10 6))
    else if fits w 0xFF0303FF 0xCB010001 then some (.rmax (w.extractLsb' 18 6) (w.extractLsb' 10 6))
    else if fits w 0xFF0303FF 0xCB010002 then some (.rmin (w.extractLsb' 18 6) (w.extractLsb' 10 6))
    else if fits w 0xFF0303FF 0xCB010003 then some (.ror (w.extractLsb' 18 6) (w.extractLsb' 10 6))
    else none
  | 0x0C =>
    if fits w 0xFF030303 0xCC000000 then some (.kand (w.extractLsb' 18 6) (w.extractLsb' 10 6) (w.extractLsb' 2 6))
    else if fits w 0xFF030303 0xCC000001 then some (.kor (w.extractLsb' 18 6) (w.extractLsb' 10 6) (w.extractLsb' 2 6))
    else if fits w 0xFF0303FF 0xCC000002 then some (.knot (w.extractLsb' 18 6) (w.extractLsb' 10 6))
    else if fits w 0xFFFF03FF 0xCC000003 then some (.kuse (w.extractLsb' 10 6))
    else none
  | 0x0D =>
    if fits w 0xFF0303FF 0xCD010000 then some (.exp2 (w.extractLsb' 18 6) (w.extractLsb' 10 6))
    else if fits w 0xFF0303FF 0xCD010001 then some (.log2 (w.extractLsb' 18 6) (w.extractLsb' 10 6))
    else if fits w 0xFF0303FF 0xCD010002 then some (.rcp (w.extractLsb' 18 6) (w.extractLsb' 10 6))
    else if fits w 0xFF0303FF 0xCD010003 then some (.tanh (w.extractLsb' 18 6) (w.extractLsb' 10 6))
    else none
  | 0x0E =>
    if fits w 0xFF030303 0xCE000000 then some (.qand (w.extractLsb' 18 6) (w.extractLsb' 10 6) (w.extractLsb' 2 6))
    else if fits w 0xFF030303 0xCE000001 then some (.qor (w.extractLsb' 18 6) (w.extractLsb' 10 6) (w.extractLsb' 2 6))
    else if fits w 0xFF030303 0xCE000002 then some (.qandn (w.extractLsb' 18 6) (w.extractLsb' 10 6) (w.extractLsb' 2 6))
    else if fits w 0xFF030303 0xCE000003 then some (.qxor (w.extractLsb' 18 6) (w.extractLsb' 10 6) (w.extractLsb' 2 6))
    else none
  | 0x0F =>
    if fits w 0xFF0303FF 0xCF000000 then some (.qcnt (w.extractLsb' 18 6) (w.extractLsb' 10 6))
    else if fits w 0xFF030303 0xCF000001 then some (.qidx (w.extractLsb' 18 6) (w.extractLsb' 10 6) (w.extractLsb' 2 6))
    else if fits w 0xFF0303FF 0xCF010002 then some (.qmark (w.extractLsb' 18 6) (w.extractLsb' 10 6))
    else if fits w 0xFF0303FF 0xCF010003 then some (.qclr (w.extractLsb' 18 6) (w.extractLsb' 10 6))
    else none
  | 0x10 =>
    if fits w 0xFF030303 0xD0000100 then some (.vgth (w.extractLsb' 18 6) (w.extractLsb' 10 6) (w.extractLsb' 2 6))
    else if fits w 0xFF030303 0xD0000101 then some (.vsct (w.extractLsb' 18 6) (w.extractLsb' 10 6) (w.extractLsb' 2 6))
    else none
  | _ => none

/-- 32-bit words of majors 0x11 to 0x2E (Tables 6.6 to 6.8). -/
def wordSimple (w : BitVec 32) : Option Instr :=
  match (w.extractLsb' 24 6).toNat with
  | 0x11 =>
    if fits w 0xFF000000 0xD1000000 then some (.addi (w.extractLsb' 18 6) (w.extractLsb' 12 6) (w.extractLsb' 0 12))
    else none
  | 0x12 =>
    if fits w 0xFF000000 0xD2000000 then some (.andi (w.extractLsb' 18 6) (w.extractLsb' 12 6) (w.extractLsb' 0 12))
    else none
  | 0x13 =>
    if fits w 0xFF000000 0xD3000000 then some (.lit (w.extractLsb' 18 6) (w.extractLsb' 0 18))
    else none
  | 0x14 =>
    if fits w 0xFF000000 0xD4000000 then some (.lith (w.extractLsb' 18 6) (w.extractLsb' 0 18))
    else none
  | 0x15 =>
    if fits w 0xFF000000 0xD5000000 then some (.ld (w.extractLsb' 18 6) (w.extractLsb' 12 6) (w.extractLsb' 7 5) (w.extractLsb' 0 7))
    else none
  | 0x16 =>
    if fits w 0xFF000000 0xD6000000 then some (.st (w.extractLsb' 18 6) (w.extractLsb' 12 6) (w.extractLsb' 7 5) (w.extractLsb' 0 7))
    else none
  | 0x17 =>
    if fits w 0xFF000000 0xD7000000 then some (.vld (w.extractLsb' 18 6) (w.extractLsb' 12 6) (w.extractLsb' 7 5) (w.extractLsb' 0 7))
    else none
  | 0x18 =>
    if fits w 0xFF000000 0xD8000000 then some (.vst (w.extractLsb' 18 6) (w.extractLsb' 12 6) (w.extractLsb' 7 5) (w.extractLsb' 0 7))
    else none
  | 0x19 =>
    if fits w 0xFF000000 0xD9000000 then some (.aadd (w.extractLsb' 18 6) (w.extractLsb' 12 6) (w.extractLsb' 6 6) (w.extractLsb' 2 4) (w.extractLsb' 0 2))
    else none
  | 0x1A =>
    if fits w 0xFF000000 0xDA000000 then some (.aand (w.extractLsb' 18 6) (w.extractLsb' 12 6) (w.extractLsb' 6 6) (w.extractLsb' 2 4) (w.extractLsb' 0 2))
    else none
  | 0x1B =>
    if fits w 0xFF000000 0xDB000000 then some (.aor (w.extractLsb' 18 6) (w.extractLsb' 12 6) (w.extractLsb' 6 6) (w.extractLsb' 2 4) (w.extractLsb' 0 2))
    else none
  | 0x1C =>
    if fits w 0xFF000000 0xDC000000 then some (.axor (w.extractLsb' 18 6) (w.extractLsb' 12 6) (w.extractLsb' 6 6) (w.extractLsb' 2 4) (w.extractLsb' 0 2))
    else none
  | 0x1D =>
    if fits w 0xFF000000 0xDD000000 then some (.amin (w.extractLsb' 18 6) (w.extractLsb' 12 6) (w.extractLsb' 6 6) (w.extractLsb' 2 4) (w.extractLsb' 0 2))
    else none
  | 0x1E =>
    if fits w 0xFF000000 0xDE000000 then some (.amax (w.extractLsb' 18 6) (w.extractLsb' 12 6) (w.extractLsb' 6 6) (w.extractLsb' 2 4) (w.extractLsb' 0 2))
    else none
  | 0x1F =>
    if fits w 0xFF000000 0xDF000000 then some (.axch (w.extractLsb' 18 6) (w.extractLsb' 12 6) (w.extractLsb' 6 6) (w.extractLsb' 2 4) (w.extractLsb' 0 2))
    else none
  | 0x20 =>
    if fits w 0xFF000000 0xE0000000 then some (.acas (w.extractLsb' 18 6) (w.extractLsb' 12 6) (w.extractLsb' 6 6) (w.extractLsb' 2 4) (w.extractLsb' 0 2))
    else none
  | 0x21 =>
    if fits w 0xFF000000 0xE1000000 then some (.afadd (w.extractLsb' 18 6) (w.extractLsb' 12 6) (w.extractLsb' 6 6) (w.extractLsb' 2 4) (w.extractLsb' 0 2))
    else none
  | 0x22 =>
    if fits w 0xFFFC0000 0xE2000000 then some (.avadd (w.extractLsb' 12 6) (w.extractLsb' 6 6) (w.extractLsb' 2 4) (w.extractLsb' 0 2))
    else none
  | 0x23 =>
    if fits w 0xFF000FC0 0xE3000000 then some (.ldaq (w.extractLsb' 18 6) (w.extractLsb' 12 6) (w.extractLsb' 2 4) (w.extractLsb' 0 2))
    else none
  | 0x24 =>
    if fits w 0xFFFC0000 0xE4000000 then some (.strl (w.extractLsb' 12 6) (w.extractLsb' 6 6) (w.extractLsb' 2 4) (w.extractLsb' 0 2))
    else none
  | 0x25 =>
    if fits w 0xFFFFFFC0 0xE5000000 then some (.fence (w.extractLsb' 2 4) (w.extractLsb' 0 2))
    else none
  | 0x26 =>
    if fits w 0xFF000000 0xE6000000 then some (.waita (w.extractLsb' 18 6) (w.extractLsb' 12 6) (w.extractLsb' 6 6) (w.extractLsb' 2 4) (w.extractLsb' 0 2))
    else none
  | 0x27 =>
    if fits w 0xFF000000 0xE7000000 then some (.bz (w.extractLsb' 18 6) (w.extractLsb' 0 18))
    else none
  | 0x28 =>
    if fits w 0xFF000000 0xE8000000 then some (.bnz (w.extractLsb' 18 6) (w.extractLsb' 0 18))
    else none
  | 0x29 =>
    if fits w 0xFF000000 0xE9000000 then some (.bany (w.extractLsb' 18 6) (w.extractLsb' 0 18))
    else none
  | 0x2A =>
    if fits w 0xFF000000 0xEA000000 then some (.bnone (w.extractLsb' 18 6) (w.extractLsb' 0 18))
    else none
  | 0x2B =>
    if fits w 0xFF000000 0xEB000000 then some (.loop (w.extractLsb' 18 6) (w.extractLsb' 0 18))
    else none
  | 0x2C =>
    if fits w 0xFF000000 0xEC000000 then some (.jtab (w.extractLsb' 18 6) (w.extractLsb' 0 18))
    else none
  | 0x2D =>
    if fits w 0xFF000000 0xED000000 then some (.br (w.extractLsb' 0 24))
    else none
  | 0x2E =>
    if fits w 0xFF000000 0xEE000000 then some (.call (w.extractLsb' 0 24))
    else none
  | _ => none

/-- 32-bit words of majors 0x2F to 0x30 (Tables 6.6 to 6.8). -/
def wordControl (w : BitVec 32) : Option Instr :=
  match (w.extractLsb' 24 6).toNat with
  | 0x2F =>
    if fits w 0xFF000FFF 0xEF000000 then some (.jr (w.extractLsb' 18 6) (w.extractLsb' 12 6))
    else if fits w 0xFFFFFFFF 0xEF000001 then some (.ret)
    else if fits w 0xFFFFFFFF 0xEF000002 then some (.leave)
    else if fits w 0xFFFC00FF 0xEF000003 then some (.trap (w.extractLsb' 8 10))
    else if fits w 0xFFFFF0FF 0xEF000004 then some (.rett (w.extractLsb' 8 4))
    else if fits w 0xFFFC00FF 0xEF000005 then some (.bkpt (w.extractLsb' 8 10))
    else if fits w 0xFFFFFFFF 0xEF000006 then some (.nop)
    else none
  | 0x30 =>
    if fits w 0xFF000FFF 0xF0000000 then some (.hstart (w.extractLsb' 18 6) (w.extractLsb' 12 6))
    else if fits w 0xFFFFFFFF 0xF0000001 then some (.hexit)
    else if fits w 0xFFFC0FFF 0xF0000002 then some (.hwait (w.extractLsb' 12 6))
    else if fits w 0xFFFC00FF 0xF0000003 then some (.live (w.extractLsb' 12 6) (w.extractLsb' 8 4))
    else if fits w 0xFFFC0FFF 0xF0000004 then some (.gang (w.extractLsb' 12 6))
    else if fits w 0xFFFFFFFF 0xF0000005 then some (.ungang)
    else if fits w 0xFF0000FF 0xF0000006 then some (.mfs (w.extractLsb' 18 6) (w.extractLsb' 8 10))
    else if fits w 0xFF0000FF 0xF0000007 then some (.mts (w.extractLsb' 18 6) (w.extractLsb' 8 10))
    else if fits w 0xFF03FFFF 0xF0000008 then some (.chkerr (w.extractLsb' 18 6))
    else if fits w 0xFF03FFFF 0xF0000009 then some (.tnext (w.extractLsb' 18 6))
    else if fits w 0xFF03FFFF 0xF000000A then some (.tend (w.extractLsb' 18 6))
    else if fits w 0xFFFFFFFF 0xF000000B then some (.pair)
    else if fits w 0xFFFFFFFF 0xF000000C then some (.unpair)
    else if fits w 0xFFFC00FF 0xF000000D then some (.extl (w.extractLsb' 12 6) (w.extractLsb' 8 4))
    else if fits w 0xFF03F0FF 0xF000000E then some (.extr (w.extractLsb' 18 6) (w.extractLsb' 8 4))
    else if fits w 0xFF0000FF 0xF000000F then some (.halloc (w.extractLsb' 18 6) (w.extractLsb' 12 6) (w.extractLsb' 8 4))
    else if fits w 0xFFFC0FFF 0xF0000010 then some (.hfree (w.extractLsb' 12 6))
    else none
  | _ => none

/-- 32-bit words of majors 0x31 to 0x34 (Tables 6.6 to 6.8). -/
def wordUnits (w : BitVec 32) : Option Instr :=
  match (w.extractLsb' 24 6).toNat with
  | 0x31 =>
    if fits w 0xFF000FFF 0xF1000000 then some (.msend (w.extractLsb' 18 6) (w.extractLsb' 12 6))
    else if fits w 0xFFFFFFFF 0xF1000001 then some (.mwait)
    else if fits w 0xFF03FFFF 0xF1000002 then some (.mtake (w.extractLsb' 18 6))
    else if fits w 0xFFFC00FF 0xF1000003 then some (.cpyset (w.extractLsb' 12 6) (w.extractLsb' 8 4))
    else if fits w 0xFF03FFFF 0xF1000004 then some (.cpygo (w.extractLsb' 18 6))
    else if fits w 0xFF000FFF 0xF1000005 then some (.cpyst (w.extractLsb' 18 6) (w.extractLsb' 12 6))
    else if fits w 0xFFFC0FFF 0xF1000006 then some (.eqf (w.extractLsb' 12 6))
    else if fits w 0xFF0000FF 0xF1000007 then some (.cbinit (w.extractLsb' 18 6) (w.extractLsb' 12 6) (w.extractLsb' 8 4))
    else if fits w 0xFF03F0FF 0xF1000008 then some (.cbacq (w.extractLsb' 18 6) (w.extractLsb' 8 4))
    else if fits w 0xFFFFF0FF 0xF1000009 then some (.cbcom (w.extractLsb' 8 4))
    else if fits w 0xFF03F0FF 0xF100000A then some (.cbwait (w.extractLsb' 18 6) (w.extractLsb' 8 4))
    else if fits w 0xFFFFF0FF 0xF100000B then some (.cbrel (w.extractLsb' 8 4))
    else none
  | 0x32 =>
    if fits w 0xFF0000FF 0xF2000000 then some (.mma (w.extractLsb' 18 6) (w.extractLsb' 12 6) (w.extractLsb' 8 4))
    else if fits w 0xFF0000FF 0xF2000001 then some (.mmag (w.extractLsb' 18 6) (w.extractLsb' 12 6) (w.extractLsb' 8 4))
    else if fits w 0xFF03FFFF 0xF2000002 then some (.mcommit (w.extractLsb' 18 6))
    else if fits w 0xFFFFF0FF 0xF2000003 then some (.mwaitb (w.extractLsb' 8 4))
    else if fits w 0xFF000FFF 0xF2000004 then some (.tld (w.extractLsb' 18 6) (w.extractLsb' 12 6))
    else if fits w 0xFF000FFF 0xF2000005 then some (.tldt (w.extractLsb' 18 6) (w.extractLsb' 12 6))
    else if fits w 0xFF000FFF 0xF2000006 then some (.tst (w.extractLsb' 18 6) (w.extractLsb' 12 6))
    else if fits w 0xFF0000FF 0xF2000007 then some (.trd (w.extractLsb' 18 6) (w.extractLsb' 12 6) (w.extractLsb' 8 4))
    else if fits w 0xFF0000FF 0xF2000008 then some (.twr (w.extractLsb' 18 6) (w.extractLsb' 12 6) (w.extractLsb' 8 4))
    else if fits w 0xFF03FFFF 0xF2000009 then some (.tzero (w.extractLsb' 18 6))
    else none
  | 0x33 =>
    if fits w 0xFF0000FF 0xF3000000 then some (.barset (w.extractLsb' 18 6) (w.extractLsb' 12 6) (w.extractLsb' 8 4))
    else if fits w 0xFFFFF0FF 0xF3000001 then some (.barwait (w.extractLsb' 8 4))
    else if fits w 0xFFFFF0FF 0xF3000002 then some (.bararv (w.extractLsb' 8 4))
    else if fits w 0xFF0000FF 0xF3000003 then some (.xmit (w.extractLsb' 18 6) (w.extractLsb' 12 6) (w.extractLsb' 8 4))
    else if fits w 0xFF0000FF 0xF3000004 then some (.intake (w.extractLsb' 18 6) (w.extractLsb' 12 6) (w.extractLsb' 8 4))
    else if fits w 0xFF000FFF 0xF3000005 then some (.xchg (w.extractLsb' 18 6) (w.extractLsb' 12 6))
    else if fits w 0xFF000FFF 0xF3000006 then some (.grpset (w.extractLsb' 18 6) (w.extractLsb' 12 6))
    else if fits w 0xFF000FFF 0xF3000007 then some (.mcast (w.extractLsb' 18 6) (w.extractLsb' 12 6))
    else none
  | 0x34 =>
    if fits w 0xFF000FFF 0xF4000000 then some (.qld (w.extractLsb' 18 6) (w.extractLsb' 12 6))
    else if fits w 0xFF000FFF 0xF4000001 then some (.qst (w.extractLsb' 18 6) (w.extractLsb' 12 6))
    else if fits w 0xFFFC0FFF 0xF4000002 then some (.meet (w.extractLsb' 12 6))
    else if fits w 0xFF03F0FF 0xF4000003 then some (.meetq (w.extractLsb' 18 6) (w.extractLsb' 8 4))
    else if fits w 0xFF0000FF 0xF4000004 then some (.split (w.extractLsb' 18 6) (w.extractLsb' 12 6) (w.extractLsb' 8 4))
    else if fits w 0xFFFC0FFF 0xF4000005 then some (.cfcfg (w.extractLsb' 12 6))
    else if fits w 0xFFFFFFFF 0xF4000006 then some (.cvdone)
    else if fits w 0xFF03F0FF 0xF4000007 then some (.cvst (w.extractLsb' 18 6) (w.extractLsb' 8 4))
    else none
  | _ => none

/-- A 32-bit word's row: the format A majors, those of formats B to J, those of format E. -/
def wordRow (w : BitVec 32) : Option Instr :=
  let major := (w.extractLsb' 24 6).toNat
  if major ≤ 0x07 then wordArith w
  else if major ≤ 0x10 then wordVector w
  else if major ≤ 0x2E then wordSimple w
  else if major ≤ 0x30 then wordControl w
  else wordUnits w

/-- A 16-bit word's row (Table 6.9). -/
def halfRow (w : BitVec 16) : Option Instr :=
  match (w.extractLsb' 11 5).toNat with
  | 0x00 => some (.movG16 (w.extractLsb' 6 5) (w.extractLsb' 0 6))
  | 0x01 => some (.addG16 (w.extractLsb' 6 5) (w.extractLsb' 0 6))
  | 0x02 => some (.subG16 (w.extractLsb' 6 5) (w.extractLsb' 0 6))
  | 0x03 => some (.addiG16 (w.extractLsb' 6 5) (w.extractLsb' 0 6))
  | 0x04 => some (.litG16 (w.extractLsb' 6 5) (w.extractLsb' 0 6))
  | 0x05 => some (.andG16 (w.extractLsb' 6 5) (w.extractLsb' 0 6))
  | 0x06 => some (.orG16 (w.extractLsb' 6 5) (w.extractLsb' 0 6))
  | 0x07 => some (.xorG16 (w.extractLsb' 6 5) (w.extractLsb' 0 6))
  | 0x08 => some (.shlG16 (w.extractLsb' 6 5) (w.extractLsb' 0 6))
  | 0x09 => some (.shrG16 (w.extractLsb' 6 5) (w.extractLsb' 0 6))
  | 0x0A => some (.ldG16 (w.extractLsb' 6 5) (w.extractLsb' 0 6))
  | 0x0B => some (.stG16 (w.extractLsb' 6 5) (w.extractLsb' 0 6))
  | 0x0C => some (.movV16 (w.extractLsb' 6 5) (w.extractLsb' 0 6))
  | 0x0D => some (.addV16 (w.extractLsb' 6 5) (w.extractLsb' 0 6))
  | 0x0E => some (.mulV16 (w.extractLsb' 6 5) (w.extractLsb' 0 6))
  | 0x0F => some (.bzG16 (w.extractLsb' 6 5) (w.extractLsb' 0 6))
  | 0x10 => some (.bnzG16 (w.extractLsb' 6 5) (w.extractLsb' 0 6))
  | 0x11 => some (.br16 (w.extractLsb' 0 11))
  | 0x12 => if fits w 0xFFFF 0x9000 then some (.ret16) else none
  | 0x13 => if fits w 0xFFFF 0x9800 then some (.nop16) else none
  | 0x14 => if fits w 0xFFFF 0xA000 then some (.hexit16) else none
  | 0x15 => if fits w 0xFFFF 0xA800 then some (.mwait16) else none
  | 0x16 => if fits w 0xF83F 0xB000 then some (.mtake16 (w.extractLsb' 6 5)) else none
  | 0x17 => if fits w 0xF83F 0xB800 then some (.tend16 (w.extractLsb' 6 5)) else none
  | _ => none

/-- The checks of WellFormed on what the rows gave (R134). -/
def accept (i : Option Instr) : Except Reject Instr :=
  match i with
  | none => .error .reservedWord
  | some i =>
    match i.illFormed with
    | none => .ok i
    | some r => .error r

/-- The instruction a word stands for, or why it stands for none. -/
def decodeCode : Code → Except Reject Instr
  | .short h => accept (halfRow h)
  | .wide w => if w.extractLsb' 30 2 == 3 then accept (wordRow w) else .error .reservedWord

/-- The word at the head of a byte stream: halfwords are little-endian, and the high halfword of a 32-bit word comes
first (R28, R123). -/
def codeAt : List Byte → Except Reject (Code × List Byte)
  | b0 :: b1 :: rest =>
    let h : BitVec 16 := b1 ++ b0
    if h.extractLsb' 14 2 == 3 then
      match rest with
      | b2 :: b3 :: rest => .ok (.wide (h ++ (b3 ++ b2 : BitVec 16)), rest)
      | _ => .error .tooShort
    else .ok (.short h, rest)
  | _ => .error .tooShort

/-- Decodes the instruction at the head of a byte stream, and gives the rest. -/
def decode (bytes : List Byte) : Except Reject (Instr × List Byte) :=
  match codeAt bytes with
  | .error r => .error r
  | .ok (c, rest) =>
    match decodeCode c with
    | .error r => .error r
    | .ok i => .ok (i, rest)

/-- A word's bytes, as the instruction stream holds them (R28, R123). -/
def Code.bytes : Code → List Byte
  | .short h => [h.extractLsb' 0 8, h.extractLsb' 8 8]
  | .wide w => [w.extractLsb' 16 8, w.extractLsb' 24 8, w.extractLsb' 0 8, w.extractLsb' 8 8]

/-- The halfwords of a word: its size in bytes. -/
def Code.size : Code → Nat
  | .short _ => 2
  | .wide _ => 4

/-- The word as tval holds it: a 16-bit word zero-extended (R95). -/
def Code.value : Code → Word
  | .short h => h.setWidth 64
  | .wide w => w.setWidth 64

/-- The word of an instruction, field by field as its bit line in the spec lists them; a step that no word names has
none. -/
def encode : Instr → Option Code
  | .add d t s u r => some (.wide (0xC0#8 ++ d ++ t ++ s ++ u ++ r ++ 0x0#2))
  | .addG16 d s => some (.short (0x1#5 ++ d ++ s))
  | .addV16 d s => some (.short (0xD#5 ++ d ++ s))
  | .sub d t s u r => some (.wide (0xC0#8 ++ d ++ t ++ s ++ u ++ r ++ 0x1#2))
  | .subG16 d s => some (.short (0x2#5 ++ d ++ s))
  | .mul d t s u r => some (.wide (0xC0#8 ++ d ++ t ++ s ++ u ++ r ++ 0x2#2))
  | .mulV16 d s => some (.short (0xE#5 ++ d ++ s))
  | .mulh d t s u r => some (.wide (0xC0#8 ++ d ++ t ++ s ++ u ++ r ++ 0x3#2))
  | .and d t s u r => some (.wide (0xC1#8 ++ d ++ t ++ s ++ u ++ r ++ 0x0#2))
  | .andG16 d s => some (.short (0x5#5 ++ d ++ s))
  | .or d t s u r => some (.wide (0xC1#8 ++ d ++ t ++ s ++ u ++ r ++ 0x1#2))
  | .orG16 d s => some (.short (0x6#5 ++ d ++ s))
  | .xor d t s u r => some (.wide (0xC1#8 ++ d ++ t ++ s ++ u ++ r ++ 0x2#2))
  | .xorG16 d s => some (.short (0x7#5 ++ d ++ s))
  | .andn d t s u r => some (.wide (0xC1#8 ++ d ++ t ++ s ++ u ++ r ++ 0x3#2))
  | .shl d t s u r => some (.wide (0xC2#8 ++ d ++ t ++ s ++ u ++ r ++ 0x0#2))
  | .shlG16 d i => some (.short (0x8#5 ++ d ++ i))
  | .shr d t s u r => some (.wide (0xC2#8 ++ d ++ t ++ s ++ u ++ r ++ 0x1#2))
  | .shrG16 d i => some (.short (0x9#5 ++ d ++ i))
  | .sar d t s u r => some (.wide (0xC2#8 ++ d ++ t ++ s ++ u ++ r ++ 0x2#2))
  | .rot d t s u r => some (.wide (0xC2#8 ++ d ++ t ++ s ++ u ++ r ++ 0x3#2))
  | .min d t s u r => some (.wide (0xC3#8 ++ d ++ t ++ s ++ u ++ r ++ 0x0#2))
  | .max d t s u r => some (.wide (0xC3#8 ++ d ++ t ++ s ++ u ++ r ++ 0x1#2))
  | .absd d t s u r => some (.wide (0xC3#8 ++ d ++ t ++ s ++ u ++ r ++ 0x2#2))
  | .neg d t s => some (.wide (0xC3#8 ++ d ++ t ++ s ++ 0x3#10))
  | .div d t s u r => some (.wide (0xC4#8 ++ d ++ t ++ s ++ u ++ r ++ 0x0#2))
  | .rem d t s u r => some (.wide (0xC4#8 ++ d ++ t ++ s ++ u ++ r ++ 0x1#2))
  | .sqrt d s => some (.wide (0xC4#8 ++ d ++ 0x1#2 ++ s ++ 0x2#10))
  | .rsq d s => some (.wide (0xC4#8 ++ d ++ 0x1#2 ++ s ++ 0x3#10))
  | .fma d t s u r => some (.wide (0xC5#8 ++ d ++ t ++ s ++ u ++ r ++ 0x0#2))
  | .fms d t s u r => some (.wide (0xC5#8 ++ d ++ t ++ s ++ u ++ r ++ 0x1#2))
  | .dot d s r => some (.wide (0xC5#8 ++ d ++ 0x1#2 ++ s ++ 0x1#2 ++ r ++ 0x2#2))
  | .scale d s u r => some (.wide (0xC5#8 ++ d ++ 0x1#2 ++ s ++ u ++ r ++ 0x3#2))
  | .ceq d t s u r => some (.wide (0xC6#8 ++ d ++ t ++ s ++ u ++ r ++ 0x0#2))
  | .cne d t s u r => some (.wide (0xC6#8 ++ d ++ t ++ s ++ u ++ r ++ 0x1#2))
  | .clt d t s u r => some (.wide (0xC6#8 ++ d ++ t ++ s ++ u ++ r ++ 0x2#2))
  | .cle d t s u r => some (.wide (0xC6#8 ++ d ++ t ++ s ++ u ++ r ++ 0x3#2))
  | .clz d t s => some (.wide (0xC7#8 ++ d ++ t ++ s ++ 0x0#10))
  | .ffs d t s => some (.wide (0xC7#8 ++ d ++ t ++ s ++ 0x1#10))
  | .popc d t s => some (.wide (0xC7#8 ++ d ++ t ++ s ++ 0x2#10))
  | .brev d t s => some (.wide (0xC7#8 ++ d ++ t ++ s ++ 0x3#10))
  | .cvt d s l => some (.wide (0xC8#8 ++ d ++ 0x1#2 ++ s ++ 0x3#2 ++ l ++ 0x0#2))
  | .cvtf d s l => some (.wide (0xC8#8 ++ d ++ 0x1#2 ++ s ++ 0x3#2 ++ l ++ 0x1#2))
  | .tag d s l => some (.wide (0xC8#8 ++ d ++ 0x1#2 ++ s ++ 0x3#2 ++ l ++ 0x2#2))
  | .shuf d s u r => some (.wide (0xC9#8 ++ d ++ 0x1#2 ++ s ++ u ++ r ++ 0x0#2))
  | .bcast d t s y => some (.wide (0xC9#8 ++ d ++ t ++ s ++ 0x3#2 ++ y ++ 0x1#2))
  | .slide d s u r => some (.wide (0xC9#8 ++ d ++ 0x1#2 ++ s ++ u ++ r ++ 0x2#2))
  | .zip d s r => some (.wide (0xC9#8 ++ d ++ 0x1#2 ++ s ++ 0x1#2 ++ r ++ 0x3#2))
  | .mov d t s => some (.wide (0xCA#8 ++ d ++ t ++ s ++ 0x0#10))
  | .movG16 d s => some (.short (0x0#5 ++ d ++ s))
  | .movV16 d s => some (.short (0xC#5 ++ d ++ s))
  | .mvs d s u r => some (.wide (0xCA#8 ++ d ++ 0x1#2 ++ s ++ u ++ r ++ 0x1#2))
  | .mvv d t s u r => some (.wide (0xCA#8 ++ d ++ t ++ s ++ u ++ r ++ 0x2#2))
  | .sel d s r => some (.wide (0xCA#8 ++ d ++ 0x1#2 ++ s ++ 0x1#2 ++ r ++ 0x3#2))
  | .rsum d s => some (.wide (0xCB#8 ++ d ++ 0x1#2 ++ s ++ 0x0#10))
  | .rmax d s => some (.wide (0xCB#8 ++ d ++ 0x1#2 ++ s ++ 0x1#10))
  | .rmin d s => some (.wide (0xCB#8 ++ d ++ 0x1#2 ++ s ++ 0x2#10))
  | .ror d s => some (.wide (0xCB#8 ++ d ++ 0x1#2 ++ s ++ 0x3#10))
  | .kand d s r => some (.wide (0xCC#8 ++ d ++ 0x0#2 ++ s ++ 0x0#2 ++ r ++ 0x0#2))
  | .kor d s r => some (.wide (0xCC#8 ++ d ++ 0x0#2 ++ s ++ 0x0#2 ++ r ++ 0x1#2))
  | .knot d s => some (.wide (0xCC#8 ++ d ++ 0x0#2 ++ s ++ 0x2#10))
  | .kuse s => some (.wide (0xCC00#16 ++ s ++ 0x3#10))
  | .exp2 d s => some (.wide (0xCD#8 ++ d ++ 0x1#2 ++ s ++ 0x0#10))
  | .log2 d s => some (.wide (0xCD#8 ++ d ++ 0x1#2 ++ s ++ 0x1#10))
  | .rcp d s => some (.wide (0xCD#8 ++ d ++ 0x1#2 ++ s ++ 0x2#10))
  | .tanh d s => some (.wide (0xCD#8 ++ d ++ 0x1#2 ++ s ++ 0x3#10))
  | .qand d s r => some (.wide (0xCE#8 ++ d ++ 0x0#2 ++ s ++ 0x0#2 ++ r ++ 0x0#2))
  | .qor d s r => some (.wide (0xCE#8 ++ d ++ 0x0#2 ++ s ++ 0x0#2 ++ r ++ 0x1#2))
  | .qandn d s r => some (.wide (0xCE#8 ++ d ++ 0x0#2 ++ s ++ 0x0#2 ++ r ++ 0x2#2))
  | .qxor d s r => some (.wide (0xCE#8 ++ d ++ 0x0#2 ++ s ++ 0x0#2 ++ r ++ 0x3#2))
  | .qcnt d s => some (.wide (0xCF#8 ++ d ++ 0x0#2 ++ s ++ 0x0#10))
  | .qidx d s r => some (.wide (0xCF#8 ++ d ++ 0x0#2 ++ s ++ 0x0#2 ++ r ++ 0x1#2))
  | .qmark d s => some (.wide (0xCF#8 ++ d ++ 0x1#2 ++ s ++ 0x2#10))
  | .qclr d s => some (.wide (0xCF#8 ++ d ++ 0x1#2 ++ s ++ 0x3#10))
  | .vgth d s r => some (.wide (0xD0#8 ++ d ++ 0x0#2 ++ s ++ 0x1#2 ++ r ++ 0x0#2))
  | .vsct d s r => some (.wide (0xD0#8 ++ d ++ 0x0#2 ++ s ++ 0x1#2 ++ r ++ 0x1#2))
  | .addi d s i => some (.wide (0xD1#8 ++ d ++ s ++ i))
  | .addiG16 d i => some (.short (0x3#5 ++ d ++ i))
  | .andi d s i => some (.wide (0xD2#8 ++ d ++ s ++ i))
  | .lit d i => some (.wide (0xD3#8 ++ d ++ i))
  | .litG16 d i => some (.short (0x4#5 ++ d ++ i))
  | .lith d i => some (.wide (0xD4#8 ++ d ++ i))
  | .ld d b c o => some (.wide (0xD5#8 ++ d ++ b ++ c ++ o))
  | .ldG16 d s => some (.short (0xA#5 ++ d ++ s))
  | .st d b c o => some (.wide (0xD6#8 ++ d ++ b ++ c ++ o))
  | .stG16 d s => some (.short (0xB#5 ++ d ++ s))
  | .vld d b c o => some (.wide (0xD7#8 ++ d ++ b ++ c ++ o))
  | .vst d b c o => some (.wide (0xD8#8 ++ d ++ b ++ c ++ o))
  | .aadd d a v p o => some (.wide (0xD9#8 ++ d ++ a ++ v ++ p ++ o))
  | .aand d a v p o => some (.wide (0xDA#8 ++ d ++ a ++ v ++ p ++ o))
  | .aor d a v p o => some (.wide (0xDB#8 ++ d ++ a ++ v ++ p ++ o))
  | .axor d a v p o => some (.wide (0xDC#8 ++ d ++ a ++ v ++ p ++ o))
  | .amin d a v p o => some (.wide (0xDD#8 ++ d ++ a ++ v ++ p ++ o))
  | .amax d a v p o => some (.wide (0xDE#8 ++ d ++ a ++ v ++ p ++ o))
  | .axch d a v p o => some (.wide (0xDF#8 ++ d ++ a ++ v ++ p ++ o))
  | .acas d a v p o => some (.wide (0xE0#8 ++ d ++ a ++ v ++ p ++ o))
  | .afadd d a v p o => some (.wide (0xE1#8 ++ d ++ a ++ v ++ p ++ o))
  | .avadd a v p o => some (.wide (0x3880#14 ++ a ++ v ++ p ++ o))
  | .ldaq d a p o => some (.wide (0xE3#8 ++ d ++ a ++ 0x0#6 ++ p ++ o))
  | .strl a v p o => some (.wide (0x3900#14 ++ a ++ v ++ p ++ o))
  | .fence p k => some (.wide (0x3940000#26 ++ p ++ k))
  | .waita d a v p o => some (.wide (0xE6#8 ++ d ++ a ++ v ++ p ++ o))
  | .bz s o => some (.wide (0xE7#8 ++ s ++ o))
  | .bzG16 d o => some (.short (0xF#5 ++ d ++ o))
  | .bnz s o => some (.wide (0xE8#8 ++ s ++ o))
  | .bnzG16 d o => some (.short (0x10#5 ++ d ++ o))
  | .bany s o => some (.wide (0xE9#8 ++ s ++ o))
  | .bnone s o => some (.wide (0xEA#8 ++ s ++ o))
  | .loop s o => some (.wide (0xEB#8 ++ s ++ o))
  | .jtab s n => some (.wide (0xEC#8 ++ s ++ n))
  | .br o => some (.wide (0xED#8 ++ o))
  | .br16 o => some (.short (0x11#5 ++ o))
  | .call o => some (.wide (0xEE#8 ++ o))
  | .jr d s => some (.wide (0xEF#8 ++ d ++ s ++ 0x0#12))
  | .ret => some (.wide (0xEF000001#32))
  | .ret16 => some (.short (0x9000#16))
  | .leave => some (.wide (0xEF000002#32))
  | .trap n => some (.wide (0x3BC0#14 ++ n ++ 0x3#8))
  | .rett e => some (.wide (0xEF000#20 ++ e ++ 0x4#8))
  | .bkpt n => some (.wide (0x3BC0#14 ++ n ++ 0x5#8))
  | .nop => some (.wide (0xEF000006#32))
  | .nop16 => some (.short (0x9800#16))
  | .hstart d s => some (.wide (0xF0#8 ++ d ++ s ++ 0x0#12))
  | .hexit => some (.wide (0xF0000001#32))
  | .hexit16 => some (.short (0xA000#16))
  | .hwait s => some (.wide (0x3C00#14 ++ s ++ 0x2#12))
  | .live s e => some (.wide (0x3C00#14 ++ s ++ e ++ 0x3#8))
  | .gang s => some (.wide (0x3C00#14 ++ s ++ 0x4#12))
  | .ungang => some (.wide (0xF0000005#32))
  | .mfs d n => some (.wide (0xF0#8 ++ d ++ n ++ 0x6#8))
  | .mts s n => some (.wide (0xF0#8 ++ s ++ n ++ 0x7#8))
  | .chkerr d => some (.wide (0xF0#8 ++ d ++ 0x8#18))
  | .tnext d => some (.wide (0xF0#8 ++ d ++ 0x9#18))
  | .tend d => some (.wide (0xF0#8 ++ d ++ 0xA#18))
  | .tend16 d => some (.short (0x17#5 ++ d ++ 0x0#6))
  | .pair => some (.wide (0xF000000B#32))
  | .unpair => some (.wide (0xF000000C#32))
  | .extl s e => some (.wide (0x3C00#14 ++ s ++ e ++ 0xD#8))
  | .extr d e => some (.wide (0xF0#8 ++ d ++ 0x0#6 ++ e ++ 0xE#8))
  | .halloc d s e => some (.wide (0xF0#8 ++ d ++ s ++ e ++ 0xF#8))
  | .hfree s => some (.wide (0x3C00#14 ++ s ++ 0x10#12))
  | .msend m c => some (.wide (0xF1#8 ++ m ++ c ++ 0x0#12))
  | .mwait => some (.wide (0xF1000001#32))
  | .mwait16 => some (.short (0xA800#16))
  | .mtake d => some (.wide (0xF1#8 ++ d ++ 0x2#18))
  | .mtake16 d => some (.short (0x16#5 ++ d ++ 0x0#6))
  | .cpyset s f => some (.wide (0x3C40#14 ++ s ++ f ++ 0x3#8))
  | .cpygo d => some (.wide (0xF1#8 ++ d ++ 0x4#18))
  | .cpyst d s => some (.wide (0xF1#8 ++ d ++ s ++ 0x5#12))
  | .eqf s => some (.wide (0x3C40#14 ++ s ++ 0x6#12))
  | .cbinit d s n => some (.wide (0xF1#8 ++ d ++ s ++ n ++ 0x7#8))
  | .cbacq d n => some (.wide (0xF1#8 ++ d ++ 0x0#6 ++ n ++ 0x8#8))
  | .cbcom n => some (.wide (0xF1000#20 ++ n ++ 0x9#8))
  | .cbwait d n => some (.wide (0xF1#8 ++ d ++ 0x0#6 ++ n ++ 0xA#8))
  | .cbrel n => some (.wide (0xF1000#20 ++ n ++ 0xB#8))
  | .mma d a e => some (.wide (0xF2#8 ++ d ++ a ++ e ++ 0x0#8))
  | .mmag d a e => some (.wide (0xF2#8 ++ d ++ a ++ e ++ 0x1#8))
  | .mcommit d => some (.wide (0xF2#8 ++ d ++ 0x2#18))
  | .mwaitb n => some (.wide (0xF2000#20 ++ n ++ 0x3#8))
  | .tld d a => some (.wide (0xF2#8 ++ d ++ a ++ 0x4#12))
  | .tldt d a => some (.wide (0xF2#8 ++ d ++ a ++ 0x5#12))
  | .tst d a => some (.wide (0xF2#8 ++ d ++ a ++ 0x6#12))
  | .trd d i e => some (.wide (0xF2#8 ++ d ++ i ++ e ++ 0x7#8))
  | .twr d i e => some (.wide (0xF2#8 ++ d ++ i ++ e ++ 0x8#8))
  | .tzero d => some (.wide (0xF2#8 ++ d ++ 0x9#18))
  | .barset d s n => some (.wide (0xF3#8 ++ d ++ s ++ n ++ 0x0#8))
  | .barwait n => some (.wide (0xF3000#20 ++ n ++ 0x1#8))
  | .bararv n => some (.wide (0xF3000#20 ++ n ++ 0x2#8))
  | .xmit d s e => some (.wide (0xF3#8 ++ d ++ s ++ e ++ 0x3#8))
  | .intake d s e => some (.wide (0xF3#8 ++ d ++ s ++ e ++ 0x4#8))
  | .xchg d s => some (.wide (0xF3#8 ++ d ++ s ++ 0x5#12))
  | .grpset d s => some (.wide (0xF3#8 ++ d ++ s ++ 0x6#12))
  | .mcast d s => some (.wide (0xF3#8 ++ d ++ s ++ 0x7#12))
  | .qld d s => some (.wide (0xF4#8 ++ d ++ s ++ 0x0#12))
  | .qst d s => some (.wide (0xF4#8 ++ d ++ s ++ 0x1#12))
  | .meet s => some (.wide (0x3D00#14 ++ s ++ 0x2#12))
  | .meetq d e => some (.wide (0xF4#8 ++ d ++ 0x0#6 ++ e ++ 0x3#8))
  | .split d s e => some (.wide (0xF4#8 ++ d ++ s ++ e ++ 0x4#8))
  | .cfcfg s => some (.wide (0x3D00#14 ++ s ++ 0x5#12))
  | .cvdone => some (.wide (0xF4000006#32))
  | .cvst d e => some (.wide (0xF4#8 ++ d ++ 0x0#6 ++ e ++ 0x7#8))
  | _ => none

/-- The instruction read from `nbits` bits numbered as the opcode table numbers them (log 64). -/
def decodeTableWord (nbits w : Nat) : Option Instr :=
  let bytes := if nbits ≤ 16 then (Code.short (BitVec.ofNat 16 w)).bytes else (Code.wide (BitVec.ofNat 32 w)).bytes
  match decode bytes with
  | .ok (i, _) => some i
  | .error _ => none

end Sys2Proof
end

