-- ==== Sys2Proof/Machine/Fp.lean ====
section
/-! DEFINITION. Numbers: exact values, IEEE and narrow formats, rounding with its flags, and the floating operations
(R37-R53). -/
namespace Sys2Proof.Machine

/-- An exact value: a NaN, an infinity, or (-1)^neg · m · 2^e. -/
inductive Num where
  | nan (signalling : Bool)
  | inf (neg : Bool)
  | fin (neg : Bool) (m : Nat) (e : Int)
  deriving DecidableEq, Repr

/-- A binary format: sign, exponent bits, mantissa bits, bias, tensor scale and special-value policy (Table 2.5). IEEE
formats have policy 1 and scale 0. -/
structure Fmt where
  sgn   : Bool
  e     : Nat
  m     : Nat
  bias  : Int
  scale : Int
  sp    : Nat
  ieee  : Bool
  deriving DecidableEq, Repr

def fmtF16 : Fmt := ⟨true, 5, 10, 15, 0, 1, true⟩
def fmtBf16 : Fmt := ⟨true, 8, 7, 127, 0, 1, true⟩
def fmtF32 : Fmt := ⟨true, 8, 23, 127, 0, 1, true⟩
def fmtF64 : Fmt := ⟨true, 11, 52, 1023, 0, 1, true⟩

/-- The flags of R40 as fpf holds them. -/
def flagInvalid : BitVec 5 := 1
def flagDivZero : BitVec 5 := 2
def flagOverflow : BitVec 5 := 4
def flagUnderflow : BitVec 5 := 8
def flagInexact : BitVec 5 := 16
def flagIf (c : Bool) (f : BitVec 5) : BitVec 5 := if c then f else 0

/-- A code with the flags that making it raised. -/
abbrev Coded := Nat × BitVec 5

/-- The width of a code. -/
def Fmt.width (f : Fmt) : Nat := (if f.sgn then 1 else 0) + f.e + f.m
/-- The largest finite code without its sign (R43). -/
def Fmt.maxCode (f : Fmt) : Nat :=
  match f.sp with
  | 0 => 2 ^ (f.e + f.m) - 1
  | 1 => (2 ^ f.e - 1) * 2 ^ f.m - 1
  | _ => 2 ^ (f.e + f.m) - 2
/-- The exponent of the unit of the subnormals. -/
def Fmt.emin (f : Fmt) : Int := 1 - f.bias - f.m + f.scale
/-- The infinity's code without its sign. -/
def Fmt.infCode (f : Fmt) : Nat := (2 ^ f.e - 1) * 2 ^ f.m
/-- The NaN that conversions and operations give: the canonical quiet NaN, or the narrow format's (R39, Table 2.7). -/
def Fmt.nanCode (f : Fmt) : Nat :=
  match f.sp with
  | 1 => if f.m = 0 then f.infCode else f.infCode + 2 ^ (f.m - 1)
  | 2 => 2 ^ (f.e + f.m) - 1
  | _ => 0
/-- A sign in front of a magnitude code. -/
def Fmt.sign (f : Fmt) (neg : Bool) (mag : Nat) : Nat := if neg && f.sgn then mag + 2 ^ (f.e + f.m) else mag

/-- The exact value of a code (R37, R43). -/
def Fmt.decode (f : Fmt) (code : Nat) : Num :=
  let c := code % 2 ^ f.width
  if f.e = 0 then
    if f.sgn && c ≥ 2 ^ (f.width - 1) then .fin true (2 ^ f.width - c) (f.scale - f.bias)
    else .fin false c (f.scale - f.bias)
  else
    let neg := f.sgn && c ≥ 2 ^ (f.e + f.m)
    let mag := c % 2 ^ (f.e + f.m)
    let ex := mag / 2 ^ f.m
    let m := mag % 2 ^ f.m
    if f.sp = 1 && ex = 2 ^ f.e - 1 then
      if m = 0 then .inf neg else .nan (f.ieee && m < 2 ^ (f.m - 1))
    else if f.sp = 2 && mag = 2 ^ (f.e + f.m) - 1 then .nan false
    else if ex = 0 then .fin neg m f.emin
    else .fin neg (2 ^ f.m + m) (f.emin + (ex - 1 : Int))

/-- Rounding modes (Table 1.5, rmode). -/
def modeRne : BitVec 2 := 0

/-- Whether a magnitude just above code `k`, by remainder `r` of `2·half` and a tail, rounds away from zero; a tie goes
to the even code (Table 6.10). -/
def roundsUp (mode : BitVec 2) (neg : Bool) (k r half : Nat) (tail : Bool) : Bool :=
  let exact := r == 0 && !tail
  match mode.toNat with
  | 0 => r > half || (r == half && (tail || k % 2 == 1) && half != 0)
  | 1 => false
  | 2 => !neg && !exact
  | _ => neg && !exact

/-- What an overflow gives: infinity or the largest finite code, by mode (R38) and policy (Table 2.7). -/
def Fmt.overflow (f : Fmt) (mode : BitVec 2) (neg : Bool) : Nat :=
  let toInf := f.sp = 1 && (match mode.toNat with | 0 => true | 1 => false | 2 => !neg | _ => neg)
  f.sign neg (if toInf then f.infCode else f.maxCode)

/-- Round a magnitude m·2^e, with a nonzero tail below it when `tail`, into a format with exponent bits. A magnitude above
the largest finite value that rounds to it is inexact, no overflow (log 66). -/
def Fmt.round (f : Fmt) (mode : BitVec 2) (neg : Bool) (m : Nat) (e : Int) (tail : Bool) : Coded :=
  if m = 0 && !tail then (f.sign neg 0, 0)
  else
    let lead : Int := e + Nat.log2 m
    let q := max (lead - f.m) f.emin
    let s := (q - e).toNat
    let k := if q < e then m * 2 ^ (e - q).toNat else m / 2 ^ s
    let r := if q < e then 0 else m % 2 ^ s
    let half := if s = 0 then 0 else 2 ^ (s - 1)
    let inexact := r != 0 || tail
    let below := (q - f.emin).toNat * 2 ^ f.m + k
    let code := if roundsUp mode neg below r half tail then below + 1 else below
    if code > f.maxCode then (f.overflow mode neg, flagOverflow ||| flagInexact)
    else (f.sign neg code, flagIf inexact flagInexact ||| flagIf (inexact && code < 2 ^ f.m) flagUnderflow)

/-- Round m·2^e to an integer, RNE: the integer and whether it is inexact. -/
def roundInt (m : Nat) (e : Int) : Nat × Bool :=
  if 0 ≤ e then (m * 2 ^ e.toNat, false)
  else
    let s := (-e).toNat
    let k := m / 2 ^ s
    let r := m % 2 ^ s
    (if roundsUp modeRne false k r (2 ^ (s - 1)) false then k + 1 else k, r != 0)

/-- Saturate to `lo..hi`, as a two's-complement code of `w` bits, with the flags of Table 2.7 (log 17). -/
def saturate (w : Nat) (lo hi x : Int) (inexact : Bool) : Coded :=
  let y := max lo (min hi x)
  ((y % 2 ^ w).toNat, flagIf (y != x) flagInvalid ||| flagIf inexact flagInexact)

/-- The integer range of a width. -/
def intLo (signed : Bool) (w : Nat) : Int := if signed then -(2 ^ (w - 1) : Int) else 0
def intHi (signed : Bool) (w : Nat) : Int := if signed then 2 ^ (w - 1) - 1 else 2 ^ w - 1

/-- A value to an integer type or a fixed-point format of step 2^step (Table 2.7). -/
def Num.toInteger (x : Num) (signed : Bool) (w : Nat) (step : Int) : Coded :=
  match x with
  | .nan _ => (0, flagInvalid)
  | .inf neg => (((if neg then intLo signed w else intHi signed w) % 2 ^ w).toNat, flagInvalid)
  | .fin neg m e =>
    let r := roundInt m (e - step)
    saturate w (intLo signed w) (intHi signed w) (if neg then -(r.1 : Int) else r.1) r.2

/-- A value to a floating format, in a mode (Table 2.7; R46 rounds RNE). A fixed-point format has its own row, whatever
its sign bit (log 67). -/
def Num.toFloat (x : Num) (f : Fmt) (mode : BitVec 2) : Coded :=
  if f.e = 0 then x.toInteger f.sgn f.width (f.scale - f.bias)
  else
    match x with
    | .nan sg =>
      (f.nanCode, flagIf (sg || (f.sp == 0) || (f.sp == 1 && f.m == 0)) flagInvalid)
    | .inf neg =>
      if neg && !f.sgn then (0, flagInvalid ||| flagInexact)
      else if f.sp = 1 then (f.sign neg f.infCode, 0)
      else (f.sign neg f.maxCode, flagOverflow ||| flagInexact)
    | .fin neg m e =>
      if neg && !f.sgn then (0, if m = 0 then 0 else flagInvalid ||| flagInexact)
      else f.round mode neg m e false

/-- An operation's result in an IEEE format: a NaN is canonical and sets invalid only as `invalid` says. -/
def Num.result (x : Num) (f : Fmt) (mode : BitVec 2) (invalid : Bool) : Coded :=
  match x with
  | .nan _ => (f.nanCode, flagIf invalid flagInvalid)
  | y => let r := y.toFloat f mode; (r.1, r.2 ||| flagIf invalid flagInvalid)

def Num.isNan : Num → Bool
  | .nan _ => true
  | _ => false
def Num.isSignalling : Num → Bool
  | .nan s => s
  | _ => false
def Num.isZero : Num → Bool
  | .fin _ m _ => m == 0
  | _ => false
def Num.isInf : Num → Bool
  | .inf _ => true
  | _ => false
def Num.isNeg : Num → Bool
  | .inf n => n
  | .fin n _ _ => n
  | _ => false
def Num.neg : Num → Num
  | .inf n => .inf (!n)
  | .fin n m e => .fin (!n) m e
  | x => x
def Num.abs : Num → Num
  | .inf _ => .inf false
  | .fin _ m e => .fin false m e
  | x => x

/-- The exact sum; a zero sum of unlike signs has the sign that the mode gives (R38). -/
def Num.add (mode : BitVec 2) : Num → Num → Num
  | .nan _, _ | _, .nan _ => .nan false
  | .inf a, .inf b => if a = b then .inf a else .nan false
  | .inf a, _ => .inf a
  | _, .inf b => .inf b
  | .fin n₁ m₁ e₁, .fin n₂ m₂ e₂ =>
    let e := min e₁ e₂
    let a : Int := m₁ * 2 ^ (e₁ - e).toNat
    let b : Int := m₂ * 2 ^ (e₂ - e).toNat
    let x := (if n₁ then -a else a) + (if n₂ then -b else b)
    if x = 0 then .fin (if n₁ = n₂ then n₁ else mode == 3) 0 e
    else .fin (decide (x < 0)) x.natAbs e

/-- The exact product. -/
def Num.mul : Num → Num → Num
  | .nan _, _ | _, .nan _ => .nan false
  | .inf a, y => if y.isZero then .nan false else .inf (a != y.isNeg)
  | x, .inf b => if x.isZero then .nan false else .inf (b != x.isNeg)
  | .fin n₁ m₁ e₁, .fin n₂ m₂ e₂ => .fin (n₁ != n₂) (m₁ * m₂) (e₁ + e₂)

/-- A signalling NaN among the operands, or a NaN result from operands that are none (R40). -/
def invalidOp (ops : List Num) (r : Num) : Bool := ops.any Num.isSignalling || (r.isNan && !ops.any Num.isNan)

def fpAdd (f : Fmt) (mode : BitVec 2) (a b : Num) : Coded :=
  let r := a.add mode b
  r.result f mode (invalidOp [a, b] r)
def fpSub (f : Fmt) (mode : BitVec 2) (a b : Num) : Coded :=
  let r := a.add mode b.neg
  r.result f mode (invalidOp [a, b] r)
def fpMul (f : Fmt) (mode : BitVec 2) (a b : Num) : Coded :=
  let r := a.mul b
  r.result f mode (invalidOp [a, b] r)
/-- a·b + c, fused (R38). -/
def fpFma (f : Fmt) (mode : BitVec 2) (a b c : Num) : Coded :=
  let q := a.mul b
  let r := q.add mode c
  r.result f mode (invalidOp [a, b, c] r || (q.isNan && !a.isNan && !b.isNan))

/-- Exact ordering of two values that are not NaN; -0 equals +0. -/
def Num.lt : Num → Num → Bool
  | .nan _, _ | _, .nan _ => false
  | .inf a, .inf b => a && !b
  | .inf a, _ => a
  | _, .inf b => !b
  | .fin n₁ m₁ e₁, .fin n₂ m₂ e₂ =>
    let e := min e₁ e₂
    let a : Int := m₁ * 2 ^ (e₁ - e).toNat
    let b : Int := m₂ * 2 ^ (e₂ - e).toNat
    (if n₁ then -a else a) < (if n₂ then -b else b)
def Num.eq (a b : Num) : Bool := !a.isNan && !b.isNan && !a.lt b && !b.lt a

/-- MIN and MAX: the other operand of a NaN; -0 below +0 (R39). -/
def fpMinMax (f : Fmt) (isMax : Bool) (a b : Num) : Coded :=
  let below := fun (x y : Num) => x.lt y || (x.isZero && y.isZero && x.isNeg && !y.isNeg)
  let r := if a.isNan then b else if b.isNan then a
    else if isMax then (if below a b then b else a) else (if below b a then b else a)
  r.result f modeRne (a.isSignalling || b.isSignalling)

/-! ### Division and roots -/

/-- Bits kept by quotients, roots and the special functions beyond any format's need. -/
def workBits : Nat := 160

/-- Round a quotient n/d · 2^e. -/
def roundQuot (f : Fmt) (mode : BitVec 2) (neg : Bool) (n d : Nat) (e : Int) : Coded :=
  let s := workBits + Nat.log2 d
  let q := n * 2 ^ s / d
  f.round mode neg q (e - s) (n * 2 ^ s % d != 0)

def fpDiv (f : Fmt) (mode : BitVec 2) (a b : Num) : Coded :=
  match a, b with
  | .nan _, _ | _, .nan _ => (f.nanCode, flagIf (a.isSignalling || b.isSignalling) flagInvalid)
  | .inf _, .inf _ => (f.nanCode, flagInvalid)
  | .inf n, y => (f.sign (n != y.isNeg) f.infCode, 0)
  | x, .inf n => (f.sign (n != x.isNeg) 0, 0)
  | .fin n₁ m₁ e₁, .fin n₂ m₂ e₂ =>
    if m₂ = 0 then
      if m₁ = 0 then (f.nanCode, flagInvalid) else (f.sign (n₁ != n₂) f.infCode, flagDivZero)
    else roundQuot f mode (n₁ != n₂) m₁ m₂ (e₁ - e₂)

/-- One bit of an integer square root, from bit `n` down. -/
def isqrtFrom : Nat → Nat → Nat → Nat
  | 0, _, r => r
  | n + 1, x, r => let t := r + 2 ^ n; isqrtFrom n x (if t * t ≤ x then t else r)
/-- The integer square root. -/
def isqrt (x : Nat) : Nat := isqrtFrom (Nat.log2 x / 2 + 1) x 0

def fpSqrt (f : Fmt) (mode : BitVec 2) (a : Num) : Coded :=
  match a with
  | .nan s => (f.nanCode, flagIf s flagInvalid)
  | .inf n => if n then (f.nanCode, flagInvalid) else (f.infCode, 0)
  | .fin n m e =>
    if m = 0 then (f.sign n 0, 0)
    else if n then (f.nanCode, flagInvalid)
    else
      let s := 2 * workBits + (if e % 2 = 0 then 0 else 1)
      let x := m * 2 ^ s
      let r := isqrt x
      f.round mode false r ((e - s) / 2) (r * r != x)

def fpRsq (f : Fmt) (mode : BitVec 2) (a : Num) : Coded :=
  match a with
  | .nan s => (f.nanCode, flagIf s flagInvalid)
  | .inf n => if n then (f.nanCode, flagInvalid) else (0, 0)
  | .fin n m e =>
    if m = 0 then (f.sign n f.infCode, flagDivZero)
    else if n then (f.nanCode, flagInvalid)
    else
      let s := 2 * (workBits + Nat.log2 m) + (if e % 2 = 0 then 0 else 1)
      let x := 2 ^ s
      let r := isqrt (x / m)
      f.round mode false r ((-e - s) / 2) (r * r * m != x)

def fpRcp (f : Fmt) (mode : BitVec 2) (a : Num) : Coded := fpDiv f mode (.fin false 1 0) a

/-! ### EXP2, LOG2, TANH: exact cases exactly, every other value from `fixBits` bits with a tail (log 20) -/

def fixBits : Nat := 448
def one : Nat := 2 ^ fixBits
/-- Σ y^k / k! in fixed point, `n` more terms, from term `t` of index `k`. -/
def expSeries (y : Nat) : Nat → Nat → Nat → Nat → Nat
  | 0, _, _, acc => acc
  | n + 1, k, t, acc => let t := t * y / one / k; expSeries y n (k + 1) t (acc + t)
/-- e^y for 0 ≤ y < 1. -/
def expFix (y : Nat) : Nat := expSeries y 120 1 one one
/-- Σ z^(2k+1) / (2k+1). -/
def atanhSeries (z2 : Nat) : Nat → Nat → Nat → Nat → Nat
  | 0, _, _, acc => acc
  | n + 1, k, t, acc => let t := t * z2 / one; atanhSeries z2 n (k + 2) t (acc + t / k)
/-- ln of n/d for 1 ≤ n/d ≤ 2. -/
def lnFix (n d : Nat) : Nat :=
  let z := (n - d) * one / (n + d)
  2 * atanhSeries (z * z / one) 150 3 z z
def ln2Fix : Nat := lnFix 2 1
/-- Square in fixed point, `n` times. -/
def squares : Nat → Nat → Nat
  | 0, x => x
  | n + 1, x => squares n (x * x / one)
/-- Drop the bits that truncation has spoiled. -/
def trim (x : Nat) : Nat := x / 2 ^ 64
def trimExp : Int := 64 - (fixBits : Int)

/-- 2^x for a finite x that is not an integer: x = i + f, and 2^f in fixed point. -/
def exp2Fin (f : Fmt) (mode : BitVec 2) (neg : Bool) (m : Nat) (e : Int) : Coded :=
  let big := 0 ≤ e + Nat.log2 m && 20 ≤ e + Nat.log2 m
  if big then
    if neg then f.round mode false 1 (-(2 ^ 20 : Int)) true else (f.overflow mode false, flagOverflow ||| flagInexact)
  else
    let fx := if 0 ≤ e + fixBits then m * 2 ^ (e + fixBits).toNat else m / 2 ^ (-(e + fixBits)).toNat
    let lost := e + fixBits < 0
    if 0 ≤ e then f.round mode false 1 (if neg then -(m * 2 ^ e.toNat : Int) else m * 2 ^ e.toNat) false
    else if m % 2 ^ (-e).toNat = 0 then
      let i : Int := m / 2 ^ (-e).toNat
      f.round mode false 1 (if neg then -i else i) false
    else
      let fl : Int := if neg then -((fx + one - 1 + (if lost then 1 else 0)) / one : Nat) else (fx / one : Nat)
      let frac := if neg then one * (-fl).toNat - fx - (if lost then 1 else 0) else fx % one
      f.round mode false (trim (expFix (frac * ln2Fix / one))) (fl + trimExp) true

def fpExp2 (f : Fmt) (mode : BitVec 2) (a : Num) : Coded :=
  match a with
  | .nan s => (f.nanCode, flagIf s flagInvalid)
  | .inf n => (if n then 0 else f.infCode, 0)
  | .fin n m e => if m = 0 then f.round mode false 1 0 false else exp2Fin f mode n m e

def fpLog2 (f : Fmt) (mode : BitVec 2) (a : Num) : Coded :=
  match a with
  | .nan s => (f.nanCode, flagIf s flagInvalid)
  | .inf n => if n then (f.nanCode, flagInvalid) else (f.infCode, 0)
  | .fin n m e =>
    if m = 0 then (f.sign true f.infCode, flagDivZero)
    else if n then (f.nanCode, flagInvalid)
    else
      let lead : Int := e + Nat.log2 m
      let p := 2 ^ Nat.log2 m
      if m = p then f.round mode (decide (lead < 0)) lead.natAbs 0 false
      else
        let frac : Nat := lnFix m p * one / ln2Fix
        let v : Int := lead * one + frac
        f.round mode (decide (v < 0)) (trim v.natAbs) trimExp true

def fpTanh (f : Fmt) (mode : BitVec 2) (a : Num) : Coded :=
  match a with
  | .nan s => (f.nanCode, flagIf s flagInvalid)
  | .inf n => f.round mode n 1 0 false
  | .fin n m e =>
    let lead : Int := e + Nat.log2 m
    if m = 0 then (f.sign n 0, 0)
    else if lead < -64 then f.round mode n (m * 2 ^ workBits - 1) (e - workBits) true
    else if 7 ≤ lead then f.round mode n (2 ^ workBits - 1) (-(workBits : Int)) true
    else
      let y := if 0 ≤ e + fixBits - 11 then m * 2 ^ (e + fixBits - 11).toNat else m / 2 ^ (-(e + fixBits - 11)).toNat
      let x := squares 12 (expFix y)
      f.round mode n ((x - one) * 2 ^ 320 / (x + one)) (-320) true

/-! ### The matrix step (R52, R53) -/

/-- The exponent of a value's leading bit. -/
def Num.lead : Num → Option Int
  | .fin _ m e => if m = 0 then none else some (e + Nat.log2 m)
  | _ => none

/-- A term kept to weight 2^low, truncated toward zero: units of 2^low, and whether bits were discarded. -/
def Num.keepFrom (low : Int) : Num → Int × Bool
  | .fin n m e =>
    let k : Nat := if low ≤ e then m * 2 ^ (e - low).toNat else m / 2 ^ (low - e).toNat
    (if n then -(k : Int) else k, decide (e < low) && m % 2 ^ (low - e).toNat != 0)
  | _ => (0, false)

/-- One output element of one floating step: products and the incoming C. -/
def matrixSum (terms : List Num) : Nat :=
  if terms.any Num.isNan || (terms.any (· == .inf true) && terms.any (· == .inf false)) then fmtF32.nanCode
  else match terms.find? Num.isInf with
    | some x => fmtF32.sign x.isNeg fmtF32.infCode
    | none =>
      match (terms.filterMap Num.lead) with
      | [] => fmtF32.sign (terms.all Num.isNeg) 0
      | l :: ls =>
        let low := ls.foldl max l - 60
        let kept := terms.map (Num.keepFrom low)
        let sum := kept.foldl (init := (0 : Int)) fun a t => a + t.1
        let sticky := kept.any (·.2)
        if sum = 0 then 0
        else
          -- a kept sum that is representable is returned as it is: the tail only breaks midpoints
          let exact := fmtF32.round modeRne (decide (sum < 0)) sum.natAbs low false
          if exact.2 &&& flagInexact = 0 then exact.1
          else (fmtF32.round modeRne (decide (sum < 0)) sum.natAbs low sticky).1

end Sys2Proof.Machine
end

