-- ==== Sys2Proof/Machine/Operands.lean ====
section
/-! DEFINITION. Types, lanes, operands of format A (R32-R36, R126), the registers each instruction reads and writes,
and its capability classes (Table 1.7). -/
namespace Sys2Proof.Machine

/-! ### Types (Table 2.1) -/

/-- Bits of a lane of a type. -/
def laneWidth (ty : BitVec 5) : Nat :=
  match ty.toNat with
  | 2 | 3 | 8 | 9 | 12 => 16
  | 4 | 5 | 10 => 32
  | 6 | 7 | 11 => 64
  | _ => 8
/-- Lanes of a type. -/
def laneCount (ty : BitVec 5) : Nat := 512 / laneWidth ty
def isIntTag (ty : BitVec 5) : Bool := ty.toNat < 8
def isSigned (ty : BitVec 5) : Bool := ty.toNat < 8 && ty.toNat % 2 == 1
def isFloatTag (ty : BitVec 5) : Bool := 8 ≤ ty.toNat && ty.toNat ≤ 11
def isHalfTag (ty : BitVec 5) : Bool := ty == 8 || ty == 9
def isQid (ty : BitVec 5) : Bool := ty == 12
def isRaw (ty : BitVec 5) : Bool := ty == 13
def isNarrow (ty : BitVec 5) : Bool := 16 ≤ ty.toNat
/-- The format of a floating tag. -/
def floatFmt (ty : BitVec 5) : Fmt :=
  match ty.toNat with
  | 8 => fmtF16
  | 9 => fmtBf16
  | 11 => fmtF64
  | _ => fmtF32

/-- The narrow format that a format register describes; none when it breaks Table 2.5. -/
def narrowFmt (fm : BitVec 32) : Option Fmt :=
  let e := bitsN fm 12 10
  let m := bitsN fm 9 6
  let sp := bitsN fm 15 14
  let sgn := fm.getLsbD 13
  let w := (if sgn then 1 else 0) + e + m
  if bitsN fm 5 0 = 0 && sp < 3 && m ≤ 8 && 1 ≤ w && w ≤ 8 && (sp != 1 || 2 ≤ e) && (sp != 2 || 1 ≤ e) then
    some { sgn := sgn, e := e, m := m, bias := (fm.extractLsb' 16 8).toInt, scale := (fm.extractLsb' 24 8).toInt,
           sp := sp, ieee := false }
  else none
/-- The format a context gives a narrow tag. -/
def Context.narrow (x : Context) (ty : BitVec 5) : Option Fmt := narrowFmt (x.readFm (ty.toNat - 16))
/-- A narrow tag whose format register is invalid (R42). -/
def Context.badNarrow (x : Context) (ty : BitVec 5) : Bool := isNarrow ty && (x.narrow ty).isNone

/-- The exact value of a lane of a numeric type. -/
def laneValue (ty : BitVec 5) (fmt : Option Fmt) (code : Nat) : Num :=
  if isFloatTag ty then (floatFmt ty).decode code
  else if isNarrow ty then match fmt with | some f => f.decode code | none => .fin false 0 0
  else
    let w := laneWidth ty
    if isSigned ty && code ≥ 2 ^ (w - 1) then .fin true (2 ^ w - code) 0 else .fin false code 0
/-- The integer a lane of an integer type or qid holds. -/
def laneInt (ty : BitVec 5) (code : Nat) : Int :=
  let w := laneWidth ty
  if isSigned ty && code ≥ 2 ^ (w - 1) then (code : Int) - 2 ^ w else code
/-- An integer as a code of `w` bits. -/
def wrap (w : Nat) (x : Int) : Nat := (x % 2 ^ w).toNat

/-! ### Lanes of a vector -/

def lane (v : Vec) (w i : Nat) : Nat := v.toNat / 2 ^ (w * i) % 2 ^ w
/-- The number whose `w`-bit digits are the lanes, lowest first. -/
def packNat (w : Nat) : List Nat → Nat
  | [] => 0
  | x :: xs => x % 2 ^ w + 2 ^ w * packNat w xs
def packVec (w : Nat) (lanes : List Nat) : Vec := BitVec.ofNat 512 (packNat w lanes)
/-- Lanes of a type that lie under the mask. -/
def activeLanes (km : Word) (n : Nat) : List Nat := (span 0 n).filter km.getLsbD
/-- The new lanes under the mask, the old ones elsewhere (R252). -/
def blend (km : Word) (w : Nat) (old : Vec) (new : Nat → Nat) : Vec :=
  packVec w ((span 0 (512 / w)).map fun i => if km.getLsbD i then new i else lane old w i)
/-- The bytes of a vector. -/
def vecBytes (v : Vec) : List Byte := leBytes 64 v.toNat

/-! ### Operands of format A (R126, R35, R252) -/

/-- Entry n of the core's copy of the constant bank (R35). -/
def Core.const (k : Core) (n : Nat) : Word := k.consts.getD n 0
/-- A literal, signed or unsigned (log 56). -/
def literal (unsigned : Bool) (r : BitVec 6) : Word := if unsigned then r.setWidth 64 else r.signExtend 64
/-- A non-vector operand as 64 bits. -/
def State.scalarOpnd (s : State) (unsigned : Bool) (t : BitVec 2) (r : BitVec 6) : Word :=
  match t.toNat with
  | 0 => s.g r.toNat
  | 2 => s.here.const r.toNat
  | _ => literal unsigned r
/-- An s64 value as an exact number. -/
def wordValue (x : Word) : Num := if x.msb then .fin true (2 ^ 64 - x.toNat) 0 else .fin false x.toNat 0
/-- A non-vector operand converted to one element of a type, with the flags of the conversion (R35). -/
def State.element (s : State) (unsigned : Bool) (t : BitVec 2) (r : BitVec 6) (ty : BitVec 5) : Coded :=
  let x := s.scalarOpnd unsigned t r
  if t ≠ 2 && isFloatTag ty then (wordValue x).toFloat (floatFmt ty) modeRne
  else (x.toNat % 2 ^ laneWidth ty, 0)
/-- The lanes of an operand of a vector form, with conversion flags. -/
def State.laneOpnd (s : State) (unsigned : Bool) (t : BitVec 2) (r : BitVec 6) (ty : BitVec 5) : (Nat → Nat) × BitVec 5 :=
  if t = 1 then (fun i => lane (s.v r.toNat).bits (laneWidth ty) i, 0)
  else
    let e := s.element unsigned t r ty
    (fun _ => e.1, e.2)

/-- The lanes of an operand of a bitwise vector form: a non-vector one is its low bits in every lane, whatever the tag, so
that a literal -1 sets them all (R34, R259; log 81). -/
def State.bitOpnd (s : State) (t : BitVec 2) (r : BitVec 6) (ty : BitVec 5) : Nat → Nat :=
  if t = 1 then fun i => lane (s.v r.toNat).bits (laneWidth ty) i
  else fun _ => (s.scalarOpnd false t r).toNat % 2 ^ laneWidth ty

/-- The tag of the first vector source of two. -/
def State.firstTag (s : State) (t : BitVec 2) (a : BitVec 6) (u : BitVec 2) (b : BitVec 6) : Option (BitVec 5) :=
  if t = 1 then some (s.v a.toNat).tag else if u = 1 then some (s.v b.toNat).tag else none
/-- Two vector sources with different tags (R34). -/
def State.tagsDiffer (s : State) (t : BitVec 2) (a : BitVec 6) (u : BitVec 2) (b : BitVec 6) : Bool :=
  t == 1 && u == 1 && (s.v a.toNat).tag != (s.v b.toNat).tag
/-- tval of a format fault (Table 5.1): first and second vector source tags, destination type. -/
def formatVal (a b d : BitVec 5) : Word := BitVec.ofNat 64 (a.toNat + 2 ^ 8 * b.toNat + 2 ^ 16 * d.toNat)
def State.formatVal2 (s : State) (t : BitVec 2) (a : BitVec 6) (u : BitVec 2) (b : BitVec 6) : Word :=
  if t = 1 then formatVal (s.v a.toNat).tag (if u = 1 then (s.v b.toNat).tag else 0) 0
  else if u = 1 then formatVal (s.v b.toNat).tag 0 0 else 0

/-- The same for FMA and FMS, whose old destination is a vector source too: the second one when only one operand is a
vector (log 55). -/
def State.formatValFma (s : State) (d : BitVec 6) (t : BitVec 2) (a : BitVec 6) (u : BitVec 2) (b : BitVec 6) : Word :=
  if t = 1 && u = 1 then s.formatVal2 t a u b
  else formatVal (if t = 1 then (s.v a.toNat).tag else (s.v b.toNat).tag) (s.v d.toNat).tag 0

/-! ### Instructions by their 32-bit equivalents (R135) -/

/-- The 32-bit instruction of which a 16-bit form is another spelling (Table 6.9). -/
def longForm : Instr → Instr
  | .movG16 d s => .mov (d.setWidth 6) 0 s
  | .addG16 d s => .add (d.setWidth 6) 0 (d.setWidth 6) 0 s
  | .subG16 d s => .sub (d.setWidth 6) 0 (d.setWidth 6) 0 s
  | .addiG16 d i => .addi (d.setWidth 6) (d.setWidth 6) (i.signExtend 12)
  | .litG16 d i => .lit (d.setWidth 6) (i.signExtend 18)
  | .andG16 d s => .and (d.setWidth 6) 0 (d.setWidth 6) 0 s
  | .orG16 d s => .or (d.setWidth 6) 0 (d.setWidth 6) 0 s
  | .xorG16 d s => .xor (d.setWidth 6) 0 (d.setWidth 6) 0 s
  | .shlG16 d i => .shl (d.setWidth 6) 0 (d.setWidth 6) 3 i
  | .shrG16 d i => .shr (d.setWidth 6) 0 (d.setWidth 6) 3 i
  | .ldG16 d s => .ld (d.setWidth 6) s 6 0
  | .stG16 d s => .st (d.setWidth 6) s 6 0
  | .movV16 d s => .mov (d.setWidth 6) 1 s
  | .addV16 d s => .add (d.setWidth 6) 1 (d.setWidth 6) 1 s
  | .mulV16 d s => .mul (d.setWidth 6) 1 (d.setWidth 6) 1 s
  | .bzG16 d i => .bz (d.setWidth 6) (i.signExtend 18)
  | .bnzG16 d i => .bnz (d.setWidth 6) (i.signExtend 18)
  | .br16 o => .br (o.signExtend 24)
  | .ret16 => .ret
  | .nop16 => .nop
  | .hexit16 => .hexit
  | .mwait16 => .mwait
  | .mtake16 d => .mtake (d.setWidth 6)
  | .tend16 d => .tend (d.setWidth 6)
  | i => i

/-- Bytes of an instruction. -/
def instrLen (i : Instr) : Nat :=
  match i with
  | .illegalInstruction _ wide => if wide then 4 else 2
  | i => match encode i with | some (.short _) => 2 | _ => 4
/-- The instruction word as a trap value; a 16-bit word is zero-extended. -/
def instrWord (i : Instr) : Word :=
  match i with
  | .illegalInstruction w _ => w.setWidth 64
  | i => match encode i with
    | some (.short h) => h.setWidth 64
    | some (.wide w) => w.setWidth 64
    | none => 0

/-! ### Registers read and written -/

def opndRegs (t : BitVec 2) (r : BitVec 6) : List Reg :=
  if t = 0 then [.g r.toNat] else if t = 1 then [.v r.toNat] else []
/-- The destination of a two-operand format A instruction (R126). -/
def destReg (d : BitVec 6) (t u : BitVec 2) : Reg := if t = 1 || u = 1 then .v d.toNat else .g d.toNat
def pairRegs (n : Nat) : List Reg := [.g n, .g (n + 1)]

/-- Registers that an instruction reads: its sources for poison and interlocks (R15, R108; log 23). -/
def sources (i : Instr) : List Reg :=
  match longForm i with
  | .add _ t s u r | .sub _ t s u r | .mul _ t s u r | .mulh _ t s u r | .and _ t s u r | .or _ t s u r
  | .xor _ t s u r | .andn _ t s u r | .shl _ t s u r | .shr _ t s u r | .sar _ t s u r | .rot _ t s u r
  | .min _ t s u r | .max _ t s u r | .absd _ t s u r | .div _ t s u r | .rem _ t s u r | .ceq _ t s u r
  | .cne _ t s u r | .clt _ t s u r | .cle _ t s u r => opndRegs t s ++ opndRegs u r
  | .fma d t s u r | .fms d t s u r => opndRegs t s ++ opndRegs u r ++ [destReg d t u]
  | .neg _ t s | .clz _ t s | .ffs _ t s | .popc _ t s | .brev _ t s | .mov _ t s | .bcast _ t s _ => opndRegs t s
  | .sqrt _ s | .rsq _ s | .exp2 _ s | .log2 _ s | .rcp _ s | .tanh _ s | .rsum _ s | .rmax _ s | .rmin _ s
  | .ror _ s | .cvt _ s _ | .cvtf _ s _ | .tag _ s _ => [.v s.toNat]
  | .dot d s r => [.v s.toNat, .v r.toNat, .v d.toNat]
  | .scale _ s u r | .shuf _ s u r | .slide _ s u r | .mvs _ s u r => .v s.toNat :: opndRegs u r
  | .zip _ s r | .sel _ s r => [.v s.toNat, .v r.toNat]
  | .mvv d t s u r => .v d.toNat :: (opndRegs t s ++ opndRegs u r)
  | .kand _ s r | .kor _ s r => [.k s.toNat, .k r.toNat]
  | .knot _ s | .kuse s | .bany s _ | .bnone s _ => [.k s.toNat]
  | .qand _ s r | .qor _ s r | .qandn _ s r | .qxor _ s r => [.q s.toNat, .q r.toNat]
  | .qcnt _ s => [.q s.toNat]
  | .qidx _ s c => [.q s.toNat, .g c.toNat]
  | .qmark d s | .qclr d s => [.v s.toNat, .q d.toNat]
  | .vgth _ s r => [.g s.toNat, .v r.toNat]
  | .vsct d s r => [.g s.toNat, .v r.toNat, .v d.toNat]
  | .addi _ s _ | .andi _ s _ => [.g s.toNat]
  | .lith d _ => [.g d.toNat]
  | .ld _ b _ _ | .vld _ b _ _ => [.g b.toNat]
  | .st d b _ _ => [.g d.toNat, .g b.toNat]
  | .vst d b _ _ => [.v d.toNat, .g b.toNat]
  | .aadd _ a v _ _ | .aand _ a v _ _ | .aor _ a v _ _ | .axor _ a v _ _ | .amin _ a v _ _ | .amax _ a v _ _
  | .axch _ a v _ _ | .afadd _ a v _ _ | .waita _ a v _ _ => [.g a.toNat, .g v.toNat]
  | .acas d a v _ _ => [.g a.toNat, .g v.toNat, .g d.toNat]
  | .strl a v _ _ => [.g a.toNat, .g v.toNat]
  | .avadd a v _ _ => [.g a.toNat, .v v.toNat]
  | .ldaq _ a _ _ => [.g a.toNat]
  | .bz s _ | .bnz s _ | .loop s _ | .jtab s _ => [.g s.toNat]
  | .hstart _ s => [.g s.toNat]
  | .jr _ s | .hwait s | .live s _ | .gang s | .extl s _ | .halloc _ s _ | .hfree s | .cpyset s _
  | .cpyst _ s | .eqf s | .qld _ s | .cfcfg s | .intake _ s _ => [.g s.toNat]
  | .meet s => [.g s.toNat, .q 0]
  | .ret => [.g 63]
  | .mts s _ | .tend s => [.g s.toNat]
  | .msend m c => pairRegs m.toNat ++ [.g c.toNat]
  | .cbinit d s _ | .barset d s _ | .grpset d s => [.g d.toNat, .g s.toNat]
  | .mma _ a e | .mmag _ a e => pairRegs a.toNat ++ pairRegs (2 * e.toNat)
  | .tld _ a | .tldt _ a | .tst _ a => pairRegs a.toNat
  | .trd _ i _ => [.g i.toNat]
  | .twr d i _ => [.v d.toNat, .g i.toNat]
  | .xmit d s _ | .mcast d s => [.v d.toNat, .g s.toNat]
  | .xchg _ s => [.v s.toNat]
  | .qst d s => [.q d.toNat, .g s.toNat]
  | .split _ _ e => [.q 0, .q e.toNat]
  | _ => []

/-- Registers that an instruction writes. A register that LIVE or TNEXT's footprint marks dead is none of them: a load to
it that is outstanding writes it when it returns (log 70). -/
def dests (i : Instr) : List Reg :=
  match longForm i with
  | .add d t _ u _ | .sub d t _ u _ | .mul d t _ u _ | .mulh d t _ u _ | .and d t _ u _ | .or d t _ u _
  | .xor d t _ u _ | .andn d t _ u _ | .shl d t _ u _ | .shr d t _ u _ | .sar d t _ u _ | .rot d t _ u _
  | .min d t _ u _ | .max d t _ u _ | .absd d t _ u _ | .div d t _ u _ | .rem d t _ u _ | .fma d t _ u _
  | .fms d t _ u _ => [destReg d t u]
  | .ceq d t _ u _ | .cne d t _ u _ | .clt d t _ u _ | .cle d t _ u _ =>
    if t = 1 || u = 1 then [.k d.toNat] else [.g d.toNat]
  | .neg d t _ | .clz d t _ | .ffs d t _ | .popc d t _ | .brev d t _ | .mov d t _ => [destReg d t 0]
  | .sqrt d _ | .rsq d _ | .exp2 d _ | .log2 d _ | .rcp d _ | .tanh d _ | .rsum d _ | .rmax d _ | .rmin d _
  | .ror d _ | .cvt d _ _ | .cvtf d _ _ | .tag d _ _ | .dot d _ _ | .scale d _ _ _ | .shuf d _ _ _ | .slide d _ _ _
  | .bcast d _ _ _ | .zip d _ _ | .sel d _ _ | .mvv d _ _ _ _ | .vgth d _ _ | .vld d _ _ _ | .trd d _ _
  | .intake d _ _ | .xchg d _ => [.v d.toNat]
  | .mvs d _ _ _ | .qcnt d _ | .addi d _ _ | .andi d _ _ | .lit d _ | .lith d _ | .ld d _ _ _ | .aadd d _ _ _ _
  | .aand d _ _ _ _ | .aor d _ _ _ _ | .axor d _ _ _ _ | .amin d _ _ _ _ | .amax d _ _ _ _ | .axch d _ _ _ _
  | .acas d _ _ _ _ | .afadd d _ _ _ _ | .ldaq d _ _ _ | .waita d _ _ _ _ | .jr d _ | .hstart d _ | .mfs d _
  | .chkerr d | .extr d _ | .halloc d _ _ | .cpygo d | .cpyst d _ | .cbacq d _ | .cbwait d _ | .mcommit d
  | .cvst d _ => [.g d.toNat]
  | .kand d _ _ | .kor d _ _ | .knot d _ => [.k d.toNat]
  | .kuse _ => [.status 6]
  | .qand d _ _ | .qor d _ _ | .qandn d _ _ | .qxor d _ _ | .qmark d _ | .qclr d _ | .qld d _ => [.q d.toNat]
  | .qidx d _ c => [.g c.toNat, .v d.toNat, .status 6]
  | .call _ => [.g 63]
  | .mts _ n => [.status n.toNat]
  | .tnext d => .g d.toNat :: (span 0 8).map .e
  | .extl _ e => [.e e.toNat]
  | .mtake d => pairRegs d.toNat
  | .meetq d e => [.g d.toNat, .q 0, .q e.toNat]
  | .split d _ _ => [.g d.toNat, .q 0]
  | _ => []

/-! ### Capability classes (Table 1.7) -/

/-- The class an arithmetic instruction's tag selects: integer class, f32 and f64 class; half formats take fhalf. -/
def tagClass (int float : Nat) (ty : BitVec 5) : List Nat :=
  if isIntTag ty then [int] else if isHalfTag ty then [8] else if isFloatTag ty then [float] else []
/-- The class of a two-operand instruction: a scalar form takes the integer class. -/
def State.opClass (s : State) (int float : Nat) (t : BitVec 2) (a : BitVec 6) (u : BitVec 2) (b : BitVec 6) : List Nat :=
  match s.firstTag t a u b with
  | none => [int]
  | some ty => tagClass int float ty
/-- As `opClass`; qid belongs to the integer class too (MIN, MAX, compares). -/
def State.orderClass (s : State) (t : BitVec 2) (a : BitVec 6) (u : BitVec 2) (b : BitVec 6) : List Nat :=
  match s.firstTag t a u b with
  | none => [0]
  | some ty => if isQid ty then [0] else tagClass 0 4 ty
/-- The class of an integer-only instruction: none for a tag it refuses (R30). -/
def State.intClass (s : State) (c : Nat) (t : BitVec 2) (a : BitVec 6) (u : BitVec 2) (b : BitVec 6) : List Nat :=
  match s.firstTag t a u b with
  | none => [c]
  | some ty => if isIntTag ty then [c] else []
/-- Class of a floating-only instruction. -/
def floatClass (c : Nat) (ty : BitVec 5) : List Nat := if isHalfTag ty then [8] else if isFloatTag ty then [c] else []
/-- Class of a reduction. -/
def redClass (ty : BitVec 5) : List Nat :=
  if isHalfTag ty then [8] else if isIntTag ty || isFloatTag ty then [12] else []
/-- Class of a matrix source type code (Table 20.4); a narrow type with no width selects none. -/
def Context.matrixClass (x : Context) (ty : BitVec 5) : List Nat :=
  match ty.toNat with
  | 8 | 9 => [16]
  | 0 | 1 => [17]
  | 10 => [19]
  | n =>
    if 16 ≤ n then match x.narrow ty with
      | some f => if f.width ≤ 4 then [18] else [17]
      | none => []
    else []
/-- The options word and memory type of a tile instruction (R147). -/
def optType (e0 : Word) : BitVec 5 := e0.extractLsb' 0 5
/-- The type code of a tile. -/
def tileCode (isInt : Bool) : BitVec 5 := if isInt then 5 else 10
def Core.tile (k : Core) (n : Nat) : Tile := Tab.get {} k.tiles n

/-- The class bits an instruction needs; empty for the base set. -/
def classes (i : Instr) (s : State) : List Nat :=
  let e0 := s.me.readE 0
  match longForm i with
  | .add _ t a u b | .sub _ t a u b | .absd _ t a u b => s.opClass 0 4 t a u b
  | .neg _ t a => s.opClass 0 4 t a 0 0
  | .mul _ t a u b | .fma _ t a u b | .fms _ t a u b => s.opClass 1 5 t a u b
  | .mulh _ t a u b => s.intClass 1 t a u b
  | .div _ t a u b => s.opClass 2 6 t a u b
  | .rem _ t a u b => s.intClass 2 t a u b
  | .and .. | .or .. | .xor .. | .andn .. | .mov .. | .addi .. | .andi .. | .lit .. | .lith .. => [0]
  | .shl _ t a u b | .shr _ t a u b | .sar _ t a u b | .rot _ t a u b => s.intClass 0 t a u b
  | .min _ t a u b | .max _ t a u b | .ceq _ t a u b | .cne _ t a u b | .clt _ t a u b | .cle _ t a u b =>
    s.orderClass t a u b
  | .clz _ t a | .ffs _ t a | .popc _ t a | .brev _ t a => s.intClass 3 t a 0 0
  | .sqrt _ a | .rsq _ a | .rcp _ a => floatClass 6 (s.v a.toNat).tag
  | .exp2 _ a | .log2 _ a | .tanh _ a => floatClass 7 (s.v a.toNat).tag
  | .dot _ a _ =>
    let ty := (s.v a.toNat).tag
    if ty.toNat < 4 then [1] else floatClass 5 ty
  | .scale _ a _ _ => floatClass 5 (s.v a.toNat).tag
  | .rsum _ a | .rmax _ a | .rmin _ a => redClass (s.v a.toNat).tag
  | .ror .. => [12]
  | .cvt .. | .tag .. => [9]
  | .cvtf .. => [10]
  | .shuf .. | .bcast .. | .slide .. | .zip .. | .mvs .. | .mvv .. | .sel .. => [11]
  | .kand .. | .kor .. | .knot .. | .kuse .. | .bany .. | .bnone .. => [13]
  | .vgth .. | .vsct .. => [14]
  | .aadd .. | .aand .. | .aor .. | .axor .. | .amin .. | .amax .. | .axch .. | .acas .. | .ldaq .. | .strl ..
  | .waita .. => [15]
  | .mma .. => s.me.matrixClass (optType e0)
  | .mmag .. => s.me.matrixClass (optType e0) ++ [20]
  | .tld .. => if optType e0 = tileCode (e0.getLsbD 11) then [] else [9]
  | .tldt .. => (if optType e0 = tileCode (e0.getLsbD 11) then [] else [9]) ++ [21]
  | .tst d _ => if optType e0 = tileCode (s.here.tile d.toNat).isInt then [] else [9]
  | .qand .. | .qor .. | .qandn .. | .qxor .. | .qcnt .. | .qidx .. | .qmark .. | .qclr .. | .qld .. | .qst ..
  | .meet .. | .meetq .. | .split .. | .cfcfg .. => [22]
  | .xmit .. | .intake .. | .xchg .. => [23]
  | .msend .. | .mtake .. | .grpset .. | .mcast .. | .afadd .. | .avadd .. => [24]
  | .cpyset .. | .cpygo .. | .cpyst .. | .eqf .. | .cbinit .. | .cbacq .. | .cbcom .. | .cbwait .. | .cbrel .. => [25]
  | .gang .. | .ungang => [26]
  | .pair | .unpair => [27]
  | _ => []

/-- The lowest of the instruction's class bits that cap holds clear (R29, R147). -/
def missingClass (i : Instr) (s : State) : Option Nat :=
  (span 0 28).find? fun n => (classes i s).contains n && !s.here.cap.getLsbD n

end Sys2Proof.Machine
end

