-- ==== Sys2Proof/Machine/Issue.lean ====
section
/-! DEFINITION. Issuing an instruction: the checks common to every entry in the order of R137, and what retiring an
instruction does besides its own effect. -/
namespace Sys2Proof.Machine

/-- How the effect of an instruction ends. -/
inductive Res where
  /-- Complete: the pc moves past the instruction. -/
  | done (s : State)
  /-- Complete: control goes to an address. -/
  | jump (s : State) (pc : Word)
  /-- Complete: the context has ended or its pc is set already. -/
  | gone (s : State)
  /-- A precise trap: nothing of the effect stays. -/
  | trap (cause sub : BitVec 8) (tval : Word)
  /-- The context waits at the instruction, which an event will complete. -/
  | wait (s : State)
  /-- Nothing happens yet: the instruction issues again. -/
  | stall (s : State)
  /-- A pairing interval ends before the instruction (R221). -/
  | interval
  deriving DecidableEq, Repr

/-! ### Status registers (Tables 1.5, 2.4, 3.3, 5.2, 7.3, 14.3) -/

/-- The phase cycle counter: all ones outside an exchange phase (R164). -/
def Core.phc (k : Core) (cycle : Nat) : Word :=
  match k.phase with
  | some p => if cycle - p.start < p.len then BitVec.ofNat 64 (cycle - p.start) else BitVec.allOnes 64
  | none => BitVec.allOnes 64
def Core.inPhase (k : Core) (cycle : Nat) : Bool :=
  match k.phase with
  | some p => decide (cycle - p.start < p.len)
  | none => false
/-- hlive: bit 0 reads 1. -/
def Core.hlive (k : Core) : Word :=
  (span 1 10).foldl (init := 1) fun w n => if (k.ctx n).live then w ||| (1 <<< n) else w
/-- tstat: H, and the helpers with undelivered traps. -/
def Core.tstat (k : Core) : Word :=
  k.trapQueue.foldl (init := if k.handler then 1 else 0) fun w n => w ||| (1 <<< n)
def Core.grank (k : Core) (c : Nat) : Nat := (k.gang.map fun g => g.members.idxOf c).getD 0
/-- coreid: a paired core reads the even core's number (R218). -/
def Core.idOf (k : Core) (c : Nat) : Nat := (k.pairing.map fun p => if p.even then c else p.partner).getD c
def Core.pst (k : Core) : Word :=
  match k.pairing with
  | some p => BitVec.ofNat 64 (1 + (if p.even then 2 else 0) + 256 * p.mismatches.toNat + 2 ^ 32 * p.verified.toNat)
  | none => 0

/-- The value MFS reads from status register n (R315). -/
def State.readStatus (s : State) (c x : Nat) (n : Nat) : Word :=
  let k := s.core c
  let t := k.ctx x
  match n with
  | 0x000 => BitVec.ofNat 64 x
  | 0x001 => BitVec.ofNat 64 (k.idOf c)
  | 0x002 => if k.pairing.isSome then 0 else BitVec.ofNat 64 (k.grank c)
  | 0x003 => k.hlive
  | 0x004 => BitVec.ofNat 64 s.cycle
  | 0x005 => k.phc s.cycle
  | 0x006 => t.km
  | 0x007 => t.rmode.setWidth 64
  | 0x008 => t.fpf.setWidth 64
  | 0x009 => t.efr.setWidth 64
  | 0x00A => t.chk.setWidth 64
  | 0x00B => k.cap
  | 0x00C => k.need
  | 0x00D => if t.det then 1 else 0
  | 0x00E => k.mqw.setWidth 64
  | 0x010 => k.tvec
  | 0x011 => k.tcause.setWidth 64
  | 0x012 => k.tpc
  | 0x013 => k.tval
  | 0x014 => k.tctx.setWidth 64
  | 0x015 => k.tstep
  | 0x016 => k.tret
  | 0x017 => k.tstat
  | 0x018 => BitVec.ofNat 64 t.lpd
  | 0x019 => k.mgc.setWidth 64
  | 0x01A => k.pivl.setWidth 64
  | 0x01B => k.pst
  | 0x01C => k.hchk.setWidth 64
  | 0x020 => k.tsk.setWidth 64
  | 0x021 => k.cov.setWidth 64
  | n =>
    if 0x022 ≤ n && n ≤ 0x025 then (Tab.get 0 k.ssn (n - 0x022) : BitVec 32).setWidth 64
    else if 0x030 ≤ n && n ≤ 0x03F then (t.readFm (n - 0x030)).setWidth 64
    else if 0x040 ≤ n && n ≤ 0x047 then Tab.get 0 k.win (n - 0x040)
    else 0

/-- Status registers that belong to the core and that MTS may write (Table 20.3, "control only"). -/
def perCoreStatus (n : Nat) : Bool :=
  n == 0x00E || (0x010 ≤ n && n ≤ 0x013) || n == 0x016 || n == 0x019 || n == 0x01A || n == 0x01C ||
    (0x040 ≤ n && n ≤ 0x047)

/-! ### Who may issue what (R13, R25, R164, R218) -/

/-- Matrix and tile instructions. -/
def isMatrix : Instr → Bool
  | .mma .. | .mmag .. | .mcommit .. | .mwaitb .. | .tld .. | .tldt .. | .tst .. | .trd .. | .twr .. | .tzero .. => true
  | _ => false
/-- Instructions that only the control context may issue (R13). -/
def controlOnly (i : Instr) : Bool :=
  isMatrix i || match longForm i with
    | .gang .. | .ungang | .barset .. | .barwait .. | .bararv .. | .xmit .. | .intake .. | .xchg .. | .tnext ..
    | .tend .. | .pair | .unpair | .hstart .. => true
    | .mts _ n => perCoreStatus n.toNat
    | .rett _ => true
    | _ => false

/-- A gang fault and its tval (R25, R168, R217, R218, R293, R350, R353, R355). -/
def gangFault (i : Instr) (s : State) : Option Word :=
  let k := s.here
  let ganged := k.gang.isSome
  let paired := k.pairing.isSome
  let helpers := (span 1 10).any fun n => (k.ctx n).live
  match longForm i with
  | .gang g =>
    let n := bitsN (s.g g.toNat) 3 0
    if paired then some 0
    else if n ≠ 2 && n ≠ 4 && n ≠ 8 then some (BitVec.ofNat 64 n)
    else if ganged || k.inPhase s.cycle then some 0 else none
  | .ungang => if ganged then none else some 0
  | .xchg .. => if !ganged || paired then some 0 else none
  | .pair => if ganged || paired || helpers || k.inPhase s.cycle then some 0 else none
  | .tnext .. => if ganged || paired then some 0 else none
  | .tend .. => if ganged then some 0 else none
  | .hstart .. | .split .. => if ganged || paired then some 0 else none
  | .barset .. | .barwait .. | .bararv .. | .xmit .. | .intake .. => if paired then some 0 else none
  | j => if paired && isMatrix j then some 0 else none

/-- Instructions of format A. -/
def isFormatA (i : Instr) : Bool :=
  match longForm i with
  | .add .. | .sub .. | .mul .. | .mulh .. | .and .. | .or .. | .xor .. | .andn .. | .shl .. | .shr .. | .sar ..
  | .rot .. | .min .. | .max .. | .absd .. | .neg .. | .div .. | .rem .. | .sqrt .. | .rsq .. | .fma .. | .fms ..
  | .dot .. | .scale .. | .ceq .. | .cne .. | .clt .. | .cle .. | .clz .. | .ffs .. | .popc .. | .brev .. | .cvt ..
  | .cvtf .. | .tag .. | .shuf .. | .bcast .. | .slide .. | .zip .. | .mov .. | .mvs .. | .mvv .. | .sel ..
  | .rsum .. | .rmax .. | .rmin .. | .ror .. | .kand .. | .kor .. | .knot .. | .kuse .. | .exp2 .. | .log2 ..
  | .rcp .. | .tanh .. | .qand .. | .qor .. | .qandn .. | .qxor .. | .qcnt .. | .qidx .. | .qmark .. | .qclr ..
  | .vgth .. | .vsct .. => true
  | _ => false
/-- One g destination. -/
def scalarDest (i : Instr) : Bool := match dests i with | [.g _] => true | _ => false

/-- An on-chip word or virtual address plus a displacement (R127, R304). -/
def addOffset (w : Word) (d : Word) : Word :=
  if isChip w then w.extractLsb' 32 32 ++ (w.setWidth 32 + d.setWidth 32) else w + d
/-- The effective location of a format M instruction. -/
def State.formatM (s : State) (b : BitVec 6) (o : BitVec 7) (scale : Nat) : Word :=
  addOffset (s.g b.toNat) (o.signExtend 64 * BitVec.ofNat 64 scale)
/-- The access size of a memory class (R304). -/
def classSize (c : BitVec 5) : Nat := 2 ^ (c.toNat / 2)

def isVg (w : Word) : Bool := w.getLsbD 40
/-- Locations that a memory instruction names (R163). -/
def targets (i : Instr) (s : State) : List Word :=
  let rec2 := fun n => if isVg (s.g (n + 1)) then [] else [s.g n]
  let opt := fun w => if w = 0 then [] else [w]
  match longForm i with
  | .ld _ b c o => [s.formatM b o (classSize c)]
  | .st _ b c o => [s.formatM b o (classSize c)]
  | .vld _ b _ o => [s.formatM b o 64]
  | .vst _ b _ o => [s.formatM b o 64]
  | .vgth _ b _ | .vsct _ b _ => [s.g b.toNat]
  | .aadd _ a _ _ _ | .aand _ a _ _ _ | .aor _ a _ _ _ | .axor _ a _ _ _ | .amin _ a _ _ _ | .amax _ a _ _ _
  | .axch _ a _ _ _ | .acas _ a _ _ _ | .afadd _ a _ _ _ | .avadd a _ _ _ | .ldaq _ a _ _ | .strl a _ _ _
  | .waita _ a _ _ _ => [s.g a.toNat]
  | .qld _ a | .qst _ a => [s.g a.toNat]
  | .mma _ a e => rec2 a.toNat ++ rec2 (2 * e.toNat) ++ opt (s.me.readE 1)
  | .mmag _ a e => rec2 a.toNat ++ rec2 (2 * e.toNat) ++ opt (s.me.readE 1) ++ [s.me.readE 3]
  | .tld _ a | .tldt _ a | .tst _ a => rec2 a.toNat
  | _ => []

/-- The core's own local memory. -/
def State.ownLocal (s : State) (c : Nat) (w : Word) : Bool := isChip w && chipLevel w == 0 && s.named c w == c
/-- The core's own local memory or its cluster's scratchpad. -/
def State.ownStorage (s : State) (c : Nat) (w : Word) : Bool :=
  isChip w && ((chipLevel w == 0 && s.named c w == c) ||
    (chipLevel w == 1 && namedCore c w < 4096 && clusterOf (namedCore c w) == clusterOf c))
/-- The rectangle of a multicast group's configuration (R171). -/
def groupRect (conf : Word) : BitVec 32 := conf.extractLsb' 32 32
def Core.group (k : Core) (n : Nat) : Group := Tab.get {} k.groups n

/-- A target that a strict plot does not allow (R163, R311, R320). -/
def strictFault (i : Instr) (s : State) : Bool :=
  let c := s.cur.1
  let strict := s.here.barriers.any fun b => (b.2.conf.map fun q => q.2.getLsbD 16).getD false
  strict && ((targets i s).any (fun w => !s.ownStorage c w) || match longForm i with
    | .msend _ g => let n := bitsN (s.g g.toNat) 12 0; n != 0x1FFF && n != c
    | .mcast _ g =>
      match (s.here.group (bitsN (s.g g.toNat) 7 0)).conf with
      | some w => rectCores (groupRect w) != [c]
      | none => false
    | _ => false)

/-- What the control context may issue in an exchange phase (R164). -/
def phaseAdmits (i : Instr) (s : State) : Bool :=
  (isFormatA i && scalarDest i) || match longForm i with
    | .xmit .. | .intake .. | .xchg .. | .nop | .mfs .. | .addi .. | .andi .. | .lit .. | .lith .. | .leave => true
    | .bz .. | .bnz .. | .bany .. | .bnone .. | .loop .. | .jtab .. | .br .. | .call .. => true
    | .ld .. | .st .. | .vld .. | .vst .. => (targets i s).all (s.ownLocal s.cur.1)
    | _ => false

/-- Field values and states in which the word is an illegal instruction at this moment (R42, R101, R134, R185, R186, R316, R353). -/
def illegalNow (i : Instr) (s : State) : Bool :=
  match longForm i with
  | .meet .. => s.me.meet.isSome
  | .meetq .. => s.me.meet.isNone
  | .tnext .. => s.here.task.isSome
  | .illegalInstruction .. => true
  | .rett e => s.cur.2 == 0 && (!s.here.handler || (s.here.tctx == 0 && e == 1))
  | .mts g n =>
    let v := s.g g.toNat
    (n.toNat == 0x01A && !(256 ≤ v.toNat && v.toNat ≤ 65536)) ||
      (0x030 ≤ n.toNat && n.toNat ≤ 0x03F &&
        (narrowFmt (v.setWidth 32)).isNone)
  | _ => false

/-- The scope code of a format Q instruction. -/
def scopeOf (i : Instr) : Option (BitVec 4) :=
  match i with
  | .aadd _ _ _ p _ | .aand _ _ _ p _ | .aor _ _ _ p _ | .axor _ _ _ p _ | .amin _ _ _ p _ | .amax _ _ _ p _
  | .axch _ _ _ p _ | .acas _ _ _ p _ | .afadd _ _ _ p _ | .avadd _ _ p _ | .ldaq _ _ p _ | .strl _ _ p _
  | .waita _ _ _ p _ | .fence p _ => some p
  | _ => none

/-- The first fault of the checks common to every entry, in the order of R137 from illegal instruction to scope. -/
def commonFault (i : Instr) (s : State) : Option (BitVec 8 × BitVec 8 × Word) :=
  if !i.wf || illegalNow i s then some (0x01, 0, instrWord i)
  else if s.cur.2 ≠ 0 && controlOnly i then some (0x14, 0, instrWord i)
  else if s.cur.2 = 0 && longForm i == .hexit then some (0x14, 0, instrWord i)
  else match gangFault i s with
    | some v => some (0x16, 0, v)
    | none =>
      if (s.here.inPhase s.cycle && !phaseAdmits i s) || strictFault i s then some (0x0E, 0, instrWord i)
      else match missingClass i s with
        | some n => some (0x03, 0, BitVec.ofNat 64 n)
        | none =>
          match scopeOf i with
          | some p => if s.scopeFault s.cur.1 p then some (0x13, 0, p.setWidth 64) else none
          | none => none

/-! ### Pairing: records and intervals (R219, R221) -/

/-- One step of CRC-64 over ECMA-182, most significant bit first. -/
def crcBit (r : BitVec 64) (b : Bool) : BitVec 64 :=
  if r.msb != b then (r <<< 1) ^^^ 0x42F0E1EBA9EA3693 else r <<< 1
def crcByte (r : BitVec 64) (b : Byte) : BitVec 64 :=
  ((span 0 8).map fun n => b.getLsbD (7 - n)).foldl crcBit r
def crc64 (r : BitVec 64) (bs : List Byte) : BitVec 64 := bs.foldl crcByte r

/-- A register's part of a record. -/
def State.regRecord (s : State) (c x : Nat) (value : Bool) : Reg → List Byte
  | .g n =>
    let r := (s.ctx c x).readG n
    leBytes 1 n ++ if value then leBytes 8 r.bits.toNat ++ leBytes 1 (if r.poison then 128 else 0) else []
  | .v n =>
    let r := (s.ctx c x).readV n
    leBytes 1 (0x40 + n) ++ leBytes 64 r.bits.toNat ++ leBytes 1 (r.tag.toNat + if r.poison then 128 else 0)
  | .k n => leBytes 1 (0x80 + n) ++ leBytes 8 ((s.ctx c x).readK n).toNat ++ [0]
  | .q n => leBytes 1 (0x88 + n) ++ leBytes 128 ((s.ctx c x).readQ n).toNat ++ [0]
  | .e n => leBytes 1 (0x90 + n) ++ leBytes 8 ((s.ctx c x).readE n).toNat ++ [0]
  | .status n => leBytes 1 0xA0 ++ leBytes 2 n ++ leBytes 8 (s.readStatus c x n).toNat ++ [0]

/-- The order of register ids in a record. -/
def regId : Reg → Nat
  | .g n => n
  | .v n => 0x40 + n
  | .k n => 0x80 + n
  | .q n => 0x88 + n
  | .e n => 0x90 + n
  | .status n => 0xA0 + n
def insertReg (r : Reg) : List Reg → List Reg
  | [] => [r]
  | q :: qs => if regId r ≤ regId q then r :: q :: qs else q :: insertReg r qs

/-- Status registers that an instruction has written beside those it names: fpf, efr, chk and lpd (R219). -/
def Context.impliedWrites (old new : Context) (named : List Reg) : List Reg :=
  let all := [(0x008, old.fpf != new.fpf), (0x009, old.efr != new.efr), (0x00A, old.chk != new.chk), (0x018, old.lpd != new.lpd)]
  (all.filterMap fun e => if e.2 then some (Reg.status e.1) else none).filter fun r => !named.contains r

/-- Fold the record of a retired instruction into the fingerprint (R219); `pc` is its address. A pairing interval of
the full length then ends. -/
def State.retirePair (s : State) (c x : Nat) (pc : Word) (regs : List Reg) (values : Bool) (cls : List Nat) : State :=
  match (s.core c).pairing with
  | none => s
  | some p =>
    if x ≠ 0 then s
    else
      let regBytes := ((regs.filter (· != .g 0)).foldr insertReg []).flatMap (s.regRecord c x values)
      let stores := p.stores.flatMap fun t => leBytes 8 t.1.toNat ++ leBytes 1 t.2.1 ++ t.2.2
      let print := crc64 p.print (leBytes 8 pc.toNat ++ regBytes ++ stores)
      let mask : BitVec 28 := cls.foldl (init := p.classes) fun m n => m ||| BitVec.ofNat 28 (2 ^ n)
      let p : Pairing := { p with print := print, retired := p.retired + 1, classes := mask, stores := [] }
      s.modCore c fun k =>
        let k := { k with pairing := some p }
        if p.retired ≥ p.interval then k.modCtx 0 fun t => { t with wait := .interval } else k

/-- Instructions before which a pairing interval ends (R221). -/
def endsInterval (i : Instr) : Bool :=
  match longForm i with
  | .aadd d _ _ _ _ | .aand d _ _ _ _ | .aor d _ _ _ _ | .axor d _ _ _ _ | .amin d _ _ _ _ | .amax d _ _ _ _
  | .axch d _ _ _ _ | .acas d _ _ _ _ | .afadd d _ _ _ _ => d != 0
  | .strl .. | .fence .. | .cpygo .. | .halloc .. | .hfree .. | .cfcfg .. | .tend .. | .unpair => true
  | .mts _ n => perCoreStatus n.toNat
  | _ => false
/-- The interval has to end before this instruction: something has retired or is held in it. -/
def State.intervalDue (s : State) (i : Instr) : Bool :=
  match s.here.pairing with
  | some p => endsInterval i && s.cur.2 == 0 && (p.retired != 0 || p.outbox != [] || p.undo != [])
  | none => false

/-! ### Issue -/

/-- A helper's trap is due at the control context: it is delivered before that context issues again (R99). -/
def Core.trapDue (k : Core) (cycle : Nat) : Bool := k.trapQueue != [] && !k.handler && !k.inPhase cycle
/-- A context that may issue: live, not frozen, not parked (an HWAIT whose helpers have ended may), its core in
service, no trap due; helpers issue nothing in an exchange phase (R15, R16, R99, R164, R299). -/
def State.ready (s : State) (c x : Nat) : Bool :=
  let k := s.core c
  let t := k.ctx x
  t.live && !k.killed && k.saved.isNone && t.frozen.isNone && !(x != 0 && k.inPhase s.cycle) &&
    !(x == 0 && (k.trapDue s.cycle || k.dueTrap.isSome)) && match t.wait with
    | .none => true
    | .hwait m => (span 1 10).all fun n => n == x || !m.getLsbD n || !(k.ctx n).live
    | _ => false

/-- The registers of a 24-register group that an operand pair names (R142). -/
def State.groupSources (s : State) (n : Nat) : List Reg :=
  if isVg (s.g (n + 1)) then (span (8 * bitsN (s.g (n + 1)) 7 0) 24).map .v else []
/-- Slots of the current holding queue that hold no record, of this or an earlier queue on the same handle. -/
def Core.freeSlots (k : Core) : List Nat :=
  match k.holding with
  | none => []
  | some h =>
    let t := k.store.tile h.handle
    let used := (h :: k.oldHolds.filter fun q => q.handle == h.handle).flatMap (·.slots)
    if t.used && t.gen == h.gen then (span 0 64).filter fun j => !used.contains j else []

/-- Registers that an instruction reads as the state has it: beside the named ones the groups that matrix operands name,
and what a starting helper or a record of SPLIT copies. A SPLIT that neither starts nor holds one copies nothing (R142, R188,
R296, R346; log 23). -/
def State.reads (s : State) (i : Instr) : List Reg :=
  let copied := (span 1 15).map Reg.g
  sources i ++ match longForm i with
    | .mma _ a e | .mmag _ a e => s.groupSources a.toNat ++ s.groupSources (2 * e.toNat)
    | .hstart .. => if s.here.freeHelper.isSome then copied else []
    | .split _ a e =>
      let q := s.me.readQ e.toNat
      let child := q != 0 && s.me.readQ 0 &&& ~~~q != 0 && (s.here.freeHelper.isSome || s.here.freeSlots != [])
      .g a.toNat :: if child then copied else []
    | _ => []

/-- A source or destination that an outstanding load still has to produce (R15). -/
def interlocked (i : Instr) (s : State) : Bool :=
  (s.reads i ++ dests i).any fun r => s.me.loads.contains r

/-- A poisoned register source (R108; log 22). -/
def poisonedSource (i : Instr) (s : State) : Bool := (s.reads i).any s.me.poison

/-- Control after a completed instruction: the next pc, with its loop step; what was kept for the instruction goes. -/
def State.leave (s : State) (next : Word) : State :=
  (s.modMe fun x => { x with side := [], walkErr := none, wait := .none }).gotoCtx s.cur.1 s.cur.2 next

/-- chk bit 0 for a poisoned source. -/
def State.notePoison (s : State) (p : Bool) : State := if p then s.modMe fun x => x.setChk 0 else s

/-- Whether a record holds the value MFS read: cyc and phc are left out (R219; log 16). -/
def recordsValue (i : Instr) : Bool := match i with | .mfs _ n => n.toNat != 4 && n.toNat != 5 | _ => true

/-- A fault of the issuing context is taken once its outstanding loads have returned (R97). -/
def State.trapDrained (s : State) (cause sub : BitVec 8) (tval : Word) (len : Nat) : State :=
  if s.me.loads = [] then s.trap cause sub tval len else s

/-- Issue an instruction of the current context: the common checks, then its own effect, then its retirement. An
instruction that an outstanding load, a wait or the end of a pairing interval holds does nothing yet. -/
def issue (i : Instr) (s : State) (body : Bool → State → Res) : Host.Outcome State Fault Refusal :=
  if !s.ready s.cur.1 s.cur.2 || interlocked i s then .next s
  else if s.intervalDue i then .next (s.modMe fun x => { x with wait := .interval })
  else
    match commonFault i s with
    | some f => .next (s.trapDrained f.1 f.2.1 f.2.2 (instrLen i))
    | none =>
      let p := poisonedSource i s
      let pc := s.me.pc
      let next := pc + BitVec.ofNat 64 (instrLen i)
      let retire := fun (t : State) =>
        t.retirePair s.cur.1 s.cur.2 pc (dests i ++ s.me.impliedWrites (t.ctx s.cur.1 s.cur.2) (dests i)) (recordsValue i)
          (classes i s)
      match body p s with
      | .done t => .next (retire ((t.notePoison p).leave next))
      | .jump t dest => .next (retire ((t.notePoison p).leave dest))
      | .gone t => .next t
      | .trap c sub v => .next (s.trapDrained c sub v (instrLen i))
      | .wait t => .next (t.modMe fun x => { x with waitLen := instrLen i, waitTaint := p, waitClasses := classes i s })
      | .stall t => .next t
      | .interval => .next (s.modMe fun x => { x with wait := .interval })

/-- An event completes the waiting instruction of a context: its registers are written already, to a context that was
`old` before the event. -/
def State.finish (s : State) (c x : Nat) (regs : List Reg) (old : Context := s.ctx c x) : State :=
  let t := s.ctx c x
  let chk := if t.waitTaint then t.chk ||| 1 else t.chk
  let u := (s.modCtx c x fun t => { t with wait := .none, side := [], walkErr := none, chk := chk }).gotoCtx c x
    (t.pc + BitVec.ofNat 64 t.waitLen)
  u.retirePair c x t.pc (regs ++ old.impliedWrites (u.ctx c x) regs) true t.waitClasses

/-- An event has an effect only when it is due; otherwise nothing happens (log 5). -/
def whenDue (due : Bool) (s t : State) : Host.Outcome State Fault Refusal := .next (if due then t else s)

end Sys2Proof.Machine
end

