-- ==== Sys2Proof/Machine/Flags.lean ====
section
/-! DEFINITION. Lane results with their flags (R40, R252), and the operations of single lanes and scalars
(R49, Table 2.9, and the reference entries). -/
namespace Sys2Proof.Machine

/-! ### Writing lanes -/

/-- Write the lanes of a type under km from codes with flags; `extra` are the flags of a converted scalar operand, set
once when a lane is written (R35, R40). -/
def State.writeLanes (s : State) (d : Nat) (ty : BitVec 5) (p : Bool) (extra : BitVec 5) (f : Nat → Coded) : State :=
  s.modMe fun x =>
    let w := laneWidth ty
    let old := (x.readV d).bits
    let rs := (span 0 (laneCount ty)).map fun i => if x.km.getLsbD i then some (f i) else none
    let flags := rs.foldl (init := if rs.any Option.isSome then extra else 0) fun a r => a ||| (r.map (·.2)).getD 0
    let codes := (span 0 (laneCount ty)).zipWith (fun i r => match r with | some c => c.1 | none => lane old w i) rs
    let x := x.writeV d { bits := packVec w codes, tag := ty, poison := p }
    { x with fpf := x.fpf ||| flags }

/-- Write every lane of a type whatever km holds. -/
def State.writeAll (s : State) (d : Nat) (ty : BitVec 5) (p : Bool) (f : Nat → Nat) : State :=
  s.writeV d { bits := packVec (laneWidth ty) ((span 0 (laneCount ty)).map f), tag := ty, poison := p }

/-! ### Lane operations: type, rounding mode, codes -/

/-- An operation on the integers of two lanes, wrapping. -/
def intLane (op : Int → Int → Int) (ty : BitVec 5) (a b : Nat) : Coded :=
  (wrap (laneWidth ty) (op (laneInt ty a) (laneInt ty b)), 0)
/-- An operation on the values of two floating lanes. -/
def fpLane (op : Fmt → BitVec 2 → Num → Num → Coded) (ty : BitVec 5) (mode : BitVec 2) (a b : Nat) : Coded :=
  let f := floatFmt ty
  op f mode (f.decode a) (f.decode b)

def laneAdd (ty : BitVec 5) (mode : BitVec 2) (a b : Nat) : Coded :=
  if isIntTag ty then intLane (· + ·) ty a b else fpLane fpAdd ty mode a b
def laneSub (ty : BitVec 5) (mode : BitVec 2) (a b : Nat) : Coded :=
  if isIntTag ty then intLane (· - ·) ty a b else fpLane fpSub ty mode a b
def laneMul (ty : BitVec 5) (mode : BitVec 2) (a b : Nat) : Coded :=
  if isIntTag ty then intLane (· * ·) ty a b else fpLane fpMul ty mode a b
/-- High half of the product (Table 2.9). -/
def laneMulh (ty : BitVec 5) (_ : BitVec 2) (a b : Nat) : Coded :=
  (wrap (laneWidth ty) ((laneInt ty a * laneInt ty b) / 2 ^ laneWidth ty), 0)
/-- Quotient and remainder toward zero, with the edges of Table 2.9. -/
def quotInt (w : Nat) (a b : Int) : Int := if b = 0 then 2 ^ w - 1 else Int.tdiv a b
def remInt (a b : Int) : Int := if b = 0 then a else Int.tmod a b
def laneDiv (ty : BitVec 5) (mode : BitVec 2) (a b : Nat) : Coded :=
  if isIntTag ty then intLane (quotInt (laneWidth ty)) ty a b else fpLane fpDiv ty mode a b
def laneRem (ty : BitVec 5) (_ : BitVec 2) (a b : Nat) : Coded := intLane remInt ty a b
/-- MIN and MAX; qid is unsigned (R310). -/
def laneMinMax (isMax : Bool) (ty : BitVec 5) (_ : BitVec 2) (a b : Nat) : Coded :=
  if isFloatTag ty then
    let f := floatFmt ty
    let r := fpMinMax f isMax (f.decode a) (f.decode b)
    r
  else
    let x := laneInt ty a
    let y := laneInt ty b
    (if (decide (x < y)) != isMax then a else b, 0)
/-- |a - b| (R254). -/
def laneAbsd (ty : BitVec 5) (mode : BitVec 2) (a b : Nat) : Coded :=
  if isIntTag ty then intLane (fun x y => (x - y).natAbs) ty a b
  else
    let f := floatFmt ty
    let r := fpSub f mode (f.decode a) (f.decode b)
    (r.1 % 2 ^ (f.e + f.m), r.2)
def laneNeg (ty : BitVec 5) (a : Nat) : Coded :=
  if isIntTag ty then intLane (fun x _ => -x) ty a 0
  else
    let f := floatFmt ty
    let x := f.decode a
    if x.isNan then (f.nanCode, flagIf x.isSignalling flagInvalid)
    else ((a + 2 ^ (f.e + f.m)) % 2 ^ laneWidth ty, 0)
def laneFma (ty : BitVec 5) (mode : BitVec 2) (minus : Bool) (a b c : Nat) : Coded :=
  if isIntTag ty then
    let x := laneInt ty a * laneInt ty b
    (wrap (laneWidth ty) (if minus then x - laneInt ty c else x + laneInt ty c), 0)
  else
    let f := floatFmt ty
    let z := f.decode c
    fpFma f mode (f.decode a) (f.decode b) (if minus then z.neg else z)

/-- The four shifts of `w` bits by a count mod `w` (R340). -/
def shl (w a n : Nat) : Nat := a * 2 ^ (n % w) % 2 ^ w
def shr (w a n : Nat) : Nat := a / 2 ^ (n % w)
def sar (w a n : Nat) : Nat :=
  let n := n % w
  if a ≥ 2 ^ (w - 1) then a / 2 ^ n + (2 ^ w - 2 ^ (w - n)) else a / 2 ^ n
def rot (w a n : Nat) : Nat := a * 2 ^ (n % w) % 2 ^ w + a / 2 ^ (w - n % w)

/-- Bit counts over `w` bits (R278, R269). -/
def clz (w a : Nat) : Nat := if a = 0 then w else w - 1 - Nat.log2 a
def ffs (w a : Nat) : Nat := ((span 0 w).find? a.testBit).getD w
def popc (w a : Nat) : Nat := ((span 0 w).filter a.testBit).length
def brev (w a : Nat) : Nat := packNat 1 ((span 0 w).map fun i => if a.testBit (w - 1 - i) then 1 else 0)

/-- A relation of CEQ, CNE, CLT and CLE on two lanes (R275). -/
inductive Rel where
  | eq | ne | lt | le
  deriving DecidableEq, Repr
def relInt (r : Rel) (a b : Int) : Bool :=
  match r with
  | .eq => a == b
  | .ne => a != b
  | .lt => decide (a < b)
  | .le => decide (a ≤ b)
def relNum (r : Rel) (a b : Num) : Bool :=
  match r with
  | .eq => a.eq b
  | .ne => !a.eq b
  | .lt => a.lt b
  | .le => a.lt b || a.eq b
/-- The relation on two lanes of a type, and whether invalid is set (R39). -/
def relLane (r : Rel) (ty : BitVec 5) (a b : Nat) : Bool × BitVec 5 :=
  if isFloatTag ty then
    let x := (floatFmt ty).decode a
    let y := (floatFmt ty).decode b
    let quiet := match r with | .eq | .ne => false | _ => x.isNan || y.isNan
    (relNum r x y, flagIf (quiet || x.isSignalling || y.isSignalling) flagInvalid)
  else (relInt r (laneInt ty a) (laneInt ty b), 0)

/-! ### Conversions (R46, R47, Table 2.7) -/

/-- convert(): a lane of one type to another; the narrow formats are the context's. -/
def Context.convert (x : Context) (src dst : BitVec 5) (code : Nat) : Coded :=
  let v := laneValue src (x.narrow src) code
  if isFloatTag dst then v.toFloat (floatFmt dst) modeRne
  else if isNarrow dst then match x.narrow dst with
    | some f => v.toFloat f modeRne
    | none => (0, 0)
  else
    let w := laneWidth dst
    if isFloatTag src || isNarrow src then v.toInteger (isSigned dst) w 0
    else ((saturate w (intLo (isSigned dst) w) (intHi (isSigned dst) w) (laneInt src code) false).1, 0)

/-- The largest finite value of a destination of CVTF. -/
def maxFinite (f : Fmt) : Num :=
  if f.e = 0 then .fin false (if f.sgn then 2 ^ (f.width - 1) - 1 else 2 ^ f.width - 1) (f.scale - f.bias)
  else (f.decode f.maxCode).abs

/-- The state of CVTF's loop: codes so far, the residual and the flags (R47). -/
def cvtfLanes (km : Word) (src dst : Fmt) (narrowUnsigned : Bool) (old : Nat → Nat) (code : Nat → Nat) :
    Nat → Nat → Nat × BitVec 5 → List Nat × Nat × BitVec 5
  | 0, _, st => ([], st.1, st.2)
  | n + 1, i, st =>
    if !km.getLsbD i then
      let r := cvtfLanes km src dst narrowUnsigned old code n (i + 1) st
      (old i :: r.1, r.2)
    else
      let wide := (src.decode (code i)).toFloat fmtF32 modeRne
      let sum := fpAdd fmtF32 modeRne (fmtF32.decode wide.1) (fmtF32.decode st.1)
      let x := fmtF32.decode sum.1
      let y := x.toFloat dst modeRne
      let v := dst.decode y.1
      let drop := x.isNan || (maxFinite dst).lt x.abs || v.isNan || v.isInf || (narrowUnsigned && x.lt (.fin false 0 0))
      let diff := fpSub fmtF32 modeRne x v
      let st' := (if drop then 0 else diff.1, st.2 ||| wide.2 ||| sum.2 ||| y.2 ||| if drop then 0 else diff.2)
      let r := cvtfLanes km src dst narrowUnsigned old code n (i + 1) st'
      (y.1 :: r.1, r.2)

/-! ### Reductions (R339) -/

/-- Combine two lanes; an excluded lane takes part in nothing. -/
def combine (op : Nat → Nat → Coded) (a b : Option Nat) : Option Nat × BitVec 5 :=
  match a, b with
  | some x, some y => let r := op x y; (some r.1, r.2)
  | some x, none => (some x, 0)
  | none, y => (y, 0)
/-- One level of the tree. -/
def foldPairs (op : Nat → Nat → Coded) : List (Option Nat) → List (Option Nat) × BitVec 5
  | a :: b :: t =>
    let c := combine op a b
    let r := foldPairs op t
    (c.1 :: r.1, c.2 ||| r.2)
  | l => (l, 0)
/-- The whole tree, `fuel` levels. -/
def reduceTree (op : Nat → Nat → Coded) : Nat → List (Option Nat) → BitVec 5 → Option Nat × BitVec 5
  | 0, l, f => (l.headD none, f)
  | n + 1, l, f => match l with
    | [a] => (a, f)
    | _ => let r := foldPairs op l; reduceTree op n r.1 (f ||| r.2)

/-! ### DOT and SCALE (R50, R51) -/

/-- Exact sum of products and an old value, rounded once; invalid as R40 states, also for an infinity times zero beside a
quiet NaN (log 65). -/
def dotFloat (src dst : Fmt) (mode : BitVec 2) (as bs : List Nat) (old : Nat) : Coded :=
  let xs := as.map src.decode
  let ys := bs.map src.decode
  let c := dst.decode old
  let ps := xs.zipWith Num.mul ys
  let r := ps.foldl (init := c) fun a b => a.add mode b
  let clash := (xs.zip ys).any fun q => (q.1.mul q.2).isNan && !q.1.isNan && !q.2.isNan
  r.result dst mode (invalidOp (c :: (xs ++ ys)) r || clash)

/-- Multiply by 2^n, n clamped (R51). -/
def scaleFloat (f : Fmt) (mode : BitVec 2) (n : Int) (a : Num) : Coded :=
  let n := max (-4096) (min 4095 n)
  match a with
  | .fin s m e => f.round mode s m (e + n) false
  | .inf s => (f.sign s f.infCode, 0)
  | .nan s => (f.nanCode, flagIf s flagInvalid)

end Sys2Proof.Machine
end

