-- ==== Sys2Proof/Machine/Arith.lean ====
section
/-! DEFINITION. The format A arithmetic instructions, the immediates, and their 16-bit forms (R254-R342). -/
namespace Sys2Proof.Machine

/-! ### Shapes that several instructions share -/

/-- A two-operand instruction: lanes under km when an operand is a vector, else one 64-bit result (R126, R252). A literal
that is the second operand may be unsigned (Table 6.6). -/
def State.arith2 (s : State) (p : Bool) (accept : BitVec 5 → Bool) (unsigned : Bool) (d : BitVec 6) (t : BitVec 2)
    (a : BitVec 6) (u : BitVec 2) (b : BitVec 6) (onLane : BitVec 5 → BitVec 2 → Nat → Nat → Coded)
    (onWord : Word → Word → Word) : Res :=
  match s.firstTag t a u b with
  | none => .done (s.writeG d.toNat (onWord (s.scalarOpnd false t a) (s.scalarOpnd unsigned u b)) p)
  | some ty =>
    if !accept ty || s.tagsDiffer t a u b then .trap 0x02 0 (s.formatVal2 t a u b)
    else
      let x := s.laneOpnd false t a ty
      let y := s.laneOpnd unsigned u b ty
      let mode := s.me.rmode
      .done (s.writeLanes d.toNat ty p (x.2 ||| y.2) fun i => onLane ty mode (x.1 i) (y.1 i))

/-- A bitwise instruction: any tag, and no flag (R259). -/
def State.bitwise (s : State) (p : Bool) (d : BitVec 6) (t : BitVec 2) (a : BitVec 6) (u : BitVec 2) (b : BitVec 6)
    (onLane : Nat → Nat → Nat) (onWord : Word → Word → Word) : Res :=
  match s.firstTag t a u b with
  | none => .done (s.writeG d.toNat (onWord (s.scalarOpnd false t a) (s.scalarOpnd false u b)) p)
  | some ty =>
    if s.tagsDiffer t a u b then .trap 0x02 0 (s.formatVal2 t a u b)
    else
      let x := s.bitOpnd t a ty
      let y := s.bitOpnd u b ty
      .done (s.writeLanes d.toNat ty p 0 fun i => (onLane (x i) (y i), 0))

/-- A one-operand instruction. -/
def State.arith1 (s : State) (p : Bool) (accept : BitVec 5 → Bool) (d : BitVec 6) (t : BitVec 2) (a : BitVec 6)
    (onLane : BitVec 5 → Nat → Coded) (onWord : Word → Word) : Res :=
  if t = 1 then
    let x := s.v a.toNat
    if accept x.tag then
      .done (s.writeLanes d.toNat x.tag p 0 fun i => onLane x.tag (lane x.bits (laneWidth x.tag) i))
    else .trap 0x02 0 (formatVal x.tag 0 0)
  else .done (s.writeG d.toNat (onWord (s.scalarOpnd false t a)) p)

/-- A special function on floating lanes (R41). -/
def State.special (s : State) (p : Bool) (d a : BitVec 6) (f : Fmt → BitVec 2 → Num → Coded) : Res :=
  let x := s.v a.toNat
  if isFloatTag x.tag then
    let fmt := floatFmt x.tag
    let mode := s.me.rmode
    .done (s.writeLanes d.toNat x.tag p 0 fun i => f fmt mode (fmt.decode (lane x.bits (laneWidth x.tag) i)))
  else .trap 0x02 0 (formatVal x.tag 0 0)

/-- Integer and floating tags. -/
def isNumTag (ty : BitVec 5) : Bool := isIntTag ty || isFloatTag ty
def anyTag (_ : BitVec 5) : Bool := true
/-- Tags that MIN, MAX and the compares take (Table 2.2). -/
def isOrderTag (ty : BitVec 5) : Bool := isNumTag ty || isQid ty

/-- A bitwise lane. -/
def bitLane (op : Nat → Nat → Nat) (_ : BitVec 5) (_ : BitVec 2) (a b : Nat) : Coded := (op a b, 0)
/-- A shift of a lane by a lane. -/
def shiftLane (op : Nat → Nat → Nat → Nat) (ty : BitVec 5) (_ : BitVec 2) (a b : Nat) : Coded :=
  (op (laneWidth ty) a b, 0)
def shiftWord (op : Nat → Nat → Nat → Nat) (a b : Word) : Word := BitVec.ofNat 64 (op 64 a.toNat b.toNat)
/-- An operation on two s64 values. -/
def signedWord (op : Int → Int → Int) (a b : Word) : Word := BitVec.ofInt 64 (op a.toInt b.toInt)
/-- An operation on one integer lane or on a word of 64 bits. -/
def countLane (op : Nat → Nat → Nat) (ty : BitVec 5) (a : Nat) : Coded := (op (laneWidth ty) a, 0)
def countWord (op : Nat → Nat → Nat) (a : Word) : Word := BitVec.ofNat 64 (op 64 a.toNat)
def andNot (a b : Nat) : Nat := Nat.xor (Nat.lor a b) b

/-! ### Effects shared by a 32-bit instruction and its 16-bit form -/

def State.doAdd (s : State) (p : Bool) (d : BitVec 6) (t : BitVec 2) (a : BitVec 6) (u : BitVec 2) (b : BitVec 6) : Res :=
  s.arith2 p isNumTag false d t a u b laneAdd (· + ·)
def State.doSub (s : State) (p : Bool) (d : BitVec 6) (t : BitVec 2) (a : BitVec 6) (u : BitVec 2) (b : BitVec 6) : Res :=
  s.arith2 p isNumTag false d t a u b laneSub (· - ·)
def State.doMul (s : State) (p : Bool) (d : BitVec 6) (t : BitVec 2) (a : BitVec 6) (u : BitVec 2) (b : BitVec 6) : Res :=
  s.arith2 p isNumTag false d t a u b laneMul (· * ·)
def State.doAnd (s : State) (p : Bool) (d : BitVec 6) (t : BitVec 2) (a : BitVec 6) (u : BitVec 2) (b : BitVec 6) : Res :=
  s.bitwise p d t a u b Nat.land (· &&& ·)
def State.doOr (s : State) (p : Bool) (d : BitVec 6) (t : BitVec 2) (a : BitVec 6) (u : BitVec 2) (b : BitVec 6) : Res :=
  s.bitwise p d t a u b Nat.lor (· ||| ·)
def State.doXor (s : State) (p : Bool) (d : BitVec 6) (t : BitVec 2) (a : BitVec 6) (u : BitVec 2) (b : BitVec 6) : Res :=
  s.bitwise p d t a u b Nat.xor (· ^^^ ·)
def State.doShift (s : State) (p : Bool) (op : Nat → Nat → Nat → Nat) (d : BitVec 6) (t : BitVec 2) (a : BitVec 6)
    (u : BitVec 2) (b : BitVec 6) : Res :=
  s.arith2 p isIntTag true d t a u b (shiftLane op) (shiftWord op)
/-- MOV: a vector source gives a v destination (R319). -/
def State.doMov (s : State) (p : Bool) (d : BitVec 6) (t : BitVec 2) (a : BitVec 6) : Res :=
  s.arith1 p anyTag d t a (fun _ x => (x, 0)) id
def State.doAddi (s : State) (p : Bool) (d a : BitVec 6) (i : BitVec 12) : Res :=
  .done (s.writeG d.toNat (s.g a.toNat + i.signExtend 64) p)
/-- LIT clears the poison (R307). -/
def State.doLit (s : State) (d : BitVec 6) (i : BitVec 18) : Res := .done (s.writeG d.toNat (i.signExtend 64) false)
/-- FMA and FMS: the destination is the third source (R292). -/
def State.doFma (s : State) (p minus : Bool) (d : BitVec 6) (t : BitVec 2) (a : BitVec 6) (u : BitVec 2) (b : BitVec 6) :
    Res :=
  let old := s.v d.toNat
  match s.firstTag t a u b with
  | none =>
    let r := s.scalarOpnd false t a * s.scalarOpnd false u b
    let c := s.g d.toNat
    .done (s.writeG d.toNat (if minus then r - c else r + c) p)
  | some ty =>
    if !isNumTag ty || s.tagsDiffer t a u b || old.tag ≠ ty then .trap 0x02 0 (s.formatValFma d t a u b)
    else
      let x := s.laneOpnd false t a ty
      let y := s.laneOpnd false u b ty
      let mode := s.me.rmode
      .done (s.writeLanes d.toNat ty p (x.2 ||| y.2) fun i =>
        laneFma ty mode minus (x.1 i) (y.1 i) (lane old.bits (laneWidth ty) i))
/-- A compare writes lanes of a k register or one g register (R275). -/
def State.doCompare (s : State) (p : Bool) (r : Rel) (d : BitVec 6) (t : BitVec 2) (a : BitVec 6) (u : BitVec 2)
    (b : BitVec 6) : Res :=
  match s.firstTag t a u b with
  | none =>
    let hold := relInt r (s.scalarOpnd false t a).toInt (s.scalarOpnd false u b).toInt
    .done (s.writeG d.toNat (if hold then 1 else 0) p)
  | some ty =>
    if !isOrderTag ty || s.tagsDiffer t a u b then .trap 0x02 0 (s.formatVal2 t a u b)
    else
      let x := s.laneOpnd false t a ty
      let y := s.laneOpnd false u b ty
      let lanes := activeLanes s.me.km (laneCount ty)
      let old := s.me.readK d.toNat
      let bits := lanes.foldl (init := old) fun k i =>
        if (relLane r ty (x.1 i) (y.1 i)).1 then k ||| ((1 : Word) <<< i) else k &&& ~~~((1 : Word) <<< i)
      let flags := lanes.foldl (init := if lanes = [] then 0 else x.2 ||| y.2) fun f i =>
        f ||| (relLane r ty (x.1 i) (y.1 i)).2
      .done (s.modMe fun c => { c.writeK d.toNat bits with fpf := c.fpf ||| flags })
/-- A reduction to lane 0, written whatever km holds (R339). -/
def State.doReduce (s : State) (p : Bool) (accept : BitVec 5 → Bool) (d a : BitVec 6)
    (op : BitVec 5 → BitVec 2 → Nat → Nat → Coded) (identity : BitVec 5 → Nat) : Res :=
  let x := s.v a.toNat
  if !accept x.tag then .trap 0x02 0 (formatVal x.tag 0 0)
  else
    let w := laneWidth x.tag
    let n := laneCount x.tag
    let km := s.me.km
    let lanes := (span 0 n).map fun i => if km.getLsbD i then some (lane x.bits w i) else none
    let r := reduceTree (op x.tag s.me.rmode) 7 lanes 0
    let old := (s.v d.toNat).bits
    let bits := packVec w ((span 0 n).map fun i => if i = 0 then r.1.getD (identity x.tag) else lane old w i)
    .done (s.modMe fun c =>
      { c.writeV d.toNat { bits := bits, tag := x.tag, poison := p } with fpf := c.fpf ||| r.2 })
/-- Identities of RMAX and RMIN: the least or the greatest value (Table 21.2). -/
def extreme (least : Bool) (ty : BitVec 5) : Nat :=
  let w := laneWidth ty
  if isFloatTag ty then let f := floatFmt ty; f.sign least f.infCode
  else wrap w (if least then intLo (isSigned ty) w else intHi (isSigned ty) w)

/-! ### Addition, subtraction, products -/

def execAdd (d : BitVec 6) (t : BitVec 2) (a : BitVec 6) (u : BitVec 2) (b : BitVec 6) (s : State) :
    Host.Outcome State Fault Refusal := issue (.add d t a u b) s fun p s => s.doAdd p d t a u b
def execAddG16 (d : BitVec 5) (a : BitVec 6) (s : State) : Host.Outcome State Fault Refusal :=
  issue (.addG16 d a) s fun p s => s.doAdd p (d.setWidth 6) 0 (d.setWidth 6) 0 a
def execAddV16 (d : BitVec 5) (a : BitVec 6) (s : State) : Host.Outcome State Fault Refusal :=
  issue (.addV16 d a) s fun p s => s.doAdd p (d.setWidth 6) 1 (d.setWidth 6) 1 a
def execSub (d : BitVec 6) (t : BitVec 2) (a : BitVec 6) (u : BitVec 2) (b : BitVec 6) (s : State) :
    Host.Outcome State Fault Refusal := issue (.sub d t a u b) s fun p s => s.doSub p d t a u b
def execSubG16 (d : BitVec 5) (a : BitVec 6) (s : State) : Host.Outcome State Fault Refusal :=
  issue (.subG16 d a) s fun p s => s.doSub p (d.setWidth 6) 0 (d.setWidth 6) 0 a
def execMul (d : BitVec 6) (t : BitVec 2) (a : BitVec 6) (u : BitVec 2) (b : BitVec 6) (s : State) :
    Host.Outcome State Fault Refusal := issue (.mul d t a u b) s fun p s => s.doMul p d t a u b
def execMulV16 (d : BitVec 5) (a : BitVec 6) (s : State) : Host.Outcome State Fault Refusal :=
  issue (.mulV16 d a) s fun p s => s.doMul p (d.setWidth 6) 1 (d.setWidth 6) 1 a
/-- MULH (R322). -/
def execMulh (d : BitVec 6) (t : BitVec 2) (a : BitVec 6) (u : BitVec 2) (b : BitVec 6) (s : State) :
    Host.Outcome State Fault Refusal :=
  issue (.mulh d t a u b) s fun p s =>
    s.arith2 p isIntTag false d t a u b laneMulh (signedWord fun x y => x * y / 2 ^ 64)
def execFma (d : BitVec 6) (t : BitVec 2) (a : BitVec 6) (u : BitVec 2) (b : BitVec 6) (s : State) :
    Host.Outcome State Fault Refusal := issue (.fma d t a u b) s fun p s => s.doFma p false d t a u b
def execFms (d : BitVec 6) (t : BitVec 2) (a : BitVec 6) (u : BitVec 2) (b : BitVec 6) (s : State) :
    Host.Outcome State Fault Refusal := issue (.fms d t a u b) s fun p s => s.doFma p true d t a u b
/-- ADDI (R257). -/
def execAddi (d a : BitVec 6) (i : BitVec 12) (s : State) : Host.Outcome State Fault Refusal :=
  issue (.addi d a i) s fun p s => s.doAddi p d a i
def execAddiG16 (d : BitVec 5) (i : BitVec 6) (s : State) : Host.Outcome State Fault Refusal :=
  issue (.addiG16 d i) s fun p s => s.doAddi p (d.setWidth 6) (d.setWidth 6) (i.signExtend 12)

/-! ### Bitwise operations, moves and constants -/

def execAnd (d : BitVec 6) (t : BitVec 2) (a : BitVec 6) (u : BitVec 2) (b : BitVec 6) (s : State) :
    Host.Outcome State Fault Refusal := issue (.and d t a u b) s fun p s => s.doAnd p d t a u b
def execAndG16 (d : BitVec 5) (a : BitVec 6) (s : State) : Host.Outcome State Fault Refusal :=
  issue (.andG16 d a) s fun p s => s.doAnd p (d.setWidth 6) 0 (d.setWidth 6) 0 a
def execOr (d : BitVec 6) (t : BitVec 2) (a : BitVec 6) (u : BitVec 2) (b : BitVec 6) (s : State) :
    Host.Outcome State Fault Refusal := issue (.or d t a u b) s fun p s => s.doOr p d t a u b
def execOrG16 (d : BitVec 5) (a : BitVec 6) (s : State) : Host.Outcome State Fault Refusal :=
  issue (.orG16 d a) s fun p s => s.doOr p (d.setWidth 6) 0 (d.setWidth 6) 0 a
def execXor (d : BitVec 6) (t : BitVec 2) (a : BitVec 6) (u : BitVec 2) (b : BitVec 6) (s : State) :
    Host.Outcome State Fault Refusal := issue (.xor d t a u b) s fun p s => s.doXor p d t a u b
def execXorG16 (d : BitVec 5) (a : BitVec 6) (s : State) : Host.Outcome State Fault Refusal :=
  issue (.xorG16 d a) s fun p s => s.doXor p (d.setWidth 6) 0 (d.setWidth 6) 0 a
def execAndn (d : BitVec 6) (t : BitVec 2) (a : BitVec 6) (u : BitVec 2) (b : BitVec 6) (s : State) :
    Host.Outcome State Fault Refusal :=
  issue (.andn d t a u b) s fun p s => s.bitwise p d t a u b andNot fun x y => x &&& ~~~y
/-- ANDI (R260). -/
def execAndi (d a : BitVec 6) (i : BitVec 12) (s : State) : Host.Outcome State Fault Refusal :=
  issue (.andi d a i) s fun p s => .done (s.writeG d.toNat (s.g a.toNat &&& i.signExtend 64) p)
def execLit (d : BitVec 6) (i : BitVec 18) (s : State) : Host.Outcome State Fault Refusal :=
  issue (.lit d i) s fun _ s => s.doLit d i
def execLitG16 (d : BitVec 5) (i : BitVec 6) (s : State) : Host.Outcome State Fault Refusal :=
  issue (.litG16 d i) s fun _ s => s.doLit (d.setWidth 6) (i.signExtend 18)
/-- LITH keeps the poison of gD (R307). -/
def execLith (d : BitVec 6) (i : BitVec 18) (s : State) : Host.Outcome State Fault Refusal :=
  issue (.lith d i) s fun p s => .done (s.writeG d.toNat (s.g d.toNat <<< 18 ||| i.setWidth 64) p)
def execMov (d : BitVec 6) (t : BitVec 2) (a : BitVec 6) (s : State) : Host.Outcome State Fault Refusal :=
  issue (.mov d t a) s fun p s => s.doMov p d t a
def execMovG16 (d : BitVec 5) (a : BitVec 6) (s : State) : Host.Outcome State Fault Refusal :=
  issue (.movG16 d a) s fun p s => s.doMov p (d.setWidth 6) 0 a
def execMovV16 (d : BitVec 5) (a : BitVec 6) (s : State) : Host.Outcome State Fault Refusal :=
  issue (.movV16 d a) s fun p s => s.doMov p (d.setWidth 6) 1 a

/-! ### Shifts and bit counts -/

def execShl (d : BitVec 6) (t : BitVec 2) (a : BitVec 6) (u : BitVec 2) (b : BitVec 6) (s : State) :
    Host.Outcome State Fault Refusal := issue (.shl d t a u b) s fun p s => s.doShift p shl d t a u b
def execShlG16 (d : BitVec 5) (i : BitVec 6) (s : State) : Host.Outcome State Fault Refusal :=
  issue (.shlG16 d i) s fun p s => s.doShift p shl (d.setWidth 6) 0 (d.setWidth 6) 3 i
def execShr (d : BitVec 6) (t : BitVec 2) (a : BitVec 6) (u : BitVec 2) (b : BitVec 6) (s : State) :
    Host.Outcome State Fault Refusal := issue (.shr d t a u b) s fun p s => s.doShift p shr d t a u b
def execShrG16 (d : BitVec 5) (i : BitVec 6) (s : State) : Host.Outcome State Fault Refusal :=
  issue (.shrG16 d i) s fun p s => s.doShift p shr (d.setWidth 6) 0 (d.setWidth 6) 3 i
def execSar (d : BitVec 6) (t : BitVec 2) (a : BitVec 6) (u : BitVec 2) (b : BitVec 6) (s : State) :
    Host.Outcome State Fault Refusal := issue (.sar d t a u b) s fun p s => s.doShift p sar d t a u b
def execRot (d : BitVec 6) (t : BitVec 2) (a : BitVec 6) (u : BitVec 2) (b : BitVec 6) (s : State) :
    Host.Outcome State Fault Refusal := issue (.rot d t a u b) s fun p s => s.doShift p rot d t a u b
def execClz (d : BitVec 6) (t : BitVec 2) (a : BitVec 6) (s : State) : Host.Outcome State Fault Refusal :=
  issue (.clz d t a) s fun p s => s.arith1 p isIntTag d t a (countLane clz) (countWord clz)
def execFfs (d : BitVec 6) (t : BitVec 2) (a : BitVec 6) (s : State) : Host.Outcome State Fault Refusal :=
  issue (.ffs d t a) s fun p s => s.arith1 p isIntTag d t a (countLane ffs) (countWord ffs)
def execPopc (d : BitVec 6) (t : BitVec 2) (a : BitVec 6) (s : State) : Host.Outcome State Fault Refusal :=
  issue (.popc d t a) s fun p s => s.arith1 p isIntTag d t a (countLane popc) (countWord popc)
def execBrev (d : BitVec 6) (t : BitVec 2) (a : BitVec 6) (s : State) : Host.Outcome State Fault Refusal :=
  issue (.brev d t a) s fun p s => s.arith1 p isIntTag d t a (countLane brev) (countWord brev)

/-! ### Order and magnitude -/

def execMin (d : BitVec 6) (t : BitVec 2) (a : BitVec 6) (u : BitVec 2) (b : BitVec 6) (s : State) :
    Host.Outcome State Fault Refusal :=
  issue (.min d t a u b) s fun p s =>
    s.arith2 p isOrderTag false d t a u b (laneMinMax false) (signedWord fun x y => Min.min x y)
def execMax (d : BitVec 6) (t : BitVec 2) (a : BitVec 6) (u : BitVec 2) (b : BitVec 6) (s : State) :
    Host.Outcome State Fault Refusal :=
  issue (.max d t a u b) s fun p s =>
    s.arith2 p isOrderTag false d t a u b (laneMinMax true) (signedWord fun x y => Max.max x y)
def execAbsd (d : BitVec 6) (t : BitVec 2) (a : BitVec 6) (u : BitVec 2) (b : BitVec 6) (s : State) :
    Host.Outcome State Fault Refusal :=
  issue (.absd d t a u b) s fun p s =>
    s.arith2 p isNumTag false d t a u b laneAbsd (signedWord fun x y => (x - y).natAbs)
def execNeg (d : BitVec 6) (t : BitVec 2) (a : BitVec 6) (s : State) : Host.Outcome State Fault Refusal :=
  issue (.neg d t a) s fun p s => s.arith1 p isNumTag d t a laneNeg fun x => -x
def execCeq (d : BitVec 6) (t : BitVec 2) (a : BitVec 6) (u : BitVec 2) (b : BitVec 6) (s : State) :
    Host.Outcome State Fault Refusal := issue (.ceq d t a u b) s fun p s => s.doCompare p .eq d t a u b
def execCne (d : BitVec 6) (t : BitVec 2) (a : BitVec 6) (u : BitVec 2) (b : BitVec 6) (s : State) :
    Host.Outcome State Fault Refusal := issue (.cne d t a u b) s fun p s => s.doCompare p .ne d t a u b
def execClt (d : BitVec 6) (t : BitVec 2) (a : BitVec 6) (u : BitVec 2) (b : BitVec 6) (s : State) :
    Host.Outcome State Fault Refusal := issue (.clt d t a u b) s fun p s => s.doCompare p .lt d t a u b
def execCle (d : BitVec 6) (t : BitVec 2) (a : BitVec 6) (u : BitVec 2) (b : BitVec 6) (s : State) :
    Host.Outcome State Fault Refusal := issue (.cle d t a u b) s fun p s => s.doCompare p .le d t a u b

/-! ### Division, roots and special functions -/

def execDiv (d : BitVec 6) (t : BitVec 2) (a : BitVec 6) (u : BitVec 2) (b : BitVec 6) (s : State) :
    Host.Outcome State Fault Refusal :=
  issue (.div d t a u b) s fun p s => s.arith2 p isNumTag false d t a u b laneDiv (signedWord (quotInt 64))
def execRem (d : BitVec 6) (t : BitVec 2) (a : BitVec 6) (u : BitVec 2) (b : BitVec 6) (s : State) :
    Host.Outcome State Fault Refusal :=
  issue (.rem d t a u b) s fun p s => s.arith2 p isIntTag false d t a u b laneRem (signedWord remInt)
def execSqrt (d a : BitVec 6) (s : State) : Host.Outcome State Fault Refusal :=
  issue (.sqrt d a) s fun p s => s.special p d a fpSqrt
def execRsq (d a : BitVec 6) (s : State) : Host.Outcome State Fault Refusal :=
  issue (.rsq d a) s fun p s => s.special p d a fpRsq
def execExp2 (d a : BitVec 6) (s : State) : Host.Outcome State Fault Refusal :=
  issue (.exp2 d a) s fun p s => s.special p d a fpExp2
def execLog2 (d a : BitVec 6) (s : State) : Host.Outcome State Fault Refusal :=
  issue (.log2 d a) s fun p s => s.special p d a fpLog2
def execRcp (d a : BitVec 6) (s : State) : Host.Outcome State Fault Refusal :=
  issue (.rcp d a) s fun p s => s.special p d a fpRcp
def execTanh (d a : BitVec 6) (s : State) : Host.Outcome State Fault Refusal :=
  issue (.tanh d a) s fun p s => s.special p d a fpTanh

/-! ### DOT, SCALE, reductions -/

/-- DOT (R50, Table 2.10): lanes above the output count are written +0 under km. -/
def execDot (d a b : BitVec 6) (s : State) : Host.Outcome State Fault Refusal :=
  issue (.dot d a b) s fun p s =>
    let x := s.v a.toNat
    let y := s.v b.toNat
    let ty := x.tag
    if y.tag ≠ ty || !(ty.toNat < 4 || isFloatTag ty) then .trap 0x02 0 (formatVal ty y.tag 0)
    else
      let w := laneWidth ty
      let k := if w = 8 then 4 else 2
      let res : BitVec 5 := if ty.toNat < 4 then 5 else if ty = 11 then 11 else 10
      let outputs := if ty.toNat < 4 then 16 else laneCount ty / 2
      let old := (s.v d.toNat).bits
      let mode := s.me.rmode
      .done (s.writeLanes d.toNat res p 0 fun i =>
        if outputs ≤ i then (0, 0)
        else
          let as := (span (k * i) k).map (lane x.bits w)
          let bs := (span (k * i) k).map (lane y.bits w)
          let c := lane old (laneWidth res) i
          if ty.toNat < 4 then
            (wrap 32 ((as.zipWith (fun m n => laneInt ty m * laneInt ty n) bs).foldl (· + ·) (c : Int)), 0)
          else dotFloat (floatFmt ty) (floatFmt res) mode as bs c)
/-- SCALE (R51, R342): the exponent is never converted; a vector exponent is a format fault (log 68). -/
def execScale (d a : BitVec 6) (u : BitVec 2) (b : BitVec 6) (s : State) : Host.Outcome State Fault Refusal :=
  issue (.scale d a u b) s fun p s =>
    let x := s.v a.toNat
    if u = 1 || !isFloatTag x.tag then .trap 0x02 0 (formatVal x.tag (if u = 1 then (s.v b.toNat).tag else 0) 0)
    else
      let n := (s.scalarOpnd false u b).toInt
      s.special p d a fun f mode v => scaleFloat f mode n v
def execRsum (d a : BitVec 6) (s : State) : Host.Outcome State Fault Refusal :=
  issue (.rsum d a) s fun p s => s.doReduce p isNumTag d a laneAdd fun _ => 0
def execRmax (d a : BitVec 6) (s : State) : Host.Outcome State Fault Refusal :=
  issue (.rmax d a) s fun p s => s.doReduce p isNumTag d a (laneMinMax true) (extreme true)
def execRmin (d a : BitVec 6) (s : State) : Host.Outcome State Fault Refusal :=
  issue (.rmin d a) s fun p s => s.doReduce p isNumTag d a (laneMinMax false) (extreme false)
def execRor (d a : BitVec 6) (s : State) : Host.Outcome State Fault Refusal :=
  issue (.ror d a) s fun p s => s.doReduce p anyTag d a (bitLane Nat.lor) fun _ => 0

end Sys2Proof.Machine
end

