-- ==== Sys2Proof/Machine/Home.lean ====
section
/-! DEFINITION. What homes do: reading, writing and atomics on stored bytes, with their poison and release records,
monitors, and the performing of one request (R59, R72, R75-R80, R84-R87, R93, R94, R114). -/
namespace Sys2Proof.Machine

/-! ### An act on the bytes it finds -/

/-- What an integer or floating atomic writes; none when a compare fails. Operations by major (Table 18.2). -/
def atomicNew (op bytes : Nat) (old value expected : Nat) : Option Nat :=
  let w := 8 * bytes
  let signed := fun (x : Nat) => if x ≥ 2 ^ (w - 1) then (x : Int) - 2 ^ w else x
  match op with
  | 0x19 => some ((old + value) % 2 ^ w)
  | 0x1A => some (Nat.land old value)
  | 0x1B => some (Nat.lor old value)
  | 0x1C => some (Nat.xor old value)
  | 0x1D => some (if signed value < signed old then value else old)
  | 0x1E => some (if signed old < signed value then value else old)
  | 0x1F => some value
  | 0x20 => if old = expected then some value else none
  | _ => some (fpAdd fmtF32 modeRne (fmtF32.decode old) (fmtF32.decode value)).1

/-- Element-wise sum of a line and a vector under a mask, rounded RNE (R261). -/
def vaddLine (ty : BitVec 5) (km : Word) (line data : List Byte) : List Byte :=
  let w := laneWidth ty
  let old : Vec := leBits 512 line
  let new : Vec := leBits 512 data
  vecBytes (blend km w old fun i => (laneAdd' ty (lane old w i) (lane new w i)))
where
  laneAdd' (ty : BitVec 5) (a b : Nat) : Nat :=
    if isIntTag ty then wrap (laneWidth ty) (laneInt ty a + laneInt ty b)
    else (fpAdd (floatFmt ty) modeRne ((floatFmt ty).decode a) ((floatFmt ty).decode b)).1

def Act.size : Act → Nat
  | .read n => n
  | .write data _ => data.length
  | .atomic _ n _ _ => n
  | .vadd _ _ data => data.length
  | .watch _ _ => 8

/-- A mask of all bits stands for the empty one. -/
def fullMask (mask : List Byte) (n : Nat) : List Byte := if mask = [] then List.replicate n 0xFF else mask
/-- The bytes an act writes over those it finds: data, mask and whether they are poisoned; none when it only reads. -/
def Act.writes (a : Act) (old : List Byte) (oldBad bad : Bool) : Option (List Byte × List Byte × Bool) :=
  match a with
  | .read _ | .watch _ _ => none
  | .write data mask => some (data, fullMask mask data.length, bad)
  | .atomic op n v e =>
    let x := leNat old
    match atomicNew op n x (v.toNat % 2 ^ (8 * n)) (e.toNat % 2 ^ (8 * n)) with
    | some y => some (leBytes n y, List.replicate n 0xFF, bad || oldBad)
    | none => some (old, List.replicate n 0, false)
  | .vadd ty km data => some (vaddLine ty km old data, List.replicate data.length 0xFF, bad || oldBad)

/-- Masked merge of written bytes into old ones. -/
def mergeBytes : List Byte → List Byte → List Byte → List Byte
  | o :: os, d :: ds, m :: ms => ((d &&& m) ||| (o &&& ~~~m)) :: mergeBytes os ds ms
  | os, _, _ => os
/-- Addresses whose mask byte satisfies a test. -/
def maskedAt (p : Byte → Bool) : List Nat → List Byte → List Nat
  | a :: as, m :: ms => if p m then a :: maskedAt p as ms else maskedAt p as ms
  | _, _ => []

/-- Write over stored bytes: contents, poison marks by units of `unit` bytes, and release records by line. A release
stands for the bytes that it has written (R84, R85). -/
def putBytes (unit : Nat) (bytes : Memory) (marks : Tab Bool) (rels : Tab (Option Release)) (offs : List Nat)
    (data mask : List Byte) (poison : Bool) (rel : Option Release) : Memory × Tab Bool × Tab (Option Release) :=
  let new := mergeBytes (offs.map bytes.byte) data mask
  let some_ := maskedAt (· != 0) offs mask
  (writeBytes bytes offs new,
   markPoison marks unit poison (if poison then some_ else maskedAt (· == 0xFF) offs mask),
   markRelease rels rel some_)

/-! ### Homes -/

def State.storeAt (s : State) : Home → Store
  | .localMem c => (s.core c).store
  | .scratch n => (s.cluster n).store
  | _ => {}
def State.setStore (s : State) (h : Home) (m : Store) : State :=
  match h with
  | .localMem c => s.modCore c fun k => { k with store := m }
  | .scratch n => s.modCluster n fun k => { k with store := m }
  | _ => s

/-- A tile-table check at the home: the entry when it is allocated, current and large enough (R58, R59). -/
def State.tileFor (s : State) (h : Home) (loc : Word) (size : Nat) : Option TileEntry :=
  let t := (s.storeAt h).tile (chipHandle loc)
  if t.used && t.gen == chipGen loc && chipOff loc + size ≤ t.rows * t.rowBytes then some t else none

/-- The check of a packet: of the whole access when it is a part of one (R58, R181). -/
def State.tileOf (s : State) (p : Packet) : Option TileEntry :=
  match p.whole with
  | some (loc, size) => s.tileFor p.home loc size
  | none => s.tileFor p.home p.loc p.act.size

/-- The owner tag of a granule: the crash region's is one reserved to firmware, which is no domain's (R72, R243). -/
def State.ownerOf (s : State) (g : Nat) : Nat := if crashGranule g then 16 else Tab.get 0 s.owners g
/-- The granule's owner tag matches the request's domain (R72). -/
def State.owned (s : State) (odi pa : Nat) : Bool := s.ownerOf (pa / 65536) == odi

/-- The word a WAITA watches, when its location is still there. -/
def State.watched (s : State) (p : Packet) : Option (Word × Bool × Option Release) :=
  match p.pa with
  | some pa =>
    if s.owned p.odi pa then
      some (leBits 64 (s.dram.read pa 8), Tab.get false s.dramBad (pa / 64), readRelease s.releases pa 8)
    else some (0, true, none)
  | none =>
    (s.tileFor p.home p.loc 8).map fun t =>
      let m := s.storeAt p.home
      let offs := t.physAll (chipLevel p.loc) t.rot (chipOff p.loc) 8
      let r := m.load offs
      (leBits 64 r.1, r.2, readRelease m.releases (offs.headD 0) 8)

/-- A release with the outcome of the home's half of the check (R85). -/
def State.checkedRelease (s : State) (p : Packet) (r : Option Release) : Option (Release × Bool) :=
  r.map fun q => (q, s.inScope q.scope q.core q.ctx q.isEngine p.core p.ctx)

/-! ### Links (R172) -/

/-- Links from one die to another (R172): a die-to-die link is 4 times the die it leaves and the die it enters; the
UALink ports follow from 16 (log 43). -/
def linksAcross (from_ d : Nat) : List Nat :=
  let turn := from_ / 2 * 2 + d % 2
  (if from_ % 2 = d % 2 then [] else [4 * from_ + turn]) ++ if from_ / 2 = d / 2 then [] else [4 * turn + d]
/-- The die of a source, and of a home. -/
def dieOfSource (c : Nat) : Nat := if c < 4096 then dieOf c else 0
def Home.die : Home → Nat
  | .localMem c => dieOf c
  | .scratch n => dieOfCluster n
  | .channel ch => ch / 128
  | .peer _ => 0
def linksOf (p : Packet) : List Nat :=
  match p.home with
  | .peer id => [16 + id % 8]
  | h => linksAcross (dieOfSource p.core) h.die
/-- A packet takes a slot of the send window of each link it crosses; a window holds 64. -/
def State.takeSlots (s : State) (kind : Carried) (id : Nat) (links : List Nat) : State :=
  let slot := fun (rs : List ReplaySlot) (l : Nat) =>
    let own := rs.filter fun r => r.link == l
    let seq := ((own.getLast?).map fun r => r.seq + 1).getD 0
    let kept := if own.length < 64 then rs else rs.filter fun r => r.link != l || some r.seq != own.head?.map (·.seq)
    kept ++ [{ link := l, seq := seq, kind := kind, packet := id, lost := none }]
  { s with replay := links.foldl slot s.replay }
/-- What has arrived leaves the windows, unless an error has been found in its slot. -/
def State.leaveSlots (s : State) (kind : Carried) (id : Nat) : State :=
  { s with replay := s.replay.filter fun r => r.packet != id || r.kind != kind || r.lost.isSome }

/-- Send an answer back, with a release and the outcome of the home's check of it. -/
def State.answerWith (s : State) (p : Packet) (a : Answer) (data : List Byte) (poison : Bool)
    (r : Option (Release × Bool)) : State :=
  let links := match p.home with
    | .peer _ => []
    | h => linksAcross h.die (dieOfSource p.core)
  let t : State := { s with replies := s.replies ++ [{ packet := p, answer := a, data := data, poison := poison,
                                                       release := r }] }
  t.takeSlots .reply p.id links
/-- Send an answer back. -/
def State.answer (s : State) (p : Packet) (a : Answer) (data : List Byte) (poison : Bool) (r : Option Release) : State :=
  s.answerWith p a data poison (s.checkedRelease p r)

/-- The home's answer to a WAITA that is armed there. -/
def State.endWatch (s : State) (p : Packet) (w : Word × Bool × Option Release) : State :=
  ({ s with net := s.net.filter (·.id != p.id) }).answer p .done (bytesOf 8 w.1) w.2.1 w.2.2

/-- The device only reads there. -/
def Act.readsOnly : Act → Bool
  | .read _ | .watch _ _ => true
  | _ => false
/-- A read or write that a home drops is counted: writes and reads apart (R59, R72, Table 14.1; log 13). -/
def State.countDropped (s : State) (a : Act) (h : Home) : State :=
  s.count (if a.readsOnly then Count.failedRead else Count.droppedWrite) (homeIndex h)
/-- An owner mismatch, likewise. -/
def State.countMismatch (s : State) (a : Act) (h : Home) : State :=
  s.count (if a.readsOnly then Count.ownerMismatch else Count.droppedWrite) (homeIndex h)
/-- The granule of an armed WAITA has another owner tag now. -/
def State.disowned (s : State) (p : Packet) : Bool :=
  match p.home, p.pa with
  | .channel _, some pa => !s.owned p.odi pa
  | _, _ => false
/-- The home reads the word of an armed WAITA once more and returns it; an owner mismatch is counted like any other (R72,
R93). -/
def State.returnWatch (s : State) (p : Packet) (w : Word × Bool × Option Release) : State :=
  (if s.disowned p then s.countMismatch p.act p.home else s).endWatch p w
/-- After a write at a home: its monitors return the words that have changed, and poisoned zero where the owner tag has
(R72, R93). -/
def State.fireMonitors (s : State) (h : Home) : State :=
  (s.net.filter fun p => p.home == h && p.armed == some true).foldl (init := s) fun s p =>
    match p.act, s.watched p with
    | .watch old _, some w => if w.1 != old || s.disowned p then s.returnWatch p w else s
    | _, _ => s

/-- An act at offsets of an on-chip store: the state after it, the bytes found, their poison, the first line's release. -/
def State.actChip (s : State) (h : Home) (offs : List Nat) (a : Act) (bad : Bool) (rel : Option Release) :
    State × List Byte × Bool × Option Release :=
  let m := s.storeAt h
  let r := m.load offs
  let old := readRelease m.releases (offs.headD 0) a.size
  match a.writes r.1 r.2 bad with
  | none => (s, r.1, r.2, old)
  | some w =>
    let n := putBytes 8 m.bytes m.poison m.releases offs w.1 w.2.1 w.2.2 rel
    ((s.setStore h { m with bytes := n.1, poison := n.2.1, releases := n.2.2 }).fireMonitors h, r.1, r.2, old)

/-- An act on main memory under a domain; a mismatch drops a write and reads poisoned zeros, and is counted (R72). -/
def State.actDram (s : State) (odi pa : Nat) (a : Act) (bad : Bool) (rel : Option Release) :
    State × List Byte × Bool × Option Release :=
  let h := Home.channel (channelOf pa)
  let offs := span pa a.size
  if !s.owned odi pa then (s.countMismatch a h, List.replicate a.size 0, true, none)
  else
    let found := offs.map s.dram.byte
    let poison := offs.any fun o => Tab.get false s.dramBad (o / 64)
    let old := readRelease s.releases pa a.size
    match a.writes found poison bad with
    | none => (s, found, poison, old)
    | some w =>
      let n := putBytes 64 s.dram s.dramBad s.releases offs w.1 w.2.1 w.2.2 rel
      (({ s with dram := n.1, dramBad := n.2.1, releases := n.2.2 }).fireMonitors h, found, poison, old)

/-! ### Performing a request -/

/-- What windows and pages must grant: LDAQ and STRL are checked as atomics, WAITA as a read (R305, R348, R359). -/
def State.wants (s : State) (p : Packet) : Want :=
  match p.act with
  | .read _ =>
    match p.op.bind fun n => (Tab.get none s.ops n : Option Op).map (·.dest) with
    | some (Dest.word _) => .atomic
    | _ => .read
  | .write _ _ => if p.op.isSome then .atomic else .write
  | .watch _ _ => .read
  | _ => .atomic

/-- The release an access makes. -/
def Packet.releaseOf (p : Packet) : Option Release :=
  if p.order = 2 || p.order = 3 then some { core := p.core, ctx := p.ctx, isEngine := false, scope := p.scope } else none

/-- Arm a WAITA at its home: a monitor when one of the 64 is free, else polling (R94). -/
def State.arm (s : State) (p : Packet) (timeout : Nat) : State :=
  let held := (s.net.filter fun q => q.home == p.home && q.armed == some true).length
  let until_ := if timeout = 0 then 0 else s.cycle + timeout
  let net := s.net.map fun q =>
    if q.id == p.id then
      { q with armed := some (decide (held < 64)), timeout := until_, poll := s.cycle + 2500 }
    else q
  { s with net := net }

/-- Record a remote store in the trace ring of the local-memory or scratchpad port at which it is performed; the core
that its location names says whether Bilrok records it (R80; log 19). -/
def State.traceAt (s : State) (src : Nat) (loc : Word) : State :=
  let c := namedCore src loc
  let entry := (src, chipHandle loc, chipOff loc, s.cycle)
  let ring := fun (t : List (Nat × Nat × Nat × Nat)) => (t ++ [entry]).reverse.take 256 |>.reverse
  if !(s.core c).tracing then s
  else if chipLevel loc = 0 then s.modCore c fun k => { k with trace := ring k.trace }
  else s.modCluster (clusterOf c) fun k => { k with trace := ring k.trace }
def State.traceStore (s : State) (p : Packet) : State :=
  match p.act with
  | .write _ _ => if p.isLocal then s else s.traceAt p.core p.loc
  | _ => s

/-- A firewall of the firmware column refuses a packet that no column core sent, but for posted stores to the inbox
handles that the table designates (R242). -/
def State.firewalled (s : State) (p : Packet) (core : Nat) : Bool :=
  let post := p.op.isNone && match p.act with | .write _ _ => s.columnInbox core (chipHandle p.loc) | _ => false
  chipLevel p.loc == 0 && s.inColumn core && !s.inColumn p.core && !post

/-- The request is a copy engine's, which acts for a core (R75). -/
def Packet.engine (p : Packet) : Bool := decide (p.core < 4096) && decide (11 ≤ p.ctx)
/-- Perform a request at its home and answer it. A row of the matrix unit that a window refuses is counted there (R142). A WAITA whose word does not differ stays armed there. What is in flight
when its handle is freed is checked here like any other access (log 71). -/
def State.perform (s : State) (p : Packet) : State :=
  let gone := { s with net := s.net.filter (·.id != p.id),
                       replay := s.replay.filter fun r => r.packet != p.id || r.kind != .request || r.lost.isSome }
  let size := p.act.size
  let dropped := fun (t : State) => (t.countDropped p.act p.home).answer p .dropped (List.replicate size 0) true none
  let finish := fun (r : State × List Byte × Bool × Option Release) => r.1.answer p .done r.2.1 r.2.2.1 r.2.2.2
  match p.home with
  | .peer _ => s
  | .channel _ =>
    let pa := p.pa.getD 0
    match p.act with
    | .watch old t =>
      match s.watched p with
      | some w =>
        if w.1 != old || s.disowned p then s.returnWatch p w else s.arm p t
      | none => dropped gone
    | _ =>
      let r := gone.actDram p.odi pa p.act p.poison p.releaseOf
      r.1.answer p (if s.owned p.odi pa then .done else .dropped) r.2.1 r.2.2.1 r.2.2.2
  | h =>
    let c := namedCore p.core p.loc
    let lvl := chipLevel p.loc
    let inbox := s.columnInbox c (chipHandle p.loc)
    if lvl = 0 && (s.core c).killed && (p.op.isSome || p.engine) then
      (if p.engine then gone else gone.notifyKill p.core c (s.core c).tsk (s.core c).killCause).answer p .lost
        (List.replicate size 0) true none
    else if !p.isLocal && (s.firewalled p c ||
        !(inbox || (s.core c).admits p.core lvl (chipHandle p.loc) (s.wants p))) then
      (if p.row.isSome then gone.countDropped p.act p.home else gone).answer p .nack [] false none
    else
      match s.tileOf p with
      | none => dropped gone
      | some t =>
        let offs := t.physAll lvl (p.rot.getD t.rot) (chipOff p.loc) size
        match p.act with
        | .watch old timeout =>
          match s.watched p with
          | some w => if w.1 != old then s.endWatch p w else s.arm p timeout
          | none => dropped gone
        | a => finish ((gone.traceStore p).actChip h offs a p.poison p.releaseOf)

/-- The home is the local memory of a core whose task is pre-empted, or the scratchpad of a cluster that is: accesses wait
until it resumes (log 49). -/
def State.savedHome (s : State) : Home → Bool
  | .localMem c => (s.core c).saved.isSome
  | .scratch n => (s.cluster n).saved.isSome
  | _ => false

/-- The rank of a packet among those that reach its home in one cycle (R79). A row of the matrix unit comes as its core's
(log 80). -/
def State.rankOf (s : State) (p : Packet) : Nat :=
  if p.core ≥ 4096 then unitRank
  else if p.engine then
    let q : CopyQueue := Tab.get {} (s.core p.core).eqs (p.ctx - 11)
    engineRank (dieOf p.core) ((q.running.map (·.engine)).getD 0)
  else messageRank p.core

/-- An earlier MEET or message of a source has not arrived at a core; a message that waits there for room in the mailbox
holds nothing back (R152, R169). -/
def State.behind (s : State) (c d n : Nat) : Bool :=
  (s.meets.any fun m => m.core == c && m.home == d && decide (m.id < n)) ||
    s.msgs.any fun m => m.msg.src == c && m.msg.copy.isNone && !m.waiting && m.dst == d && decide (m.id < n)
/-- A packet stands for an access of a core: its own, or one that it has absorbed (R170). -/
def Packet.actsFor (p : Packet) (core : Nat) : Bool := p.core == core || p.merged.any fun m => m.1 == core
/-- The cores whose accesses a packet stands for. -/
def Packet.cores (p : Packet) : List Nat := p.core :: p.merged.map (·.1)
/-- The numbers of the accesses that a packet stands for, with their cores. -/
def Packet.numbers (p : Packet) : List (Nat × Nat) := (p.core, p.id) :: p.merged.map fun m => (m.1, m.2.2.2.2)
/-- A packet is next at its home: no earlier packet of its cores to the same home is unperformed (R77), the home's array
is not being re-encoded, the port has served nothing of a later rank in this cycle (R79), and the packet is not armed
there already. -/
def State.nextAtHome (s : State) (p : Packet) : Bool :=
  p.armed.isNone && !s.arrayBusy p.home && !s.savedHome p.home && s.portOpen p.home (s.rankOf p) &&
    match p.home with
    | .peer _ => false
    | h => !(match h with | .localMem d => !p.isLocal && p.numbers.any fun e => s.behind e.1 d e.2 | _ => false) &&
      (s.net.takeWhile (·.id != p.id)).all fun q => !(p.cores.any q.actsFor) || q.home != p.home || q.armed.isSome

end Sys2Proof.Machine
end

