-- ==== Sys2Proof/Machine/Send.lean ====
section
/-! DEFINITION. Issuing accesses: releases and their marks, posted packets, non-posted accesses with what their replies
write, and the undo log and outbox of a paired core (R59, R77, R78, R84-R86, R162, R220, R366). -/
namespace Sys2Proof.Machine

/-! ### Releases and acquires -/

/-- The order and scope an access carries: an unconsumed release mark makes it a release (R366). -/
def State.orderOf (s : State) (order : BitVec 2) (scope : BitVec 4) : BitVec 2 × BitVec 4 :=
  match s.me.relMark with
  | some m => if order = 2 || order = 3 then (order, scope) else (order ||| 2, m)
  | none => (order, scope)

/-- Issue a store or atomic: it stalls while it is a release whose homes are still waited for, and consumes the mark. -/
def State.ordered (s : State) (order : BitVec 2) (scope : BitVec 4)
    (k : State → BitVec 2 → BitVec 4 → Res) : Res :=
  let o := s.orderOf order scope
  if (o.1 = 2 || o.1 = 3) && !s.released o.2 s.cur.1 s.cur.2 then .stall s
  else k (s.modMe fun x => { x with relMark := none }) o.1 o.2

/-- The request is a load's. -/
def Act.isLoad : Act → Bool
  | .read _ => true
  | _ => false
/-- A release is as visible to an acquire as R84 asks: the home's half is given, this is the requester's. -/
def State.synchronises (s : State) (c x : Nat) (scope : BitVec 4) (r : Release) (home : Bool) : Bool :=
  home && s.inScope scope c x false r.core r.ctx
/-- An access read a value that a recorded release wrote: an acquire whose check fails sets chk bit 1, and a load
remembers the release for a later fence; an atomic or a WAITA is no load (R85, R86; log 57). -/
def State.noteRelease (s : State) (c x : Nat) (load : Bool) (acq : Option (BitVec 4)) (rel : Option (Release × Bool)) :
    State :=
  match rel, acq with
  | none, _ => s
  | some r, _ =>
    let failed := match acq with | some scope => !s.synchronises c x scope r.1 r.2 | none => false
    s.modCtx c x fun t =>
      let t := if failed then t.setChk 1 else t
      if !load || t.seen.contains r.1 then t else { t with seen := t.seen ++ [r.1] }

/-- The odd core of a pair checks the releases that the even core read for it (R85, R220). -/
def State.notePassed (s : State) (c x : Nat) (load : Bool) (acq : Option (BitVec 4)) (r : Passed) : State :=
  r.read.foldl (init := s) fun s q => s.noteRelease c x load acq (some q)

/-! ### Packets -/

/-- The packet of an access of the issuing context. -/
def State.packet (s : State) (w : Word) (pl : Place) (a : Act) (bad : Bool) (op : Option Nat) (part : Nat)
    (order : BitVec 2) (scope : BitVec 4) (group : Option Nat) : Packet :=
  let c := s.cur.1
  let home := pl.home
  let counted := if op.isSome || pl.isLocal then [] else s.plotsHolding c home
  { id := s.nextNum, core := c, ctx := s.cur.2, life := s.me.life, era := s.here.era, loc := w,
    pa := match pl with | .mem pa => some pa | _ => none,
    home := home, act := a, poison := bad, odi := s.odiOf c, op := op, part := part, order := order, scope := scope,
    counted := counted, bytes := a.size, group := group,
    noMerge := s.me.det || order == 2 || order == 3 || s.detPlot c home, isLocal := pl.isLocal }

/-- A packet to an isolated peer: a non-posted one completes with poisoned zeros, a posted one is dropped and counted
(R239). -/
def State.cutOff (s : State) (p : Packet) : State :=
  let s := { s with net := s.net.filter (·.id != p.id) }
  if p.op.isSome then s.answer p .lost (List.replicate p.act.size 0) true none
  else (s.count Count.droppedWrite (homeIndex p.home)).answer p .dropped [] true none
/-- Packets to an isolated peer end at once. -/
def State.cutIsolated (s : State) (p : Packet) : State :=
  match p.home with
  | .peer id => if (s.peer id).isolated then s.cutOff p else s
  | _ => s

/-- Put a packet on its way: pending-byte counts rise (R162), a multicast group's packets are counted (R171), a peer's
silence is measured from its first outstanding request (R239). -/
def State.launchPacket (s : State) (p : Packet) : State :=
  let s := match p.home with
    | .peer id => if s.net.any fun q => q.home == p.home then s else s.modPeer id fun r => { r with heard := s.cycle }
    | _ => s
  let s := match p.group with
    | some g => s.modCore p.core fun k =>
        { k with groups := Tab.update {} k.groups g fun (q : Group) => { q with pending := q.pending + 1 } }
    | none => s
  let p := { p with router := p.core, since := s.cycle }
  let s := (({ s with net := s.net ++ [p], nextNum := s.nextNum + 1 }).takeSlots .request p.id (linksOf p)).addPending p.core
    p.counted p.bytes
  (s.spendPacket p.core p.home (p.isLocal || p.engine) (p.op.isSome && p.act.readsOnly) p.bytes).cutIsolated p

/-- Put a numbered MEET on its way: its 128 bytes count for b0 (R162, R185). -/
def State.launchMeet (s : State) (m : MeetFlight) : State :=
  let t := ({ s with meets := s.meets ++ [m] }).takeSlots .meet m.id (linksAcross (dieOf m.core) (dieOf m.home))
  (t.addPending m.core [0] 128).spendPacket m.core (.localMem m.home) false false 128
def State.sendMeet (s : State) (m : MeetFlight) : State :=
  ({ s with nextNum := s.nextNum + 1 }).launchMeet { m with id := s.nextNum }
/-- Put a numbered message on its way. -/
def State.launchMsg (s : State) (m : MsgFlight) : State :=
  (({ s with msgs := s.msgs ++ [{ m with since := s.cycle }] }).takeSlots .message m.id (linksAcross (dieOfSource m.msg.src) (dieOf m.dst))).spendPacket
    m.msg.src (.localMem m.dst) false false 16
def State.sendMsg (s : State) (m : MsgFlight) : State :=
  ({ s with nextNum := s.nextNum + 1 }).launchMsg { m with id := s.nextNum }

/-- Send a posted packet, or hold it in the outbox of a paired core; none when the interval has to end first. -/
def State.sendPosted (s : State) (p : Packet) : Option State :=
  match s.here.pairing with
  | none => some (s.launchPacket p)
  | some q =>
    if s.cur.2 ≠ 0 then some (s.launchPacket p)
    else if q.outbox.length ≥ 32 then none
    else some (({ s with nextNum := s.nextNum + 1 }).modHere fun k =>
      { k with pairing := some { q with outbox := q.outbox ++ [Held.packet p] } })

/-- The bytes of a store as the fingerprint records them (R219). -/
def State.recordStore (s : State) (w : Word) (data : List Byte) : State :=
  s.modHere fun k =>
    { k with pairing := k.pairing.map fun q => { q with stores := q.stores ++ [(w, data.length, data)] } }

/-- The undo log takes the old contents of lines written for the first time in the interval (R220); none when it would
need a 257th line. -/
def State.logUndo (s : State) (offs : List Nat) : Option State :=
  match s.here.pairing with
  | none => some s
  | some q =>
    let m := s.here.store
    let lines := (offs.map (· / 64)).eraseDups.filter fun l => !(q.undo.any fun u => u.1 == l)
    if q.undo.length + lines.length > 256 then none
    else
      let entry := fun (l : Nat) =>
        (l, (m.bytes.read (64 * l) 64, (span (8 * l) 8).map fun n => Tab.get false m.poison n))
      some (s.modHere fun k => { k with pairing := some { q with undo := q.undo ++ lines.map entry } })

/-- Physical offsets of a checked on-chip place. -/
def State.offsetsOf (s : State) (pl : Place) (size : Nat) : List Nat :=
  match pl with
  | .chip lvl _ h _ off _ => let t := (s.storeAt pl.home).tile h; t.physAll lvl t.rot off size
  | .mem _ => []

/-- The home of a request that waits in the outbox. -/
def Held.homes (cl : Nat) : Held → List Home
  | .packet p => [p.home]
  | .packets ps => ps.map (·.home)
  | .message m => [.localMem m.dst]
  | .meet m => [.localMem m.home]
  | .final _ _ _ => []
  | .cbInit _ _ _ _ | .cbCommit _ | .cbFree _ => [.scratch cl]
/-- The outbox holds a request that a release at a scope waits for: the interval has to end first (R84, R220). -/
def State.heldBack (s : State) (scope : BitVec 4) : Bool :=
  match s.here.pairing with
  | some q => s.cur.2 == 0 && q.outbox.any fun h => (h.homes (clusterOf s.cur.1)).any fun m => s.homeInScope scope s.cur.1 m
  | none => false

/-- The place is the issuing core's own local memory, where accesses are performed at issue (R78). -/
def Place.atIssue (pl : Place) : Bool :=
  match pl with
  | .chip 0 _ _ _ _ l => l
  | _ => false

/-- A posted write or atomic to a checked place; `whole` is the access that it is a part of. -/
def State.post (s : State) (w : Word) (pl : Place) (a : Act) (bad : Bool) (order : BitVec 2) (scope : BitVec 4)
    (group : Option Nat) (whole : Option (Word × Nat) := none) : Option State :=
  let s := match a with
    | .write data _ => s.recordStore w data
    | .atomic _ n v _ => s.recordStore w (bytesOf n v)
    | .vadd _ _ data => s.recordStore w data
    | _ => s
  let p := { s.packet w pl a bad none 0 order scope group with whole := whole }
  if pl.atIssue then
    let offs := s.offsetsOf pl a.size
    if p.releaseOf.isSome && s.heldBack scope then none
    else (s.logUndo offs).map fun s => (s.actChip pl.home offs a bad p.releaseOf).1
  else s.sendPosted p

/-- `post`, ending the pairing interval when it has to end first. -/
def Res.ofPost (r : Option State) : Res :=
  match r with
  | some s => .done s
  | none => .interval

/-! ### Locations -/

/-- A home can perform a request of a rank now: its array is not being re-encoded or parked, and its port has served
nothing later in this cycle (R79, R214, R247). -/
def State.portFree (s : State) (h : Home) (rank : Nat) : Bool := !s.arrayBusy h && s.portOpen h rank

/-- Check a location and go on with its place: a fault traps with the location as tval, a missing translation
waits, a busy array of the own local memory and an exhausted budget stall (R211, R214). -/
def State.locate (s : State) (w : Word) (size align : Nat) (want : Want) (k : Place → Res) : Res :=
  match s.check s.cur.1 s.me.walkErr w size align want with
  | .trap c sub => .trap c sub w
  | .walk va => .wait (s.awaitWalk va want.code)
  | .ok p =>
    if p.atIssue && !s.portFree p.home 0 then .stall s
    else match s.accessStall s.cur.1 p want with
      | some b => .stall (s.budgetStall b.1 b.2)
      | none => k p
/-- Inject a message, a meeting or a multicast, unless a budget holds it back (R211). -/
def State.injecting (s : State) (k : Res) : Res :=
  match s.injectionStall s.cur.1 with
  | some b => .stall (s.budgetStall b.1 b.2)
  | none => k

/-- A place in a pod peer is refused with a permission fault (R236, R248, R258, R261). -/
def Place.offDevice (pl : Place) : Bool := match pl with | .mem pa => inPeer pa | _ => false

/-- The location lies in a page of a pod peer that the access may use: tested before its alignment (R64, R248). -/
def State.farPage (s : State) (w : Word) (want : Want) : Bool :=
  match s.check s.cur.1 s.me.walkErr w 1 1 want with
  | .ok pl => pl.offDevice
  | _ => false

/-! ### What replies write -/

/-- The poison and data of the parts in order. -/
def Op.data (o : Op) : List Byte × Bool :=
  ((sortBy (·.1) o.parts).flatMap (·.2.1), o.parts.any (·.2.2))

/-- A loaded scalar of a memory class, extended (R304). -/
def extend (cls : Nat) (bytes : List Byte) : Word :=
  let w := 8 * bytes.length
  let x := leNat bytes
  if cls % 2 = 1 && x ≥ 2 ^ (w - 1) then BitVec.ofInt 64 ((x : Int) - 2 ^ w) else BitVec.ofNat 64 x

/-- Elements of a loaded vector; narrow elements keep their `width` bits (R44, R358). -/
def unpack (tag : BitVec 5) (half : Bool) (width : Nat) (bytes : List Byte) (i : Nat) : Nat :=
  let w := if half then 4 else laneWidth tag
  leNat bytes / 2 ^ (w * i) % 2 ^ w % 2 ^ width

/-- Place a line of code in a half of the instruction buffer, which holds 128 lines: the half's least recently used one
goes, which stands first. No line is held twice (R20). -/
def Core.addLine (k : Core) (l : CodeLine) : Core :=
  let same := k.buffer.filter fun q => q.half == l.half
  let kept := if same.length < 128 then k.buffer else k.buffer.filter fun q => q.va != (same.head?.map (·.va)).getD 0
  if k.buffer.any fun q => q.va == l.va then k else { k with buffer := kept ++ [l] }

/-- Write an access's data to where it goes. -/
def State.deliver (s : State) (o : Op) : State :=
  let r := o.data
  let poison := r.2 || o.taint
  let ctx := fun (f : Context → Context) => s.modCtx o.core o.ctx f
  match o.dest with
  | .none => s
  | .scalar d cls => ctx fun x => x.writeG d (extend cls r.1) poison
  | .word d => ctx fun x => x.writeG d (BitVec.ofNat 64 (leNat r.1)) poison
  | .vector d tag half width km => ctx fun x =>
      let old := (x.readV d).bits
      x.writeV d { bits := blend km (laneWidth tag) old (unpack tag half width r.1), tag := tag, poison := poison }
  | .lanes d tag n => ctx fun x =>
      let old := (x.readV d).bits
      let got := fun i => (o.parts.find? fun q => q.1 == i).map fun q => leNat (q.2.1.take n)
      let bits := packVec (laneWidth tag) ((span 0 (laneCount tag)).map fun i => (got i).getD (lane old (laneWidth tag) i))
      x.writeV d { bits := bits, tag := tag, poison := poison }
  | .query d => ctx fun x =>
      let x := x.writeQ d (leBits 1024 r.1)
      if r.2 then x.setChk 0 else x
  | .code va half => s.modCore o.core fun k => k.addLine { va := va, bytes := r.1, poison := r.2, half := half }
  | .side key => ctx fun x => { x with side := x.side ++ [(key, (BitVec.ofNat 64 (leNat r.1), r.2))] }
  | .copied _ _ _ | .guard _ => s
  | .unit key => { s with unitLines := s.unitLines ++ [(key, r)] }
  | .tileRow serial row => s.modCore o.core fun k =>
      let mq := replaceWhere (fun e => e.serial == serial)
        (fun e => { e with rowData := e.rowData ++ [(row, r)], rowsOut := e.rowsOut.map (· - 1) }) k.mq
      { k with mq := mq }

/-- The register an access writes (R15). -/
def Dest.regs : Dest → List Reg
  | .scalar d _ | .word d => if d = 0 then [] else [.g d]
  | .vector d _ _ _ _ | .lanes d _ _ => [.v d]
  | .query d => [.q d]
  | _ => []

/-! ### Non-posted accesses -/

/-- The bytes of an outbox entry overlap those of a load (R221). -/
def overlaps (p q : Packet) : Bool :=
  let lo := fun (r : Packet) => match r.pa with | some pa => pa | none => chipOff r.loc
  p.home == q.home && (p.pa.isSome || chipHandle p.loc == chipHandle q.loc) &&
    lo p < lo q + q.act.size && lo q < lo p + p.act.size

/-- A held request overlaps one of some requests: the interval ends before them (R221). -/
def Held.meets (ps : List Packet) : Held → Bool
  | .packet p => ps.any (overlaps p)
  | .packets qs => qs.any fun p => ps.any (overlaps p)
  | _ => false

/-- A held request overlaps the requests of an access, near ones too: the interval ends before them (R221). -/
def State.meetsHeld (s : State) (reqs : List (Nat × Word × Place × Act)) : Bool :=
  match s.here.pairing with
  | some q => q.outbox.any (Held.meets (reqs.map fun r => s.packet r.2.1 r.2.2.1 r.2.2.2 false none 0 0 0 none))
  | none => false

/-- Number the parts of an access that leave the core. -/
def numberParts (n : Nat) : List Packet → List Packet
  | [] => []
  | p :: ps => { p with id := n } :: numberParts (n + 1) ps

/-- A non-posted access of one or more parts: parts in the core's own local memory are performed at once, the others
are sent; a WAITA on a word of the own local memory is read and armed at once (R78). The context is held when `hold`, else only the destination is awaited. A paired core's parts that leave it
are performed by the even core; the odd core takes what the even core received (R220). A WAITA is armed at its home
wherever that is (R93). -/
def State.ask (s : State) (reqs : List (Nat × Word × Place × Act)) (dest : Dest) (acq : Option (BitVec 4))
    (order : BitVec 2) (scope : BitVec 4) (bad hold taint waita : Bool) : Res :=
  let c := s.cur.1
  let x := s.cur.2
  let near := reqs.filter fun r => r.2.2.1.atIssue && !waita
  let far := reqs.filter fun r => !r.2.2.1.atIssue || waita
  let park := fun (n : Nat) => if waita then Wait.waita n else Wait.reply n
  let own := far.all fun r => r.2.2.1.atIssue
  let proto := s.packet 0 (.mem 0) (.read 0) bad none 0 order scope none
  if s.meetsHeld reqs then .interval
  else
  -- the undo log covers what an atomic of the own local memory writes
  let writes := near.flatMap fun r => match r.2.2.2 with | .read _ => [] | a => s.offsetsOf r.2.2.1 a.size
  match s.logUndo writes with
  | none => .interval
  | some s =>
    let now := near.foldl (init := (s, ([] : List (Nat × (List Byte × Bool))))) fun acc r =>
      let offs := acc.1.offsetsOf r.2.2.1 r.2.2.2.size
      let q := acc.1.actChip r.2.2.1.home offs r.2.2.2 bad proto.releaseOf
      let s := q.1.noteRelease c x r.2.2.2.isLoad acq
        (q.2.2.2.map fun rel => (rel, q.1.inScope rel.scope rel.core rel.ctx rel.isEngine c x))
      (s, acc.2 ++ [(r.1, (q.2.1, q.2.2.1))])
    let s := now.1
    let performed := fun (s : State) =>
      if own && waita then match s.net.getLast? with | some p => s.perform p | none => s else s
    let op : Op := { core := c, ctx := x, life := s.me.life, era := s.here.era, dest := dest,
                     loc := (reqs.head?.map fun r => r.2.1).getD 0, holds := hold, left := far.length, parts := now.2,
                     acq := acq, nack := none, taint := taint }
    if far = [] then .done (s.deliver op)
    else
      let opNum := s.nextNum
      let packets := numberParts (opNum + 1)
        (far.map fun r => { s.packet r.2.1 r.2.2.1 r.2.2.2 bad (some opNum) r.1 order scope none with
          whole := match dest with | .query _ => some (op.loc, 128) | _ => none })
      let send := fun (op : Op) =>
        performed (packets.foldl (init := { s with ops := Tab.put s.ops opNum (some op), nextNum := opNum + 1 })
          State.launchPacket)
      match s.here.pairing with
      | some q =>
        if q.even || own then
          .wait ((send { op with holds := true }).modMe fun t => { t with wait := park opNum })
        else
          match q.replies with
          | [] => .stall s
          | r :: rest =>
            let s := s.modHere fun k => { k with pairing := some { q with replies := rest } }
            match r.refused with
            -- the even core was refused by a window, and so is this one at the same location
            | some w => .gone (s.trap 0x07 0 w 4)
            | none =>
              let load := reqs.any fun r => r.2.2.2.isLoad
              .done ((s.notePassed c x load acq r).deliver { op with parts := op.parts ++ r.parts })
      | none =>
        if hold then .wait ((send op).modMe fun t => { t with wait := park opNum })
        else .done ((send op).modMe fun t => { t with loads := t.loads ++ dest.regs })

/-- A load of one location: remote on-chip loads and acquires hold the context (R59, R64). -/
def State.loadAt (s : State) (w : Word) (pl : Place) (size : Nat) (dest : Dest) (taint : Bool) : Res :=
  let hold := match pl with | .chip _ _ _ _ _ l => !l | .mem _ => false
  s.ask [(0, w, pl, .read size)] dest none 0 0 false hold taint false

/-! ### What a pair's even core performs for both (R220, R221) -/

/-- The even core of a pair passes a result on to the odd one, with a release that it read. -/
def State.passOn (s : State) (c x : Nat) (bytes : List Byte) (poison : Bool) (read : List (Release × Bool) := []) : State :=
  match (s.core c).pairing with
  | some p =>
    if !p.even || x ≠ 0 then s
    else s.modCore p.partner fun k => { k with pairing := k.pairing.map fun q =>
      { q with replies := q.replies ++ [{ parts := [(0, (bytes, poison))], read := read }] } }
  | none => s
/-- The issuer is the odd core of a pair. -/
def State.isOdd (s : State) : Bool := (s.here.pairing.map fun p => !p.even).getD false && s.cur.2 == 0
/-- The first result that has been passed on: its bytes and poison. -/
def Passed.value (r : Passed) : List Byte × Bool := (r.parts.head?.map (·.2)).getD ([], false)
/-- What the even core has passed on next. -/
def State.takePassed (s : State) : Option (Passed × State) :=
  match s.here.pairing with
  | some p => match p.replies with
    | r :: rest => some (r, s.modHere fun k => { k with pairing := some { p with replies := rest } })
    | [] => none
  | none => none
/-- The result that the even core has passed on. -/
def State.takeOver (s : State) : Option ((List Byte × Bool) × State) := s.takePassed.map fun r => (r.1.value, r.2)
/-- Hold something in the outbox of a pair, under the number that it is sent with; none when the interval has to end
first. -/
def State.hold (s : State) (h : Held) : Option State :=
  let h := match h with
    | .message m => .message { m with id := s.nextNum }
    | .meet m => .meet { m with id := s.nextNum }
    | h => h
  match s.here.pairing with
  | some p =>
    if p.outbox.length ≥ 32 then none
    else some (({ s with nextNum := s.nextNum + 1 }).modHere fun k =>
      { k with pairing := some { p with outbox := p.outbox ++ [h] } })
  | none => some s
/-- Hold the packets of one MCAST, numbered one after the other. -/
def State.holdPackets (s : State) (ps : List Packet) : Option State :=
  ({ s with nextNum := s.nextNum + ps.length }).hold (.packets (numberParts s.nextNum ps))
/-- The issuer's writes are held: it is the control context of a paired core. -/
def State.holdsBack (s : State) : Bool := s.here.pairing.isSome && s.cur.2 == 0

end Sys2Proof.Machine
end

