-- ==== Sys2Proof/Machine/Memory.lean ====
section
/-! DEFINITION. Loads, stores, gathers, atomics, fences, membership-register memory instructions and handles
(R56, R57, R83-R94, R181, R253-R258, R261, R291, R295, R297, R304, R305, R335, R347, R348, R357-R359). -/
namespace Sys2Proof.Machine

/-! ### LD, ST -/

/-- LD of a class (R304). -/
def State.doLd (s : State) (p : Bool) (d b : BitVec 6) (c : BitVec 5) (o : BitVec 7) : Res :=
  let size := classSize c
  let w := s.formatM b o size
  s.locate w size size .read fun pl => s.loadAt w pl size (.scalar d.toNat c.toNat) p
/-- ST of a class: the poison mark of the data register goes with the data (R347). -/
def State.doSt (s : State) (d b : BitVec 6) (c : BitVec 5) (o : BitVec 7) : Res :=
  let size := classSize c
  let w := s.formatM b o size
  s.locate w size size .write fun pl =>
    s.ordered 0 0 fun s ord scope =>
      let v := s.me.readG d.toNat
      Res.ofPost (s.post w pl (.write (bytesOf size v.bits) []) v.poison ord scope none)

def execLd (d b : BitVec 6) (c : BitVec 5) (o : BitVec 7) (s : State) : Host.Outcome State Fault Refusal :=
  issue (.ld d b c o) s fun p s => s.doLd p d b c o
def execLdG16 (d : BitVec 5) (b : BitVec 6) (s : State) : Host.Outcome State Fault Refusal :=
  issue (.ldG16 d b) s fun p s => s.doLd p (d.setWidth 6) b 6 0
def execSt (d b : BitVec 6) (c : BitVec 5) (o : BitVec 7) (s : State) : Host.Outcome State Fault Refusal :=
  issue (.st d b c o) s fun _ s => s.doSt d b c o
def execStG16 (d : BitVec 5) (b : BitVec 6) (s : State) : Host.Outcome State Fault Refusal :=
  issue (.stG16 d b) s fun _ s => s.doSt (d.setWidth 6) b 6 0

/-! ### VLD, VST -/

/-- Bits of an element of a memory class in memory: a nibble for narrow widths 1-4 (R44). -/
def State.elementBits (s : State) (c : BitVec 5) : Nat :=
  match s.me.narrow c with
  | some f => if isNarrow c && f.width ≤ 4 then 4 else laneWidth c
  | none => laneWidth c
/-- Significant bits of a narrow element; every bit of another. -/
def State.elementWidth (s : State) (c : BitVec 5) : Nat :=
  match s.me.narrow c with
  | some f => if isNarrow c then f.width else laneWidth c
  | none => laneWidth c

def execVld (d b : BitVec 6) (c : BitVec 5) (o : BitVec 7) (s : State) : Host.Outcome State Fault Refusal :=
  issue (.vld d b c o) s fun p s =>
    if s.me.badNarrow c then .trap 0x02 0 (formatVal 0 0 c)
    else
      let e := s.elementBits c
      let size := laneCount c * e / 8
      let w := s.formatM b o 64
      s.locate w size size .read fun pl =>
        s.loadAt w pl size (.vector d.toNat c (decide (e = 4)) (s.elementWidth c) s.me.km) p

def execVst (d b : BitVec 6) (c : BitVec 5) (o : BitVec 7) (s : State) : Host.Outcome State Fault Refusal :=
  issue (.vst d b c o) s fun _ s =>
    let v := s.v d.toNat
    if (c ≠ v.tag && !isRaw c) || s.me.badNarrow c then .trap 0x02 0 (formatVal v.tag 0 c)
    else
      let e := s.elementBits c
      let n := laneCount c
      let size := n * e / 8
      let w := s.formatM b o 64
      let width := s.elementWidth c
      let data := leBytes size (packNat e ((span 0 n).map fun i => lane v.bits (laneWidth c) i % 2 ^ width))
      let km := s.me.km
      let mask := leBytes size (packNat e ((span 0 n).map fun i => if km.getLsbD i then 2 ^ e - 1 else 0))
      s.locate w size size .write fun pl =>
        s.ordered 0 0 fun s ord scope => Res.ofPost (s.post w pl (.write data mask) v.poison ord scope none)

/-! ### VGTH, VSCT (R357) -/

def isGatherIndex (ty : BitVec 5) : Bool := ty == 2 || ty == 4 || ty == 6 || ty == 5 || ty == 7 || ty == 12

/-- Active lanes with their locations. -/
def State.gatherLanes (s : State) (base : Word) (ty : BitVec 5) (index : VVal) : List (Nat × Word) :=
  let size := laneWidth ty / 8
  (activeLanes s.me.km (min (laneCount ty) (laneCount index.tag))).map fun i =>
    let x := laneInt index.tag (lane index.bits (laneWidth index.tag) i)
    (i, addOffset base (BitVec.ofInt 64 (x * size)))

/-- Check lanes in ascending order; the first failure decides and nothing is performed. -/
def State.locateLanes (s : State) (size : Nat) (want : Want) (k : List (Nat × Word × Place) → Res) :
    List (Nat × Word) → List (Nat × Word × Place) → Res
  | [], acc => k acc.reverse
  | (i, w) :: rest, acc =>
    if s.farPage w want then .trap 0x06 0 w
    else s.locate w size size want fun pl => s.locateLanes size want k rest ((i, w, pl) :: acc)

/-- The format fault of a gather or scatter. A narrow data tag whose format register is invalid raises it too, which
neither R42 nor R357 says (log 87). -/
def State.gatherFault (s : State) (data index : BitVec 5) : Bool :=
  !isGatherIndex index || s.me.badNarrow data || (isNarrow data && s.elementBits data == 4)

/-- VGTH: vD keeps the tag that it gathers by (R357; log 88). -/
def execVgth (d b i : BitVec 6) (s : State) : Host.Outcome State Fault Refusal :=
  issue (.vgth d b i) s fun p s =>
    let ty := (s.v d.toNat).tag
    let index := s.v i.toNat
    if s.gatherFault ty index.tag then .trap 0x02 0 (formatVal index.tag 0 ty)
    else
      let size := laneWidth ty / 8
      s.locateLanes size .read (fun ls =>
        let hold := ls.any fun l => match l.2.2 with | .chip _ _ _ _ _ near => !near | .mem _ => false
        s.ask (ls.map fun l => (l.1, l.2.1, l.2.2, .read size)) (.lanes d.toNat ty size) none 0 0 false hold p false)
        (s.gatherLanes (s.g b.toNat) ty index) []

/-- Post lanes in ascending order. -/
def State.postLanes (data : VVal) (size : Nat) : List (Nat × Word × Place) → State → Option State
  | [], s => some s
  | (i, w, pl) :: rest, s =>
    (s.post w pl (.write (leBytes size (lane data.bits (8 * size) i)) []) data.poison 0 0 none).bind
      (State.postLanes data size rest)

def execVsct (d b i : BitVec 6) (s : State) : Host.Outcome State Fault Refusal :=
  issue (.vsct d b i) s fun _ s =>
    let data := s.v d.toNat
    let index := s.v i.toNat
    if s.gatherFault data.tag index.tag then .trap 0x02 0 (formatVal index.tag 0 data.tag)
    else
      let size := laneWidth data.tag / 8
      s.locateLanes size .write (fun ls => Res.ofPost (State.postLanes data size ls s))
        (s.gatherLanes (s.g b.toNat) data.tag index) []

/-! ### Atomics (R253, R255, R258, R261, R305, R348) -/

/-- A held access: remote on-chip, or an acquire (R59, R84). -/
def holds (pl : Place) (acq : Option (BitVec 4)) : Bool :=
  acq.isSome || match pl with | .chip _ _ _ _ _ near => !near | .mem _ => false
def acquireOf (o : BitVec 2) (scope : BitVec 4) : Option (BitVec 4) := if o = 1 || o = 3 then some scope else none

/-- An atomic of `bytes` bytes; with d = g0 it is posted. What the integer atomics of R253 return is poisoned as the home's
word was, whatever its operands were; ACAS and AFADD follow R108 (log 22). -/
def State.doAtomic (s : State) (p : Bool) (op bytes : Nat) (d a v : BitVec 6) (scope : BitVec 4) (o : BitVec 2) : Res :=
  let w := s.g a.toNat
  if op = 0x21 && s.farPage w .atomic then .trap 0x06 0 w
  else
    s.locate w bytes bytes .atomic fun pl =>
      s.ordered o scope fun s ord sc =>
        let val := s.me.readG v.toNat
        let act := Act.atomic op bytes val.bits (s.g d.toNat)
        if d = 0 then Res.ofPost (s.post w pl act val.poison ord sc none)
        else
          let acq := acquireOf o scope
          s.ask [(0, w, pl, act)] (.word d.toNat) acq ord sc val.poison (holds pl acq) (p && decide (0x20 ≤ op)) false

def execAadd (d a v : BitVec 6) (p : BitVec 4) (o : BitVec 2) (s : State) : Host.Outcome State Fault Refusal :=
  issue (.aadd d a v p o) s fun t s => s.doAtomic t 0x19 8 d a v p o
def execAand (d a v : BitVec 6) (p : BitVec 4) (o : BitVec 2) (s : State) : Host.Outcome State Fault Refusal :=
  issue (.aand d a v p o) s fun t s => s.doAtomic t 0x1A 8 d a v p o
def execAor (d a v : BitVec 6) (p : BitVec 4) (o : BitVec 2) (s : State) : Host.Outcome State Fault Refusal :=
  issue (.aor d a v p o) s fun t s => s.doAtomic t 0x1B 8 d a v p o
def execAxor (d a v : BitVec 6) (p : BitVec 4) (o : BitVec 2) (s : State) : Host.Outcome State Fault Refusal :=
  issue (.axor d a v p o) s fun t s => s.doAtomic t 0x1C 8 d a v p o
def execAmin (d a v : BitVec 6) (p : BitVec 4) (o : BitVec 2) (s : State) : Host.Outcome State Fault Refusal :=
  issue (.amin d a v p o) s fun t s => s.doAtomic t 0x1D 8 d a v p o
def execAmax (d a v : BitVec 6) (p : BitVec 4) (o : BitVec 2) (s : State) : Host.Outcome State Fault Refusal :=
  issue (.amax d a v p o) s fun t s => s.doAtomic t 0x1E 8 d a v p o
def execAxch (d a v : BitVec 6) (p : BitVec 4) (o : BitVec 2) (s : State) : Host.Outcome State Fault Refusal :=
  issue (.axch d a v p o) s fun t s => s.doAtomic t 0x1F 8 d a v p o
def execAcas (d a v : BitVec 6) (p : BitVec 4) (o : BitVec 2) (s : State) : Host.Outcome State Fault Refusal :=
  issue (.acas d a v p o) s fun t s => s.doAtomic t 0x20 8 d a v p o
def execAfadd (d a v : BitVec 6) (p : BitVec 4) (o : BitVec 2) (s : State) : Host.Outcome State Fault Refusal :=
  issue (.afadd d a v p o) s fun t s => s.doAtomic t 0x21 4 d a v p o

/-- AVADD: always posted; km travels with the packet (R261). -/
def execAvadd (a v : BitVec 6) (p : BitVec 4) (o : BitVec 2) (s : State) : Host.Outcome State Fault Refusal :=
  issue (.avadd a v p o) s fun _ s =>
    let x := s.v v.toNat
    let w := s.g a.toNat
    if !(isIntTag x.tag || isFloatTag x.tag) then .trap 0x02 0 (formatVal x.tag 0 0)
    else
      if s.farPage w .atomic then .trap 0x06 0 w
      else
        s.locate w 64 64 .atomic fun pl =>
          s.ordered o p fun s ord sc =>
            Res.ofPost (s.post w pl (.vadd x.tag s.me.km (vecBytes x.bits)) x.poison ord sc none)

def execLdaq (d a : BitVec 6) (p : BitVec 4) (o : BitVec 2) (s : State) : Host.Outcome State Fault Refusal :=
  issue (.ldaq d a p o) s fun t s =>
    let w := s.g a.toNat
    s.locate w 8 8 .atomic fun pl =>
      let acq := acquireOf o p
      s.ask [(0, w, pl, .read 8)] (.word d.toNat) acq 0 p false (holds pl acq) t false

/-- STRL: the context is held until the home confirms the write (R348). -/
def execStrl (a v : BitVec 6) (p : BitVec 4) (o : BitVec 2) (s : State) : Host.Outcome State Fault Refusal :=
  issue (.strl a v p o) s fun t s =>
    let w := s.g a.toNat
    s.locate w 8 8 .atomic fun pl =>
      s.ordered o p fun s ord sc =>
        let x := s.me.readG v.toNat
        match (s.recordStore w (bytesOf 8 x.bits)).ask [(0, w, pl, .write (bytesOf 8 x.bits) [])] .none none ord sc x.poison
          true t false with
        | .stall _ => .stall s
        | r => r

/-- WAITA: e15 is the timeout in cycles, 0 for none (R93, R359). -/
def execWaita (d a v : BitVec 6) (p : BitVec 4) (o : BitVec 2) (s : State) : Host.Outcome State Fault Refusal :=
  issue (.waita d a v p o) s fun t s =>
    let w := s.g a.toNat
    if s.farPage w .read then .trap 0x06 0 w
    else
      s.locate w 8 8 .read fun pl =>
        s.ask [(0, w, pl, .watch (s.g v.toNat) (s.me.readE 15).toNat)] (.word d.toNat) (acquireOf o p) 0 p false true t
          true

/-! ### FENCE (R86, R291, R366) -/

/-- A packet of the issuing context, or one that has absorbed such a packet. -/
def State.mine (s : State) (p : Packet) : Bool :=
  (p.core == s.cur.1 && p.ctx == s.cur.2 && p.life == s.me.life && p.row.isNone) ||
    p.merged.any fun m => m.1 == s.cur.1 && m.2.1 == s.cur.2 && m.2.2.1 == s.me.life
def Act.isAtomic : Act → Bool
  | .atomic .. | .vadd .. => true
  | _ => false
/-- Loads, atomics and WAITAs of the context have been performed and their replies have come. -/
def State.loadsDone (s : State) : Bool :=
  s.net.all (fun p => !s.mine p || (p.op.isNone && !p.act.isAtomic)) &&
    s.ops.all fun e => match e.2 with
      | some o => o.core != s.cur.1 || o.ctx != s.cur.2 || o.life != s.me.life
      | none => true
/-- The condition of a fence kind (Table 4.3). -/
def State.fenceMet (s : State) (scope : BitVec 4) (kind : BitVec 2) : Bool :=
  match kind.toNat with
  | 1 => s.loadsDone
  | 3 => s.net.all fun p => !s.mine p || p.op.isSome || p.isLocal
  | _ => s.released scope s.cur.1 s.cur.2
/-- Releases that loads of the context have read, those among them whose replies are on their way. -/
def State.seenNow (s : State) : List Release :=
  s.me.seen ++ s.replies.filterMap fun r =>
    if s.mine r.packet && r.packet.op.isSome && r.packet.act.isLoad && r.answer == .done then r.release.map (·.1) else none
/-- Earlier loads that read recorded releases count as acquires at the fence's scope, at every fence after them. -/
def State.fenceAcquire (s : State) (scope : BitVec 4) : State :=
  let c := s.cur.1
  let x := s.cur.2
  let ok := s.seenNow.all fun r => s.synchronises c x scope r (s.inScope r.scope r.core r.ctx r.isEngine c x)
  s.modMe fun t => if ok then t else t.setChk 1

def execFence (p : BitVec 4) (k : BitVec 2) (s : State) : Host.Outcome State Fault Refusal :=
  issue (.fence p k) s fun _ s =>
    if !s.fenceMet p k then .stall s
    else
      let s := if k = 0 || k = 1 then s.fenceAcquire p else s
      .done (if k = 0 || k = 2 then s.modMe fun t => { t with relMark := some p } else s)

/-! ### QLD, QST (R181, R335) -/

/-- The place 64 bytes on. -/
def Place.nextLine : Place → Place
  | .chip l c h g off near => .chip l c h g (off + 64) near
  | .mem pa => .mem (pa + 64)

def execQld (d a : BitVec 6) (s : State) : Host.Outcome State Fault Refusal :=
  issue (.qld d a) s fun p s =>
    let w := s.g a.toNat
    s.locate w 128 128 .read fun pl =>
      s.ask [(0, w, pl, .read 64), (1, addOffset w 64, pl.nextLine, .read 64)] (.query d.toNat) none 0 0 false
        (holds pl none) p false
def execQst (d a : BitVec 6) (s : State) : Host.Outcome State Fault Refusal :=
  issue (.qst d a) s fun _ s =>
    let w := s.g a.toNat
    let bytes := bytesOf 128 (s.me.readQ d.toNat)
    s.locate w 128 128 .write fun pl =>
      s.ordered 0 0 fun s ord sc =>
        let whole := some (w, 128)
        Res.ofPost ((s.post w pl (.write (bytes.take 64) []) false ord sc none whole).bind fun s =>
          s.post (addOffset w 64) pl.nextLine (.write (bytes.drop 64) []) false ord sc none whole)

/-! ### Handles (R55-R57) -/

/-- The storage of a level that belongs to a core. -/
def levelHome (level c : Nat) : Home := if level = 0 then .localMem c else .scratch (clusterOf c)
def granuleCount (level : Nat) : Nat := if level = 0 then Config.localGranules else Config.scratchGranules
/-- Granules that no handle holds, lowest first. -/
def Store.freeGranules (m : Store) (level : Nat) : List Nat :=
  let used := m.tiles.flatMap fun e => e.2.granules
  (span 0 (granuleCount level)).filter fun g => !used.contains g
/-- Allocate the lowest free handle: its number and the store. Which granules it takes is the model's choice (log 31). -/
def Store.alloc (m : Store) (level rows rowBytes rot : Nat) : Option (Nat × Store) :=
  let need := (rows * rowBytes + granule level - 1) / granule level
  let free := m.freeGranules level
  match (span 1 4095).find? fun h => !(m.tile h).used with
  | none => none
  | some h =>
    if need > free.length then none
    else
      let t : TileEntry := { used := true, gen := (m.tile h).gen, rows := rows, rowBytes := rowBytes, rot := rot,
                             granules := free.take need }
      some (h, { m with tiles := Tab.put m.tiles h t })
/-- The contents of a new handle are unspecified: each byte is what its granule last held, or zero (R56, log 31). -/
def State.blur (s : State) (h : Home) (level : Nat) (gs : List Nat) : State :=
  let m := s.storeAt h
  let bytes := m.bytes.filter fun c => !gs.contains (c.1 / granule level) || Config.freeBool (s.freeCtr + c.1)
  let t := s.setStore h { m with bytes := bytes }
  { t with freeCtr := s.freeCtr + 2 ^ 21 }

def execHalloc (d a : BitVec 6) (n : BitVec 4) (s : State) : Host.Outcome State Fault Refusal :=
  issue (.halloc d a n) s fun p s =>
    let rows := (s.g a.toNat).toNat
    let e := s.me.readE n.toNat
    let rb := bitsN e 10 0
    let level := bitsN e 17 16
    let rot := bitsN e 23 20
    if rows = 0 || rb = 0 || rb > 1024 || level > 1 || rot > 5 || (level = 0 && rot ≠ 0) || e &&& 0xF307FF ≠ e then
      .trap 0x09 5 e
    else
      let c := s.cur.1
      let h := levelHome level c
      if level = 1 && s.isOdd then
        match s.takeOver with
        | some (r, s) => .done (s.writeG d.toNat (leBits 64 r.1) p)
        | none => .stall s
      else if level = 1 && !s.portOpen h (messageRank c) then .stall s
      else
      -- requests that reach a scratchpad's table in one cycle are served by core number (R56)
      let s := if level = 1 then s.arriveAt h (messageRank c) else s
      match (s.storeAt h).alloc level rows (64 * rb) rot with
      | none =>
        let s := if level = 1 then s.passOn c s.cur.2 (bytesOf 8 (0 : Word)) false else s
        .done (s.writeG d.toNat 0 p)
      | some (n, m) =>
        let t := m.tile n
        let w := BitVec.ofNat 64 (2 ^ 63 + level * 2 ^ 61 + s.here.idOf c * 2 ^ 48 + n * 2 ^ 36 + t.gen.toNat * 2 ^ 32)
        let s := (s.setStore h m).blur h level t.granules
        .done ((if level = 1 then s.passOn c s.cur.2 (bytesOf 8 w) false else s).writeG d.toNat w p)

/-- A location word names a handle of a core's local memory or cluster's scratchpad. -/
def namesHandle (level c h : Nat) (w : Word) : Bool :=
  isChip w && chipLevel w == level && chipHandle w == h &&
    (if level = 0 then namedCore c w == c else clusterOf (namedCore c w) == clusterOf c)
/-- Unfinished entries of a core's queues name the handle (R57). -/
def Core.queuesName (k : Core) (level c h : Nat) : Bool :=
  let names := namesHandle level c h
  (k.mq.any fun e => (e.a.group.isNone && names e.a.loc) || (e.b.group.isNone && names e.b.loc)) ||
    k.eqs.any fun q =>
      (q.2.entries ++ (q.2.running.map (·.entry)).toList).any fun e =>
        names (e.fields.getD 0 0) || names (e.fields.getD 1 0) || names (e.fields.getD 7 0)
/-- Held SPLIT records stand in the handle (R189). -/
def Core.holdsRecords (k : Core) (h : Nat) : Bool :=
  (k.oldHolds ++ k.holding.toList).any fun q => q.handle == h && q.slots != []

/-- Free a handle: the next generation, no granules. -/
def State.freeHandle (s : State) (home : Home) (h : Nat) : State :=
  let m := s.storeAt home
  let t := m.tile h
  s.setStore home { m with tiles := Tab.put m.tiles h { gen := t.gen + 1 } }

def execHfree (a : BitVec 6) (s : State) : Host.Outcome State Fault Refusal :=
  issue (.hfree a) s fun _ s =>
    let w := s.g a.toNat
    let c := s.cur.1
    let level := chipLevel w
    let core := s.named c w
    let h := chipHandle w
    if !isChip w || level > 1 || core > 4095 || h = 0 then .trap 0x09 4 w
    else if (level = 0 && core ≠ c) || (level = 1 && clusterOf core ≠ clusterOf c) then .trap 0x09 6 w
    else
      let home := levelHome level c
      let t := (s.storeAt home).tile h
      -- a fault that the even core of a pair takes, the odd core takes as well (R220)
      let fault := fun (sub : BitVec 8) =>
        if level = 1 && s.holdsBack then
          if s.me.loads = [] then .gone ((s.passOn c s.cur.2 (bytesOf 1 sub) false).trap 0x09 sub w 4) else .stall s
        else .trap 0x09 sub w
      if level = 1 && s.isOdd then
        match s.takeOver with
        | some (r, t) =>
          if r.1 = [] then .done t
          else if s.me.loads = [] then .gone (t.trap 0x09 (leBits 8 r.1) w 4) else .stall s
        | none => .stall s
      else if !t.used then fault 1
      else if t.gen ≠ chipGen w then fault 2
      else if level = 0 && s.here.holdsRecords h then .trap 0x09 6 w
      else if s.here.queuesName level c h then .stall s
      else
        let s := s.freeHandle home h
        let s := if level = 1 then s.passOn c s.cur.2 [] false else s
        .done (s.modHere fun k =>
          { k with holding := if level = 0 && (k.holding.map (·.handle)) == some h then none else k.holding })

end Sys2Proof.Machine
end

