-- ==== Sys2Proof/Machine/Units.lean ====
section
/-! DEFINITION. Reads and writes of main memory by what is not a context: the distributors, the interpreters, the
reconstruction units and the headgate (R193-R196, R203, R206). They carry a partition's domain. -/
namespace Sys2Proof.Machine

/-- What a unit's read gives. -/
inductive UnitRead where
  | ok (bytes : List Byte) (poison : Bool)
  /-- Translation or permission failed. -/
  | failed
  /-- The shared translation agent has to answer first (R238). -/
  | ask
  deriving DecidableEq, Repr

/-- The die and the domain with which a partition's units act: those of its lowest-numbered core. -/
def State.partCores (s : State) (p : Nat) : List Nat :=
  ((s.part p).map fun q => sortBy id (q.clusters.flatMap clusterCores)).getD []
def State.partDie (s : State) (p : Nat) : Nat := dieOf ((s.partCores p).headD 0)
/-- The translation space of a partition. -/
def State.partSpace (s : State) (p : Nat) : Nat := spaceFor p (((s.part p).map (·.odi)).getD 0)

/-- Ask the shared translation agent for a page with an access kind, with nobody waiting (R238). -/
def State.askShared (s : State) (die space va kind : Nat) : State :=
  let page := va / 4096 * 4096
  if s.stas.any fun r => r.space == space && r.va == page && !r.refused then s
  else
    let stas := s.stas.filter fun r => !(r.refused && r.space == space && r.va == page)
    let tag := s.nextNum
    let req : StaReq :=
      { tag := tag, space := space, va := page, die := die, since := s.cycle, kind := kind, waiters := [], stale := false }
    let body := OutBody.staRequest tag (space % 16) page kind
    let out : Out := { id := tag + 1, dst := .peer s.firmware.agent, body := body, core := none, acked := false }
    { s with stas := stas ++ [req], outbox := s.outbox ++ [out], nextNum := tag + 2 }

/-- A packet of a partition's unit to a pod peer. -/
def State.unitPacket (s : State) (space : Nat) (w : Word) (pa : Nat) (a : Act) (poison : Bool) (op : Option Nat)
    (rel : Option Release) (result : Option Nat := none) : Packet :=
  { id := s.nextNum, core := 4096, ctx := space / 16, life := 0, era := 0, loc := w, pa := some pa, home := .peer (peerOf pa),
    act := a, poison := poison, odi := space % 16, op := op, part := 0, order := if rel.isSome then 2 else 0,
    scope := (rel.map (·.scope)).getD 0, counted := [], bytes := a.size, group := none, noMerge := true, isLocal := false,
    result := result }

/-- Ask a pod peer for bytes within a line that a unit or a walk needs, for a virtual address; they are kept under a number
until they are used (R193; log 40). A request of these bytes that is on its way is not made again. -/
def State.askUnit (s : State) (space key va pa n : Nat) : State :=
  if s.ops.any fun e => match e.2 with | some o => o.dest == Dest.unit key | none => false then s
  else if !s.budgetLeft 7 (peerOf pa) then s.budgetStall 7 (peerOf pa)
  else
    let num := s.nextNum
    let op : Op := { core := 4096, ctx := space / 16, life := 0, era := 0, dest := .unit key, loc := BitVec.ofNat 64 va,
                     holds := false, left := 1, parts := [], acq := none, nack := none, taint := false }
    let t : State := { s with ops := Tab.put s.ops num (some op), nextNum := num + 1 }
    t.launchPacket (t.unitPacket space (BitVec.ofNat 64 va) pa (.read n) false (some num) none)

/-- What a unit or an engine does about a translation that it cannot make now: it asks the shared agent, or the pod peer
in which an entry lies, and waits for a parked stack (R65, R238, R247). -/
def State.seek (s : State) (die space va : Nat) (want : Want) : State :=
  match (s.walk die space va).1 with
  | .peer pa => s.askUnit space (tableKey pa) va pa 8
  | .shared => s.askShared die space va want.code
  | _ => s
/-- Entries read from pod peers have served. -/
def State.dropTables (s : State) : State := { s with unitLines := s.unitLines.filter fun q => decide (q.1 < 2 ^ 60) }

/-- Bytes that have come from a pod peer for a unit. -/
def State.unitBytes (s : State) (pa n : Nat) : Option (List Byte × Bool) :=
  (s.unitLines.find? fun q => q.1 == pa && decide (n ≤ q.2.1.length)).map fun q => (q.2.1.take n, q.2.2)

/-- Read `n` bytes by pieces that end at line boundaries, with a rank: this device's memory at once, when the port and the
channel serve the reader in this cycle, a pod peer's by requests (R79, R193, R247). -/
def State.unitReadAs (s : State) (rank die space : Nat) : Nat → Word → Nat → UnitRead × State
  | 0, _, _ => (.ok [] false, s)
  | fuel + 1, w, n =>
    if n = 0 then (.ok [] false, s)
    else
      match s.translateNow die space w .read with
      | .failed => (.failed, (s.walkFailed die space w).dropTables)
      | .ask => (.ask, s.seek die space (bitsN w 56 0) .read)
      | .ok pa =>
        let k := min n (64 - bitsN w 5 0)
        let h := Home.channel (channelOf pa)
        if inPeer pa then
          match s.unitBytes pa k with
          | none => (.ask, s.askUnit space pa (bitsN w 56 0) pa k)
          | some q =>
            match s.unitReadAs rank die space fuel (w + BitVec.ofNat 64 k) (n - k) with
            | (.ok bs p, s) => (.ok (q.1 ++ bs) (q.2 || p), { s with unitLines := s.unitLines.filter fun l => l.1 != pa })
            | r => r
        else if !s.portFree h rank then (.ask, s)
        else
          let r := (s.arriveAt h rank).actDram (space % 16) pa (.read k) false none
          match r.1.unitReadAs rank die space fuel (w + BitVec.ofNat 64 k) (n - k) with
          | (.ok bs p, s) => (.ok (r.2.1 ++ bs) (r.2.2.1 || p), s.dropTables)
          | q => q

/-- A unit's read. -/
def State.unitRead (s : State) (die space fuel : Nat) (w : Word) (n : Nat) : UnitRead × State :=
  s.unitReadAs unitRank die space fuel w n
/-- Read `n` bytes for a partition's unit. -/
def State.partRead (s : State) (p : Nat) (w : Word) (n : Nat) : UnitRead × State :=
  s.unitRead (s.partDie p) (s.partSpace p) (n / 64 + 2) w n

/-- What a unit's write came to. -/
inductive UnitWrite where
  | done | dropped | ask
  deriving DecidableEq, Repr

/-- What a unit does that cannot write a line now: the translation, the port, the channel or the peer's budget is waited
for. None when it can. -/
def State.unitBlocked (s : State) (die space : Nat) (w : Word) (rank : Nat := unitRank) : Option State :=
  match s.translateNow die space w .write with
  | .failed => none
  | .ask => some (s.seek die space (bitsN w 56 0) .write)
  | .ok pa =>
    if inPeer pa then if s.budgetLeft 1 (peerOf pa) then none else some (s.budgetStall 1 (peerOf pa))
    else if s.portFree (.channel (channelOf pa)) rank then none else some s

/-- Write bytes within a line, as a release or not, once nothing blocks it: a failed write is dropped and counted, a peer's
line is written by a posted packet, which names the launch whose result it is. True when it was not dropped. -/
def State.unitPut (s : State) (die space : Nat) (w : Word) (data : List Byte) (poison : Bool) (rel : Option Release)
    (rank : Nat := unitRank) (result : Option Nat := none) : Bool × State :=
  match s.translateNow die space w .write with
  | .ok pa =>
    if inPeer pa then (true, (s.launchPacket (s.unitPacket space w pa (.write data []) poison none rel result)).dropTables)
    else
      let r := (s.arriveAt (.channel (channelOf pa)) rank).actDram (space % 16) pa (.write data []) poison rel
      (s.owned (space % 16) pa, r.1.dropTables)
  | _ => (false, ((s.walkFailed die space w).dropTables).count Count.droppedWrite 0)

/-- Write bytes within a line when that can be done now. -/
def State.unitWrite (s : State) (die space : Nat) (w : Word) (data : List Byte) (poison : Bool) (rel : Option Release) :
    UnitWrite × State :=
  match s.unitBlocked die space w with
  | some t => (.ask, t)
  | none => let r := s.unitPut die space w data poison rel; (if r.1 then .done else .dropped, r.2)

/-- A release made by a unit, at a scope (R193, R203). -/
def unitRelease (scope : BitVec 4) : Release := { core := 4096, ctx := 0, isEngine := true, scope := scope }

/-- Cut `n` bytes from an address into pieces within lines: offset and length. -/
def linePieces (at' : Word) : Nat → Nat → Nat → List (Nat × Nat)
  | 0, _, _ => []
  | fuel + 1, off, n =>
    if n = 0 then []
    else
      let k := min n (64 - bitsN (at' + BitVec.ofNat 64 off) 5 0)
      (off, k) :: linePieces at' fuel (off + k) (n - k)
/-- Write bytes at an address line by line, each when nothing blocks any of them. -/
def State.unitStore (s : State) (die space : Nat) (at' : Word) (data : List Byte) (rank : Nat := unitRank) :
    UnitWrite × State :=
  let pieces := linePieces at' (data.length / 64 + 2) 0 data.length
  match pieces.findSome? fun p => s.unitBlocked die space (at' + BitVec.ofNat 64 p.1) rank with
  | some t => (.ask, t)
  | none => pieces.foldl (init := (.done, s)) fun r p =>
    let q := r.2.unitPut die space (at' + BitVec.ofNat 64 p.1) ((data.drop p.1).take p.2) false none rank
    (if q.1 then r.1 else .dropped, q.2)

/-- Little-endian fields of a block of bytes. -/
def fieldAt (bs : List Byte) (off n : Nat) : Nat := leNat ((bs.drop off).take n)
def wordAt (bs : List Byte) (off : Nat) : Word := BitVec.ofNat 64 (fieldAt bs off 8)

/-! ### What is sent to hosts and peers (R229, R235) -/

/-- Bytes that a transmission counts in a host's budget (log 44). -/
def OutBody.size : OutBody → Nat
  | .store _ data => data.length
  | .completion data _ _ _ => data.length
  | _ => 64
/-- Send something; a host's budget that is used up holds it back until the next period (R211). -/
def State.send (s : State) (dst : Sender) (body : OutBody) : State :=
  let free := match dst with | .host h => s.budgetLeft 2 h | .peer _ => true
  let out : Out := { id := s.nextNum, dst := dst, body := body, core := none, acked := false, sent := free }
  let t : State := { s with outbox := s.outbox ++ [out], nextNum := s.nextNum + 1 }
  match dst with
  | .host h => if free then t.spend 2 h body.size else t.budgetStall 2 h
  | .peer _ => t
/-- In a new period what was held back goes out, oldest first. -/
def State.sendStalled (s : State) : State :=
  (s.outbox.filter fun o => !o.sent).foldl (init := s) fun s o =>
    match o.dst with
    | .host h =>
      if s.budgetLeft 2 h then
        ({ s with outbox := replaceWhere (·.id == o.id) (fun q => { q with sent := true }) s.outbox }).spend 2 h o.body.size
      else s.budgetStall 2 h
    | .peer _ => s

/-- A field of a packet that the device sends. -/
def outField (type : BitVec 12) (value : List Byte) : TlvField :=
  { type := type, mandatory := true, reserved := 0, length := value.length, value := value }
/-- A packet of a class with further fields. -/
def State.sendTlv (s : State) (dst : Sender) (cls : Nat) (fields : List TlvField) : State :=
  s.send dst (.tlv (outField 0x001 (leBytes 1 cls) :: fields))
/-- A reply: the class, the sequence that the request carried, and a status (Table 16.5). -/
def State.replyStatus (s : State) (dst : Sender) (cls : Nat) (sequence : List Byte) (status : Nat) : State :=
  s.sendTlv dst cls ((if sequence = [] then [] else [outField 0x002 sequence]) ++ [outField 0x003 (leBytes 4 status)])
/-- A notice to the owning hosts of every partition (R239, R243). -/
def State.hostsToTell (s : State) : List Nat :=
  (s.parts.filterMap fun e => e.2.map (·.host)).eraseDups
def State.noticeHosts (s : State) (fields : List TlvField) : State :=
  s.hostsToTell.foldl (init := s) fun s h => s.sendTlv (.host h) 5 fields

/-- A host-side address: no virtual address, its bits 62:57 all ones (R229; log 90). -/
def hostSide (w : Word) : Bool := !isChip w && bitsN w 62 57 == 63
/-- A completion signal to a host-side address is a message to the owning host of a partition (R229). -/
def State.signalHost (s : State) (part : Nat) (w : Word) (data : List Byte) : State :=
  match s.part part with
  | some p => s.send (.host p.host) (.store w data)
  | none => s

/-! ### Corrected errors (R212, R215) -/

/-- A corrected error of a device of a channel: its lines are remembered, and more than 1,024 of them make it failed. A
failed device's symbols are erasures: what it gives is no corrected error any more. -/
def State.noteDevice (s : State) (line device : Nat) : State :=
  let ch := channelOf (line * 64)
  let key := ch * 256 + device
  let k : Stack := Tab.get {} s.dramStacks (ch / 64)
  if k.failed.contains key then s
  else
    let lines := insertNat line (Tab.get [] k.lines key)
    let fails := decide (lines.length > 1024)
    let k := { k with lines := Tab.put k.lines key lines, failed := if fails then insertNat key k.failed else k.failed }
    let s := ({ s with dramStacks := Tab.put s.dramStacks (ch / 64) k }).count Count.dramCorrected (ch / 64)
    if fails then s.noticeHosts [outField 0x040 (leBytes 4 ch ++ leBytes 4 device)] else s
/-- An access has met an error that its home corrected; in main memory it was a device's. -/
def State.corrected (s : State) (p : Packet) (device : Nat) : State :=
  match p.home with
  | .localMem c => s.count Count.sramCorrected c
  | .scratch n => s.count Count.sramCorrectedCluster n
  | .channel _ => s.noteDevice (p.pa.getD 0 / 64) device
  | .peer _ => s
/-- An error has been corrected at an access without a request, or at a re-encode (R212, R214). -/
def State.correctedAlone (s : State) : Correction → State
  | .device _ => s
  | .array (.localMemory c) => s.count Count.sramCorrected c
  | .array (.scratchpad n) => s.count Count.sramCorrectedCluster n
  | .line pa device => s.noteDevice (pa / 64) device

end Sys2Proof.Machine
end

