-- ==== Sys2Proof/Machine/Launch.lean ====
section
/-! DEFINITION. Launches: points and task records, coverage lattices, placement and delivery of tasks, their report,
redelivery, static handles, rebalancing, priorities and completion (R27, R109, R114, R120, R196-R205, R207, R209, R227). -/
namespace Sys2Proof.Machine

/-! ### Points and lattices (R196, R204, R207) -/

def StageDesc.points (d : StageDesc) : Nat := d.i * d.j * d.k
/-- Points of a plot group (R201). -/
def StageDesc.group (d : StageDesc) : Nat := if d.plotW = 0 then 1 else d.plotW * d.plotH
/-- Scan order: k, then i, then j. -/
def StageDesc.kOf (d : StageDesc) (n : Nat) : Nat := n / (d.i * d.j)
def StageDesc.iOf (d : StageDesc) (n : Nat) : Nat := n / d.j % d.i
def StageDesc.jOf (d : StageDesc) (n : Nat) : Nat := n % d.j
/-- A point's result location (R196). -/
def StageDesc.resultAt (d : StageDesc) (n : Nat) : Word :=
  if d.rtype = 255 then 0 else d.result + BitVec.ofNat 64 (n * d.tile)

/-- The lattice of a code (Table 13.4). -/
def onLattice (code i j : Nat) : Bool :=
  match code with
  | 0 => true
  | 1 => !(i % 2 == 1 && j % 2 == 1)
  | 2 => (i + j) % 2 == 0
  | 3 => i % 2 == 0 && j % 2 == 0
  | 4 => i % 2 == 0 && j % 2 == 0 && (i / 2 + j / 2) % 2 == 0
  | 5 => i % 4 == 0 && j % 4 == 0
  | 6 => i % 4 == 0 && j % 4 == 0 && (i / 4 + j / 4) % 2 == 0
  | _ => i % 8 == 0 && j % 8 == 0

/-- Bands of H rows, the last one shortened. -/
def Launch.bandCount (l : Launch) (d : StageDesc) : Nat := (d.i + l.height - 1) / l.height
def Launch.bandOf (l : Launch) (d : StageDesc) (n : Nat) : Nat := d.iOf n / l.height
/-- The band's last row, counted from its first. -/
def Launch.lastRow (l : Launch) (d : StageDesc) (b : Nat) : Nat := min l.height (d.i - b * l.height) - 1
/-- The points of a band in scan order. -/
def Launch.bandPoints (l : Launch) (d : StageDesc) (b : Nat) : List Nat :=
  span (b * l.height * d.j) ((l.lastRow d b + 1) * d.j)
/-- A point that a code computes. -/
def Launch.computed (l : Launch) (d : StageDesc) (code n : Nat) : Bool :=
  let b := l.bandOf d n
  let i := d.iOf n - b * l.height
  onLattice code i (d.jOf n) || i == 0 || i == l.lastRow d b || (d.j > 1 && d.jOf n == d.j - 1)
def Launch.skipped (l : Launch) (d : StageDesc) (code b : Nat) : List Nat :=
  (l.bandPoints d b).filter fun n => !l.computed d code n
/-- Skipped points whose rank is a multiple of the sample period (R207). -/
def Launch.samples (l : Launch) (d : StageDesc) (code b : Nat) : List Nat :=
  ((l.skipped d code b).zipIdx.filter fun e => e.2 % l.period == 0).map (·.1)
/-- What the walker emits for a band: computed and sample points in scan order (R205). -/
def Launch.emits (l : Launch) (d : StageDesc) (code b : Nat) : List Nat :=
  let samples := l.samples d code b
  (l.bandPoints d b).filter fun n => l.computed d code n || samples.contains n

/-! ### Stages -/

def StageRun.codeOf (r : StageRun) (b : Nat) : Nat := ((Tab.get none (r.bands.map fun e => (e.1, some e.2)) b).map (·.code)).getD 0
def StageRun.complete (r : StageRun) : Bool := r.done.length == r.desc.points
def Launch.stage (l : Launch) (n : Nat) : Option StageRun := l.stages[n]?
def Launch.modStage (l : Launch) (n : Nat) (f : StageRun → StageRun) : Launch :=
  { l with stages := l.stages.zipIdx.map fun e => if e.2 == n then f e.1 else e.1 }
def State.modStage (s : State) (l n : Nat) (f : StageRun → StageRun) : State :=
  s.modLaunch l fun q => q.modStage n f
def State.stageOf (s : State) (l n : Nat) : Option StageRun := (s.launch l).bind fun q => q.stage n
/-- A launch's status never falls (R203). -/
def State.launchError (s : State) (l : Nat) : State := s.modLaunch l fun q => { q with status := max q.status 1 }

/-- Emitted points below a point: its index in emission order (R227). -/
def Launch.emission (l : Launch) (r : StageRun) (n : Nat) : Nat :=
  let d := r.desc
  if !d.coverage then n
  else
    let b := l.bandOf d n
    let before := (span 0 b).map fun q => (l.emits d (r.codeOf q) q).length
    before.foldl (· + ·) ((l.emits d (r.codeOf b) b).filter (· < n)).length
/-- How many points the stage emits in all, once that is fixed. -/
def Launch.emittedAll (l : Launch) (r : StageRun) : Option Nat :=
  let d := r.desc
  if !d.coverage then some d.points
  else if r.bands.length < l.bandCount d then none
  else some (((span 0 (l.bandCount d)).map fun q => (l.emits d (r.codeOf q) q).length).foldl (· + ·) 0)

/-- Points ready and not dispatched, in order: those set aside, and the first that the walker has not passed. -/
def StageRun.waiting (r : StageRun) : List Nat :=
  r.ready ++ span r.walked (min r.desc.group (r.desc.points - r.walked))
/-- A launch that holds a ready point. -/
def Launch.hasReady (l : Launch) : Bool := l.stages.any fun r => !r.waiting.isEmpty || r.retries != []
/-- A launch that held no ready point before and holds one now waits from now on (R200). -/
def State.waitFrom (s old : State) (n : Nat) : State :=
  s.modLaunch n fun l =>
    if l.hasReady && !((old.launch n).map (·.hasReady)).getD false then { l with waited := s.cycle, aged := 0 } else l
/-- Points of a stage in flight: both tasks of a pair are one point's. -/
def StageRun.points (r : StageRun) : List Nat := (r.flight.map (·.1)).eraseDups
/-- The count of a stage's input queue: the points that are ready, those of bands that have not started among them
(R198). -/
def Launch.queued (l : Launch) (stage : Nat) (r : StageRun) : Nat :=
  let later := if stage = 0 || !r.desc.coverage then []
    else ((l.stage (stage - 1)).map fun q => q.done.filter fun p => decide (r.bands.length ≤ l.bandOf r.desc p)).getD []
  r.ready.length + later.length

/-- The next group of points that may be delivered: P consecutive ones, or a shorter final group (R201, R227). -/
def Launch.nextGroup (l : Launch) (r : StageRun) : Option (List Nat) :=
  let p := r.desc.group
  let all := r.waiting
  all.findSome? fun n =>
    let index := l.emission r n
    let members := (all.filter (n ≤ ·)).take p
    let ok := index % p == 0 && members.zipIdx.all fun e => l.emission r e.1 == index + e.2
    let final := l.emittedAll r == some (index + members.length)
    if ok && (members.length == p || final) then some members else none

/-! ### Records (Table 1.6) -/

/-- The point is the last that the walker emits for its band, and it is a sample (flags 19 and 16). -/
def Launch.flags (l : Launch) (r : StageRun) (n : Nat) (paired retry : Bool) : Nat :=
  let d := r.desc
  let bit := fun (b : Bool) (k : Nat) => if b then 2 ^ k else 0
  let code := r.codeOf (l.bandOf d n)
  let last := (l.emits d code (l.bandOf d n)).getLast? == some n
  bit (d.coverage && !l.computed d code n) 0 + bit paired 1 + bit retry 2 + bit (d.coverage && last) 3

/-- A task's record. -/
def Launch.record (l : Launch) (stage : Nat) (r : StageRun) (n attempt : Nat) (rect : BitVec 32) (rank : Nat) :
    List Word :=
  let d := r.desc
  let code := if d.coverage then r.codeOf (l.bandOf d n) else 0
  let e1 := l.id.toNat * 2 ^ 32 + stage * 2 ^ 24 + code * 2 ^ 20 + l.flags r n d.paired (attempt != 0) * 2 ^ 16 +
    attempt % 2 ^ 16
  [d.entry, BitVec.ofNat 64 e1, BitVec.ofNat 64 (d.iOf n * 2 ^ 32 + d.jOf n), BitVec.ofNat 64 (d.kOf n * 2 ^ 32),
   d.args, d.resultAt n, rect ++ BitVec.ofNat 32 (rank * 2 ^ 16), l.user]
def Task.attempt (t : Task) : Nat := bitsN (t.record.getD 1 0) 15 0
/-- The record of the same task with attempt + 1 and flag 18, and its own core as plot (R109, R227). -/
def Task.again (t : Task) : Task :=
  let e1 : Word := t.record.getD 1 0
  let next : Word := (e1 &&& ~~~(0xFFFF : Word)) ||| ((1 : Word) <<< 18) ||| BitVec.ofNat 64 ((t.attempt + 1) % 2 ^ 16)
  { t with record := setAt t.record 1 next, poison := false, shadow := false, group := t.point }
/-- A record addressed to a rectangle and a rank. -/
def Task.at (t : Task) (rect : BitVec 32) (rank : Nat) : Task :=
  { t with record := setAt t.record 6 (rect ++ BitVec.ofNat 32 (rank * 2 ^ 16)) }
/-- A rectangle word's upper half. -/
def rectOf (c w h : Nat) : BitVec 32 := BitVec.ofNat 32 (xOf c * 2 ^ 24 + yOf c * 2 ^ 16 + w * 2 ^ 8 + h)

/-! ### Reports (R198, R203, R350, R367) -/

/-- Point n of a stage is complete: the next stage's points become ready. -/
def Launch.pointDone (l : Launch) (stage n : Nat) : Launch :=
  let l := l.modStage stage fun r => { r with done := insertNat n r.done, flight := r.flight.filter (·.1 != n) }
  match l.stage stage, l.stage (stage + 1) with
  | some r, some next =>
    let ready := fun (p : Nat) => l.modStage (stage + 1) fun q => { q with ready := insertNat p q.ready }
    if next.desc.join then if r.complete then ready 0 else l
    else if !next.desc.coverage then ready n
    else
      let b := l.bandOf next.desc n
      if (Tab.keys next.bands).contains b && (l.emits next.desc (next.codeOf b) b).contains n then ready n else l
  | _, _ => l

/-- The distributor takes the report of a task; a report of a point that is complete already counts for nothing. -/
def State.report (s : State) (t : Task) (error : Bool) : State :=
  match s.stageOf t.launch t.stage with
  | none => s
  | some r =>
    if r.done.contains t.point || t.shadow then s
    else
      let s := if error then s.launchError t.launch else s
      let s := s.modStage t.launch t.stage fun r =>
        { r with final := if r.desc.coverage then insertNat t.point r.final else r.final,
                 times := (r.times ++ [s.cycle - t.since]).reverse.take 64 |>.reverse,
                 retries := r.retries.filter fun q => q.point != t.point }
      (s.modLaunch t.launch fun l => l.pointDone t.stage t.point).waitFrom s t.launch

/-- CVDONE of a core's task: its point is final (R209). -/
def State.declareFinal (s : State) (l stage point : Nat) : State :=
  s.modStage l stage fun r => if r.desc.coverage then { r with final := insertNat point r.final } else r

/-- A chk bit is set in a context of the core or in hchk. -/
def Core.chkSet (k : Core) : Bool :=
  k.hchk != 0 || (span 0 11).any fun n => (k.ctx n).live && (k.ctx n).chk != 0

/-- The current task ends: its slot is free, later events of it set nothing. -/
def Core.endTask (k : Core) : Core :=
  { k with task := none, inbox := k.inbox.drop 1, cvdone := false, era := k.era + 1 }

/-- A copy of a core's current task as taken. -/
def Core.stageCoverage (k : Core) (s : State) : Bool :=
  match k.task with
  | some t => ((s.stageOf t.launch t.stage).map fun r => r.desc.coverage).getD false
  | none => false

/-! ### Taking a task (R27, R353) -/

/-- A record that TNEXT may take: the oldest not yet taken. -/
def Core.nextTask (k : Core) : Option Task := if k.task.isSome then none else k.inbox.head?

/-- Registers that the footprint leaves dead. -/
def Context.trim (x : Context) (fv fq : Nat) : Context :=
  { x with v := x.v.map fun e => if e.1 < fv then e else (e.1, {}), liveV := x.liveV &&& BitVec.ofNat 64 (2 ^ min fv 64 - 1),
           q := x.q.map fun e => if e.1 < fq then e else (e.1, 0) }

/-- TNEXT takes the oldest record: e0-e7, tsk, cov, need, chk and the footprint; code of an earlier launch is dropped. -/
def Core.take (k : Core) (t : Task) (cycle : Nat) : Core :=
  let e1 : Word := t.record.getD 1 0
  let id : BitVec 32 := e1.extractLsb' 32 32
  let clear := fun (e : Nat × Context) => (e.1, { e.2 with chk := 0 })
  let k := { k with ctxs := k.ctxs.map clear }
  let k := k.modCtx 0 fun x =>
    let x := (t.record.zipIdx.foldl (init := x) fun (x : Context) (e : Word × Nat) => x.writeE e.2 e.1).trim t.fv t.fq
    if t.poison then x.setChk 0 else x
  { k with tsk := id, cov := e1.extractLsb' 20 4, need := t.mask.setWidth 64, hchk := 0,
           buffer := if k.lastId == some id || k.lastId.isNone then k.buffer else [],
           lastId := some id, task := some { t with since := cycle }, cvdone := false, era := k.era + 1 }

/-- A core takes its next record; c[n] is its launch's bank. -/
def State.takeTask (s : State) (c : Nat) (t : Task) : State :=
  s.modCore c fun k =>
    let k := k.take t s.cycle
    { k with consts := ((s.launch t.launch).map (·.consts)).getD [] }

/-! ### Static handles (R120) -/

def Store.allocStatic (m : Store) (h : StaticHandle) : Option Store :=
  let need := (h.rows * h.rowBytes + granule h.level - 1) / granule h.level
  let free := m.freeGranules h.level
  if (m.tile h.number).used || need > free.length then none
  else
    let t : TileEntry := { used := true, gen := 0, rows := h.rows, rowBytes := h.rowBytes, rot := h.rot,
                           granules := free.take need }
    some { m with tiles := Tab.put m.tiles h.number t }
def Store.allocAll (m : Store) (hs : List StaticHandle) : Option Store := hs.foldlM Store.allocStatic m

/-- Allocate a launch's handles on a core before its first task of the launch; none when some cannot be. -/
def State.allocStatics (s : State) (n c : Nat) : Option State :=
  match s.launch n with
  | none => none
  | some l =>
    if (s.core c).statics.contains n then some s
    else
      let cl := clusterOf c
      let near := l.handles.filter (·.level == 0)
      let far := if l.clusters.contains cl then [] else l.handles.filter (·.level == 1)
      match (s.core c).store.allocAll near, (s.cluster cl).store.allocAll far with
      | some a, some b =>
        let s := s.modCore c fun k => { k with store := a, statics := k.statics ++ [n] }
        let s := if far = [] then s else s.modCluster cl fun k => { k with store := b }
        some (s.modLaunch n fun l => { l with clusters := insertNat cl l.clusters })
      | _, _ => none

/-- A queue holds a copy that has not completed. -/
def CopyQueue.busy (q : CopyQueue) : Bool := q.entries != [] || q.running.isSome
/-- Packets and copies of a core not yet accounted for (R216); the copies of a pre-empted task are kept with it (R111). -/
def State.outstanding (s : State) (c : Nat) : Bool :=
  (s.net.any fun p => p.cores.contains c) || (s.meets.any fun m => m.core == c) ||
    (s.msgs.any fun m => m.msg.src == c && m.msg.copy.isNone) ||
    ((s.core c).eqs.any fun q => q.2.busy) || ((s.core c).saved.map fun v => v.eqs.any fun q => q.2.busy).getD false

/-- Free a static handle: its generation returns to 0. -/
def Store.freeStatic (m : Store) (number : Nat) : Store := { m with tiles := Tab.erase m.tiles number }

/-! ### Placement (R200-R202) -/

/-- The stage set a core belongs to: launch and stage. -/
def State.setOf (s : State) (c : Nat) : Option (Nat × Nat) :=
  s.launches.findSome? fun e => e.2.bind fun l =>
    if l.finished then none
    else l.stages.zipIdx.findSome? fun r => if r.1.cores.contains c then some (e.1, r.2) else none

/-- In service for tasks: assigned, not killed, not under test, outside the firmware column, its cluster awake. -/
def State.placeable (s : State) (c : Nat) : Bool :=
  let k := s.core c
  k.part.isSome && !k.killed && k.selfTest.isNone && k.saved.isNone && !s.inColumn c &&
    (s.cluster (clusterOf c)).power == .awake

def covers' (cap : Word) (need : BitVec 28) : Bool := cap &&& need.setWidth 64 == need.setWidth 64

/-- A moved core's inbox holds no other stage's task: it is in the receiver's set (R199). -/
def State.joins (s : State) (n stage c : Nat) : Bool :=
  ((s.stageOf n stage).map fun r => r.joining.contains c).getD false &&
    (s.core c).inbox.all fun t => t.launch == n && t.stage == stage

/-- Moved cores whose old tasks are gone enter the sets of their receivers (R199). -/
def State.settle (s : State) : State :=
  let enter := fun (n stage : Nat) (r : StageRun) =>
    { r with cores := (r.joining.filter (s.joins n stage)).foldl (fun t c => insertNat c t) r.cores,
             joining := r.joining.filter fun c => !s.joins n stage c }
  { s with launches := s.launches.map fun e => (e.1, e.2.map fun l =>
      { l with stages := l.stages.zipIdx.map fun r => enter e.1 r.2 r.1 }) }

/-- A core that could run a task with a declared mask if its inbox had room (R201; log 26). -/
def State.suits (s : State) (n stage : Nat) (l : Launch) (need : BitVec 28) (c : Nat) : Bool :=
  let k := s.core c
  s.placeable c && k.part == some l.part && covers' k.cap need && !l.excluded.contains c &&
    (s.joins n stage c || match s.setOf c with
      | none => !(s.launches.any fun e => (e.2.map fun q => q.stages.any fun r => r.joining.contains c).getD false)
      | some q => q == (n, stage))
/-- The four conditions of R201. -/
def State.candidate (s : State) (n stage : Nat) (l : Launch) (need : BitVec 28) (c : Nat) : Bool :=
  decide ((s.core c).inbox.length < 4) && s.suits n stage l need c

/-- The rectangle with the lowest-numbered corner in which every core is a candidate. -/
def firstRect (ok : Nat → Bool) (corners : List Nat) (w h : Nat) : Option (Nat × List Nat) :=
  corners.findSome? fun c =>
    let cores := (span 0 h).flatMap fun dy => (span 0 w).map fun dx => coreAt (xOf c + dx) (yOf c + dy)
    if xOf c + w ≤ 64 && yOf c + h ≤ 64 && cores.all ok then some (c, cores) else none

/-- Where a task, a pair or a group goes: the cores in rank order and the plot. -/
def State.place (s : State) (l : Launch) (ok : Nat → Bool) (paired : Bool) (w h : Nat) : Option (List Nat × BitVec 32) :=
  let cores := s.partCores l.part
  if paired then
    (cores.find? fun c => c % 2 == 0 && ok c && ok (c + 1)).map fun c => ([c, c + 1], rectOf c 1 1)
  else if w = 0 then (cores.find? ok).map fun c => ([c], rectOf c 1 1)
  else (firstRect ok cores w h).map fun r => (r.2, rectOf r.1 w h)

/-- The effective priority of a launch (R200). -/
def Launch.effective (l : Launch) : Nat := min 7 (l.prio + l.aged)

/-! ### Delivery (R27, R201) -/

/-- What a stage has to deliver next: a retry, alone, or a group of points. -/
inductive Delivery where
  | retry (t : Task)
  | group (points : List Nat)
  deriving DecidableEq, Repr

/-- The next stage's queue has room for what is in flight and the new points (R198). -/
def Launch.room (l : Launch) (stage count : Nat) : Bool :=
  match l.stage stage, l.stage (stage + 1) with
  | some r, some q => l.queued (stage + 1) q + r.points.length + count ≤ q.desc.capacity
  | _, _ => true

def Launch.delivery (l : Launch) (stage : Nat) (r : StageRun) : Option Delivery :=
  match r.retries with
  | t :: _ => if l.room stage (if r.points.contains t.point then 0 else 1) then some (.retry t) else none
  | [] => (l.nextGroup r).bind fun g => if l.room stage g.length then some (.group g) else none

/-- Where a delivery would go; a task that a pair has escalated with goes to another pair (R223). -/
def State.site (s : State) (n stage : Nat) (l : Launch) (r : StageRun) (v : Delivery) : Option (List Nat × BitVec 32) :=
  let need := match v with | .retry t => t.mask | .group _ => r.desc.mask
  let ok := s.candidate n stage l need
  match v with
  | .retry t => s.place l (fun c => ok c && !t.barred.contains (c - c % 2)) r.desc.paired 0 0
  | .group _ => s.place l ok r.desc.paired r.desc.plotW r.desc.plotH

/-- The lowest stage of a launch that holds something ready, with its site if there is one (log 28). -/
def Launch.nextDelivery (l : Launch) : List (Nat × StageRun × Delivery) :=
  l.stages.zipIdx.filterMap fun e => (l.delivery e.2 e.1).map fun v => (e.2, e.1, v)
def State.deliverable (s : State) (n : Nat) : Option (Nat × StageRun × Delivery × List Nat × BitVec 32) :=
  match s.launch n with
  | some l =>
    if l.finished then none
    else l.nextDelivery.findSome? fun e => (s.site n e.1 l e.2.1 e.2.2).map fun p => (e.1, e.2.1, e.2.2, p.1, p.2)
  | none => none

/-- A launch may be served: none that could deliver has a higher effective priority, and among equals it has credit or
nobody has (R200; log 27). -/
def State.served (s : State) (n : Nat) (l : Launch) : Bool :=
  s.launches.all fun e =>
    match e.2 with
    | some q =>
      e.1 == n || (s.deliverable e.1).isNone || q.effective < l.effective ||
        (q.effective == l.effective && (l.credit > 0 || q.credit == 0))
    | none => true

/-- Put a record in a core's inbox; the core joins the stage's set. -/
def State.putTask (s : State) (n stage : Nat) (t : Task) (c : Nat) : State :=
  let s := s.modCore c fun k => { k with inbox := k.inbox ++ [t] }
  s.modStage n stage fun r =>
    { r with cores := insertNat c r.cores, joining := r.joining.filter (· != c), flight := r.flight ++ [(t.point, c)] }

/-- Deliver to chosen cores whose static handles stand. -/
def State.deliverTo (s : State) (n stage : Nat) (l : Launch) (r : StageRun) (v : Delivery) (cores : List Nat)
    (rect : BitVec 32) : State :=
  let d := r.desc
  let fresh := fun (p rank : Nat) =>
    let t : Task := { record := l.record stage r p 0 rect rank, mask := d.mask, fv := d.fv, fq := d.fq, poison := false, launch := n,
                      stage := stage, point := p, group := p }
    t
  let both := fun (s : State) (t : Task) =>
    cores.zipIdx.foldl (init := s) fun s e => s.putTask n stage { t with shadow := decide (e.2 = 1) } e.1
  match v with
  | .retry t =>
    let s := s.modStage n stage fun r => { r with retries := r.retries.drop 1 }
    if d.paired then both s (t.at rect 0) else s.putTask n stage (t.at rect 0) (cores.headD 0)
  | .group ps =>
    let lead := ps.headD 0
    let walked := if ps.any (r.walked ≤ ·) then ps.getLastD 0 + 1 else r.walked
    let s := s.modStage n stage fun r => { r with ready := r.ready.filter (fun p => !ps.contains p), walked := walked }
    if d.paired then both s (fresh lead 0)
    else (ps.zip cores).zipIdx.foldl (init := s) fun s e =>
      let t := fresh e.1.1 e.2
      s.putTask n stage { t with group := lead } e.1.2

/-- A dispatch restarts the launch's wait and takes a share of the round. -/
def State.noteDispatch (s : State) (n : Nat) (l : Launch) : State :=
  let round := l.credit = 0
  let launches := s.launches.map fun e => (e.1, e.2.map fun q =>
    if round && q.effective == l.effective then { q with credit := q.weight } else q)
  ({ s with launches := launches }).modLaunch n fun q => { q with waited := s.cycle, aged := 0, credit := q.credit - 1 }

/-- The tasks of a core's inbox that no TNEXT has taken. -/
def Core.untaken (k : Core) : List Task := if k.task.isSome then k.inbox.drop 1 else k.inbox
/-- Records of a launch that can be withdrawn from a core: their whole group is untaken (log 41). -/
def State.withdrawable (s : State) (c : Nat) (below : Nat) : List Task :=
  (s.core c).untaken.filter fun t =>
    ((s.launch t.launch).map fun l => decide (l.effective < below)).getD false &&
      s.cores.all fun e => (e.2.task.map fun q => !(q.launch == t.launch && q.stage == t.stage && q.group == t.group)).getD true

/-- Withdraw a record: its point is ready again, and the core is told of the launch it made room for (R151, R200). -/
def State.withdraw (s : State) (t : Task) (launch : BitVec 32) : State :=
  let same := fun (q : Task) => q.launch == t.launch && q.stage == t.stage && q.group == t.group
  let gone : List Task := s.cores.flatMap fun e => e.2.untaken.filter same
  let losers := (s.cores.filter fun e => e.2.untaken.any same).map (·.1)
  let s := losers.foldl (init := s) fun s c => s.notify c (BitVec.ofNat 64 (1 + 3 * 2 ^ 28 + launch.toNat * 2 ^ 32)) 0
  let keep := fun (k : Core) =>
    let kept := if k.task.isSome then k.inbox.take 1 else []
    { k with inbox := kept ++ k.untaken.filter fun q => !same q }
  let cores : Tab Core := s.cores.map fun e => (e.1, keep e.2)
  let s := { s with cores := cores }
  let gone := gone.filter fun q => !q.shadow
  State.waitFrom (old := s) (n := t.launch) <| s.modStage t.launch t.stage fun r =>
    let again := gone.filter fun q => q.attempt == 0
    { r with flight := r.flight.filter (fun f => !(gone.any fun q => q.point == f.1)),
             ready := again.foldl (init := r.ready) fun l q => insertNat q.point l,
             retries := gone.filter (fun q => q.attempt != 0) ++ r.retries }

/-- The stages in whose sets a core is, or which it is to join, with their launches. -/
def State.standings (s : State) (c : Nat) : List (Nat × Nat) :=
  s.launches.flatMap fun e => match e.2 with
    | some l => if l.finished then [] else
        (l.stages.zipIdx.filter fun r => r.1.cores.contains c || r.1.joining.contains c).map fun r => (e.1, r.2)
    | none => []
/-- A core that a higher launch takes from lower ones: it stands in their sets, on its way to them or not, or holds their
undelivered records (R200). -/
def State.takeCore (s : State) (n stage : Nat) (l : Launch) (need : BitVec 28) : Option State :=
  let lower := fun (c : Nat) =>
    (s.standings c).all (fun q => q.1 != n && ((s.launch q.1).map fun q => decide (q.effective < l.effective)).getD false) &&
      (s.standings c != [] || !(s.withdrawable c l.effective).isEmpty)
  let victim := (s.partCores l.part).find? fun c =>
    s.placeable c && covers' (s.core c).cap need && !l.excluded.contains c && lower c
  victim.map fun c =>
    let left := s.standings c
    let s := (s.withdrawable c l.effective).foldl (init := s) fun s t => s.withdraw t l.id
    let s := left.foldl (init := s) fun s q => s.modStage q.1 q.2 fun r =>
      { r with cores := r.cores.filter (· != c), joining := r.joining.filter (· != c) }
    s.modStage n stage fun r => { r with joining := r.joining ++ [c] }

/-- TASK_DELIVERY: one task, pair or group of a launch is delivered; a core that cannot hold the launch's static handles
is excluded from it; with no eligible core, one is taken from a launch of lower effective priority. -/
def execTaskDelivery (n : Nat) (s : State) : Host.Outcome State Fault Refusal :=
  match s.launch n with
  | none => .next s
  | some l =>
    match s.deliverable n with
    | some (stage, r, v, cores, rect) =>
      if !s.served n l then .next s
      else
        match cores.foldlM (fun s c => s.allocStatics n c) s with
        | some t => .next ((t.deliverTo n stage l r v cores rect).noteDispatch n l)
        | none =>
          let bad := cores.filter fun c => (s.allocStatics n c).isNone
          let t := bad.foldl (init := s) fun s c => s.count Count.staticFailure c
          .next (t.modLaunch n fun l => { l with excluded := bad.foldl (init := l.excluded) fun e c => insertNat c e })
    | none =>
      match l.nextDelivery with
      | (stage, r, v) :: _ =>
        let need := match v with | .retry t => t.mask | .group _ => r.desc.mask
        if l.finished then .next s else .next ((s.settle.takeCore n stage l need).getD s)
      | [] => .next s

/-- TNEXT_TAKE: the waiting TNEXT takes the oldest record. -/
def execTnextTake (c : Nat) (s : State) : Host.Outcome State Fault Refusal :=
  let k := s.core c
  match (k.ctx 0).wait, k.nextTask with
  | .tnext d, some t =>
    let s := s.takeTask c t
    let s := s.modCtx c 0 fun x => x.writeG d (t.record.getD 0 0) false
    .next (s.finish c 0 (.g d :: (span 0 8).map .e))
  | _, _ => .next s

/-- TASK_REDELIVERY: once the core's count is zero, and that of a killed core that held the task too, the distributor
takes back a stopped task's record (R109, R114, R216). -/
def execTaskRedelivery (c : Nat) (s : State) : Host.Outcome State Fault Refusal :=
  match (s.core c).redeliver with
  | [] => .next s
  | t :: rest =>
    if s.outstanding c || t.after.any s.outstanding then .next s
    else
      let s := s.modCore c fun k => { k with redeliver := rest }
      .next <| State.waitFrom (old := s) (n := t.launch) <| s.modStage t.launch t.stage fun r =>
        if r.done.contains t.point || r.retries.any (fun q => q.point == t.point) then r
        else { r with retries := r.retries ++ [{ t with after := [] }.again], flight := r.flight.filter fun f => f.1 != t.point }

/-- STATIC_HANDLE_FREE: after the launch has completed and the count of every core that ran its tasks is zero. What a
pre-empted task's storage holds of them is freed there (R111). A killed core's handles stay until it is cleared (R114,
R216). -/
def execStaticHandleFree (n : Nat) (s : State) : Host.Outcome State Fault Refusal :=
  match s.launch n with
  | none => .next s
  | some l =>
    let cores := (s.cores.filter fun e => e.2.statics.contains n).map (·.1)
    if !l.finished || cores.any s.outstanding then .next s
    else
      let free := fun (m : Store) (level : Nat) =>
        (l.handles.filter (·.level == level)).foldl (init := m) fun m h => m.freeStatic h.number
      let s := (cores.filter fun c => !(s.core c).killed).foldl (init := s) fun s c =>
        s.modCore c fun k => { k with store := free k.store 0, statics := k.statics.filter (· != n),
                                      saved := k.saved.map fun v => { v with store := free v.store 0 } }
      let s := l.clusters.foldl (init := s) fun s cl => s.modCluster cl fun k =>
        { k with store := free k.store 1, saved := k.saved.map fun v => (free v.1 1, v.2) }
      .next { s with launches := Tab.erase s.launches n }

/-! ### Rebalancing, aging, power (R199, R200, R202) -/

/-- A stage that can give a core: nothing queued, of stage 0 nothing that the walker has yet to emit, and it keeps one
while it has points running or undispatched. -/
def Launch.gives (l : Launch) (r : StageRun) (stage : Nat) : Bool :=
  let idle := if stage = 0 then r.waiting.isEmpty && r.retries.isEmpty && (l.emittedAll r).isSome else l.queued stage r == 0
  let busy := r.flight != [] || !r.waiting.isEmpty || !r.complete
  idle && r.cores != [] && (!busy || r.cores.length > 1)

/-- REBALANCE: each donor gives its highest-numbered core to the fullest receiver (R199; which core is log 41). -/
def execRebalance (n : Nat) (s : State) : Host.Outcome State Fault Refusal :=
  match s.settle.launch n with
  | none => .next s
  | some l =>
    let side := fun (e : StageRun × Nat) => (decide (e.1.desc.high ≤ l.queued e.2 e.1), decide (l.queued e.2 e.1 ≤ e.1.desc.low))
    let crossed := l.stages.zipIdx.any fun e => e.2 != 0 && side e != (e.1.above, e.1.under)
    if l.finished || !(l.balance + 4096 ≤ s.cycle || crossed) then .next s
    else
      let rs := l.stages.zipIdx
      let receivers := rs.filter fun e => e.2 != 0 && e.1.desc.high ≤ l.queued e.2 e.1 && l.queued e.2 e.1 != 0
      let best := receivers.foldl (init := none) fun (b : Option (StageRun × Nat)) e => match b with
        | some q => if l.queued q.2 q.1 < l.queued e.2 e.1 then some e else b
        | none => some e
      let donors := rs.filter fun e => l.gives e.1 e.2
      let moved := match best with
        | none => l
        | some b => donors.foldl (init := l) fun (l : Launch) (e : StageRun × Nat) =>
          if e.2 == b.2 then l
          else
            let c := e.1.cores.getLastD 0
            (l.modStage e.2 fun r => { r with cores := r.cores.filter (· != c) }).modStage b.2 fun r =>
              { r with joining := r.joining ++ [c] }
      let mark := fun (e : StageRun × Nat) => { e.1 with above := (side e).1, under := (side e).2 }
      .next (s.modLaunch n fun _ => { moved with balance := s.cycle / 4096 * 4096, stages := moved.stages.zipIdx.map mark })

/-- PRIORITY_AGING: one more for each whole millisecond of waiting, up to 7 in all (R200). -/
def execPriorityAging (n : Nat) (s : State) : Host.Outcome State Fault Refusal :=
  match s.launch n with
  | none => .next s
  | some l =>
    let due := !l.finished && l.hasReady && l.waited + 2500000 * (l.aged + 1) ≤ s.cycle && l.effective < 7
    whenDue due s (s.modLaunch n fun l => { l with aged := l.aged + 1 })

/-- The last task times, 5,000 cycles before any: their mean is their sum over their number (R202). -/
def StageRun.lastTimes (r : StageRun) : List Nat := if r.times = [] then [5000] else r.times

/-- Points of a stage not dispatched yet; the walker passes over those that a band's code leaves out. -/
def Launch.undispatched (l : Launch) (r : StageRun) : Nat :=
  let emitted := fun (p : Nat) =>
    let b := l.bandOf r.desc p
    !r.desc.coverage || !(Tab.keys r.bands).contains b || (l.emits r.desc (r.codeOf b) b).contains p
  ((span 0 r.desc.points).filter fun p => !r.done.contains p && !r.points.contains p && emitted p).length
/-- A stage whose backlog warrants a wake: every awake candidate's inbox is full, and the backlog exceeds 5,000 cycles. -/
def State.wantsWake (s : State) (n stage : Nat) (l : Launch) (r : StageRun) : Bool :=
  let awake := (s.partCores l.part).filter (s.suits n stage l r.desc.mask)
  let left := l.undispatched r
  awake.all (fun c => (s.core c).inbox.length ≥ 4) &&
    left * r.lastTimes.foldl (· + ·) 0 > 5000 * awake.length * r.lastTimes.length

/-- The arrays of a cluster. -/
def clusterArrays (cl : Nat) : List SramArray := .scratchpad cl :: (clusterCores cl).map .localMemory
/-- Cycles of an array's re-encode (R214). -/
def encodeTime : SramArray → Nat
  | .localMemory _ => 2048
  | .scratchpad _ => 4096
def State.startReencode (s : State) (cl : Nat) : State :=
  { s with reencode := s.reencode ++ (clusterArrays cl).map fun a => (a, s.cycle + encodeTime a) }

/-- CLUSTER_WAKE: a gated cluster starts to wake when a stage's backlog warrants it, and is awake 5,000 cycles later;
the leaving re-encode is part of the wake. -/
def execClusterWake (cl : Nat) (s : State) : Host.Outcome State Fault Refusal :=
  match (s.cluster cl).power with
  | .awake => .next s
  | .waking since =>
    whenDue (since + 5000 ≤ s.cycle) s (s.modCluster cl fun k => { k with power := .awake, idle := s.cycle, last := 7, run := 0 })
  | .gated =>
    let wanted := s.launches.any fun e => match e.2 with
      | some l => !l.finished && (((s.part l.part).map fun p => p.clusters.contains cl).getD false) &&
          l.stages.zipIdx.any fun r => s.wantsWake e.1 r.2 l r.1
      | none => false
    whenDue wanted s ((s.modCluster cl fun k => { k with power := .waking s.cycle }).startReencode cl)

/-- A cluster's cores have no task, no context but a control context parked in TNEXT, and no engine work (R202). -/
def State.clusterIdle (s : State) (cl : Nat) : Bool :=
  (clusterCores cl).all fun c =>
    let k := s.core c
    k.inbox == [] && k.mq == [] && k.eqs.all (fun q => q.2.entries == [] && q.2.running.isNone) &&
      (span 0 11).all fun n => let t := k.ctx n
        !t.live || (n == 0 && match t.wait with | .tnext _ => true | _ => false)

/-- The clusters that hold a core or a state that the machine knows. -/
def State.knownClusters (s : State) : List Nat := (Tab.keys s.clusters ++ (Tab.keys s.cores).map clusterOf).eraseDups
/-- A cluster that is busy while time passes has not been idle (R202). -/
def State.noteBusy (s : State) (cycle : Nat) : State :=
  (s.knownClusters.filter fun cl => !s.clusterIdle cl).foldl (init := s) fun s cl =>
    s.modCluster cl fun k => { k with idle := cycle }

/-- CLUSTER_GATE: after 50,000 idle cycles the cluster is gated, its SRAM re-encoded for retention (R202, R214). A cluster
with column cores never is (R241). -/
def execClusterGate (cl : Nat) (s : State) : Host.Outcome State Fault Refusal :=
  let k := s.cluster cl
  let due := k.power == .awake && !(clusterCores cl).any s.inColumn && s.clusterIdle cl && decide (k.idle + 50000 ≤ s.cycle)
  whenDue due s ((s.modCluster cl fun k => { k with power := .gated }).startReencode cl)

/-! ### Completion (R203) -/

/-- Free the handles of the input queues (R198). -/
def State.freeQueues (s : State) (l : Launch) : State :=
  l.stages.foldl (init := s) fun s r => match r.queue with
    | some q => s.freeHandle (.scratch q.1) q.2
    | none => s

/-- The writes of a partition's units to pod peers have been performed. -/
def State.unitsQuiet (s : State) (part : Nat) : Bool :=
  s.net.all fun p => !(p.core == 4096 && p.ctx == part && p.op.isNone)
/-- Store the status dword; none while a translation, a port or a budget is waited for. -/
def State.tellStatus (s : State) (n : Nat) (l : Launch) : Option State × State :=
  if l.told || l.signal = 0 then (some s, s)
  else if hostSide l.signal then
    let t := (s.signalHost l.part (l.signal + 8) (leBytes 8 l.status)).modLaunch n fun l => { l with told := true }
    (some t, t)
  else match s.unitWrite (s.partDie l.part) (s.partSpace l.part) (l.signal + 8) (leBytes 8 l.status) false none with
    | (.ask, t) => (none, t)
    | (_, t) => let t := t.modLaunch n fun l => { l with told := true }; (some t, t)
/-- Store the status, then the completion value as a release at sys scope, which waits for the partition's units; none
while one of the two has to wait. -/
def State.writeSignal (s : State) (n : Nat) (l : Launch) : Option State × State :=
  match s.tellStatus n l with
  | (none, t) => (none, t)
  | (some s, _) =>
    if l.signal = 0 then (some s, s)
    else if !s.unitsQuiet l.part then (none, s)
    else if hostSide l.signal then
      let t := s.signalHost l.part l.signal (bytesOf 8 l.value)
      (some t, t)
    else match s.unitWrite (s.partDie l.part) (s.partSpace l.part) l.signal (bytesOf 8 l.value) false (some (unitRelease 11)) with
      | (.ask, t) => (none, t)
      | (_, t) => (some t, t)

/-- The launch is over: its queues are freed, its sets dissolve, and the entry behind it may wait no longer. -/
def State.closeLaunch (s : State) (n : Nat) (l : Launch) : State :=
  let s := (s.freeQueues l).modLaunch n fun l => { l with finished := true, stages := l.stages.map fun r =>
    { r with cores := [], joining := [], queue := none } }
  match l.queue with
  | some q => s.modQueue q fun k => { k with work := k.work.filter (· != n), dirty := true }
  | none => s

/-- Complete a launch if its signal can be written now. -/
def State.completeLaunch (s : State) (n : Nat) : State :=
  match s.launch n with
  | none => s
  | some l =>
    match s.writeSignal n l with
    | (some t, _) => t.closeLaunch n l
    | (none, t) => t

/-- Every sample of every band of a coverage stage has been rebuilt and compared, and the controller has updated after
every band (R203, R207, R208). -/
def Launch.compared (l : Launch) (r : StageRun) : Bool :=
  !r.desc.coverage || (r.bands.length == l.bandCount r.desc && r.codes.length == r.bands.length &&
    r.bands.all fun e => e.2.errors.length == (l.samples r.desc e.2.code e.1).length)

/-- No rebuilt result of a launch is on its way to a pod peer, nor the answer to one: what comes of it counts for the
launch's status (R206). -/
def State.resultsQuiet (s : State) (n : Nat) : Bool :=
  (s.net.all fun p => p.result != some n) && s.replies.all fun r => r.packet.result != some n
/-- LAUNCH_COMPLETE: every point of every stage is complete, every reconstruction made. -/
def execLaunchComplete (n : Nat) (s : State) : Host.Outcome State Fault Refusal :=
  match s.launch n with
  | some l =>
    whenDue (!l.finished && s.resultsQuiet n && l.stages.all fun r => r.complete && l.compared r) s (s.completeLaunch n)
  | none => .next s

end Sys2Proof.Machine
end

