-- ==== Sys2Proof/Machine/Context.lean ====
section
/-! DEFINITION. Helpers, liveness, gangs, status registers, tasks and e registers, with the events that complete them
(R12, R19, R25-R27, R31, R99, R100, R277, R289, R290, R293, R296, R298, R299, R308, R315, R316, R350, R353, R355). -/
namespace Sys2Proof.Machine

/-! ### Helpers -/

/-- HSTART: the lowest free helper starts at gS with the starter's g1-g15. -/
def execHstart (d a : BitVec 6) (s : State) : Host.Outcome State Fault Refusal :=
  issue (.hstart d a) s fun p s =>
    match s.here.freeHelper with
    | none => .done (s.writeG d.toNat 0 p)
    | some h =>
      let s := s.modHere fun k => k.startHelper h (s.g a.toNat) s.me.inherit 0
      .done (s.writeG d.toNat (BitVec.ofNat 64 h) p)

def execHexit (s : State) : Host.Outcome State Fault Refusal :=
  issue .hexit s fun _ s => .gone (s.modHere fun k => k.endHelper s.cur.2)
def execHexit16 (s : State) : Host.Outcome State Fault Refusal :=
  issue .hexit16 s fun _ s => .gone (s.modHere fun k => k.endHelper s.cur.2)

/-- Helpers named in a mask, other than the issuer, are live. -/
def State.anyLive (s : State) (mask : Word) : Bool :=
  (span 1 10).any fun n => n != s.cur.2 && mask.getLsbD n && (s.here.ctx n).live

def execHwait (a : BitVec 6) (s : State) : Host.Outcome State Fault Refusal :=
  issue (.hwait a) s fun _ s =>
    let mask := s.g a.toNat
    if s.anyLive mask then .wait (s.modMe fun x => { x with wait := .hwait mask }) else .done s

/-- Liveness of a group of 32 registers: a dead register's value goes (R19). -/
def Context.setLive (x : Context) (group : Nat) (bits : BitVec 32) : Context :=
  let base := group % 2 * 32
  let mask : Word := 0xFFFFFFFF <<< base
  let new := fun (old : Word) => (old &&& ~~~mask) ||| (bits.setWidth 64 <<< base)
  let dead := fun (n : Nat) => base ≤ n && n < base + 32 && !bits.getLsbD (n - base)
  if group < 2 then { x with liveG := new x.liveG, g := x.g.map fun e => if dead e.1 then (e.1, {}) else e }
  else { x with liveV := new x.liveV, v := x.v.map fun e => if dead e.1 then (e.1, {}) else e }

def execLive (a : BitVec 6) (e : BitVec 4) (s : State) : Host.Outcome State Fault Refusal :=
  issue (.live a e) s fun _ s =>
    let bits : BitVec 32 := (s.g a.toNat).setWidth 32
    .done (s.modMe fun x => x.setLive e.toNat bits)

/-! ### Gangs -/

/-- The aligned group of n cores that holds a core. -/
def gangGroup (c n : Nat) : List Nat :=
  if n = 8 then clusterCores (clusterOf c) else span (c - xOf c % n) n

def execGang (a : BitVec 6) (s : State) : Host.Outcome State Fault Refusal :=
  issue (.gang a) s fun _ s =>
    let n := bitsN (s.g a.toNat) 3 0
    let follower := (gangGroup s.cur.1 n).head? != some s.cur.1
    let bad := follower && (span 1 10).any fun h => (s.here.ctx h).live
    .wait (s.modMe fun x => { x with wait := .gang n bad })

/-- A core is parked in GANG of n. -/
def State.gangWaits (s : State) (n c : Nat) : Bool :=
  match (s.ctx c 0).wait with
  | .gang m _ => m == n
  | _ => false
def State.gangBad (s : State) (c : Nat) : Bool :=
  match (s.ctx c 0).wait with
  | .gang _ bad => bad
  | _ => false

/-- GANG_FORM: every member of the group has issued GANG and the gang forms, or the whole group faults because a
follower had a live helper; parked members fault when a member has been killed (R25, R293). -/
def execGangForm (c : Nat) (s : State) : Host.Outcome State Fault Refusal :=
  match (s.ctx c 0).wait with
  | .gang n _ =>
    let group := gangGroup c n
    let parked := group.filter (s.gangWaits n)
    let fault := fun (s : State) => parked.foldl (init := s) fun s m => s.trapCtx m 0 0x16 0 0 4
    if group.any fun m => (s.core m).killed then .next (fault s)
    else if parked.length ≠ group.length then .next s
    else if group.any s.gangBad then .next (fault s)
    else
      let s := group.foldl (init := s) fun s m => s.finish m 0 []
      .next (group.foldl (init := s) fun s m => s.modCore m fun k => { k with gang := some { members := group } })
  | _ => .next s

def execUngang (s : State) : Host.Outcome State Fault Refusal :=
  issue .ungang s fun _ s => .done (s.modHere fun k => { k with gang := none })

/-! ### Status registers -/

def execMfs (d : BitVec 6) (n : BitVec 10) (s : State) : Host.Outcome State Fault Refusal :=
  issue (.mfs d n) s fun _ s => .done (s.writeG d.toNat (s.readStatus s.cur.1 s.cur.2 n.toNat) false)

/-- A per-context status register (Table 20.3). -/
def Context.writeStatus (x : Context) (n : Nat) (v : Word) : Context :=
  match n with
  | 0x006 => { x with km := v }
  | 0x007 => { x with rmode := v.setWidth 2 }
  | 0x008 => { x with fpf := v.setWidth 5 }
  | 0x009 => { x with efr := v.setWidth 32 }
  | 0x00A => { x with chk := v.setWidth 7 }
  | 0x00D => { x with det := v.getLsbD 0 }
  | n => if 0x030 ≤ n && n ≤ 0x03F then { x with fm := Tab.put x.fm (n - 0x030) (v.setWidth 32) } else x
/-- A per-core status register (Table 20.3). -/
def Core.writeStatus (k : Core) (n : Nat) (v : Word) : Core :=
  match n with
  | 0x00E => { k with mqw := if v.setWidth 4 = (0 : BitVec 4) then 1 else v.setWidth 4 }
  | 0x010 => { k with tvec := v }
  | 0x011 => { k with tcause := v.setWidth 16 }
  | 0x012 => { k with tpc := v }
  | 0x013 => { k with tval := v }
  | 0x016 => { k with tret := v }
  | 0x019 => { k with mgc := v.setWidth 32 }
  | 0x01A => { k with pivl := v.setWidth 17 }
  | 0x01C => { k with hchk := v.setWidth 7 }
  | n => if 0x040 ≤ n && n ≤ 0x047 then { k with win := Tab.set 0 k.win (n - 0x040) (v &&& ~~~(7 : Word)) } else k

def execMts (a : BitVec 6) (n : BitVec 10) (s : State) : Host.Outcome State Fault Refusal :=
  issue (.mts a n) s fun _ s =>
    let v := s.g a.toNat
    .done ((s.modMe fun x => x.writeStatus n.toNat v).modHere fun k => k.writeStatus n.toNat v)

def execChkerr (d : BitVec 6) (s : State) : Host.Outcome State Fault Refusal :=
  issue (.chkerr d) s fun _ s =>
    .done ((s.writeG d.toNat (s.me.chk.setWidth 64) false).modMe fun x => { x with chk := 0, chkRead := some s.cycle })

/-! ### Tasks -/

def execTnext (d : BitVec 6) (s : State) : Host.Outcome State Fault Refusal :=
  issue (.tnext d) s fun _ s =>
    match s.here.nextTask with
    | none => .wait (s.modMe fun x => { x with wait := .tnext d.toNat })
    | some t => .done ((s.takeTask s.cur.1 t).writeG d.toNat (t.record.getD 0 0) false)

/-- Uncouple a pair: both cores go on by themselves (R222). -/
def State.unpair (s : State) (c : Nat) : State := s.uncouple ((s.core c).bound c)

/-- TEND: unpairs, declares a coverage point final, reports, and frees the slot. -/
def State.doTend (s : State) (p : Bool) (a : Nat) : Res :=
  let c := s.cur.1
  match s.here.task with
  | none => .done (s.count Count.strayTaskEnd c)
  | some t =>
    let final := s.here.stageCoverage s && !s.here.cvdone && !t.shadow
    if final && !s.released 6 c 0 then .stall s
    else
      let s := if s.here.pairing.isSome then s.unpair c else s
      let error := p || s.here.chkSet || (s.g a).setWidth 32 != (0 : BitVec 32)
      .done ((s.report t error).modHere Core.endTask)

def execTend (a : BitVec 6) (s : State) : Host.Outcome State Fault Refusal :=
  issue (.tend a) s fun p s => s.doTend p a.toNat
def execTend16 (a : BitVec 5) (s : State) : Host.Outcome State Fault Refusal :=
  issue (.tend16 a) s fun p s => s.doTend p a.toNat

/-! ### e registers -/

def execExtl (a : BitVec 6) (n : BitVec 4) (s : State) : Host.Outcome State Fault Refusal :=
  issue (.extl a n) s fun _ s => .done (s.modMe fun x => x.writeE n.toNat (s.g a.toNat))
def execExtr (d : BitVec 6) (n : BitVec 4) (s : State) : Host.Outcome State Fault Refusal :=
  issue (.extr d n) s fun _ s => .done (s.writeG d.toNat (s.me.readE n.toNat) false)

/-! ### Abandoned instructions and the delivery of a helper's trap (R99, R111) -/

/-- Abandon the waiting instruction of a context: it will issue again. A BARWAIT's arrival stands. -/
def State.abandon (s : State) (c x : Nat) : State :=
  let s := match (s.ctx c x).wait with
    | .waita n =>
      { s with net := s.net.filter (fun p => p.op != some n), ops := Tab.erase s.ops n,
               replies := s.replies.filter fun r => r.packet.op != some n }
    | _ => s.unpark c x
  s.modCtx c x fun t => { t with wait := .none, walkErr := none }

/-- The control context can take a helper's trap now: no handler, no phase, no reply awaited by it or by a member of its
gang (R97, R99, R100). -/
def State.takesTrap (s : State) (c : Nat) : Bool :=
  let k := s.core c
  let t := k.ctx 0
  k.trapQueue != [] && !k.handler && !k.inPhase s.cycle && !k.killed && k.dueTrap.isNone &&
    ((k.gangOf c).all fun m => !(s.ctx m 0).awaits) &&
    match t.wait with
    | .xmit | .intake _ _ _ => false
    | _ => true

/-- The members of a gang abandon an XCHG together (R99, R360). -/
def State.abandonXchg (s : State) (c : Nat) : State :=
  ((s.core c).gangOf c).foldl (init := s) fun s m =>
    match (s.ctx m 0).wait with
    | .xchg _ _ => s.modCtx m 0 fun t => { t with wait := .none }
    | _ => s

/-- HELPER_TRAP_DELIVERY: the oldest frozen helper's trap enters the control context's handler; what that context was
waiting in is abandoned, and its address becomes tret. A gang disbands. -/
def execHelperTrapDelivery (c : Nat) (s : State) : Host.Outcome State Fault Refusal :=
  match (s.core c).trapQueue with
  | [] => .next s
  | h :: _ =>
    if !s.takesTrap c then .next s
    else
      let s := ((s.abandonXchg c).abandon c 0).disband c
      .next (s.deliverTrap c h (s.ctx c 0).pc)

end Sys2Proof.Machine
end

