-- ==== Sys2Proof/Machine/Mailbox.lean ====
section
/-! DEFINITION. Mailboxes and circular buffers (R151-R154, R271-R274, R320, R321, R325, R336). -/
namespace Sys2Proof.Machine

/-! ### Messages -/

/-- MSEND: a posted release at dev scope; bits 31:28 of the first word are sent as 0 (R151, R320). -/
def execMsend (m a : BitVec 6) (s : State) : Host.Outcome State Fault Refusal :=
  issue (.msend m a) s fun _ s =>
    let c := s.cur.1
    let w := s.g a.toNat
    let n := bitsN w 12 0
    let dst := if n = 0x1FFF then c else n
    if dst > 4095 || s.partOf dst ≠ s.partOf c then .trap 0x06 0 w
    else if !s.released 6 c s.cur.2 then .stall s
    else
      let x := s.me.readG m.toNat
      let y := s.me.readG (m.toNat + 1)
      let msg : Msg := { w0 := x.bits &&& 0xFFFFFFFF0FFFFFFF, w1 := y.bits, poison := x.poison || y.poison, src := c,
                         ctx := s.cur.2 }
      let f : MsgFlight := { dst := dst, msg := msg, era := s.here.era }
      s.injecting (if s.holdsBack then Res.ofPost (s.hold (.message f)) else .done (s.sendMsg f))

/-- A message's rank among those that reach a mailbox in one cycle: the owner core's own, then by source core, then copy
completions by engine (R79, R320). -/
def MsgFlight.rank (m : MsgFlight) : Nat :=
  match m.engine with
  | some e => 10000 + e
  | none => if m.msg.src = m.dst then 0 else messageRank m.msg.src
/-- The number under which the port table keeps a mailbox's interface. -/
def mailKey (c : Nat) : Nat := 2 ^ 20 + c
/-- What its source has sent to a core before a message comes first: MEETs, accesses and messages; a copy's completion is
an engine's (R77, R169). -/
def State.mailHeld (s : State) (m : MsgFlight) : Bool :=
  m.msg.copy.isNone && (s.behind m.msg.src m.dst m.id ||
    s.net.any fun p => p.home == .localMem m.dst && p.armed.isNone && !p.engine &&
      p.numbers.any fun e => e.1 == m.msg.src && decide (e.2 < m.id))
/-- Of two messages the one sent first, of those of one cycle the one of lower rank. -/
def earlierMsg (a b : MsgFlight) : Bool := a.since < b.since || (a.since == b.since && a.rank ≤ b.rank)
/-- The message that reaches a core's interface next, if one may in this cycle. -/
def State.nextMail (s : State) (c : Nat) : Option MsgFlight :=
  let all := s.msgs.filter fun m => m.dst == c && !m.waiting && !s.mailHeld m
  let first := all.foldl (init := none) fun (b : Option MsgFlight) m => match b with
    | some q => if earlierMsg q m then some q else some m
    | none => some m
  let port : Nat × Nat := Tab.get (0, 0) s.ports (mailKey c)
  first.filter fun m => port.1 != s.cycle || decide (port.2 ≤ m.rank)
/-- A message enters its mailbox and wakes every context in MWAIT. -/
def State.enterMail (s : State) (m : MsgFlight) : State :=
  let s := (({ s with msgs := s.msgs.erase m }).leaveSlots .message m.id).modCore m.dst fun k =>
    { k with mailbox := k.mailbox ++ [m.msg] }
  (span 0 11).foldl (init := s) fun s x =>
    if (s.ctx m.dst x).live && (s.ctx m.dst x).wait == .mwait then s.finish m.dst x [] else s

/-- MAILBOX_ARRIVAL: what waits longest at the interface of a core's mailbox enters it when there is room; with nothing
there, the next message reaches the interface, and enters or waits (R152, R320). A sealed mailbox drops what is on its way
(R114); a pre-empted one keeps it waiting (log 49). -/
def execMailboxArrival (c : Nat) (s : State) : Host.Outcome State Fault Refusal :=
  let k := s.core c
  let room := decide (k.mailbox.length < 32)
  if k.killed then
    match takeFirst (fun m => m.dst == c) s.msgs with
    | some (m, rest) => .next ((({ s with msgs := rest }).leaveSlots .message m.id).count Count.droppedMessage c)
    | none => .next s
  else if k.saved.isSome then .next s
  else
    match if room then s.msgs.find? fun m => m.dst == c && m.waiting else none with
    | some m => .next (s.enterMail m)
    | none => match s.nextMail c with
      | none => .next s
      | some m =>
        let s := { s with ports := Tab.put s.ports (mailKey c) (s.cycle, m.rank) }
        .next (if room then s.enterMail m else { s with msgs := s.msgs.erase m ++ [{ m with waiting := true }] })

def State.doMwait (s : State) : Res :=
  if s.here.mailbox = [] then .wait (s.modMe fun x => { x with wait := .mwait }) else .done s
def execMwait (s : State) : Host.Outcome State Fault Refusal := issue .mwait s fun _ s => s.doMwait
def execMwait16 (s : State) : Host.Outcome State Fault Refusal := issue .mwait16 s fun _ s => s.doMwait

/-- A completion is acquired at the copy's scope (R91): the copy and the consumer lie in each other's scopes, else chk
bit 1. -/
def State.acquireCopy (s : State) (c x : Nat) (scope : BitVec 4) (src ctx : Nat) : State :=
  if s.inScope scope src ctx true c x && s.inScope scope c x false src ctx then s
  else s.modCtx c x fun t => t.setChk 1

/-- MTAKE: the oldest message, or kind 15 from an empty mailbox. -/
def State.doMtake (s : State) (d : Nat) : Res :=
  let both := fun (s : State) (a b : Word) (p : Bool) => (s.writeG d a p).writeG (d + 1) b p
  match s.here.mailbox with
  | [] => .done (both s 0xF0000000 0 false)
  | m :: rest =>
    let s := s.modHere fun k => { k with mailbox := rest }
    let s := match m.copy with
      | some scope => s.acquireCopy s.cur.1 s.cur.2 scope m.src m.ctx
      | none => s
    .done ((both s m.w0 m.w1 m.poison).notePoison m.poison)
def execMtake (d : BitVec 6) (s : State) : Host.Outcome State Fault Refusal :=
  issue (.mtake d) s fun _ s => s.doMtake d.toNat
def execMtake16 (d : BitVec 5) (s : State) : Host.Outcome State Fault Refusal :=
  issue (.mtake16 d) s fun _ s => s.doMtake d.toNat

/-! ### Circular buffers -/

def Cluster.cb (k : Cluster) (n : Nat) : Option CircBuf := Tab.get none k.cbs n
def State.cb (s : State) (cl n : Nat) : Option CircBuf := (s.cluster cl).cb n
def State.setCb (s : State) (cl n : Nat) (b : CircBuf) : State :=
  s.modCluster cl fun k => { k with cbs := Tab.put k.cbs n (some b) }
/-- The location of a stage. -/
def CircBuf.place (b : CircBuf) (stage : Nat) : Word := addOffset b.base (BitVec.ofNat 64 (stage * b.bytes))
/-- The first stage in a state, in order from an index. -/
def CircBuf.oldest (b : CircBuf) (from_ : Nat) (st : Stage) : Option Nat :=
  ((span 0 b.count).map fun i => (from_ + i) % b.count).find? fun i => b.stages.getD i .free == st

/-- Configure a buffer: its stages are free, and the contexts that wait for it wait on. -/
def State.initCb (s : State) (cl n : Nat) (base : Word) (bytes count : Nat) : State :=
  let old := s.cb cl n
  let parked := fun (f : CircBuf → List (Nat × Nat)) => (old.map f).getD []
  s.setCb cl n
    { base := base, bytes := bytes, count := count, head := 0, tail := 0, stages := List.replicate count .free,
      commits := [], waitAcq := parked (·.waitAcq), waitRd := parked (·.waitRd) }

/-- CBINIT (R153, R273). A pair holds it like its other writes (log 76). -/
def execCbinit (d a : BitVec 6) (n : BitVec 4) (s : State) : Host.Outcome State Fault Refusal :=
  issue (.cbinit d a n) s fun _ s =>
    let b := s.g a.toNat
    let w := s.g d.toNat
    let bytes := bitsN w 23 0
    let count := bitsN w 28 24
    let cl := clusterOf s.cur.1
    if !isChip b || chipLevel b > 1 || chipHandle b = 0 || chipOff b % 64 ≠ 0 || chipOff b + count * bytes > 2 ^ 32 then
      .trap 0x0A 7 b
    else if bytes = 0 || bytes % 64 ≠ 0 || count < 2 || count > 16 || bitsN w 63 29 ≠ 0 then .trap 0x0A 7 w
    else if s.holdsBack then Res.ofPost (s.hold (.cbInit n.toNat b bytes count))
    else .done (s.initCb cl n.toNat b bytes count)

/-- Give the stage at head to a producer. -/
def State.grantAcq (s : State) (cl n : Nat) (b : CircBuf) (c x d : Nat) : State :=
  let w := b.place b.head
  let rel := (Tab.get none b.commits b.head : Option Release).map fun r =>
    (r, s.inScope r.scope r.core r.ctx r.isEngine c x)
  let b' := { b with stages := setAt b.stages b.head .acquired, head := (b.head + 1) % b.count }
  let s := (s.setCb cl n b').noteRelease c x false (some 3) rel
  (s.modCtx c x fun t => t.writeG d w false).passOn c x (bytesOf 8 w) false rel.toList
/-- A consumer acquires a stage: one that a copy committed at the copy's scope (R274), another at clus scope. -/
def State.acquireStage (s : State) (c x : Nat) (rel : Option (Release × Bool)) : State :=
  match rel with
  | some r => if r.1.isEngine then s.acquireCopy c x r.1.scope r.1.core r.1.ctx else s.noteRelease c x false (some 3) rel
  | none => s
/-- Give the stage at tail to a consumer. -/
def State.grantRd (s : State) (cl n : Nat) (b : CircBuf) (c x d : Nat) : State :=
  let w := b.place b.tail
  let b' := { b with stages := setAt b.stages b.tail .taken, tail := (b.tail + 1) % b.count }
  let rel := (Tab.get none b.commits b.tail : Option Release).map fun r =>
    (r, s.inScope r.scope r.core r.ctx r.isEngine c x)
  let s := (s.setCb cl n b').acquireStage c x rel
  (s.modCtx c x fun t => t.writeG d w false).passOn c x (bytesOf 8 w) false rel.toList

/-- The outbox of a pair holds something for a buffer: a configuration, or with `all` a commit or a release too. -/
def State.cbHeld (s : State) (n : Nat) (all : Bool) : Bool :=
  s.cur.2 == 0 && (s.here.pairing.map fun q => q.outbox.any fun h => match h with
    | .cbInit m _ _ _ => m == n
    | .cbCommit m | .cbFree m => all && m == n
    | _ => false).getD false
/-- A request for a stage: what the pair holds for its buffer is done first (R221, R273; log 76); those of one cycle reach the buffer by core number (R271); the odd core of a pair takes what
the even core was given. -/
def State.cbRequest (s : State) (d : BitVec 6) (n : BitVec 4) (k : State → Nat → CircBuf → Res) : Res :=
  let cl := clusterOf s.cur.1
  if s.cbHeld n.toNat true then .interval
  else
  match s.cb cl n.toNat with
  | none => .trap 0x0A 7 (n.setWidth 64)
  | some b =>
    if s.isOdd then
      match s.takePassed with
      | some (r, s) =>
        let s := r.read.foldl (init := s) fun s q => s.acquireStage s.cur.1 s.cur.2 (some q)
        .done (s.writeG d.toNat (leBits 64 r.value.1) r.value.2)
      | none => .stall s
    else if !s.portOpen (.scratch cl) (messageRank s.cur.1) then .stall s
    else k (s.arriveAt (.scratch cl) (messageRank s.cur.1)) cl b

def execCbacq (d : BitVec 6) (n : BitVec 4) (s : State) : Host.Outcome State Fault Refusal :=
  issue (.cbacq d n) s fun _ s =>
    s.cbRequest d n fun s cl b =>
      if b.waitAcq = [] && b.stages.getD b.head .free == .free then
        .done (s.grantAcq cl n.toNat b s.cur.1 s.cur.2 d.toNat)
      else
        .wait ((s.setCb cl n.toNat { b with waitAcq := b.waitAcq ++ [s.cur] }).modMe fun x =>
          { x with wait := .cbacq n.toNat d.toNat })
def execCbwait (d : BitVec 6) (n : BitVec 4) (s : State) : Host.Outcome State Fault Refusal :=
  issue (.cbwait d n) s fun _ s =>
    s.cbRequest d n fun s cl b =>
      if b.waitRd = [] && b.stages.getD b.tail .free == .filled then
        .done (s.grantRd cl n.toNat b s.cur.1 s.cur.2 d.toNat)
      else
        .wait ((s.setCb cl n.toNat { b with waitRd := b.waitRd ++ [s.cur] }).modMe fun x =>
          { x with wait := .cbwait n.toNat d.toNat })

/-- CBACQ_GRANT: the oldest waiting producer receives the stage at head once it is free. -/
def execCbacqGrant (cl n : Nat) (s : State) : Host.Outcome State Fault Refusal :=
  match s.cb cl n with
  | some b =>
    match b.waitAcq with
    | (c, x) :: rest =>
      match (s.ctx c x).wait with
      | .cbacq m d =>
        if m ≠ n then .next (s.setCb cl n { b with waitAcq := rest })
        else if b.stages.getD b.head .free ≠ .free then .next s
        else .next ((s.grantAcq cl n { b with waitAcq := rest } c x d).finish c x [.g d] (s.ctx c x))
      | _ => .next (s.setCb cl n { b with waitAcq := rest })
    | [] => .next s
  | none => .next s
/-- CBWAIT_GRANT: the oldest waiting consumer receives the stage at tail once it is filled. -/
def execCbwaitGrant (cl n : Nat) (s : State) : Host.Outcome State Fault Refusal :=
  match s.cb cl n with
  | some b =>
    match b.waitRd with
    | (c, x) :: rest =>
      match (s.ctx c x).wait with
      | .cbwait m d =>
        if m ≠ n then .next (s.setCb cl n { b with waitRd := rest })
        else if b.stages.getD b.tail .free ≠ .filled then .next s
        else .next ((s.grantRd cl n { b with waitRd := rest } c x d).finish c x [.g d] (s.ctx c x))
      | _ => .next (s.setCb cl n { b with waitRd := rest })
    | [] => .next s
  | none => .next s

/-- The oldest acquired stage becomes filled; with none, the event is counted. -/
def State.commitStage (s : State) (cl n : Nat) (b : CircBuf) (r : Release) : State :=
  match b.oldest b.head .acquired with
  | some i => s.setCb cl n { b with stages := setAt b.stages i .filled, commits := Tab.put b.commits i (some r) }
  | none => s.count Count.idleCommit cl
/-- The oldest taken stage becomes free; with none, the event is counted. -/
def State.freeStage (s : State) (cl n : Nat) (b : CircBuf) (r : Release) : State :=
  match b.oldest b.tail .taken with
  | some i => s.setCb cl n { b with stages := setAt b.stages i .free, commits := Tab.put b.commits i (some r) }
  | none => s.count Count.idleCommit cl

/-- A release at clus scope on a buffer: it waits for the context's earlier accesses. A pair holds it in its outbox,
behind the writes that it releases; a configuration that it holds is made first (R220, R273; log 76). -/
def State.cbRelease (s : State) (n : BitVec 4) (held : Held) (k : State → Nat → CircBuf → Release → State) : Res :=
  let c := s.cur.1
  if s.cbHeld n.toNat false then .interval
  else
  match s.cb (clusterOf c) n.toNat with
  | none => .trap 0x0A 7 (n.setWidth 64)
  | some b =>
    if s.holdsBack then Res.ofPost (s.hold held)
    else if !s.released 3 c s.cur.2 then .stall s
    else .done (k s (clusterOf c) b { core := c, ctx := s.cur.2, isEngine := false, scope := 3 })
def execCbcom (n : BitVec 4) (s : State) : Host.Outcome State Fault Refusal :=
  issue (.cbcom n) s fun _ s => s.cbRelease n (.cbCommit n.toNat) fun s cl b r => s.commitStage cl n.toNat b r
def execCbrel (n : BitVec 4) (s : State) : Host.Outcome State Fault Refusal :=
  issue (.cbrel n) s fun _ s => s.cbRelease n (.cbFree n.toNat) fun s cl b r => s.freeStage cl n.toNat b r

end Sys2Proof.Machine
end

