-- ==== Sys2Proof/Machine/Copy.lean ====
section
/-! DEFINITION. Copy queues and engines: shadow fields, CPYGO, queue joins, the performing of a copy line by line and its
completion (R88-R91, R107, R148-R150, R279-R281, R287). -/
namespace Sys2Proof.Machine

/-! ### Queues and joins -/

def Core.eq (k : Core) (q : Nat) : CopyQueue := Tab.get {} k.eqs q
def Core.modEq (k : Core) (q : Nat) (f : CopyQueue → CopyQueue) : Core := { k with eqs := Tab.update {} k.eqs q f }
/-- Serial numbers of a queue's unfinished entries; queue 4 is mq. -/
def Core.serials (k : Core) (q : Nat) : List Nat :=
  if q = 4 then k.mq.map (·.serial)
  else ((k.eq q).running.map fun r => r.entry.serial).toList ++ (k.eq q).entries.map (·.serial)
/-- Every entry that a join names has completed. -/
def Core.joined (k : Core) (joins : List (Nat × Nat)) : Bool :=
  joins.all fun j => (k.serials j.1).all fun n => j.2 < n
/-- The joins that a new entry of a queue takes. -/
def Core.takeJoins (k : Core) (q : Nat) : List (Nat × Nat) := Tab.get [] k.joins q

/-- EQF: later entries of each named queue wait for what is now in any of them (R88). -/
def execEqf (a : BitVec 6) (s : State) : Host.Outcome State Fault Refusal :=
  issue (.eqf a) s fun _ s =>
    let mask := s.g a.toNat
    let named := (span 0 5).filter mask.getLsbD
    let points := named.filterMap fun q => ((s.here.serials q).getLast?).map fun n => (q, n)
    .done (s.modHere fun k =>
      { k with joins := named.foldl (init := k.joins) fun t q => Tab.put t q (Tab.get [] t q ++ points) })

/-! ### Shadow fields and CPYGO -/

def execCpyset (a : BitVec 6) (f : BitVec 4) (s : State) : Host.Outcome State Fault Refusal :=
  issue (.cpyset a f) s fun _ s =>
    .done (s.modMe fun x => { x with shadow := Tab.put x.shadow f.toNat (x.readG a.toNat) })

def Context.field (x : Context) (f : Nat) : GVal := Tab.get {} x.shadow f
/-- A copy entry at the tail of a queue, with the core's next transfer id. -/
def Core.enqueueCopy (k : Core) (q : Nat) (fields : List Word) (scope : BitVec 4) (ctx life : Nat) (from_ : Option Nat) :
    Core :=
  let e : CopyEntry := { fields := fields, id := k.nextId, ctx := ctx, life := life, era := k.era, serial := k.serial,
                         joins := k.takeJoins q, queue := from_ }
  let t : Transfer := { id := k.nextId, state := .queued, scope := scope, ctx := ctx }
  let k := k.modEq q fun p => { p with entries := p.entries ++ [e] }
  { k with serial := k.serial + 1, nextId := if k.nextId = 0xFFFF then 1 else k.nextId + 1,
           transfers := (t :: k.transfers).take 64 }

/-- CPYGO: the entry that an engine performs counts among the 16 of its queue (log 74). -/
def execCpygo (d : BitVec 6) (s : State) : Host.Outcome State Fault Refusal :=
  issue (.cpygo d) s fun _ s =>
    let fl := (s.me.field 6).bits
    let scope : BitVec 4 := fl.extractLsb' 32 4
    let core := bitsN fl 28 16
    let q := bitsN fl 1 0
    let held := s.here.serials q
    if s.scopeFault s.cur.1 scope then .trap 0x13 0 (scope.setWidth 64)
    else if fl &&& 0x0000F000E000F0CC ≠ 0 || bitsN fl 5 4 = 3 || bitsN fl 43 40 > 5 || bitsN fl 39 36 > 5 ||
        (4095 < core && core ≠ 0x1FFF) then .trap 0x0A 6 fl
    else if core ≤ 4095 && s.partOf core ≠ s.partOf s.cur.1 then .trap 0x06 0 fl
    else
      let fields := (span 0 10).map fun n => (s.me.field n).bits
      let bad := (span 0 10).any fun n => (s.me.field n).poison
      if s.isOdd then
        match s.takeOver with
        | some (r, s) => .done ((s.notePoison bad).writeG d.toNat (leBits 64 r.1) false)
        | none => .stall s
      else if held.length ≥ 16 then .stall s
      else
        let id : Word := s.here.nextId.setWidth 64
        let s := s.modHere fun k => k.enqueueCopy q fields scope s.cur.2 s.me.life none
        .done (((s.passOn s.cur.1 s.cur.2 (bytesOf 8 id) false).notePoison bad).writeG d.toNat id false)

/-- CPYST (R150): a report of completion is an acquire at the copy's scope. -/
def execCpyst (d a : BitVec 6) (s : State) : Host.Outcome State Fault Refusal :=
  issue (.cpyst d a) s fun p s =>
    let id : BitVec 16 := (s.g a.toNat).setWidth 16
    let give := fun (s : State) (w : Word) =>
      Res.done ((s.passOn s.cur.1 s.cur.2 (bytesOf 8 w) false).writeG d.toNat w p)
    if s.isOdd then
      match s.takeOver with
      | some (r, s) =>
        let w : Word := leBits 64 r.1
        let even := partnerOf s.cur.1
        let s := match (s.core even).transfers.find? fun t => t.id == id with
          | some t => if w.msb then s.acquireCopy s.cur.1 s.cur.2 t.scope even t.ctx else s
          | none => s
        .done (s.writeG d.toNat w p)
      | none => .stall s
    else
    match s.here.transfers.find? fun t => t.id == id && id != 0 with
    | none => give s (1 <<< 61)
    | some t =>
      match t.state with
      | .queued => give s 0
      | .running => give s (1 <<< 62)
      | .done status =>
        let s := s.acquireCopy s.cur.1 s.cur.2 t.scope s.cur.1 t.ctx
        give s ((1 <<< 63) ||| BitVec.ofNat 64 status)

/-! ### What an engine reads and writes (R59, R72, R107) -/

/-- Where an engine finds bytes of a location. -/
inductive EngineAt where
  | chip (h : Home) (offs : List Nat)
  | mem (pa : Nat)
  /-- A home that requests go to: a pod peer, or one across a link between dies. -/
  | far (h : Home) (pa : Option Nat)
  /-- The copy ends with a status (Table 5.4). -/
  | fail (status : Nat)
  | ask (va : Nat)
  /-- The home belongs to a pre-empted task: it is waited for (log 49). -/
  | wait
  deriving DecidableEq, Repr

/-- The home of an on-chip location that an engine names. -/
def State.engineHome (s : State) (c : Nat) (w : Word) : Home :=
  if chipLevel w = 0 then .localMem (s.named c w) else .scratch (clusterOf (s.named c w))
/-- The location lies in the core's own local memory or its cluster's scratchpad. -/
def State.engineNear (s : State) (c : Nat) (w : Word) : Bool :=
  if chipLevel w = 0 then s.named c w == c else clusterOf (s.named c w) == clusterOf c

/-- An engine access for a core, with a rotation code. What lies on another die is checked at its home. -/
def State.engineAt (s : State) (c : Nat) (w : Word) (size rot : Nat) (write : Bool) : EngineAt :=
  let want := if write then Want.write else Want.read
  if isChip w then
    let lvl := chipLevel w
    let core := s.named c w
    let h := s.engineHome c w
    let inbox := write && s.columnInbox core (chipHandle w)
    if lvl > 1 || core > 4095 || chipHandle w = 0 then .fail 3
    else if (s.partOf core ≠ s.partOf c && !inbox) || (rot ≠ 0 && lvl = 0) then .fail 4
    else if (s.core core).killed then .fail 8
    else if h.die ≠ dieOf c then .far h none
    else if !s.engineNear c w && !inbox && !(s.core core).admits c lvl (chipHandle w) want then .fail 2
    else if s.savedHome h then .wait
    else
      match s.tileFor h w size with
      | none => .fail 3
      | some t => .chip h (t.physAll lvl rot (chipOff w) size)
  else if rot ≠ 0 then .fail 4
  else
    match s.translateNow (dieOf c) (s.spaceOf c) w want with
    | .failed => .fail 4
    | .ask => .ask (bitsN w 56 0)
    | .ok pa =>
      if inPeer pa then if (s.peer (peerOf pa)).isolated then .fail 7 else .far (.peer (peerOf pa)) (some pa)
      else if (Home.channel (channelOf pa)).die ≠ dieOf c then .far (.channel (channelOf pa)) (some pa)
      else if s.owned (s.odiOf c) pa then .mem pa else .fail 6

/-- What a failed access of an engine leaves at its home: handle failures and owner mismatches are counted there, an
uncorrectable page-table entry is listed (R59, R69, R72). -/
def State.engineNote (s : State) (c : Nat) (w : Word) (n : Nat) (write : Bool) (status : Nat) : State :=
  let act := if write then Act.write (List.replicate n 0) [] else .read n
  match status with
  | 3 => if isChip w then s.countDropped act (s.engineHome c w) else s
  | 4 => s.walkFailed (dieOf c) (s.spaceOf c) w
  | 6 => match s.translateNow (dieOf c) (s.spaceOf c) w (if write then .write else .read) with
    | .ok pa => s.countMismatch act (.channel (channelOf pa))
    | _ => s
  | _ => s

/-- The home of what an engine accesses at once. -/
def EngineAt.home : EngineAt → Option Home
  | .chip h _ => some h
  | .mem pa => some (.channel (channelOf pa))
  | _ => none
/-- The barriers of a core that count what an engine writes there (R162). -/
def State.engineCounts (s : State) (c : Nat) : EngineAt → List Nat
  | .chip h _ | .far h _ => s.plotsHolding c h
  | _ => []
/-- The home serves an engine of a rank in this cycle: its array is free, and its port has served nothing later (R79,
R214, R247). -/
def State.engineFree (s : State) (at' : EngineAt) (rank : Nat) : Bool :=
  match at'.home with
  | some h => s.portFree h rank
  | none => at' != .wait
def State.engineArrives (s : State) (at' : EngineAt) (rank : Nat) : State :=
  match at'.home with
  | some h => s.arriveAt h rank
  | none => s
/-- The budget of a peer's direction that holds an engine back (R211). -/
def State.engineStall (s : State) (at' : EngineAt) (write : Bool) : Option (Nat × Nat) :=
  match at' with
  | .far (.peer id) _ =>
    let direction := if write then 1 else 7
    if s.budgetLeft direction id then none else some (direction, id)
  | _ => none

/-- Read what an engine found on this die. -/
def State.engineRead (s : State) (c : Nat) (at' : EngineAt) (size : Nat) : List Byte × Bool :=
  match at' with
  | .chip h offs => (s.storeAt h).load offs
  | .mem pa => let r := s.actDram (s.odiOf c) pa (.read size) false none; (r.2.1, r.2.2.1)
  | _ => (List.replicate size 0, true)

/-- A packet of an engine that acts for a core: its context number is 11 and the queue's (log 29). It carries the barriers
that count the line, a request for it too, from its issue on (R162). -/
def State.enginePacket (s : State) (c q : Nat) (w : Word) (h : Home) (pa : Option Nat) (rot : Nat) (a : Act) (bad : Bool)
    (op : Option Nat) (counted : List Nat) : Packet :=
  { id := s.nextNum, core := c, ctx := 11 + q, life := 0, era := (s.core c).era, loc := w, pa := pa,
    home := h, act := a, poison := bad, odi := s.odiOf c, op := op, part := 0, order := 0, scope := 0,
    counted := counted, bytes := a.size, group := none, noMerge := true, isLocal := false,
    rot := if pa.isSome then none else some rot }
/-- An engine asks a home for bytes. -/
def State.engineAsk (s : State) (c q : Nat) (w : Word) (h : Home) (pa : Option Nat) (rot n : Nat) (dest : Dest)
    (counted : List Nat) : State :=
  let num := s.nextNum
  let op : Op := { core := c, ctx := 11 + q, life := 0, era := (s.core c).era, dest := dest, loc := w, holds := false,
                   left := 1, parts := [], acq := none, nack := none, taint := false }
  let p := s.enginePacket c q w h pa rot (.read n) false (some num) counted
  ({ s with ops := Tab.put s.ops num (some op), nextNum := num + 1 }).launchPacket { p with id := num + 1 }

/-- Write at once where an engine found room on this die; a store outside the own storage stands in the trace ring (R80). -/
def State.engineWrite (s : State) (c : Nat) (w : Word) (at' : EngineAt) (data : List Byte) (poison : Bool) : State :=
  match at' with
  | .chip h offs =>
    let s := if s.engineNear c w then s else s.traceAt c w
    (s.actChip h offs (.write data []) poison none).1
  | .mem pa => (s.actDram (s.odiOf c) pa (.write data []) poison none).1
  | _ => s
/-- How an answer from a home ends a copy: its status in Table 5.4; 0 when it does not. A completion with an error that a
pod peer gives is taken for a failed translation or permission there (log 33); what a link has lost, for poison (R172). -/
def State.engineStatus (s : State) (p : Packet) (a : Answer) : Nat :=
  match a, p.home with
  | .done, _ => 0
  | _, .peer id => if (s.peer id).isolated then 7 else if a = .dropped then 4 else 0
  | .nack, _ => 2
  | .dropped, .channel _ => 6
  | .dropped, _ => 3
  | .lost, .localMem c => if (s.core c).killed then 8 else 0
  | .lost, _ => 0

/-! ### The pieces of a copy -/

def lineRoom (w : Word) : Nat := 64 - bitsN w 5 0
/-- A row cut into pieces that lie within a line at either side: source, destination, length. -/
def rowPieces : Nat → Word → Word → Nat → List (Word × Word × Nat)
  | 0, _, _, _ => []
  | fuel + 1, src, dst, n =>
    if n = 0 then []
    else
      let k := min n (min (lineRoom src) (lineRoom dst))
      let next := BitVec.ofNat 64 k
      (src, dst, k) :: rowPieces fuel (addOffset src next) (addOffset dst next) (n - k)
/-- The pieces of a copy with their rows: row r of all planes stands r pitches on at either side (R149). -/
def copyPieces (fields : List Word) : List (Nat × Word × Word × Nat) :=
  let f := fun n => fields.getD n 0
  let low := fun n => (f n).toNat % 2 ^ 32
  (span 0 (low 9 * low 3)).flatMap fun r =>
    let at' := fun (base pitch : Nat) => addOffset (f base) (BitVec.ofNat 64 (r * low pitch))
    (rowPieces (low 2) (at' 0 4) (at' 1 5) (low 2)).map fun p => (r, p)

/-- Change what is known of a queue's running copy. -/
def State.modRun (s : State) (c q : Nat) (f : CopyRun → CopyRun) : State :=
  s.modCore c fun k => k.modEq q fun p => { p with running := p.running.map f }
/-- An error ends a copy before its next line, the first with its status; a copy that has met poison goes on, and reports
it (R107). -/
def CopyRun.fail (r : CopyRun) (status : Nat) : CopyRun :=
  { r with status := if r.status = 0 || r.status = 5 then status else r.status, todo := [], guard := false }
def CopyRun.wrote (r : CopyRun) (n : Nat) (poison : Bool) : CopyRun :=
  { r with bytes := r.bytes + n, status := if r.status = 0 && poison then 5 else r.status }
/-- A request or a write is answered: with a status that ends the copy, or with `g`. -/
def CopyRun.answered (r : CopyRun) (status : Nat) (g : CopyRun → CopyRun) : CopyRun :=
  let r := { r with left := r.left - 1 }
  if status = 0 then g r else r.fail status

/-- A line goes to where the engine writes it: at once on this die, and it is counted among the bytes; else by a packet, to
be counted when that has been answered. A line that was asked for keeps its number: it was issued then (R162). -/
def State.putLine (s : State) (c q rank : Nat) (dst : Word) (rot : Nat) (dest : EngineAt) (data : List Byte) (poison : Bool)
    (counted : List Nat) (asked : Option Nat) : State :=
  match dest with
  | .far h pa =>
    let p := s.enginePacket c q dst h pa rot (.write data []) poison none counted
    (s.launchPacket { p with id := asked.getD p.id }).modRun c q fun r => { r with left := r.left + 1 }
  | _ => ((s.engineArrives dest rank).engineWrite c dst dest data poison).modRun c q fun r => r.wrote data.length poison

/-- An engine performs one piece: its budget is checked before each line (R211), and it waits for translations, busy
arrays and ports. A piece of a pod peer or of another die is asked for. -/
def State.copyPiece (s : State) (c q : Nat) (r : CopyRun) (i : Nat) (src dst : Word) (n : Nat) : State :=
  let fl : Word := r.entry.fields.getD 6 0
  let rs := bitsN fl 39 36
  let rd := bitsN fl 43 40
  let rank := engineRank (dieOf c) r.engine
  let seek := fun (va : Nat) want => s.seek (dieOf c) (s.spaceOf c) va want
  let odi := s.odiOf c
  if !s.budgetLeft 0 odi then s.budgetStall 0 odi
  else
    match s.engineAt c src n rs false, s.engineAt c dst n rd true with
    | .ask va, _ => seek va .read
    | .fail e, _ => (s.engineNote c src n false e).modRun c q fun r => r.fail e
    | _, .ask va => seek va .write
    | _, .fail e => (s.engineNote c dst n true e).modRun c q fun r => r.fail e
    | from_, dest =>
      if !s.engineFree from_ rank || !s.engineFree dest rank then s
      else
        match (s.engineStall from_ false).or (s.engineStall dest true) with
        | some b => s.budgetStall b.1 b.2
        | none =>
          let s := (s.spend 0 odi n).modRun c q fun r => { r with todo := r.todo.filter (· != i) }
          let s := s.engineArrives from_ rank
          match from_ with
          | .far h pa =>
            (s.engineAsk c q src h pa rs n (.copied q dst rd) (s.engineCounts c dest)).modRun c q fun r =>
              { r with left := r.left + 1 }
          | _ =>
            let got := s.engineRead c from_ n
            s.putLine c q rank dst rd dest got.1 got.2 (s.engineCounts c dest) none

/-- Say what has become of a transfer. -/
def Core.markTransfer (k : Core) (id : BitVec 16) (st : CopyState) : Core :=
  match takeFirst (fun (t : Transfer) => t.id == id) k.transfers with
  | some _ =>
    let first := k.transfers.findIdx fun t => t.id == id
    { k with transfers := k.transfers.zipIdx.map fun t => if t.2 == first then { t.1 with state := st } else t.1 }
  | none => k

/-- An engine takes the head entry of a queue: it reads the guard, beyond its die by a request, and ends the copy when it
fails or does not match; an entry that had begun before a pre-emption goes on with what it had left (R111, R149). -/
def State.beginCopy (s : State) (c q engine : Nat) (e : CopyEntry) (rest : List CopyEntry) : State :=
  let f := fun n => e.fields.getD n 0
  let w := f 7
  let take := fun (s : State) (r : CopyRun) => s.modCore c fun k =>
    (k.modEq q fun _ => { entries := rest, running := some r }).markTransfer e.id .running
  let run : CopyRun := match e.begun with
    | some b => { entry := e, engine := engine, status := b.2.1, bytes := b.2.2, left := 0, todo := b.1 }
    | none => { entry := e, engine := engine, status := 0, bytes := 0, left := 0, todo := span 0 (copyPieces e.fields).length }
  if (s.core c).killed then take s (run.fail 8)
  else if e.begun.isSome || w = 0 then take s run
  else if (if isChip w then chipOff w else bitsN w 56 0) % 8 ≠ 0 then take s (run.fail 9)
  else
    match s.engineAt c w 8 0 false with
    | .fail n => take (s.engineNote c w 8 false n) (run.fail n)
    | .ask va => s.seek (dieOf c) (s.spaceOf c) va .read
    | .far h pa =>
      match s.engineStall (.far h pa) false with
      | some b => s.budgetStall b.1 b.2
      | none => (take s { run with guard := true }).engineAsk c q w h pa 0 8 (.guard q) []
    | at' =>
      let rank := engineRank (dieOf c) engine
      if !s.engineFree at' rank then s
      else take (s.engineArrives at' rank) (if leBits 64 (s.engineRead c at' 8).1 = f 8 then run else run.fail 1)

/-- The guard word has come by a reply, or the read of it has failed with a status (R149). -/
def State.guardArrived (s : State) (c q status : Nat) (data : List Byte) : State :=
  s.modRun c q fun r =>
    if !r.guard then r
    else if status ≠ 0 then r.fail status
    else if leBits 64 data = r.entry.fields.getD 8 0 then { r with guard := false } else r.fail 1
/-! ### Events -/

/-- Engines of a die. -/
def engineCount : Nat := 16
/-- Numbers of a die's engines in use. -/
def State.enginesUsed (s : State) (die : Nat) : List Nat :=
  (s.cores.filter fun e => dieOf e.1 == die).flatMap fun e =>
    e.2.eqs.filterMap fun q => q.2.running.map (·.engine)
def State.freeEngine (s : State) (die : Nat) : Option Nat :=
  (span 0 engineCount).find? fun n => !(s.enginesUsed die).contains n

/-- COPY_START: the lowest free engine of the die takes the head entry of a queue; or the running copy performs one of the
pieces that it has left, in any order (R90). -/
def execCopyStart (c : Nat) (turn : CopyTurn) (s : State) : Host.Outcome State Fault Refusal :=
  let k := s.core c
  let q := turn.queue
  let piece := turn.piece
  match (k.eq q).running, (k.eq q).entries with
  | some r, _ =>
    if r.guard || !r.todo.contains piece || k.saved.isSome then .next s
    else match (copyPieces r.entry.fields)[piece]? with
      | some p => .next (s.copyPiece c q r piece p.2.1 p.2.2.1 p.2.2.2)
      | none => .next s
  | none, e :: rest =>
    match s.freeEngine (dieOf c) with
    | none => .next s
    | some engine => whenDue (k.joined e.joins && k.saved.isNone) s (s.beginCopy c q engine e rest)
  | none, [] => .next s

/-- A copy's completion message (R150). -/
def copyMessage (q : Nat) (r : CopyRun) : Word :=
  BitVec.ofNat 64 (r.entry.id.toNat + r.status * 2 ^ 16 + q * 2 ^ 24 + 2 ^ 28 + min r.bytes 0xFFFFFFFF * 2 ^ 32)

/-- COPY_COMPLETION: with every write performed, the copy sends its message, commits a stage or does neither; an error
other than a guard's sets chk bit 4. A stage of a buffer that is not configured counts as an idle commit (log 73). -/
def execCopyCompletion (c q : Nat) (s : State) : Host.Outcome State Fault Refusal :=
  match ((s.core c).eq q).running with
  | none => .next s
  | some r =>
    if r.left ≠ 0 || r.todo ≠ [] || r.guard then .next s
    else
      let fl : Word := r.entry.fields.getD 6 0
      let scope : BitVec 4 := fl.extractLsb' 32 4
      let s := s.dropTables.modCore c fun k =>
        (k.modEq q fun p => { p with running := none }).markTransfer r.entry.id (.done r.status)
      let s := if r.status > 1 && r.entry.queue.isNone then s.chkEvent c r.entry.ctx r.entry.life r.entry.era 4 else s
      let s := match r.entry.queue with
        | some n => s.modQueue n fun k => { k with copies := k.copies - 1, dirty := true }
        | none => s
      let n := bitsN fl 28 16
      let dest := if n = 0x1FFF then c else n
      let msg : Msg := { w0 := copyMessage q r, w1 := BitVec.ofNat 64 (bitsN fl 63 48), poison := false, src := c,
                         ctx := r.entry.ctx, copy := some scope }
      match bitsN fl 5 4 with
      | 0 =>
        let flight : MsgFlight := { dst := dest, msg := msg, era := r.entry.era, engine := some (16 * dieOf c + r.engine) }
        let s := s.sendMsg flight
        .next (match (s.core c).pairing with
          | some p => if dest = c && r.entry.queue.isNone then s.sendMsg { flight with dst := p.partner } else s
          | none => s)
      | 2 =>
        let cl := clusterOf c
        let n := bitsN fl 11 8
        match s.cb cl n with
        | some b => .next (s.commitStage cl n b { core := c, ctx := r.entry.ctx, isEngine := true, scope := scope })
        | none => .next (s.count Count.idleCommit cl)
      | _ => .next s

/-- A line that a copy asked for has come: it is written and counts among the bytes, or the copy's status says why not; an
error has ended the copy's writing. None while a translation, an array, a port or a budget is waited for. -/
def State.copyArrived (s : State) (c q : Nat) (dst : Word) (rot : Nat) (p : Packet) (status : Nat) (data : List Byte)
    (poison : Bool) : Option State × State :=
  let come := fun (s : State) (g : CopyRun → CopyRun) =>
    let t := (s.subPending c p.counted p.bytes).modRun c q fun r => r.answered status g
    (some t, t)
  match ((s.core c).eq q).running with
  | none => let t := s.subPending c p.counted p.bytes; (some t, t)
  | some r =>
    let rank := engineRank (dieOf c) r.engine
    if status ≠ 0 || (r.status ≠ 0 && r.status ≠ 5) then come s id
    else
      match s.engineAt c dst data.length rot true with
      | .ask va => (none, s.seek (dieOf c) (s.spaceOf c) va .write)
      | .fail e => come (s.engineNote c dst data.length true e) fun r => r.fail e
      | dest =>
        if !s.engineFree dest rank then (none, s)
        else match s.engineStall dest true with
          | some b => (none, s.budgetStall b.1 b.2)
          | none => come (s.putLine c q rank dst rot dest data poison p.counted (some p.id)) id
/-- A write of a copy is answered by its home. -/
def State.lineAnswered (s : State) (p : Packet) (a : Answer) : State :=
  s.modRun p.core (p.ctx - 11) fun r =>
    r.answered (s.engineStatus p a) fun r => if a = .done then r.wrote p.bytes p.poison else r

end Sys2Proof.Machine
end

