-- ==== Sys2Proof/Machine/Pair.lean ====
section
/-! DEFINITION. Redundant pairing: the rendezvous, the end of an interval, commit and rollback, escalation, UNPAIR
(R217-R223, R330, R356). -/
namespace Sys2Proof.Machine

/-- The control context of a core is parked in PAIR. -/
def State.pairWaits (s : State) (c : Nat) : Bool :=
  match (s.ctx c 0).wait with
  | .pair _ => true
  | _ => false

/-- PAIR: it waits for outstanding loads, so that the checkpoint holds what they bring (R217), and parks until the
partner has issued it too. A PAIR that faults makes a partner that is parked in it fault. -/
def execPair (s : State) : Host.Outcome State Fault Refusal :=
  let q := partnerOf s.cur.1
  let faults := s.ready s.cur.1 s.cur.2 && s.me.loads == [] && (commonFault .pair s == some (0x16, 0, 0)) && s.pairWaits q
  let s := if faults then s.trapCtx q 0 0x16 0 0 4 else s
  issue .pair s fun _ s =>
    let k := s.core q
    if s.me.loads ≠ [] then .stall s
    else if k.killed || k.part.isNone then .trap 0x16 0 0
    else .wait (s.modMe fun x => { x with wait := .pair s.cycle })

/-- A core begins its first interval: the checkpoint is its control context after PAIR. -/
def Core.couple (k : Core) (c partner : Nat) : Core :=
  let p : Pairing :=
    { partner := partner, even := decide (c < partner), print := 0, retired := 0, interval := k.pivl.toNat, classes := 0,
      undo := [], outbox := [], stores := [], checkpoint := k.ctx 0, mismatches := 0, verified := 0, replies := [] }
  { k with pairing := some p }

/-- PAIR_RENDEZVOUS: both partners have issued PAIR; or the partner is out of service, and the one that waits faults. -/
def execPairRendezvous (c : Nat) (s : State) : Host.Outcome State Fault Refusal :=
  let q := partnerOf c
  if !s.pairWaits c then .next s
  else if (s.core q).killed || (s.core q).part.isNone then .next (s.trapCtx c 0 0x16 0 0 4)
  else if !s.pairWaits q then .next s
  else
    let s := (s.finish c 0 []).finish q 0 []
    .next ((s.modCore c fun k => k.couple c q).modCore q fun k => k.couple q c)

/-- PAIR_TIMEOUT: the partner has not issued PAIR in 2^20 cycles. -/
def execPairTimeout (c : Nat) (s : State) : Host.Outcome State Fault Refusal :=
  match (s.ctx c 0).wait with
  | .pair since => whenDue (since + 2 ^ 20 ≤ s.cycle) s (s.trapCtx c 0 0x16 0 0 4)
  | _ => .next s

/-! ### The end of an interval (R221, R223) -/

/-- A held CBCOM or CBREL acts once it is a release at clus scope; on a buffer that has gone it does nothing. -/
def State.sendCb (s : State) (c n : Nat) (k : State → Nat → CircBuf → Release → State) : Option State :=
  match s.cb (clusterOf c) n with
  | none => some s
  | some b =>
    if s.released 3 c 0 then some (k s (clusterOf c) b { core := c, ctx := 0, isEngine := false, scope := 3 }) else none
/-- Send one entry of the even core's outbox, under the number that it was issued with; none while it is a release that still waits. -/
def State.sendHeld (s : State) (c : Nat) : Held → Option State
  | .packet p =>
    if (p.order = 2 || p.order = 3) && !s.released p.scope c 0 then none
    else some (s.launchPacket p)
  | .packets ps => some (ps.foldl State.launchPacket s)
  | .message m => if s.released 6 c 0 then some (s.launchMsg m) else none
  | .meet m => some (s.launchMeet m)
  | .final l stage point => if s.released 6 c 0 then some (s.declareFinal l stage point) else none
  | .cbInit n base bytes count => some (s.initCb (clusterOf c) n base bytes count)
  | .cbCommit n => s.sendCb c n fun s cl b r => s.commitStage cl n b r
  | .cbFree n => s.sendCb c n fun s cl b r => s.freeStage cl n b r
/-- Send entries in order up to one that waits; what is left. -/
def State.sendOutbox (c : Nat) : List Held → State → State × List Held
  | [], s => (s, [])
  | h :: rest, s => match s.sendHeld c h with
    | some t => State.sendOutbox c rest t
    | none => (s, h :: rest)

/-- A verified interval: an empty undo log and outbox, a new checkpoint, and the next interval. -/
def Core.verify (k : Core) : Core :=
  let k := k.modCtx 0 fun x => { x with wait := .none }
  { k with pairing := k.pairing.map fun p =>
      { p with print := 0, retired := 0, classes := 0, undo := [], outbox := [], stores := [], checkpoint := k.ctx 0,
               mismatches := 0, verified := p.verified + 1, committing := false } }

/-- Restore lines of the local memory. -/
def Store.restore (m : Store) : List (Nat × (List Byte × List Bool)) → Store
  | [] => m
  | (line, bytes, marks) :: rest =>
    let m : Store := { m with bytes := m.bytes.write (64 * line) bytes,
                              poison := marks.zipIdx.foldl (init := m.poison) fun t e => Tab.set false t (8 * line + e.2) e.1 }
    m.restore rest
/-- Roll a core back to its checkpoint. -/
def Core.rollBack (k : Core) : Core :=
  match k.pairing with
  | none => k
  | some p =>
    let undone := p.outbox.any fun h => match h with | .final _ _ _ => true | _ => false
    let k := { k with store := k.store.restore p.undo.reverse, cvdone := k.cvdone && !undone }
    let k := k.modCtx 0 fun _ => { p.checkpoint with wait := .none }
    { k with pairing := some { p with print := 0, retired := 0, classes := 0, undo := [], outbox := [], stores := [],
                                      replies := [], mismatches := p.mismatches + 1 } }

/-- The third mismatch of an interval: both cores, which have rolled back, are tested for the classes it used, and their
task is delivered again, to another pair. -/
def State.escalate (s : State) (a b : Nat) (classes : BitVec 28) : State :=
  let bar := fun (k : Core) => { k with task := k.task.map fun t => { t with barred := t.barred ++ [a] } }
  let s := (s.modCore a bar).modCore b bar
  let s := (s.modCore a fun k => k.queueRedelivery 0).modCore b fun k => k.queueRedelivery 0
  let s := ((s.stopTask a).count Count.escalation a).count Count.escalation b
  let test : SelfTest := { classes := classes, cause := 1, since := s.cycle }
  let begin_ := fun (k : Core) => { k with selfTest := some test }
  (s.modCore a begin_).modCore b begin_

/-- Both partners have stopped at the end of the interval, or one has and the other has retired more (log 34). -/
def State.compareDue (s : State) (c : Nat) (p q : Pairing) : Bool :=
  (s.ctx c 0).wait == .interval && ((s.ctx p.partner 0).wait == .interval || p.retired < q.retired)

/-- PAIR_INTERVAL_COMPARE. While entries of the outbox wait as releases, the event comes about again. -/
def execPairIntervalCompare (c : Nat) (s : State) : Host.Outcome State Fault Refusal :=
  match (s.core c).pairing with
  | none => .next s
  | some p =>
    match (s.core p.partner).pairing with
    | none => .next s
    | some q =>
      if !s.compareDue c p q && !s.compareDue p.partner q p then .next s
      else
        let even := if p.even then c else p.partner
        let odd := if p.even then p.partner else c
        let own := if p.even then p else q
        if own.committing || (p.print == q.print && p.retired == q.retired && p.classes == q.classes) then
          let r := State.sendOutbox even own.outbox s
          let s := r.1.modCore even fun k => { k with pairing := some { own with outbox := r.2, committing := true } }
          .next (if r.2 = [] then (s.modCore even Core.verify).modCore odd Core.verify else s)
        else
          let both := fun (s : State) (c : Nat) =>
            (((s.count Count.pairMismatch c).count Count.rollback c).unpark c 0).modCore c Core.rollBack
          let t := both (both s even) odd
          .next (if p.mismatches ≥ 2 then t.escalate even odd (p.classes ||| q.classes) else t)

/-- UNPAIR: what is unverified ends its interval first; then both cores go on by themselves. -/
def execUnpair (s : State) : Host.Outcome State Fault Refusal :=
  issue .unpair s fun _ s => .done (if s.here.pairing.isSome then s.unpair s.cur.1 else s)

end Sys2Proof.Machine
end

