-- ==== Sys2Proof/Machine/Matrix.lean ====
section
/-! DEFINITION. The matrix queue: operand records, MMA, MMAG, tile loads and stores, their steps under the arbiter,
batches and busy tiles, and the tile instructions that act at issue (R52, R53, R88, R90, R106, R108, R139-R147, R312,
R317, R318, R326, R351, R352). -/
namespace Sys2Proof.Machine

/-! ### Operand records (R141, R142) -/

/-- The 24 registers of a group, lowest bytes first. -/
def Context.group (x : Context) (n : Nat) : List Byte := (span (8 * n) 24).flatMap fun r => vecBytes (x.readV r).bits

/-- The record of the pair at g`x`, or the word that is malformed (log 35). -/
def State.operand (s : State) (x : Nat) (vgOk : Bool) : Except Word Operand :=
  let w := s.g x
  let w2 := s.g (x + 1)
  let rot := bitsN w2 35 32
  let n := bitsN w2 7 0
  let scratch := isChip w && chipLevel w == 1
  if bitsN w2 63 41 ≠ 0 || bitsN w2 39 36 ≠ 0 then .error w2
  else if isVg w2 then
    if !vgOk || rot ≠ 0 || bitsN w2 31 8 ≠ 0 || n > 5 then .error w2
    else .ok { loc := 0, rot := 0, tp := 0, rp := 96, group := some (s.me.group n) }
  else if rot > 5 || (rot ≠ 0 && !scratch) then .error w2
  else if bitsN w 2 0 ≠ 0 then .error w
  else if bitsN w2 2 0 ≠ 0 then .error w2
  else .ok { loc := w, rot := rot, tp := bitsN w2 31 16, rp := bitsN w2 15 0, group := none }

/-- Poison among the registers of a group operand. -/
def State.groupPoison (s : State) (x : Nat) : Bool := (s.groupSources x).any s.me.poison

/-! ### Types and depths (R143) -/

/-- Bits of an element of a type in memory, for the format register it names. -/
def typeBits (ty : BitVec 5) (fm : BitVec 32) : Nat :=
  if isNarrow ty then match narrowFmt fm with | some f => if f.width ≤ 4 then 4 else 8 | none => 8 else laneWidth ty
/-- K_step of a source type; none for a type outside the set. -/
def depth (ty : BitVec 5) (fm : BitVec 32) : Option Nat :=
  if isNarrow ty || ty == 0 || ty == 1 || ty == 8 || ty == 9 || ty == 10 then some (768 / typeBits ty fm) else none
def Context.fmOf (x : Context) (ty : BitVec 5) : BitVec 32 := if isNarrow ty then x.readFm (ty.toNat - 16) else 0
/-- Elements of a row of bytes. -/
def elementAt (ty : BitVec 5) (fm : BitVec 32) (row i : Nat) : Nat :=
  let b := typeBits ty fm
  let x := row / 2 ^ (b * i) % 2 ^ b
  if isNarrow ty then match narrowFmt fm with | some f => x % 2 ^ f.width | none => x else x

/-! ### Pieces of an operand -/

/-- Bytes that a step reads at one place: a key within the step, the location and how many. -/
abbrev Piece := Nat × Word × Nat

/-- An options word's fields (Table 7.2). -/
def optB (e0 : Word) : BitVec 5 := e0.extractLsb' 5 5
def optSteps (e0 : Word) : Nat := bitsN e0 19 12

/-- Rows of A for one step. -/
def aPieces (a : Operand) (row0 m step : Nat) : List Piece :=
  (span row0 m).map fun r => (r, addOffset a.loc (BitVec.ofNat 64 (r * a.rp + 96 * step)), 96)
/-- Columns or rows of B for one step, `off` bytes on; keys from 16. -/
def bPieces (b : Operand) (bt : Bool) (k width off step : Nat) : List Piece :=
  if bt then (span 0 16).map fun c => (16 + c, addOffset b.loc (BitVec.ofNat 64 (off + c * b.rp + 96 * step)), 96)
  else (span 0 k).map fun j => (16 + j, addOffset b.loc (BitVec.ofNat 64 (off + (step * k + j) * b.rp)), width)

/-! ### Issue-time checks (R106) -/

/-- What a remote home would refuse: windows, then the handle. -/
def State.farFault (s : State) (c : Nat) (pl : Place) (n : Nat) (want : Want) : Option (BitVec 8 × BitVec 8) :=
  match pl with
  | .chip lvl core h gen off false =>
    let t := (s.storeAt pl.home).tile h
    if !(s.core core).admits c lvl h want then some (0x07, 0)
    else if !t.used then some (0x09, 1)
    else if t.gen ≠ gen then some (0x09, 2)
    else if off + n > t.rows * t.rowBytes then some (0x09, 3)
    else none
  | _ => none

/-- Check one location, remote homes included; the storage of a pre-empted task is waited for (log 49). -/
def State.checkAt (s : State) (w : Word) (n : Nat) (want : Want) (k : Unit → Res) : Res :=
  s.locate w n 1 want fun pl =>
    if s.savedHome pl.home then .stall s
    else match s.farFault s.cur.1 pl n want with
    | some f => .trap f.1 f.2 w
    | none => k ()
/-- Check every byte of the pieces in order; of virtual addresses, the pages of the first and the last. A fault's tval is
the location of the piece that fails, at a page that only its last byte enters that byte's address (log 89). -/
def State.checkPieces (s : State) (want : Want) (k : Unit → Res) : List Piece → Res
  | [] => k ()
  | (_, w, n) :: rest =>
    if isChip w then s.checkAt w n want fun _ => s.checkPieces want k rest
    else s.checkAt w 1 want fun _ => s.checkAt (w + BitVec.ofNat 64 (n - 1)) 1 want fun _ => s.checkPieces want k rest

/-- A word read by request and reply for the instruction at pc; it is read once (R143; log 63). -/
def State.sideWord (s : State) (w : Word) (k : State → Word → Res) : Res :=
  let found := fun (t : State) => t.me.side.find? fun e => e.1 == w.toNat
  match found s with
  | some e => k s e.2.1
  | none =>
    match s.check s.cur.1 s.me.walkErr w 8 1 .read with
    | .ok pl =>
      match s.ask [(0, w, pl, .read 8)] (.side w.toNat) none 0 0 false true false false with
      | .done t => k t (((found t).map fun e => e.2.1).getD 0)
      | r => r
    | _ => .stall s

/-- Read aligned words one after the other. -/
def State.sideWords (k : State → List Word → Res) : List Word → List Word → State → Res
  | [], acc, s => k s acc.reverse
  | w :: ws, acc, s => s.sideWord w fun s v => State.sideWords k ws (v :: acc) s

/-- The side entry that says that the group table has failed: no location's key. -/
def badTable : Nat := 2 ^ 64
/-- The group table: G row counts, read at issue; any failure is subcode 4 (R144, R318), raised once `first` has found
no fault of A. That it has failed is kept while A's page is walked for. A reply that says that the table cannot be read
any more makes the instruction check it again. -/
def State.groupTable (s : State) (e3 : Word) (g : Nat) (first : State → (Unit → Res) → Res) (k : State → List Nat → Res) :
    Res :=
  let low := e3.toNat / 8
  let last := (e3.toNat + 2 * g - 1) / 8
  let words := (span low (last + 1 - low)).map fun n => BitVec.ofNat 64 (8 * n)
  let bad := words.any fun w => match s.check s.cur.1 s.me.walkErr w 8 1 .read with
    | .trap _ _ => true
    | .ok pl => !s.savedHome pl.home && (s.farFault s.cur.1 pl 8 .read).isSome
    | .walk _ => false
  if bitsN e3 0 0 ≠ 0 || bad || s.me.side.any fun e => e.1 == badTable then
    first (s.modMe fun x => { x with side := (badTable, (0, false)) :: x.side }) fun _ => .trap 0x0A 4 e3
  else
    s.checkPieces .read (fun _ =>
      State.sideWords (fun s ws =>
        let bytes := (ws.flatMap (bytesOf 8)).drop (e3.toNat % 8)
        let rows := (span 0 g).map fun i => leNat ((bytes.drop (2 * i)).take 2)
        if rows.foldl (· + ·) 0 > 16 then first s fun _ => .trap 0x0A 4 e3 else k s rows) words [] s)
      (words.map fun w => (0, w, 8))

/-! ### The queue (R139, R145, R146) -/

/-- An instruction that names the tile is not yet covered. -/
def Core.busy (k : Core) (t : Nat) : Bool := k.openBatch.tiles.contains t || k.batches.any fun b => b.tiles.contains t

/-- Take an entry; the context stalls while the queue is full. -/
def State.enqueueMat (s : State) (e : MatEntry) : Res :=
  let k := s.here
  if k.mq.length ≥ 8 then .stall s
  else
    let n := k.serial
    let e := { e with serial := n, joins := k.takeJoins 4, ctx := s.cur.2 }
    .done (s.modHere fun k =>
      { k with mq := k.mq ++ [e], serial := n + 1,
               openBatch := { k.openBatch with entries := k.openBatch.entries ++ [n],
                                               tiles := insertNat e.tile k.openBatch.tiles } })

/-- An entry before its fields are known. -/
def freshEntry (kind : MatKind) (tile : Nat) (e0 : Word) (a b : Operand) : MatEntry :=
  { kind := kind, tile := tile, options := e0, a := a, b := b, rows := [16], fmA := 0, fmB := 0, guarded := false,
    poison := false, ctx := 0, rowsOut := none, rowData := [], failed := false, readPoison := false, serial := 0,
    joins := [], next := 0 }

/-- The last checks of MMA and MMAG once A and the groups are known: B's extent, the guard, and the entry. -/
def State.matrixB (s : State) (kind : MatKind) (d a e : Nat) (e0 : Word) (ra : Operand) (rows : List Nat) : Res :=
  let n := optSteps e0
  let bt := e0.getLsbD 10
  let fmA := s.me.fmOf (optType e0)
  let fmB := s.me.fmOf (optB e0)
  let k := (depth (optType e0) fmA).getD 0
  let width := 2 * typeBits (optB e0) fmB
  let total := rows.foldl (· + ·) 0
  let aAll := if ra.group.isSome then [] else (span 0 n).flatMap (aPieces ra 0 total)
  s.checkPieces .read (fun _ =>
    match s.operand (2 * e) (n == 1 && kind == .mma) with
    | .error v => .trap 0x0A 2 v
    | .ok rb =>
      let groups := (rows.zipIdx.filter fun q => q.1 != 0).map (·.2)
      let bAll := if rb.group.isSome then [] else
        groups.flatMap fun g => (span 0 n).flatMap (bPieces rb bt k width (g * rb.tp))
      s.checkPieces .read (fun _ =>
        let e1 := s.me.readE 1
        let entry := { freshEntry kind d e0 ra rb with
          rows := rows, fmA := fmA, fmB := fmB, poison := s.groupPoison a || s.groupPoison (2 * e) }
        if e1 = 0 then s.enqueueMat entry
        else if bitsN e1 2 0 ≠ 0 then .trap 0x0A 3 e1
        else s.checkAt e1 8 .read fun _ =>
          s.sideWord e1 fun s v => s.enqueueMat { entry with guarded := v != s.me.readE 2 }) bAll) aAll

/-- MMA and MMAG (R143, R144, R317, R318). -/
def State.doMma (s : State) (kind : MatKind) (d a e : Nat) : Res :=
  let e0 := s.me.readE 0
  let ta := optType e0
  let tb := optB e0
  let grouped := kind == .mmag
  let kA := depth ta (s.me.fmOf ta)
  let int := fun (ty : BitVec 5) => ty == 0 || ty == 1
  let bad := e0 &&& ~~~0x0F0FFFFF ≠ 0 || (!grouped && bitsN e0 27 24 ≠ 0) || kA.isNone ||
    kA ≠ depth tb (s.me.fmOf tb) || (e0.getLsbD 11 && !(int ta && int tb)) || (!e0.getLsbD 11 && (int ta || int tb))
  if s.me.badNarrow ta || s.me.badNarrow tb then .trap 0x02 0 (formatVal ta tb 0)
  else if bad then .trap 0x0A 5 e0
  else
    match s.operand a (optSteps e0 == 1) with
    | .error v => .trap 0x0A 1 v
    | .ok ra =>
      -- A's extent needs the row counts; beside a table that faults its location is what can be checked, and with no
      -- step nothing of A is read (log 35)
      let first := fun (s : State) (k : Unit → Res) =>
        if ra.group.isSome || optSteps e0 = 0 then k () else s.checkAt ra.loc 1 .read k
      if grouped then
        s.groupTable (s.me.readE 3) (bitsN e0 27 24 + 1) first fun s rows => s.matrixB kind d a e e0 ra rows
      else s.matrixB kind d a e e0 ra [16]

def execMma (d a : BitVec 6) (e : BitVec 4) (s : State) : Host.Outcome State Fault Refusal :=
  issue (.mma d a e) s fun _ s => s.doMma .mma d.toNat a.toNat e.toNat
def execMmag (d a : BitVec 6) (e : BitVec 4) (s : State) : Host.Outcome State Fault Refusal :=
  issue (.mmag d a e) s fun _ s => s.doMma .mmag d.toNat a.toNat e.toNat

/-- Memory types that a tile accepts: loads and stores (R147). -/
def tileAccepts (isInt store : Bool) (ty : BitVec 5) : Bool :=
  if isInt then ty == 5 || ty == 3 || ty == 1 || (!store && (ty == 2 || ty == 0))
  else ty == 10 || ty == 8 || ty == 9 || isNarrow ty

/-- TLD, TLDT and TST (R147, R351). -/
def State.doTileMove (s : State) (kind : MatKind) (d a : Nat) : Res :=
  let e0 := s.me.readE 0
  let ty := optType e0
  let store := kind == .tst
  let isInt := if store then (s.here.tile d).isInt else e0.getLsbD 11
  if s.me.badNarrow ty then .trap 0x02 0 (formatVal 0 0 ty)
  else if s.here.busy d then .trap 0x0B 0 (BitVec.ofNat 64 d)
  else if !tileAccepts isInt store ty then .trap 0x0A 5 e0
  else
    match s.operand a false with
    | .error v => .trap 0x0A 1 v
    | .ok ra =>
      let fm := s.me.fmOf ty
      let rows : List Piece := (span 0 16).map fun r => (r, addOffset ra.loc (BitVec.ofNat 64 (r * ra.rp)), 2 * typeBits ty fm)
      s.checkPieces (if store then .write else .read)
        (fun _ => s.enqueueMat { freshEntry kind d e0 ra ra with fmA := fm }) rows

def execTld (d a : BitVec 6) (s : State) : Host.Outcome State Fault Refusal :=
  issue (.tld d a) s fun _ s => s.doTileMove .tld d.toNat a.toNat
def execTldt (d a : BitVec 6) (s : State) : Host.Outcome State Fault Refusal :=
  issue (.tldt d a) s fun _ s => s.doTileMove .tldt d.toNat a.toNat
def execTst (d a : BitVec 6) (s : State) : Host.Outcome State Fault Refusal :=
  issue (.tst d a) s fun _ s => s.doTileMove .tst d.toNat a.toNat

/-! ### Tile instructions that act at issue (R147, R352) -/

/-- Elements of a row (rc = 0) or column (rc = 1), as keys of the tile. -/
def tileLine (rc : Bool) (n : Nat) : List Nat := (span 0 16).map fun i => if rc then 16 * i + n else 16 * n + i

def execTrd (d i : BitVec 6) (e : BitVec 4) (s : State) : Host.Outcome State Fault Refusal :=
  issue (.trd d i e) s fun p s =>
    let n := e.toNat / 2
    let t := s.here.tile n
    if s.here.busy n then .trap 0x0B 0 (BitVec.ofNat 64 n)
    else
      let at' := tileLine (e.getLsbD 0) (bitsN (s.g i.toNat) 3 0)
      let new := fun j => (Tab.get 0 t.elems (at'.getD j 0) : BitVec 32).toNat
      let bits := blend s.me.km 32 (s.v d.toNat).bits new
      .done (s.writeV d.toNat { bits := bits, tag := tileCode t.isInt, poison := t.poison || p })
def execTwr (d i : BitVec 6) (e : BitVec 4) (s : State) : Host.Outcome State Fault Refusal :=
  issue (.twr d i e) s fun _ s =>
    let n := e.toNat / 2
    let x := s.v d.toNat
    if x.tag ≠ 10 && x.tag ≠ 5 then .trap 0x02 0 (formatVal x.tag 0 0)
    else if s.here.busy n then .trap 0x0B 0 (BitVec.ofNat 64 n)
    else
      let at' := tileLine (e.getLsbD 0) (bitsN (s.g i.toNat) 3 0)
      let km := s.me.km
      .done (s.modHere fun k =>
        let t := k.tile n
        let elems := (at'.zipIdx.filter fun q => km.getLsbD q.2).foldl (init := t.elems) fun m q =>
          Tab.set 0 m q.1 (BitVec.ofNat 32 (lane x.bits 32 q.2))
        { k with tiles := Tab.put k.tiles n { elems := elems, isInt := x.tag == 5, poison := t.poison || x.poison } })
def execTzero (d : BitVec 6) (s : State) : Host.Outcome State Fault Refusal :=
  issue (.tzero d) s fun _ s =>
    if s.here.busy d.toNat then .trap 0x0B 0 (d.setWidth 64)
    else .done (s.modHere fun k => { k with tiles := Tab.put k.tiles d.toNat {} })

/-! ### Batches (R145, R312, R326) -/

def Core.outstandingBatches (k : Core) : Nat := (k.batches.filter fun b => !b.done).length

/-- Commit the open batch and write its number. -/
def State.commitBatch (s : State) (c d : Nat) : State :=
  let k := s.core c
  let b := { k.openBatch with number := k.nextBatch, done := k.openBatch.entries == [] }
  (s.modCore c fun k => { k with batches := k.batches ++ [b], openBatch := {}, nextBatch := k.nextBatch + 1 }).modCtx c 0
    fun x => x.writeG d k.nextBatch false
/-- An MCOMMIT has to wait: a batch with entries while eight are outstanding. -/
def Core.commitWaits (k : Core) : Bool := k.openBatch.entries != [] && decide (8 ≤ k.outstandingBatches)

/-- MCOMMIT (R312): it waits without issuing (R16). -/
def execMcommit (d : BitVec 6) (s : State) : Host.Outcome State Fault Refusal :=
  issue (.mcommit d) s fun _ s =>
    if s.here.commitWaits then .wait (s.modMe fun x => { x with wait := .mcommit d.toNat })
    else .done (s.commitBatch s.cur.1 d.toNat)

/-- Cover every completed batch: its tiles are free, and what its steps met is reported in chk. -/
def State.cover (s : State) (c : Nat) : State :=
  let done := (s.core c).batches.filter (·.done)
  let s := s.modCore c fun k => { k with batches := k.batches.filter fun b => !b.done }
  let s := if done.any (·.poison) then s.modCtx c 0 fun x => x.setChk 0 else s
  if done.any (·.failed) then s.modCtx c 0 fun x => x.setChk 5 else s

def execMwaitb (n : BitVec 4) (s : State) : Host.Outcome State Fault Refusal :=
  issue (.mwaitb n) s fun _ s =>
    if s.here.outstandingBatches ≤ n.toNat then .done (s.cover s.cur.1)
    else .wait (s.modMe fun x => { x with wait := .mwaitb n.toNat })

/-- BATCH_COMPLETE: the oldest outstanding batch whose entries have completed is no longer outstanding, and an MWAITB or
an MCOMMIT that waited for it completes. -/
def execBatchComplete (c : Nat) (s : State) : Host.Outcome State Fault Refusal :=
  let k := s.core c
  match k.batches.findIdx? fun b => !b.done && b.entries == [] with
  | none => .next s
  | some i =>
    let s := s.modCore c fun k =>
      { k with batches := k.batches.zipIdx.map fun b => if b.2 == i then { b.1 with done := true } else b.1 }
    match (s.ctx c 0).wait with
    | .mwaitb n => .next (if (s.core c).outstandingBatches ≤ n then (s.cover c).finish c 0 [] (s.ctx c 0) else s)
    | .mcommit d =>
      .next (if (s.core c).commitWaits then s else (s.commitBatch c d).finish c 0 (if d = 0 then [] else [.g d]))
    | _ => .next s

/-! ### Steps (R52, R53, R139, R143) -/

/-- Steps of an MMA or MMAG: first row, rows, byte offset of B, and the step's number. -/
def MatEntry.steps (e : MatEntry) : List (Nat × Nat × Nat × Nat) :=
  let starts := e.rows.foldl (init := ([], 0)) fun (acc : List (Nat × Nat) × Nat) m => (acc.1 ++ [(acc.2, m)], acc.2 + m)
  if e.guarded then [] else
    (starts.1.zipIdx.filter fun q => q.1.2 != 0).flatMap fun q =>
      (span 0 (optSteps e.options)).map fun st => (q.1.1, q.1.2, q.2 * e.b.tp, st)
def MatEntry.isProduct (e : MatEntry) : Bool := e.kind == .mma || e.kind == .mmag
/-- Nothing is left for the unit to do. -/
def MatEntry.stepless (e : MatEntry) : Bool := e.isProduct && e.steps.length ≤ e.next

/-- Split a piece at line boundaries; a part's key is 8 times the piece's and its index. -/
def splitLines : Nat → Nat → Word → Nat → List Piece
  | 0, _, _, _ => []
  | fuel + 1, key, w, n =>
    if n = 0 then []
    else
      let m := min n (lineRoom w)
      (key, w, m) :: splitLines fuel (key + 1) (addOffset w (BitVec.ofNat 64 m)) (n - m)
def lineParts (p : Piece) : List Piece := splitLines 8 (8 * p.1) p.2.1 p.2.2

/-- What reading a part gives: its bytes, a home beyond the die to be asked, a page whose translation is not at hand, a
home that serves nothing now, or a failure with an engine's status. -/
inductive PartRead where
  | ok (bytes : List Byte) (poison : Bool)
  | far (h : Home) (pa : Option Nat)
  | ask (va : Nat)
  | busy
  | failed (status n : Nat)
  deriving DecidableEq, Repr

/-- Read a part; one that fails reads as poisoned zeros (R142). -/
def State.partBytes (s : State) (c : Nat) (e : MatEntry) (rot : Nat) (p : Piece) : PartRead :=
  match e.rowData.find? fun r => r.1 == p.1 with
  | some r => .ok r.2.1 r.2.2
  | none =>
    match s.engineAt c p.2.1 p.2.2 rot false with
    | .far h pa => .far h pa
    | .ask va => .ask va
    | .fail status => .failed status p.2.2
    | at' =>
      if !s.engineFree at' (messageRank c) then .busy
      else let r := s.engineRead c at' p.2.2; .ok r.1 r.2
/-- The homes that a part reads see the request; a failed one is counted there. -/
def State.partNoted (s : State) (c : Nat) (e : MatEntry) (rot : Nat) (p : Piece) : State :=
  if e.rowData.any fun r => r.1 == p.1 then s
  else match s.engineAt c p.2.1 p.2.2 rot false with
    | .fail status => s.engineNote c p.2.1 p.2.2 false status
    | at' => s.engineArrives at' (messageRank c)

/-- A packet or a read that a matrix entry makes at a home. -/
def State.rowPacket (s : State) (c : Nat) (home : Home) (w : Word) (pa : Option Nat) (near : Bool) (a : Act) (bad : Bool)
    (serial rot : Nat) (op : Option Nat) : Packet :=
  { id := s.nextNum, core := c, ctx := 0, life := (s.ctx c 0).life, era := (s.core c).era, loc := w, pa := pa,
    home := home, act := a, poison := bad, odi := s.odiOf c, op := op, part := 0, order := 0, scope := 0,
    counted := if op.isSome || near then [] else s.plotsHolding c home, bytes := a.size, group := none, noMerge := true,
    isLocal := near, row := some serial, rot := some rot }
/-- Ask a home for a part of a row. -/
def State.askRow (s : State) (c : Nat) (home : Home) (w : Word) (pa : Option Nat) (near : Bool) (serial rot key n : Nat) :
    State :=
  let num := s.nextNum
  let op : Op := { core := c, ctx := 0, life := (s.ctx c 0).life, era := (s.core c).era, dest := .tileRow serial key,
                   loc := w, holds := false, left := 1, parts := [], acq := none, nack := none, taint := false }
  let p := s.rowPacket c home w pa near (.read n) false serial rot (some num)
  ({ s with ops := Tab.put s.ops num (some op), nextNum := num + 1 }).launchPacket { p with id := num + 1 }

def Core.modEntry (k : Core) (serial : Nat) (f : MatEntry → MatEntry) : Core :=
  let own := fun (e : MatEntry) => e.serial == serial
  { k with mq := replaceFirst own f k.mq }

/-- A whole piece: its parts' bytes in order, when all are there. -/
def PartRead.bytes : PartRead → List Byte
  | .ok b _ => b
  | .failed _ n => List.replicate n 0
  | _ => []
def PartRead.poison : PartRead → Bool
  | .ok _ p => p
  | .failed _ _ => true
  | _ => false

/-- A product step's result: new elements of the tile. -/
def stepElems (e : MatEntry) (old : Tab (BitVec 32)) (row0 m k : Nat) (aRows bRows : List Nat) : Tab (BitVec 32) :=
  let ta := optType e.options
  let tb := optB e.options
  let bt := e.options.getLsbD 10
  let av := fun r j => elementAt ta e.fmA (aRows.getD r 0) j
  let bv := fun c j => if bt then elementAt tb e.fmB (bRows.getD c 0) j else elementAt tb e.fmB (bRows.getD j 0) c
  let num := fun (ty : BitVec 5) (fm : BitVec 32) (x : Nat) => laneValue ty (narrowFmt fm) x
  let one := fun (r c : Nat) (acc : BitVec 32) =>
    if e.options.getLsbD 11 then
      acc + BitVec.ofInt 32 ((span 0 k).foldl (init := (0 : Int)) fun t j => t + laneInt ta (av r j) * laneInt tb (bv c j))
    else
      BitVec.ofNat 32 (matrixSum (fmtF32.decode acc.toNat ::
        (span 0 k).map fun j => (num ta e.fmA (av r j)).mul (num tb e.fmB (bv c j))))
  ((span 0 m).flatMap fun r => (span 0 16).map fun c => (r, c)).foldl (init := old) fun t q =>
    let key := 16 * (row0 + q.1) + q.2
    Tab.set 0 t key (one q.1 q.2 (Tab.get 0 t key))

/-- One product step of the head entry, once every part of A and B can be read; else the missing parts are asked for. -/
def State.productStep (s : State) (c : Nat) (e : MatEntry) (st : Nat × Nat × Nat × Nat) : State :=
  let k := (depth (optType e.options) e.fmA).getD 0
  let bt := e.options.getLsbD 10
  let width := 2 * typeBits (optB e.options) e.fmB
  let pa := if e.a.group.isSome then [] else aPieces e.a st.1 st.2.1 st.2.2.2
  let pb := if e.b.group.isSome then [] else bPieces e.b bt k width st.2.2.1 st.2.2.2
  let read := fun (rot : Nat) (ps : List Piece) =>
    ps.map fun p => (lineParts p).map fun q => (q, s.partBytes c e rot q)
  let ra := read e.a.rot pa
  let rb := read e.b.rot pb
  let all := (ra.flatten.map fun q => (q, e.a.rot)) ++ rb.flatten.map fun q => (q, e.b.rot)
  let asks := all.filterMap fun q => match q.1.2 with | .ask va => some va | _ => none
  let far := all.filterMap fun q => match q.1.2 with | .far h a => some (q.1.1, (h, a), q.2) | _ => none
  if (e.rowsOut.getD 0) ≠ 0 then s
  else
  match asks, far with
  | va :: _, _ => s.seek (dieOf c) (s.spaceOf c) va .read
  | [], _ :: _ =>
    match far.findSome? fun q => s.engineStall (.far q.2.1.1 q.2.1.2) false with
    | some b => s.budgetStall b.1 b.2
    | none =>
    let s := s.modCore c fun k => k.modEntry e.serial fun e => { e with rowsOut := some far.length }
    far.foldl (init := s) fun s q =>
      s.askRow c q.2.1.1 q.1.2.1 q.2.1.2 false e.serial q.2.2 q.1.1 q.1.2.2
  | [], [] =>
    if all.any fun q => q.1.2 == .busy then s
    else
    let s := all.foldl (init := s) fun s q => s.partNoted c e q.2 q.1.1
    let rowsOf := fun (x : Operand) (size : Nat) (from_ count : Nat) (r : List (List (Piece × PartRead))) =>
      match x.group with
      | some g => (span from_ count).map fun i => leNat ((g.drop (i * size)).take size)
      | none => r.map fun ps => leNat (ps.flatMap fun q => q.2.bytes)
    let aRows := rowsOf e.a 96 st.1 st.2.1 ra
    let bRows := rowsOf e.b (if bt then 96 else width) 0 (if bt then 16 else k) rb
    let bad := e.poison || (ra ++ rb).any fun ps => ps.any fun q => q.2.poison
    s.modCore c fun core =>
      let t := core.tile e.tile
      let new : Tile := { elems := stepElems e t.elems st.1 st.2.1 k aRows bRows, isInt := e.options.getLsbD 11,
                          poison := t.poison || bad }
      let core := { core with tiles := Tab.put core.tiles e.tile new }
      core.modEntry e.serial fun e =>
        { e with next := e.next + 1, rowsOut := none, rowData := [], readPoison := e.readPoison || bad }

/-! ### Tile transfers (R139, R147) -/

/-- Where a part of a row goes. -/
inductive RowAt where
  | home (h : Home) (pa : Option Nat) (near : Bool)
  | fail
  | ask (va : Nat)
  deriving DecidableEq, Repr

def State.rowAt (s : State) (c : Nat) (w : Word) (write : Bool) : RowAt :=
  if isChip w then
    let lvl := chipLevel w
    let core := s.named c w
    if s.partOf core ≠ s.partOf c then .fail
    else if lvl = 0 then .home (.localMem core) none (core == c)
    else .home (.scratch (clusterOf core)) none (clusterOf core == clusterOf c)
  else
    match s.translateNow (dieOf c) (s.spaceOf c) w (if write then .write else .read) with
    | .failed => .fail
    | .ask => .ask (bitsN w 56 0)
    | .ok pa => .home (if inPeer pa then .peer (peerOf pa) else .channel (channelOf pa)) (some pa) false

/-- The bytes of a row of a tile in its memory type. -/
def tileRowBytes (e : MatEntry) (t : Tile) (r : Nat) : List Byte :=
  let ty := optType e.options
  let x : Context := { fm := Tab.put [] (ty.toNat - 16) e.fmA }
  let b := typeBits ty e.fmA
  leBytes (2 * b) (packNat b ((span 0 16).map fun c =>
    (x.convert (tileCode t.isInt) ty (Tab.get 0 t.elems (16 * r + c) : BitVec 32).toNat).1))

/-- Fill a tile from the rows that have come, in straight or transposed order. -/
def fillTile (e : MatEntry) : Tile :=
  let ty := optType e.options
  let x : Context := { fm := Tab.put [] (ty.toNat - 16) e.fmA }
  let isInt := e.options.getLsbD 11
  let row := fun (m : Nat) =>
    leNat ((sortBy (·.1) (e.rowData.filter fun q => q.1 / 8 == m)).flatMap fun q => q.2.1)
  let elems := (span 0 16).foldl (init := ([] : Tab (BitVec 32))) fun t m =>
    let bits := row m
    (span 0 16).foldl (init := t) fun t c =>
      let v := (x.convert ty (tileCode isInt) (elementAt ty e.fmA bits c)).1
      Tab.set 0 t (if e.kind == .tldt then 16 * c + m else 16 * m + c) (BitVec.ofNat 32 v)
  { elems := elems, isInt := isInt, poison := e.rowData.any fun q => q.2.2 }

/-- The one step of a TLD, TLDT or TST: its row transfers are issued in ascending order. -/
def State.moveStep (s : State) (c : Nat) (e : MatEntry) : State :=
  let ty := optType e.options
  let store := e.kind == .tst
  let tile := (s.core c).tile e.tile
  let parts := (span 0 16).flatMap fun r =>
    (lineParts (r, addOffset e.a.loc (BitVec.ofNat 64 (r * e.a.rp)), 2 * typeBits ty e.fmA)).map fun p =>
      (r, p, s.rowAt c p.2.1 store)
  match parts.findSome? fun q => match q.2.2 with | .ask va => some va | _ => none with
  | some va => s.seek (dieOf c) (s.spaceOf c) va (if store then .write else .read)
  | none =>
    let sent := (parts.filter fun q => q.2.2 != .fail).length
    let lost := parts.filter fun q => q.2.2 == .fail
    let s := s.modCore c fun k => k.modEntry e.serial fun e =>
      { e with rowsOut := some sent, failed := e.failed || (store && lost != []),
               rowData := if store then [] else lost.map fun q => (q.2.1.1, (List.replicate q.2.1.2.2 0, true)) }
    let s := lost.foldl (init := s) fun s q => s.walkFailed (dieOf c) (s.spaceOf c) q.2.1.2.1
    let s := if store then lost.foldl (init := s) fun s _ => s.count Count.droppedWrite c else s
    parts.foldl (init := s) fun s q =>
      match q.2.2 with
      | .home h pa near =>
        if store then
          let start := ((parts.filter fun o => o.1 == q.1 && o.2.1.1 < q.2.1.1).map fun o => o.2.1.2.2).foldl (· + ·) 0
          let data := ((tileRowBytes e tile q.1).drop start).take q.2.1.2.2
          s.launchPacket (s.rowPacket c h q.2.1.2.1 pa near (.write data []) tile.poison e.serial e.a.rot none)
        else s.askRow c h q.2.1.2.1 pa near e.serial e.a.rot q.2.1.1 q.2.1.2.2
      | _ => s

/-! ### The arbiter (R140) and completion -/

/-- The head entry of a core has a step to take and its joins are satisfied (R140). -/
def Core.headReady (k : Core) : Bool :=
  match k.mq with
  | e :: _ => k.joined e.joins && !e.stepless && (e.isProduct || e.rowsOut.isNone)
  | [] => false
/-- A step has been taken: the head entry has gone on, or has completed. -/
def Core.stepped (old new : Core) : Bool :=
  match old.mq.head?, new.mq.head? with
  | some a, some b => a.serial != b.serial || a.next != b.next || (!a.isProduct && a.rowsOut != b.rowsOut)
  | _, _ => true

/-- Complete the head entry: its batch learns what it met. -/
def Core.completeHead (k : Core) : Core :=
  match k.mq with
  | [] => k
  | e :: rest =>
    let note := fun (b : Batch) =>
      if b.entries.contains e.serial then
        { b with entries := b.entries.filter (· != e.serial), poison := b.poison || e.readPoison, failed := b.failed || e.failed }
      else b
    { k with mq := rest, mgc := if e.guarded then k.mgc + 1 else k.mgc, openBatch := note k.openBatch,
             batches := k.batches.map note }

/-- One step of a core's head entry; a product entry completes with its last step. -/
def State.matrixStep (s : State) (c : Nat) : State :=
  match (s.core c).mq with
  | [] => s
  | e :: _ =>
    if !e.isProduct then s.moveStep c e
    else
      let s := match e.steps[e.next]? with
        | some st => s.productStep c e st
        | none => s
      s.modCore c fun k => match k.mq with
        | e :: _ => if e.stepless then k.completeHead else k
        | [] => k

/-- A grant of one step to a position of the cluster; its run ends when the queue has emptied or its head is not ready
(R140). While the step waits for what it reads, the unit stays with the core, and nothing is counted. -/
def State.grantStep (s : State) (cl i run : Nat) : State :=
  let c := (clusterCores cl).getD i 0
  let t := s.matrixStep c
  if !(s.core c).stepped (t.core c) then t
  else t.modCluster cl fun k => { k with last := i, run := if (t.core c).headReady then run else 0 }

/-- ARBITER_GRANT: the cluster's matrix unit takes one step, of the core whose run goes on or of the next one in order
that is ready. -/
def execArbiterGrant (cl : Nat) (s : State) : Host.Outcome State Fault Refusal :=
  let k := s.cluster cl
  let cores := clusterCores cl
  let ready := fun (i : Nat) => let core := s.core (cores.getD i 0); core.headReady && !core.killed
  let weight := (s.core (cores.getD k.last 0)).mqw.toNat
  if 0 < k.run && k.run < max weight 1 && ready k.last then
    .next (s.grantStep cl k.last (k.run + 1))
  else
    match ((span 1 8).map fun i => (k.last + i) % 8).find? ready with
    | some i => .next ((s.modCluster cl fun k => { k with run := 0 }).grantStep cl i 1)
    | none => .next (if k.run = 0 then s else s.modCluster cl fun k => { k with run := 0 })

/-- MATRIX_ENTRY_COMPLETE: a head entry with nothing left to do completes: one without steps, or a transfer all of
whose rows have returned (the tile is then written) or been performed. -/
def execMatrixEntryComplete (c : Nat) (s : State) : Host.Outcome State Fault Refusal :=
  let k := s.core c
  match k.mq with
  | [] => .next s
  | e :: _ =>
    if !k.joined e.joins then .next s
    else if e.stepless then .next (s.modCore c Core.completeHead)
    else if e.isProduct || e.rowsOut ≠ some 0 then .next s
    else if e.kind == .tst then .next (s.modCore c Core.completeHead)
    else
      let t := fillTile e
      .next (s.modCore c fun k =>
        let k := { k with tiles := Tab.put k.tiles e.tile t }
        (k.modEntry e.serial fun e => { e with readPoison := t.poison }).completeHead)

end Sys2Proof.Machine
end

