-- ==== Sys2Proof/Machine/Barrier.lean ====
section
/-! DEFINITION. Barriers: configuration, arrival, the corner's comparison, the release and the exchange phase it opens
(R92, R158-R162, R164, R165, R263-R265). -/
namespace Sys2Proof.Machine

def Core.bar (k : Core) (n : Nat) : Barrier := Tab.get {} k.barriers n
/-- Change a barrier; what a pre-emption has saved of it follows, so that a release or an arrival sent meanwhile counts
(R111, R265). -/
def Core.modBar (k : Core) (n : Nat) (f : Barrier → Barrier) : Core :=
  { k with barriers := Tab.update {} k.barriers n f,
           saved := k.saved.map fun q => { q with barriers := Tab.update {} q.barriers n f } }

/-- The configuration's exchange length. -/
def phaseLen (conf : BitVec 32 × Word) : Nat := bitsN conf.2 15 0
/-- The corner core of a rectangle. -/
def cornerOf (r : BitVec 32) : Nat := coreAt (rectX r) (rectY r)

/-- BARSET (R158, R264). -/
def execBarset (d a : BitVec 6) (n : BitVec 4) (s : State) : Host.Outcome State Fault Refusal :=
  issue (.barset d a n) s fun _ s =>
    let rect : BitVec 32 := (s.g a.toNat).extractLsb' 32 32
    let conf := s.g d.toNat
    let c := s.cur.1
    let i := n.toNat
    if rectW rect = 0 || rectH rect = 0 || rectX rect + rectW rect > 64 || rectY rect + rectH rect > 64 ||
        !inRect rect c || bitsN conf 63 18 ≠ 0 || (s.here.bar i).arrived then .trap 0x17 0 (n.setWidth 64)
    else
      .done (s.modHere fun k =>
        let k := k.modBar i fun b => { b with conf := some (rect, conf), arrived := false, sent := false, byArv := false,
                                              passed := false }
        let k := { k with ssn := Tab.put k.ssn i 0 }
        if i = 0 then { k with ctxs := k.ctxs.map fun e => (e.1, { e.2 with meet := none }) } else k)

/-- Arrive: what was issued before has to be performed before the arrival is sent. -/
def State.arrive (s : State) (i : Nat) : State :=
  s.modHere fun k => k.modBar i fun b => { b with arrived := true, sent := false, passed := false, mark := s.nextNum }

/-- BARWAIT (R160, R265). -/
def execBarwait (n : BitVec 4) (s : State) : Host.Outcome State Fault Refusal :=
  issue (.barwait n) s fun _ s =>
    let i := n.toNat
    let b := s.here.bar i
    if b.conf.isNone then .trap 0x17 0 (n.setWidth 64)
    else if b.passed then .done (s.modHere fun k => k.modBar i fun b => { b with passed := false, byArv := false })
    else
      let s := if b.arrived then s else s.arrive i
      let s := s.modHere fun k => k.modBar i fun b => { b with byArv := false }
      .wait (s.modMe fun x => { x with wait := .barwait i })

/-- BARARV (R160, R263): an arrival of an abandoned BARWAIT, which stands or has been released, is not sent again. -/
def execBararv (n : BitVec 4) (s : State) : Host.Outcome State Fault Refusal :=
  issue (.bararv n) s fun _ s =>
    let i := n.toNat
    let b := s.here.bar i
    match b.conf with
    | none => .trap 0x17 0 (n.setWidth 64)
    | some q =>
      if phaseLen q ≠ 0 || b.byArv then .trap 0x17 0 (n.setWidth 64)
      else
        let s := if b.arrived || b.passed then s else s.arrive i
        .done (s.modHere fun k => k.modBar i fun b => { b with byArv := true })

/-! ### Arrivals -/

/-- The home is plot storage of a rectangle (R158). -/
def inPlot (rect : BitVec 32) : Home → Bool
  | .localMem m => inRect rect m
  | .scratch n => (clusterCores n).any (inRect rect)
  | _ => false
/-- What the core issued before its arrival and the barrier waits for: counted bytes not yet accounted for (R162), and
every access of the control context to plot storage, for which the arrival is a release (R84, R92; log 24). -/
def State.arrivalWaits (s : State) (c i mark : Nat) (rect : BitVec 32) : Bool :=
  let counted := fun (p : Packet) => p.core == c && decide (p.id < mark) && p.counted.contains i
  let own := fun (p : Packet) => inPlot rect p.home && ((p.core == c && p.ctx == 0 && decide (p.id < mark)) ||
    p.merged.any fun m => m.1 == c && m.2.1 == 0 && decide (m.2.2.2.2 < mark))
  (s.net.any fun p => counted p || own p) || (s.replies.any fun r => counted r.packet) ||
    (i == 0 && s.meets.any fun m => m.core == c && decide (m.id < mark))

/-- BARRIER_ARRIVAL_SEND. -/
def execBarrierArrivalSend (c i : Nat) (s : State) : Host.Outcome State Fault Refusal :=
  let b := (s.core c).bar i
  match b.conf with
  | none => .next s
  | some q =>
    if !b.arrived || b.sent || (s.core c).killed || s.arrivalWaits c i b.mark q.1 then .next s
    else
      let s := s.modCore c fun k => k.modBar i fun b => { b with sent := true, sentAt := s.cycle }
      .next { s with arrivals := s.arrivals ++ [{ core := c, corner := cornerOf q.1, b := i, conf := q }] }

/-- A configuration mismatch: members parked in BARWAIT trap, and the barrier is unconfigured at every member (R159). -/
def State.barrierMismatch (s : State) (corner i : Nat) (confs : List (BitVec 32 × Word)) : State :=
  let member := fun (e : Nat × Core) => match (e.2.bar i).conf with
    | some q => cornerOf q.1 == corner && confs.any fun r => inRect r.1 e.1
    | none => false
  let members := (s.cores.filter member).map (·.1)
  let s := { s with arrivals := s.arrivals.filter (fun a => a.corner != corner || a.b != i),
                    corners := Tab.erase s.corners (4 * corner + i) }
  members.foldl (init := s) fun s m =>
    let parked := (s.ctx m 0).wait == .barwait i
    let s := s.modCore m fun k => k.modBar i fun b => { pending := b.pending }
    if parked then s.trapCtx m 0 0x17 0 (BitVec.ofNat 64 i) 4 else s

/-- BARRIER_ARRIVAL_RECEIVE: the corner compares the arrival with the first it received. -/
def execBarrierArrivalReceive (corner i : Nat) (s : State) : Host.Outcome State Fault Refusal :=
  match takeFirst (fun a => a.corner == corner && a.b == i) s.arrivals with
  | none => .next s
  | some (a, rest) =>
    let s := { s with arrivals := rest }
    let key := 4 * corner + i
    let got : List (Nat × (BitVec 32 × Word)) := Tab.get [] s.corners key
    match got.head? with
    | some first =>
      if first.2 ≠ a.conf then .next (s.barrierMismatch corner i [first.2, a.conf])
      else .next { s with corners := Tab.put s.corners key (got ++ [(a.core, a.conf)]) }
    | none => .next { s with corners := Tab.put s.corners key [(a.core, a.conf)] }

/-! ### The release -/

/-- Λ of a rectangle (R160). -/
def releaseTime (r : BitVec 32) : Nat := 2 * ((rectW r + 7) / 8 + (rectH r + 7) / 8) + 6 + 8 * rectDies r

/-- One member leaves the barrier: ssnN rises, a parked BARWAIT completes, and with L > 0 its exchange phase begins. -/
def State.releaseMember (s : State) (i : Nat) (q : BitVec 32 × Word) (m : Nat) : State :=
  let k := s.core m
  if k.killed || (k.bar i).conf ≠ some q then s
  else
    let parked := (s.ctx m 0).wait == .barwait i
    let s := s.modCore m fun k =>
      let k := k.modBar i fun b =>
        { b with arrived := false, sent := false, passed := !parked, freed := if parked then some s.cycle else b.freed }
      { k with ssn := Tab.put k.ssn i ((Tab.get 0 k.ssn i : BitVec 32) + 1) }
    if !parked then s
    else
      let s := s.finish m 0 []
      if phaseLen q = 0 || k.handler then s
      else s.modCore m fun k => { k with phase := some { b := i, start := s.cycle, len := phaseLen q } }

/-- BARRIER_RELEASE: every member has arrived, and Λ cycles have passed since the last arrival was sent. -/
def execBarrierRelease (corner i : Nat) (s : State) : Host.Outcome State Fault Refusal :=
  let key := 4 * corner + i
  let got : List (Nat × (BitVec 32 × Word)) := Tab.get [] s.corners key
  match got with
  | [] => .next s
  | (_, q) :: _ =>
    let members := rectCores q.1
    let last := (members.map fun m => ((s.core m).bar i).sentAt).foldl max 0
    if !(members.all fun m => got.any fun a => a.1 == m) || s.cycle < last + releaseTime q.1 then .next s
    else .next (members.foldl (init := { s with corners := Tab.erase s.corners key }) fun s m => s.releaseMember i q m)

/-- EXCHANGE_PHASE_END: at phc = L the compute phase resumes. -/
def execExchangePhaseEnd (c : Nat) (s : State) : Host.Outcome State Fault Refusal :=
  match (s.core c).phase with
  | some p => whenDue (p.start + p.len ≤ s.cycle) s (s.modCore c fun k => { k with phase := none })
  | none => .next s

end Sys2Proof.Machine
end

