-- ==== Sys2Proof/Machine/Exchange.lean ====
section
/-! DEFINITION. The exchange plane (XMIT, INTAKE, XCHG), multicast groups, and what happens to packets on the message
plane: merging, deadlock recovery, link errors (R164-R172, R174, R294, R300, R311, R360, R361). -/
namespace Sys2Proof.Machine

/-! ### XMIT and INTAKE (R166, R167) -/

/-- The core h steps away in a direction, when it lies on the mesh. -/
def stepTo (c dir h : Nat) : Option Nat :=
  let x := xOf c
  let y := yOf c
  match dir with
  | 0 => if x + h < 64 then some (coreAt (x + h) y) else none
  | 1 => if h ≤ x then some (coreAt (x - h) y) else none
  | 2 => if h ≤ y then some (coreAt x (y - h)) else none
  | _ => if y + h < 64 then some (coreAt x (y + h)) else none
/-- Phase cycles from slot to arrival. -/
def flightTime (a b h : Nat) : Nat := 1 + (h + 7) / 8 + if dieOf a = dieOf b then 0 else 4

/-- XMIT: the context is held until its transfer has arrived. -/
def execXmit (d a : BitVec 6) (e : BitVec 4) (s : State) : Host.Outcome State Fault Refusal :=
  issue (.xmit d a e) s fun _ s =>
    let c := s.cur.1
    let w := s.g a.toNat
    let slot := bitsN w 15 0
    let h := bitsN w 21 16
    let fault := Res.trap 0x0C 0 (BitVec.ofNat 64 slot)
    match s.here.phase, stepTo c e.toNat h with
    | some p, some dest =>
      let plot := ((s.here.bar p.b).conf.map fun q => inRect q.1 dest).getD false
      let arrive := slot + flightTime c dest h
      if !s.here.inPhase s.cycle || p.len ≤ slot || slot < s.cycle - p.start || h = 0 || !plot || p.len - 1 < arrive then fault
      else
        let t : Transfer2 := { src := c, slot := slot, hops := h, dir := e.toNat, arrive := arrive, start := p.start,
                               value := s.v d.toNat, driven := false }
        .wait ({ s with exchange := s.exchange ++ [t] }.modMe fun x => { x with wait := .xmit })
    | _, _ => fault

/-- INTAKE: the context waits for its phase cycle. -/
def execIntake (d a : BitVec 6) (e : BitVec 4) (s : State) : Host.Outcome State Fault Refusal :=
  issue (.intake d a e) s fun _ s =>
    let p := bitsN (s.g a.toNat) 15 0
    match s.here.phase with
    | some q =>
      if !s.here.inPhase s.cycle || q.len ≤ p || p < s.cycle - q.start then .trap 0x0C 0 (BitVec.ofNat 64 p)
      else .wait (s.modMe fun x => { x with wait := .intake d.toNat p e.toNat })
    | none => .trap 0x0C 0 (BitVec.ofNat 64 p)

/-- The cycles in which a transfer holds its segments: first, and the one after the last. -/
def Transfer2.first (t : Transfer2) : Nat := t.start + t.slot
def Transfer2.ends (t : Transfer2) : Nat := t.start + t.arrive
/-- The lateral it uses, and the segments it crosses on it. -/
def Transfer2.lane (t : Transfer2) : Nat × Nat := (t.dir, if t.dir < 2 then yOf t.src else xOf t.src)
def Transfer2.segments (t : Transfer2) : Nat × Nat :=
  let p := if t.dir < 2 then xOf t.src else yOf t.src
  if t.dir = 0 || t.dir = 3 then (p, p + t.hops) else (p - t.hops, p)
def Transfer2.target (t : Transfer2) : Option Nat := stepTo t.src t.dir t.hops

/-- The XMIT still holds its context, or the transfer has landed. -/
def State.lives (s : State) (t : Transfer2) : Bool :=
  t.landed || ((s.ctx t.src 0).wait == .xmit && !(s.core t.src).killed)

/-- Two transfers share a segment of one lateral. -/
def crossing (a b : Transfer2) : Bool :=
  a.lane == b.lane && a.segments.1 < b.segments.2 && b.segments.1 < a.segments.2
/-- The first cycle in which two transfers hold one segment. -/
def clashAt (a b : Transfer2) : Option Nat :=
  if a != b && crossing a b && a.first < b.ends && b.first < a.ends then some (max a.first b.first) else none
/-- The first collision of all, up to the present cycle. -/
def State.firstClash (s : State) : Option Nat :=
  let live := s.exchange.filter fun t => !t.landed && s.lives t && decide (t.first ≤ s.cycle)
  let all := live.flatMap fun a => live.filterMap (clashAt a)
  all.foldl (init := none) fun m n => match m with | some k => some (min k n) | none => some n

/-- XMIT_DRIVE: at its slot the XMIT drives its vector; one whose sender is gone is never driven. -/
def execXmitDrive (c : Nat) (s : State) : Host.Outcome State Fault Refusal :=
  let mine := fun (t : Transfer2) => t.src == c && !t.driven && decide (t.first ≤ s.cycle)
  let ex := s.exchange.filterMap fun t => if !mine t then some t else if s.lives t then some { t with driven := true } else none
  .next { s with exchange := ex }

/-- EXCHANGE_COLLISION: at the first collision every transfer involved is discarded, and each sender traps,
those of one gang alike. -/
def execExchangeCollision (s : State) : Host.Outcome State Fault Refusal :=
  match s.firstClash with
  | none => .next s
  | some t =>
    let live := s.exchange.filter fun q => !q.landed && s.lives q && decide (q.first ≤ t && t < q.ends)
    let hit := sortBy (·.src) (live.filter fun a => live.any fun b => (clashAt a b).isSome)
    let s := { s with exchange := s.exchange.filter fun q => !hit.contains q }
    let senders := hit.map (·.src)
    .next (hit.foldl (init := s) fun s q =>
      (s.disbandBut q.src senders).trapCtx q.src 0 0x0D 0 (BitVec.ofNat 64 q.slot) 4)

/-- An INTAKE at the target waits for the transfer. -/
def State.awaited (s : State) (t : Transfer2) : Bool :=
  match t.target with
  | some c => match (s.ctx c 0).wait with
    | .intake _ p dir => dir == t.dir && ((s.core c).phase.map fun q => q.start + p == t.ends).getD false
    | _ => false
  | none => false

/-- XMIT_ARRIVAL: the transfer of a core arrives and its XMIT completes. One that nobody latched in its cycle is
discarded and counted. -/
def execXmitArrival (c : Nat) (s : State) : Host.Outcome State Fault Refusal :=
  match s.exchange.find? fun t => t.src == c && t.driven && !t.landed && s.lives t && decide (t.ends ≤ s.cycle) with
  | some t =>
    if s.firstClash.isSome then .next s
    else
      let ex := s.exchange.filterMap fun q => if q = t then (if t.taken then none else some { t with landed := true }) else some q
      .next ({ s with exchange := ex }.finish c 0 [])
  | none =>
    match s.exchange.find? fun t => t.src == c && t.landed && decide (t.ends < s.cycle) && !s.awaited t with
    | some t => .next ({ s with exchange := s.exchange.filter (· != t) }.count Count.lostExchange (t.target.getD 0))
    | none => .next s

/-- An INTAKE that latches issues in this cycle: the next instruction follows two cycles later (R167, R174). -/
def State.latchedAt (s : State) (c : Nat) : State := s.modCtx c 0 fun x => { x with issued := some s.cycle }
/-- INTAKE_LATCH: at its phase cycle an INTAKE writes what arrives, or zero with chk bit 2. -/
def execIntakeLatch (c : Nat) (s : State) : Host.Outcome State Fault Refusal :=
  match (s.ctx c 0).wait, (s.core c).phase with
  | .intake d p dir, some q =>
    if s.cycle < q.start + p || s.firstClash.isSome then .next s
    else
      match s.exchange.find? fun t => t.target == some c && t.dir == dir && t.ends == q.start + p && s.lives t with
      | some t =>
        if !t.driven then .next s
        else
          let ex := s.exchange.filterMap fun q =>
            if q = t then (if t.landed then none else some { t with taken := true }) else some q
          .next ((({ s with exchange := ex }).modCtx c 0 fun x => x.writeV d t.value).finish c 0 [.v d] |>.latchedAt c)
      | none =>
        .next ((s.modCtx c 0 fun x => (x.writeV d {}).setChk 2).finish c 0 [.v d] (s.ctx c 0) |>.latchedAt c)
  | _, _ => .next s

/-! ### The time of the exchange plane (R164, R166, R167, R174) -/

/-- The cycles in which something comes about on the exchange plane: phases end, INTAKEs latch, transfers are driven, arrive
and are discarded. -/
def Core.planeTimes (k : Core) : List Nat :=
  match k.phase with
  | some q => (q.start + q.len) :: match (k.ctx 0).wait with | .intake _ p _ => [q.start + p] | _ => []
  | none => []
def State.transferTime (s : State) (t : Transfer2) : Option Nat :=
  if t.landed then if s.awaited t then none else some (t.ends + 1)
  else if !t.driven then some t.first
  else if s.lives t then some t.ends
  else none
/-- Something that the spec ties to a cycle has come due and not come about. -/
def State.planeDue (s : State) : Bool :=
  s.firstClash.isSome || s.exchange.any (fun t => ((s.transferTime t).map fun n => decide (n ≤ s.cycle)).getD false) ||
    s.cores.any fun e => e.2.planeTimes.any fun n => decide (n ≤ s.cycle)

/-! ### XCHG (R168, R360) -/

def execXchg (d a : BitVec 6) (s : State) : Host.Outcome State Fault Refusal :=
  issue (.xchg d a) s fun _ s => .wait (s.modMe fun x => { x with wait := .xchg d.toNat a.toNat })

/-- XCHG_EXCHANGE: once every member of the gang has reached its XCHG, slices are exchanged. -/
def execXchgExchange (c : Nat) (s : State) : Host.Outcome State Fault Refusal :=
  let members := (s.core c).gangOf c
  let size := 64 / members.length
  let regs := members.map fun m => match (s.ctx m 0).wait with | .xchg d a => some (d, (s.ctx m 0).readV a) | _ => none
  if members.length < 2 || regs.any Option.isNone then .next s
  else
    let vs := regs.filterMap id
    let poison := vs.any fun r => r.2.poison
    .next (members.zipIdx.foldl (init := s) fun s m =>
      match vs[m.2]? with
      | some (d, v) =>
        let bytes := vs.flatMap fun r => ((vecBytes r.2.bits).drop (m.2 * size)).take size
        let s := s.modCtx m.1 0 fun x => x.writeV d { bits := leBits 512 bytes, tag := v.tag, poison := poison }
        s.finish m.1 0 [.v d]
      | none => s)

/-! ### Multicast groups (R171, R294, R311) -/

/-- A rectangle lies within another. -/
def rectWithin (r q : BitVec 32) : Bool :=
  rectX q ≤ rectX r && rectY q ≤ rectY r && rectX r + rectW r ≤ rectX q + rectW q && rectY r + rectH r ≤ rectY q + rectH q

def Core.setGroup (k : Core) (n : Nat) (conf : Word) : Core :=
  { k with groups := Tab.put k.groups n { conf := some conf, pending := 0 } }

/-- GRPSET gI, gC: the s field names gI and the d field gC (R171, R294, Table 9.3). -/
def execGrpset (d a : BitVec 6) (s : State) : Host.Outcome State Fault Refusal :=
  issue (.grpset d a) s fun _ s =>
    let n := bitsN (s.g a.toNat) 7 0
    let conf := s.g d.toNat
    let r := groupRect conf
    let ok := rectW r ≠ 0 && rectH r ≠ 0 && (s.here.plot.map (rectWithin r)).getD false
    if !ok then .trap 0x0A 8 conf
    else if (s.here.group n).pending = 0 then .done (s.modHere fun k => k.setGroup n conf)
    else .wait (s.modMe fun x => { x with wait := .grpset s.cycle n conf })

/-- GRPSET_RESUME: the earlier packets have landed. -/
def execGrpsetResume (c x : Nat) (s : State) : Host.Outcome State Fault Refusal :=
  match (s.ctx c x).wait with
  | .grpset _ n conf =>
    whenDue (((s.core c).group n).pending == 0) s ((s.modCore c fun k => k.setGroup n conf).finish c x [])
  | _ => .next s
/-- GRPSET_TIMEOUT: after 2^22 cycles the stale packets are dropped where they wait and counted; chk bit 3 is set. -/
def execGrpsetTimeout (c x : Nat) (s : State) : Host.Outcome State Fault Refusal :=
  match (s.ctx c x).wait with
  | .grpset since n conf =>
    if s.cycle < since + 2 ^ 22 then .next s
    else
      let stale := fun (p : Packet) => p.core == c && p.group == some n
      let gone := s.net.filter stale
      let forget := fun (r : Reply) => if stale r.packet then { r with packet := { r.packet with group := none } } else r
      let s := { s with net := s.net.filter (fun p => !stale p), replies := s.replies.map forget }
      let s := gone.foldl (init := s) fun s p => ((s.leaveSlots .request p.id).subPending c p.counted p.bytes).count Count.staleMulticast c
      .next (((s.modCtx c x fun t => t.setChk 3).modCore c fun k => k.setGroup n conf).finish c x [] (s.ctx c x))
  | _ => .next s

/-- Send packets one after the other; those to the sender's own local memory are performed at once (R78). -/
def State.sendAll (s : State) (ps : List Packet) : State :=
  ps.foldl (init := s) fun s p =>
    let p := { p with id := s.nextNum }
    let t := s.launchPacket p
    if p.isLocal then t.perform p else t

def execMcast (d a : BitVec 6) (s : State) : Host.Outcome State Fault Refusal :=
  issue (.mcast d a) s fun _ s =>
    let w := s.g a.toNat
    let n := bitsN w 7 0
    match (s.here.group n).conf with
    | none => .trap 0x0A 8 w
    | some conf =>
      let v := s.v d.toNat
      let handle := bitsN conf 31 20
      let gen : BitVec 4 := conf.extractLsb' 16 4
      let off := 64 * bitsN conf 15 0
      let one := fun (m : Nat) =>
        let at' := BitVec.ofNat 64 (2 ^ 63 + m * 2 ^ 48 + handle * 2 ^ 36 + gen.toNat * 2 ^ 32 + off)
        s.packet at' (.chip 0 m handle gen off (m == s.cur.1)) (.write (vecBytes v.bits) []) v.poison none 0 0 0 (some n)
      let ps := (rectCores (groupRect conf)).map one
      let stored := ps.foldl (init := s) fun s p => s.recordStore p.loc (vecBytes v.bits)
      if ps.any (·.isLocal) && !s.portFree (.localMem s.cur.1) 0 then .stall s
      else s.injecting (if s.holdsBack then Res.ofPost (stored.holdPackets ps) else .done (stored.sendAll ps))

/-! ### The way of a packet (R169, log 36) -/

/-- Where a packet's home lies on the mesh: a channel's node stands at the outer edge of the die of its stack, four
channels to a row, a UALink port's at the east edge (R1, R364; log 36). -/
def homeCore (p : Packet) : Nat :=
  match p.home with
  | .localMem c => c
  | .scratch n => (clusterCores n).headD 0
  | .channel ch => coreAt (if ch / 128 % 2 = 0 then 0 else 63) (32 * (ch / 256) + ch % 128 / 4)
  | .peer id => coreAt 63 (8 * (id % 8))
/-- The next router on a minimal path, x first. -/
def nextHop (p : Packet) : Nat :=
  let dest := homeCore p
  let x := xOf p.router
  let y := yOf p.router
  if xOf dest > x then coreAt (x + 1) y else if xOf dest < x then coreAt (x - 1) y
  else if yOf dest > y then coreAt x (y + 1) else if yOf dest < y then coreAt x (y - 1) else p.router
/-- The routers in whose queues a packet waits one after the other, from the one it was last seen at. -/
def pathFrom : Nat → Packet → List Nat
  | 0, _ => []
  | fuel + 1, p => if nextHop p = p.router then [p.router] else p.router :: pathFrom fuel { p with router := nextHop p }
def Packet.path (p : Packet) : List Nat := pathFrom 128 p
/-- The first router in whose queue two packets can meet. -/
def meetingRouter (p q : Packet) : Option Nat := p.path.find? q.path.contains

/-! ### Merging (R170) -/

/-- Two packets name one location: the same physical address, or the same core's storage, handle, generation and offset,
however their words say it (R54, R170). -/
def samePlace (a b : Packet) : Bool :=
  a.home == b.home && match a.pa, b.pa with
    | some x, some y => x == y
    | none, none => namedCore a.core a.loc == namedCore b.core b.loc && chipHandle a.loc == chipHandle b.loc &&
        chipGen a.loc == chipGen b.loc && chipOff a.loc == chipOff b.loc
    | _, _ => false
/-- Packets that may merge when they meet in a router's queue; one to the own cluster's scratchpad enters none. -/
def mayMerge (a b : Packet) : Bool :=
  !a.isLocal && !b.isLocal && a.op.isNone && b.op.isNone && a.order == 0 && b.order == 0 && !a.noMerge && !b.noMerge &&
    samePlace a b && a.odi == b.odi && a.scope == b.scope && a.id != b.id &&
    match a.act, b.act with
    | .atomic p _ _ _, .atomic q _ _ _ => p == q && (p == 0x19 || p == 0x21)
    | .vadd t _ _, .vadd u _ _ => t == u
    | _, _ => false

/-- The act that stands for two. -/
def mergeActs (a b : Act) : Act :=
  match a, b with
  | .atomic p n v e, .atomic _ _ w _ => .atomic p n (BitVec.ofNat 64 ((atomicNew p n v.toNat w.toNat 0).getD 0)) e
  | .vadd t km x, .vadd _ lm y =>
    let w := laneWidth t
    let both : Vec := leBits 512 (vaddLine t (km &&& lm) x y)
    let second : Vec := leBits 512 y
    let bits := blend (lm &&& ~~~km) w both fun i => lane second w i
    .vadd t (km ||| lm) (vecBytes bits)
  | a, _ => a

/-- No earlier packet of its cores to the same home waits before it, one apart: merging passes none (R77). -/
def State.foremost (s : State) (p : Packet) (but : Nat) : Bool :=
  (s.net.takeWhile (·.id != p.id)).all fun q => !(p.cores.any q.actsFor) || q.home != p.home || q.id == but

/-- NETWORK_MERGE: two packets that meet in a router's queue become one, in the earlier one's place; the bytes of the
second are accounted for at the merging router. -/
def execNetworkMerge (a b : Nat) (s : State) : Host.Outcome State Fault Refusal :=
  match s.net.find? (·.id == a), s.net.find? (·.id == b) with
  | some p, some q =>
    match meetingRouter p q with
    | none => .next s
    | some r =>
      if !mayMerge p q || !s.foremost p b || !s.foremost q a then .next s
      else
        let one := { p with act := mergeActs p.act q.act, poison := p.poison || q.poison, router := r, since := s.cycle,
                            probed := false, merged := p.merged ++ (q.core, q.ctx, q.life, q.era, q.id) :: q.merged }
        let first := (s.net.find? fun n => n.id == a || n.id == b).map (·.id)
        let net := s.net.filterMap fun n => if n.id == a || n.id == b then (if some n.id == first then some one else none) else some n
        let s := ({ s with net := net }).leaveSlots .request b
        .next (s.subPending q.core q.counted q.bytes)
  | _, _ => .next s

/-! ### Deadlock (R169) -/

/-- The head of a router's queue (log 36). -/
def State.headAt (s : State) (r : Nat) : Option Packet := s.net.find? fun p => p.router == r && p.armed.isNone
/-- Routers along the chain of buffers that heads wait for. -/
def State.chain (s : State) : Nat → Nat → List Nat
  | 0, _ => []
  | fuel + 1, r => match s.headAt r with
    | some p => if nextHop p = r then [r] else r :: s.chain fuel (nextHop p)
    | none => [r]
/-- The chain returns to its sender. -/
def State.cyclic (s : State) (r : Nat) : Bool := ((s.chain 4096 r).drop 1).contains r

/-- DEADLOCK_PROBE: a head blocked for 4,096 cycles sends a probe. -/
def execDeadlockProbe (r : Nat) (s : State) : Host.Outcome State Fault Refusal :=
  match s.headAt r with
  | none => .next s
  | some p =>
    whenDue (p.since + 4096 ≤ s.cycle) s
      { s with net := s.net.map fun q => if q.id == p.id then { q with probed := true } else q }
/-- DEADLOCK_ESCAPE: the probe has returned, and every packet of the cycle moves one hop in one step. -/
def execDeadlockEscape (r : Nat) (s : State) : Host.Outcome State Fault Refusal :=
  match s.headAt r with
  | none => .next s
  | some p =>
    if !p.probed || !s.cyclic r then .next s
    else
      let ring := r :: ((s.chain 4096 r).drop 1).takeWhile (· != r)
      let heads := ring.filterMap fun r => (s.headAt r).map (·.id)
      let move := fun (q : Packet) =>
        if heads.contains q.id then { q with router := nextHop q, since := s.cycle, probed := false } else q
      .next { s with net := s.net.map move }

/-! ### Link errors (R172) -/

/-- A rebuilt result that has not been written makes its launch's status 1, and is counted (R206). -/
def State.resultLost (s : State) (p : Packet) : State :=
  match p.result with
  | some n => (s.modLaunch n fun l => { l with status := max l.status 1 }).count Count.rebuildFailure n
  | none => s

/-- A packet whose header was lost: a notice repairs the counts; a non-posted request receives poisoned zeros, and a
reduction or multicast sets chk bit 3 in its sender. -/
def State.losePacket (s : State) (p : Packet) : State :=
  let s := { s with net := s.net.filter (·.id != p.id) }
  if p.op.isSome then s.answer p .lost (List.replicate p.act.size 0) true none
  else
    let s := (s.subPending p.core p.counted p.bytes).resultLost p
    let s := if p.engine then s.lineAnswered p .lost else s
    let s := match p.group with
      | some g => s.modCore p.core fun k =>
          { k with groups := Tab.update {} k.groups g fun (q : Group) => { q with pending := q.pending - 1 } }
      | none => s
    let s := match p.row with
      | some n => s.modCore p.core fun k => k.modEntry n fun e => { e with rowsOut := e.rowsOut.map (· - 1), failed := true }
      | none => s
    if p.act.isAtomic || p.group.isSome then
      p.merged.foldl (init := s.chkEvent p.core p.ctx p.life p.era 3) fun s m => s.chkEvent m.1 m.2.1 m.2.2.1 m.2.2.2.1 3
    else s

/-- A reply or notice that a link has damaged: poisoned, or lost with its header; the lost-packet notice accounts for the
access all the same. -/
def Reply.damaged (header : Bool) (r : Reply) : Reply :=
  if header then { r with answer := .lost, data := List.replicate r.packet.act.size 0, poison := true, release := none }
  else { r with poison := true }

/-- LOSS_MARKER: the sender reports an uncorrectable slot, and the window advances. A message without its header is
dropped and counted; a MEET without it gives its 128 bytes of b0 back (R162); a damaged set has nowhere to keep a mark
(log 43). A completion to a peer is poisoned or dropped like any other packet. -/
def execLossMarker (link seq : Nat) (s : State) : Host.Outcome State Fault Refusal :=
  match takeFirst (fun (r : ReplaySlot) => r.link == link && r.seq == seq && r.lost.isSome) s.replay with
  | none => .next s
  | some (r, rest) =>
    let s := ({ s with replay := rest }).count Count.lossMarker link
    let header := r.lost == some true
    match r.kind with
    | .request =>
      match s.net.find? (·.id == r.packet) with
      | none => .next s
      | some p =>
        if header then .next (s.losePacket p)
        else .next { s with net := s.net.map fun q => if q.id == p.id then { q with poison := true } else q }
    | .reply => .next { s with replies := replaceWhere (fun q => q.packet.id == r.packet) (Reply.damaged header) s.replies }
    | .message =>
      match s.msgs.find? (·.id == r.packet) with
      | none => .next s
      | some m =>
        if header then .next ({ s with msgs := s.msgs.filter (·.id != m.id) }.count Count.droppedMessage m.dst)
        else .next { s with msgs := replaceWhere (·.id == m.id) (fun m => { m with msg := { m.msg with poison := true } }) s.msgs }
    | .meet =>
      match s.meets.find? (·.id == r.packet) with
      | none => .next s
      | some m =>
        if header then
          .next (({ s with meets := s.meets.filter (·.id != m.id) }.subPending m.core [0] 128).count Count.droppedMeet m.home)
        else .next s
    | .completion =>
      if header then .next { s with outbox := s.outbox.filter (·.id != r.packet) }
      else
        let mark := fun (o : Out) => match o.body with
          | .completion d _ e rel => { o with body := .completion d true e rel }
          | _ => o
        .next { s with outbox := replaceWhere (·.id == r.packet) mark s.outbox }

/-- LINK_REPLAY: a slot of the window is sent again; the link counts it. -/
def execLinkReplay (link seq : Nat) (s : State) : Host.Outcome State Fault Refusal :=
  whenDue (s.replay.any fun r => r.link == link && r.seq == seq) s (s.count Count.linkReplay link)

end Sys2Proof.Machine
end

