-- ==== Sys2Proof/Machine/Fetch.lean ====
section
/-! DEFINITION. Fetching code: the instruction buffer, lines read from main memory or a peer, and the resident loop
(R20, R28, R54, R65, R103, R105, R123, R124). -/
namespace Sys2Proof.Machine

/-- What a fetch of one halfword gives. -/
inductive Fetched where
  | half (h : Half)
  /-- An instruction fetch fault with its subcode. -/
  | fault (sub : BitVec 8)
  | poison
  /-- The line is on its way. -/
  | wait
  deriving DecidableEq, Repr

/-- The halfwords of the resident loop that Bilrok places in every control context (R28; log 11). -/
def residentLoop : List Half := [0xF004, 0x0009, 0xEFFC, 0x1000, 0x8FFC]

/-- A halfword of a line. -/
def CodeLine.halfAt (l : CodeLine) (va : Nat) : Half := leBits 16 ((l.bytes.drop (va % 64)).take 2)

/-- The line stands in the buffer. -/
def Core.holdsLine (k : Core) (va : Nat) : Bool := k.buffer.any fun l => l.va == va / 64 * 64
/-- A context issues from a line: it becomes the most recently used (R20). -/
def Core.useLine (k : Core) (va : Nat) : Core :=
  let own := fun (l : CodeLine) => l.va == va / 64 * 64
  { k with buffer := (k.buffer.filter fun l => !own l) ++ (k.buffer.filter own).map fun l => { l with used := true } }
/-- Lines fetched only for a path that has lost become the least recently used (R20). -/
def Core.demoteLines (k : Core) (lost : CodeLine → Bool) : Core :=
  { k with buffer := k.buffer.filter lost ++ k.buffer.filter fun l => !lost l }

/-- Ask the pod peer that holds a line of code, for a half of the buffer; the request has the next number. -/
def State.askLine (s : State) (c x va pa : Nat) (half holds : Bool) : State :=
  let n := s.nextNum
  let op : Op := { core := c, ctx := x, life := (s.ctx c x).life, era := (s.core c).era, dest := .code va half,
                   loc := BitVec.ofNat 64 va, holds := holds, left := 1, parts := [], acq := none, nack := none,
                   taint := false }
  let p : Packet := { s.packet (BitVec.ofNat 64 va) (.mem pa) (.read 64) false (some n) 0 0 0 none with
    id := n + 1, core := c, ctx := x, life := op.life, era := op.era, odi := s.odiOf c }
  ({ s with ops := Tab.put s.ops n (some op), nextNum := n + 1 }).launchPacket p

/-- Read the line of a physical address, or ask the peer that holds it, within its budget; the context waits for a peer's
answer (R20, R65, R211). -/
def State.readLine (s : State) (c x va pa : Nat) : Option CodeLine × State :=
  let line := va / 64 * 64
  let pa := pa / 64 * 64
  if inPeer pa then
    if !s.budgetLeft 7 (peerOf pa) then (none, s.budgetStall 7 (peerOf pa))
    else (none, (s.askLine c x line pa (s.ctx c x).half true).modCtx c x fun t => { t with wait := .reply s.nextNum })
  else if s.arrayBusy (.channel (channelOf pa)) then (none, s)
  else
    let r := s.actDram (s.odiOf c) pa (.read 64) false none
    let l : CodeLine := { va := line, bytes := r.2.1, poison := r.2.2.1, half := (s.ctx c x).half }
    (some l, r.1.modCore c fun k => k.addLine l)

/-- The address stands in the resident loop, which no line holds. -/
def Core.inLoop (k : Core) (a : Word) : Bool :=
  k.bilrok.isSome && decide (k.loopPc.toNat ≤ a.toNat) && decide (a.toNat < k.loopPc.toNat + 10)

/-- Fetch the halfword at an address for a context of a core (log 18). -/
def State.fetchHalf (s : State) (c x : Nat) (a : Word) : Fetched × State :=
  if a.getLsbD 0 then (.fault 5, s)
  else
    let k := s.core c
    let va := bitsN a 56 0
    if k.inLoop a then
      (.half (residentLoop.getD ((a.toNat - k.loopPc.toNat) / 2) 0), s)
    else if a.getLsbD 63 then (.fault 2, s)
    else
      match k.buffer.find? fun l => decide (l.va = va / 64 * 64) && bitsN a 62 57 == 0 with
      | some l => (if l.poison then .poison else .half (l.halfAt va), s)
      | none =>
        match s.translate c (s.ctx c x).walkErr a .fetch with
        | .trap _ sub => (.fault sub, s)
        | .walk va => (.wait, s.awaitWalk va Want.fetch.code)
        | .ok (.chip ..) => (.fault 2, s)
        | .ok (.mem pa) =>
          match s.readLine c x va pa with
          | (some l, t) => (if l.poison then .poison else .half (l.halfAt va), t)
          | (none, t) => (.wait, t)

/-- The lines of a path: from the one at an address to the one 64 halfwords on (R20). -/
def pathLines (a : Word) : List Nat := (span 0 3).map fun n => bitsN a 56 0 / 64 * 64 + 64 * n
/-- The number under which the fetch unit of a core waits for a walk: no context's. -/
def fetchUnit : Nat := 16
/-- A line of code has been asked of a pod peer for a core. -/
def State.lineAsked (s : State) (c va : Nat) : Bool :=
  s.ops.any fun e => (e.2.map fun o => o.core == c && match o.dest with | .code n _ => n == va | _ => false).getD false
/-- Fetch one line ahead into a half, unless it is held or on its way: a page without a translation is walked for, a line
of a pod peer is asked for within its budget; one that may not be executed, or whose array is busy, is left, and the next
issue tries again (R20; log 8). -/
def State.fetchAhead (s : State) (c x : Nat) (half : Bool) (va : Nat) : State :=
  if (s.core c).holdsLine va || s.lineAsked c va then s
  else match s.lookup c va with
    | none => s.requestWalk c fetchUnit va Want.fetch.code
    | some t =>
      let pa := (t.pa + (va - t.va)) / 64 * 64
      if !t.x then s
      else if inPeer pa then
        if s.budgetLeft 7 (peerOf pa) then s.askLine c x va pa half false else s.budgetStall 7 (peerOf pa)
      else if s.arrayBusy (.channel (channelOf pa)) then s
      else
        let r := s.actDram (s.odiOf c) pa (.read 64) false none
        r.1.modCore c fun k => k.addLine { va := va, bytes := r.2.1, poison := r.2.2.1, half := half }
/-- Fetch the lines of a context's path ahead. -/
def State.fetchPath (s : State) (c x : Nat) (half : Bool) (a : Word) : State :=
  if a.getLsbD 63 || bitsN a 62 57 != 0 then s else (pathLines a).foldl (fun s va => s.fetchAhead c x half va) s
/-- What issuing from an address does to the buffer: its lines are used, and fetch runs ahead of it (R20). -/
def State.fetched (s : State) (c x : Nat) (pc : Word) (size : Nat) : State :=
  if (s.core c).inLoop pc then s
  else
    let va := bitsN pc 56 0
    let s := s.modCore c fun k => (k.useLine va).useLine (va + size - 2)
    s.fetchPath c x (s.ctx c x).half pc

/-- What the context is about to issue: an instruction's bytes, a fault with its address, or nothing yet. -/
inductive Fetch where
  | code (c : Code)
  | fault (cause sub : BitVec 8) (tval : Word)
  | wait
  deriving DecidableEq, Repr

/-- The first halfword decides the size (R123). -/
def isWide (h : Half) : Bool := h.extractLsb' 14 2 == 3

/-- Fetch an instruction: halfwords from low to high addresses. -/
def State.fetchAt (s : State) (c x : Nat) (pc : Word) : Fetch × State :=
  let bad := fun (f : Fetched) (a : Word) => match f with
    | .fault sub => Fetch.fault 0x04 sub a
    | .poison => Fetch.fault 0x15 0 a
    | _ => Fetch.wait
  match s.fetchHalf c x pc with
  | (.half h, s) =>
    if isWide h then
      match s.fetchHalf c x (pc + 2) with
      | (.half l, s) => (.code (.wide (h ++ l)), s.fetched c x pc 4)
      | (f, s) => (bad f (pc + 2), s)
    else (.code (.short h), s.fetched c x pc 2)
  | (f, s) => (bad f pc, s)

end Sys2Proof.Machine
end

