-- ==== Sys2Proof/Machine/Translation.lean ====
section
/-! DEFINITION. Page-table walks, the pod's shared translation agent, and invalidations (R64-R69, R238). -/
namespace Sys2Proof.Machine

/-! ### Walks (R65, R66, R69) -/

/-- An invalidation in progress covers a page of a space. -/
def Inv.covers (i : Inv) (space va : Nat) : Bool :=
  i.odi == space % 16 && match i.range with | some (a, b) => a < va + 4096 && va ≤ b | none => true
def State.invalidating (s : State) (space va : Nat) : Bool := s.invs.any fun i => i.covers space va
/-- Addresses `va` to `va + size` meet a range of start and end addresses (log 54). -/
def meetsRange (va size : Nat) (range : Option (Nat × Nat)) : Bool :=
  match range with
  | some (a, b) => a < va + size && va ≤ b
  | none => true
/-- An invalidation in progress meets the page that a leaf maps, however large: the result is discarded (R68). -/
def State.overtaken (s : State) (t : Trans) : Bool :=
  s.invs.any fun i => i.odi == t.space % 16 && meetsRange t.va t.size i.range

/-- Contexts that wait for a walk go on; `failed` is the page and subcode of a walk that has failed. -/
def State.wake (s : State) (waiters : List (Nat × Nat)) (failed : Option (Nat × BitVec 8)) : State :=
  waiters.foldl (init := s) fun s w =>
    if (s.ctx w.1 w.2).wait = .walk then s.modCtx w.1 w.2 fun t => { t with wait := .none, walkErr := failed } else s

/-- A translation enters the die's table, the waiters' clusters' tables and their cores' micro-tables. -/
def State.fill (s : State) (die : Nat) (t : Trans) (waiters : List (Nat × Nat)) : State :=
  let add := fun (n : Nat) (l : List Trans) => keep n t (l.filter (· != t))
  let s := s.modDie die fun d => { d with cache := add 16384 d.cache }
  waiters.foldl (init := s) fun s w =>
    (s.modCluster (clusterOf w.1) fun k => { k with cache := add 256 k.cache }).modCore w.1 fun k =>
      { k with micro := add 16 k.micro }

/-- A request to the shared translation agent for the waiters of a walk. -/
def State.shareWalk (s : State) (die : Nat) (w : Walk) : State :=
  let s := s.askShared die w.space w.va w.kind
  let own := fun (r : StaReq) => r.space == w.space && r.va == w.va && !r.refused
  { s with stas := replaceWhere own (fun r => { r with waiters := r.waiters ++ w.waiters }) s.stas }

/-- TRANSLATION_WALK: the first queued walk that no invalidation holds back is made; one that needs an entry of a pod
peer, or of a parked stack, or whose result an invalidation in progress meets, is queued again behind the others. -/
def execTranslationWalk (die : Nat) (s : State) : Host.Outcome State Fault Refusal :=
  match takeFirst (fun (w : Walk) => !s.invalidating w.space w.va) (s.die die).walks with
  | none => .next s
  | some (w, rest) =>
    let r := s.walk die w.space w.va
    let later := s.modDie die fun d => { d with walks := rest ++ [w] }
    let t := (s.modDie die fun d => { d with walks := rest, walkTab := (r.2 ++ d.walkTab).take 1024 }).dropTables
    match r.1 with
    | .leaf l => .next (if s.overtaken l then later else (t.fill die l w.waiters).wake w.waiters none)
    | .fault sub => .next (t.wake w.waiters (some (w.va / 4096, sub)))
    | .bad line => .next ((t.noteBad die line).wake w.waiters (some (w.va / 4096, 3)))
    | .shared => .next (t.shareWalk die w)
    | .peer pa => .next (later.askUnit w.space (tableKey pa) w.va pa 8)
    | .busy => .next later

/-! ### The shared translation agent (R238) -/

/-- STA_ANSWER: an answer is cached in the die's and the waiters' clusters' tables; one to a request that an
invalidation covers, or whose leaf one in progress meets, is discarded, and the request is sent again after it. An answer without a valid leaf is no leaf for the address. -/
def execStaAnswer (tag : Nat) (leaf : Word) (level : Nat) (s : State) : Host.Outcome State Fault Refusal :=
  match takeFirst (fun (r : StaReq) => r.tag == tag && !r.stale && !r.refused) s.stas with
  | none => .next s
  | some (r, rest) =>
    let s := { s with stas := rest }
    if pteOk leaf && pteLeaf leaf && 1 ≤ level && level ≤ 3 then
      let t := leafTrans r.space r.va level leaf
      if s.overtaken t then .next { s with stas := rest ++ [{ r with stale := true }] }
      else .next ((s.fill r.die t r.waiters).wake r.waiters none)
    else .next (s.wake r.waiters (some (r.va / 4096, 1)))

/-- A request without an answer: its waiters fault with subcode 4, a unit or an engine sees that it is refused. -/
def State.refuseShared (s : State) (r : StaReq) (rest : List StaReq) : State :=
  let keep := if r.waiters = [] then [{ r with refused := true, since := s.cycle }] else []
  ({ s with stas := rest ++ keep }).wake r.waiters (some (r.va / 4096, 4))

/-- STA_REFUSAL. -/
def execStaRefusal (tag : Nat) (s : State) : Host.Outcome State Fault Refusal :=
  match takeFirst (fun (r : StaReq) => r.tag == tag && !r.stale && !r.refused) s.stas with
  | none => .next s
  | some (r, rest) => .next (s.refuseShared r rest)

/-- STA_TIMEOUT: no answer in 50,000 cycles. -/
def execStaTimeout (tag : Nat) (s : State) : Host.Outcome State Fault Refusal :=
  match takeFirst (fun (r : StaReq) => r.tag == tag && !r.refused && decide (r.since + 50000 ≤ s.cycle)) s.stas with
  | none => .next s
  | some (r, rest) => .next (s.refuseShared r rest)

/-! ### Invalidation (R67, R68) -/

def Trans.dropped (t : Trans) (odi : Nat) (range : Option (Nat × Nat)) : Bool :=
  t.space % 16 == odi && meetsRange t.va t.size range
/-- The packets in the outboxes of paired cores (R220). -/
def State.heldPackets (s : State) : List Packet :=
  s.cores.flatMap fun e => (e.2.pairing.map fun p => p.outbox.flatMap fun h => match h with
    | .packet p => [p]
    | .packets ps => ps
    | _ => []).getD []

/-- Steps 1 to 3 begin: matching entries leave every table, requests to the shared agent become stale, and accesses
translated with a dropped entry, of a large page those outside the range too, are waited for, on their way or held by a
pair. -/
def State.beginInvalidation (s : State) (odi : Nat) (range : Option (Nat × Nat)) (asked : InvFor) : State :=
  let live := fun (t : Trans) => !t.dropped odi range
  let inTab := fun (w : Nat × Nat × Nat × Word) =>
    let size := 2 ^ levelShift w.2.1
    w.1 % 16 == odi && meetsRange (w.2.2.1 * size) size range
  let gone := ((s.cores.flatMap fun e => e.2.micro) ++ (s.clusters.flatMap fun e => e.2.cache) ++
    s.dies.flatMap fun e => e.2.cache).filter fun t => t.dropped odi range
  let touched := fun (p : Packet) =>
    let va := bitsN p.loc 56 0
    p.odi == odi && p.pa.isSome && (meetsRange va 4096 range || gone.any fun t => t.va ≤ va && va < t.va + t.size)
  let waits := ((s.net ++ s.heldPackets).filter touched).flatMap fun p => p.numbers.map (·.2)
  let cores : Tab Core := s.cores.map fun e => (e.1, { e.2 with micro := e.2.micro.filter live })
  let clusters : Tab Cluster := s.clusters.map fun e => (e.1, { e.2 with cache := e.2.cache.filter live })
  let dies : Tab Die := s.dies.map fun e =>
    (e.1, { e.2 with cache := e.2.cache.filter live, walkTab := e.2.walkTab.filter fun w => !inTab w })
  let stas := (s.stas.filter fun r => !r.refused).map fun r =>
    if r.space % 16 == odi && meetsRange r.va 4096 range then { r with stale := true } else r
  -- entries asked of pod peers are asked for again
  let table := fun (o : Option Op) => match o.map (·.dest) with | some (.unit key) => decide (2 ^ 60 ≤ key) | _ => false
  let inv : Inv := { id := s.nextNum, odi := odi, range := range, waits := waits, asked := asked }
  { s.dropTables with cores := cores, clusters := clusters, dies := dies, stas := stas, invs := s.invs ++ [inv],
                      ops := s.ops.filter fun e => !table e.2, nextNum := s.nextNum + 1 }

/-- Bilrok writes page-table entries: physical addresses and values. A line that it rewrites leaves the lists of bad
entries (R68, R69), and the monitors of its channel see the write (R93). -/
def State.writeTables (s : State) (writes : List (Nat × Word)) : State :=
  writes.foldl (init := s) fun s w =>
    let line := w.1 / 64
    let t : State :=
      { s with dram := s.dram.write w.1 (bytesOf 8 w.2), dramBad := Tab.set false s.dramBad line false,
               dies := s.dies.map fun e => (e.1, { e.2 with bad := e.2.bad.filter (· != line) }) }
    t.fireMonitors (.channel (channelOf w.1))
/-- The channels of page-table entries that are to be written serve accesses (R247). -/
def State.tablesFree (s : State) (writes : List (Nat × Word)) : Bool := writes.all fun w => !s.channelParked w.1

/-- STA_INVALIDATE. -/
def execStaInvalidate (seq odi : Nat) (range : Option (Nat × Nat)) (s : State) : Host.Outcome State Fault Refusal :=
  .next (s.beginInvalidation odi range (.agent seq))

/-- Requests that an invalidation has made stale are sent again under new tags. -/
def State.resend (s : State) (i : Inv) : State :=
  s.stas.foldl (init := { s with stas := [] }) fun s r =>
    if r.stale && r.space % 16 == i.odi && !s.invalidating r.space r.va then
      let tag := s.nextNum
      let s := { s with stas := s.stas ++ [{ r with tag := tag, stale := false, since := s.cycle }], nextNum := tag + 1 }
      s.send (.peer s.firmware.agent) (.staRequest tag (r.space % 16) r.va r.kind)
    else { s with stas := s.stas ++ [r] }

/-- INVALIDATION_COMPLETE: every access waited for has been performed; whoever ordered the invalidation is told, a host
when all that its packet ordered have completed. -/
def execInvalidationComplete (id : Nat) (s : State) : Host.Outcome State Fault Refusal :=
  match takeFirst (fun (i : Inv) => i.id == id) s.invs with
  | none => .next s
  | some (i, rest) =>
    if (s.net ++ s.heldPackets).any fun p => p.numbers.any fun e => i.waits.contains e.2 then .next s
    else
      let s := { s with invs := rest }
      let s := match i.asked with
        | .host sender cls _ fields =>
          if rest.any fun j => j.asked == i.asked then s else s.sendTlv sender cls fields
        | .agent seq => s.send (.peer s.firmware.agent) (.staAck seq)
        | .firmware => s
      .next (s.resend i)

end Sys2Proof.Machine
end

