-- ==== Sys2Proof/Machine/Assign.lean ====
section
/-! DEFINITION. What the supervisor and the reliability manager do: assigning cores, clearing partitions, pre-emption,
uncorrectable errors, self-tests, retention, scrubbing, budgets (R12, R20, R36, R60, R70-R74, R96, R105, R110-R114,
R183, R191, R211-R216, R223-R226, R241, R247). -/
namespace Sys2Proof.Machine

/-! ### Clearing a partition (R72, R74, R241) -/

/-- A core without a partition: no context, nothing queued or held. A copy that runs goes on. -/
def Core.unassign (k : Core) : Core :=
  { k with part := none, ctxs := [], inbox := [], mailbox := [], mq := [], batches := [], openBatch := {}, joins := [],
           eqs := k.eqs.map (fun e => (e.1, { e.2 with entries := [] })), handler := false, trapQueue := [], gang := none,
           pairing := none, phase := none, barriers := [], task := none, saved := none, era := k.era + 1 }
/-- A core after clearing: its storage is zero and free, and nothing of its task is left. -/
def Core.cleared (k : Core) : Core :=
  { killed := k.killed, killCause := k.killCause, cap := k.cap, selfTest := k.selfTest, tested := k.tested,
    redeliver := k.redeliver, era := k.era, shared := k.shared, tracing := k.tracing, trace := k.trace }
/-- What a cluster keeps of a clearing: caches of translations and power; the arbiter starts anew (R140). -/
def Cluster.cleared (k : Cluster) : Cluster := { k with store := {}, cbs := [], last := 7, run := 0, saved := none }

/-- The partition cores of clusters. -/
def State.coresOf (s : State) (clusters : List Nat) : List Nat :=
  (clusters.flatMap clusterCores).filter fun c => !s.inColumn c

/-- Traffic to and from cores and clusters that is still on its way (log 37). -/
def State.traffic (s : State) (cores clusters : List Nat) : Bool :=
  (s.net.any fun p => p.cores.any cores.contains || match p.home with
    | .localMem c => cores.contains c
    | .scratch n => clusters.contains n
    | _ => false) ||
  (s.replies.any fun r => r.packet.cores.any cores.contains) ||
  (s.msgs.any fun m => cores.contains m.dst || cores.contains m.msg.src) ||
  (s.meets.any fun m => cores.contains m.core || cores.contains m.home) ||
  (s.arrivals.any fun a => cores.contains a.core || cores.contains a.corner) ||
  (s.exchange.any fun t => cores.contains t.src || (t.target.map cores.contains).getD false) ||
  cores.any fun c => (s.core c).eqs.any fun q => q.2.running.isSome

/-- Hand a granule of main memory to a domain (R72). What the former owner's lines read as under another domain's key is
not said: free bytes (R71; log 21). -/
def State.handGranule (s : State) (odi g : Nat) : State :=
  if crashGranule g || Tab.get 0 s.owners g = odi then s
  else
    let old := s.freeCtr
    { s with owners := Tab.set 0 s.owners g odi, freeCtr := old + 65536,
             dram := s.dram.replace (65536 * g) 65536 fun a => Config.freeByte (old + (a - 65536 * g)) }

/-- Walks and requests to the shared agent have no waiters among some cores any more. -/
def State.forgetWaiters (s : State) (cores : List Nat) : State :=
  let others := fun (l : List (Nat × Nat)) => l.filter fun w => !cores.contains w.1
  { s with dies := s.dies.map fun e => (e.1, { e.2 with walks := e.2.walks.map fun w => { w with waiters := others w.waiters } }),
           stas := s.stas.map fun r => { r with waiters := others r.waiters } }

/-- PARTITION_CLEAR: the cores of the former and the next partition are unassigned, arrivals and transfers from them and
to them are dropped, walks have no waiters there any more, owner tags change, and clearing begins. A cluster that lies wholly in the firmware column belongs to no partition (R241). -/
def execPartitionClear (n : Nat) (next : PartitionSpec) (s : State) : Host.Outcome State Fault Refusal :=
  let had := fun (q : Option Partition) => ((q.map fun p => p.clusters ++ p.leaving)).getD []
  let others := s.parts.flatMap fun e => if e.1 = n then [] else had e.2
  let wanted := (next.clusters.filter fun c => !others.contains c && !(clusterCores c).all s.inColumn).eraseDups
  let clusters := (had (s.part n) ++ wanted).eraseDups
  let cores := s.coresOf clusters
  let s := cores.foldl (init := s) fun s c => if (s.core c).part.isSome then s.stopTask c else s
  let s := cores.foldl (init := s) fun s c => s.modCore c Core.unassign
  let s := { s.forgetWaiters cores with
    arrivals := s.arrivals.filter (fun a => !cores.contains a.core && !cores.contains a.corner),
    corners := s.corners.filter (fun e => !cores.contains (e.1 / 4)),
    exchange := s.exchange.filter fun t => !cores.contains t.src && !(t.target.map cores.contains).getD false }
  let s := next.granules.foldl (init := s) fun s g => s.handGranule next.odi g
  let p : Partition := { odi := next.odi, table := next.table, clusters := wanted, host := next.host, clearing := true,
                         leaving := clusters.filter fun c => !wanted.contains c }
  .next { s with parts := Tab.put s.parts n (some p) }

/-- PARTITION_CLEAR_COMPLETE: with its traffic drained, every store of the partition's clusters, and of those that have
left it, is zero and every tile table entry free with generation 0. -/
def execPartitionClearComplete (n : Nat) (s : State) : Host.Outcome State Fault Refusal :=
  match s.part n with
  | none => .next s
  | some p =>
    let clusters := p.clusters ++ p.leaving
    let cores := s.coresOf clusters
    if !p.clearing || s.traffic cores clusters then .next s
    else
      let s := cores.foldl (init := s) fun s c => s.modCore c Core.cleared
      let s := clusters.foldl (init := s) fun s c => s.modCluster c Cluster.cleared
      .next { s with parts := Tab.put s.parts n (some { p with clearing := false, leaving := [] }) }

/-! ### Core assignment (R12, R20, R28, R36, R60, R96, R183, R218) -/

/-- CORE_ASSIGNMENT: a cleared core of the partition's clusters starts at its resident loop with every register dead; none
is assigned before the fence table has been applied, or in firmware-only service (R226, R240). -/
def execCoreAssignment (c n : Nat) (tvec entry : Word) (s : State) : Host.Outcome State Fault Refusal :=
  match s.part n with
  | none => .next s
  | some p =>
    let k := s.core c
    if !s.firmware.fencesOk || !s.firmware.service || p.clearing || !p.clusters.contains (clusterOf c) || s.inColumn c || k.part.isSome || k.killed || k.selfTest.isSome
    then .next s
    else
      let loop : Context := { live := true, pc := entry, life := (k.ctx 0).life }
      .next (s.setCore c { k.cleared with part := some n, store := k.store, tvec := tvec, bilrok := some (tvec &&& ~~~(1 : Word)),
                                          loopPc := entry, ctxs := [(0, loop)] })

/-! ### Pre-emption (R110-R112) -/

/-- Cores with every core of their co-resident units, over and over. -/
def State.closeUnits (s : State) : Nat → List Nat → List Nat
  | 0, l => l
  | fuel + 1, l =>
    let more := (l.flatMap fun m => m :: s.unitsOf m ++ (s.core m).bound m).eraseDups
    if more.length = l.length then l else s.closeUnits fuel more
/-- The cores that are pre-empted together: co-resident units are taken whole. -/
def State.unit (s : State) (c : Nat) : List Nat := s.closeUnits (s.cores.length + 1) [c]

/-- A running copy stands at a row boundary: of each row all pieces are left, or none, and none is on its way. -/
def CopyRun.betweenRows (r : CopyRun) : Bool :=
  let pieces := (copyPieces r.entry.fields).zipIdx
  let rows := (pieces.map fun p => p.1.1).eraseDups
  !r.guard && r.left == 0 && r.todo != [] && rows.all fun row =>
    let own := (pieces.filter fun p => p.1.1 == row).map (·.2)
    own.all r.todo.contains || own.all fun i => !r.todo.contains i

/-- A core may be stopped now: at an instruction boundary of every context, a step boundary of its matrix work and a row
boundary of its copies, with nothing outstanding, outside phases and handlers, its pairing interval verified (log 38). -/
def State.preemptible (s : State) (c : Nat) : Bool :=
  let k := s.core c
  let idle := fun (t : Context) => t.loads == [] && match t.wait with | .reply _ => false | _ => true
  k.saved.isNone && !k.inPhase s.cycle && !k.handler && k.ctxs.all (fun e => idle e.2) &&
    (k.pairing.map fun p => p.retired == 0 && p.undo == [] && p.outbox == []).getD true &&
    (s.net.all fun p => !p.actsFor c || p.armed.isSome) && s.replies.all (fun r => r.packet.core != c) &&
    (s.meets.all fun m => m.core != c) && k.mq.all (fun e => e.rowsOut.isNone || e.rowsOut == some 0) &&
    k.eqs.all fun q => (q.2.running.map CopyRun.betweenRows).getD true

/-- A queue whose running copy has stopped: what it has left is an entry ahead of the others (R111, R112). -/
def CopyQueue.stop (q : CopyQueue) : CopyQueue :=
  match q.running with
  | some r => { entries := { r.entry with begun := some (r.todo, r.status, r.bytes) } :: q.entries, running := none }
  | none => q

/-- Save a core's task and take it out of service. tstep shows the head entry's step. -/
def Core.save (k : Core) : Core :=
  let step := BitVec.ofNat 64 ((k.mq.head?.map (·.next)).getD 0)
  let eqs : Tab CopyQueue := k.eqs.map fun e => (e.1, e.2.stop)
  let s : Saved := { contexts := k.ctxs, store := k.store, tiles := k.tiles, mq := k.mq, eqs := eqs, mailbox := k.mailbox,
                     inbox := k.inbox, conf := k.conf, barriers := k.barriers, step := step }
  { k with saved := some s, tstep := step, tiles := [], mq := [], eqs := [], mailbox := [], inbox := [], conf := [] }
/-- Every core of a cluster that has a partition is pre-empted: the scratchpad and the circular buffers are saved. -/
def State.saveCluster (s : State) (cl : Nat) : State :=
  let cores := (clusterCores cl).filter fun c => (s.core c).part.isSome
  if cores.isEmpty || (s.cluster cl).saved.isSome || !cores.all fun c => (s.core c).saved.isSome then s
  else s.modCluster cl fun k => { k with saved := some (k.store, k.cbs), store := {}, cbs := [] }

/-- PREEMPTION: every context's waiting instruction is abandoned, and the unit's tasks are saved. -/
def execPreemption (c : Nat) (s : State) : Host.Outcome State Fault Refusal :=
  let unit := s.unit c
  if (s.core c).part.isNone || (s.core c).killed || !unit.all s.preemptible then .next s
  else
    let stop := fun (s : State) (m : Nat) =>
      ((span 0 11).foldl (init := s) fun s x => if (s.ctx m x).live then s.abandon m x else s).modCore m Core.save
    .next ((unit.map clusterOf).eraseDups.foldl (init := unit.foldl stop s) State.saveCluster)

/-- PREEMPTION_RESUME: the unit goes on on the same cores. -/
def execPreemptionResume (c : Nat) (s : State) : Host.Outcome State Fault Refusal :=
  if (s.core c).saved.isNone then .next s
  else .next ((s.unit c).foldl (init := s) fun s m => (s.restoreCluster m).modCore m Core.restore)

/-! ### Uncorrectable errors (R213) -/

/-- Mark a word of an on-chip store. -/
def Store.poisonWord (m : Store) (offset : Nat) : Store := { m with poison := Tab.set false m.poison (offset / 8) true }
/-- Change the element at an index. -/
def modAt {α : Type} (l : List α) (n : Nat) (f : α → α) : List α := l.zipIdx.map fun e => if e.2 == n then f e.1 else e.1

/-- UNCORRECTABLE_ERROR. -/
def execUncorrectableError (site : ErrorSite) (s : State) : Host.Outcome State Fault Refusal :=
  match site with
  | .localWord c o =>
    .next ((s.modCore c fun k => { k with store := k.store.poisonWord o }).count Count.sramUncorrectable c)
  | .scratchWord n o =>
    .next ((s.modCluster n fun k => { k with store := k.store.poisonWord o }).count Count.sramUncorrectableCluster n)
  | .dramLine pa =>
    .next (({ s with dramBad := Tab.set false s.dramBad (pa / 64) true }).count Count.dramUncorrectable (stackOf pa))
  | .tile c t =>
    .next ((s.modCore c fun k => { k with tiles := Tab.update {} k.tiles t fun (q : Tile) => { q with poison := true } }).count
      Count.sramUncorrectableCluster (clusterOf c))
  | .mailboxEntry c n =>
    let mark := fun (m : Msg) => { m with poison := true }
    .next ((s.modCore c fun k => { k with mailbox := modAt k.mailbox n mark }).count Count.sramUncorrectable c)
  | .inboxEntry c n =>
    let mark := fun (t : Task) => { t with poison := true }
    .next ((s.modCore c fun k => { k with inbox := modAt k.inbox n mark }).count Count.sramUncorrectable c)
  | .confluenceEntry c n =>
    .next ((s.modCore c fun k => { k with conf := k.conf.eraseIdx n }).count Count.sramUncorrectable c)
  | .copyBuffer c q =>
    .next (s.modCore c fun k => k.modEq q fun p => { p with running := p.running.map fun r =>
      { r with status := if r.status = 0 then 5 else r.status } })
  | .replaySlot link seq header =>
    let own := fun (r : ReplaySlot) => r.link == link && r.seq == seq
    .next { s with replay := replaceWhere own (fun r => { r with lost := some header }) s.replay }
  | .pageTableLine pa =>
    .next (({ s with dramBad := Tab.set false s.dramBad (pa / 64) true }).count Count.dramUncorrectable (stackOf pa))
  | .coreMachinery c =>
    let s := s.count Count.sramUncorrectable c
    .next (if (s.core c).killed then s else s.killCore c 0xFF)

/-! ### Self-tests and fences (R223-R226) -/

/-- SELF_TEST_PERIODIC: a core without a task is tested when its interval has passed, and withdrawn from placement; or the
host sets the interval (log 61). -/
def execSelfTestPeriodic (move : SelfTestMove) (s : State) : Host.Outcome State Fault Refusal :=
  match move with
  | .interval n => .next (s.modFirmware fun f => { f with selfTestPeriod := n })
  | .test c =>
    let k := s.core c
    let due := k.task.isNone && k.inbox == [] && !k.killed && k.selfTest.isNone && k.saved.isNone &&
      decide (k.tested + s.firmware.selfTestPeriod ≤ s.cycle)
    whenDue due s (s.modCore c fun k =>
      { k with selfTest := some { classes := BitVec.allOnes 28, cause := 2, since := s.cycle } })

/-- Take classes, and the kill, out of a core's entry of the fence table; an empty entry goes. -/
def State.liftFence (s : State) (c : Nat) (classes : BitVec 28) (revive : Bool) : State :=
  s.modFirmware fun f =>
    let lift := fun (e : FenceEntry) =>
      if e.core == c then { e with classes := e.classes &&& ~~~classes, killed := e.killed && !revive } else e
    { f with fences := (f.fences.map lift).filter fun e => e.core != c || e.classes != 0 || e.killed }

/-- The classes that the fence table clears in a core: those of its own entry, and of classes 16-21 those of its
cluster's (R224). -/
def Firmware.fenced (f : Firmware) (c : Nat) : BitVec 28 :=
  f.fences.foldl (init := 0) fun m e =>
    if e.core == c then m ||| e.classes else if clusterOf e.core == clusterOf c then m ||| (e.classes &&& 0x3F0000) else m
/-- A killed core whose base set has passed an ordered test comes back cleared and unassigned; its classes are those
that no entry fences and no fence of its cluster has cleared, since only an ordered test of the core restores one (R225;
log 39). -/
def State.revive (s : State) (c : Nat) : State :=
  let s := s.liftFence c 0 true
  let fenced := s.firmware.fenced c
  s.modCore c fun k =>
    { k.cleared with killed := false, killCause := 0, cap := ~~~((fenced ||| k.shared).setWidth 64) }

/-- Count once for each class of a core. -/
def State.countClasses (s : State) (kind c : Nat) (classes : BitVec 28) : State :=
  (span 0 28).foldl (init := s) fun s n => if classes.getLsbD n then s.count kind (c * 28 + n) else s

/-- What a killed core has sent and what comes to it has been performed or dropped, and its copies have completed: it can be
cleared (R74, R216). -/
def State.drained (s : State) (c : Nat) : Bool := !s.traffic [c] [] && !s.outstanding c
/-- SELF_TEST_COMPLETION: failing classes are fenced, a base-set failure kills the core, and a passing ordered test
restores its classes and a killed core, which comes back once it is drained. -/
def execSelfTestCompletion (c : Nat) (failed : BitVec 28) (baseFailed : Bool) (s : State) :
    Host.Outcome State Fault Refusal :=
  let k := s.core c
  match k.selfTest with
  | none => .next s
  | some t =>
    if !baseFailed && k.killed && t.cause == 3 && !s.drained c then .next s
    else
    let bad := failed &&& t.classes
    let good := t.classes &&& ~~~failed
    let s := s.modCore c fun k => { k with selfTest := none, tested := s.cycle }
    let s := (s.countClasses Count.selfTestRun c t.classes).countClasses Count.selfTestFailure c bad
    if baseFailed then .next (let s := s.fence c bad t.cause; if k.killed then s else s.killCore c 0xFE)
    else
      let s := if k.killed && t.cause = 3 then s.revive c else s
      let s := s.fence c bad t.cause
      if t.cause = 3 then
        let s := s.liftFence c good false
        .next (if (s.core c).killed then s else s.modCore c fun k =>
          { k with cap := k.cap ||| good.setWidth 64, shared := k.shared &&& ~~~good })
      else .next s

/-! ### Retention, stacks, scrubbing (R214, R215, R247) -/

/-- RE_ENCODE_COMPLETE. What it corrects is counted by HOME_ACCESS_PERFORM (log 91). -/
def execReEncodeComplete (array : SramArray) (s : State) : Host.Outcome State Fault Refusal :=
  .next { s with reencode := s.reencode.filter fun r => !(r.1 == array && decide (r.2 ≤ s.cycle)) }

/-- STACK_PARK: a parked stack stalls accesses to its channels. -/
def execStackPark (stack : Nat) (parked : Bool) (s : State) : Host.Outcome State Fault Refusal :=
  .next { s with dramStacks := Tab.update {} s.dramStacks stack fun (k : Stack) => { k with parked := parked } }

/-- The next line at or after one that lies in a die's stacks. -/
def nextLine (die : Nat) : Nat → Nat → Nat
  | 0, line => line
  | fuel + 1, line =>
    let l := if line * 64 ≥ Config.dramBytes then 0 else line
    if channelOf (l * 64) / 128 = die then l else nextLine die fuel ((l / 16 + 1) * 16)

/-- SCRUB_READ: the die's scrub engine reads its next line, within the scrub budget. -/
def execScrubRead (die : Nat) (outcome : ScrubOutcome) (s : State) : Host.Outcome State Fault Refusal :=
  if !s.budgetLeft 6 die then .next (s.budgetStall 6 die)
  else
    let line := nextLine die 2048 (Tab.get 0 s.scrub die)
    let ch := channelOf (line * 64)
    if s.arrayBusy (.channel ch) then .next s
    else
      let s := ({ s with scrub := Tab.put s.scrub die (line + 1) }).spend 6 die 64
      match outcome with
      | .clean => .next s
      | .corrected device => .next (s.noteDevice line device)
      | .uncorrectable => .next (({ s with dramBad := Tab.set false s.dramBad line true }).count Count.dramUncorrectable (ch / 64))

/-! ### Budgets (R211) -/

/-- BUDGET_PERIOD: a new period; what a budget held back on its way to a host goes out. -/
def execBudgetPeriod (s : State) : Host.Outcome State Fault Refusal :=
  whenDue (s.period + 25000 ≤ s.cycle) s
    { s with period := s.cycle / 25000 * 25000,
             budgets := s.budgets.filterMap fun (r : BudgetRow) =>
               if r.implied then (s.remainder r.activity r.consumer).map fun n => { r with left := n }
               else some { r with left := s.grant r } }.sendStalled

end Sys2Proof.Machine
end

