-- ==== Sys2Proof/Machine/Control.lean ====
section
/-! DEFINITION. Control flow: branches, calls, loops, jump tables, traps and the return from a handler
(R22, R23, R100, R101, R104, R129, R262, R267, R268, R270, R301, R302, R306, R309, R328, R337, R338, R354). -/
namespace Sys2Proof.Machine

/-- A target that many halfwords from the instruction. -/
def target {w : Nat} (pc : Word) (o : BitVec w) : Word := pc + 2 * o.signExtend 64

/-- A conditional branch: its taken path is fetched into the other half, and the half of the path that wins becomes the
context's current one (a target that is held stays in its half); lines fetched only for the other path become the least recently used (R20). -/
def State.branch (s : State) (taken : Bool) (dest : Word) : Res :=
  let c := s.cur.1
  let half := s.me.half
  let held := s.here.buffer.map (·.va)
  let t := s.fetchPath c s.cur.2 (!half) dest
  let onward := (pathLines s.me.pc).drop 1
  if taken then
    let lost := fun (l : CodeLine) => onward.contains l.va && l.half == half && !l.used && !(pathLines dest).contains l.va
    let win := ((t.here.buffer.find? fun l => l.va == bitsN dest 56 0 / 64 * 64).map (·.half)).getD (!half)
    .jump ((t.modHere fun k => k.demoteLines lost).modMe fun x => { x with half := win }) dest
  else .done (t.modHere fun k => k.demoteLines fun l => (pathLines dest).contains l.va && !held.contains l.va)

def execBz (r : BitVec 6) (o : BitVec 18) (s : State) : Host.Outcome State Fault Refusal :=
  issue (.bz r o) s fun _ s => s.branch (s.g r.toNat == 0) (target s.me.pc o)
def execBzG16 (r : BitVec 5) (o : BitVec 6) (s : State) : Host.Outcome State Fault Refusal :=
  issue (.bzG16 r o) s fun _ s => s.branch (s.g r.toNat == 0) (target s.me.pc o)
def execBnz (r : BitVec 6) (o : BitVec 18) (s : State) : Host.Outcome State Fault Refusal :=
  issue (.bnz r o) s fun _ s => s.branch (s.g r.toNat != 0) (target s.me.pc o)
def execBnzG16 (r : BitVec 5) (o : BitVec 6) (s : State) : Host.Outcome State Fault Refusal :=
  issue (.bnzG16 r o) s fun _ s => s.branch (s.g r.toNat != 0) (target s.me.pc o)
def execBany (r : BitVec 6) (o : BitVec 18) (s : State) : Host.Outcome State Fault Refusal :=
  issue (.bany r o) s fun _ s => s.branch (s.me.readK r.toNat != 0) (target s.me.pc o)
def execBnone (r : BitVec 6) (o : BitVec 18) (s : State) : Host.Outcome State Fault Refusal :=
  issue (.bnone r o) s fun _ s => s.branch (s.me.readK r.toNat == 0) (target s.me.pc o)

def execBr (o : BitVec 24) (s : State) : Host.Outcome State Fault Refusal :=
  issue (.br o) s fun _ s => .jump s (target s.me.pc o)
def execBr16 (o : BitVec 11) (s : State) : Host.Outcome State Fault Refusal :=
  issue (.br16 o) s fun _ s => .jump s (target s.me.pc o)
def execCall (o : BitVec 24) (s : State) : Host.Outcome State Fault Refusal :=
  issue (.call o) s fun _ s => .jump (s.writeG 63 (s.me.pc + 4) false) (target s.me.pc o)
/-- JR: the target is read before the link is written. -/
def execJr (d r : BitVec 6) (s : State) : Host.Outcome State Fault Refusal :=
  issue (.jr d r) s fun _ s => .jump (s.writeG d.toNat (s.me.pc + 4) false) (s.g r.toNat)
def execRet (s : State) : Host.Outcome State Fault Refusal :=
  issue .ret s fun _ s => .jump s (s.g 63)
def execRet16 (s : State) : Host.Outcome State Fault Refusal :=
  issue .ret16 s fun _ s => .jump s (s.g 63)

/-! ### Loops -/

/-- A loop fault carries lpd. -/
def State.loopFault (s : State) : Res := .trap 0x0F 0 (BitVec.ofNat 64 s.me.lpd)
/-- Loop levels are frozen while the handler runs (R100). -/
def State.frozenHere (s : State) : Bool := s.loopsFrozen s.cur.1 s.cur.2

def execLoop (r : BitVec 6) (o : BitVec 18) (s : State) : Host.Outcome State Fault Refusal :=
  issue (.loop r o) s fun _ s =>
    let count := s.g r.toNat
    let stop := target s.me.pc o
    if s.frozenHere then s.loopFault
    else if count = 0 then .jump s stop
    else if s.me.lpd ≥ 4 then s.loopFault
    else
      let level : Level := { start := s.me.pc + 4, stop := stop, count := count }
      .done (s.modMe fun x => { x with lp := Tab.put x.lp x.lpd level, lpd := x.lpd + 1 })

/-- LEAVE: the level is closed first, so its own end takes no step, while an outer level's end may (R23). -/
def execLeave (s : State) : Host.Outcome State Fault Refusal :=
  issue .leave s fun _ s =>
    if s.frozenHere || s.me.lpd = 0 then s.loopFault
    else
      let level : Level := Tab.get {} s.me.lp (s.me.lpd - 1)
      .jump (s.modMe fun x => { x with lpd := x.lpd - 1 }) level.stop

/-! ### Jump tables -/

/-- JTAB: an entry is a signed 32-bit halfword offset from the JTAB, high halfword first, fetched as code. -/
def execJtab (r : BitVec 6) (n : BitVec 18) (s : State) : Host.Outcome State Fault Refusal :=
  issue (.jtab r n) s fun _ s =>
    let pc := s.me.pc
    let i := s.g r.toNat
    if n.toNat ≤ i.toNat then .jump s (pc + 4 + 4 * n.setWidth 64)
    else
      let entry := pc + 4 + 4 * i
      let bad := fun (f : Fetched) (s : State) => match f with
        | .poison => Res.trap 0x15 0 entry
        | .fault _ => Res.trap 0x10 0 entry
        | _ => Res.wait s
      match s.fetchHalf s.cur.1 s.cur.2 entry with
      | (.half h, s) =>
        match s.fetchHalf s.cur.1 s.cur.2 (entry + 2) with
        | (.half l, s) => .jump s (target pc (h ++ l))
        | (f, s) => bad f s
      | (f, s) => bad f s

/-! ### Traps and the return from a handler -/

def execTrap (n : BitVec 10) (s : State) : Host.Outcome State Fault Refusal :=
  issue (.trap n) s fun _ _ => .trap 0x11 0 (n.setWidth 64)
def execBkpt (n : BitVec 10) (s : State) : Host.Outcome State Fault Refusal :=
  issue (.bkpt n) s fun _ _ => .trap 0x12 0 (n.setWidth 64)

/-- Resume a frozen helper at tpc, or past the instruction there when tcause holds a software trap or a breakpoint; the
first halfword at tpc gives its size. A halfword that cannot be fetched faults in the helper at its next fetch. None
while that halfword is on its way. -/
def State.resumeHelper (s : State) (c n : Nat) : Option State :=
  let k := s.core c
  let go := fun (s : State) (pc : Word) => (s.modCtx c n fun t => { t with frozen := none, wait := .none }).gotoCtx c n pc
  let past := k.tcause.setWidth 8 = (0x11 : BitVec 8) || k.tcause.setWidth 8 = (0x12 : BitVec 8)
  if !past then some (go s k.tpc)
  else
    match s.fetchHalf c 0 k.tpc with
    | (.half h, s) => some (go s (k.tpc + if isWide h then 4 else 2))
    | (.wait, _) => none
    | (_, s) => some (go s k.tpc)

/-- RETT: the helper resumes or ends; then the oldest undelivered trap is delivered with tret kept, or control returns
to tret (R101). -/
def execRett (e : BitVec 4) (s : State) : Host.Outcome State Fault Refusal :=
  issue (.rett e) s fun _ s =>
    let c := s.cur.1
    let n := s.here.tctx.toNat
    let leave := fun (s : State) =>
      let s := s.modCore c fun k => { k with handler := false }
      match s.here.trapQueue with
      | m :: _ => Res.gone (s.deliverTrap c m s.here.tret)
      | [] => Res.jump s s.here.tret
    if n = 0 then leave s
    else if e = 1 then leave (s.modCore c fun k => k.endHelper n)
    else
      match s.resumeHelper c n with
      | some s => leave s
      | none =>
        match s.fetchHalf c 0 s.here.tpc with
        | (_, s) => .wait s

def execNop (s : State) : Host.Outcome State Fault Refusal := issue .nop s fun _ s => .done s
def execNop16 (s : State) : Host.Outcome State Fault Refusal := issue .nop16 s fun _ s => .done s

end Sys2Proof.Machine
end

