-- ==== Sys2Proof/Machine/Traversal.lean ====
section
/-! DEFINITION. Query-set traversal: node homes, confluence tables, meetings and their roles, splitting and the holding
queue (R183-R191, R276, R313, R314, R346). -/
namespace Sys2Proof.Machine

/-- The home of a node in a plot, by the core's mode (R183). -/
def homeOfNode (r : BitVec 32) (mode : BitVec 2) (node : BitVec 32) : Nat :=
  let w := rectW r
  let p := w * rectH r
  let i := if mode = 0 then (node * 0x9E3779B1).toNat * p / 2 ^ 32 else node.toNat % p
  coreAt (rectX r + i % w) (rectY r + i / w)

/-- ssn0 modulo 2^16. -/
def Core.stamp (k : Core) : BitVec 16 := (Tab.get 0 k.ssn 0 : BitVec 32).setWidth 16

/-- The thread id of a context: coreid·16 + ctxid (R185). -/
def Core.threadId (k : Core) (c x : Nat) : BitVec 16 := BitVec.ofNat 16 (k.idOf c * 16 + x)

/-- MEET (R185, R313). -/
def execMeet (a : BitVec 6) (s : State) : Host.Outcome State Fault Refusal :=
  issue (.meet a) s fun _ s =>
    let c := s.cur.1
    match s.here.plot with
    | none => .trap 0x17 0 0
    | some r =>
      let node : BitVec 32 := (s.g a.toNat).setWidth 32
      let stamp := s.here.stamp
      let m : MeetFlight := { id := 0, core := c, home := homeOfNode r s.here.mode node, node := node, stamp := stamp,
                              tid := s.here.threadId c s.cur.2, set := s.me.readQ 0 }
      let sent := if s.holdsBack then s.hold (.meet m) else some (s.sendMeet m)
      s.injecting (match sent with
        | none => .interval
        | some s => .done (s.modMe fun x => { x with meet := some { node := node, stamp := stamp } }))

/-! ### The confluence table (R184, R185) -/

def Core.confAt (k : Core) (node : BitVec 32) (stamp : BitVec 16) : Option Conf :=
  k.conf.find? fun e => e.node == node && e.stamp == stamp

/-- Merge an arrival into a home's table of 256 entries. A new one takes an unused entry; when all are used it takes one
that counts as free, and which is not architected: `pick` says it (R184, R192; log 46). None when no entry is free. -/
def Core.mergeMeet (k : Core) (m : MeetFlight) (pick : Nat) : Option Core :=
  let same := fun (e : Conf) => e.node == m.node && e.stamp == m.stamp
  if k.conf.any same then
    let conf := replaceWhere same (fun e =>
      { e with owner := if m.tid.ult e.owner then m.tid else e.owner, set := e.set ||| m.set }) k.conf
    some { k with conf := conf }
  else
    let new : Conf := { node := m.node, stamp := m.stamp, owner := m.tid, set := m.set }
    let stale := k.conf.filter fun e => !decide ((m.stamp - e.stamp).toNat ≤ 2)
    if k.conf.length < 256 then some { k with conf := k.conf ++ [new] }
    else match stale[pick % stale.length]? with
      | none => none
      | some lost => some { k with conf := k.conf.filter (· != lost) ++ [new] }

/-- What a source has sent to a core before a MEET, and what a pre-empted core keeps waiting, comes first (R77, R169;
log 49). -/
def State.meetHeld (s : State) (m : MeetFlight) : Bool :=
  (s.core m.home).saved.isSome || s.behind m.core m.home m.id ||
    s.net.any fun p => p.home == .localMem m.home && p.armed.isNone && p.numbers.any fun e => e.1 == m.core && decide (e.2 < m.id)
/-- MEET_ARRIVAL: a killed home and a full table drop the arrival, which is counted. -/
def execMeetArrival (id : Nat) (s : State) : Host.Outcome State Fault Refusal :=
  match takeFirst (fun m => m.id == id) s.meets with
  | none => .next s
  | some (m, rest) =>
    if s.meetHeld m then .next s
    else
    let s := (({ s with meets := rest }).subPending m.core [0] 128).leaveSlots .meet id
    let r := s.freeWord
    let home := s.core m.home
    match if home.killed then none else home.mergeMeet m r.1.toNat with
    | some k => .next (r.2.setCore m.home k)
    | none => .next (s.count Count.droppedMeet m.home)

/-! ### Roles (R186) -/

/-- MEETQ (R314): the context parks with its meet record until b0 has released; a BARSET that invalidates the record
meanwhile does not take it from the waiting MEETQ (R186). -/
def execMeetq (d : BitVec 6) (x : BitVec 4) (s : State) : Host.Outcome State Fault Refusal :=
  issue (.meetq d x) s fun _ s =>
    match s.me.meet with
    | some r => .wait (s.modMe fun t => { t with wait := .meetq d.toNat x.toNat r })
    | none => .stall s

/-- The role of a thread with the sets that q0 and qX take; an absorbed or alone thread's stay. -/
def State.roleOf (s : State) (c x : Nat) (r : Meet) : Nat × Option (QSet × QSet) :=
  let k := s.core c
  let home := k.plot.map fun p => s.core (homeOfNode p k.mode r.node)
  let entry := fun (stamp : BitVec 16) => home.bind fun h => if h.killed then none else h.confAt r.node stamp
  if k.stamp - r.stamp ≠ 1 then (3, none)
  else
    match entry r.stamp with
    | none => (3, none)
    | some e =>
      if e.owner ≠ k.threadId c x then (1, none)
      else match entry (r.stamp - 1) with
        | some before => (2, some (e.set, before.set))
        | none => (0, some (e.set, e.set))

/-- Write a role and the sets that come with it. -/
def State.takeRole (s : State) (c x d qx : Nat) (role : Nat) (sets : Option (QSet × QSet)) : State :=
  let old := s.ctx c x
  let s := s.modCtx c x fun t =>
    let t := match sets with
      | some (a, b) => (t.writeQ 0 a).writeQ qx b
      | none => t
    let t := if role = 3 then t.setChk 6 else t
    let t := t.writeG d (BitVec.ofNat 64 role) false
    { t with meet := none }
  s.finish c x ((if d = 0 then [] else [.g d]) ++ if sets.isSome then [.q 0, .q qx] else []) old

/-- MEETQ_RESOLVE. The odd core of a pair takes what the even core received (R220). -/
def execMeetqResolve (c x : Nat) (s : State) : Host.Outcome State Fault Refusal :=
  let k := s.core c
  let t := s.ctx c x
  match t.wait with
  | .meetq d qx r =>
    let odd := (k.pairing.map fun p => !p.even).getD false && x == 0
    if odd then
      match k.pairing with
      | some p => match p.replies with
        | r :: rest =>
          let s := s.modCore c fun k => { k with pairing := some { p with replies := rest } }
          match r.parts with
          | [(_, (role, _)), (_, (a, _)), (_, (b, _))] =>
            .next (s.takeRole c x d qx (leNat role) (some (leBits 1024 a, leBits 1024 b)))
          | [(_, (role, _))] => .next (s.takeRole c x d qx (leNat role) none)
          | _ => .next s
        | [] => .next s
      | none => .next s
    else if k.stamp = r.stamp then .next s
    else
      let role := s.roleOf c x r
      let sets := match role.2 with
        | some (a, b) => [(1, (bytesOf 128 a, false)), (2, (bytesOf 128 b, false))]
        | none => []
      let passed : Passed := { parts := (0, ([BitVec.ofNat 8 role.1], false)) :: sets }
      let give := fun (o : Core) =>
        { o with pairing := o.pairing.map fun (q : Pairing) => { q with replies := q.replies ++ [passed] } }
      let s := match k.pairing with
        | some p => if x = 0 then s.modCore p.partner give else s
        | none => s
      .next (s.takeRole c x d qx role.1 role.2)
  | _ => .next s

/-! ### Splitting (R188, R189) -/

/-- Write a record into a slot of the holding queue, as the last one. -/
def Core.holdRecord (k : Core) (slot : Nat) (start : Word) (regs : Tab GVal) (set : QSet) : Core :=
  match k.holding with
  | none => k
  | some h =>
    let t := k.store.tile h.handle
    let put := fun (m : Store) (off n : Nat) (bytes : List Byte) (poison : Bool) =>
      m.save (t.physAll 0 0 (256 * slot + off) n) bytes poison none
    let m := put k.store 0 8 (bytesOf 8 start) false
    let m := regs.foldl (init := m) fun m r => put m (8 * r.1) 8 (bytesOf 8 r.2.bits) r.2.poison
    { k with store := put m 128 128 (bytesOf 128 set) false, holding := some { h with slots := h.slots ++ [slot] } }

/-- SPLIT (R188, R346). Which free slot a held record takes is not said (log 46). Monitors see a held record's write like
every other (R93). -/
def execSplit (d a : BitVec 6) (e : BitVec 4) (s : State) : Host.Outcome State Fault Refusal :=
  issue (.split d a e) s fun _ s =>
    let qa := s.me.readQ e.toNat
    let q0 := s.me.readQ 0
    let start := s.g a.toNat
    let num := fun (s : State) (n : Nat) => s.writeG d.toNat (BitVec.ofNat 64 n) false
    let keeps := fun (s : State) => s.modMe fun x => x.writeQ 0 (q0 &&& ~~~qa)
    if qa = 0 then .done (num s 0)
    else if q0 &&& ~~~qa = 0 then .jump (num (s.modMe fun x => x.writeQ 0 qa) 0) start
    else
      let regs := s.me.inherit
      match s.here.freeHelper with
      | some h => .done (num ((keeps s).modHere fun k => k.startHelper h start regs qa) h)
      | none =>
        match s.here.freeSlots with
        | [] => .done (num s 0xFFFF)
        | slots =>
          let w := s.freeWord
          let slot := slots.getD (w.1.toNat % slots.length) 0
          let held := (keeps w.2).modHere fun k => k.holdRecord slot start regs qa
          .done (num (held.fireMonitors (.localMem s.cur.1)) 0x8000)

/-- CFCFG (R183, R276): records held in the former queue stay held there, older than every later one. -/
def execCfcfg (a : BitVec 6) (s : State) : Host.Outcome State Fault Refusal :=
  issue (.cfcfg a) s fun _ s =>
    let w := s.g a.toNat
    let h := bitsN w 31 20
    let gen : BitVec 4 := w.extractLsb' 16 4
    let t := s.here.store.tile h
    let bad := bitsN w 63 32 ≠ 0 || bitsN w 15 3 ≠ 0 || bitsN w 1 0 ≥ 2 ||
      (h ≠ 0 && !(t.used && t.gen == gen && decide (16384 ≤ t.rows * t.rowBytes)))
    if bad then .trap 0x0A 9 w
    else
      .done (s.modHere fun k =>
        let same := (k.holding.map fun q => h != 0 && q.handle == h && q.gen == gen).getD (h == 0)
        let old := if same then [] else k.holding.toList.filter fun q => q.slots != []
        let now : Option Holding := if h = 0 then none else some { handle := h, gen := gen, slots := [] }
        { k with mode := w.setWidth 2, conf := if w.getLsbD 2 then [] else k.conf,
                 holding := if same then k.holding else now, oldHolds := k.oldHolds ++ old })

end Sys2Proof.Machine
end

