-- ==== Sys2Proof/Machine/Coverage.lean ====
section
/-! DEFINITION. Coverage control: CVDONE and CVST, the start of bands, reconstruction, sampled errors and the controller
(R204-R210, R282, R283). -/
namespace Sys2Proof.Machine

/-! ### CVDONE, CVST (R209, R210) -/

/-- CVDONE: outside a task it is ignored, a second one of an attempt is counted; otherwise a release at dev scope, and
the point is final. A pair declares it when the interval has verified (R282; log 45). -/
def execCvdone (s : State) : Host.Outcome State Fault Refusal :=
  issue .cvdone s fun _ s =>
    let c := s.cur.1
    match s.here.task with
    | none => .done s
    | some t =>
      if s.here.cvdone then .done (s.count Count.repeatedDone c)
      else
        let noted := fun (s : State) => s.modHere fun k => { k with cvdone := true }
        if s.holdsBack then Res.ofPost ((s.hold (.final t.launch t.stage t.point)).map noted)
        else if !s.released 6 c s.cur.2 then .stall s
        else .done (noted (s.declareFinal t.launch t.stage t.point))

/-- The word CVST reads for a task of a coverage stage (log 62). -/
def Launch.coverageState (l : Launch) (r : StageRun) (point : Nat) (f : BitVec 4) : Word :=
  let band := l.bandOf r.desc point
  match f.toNat with
  | 0 =>
    let next := r.bands.length
    let fixed := if next < 2 then some l.code else r.codes[next - 2]?
    BitVec.ofNat 64 (fixed.getD r.code + 16 * r.codeOf band + (if fixed.isSome then 256 else 0) + 2 ^ 32 * band)
  | 1 => match r.last with
    | some (b, e) => BitVec.ofNat 64 (e.toNat + 2 ^ 32 * b)
    | none => BitVec.allOnes 64
  | _ => BitVec.ofNat 64 (r.updates.toNat + 2 ^ 32 * r.changes.toNat)

/-- CVST: the even core of a pair reads for both (R220). -/
def execCvst (d : BitVec 6) (e : BitVec 4) (s : State) : Host.Outcome State Fault Refusal :=
  issue (.cvst d e) s fun _ s =>
    let value := match s.here.task with
      | none => 0
      | some t => match s.launch t.launch with
        | none => 0
        | some l => match l.stage t.stage with
          | some r => if r.desc.coverage then l.coverageState r t.point e else 0
          | none => 0
    if s.isOdd then
      match s.takeOver with
      | some (r, s) => .done (s.writeG d.toNat (leBits 64 r.1) false)
      | none => .stall s
    else .done ((s.passOn s.cur.1 s.cur.2 (bytesOf 8 value) false).writeG d.toNat value false)

/-! ### Bands (R204, R205, R208) -/

/-- The code with which the next band starts, once it may start. -/
def Launch.nextCode (l : Launch) (r : StageRun) : Option Nat :=
  if r.bands.length < 2 then some l.code else r.codes[r.bands.length - 2]?

/-- BAND_START: the band's code is fixed and its points are emitted; those whose point of the stage before is complete
are ready. -/
def execBandStart (n stage : Nat) (s : State) : Host.Outcome State Fault Refusal :=
  match s.launch n with
  | none => .next s
  | some l =>
    match l.stage stage with
    | none => .next s
    | some r =>
      let b := r.bands.length
      match l.nextCode r with
      | none => .next s
      | some code =>
        if l.finished || !r.desc.coverage || l.bandCount r.desc ≤ b then .next s
        else
          let before := fun (p : Nat) => stage == 0 || ((l.stage (stage - 1)).map fun q => q.done.contains p).getD false
          let new := (l.emits r.desc code b).filter before
          .next <| State.waitFrom (old := s) (n := n) <| s.modStage n stage fun r =>
            { r with bands := Tab.put r.bands b { code := code, errors := [] },
                     ready := new.foldl (init := r.ready) fun t p => insertNat p t }

/-! ### Elements of a result (Tables 13.3, 13.5) -/

/-- How results of a type are rebuilt. -/
inductive Kind where
  | float | int | nearest | member
  deriving DecidableEq, Repr

def StageDesc.tag (d : StageDesc) : BitVec 5 := BitVec.ofNat 5 d.rtype
def StageDesc.kind (d : StageDesc) : Kind :=
  if d.rtype < 8 then .int
  else if d.rtype < 12 || (16 ≤ d.rtype && d.rtype < 32) then .float
  else if d.rtype = 32 then .member
  else .nearest
/-- The format of a floating result. -/
def StageDesc.format (d : StageDesc) : Fmt :=
  if d.rtype < 16 then floatFmt d.tag else (narrowFmt d.fm).getD fmtF32
/-- Bits of an element in memory (R44): a set has 1,024 (log 47). -/
def StageDesc.elemBits (d : StageDesc) : Nat :=
  if d.rtype < 14 then laneWidth d.tag
  else if 16 ≤ d.rtype && d.rtype < 32 then (if d.format.width ≤ 4 then 4 else 8)
  else if d.rtype = 32 then (if d.tile % 128 = 0 then 1024 else 512)
  else 8
def StageDesc.elems (d : StageDesc) : Nat := 8 * d.tile / d.elemBits

/-- The elements that bytes hold: code and poison. -/
def StageDesc.unpack (d : StageDesc) (bytes : List (Byte × Bool)) : List (Nat × Bool) :=
  let w := d.elemBits
  (span 0 d.elems).map fun e =>
    if w < 8 then
      let b := bytes.getD (e / 2) (0, false)
      (b.1.toNat / 2 ^ (4 * (e % 2)) % 16, b.2)
    else
      let part := (bytes.drop (w / 8 * e)).take (w / 8)
      (leNat (part.map (·.1)), part.any (·.2))
/-- The bytes of elements. -/
def StageDesc.pack (d : StageDesc) (elems : List (Nat × Bool)) : List (Byte × Bool) :=
  let w := d.elemBits
  if w < 8 then
    (span 0 d.tile).map fun n =>
      let lo := elems.getD (2 * n) (0, false)
      let hi := elems.getD (2 * n + 1) (0, false)
      (BitVec.ofNat 8 (lo.1 + 16 * hi.1), lo.2 || hi.2)
  else elems.flatMap fun e => (leBytes (w / 8) e.1).map fun b => (b, e.2)

/-! ### Sources and weights (R206) -/

/-- Spacing of the bilinear kernels. -/
def spacing : Nat → Nat
  | 3 | 4 => 2
  | 5 | 6 => 4
  | 7 => 8
  | _ => 1

/-- One axis of a bilinear kernel: two places with weights, and the divisor's factor. -/
def axisWeights (at' s last : Nat) : (Nat × Nat) × (Nat × Nat) × Nat :=
  let lo := at' - at' % s
  let hi := min (lo + s) last
  if at' = lo then ((lo, 1), (hi, 0), 1) else ((lo, hi - at'), (hi, at' - lo), hi - lo)

/-- The computed point of the band nearest to a point; ties to lower i, then lower j. -/
def nearest (i j : Nat) (of : Nat → Nat × Nat) : List Nat → Option Nat
  | [] => none
  | p :: ps =>
    let dist := fun (n : Nat) => ((of n).1 - i : Int).natAbs ^ 2 + ((of n).2 - j : Int).natAbs ^ 2
    match nearest i j of ps with
    | some q => if dist p ≤ dist q then some p else some q
    | none => some p

/-- The sources of a skipped point with their weights, and the divisor. -/
def Launch.sources (l : Launch) (d : StageDesc) (code n : Nat) : List (Nat × Nat) × Nat :=
  let b := l.bandOf d n
  let top := b * l.height
  let i := d.iOf n - top
  let j := d.jOf n
  let last := l.lastRow d b
  let point := fun (i j : Nat) => (top + i) * d.j + j
  let s := spacing code
  let present := fun (q : Int × Int) =>
    if 0 ≤ q.1 && q.1 ≤ last && 0 ≤ q.2 && q.2 < d.j then some (1, point q.1.toNat q.2.toNat) else none
  let mean := fun (qs : List (Int × Int)) => let ps := qs.filterMap present; (ps, ps.length)
  let axes := fun (s : Int) => mean [(i, j - s), (i, j + s), (i - s, j), (i + s, j)]
  if d.kind = .nearest then
    match nearest (d.iOf n) j (fun q => (d.iOf q, d.jOf q)) ((l.bandPoints d b).filter (l.computed d code)) with
    | some q => ([(1, q)], 1)
    | none => ([], 0)
  else if code = 1 then mean [(i - 1, j - 1), (i - 1, j + 1), (i + 1, j - 1), (i + 1, j + 1)]
  else if code = 2 then axes 1
  else if (code = 4 || code = 6) && i % s = 0 && j % s = 0 then axes s
  else
    let r := axisWeights i s last
    let c := axisWeights j s (d.j - 1)
    let corners := [(r.1, c.1), (r.1, c.2.1), (r.2.1, c.1), (r.2.1, c.2.1)]
    ((corners.map fun q => (q.1.2 * q.2.2, point q.1.1 q.2.1)).filter (·.1 != 0), r.2.2 * c.2.2)

/-! ### Reading and writing results -/

def StageDesc.pieces (d : StageDesc) (at' : Word) : List (Nat × Nat) := linePieces at' (d.tile / 64 + 2) 0 d.tile

/-- What a result that cannot be written now waits for. -/
def State.blockedPieces (s : State) (l : Launch) (at' : Word) (ps : List (Nat × Nat)) : Option State :=
  ps.findSome? fun p => s.unitBlocked (s.partDie l.part) (s.partSpace l.part) (at' + BitVec.ofNat 64 p.1)

/-- Read a result; a failed piece is zero with poison. None while a piece is waited for; what has come for the others is
kept. -/
def State.readPieces (s : State) (l : Launch) (at' : Word) : List (Nat × Nat) → Option (List (Byte × Bool)) × State
  | [] => (some [], s)
  | (off, k) :: rest =>
    match s.unitRead (s.partDie l.part) (s.partSpace l.part) 2 (at' + BitVec.ofNat 64 off) k with
    | (.ask, t) => (none, t)
    | (r, t) =>
      let got := match r with
        | .ok bs p => bs.map fun b => (b, p)
        | _ => List.replicate k (0, true)
      match t.readPieces l at' rest with
      | (some more, u) => (some (got ++ more), u)
      | (none, u) => (none, { u with unitLines := s.unitLines })

/-- Write a result that nothing blocks; a dropped piece is counted and makes the launch's status 1, at once or when a pod
peer's answer says so. -/
def State.writePieces (s : State) (n : Nat) (l : Launch) (at' : Word) (bytes : List (Byte × Bool)) :
    List (Nat × Nat) → State
  | [] => s
  | (off, k) :: rest =>
    let part := (bytes.drop off).take k
    let (ok, s) := s.unitPut (s.partDie l.part) (s.partSpace l.part) (at' + BitVec.ofNat 64 off) (part.map (·.1))
      (part.any (·.2)) none unitRank (some n)
    let s := if ok then s else (s.launchError n).count Count.rebuildFailure n
    s.writePieces n l at' bytes rest

/-! ### Forming a result (Table 13.5) -/

def StageDesc.value (d : StageDesc) (code : Nat) : Num :=
  if d.kind = .float then d.format.decode code else laneValue d.tag none code

/-- One element from weights, values and the divisor. -/
def StageDesc.formElem (d : StageDesc) (terms : List (Nat × Nat)) (div : Nat) : Nat :=
  match d.kind with
  | .nearest => (terms.head?.map (·.2)).getD 0
  | .member => terms.foldl (init := 0) fun a t => Nat.lor a t.2
  | .int =>
    let sum := terms.foldl (init := (0 : Int)) fun a t => a + t.1 * laneInt d.tag t.2
    let w := laneWidth d.tag
    if div = 0 then 0 else (saturate w (intLo (isSigned d.tag) w) (intHi (isSigned d.tag) w) (sum / div) false).1
  | .float =>
    let f := if d.rtype = 11 then fmtF64 else fmtF32
    let t := terms.foldl (init := (Num.fin false 0 0)) fun a t =>
      f.decode (fpFma f modeRne (.fin false t.1 0) (d.format.decode t.2) a).1
    if div = 0 then (Num.toFloat (.fin false 0 0) d.format modeRne).1
    else ((f.decode (fpDiv f modeRne t (.fin false div 0)).1).toFloat d.format modeRne).1

/-- The unit has formed a skipped point's result. -/
def StageRun.rebuilt (r : StageRun) (point : Nat) : Bool := (Tab.keys r.recs).contains point

/-- The elements of sources: those rebuilt in the first pass are kept by the unit, the others are read. None while one is
waited for. -/
def State.loadSources (s : State) (l : Launch) (r : StageRun) :
    List (Nat × Nat) → Option (List (Nat × List (Nat × Bool))) × State
  | [] => (some [], s)
  | (w, p) :: rest =>
    let d := r.desc
    let got := if r.rebuilt p then (some (Tab.get [] r.recs p), s)
      else match s.readPieces l (d.resultAt p) (d.pieces (d.resultAt p)) with
        | (some bytes, t) => (some (d.unpack bytes), t)
        | (none, t) => (none, t)
    match got with
    | (none, t) => (none, t)
    | (some elems, t) =>
      match t.loadSources l r rest with
      | (some more, u) => (some ((w, elems) :: more), u)
      | (none, u) => (none, { u with unitLines := s.unitLines })

/-- A skipped point's result. -/
def StageDesc.form (d : StageDesc) (sources : List (Nat × List (Nat × Bool))) (div : Nat) : List (Nat × Bool) :=
  (span 0 d.elems).map fun e =>
    let terms := sources.map fun q => (q.1, q.2.getD e (0, false))
    (d.formElem (terms.map fun t => (t.1, t.2.1)) div, terms.any fun t => t.2.2)

/-! ### Sampled errors (R207) -/

/-- The larger of two errors; a NaN is above every other. -/
def maxError (a b : BitVec 32) : BitVec 32 :=
  let x := fmtF32.decode a.toNat
  let y := fmtF32.decode b.toNat
  if x.isNan then a else if y.isNan then b else if x.lt y then b else a

/-- |rec - true| / max(|true|, floor) in f64, rounded to f32. -/
def elemError (floor rec true_ : Num) : BitVec 32 :=
  let f := fmtF64
  let diff := (f.decode (fpSub f modeRne rec true_).1).abs
  let size := true_.abs
  let den := if floor.lt size then size else floor
  let quot := f.decode (fpDiv f modeRne diff (f.decode (den.toFloat f modeRne).1)).1
  BitVec.ofNat 32 (quot.toFloat fmtF32 modeRne).1

/-- The error of a sample. -/
def Launch.sampleError (l : Launch) (d : StageDesc) (rec true_ : List (Nat × Bool)) : BitVec 32 :=
  match d.kind with
  | .nearest | .member => if rec.map (·.1) = true_.map (·.1) then 0 else 0x3F800000
  | _ =>
    let floor := if l.floor = 0 then Num.fin false 1 (-20) else fmtF32.decode l.floor.toNat
    (rec.zip true_).foldl (init := 0) fun e q => maxError e (elemError floor (d.value q.1.1) (d.value q.2.1))

/-- All sources of a point are final or rebuilt. -/
def Launch.sourcesReady (l : Launch) (r : StageRun) (code : Nat) (sources : List (Nat × Nat)) : Bool :=
  sources.all fun q => if l.computed r.desc code q.2 then r.final.contains q.2 else r.rebuilt q.2

/-- Form a skipped point's result: it is kept, and written when the point is no sample. None while a source, or the room
to write, is waited for. -/
def State.rebuild (s : State) (n stage : Nat) (l : Launch) (r : StageRun) (point : Nat) (sources : List (Nat × Nat))
    (div : Nat) (sample : Bool) : Option State × State :=
  let d := r.desc
  let at' := d.resultAt point
  match s.loadSources l r sources with
  | (none, t) => (none, t)
  | (some got, t) =>
    match if sample then none else t.blockedPieces l at' (d.pieces at') with
    | some u => (none, { u with unitLines := s.unitLines })
    | none =>
      let elems := d.form got div
      let t := if div = 0 || elems.any (·.2) then t.launchError n else t
      let t := t.modStage n stage fun r => { r with recs := Tab.put r.recs point elems }
      let t := if sample then t
        else ((t.writePieces n l at' (d.pack elems) (d.pieces at')).modLaunch n fun l => l.pointDone stage point).waitFrom s n
      (some t, t)

/-- Compare a sample's reconstruction with its true result. -/
def State.compareSample (s : State) (n stage : Nat) (l : Launch) (r : StageRun) (point : Nat) : State :=
  let d := r.desc
  let at' := d.resultAt point
  match s.readPieces l at' (d.pieces at') with
  | (none, t) => t
  | (some bytes, t) =>
    let e := l.sampleError d (Tab.get [] r.recs point) (d.unpack bytes)
    let b := l.bandOf d point
    t.modStage n stage fun r =>
      { r with bands := Tab.update { code := 0, errors := [] } r.bands b fun (q : Band) =>
          { q with errors := q.errors ++ [(point, e)] } }

/-- RECONSTRUCTION: rebuild a skipped point once its sources are final; compare a sample once its own result is. The
unit stalls while the launch's budget is used up (R211). -/
def execReconstruction (n stage point : Nat) (s : State) : Host.Outcome State Fault Refusal :=
  match s.launch n with
  | none => .next s
  | some l =>
    match l.stage stage with
    | none => .next s
    | some r =>
      let d := r.desc
      let b := l.bandOf d point
      let code := r.codeOf b
      if !d.coverage || l.finished || point ≥ d.points || !(Tab.keys r.bands).contains b || l.computed d code point then .next s
      else
        let sample := (l.samples d code b).contains point
        let formed := r.rebuilt point
        if !formed then
          let q := l.sources d code point
          if !l.sourcesReady r code q.1 then .next s
          else if !s.budgetLeft 4 l.id.toNat then .next (s.budgetStall 4 l.id.toNat)
          else match s.rebuild n stage l r point q.1 q.2 sample with
            | (some t, _) => .next (t.spend 4 l.id.toNat d.elems)
            | (none, t) => .next t
        else
          let compared := ((Tab.get { code := 0, errors := [] } r.bands b : Band).errors).any fun e => e.1 == point
          if sample && !compared && r.final.contains point then .next (s.compareSample n stage l r point) else .next s

/-! ### The controller (R208) -/

/-- The band's error: the maximum of its samples' errors, or their mean in scan order; none without samples. -/
def Launch.bandError (l : Launch) (errors : List (Nat × BitVec 32)) : Option (BitVec 32) :=
  let es := (sortBy (·.1) errors).map (·.2)
  let canonical := fun (e : BitVec 32) => if (fmtF32.decode e.toNat).isNan then (BitVec.ofNat 32 fmtF32.nanCode) else e
  if es = [] then none
  else if l.expert && l.mean then
    let f := fmtF64
    let sum := es.foldl (init := Num.fin false 0 0) fun a e => f.decode (fpAdd f modeRne a (fmtF32.decode e.toNat)).1
    let quot := f.decode (fpDiv f modeRne sum (.fin false es.length 0)).1
    some (canonical (BitVec.ofNat 32 (quot.toFloat fmtF32 modeRne).1))
  else some (canonical (es.foldl maxError 0))

/-- Codes in order of thinning out: five on a one-dimensional space. -/
def codeSteps (d : StageDesc) : List Nat := if d.j = 1 then [0, 2, 3, 5, 7] else span 0 8
/-- The bounds hi and lo. -/
def Launch.bounds (l : Launch) : Num × Num :=
  let hi := fmtF32.decode l.hi.toNat
  if l.expert then (hi, fmtF32.decode l.lo.toNat)
  else match hi with
    | .fin n m e => (hi, .fin n m (e - 2))
    | x => (hi, x)

/-- CONTROLLER_UPDATE: the next band in order has its last task, reconstruction and sample error behind it. -/
def execControllerUpdate (n stage : Nat) (s : State) : Host.Outcome State Fault Refusal :=
  match s.launch n with
  | none => .next s
  | some l =>
    match l.stage stage with
    | none => .next s
    | some r =>
      let d := r.desc
      let b := r.codes.length
      let band : Band := Tab.get { code := 0, errors := [] } r.bands b
      let due := d.coverage && !l.finished && (Tab.keys r.bands).contains b && (l.bandPoints d b).all r.done.contains &&
        band.errors.length == (l.samples d band.code b).length
      if !due then .next s
      else
        let error := l.bandError band.errors
        let value := error.map fun e => fmtF32.decode e.toNat
        let isNan := (value.map Num.isNan).getD false
        let above := isNan || (value.map l.bounds.1.lt).getD false
        let below := !isNan && (value.map fun v => v.lt l.bounds.2).getD true
        let steps := codeSteps d
        let denser := ((steps.filter fun c => l.cmin ≤ c && c < r.code).getLast?).getD r.code
        let sparser := ((steps.filter fun c => r.code < c && c ≤ l.cmax).head?).getD r.code
        let code := if above then denser else if below && r.below then sparser else r.code
        -- a band without samples has no error to report: a free value (R207, R210)
        let free := s.freeWord
        let s := if error.isSome then s else free.2
        .next (s.modStage n stage fun r =>
          { r with code := code, codes := r.codes ++ [code], last := some (b, error.getD (free.1.setWidth 32)), updates := r.updates + 1,
                   changes := if code = r.code then r.changes else r.changes + 1, below := below })

end Sys2Proof.Machine
end

