-- ==== Sys2Proof/Machine/Host.lean ====
section
/-! DEFINITION. Command queues: kicks, delta packets, the command-list interpreter, the start of a launch and the status
record (R193-R198, R203, R229-R234). -/
namespace Sys2Proof.Machine

/-! ### Entries (R193, R194) -/

/-- A command-list entry: op, mod, imm48 and addr. -/
structure Entry where
  op   : Nat
  mod  : Nat
  imm  : Nat
  addr : Word
  deriving DecidableEq, Repr

def entryOf (bs : List Byte) : Entry :=
  { op := fieldAt bs 0 1, mod := fieldAt bs 1 1, imm := fieldAt bs 2 6, addr := wordAt bs 8 }

/-- The address of a ring index. -/
def Queue.slotAt (k : Queue) (index : Nat) : Word := k.base + BitVec.ofNat 64 (16 * (index % 2 ^ k.log))
/-- Index `a` is at or past index `b`, where indexes wrap (R232). -/
def atOrPast (a b : BitVec 32) : Bool := decide ((a - b).toNat < 2 ^ 31)
/-- The interpreter's next entry, when it is admitted and no delta packet takes effect before it (R232, R233). -/
def Queue.nextEntry (k : Queue) : Option Word :=
  if !k.enabled || k.stopped then none
  else match k.cursor with
    | .addr a => some a
    | .ring =>
      let first := (k.deltas.head?.map fun d => atOrPast k.head d.1).getD false
      if first || atOrPast k.head k.k then none else some (k.slotAt k.head.toNat)

/-- The ring index of the entry the interpreter is at, or of the one that led there. -/
def Queue.index (k : Queue) : BitVec 32 := match k.cursor with | .ring => k.head | .addr _ => k.head - 1
/-- Stop a queue with a cause (Table 16.4). -/
def State.stopQueue (s : State) (q cause : Nat) : State :=
  s.modQueue q fun k => { k with stopped := true, cause := cause, stopAt := k.index, dirty := true }

/-- Bits set in a presence mask, ascending. -/
def maskBits (mask : BitVec 32) : List Nat := (span 0 32).filter mask.getLsbD
/-- A delta packet's header and values. -/
def deltaHeader (bs : List Byte) : Word := wordAt bs 0
def deltaMask (h : Word) : BitVec 32 := h.extractLsb' 32 32
/-- Write the registers that a delta packet carries. -/
def Queue.applyDelta (k : Queue) (bs : List Byte) : Queue :=
  let regs := (maskBits (deltaMask (deltaHeader bs))).zipIdx
  { k with shadow := regs.foldl (init := k.shadow) fun t r => Tab.put t r.1 (wordAt bs (8 + 8 * r.2)) }
/-- Updates whose turn has come; a dispatch waits for the interpreter. -/
def Queue.settle (k : Queue) : List (BitVec 32 × Nat × List Byte) → Queue
  | [] => { k with deltas := [] }
  | (at', host, bs) :: rest =>
    if k.cursor = .ring && atOrPast k.head at' && bitsN (deltaHeader bs) 7 0 = 0 then (k.applyDelta bs).settle rest
    else { k with deltas := (at', host, bs) :: rest }

/-- An entry has issued: the interpreter goes `n` entries on. -/
def Queue.advance (k : Queue) (n : Nat) : Queue :=
  let k := match k.cursor with
    | .ring => { k with head := k.head + BitVec.ofNat 32 n }
    | .addr a => { k with cursor := .addr (a + BitVec.ofNat 64 (16 * n)) }
  let k := { k with issued := true }
  k.settle k.deltas
def State.advance (s : State) (q n : Nat) : State := (s.spend 5 q 1).modQueue q fun k => k.advance n

/-- Take the interpreter's next entry when its op is the one given: an unreadable entry stops the queue with cause 6, a
used-up service budget stalls it (R211), a nonzero unused field stops it with cause 2, a misaligned address with 3. -/
def State.entryStep (s : State) (q : Nat) (op : Nat → Bool) (unused misaligned : Entry → Bool)
    (body : State → Entry → State) : State :=
  let k := s.queue q
  match k.nextEntry with
  | none => s
  | some at' =>
    match s.partRead k.part at' 16 with
    | (.failed, s) => s.stopQueue q 6
    | (.ask, s) => s
    | (.ok bs _, t) =>
      let e := entryOf bs
      if !op e.op then s
      else if !s.budgetLeft 5 q then s.budgetStall 5 q
      else if unused e then t.stopQueue q 2
      else if misaligned e then t.stopQueue q 3
      else body t e

/-- An entry address that must be 16-byte aligned. -/
def Entry.askew (e : Entry) : Bool := bitsN e.addr 3 0 != 0
/-- Every earlier LAUNCH and COPY of the queue has completed. -/
def Queue.quiet (k : Queue) : Bool := k.work == [] && k.copies == 0
/-- A test of WAIT and SKIPIF: bits 1:0 of mod; bit 2 set is a nonzero unused field (log 83). -/
def testHolds (code : Nat) (x y : Nat) : Bool :=
  match code with
  | 0 => x == y
  | 1 => x != y
  | 2 => x < y
  | _ => x ≥ y

/-! ### Starting a launch (R195-R199, R120, R203) -/

/-- A stage descriptor from its 64 bytes; a plot without width or height is none. A result type outside R195's list and a
tile of any size are taken as they stand (log 86). -/
def stageFrom (bs : List Byte) : StageDesc :=
  let w := fieldAt bs 26 1
  let h := fieldAt bs 27 1
  let plot := w * h ≠ 0
  { entry := wordAt bs 0, i := fieldAt bs 8 4, j := fieldAt bs 12 4, k := fieldAt bs 16 4,
    mask := BitVec.ofNat 28 (fieldAt bs 20 4), rtype := fieldAt bs 24 1, coverage := fieldAt bs 25 1 % 2 == 1,
    join := fieldAt bs 25 1 / 2 % 2 == 1, paired := fieldAt bs 25 1 / 4 % 2 == 1, plotW := if plot then w else 0,
    plotH := if plot then h else 0, tile := fieldAt bs 28 4, result := wordAt bs 32, args := wordAt bs 40,
    capacity := fieldAt bs 48 4, high := fieldAt bs 52 2, low := fieldAt bs 54 2, share := max 1 (fieldAt bs 56 1),
    fg := fieldAt bs 57 1, fv := fieldAt bs 58 1, fq := fieldAt bs 59 1, fm := BitVec.ofNat 32 (fieldAt bs 60 4) }

/-- A launch from its header, before its stages are given; a header with a bad field still names id and signal. -/
def launchFrom (hd : List Byte) (queue : Option Nat) (k : Queue) (cycle : Nat) : Launch :=
  let flags := fieldAt hd 16 1
  let expert := flags % 2 == 1
  { id := BitVec.ofNat 32 (fieldAt hd 0 4), queue := queue, part := k.part, stages := [], code := fieldAt hd 5 1,
    cmin := fieldAt hd 6 1, cmax := fieldAt hd 7 1, expert := expert,
    hi := BitVec.ofNat 32 (if expert then fieldAt hd 20 4 else fieldAt hd 8 4),
    lo := BitVec.ofNat 32 (if expert then fieldAt hd 24 4 else fieldAt hd 8 4), floor := BitVec.ofNat 32 (fieldAt hd 12 4),
    mean := flags / 2 % 2 == 1, height := if expert then fieldAt hd 17 1 else 8,
    period := if expert then fieldAt hd 18 2 else 16, user := wordAt hd 32, consts := [], signal := wordAt hd 48,
    value := wordAt hd 56, status := 0, waited := cycle, aged := 0, prio := k.prio, weight := k.weight, credit := 0,
    excluded := [], handles := [], clusters := [], balance := cycle / 4096 * 4096, finished := false }

/-- The header's own failures (R196). -/
def headerBad (hd : List Byte) (l : Launch) : Bool :=
  l.id == 0 || fieldAt hd 4 1 == 0 || fieldAt hd 4 1 > 8 || fieldAt hd 16 1 / 4 != 0 || fieldAt hd 28 4 != 0 ||
    !(l.cmin ≤ l.code && l.code ≤ l.cmax && l.cmax ≤ 7) ||
    (l.expert && !(4 ≤ l.height && l.height ≤ 64 && 4 ≤ l.period && l.period ≤ 256))

/-- A stage's own failures; `before` is the stage before it, `raw` its bytes. -/
def stageBad (l : Launch) (d : StageDesc) (raw : List Byte) (before : Option StageDesc) : Bool :=
  fieldAt raw 20 4 / 2 ^ 28 != 0 || fieldAt raw 25 1 / 8 != 0 ||
    (match before with
      | some b => !((d.i == b.i && d.j == b.j && d.k == b.k && !d.join) || (d.i == 1 && d.j == 1 && d.k == 1 && d.join)) ||
          !(16 ≤ d.capacity && d.capacity ≤ 65536 && d.low < d.high && d.high ≤ d.capacity)
      | none => false) ||
    (d.coverage && (d.k != 1 || d.rtype == 255 || isChip d.result ||
      (16 ≤ d.rtype && d.rtype < 32 && (narrowFmt d.fm).isNone) || (d.j == 1 && (l.code == 1 || l.code == 4 || l.code == 6)))) ||
    !(1 ≤ d.fg && d.fg ≤ 64 && d.fv ≤ 64 && d.fq ≤ 4) || (d.paired && d.plotW != 0)

/-- The cores of a partition that tasks can run on: those assigned to it, which a column core is not (R58, R241). -/
def State.ownCores (s : State) (part : Nat) : List Nat :=
  (s.partCores part).filter fun c => (s.core c).part == some part && !s.inColumn c
/-- A core could hold the launch's static handles now (R120). -/
def State.holdsStatics (s : State) (hs : List StaticHandle) (c : Nat) : Bool :=
  ((s.core c).store.allocAll (hs.filter (·.level == 0))).isSome &&
    ((s.cluster (clusterOf c)).store.allocAll (hs.filter (·.level == 1))).isSome

/-- What the partition cannot offer a stage (R196). -/
def State.stageUnfit (s : State) (part : Nat) (d : StageDesc) : Bool :=
  let cores := s.ownCores part
  let fit := fun (c : Nat) => cores.contains c && covers' (s.core c).cap d.mask
  !cores.any fit || (d.plotW != 0 && (firstRect cores.contains cores d.plotW d.plotH).isNone) ||
    (d.paired && !cores.any fun c => c % 2 == 0 && fit c && fit (c + 1))

/-- Allocate the input queues of stages 1 on, in stage order; none when one finds no cluster (R198). -/
def State.allocQueues (s : State) (part : Nat) : List StageDesc → Option (State × List (Option (Nat × Nat)))
  | [] => some (s, [])
  | d :: rest =>
    let clusters := sortBy id (((s.part part).map (·.clusters)).getD [])
    let found := clusters.findSome? fun cl => ((s.cluster cl).store.alloc 1 d.capacity 16 0).map fun r => (cl, r.1, r.2)
    match found with
    | none => none
    | some (cl, h, m) =>
      ((s.modCluster cl fun k => { k with store := m }).allocQueues part rest).map fun r => (r.1, some (cl, h) :: r.2)

/-- The sets of stages 0 and 1 at the start of a launch of several stages: eligible cores by share (R199, log 41). -/
def State.startSets (s : State) (part : Nat) (d0 d1 : StageDesc) : List Nat × List Nat :=
  let free := (s.ownCores part).filter fun c => s.placeable c && (s.setOf c).isNone
  let a := fun (c : Nat) => covers' (s.core c).cap d0.mask
  let b := fun (c : Nat) => covers' (s.core c).cap d1.mask
  let eligible := free.filter fun c => a c || b c
  let n := eligible.length * d0.share / (d0.share + d1.share)
  let first := (eligible.filter a).take n
  (first, eligible.filter fun c => b c && !first.contains c)

/-- A stage before any of its points has been dispatched. -/
def freshStage (d : StageDesc) (first : Bool) (queue : Option (Nat × Nat)) (cores : List Nat) (code : Nat) : StageRun :=
  { desc := d, walked := if first && !d.coverage then 0 else d.points, ready := [], flight := [], done := [], final := [],
    cores := cores, queue := queue, bands := [], recs := [], code := code, last := none, updates := 0, changes := 0,
    below := false, codes := [], times := [], retries := [], joining := [], above := false, under := true }

/-- What reading a descriptor came to. -/
inductive Descriptor where
  | ok (header : List Byte) (stages : List (List Byte))
  | failed
  | ask
  deriving DecidableEq, Repr

/-- Read a descriptor's header and stage descriptors; an address that is aligned to 16 bytes but not to 64 is read as it
stands (log 85). -/
def State.readDescriptor (s : State) (part : Nat) (at' : Word) : Descriptor × State :=
  match s.partRead part at' 64 with
  | (.failed, s) => (.failed, s)
  | (.ask, s) => (.ask, s)
  | (.ok hd _, s) =>
    let n := fieldAt hd 4 1
    if n = 0 || n > 8 then (.ok hd [], s)
    else match s.partRead part (at' + 64) (64 * n) with
      | (.failed, s) => (.failed, s)
      | (.ask, s) => (.ask, s)
      | (.ok bs _, s) => (.ok hd ((span 0 n).map fun i => (bs.drop (64 * i)).take 64), s)

/-- List a launch, which completes at once when it has no stage to run. -/
def State.enterLaunch (s : State) (l : Launch) : State :=
  let n := s.nextNum
  let s := { s with launches := Tab.put s.launches n (some l), nextNum := n + 1 }
  let s := match l.queue with
    | some q => s.modQueue q fun k => { k with work := k.work ++ [n] }
    | none => s
  if l.stages = [] then s.completeLaunch n else s

/-- Start a launch: its checks, its constant bank, its queues and its first sets. None while a translation is asked for;
the queue stops when the descriptor cannot be read. -/
def State.startLaunch (s : State) (q : Nat) (at' : Word) (shadow : Bool) : Option State × State :=
  let k := s.queue q
  match s.readDescriptor k.part at' with
  | (.failed, s) => (some (s.stopQueue q 6), s)
  | (.ask, s) => (none, s)
  | (.ok hd raws, s) =>
    let reg := fun (n : Nat) => (Tab.get 0 k.shadow n : Word)
    let low := fun (n : Nat) => (reg n).toNat % 2 ^ 32
    let l := launchFrom hd (some q) k s.cycle
    let l := if shadow then { l with user := reg 3 } else l
    let ds := raws.map stageFrom
    let ds := if shadow then match ds with
        | d :: rest => { d with i := low 0, j := low 1, k := low 2 } :: rest
        | [] => []
      else ds
    let before := none :: ds.map some
    let bad := headerBad hd l || ((ds.zip raws).zip before).any fun e => stageBad l e.1.1 e.1.2 e.2
    let handles := (ds.flatMap fun d => Tab.get [] s.firmware.objects d.entry.toNat).eraseDups
    let unfit := ds.any (s.stageUnfit k.part) || (handles != [] && !(s.ownCores k.part).any fun c => s.holdsStatics handles c)
    let fail := fun (s : State) => (some (s.enterLaunch { l with status := 2 }), s)
    if bad || unfit then fail s
    else
      let bank := wordAt hd 40
      match if bank = 0 then (UnitRead.ok (List.replicate 512 0) false, s) else s.partRead k.part bank 512 with
      | (.ask, s) => (none, s)
      | (.failed, s) => fail s
      | (.ok _ true, s) => fail s
      | (.ok bs false, s) =>
        match s.allocQueues k.part (ds.drop 1) with
        | none => fail s
        | some (t, queues) =>
          match ds with
          | [] => fail s
          | d0 :: rest =>
            let l := { l with consts := (span 0 64).map fun n => wordAt bs (8 * n), handles := handles }
            if d0.points = 0 then
              -- no stage runs: the queues are not needed
              (some (s.enterLaunch l), s)
            else
              let sets := match rest with
                | d1 :: _ => t.startSets k.part d0 d1
                | [] => ([], [])
              let cores := fun (n : Nat) => if n = 0 then sets.1 else if n = 1 then sets.2 else []
              let stages := ((ds.zip (none :: queues)).zipIdx).map fun e =>
                freshStage e.1.1 (e.2 == 0) e.1.2 (cores e.2) l.code
              (some (t.enterLaunch { l with stages := stages }), t)

/-! ### The interpreter's entries (Table 13.1) -/

/-- CL_NOP. -/
def execClNop (q : Nat) (s : State) : Host.Outcome State Fault Refusal :=
  .next (s.entryStep q (· == 0) (fun e => e.mod != 0 || e.imm != 0 || e.addr != 0) (fun _ => false)
    fun s _ => s.advance q 1)

/-- The dispatch that is next in a queue: its turn among the ring's entries has come, or is past (log 50). -/
def Queue.dueDispatch (k : Queue) : Option (List Byte × List (BitVec 32 × Nat × List Byte)) :=
  if !k.enabled || k.stopped || k.cursor ≠ .ring then none
  else match k.deltas with
    | (at', _, bs) :: rest => if atOrPast k.head at' then some (bs, rest) else none
    | [] => none
/-- Perform a dispatch whose turn has come: its registers are written, and it acts as a LAUNCH of the descriptor that
register 31 names. It waits as its w bit says, and for the agent's translations. -/
def State.dispatchNext (s : State) (q : Nat) : State :=
  let k := s.queue q
  match k.dueDispatch with
  | none => s
  | some (bs, rest) =>
    let k' := { k.applyDelta bs with deltas := rest }
    if (deltaHeader bs).getLsbD 14 && !k.quiet then s
    else
      let at' : Word := Tab.get 0 k'.shadow 31
      let t := s.modQueue q fun _ => k'
      if bitsN at' 3 0 ≠ 0 then t.stopQueue q 3
      else match t.startLaunch q at' true with
        | (some t, _) => t.modQueue q fun k => { k with issued := true }.settle k.deltas
        -- nothing has taken effect but the question to the agent
        | (none, t) => t.modQueue q fun k' => { k' with shadow := k.shadow, deltas := k.deltas }

/-- CL_LAUNCH: the next LAUNCH entry, or a delta packet's dispatch whose turn has come. An address that is not 16-byte
aligned stops the queue; one that is not 64-byte aligned does not (log 85). -/
def execClLaunch (q : Nat) (s : State) : Host.Outcome State Fault Refusal :=
  if (s.queue q).dueDispatch.isSome then .next (s.dispatchNext q)
  else
    .next (s.entryStep q (· == 1) (fun e => e.mod / 4 != 0 || e.imm != 0) Entry.askew fun t e =>
      if e.mod / 2 % 2 = 1 && !(t.queue q).quiet then s
      else match t.startLaunch q e.addr (e.mod % 2 == 1) with
        | (some u, _) => if (u.queue q).stopped then u else u.advance q 1
        | (none, u) => u)

/-- Fields of a copy that CPYGO would refuse (R149, R279); R194 does not say what a COPY entry with them does (log 84). -/
def copyFieldsBad (fl : Word) : Bool :=
  fl &&& 0x0000F000E000F0CC != 0 || bitsN fl 5 4 == 3 || bitsN fl 43 40 > 5 || bitsN fl 39 36 > 5 ||
    decide (bitsN fl 35 32 ≥ 12) || (4095 < bitsN fl 28 16 && bitsN fl 28 16 != 0x1FFF)

/-- CL_COPY: a copy on eq0 of the partition's lowest-numbered core. Fields that CPYGO would refuse stop the queue with cause
2 (log 84). -/
def execClCopy (q : Nat) (s : State) : Host.Outcome State Fault Refusal :=
  .next (s.entryStep q (· == 2) (fun e => (e.mod != 0 && e.mod != 2) || e.imm != 0) Entry.askew fun t e =>
    let k := t.queue q
    if e.mod = 2 && !k.quiet then s
    else match t.partRead k.part e.addr 80 with
      | (.failed, t) => t.stopQueue q 6
      | (.ask, t) => t
      | (.ok bs _, t) =>
        let fields := (span 0 10).map fun n => wordAt bs (8 * n)
        let fl : Word := fields.getD 6 0
        let c := ((t.partCores k.part).filter fun c => !t.inColumn c).headD 0
        if copyFieldsBad fl then t.stopQueue q 2
        else if ((t.core c).serials 0).length ≥ 16 then s
        else
          let t := t.modCore c fun k => k.enqueueCopy 0 fields (fl.extractLsb' 32 4) 0 (k.ctx 0).life (some q)
          (t.modQueue q fun k => { k with copies := k.copies + 1 }).advance q 1)

/-- CL_WAIT: the word is read until the test holds; each test takes a read of its own. Test codes 4-7 stop the queue with
cause 2 (log 83). -/
def execClWait (q : Nat) (s : State) : Host.Outcome State Fault Refusal :=
  .next (s.entryStep q (· == 3) (fun e => e.mod / 4 % 32 != 0) Entry.askew fun t e =>
    let k := t.queue q
    if e.mod / 128 = 1 && !k.quiet then s
    else match t.partRead k.part e.addr 8 with
      | (.failed, t) => t.stopQueue q 6
      | (.ask, t) => t
      | (.ok bs _, t) => if testHolds (e.mod % 4) (leNat bs) e.imm then t.advance q 1
        else { s with unitLines := t.unitLines })

/-- CL_SIGNAL: once all is complete, a release at the scope named; to a host-side address it is a message to the owning host
(R229). Scopes 12-15 stop the queue with cause 2 (log 83). -/
def execClSignal (q : Nat) (s : State) : Host.Outcome State Fault Refusal :=
  .next (s.entryStep q (· == 4) (fun e => e.mod ≥ 12) Entry.askew fun t e =>
    let k := t.queue q
    if !k.quiet then s
    else if hostSide e.addr then (t.signalHost k.part e.addr (leBytes 8 e.imm)).advance q 1
    else match t.unitWrite (t.partDie k.part) (t.partSpace k.part) e.addr (leBytes 8 e.imm) false
        (some (unitRelease (BitVec.ofNat 4 e.mod))) with
      | (.ask, t) => t
      | (_, t) => t.advance q 1)

/-- CL_SKIPIF: the entries it skips are admitted ones (log 50). A count of 0 skips none, test codes 4-7 stop the queue with
cause 2 (log 83). -/
def execClSkipif (q : Nat) (s : State) : Host.Outcome State Fault Refusal :=
  .next (s.entryStep q (· == 5) (fun e => e.mod / 4 % 2 != 0) Entry.askew fun t e =>
    let k := t.queue q
    match t.partRead k.part e.addr 8 with
    | (.failed, t) => t.stopQueue q 6
    | (.ask, t) => t
    | (.ok bs _, t) =>
      if !testHolds (e.mod % 4) (leNat bs) e.imm then t.advance q 1
      else
        let n := 1 + e.mod / 8
        if k.cursor = .ring && (k.k - k.head).toNat < n then { s with unitLines := t.unitLines } else t.advance q n)

/-- The ring index that a slot has for a JUMP, a CALL or a RETURN: that of the entry admitted there last, or the next one
to be admitted there when there is none yet, as at k itself (log 50). -/
def Queue.indexAt (k : Queue) (slot : Nat) : BitVec 32 :=
  let size := 2 ^ k.log
  let back := (k.k.toNat % size + size - slot) % size
  if k.k.toNat < back then k.k + BitVec.ofNat 32 (size - back) else k.k - BitVec.ofNat 32 back
/-- Where a JUMP, a CALL or a RETURN goes on. -/
def Queue.goto (k : Queue) (a : Word) : Queue :=
  let off := (a - k.base).toNat
  if off < 16 * 2 ^ k.log then
    let k := { k with cursor := .ring, head := k.indexAt (off / 16) }
    k.settle k.deltas
  else { k with cursor := .addr a }

/-- CL_JUMP. -/
def execClJump (q : Nat) (s : State) : Host.Outcome State Fault Refusal :=
  .next (s.entryStep q (· == 6) (fun e => e.mod != 0 || e.imm != 0) Entry.askew fun s e =>
    (s.advance q 1).modQueue q fun k => k.goto e.addr)

/-- The address of the entry the interpreter is at. -/
def Queue.here (k : Queue) : Word := match k.cursor with | .ring => k.slotAt k.head.toNat | .addr a => a

/-- CL_CALL: the next entry's address is pushed; a full return stack of 4 stops the queue. -/
def execClCall (q : Nat) (s : State) : Host.Outcome State Fault Refusal :=
  .next (s.entryStep q (· == 7) (fun e => e.mod != 0 || e.imm != 0) Entry.askew fun s e =>
    if (s.queue q).stack.length ≥ 4 then s.stopQueue q 4
    else (s.advance q 1).modQueue q fun k => { k with stack := k.here :: k.stack }.goto e.addr)

/-- CL_RETURN: it goes on where the return stack says; an empty one stops the queue. -/
def execClReturn (q : Nat) (s : State) : Host.Outcome State Fault Refusal :=
  .next (s.entryStep q (· == 8) (fun e => e.mod != 0 || e.imm != 0 || e.addr != 0) (fun _ => false) fun s _ =>
    match (s.queue q).stack with
    | [] => s.stopQueue q 5
    | r :: rest =>
      (s.advance q 1).modQueue q fun k => { k with stack := rest }.goto r)

/-- CL_SETREG. -/
def execClSetreg (q : Nat) (s : State) : Host.Outcome State Fault Refusal :=
  .next (s.entryStep q (· == 9) (fun e => e.mod ≥ 32 || e.imm != 0) (fun _ => false) fun s e =>
    (s.modQueue q fun k => { k with shadow := Tab.put k.shadow e.mod e.addr }).advance q 1)

/-- CL_BAD_OP: an op of 0x0A-0xFF stops the queue with cause 1. -/
def execClBadOp (q : Nat) (s : State) : Host.Outcome State Fault Refusal :=
  .next (s.entryStep q (fun op => 10 ≤ op) (fun _ => false) (fun _ => false) fun s _ => s.stopQueue q 1)

/-! ### Kicks and delta packets (R230, R232, R233) -/

/-- The host owns the queue's partition. -/
def State.ownsQueue (s : State) (host q : Nat) : Bool := ((s.part (s.queue q).part).map fun p => p.host == host).getD false
/-- Move the kick register to an index, or count it as ignored; an overrun stops the queue. -/
def State.kickTo (s : State) (q : Nat) (index : BitVec 32) : State :=
  let k := s.queue q
  let d := (index - k.k).toNat
  let k := if 0 < d && d < 2 ^ 31 then { k with k := index } else { k with ignored := k.ignored + 1 }
  let s := s.modQueue q fun _ => k
  if (k.k - k.head).toNat > 2 ^ k.log then s.stopQueue q 8 else s

/-- `n` bytes at an address lie in the queue's ring; in its ring or its status record. -/
def Queue.inRing (k : Queue) (a : Word) (n : Nat) : Bool :=
  k.enabled && n != 0 && decide ((a - k.base).toNat + n ≤ 16 * 2 ^ k.log)
def Queue.inWindow (k : Queue) (a : Word) (n : Nat) : Bool :=
  k.inRing a n || (k.status != 0 && n != 0 && decide ((a - k.status).toNat + n ≤ 64))
/-- The queue of a host's partition one of whose windows an access lies in (R229, R230). -/
def State.windowOf (s : State) (host : Nat) (window : Queue → Bool) : Option Nat :=
  if !s.firmware.service then none else (span 0 64).find? fun q => s.ownsQueue host q && window (s.queue q)
/-- The translation space of a host's accesses to a queue's partition: they carry the host's domain (R229). -/
def State.hostSpace (s : State) (host q : Nat) : Nat :=
  spaceFor (s.queue q).part (Tab.get (false, false, 0) s.firmware.hosts host).2.2

/-- KICK: a write of a kick register, which is dropped and counted when the queue is disabled, the host is not its owner, or
the device is in firmware-only service; or another request of the host to the rings: an RMA write into a ring, or a read
of a ring or a status record, within a window of its own, as its rank among the requests of one cycle is the host's (R79); all else, and what another delivery service brings, is dropped
and counted for the host. -/
def execKick (host : Nat) (service : DeliveryService) (request : HostWrite) (s : State) : Host.Outcome State Fault Refusal :=
  let dropped := s.count Count.hostRequest host
  if service = .other then .next dropped
  else match request with
  | .kick q index =>
    if !s.firmware.service || !(s.queue q).enabled || q ≥ 64 || !s.ownsQueue host q then
      .next (s.count Count.droppedRequest host)
    else .next (s.kickTo q index)
  | .ring a data =>
    match s.windowOf host fun k => k.inRing a data.length with
    | none => .next dropped
    | some q => .next (s.unitStore (s.partDie (s.queue q).part) (s.hostSpace host q) a data (peerRank host)).2
  | .read a n =>
    match s.windowOf host fun k => k.inWindow a n with
    | none => .next dropped
    | some q =>
      match s.unitReadAs (peerRank host) (s.partDie (s.queue q).part) (s.hostSpace host q) (n / 64 + 2) a n with
      | (.ok bs p, t) => .next (t.send (.host host) (.completion bs p false none))
      | (.failed, t) => .next (t.send (.host host) (.completion [] false true none))
      | (.ask, t) => .next t

/-- A delta packet that is rejected whole. -/
def deltaBad (bs : List Byte) : Bool :=
  let h := deltaHeader bs
  bs.length < 8 || bs.length != 8 + 8 * (maskBits (deltaMask h)).length || bitsN h 31 15 != 0 || bitsN h 7 0 > 1

/-- A delta packet reaches the headgate: it takes effect after what was admitted before it. -/
def State.deltaArrives (s : State) (host : Nat) (bs : List Byte) : State :=
  let q := bitsN (deltaHeader bs) 13 8
  if !s.firmware.service || !(s.queue q).enabled then s.count Count.droppedRequest host
  else if deltaBad bs || !s.ownsQueue host q then s.modQueue q fun k => { k with rejected := k.rejected + 1 }
  else s.modQueue q fun k =>
    let k := { k with deltas := k.deltas ++ [(k.k, host, bs)] }
    if k.stopped then k else k.settle k.deltas

/-- DELTA_UPDATE: a packet of opcode 0, or one without a known opcode. -/
def execDeltaUpdate (host : Nat) (bs : List Byte) (s : State) : Host.Outcome State Fault Refusal :=
  if bitsN (deltaHeader bs) 7 0 = 1 then .next s else .next (s.deltaArrives host bs)
/-- DELTA_DISPATCH: a packet of opcode 1; its launch starts at once when nothing is admitted before it. -/
def execDeltaDispatch (host : Nat) (bs : List Byte) (s : State) : Host.Outcome State Fault Refusal :=
  if bitsN (deltaHeader bs) 7 0 ≠ 1 then .next s
  else .next ((s.deltaArrives host bs).dispatchNext (bitsN (deltaHeader bs) 13 8))

/-! ### The status record (R234) -/

/-- The 64 bytes of Table 16.4. -/
def Queue.record (k : Queue) : List Byte :=
  let state := if !k.enabled then 2 else if k.stopped then 1 else 0
  leBytes 4 k.k.toNat ++ leBytes 4 k.head.toNat ++ leBytes 1 state ++ leBytes 1 k.cause ++ leBytes 2 0 ++
    leBytes 4 k.stopAt.toNat ++ leBytes 8 k.ignored.toNat ++ leBytes 8 k.rejected.toNat ++ List.replicate 32 0

/-- STATUS_RECORD_WRITE: after a change of the stop state, and every 25,000 cycles while the queue has issued anything; a
release at host scope. -/
def execStatusRecordWrite (q : Nat) (s : State) : Host.Outcome State Fault Refusal :=
  let k := s.queue q
  let due := k.dirty || (k.issued && decide (k.wrote + 25000 ≤ s.cycle))
  if !due then .next s
  else
    match s.unitWrite (s.partDie k.part) (s.partSpace k.part) k.status k.record false (some (unitRelease 9)) with
    | (.ask, t) => .next t
    | (_, t) => .next (t.modQueue q fun k => { k with dirty := false, wrote := s.cycle })

end Sys2Proof.Machine
end

