-- ==== Sys2Proof/Machine/Lanes.lean ====
section
/-! DEFINITION. Conversions, permutes, lane moves, lane masks and membership registers (R46-R48, R177-R180, R266,
R303, R323-R345). -/
namespace Sys2Proof.Machine

/-! ### Conversions -/

/-- CVT (R46). -/
def execCvt (d a : BitVec 6) (l : BitVec 6) (s : State) : Host.Outcome State Fault Refusal :=
  issue (.cvt d a l) s fun p s =>
    let x := s.v a.toNat
    let ty := l.setWidth 5
    let c := s.me
    if isRaw x.tag || isRaw ty || c.badNarrow x.tag || c.badNarrow ty then .trap 0x02 0 (formatVal x.tag 0 ty)
    else
      let n := min (laneCount x.tag) (laneCount ty)
      .done (s.writeLanes d.toNat ty p 0 fun i =>
        if i < n then c.convert x.tag ty (lane x.bits (laneWidth x.tag) i) else (0, 0))

/-- CVTF (R47); literal bit 5 chains through efr. -/
def execCvtf (d a : BitVec 6) (l : BitVec 6) (s : State) : Host.Outcome State Fault Refusal :=
  issue (.cvtf d a l) s fun p s =>
    let x := s.v a.toNat
    let ty : BitVec 5 := l.setWidth 5
    let ch := l.getLsbD 5
    let c := s.me
    let okSrc := x.tag == 8 || x.tag == 9 || x.tag == 10
    let okDst := ty == 8 || ty == 9 || isNarrow ty
    if !okSrc || !okDst || c.badNarrow ty then .trap 0x02 0 (formatVal x.tag 0 ty)
    else
      let dst := if isNarrow ty then (c.narrow ty).getD fmtF32 else floatFmt ty
      let n := laneCount x.tag
      let w := laneWidth ty
      let old := (c.readV d.toNat).bits
      let r := cvtfLanes c.km (floatFmt x.tag) dst (isNarrow ty && !dst.sgn) (lane old w)
        (lane x.bits (laneWidth x.tag)) n 0 (if ch then c.efr.toNat else 0, 0)
      let rest := (span n (laneCount ty - n)).map fun i => if c.km.getLsbD i then 0 else lane old w i
      .done (s.modMe fun c =>
        { c.writeV d.toNat { bits := packVec w (r.1 ++ rest), tag := ty, poison := p } with
          fpf := c.fpf ||| r.2.2, efr := if ch then BitVec.ofNat 32 r.2.1 else c.efr })

/-- TAG (R48): every lane, whatever km holds. -/
def execTag (d a : BitVec 6) (l : BitVec 6) (s : State) : Host.Outcome State Fault Refusal :=
  issue (.tag d a l) s fun p s =>
    let x := s.v a.toNat
    let ty : BitVec 5 := l.setWidth 5
    if s.me.badNarrow x.tag || s.me.badNarrow ty then .trap 0x02 0 (formatVal x.tag 0 ty)
    else .done (s.writeV d.toNat { bits := x.bits, tag := ty, poison := p })

/-! ### Permutes and moves between lanes -/

/-- SHUF (R344). -/
def execShuf (d a : BitVec 6) (u : BitVec 2) (b : BitVec 6) (s : State) : Host.Outcome State Fault Refusal :=
  issue (.shuf d a u b) s fun p s =>
    let x := s.v a.toNat
    let w := laneWidth x.tag
    let from_ := fun i =>
      if u = 1 then lane (s.v b.toNat).bits w i % laneCount x.tag
      else 8 * (i / 8) + bitsN (s.here.const b.toNat) (8 * (i % 8) + 7) (8 * (i % 8)) % 8
    .done (s.writeLanes d.toNat x.tag p 0 fun i => (lane x.bits w (from_ i), 0))

/-- BCAST (R266). -/
def execBcast (d : BitVec 6) (t : BitVec 2) (a y : BitVec 6) (s : State) : Host.Outcome State Fault Refusal :=
  issue (.bcast d t a y) s fun p s =>
    let ty : BitVec 5 := y.setWidth 5
    let e := s.element false t a ty
    .done (s.writeLanes d.toNat ty p e.2 fun _ => (e.1, 0))

/-- SLIDE (R345). -/
def execSlide (d a : BitVec 6) (u : BitVec 2) (b : BitVec 6) (s : State) : Host.Outcome State Fault Refusal :=
  issue (.slide d a u b) s fun p s =>
    let x := s.v a.toNat
    let k := (s.scalarOpnd true u b).toNat
    .done (s.writeLanes d.toNat x.tag p 0 fun i =>
      (if i + k < laneCount x.tag then lane x.bits (laneWidth x.tag) (i + k) else 0, 0))

/-- ZIP (R363). -/
def execZip (d a b : BitVec 6) (s : State) : Host.Outcome State Fault Refusal :=
  issue (.zip d a b) s fun p s =>
    let x := s.v a.toNat
    let y := s.v b.toNat
    if x.tag ≠ y.tag then .trap 0x02 0 (formatVal x.tag y.tag 0)
    else .done (s.writeLanes d.toNat x.tag p 0 fun i =>
      (lane (if i % 2 = 0 then x.bits else y.bits) (laneWidth x.tag) (i / 2), 0))

/-- SEL (R343): every lane is written. -/
def execSel (d a b : BitVec 6) (s : State) : Host.Outcome State Fault Refusal :=
  issue (.sel d a b) s fun p s =>
    let x := s.v a.toNat
    let y := s.v b.toNat
    if x.tag ≠ y.tag then .trap 0x02 0 (formatVal x.tag y.tag 0)
    else
      let km := s.me.km
      .done (s.writeAll d.toNat x.tag p fun i => lane (if km.getLsbD i then x.bits else y.bits) (laneWidth x.tag) i)

/-- MVS (R323). -/
def execMvs (d a : BitVec 6) (u : BitVec 2) (b : BitVec 6) (s : State) : Host.Outcome State Fault Refusal :=
  issue (.mvs d a u b) s fun p s =>
    let x := s.v a.toNat
    let i := (s.scalarOpnd true u b).toNat % laneCount x.tag
    let e := lane x.bits (laneWidth x.tag) i
    .done (s.writeG d.toNat (if isSigned x.tag then BitVec.ofInt 64 (laneInt x.tag e) else BitVec.ofNat 64 e) p)

/-- MVV (R324): one lane, written whatever km holds. -/
def execMvv (d : BitVec 6) (t : BitVec 2) (a : BitVec 6) (u : BitVec 2) (b : BitVec 6) (s : State) :
    Host.Outcome State Fault Refusal :=
  issue (.mvv d t a u b) s fun p s =>
    let old := s.v d.toNat
    let w := laneWidth old.tag
    let i := (s.scalarOpnd true u b).toNat % laneCount old.tag
    let e := s.element false t a old.tag
    let bits := packVec w ((span 0 (laneCount old.tag)).map fun j => if j = i then e.1 else lane old.bits w j)
    .done (s.modMe fun c => { c.writeV d.toNat { bits := bits, tag := old.tag, poison := p } with fpf := c.fpf ||| e.2 })

/-! ### Lane masks (R303) -/

def execKand (d a b : BitVec 6) (s : State) : Host.Outcome State Fault Refusal :=
  issue (.kand d a b) s fun _ s => .done (s.modMe fun c => c.writeK d.toNat (c.readK a.toNat &&& c.readK b.toNat))
def execKor (d a b : BitVec 6) (s : State) : Host.Outcome State Fault Refusal :=
  issue (.kor d a b) s fun _ s => .done (s.modMe fun c => c.writeK d.toNat (c.readK a.toNat ||| c.readK b.toNat))
def execKnot (d a : BitVec 6) (s : State) : Host.Outcome State Fault Refusal :=
  issue (.knot d a) s fun _ s => .done (s.modMe fun c => c.writeK d.toNat (~~~(c.readK a.toNat)))
def execKuse (a : BitVec 6) (s : State) : Host.Outcome State Fault Refusal :=
  issue (.kuse a) s fun _ s => .done (s.modMe fun c => { c with km := c.readK a.toNat })

/-! ### Membership registers (R177-R180) -/

def execQand (d a b : BitVec 6) (s : State) : Host.Outcome State Fault Refusal :=
  issue (.qand d a b) s fun _ s => .done (s.modMe fun c => c.writeQ d.toNat (c.readQ a.toNat &&& c.readQ b.toNat))
def execQor (d a b : BitVec 6) (s : State) : Host.Outcome State Fault Refusal :=
  issue (.qor d a b) s fun _ s => .done (s.modMe fun c => c.writeQ d.toNat (c.readQ a.toNat ||| c.readQ b.toNat))
def execQandn (d a b : BitVec 6) (s : State) : Host.Outcome State Fault Refusal :=
  issue (.qandn d a b) s fun _ s =>
    .done (s.modMe fun c => c.writeQ d.toNat (c.readQ a.toNat &&& ~~~(c.readQ b.toNat)))
def execQxor (d a b : BitVec 6) (s : State) : Host.Outcome State Fault Refusal :=
  issue (.qxor d a b) s fun _ s => .done (s.modMe fun c => c.writeQ d.toNat (c.readQ a.toNat ^^^ c.readQ b.toNat))

/-- Members of a set in rising order. -/
def members (q : QSet) : List Nat := (span 0 1024).filter q.getLsbD

/-- QCNT (R178). -/
def execQcnt (d a : BitVec 6) (s : State) : Host.Outcome State Fault Refusal :=
  issue (.qcnt d a) s fun _ s => .done (s.writeG d.toNat (BitVec.ofNat 64 (members (s.me.readQ a.toNat)).length) false)

/-- QIDX (R179): up to 16 members from gC on, km the valid lanes, gC past the last or 1,024. -/
def execQidx (d a c : BitVec 6) (s : State) : Host.Outcome State Fault Refusal :=
  issue (.qidx d a c) s fun p s =>
    let start := (s.g c.toNat).toNat
    let found := ((members (s.me.readQ a.toNat)).filter (start ≤ ·)).take 16
    let n := found.length
    let next := if n = 16 then found.getLastD 0 + 1 else 1024
    let v : VVal := { bits := packVec 32 (found ++ List.replicate (16 - n) 0xFFFFFFFF), tag := 4, poison := p }
    .done (s.modMe fun x =>
      { (x.writeV d.toNat v).writeG c.toNat (BitVec.ofNat 64 next) p with km := BitVec.ofNat 64 (2 ^ n - 1) })

/-- The members that lanes of an index vector name under km (R180). -/
def namedMembers (km : Word) (v : VVal) : List Nat :=
  ((activeLanes km (laneCount v.tag)).map (lane v.bits (laneWidth v.tag))).filter (· < 1024)
def setOf (ms : List Nat) : QSet := ms.foldl (init := 0) fun q n => q ||| ((1 : QSet) <<< n)
def isIndexTag (ty : BitVec 5) : Bool := ty == 2 || ty == 4 || ty == 12

def execQmark (d a : BitVec 6) (s : State) : Host.Outcome State Fault Refusal :=
  issue (.qmark d a) s fun _ s =>
    let v := s.v a.toNat
    if !isIndexTag v.tag then .trap 0x02 0 (formatVal v.tag 0 0)
    else .done (s.modMe fun c => c.writeQ d.toNat (c.readQ d.toNat ||| setOf (namedMembers c.km v)))
def execQclr (d a : BitVec 6) (s : State) : Host.Outcome State Fault Refusal :=
  issue (.qclr d a) s fun _ s =>
    let v := s.v a.toNat
    if !isIndexTag v.tag then .trap 0x02 0 (formatVal v.tag 0 0)
    else .done (s.modMe fun c => c.writeQ d.toNat (c.readQ d.toNat &&& ~~~(setOf (namedMembers c.km v))))

end Sys2Proof.Machine
end

