-- ==== Sys2Proof/Machine/Replies.lean ====
section
/-! DEFINITION. Requests performed at their homes, replies and notices, the time limit and polling of WAITA, transport
acknowledgements (R59, R64, R79, R82, R84-R86, R93, R94, R107, R162). -/
namespace Sys2Proof.Machine

/-- HOME_ACCESS_PERFORM: the request has arrived at its home's port and is performed; the home may have corrected an error
on the way, in main memory one of a device. An error that was corrected at an access which is no request, such as a core's
to its own local memory or a scrubbing one, comes about here too, under a number that no request has (R79, R212, R215;
log 91). -/
def execHomeAccessPerform (arrival : HomeArrival) (s : State) : Host.Outcome State Fault Refusal :=
  match s.net.find? fun p => p.id == arrival.id with
  | some p =>
    let t := (s.arriveAt p.home (s.rankOf p)).perform p
    whenDue (s.nextAtHome p) s (match arrival.corrected with
      | some (.device n) => t.corrected p n
      | some c => t.correctedAlone c
      | none => t)
  | none => .next (match arrival.corrected with | some c => s.correctedAlone c | none => s)

/-! ### WAITA at its home (R93, R94) -/

/-- The WAITA of a context that is armed at its home. -/
def State.armedFor (s : State) (c x : Nat) : Option Packet :=
  match (s.ctx c x).wait with
  | .waita n => s.net.find? fun p => p.op == some n && p.armed.isSome
  | _ => none
/-- The home that keeps a WAITA serves accesses now: its stack is not parked, its array not in a re-encode (R214, R247). -/
def State.watchServed (s : State) (p : Packet) : Bool := !s.arrayBusy p.home && !s.savedHome p.home
/-- The home reads the word once and returns it, whatever it is; a handle that has gone gives poisoned zero. -/
def State.readWatched (s : State) (p : Packet) : Word × Bool × Option Release := (s.watched p).getD (0, true, none)

/-- WAITA_TIMEOUT. -/
def execWaitaTimeout (c x : Nat) (s : State) : Host.Outcome State Fault Refusal :=
  match s.armedFor c x with
  | some p =>
    whenDue (p.timeout != 0 && decide (p.timeout ≤ s.cycle) && s.watchServed p) s (s.returnWatch p (s.readWatched p))
  | none => .next s

/-- WAITA_POLL: without a monitor, the home compares the word every 2,500 cycles. -/
def execWaitaPoll (c x : Nat) (s : State) : Host.Outcome State Fault Refusal :=
  match s.armedFor c x with
  | some p =>
    match p.act, p.armed with
    | .watch old _, some false =>
      if s.cycle < p.poll || !s.watchServed p then .next s
      else
        let w := s.readWatched p
        if w.1 != old || (s.watched p).isNone || s.disowned p then .next (s.returnWatch p w)
        else .next { s with net := s.net.map fun q => if q.id == p.id then { q with poll := q.poll + 2500 } else q }
    | _, _ => .next s
  | none => .next s

/-! ### Replies to non-posted accesses -/

/-- A word of the instruction's own whose on-chip storage has gone meanwhile is refused like one that a window refuses: the
instruction checks it again (R106, R144). -/
def Op.refuses (o : Op) (r : Reply) : Bool :=
  r.answer == .nack || (r.answer == .dropped && r.packet.pa.isNone && match o.dest with | .side _ => true | _ => false)
/-- An access after one more reply. A refusal is kept with the lowest part; its location is the packet's. -/
def Op.take (o : Op) (r : Reply) : Op :=
  let part := r.packet.part
  let first := match o.nack with | some (n, _) => decide (part < n) | none => true
  { o with left := o.left - 1,
           parts := if o.refuses r then o.parts else o.parts ++ [(part, (r.data, r.poison))],
           nack := if o.refuses r && first then some (part, r.packet.loc) else o.nack,
           read := if r.answer = .done then o.read ++ r.release.toList else o.read }

/-- A release that was read is checked by the context that waits for it (R85). -/
def State.noteReply (s : State) (o : Op) (r : Reply) : State :=
  let live := (s.ctx o.core o.ctx).live && (s.ctx o.core o.ctx).life == o.life && (s.core o.core).era == o.era
  if !live || r.answer ≠ .done then s else s.noteRelease o.core o.ctx r.packet.act.isLoad o.acq r.release

/-- The even core of a pair passes what it received from outside on to the odd one, with the releases that it read, which
the odd one checks as well (R85, R220); or the location that a window refused (R59, R357). -/
def State.passReply (s : State) (o : Op) (p : Packet) : State :=
  let inside := p.home == .localMem o.core || match o.dest with | .code _ _ | .side _ => true | _ => false
  match (s.core o.core).pairing with
  | some q =>
    if !q.even || o.ctx ≠ 0 || inside then s
    else
      let passed : Passed := match o.nack with
        | some n => { refused := some n.2 }
        | none => { parts := o.parts, read := o.read }
      s.modCore q.partner fun k => { k with pairing := k.pairing.map fun (r : Pairing) =>
        { r with replies := r.replies ++ [passed] } }
  | none => s

/-- Remove one occurrence of each register. -/
def dropRegs (regs from_ : List Reg) : List Reg := regs.foldl List.erase from_

/-- An access of a core that goes to nobody, and its requests that no home has performed yet, are withdrawn. -/
def State.withdrawOp (s : State) (n : Nat) : State :=
  let own := fun (p : Packet) => p.op == some n
  let gone := s.net.filter own
  let s := { s with net := s.net.filter (fun p => !own p), ops := Tab.erase s.ops n }
  gone.foldl (init := s) fun s p => s.leaveSlots .request p.id
/-- An access of a gang member that a window refuses: the other members stand at the refused instruction again, each with
the registers and the local memory that it had there, and their own accesses of it are withdrawn; what other homes have
performed of them stays (R26; log 75). -/
def State.rejoinGang (s : State) (c : Nat) : State :=
  match (s.core c).gang with
  | none => s
  | some g =>
    let at' := s.ctx c 0
    (g.members.filter (· != c)).foldl (init := s) fun s m =>
      let s := match (s.ctx m 0).wait with
        | .reply n | .waita n => s.withdrawOp n
        | _ => s
      let s := s.modCore m Core.takeBack
      s.modCtx m 0 fun t => { t with pc := at'.pc, lp := at'.lp, lpd := at'.lpd, wait := .none }

/-- The whole of a context's access has come back: a refusal traps precisely, or makes the instruction that wanted a word
of its own check it again; otherwise the data goes where it belongs, and a context that waited for it goes on. `old` is the
context before the reply. An access that nobody awaits any more gives nothing. -/
def State.endAccess (s : State) (n : Nat) (o : Op) (p : Packet) (old : Context) : State :=
  let c := o.core
  let x := o.ctx
  let t := s.ctx c x
  let s := { s with ops := Tab.erase s.ops n }
  if !t.live || t.life ≠ o.life then s
  else if t.wait = .reply n || t.wait = .waita n then
    let s := s.passReply o p
    let again := fun (s : State) => (s.modCtx c x fun t => { t with wait := .none }).takeDue c
    match o.nack with
    | some (_, w) => match o.dest with
      | .side _ => again s
      | _ => ((if x = 0 then s.rejoinGang c else s).modCtx c x fun t => { t with wait := .none }).trapCtx c x 0x07 0 w t.waitLen
    | none =>
      match o.dest with
      | .code _ _ | .side _ => again (s.deliver o)
      | d => ((s.deliver o).finish c x d.regs old).takeDue c
  else if o.holds then s
  else ((s.deliver o).modCtx c x fun t => { t with loads := dropRegs o.dest.regs t.loads }).takeDue c

/-- A reply has gone from the way, and with its last one the access. -/
def State.dropReply (s : State) (id n : Nat) : State :=
  let mine := fun (r : Reply) => r.packet.id == id && r.packet.op.isSome
  let rest := match takeFirst mine s.replies with | some (_, rest) => rest | none => s.replies
  ({ s with replies := rest, ops := Tab.erase s.ops n }).leaveSlots .reply id

/-- ACCESS_REPLY: a reply reaches its issuer; the last one ends the access. A refusal waits for the loads issued before
it (R97); a copied line waits at its engine until it can be written. -/
def execAccessReply (id : Nat) (s : State) : Host.Outcome State Fault Refusal :=
  match takeFirst (fun r => r.packet.id == id && r.packet.op.isSome) s.replies with
  | none => .next s
  | some (r, rest) =>
    let p := r.packet
    let n := p.op.getD 0
    match (Tab.get none s.ops n : Option Op) with
    | none => .next (({ s with replies := rest }).leaveSlots .reply id)
    | some o =>
      let t := ({ s with replies := rest }).leaveSlots .reply id
      let o := o.take r
      if o.left ≠ 0 then .next { t.noteReply o r with ops := Tab.put s.ops n (some o) }
      else
        match o.dest with
        | .copied q dest rot =>
          let data := if r.data = [] then List.replicate p.act.size 0 else r.data
          match s.copyArrived o.core q dest rot p (s.engineStatus p r.answer) data (r.poison || r.answer != .done) with
          | (some u, _) => .next (u.dropReply id n)
          | (none, u) => .next u
        | .guard q => .next ((t.dropReply id n).guardArrived o.core q (s.engineStatus p r.answer) r.data)
        | .unit _ => .next ((t.dropReply id n).deliver o)
        | .tileRow _ _ =>
          let bad := r.answer ≠ .done
          let o := if bad then { o with parts := [(0, (List.replicate p.act.size 0, true))] } else o
          .next (({ t with ops := Tab.erase t.ops n }).deliver o)
        | _ =>
          if o.nack.isSome && (s.ctx o.core o.ctx).loads ≠ [] then .next s
          else .next ((t.noteReply o r).endAccess n o p (s.ctx o.core o.ctx))

/-! ### Notices of posted accesses (R59, R162, R171) -/

/-- POSTED_ACCESS_RESPONSE: what the sender counted for the packet is taken back; a refusal sets chk bit 5 in the
sending context; a row of TST is accounted for at its entry, a line of a copy at its engine, and a result that a launch's
unit could not write makes the launch's status 1 (R107, R206). -/
def execPostedAccessResponse (id : Nat) (s : State) : Host.Outcome State Fault Refusal :=
  match takeFirst (fun r => r.packet.id == id && r.packet.op.isNone) s.replies with
  | none => .next s
  | some (r, rest) =>
    let p := r.packet
    let s := (({ s with replies := rest }).leaveSlots .reply id).subPending p.core p.counted p.bytes
    let s := if r.answer = .done then s else s.resultLost p
    if p.engine then .next (s.lineAnswered p r.answer)
    else
    let s := match p.group with
      | some g => s.modCore p.core fun k =>
          { k with groups := Tab.update {} k.groups g fun (q : Group) => { q with pending := q.pending - 1 } }
      | none => s
    match p.row with
    | some n =>
      let failed := r.answer ≠ .done
      .next (s.modCore p.core fun k => k.modEntry n fun e =>
        { e with rowsOut := e.rowsOut.map (· - 1), failed := e.failed || failed })
    | none =>
      if r.answer = .nack && p.core < 4096 then
        .next (p.merged.foldl (init := s.chkEvent p.core p.ctx p.life p.era 5) fun s m =>
          s.chkEvent m.1 m.2.1 m.2.2.1 m.2.2.2.1 5)
      else .next s

/-- ULTRA_ETHERNET_ACKNOWLEDGEMENT: the transport has acknowledged a transmission that has gone out (R82). -/
def execUltraEthernetAcknowledgement (id : Nat) (s : State) : Host.Outcome State Fault Refusal :=
  .next (({ s with outbox := replaceWhere (fun o => o.id == id && o.sent) (fun o => { o with acked := true }) s.outbox }).leaveSlots
    .completion id)

end Sys2Proof.Machine
end

