-- ==== Sys2Proof/Machine/Sha.lean ====
section
/-! DEFINITION. SHA-384, by which firmware, tables and images are measured (R243, R244). The algorithm is that of
FIPS 180-4, which the spec names and does not restate (log 12): its constants are computed here from what they are,
the fractions of roots of primes, and a hash value is a list of eight words, newest first. -/
namespace Sys2Proof.Machine

/-- The greatest number below `2 ^ bits`, above the part `x` found so far, whose `k`-th power is at most `n`. -/
def rootOf (k n : Nat) : Nat → Nat → Nat
  | 0, x => x
  | bits + 1, x => rootOf k n bits (if (x + 2 ^ bits) ^ k ≤ n then x + 2 ^ bits else x)
/-- The first 64 bits of the fraction of the `k`-th root of a number below 1024. -/
def rootFraction (k n : Nat) : Word := BitVec.ofNat 64 (rootOf k (n <<< (64 * k)) 69 0)
/-- The first 80 primes: those up to 409. -/
def eightyPrimes : List Nat := (span 2 408).filter fun n => (span 2 (n - 2)).all fun d => n % d != 0

/-- A word under three rotations. -/
def turned (i j k : Nat) (w : Word) : Word := w.rotateRight i ^^^ (w.rotateRight j ^^^ w.rotateRight k)
/-- A word under two rotations and a shift. -/
def smeared (i j k : Nat) (w : Word) : Word := w >>> k ^^^ (w.rotateRight i ^^^ w.rotateRight j)
/-- The word a round adds at the place of the eighth: the last word, the choice among the three after the fifth, and
the round's own sum of constant and schedule word. -/
def roundSum (v : List Word) (kw : Word) : Word :=
  let at_ (i : Nat) := v.getD i 0
  kw + at_ 7 + turned 14 18 41 (at_ 4) + (at_ 6 ^^^ (at_ 4 &&& (at_ 5 ^^^ at_ 6)))
/-- The word a round adds beside it at the head: the first word turned, and the majority of the first three. -/
def headSum (v : List Word) : Word :=
  let at_ (i : Nat) := v.getD i 0
  turned 28 34 39 (at_ 0) + ((at_ 0 &&& at_ 1) ||| (at_ 2 &&& (at_ 0 ||| at_ 1)))
/-- One round: every word moves one place down, the fifth taking up the round's word on the way. -/
def hashRound (v : List Word) (kw : Word) : List Word :=
  let r := roundSum v kw
  (r + headSum v) :: (v.take 3 ++ (v.getD 3 0 + r) :: (v.drop 4).take 3)
/-- The block's words with `n` more, newest first. -/
def blockSchedule : Nat → List Word → List Word
  | 0, w => w
  | n + 1, w =>
    blockSchedule n ((w.getD 15 0 + smeared 1 8 7 (w.getD 14 0) + w.getD 6 0 + smeared 19 61 6 (w.getD 1 0)) :: w)
/-- The hash value after one block of 16 words. -/
def hashBlock (v w : List Word) : List Word :=
  let sums := List.zipWith (fun p x => rootFraction 3 p + x) eightyPrimes (blockSchedule 64 w.reverse).reverse
  List.zipWith (· + ·) v (sums.foldl hashRound v)

/-- Big-endian words of bytes, and bytes of a word. -/
def bigWord (bs : List Byte) : Word := bs.foldl (init := 0) fun w b => w <<< 8 ||| b.setWidth 64
def bigBytes (w : Word) : List Byte := (span 0 8).map fun i => (w >>> (56 - 8 * i)).setWidth 8
/-- The message with its closing 1 bit, its zeros, and its length in bits as 128 bits. -/
def padded (bs : List Byte) : List Byte :=
  bs ++ 0x80 :: List.replicate ((239 - bs.length % 128) % 128 + 8) 0 ++ bigBytes (BitVec.ofNat 64 (8 * bs.length))
def hashBlocks : Nat → List Byte → List Word → List Word
  | 0, _, v => v
  | n + 1, bs, v => hashBlocks n (bs.drop 128) (hashBlock v ((span 0 16).map fun i => bigWord ((bs.drop (8 * i)).take 8)))
/-- The 48 bytes of the SHA-384 digest: from the square roots of the ninth to sixteenth primes. -/
def sha384 (bs : List Byte) : List Byte :=
  let m := padded bs
  let start := ((eightyPrimes.drop 8).take 8).map (rootFraction 2)
  ((hashBlocks (m.length / 128) m start).take 6).flatMap bigBytes

end Sys2Proof.Machine
end

