-- ==== Sys2Proof/Machine/Pod.lean ====
section
/-! DEFINITION. What reaches the device from outside: TLV packets of hosts and peers, the pod plane, the firmware column,
hand-over, resets; and the word that is no instruction (R134, R224-R226, R229-R231, R235-R247). -/
namespace Sys2Proof.Machine

/-! ### The firmware column's roles (R240) -/

/-- The default role of the n-th core of the column: the counts of Table 16.7 in the order of their codes (log 52). -/
def defaultRole (n : Nat) : Nat :=
  if n < 4 then 1 else if n < 36 then 2 else if n < 40 then 3 else if n < 42 then 4 else if n < 44 then 5
  else if n < 46 then 6 else 7
/-- Column cores in core-number order. -/
def columnCores (t : ColumnTable) : List Nat :=
  (span 0 64).flatMap fun y => (span t.firstColumn t.width).map fun x => coreAt x y
def columnRole (t : ColumnTable) (n : Nat) : Nat := if t.roles = [] then defaultRole n else t.roles.getD n 7
/-- A table that can be applied. -/
def columnValid (t : ColumnTable) : Bool :=
  1 ≤ t.width && t.width ≤ 4 && t.firstColumn + t.width ≤ 64 && 250000 ≤ t.watchdog && t.watchdog ≤ 25000000 &&
    (span 1 6).all fun r => (span 0 (64 * t.width)).any fun n => columnRole t n == r
/-- The role of a column core now; 0 when it has failed. -/
def Firmware.role (f : Firmware) (c : Nat) : Nat :=
  Tab.get (columnRole f.column ((columnCores f.column).idxOf c)) f.roles c
/-- Column cores that have a role, ascending. -/
def Firmware.withRole (f : Firmware) (r : Nat) : List Nat := (columnCores f.column).filter fun c => f.role c == r

/-! ### Reading a TLV packet (R235) -/

def fieldType (f : TlvField) : Nat := f.type.toNat
/-- A field's value: what its length says of what follows its header. -/
def fieldBytes (f : TlvField) : List Byte := f.value.take f.length
/-- The 32 bits of a field header. -/
def fieldHeader (f : TlvField) : BitVec 32 :=
  BitVec.ofNat 32 (f.type.toNat + (if f.mandatory then 2 ^ 12 else 0) + f.reserved.toNat * 2 ^ 13 + f.length * 2 ^ 16)
/-- Types of Table 16.5. -/
def tlvKnown (t : Nat) : Bool :=
  (1 ≤ t && t ≤ 3) || t == 0x010 || t == 0x011 || (0x020 ≤ t && t ≤ 0x024) || t == 0x030 || t == 0x040 || t == 0x041 ||
    t == 0x050 || t == 0x051
/-- A field that has the packet rejected: it overruns the packet, its must-be-0 bits are not 0, or it is mandatory and
unknown. -/
def fieldBad (f : TlvField) : Bool :=
  decide (f.value.length < f.length) || f.reserved != 0 || (f.mandatory && !tlvKnown (fieldType f))
/-- The class, which the first field gives. -/
def packetClass (p : TlvPacket) : Option Nat :=
  match p.fields with
  | f :: _ => if (fieldType f) = 1 && (fieldBytes f).length = 1 then some (leNat (fieldBytes f)) else none
  | [] => none
/-- The sequence to be echoed. -/
def packetSeq (p : TlvPacket) : List Byte :=
  ((p.fields.find? fun f => (fieldType f) == 2).map fieldBytes).getD []

/-- The sender may send packets of a class: owning hosts may, other hosts only what Bilrok's table admits, pod peers
submissions only; in firmware-only service there is management and attestation only (R230, R235, R240). -/
def State.classAdmitted (s : State) (sender : Sender) (cls : Nat) : Bool :=
  match sender with
  | .peer _ => s.firmware.service && cls == 3
  | .host h =>
    let owner := s.hostsToTell.contains h
    let e : Bool × Bool × Nat := Tab.get (false, false, 0) s.firmware.hosts h
    match cls with
    | 1 => owner || e.1
    | 2 => owner || e.2.1
    | 3 | 4 => owner && s.firmware.service
    | _ => false
/-- Rules that say in which class a field comes: queues and budgets are managed, counters are telemetry (R211, R212,
R231); a peer sends submissions only (log 51). -/
def fieldAdmitted (sender : Sender) (cls type : Nat) : Bool :=
  match sender with
  | .peer _ => type ≤ 3 || type == 0x011 || !tlvKnown type
  | .host _ => match type with
    | 0x010 | 0x020 => cls == 1
    | 0x040 => cls == 4 || cls == 1
    | _ => true

/-- The lowest-numbered headgate core receives the packets and keeps their last 16 field headers (R243, log 52). -/
def State.noteHeaders (s : State) (p : TlvPacket) : State :=
  s.modFirmware fun f =>
    let c := (f.withRole 1).headD 0
    let all := Tab.get [] f.headers c ++ p.fields.map fieldHeader
    { f with headers := Tab.put f.headers c (all.drop (all.length - 16)) }

/-- How a packet is numbered in the count of rejected ones: hosts, then peers. -/
def senderIndex : Sender → Nat
  | .host h => h
  | .peer p => 2 ^ 20 + p

/-! ### What a field does -/

/-- The outcome of applying a field: the state, a status of Table 16.5, fields of the reply. `later`: the reply's status
is sent when an invalidation completes; `ask`: nothing can be done before an address, of a die and a space, can be
written; `wait`: nor while a stack is parked. -/
structure Applied where
  s      : State
  status : Nat := 0
  reply  : List TlvField := []
  later  : Bool := false
  ask    : Option (Nat × Nat × Word) := none
  wait   : Bool := false
  deriving DecidableEq, Repr

/-- A field's part of a number. -/
def bitField (x lo n : Nat) : Nat := x / 2 ^ lo % 2 ^ n
/-- Bilrok's access table admits a host for management; it owns a partition that is not another host's (R230). -/
def State.manages (s : State) (host : Nat) : Bool := (Tab.get (false, false, 0) s.firmware.hosts host).1
def State.ownsPart (s : State) (host part : Nat) : Bool := ((s.part part).map fun p => p.host == host).getD false
/-- A host may order something that belongs to certain partitions: it owns them, or the access table admits it; a pod peer
orders nothing (R230). -/
def State.mayOrder (s : State) (sender : Sender) (owns : Nat → Bool) : Bool :=
  match sender with
  | .host h => s.manages h || owns h
  | .peer _ => false
/-- A host owns the partition that a core lies in; every partition of a domain. -/
def State.ownsCore (s : State) (c host : Nat) : Bool := ((s.partOf c).map (s.ownsPart host)).getD false
def State.ownsDomain (s : State) (odi host : Nat) : Bool :=
  s.parts.all fun e => match e.2 with | some p => p.odi != odi || p.host == host | none => true
/-- A host owns what a budget is for, as far as that belongs to a partition: peers and dies belong to none (R211, log 51). -/
def State.ownsConsumer (s : State) (activity consumer host : Nat) : Bool :=
  match activity with
  | 0 => s.ownsDomain consumer host
  | 2 => consumer == host
  | 3 => s.ownsCore consumer host
  | 4 => s.launches.all fun e => match e.2 with
    | some l => l.finished || l.id.toNat != consumer || s.ownsPart host l.part
    | none => true
  | 5 => s.ownsPart host (s.queue consumer).part
  | _ => true
/-- Queue configuration: the queue's number, then Table 16.1 packed from bit 0 on (log 51). A configured queue starts at
k = head = 0. It is the owning host's to order, of the partition that had the queue and of the one that gets it, or of a
host that the access table admits (R230). -/
def State.applyQueue (s : State) (sender : Sender) (bs : List Byte) : Applied :=
  let q := fieldAt bs 0 1
  let x := fieldAt bs 1 28
  let base := bitField x 0 64
  let log := bitField x 64 5
  let weight := bitField x 72 4
  let status := bitField x 80 64
  let peers := ((span 0 8).map fun n => bitField x (144 + 10 * n) 10).filter (· != 0x3FF)
  let ok := bs.length == 29 && q < 64 && base % 16 == 0 && (log == 0 || (4 ≤ log && log ≤ 20)) && weight != 0 &&
    status % 64 == 0
  let old := s.queue q
  let part := bitField x 76 4
  let may := s.mayOrder sender fun h => s.ownsPart h part && (!old.enabled || s.ownsPart h old.part)
  if !ok then { s := s, status := 1 }
  else if !may then { s := s, status := 2 }
  else
    let k : Queue :=
      { base := BitVec.ofNat 64 base, log := log, prio := bitField x 69 3, weight := weight, part := part,
        status := BitVec.ofNat 64 status, peers := peers, enabled := log != 0, dirty := true, wrote := s.cycle,
        ignored := old.ignored, rejected := old.rejected, work := old.work, copies := old.copies }
    { s := s.modQueue q fun _ => k }

/-- The translation space and the rank in which a sender's entries are written: its own domain's and its own (R79, R229,
R236). -/
def State.senderSpace (s : State) (sender : Sender) (q : Nat) : Nat :=
  match sender with
  | .host h => s.hostSpace h q
  | .peer n => spaceFor (s.queue q).part (s.peer n).odi
def senderRank : Sender → Nat
  | .host n | .peer n => peerRank n
/-- Write a sender's ring entries from an index on; none when one cannot be written; or the address that has to be waited
for. -/
def State.writeRing (s : State) (sender : Sender) (q : Nat) : Nat → List (List Byte) → Option State ⊕ Word
  | _, [] => .inl (some s)
  | n, e :: rest =>
    let k := s.queue q
    match s.unitStore (s.partDie k.part) (s.senderSpace sender q) (k.slotAt n) e (senderRank sender) with
    | (.done, t) => t.writeRing sender q (n + 1) rest
    | (.dropped, _) => .inl none
    | (.ask, _) => .inr (k.slotAt n)
/-- Submission: entries are appended at k and kicked as one step. -/
def State.applySubmission (s : State) (sender : Sender) (bs : List Byte) : Applied :=
  let q := fieldAt bs 0 1
  let k := s.queue q
  let n := (bs.length - 1) / 16
  let listed := match sender with
    | .peer id => k.peers.contains id
    | .host h => s.ownsQueue h q
  if bs.length != 1 + 16 * n || n == 0 || n > 64 || q ≥ 64 then { s := s, status := 1 }
  else if !listed then { s := s, status := 2 }
  else if !k.enabled then { s := s, status := 1 }
  else
    match s.writeRing sender q k.k.toNat ((span 0 n).map fun i => (bs.drop (1 + 16 * i)).take 16) with
    | .inl (some t) => { s := t.kickTo q (k.k + BitVec.ofNat 32 n) }
    | .inl none => { s := s, status := 1 }
    | .inr w => { s := s, ask := some (s.partDie k.part, s.senderSpace sender q, w) }

/-- Budget: activity (1 byte, Table 13.7 in order), consumer (4), control (1: 0 basic, 1 expert), share or amount (8)
(R211, log 51). -/
def State.applyBudget (s : State) (sender : Sender) (bs : List Byte) : Applied :=
  let activity := fieldAt bs 0 1
  let consumer := fieldAt bs 1 4
  let expert := fieldAt bs 5 1 == 1
  let amount := fieldAt bs 6 8
  if bs.length ≠ 14 || activity > 6 || fieldAt bs 5 1 > 1 || (!expert && amount > 100) then { s := s, status := 1 }
  else if !s.mayOrder sender (s.ownsConsumer activity consumer) then { s := s, status := 2 }
  else
    -- UALink's budget is one for each direction; what the shares leave is divided anew
    let set := fun (s : State) (a : Nat) =>
      let own := fun (r : BudgetRow) => r.activity == a && r.consumer == consumer
      let stalls := ((s.budgets.find? own).map (·.stalls)).getD 0
      let row : BudgetRow := { activity := a, consumer := consumer, expert := expert, amount := amount, left := 0,
                               stalls := stalls }
      let rest := s.budgets.filter fun (r : BudgetRow) => !own r && !(r.implied && r.activity == a)
      { s with budgets := rest ++ [{ row with left := s.grant row }] }
    { s := (if activity = 1 then [1, 7] else [activity]).foldl set s }

/-- Peer readmit: the sequence state of the peer's link starts anew, and requests flow as before (R239, log 43). -/
def State.applyReadmit (s : State) (bs : List Byte) : Applied :=
  let n := fieldAt bs 0 2
  if bs.length ≠ 2 || n ≥ 1024 then { s := s, status := 1 }
  else
    let t := s.modPeer n fun r => { r with isolated := false, heard := s.cycle }
    { s := { t with replay := t.replay.filter fun r => r.link != 16 + n % 8 } }

/-- A core and a class mask: 2 and 4 bytes (log 51). -/
def coreAndClasses (bs : List Byte) : Option (Nat × BitVec 28) :=
  let c := fieldAt bs 0 2
  let m := fieldAt bs 2 4
  if bs.length == 6 && c < Config.coreCount && m < 2 ^ 28 then some (c, BitVec.ofNat 28 m) else none
/-- Self-test order: a core that holds a task, or is being tested, is busy (R225). -/
def State.applySelfTest (s : State) (sender : Sender) (bs : List Byte) : Applied :=
  match coreAndClasses bs with
  | none => { s := s, status := 1 }
  | some (c, m) =>
    let k := s.core c
    if !s.mayOrder sender (s.ownsCore c) then { s := s, status := 2 }
    else if k.task.isSome || k.inbox ≠ [] || k.selfTest.isSome || k.saved.isSome then { s := s, status := 3 }
    else { s := s.modCore c fun k => { k with selfTest := some { classes := m, cause := 3, since := s.cycle } } }
/-- Fence command (R224). -/
def State.applyFence (s : State) (sender : Sender) (bs : List Byte) : Applied :=
  match coreAndClasses bs with
  | none => { s := s, status := 1 }
  | some (c, m) => if s.mayOrder sender (s.ownsCore c) then { s := s.fence c m 3 } else { s := s, status := 2 }

/-- Translation invalidate: one domain, a range or the whole (R68). -/
def State.applyInvalidate (s : State) (sender : Sender) (bs : List Byte) : Applied :=
  let odi := fieldAt bs 0 1
  if (bs.length ≠ 1 && bs.length ≠ 17) || odi ≥ 16 then { s := s, status := 1 }
  else if !s.mayOrder sender (s.ownsDomain odi) then { s := s, status := 2 }
  else
    let range := if bs.length = 1 then none else some (fieldAt bs 1 8, fieldAt bs 9 8)
    { s := s.beginInvalidation odi range (.host sender 0 0 []), later := true }

/-- The hand-over state as a report shows it (R244). -/
def HandOver.code : HandOver → Nat
  | .none => 0
  | .pending => 1
  | .committed => 2
/-- Bytes that a table is measured by. -/
def columnBytes (t : ColumnTable) : List Byte :=
  leBytes 1 t.firstColumn ++ leBytes 1 t.width ++ t.roles.flatMap (leBytes 1) ++ leBytes 4 t.watchdog ++
    t.inboxes.flatMap fun e => leBytes 2 e.1 ++ leBytes 2 e.2
/-- The 16 bytes of a fence-table entry (Table 14.5). -/
def fenceBytes (e : FenceEntry) : List Byte :=
  leBytes 16 (e.core + e.classes.toNat * 2 ^ 12 + (if e.killed then 2 ^ 44 else 0) + e.cause.toNat * 2 ^ 45 +
    e.cyc.toNat * 2 ^ 64 + e.boot.toNat * 2 ^ 96)
def Firmware.incoming (f : Firmware) : List Byte := f.image.read 0 f.imageLen
/-- A signed measurement report: firmware in force, configuration table, fence table, incoming firmware (zeros when
there is none), version and hand-over state (R244). -/
def Firmware.report (f : Firmware) : List Byte :=
  let body := sha384 f.running ++ sha384 (columnBytes f.column) ++ sha384 (f.fences.flatMap fenceBytes) ++
    (if f.handOver = .pending then sha384 f.incoming else List.replicate 48 0) ++
    leBytes 8 (Config.firmwareVersion f.running).toNat ++ leBytes 1 f.handOver.code
  body ++ leBytes 96 (Config.signature body).toNat
/-- SPDM: an SPDM 1.3 message (version byte 0x13) that asks for measurements (code 0xE0) is answered with a message of code
0x60 that carries a report built in this step; what others are answered is free (R244, log 12). -/
def State.applySpdm (s : State) (bs : List Byte) : Applied :=
  if bs.length < 4 || fieldAt bs 0 1 ≠ 0x13 then { s := s, status := 1 }
  else if fieldAt bs 1 1 = 0xE0 then { s := s, reply := [outField 0x030 ([0x13, 0x60, 0, 0] ++ s.firmware.report)] }
  else { s := s, reply := [outField 0x030 (Config.spdmAnswer bs)] }

/-- Counter read: counter (2 bytes), index (4) (R212, log 13). -/
def State.applyCounter (s : State) (bs : List Byte) : Applied :=
  if bs.length ≠ 6 then { s := s, status := 1 }
  else
    let n : BitVec 64 := Tab.get 0 s.firmware.counters (countKey (fieldAt bs 0 2) (fieldAt bs 2 4))
    { s := s, reply := [outField 0x040 (leBytes 8 n.toNat)] }
/-- Crash record read: a slot's 4 KiB, once its stack serves accesses (R243, R247). -/
def State.applyCrash (s : State) (bs : List Byte) : Applied :=
  if bs.length ≠ 1 then { s := s, status := 1 }
  else if s.channelParked (crashAt (fieldAt bs 0 1)) then { s := s, wait := true }
  else { s := s, reply := [outField 0x041 (s.dram.read (crashAt (fieldAt bs 0 1)) 4096)] }

/-- Image chunk: 4-byte offset and up to 60 KiB; when the image's signature verifies, the hand-over is pending (R245). -/
def State.applyChunk (s : State) (bs : List Byte) (verifies : Bool) : Applied :=
  let f := s.firmware
  if bs.length < 4 || bs.length > 4 + 61440 || !f.started then { s := s, status := 1 }
  else
    let off := fieldAt bs 0 4
    let data := bs.drop 4
    let f := { f with image := f.image.write off data, imageLen := max f.imageLen (off + data.length) }
    { s := { s with firmware := if verifies then { f with handOver := .pending, started := false } else f } }
/-- Hand-over control: begin, commit, cancel; once committed it stays so until the next begin (R245). -/
def State.applyHandOver (s : State) (bs : List Byte) : Applied :=
  let f := s.firmware
  let empty := { f with handOver := .none, image := [], imageLen := 0 }
  match if bs.length = 1 then fieldAt bs 0 1 else 0 with
  | 1 => { s := { s with firmware := { empty with started := true } } }
  | 2 =>
    if f.handOver = .pending then
      { s := { s with firmware := { f with handOver := .committed, running := f.incoming, image := [], imageLen := 0 } } }
    else { s := s, status := 1 }
  | 3 =>
    let kept : HandOver := if f.handOver = .committed then .committed else .none
    { s := { s with firmware := { empty with started := false, handOver := kept } } }
  | _ => { s := s, status := 1 }

/-- Apply a field of a packet. Class, sequence and status fields, and unknown ones that are not mandatory, do nothing. -/
def State.applyField (s : State) (p : TlvPacket) (f : TlvField) : Applied :=
  let bs := (fieldBytes f)
  match (fieldType f) with
  | 0x010 => s.applyQueue p.sender bs
  | 0x011 => s.applySubmission p.sender bs
  | 0x020 => s.applyBudget p.sender bs
  | 0x021 => s.applyReadmit bs
  | 0x022 => s.applySelfTest p.sender bs
  | 0x023 => s.applyFence p.sender bs
  | 0x024 => s.applyInvalidate p.sender bs
  | 0x030 => s.applySpdm bs
  | 0x040 => s.applyCounter bs
  | 0x041 => s.applyCrash bs
  | 0x050 => s.applyChunk bs p.verifies
  | 0x051 => s.applyHandOver bs
  | _ => { s := s }

/-- Apply the fields in order; the first that fails ends it. -/
def State.applyFields (p : TlvPacket) : List TlvField → Applied → Applied
  | [], a => a
  | f :: rest, a =>
    if a.status ≠ 0 || a.ask.isSome || a.wait then a
    else
      let b := a.s.applyField p f
      State.applyFields p rest { b with reply := a.reply ++ b.reply, later := a.later || b.later }

/-- The fields of a reply: the sequence, a status and further ones. -/
def replyFields (p : TlvPacket) (status : Nat) (more : List TlvField) : List TlvField :=
  (if (packetSeq p) = [] then [] else [outField 0x002 (packetSeq p)]) ++ [outField 0x003 (leBytes 4 status)] ++ more
/-- A packet is answered with a status and further fields. -/
def State.replyTlv (s : State) (p : TlvPacket) (status : Nat) (more : List TlvField) : State :=
  s.sendTlv p.sender ((packetClass p).getD 1) (replyFields p status more)
/-- The invalidations that a packet has begun, from number `from_` on, answer it when they have completed. -/
def State.replyLater (s : State) (p : TlvPacket) (from_ : Nat) (more : List TlvField) : State :=
  let asked := InvFor.host p.sender ((packetClass p).getD 1) from_ (replyFields p 0 more)
  { s with invs := replaceWhere (fun i => decide (from_ ≤ i.id)) (fun i => { i with asked := asked }) s.invs }
/-- A rejected packet is answered and counted, and nothing of it is applied. -/
def State.rejectTlv (s : State) (p : TlvPacket) (status : Nat) : State :=
  (s.count Count.rejectedPacket (senderIndex p.sender)).replyTlv p status []

/-- Receive a packet: the whole is checked first, then applied whole or not at all; one that waits for a translation
or a stack has done nothing yet but ask for it. -/
def State.receiveTlv (s0 : State) (p : TlvPacket) : State :=
  let s := s0.noteHeaders p
  match packetClass p with
  | none => s.rejectTlv p 1
  | some cls =>
    if p.fields.any fieldBad then s.rejectTlv p 1
    else if !s.classAdmitted p.sender cls || p.fields.any fun f => !fieldAdmitted p.sender cls (fieldType f) then s.rejectTlv p 2
    else
      let a := State.applyFields p p.fields { s := s }
      if a.status ≠ 0 then s.rejectTlv p a.status
      else match a.ask with
        | some (die, space, w) => (s0.unitBlocked die space w (senderRank p.sender)).getD s0
        | none => if a.wait then s0 else if a.later then a.s.replyLater p s.nextNum a.reply else a.s.replyTlv p 0 a.reply

/-- The packet's first field beside class, sequence and status: the step is named after it. -/
def packetLead (p : TlvPacket) : Nat × List Byte :=
  match p.fields.find? fun f => tlvKnown (fieldType f) && (fieldType f) > 3 with
  | some f => ((fieldType f), (fieldBytes f))
  | none => (0, [])

/-- QUEUE_CONFIGURATION: a packet led by field 0x010, or one without a field that names a step, which does nothing but
be answered or rejected. -/
def execQueueConfiguration (p : TlvPacket) (s : State) : Host.Outcome State Fault Refusal :=
  whenDue ((packetLead p).1 == 0x010 || (packetLead p).1 == 0) s (s.receiveTlv p)
/-- SUBMISSION: a packet led by field 0x011. -/
def execSubmission (p : TlvPacket) (s : State) : Host.Outcome State Fault Refusal :=
  whenDue ((packetLead p).1 == 0x011) s (s.receiveTlv p)
/-- BUDGET: a packet led by field 0x020. -/
def execBudget (p : TlvPacket) (s : State) : Host.Outcome State Fault Refusal :=
  whenDue ((packetLead p).1 == 0x020) s (s.receiveTlv p)
/-- PEER_READMIT: a packet led by field 0x021. -/
def execPeerReadmit (p : TlvPacket) (s : State) : Host.Outcome State Fault Refusal :=
  whenDue ((packetLead p).1 == 0x021) s (s.receiveTlv p)
/-- SELF_TEST_ORDER: a packet led by field 0x022. -/
def execSelfTestOrder (p : TlvPacket) (s : State) : Host.Outcome State Fault Refusal :=
  whenDue ((packetLead p).1 == 0x022) s (s.receiveTlv p)
/-- FENCE_COMMAND: a packet led by field 0x023. -/
def execFenceCommand (p : TlvPacket) (s : State) : Host.Outcome State Fault Refusal :=
  whenDue ((packetLead p).1 == 0x023) s (s.receiveTlv p)
/-- TRANSLATION_INVALIDATE: a packet led by field 0x024; or Bilrok on its own account writes page-table entries, once
their stacks serve accesses, and invalidates what they change (R68, R247). -/
def execTranslationInvalidate (order : InvOrder) (s : State) : Host.Outcome State Fault Refusal :=
  match order with
  | .packet p => whenDue ((packetLead p).1 == 0x024) s (s.receiveTlv p)
  | .bilrok odi range writes =>
    whenDue (s.tablesFree writes) s ((s.writeTables writes).beginInvalidation odi range .firmware)
/-- SPDM: a packet led by field 0x030. -/
def execSpdm (p : TlvPacket) (s : State) : Host.Outcome State Fault Refusal :=
  whenDue ((packetLead p).1 == 0x030) s (s.receiveTlv p)
/-- COUNTER_READ: a packet led by field 0x040. -/
def execCounterRead (p : TlvPacket) (s : State) : Host.Outcome State Fault Refusal :=
  whenDue ((packetLead p).1 == 0x040) s (s.receiveTlv p)
/-- CRASH_RECORD_READ: a packet led by field 0x041. -/
def execCrashRecordRead (p : TlvPacket) (s : State) : Host.Outcome State Fault Refusal :=
  whenDue ((packetLead p).1 == 0x041) s (s.receiveTlv p)
/-- IMAGE_CHUNK: a packet led by field 0x050. -/
def execImageChunk (p : TlvPacket) (s : State) : Host.Outcome State Fault Refusal :=
  whenDue ((packetLead p).1 == 0x050) s (s.receiveTlv p)
/-- HAND_OVER_BEGIN: a packet led by field 0x051 with value 1, or with one that is neither 2 nor 3 and is rejected. -/
def execHandOverBegin (p : TlvPacket) (s : State) : Host.Outcome State Fault Refusal :=
  whenDue ((packetLead p).1 == 0x051 && (packetLead p).2 != [2] && (packetLead p).2 != [3]) s (s.receiveTlv p)
/-- HAND_OVER_COMMIT: a packet led by field 0x051 with value 2. -/
def execHandOverCommit (p : TlvPacket) (s : State) : Host.Outcome State Fault Refusal :=
  whenDue ((packetLead p) == (0x051, [2])) s (s.receiveTlv p)
/-- HAND_OVER_CANCEL: a packet led by field 0x051 with value 3. -/
def execHandOverCancel (p : TlvPacket) (s : State) : Host.Outcome State Fault Refusal :=
  whenDue ((packetLead p) == (0x051, [3])) s (s.receiveTlv p)

/-! ### The pod plane (R236, R237, R239) -/

/-- The bytes a request moves. -/
def peerSize : PeerOp → Nat
  | .read n => n
  | .write data => data.length
  | .atomic _ n _ _ => n
/-- The request is one that this device performs: 1 to 256 bytes of its memory, or an aligned atomic of R236. -/
def reqOk (r : PeerReq) : Bool :=
  let n := (peerSize r.op)
  let fits := 0 < n && n ≤ 256 && r.pa + n ≤ Config.dramBytes
  match r.op with
  | .atomic op n _ _ => fits && (n == 4 || n == 8) && r.pa % n == 0 && 0x19 ≤ op.toNat && op.toNat ≤ 0x20
  | _ => fits
/-- The release that a peer's metadata makes; its source core is an agent of the pod (R237, log 59). -/
def reqRelease (r : PeerReq) : Option Release :=
  match r.info with
  | some (order, scope, core) =>
    if order = 2 || order = 3 then some { core := peerAgent r.peer core, ctx := 0, isEngine := false, scope := scope } else none
  | none => none

/-- Act on memory line by line in ascending order, as they arrive at the ports: state, bytes found, poison, and the
release recorded for the first line that has one. -/
def State.peerActs (s : State) (odi rank : Nat) (rel : Option Release) :
    List (Nat × Act) → State × List Byte × Bool × Option Release
  | [] => (s, [], false, none)
  | (pa, a) :: rest =>
    let r := (s.arriveAt (.channel (channelOf pa)) rank).actDram odi pa a false rel
    let q := r.1.peerActs odi rank rel rest
    (q.1, r.2.1 ++ q.2.1, r.2.2.1 || q.2.2.1, match r.2.2.2 with | some x => some x | none => q.2.2.2)
/-- Pieces of a range that end at line boundaries: address, offset, length. -/
def peerPieces : Nat → Nat → Nat → Nat → List (Nat × Nat × Nat)
  | 0, _, _, _ => []
  | fuel + 1, pa, off, n =>
    if n = 0 then []
    else
      let k := min n (64 - pa % 64)
      (pa, off, k) :: peerPieces fuel (pa + k) (off + k) (n - k)
/-- What a request does, line by line. -/
def reqActs (r : PeerReq) : List (Nat × Act) :=
  let pieces := peerPieces 6 r.pa 0 (peerSize r.op)
  match r.op with
  | .read _ => pieces.map fun p => (p.1, .read p.2.2)
  | .write data => pieces.map fun p => (p.1, .write ((data.drop p.2.1).take p.2.2) [])
  | .atomic op n v e => [(r.pa, .atomic op.toNat n v e)]

/-- What a peer's acquire takes of a recorded release, with the home's half of the check: the source core is its reader
(R85, R237). -/
def State.reqCheck (s : State) (r : PeerReq) (rel : Option Release) : Option (Release × Bool) :=
  match r.info with
  | some (order, _, core) =>
    if order = 1 || order = 3 then
      rel.map fun q => (q, s.inScope q.scope q.core q.ctx q.isEngine (peerAgent r.peer core) 0)
    else none
  | none => none

/-- PEER_REQUEST: performed at its home under the peer's domain when the homes' ports serve it, then completed; an
isolated peer's request, or one this device does not perform, has an error completion, a posted one no completion. A
completion takes a slot of its port's send window (R172). -/
def execPeerRequest (r : PeerReq) (s : State) : Host.Outcome State Fault Refusal :=
  let p := s.peer r.peer
  let done := fun (s : State) (data : List Byte) (poison error : Bool) (rel : Option (Release × Bool)) =>
    if r.posted then s
    else (s.send (.peer r.peer) (.completion data poison error rel)).takeSlots .completion s.nextNum [16 + r.peer % 8]
  let rank := peerRank r.peer
  if p.isolated || !reqOk r then .next (done s [] false true none)
  else if (reqActs r).any fun a => !s.portFree (.channel (channelOf a.1)) rank then .next s
  else
    let q := s.peerActs p.odi rank (reqRelease r) (reqActs r)
    match r.op with
    | .write _ => .next (done q.1 [] false false none)
    | _ => .next (done q.1 q.2.1 q.2.2.1 false (s.reqCheck r q.2.2.2))

/-- What is known of an agent that a peer's completion names as a releaser: a core of this device or of a pod device; the
context is not among the metadata (R85, R237, log 59). -/
def peerRelease (r : Nat × BitVec 4 × Bool) : Release × Bool :=
  ({ core := r.1, ctx := 0, isEngine := false, scope := r.2.1 }, r.2.2)
/-- The peer that an answer comes from has been heard (R239). -/
def answeringPeer : PeerAnswer → Nat
  | .data n _ _ _ | .error n | .credit n => n
/-- PEER_COMPLETION: a peer has performed a request, and answers with the data, which may be poisoned, and the release it
found; an error gives poisoned zeros and drops what was posted (log 33). A completion whose request has been completed
already is discarded and counted; a credit completes nothing. The peer has been heard in each case (R85, R236, R239). -/
def execPeerCompletion (id : Nat) (answer : PeerAnswer) (s : State) : Host.Outcome State Fault Refusal :=
  let own := fun (p : Packet) => p.id == id && p.home == .peer (answeringPeer answer)
  let s := s.modPeer (answeringPeer answer) fun r => { r with heard := s.cycle }
  match answer with
  | .credit _ => .next s
  | a =>
    match s.net.find? own with
    | none => .next (s.count Count.lateCompletion 0)
    | some p =>
      let t := { s with net := s.net.filter (·.id != id) }.leaveSlots .request id
      let size := p.act.size
      match a with
      | .data _ data poison release =>
        let bs := if p.op.isSome then (data ++ List.replicate size 0).take size else []
        .next (t.answerWith p .done bs poison (release.map peerRelease))
      | _ =>
        let t := if p.op.isSome then t else t.count Count.droppedWrite (homeIndex p.home)
        .next (t.answerWith p .dropped (if p.op.isSome then List.replicate size 0 else []) true none)

/-- The copy of an engine's packet to the peer ends with status 7. -/
def State.failCopy (s : State) (p : Packet) : State :=
  if p.engine then s.modRun p.core (p.ctx - 11) fun r => r.fail 7 else s

/-- PEER_ISOLATION: requests have been outstanding for 50,000 cycles without a sign of the peer. Each ends, and the cores
that had one are told (R151, R239). -/
def execPeerIsolation (n : Nat) (s : State) : Host.Outcome State Fault Refusal :=
  let out := s.net.filter fun p => p.home == .peer n
  let due := out != [] && !(s.peer n).isolated && decide ((s.peer n).heard + 50000 ≤ s.cycle)
  let s' := s.modPeer n fun r => { r with isolated := true }
  let s' := out.foldl (init := s') fun s p => (s.failCopy p).cutOff p
  let cores := ((out.map (·.core)).filter (· < Config.coreCount)).eraseDups
  whenDue due s (cores.foldl (init := s') fun s c =>
    s.notify c (BitVec.ofNat 64 (2 + 3 * 2 ^ 28)) (BitVec.ofNat 64 n))

/-! ### The firmware column (R240, R243) -/

/-- A crash record (Table 16.8) with a slot sequence number. -/
def State.crashRecord (s : State) (c : Nat) (cause : Nat) : List Byte :=
  let f := s.firmware
  let k := s.core c
  let headers := Tab.get [] f.headers c
  let regs := (span 0 32).flatMap fun n => leBytes 8 ((k.ctx 0).readG n).bits.toNat
  let body := leBytes 8 0x4C56394352415348 ++ leBytes 4 1 ++ leBytes 4 c ++ leBytes 8 cause ++ leBytes 8 k.tpc.toNat ++
    leBytes 8 k.tval.toNat ++ leBytes 8 (Config.firmwareVersion f.running).toNat ++
    sha384 f.running ++ regs ++
    headers.flatMap (fun h => leBytes 4 h.toNat) ++ List.replicate (64 - 4 * headers.length) 0 ++ leBytes 8 s.cycle ++
    leBytes 4 f.boot.toNat ++ leBytes 4 f.crashSeq.toNat ++ List.replicate 3656 0
  body ++ leBytes 8 (crc64 0 body).toNat

/-- The core's role fails, with a cause: a crash record, a spare, a notice; a role that no core holds puts the device into
firmware-only service. -/
def State.failRole (s : State) (c cause : Nat) : State :=
  let f := s.firmware
  let r := f.role c
  let roles := Tab.put f.roles c 0
  let roles := match (f.withRole 7).filter (· != c) with
    | spare :: _ => if r = 7 then roles else Tab.put roles spare r
    | [] => roles
  let slot := f.crashNext
  let g := { f with roles := roles, crashNext := (slot + 1) % 256, crashSeq := f.crashSeq + 1 }
  let g := { g with service := g.service && (r == 7 || g.withRole r != []) }
  let clean := (span (crashAt slot / 64) 64).foldl (init := s.dramBad) fun m l => Tab.set false m l false
  ({ s with firmware := g, dram := s.dram.write (crashAt slot) (s.crashRecord c cause), dramBad := clean }).noticeHosts
    [outField 0x041 (leBytes 1 r ++ leBytes 2 c ++ leBytes 1 slot)]

/-- WATCHDOG_EXPIRY: a role fails when the watchdog of its core expires or a trap of the core is not resumed, once the
stack that takes the crash record serves accesses (R247); or Bilrok restarts the watchdog. -/
def execWatchdogExpiry (move : RoleMove) (s : State) : Host.Outcome State Fault Refusal :=
  let f := s.firmware
  let c := move.core
  let held := s.inColumn c && f.role c != 0
  let fails := held && !s.channelParked (crashAt f.crashNext)
  match move.what with
  | .expired => whenDue (fails && decide (Tab.get 0 f.dogs c + f.column.watchdog ≤ s.cycle)) s (s.failRole c 0xFF)
  | .trapped cause pc value =>
    let t := s.modCore c fun k => { k with tcause := cause, tpc := pc, tval := value }
    whenDue fails s (t.failRole c cause.toNat)
  | .restarted => whenDue held s (s.modFirmware fun f => { f with dogs := Tab.set 0 f.dogs c s.cycle })

/-! ### Resets and tables (R226, R240, R246) -/

/-- Apply the fence table: listed classes are cleared, killed cores stay killed. -/
def State.applyFences (s : State) (entries : List FenceEntry) : State :=
  entries.foldl (init := s) fun s e =>
    let s := s.clearClasses e.core e.classes
    let s := if e.killed && (s.core e.core).part.isSome then s.stopTask e.core else s
    if e.killed then s.modCore e.core fun k => { k with killed := true, cap := 0 } else s

/-- HOST_TABLE_SUPPLY: a signed, valid table that the device waits for is applied, and service resumes when none is
missing. -/
def execHostTableSupply (t : HostTable) (s : State) : Host.Outcome State Fault Refusal :=
  let resume := fun (s : State) => s.modFirmware fun f => { f with service := f.columnOk && f.fencesOk }
  match t with
  | .fences entries signed =>
    whenDue (signed && entries.length ≤ 8192 && entries.all (fun e => decide (e.core < Config.coreCount)) &&
        !s.firmware.fencesOk) s
      (resume ((s.modFirmware fun f => { f with fences := entries, fencesOk := true }).applyFences entries))
  | .column table signed =>
    whenDue (signed && columnValid table && (!s.firmware.columnOk || !s.firmware.service)) s
      (resume (s.modFirmware fun f => { f with column := table, flash := table, columnOk := true, roles := [] }))

/-- The firmware after a reset: tables of flash are verified and applied; nothing of a hand-over is left. -/
def Firmware.reboot (f : Firmware) (columnVerified fencesVerified : Bool) : Firmware :=
  let fresh : Firmware := {}
  let columnOk := columnVerified && columnValid f.flash
  { fresh with column := if columnOk then f.flash else fresh.column, flash := f.flash, columnOk := columnOk,
               fences := f.fences, fencesOk := fencesVerified, service := columnOk && fencesVerified, boot := f.boot + 1,
               running := f.running, hosts := f.hosts, selfTestPeriod := f.selfTestPeriod }

/-- A reset of everything but flash, the model's own numbering and what a caller puts back. Whether a table's signature
verifies is free (log 52). -/
def State.reboot (s : State) : State :=
  let a := s.freeBool
  let b := a.2.freeBool
  let f := s.firmware.reboot a.1 b.1
  let t := { State.reset with agenda := s.agenda, freeCtr := b.2.freeCtr, nextNum := s.nextNum, firmware := f }
  if f.fencesOk then t.applyFences f.fences else t

/-- POWER_ON_RESET: the stacks lose their contents, and the crash region with them. -/
def execPowerOnReset (s : State) : Host.Outcome State Fault Refusal := .next s.reboot

/-- WARM_RESET: the stacks keep their contents in self-refresh, and the crash region is preserved. -/
def execWarmReset (s : State) : Host.Outcome State Fault Refusal :=
  let t := s.reboot
  let f := { t.firmware with crashNext := s.firmware.crashNext, crashSeq := s.firmware.crashSeq }
  .next { t with dram := s.dram, dramBad := s.dramBad, owners := s.owners, releases := s.releases, dramStacks := s.dramStacks,
                 firmware := f }

/-! ### A word that is no instruction (R134) -/

/-- ILLEGAL_INSTRUCTION: the word raises illegal instruction at issue and changes nothing else. -/
def execIllegalInstruction (word : BitVec 32) (wide : Bool) (s : State) : Host.Outcome State Fault Refusal :=
  issue (.illegalInstruction word wide) s fun _ _ => .trap 0x01 0 (word.setWidth 64)

end Sys2Proof.Machine
end

