-- ==== Sys2Proof/Machine/Dispatch.lean ====
section
/-! DEFINITION. The meaning of every row of the opcode table, one arm per constructor. -/
namespace Sys2Proof.Machine

def exec (i : Instr) (s : State) : Host.Outcome State Fault Refusal :=
  match i with
  | .add f0 f1 f2 f3 f4 => Sys2Proof.Machine.execAdd f0 f1 f2 f3 f4 s
  | .addG16 f0 f1 => Sys2Proof.Machine.execAddG16 f0 f1 s
  | .addV16 f0 f1 => Sys2Proof.Machine.execAddV16 f0 f1 s
  | .sub f0 f1 f2 f3 f4 => Sys2Proof.Machine.execSub f0 f1 f2 f3 f4 s
  | .subG16 f0 f1 => Sys2Proof.Machine.execSubG16 f0 f1 s
  | .mul f0 f1 f2 f3 f4 => Sys2Proof.Machine.execMul f0 f1 f2 f3 f4 s
  | .mulV16 f0 f1 => Sys2Proof.Machine.execMulV16 f0 f1 s
  | .mulh f0 f1 f2 f3 f4 => Sys2Proof.Machine.execMulh f0 f1 f2 f3 f4 s
  | .and f0 f1 f2 f3 f4 => Sys2Proof.Machine.execAnd f0 f1 f2 f3 f4 s
  | .andG16 f0 f1 => Sys2Proof.Machine.execAndG16 f0 f1 s
  | .or f0 f1 f2 f3 f4 => Sys2Proof.Machine.execOr f0 f1 f2 f3 f4 s
  | .orG16 f0 f1 => Sys2Proof.Machine.execOrG16 f0 f1 s
  | .xor f0 f1 f2 f3 f4 => Sys2Proof.Machine.execXor f0 f1 f2 f3 f4 s
  | .xorG16 f0 f1 => Sys2Proof.Machine.execXorG16 f0 f1 s
  | .andn f0 f1 f2 f3 f4 => Sys2Proof.Machine.execAndn f0 f1 f2 f3 f4 s
  | .shl f0 f1 f2 f3 f4 => Sys2Proof.Machine.execShl f0 f1 f2 f3 f4 s
  | .shlG16 f0 f1 => Sys2Proof.Machine.execShlG16 f0 f1 s
  | .shr f0 f1 f2 f3 f4 => Sys2Proof.Machine.execShr f0 f1 f2 f3 f4 s
  | .shrG16 f0 f1 => Sys2Proof.Machine.execShrG16 f0 f1 s
  | .sar f0 f1 f2 f3 f4 => Sys2Proof.Machine.execSar f0 f1 f2 f3 f4 s
  | .rot f0 f1 f2 f3 f4 => Sys2Proof.Machine.execRot f0 f1 f2 f3 f4 s
  | .min f0 f1 f2 f3 f4 => Sys2Proof.Machine.execMin f0 f1 f2 f3 f4 s
  | .max f0 f1 f2 f3 f4 => Sys2Proof.Machine.execMax f0 f1 f2 f3 f4 s
  | .absd f0 f1 f2 f3 f4 => Sys2Proof.Machine.execAbsd f0 f1 f2 f3 f4 s
  | .neg f0 f1 f2 => Sys2Proof.Machine.execNeg f0 f1 f2 s
  | .div f0 f1 f2 f3 f4 => Sys2Proof.Machine.execDiv f0 f1 f2 f3 f4 s
  | .rem f0 f1 f2 f3 f4 => Sys2Proof.Machine.execRem f0 f1 f2 f3 f4 s
  | .sqrt f0 f1 => Sys2Proof.Machine.execSqrt f0 f1 s
  | .rsq f0 f1 => Sys2Proof.Machine.execRsq f0 f1 s
  | .fma f0 f1 f2 f3 f4 => Sys2Proof.Machine.execFma f0 f1 f2 f3 f4 s
  | .fms f0 f1 f2 f3 f4 => Sys2Proof.Machine.execFms f0 f1 f2 f3 f4 s
  | .dot f0 f1 f2 => Sys2Proof.Machine.execDot f0 f1 f2 s
  | .scale f0 f1 f2 f3 => Sys2Proof.Machine.execScale f0 f1 f2 f3 s
  | .ceq f0 f1 f2 f3 f4 => Sys2Proof.Machine.execCeq f0 f1 f2 f3 f4 s
  | .cne f0 f1 f2 f3 f4 => Sys2Proof.Machine.execCne f0 f1 f2 f3 f4 s
  | .clt f0 f1 f2 f3 f4 => Sys2Proof.Machine.execClt f0 f1 f2 f3 f4 s
  | .cle f0 f1 f2 f3 f4 => Sys2Proof.Machine.execCle f0 f1 f2 f3 f4 s
  | .clz f0 f1 f2 => Sys2Proof.Machine.execClz f0 f1 f2 s
  | .ffs f0 f1 f2 => Sys2Proof.Machine.execFfs f0 f1 f2 s
  | .popc f0 f1 f2 => Sys2Proof.Machine.execPopc f0 f1 f2 s
  | .brev f0 f1 f2 => Sys2Proof.Machine.execBrev f0 f1 f2 s
  | .cvt f0 f1 f2 => Sys2Proof.Machine.execCvt f0 f1 f2 s
  | .cvtf f0 f1 f2 => Sys2Proof.Machine.execCvtf f0 f1 f2 s
  | .tag f0 f1 f2 => Sys2Proof.Machine.execTag f0 f1 f2 s
  | .shuf f0 f1 f2 f3 => Sys2Proof.Machine.execShuf f0 f1 f2 f3 s
  | .bcast f0 f1 f2 f3 => Sys2Proof.Machine.execBcast f0 f1 f2 f3 s
  | .slide f0 f1 f2 f3 => Sys2Proof.Machine.execSlide f0 f1 f2 f3 s
  | .zip f0 f1 f2 => Sys2Proof.Machine.execZip f0 f1 f2 s
  | .mov f0 f1 f2 => Sys2Proof.Machine.execMov f0 f1 f2 s
  | .movG16 f0 f1 => Sys2Proof.Machine.execMovG16 f0 f1 s
  | .movV16 f0 f1 => Sys2Proof.Machine.execMovV16 f0 f1 s
  | .mvs f0 f1 f2 f3 => Sys2Proof.Machine.execMvs f0 f1 f2 f3 s
  | .mvv f0 f1 f2 f3 f4 => Sys2Proof.Machine.execMvv f0 f1 f2 f3 f4 s
  | .sel f0 f1 f2 => Sys2Proof.Machine.execSel f0 f1 f2 s
  | .rsum f0 f1 => Sys2Proof.Machine.execRsum f0 f1 s
  | .rmax f0 f1 => Sys2Proof.Machine.execRmax f0 f1 s
  | .rmin f0 f1 => Sys2Proof.Machine.execRmin f0 f1 s
  | .ror f0 f1 => Sys2Proof.Machine.execRor f0 f1 s
  | .kand f0 f1 f2 => Sys2Proof.Machine.execKand f0 f1 f2 s
  | .kor f0 f1 f2 => Sys2Proof.Machine.execKor f0 f1 f2 s
  | .knot f0 f1 => Sys2Proof.Machine.execKnot f0 f1 s
  | .kuse f0 => Sys2Proof.Machine.execKuse f0 s
  | .exp2 f0 f1 => Sys2Proof.Machine.execExp2 f0 f1 s
  | .log2 f0 f1 => Sys2Proof.Machine.execLog2 f0 f1 s
  | .rcp f0 f1 => Sys2Proof.Machine.execRcp f0 f1 s
  | .tanh f0 f1 => Sys2Proof.Machine.execTanh f0 f1 s
  | .qand f0 f1 f2 => Sys2Proof.Machine.execQand f0 f1 f2 s
  | .qor f0 f1 f2 => Sys2Proof.Machine.execQor f0 f1 f2 s
  | .qandn f0 f1 f2 => Sys2Proof.Machine.execQandn f0 f1 f2 s
  | .qxor f0 f1 f2 => Sys2Proof.Machine.execQxor f0 f1 f2 s
  | .qcnt f0 f1 => Sys2Proof.Machine.execQcnt f0 f1 s
  | .qidx f0 f1 f2 => Sys2Proof.Machine.execQidx f0 f1 f2 s
  | .qmark f0 f1 => Sys2Proof.Machine.execQmark f0 f1 s
  | .qclr f0 f1 => Sys2Proof.Machine.execQclr f0 f1 s
  | .vgth f0 f1 f2 => Sys2Proof.Machine.execVgth f0 f1 f2 s
  | .vsct f0 f1 f2 => Sys2Proof.Machine.execVsct f0 f1 f2 s
  | .addi f0 f1 f2 => Sys2Proof.Machine.execAddi f0 f1 f2 s
  | .addiG16 f0 f1 => Sys2Proof.Machine.execAddiG16 f0 f1 s
  | .andi f0 f1 f2 => Sys2Proof.Machine.execAndi f0 f1 f2 s
  | .lit f0 f1 => Sys2Proof.Machine.execLit f0 f1 s
  | .litG16 f0 f1 => Sys2Proof.Machine.execLitG16 f0 f1 s
  | .lith f0 f1 => Sys2Proof.Machine.execLith f0 f1 s
  | .ld f0 f1 f2 f3 => Sys2Proof.Machine.execLd f0 f1 f2 f3 s
  | .ldG16 f0 f1 => Sys2Proof.Machine.execLdG16 f0 f1 s
  | .st f0 f1 f2 f3 => Sys2Proof.Machine.execSt f0 f1 f2 f3 s
  | .stG16 f0 f1 => Sys2Proof.Machine.execStG16 f0 f1 s
  | .vld f0 f1 f2 f3 => Sys2Proof.Machine.execVld f0 f1 f2 f3 s
  | .vst f0 f1 f2 f3 => Sys2Proof.Machine.execVst f0 f1 f2 f3 s
  | .aadd f0 f1 f2 f3 f4 => Sys2Proof.Machine.execAadd f0 f1 f2 f3 f4 s
  | .aand f0 f1 f2 f3 f4 => Sys2Proof.Machine.execAand f0 f1 f2 f3 f4 s
  | .aor f0 f1 f2 f3 f4 => Sys2Proof.Machine.execAor f0 f1 f2 f3 f4 s
  | .axor f0 f1 f2 f3 f4 => Sys2Proof.Machine.execAxor f0 f1 f2 f3 f4 s
  | .amin f0 f1 f2 f3 f4 => Sys2Proof.Machine.execAmin f0 f1 f2 f3 f4 s
  | .amax f0 f1 f2 f3 f4 => Sys2Proof.Machine.execAmax f0 f1 f2 f3 f4 s
  | .axch f0 f1 f2 f3 f4 => Sys2Proof.Machine.execAxch f0 f1 f2 f3 f4 s
  | .acas f0 f1 f2 f3 f4 => Sys2Proof.Machine.execAcas f0 f1 f2 f3 f4 s
  | .afadd f0 f1 f2 f3 f4 => Sys2Proof.Machine.execAfadd f0 f1 f2 f3 f4 s
  | .avadd f0 f1 f2 f3 => Sys2Proof.Machine.execAvadd f0 f1 f2 f3 s
  | .ldaq f0 f1 f2 f3 => Sys2Proof.Machine.execLdaq f0 f1 f2 f3 s
  | .strl f0 f1 f2 f3 => Sys2Proof.Machine.execStrl f0 f1 f2 f3 s
  | .fence f0 f1 => Sys2Proof.Machine.execFence f0 f1 s
  | .waita f0 f1 f2 f3 f4 => Sys2Proof.Machine.execWaita f0 f1 f2 f3 f4 s
  | .bz f0 f1 => Sys2Proof.Machine.execBz f0 f1 s
  | .bzG16 f0 f1 => Sys2Proof.Machine.execBzG16 f0 f1 s
  | .bnz f0 f1 => Sys2Proof.Machine.execBnz f0 f1 s
  | .bnzG16 f0 f1 => Sys2Proof.Machine.execBnzG16 f0 f1 s
  | .bany f0 f1 => Sys2Proof.Machine.execBany f0 f1 s
  | .bnone f0 f1 => Sys2Proof.Machine.execBnone f0 f1 s
  | .loop f0 f1 => Sys2Proof.Machine.execLoop f0 f1 s
  | .jtab f0 f1 => Sys2Proof.Machine.execJtab f0 f1 s
  | .br f0 => Sys2Proof.Machine.execBr f0 s
  | .br16 f0 => Sys2Proof.Machine.execBr16 f0 s
  | .call f0 => Sys2Proof.Machine.execCall f0 s
  | .jr f0 f1 => Sys2Proof.Machine.execJr f0 f1 s
  | .ret => Sys2Proof.Machine.execRet s
  | .ret16 => Sys2Proof.Machine.execRet16 s
  | .leave => Sys2Proof.Machine.execLeave s
  | .trap f0 => Sys2Proof.Machine.execTrap f0 s
  | .rett f0 => Sys2Proof.Machine.execRett f0 s
  | .bkpt f0 => Sys2Proof.Machine.execBkpt f0 s
  | .nop => Sys2Proof.Machine.execNop s
  | .nop16 => Sys2Proof.Machine.execNop16 s
  | .hstart f0 f1 => Sys2Proof.Machine.execHstart f0 f1 s
  | .hexit => Sys2Proof.Machine.execHexit s
  | .hexit16 => Sys2Proof.Machine.execHexit16 s
  | .hwait f0 => Sys2Proof.Machine.execHwait f0 s
  | .live f0 f1 => Sys2Proof.Machine.execLive f0 f1 s
  | .gang f0 => Sys2Proof.Machine.execGang f0 s
  | .ungang => Sys2Proof.Machine.execUngang s
  | .mfs f0 f1 => Sys2Proof.Machine.execMfs f0 f1 s
  | .mts f0 f1 => Sys2Proof.Machine.execMts f0 f1 s
  | .chkerr f0 => Sys2Proof.Machine.execChkerr f0 s
  | .tnext f0 => Sys2Proof.Machine.execTnext f0 s
  | .tend f0 => Sys2Proof.Machine.execTend f0 s
  | .tend16 f0 => Sys2Proof.Machine.execTend16 f0 s
  | .pair => Sys2Proof.Machine.execPair s
  | .unpair => Sys2Proof.Machine.execUnpair s
  | .extl f0 f1 => Sys2Proof.Machine.execExtl f0 f1 s
  | .extr f0 f1 => Sys2Proof.Machine.execExtr f0 f1 s
  | .halloc f0 f1 f2 => Sys2Proof.Machine.execHalloc f0 f1 f2 s
  | .hfree f0 => Sys2Proof.Machine.execHfree f0 s
  | .msend f0 f1 => Sys2Proof.Machine.execMsend f0 f1 s
  | .mwait => Sys2Proof.Machine.execMwait s
  | .mwait16 => Sys2Proof.Machine.execMwait16 s
  | .mtake f0 => Sys2Proof.Machine.execMtake f0 s
  | .mtake16 f0 => Sys2Proof.Machine.execMtake16 f0 s
  | .cpyset f0 f1 => Sys2Proof.Machine.execCpyset f0 f1 s
  | .cpygo f0 => Sys2Proof.Machine.execCpygo f0 s
  | .cpyst f0 f1 => Sys2Proof.Machine.execCpyst f0 f1 s
  | .eqf f0 => Sys2Proof.Machine.execEqf f0 s
  | .cbinit f0 f1 f2 => Sys2Proof.Machine.execCbinit f0 f1 f2 s
  | .cbacq f0 f1 => Sys2Proof.Machine.execCbacq f0 f1 s
  | .cbcom f0 => Sys2Proof.Machine.execCbcom f0 s
  | .cbwait f0 f1 => Sys2Proof.Machine.execCbwait f0 f1 s
  | .cbrel f0 => Sys2Proof.Machine.execCbrel f0 s
  | .mma f0 f1 f2 => Sys2Proof.Machine.execMma f0 f1 f2 s
  | .mmag f0 f1 f2 => Sys2Proof.Machine.execMmag f0 f1 f2 s
  | .mcommit f0 => Sys2Proof.Machine.execMcommit f0 s
  | .mwaitb f0 => Sys2Proof.Machine.execMwaitb f0 s
  | .tld f0 f1 => Sys2Proof.Machine.execTld f0 f1 s
  | .tldt f0 f1 => Sys2Proof.Machine.execTldt f0 f1 s
  | .tst f0 f1 => Sys2Proof.Machine.execTst f0 f1 s
  | .trd f0 f1 f2 => Sys2Proof.Machine.execTrd f0 f1 f2 s
  | .twr f0 f1 f2 => Sys2Proof.Machine.execTwr f0 f1 f2 s
  | .tzero f0 => Sys2Proof.Machine.execTzero f0 s
  | .barset f0 f1 f2 => Sys2Proof.Machine.execBarset f0 f1 f2 s
  | .barwait f0 => Sys2Proof.Machine.execBarwait f0 s
  | .bararv f0 => Sys2Proof.Machine.execBararv f0 s
  | .xmit f0 f1 f2 => Sys2Proof.Machine.execXmit f0 f1 f2 s
  | .intake f0 f1 f2 => Sys2Proof.Machine.execIntake f0 f1 f2 s
  | .xchg f0 f1 => Sys2Proof.Machine.execXchg f0 f1 s
  | .grpset f0 f1 => Sys2Proof.Machine.execGrpset f0 f1 s
  | .mcast f0 f1 => Sys2Proof.Machine.execMcast f0 f1 s
  | .qld f0 f1 => Sys2Proof.Machine.execQld f0 f1 s
  | .qst f0 f1 => Sys2Proof.Machine.execQst f0 f1 s
  | .meet f0 => Sys2Proof.Machine.execMeet f0 s
  | .meetq f0 f1 => Sys2Proof.Machine.execMeetq f0 f1 s
  | .split f0 f1 f2 => Sys2Proof.Machine.execSplit f0 f1 f2 s
  | .cfcfg f0 => Sys2Proof.Machine.execCfcfg f0 s
  | .cvdone => Sys2Proof.Machine.execCvdone s
  | .cvst f0 f1 => Sys2Proof.Machine.execCvst f0 f1 s
  | .helperTrapDelivery f0 => Sys2Proof.Machine.execHelperTrapDelivery f0 s
  | .taskRedelivery f0 => Sys2Proof.Machine.execTaskRedelivery f0 s
  | .gangForm f0 => Sys2Proof.Machine.execGangForm f0 s
  | .tnextTake f0 => Sys2Proof.Machine.execTnextTake f0 s
  | .taskDelivery f0 => Sys2Proof.Machine.execTaskDelivery f0 s
  | .staticHandleFree f0 => Sys2Proof.Machine.execStaticHandleFree f0 s
  | .coreAssignment f0 f1 f2 f3 => Sys2Proof.Machine.execCoreAssignment f0 f1 f2 f3 s
  | .partitionClear f0 f1 => Sys2Proof.Machine.execPartitionClear f0 f1 s
  | .preemption f0 => Sys2Proof.Machine.execPreemption f0 s
  | .preemptionResume f0 => Sys2Proof.Machine.execPreemptionResume f0 s
  | .uncorrectableError f0 => Sys2Proof.Machine.execUncorrectableError f0 s
  | .homeAccessPerform f0 => Sys2Proof.Machine.execHomeAccessPerform f0 s
  | .accessReply f0 => Sys2Proof.Machine.execAccessReply f0 s
  | .waitaTimeout f0 f1 => Sys2Proof.Machine.execWaitaTimeout f0 f1 s
  | .waitaPoll f0 f1 => Sys2Proof.Machine.execWaitaPoll f0 f1 s
  | .mailboxArrival f0 => Sys2Proof.Machine.execMailboxArrival f0 s
  | .copyStart f0 f1 => Sys2Proof.Machine.execCopyStart f0 f1 s
  | .copyCompletion f0 f1 => Sys2Proof.Machine.execCopyCompletion f0 f1 s
  | .cbacqGrant f0 f1 => Sys2Proof.Machine.execCbacqGrant f0 f1 s
  | .cbwaitGrant f0 f1 => Sys2Proof.Machine.execCbwaitGrant f0 f1 s
  | .arbiterGrant f0 => Sys2Proof.Machine.execArbiterGrant f0 s
  | .matrixEntryComplete f0 => Sys2Proof.Machine.execMatrixEntryComplete f0 s
  | .batchComplete f0 => Sys2Proof.Machine.execBatchComplete f0 s
  | .barrierArrivalSend f0 f1 => Sys2Proof.Machine.execBarrierArrivalSend f0 f1 s
  | .barrierArrivalReceive f0 f1 => Sys2Proof.Machine.execBarrierArrivalReceive f0 f1 s
  | .barrierRelease f0 f1 => Sys2Proof.Machine.execBarrierRelease f0 f1 s
  | .exchangePhaseEnd f0 => Sys2Proof.Machine.execExchangePhaseEnd f0 s
  | .xmitDrive f0 => Sys2Proof.Machine.execXmitDrive f0 s
  | .exchangeCollision => Sys2Proof.Machine.execExchangeCollision s
  | .xmitArrival f0 => Sys2Proof.Machine.execXmitArrival f0 s
  | .intakeLatch f0 => Sys2Proof.Machine.execIntakeLatch f0 s
  | .xchgExchange f0 => Sys2Proof.Machine.execXchgExchange f0 s
  | .meetArrival f0 => Sys2Proof.Machine.execMeetArrival f0 s
  | .meetqResolve f0 f1 => Sys2Proof.Machine.execMeetqResolve f0 f1 s
  | .grpsetResume f0 f1 => Sys2Proof.Machine.execGrpsetResume f0 f1 s
  | .grpsetTimeout f0 f1 => Sys2Proof.Machine.execGrpsetTimeout f0 f1 s
  | .networkMerge f0 f1 => Sys2Proof.Machine.execNetworkMerge f0 f1 s
  | .deadlockProbe f0 => Sys2Proof.Machine.execDeadlockProbe f0 s
  | .deadlockEscape f0 => Sys2Proof.Machine.execDeadlockEscape f0 s
  | .lossMarker f0 f1 => Sys2Proof.Machine.execLossMarker f0 f1 s
  | .translationWalk f0 => Sys2Proof.Machine.execTranslationWalk f0 s
  | .staAnswer f0 f1 f2 => Sys2Proof.Machine.execStaAnswer f0 f1 f2 s
  | .staRefusal f0 => Sys2Proof.Machine.execStaRefusal f0 s
  | .staTimeout f0 => Sys2Proof.Machine.execStaTimeout f0 s
  | .staInvalidate f0 f1 f2 => Sys2Proof.Machine.execStaInvalidate f0 f1 f2 s
  | .invalidationComplete f0 => Sys2Proof.Machine.execInvalidationComplete f0 s
  | .pairRendezvous f0 => Sys2Proof.Machine.execPairRendezvous f0 s
  | .pairTimeout f0 => Sys2Proof.Machine.execPairTimeout f0 s
  | .pairIntervalCompare f0 => Sys2Proof.Machine.execPairIntervalCompare f0 s
  | .selfTestPeriodic f0 => Sys2Proof.Machine.execSelfTestPeriodic f0 s
  | .rebalance f0 => Sys2Proof.Machine.execRebalance f0 s
  | .priorityAging f0 => Sys2Proof.Machine.execPriorityAging f0 s
  | .clusterWake f0 => Sys2Proof.Machine.execClusterWake f0 s
  | .clusterGate f0 => Sys2Proof.Machine.execClusterGate f0 s
  | .bandStart f0 f1 => Sys2Proof.Machine.execBandStart f0 f1 s
  | .reconstruction f0 f1 f2 => Sys2Proof.Machine.execReconstruction f0 f1 f2 s
  | .controllerUpdate f0 f1 => Sys2Proof.Machine.execControllerUpdate f0 f1 s
  | .launchComplete f0 => Sys2Proof.Machine.execLaunchComplete f0 s
  | .budgetPeriod => Sys2Proof.Machine.execBudgetPeriod s
  | .clNop f0 => Sys2Proof.Machine.execClNop f0 s
  | .clLaunch f0 => Sys2Proof.Machine.execClLaunch f0 s
  | .clCopy f0 => Sys2Proof.Machine.execClCopy f0 s
  | .clWait f0 => Sys2Proof.Machine.execClWait f0 s
  | .clSignal f0 => Sys2Proof.Machine.execClSignal f0 s
  | .clSkipif f0 => Sys2Proof.Machine.execClSkipif f0 s
  | .clJump f0 => Sys2Proof.Machine.execClJump f0 s
  | .clCall f0 => Sys2Proof.Machine.execClCall f0 s
  | .clReturn f0 => Sys2Proof.Machine.execClReturn f0 s
  | .clSetreg f0 => Sys2Proof.Machine.execClSetreg f0 s
  | .kick f0 f1 f2 => Sys2Proof.Machine.execKick f0 f1 f2 s
  | .deltaUpdate f0 f1 => Sys2Proof.Machine.execDeltaUpdate f0 f1 s
  | .deltaDispatch f0 f1 => Sys2Proof.Machine.execDeltaDispatch f0 f1 s
  | .statusRecordWrite f0 => Sys2Proof.Machine.execStatusRecordWrite f0 s
  | .queueConfiguration f0 => Sys2Proof.Machine.execQueueConfiguration f0 s
  | .submission f0 => Sys2Proof.Machine.execSubmission f0 s
  | .budget f0 => Sys2Proof.Machine.execBudget f0 s
  | .peerReadmit f0 => Sys2Proof.Machine.execPeerReadmit f0 s
  | .selfTestOrder f0 => Sys2Proof.Machine.execSelfTestOrder f0 s
  | .fenceCommand f0 => Sys2Proof.Machine.execFenceCommand f0 s
  | .translationInvalidate f0 => Sys2Proof.Machine.execTranslationInvalidate f0 s
  | .spdm f0 => Sys2Proof.Machine.execSpdm f0 s
  | .counterRead f0 => Sys2Proof.Machine.execCounterRead f0 s
  | .crashRecordRead f0 => Sys2Proof.Machine.execCrashRecordRead f0 s
  | .imageChunk f0 => Sys2Proof.Machine.execImageChunk f0 s
  | .handOverBegin f0 => Sys2Proof.Machine.execHandOverBegin f0 s
  | .handOverCommit f0 => Sys2Proof.Machine.execHandOverCommit f0 s
  | .handOverCancel f0 => Sys2Proof.Machine.execHandOverCancel f0 s
  | .peerRequest f0 => Sys2Proof.Machine.execPeerRequest f0 s
  | .peerCompletion f0 f1 => Sys2Proof.Machine.execPeerCompletion f0 f1 s
  | .peerIsolation f0 => Sys2Proof.Machine.execPeerIsolation f0 s
  | .watchdogExpiry f0 => Sys2Proof.Machine.execWatchdogExpiry f0 s
  | .powerOnReset => Sys2Proof.Machine.execPowerOnReset s
  | .warmReset => Sys2Proof.Machine.execWarmReset s
  | .stackPark f0 f1 => Sys2Proof.Machine.execStackPark f0 f1 s
  | .scrubRead f0 f1 => Sys2Proof.Machine.execScrubRead f0 f1 s
  | .illegalInstruction f0 f1 => Sys2Proof.Machine.execIllegalInstruction f0 f1 s
  | .clBadOp f0 => Sys2Proof.Machine.execClBadOp f0 s
  | .postedAccessResponse f0 => Sys2Proof.Machine.execPostedAccessResponse f0 s
  | .ultraEthernetAcknowledgement f0 => Sys2Proof.Machine.execUltraEthernetAcknowledgement f0 s
  | .linkReplay f0 f1 => Sys2Proof.Machine.execLinkReplay f0 f1 s
  | .selfTestCompletion f0 f1 f2 => Sys2Proof.Machine.execSelfTestCompletion f0 f1 f2 s
  | .reEncodeComplete f0 => Sys2Proof.Machine.execReEncodeComplete f0 s
  | .partitionClearComplete f0 => Sys2Proof.Machine.execPartitionClearComplete f0 s
  | .hostTableSupply f0 => Sys2Proof.Machine.execHostTableSupply f0 s

end Sys2Proof.Machine
end

