-- ==== Sys2Proof/Machine/Turn.lean ====
section
/-! DEFINITION. One turn: a context fetches and issues, a gang issues together, Bilrok's handler responds, an event
comes about, or time passes; and the order taken when no turn is given (R15, R25, R26, R96, R109, R123, R367). -/
namespace Sys2Proof.Machine

/-! ### Bilrok's response to a trap (R109, R367) -/

/-- The control context stands at Bilrok's handler with H = 1. -/
def Core.atBilrok (k : Core) : Bool := k.handler && k.bilrok == some (k.ctx 0).pc

/-- The control context goes back to the resident loop when no task is current: every helper ends. Records that SPLIT has
put into the holding queue stay there (log 72). -/
def State.calm (s : State) (c : Nat) : State := ((s.unparkAll c).dropDrive c).modCore c Core.backToLoop

/-- The task ends as reported with error, its point declared final (R367). -/
def State.reportFailed (s : State) (c : Nat) : State :=
  match (s.core c).task with
  | some t => (s.report t true).modCore c Core.endTask
  | none => s

/-- The response to a trap that Bilrok's handler serves (log 11). -/
def State.respond (s : State) (c : Nat) : State :=
  let k := s.core c
  let cause := bitsN k.tcause 7 0
  let members := k.bound c
  let counted := if cause = 3 then s else s.count Count.taskCause (c * 256 + cause)
  match k.task with
  | none => counted.calm c
  | some t =>
    if cause = 3 then
      let cls : BitVec 28 := 1 <<< (k.tval.toNat % 28)
      (members.foldl (init := s) fun s m => s.modCore m fun k => k.queueRedelivery cls).stopTask c
    else if k.stageCoverage s && !k.cvdone && !t.shadow && !s.released 6 c 0 then s
    else (members.foldl (init := counted) State.reportFailed).stopTask c

/-! ### Issue -/

/-- The instruction that a word stands for; a word that stands for none is an illegal instruction (R134). -/
def instrOf (c : Code) : Instr :=
  match decodeCode c with
  | .ok i => i
  | .error _ => .illegalInstruction (BitVec.ofNat 32 c.value.toNat) (c.size == 4)

/-- The followers of a gang stand where their leader stands (log 10). -/
def State.follow (s : State) (lead : Nat) (members : List Nat) : State :=
  let l := s.ctx lead 0
  members.foldl (init := s) fun s m =>
    if m = lead || (s.ctx m 0).wait ≠ .none then s
    else s.modCtx m 0 fun t => { t with pc := l.pc, lp := l.lp, lpd := l.lpd }

/-- A member of the gang has trapped. -/
def State.trapped (s t : State) (m : Nat) : Bool :=
  ((t.core m).handler && !(s.core m).handler) || ((t.core m).killed && !(s.core m).killed)

/-- The context's instruction will issue again: it waits for a walk, or for code or a word of its own. -/
def State.reissues (s : State) (c : Nat) : Bool :=
  match (s.ctx c 0).wait with
  | .walk => true
  | .reply n => match (Tab.get none s.ops n : Option Op).map fun o => o.dest with
    | some (Dest.code _ _) | some (Dest.side _) => true
    | _ => false
  | _ => false

/-- What a member that has only waited may have changed: what it notes of the instruction at its pc, and the stalls of a
budget. -/
def State.sameBut (t s : State) (m : Nat) : Bool :=
  let clear := fun (x : Context) => { x with side := [] }
  { t.modCtx m 0 clear with budgets := s.budgets } = s.modCtx m 0 clear
/-- The gang waits for replies: each member keeps what it would have to take back (R26; log 75). -/
def State.remember (u start : State) (i : Instr) (members : List Nat) : State :=
  let waits := members.any fun m => match (u.ctx m 0).wait with | .reply _ | .waita _ => true | _ => false
  if !waits then u
  else members.foldl (init := u) fun t m => t.modCore m fun k =>
    { k with gang := k.gang.map fun g => { g with before := some ((start.core m).before (u.core m) (dests i)) } }
/-- Every member executes the leader's instruction in rank order. When a member cannot yet, nobody does: it has done
nothing but wait, or count a stall of a budget. When a member traps, nobody executes it, and the others have a gang fault;
of several that would trap, the one of the lowest rank does (R25, R26; log 82). -/
def gangExec (i : Instr) (start : State) : List Nat → State → Host.Outcome State Fault Refusal
  | [], s => .next s
  | m :: rest, s =>
    let s := { s with cur := (m, 0) }
    match exec i s with
    | .next t =>
      if start.trapped t m || t.reissues m then exec i { start with cur := (m, 0) }
      else if t.sameBut s m then .next { start with budgets := t.budgets }
      else gangExec i start rest t
    | r => r

/-- The context could issue in this cycle: it is ready, it has issued neither in this cycle nor in the one before, and
no load holds its next instruction. In a gang all members are asked for the leader's control context (R15). -/
def State.eligible (s : State) (c x : Nat) : Bool :=
  let fit := fun (m : Nat) => s.ready m x && ((s.ctx m x).issued.map fun n => decide (n + 2 ≤ s.cycle)).getD true
  let lead := match (s.core c).gang with
    | some g => x != 0 || g.members.head? == some c
    | none => true
  let members := if x = 0 then (s.core c).gangOf c else [c]
  lead && members.all fit && match (s.fetchAt c x (s.ctx c x).pc).1 with
    | .code code => members.all fun m => !interlocked (instrOf code) { s with cur := (m, x) }
    | .fault .. => true
    | .wait => false
/-- It is the context's turn among the core's: each core issues once in a cycle, and the first eligible context after the
last one that issued comes next (R15). -/
def State.slot (s : State) (c x : Nat) : Bool :=
  let k := s.core c
  k.issued != some s.cycle && ((span 1 11).map fun d => (k.turn + d) % 11).find? (s.eligible c) == some x
/-- The context takes the core's issue slot of this cycle. -/
def State.issuing (s : State) (c x : Nat) : State :=
  (s.modCore c fun k => { k with turn := x, issued := some s.cycle }).modCtx c x fun t => { t with issued := some s.cycle }

/-- A context fetches and issues. -/
def State.issueAlone (s : State) (c x : Nat) : Host.Outcome State Fault Refusal :=
  let s := { s with cur := (c, x) }
  if !s.ready c x then .next s
  else if x == 0 && (s.core c).atBilrok then .next (s.respond c)
  else
    match s.fetchAt c x (s.ctx c x).pc with
    | (.wait, t) => .next t
    | (f, t) =>
      if !s.slot c x then .next s
      else match f with
        | .code code => exec (instrOf code) (t.issuing c x)
        | .fault cause sub tval => .next ((t.issuing c x).trapDrained cause sub tval 4)
        | .wait => .next t

/-- The leader of a gang fetches, and all its members execute, once all of them can. -/
def State.issueGang (s : State) (members : List Nat) : Host.Outcome State Fault Refusal :=
  let lead := members.headD 0
  let all := fun (t : State) => members.foldl (init := t) fun t m => t.issuing m 0
  if !members.all (fun m => s.ready m 0) then .next s
  else if (s.core lead).atBilrok then .next (s.respond lead)
  else
    let s := { s with cur := (lead, 0) }.follow lead members
    match s.fetchAt lead 0 (s.ctx lead 0).pc with
    | (.wait, t) => .next t
    | (f, t) =>
      if !s.slot lead 0 then .next s
      else match f with
        | .fault cause sub tval => .next ((all t).trapDrained cause sub tval 4)
        | .code code =>
          match gangExec (instrOf code) (all t) members (all t) with
          | .next u =>
            let u := u.remember (all t) (instrOf code) members
            .next (if (u.ctx lead 0).wait = .none && (u.core lead).gang.isSome then u.follow lead members else u)
          | r => r
        | .wait => .next t

/-- A turn of a context. A follower's control context has no turn of its own. -/
def State.issueTurn (s : State) (c x : Nat) : Host.Outcome State Fault Refusal :=
  match (s.core c).gang with
  | some g =>
    if x ≠ 0 then s.issueAlone c x else if g.members.head? = some c then s.issueGang g.members else .next s
  | none => s.issueAlone c x

/-- An event sets a chk bit of a context whose CHKERR has issued in this cycle: it would have come first (R277). -/
def State.tooLate (s t : State) : Bool :=
  s.cores.any fun e => e.2.ctxs.any fun x =>
    x.2.chkRead == some s.cycle && (t.ctx e.1 x.1).chk &&& ~~~x.2.chk != 0
/-- An instruction that the spec ties to a cycle has not issued: the control context of a core that a barrier has released
in this cycle, or that is in an exchange phase, can issue (R174, R175). -/
def State.issueDue (s : State) : Bool :=
  s.cores.any fun e => (e.2.phase.isSome || e.2.barriers.any fun b => b.2.freed == some s.cycle) && s.slot e.1 0
/-- How much time may pass: none while something has to come about in this cycle, one cycle while the exchange plane is in
use (R164, R174). -/
def State.mayPass (s : State) (n : Nat) : Nat :=
  if s.planeDue || s.issueDue then 0
  else if s.exchange != [] || s.cores.any fun e => e.2.phase.isSome then min n 1
  else n
/-- Take a turn. An event that would come too late for this cycle comes later. -/
def State.take (s : State) (t : Turn) : Host.Outcome State Fault Refusal :=
  match t with
  | .issue c x => s.issueTurn c x
  | .event i => match exec i s with
    | .next t => .next (if s.tooLate t then s else t)
    | r => r
  | .tick n => let m := s.mayPass n; .next { s.noteBusy (s.cycle + m) with cycle := s.cycle + m }

/-! ### The order when no turn is given (log 5) -/

/-- Events of a core that may be due. -/
def Core.events (k : Core) (c : Nat) (cycle : Nat) : List Instr :=
  let when_ := fun (b : Bool) (i : Instr) => if b then [i] else []
  let queues := k.eqs.flatMap fun q =>
    when_ (q.2.entries != [] && q.2.running.isNone) (.copyStart c ⟨q.1, 0⟩) ++
      ((q.2.running.map (·.todo)).getD []).map (fun n => .copyStart c ⟨q.1, n⟩) ++
      when_ q.2.running.isSome (.copyCompletion c q.1)
  let arrivals := k.barriers.flatMap fun b => when_ (b.2.arrived && !b.2.sent) (.barrierArrivalSend c b.1)
  let contexts := k.ctxs.flatMap fun e => match e.2.wait with
    | .meetq _ _ _ => [.meetqResolve c e.1]
    | .grpset _ _ _ => [.grpsetResume c e.1, .grpsetTimeout c e.1]
    | .pair _ => [.pairRendezvous c, .pairTimeout c]
    | .gang _ _ => [.gangForm c]
    | .tnext _ => [.tnextTake c]
    | .intake _ _ _ => [.intakeLatch c]
    | .xchg _ _ => [.xchgExchange c]
    | .interval => [.pairIntervalCompare c]
    | .waita _ => [.waitaTimeout c e.1, .waitaPoll c e.1]
    | _ => []
  when_ (k.trapQueue != [] && !k.handler) (.helperTrapDelivery c) ++ when_ (k.redeliver != []) (.taskRedelivery c) ++
    queues ++ arrivals ++ contexts ++
    (if k.mq = [] then [] else [.arbiterGrant (clusterOf c), .matrixEntryComplete c]) ++
    when_ (k.batches.any fun b => !b.done) (.batchComplete c) ++
    when_ ((k.phase.map fun p => decide (p.start + p.len ≤ cycle)).getD false) (.exchangePhaseEnd c)

/-- Events of a cluster that may be due. -/
def Cluster.events (k : Cluster) (n : Nat) : List Instr :=
  [.clusterWake n, .clusterGate n] ++
    k.cbs.flatMap fun b => [.cbacqGrant n b.1, .cbwaitGrant n b.1]
/-- Events of a launch that may be due. -/
def Launch.events (l : Launch) (n : Nat) : List Instr :=
  [.taskDelivery n, .launchComplete n, .staticHandleFree n, .rebalance n, .priorityAging n] ++
    (l.stages.zipIdx.flatMap fun e =>
      [.bandStart n e.2, .controllerUpdate n e.2] ++
        (if e.1.desc.coverage then (span 0 e.1.walked).map fun p => .reconstruction n e.2 p else []))
/-- Events of a command queue that may be due. -/
def Queue.events (k : Queue) (q : Nat) : List Instr :=
  if !k.enabled then []
  else [.clNop q, .clLaunch q, .clCopy q, .clWait q, .clSignal q, .clSkipif q, .clJump q, .clCall q, .clReturn q,
        .clSetreg q, .clBadOp q, .statusRecordWrite q]
/-- Events of what is on its way, of walks, invalidations and of the device as a whole. -/
def State.deviceEvents (s : State) : List Instr :=
  (s.net.map fun p => .homeAccessPerform ⟨p.id, none⟩) ++
    (s.replies.map fun r => if r.packet.op.isSome then .accessReply r.packet.id else .postedAccessResponse r.packet.id) ++
    ((s.msgs.map (·.dst)).eraseDups.map fun c => .mailboxArrival c) ++ (s.meets.map fun m => .meetArrival m.id) ++
    (s.arrivals.map fun a => .barrierArrivalReceive a.corner a.b) ++
    (s.corners.map fun e => .barrierRelease (e.1 / 4) (e.1 % 4)) ++
    (s.dies.filterMap fun e => if e.2.walks = [] then none else some (.translationWalk e.1)) ++
    (s.stas.map fun r => .staTimeout r.tag) ++ (s.invs.map fun i => .invalidationComplete i.id) ++
    (s.parts.filterMap fun e => if (e.2.map (·.clearing)).getD false then some (.partitionClearComplete e.1) else none) ++
    (s.exchange.map fun t => .xmitDrive t.src) ++ (if s.exchange = [] then [] else [.exchangeCollision]) ++
    (s.exchange.map fun t => .xmitArrival t.src) ++
    (s.reencode.map fun r => .reEncodeComplete r.1) ++ (if s.budgets = [] then [] else [.budgetPeriod])

/-- Turns of every context; of each core the one whose slot it is issues, once in a cycle (R15). -/
def State.issuers (s : State) : List Turn := s.cores.flatMap fun e => e.2.ctxs.map fun x => .issue e.1 x.1

/-- What one cycle holds in the default order: all that may be due, then every context's turn, then time passes. A context
that an event has released issues in the same cycle (R174). -/
def State.sweep (s : State) : List Turn :=
  let events := s.deviceEvents ++ (s.cores.flatMap fun e => e.2.events e.1 s.cycle) ++
    (s.clusters.flatMap fun e => e.2.events e.1) ++
    (s.launches.flatMap fun e => (e.2.map fun l => l.events e.1).getD []) ++ s.queues.flatMap fun e => e.2.events e.1
  events.map Turn.event ++ s.issuers ++ [.tick 1]
/-- The default order: the first turn of the cycle's sweep; the others are put on the agenda. -/
def State.defaultTurn (s : State) : Host.Outcome State Fault Refusal :=
  match s.sweep with
  | t :: rest => ({ s with agenda := rest }).take t
  | [] => .next s

/-! ### Placing an instruction -/

/-- The code that `nbits` bits stand for. -/
def wordCode (nbits w : Nat) : Code := if nbits ≤ 16 then .short (BitVec.ofNat 16 w) else .wide (BitVec.ofNat 32 w)

/-- Put bytes into the line of the buffer that holds an address. -/
def Core.setCode (k : Core) (half : Bool) (va : Nat) (bs : List Byte) : Core :=
  let line := va / 64 * 64
  let old := ((k.buffer.find? fun l => l.va == line).map (·.bytes)).getD (List.replicate 64 0)
  let new := old.take (va % 64) ++ bs ++ old.drop (va % 64 + bs.length)
  { k with buffer := { va := line, bytes := new, poison := false, half := half } :: k.buffer.filter fun l => l.va != line }

/-- The current context is in service at an address where the code stands in its instruction buffer, and it issues
next. -/
def State.placeCode (s : State) (code : Code) : State :=
  let c := s.cur.1
  let x := s.cur.2
  let va := bitsN (s.ctx c x).pc 56 1 * 2
  let bs := code.bytes
  let s := s.modCore c fun k =>
    let k := k.modCtx x fun t => { t with live := true, frozen := none, wait := .none, pc := BitVec.ofNat 64 va, issued := none }
    let k := (k.setCode (k.ctx x).half va (bs.take 2)).setCode (k.ctx x).half (va + 2) (bs.drop 2)
    let inLoop := k.loopPc.toNat < va + 4 && va < k.loopPc.toNat + 10
    let bilrok := if inLoop || (x == 0 && k.atBilrok) then none else k.bilrok
    { k with killed := false, gang := none, bilrok := bilrok, phase := if x = 0 then k.phase else none, dueTrap := none,
             trapQueue := if k.handler then k.trapQueue else [], issued := none, turn := (x + 10) % 11 }
  { s with agenda := .issue c x :: s.agenda }

end Sys2Proof.Machine
end

