-- ==== Sys2Proof/Machine/Step.lean ====
section
/-! DEFINITION. One step of the device: the first turn of the agenda, or the default order's. -/
namespace Sys2Proof.Machine

/-- One step. -/
def step (s : State) : Host.Outcome State Fault Refusal :=
  match s.agenda with
  | t :: rest => ({ s with agenda := rest }).take t
  | [] => s.defaultTurn

/-- `s` with the instruction of `nbits` bits standing where the next turn's context fetches it (log 3). -/
def State.withFetchWord (s : State) (nbits w : Nat) : State := s.placeCode (wordCode nbits w)

end Sys2Proof.Machine
end

