-- ==== Sys2Proof/Machine/Frames.lean ====
section
/-! DEFINITION. What the supervisor firmware and the debug path read of a core's context region and of its confluence
table: the layouts of Tables 1.2 and 11.2 over the state's own fields (R14, R184, R191, R217; log 77). -/
namespace Sys2Proof.Machine

/-! ### Context frames (Table 1.2) -/

/-- The first offset of the context region in local memory, the bytes of a frame, and where the frames end. -/
def regionBase : Nat := 0x70000
def contextBytes : Nat := 5632
/-- The byte that a frame keeps for a v register: its tag and its poison bit. -/
def VVal.frameByte (v : VVal) : Byte := v.tag.setWidth 8 ||| if v.poison then 0x80 else 0
/-- The poison bits of the g registers, bit n for gn. -/
def Context.poisonG (x : Context) : Word :=
  (span 0 64).foldl (init := 0) fun w n => if (x.readG n).poison then w ||| 1 <<< n else w
/-- The modes word: rmode, fpf, det. -/
def Context.modes (x : Context) : Word :=
  x.rmode.setWidth 64 ||| x.fpf.setWidth 64 <<< 8 ||| if x.det then 1 <<< 16 else 0
/-- The bytes of a loop level: start, end, count. -/
def Level.frameBytes (l : Level) : List Byte := bytesOf 8 l.start ++ bytesOf 8 l.stop ++ bytesOf 8 l.count

/-- The 5,632 bytes of a context's frame. -/
def Context.frame (x : Context) : List Byte :=
  (span 0 64).flatMap (fun n => bytesOf 8 (x.readG n).bits) ++
  (span 0 64).flatMap (fun n => leBytes 64 (x.readV n).bits.toNat) ++
  (span 0 8).flatMap (fun n => bytesOf 8 (x.readK n)) ++
  (span 0 4).flatMap (fun n => leBytes 128 (x.readQ n).toNat) ++
  (span 0 16).flatMap (fun n => bytesOf 8 (x.readE n)) ++
  (span 0 16).flatMap (fun n => leBytes 4 (x.readFm n).toNat) ++
  (span 0 4).flatMap (fun n => (Tab.get {} x.lp n : Level).frameBytes) ++
  (span 0 64).map (fun n => (x.readV n).frameByte) ++
  bytesOf 8 x.poisonG ++ bytesOf 8 x.pc ++
  (leBytes 8 x.km.toNat ++ leBytes 8 x.efr.toNat ++ bytesOf 8 x.modes ++ leBytes 8 x.chk.toNat) ++
  (bytesOf 8 x.liveG ++ bytesOf 8 x.liveV) ++ leBytes 8 (x.lpd % 8) ++ List.replicate 24 0

/-- The ten copy shadow fields as the checkpoint keeps them (R217). -/
def Context.shadowBytes (x : Context) : List Byte :=
  (span 0 10).flatMap fun n => bytesOf 8 (Tab.get {} x.shadow n : GVal).bits

/-- The frame of a context number: while the core is paired the frames of contexts 10 and 9 hold the checkpoint (R217);
while its task is saved, the saved contexts' frames are what firmware has read. -/
def Core.frame (k : Core) (n : Nat) : List Byte :=
  match k.pairing with
  | some p =>
    if n = 10 then p.checkpoint.frame
    else if n = 9 then p.checkpoint.shadowBytes ++ (k.ctx 9).frame.drop 80
    else (k.ctx n).frame
  | none => (k.ctx n).frame
/-- A byte of the context region by its offset in local memory, below the per-core machine state whose layout the spec
leaves to the implementation. -/
def Core.regionByte (k : Core) (offset : Nat) : Option Byte :=
  let o := offset - regionBase
  if offset < regionBase || 11 * contextBytes ≤ o then none
  else (k.frame (o / contextBytes))[o % contextBytes]?

/-! ### Confluence entries (Table 11.2) -/

/-- The 136 bytes of a confluence entry. -/
def Conf.bytes (c : Conf) : List Byte :=
  leBytes 4 c.node.toNat ++ leBytes 2 c.stamp.toNat ++ leBytes 2 c.owner.toNat ++ leBytes 128 c.set.toNat

end Sys2Proof.Machine
end

