-- ==== Sys2Proof/Safety.lean ====
section
/-! DEFINITION. The terms that claims use: the canonical form of every memory, when nothing keeps an instruction from its
own effect, and what an instruction leaves as it was. -/
namespace Sys2Proof.Machine

/-! ### The canonical form of every memory -/

/-- The bytes, poison marks and release records of a store are in their canonical form. -/
def Store.ok (m : Store) : Bool := m.bytes.wf && Tab.rising 0 m.poison && Tab.rising 0 m.releases
/-- The stores of one core: its local memory and what pre-emption saved of it. -/
def Core.memoryOk (k : Core) : Bool := k.store.ok && (k.saved.map fun v => v.store.ok).getD true
/-- The stores of one cluster, likewise. -/
def Cluster.memoryOk (k : Cluster) : Bool := k.store.ok && (k.saved.map fun v => v.1.ok).getD true
/-- Every memory of the device is in its canonical form, and so are its marks and records. -/
def State.memoriesOk (s : State) : Bool :=
  s.dram.wf && Tab.rising 0 s.dramBad && Tab.rising 0 s.releases && s.cores.all (fun e => e.2.memoryOk) &&
    s.clusters.all (fun e => e.2.memoryOk) && s.firmware.image.wf

/-! ### When an instruction's own effect comes about -/

/-- Nothing holds up an instruction of the issuing context (R15, R16, R221), and none of the checks common to every entry
fails (R137). -/
def State.clear (s : State) (i : Instr) : Bool :=
  s.ready s.cur.1 s.cur.2 && !interlocked i s && !s.intervalDue i && (commonFault i s).isNone

/-! ### Code that stands ready -/

/-- The instruction buffer of a core holds a clean halfword at an even address outside the resident loop (R20, R28). -/
def State.codeHalf (s : State) (c : Nat) (a : Word) (h : Half) : Prop :=
  let k := s.core c
  a.getLsbD 0 = false ∧ a.getLsbD 63 = false ∧ (k.bilrok = none ∨ a.toNat < k.loopPc.toNat ∨ k.loopPc.toNat + 10 ≤ a.toNat) ∧
    ∃ l, (k.buffer.find? fun l => decide (l.va = bitsN a 56 0 / 64 * 64) && bitsN a 62 57 == 0) = some l ∧
      l.poison = false ∧ l.halfAt (bitsN a 56 0) = h
/-- The buffer holds a whole word: the high halfword of a 32-bit word comes first (R28, R123). -/
def State.holdsCode (s : State) (c : Nat) (a : Word) : Code → Prop
  | .short h => isWide h = false ∧ s.codeHalf c a h
  | .wide w => isWide (w.extractLsb' 16 16) = true ∧ s.codeHalf c a (w.extractLsb' 16 16) ∧
      s.codeHalf c (a + 2) (w.extractLsb' 0 16)

/-! ### What an instruction leaves as it was -/

/-- Everything of a context but the registers listed, its pc and loop levels (R22), its wait, chk bit 0 (R108) and what
is noted of the instruction at its pc. A status register is listed by its number. -/
structure Context.Keeps (old new : Context) (regs : List Reg) : Prop where
  live   : new.live = old.live
  g      : ∀ n, Reg.g n ∉ regs → new.readG n = old.readG n
  v      : ∀ n, Reg.v n ∉ regs → new.readV n = old.readV n
  k      : ∀ n, Reg.k n ∉ regs → new.readK n = old.readK n
  q      : ∀ n, Reg.q n ∉ regs → new.readQ n = old.readQ n
  e      : ∀ n, Reg.e n ∉ regs → new.readE n = old.readE n
  fm     : ∀ n, Reg.status (0x30 + n) ∉ regs → new.readFm n = old.readFm n
  km     : Reg.status 0x06 ∉ regs → new.km = old.km
  rmode  : Reg.status 0x07 ∉ regs → new.rmode = old.rmode
  fpf    : Reg.status 0x08 ∉ regs → new.fpf = old.fpf
  efr    : Reg.status 0x09 ∉ regs → new.efr = old.efr
  chk    : Reg.status 0x0A ∉ regs → new.chk ||| 1 = old.chk ||| 1
  det    : Reg.status 0x0D ∉ regs → new.det = old.det
  shadow : new.shadow = old.shadow
  meet   : new.meet = old.meet
  marks  : new.relMark = old.relMark ∧ new.seen = old.seen
  loads  : new.loads = old.loads
  frozen : new.frozen = old.frozen
  life   : new.life = old.life

/-- Everything of the device but the listed registers of the issuing context, what `Context.Keeps` leaves out, and the
record that a paired core keeps of its interval (R219). -/
structure State.Keeps (s t : State) (regs : List Reg) : Prop where
  /-- Main memory, other cores' and the clusters' storage, what is on its way, and everything else outside the cores. -/
  outside  : t = { s with cores := t.cores }
  cores    : ∀ c, c ≠ s.cur.1 → t.core c = s.core c
  /-- Local memory, mailbox, exception registers, windows, matrix and copy queues and all else of the core. -/
  here     : t.here = { s.here with ctxs := t.here.ctxs, pairing := t.here.pairing }
  unpaired : s.here.pairing = none → t.here.pairing = none
  siblings : ∀ x, x ≠ s.cur.2 → t.here.ctx x = s.here.ctx x
  own      : s.me.Keeps t.me regs

/-- The issuing context goes on at an address, with the loop step that is due there (R22). -/
def State.wentTo (s t : State) (next : Word) : Prop :=
  let x := s.me.goto (s.loopsFrozen s.cur.1 s.cur.2) next
  t.me.pc = x.pc ∧ t.me.lp = x.lp ∧ t.me.lpd = x.lpd

/-- The instruction has completed: nothing but the listed registers has changed, the pc has moved past it, and a poisoned
source has set chk bit 0 (R108). -/
def State.Completes (s t : State) (i : Instr) (regs : List Reg) : Prop :=
  s.Keeps t regs ∧ s.wentTo t (s.me.pc + BitVec.ofNat 64 (instrLen i)) ∧
    (Reg.status 0x0A ∉ regs → t.me.chk = if poisonedSource i s then s.me.chk ||| 1 else s.me.chk)

/-- As `Completes`, with control going on at an address. -/
def State.CompletesAt (s t : State) (i : Instr) (regs : List Reg) (next : Word) : Prop :=
  s.Keeps t regs ∧ s.wentTo t next ∧
    (Reg.status 0x0A ∉ regs → t.me.chk = if poisonedSource i s then s.me.chk ||| 1 else s.me.chk)

/-- What a g register reads after it was written: g0 stays zero (R19). -/
def writtenG (d : Nat) (w : Word) (p : Bool) : GVal := if d = 0 then {} else { bits := w, poison := p }

/-- When clear, the instruction completes and writes a word to one g register, with the poison of its sources (R108). -/
def State.GivesG (s : State) (i : Instr) (d : BitVec 6) (w : Word) : Prop :=
  s.clear i = true → ∃ t, exec i s = .next t ∧ s.Completes t i [.g d.toNat] ∧
    t.me.readG d.toNat = writtenG d.toNat w (poisonedSource i s)

/-- When clear, the instruction completes and writes the lanes of a type under km: lane n takes code `f n`, others keep
theirs; the flags are those of the active lanes, with `extra` once a lane is written (R32, R35, R40, R252). -/
def State.GivesLanes (s : State) (i : Instr) (d : BitVec 6) (ty : BitVec 5) (extra : BitVec 5) (f : Nat → Coded) : Prop :=
  s.clear i = true → ∃ t, exec i s = .next t ∧ s.Completes t i [.v d.toNat, .status 0x08] ∧
    (t.v d.toNat).tag = ty ∧ (t.v d.toNat).poison = poisonedSource i s ∧
    (∀ n, n < laneCount ty → lane (t.v d.toNat).bits (laneWidth ty) n =
      if s.me.km.getLsbD n then (f n).1 % 2 ^ laneWidth ty else lane (s.v d.toNat).bits (laneWidth ty) n) ∧
    ∀ b, b < 5 → t.me.fpf.getLsbD b = (s.me.fpf.getLsbD b ||
      (activeLanes s.me.km (laneCount ty)).any fun n => (f n).2.getLsbD b || extra.getLsbD b)

/-- When clear, the instruction takes a precise trap: the state is the trap's and nothing of the effect stays (R97,
R137). Outstanding loads have returned. -/
def State.Traps (s : State) (i : Instr) (cause sub : BitVec 8) (tval : Word) : Prop :=
  s.clear i = true → s.me.loads = [] → exec i s = .next (s.trap cause sub tval (instrLen i))

/-! ### Accesses -/

/-- A location word of the issuing core's own local memory passes the checks of an access (R58), and these are the
physical offsets of its bytes (R55); its array is not busy, and its port has served nothing of a later rank in this cycle
(R79, R214). -/
def State.nearAt (s : State) (w : Word) (size align : Nat) (want : Want) (offs : List Nat) : Prop :=
  ∃ pl, s.check s.cur.1 s.me.walkErr w size align want = .ok pl ∧ pl.atIssue = true ∧ s.portFree pl.home 0 = true ∧
    offs = s.offsetsOf pl size

/-- An access of so many bytes of the own local memory meets nothing that the outbox of a pair holds (R221); without a
partner nothing is held. -/
def State.apart (s : State) (w : Word) (n : Nat) : Prop :=
  ∀ pl a, pl.atIssue = true → a.size = n → s.meetsHeld [(0, w, pl, a)] = false

/-- A store or atomic does not wait: it is no release, or everything it releases has been performed, and a pair holds
nothing of that back (R84, R220, R366). -/
def State.mayStore (s : State) (order : BitVec 2) (scope : BitVec 4) : Bool :=
  let o := s.orderOf order scope
  !((o.1 == 2 || o.1 == 3) && (!s.released o.2 s.cur.1 s.cur.2 || s.heldBack o.2))

/-- What an access to the own local memory changes of the device before it retires: bytes, poison marks and release
records at the offsets, the monitors that see the write and their answers (R93, R172), the record of a paired core (R219, R220), the release
mark (R366), the releases noted and chk bit 1 (R85, R86). -/
structure State.Touches (s u : State) (offs : List Nat) : Prop where
  outside  : u = { s with cores := u.cores, net := u.net, replies := u.replies, replay := u.replay }
  cores    : ∀ c, c ≠ s.cur.1 → u.core c = s.core c
  here     : u.here = { s.here with ctxs := u.here.ctxs, pairing := u.here.pairing, store := u.here.store }
  unpaired : s.here.pairing = none → u.here.pairing = none
  siblings : ∀ x, x ≠ s.cur.2 → u.here.ctx x = s.here.ctx x
  own      : u.me = { s.me with relMark := u.me.relMark, seen := u.me.seen, chk := u.me.chk }
  chk      : u.me.chk ||| 2 = s.me.chk ||| 2
  tiles    : u.here.store.tiles = s.here.store.tiles
  bytes    : ∀ a, a ∉ offs → u.here.store.bytes.byte a = s.here.store.bytes.byte a
  poison   : ∀ n, (∀ a, a ∈ offs → a / 8 ≠ n) → Tab.get false u.here.store.poison n = Tab.get false s.here.store.poison n
  releases : ∀ n, (∀ a, a ∈ offs → a / 64 ≠ n) → Tab.get none u.here.store.releases n = Tab.get none s.here.store.releases n
  arrivals : ∀ p, p ∈ u.net → p ∈ s.net
  waiting  : ∀ p, p ∈ s.net → (∀ q, q ∈ s.net → q.id = p.id → q.armed ≠ some true) → p ∈ u.net

/-- A load of the own local memory, before it retires: memory stays, and so do the release mark and what is on its way. -/
def State.ReadsNear (s u : State) : Prop :=
  s.Touches u [] ∧ u.here.store = s.here.store ∧ u.me.relMark = s.me.relMark ∧ u.net = s.net ∧ u.replies = s.replies ∧
    u.replay = s.replay
/-- A store to the own local memory, before it retires: the bytes at the offsets are these, and the release mark is
consumed. -/
def State.StoresNear (s u : State) (offs : List Nat) (new : List Byte) : Prop :=
  s.Touches u offs ∧ offs.map u.here.store.bytes.byte = new ∧ u.me.relMark = none

/-- What sending requests changes of the device before the instruction retires: they join what is on its way, with their
place in the links' windows (R172), their bytes in pending-byte counts (R162) and budgets (R211), the access their
replies belong to, the release mark and the destinations that are awaited. -/
structure State.Sends (s u : State) (ps : List Packet) : Prop where
  outside  : u = { s with cores := u.cores, net := s.net ++ ps, nextNum := u.nextNum, replay := u.replay,
                          budgets := u.budgets, ops := u.ops }
  cores    : ∀ c, c ≠ s.cur.1 → u.core c = s.core c
  here     : u.here = { s.here with ctxs := u.here.ctxs, barriers := u.here.barriers }
  siblings : ∀ x, x ≠ s.cur.2 → u.here.ctx x = s.here.ctx x
  own      : u.me = { s.me with relMark := u.me.relMark, loads := u.me.loads, wait := u.me.wait }

/-- A request of the issuing context for a place: who asks, for what, and in which order and scope. -/
structure State.Asks (s : State) (p : Packet) (w : Word) (pl : Place) (a : Act) (poison : Bool) (order : BitVec 2)
    (scope : BitVec 4) : Prop where
  issuer : p.core = s.cur.1 ∧ p.ctx = s.cur.2 ∧ p.odi = s.odiOf s.cur.1
  place  : p.loc = w ∧ p.home = pl.home ∧ p.isLocal = pl.isLocal ∧ (∀ pa, pl = .mem pa → p.pa = some pa)
  does   : p.act = a ∧ p.poison = poison
  order  : p.order = order ∧ p.scope = scope

/-- A location passes the checks, lies outside the own local memory and this device's peers, and no budget holds the
access back (R211). -/
def State.farAt (s : State) (w : Word) (size align : Nat) (want : Want) (pl : Place) : Prop :=
  s.check s.cur.1 s.me.walkErr w size align want = .ok pl ∧ pl.atIssue = false ∧ (∀ id, pl.home ≠ .peer id) ∧
    s.accessStall s.cur.1 pl want = none

/-- Nothing of the device but the store of one home, what its port has served (R56), and the model's count of free values,
changes. -/
structure State.StoreOnly (s u : State) (h : Home) : Prop where
  outside  : u = { s with cores := u.cores, clusters := u.clusters, freeCtr := u.freeCtr, ports := u.ports }
  cores    : ∀ c, u.core c = { s.core c with store := (u.core c).store }
  clusters : ∀ n, u.cluster n = { s.cluster n with store := (u.cluster n).store }
  others   : ∀ h', h' ≠ h → u.storeAt h' = s.storeAt h'

/-! ### Exceptions -/

/-- What a conditional branch changes before control goes on: the lines of its two paths that the instruction buffer holds,
the half that is the context's, what firmware counts of the lines' reads, the lines that are asked of pod peers, and the
walks that are asked for (R20, R66). -/
structure State.Prefetches (s u : State) : Prop where
  outside  : u = { s with cores := u.cores, firmware := u.firmware, net := u.net, replies := u.replies, ops := u.ops,
                          nextNum := u.nextNum, replay := u.replay, budgets := u.budgets, peers := u.peers,
                          dies := u.dies, stas := u.stas }
  asked    : (∀ p, p ∈ s.net → p ∈ u.net ∨ s.nextNum ≤ p.id) ∧ ∀ p, p ∈ u.net → p ∈ s.net ∨ (p.act = .read 64 ∧ ∃ id, p.home = .peer id)
  walks    : ∀ n, u.die n = { s.die n with walks := (u.die n).walks }
  cores    : ∀ c, c ≠ s.cur.1 → u.core c = s.core c
  here     : u.here = { s.here with buffer := u.here.buffer, ctxs := u.here.ctxs }
  siblings : ∀ x, x ≠ s.cur.2 → u.here.ctx x = s.here.ctx x
  own      : u.me = { s.me with half := u.me.half }

/-- The control context has entered its handler (R98): the saved cause, address and value, the context that trapped, the
return address, H, and the pc; a phase has ended. Nothing else of the device changes but counts of firmware, the waiters of
a circular buffer that it was among (R154) and a transfer that it no longer drives (R166). -/
structure State.Entered (s t : State) (cause sub : BitVec 8) (tval : Word) (ctx : Nat) (tpc tret : Word) : Prop where
  code     : t.here.tcause = sub ++ cause
  saved    : t.here.tpc = tpc ∧ t.here.tval = tval ∧ t.here.tctx = BitVec.ofNat 4 ctx ∧ t.here.tret = tret
  mode     : t.here.handler = true ∧ t.here.phase = none
  control  : t.here.ctx 0 = { s.here.ctx 0 with pc := s.here.tvec &&& ~~~1, wait := .none, side := [], walkErr := none }
  others   : ∀ x, x ≠ 0 → t.here.ctx x = s.here.ctx x
  here     : t.here = { s.here with ctxs := t.here.ctxs, tcause := sub ++ cause, tpc := tpc, tval := tval,
                                    tctx := BitVec.ofNat 4 ctx, tret := tret, handler := true, phase := none,
                                    trapQueue := t.here.trapQueue, dueTrap := none }
  cores    : ∀ c, c ≠ s.cur.1 → t.core c = s.core c
  outside  : t = { (s.unpark s.cur.1 0).dropDrive s.cur.1 with cores := t.cores, firmware := t.firmware }

/-- A helper has frozen with its trap (R99); its place in the order of delivery is R100's. -/
structure State.Froze (s t : State) (cause sub : BitVec 8) (tval : Word) : Prop where
  own      : t.me = { s.me with frozen := some { cause := cause, sub := sub, pc := s.me.pc, tval := tval, since := s.cycle },
                                wait := .none, side := [], walkErr := none }
  here     : t.here = { s.here with ctxs := t.here.ctxs, trapQueue := s.here.queueTrap s.cur.2 s.cycle }
  siblings : ∀ x, x ≠ s.cur.2 → t.here.ctx x = s.here.ctx x
  cores    : ∀ c, c ≠ s.cur.1 → t.core c = s.core c
  outside  : t = { s.unpark s.cur.1 s.cur.2 with cores := t.cores, firmware := t.firmware }

/-- A core has been killed (R113): no context issues, nothing it holds is left to run. -/
structure Core.Killed (k : Core) : Prop where
  dead     : k.killed = true ∧ ∀ x, (k.ctx x).live = false
  classes  : k.cap = 0
  work     : k.mq = [] ∧ k.inbox = [] ∧ k.task = none

/-! ### One core's own work -/

/-- Nothing of the device but one core changes. -/
def State.OnlyCore (s t : State) (c : Nat) : Prop :=
  t = { s with cores := t.cores } ∧ ∀ m, m ≠ c → t.core m = s.core m

/-- A context that has just become live (R12, R18, R36): its pc, the registers it was given, and zero in all others. -/
structure Context.Fresh (x : Context) (pc : Word) (given : Nat → GVal) : Prop where
  live  : x.live = true ∧ x.pc = pc
  g     : ∀ n, x.readG n = if 1 ≤ n ∧ n ≤ 15 then given n else {}
  dead  : ∀ n, x.readV n = {} ∧ x.readK n = 0 ∧ x.readE n = 0 ∧ x.readFm n = 0
  modes : x.km = BitVec.allOnes 64 ∧ x.rmode = 0 ∧ x.fpf = 0 ∧ x.efr = 0 ∧ x.chk = 0 ∧ x.det = false ∧ x.lpd = 0
  clear : x.loads = [] ∧ x.frozen = none ∧ x.wait = .none ∧ x.meet = none ∧ x.relMark = none ∧ x.seen = []

/-- Nothing of the device but one circular buffer of a cluster changes; it is now this one. -/
structure State.SetsBuffer (s u : State) (cl n : Nat) (b : CircBuf) : Prop where
  outside : u = { s with clusters := u.clusters }
  others  : ∀ m, m ≠ cl → u.cluster m = s.cluster m
  cluster : u.cluster cl = { s.cluster cl with cbs := (u.cluster cl).cbs }
  buffers : ∀ m, m ≠ n → u.cb cl m = s.cb cl m
  buffer  : u.cb cl n = some b

/-! ### The matrix queue -/

/-- A location passes the checks of an access of so many bytes, no remote home would refuse it (R106), and neither a
pre-empted task's home, a port nor a budget holds it up (R79, R211; log 49). -/
def State.passes (s : State) (want : Want) (w : Word) (n : Nat) : Prop :=
  ∃ pl, s.check s.cur.1 s.me.walkErr w n 1 want = .ok pl ∧ s.farFault s.cur.1 pl n want = none ∧
    s.savedHome pl.home = false ∧
    (pl.atIssue = true → s.portFree pl.home 0 = true) ∧ s.accessStall s.cur.1 pl want = none
/-- A piece of an operand passes: on chip all its bytes, else the pages of its first and last byte (R106). -/
def State.piecePasses (s : State) (want : Want) (p : Piece) : Prop :=
  if isChip p.2.1 then s.passes want p.2.1 p.2.2
  else s.passes want p.2.1 1 ∧ s.passes want (p.2.1 + BitVec.ofNat 64 (p.2.2 - 1)) 1
/-- A word of the own local memory, as a read of it finds it. -/
def State.nearWord (s : State) (w v : Word) : Prop :=
  ∃ offs, s.nearAt w 8 1 .read offs ∧ (s.logUndo []).isSome ∧ s.apart w 8 ∧ v = BitVec.ofNat 64 (leNat (s.here.store.load offs).1)

/-- An entry has joined the matrix queue and the open batch; what reading a guard or a group table may note of releases
(R86) and else nothing has changed. -/
structure State.QueuesMat (s u : State) (e : MatEntry) : Prop where
  outside  : s.OnlyCore u s.cur.1
  here     : u.here = { s.here with ctxs := u.here.ctxs, mq := s.here.mq ++ [e], serial := s.here.serial + 1,
                                    openBatch := u.here.openBatch }
  batch    : u.here.openBatch = { s.here.openBatch with entries := s.here.openBatch.entries ++ [s.here.serial],
                                                        tiles := u.here.openBatch.tiles }
  tiles    : ∀ n, n ∈ u.here.openBatch.tiles ↔ n = e.tile ∨ n ∈ s.here.openBatch.tiles
  siblings : ∀ x, x ≠ s.cur.2 → u.here.ctx x = s.here.ctx x
  own      : u.me = { s.me with seen := u.me.seen, chk := u.me.chk }
  chk      : u.me.chk ||| 2 = s.me.chk ||| 2

/-! ### Waiting and going on -/

/-- The issuing context waits at its instruction; no other context of the core and no other core has changed. -/
structure State.Parks (s t : State) (w : Wait) : Prop where
  own      : t.me = { s.me with wait := w, waitLen := t.me.waitLen, waitTaint := t.me.waitTaint,
                                waitClasses := t.me.waitClasses }
  siblings : ∀ x, x ≠ s.cur.2 → t.here.ctx x = s.here.ctx x
  cores    : ∀ c, c ≠ s.cur.1 → t.core c = s.core c

/-- A context that waited goes on past its instruction, with the loop step that is due there (R22). -/
def State.WentOn (s t : State) (c x : Nat) : Prop :=
  (t.ctx c x).wait = .none ∧ (t.ctx c x).pc =
    ((s.ctx c x).goto (s.loopsFrozen c x) ((s.ctx c x).pc + BitVec.ofNat 64 (s.ctx c x).waitLen)).pc

/-- The control context of a core can take a trap alone and now: no gang, no handler running, a handler named, no reply
awaited (R25, R97, R102). -/
def Core.canTrap (k : Core) : Prop :=
  k.gang = none ∧ k.handler = false ∧ k.tvec >>> 1 ≠ 0 ∧ (k.ctx 0).awaits = false
/-- It has taken one (R98). -/
def Core.Took (k : Core) (old : Core) (cause : BitVec 8) (tval : Word) : Prop :=
  k.handler = true ∧ k.tcause = (0 : BitVec 8) ++ cause ∧ k.tval = tval ∧ k.tpc = (old.ctx 0).pc ∧
    (k.ctx 0).pc = old.tvec &&& ~~~1 ∧ (k.ctx 0).wait = .none

/-! ### Packets of a host -/

/-- A packet from a host that carries its class and one command (R229, R235). -/
def command (h cls : Nat) (type : BitVec 12) (bs : List Byte) (verifies : Bool) : TlvPacket :=
  { sender := .host h, fields := [outField 0x001 (leBytes 1 cls), outField type bs], verifies := verifies }
/-- From `u`, the device has noted the packet's headers and answered with its class, a status and further fields
(R235, R243); a budget of the host that is used up holds the answer back (R211). -/
def State.Answered (u t : State) (h cls status : Nat) (more : List TlvField) : Prop :=
  let body := OutBody.tlv ([outField 0x001 (leBytes 1 cls), outField 0x003 (leBytes 4 status)] ++ more)
  let reply : Out := { id := u.nextNum, dst := .host h, body := body, core := none, acked := false,
                       sent := u.budgetLeft 2 h }
  let noted : Firmware := { u.firmware with headers := t.firmware.headers, counters := t.firmware.counters }
  t = { u with firmware := noted, outbox := u.outbox ++ [reply], nextNum := u.nextNum + 1, budgets := t.budgets }

/-! ### Command queues -/

/-- A queue's interpreter has read its next entry, within its budget: the entry, and the state in which it acts
(R193, R211, R232). -/
def State.AtEntry (s u : State) (q : Nat) (e : Entry) : Prop :=
  ∃ (a : Word) (bs : List Byte) (p : Bool), (s.queue q).nextEntry = some a ∧
    s.partRead (s.queue q).part a 16 = (.ok bs p, u) ∧ e = entryOf bs ∧ s.budgetLeft 5 q = true

end Sys2Proof.Machine
end

