-- ==== Sys2Proof/Certificates/Slice0/Obligations.lean ====
section
/-! DEFINITION. The statements for the provers: what the rules of the spec say that instructions and the machine do. -/
open Sys2Proof Sys2Proof.Machine

/-- O1: An operand with tag 00 is a g register, with tag 10 an entry of the core's constant bank, with tag 11 a
six-bit literal: sign-extended, or zero-extended where the instruction takes it unsigned. Rests on R126, R35. -/
def Obligations.ScalarOperands : Prop := ∀ (s : State) (r : BitVec 6) (unsigned : Bool),
  s.scalarOpnd unsigned 0 r = s.g r.toNat ∧ s.scalarOpnd unsigned 2 r = s.here.consts.getD r.toNat 0 ∧
    s.scalarOpnd false 3 r = r.signExtend 64 ∧ s.scalarOpnd true 3 r = r.setWidth 64

/-- O2: With no vector operand and no common fault, ADD, SUB and MUL write the sum, difference or product mod 2^64 to
gD, MULH the high 64 bits of the signed product, NEG the negative, FMA a*b + gD and FMS a*b - gD with gD as third
source, ADDI gS plus the sign-extended immediate, and the 16-bit forms the same with d as first source; the
instruction completes, gD takes the OR of the sources' poison, the pc moves past the instruction and nothing else of
the device changes. Rests on R256, R257, R349, R322, R327, R292, R108, R22. -/
def Obligations.ScalarSums : Prop :=
  (∀ (s : State) (d a b : BitVec 6) (t u : BitVec 2), t ≠ 1 → u ≠ 1 →
    let x := s.scalarOpnd false t a
    let y := s.scalarOpnd false u b
    s.GivesG (.add d t a u b) d (x + y) ∧ s.GivesG (.sub d t a u b) d (x - y) ∧
      s.GivesG (.mul d t a u b) d (x * y) ∧
      s.GivesG (.mulh d t a u b) d (BitVec.ofInt 64 (x.toInt * y.toInt / 2 ^ 64)) ∧ s.GivesG (.neg d t a) d (-x)) ∧
  (∀ (s : State) (d a b : BitVec 6) (t u : BitVec 2), t ≠ 1 → u ≠ 1 →
    let x := s.scalarOpnd false t a
    let y := s.scalarOpnd false u b
    s.GivesG (.fma d t a u b) d (x * y + s.g d.toNat) ∧ s.GivesG (.fms d t a u b) d (x * y - s.g d.toNat) ∧
      (Reg.g d.toNat ∈ sources (.fma d t a u b) ∧ Reg.g d.toNat ∈ sources (.fms d t a u b))) ∧
  (∀ (s : State) (d a : BitVec 6) (i : BitVec 12), s.GivesG (.addi d a i) d (s.g a.toNat + i.signExtend 64)) ∧
  ∀ (s : State) (d : BitVec 5) (a : BitVec 6),
    s.GivesG (.addG16 d a) (d.setWidth 6) (s.g d.toNat + s.g a.toNat) ∧
      s.GivesG (.subG16 d a) (d.setWidth 6) (s.g d.toNat - s.g a.toNat) ∧
      s.GivesG (.addiG16 d a) (d.setWidth 6) (s.g d.toNat + a.signExtend 64)

/-- O3: With no vector operand and no common fault, AND, OR, XOR and ANDN write the bitwise result on all 64 bits,
ANDI ANDs with the sign-extended immediate, MOV copies its operand; the 16-bit forms do the same. The poison of the
sources goes to gD, and nothing else changes. Rests on R259, R260, R319, R108. -/
def Obligations.ScalarBits : Prop :=
  (∀ (s : State) (d a b : BitVec 6) (t u : BitVec 2), t ≠ 1 → u ≠ 1 →
    let x := s.scalarOpnd false t a
    let y := s.scalarOpnd false u b
    s.GivesG (.and d t a u b) d (x &&& y) ∧ s.GivesG (.or d t a u b) d (x ||| y) ∧
      s.GivesG (.xor d t a u b) d (x ^^^ y) ∧ s.GivesG (.andn d t a u b) d (x &&& ~~~y) ∧ s.GivesG (.mov d t a) d x) ∧
  (∀ (s : State) (d a : BitVec 6) (i : BitVec 12), s.GivesG (.andi d a i) d (s.g a.toNat &&& i.signExtend 64)) ∧
  ∀ (s : State) (d : BitVec 5) (a : BitVec 6),
    s.GivesG (.andG16 d a) (d.setWidth 6) (s.g d.toNat &&& s.g a.toNat) ∧
      s.GivesG (.orG16 d a) (d.setWidth 6) (s.g d.toNat ||| s.g a.toNat) ∧
      s.GivesG (.xorG16 d a) (d.setWidth 6) (s.g d.toNat ^^^ s.g a.toNat) ∧
      s.GivesG (.movG16 d a) (d.setWidth 6) (s.g a.toNat)

/-- O4: LIT writes the sign-extended 18-bit immediate to gD with poison clear, its 16-bit form the sign-extended 6-bit
one; LITH writes gD shifted left by 18 with the unsigned immediate in the low bits, and keeps gD's poison. Each
completes, and nothing but gD changes. Rests on R307. -/
def Obligations.LiteralClearsPoison : Prop :=
  (∀ (s : State) (d : BitVec 6) (i : BitVec 18), s.clear (.lit d i) = true → ∃ t,
    exec (.lit d i) s = .next t ∧ s.Completes t (.lit d i) [.g d.toNat] ∧
      t.me.readG d.toNat = writtenG d.toNat (i.signExtend 64) false) ∧
  (∀ (s : State) (d : BitVec 5) (i : BitVec 6), s.clear (.litG16 d i) = true → ∃ t,
    exec (.litG16 d i) s = .next t ∧ s.Completes t (.litG16 d i) [.g d.toNat] ∧
      t.me.readG d.toNat = writtenG d.toNat (i.signExtend 64) false) ∧
  ∀ (s : State) (d : BitVec 6) (i : BitVec 18), s.clear (.lith d i) = true → ∃ t,
    exec (.lith d i) s = .next t ∧ s.Completes t (.lith d i) [.g d.toNat] ∧
      t.me.readG d.toNat =
        writtenG d.toNat (BitVec.ofNat 64 ((s.g d.toNat).toNat * 2 ^ 18 + i.toNat)) (s.me.readG d.toNat).poison

/-- O5: With no vector operand and no common fault, MIN and MAX write the smaller or larger operand read as s64, ABSD
the absolute difference mod 2^64, DIV the quotient truncated toward zero (all ones for a zero divisor), REM the
remainder with the sign of the dividend (the dividend for a zero divisor), and CEQ, CNE, CLT and CLE 1 or 0; nothing
else changes. Rests on R310, R254, R285, R275, R108. -/
def Obligations.ScalarOrder : Prop :=
  ∀ (s : State) (d a b : BitVec 6) (t u : BitVec 2), t ≠ 1 → u ≠ 1 →
    let x := s.scalarOpnd false t a
    let y := s.scalarOpnd false u b
    s.GivesG (.min d t a u b) d (if x.toInt ≤ y.toInt then x else y) ∧
      s.GivesG (.max d t a u b) d (if x.toInt ≤ y.toInt then y else x) ∧
      s.GivesG (.absd d t a u b) d (if x.toInt ≤ y.toInt then y - x else x - y) ∧
      s.GivesG (.div d t a u b) d (if y = 0 then BitVec.allOnes 64 else BitVec.ofInt 64 (Int.tdiv x.toInt y.toInt)) ∧
      s.GivesG (.rem d t a u b) d (if y = 0 then x else BitVec.ofInt 64 (Int.tmod x.toInt y.toInt)) ∧
      s.GivesG (.ceq d t a u b) d (if x = y then 1 else 0) ∧ s.GivesG (.cne d t a u b) d (if x = y then 0 else 1) ∧
      s.GivesG (.clt d t a u b) d (if x.toInt < y.toInt then 1 else 0) ∧
      s.GivesG (.cle d t a u b) d (if x.toInt ≤ y.toInt then 1 else 0)

/-- O6: With no vector operand and no common fault, the shifts and the rotation move the 64 bits of the first operand
by the second operand mod 64 (a literal count is unsigned), CLZ counts leading zeros (64 for 0), FFS gives the index
of the lowest set bit (64 for 0), POPC the number of set bits, BREV puts bit 63-i into bit i; the 16-bit shifts take
an unsigned literal. Nothing else changes. Rests on R340, R278, R269, R108. -/
def Obligations.ScalarShifts : Prop :=
  (∀ (s : State) (d a b : BitVec 6) (t u : BitVec 2), t ≠ 1 → u ≠ 1 →
    let x := s.scalarOpnd false t a
    let n := (s.scalarOpnd true u b).toNat % 64
    s.GivesG (.shl d t a u b) d (x <<< n) ∧ s.GivesG (.shr d t a u b) d (x >>> n) ∧
      s.GivesG (.sar d t a u b) d (x.sshiftRight n) ∧ s.GivesG (.rot d t a u b) d (x.rotateLeft n)) ∧
  (∀ (s : State) (d a : BitVec 6) (t : BitVec 2), t ≠ 1 →
    let x := s.scalarOpnd false t a
    (∃ w, s.GivesG (.clz d t a) d w ∧ (x = 0 → w = 64) ∧
      (x ≠ 0 → w.toNat < 64 ∧ x.getLsbD (63 - w.toNat) = true ∧ ∀ n, 63 - w.toNat < n → x.getLsbD n = false)) ∧
      (∃ w, s.GivesG (.ffs d t a) d w ∧ (x = 0 → w = 64) ∧
        (x ≠ 0 → w.toNat < 64 ∧ x.getLsbD w.toNat = true ∧ ∀ n, n < w.toNat → x.getLsbD n = false)) ∧
      s.GivesG (.popc d t a) d (BitVec.ofNat 64 ((List.range 64).countP x.getLsbD)) ∧
      ∃ w, s.GivesG (.brev d t a) d w ∧ ∀ n, n < 64 → w.getLsbD n = x.getLsbD (63 - n)) ∧
  ∀ (s : State) (d : BitVec 5) (n : BitVec 6),
    s.GivesG (.shlG16 d n) (d.setWidth 6) (s.g d.toNat <<< n.toNat) ∧
      s.GivesG (.shrG16 d n) (d.setWidth 6) (s.g d.toNat >>> n.toNat)

/-- O7: With a vector operand of an integer tag (and no second vector of another tag), each lane under km takes the
sum, difference, product, high product, absolute difference, quotient, remainder, minimum or maximum of the operands'
lanes mod 2^w, read signed for s types and unsigned for n types, a non-vector operand being the same element in every
lane; lanes with km = 0 keep their bits; the destination takes the tag; no flag is set; nothing else changes. Rests on
R256, R349, R322, R327, R254, R285, R310, R32, R34, R35, R252, R108. -/
def Obligations.VectorIntegers : Prop :=
  (∀ (s : State) (d a b : BitVec 6) (t u : BitVec 2) (ty : BitVec 5), s.firstTag t a u b = some ty →
    s.tagsDiffer t a u b = false → isIntTag ty = true →
    let w := laneWidth ty
    let x := fun n => laneInt ty ((s.laneOpnd false t a ty).1 n)
    let y := fun n => laneInt ty ((s.laneOpnd false u b ty).1 n)
    let gives := fun (i : Instr) (f : Nat → Int) => s.GivesLanes i d ty 0 fun n => ((f n % 2 ^ w).toNat, 0)
    gives (.add d t a u b) (fun n => x n + y n) ∧ gives (.sub d t a u b) (fun n => x n - y n) ∧
      gives (.mul d t a u b) (fun n => x n * y n) ∧ gives (.mulh d t a u b) (fun n => x n * y n / 2 ^ w) ∧
      gives (.absd d t a u b) (fun n => |x n - y n|) ∧
      gives (.div d t a u b) (fun n => if y n = 0 then -1 else (x n).tdiv (y n)) ∧
      gives (.rem d t a u b) (fun n => if y n = 0 then x n else (x n).tmod (y n)) ∧
      gives (.min d t a u b) (fun n => min (x n) (y n)) ∧ gives (.max d t a u b) (fun n => max (x n) (y n))) ∧
  (∀ (s : State) (d a : BitVec 6), isIntTag (s.v a.toNat).tag = true →
    let v := s.v a.toNat
    s.GivesLanes (.neg d 1 a) d v.tag 0 fun n =>
      ((-laneInt v.tag (lane v.bits (laneWidth v.tag) n) % 2 ^ laneWidth v.tag).toNat, 0)) ∧
  ∀ (s : State) (d : BitVec 5) (a : BitVec 6) (ty : BitVec 5), (s.v d.toNat).tag = ty → (s.v a.toNat).tag = ty →
    isIntTag ty = true →
    let w := laneWidth ty
    let x := fun n => laneInt ty (lane (s.v d.toNat).bits w n)
    let y := fun n => laneInt ty (lane (s.v a.toNat).bits w n)
    s.GivesLanes (.addV16 d a) (d.setWidth 6) ty 0 (fun n => (((x n + y n) % 2 ^ w).toNat, 0)) ∧
      s.GivesLanes (.mulV16 d a) (d.setWidth 6) ty 0 fun n => (((x n * y n) % 2 ^ w).toNat, 0)

/-- O8: With a vector operand, AND, OR, XOR and ANDN work bit by bit in every lane under km whatever the tag, a
non-vector operand being its low bits in every lane (which of a floating tag is the model's choice, log 81), and MOV
copies lanes; SHL, SHR, SAR and ROT move each integer lane by the count mod its width (a literal count is unsigned),
CLZ, FFS, POPC and BREV work within each lane; the tag is kept, no flag is set, lanes with km = 0 keep their bits and
nothing else changes. Rests on R259, R329, R362, R340, R278, R269, R319, R34, R252, R108. -/
def Obligations.VectorBitsAndShifts : Prop :=
  (∀ (s : State) (d a b : BitVec 6) (t u : BitVec 2) (ty : BitVec 5), s.firstTag t a u b = some ty →
    s.tagsDiffer t a u b = false →
    let w := laneWidth ty
    let x := s.bitOpnd t a ty
    let y := s.bitOpnd u b ty
    let gives := fun (i : Instr) (f : Nat → Nat) => s.GivesLanes i d ty 0 fun n => (f n, 0)
    gives (.and d t a u b) (fun n => x n &&& y n) ∧ gives (.or d t a u b) (fun n => x n ||| y n) ∧
      gives (.xor d t a u b) (fun n => x n ^^^ y n) ∧
      gives (.andn d t a u b) (fun n => x n &&& (2 ^ w - 1 - y n % 2 ^ w)) ∧
      (isIntTag ty = true →
        let x := fun n => BitVec.ofNat w ((s.laneOpnd false t a ty).1 n)
        let c := fun n => (s.laneOpnd true u b ty).1 n % w
        let gives := fun (i : Instr) (f : Nat → BitVec w) => s.GivesLanes i d ty 0 fun n => ((f n).toNat, 0)
        gives (.shl d t a u b) (fun n => x n <<< c n) ∧ gives (.shr d t a u b) (fun n => x n >>> c n) ∧
          gives (.sar d t a u b) (fun n => (x n).sshiftRight (c n)) ∧
          gives (.rot d t a u b) (fun n => (x n).rotateLeft (c n)))) ∧
  (∀ (s : State) (d a : BitVec 6),
    let v := s.v a.toNat
    let x := lane v.bits (laneWidth v.tag)
    s.GivesLanes (.mov d 1 a) d v.tag 0 (fun n => (x n, 0)) ∧
      (isIntTag v.tag = true →
        s.GivesLanes (.clz d 1 a) d v.tag 0 (fun n => (clz (laneWidth v.tag) (x n), 0)) ∧
          s.GivesLanes (.ffs d 1 a) d v.tag 0 (fun n => (ffs (laneWidth v.tag) (x n), 0)) ∧
          s.GivesLanes (.popc d 1 a) d v.tag 0 (fun n => ((List.range (laneWidth v.tag)).countP (x n).testBit, 0)) ∧
          s.GivesLanes (.brev d 1 a) d v.tag 0 fun n => (brev (laneWidth v.tag) (x n), 0))) ∧
  ∀ (s : State) (d : BitVec 5) (a : BitVec 6),
    let v := s.v a.toNat
    (s.clear (.movV16 d a) = true → ∃ t, exec (.movV16 d a) s = .next t ∧
      s.Completes t (.movV16 d a) [.v d.toNat, .status 0x08]) ∧
    s.GivesLanes (.movV16 d a) (d.setWidth 6) v.tag 0 fun n => (lane v.bits (laneWidth v.tag) n, 0)

/-- O9: With a vector operand of a floating tag, each lane under km takes the sum, difference, product, quotient,
minimum, maximum, absolute difference or fused product-sum of the operands' exact values, rounded once to the tag's
format in rmode, with the flags of the active lanes and of a converted scalar operand; ABSD clears the sign, NEG flips
it and gives the canonical NaN for a NaN; FMA and FMS require the old vD to carry the same tag. Nothing else changes.
Rests on R37, R38, R39, R40, R256, R349, R322, R327, R285, R310, R254, R292. -/
def Obligations.VectorFloats : Prop :=
  (∀ (s : State) (d a b : BitVec 6) (t u : BitVec 2) (ty : BitVec 5), s.firstTag t a u b = some ty →
    s.tagsDiffer t a u b = false → isFloatTag ty = true →
    let fmt := floatFmt ty
    let x := fun n => fmt.decode ((s.laneOpnd false t a ty).1 n)
    let y := fun n => fmt.decode ((s.laneOpnd false u b ty).1 n)
    let flags := (s.laneOpnd false t a ty).2 ||| (s.laneOpnd false u b ty).2
    let m := s.me.rmode
    s.GivesLanes (.add d t a u b) d ty flags (fun n => fpAdd fmt m (x n) (y n)) ∧
      s.GivesLanes (.sub d t a u b) d ty flags (fun n => fpSub fmt m (x n) (y n)) ∧
      s.GivesLanes (.mul d t a u b) d ty flags (fun n => fpMul fmt m (x n) (y n)) ∧
      s.GivesLanes (.div d t a u b) d ty flags (fun n => fpDiv fmt m (x n) (y n)) ∧
      s.GivesLanes (.min d t a u b) d ty flags (fun n => fpMinMax fmt false (x n) (y n)) ∧
      s.GivesLanes (.max d t a u b) d ty flags (fun n => fpMinMax fmt true (x n) (y n)) ∧
      s.GivesLanes (.absd d t a u b) d ty flags
        (fun n => ((fpSub fmt m (x n) (y n)).1 % 2 ^ (fmt.e + fmt.m), (fpSub fmt m (x n) (y n)).2)) ∧
      ((s.v d.toNat).tag = ty →
        let z := fun n => fmt.decode (lane (s.v d.toNat).bits (laneWidth ty) n)
        s.GivesLanes (.fma d t a u b) d ty flags (fun n => fpFma fmt m (x n) (y n) (z n)) ∧
          s.GivesLanes (.fms d t a u b) d ty flags (fun n => fpFma fmt m (x n) (y n) (z n).neg))) ∧
  (∀ (s : State) (d a : BitVec 6), isFloatTag (s.v a.toNat).tag = true →
    let v := s.v a.toNat
    let fmt := floatFmt v.tag
    let c := lane v.bits (laneWidth v.tag)
    s.GivesLanes (.neg d 1 a) d v.tag 0 fun n =>
      if (fmt.decode (c n)).isNan then (fmt.nanCode, if (fmt.decode (c n)).isSignalling then flagInvalid else 0)
      else ((c n + 2 ^ (fmt.e + fmt.m)) % 2 ^ laneWidth v.tag, 0)) ∧
  ∀ (s : State) (d : BitVec 5) (a : BitVec 6) (ty : BitVec 5), (s.v d.toNat).tag = ty → (s.v a.toNat).tag = ty →
    isFloatTag ty = true →
    let fmt := floatFmt ty
    let x := fun n => fmt.decode (lane (s.v d.toNat).bits (laneWidth ty) n)
    let y := fun n => fmt.decode (lane (s.v a.toNat).bits (laneWidth ty) n)
    s.GivesLanes (.addV16 d a) (d.setWidth 6) ty 0 (fun n => fpAdd fmt s.me.rmode (x n) (y n)) ∧
      s.GivesLanes (.mulV16 d a) (d.setWidth 6) ty 0 fun n => fpMul fmt s.me.rmode (x n) (y n)

/-- O10: FMA and FMS of integer lanes give a*b + c and a*b - c mod 2^w, c the old lane of vD under the same tag. DOT
of s8 or n8 sums four adjacent products, of s16 or n16 two, onto the old s32 lane mod 2^32, with km selecting the 16
result lanes and result tag s32. Nothing else changes. On a floating vector each lane under km takes the function of
the exact value of the source lane, rounded to the tag's format in rmode with its flags; SCALE multiplies by 2 to the
clamped integer operand; DOT adds two adjacent products to the old lane of the wider type and rounds once, lanes above
the output count being written +0. Nothing else changes. Rests on R292, R41, R288, R51, R286, R50, R252. -/
def Obligations.VectorFusedAndSpecial : Prop :=
  (∀ (s : State) (d a b : BitVec 6) (t u : BitVec 2) (ty : BitVec 5), s.firstTag t a u b = some ty →
    s.tagsDiffer t a u b = false → isIntTag ty = true → (s.v d.toNat).tag = ty →
    let w := laneWidth ty
    let x := fun n => laneInt ty ((s.laneOpnd false t a ty).1 n)
    let y := fun n => laneInt ty ((s.laneOpnd false u b ty).1 n)
    let z := fun n => laneInt ty (lane (s.v d.toNat).bits w n)
    s.GivesLanes (.fma d t a u b) d ty 0 (fun n => (((x n * y n + z n) % 2 ^ w).toNat, 0)) ∧
      s.GivesLanes (.fms d t a u b) d ty 0 fun n => (((x n * y n - z n) % 2 ^ w).toNat, 0)) ∧
  (∀ (s : State) (d a b : BitVec 6) (ty : BitVec 5), (s.v a.toNat).tag = ty → (s.v b.toNat).tag = ty → ty.toNat < 4 →
    let w := laneWidth ty
    let k := 32 / w
    let x := fun n => laneInt ty (lane (s.v a.toNat).bits w n)
    let y := fun n => laneInt ty (lane (s.v b.toNat).bits w n)
    s.GivesLanes (.dot d a b) d 5 0 fun n =>
      (((((List.range k).map fun j => x (k * n + j) * y (k * n + j)).sum + lane (s.v d.toNat).bits 32 n) % 2 ^ 32).toNat, 0)) ∧
  (∀ (s : State) (d a : BitVec 6), isFloatTag (s.v a.toNat).tag = true →
    let v := s.v a.toNat
    let fmt := floatFmt v.tag
    let x := fun n => fmt.decode (lane v.bits (laneWidth v.tag) n)
    let m := s.me.rmode
    s.GivesLanes (.sqrt d a) d v.tag 0 (fun n => fpSqrt fmt m (x n)) ∧
      s.GivesLanes (.rsq d a) d v.tag 0 (fun n => fpRsq fmt m (x n)) ∧
      s.GivesLanes (.rcp d a) d v.tag 0 (fun n => fpRcp fmt m (x n)) ∧
      s.GivesLanes (.exp2 d a) d v.tag 0 (fun n => fpExp2 fmt m (x n)) ∧
      s.GivesLanes (.log2 d a) d v.tag 0 (fun n => fpLog2 fmt m (x n)) ∧
      s.GivesLanes (.tanh d a) d v.tag 0 (fun n => fpTanh fmt m (x n)) ∧
      ∀ (u : BitVec 2) (b : BitVec 6), u ≠ 1 →
        s.GivesLanes (.scale d a u b) d v.tag 0 fun n => scaleFloat fmt m (s.scalarOpnd false u b).toInt (x n)) ∧
  ∀ (s : State) (d a b : BitVec 6) (ty : BitVec 5), (s.v a.toNat).tag = ty → (s.v b.toNat).tag = ty →
    isFloatTag ty = true →
    let w := laneWidth ty
    let res : BitVec 5 := if ty = 11 then 11 else 10
    let x := lane (s.v a.toNat).bits w
    let y := lane (s.v b.toNat).bits w
    s.GivesLanes (.dot d a b) d res 0 fun n =>
      if laneCount ty / 2 ≤ n then (0, 0)
      else dotFloat (floatFmt ty) (floatFmt res) s.me.rmode [x (2 * n), x (2 * n + 1)] [y (2 * n), y (2 * n + 1)]
        (lane (s.v d.toNat).bits (laneWidth res) n)

/-- O11: With a vector operand of an integer, floating or qid tag, bit i of kD becomes the relation of lane i of the
operands for each lane with km bit i set; the other bits of kD, and those at or above the lane count, stay. Floating
lanes compare exact values and set invalid for a signalling NaN, CLT and CLE for any NaN. Nothing else changes. Rests
on R275, R39, R40, R108. -/
def Obligations.VectorCompares : Prop :=
  ∀ (s : State) (d a b : BitVec 6) (t u : BitVec 2) (ty : BitVec 5), s.firstTag t a u b = some ty →
    s.tagsDiffer t a u b = false → (isIntTag ty || isFloatTag ty || isQid ty) = true →
    let x := (s.laneOpnd false t a ty).1
    let y := (s.laneOpnd false u b ty).1
    let compares := fun (i : Instr) (r : Rel) => s.clear i = true → ∃ v, exec i s = .next v ∧
      s.Completes v i [.k d.toNat, .status 0x08] ∧
      (∀ n, n < 64 → (v.me.readK d.toNat).getLsbD n =
        if n < laneCount ty && s.me.km.getLsbD n then (relLane r ty (x n) (y n)).1 else (s.me.readK d.toNat).getLsbD n) ∧
      (isFloatTag ty = false → v.me.fpf = s.me.fpf)
    compares (.ceq d t a u b) .eq ∧ compares (.cne d t a u b) .ne ∧ compares (.clt d t a u b) .lt ∧
      compares (.cle d t a u b) .le

/-- O12: RSUM of integer lanes writes to lane 0 the sum mod 2^w of the lanes under km, RMAX and RMIN the largest or
smallest, or the least or greatest value of the type when km excludes every lane, ROR the OR of all bits of the lanes;
the other lanes keep their bits under the source's tag. On floating lanes RSUM, RMAX and RMIN combine the lanes in the
fixed tree order, with the flags of its operations. Each completes on every tag that it accepts; RSUM, RMAX and RMIN
take a format fault on another. Nothing else changes. Rests on R339, R108. -/
def Obligations.Reductions : Prop :=
  ∀ (s : State) (d a : BitVec 6),
    let v := s.v a.toNat
    let w := laneWidth v.tag
    let x := (activeLanes s.me.km (laneCount v.tag)).map fun n => lane v.bits w n
    let xs := x.map (laneInt v.tag)
    let number := (isIntTag v.tag || isFloatTag v.tag) = true
    -- each completes, or the tag is refused
    (s.clear (.ror d a) = true → ∃ t, exec (.ror d a) s = .next t ∧ s.Completes t (.ror d a) [.v d.toNat, .status 0x08]) ∧
    (number → s.clear (.rsum d a) = true →
      ∃ t, exec (.rsum d a) s = .next t ∧ s.Completes t (.rsum d a) [.v d.toNat, .status 0x08]) ∧
    (number → s.clear (.rmax d a) = true →
      ∃ t, exec (.rmax d a) s = .next t ∧ s.Completes t (.rmax d a) [.v d.toNat, .status 0x08]) ∧
    (number → s.clear (.rmin d a) = true →
      ∃ t, exec (.rmin d a) s = .next t ∧ s.Completes t (.rmin d a) [.v d.toNat, .status 0x08]) ∧
    (¬number → s.Traps (.rsum d a) 0x02 0 (formatVal v.tag 0 0) ∧ s.Traps (.rmax d a) 0x02 0 (formatVal v.tag 0 0) ∧
      s.Traps (.rmin d a) 0x02 0 (formatVal v.tag 0 0)) ∧
    -- and what it writes
    let reduces := fun (i : Instr) (ok : Nat → Prop) (flags : BitVec 5) => s.clear i = true → ∃ t, exec i s = .next t ∧
      s.Completes t i [.v d.toNat, .status 0x08] ∧ (t.v d.toNat).tag = v.tag ∧
      (t.v d.toNat).poison = poisonedSource i s ∧ ok (lane (t.v d.toNat).bits w 0) ∧ t.me.fpf = s.me.fpf ||| flags ∧
      ∀ n, 0 < n → n < laneCount v.tag → lane (t.v d.toNat).bits w n = lane (s.v d.toNat).bits w n
    reduces (.ror d a) (fun r => r = x.foldl (· ||| ·) 0) 0 ∧
      (isIntTag v.tag = true →
        reduces (.rsum d a) (fun r => r = (xs.sum % 2 ^ w).toNat) 0 ∧
          reduces (.rmax d a) (fun r => laneInt v.tag r = xs.foldl max (intLo (isSigned v.tag) w)) 0 ∧
          reduces (.rmin d a) (fun r => laneInt v.tag r = xs.foldl min (intHi (isSigned v.tag) w)) 0) ∧
      (isFloatTag v.tag = true →
        let tree := fun op : BitVec 5 → BitVec 2 → Nat → Nat → Coded =>
          reduceTree (op v.tag s.me.rmode) 7
            ((List.range (laneCount v.tag)).map fun n => if s.me.km.getLsbD n then some (lane v.bits w n) else none) 0
        let combines := fun (i : Instr) (r : Option Nat × BitVec 5) (empty : Nat) =>
          reduces i (fun x => x = r.1.getD empty % 2 ^ w) r.2
        combines (.rsum d a) (tree laneAdd) 0 ∧ combines (.rmax d a) (tree (laneMinMax true)) (extreme true v.tag) ∧
          combines (.rmin d a) (tree (laneMinMax false)) (extreme false v.tag))

/-- O13: With valid types CVT converts each lane under km to the named type, integers saturating to the destination's
range and lanes beyond the source's count becoming 0; CVTF of f16, bf16 or f32 gives the codes of the error-feedback
loop, started from efr and left in efr only when chained, lanes with km = 0 keeping their bits; TAG copies all 512
bits under the new tag. Nothing else changes. Rests on R46, R47, R48, R42, R284, R252, R108. -/
def Obligations.Conversions : Prop :=
  (∀ (s : State) (d a l : BitVec 6),
    let v := s.v a.toNat
    let ty : BitVec 5 := l.setWidth 5
    isRaw v.tag = false → isRaw ty = false → s.me.badNarrow v.tag = false → s.me.badNarrow ty = false →
    s.GivesLanes (.cvt d a l) d ty 0 (fun n =>
      if n < laneCount v.tag ∧ n < laneCount ty then s.me.convert v.tag ty (lane v.bits (laneWidth v.tag) n) else (0, 0)) ∧
      (isIntTag v.tag = true → isIntTag ty = true → ∀ c,
        (s.me.convert v.tag ty c).1 = ((max (intLo (isSigned ty) (laneWidth ty)) (min (intHi (isSigned ty) (laneWidth ty))
          (laneInt v.tag c))) % 2 ^ laneWidth ty).toNat)) ∧
  (∀ (s : State) (d a l : BitVec 6),
    let v := s.v a.toNat
    let ty : BitVec 5 := l.setWidth 5
    v.tag = 8 ∨ v.tag = 9 ∨ v.tag = 10 → ty = 8 ∨ ty = 9 ∨ isNarrow ty = true → s.me.badNarrow ty = false →
    s.clear (.cvtf d a l) = true → ∃ t, exec (.cvtf d a l) s = .next t ∧
      s.Completes t (.cvtf d a l) [.v d.toNat, .status 0x08, .status 0x09] ∧ (t.v d.toNat).tag = ty ∧
      (t.v d.toNat).poison = poisonedSource (.cvtf d a l) s ∧ (l.getLsbD 5 = false → t.me.efr = s.me.efr) ∧
      (let dst := if isNarrow ty then (s.me.narrow ty).getD fmtF32 else floatFmt ty
       let w := laneWidth ty
       let r := cvtfLanes s.me.km (floatFmt v.tag) dst (isNarrow ty && !dst.sgn) (lane (s.v d.toNat).bits w)
         (lane v.bits (laneWidth v.tag)) (laneCount v.tag) 0 (if l.getLsbD 5 then s.me.efr.toNat else 0, 0)
       (l.getLsbD 5 = true → t.me.efr = BitVec.ofNat 32 r.2.1) ∧ t.me.fpf = s.me.fpf ||| r.2.2 ∧
         ∀ n, n < laneCount ty → lane (t.v d.toNat).bits w n =
           if s.me.km.getLsbD n = false then lane (s.v d.toNat).bits w n
           else if n < laneCount v.tag then r.1.getD n 0 % 2 ^ w else 0)) ∧
  ∀ (s : State) (d a l : BitVec 6), s.me.badNarrow (s.v a.toNat).tag = false → s.me.badNarrow (l.setWidth 5) = false →
    s.clear (.tag d a l) = true → ∃ t, exec (.tag d a l) s = .next t ∧ s.Completes t (.tag d a l) [.v d.toNat] ∧
      t.v d.toNat = { bits := (s.v a.toNat).bits, tag := l.setWidth 5, poison := poisonedSource (.tag d a l) s }

/-- O14: SHUF takes lane vI(i) mod the lane count, or within groups of eight the entry of the constant's byte mod 8;
BCAST writes one converted value to every lane of the named type; SLIDE brings lane i + k down to lane i and zeros
past the end; ZIP interleaves the low halves of two vectors of one tag. Lanes with km = 0 keep their bits and nothing
else changes. Rests on R344, R266, R345, R363, R252, R108. -/
def Obligations.Permutes : Prop := ∀ (s : State) (d a b : BitVec 6),
  let v := s.v a.toNat
  let x := lane v.bits (laneWidth v.tag)
  s.GivesLanes (.shuf d a 1 b) d v.tag 0
      (fun n => (x (lane (s.v b.toNat).bits (laneWidth v.tag) n % laneCount v.tag), 0)) ∧
    s.GivesLanes (.shuf d a 2 b) d v.tag 0
      (fun n => (x (8 * (n / 8) + ((s.here.consts.getD b.toNat 0).toNat / 2 ^ (8 * (n % 8))) % 8), 0)) ∧
    (∀ u, u ≠ 1 → s.GivesLanes (.slide d a u b) d v.tag 0 fun n =>
      (if n + (s.scalarOpnd true u b).toNat < laneCount v.tag then x (n + (s.scalarOpnd true u b).toNat) else 0, 0)) ∧
    ((s.v b.toNat).tag = v.tag → s.GivesLanes (.zip d a b) d v.tag 0 fun n =>
      (if n % 2 = 0 then x (n / 2) else lane (s.v b.toNat).bits (laneWidth v.tag) (n / 2), 0)) ∧
    ∀ t, t ≠ 1 →
      let ty : BitVec 5 := b.setWidth 5
      let w := s.scalarOpnd false t a
      let e : Coded := if t ≠ 2 ∧ isFloatTag ty = true then (wordValue w).toFloat (floatFmt ty) 0
        else (w.toNat % 2 ^ laneWidth ty, 0)
      s.GivesLanes (.bcast d t a b) d ty e.2 fun _ => (e.1, 0)

/-- O15: SEL takes lane i from the first source where km bit i is 1 and from the second elsewhere; MVS moves one lane,
its index taken mod the lane count, to gD, sign-extended for s types and zero-extended otherwise; MVV writes one
converted scalar to one lane of vD and keeps the others and the tag. KAND, KOR and KNOT write the AND, OR and NOT of
all 64 bits of their k sources to kD whatever km holds; KUSE writes k(s1) to km; a k register number outside 0-7 is an
illegal instruction. Nothing else changes. Rests on R343, R323, R324, R303, R108. -/
def Obligations.LaneMoves : Prop :=
  (∀ (s : State) (d a b : BitVec 6), (s.v b.toNat).tag = (s.v a.toNat).tag → s.clear (.sel d a b) = true →
    let v := s.v a.toNat
    let w := laneWidth v.tag
    ∃ t, exec (.sel d a b) s = .next t ∧ s.Completes t (.sel d a b) [.v d.toNat] ∧ (t.v d.toNat).tag = v.tag ∧
      (t.v d.toNat).poison = poisonedSource (.sel d a b) s ∧ ∀ n, n < laneCount v.tag →
        lane (t.v d.toNat).bits w n = if s.me.km.getLsbD n then lane v.bits w n else lane (s.v b.toNat).bits w n) ∧
  (∀ (s : State) (d a b : BitVec 6) (u : BitVec 2), u ≠ 1 →
    let v := s.v a.toNat
    let n := (s.scalarOpnd true u b).toNat % laneCount v.tag
    s.GivesG (.mvs d a u b) d (BitVec.ofInt 64 (laneInt v.tag (lane v.bits (laneWidth v.tag) n)))) ∧
  (∀ (s : State) (d a b : BitVec 6) (t u : BitVec 2), t ≠ 1 → u ≠ 1 → s.clear (.mvv d t a u b) = true →
    let v := s.v d.toNat
    let w := laneWidth v.tag
    let n := (s.scalarOpnd true u b).toNat % laneCount v.tag
    ∃ x, exec (.mvv d t a u b) s = .next x ∧ s.Completes x (.mvv d t a u b) [.v d.toNat, .status 0x08] ∧
      (x.v d.toNat).tag = v.tag ∧ (x.v d.toNat).poison = poisonedSource (.mvv d t a u b) s ∧
      lane (x.v d.toNat).bits w n = (s.element false t a v.tag).1 % 2 ^ w ∧
      x.me.fpf = s.me.fpf ||| (s.element false t a v.tag).2 ∧
      ∀ m, m ≠ n → m < laneCount v.tag → lane (x.v d.toNat).bits w m = lane v.bits w m) ∧
  ∀ (s : State) (d a b : BitVec 6),
    let gives := fun (i : Instr) (w : Word) => s.clear i = true → ∃ t, exec i s = .next t ∧
      s.Completes t i [.k d.toNat] ∧ t.me.readK d.toNat = w
    gives (.kand d a b) (s.me.readK a.toNat &&& s.me.readK b.toNat) ∧
      gives (.kor d a b) (s.me.readK a.toNat ||| s.me.readK b.toNat) ∧ gives (.knot d a) (~~~(s.me.readK a.toNat)) ∧
      (s.clear (.kuse a) = true → ∃ t, exec (.kuse a) s = .next t ∧ s.Completes t (.kuse a) [.status 0x06] ∧
        t.me.km = s.me.readK a.toNat) ∧
      (Instr.illFormed (.kand d a b) = none ↔ d.toNat < 8 ∧ a.toNat < 8 ∧ b.toNat < 8) ∧
      (Instr.illFormed (.knot d a) = none ↔ d.toNat < 8 ∧ a.toNat < 8) ∧ (Instr.illFormed (.kuse a) = none ↔ a.toNat < 8)

/-- O16: The four set operations work on all 1,024 bits of the q registers; QCNT writes the number of members to gD;
QIDX writes up to 16 members from gC on, in rising order, to n32 lanes of vD, all ones elsewhere, sets km to the valid
lanes and gC past the last, or to 1,024, both destinations taking the sources' poison; QMARK and QCLR add or remove
the members that the lanes of an index vector under km name, those of 1,024 and above being ignored. Nothing else
changes. Rests on R177, R178, R179, R180. -/
def Obligations.MembershipSets : Prop := ∀ (s : State) (d a b : BitVec 6),
  let gives := fun (i : Instr) (w : QSet) => s.clear i = true → ∃ t, exec i s = .next t ∧
    s.Completes t i [.q d.toNat] ∧ t.me.readQ d.toNat = w
  gives (.qand d a b) (s.me.readQ a.toNat &&& s.me.readQ b.toNat) ∧
    gives (.qor d a b) (s.me.readQ a.toNat ||| s.me.readQ b.toNat) ∧
    gives (.qandn d a b) (s.me.readQ a.toNat &&& ~~~(s.me.readQ b.toNat)) ∧
    gives (.qxor d a b) (s.me.readQ a.toNat ^^^ s.me.readQ b.toNat) ∧
    s.GivesG (.qcnt d a) d (BitVec.ofNat 64 ((List.range 1024).countP (s.me.readQ a.toNat).getLsbD)) ∧
    (let i := Instr.qidx d a b
     let found := ((List.range 1024).filter fun n =>
       decide ((s.g b.toNat).toNat ≤ n) && (s.me.readQ a.toNat).getLsbD n).take 16
     s.clear i = true → ∃ t, exec i s = .next t ∧ s.Completes t i [.v d.toNat, .g b.toNat, .status 0x06] ∧
       (t.v d.toNat).tag = 4 ∧ (t.v d.toNat).poison = poisonedSource i s ∧ (∀ n, n < 16 → lane (t.v d.toNat).bits 32 n = found.getD n 0xFFFFFFFF) ∧
       (∀ n, n < 64 → t.me.km.getLsbD n = decide (n < found.length)) ∧
       t.me.readG b.toNat = writtenG b.toNat
         (BitVec.ofNat 64 (if found.length = 16 then found.getLastD 0 + 1 else 1024)) (poisonedSource i s)) ∧
    (let v := s.v a.toNat
     let named := fun n => (activeLanes s.me.km (laneCount v.tag)).any fun l => lane v.bits (laneWidth v.tag) l == n
     v.tag = 2 ∨ v.tag = 4 ∨ v.tag = 12 →
       (s.clear (.qmark d a) = true → ∃ t, exec (.qmark d a) s = .next t ∧ s.Completes t (.qmark d a) [.q d.toNat] ∧
         ∀ n, n < 1024 → (t.me.readQ d.toNat).getLsbD n = ((s.me.readQ d.toNat).getLsbD n || named n)) ∧
       (s.clear (.qclr d a) = true → ∃ t, exec (.qclr d a) s = .next t ∧ s.Completes t (.qclr d a) [.q d.toNat] ∧
         ∀ n, n < 1024 → (t.me.readQ d.toNat).getLsbD n = ((s.me.readQ d.toNat).getLsbD n && !named n)))

/-- O17: When clear, with outstanding loads returned, each vector instruction named traps with cause 0x02 and the tags
of its vector sources in tval, and nothing of its effect stays: the arithmetic ones on qid, narrow and raw tags, the
integer ones on any other tag, MIN, MAX and the compares on narrow and raw tags, the special functions on non-floating
tags, QMARK and QCLR on tags that name no index, and every two-operand one on two vectors of different tags. Rests on
R34, R46, R256, R259, R275, R285, R288, R310, R340, R343, R363, R95. -/
def Obligations.FormatFaults : Prop := ∀ (s : State) (d a b : BitVec 6) (t u : BitVec 2) (ty : BitVec 5),
  s.firstTag t a u b = some ty →
  let bad := s.tagsDiffer t a u b
  let faults := fun i : Instr => s.Traps i 0x02 0 (s.formatVal2 t a u b)
  ((isIntTag ty || isFloatTag ty) = false ∨ bad = true →
    faults (.add d t a u b) ∧ faults (.sub d t a u b) ∧ faults (.mul d t a u b) ∧ faults (.absd d t a u b) ∧
      faults (.div d t a u b)) ∧
    (isIntTag ty = false ∨ bad = true → faults (.mulh d t a u b) ∧ faults (.rem d t a u b) ∧ faults (.shl d t a u b) ∧
      faults (.shr d t a u b) ∧ faults (.sar d t a u b) ∧ faults (.rot d t a u b)) ∧
    ((isIntTag ty || isFloatTag ty || isQid ty) = false ∨ bad = true → faults (.min d t a u b) ∧ faults (.max d t a u b) ∧
      faults (.ceq d t a u b) ∧ faults (.cne d t a u b) ∧ faults (.clt d t a u b) ∧ faults (.cle d t a u b)) ∧
    (bad = true → faults (.and d t a u b) ∧ faults (.or d t a u b) ∧ faults (.xor d t a u b) ∧
      faults (.andn d t a u b) ∧ faults (.zip d a b) ∧ faults (.sel d a b)) ∧
    (let one := formatVal (s.v a.toNat).tag 0 0
     (isFloatTag (s.v a.toNat).tag = false → s.Traps (.sqrt d a) 0x02 0 one ∧ s.Traps (.rsq d a) 0x02 0 one ∧
       s.Traps (.rcp d a) 0x02 0 one ∧ s.Traps (.exp2 d a) 0x02 0 one ∧ s.Traps (.log2 d a) 0x02 0 one ∧
       s.Traps (.tanh d a) 0x02 0 one) ∧
     (isIntTag (s.v a.toNat).tag = false → s.Traps (.clz d 1 a) 0x02 0 one ∧ s.Traps (.ffs d 1 a) 0x02 0 one ∧
       s.Traps (.popc d 1 a) 0x02 0 one ∧ s.Traps (.brev d 1 a) 0x02 0 one) ∧
     ((isIntTag (s.v a.toNat).tag || isFloatTag (s.v a.toNat).tag) = false →
       s.Traps (.neg d 1 a) 0x02 0 one ∧ s.Traps (.rsum d a) 0x02 0 one ∧ s.Traps (.rmax d a) 0x02 0 one ∧
       s.Traps (.rmin d a) 0x02 0 one) ∧
     ((s.v a.toNat).tag ≠ 2 ∧ (s.v a.toNat).tag ≠ 4 ∧ (s.v a.toNat).tag ≠ 12 →
       s.Traps (.qmark d a) 0x02 0 one ∧ s.Traps (.qclr d a) 0x02 0 one))

/-- O18: For every instruction with an encoding and every value its fields admit, the bytes of its word decode to it,
whatever follows, and to no other size; a row without an encoding is decoded from no bytes. Rests on R123, R125, R126,
R127, R128, R129, R130, R131, R132, R133, R134, R135. -/
def Obligations.DecodeEncode : Prop :=
  (∀ (i : Instr) (c : Code) (rest : List Byte), i.illFormed = none → encode i = some c →
    decode (c.bytes ++ rest) = .ok (i, rest) ∧ c.bytes.length = c.size) ∧
  ∀ (i : Instr) (bytes rest : List Byte), encode i = none → decode bytes ≠ .ok (i, rest)

/-- O19: One word of each format: C00C1014 is ADD g3,g4,g5; 6909 the 16-bit ADD v4,v4,v9; D1282F9C ADDI g10,g2,-100;
E827FF38 BNZ g9,-200; ED001000 BR 4096; D5246301 LD.n64 g9,[g6+8]; E020425B ACAS.dev.ar g8,[g4],g9; E5000018
FENCE.dev; EF000505 BKPT 5; F010590F HALLOC g4,g5,e9; F4180103 MEETQ g6,q1; FFFFFFFF and FFFF are no instruction.
Rests on R125, R126, R127, R128, R129, R130, R131, R132, R133, R135, R123. -/
def Obligations.DecodeWords : Prop :=
  let word := fun (w : BitVec 32) => decode (Code.wide w).bytes
  word 0xC00C1014 = .ok (.add 3 0 4 0 5, []) ∧
    decode (Code.short 0x6909).bytes = .ok (.addV16 4 9, []) ∧
    word 0xD1282F9C = .ok (.addi 10 2 (-100), []) ∧
    word 0xE827FF38 = .ok (.bnz 9 (-200), []) ∧
    word 0xED001000 = .ok (.br 4096, []) ∧
    word 0xD5246301 = .ok (.ld 9 6 6 1, []) ∧
    word 0xE020425B = .ok (.acas 8 4 9 6 3, []) ∧
    word 0xE5000018 = .ok (.fence 6 0, []) ∧
    word 0xEF000505 = .ok (.bkpt 5, []) ∧
    word 0xF010590F = .ok (.halloc 4 5 9, []) ∧
    word 0xF4180103 = .ok (.meetq 6 1, []) ∧
    (∀ r, word 0xFFFFFFFF ≠ .ok r) ∧ decodeTableWord 32 0xC00C1014 = some (.add 3 0 4 0 5)

/-- O20: When the next turn is a ready context's (outside a gang, no trap awaiting Bilrok) and the core's issue slot
of the cycle is its own, and the instruction buffer holds a word at its pc, the step is exec of the instruction the
word decodes to, at that state with that context as the issuing one, the slot taken, and fetch run ahead of the pc; a
word that decodes to nothing is an illegal instruction. When the line is not in the buffer, an executable translation
is held and the line stands clean in main memory of the domain, the line is put into the buffer first. Whose turn is
next is the model's agenda (log 5). Rests on R15, R20, R123, R134, R65, R28. -/
def Obligations.StepRunsDecoded : Prop :=
  ∀ (s : State) (c x : Nat) (rest : List Turn), s.agenda = .issue c x :: rest →
    let u := { s with agenda := rest, cur := (c, x) }
    let pc := (s.ctx c x).pc
    (s.core c).gang = none → u.ready c x = true → (x = 0 → (s.core c).atBilrok = false) → u.slot c x = true →
    (∀ (code : Code) (i : Instr), u.holdsCode c pc code → decode code.bytes = .ok (i, []) →
      step s = exec i ((u.fetched c x pc code.size).issuing c x)) ∧
    (∀ (code : Code) (r : Reject), u.holdsCode c pc code → decode code.bytes = .error r →
      step s = exec (.illegalInstruction (BitVec.ofNat 32 code.value.toNat) (code.size == 4))
        ((u.fetched c x pc code.size).issuing c x)) ∧
    ∀ (code : Code) (i : Instr) (t : Trans),
      let va := bitsN pc 56 0
      let pa := t.pa + (va - t.va)
      let line : CodeLine :=
        { va := va / 64 * 64, bytes := s.dram.read (pa / 64 * 64) 64, poison := false, half := (s.ctx c x).half }
      let v := u.modCore c fun k => k.addLine line
      (u.core c).buffer.find? (fun l => decide (l.va = va / 64 * 64)) = none → pc.getLsbD 0 = false → va % 64 + code.size ≤ 64 →
      s.lookup c va = some t → t.x = true → inPeer (pa / 64 * 64) = false →
      s.owned (s.odiOf c) (pa / 64 * 64) = true → s.arrayBusy (.channel (channelOf (pa / 64 * 64))) = false →
      Tab.get false s.dramBad (pa / 64) = false → v.holdsCode c pc code → decode code.bytes = .ok (i, []) →
      step s = exec i ((v.fetched c x pc code.size).issuing c x)

/-- O21: When the location is the core's own local memory and passes the checks and meets nothing that the outbox of a
pair holds, LD writes the bytes there, zero-extended or sign-extended by the class, to gD, with their poison mark or a
source's; its 16-bit form loads 64 bits at the base; VLD writes the elements of the active lanes, keeps the other
lanes, and gives vD the class as tag; QLD writes 128 bytes to qD and sets chk bit 0 when they are poisoned; LDAQ
writes 64 bits. Nothing else changes but what an acquire notes: releases seen and chk bit 1. Rests on R304, R358,
R335, R305, R78, R55, R44, R108. -/
def Obligations.LocalLoads : Prop :=
  (∀ (s : State) (d b : BitVec 6) (c : BitVec 5) (o : BitVec 7) (offs : List Nat),
    let n := classSize c
    let got := s.here.store.load offs
    s.nearAt (s.formatM b o n) n n .read offs → (s.logUndo []).isSome → s.apart (s.formatM b o n) n → s.clear (.ld d b c o) = true →
    ∃ u t, exec (.ld d b c o) s = .next t ∧ s.ReadsNear u ∧ u.Completes t (.ld d b c o) [.g d.toNat] ∧
      t.me.readG d.toNat = writtenG d.toNat
        (if c.toNat % 2 = 1 then (BitVec.ofNat (8 * n) (leNat got.1)).signExtend 64 else BitVec.ofNat 64 (leNat got.1))
        (got.2 || poisonedSource (.ld d b c o) s)) ∧
  (∀ (s : State) (d : BitVec 5) (b : BitVec 6) (offs : List Nat),
    let got := s.here.store.load offs
    s.nearAt (s.formatM b 0 8) 8 8 .read offs → (s.logUndo []).isSome → s.apart (s.formatM b 0 8) 8 → s.clear (.ldG16 d b) = true →
    ∃ u t, exec (.ldG16 d b) s = .next t ∧ s.ReadsNear u ∧ u.Completes t (.ldG16 d b) [.g d.toNat] ∧
      t.me.readG d.toNat =
        writtenG d.toNat (BitVec.ofNat 64 (leNat got.1)) (got.2 || poisonedSource (.ldG16 d b) s)) ∧
  (∀ (s : State) (d b : BitVec 6) (c : BitVec 5) (o : BitVec 7) (offs : List Nat),
    let e := s.elementBits c
    let size := laneCount c * e / 8
    let got := s.here.store.load offs
    s.me.badNarrow c = false → s.nearAt (s.formatM b o 64) size size .read offs →
    (s.logUndo []).isSome → s.apart (s.formatM b o 64) size →
    s.clear (.vld d b c o) = true →
    ∃ u t, exec (.vld d b c o) s = .next t ∧ s.ReadsNear u ∧ u.Completes t (.vld d b c o) [.v d.toNat] ∧
      (t.v d.toNat).tag = c ∧ (t.v d.toNat).poison = (got.2 || poisonedSource (.vld d b c o) s) ∧
      ∀ n, n < laneCount c → lane (t.v d.toNat).bits (laneWidth c) n =
        if s.me.km.getLsbD n then leNat got.1 / 2 ^ (e * n) % 2 ^ e % 2 ^ s.elementWidth c
        else lane (s.v d.toNat).bits (laneWidth c) n) ∧
  (∀ (s : State) (d a : BitVec 6) (offs offs' : List Nat) (pl : Place),
    let got := s.here.store.load offs
    let more := s.here.store.load offs'
    s.check s.cur.1 s.me.walkErr (s.g a.toNat) 128 128 .read = .ok pl → pl.atIssue = true →
    s.portFree pl.home 0 = true →
    offs = s.offsetsOf pl 64 → offs' = s.offsetsOf pl.nextLine 64 → (s.logUndo []).isSome →
    s.apart (s.g a.toNat) 64 →
    s.apart (addOffset (s.g a.toNat) 64) 64 → s.clear (.qld d a) = true →
    ∃ u t, exec (.qld d a) s = .next t ∧ s.ReadsNear u ∧ u.Completes t (.qld d a) [.q d.toNat, .status 0x0A] ∧
      t.me.readQ d.toNat = leBits 1024 (got.1 ++ more.1) ∧
      t.me.chk = if got.2 || more.2 || poisonedSource (.qld d a) s then u.me.chk ||| 1 else u.me.chk) ∧
  ∀ (s : State) (d a : BitVec 6) (p : BitVec 4) (o : BitVec 2) (offs : List Nat),
    let got := s.here.store.load offs
    s.nearAt (s.g a.toNat) 8 8 .atomic offs → (s.logUndo []).isSome → s.apart (s.g a.toNat) 8 → s.clear (.ldaq d a p o) = true →
    ∃ u t, exec (.ldaq d a p o) s = .next t ∧ s.ReadsNear u ∧ u.Completes t (.ldaq d a p o) [.g d.toNat] ∧
      t.me.readG d.toNat =
        writtenG d.toNat (BitVec.ofNat 64 (leNat got.1)) (got.2 || poisonedSource (.ldaq d a p o) s)

/-- O22: When the location is the core's own local memory and passes the checks, and the store need not wait as a
release, ST stores the low bytes of gD at the effective location, its 16-bit form all 64 bits at the base; VST stores
the active elements of vD, nibbles where the narrow format packs them, and keeps the bits of the others; QST stores
qD's 128 bytes, STRL 64 bits. No register changes and every byte outside the stored ones reads as before. Rests on
R347, R358, R335, R348, R78, R55, R44, R366. -/
def Obligations.LocalStores : Prop :=
  (∀ (s : State) (d b : BitVec 6) (c : BitVec 5) (o : BitVec 7) (offs : List Nat),
    let n := classSize c
    s.here.store.ok = true → offs.Nodup → s.nearAt (s.formatM b o n) n n .write offs →
    (s.logUndo offs).isSome → s.mayStore 0 0 = true → s.clear (.st d b c o) = true →
    ∃ u t, exec (.st d b c o) s = .next t ∧ u.Completes t (.st d b c o) [] ∧
      s.StoresNear u offs (bytesOf n (s.g d.toNat))) ∧
  (∀ (s : State) (d : BitVec 5) (b : BitVec 6) (offs : List Nat),
    s.here.store.ok = true → offs.Nodup → s.nearAt (s.formatM b 0 8) 8 8 .write offs →
    (s.logUndo offs).isSome → s.mayStore 0 0 = true → s.clear (.stG16 d b) = true →
    ∃ u t, exec (.stG16 d b) s = .next t ∧ u.Completes t (.stG16 d b) [] ∧
      s.StoresNear u offs (bytesOf 8 (s.g d.toNat))) ∧
  (∀ (s : State) (d b : BitVec 6) (c : BitVec 5) (o : BitVec 7) (offs : List Nat),
    let v := s.v d.toNat
    let e := s.elementBits c
    let size := laneCount c * e / 8
    c = v.tag ∨ isRaw c = true → s.me.badNarrow c = false →
    s.here.store.ok = true → offs.Nodup → s.nearAt (s.formatM b o 64) size size .write offs →
    (s.logUndo offs).isSome → s.mayStore 0 0 = true → s.clear (.vst d b c o) = true →
    ∃ u t new, exec (.vst d b c o) s = .next t ∧ u.Completes t (.vst d b c o) [] ∧ s.StoresNear u offs new ∧
      ∀ n, n < laneCount c → leNat new / 2 ^ (e * n) % 2 ^ e =
        if s.me.km.getLsbD n then lane v.bits (laneWidth c) n % 2 ^ s.elementWidth c
        else leNat (s.here.store.load offs).1 / 2 ^ (e * n) % 2 ^ e) ∧
  (∀ (s : State) (d a : BitVec 6) (offs offs' : List Nat) (pl : Place),
    s.here.pairing = none → s.here.store.ok = true → (offs ++ offs').Nodup →
    s.check s.cur.1 s.me.walkErr (s.g a.toNat) 128 128 .write = .ok pl → pl.atIssue = true →
    s.portFree pl.home 0 = true →
    offs = s.offsetsOf pl 64 → offs' = s.offsetsOf pl.nextLine 64 → s.mayStore 0 0 = true → s.clear (.qst d a) = true →
    ∃ u t, exec (.qst d a) s = .next t ∧ u.Completes t (.qst d a) [] ∧
      s.StoresNear u (offs ++ offs') (bytesOf 128 (s.me.readQ d.toNat))) ∧
  ∀ (s : State) (a v : BitVec 6) (p : BitVec 4) (o : BitVec 2) (offs : List Nat),
    s.here.store.ok = true → offs.Nodup → s.nearAt (s.g a.toNat) 8 8 .atomic offs →
    (s.logUndo offs).isSome → s.apart (s.g a.toNat) 8 → s.mayStore o p = true → s.clear (.strl a v p o) = true →
    ∃ u t, exec (.strl a v p o) s = .next t ∧ u.Completes t (.strl a v p o) [] ∧
      s.StoresNear u offs (bytesOf 8 (s.g v.toNat))

/-- O23: When every active lane's location, the base plus the index lane times the element size, is in the core's own
local memory and passes the checks, VGTH writes each active lane of vD with the element there and keeps the other
lanes and the tag, and VSCT stores each active lane's element, a later lane over an earlier one; nothing else changes.
Rests on R357, R78, R55, R108. -/
def Obligations.GatherScatter : Prop :=
  (∀ (s : State) (d b i : BitVec 6) (offs : Nat → List Nat),
    let ty := (s.v d.toNat).tag
    let index := s.v i.toNat
    let size := laneWidth ty / 8
    let active := fun n => s.me.km.getLsbD n && decide (n < laneCount ty) && decide (n < laneCount index.tag)
    let at_ := fun n => addOffset (s.g b.toNat)
      (BitVec.ofInt 64 (laneInt index.tag (lane index.bits (laneWidth index.tag) n) * size))
    s.gatherFault ty index.tag = false → (s.logUndo []).isSome → s.clear (.vgth d b i) = true →
    (∀ n, active n = true → s.nearAt (at_ n) size size .read (offs n) ∧ s.apart (at_ n) size) →
    ∃ u t, exec (.vgth d b i) s = .next t ∧ s.ReadsNear u ∧ u.Completes t (.vgth d b i) [.v d.toNat] ∧
      (t.v d.toNat).tag = ty ∧
      ((t.v d.toNat).poison = true ↔ (∃ n, active n = true ∧ (s.here.store.load (offs n)).2 = true) ∨
        poisonedSource (.vgth d b i) s = true) ∧
      ∀ n, n < laneCount ty → lane (t.v d.toNat).bits (laneWidth ty) n =
        if active n then leNat (s.here.store.load (offs n)).1 else lane (s.v d.toNat).bits (laneWidth ty) n) ∧
  ∀ (s : State) (d b i : BitVec 6) (offs : Nat → List Nat),
    let data := s.v d.toNat
    let index := s.v i.toNat
    let size := laneWidth data.tag / 8
    let active := fun n => s.me.km.getLsbD n && decide (n < laneCount data.tag) && decide (n < laneCount index.tag)
    s.gatherFault data.tag index.tag = false → s.here.pairing = none → s.here.store.ok = true →
    s.clear (.vsct d b i) = true →
    (∀ n, active n = true → (offs n).Nodup ∧ s.nearAt (addOffset (s.g b.toNat)
      (BitVec.ofInt 64 (laneInt index.tag (lane index.bits (laneWidth index.tag) n) * size))) size size .write (offs n)) →
    ∃ u t, exec (.vsct d b i) s = .next t ∧ u.Completes t (.vsct d b i) [] ∧
      s.Touches u (((List.range 64).filter active).flatMap offs) ∧ u.me = s.me ∧
      ∀ n, active n = true → (∀ m, active m = true → n < m → ∀ a, a ∈ offs m → a ∉ offs n) →
        (offs n).map u.here.store.bytes.byte = leBytes size (lane data.bits (laneWidth data.tag) n)

/-- O24: When the location is the core's own local memory and passes the checks and meets nothing that the outbox of a
pair holds, AADD, AAND, AOR, AXOR, AMIN, AMAX, AXCH and ACAS replace the 64-bit word there by the sum, the bitwise
results, the smaller or larger as s64, the source, or the source where the word equals gD; AFADD adds to the 32 bits
there as f32; each writes the old value to gD (nothing for g0), whose poison mark is the word's (for ACAS and AFADD
also a source's). AVADD adds the active lanes of vV to the 64 bytes there. No other register and no byte elsewhere
changes. Rests on R253, R255, R258, R261, R78, R55, R366, R108. -/
def Obligations.Atomics : Prop :=
  (∀ (s : State) (d a v : BitVec 6) (p : BitVec 4) (o : BitVec 2) (offs : List Nat),
    s.here.store.ok = true → offs.Nodup → s.nearAt (s.g a.toNat) 8 8 .atomic offs → (s.logUndo offs).isSome →
    s.apart (s.g a.toNat) 8 → s.mayStore o p = true →
    let got := s.here.store.load offs
    let old := BitVec.ofNat 64 (leNat got.1)
    let x := s.g v.toNat
    let gives := fun (i : Instr) (taint : Bool) (new : Word) => s.clear i = true →
      ∃ u t, exec i s = .next t ∧ u.Completes t i [.g d.toNat] ∧ s.StoresNear u offs (bytesOf 8 new) ∧
        t.me.readG d.toNat = writtenG d.toNat old (got.2 || (taint && poisonedSource i s))
    gives (.aadd d a v p o) false (old + x) ∧ gives (.aand d a v p o) false (old &&& x) ∧ gives (.aor d a v p o) false (old ||| x) ∧
      gives (.axor d a v p o) false (old ^^^ x) ∧ gives (.amin d a v p o) false (if x.toInt < old.toInt then x else old) ∧
      gives (.amax d a v p o) false (if old.toInt < x.toInt then x else old) ∧ gives (.axch d a v p o) false x ∧
      gives (.acas d a v p o) true (if old = s.g d.toNat then x else old)) ∧
  (∀ (s : State) (d a v : BitVec 6) (p : BitVec 4) (o : BitVec 2) (offs : List Nat),
    s.here.store.ok = true → offs.Nodup → s.nearAt (s.g a.toNat) 4 4 .atomic offs → (s.logUndo offs).isSome →
    s.apart (s.g a.toNat) 4 → s.mayStore o p = true → s.clear (.afadd d a v p o) = true →
    let got := s.here.store.load offs
    ∃ u t, exec (.afadd d a v p o) s = .next t ∧ u.Completes t (.afadd d a v p o) [.g d.toNat] ∧
      s.StoresNear u offs (leBytes 4 (fpAdd fmtF32 modeRne (fmtF32.decode (leNat got.1))
        (fmtF32.decode ((s.g v.toNat).toNat % 2 ^ 32))).1) ∧
      t.me.readG d.toNat = writtenG d.toNat (BitVec.ofNat 64 (leNat got.1)) (got.2 || poisonedSource (.afadd d a v p o) s)) ∧
  ∀ (s : State) (a v : BitVec 6) (p : BitVec 4) (o : BitVec 2) (offs : List Nat),
    let x := s.v v.toNat
    let w := laneWidth x.tag
    let old : Vec := leBits 512 (s.here.store.load offs).1
    s.here.store.ok = true → offs.Nodup → s.nearAt (s.g a.toNat) 64 64 .atomic offs → (s.logUndo offs).isSome →
    s.mayStore o p = true → isIntTag x.tag = true ∨ isFloatTag x.tag = true → s.clear (.avadd a v p o) = true →
    ∃ u t new, exec (.avadd a v p o) s = .next t ∧ u.Completes t (.avadd a v p o) [] ∧ s.StoresNear u offs new ∧
      ∀ n, n < laneCount x.tag → lane (leBits 512 new) w n =
        if s.me.km.getLsbD n then
          if isIntTag x.tag then ((laneInt x.tag (lane old w n) + laneInt x.tag (lane x.bits w n)) % 2 ^ w).toNat
          else (fpAdd (floatFmt x.tag) modeRne ((floatFmt x.tag).decode (lane old w n))
            ((floatFmt x.tag).decode (lane x.bits w n))).1 % 2 ^ w
        else lane old w n

/-- O25: On an unpaired core, ST and an atomic with g0 send one request with the data, and complete; LD of main memory
or of the cluster's scratchpad sends a read, awaits gD and completes, while LD of a remote on-chip location holds the
context for the reply; an atomic with a destination there and without acquire awaits gD; WAITA asks the home to watch
the word with e15's timeout and holds the context; on a word of the own local memory it is armed at once, or answered
at once when the word differs already. Nothing is written yet, and nothing else changes. Rests on R59, R64, R77, R93,
R248, R359, R253, R255, R304, R347, R358, R366. -/
def Obligations.FarAccesses : Prop :=
  (∀ (s : State) (d b : BitVec 6) (c : BitVec 5) (o : BitVec 7) (pl : Place),
    let n := classSize c
    let w := s.formatM b o n
    s.here.pairing = none → s.clear (.st d b c o) = true → s.mayStore 0 0 = true → s.farAt w n n .write pl →
    ∃ u t p, exec (.st d b c o) s = .next t ∧ s.Sends u [p] ∧ u.Completes t (.st d b c o) [] ∧ p.op = none ∧
      s.Asks p w pl (.write (bytesOf n (s.g d.toNat)) []) (s.me.readG d.toNat).poison (s.orderOf 0 0).1 (s.orderOf 0 0).2 ∧
      u.me.relMark = none ∧ u.me.loads = s.me.loads) ∧
  (∀ (s : State) (d b : BitVec 6) (c : BitVec 5) (o : BitVec 7) (pl : Place),
    let n := classSize c
    let w := s.formatM b o n
    s.here.pairing = none → s.clear (.ld d b c o) = true → s.farAt w n n .read pl →
    (pl.isLocal = true ∨ (∃ pa, pl = .mem pa) → ∃ u t p k, exec (.ld d b c o) s = .next t ∧ s.Sends u [p] ∧ u.Completes t (.ld d b c o) [] ∧
      s.Asks p w pl (.read n) false 0 0 ∧ u.me.loads = s.me.loads ++ (if d = 0 then [] else [.g d.toNat]) ∧
      u.me.relMark = s.me.relMark ∧ p.op = some k ∧ (Tab.get none u.ops k).map (·.dest) = some (.scalar d.toNat c.toNat)) ∧
    (pl.isLocal = false → (∀ pa, pl ≠ .mem pa) → ∃ t p k, exec (.ld d b c o) s = .next t ∧ s.Sends (t.modMe fun x =>
        { x with waitLen := s.me.waitLen, waitTaint := s.me.waitTaint, waitClasses := s.me.waitClasses }) [p] ∧
      s.Asks p w pl (.read n) false 0 0 ∧ t.me.wait = .reply k ∧ t.me.loads = s.me.loads ∧ t.me.waitLen = 4 ∧
      p.op = some k ∧ (Tab.get none t.ops k).map (·.dest) = some (.scalar d.toNat c.toNat))) ∧
  (∀ (s : State) (d a v : BitVec 6) (q : BitVec 4) (o : BitVec 2) (pl : Place),
    let w := s.g a.toNat
    s.here.pairing = none → s.mayStore o q = true → s.farAt w 8 8 .atomic pl →
    let sends := fun (i : Instr) (op : Nat) => s.clear i = true →
      (d = 0 → ∃ u t p, exec i s = .next t ∧ s.Sends u [p] ∧ u.Completes t i [] ∧ p.op = none ∧ u.me.relMark = none ∧
        s.Asks p w pl (.atomic op 8 (s.g v.toNat) 0) (s.me.readG v.toNat).poison (s.orderOf o q).1 (s.orderOf o q).2) ∧
      (d ≠ 0 → o.toNat % 2 = 0 → pl.isLocal = true ∨ (∃ pa, pl = .mem pa) → ∃ u t p k, exec i s = .next t ∧ s.Sends u [p] ∧
        u.Completes t i [] ∧ p.op = some k ∧ u.me.relMark = none ∧ u.me.loads = s.me.loads ++ [.g d.toNat] ∧
        s.Asks p w pl (.atomic op 8 (s.g v.toNat) (s.g d.toNat)) (s.me.readG v.toNat).poison (s.orderOf o q).1
          (s.orderOf o q).2)
    sends (.aadd d a v q o) 0x19 ∧ sends (.aand d a v q o) 0x1A ∧ sends (.aor d a v q o) 0x1B ∧
      sends (.axor d a v q o) 0x1C ∧ sends (.amin d a v q o) 0x1D ∧ sends (.amax d a v q o) 0x1E ∧
      sends (.axch d a v q o) 0x1F ∧ sends (.acas d a v q o) 0x20) ∧
  (∀ (s : State) (d a v : BitVec 6) (q : BitVec 4) (o : BitVec 2) (offs : List Nat),
    let got := s.here.store.load offs
    let i := Instr.waita d a v q o
    s.here.pairing = none → s.clear i = true → s.nearAt (s.g a.toNat) 8 8 .read offs →
    ∃ t k, exec i s = .next t ∧ s.Parks t (.waita k) ∧ t.here = { s.here with ctxs := t.here.ctxs } ∧
      t = { s with cores := t.cores, net := t.net, replies := t.replies, replay := t.replay, ops := t.ops,
                   nextNum := t.nextNum } ∧
      (∀ n, n ≠ k → Tab.get none t.ops n = Tab.get none s.ops n) ∧
      (Tab.get none t.ops k).map (·.dest) = some (.word d.toNat) ∧
      (∀ p, p.id ≠ s.nextNum + 1 → (p ∈ t.net ↔ p ∈ s.net)) ∧
      (BitVec.ofNat 64 (leNat got.1) = s.g v.toNat → t.replies = s.replies ∧
        ∃ p, p ∈ t.net ∧ p.op = some k ∧ p.armed.isSome = true) ∧
      (BitVec.ofNat 64 (leNat got.1) ≠ s.g v.toNat → ∃ r, t.replies = s.replies ++ [r] ∧ r.packet.op = some k ∧
        r.answer = .done ∧ r.data = got.1 ∧ r.poison = got.2)) ∧
  ∀ (s : State) (d a v : BitVec 6) (q : BitVec 4) (o : BitVec 2) (pl : Place),
    let w := s.g a.toNat
    s.here.pairing = none → s.clear (.waita d a v q o) = true → s.farAt w 8 8 .read pl →
    ∃ t p k, exec (.waita d a v q o) s = .next t ∧ s.Sends (t.modMe fun x =>
        { x with waitLen := s.me.waitLen, waitTaint := s.me.waitTaint, waitClasses := s.me.waitClasses }) [p] ∧
      s.Asks p w pl (.watch (s.g v.toNat) (s.me.readE 15).toNat) false 0 q ∧ t.me.wait = .waita k ∧ p.op = some k ∧
      (Tab.get none t.ops k).map (·.dest) = some (.word d.toNat)

/-- O26: LD and ST of an on-chip word trap with a handle fault of subcode 4 for a reserved level, invalid core or
handle 0; else with a permission fault outside the partition (but for ST to a designated inbox of a column core); else
misaligned; else, for a local access, with subcode 1, 2 or 3 for an unallocated handle, another generation, or past
the end. A virtual address with bits 62:57 set takes a page fault of subcode 2; a page without the permission a
permission fault; else a misaligned one a misaligned access; and a page whose translation is not held makes the
context wait for a walk. tval is the location word. Rests on R54, R58, R64, R61, R95, R304, R347. -/
def Obligations.LocationChecks : Prop :=
  ∀ (s : State) (d b : BitVec 6) (c : BitVec 5) (o : BitVec 7),
    let n := classSize c
    let w := s.formatM b o n
    let both := fun (cause sub : BitVec 8) => s.Traps (.ld d b c o) cause sub w ∧ s.Traps (.st d b c o) cause sub w
    (isChip w = true → s.here.pairing = none →
      let core := if chipCore w = 0x1FFF then s.cur.1 else chipCore w
      let bad := chipLevel w > 1 ∨ core > 4095 ∨ chipHandle w = 0
      let foreign := s.partOf core ≠ s.partOf s.cur.1
      let near := if chipLevel w = 0 then core = s.cur.1 else clusterOf core = clusterOf s.cur.1
      let t := (s.storeAt (if chipLevel w = 0 then .localMem core else .scratch (clusterOf core))).tile (chipHandle w)
      (bad → both 0x09 4) ∧ (¬bad → foreign → s.Traps (.ld d b c o) 0x06 0 w ∧
          (s.columnInbox core (chipHandle w) = false → s.Traps (.st d b c o) 0x06 0 w)) ∧
        (¬bad → ¬foreign → chipOff w % n ≠ 0 → both 0x08 0) ∧
        (¬bad → ¬foreign → chipOff w % n = 0 → near →
          (t.used = false → both 0x09 1) ∧ (t.used = true → t.gen ≠ chipGen w → both 0x09 2) ∧
            (t.used = true → t.gen = chipGen w → t.rows * t.rowBytes < chipOff w + n → both 0x09 3))) ∧
    (isChip w = false →
      (bitsN w 62 57 ≠ 0 → both 0x05 2) ∧
      (bitsN w 62 57 = 0 → ∀ t, s.lookup s.cur.1 (bitsN w 56 0) = some t →
        (t.r = false → s.Traps (.ld d b c o) 0x06 0 w) ∧ (t.w = false → s.Traps (.st d b c o) 0x06 0 w) ∧
          (t.r = true → t.w = true → bitsN w 56 0 % n ≠ 0 → both 0x08 0)) ∧
      (bitsN w 62 57 = 0 → s.lookup s.cur.1 (bitsN w 56 0) = none → s.me.walkErr = none →
        (s.die (dieOf s.cur.1)).walks.length < 1024 → s.clear (.ld d b c o) = true →
        ∃ t, exec (.ld d b c o) s = .next t ∧ t.me.wait = .walk ∧ t.me.pc = s.me.pc))

/-- O27: FENCE does nothing until its condition is met: for full and release every earlier access of the context to a
home in the scope's set performed. Then a full or release fence leaves a release mark at the scope, replacing an
earlier one; a full or acquire fence takes the releases that earlier loads have read, replied to or not, as acquired,
and sets chk bit 1 when one of them does not synchronise at the scope. A near store that a mark makes a release waits
for what it releases, and records itself at each byte it writes, and an acquire that reads a recorded release out of
scope sets chk bit 1. That the releases of replies still under way are taken is the model's choice (log 57). Rests on
R86, R291, R366, R84, R85. -/
def Obligations.Fences : Prop :=
  (∀ (s : State) (p : BitVec 4) (k : BitVec 2), s.clear (.fence p k) = true →
    (s.fenceMet p k = false → exec (.fence p k) s = .next s) ∧
    (s.fenceMet p k = true →
      let meets := fun (r : Release) => s.inScope r.scope r.core r.ctx r.isEngine s.cur.1 s.cur.2 &&
        s.inScope p s.cur.1 s.cur.2 false r.core r.ctx
      let u := s.modMe fun x =>
        { x with relMark := if k = 0 ∨ k = 2 then some p else x.relMark,
                 chk := if (k = 0 ∨ k = 1) ∧ s.seenNow.all meets = false then x.chk ||| 2 else x.chk }
      ∃ t, exec (.fence p k) s = .next t ∧ u.Completes t (.fence p k) [])) ∧
  (∀ (s : State) (p : BitVec 4), s.fenceMet p 0 = s.released p s.cur.1 s.cur.2 ∧
    s.fenceMet p 2 = s.released p s.cur.1 s.cur.2 ∧
    ((∀ q, q ∈ s.net → s.mine q = false) → s.fenceMet p 3 = true)) ∧
  (∀ (s : State) (p : BitVec 4) (q : Packet), q ∈ s.net → q.core = s.cur.1 → q.ctx = s.cur.2 → q.row = none →
    s.homeInScope p s.cur.1 q.home = true → s.released p s.cur.1 s.cur.2 = false) ∧
  (∀ (s : State) (d b : BitVec 6) (c : BitVec 5) (o : BitVec 7) (offs : List Nat) (m : BitVec 4),
    s.me.relMark = some m → s.here.store.ok = true → s.nearAt (s.formatM b o (classSize c)) (classSize c) (classSize c) .write offs →
    (s.logUndo offs).isSome → s.clear (.st d b c o) = true →
    (s.released m s.cur.1 s.cur.2 = false → exec (.st d b c o) s = .next s) ∧
    (s.mayStore 0 0 = true → ∃ t, exec (.st d b c o) s = .next t ∧ t.me.relMark = none ∧
      ∀ a, a ∈ offs → ∃ r, readRelease t.here.store.releases a 1 = some r ∧ r.core = s.cur.1 ∧ r.ctx = s.cur.2 ∧
        r.isEngine = false ∧ r.scope = m)) ∧
  ∀ (s : State) (d a : BitVec 6) (p : BitVec 4) (o : BitVec 2) (offs : List Nat) (r : Release),
    s.nearAt (s.g a.toNat) 8 8 .atomic offs → (s.logUndo []).isSome → s.apart (s.g a.toNat) 8 → s.clear (.ldaq d a p o) = true →
    readRelease s.here.store.releases (offs.headD 0) 8 = some r → o = 1 ∨ o = 3 →
    ∃ t, exec (.ldaq d a p o) s = .next t ∧ t.me.chk.getLsbD 1 = (s.me.chk.getLsbD 1 ||
      !(s.inScope r.scope r.core r.ctx r.isEngine s.cur.1 s.cur.2 && s.inScope p s.cur.1 s.cur.2 false r.core r.ctx))

/-- O28: On an unpaired core HALLOC traps with subcode 5 on an invalid shape, waits while the scratchpad's table has
served a later core in the cycle (R56), writes 0 when no handle number or too few granules are free, and else records
the shape under the lowest free number with granules that no handle held, and writes the location word; a byte of
those granules reads as before or zero, every other byte as before. HFREE traps with the subcodes of its list in
order, waits while queue entries name the handle, and else frees it with the next generation. Which free granules are
taken is the model's choice (log 31) and nothing here rests on it. Rests on R55, R56, R57, R295, R297. -/
def Obligations.Handles : Prop :=
  (∀ (s : State) (d a : BitVec 6) (n : BitVec 4), s.here.pairing = none →
    let rows := (s.g a.toNat).toNat
    let e := s.me.readE n.toNat
    let rb := bitsN e 10 0
    let level := bitsN e 17 16
    let rot := bitsN e 23 20
    let bad := rows = 0 ∨ rb = 0 ∨ 1024 < rb ∨ 1 < level ∨ 5 < rot ∨ (level = 0 ∧ rot ≠ 0) ∨ e &&& 0xF307FF ≠ e
    let h := levelHome level s.cur.1
    let m := s.storeAt h
    let need := (rows * (64 * rb) + granule level - 1) / granule level
    let i := Instr.halloc d a n
    let turn := level = 0 ∨ s.portOpen h (messageRank s.cur.1) = true
    (bad → s.Traps i 0x09 5 e) ∧
    (¬bad → ¬turn → s.clear i = true → exec i s = .next s) ∧
    (¬bad → turn → s.clear i = true → (∀ k, 1 ≤ k → k ≤ 4095 → (m.tile k).used = true) ∨ (m.freeGranules level).length < need →
      ∃ (u t : State), exec i s = .next t ∧ u = { s with ports := u.ports } ∧ u.Completes t i [.g d.toNat] ∧
        t.me.readG d.toNat = writtenG d.toNat 0 (poisonedSource i s)) ∧
    (¬bad → turn → s.clear i = true → m.ok = true → ∀ k, 1 ≤ k → k ≤ 4095 → (m.tile k).used = false →
      (∀ j, 1 ≤ j → j < k → (m.tile j).used = true) → need ≤ (m.freeGranules level).length →
      ∃ u t gs, exec i s = .next t ∧ s.StoreOnly u h ∧ u.Completes t i [.g d.toNat] ∧
        t.me.readG d.toNat = writtenG d.toNat (BitVec.ofNat 64 (2 ^ 63 + level * 2 ^ 61 + s.cur.1 * 2 ^ 48 + k * 2 ^ 36 +
          (m.tile k).gen.toNat * 2 ^ 32)) (poisonedSource i s) ∧
        (u.storeAt h).tile k = { used := true, gen := (m.tile k).gen, rows := rows, rowBytes := 64 * rb, rot := rot,
                                 granules := gs } ∧
        gs.Nodup ∧ gs.length = need ∧ (∀ g, g ∈ gs → g < granuleCount level ∧ ∀ j, g ∉ (m.tile j).granules) ∧
        (∀ j, j ≠ k → (u.storeAt h).tile j = m.tile j) ∧
        ∀ x, (u.storeAt h).bytes.byte x = m.bytes.byte x ∨ (x / granule level ∈ gs ∧ (u.storeAt h).bytes.byte x = 0))) ∧
  ∀ (s : State) (a : BitVec 6), s.here.pairing = none →
    let w := s.g a.toNat
    let level := chipLevel w
    let core := if chipCore w = 0x1FFF then s.cur.1 else chipCore w
    let bad := isChip w = false ∨ 1 < level ∨ 4095 < core ∨ chipHandle w = 0
    let foreign := (level = 0 ∧ core ≠ s.cur.1) ∨ (level = 1 ∧ clusterOf core ≠ clusterOf s.cur.1)
    let h := levelHome level s.cur.1
    let t := (s.storeAt h).tile (chipHandle w)
    let i := Instr.hfree a
    let held := level = 0 ∧ s.here.holdsRecords (chipHandle w) = true
    (bad → s.Traps i 0x09 4 w) ∧ (¬bad → foreign → s.Traps i 0x09 6 w) ∧
      (¬bad → ¬foreign → t.used = false → s.Traps i 0x09 1 w) ∧
      (¬bad → ¬foreign → t.used = true → t.gen ≠ chipGen w → s.Traps i 0x09 2 w) ∧
      (¬bad → ¬foreign → t.used = true → t.gen = chipGen w → held → s.Traps i 0x09 6 w) ∧
      (¬bad → ¬foreign → t.used = true → t.gen = chipGen w → ¬held → s.clear i = true →
        (s.here.queuesName level s.cur.1 (chipHandle w) = true → exec i s = .next s) ∧
        (s.here.queuesName level s.cur.1 (chipHandle w) = false →
          level = 1 ∨ s.here.holding.map (·.handle) ≠ some (chipHandle w) →
          ∃ u v, exec i s = .next v ∧ s.StoreOnly u h ∧ u.Completes v i [] ∧
            (u.storeAt h).tile (chipHandle w) = { gen := t.gen + 1 } ∧
            (∀ j, j ≠ chipHandle w → (u.storeAt h).tile j = (s.storeAt h).tile j) ∧
            (u.storeAt h).bytes = (s.storeAt h).bytes ∧ (u.storeAt h).poison = (s.storeAt h).poison))

/-- O29: A branch goes to the address that many halfwords from itself: BZ and BNZ on gR, BANY and BNONE on kR, and the
16-bit forms; not taken, and for NOP, control goes to the next instruction. BR always branches, CALL also writes its
own address plus 4 to g63, JR goes to gR with the link in gD, RET to g63. JTAB goes past its table for an index from n
on, and else by the table's signed entry. A loop step that is due at the target is taken. No other register and no
memory changes; a conditional branch fetches lines of its two paths into the instruction buffer. Rests on R262, R268,
R270, R301, R302, R104, R337, R328, R129, R108, R22. -/
def Obligations.Branches : Prop :=
  let goes := fun (s : State) (i : Instr) (next : Word) => s.clear i = true →
    ∃ t, exec i s = .next t ∧ s.CompletesAt t i [] next
  let picks := fun (s : State) (i : Instr) (next : Word) => s.clear i = true →
    ∃ u t, exec i s = .next t ∧ s.Prefetches u ∧ u.CompletesAt t i [] next
  let links := fun (s : State) (i : Instr) (d : Nat) (link next : Word) => s.clear i = true →
    ∃ t, exec i s = .next t ∧ s.CompletesAt t i [.g d] next ∧ t.me.readG d = writtenG d link false
  (∀ (s : State) (r : BitVec 6) (o : BitVec 18),
    let pc := s.me.pc
    let dst := pc + 2 * o.signExtend 64
    picks s (.bz r o) (if s.g r.toNat = 0 then dst else pc + 4) ∧ picks s (.bnz r o) (if s.g r.toNat = 0 then pc + 4 else dst) ∧
      picks s (.bany r o) (if s.me.readK r.toNat = 0 then pc + 4 else dst) ∧
      picks s (.bnone r o) (if s.me.readK r.toNat = 0 then dst else pc + 4)) ∧
  (∀ (s : State) (r : BitVec 5) (o : BitVec 6),
    let pc := s.me.pc
    let dst := pc + 2 * o.signExtend 64
    picks s (.bzG16 r o) (if s.g r.toNat = 0 then dst else pc + 2) ∧
      picks s (.bnzG16 r o) (if s.g r.toNat = 0 then pc + 2 else dst)) ∧
  (∀ (s : State) (o : BitVec 24), goes s (.br o) (s.me.pc + 2 * o.signExtend 64) ∧
    links s (.call o) 63 (s.me.pc + 4) (s.me.pc + 2 * o.signExtend 64)) ∧
  (∀ (s : State) (o : BitVec 11), goes s (.br16 o) (s.me.pc + 2 * o.signExtend 64)) ∧
  (∀ (s : State) (d r : BitVec 6), links s (.jr d r) d.toNat (s.me.pc + 4) (s.g r.toNat)) ∧
  (∀ s : State, goes s .ret (s.g 63) ∧ goes s .ret16 (s.g 63) ∧ goes s .nop (s.me.pc + 4) ∧ goes s .nop16 (s.me.pc + 2)) ∧
  ∀ (s : State) (r : BitVec 6) (n : BitVec 18),
    let pc := s.me.pc
    let i := s.g r.toNat
    (n.toNat ≤ i.toNat → goes s (.jtab r n) (pc + 4 + 4 * n.setWidth 64)) ∧
      ∀ h l : Half, i.toNat < n.toNat → s.codeHalf s.cur.1 (pc + 4 + 4 * i) h → s.codeHalf s.cur.1 (pc + 4 + 4 * i + 2) l →
        goes s (.jtab r n) (pc + 2 * (h ++ l : BitVec 32).signExtend 64)

/-- O30: LOOP with count 0 goes to the end and opens nothing; with four levels open, or frozen levels, it takes a loop
fault; else it opens a level with the next address, the end and the count. LEAVE closes the innermost level and goes
to its end, or takes a loop fault when none is open. Where the next pc is the innermost level's end, the count falls
by one and control goes to the start, or at zero the level closes and the level outside it takes its step if it ends
there too; frozen levels take no step. Rests on R22, R23, R24, R100, R301. -/
def Obligations.Loops : Prop :=
  (∀ (s : State) (r : BitVec 6) (o : BitVec 18),
    let stop := s.me.pc + 2 * o.signExtend 64
    let count := s.g r.toNat
    let i := Instr.loop r o
    let level : Level := { start := s.me.pc + 4, stop := stop, count := count }
    (s.loopsFrozen s.cur.1 s.cur.2 = true ∨ (count ≠ 0 ∧ 4 ≤ s.me.lpd) → s.Traps i 0x0F 0 (BitVec.ofNat 64 s.me.lpd)) ∧
      (s.loopsFrozen s.cur.1 s.cur.2 = false → s.clear i = true →
        (count = 0 → ∃ t, exec i s = .next t ∧ s.CompletesAt t i [] stop) ∧
        (count ≠ 0 → s.me.lpd < 4 →
          let u := s.modMe fun x => { x with lp := Tab.put x.lp x.lpd level, lpd := x.lpd + 1 }
          ∃ t, exec i s = .next t ∧ u.CompletesAt t i [] (s.me.pc + 4)))) ∧
  (∀ s : State,
    (s.loopsFrozen s.cur.1 s.cur.2 = true ∨ s.me.lpd = 0 → s.Traps .leave 0x0F 0 (BitVec.ofNat 64 s.me.lpd)) ∧
    (s.loopsFrozen s.cur.1 s.cur.2 = false → 0 < s.me.lpd → s.clear .leave = true →
      let u := s.modMe fun x => { x with lpd := x.lpd - 1 }
      ∃ t, exec .leave s = .next t ∧ u.CompletesAt t .leave [] (Tab.get {} s.me.lp (s.me.lpd - 1) : Level).stop)) ∧
  ∀ (x : Context) (next : Word),
    let n := x.lpd - 1
    let l : Level := Tab.get {} x.lp n
    let less : Tab Level := Tab.put x.lp n { l with count := l.count - 1 }
    x.goto true next = { x with pc := next } ∧
      (x.lpd = 0 ∨ next ≠ l.stop → x.goto false next = { x with pc := next }) ∧
      (x.lpd ≠ 0 → next = l.stop → l.count ≠ 1 → x.goto false next = { x with pc := l.start, lp := less }) ∧
      (x.lpd ≠ 0 → next = l.stop → l.count = 1 → x.goto false next = ({ x with lp := less, lpd := n } : Context).goto false next)

/-- O31: A trap of the control context outside a gang with H = 0 and a handler, once no reply is awaited, sets tcause,
tpc, tval, tctx 0 and tret (the address itself, or the next instruction's for a software trap or breakpoint), sets H,
ends a phase and goes to tvec; no other register changes. A helper's trap freezes it with its cause, address and
value, queued for delivery. A trap of the control context while H = 1 or without a handler kills the core. While a
reply is awaited the trap is only noted as due. Rests on R98, R99, R102, R113, R114, R96, R165. -/
def Obligations.TakingATrap : Prop :=
  ∀ (s : State) (cause sub : BitVec 8) (tval : Word) (len : Nat),
    let t := s.trap cause sub tval len
    let pc := s.me.pc
    (s.cur.2 = 0 → s.here.gang = none → s.me.awaits = false → s.here.handler = false → s.here.tvec >>> 1 ≠ 0 →
      s.Entered t cause sub tval 0 pc (if cause = 0x11 ∨ cause = 0x12 then pc + BitVec.ofNat 64 len else pc) ∧
        t.here.trapQueue = s.here.trapQueue) ∧
    (s.cur.2 ≠ 0 → s.Froze t cause sub tval) ∧
    (s.cur.2 = 0 → s.here.gang = none → s.me.awaits = true →
      t.here = { s.here with dueTrap := some { cause := cause, sub := sub, tval := tval, len := len } } ∧
        s.OnlyCore { t with firmware := s.firmware } s.cur.1) ∧
    (s.cur.2 = 0 → s.here.gang = none → s.me.awaits = false → s.here.handler = true ∨ s.here.tvec >>> 1 = 0 →
      t.here.Killed ∧ t.here.killCause = (sub ++ cause).setWidth 64)

/-- O32: TRAP n takes a software trap (0x11) and BKPT n a breakpoint (0x12) with tval n, from any clear state; in the
control context tret is the next instruction; a helper freezes, and RETT 0 in the handler its trap was delivered to
resumes it past the instruction; while H = 1 the core is killed; in an exchange phase the common checks find a phase
fault; the class is base, so none is missing. BKPT 5 is the word EF000505, TRAP 1 and 2 are EF000103 and EF000203.
Rests on R354, R267. -/
def Obligations.TrapAndBreakpoint : Prop :=
  (∀ (s : State) (n : BitVec 10) (i : Instr) (cause : BitVec 8), (i = .trap n ∧ cause = 0x11) ∨ (i = .bkpt n ∧ cause = 0x12) →
    let t := s.trap cause 0 (n.setWidth 64) 4
    missingClass i s = none ∧
      (s.here.inPhase s.cycle = true → s.cur.2 = 0 → s.here.gang = none →
        commonFault i s = some (0x0E, 0, instrWord i)) ∧
      (s.clear i = true → s.me.loads = [] → exec i s = .next t ∧
        (s.cur.2 = 0 → s.here.gang = none → s.here.handler = false → s.here.tvec >>> 1 ≠ 0 →
          t.here.tcause = (0 : BitVec 8) ++ cause ∧ t.here.tval = n.setWidth 64 ∧ t.here.tpc = s.me.pc ∧
            t.here.tret = s.me.pc + 4 ∧ t.here.handler = true) ∧
        (s.cur.2 ≠ 0 → s.Froze t cause 0 (n.setWidth 64)) ∧
        (s.cur.2 = 0 → s.here.gang = none → s.here.handler = true → t.here.Killed))) ∧
  (∀ (s : State) (h : Half), s.cur.2 = 0 → s.here.tctx ≠ 0 → s.here.tctx.toNat ≤ 10 →
    s.here.tcause.setWidth 8 = (0x11 : BitVec 8) ∨ s.here.tcause.setWidth 8 = (0x12 : BitVec 8) →
    s.codeHalf s.cur.1 s.here.tpc h → isWide h = true → s.here.trapQueue = [] → s.clear (.rett 0) = true →
    ∃ t, exec (.rett 0) s = .next t ∧ (t.here.ctx s.here.tctx.toNat).frozen = none ∧ t.here.handler = false ∧
      (t.here.ctx s.here.tctx.toNat).pc = ((s.here.ctx s.here.tctx.toNat).goto false (s.here.tpc + 4)).pc) ∧
  encode (.bkpt 5) = some (.wide 0xEF000505) ∧ encode (.trap 1) = some (.wide 0xEF000103) ∧
    encode (.trap 2) = some (.wide 0xEF000203)

/-- O33: In the handler of a control trap RETT 0 clears H and control goes to tret; with a trap pending, the oldest is
delivered and tret keeps its value. In the handler of a helper's trap RETT 0 also resumes the helper at tpc, and RETT
1 ends it as HEXIT does. With H = 0, or RETT 1 for a control trap, it is an illegal instruction, in a helper a helper
fault. Rests on R101, R99, R100, R96. -/
def Obligations.ReturnFromTrap : Prop :=
  ∀ s : State,
    let u := s.modHere fun k => { k with handler := false }
    let n := s.here.tctx.toNat
    let past := s.here.tcause.setWidth 8 = (0x11 : BitVec 8) ∨ s.here.tcause.setWidth 8 = (0x12 : BitVec 8)
    (s.cur.2 = 0 → s.here.tctx = 0 → s.here.trapQueue = [] → s.clear (.rett 0) = true →
      ∃ t, exec (.rett 0) s = .next t ∧ u.CompletesAt t (.rett 0) [] s.here.tret) ∧
    (∀ m rest f, s.cur.2 = 0 → s.here.tctx = 0 → s.here.trapQueue = m :: rest → (s.here.ctx m).frozen = some f →
      s.here.tvec >>> 1 ≠ 0 → s.clear (.rett 0) = true →
      ∃ t, exec (.rett 0) s = .next t ∧ u.Entered t f.cause f.sub f.tval m f.pc s.here.tret ∧
        t.here.trapQueue = (m :: rest).filter (· != m)) ∧
    (s.cur.2 = 0 → s.here.tctx ≠ 0 → n ≤ 10 → s.here.trapQueue = [] → ¬past → s.clear (.rett 0) = true →
      let v := (u.modCtx s.cur.1 n fun x => { x with frozen := none, wait := .none }).gotoCtx s.cur.1 n s.here.tpc
      ∃ t, exec (.rett 0) s = .next t ∧ v.CompletesAt t (.rett 0) [] s.here.tret) ∧
    (s.cur.2 = 0 → s.here.tctx ≠ 0 → n ≤ 10 → s.here.trapQueue.filter (· != n) = [] → s.clear (.rett 1) = true →
      let v := s.modHere fun k => { k.endHelper n with handler := false }
      ∃ t, exec (.rett 1) s = .next t ∧ v.CompletesAt t (.rett 1) [] s.here.tret) ∧
    (s.cur.2 = 0 → s.here.handler = false ∨ (s.here.tctx = 0) → commonFault (.rett 1) s = some (0x01, 0, instrWord (.rett 1))) ∧
    (s.cur.2 = 0 → s.here.handler = false → commonFault (.rett 0) s = some (0x01, 0, instrWord (.rett 0))) ∧
    (s.cur.2 ≠ 0 → commonFault (.rett 0) s = some (0x14, 0, instrWord (.rett 0)) ∧
      commonFault (.rett 1) s = some (0x14, 0, instrWord (.rett 1)))

/-- O34: ILLEGAL_INSTRUCTION takes cause 1 with the word as tval once nothing holds the context up and its loads have
returned. Whatever the instruction, when a common check fails and the context's loads have returned, the state is that
of the trap the first failing check names, with nothing of the effect; while loads are outstanding nothing happens.
Rests on R134, R95, R97, R137. -/
def Obligations.IllegalWords : Prop :=
  (∀ (s : State) (w : BitVec 32) (wide : Bool), s.ready s.cur.1 s.cur.2 = true → s.me.loads = [] →
    s.intervalDue (.illegalInstruction w wide) = false →
    exec (.illegalInstruction w wide) s = .next (s.trap 0x01 0 (w.setWidth 64) (if wide then 4 else 2))) ∧
  ∀ (i : Instr) (s : State) (f : BitVec 8 × BitVec 8 × Word) (body : Bool → State → Res),
    s.ready s.cur.1 s.cur.2 = true → interlocked i s = false → s.intervalDue i = false → commonFault i s = some f →
    (s.me.loads = [] → issue i s body = .next (s.trap f.1 f.2.1 f.2.2 (instrLen i))) ∧
      (s.me.loads ≠ [] → issue i s body = .next s)

/-- O35: HSTART starts the lowest free helper at gS with the starter's g1-g15 and every other register dead, and
writes its number, or 0 when none is free. HEXIT ends the helper and ORs its chk into hchk; with a held record the
oldest starts in its number. HWAIT completes when no other helper named in the mask is live, and else waits. LIVE
keeps the registers of its group that the mask marks live, and makes the others read zero. Rests on R12, R298, R296,
R299, R308, R19, R27, R36. -/
def Obligations.Helpers : Prop :=
  (∀ (s : State) (d a : BitVec 6), s.cur.2 = 0 → s.clear (.hstart d a) = true →
    ((∀ n, 1 ≤ n → n ≤ 10 → (s.here.ctx n).live = true) → ∃ t, exec (.hstart d a) s = .next t ∧
      s.Completes t (.hstart d a) [.g d.toNat] ∧
      t.me.readG d.toNat = writtenG d.toNat 0 (poisonedSource (.hstart d a) s)) ∧
    (∀ h, 1 ≤ h → h ≤ 10 → (s.here.ctx h).live = false → (∀ n, 1 ≤ n → n < h → (s.here.ctx n).live = true) →
      ∃ u t, exec (.hstart d a) s = .next t ∧ u.Completes t (.hstart d a) [.g d.toNat] ∧
        t.me.readG d.toNat = writtenG d.toNat (BitVec.ofNat 64 h) (poisonedSource (.hstart d a) s) ∧
        s.OnlyCore u s.cur.1 ∧ u.here = { s.here with ctxs := u.here.ctxs } ∧
        (∀ x, x ≠ h → u.here.ctx x = s.here.ctx x) ∧
        (u.here.ctx h).Fresh (s.g a.toNat) s.me.readG ∧ ∀ n, (u.here.ctx h).readQ n = 0)) ∧
  (∀ (s : State) (i : Instr), i = .hexit ∨ i = .hexit16 → s.cur.2 ≠ 0 → s.clear i = true →
    ∃ t, exec i s = .next t ∧ s.OnlyCore t s.cur.1 ∧ (∀ x, x ≠ s.cur.2 → t.here.ctx x = s.here.ctx x) ∧
      t.here.hchk = s.here.hchk ||| s.me.chk ∧
      (s.here.oldHolds = [] → s.here.holding = none →
        t.me.live = false ∧ t.here = { s.here with ctxs := t.here.ctxs, hchk := t.here.hchk, trapQueue := t.here.trapQueue }) ∧
      (∀ q j js, s.here.oldHolds = [] → s.here.holding = some q → q.slots = j :: js →
        t.here.holding = some { q with slots := js } ∧
        t.me.Fresh (s.here.heldRecord q j).1 (fun n => Tab.get {} (s.here.heldRecord q j).2.1 n) ∧
        t.me.readQ 0 = (s.here.heldRecord q j).2.2)) ∧
  (∀ (s : State) (a : BitVec 6), s.clear (.hwait a) = true →
    let named := fun n => 1 ≤ n ∧ n ≤ 10 ∧ n ≠ s.cur.2 ∧ (s.g a.toNat).getLsbD n = true ∧ (s.here.ctx n).live = true
    ((∀ n, ¬named n) → ∃ t, exec (.hwait a) s = .next t ∧ s.Completes t (.hwait a) []) ∧
    (∀ n, named n → ∃ t, exec (.hwait a) s = .next t ∧ t.me.wait = .hwait (s.g a.toNat) ∧ t.me.pc = s.me.pc ∧
      t.ready s.cur.1 s.cur.2 = false)) ∧
  ∀ (s : State) (a : BitVec 6) (e : BitVec 4), s.clear (.live a e) = true →
    let base := e.toNat % 2 * 32
    let regs := (List.range 32).map fun n => if e.toNat < 2 then Reg.g (base + n) else Reg.v (base + n)
    ∃ t, exec (.live a e) s = .next t ∧ s.Completes t (.live a e) regs ∧
      ∀ n, n < 32 → if e.toNat < 2 then
          t.me.readG (base + n) = if (s.g a.toNat).getLsbD n then s.me.readG (base + n) else {}
        else t.me.readV (base + n) = if (s.g a.toNat).getLsbD n then s.me.readV (base + n) else {}

/-- O36: GANG of 2, 4 or 8 parks the control context, noting whether a follower has a live helper. When every member
of the aligned group is parked in GANG of that size and none is killed, GANG_FORM makes them one gang in core-number
order, each going on past its GANG; if a follower had a live helper, it couples none; if one has not come, nothing
happens. UNGANG ends the issuing member's gang and nothing else. Rests on R25, R26, R293, R355. -/
def Obligations.Gangs : Prop :=
  (∀ (s : State) (a : BitVec 6), s.cur.2 = 0 → s.clear (.gang a) = true →
    let n := bitsN (s.g a.toNat) 3 0
    ∃ t bad, exec (.gang a) s = .next t ∧ t.me.wait = .gang n bad ∧ t.me.pc = s.me.pc ∧ s.OnlyCore t s.cur.1 ∧
      (bad = true ↔ (gangGroup s.cur.1 n).head? ≠ some s.cur.1 ∧ ∃ h, 1 ≤ h ∧ h ≤ 10 ∧ (s.here.ctx h).live = true)) ∧
  (∀ (s : State) (c n : Nat) (bad : Bool), (s.ctx c 0).wait = .gang n bad →
    let group := gangGroup c n
    let parked := fun m => ∃ b, (s.ctx m 0).wait = .gang n b
    group.Nodup → (∀ m, m ∈ group → (s.core m).killed = false) →
    ((∀ m, m ∈ group → (s.ctx m 0).wait = .gang n false) → (∀ m, m ∈ group → (s.core m).pairing = none) →
      ∃ t, exec (.gangForm c) s = .next t ∧ ∀ m, m ∈ group → (t.core m).gang = some { members := group } ∧
        (t.ctx m 0).wait = .none ∧
        (t.ctx m 0).pc = ((s.ctx m 0).goto (s.loopsFrozen m 0) ((s.ctx m 0).pc + BitVec.ofNat 64 (s.ctx m 0).waitLen)).pc) ∧
    ((∃ m, m ∈ group ∧ ¬parked m) → exec (.gangForm c) s = .next s) ∧
    ((∀ m, m ∈ group → parked m) → (∃ m, m ∈ group ∧ (s.ctx m 0).wait = .gang n true) →
      (∀ m, m ∈ group → (s.core m).gang = none ∧ (s.core m).handler = false ∧ (s.core m).tvec >>> 1 ≠ 0 ∧
          (s.ctx m 0).loads = []) →
      ∃ t, exec (.gangForm c) s = .next t ∧ ∀ m, m ∈ group → (t.core m).gang = none ∧ (t.core m).handler = true ∧
        (t.core m).tcause = 0x0016 ∧ (t.core m).tpc = (s.ctx m 0).pc)) ∧
  (∀ c, c < 4096 → gangGroup c 2 = [c - xOf c % 2, c - xOf c % 2 + 1] ∧
    gangGroup c 4 = [c - xOf c % 4, c - xOf c % 4 + 1, c - xOf c % 4 + 2, c - xOf c % 4 + 3] ∧
    ∀ m, m < 4096 → (m ∈ gangGroup c 8 ↔ clusterOf m = clusterOf c)) ∧
  ∀ s : State, s.clear .ungang = true →
    let u := s.modHere fun k => { k with gang := none }
    ∃ t, exec .ungang s = .next t ∧ u.Completes t .ungang []

/-- O37: MFS writes the register's value to gD with poison clear: the context's own registers, the core's trap
registers, cap, need, mqw, mgc, pivl, hchk, tsk, cov, fm and win. MTS stores km whole, the low bits of rmode, fpf,
efr, chk, det and fm, and on the control context mqw (0 as 1), tvec, tcause, tpc, tval, tret, mgc, pivl, hchk and the
window; a poisoned source sets chk bit 0 after the write. Nothing else changes. Rests on R315, R316, R31, R96, R42,
R108. -/
def Obligations.StatusRegisters : Prop :=
  (∀ (s : State) (d : BitVec 6),
    let k := s.here
    let x := s.me
    let reads := fun (n : BitVec 10) (w : Word) => s.clear (.mfs d n) = true → ∃ t, exec (.mfs d n) s = .next t ∧
      s.Completes t (.mfs d n) [.g d.toNat] ∧ t.me.readG d.toNat = writtenG d.toNat w false
    reads 0x000 (BitVec.ofNat 64 s.cur.2) ∧ (k.pairing = none → reads 0x001 (BitVec.ofNat 64 s.cur.1)) ∧
      reads 0x004 (BitVec.ofNat 64 s.cycle) ∧ (k.phase = none → reads 0x005 (BitVec.allOnes 64)) ∧ reads 0x006 x.km ∧
      reads 0x007 (x.rmode.setWidth 64) ∧ reads 0x008 (x.fpf.setWidth 64) ∧ reads 0x009 (x.efr.setWidth 64) ∧
      reads 0x00A (x.chk.setWidth 64) ∧ reads 0x00B k.cap ∧ reads 0x00C k.need ∧
      reads 0x00D (if x.det then 1 else 0) ∧ reads 0x00E (k.mqw.setWidth 64) ∧ reads 0x010 k.tvec ∧
      reads 0x011 (k.tcause.setWidth 64) ∧ reads 0x012 k.tpc ∧ reads 0x013 k.tval ∧ reads 0x014 (k.tctx.setWidth 64) ∧
      reads 0x015 (k.tstep.setWidth 64) ∧ reads 0x016 k.tret ∧ reads 0x018 (BitVec.ofNat 64 x.lpd) ∧
      reads 0x019 (k.mgc.setWidth 64) ∧ reads 0x01A (k.pivl.setWidth 64) ∧ (k.pairing = none → reads 0x01B 0) ∧
      reads 0x01C (k.hchk.setWidth 64) ∧ reads 0x020 (k.tsk.setWidth 64) ∧ reads 0x021 (k.cov.setWidth 64) ∧
      (∀ n : BitVec 10, 0x022 ≤ n.toNat → n.toNat ≤ 0x025 →
        reads n ((Tab.get 0 k.ssn (n.toNat - 0x022) : BitVec 32).setWidth 64)) ∧
      (∀ n : BitVec 10, 0x030 ≤ n.toNat → n.toNat ≤ 0x03F → reads n ((x.readFm (n.toNat - 0x030)).setWidth 64)) ∧
      ∀ n : BitVec 10, 0x040 ≤ n.toNat → n.toNat ≤ 0x047 → reads n (Tab.get 0 k.win (n.toNat - 0x040))) ∧
  (∀ (s : State) (a : BitVec 6),
    let v := s.g a.toNat
    let bad := poisonedSource (.mts a 0x006) s
    let own := fun (n : BitVec 10) (holds : Context → Prop) => s.clear (.mts a n) = true → ∃ t,
      exec (.mts a n) s = .next t ∧ s.Completes t (.mts a n) [.status n.toNat] ∧ holds t.me
    own 0x006 (fun x => x.km = v) ∧ own 0x007 (fun x => x.rmode = v.setWidth 2) ∧
      own 0x008 (fun x => x.fpf = v.setWidth 5) ∧ own 0x009 (fun x => x.efr = v.setWidth 32) ∧
      own 0x00A (fun x => x.chk = if bad then v.setWidth 7 ||| 1 else v.setWidth 7) ∧
      own 0x00D (fun x => x.det = v.getLsbD 0) ∧
      ∀ n : BitVec 10, 0x030 ≤ n.toNat → n.toNat ≤ 0x03F → own n (fun x => x.readFm (n.toNat - 0x030) = v.setWidth 32)) ∧
  ∀ (s : State) (a : BitVec 6),
    let v := s.g a.toNat
    let sets := fun (n : BitVec 10) (f : Core → Core) => s.clear (.mts a n) = true → ∃ t,
      exec (.mts a n) s = .next t ∧ (s.modHere f).Completes t (.mts a n) []
    sets 0x00E (fun k => { k with mqw := if v.setWidth 4 = (0 : BitVec 4) then 1 else v.setWidth 4 }) ∧
      sets 0x010 (fun k => { k with tvec := v }) ∧ sets 0x011 (fun k => { k with tcause := v.setWidth 16 }) ∧
      sets 0x012 (fun k => { k with tpc := v }) ∧ sets 0x013 (fun k => { k with tval := v }) ∧
      sets 0x016 (fun k => { k with tret := v }) ∧ sets 0x019 (fun k => { k with mgc := v.setWidth 32 }) ∧
      sets 0x01A (fun k => { k with pivl := v.setWidth 17 }) ∧ sets 0x01C (fun k => { k with hchk := v.setWidth 7 }) ∧
      ∀ n : BitVec 10, 0x040 ≤ n.toNat → n.toNat ≤ 0x047 →
        sets n (fun k => { k with win := Tab.set 0 k.win (n.toNat - 0x040) (v &&& ~~~(7 : Word)) })

/-- O38: EXTR sets gD to e(N) with poison clear; a word with a nonzero s field is no instruction; after TNEXT e0-e7
are the words of the record taken; the class is base; EXTR g2, e2 is F008020E. EXTL sets e(N) to gS, whose poison sets
chk bit 0. CHKERR sets gD to chk, poison clear, and clears chk. Nothing else changes. Rests on R290, R289, R277, R108.
-/
def Obligations.ExtendedRegisters : Prop :=
  (∀ (s : State) (d : BitVec 6) (n : BitVec 4), missingClass (.extr d n) s = none ∧ (s.clear (.extr d n) = true →
    ∃ t, exec (.extr d n) s = .next t ∧ s.Completes t (.extr d n) [.g d.toNat] ∧
      t.me.readG d.toNat = writtenG d.toNat (s.me.readE n.toNat) false)) ∧
  (∀ (d r : BitVec 6) (n : BitVec 4), r ≠ 0 → ∀ i,
    decodeCode (.wide (0xF0#8 ++ d ++ r ++ n ++ 0x0E#8)) ≠ .ok i) ∧
  encode (.extr 2 2) = some (.wide 0xF008020E) ∧
  (∀ (s : State) (c : Nat) (k : Task) (n : Nat), k.record.length = 8 → n < 8 →
    ((s.takeTask c k).ctx c 0).readE n = k.record.getD n 0) ∧
  (∀ (s : State) (a : BitVec 6) (n : BitVec 4), s.clear (.extl a n) = true →
    ∃ t, exec (.extl a n) s = .next t ∧ s.Completes t (.extl a n) [.e n.toNat] ∧ t.me.readE n.toNat = s.g a.toNat) ∧
  ∀ (s : State) (d : BitVec 6), s.clear (.chkerr d) = true →
    ∃ t, exec (.chkerr d) s = .next t ∧ s.Completes t (.chkerr d) [.g d.toNat, .status 0x0A] ∧
      t.me.readG d.toNat = writtenG d.toNat (s.me.chk.setWidth 64) false ∧ t.me.chk = 0

/-- O39: With a record in the inbox TNEXT, or the event that completes a parked one, loads e0-e7, tsk, cov and need
from it, clears chk of every context and hchk, makes the registers beyond the footprint dead and the task current, and
writes e0 to gD; with none it parks. TEND with no current task only counts; else it ends the task, frees the inbox
slot, and the point is done in its stage, declared final where the stage has coverage, with launch status at least 1
when chk or gS says error. Rests on R27, R350, R353, R203, R209. -/
def Obligations.TaskTurnover : Prop :=
  let taken := fun (s t : State) (c : Nat) (k : Task) =>
    let x := t.ctx c 0
    (t.core c).task = some { k with since := s.cycle } ∧ (∀ n, n < 8 → x.readE n = k.record.getD n 0) ∧
      (t.core c).tsk = ((k.record.getD 1 0 : Word).extractLsb' 32 32) ∧
      (t.core c).cov = ((k.record.getD 1 0 : Word).extractLsb' 20 4) ∧ (t.core c).need = k.mask.setWidth 64 ∧
      (t.core c).hchk = 0 ∧ (∀ m, m ≠ 0 → ((t.core c).ctx m).chk = 0) ∧ x.chk = (if k.poison then 1 else 0) ∧
      (∀ n, k.fv ≤ n → x.readV n = {}) ∧ (∀ n, k.fq ≤ n → x.readQ n = 0) ∧ (t.core c).inbox = (s.core c).inbox
  (∀ (s : State) (d : BitVec 6), s.cur.2 = 0 → s.here.pairing = none → s.clear (.tnext d) = true →
    (∀ k rest, s.here.inbox = k :: rest → k.record.length = 8 →
      ∃ t, exec (.tnext d) s = .next t ∧ taken s t s.cur.1 k ∧
        t.me.readG d.toNat = writtenG d.toNat (k.record.getD 0 0) false ∧
        (∀ n, n ≠ d.toNat → t.me.readG n = s.me.readG n) ∧ s.OnlyCore t s.cur.1 ∧ t.here.store = s.here.store) ∧
    (s.here.inbox = [] → ∃ t, exec (.tnext d) s = .next t ∧ t.me.wait = .tnext d.toNat ∧ t.me.pc = s.me.pc ∧
      s.OnlyCore t s.cur.1)) ∧
  (∀ (s : State) (c d : Nat) (k : Task) (rest : List Task), (s.ctx c 0).wait = .tnext d → (s.core c).killed = false →
    (s.core c).saved = none → (s.core c).task = none → (s.core c).inbox = k :: rest → k.record.length = 8 → (s.core c).pairing = none →
    (s.ctx c 0).waitTaint = false →
    ∃ t, exec (.tnextTake c) s = .next t ∧ taken s t c k ∧ (t.ctx c 0).wait = .none ∧
      (t.ctx c 0).readG d = writtenG d (k.record.getD 0 0) false) ∧
  (∀ (s : State) (i : Instr) (a : Nat), (∃ r : BitVec 6, i = .tend r ∧ a = r.toNat) ∨ (∃ r : BitVec 5, i = .tend16 r ∧ a = r.toNat) →
    s.cur.2 = 0 → s.here.pairing = none → s.clear i = true →
    (s.here.task = none → ∃ t, exec i s = .next t ∧ (s.count Count.strayTaskEnd s.cur.1).Completes t i []) ∧
    (∀ k l q, s.here.task = some k → k.shadow = false → s.launch k.launch = some l → l.stage k.stage = some q →
      k.point ∉ q.done → s.here.stageCoverage s = false ∨ s.here.cvdone = true ∨ s.released 6 s.cur.1 0 = true →
      ∃ t l' r, exec i s = .next t ∧ t.here.task = none ∧ t.here.inbox = s.here.inbox.drop 1 ∧ t.here.cvdone = false ∧
        t.launch k.launch = some l' ∧ l'.stage k.stage = some r ∧ k.point ∈ r.done ∧
        (q.desc.coverage = true → k.point ∈ r.final) ∧
        (poisonedSource i s = true ∨ s.here.chkSet = true ∨ (s.g a).setWidth 32 ≠ (0 : BitVec 32) → 1 ≤ l'.status) ∧
        (∀ n, t.me.readG n = s.me.readG n) ∧ t.here.store = s.here.store))

/-- O40: MSEND to a core outside the partition takes a permission fault; as a release at dev scope it waits for
earlier accesses, and then the two words, with bits 31:28 of the first as 0, are on their way. Of the messages for a
core that nothing sent before holds back, the one of the earliest cycle and there of the lowest rank comes next: it
enters the mailbox when fewer than 32 are there, and wakes each context in MWAIT; with 32 there it waits at the
interface, and what waits there enters first; a killed core's are dropped. MWAIT completes when the mailbox holds a
message and else parks. MTAKE gives the oldest message to two registers, or kind 15 from an empty mailbox. Rests on
R151, R152, R320, R321, R325, R114, R91. -/
def Obligations.Messages : Prop :=
  (∀ (s : State) (m a : BitVec 6),
    let w := s.g a.toNat
    let dst := if bitsN w 12 0 = 0x1FFF then s.cur.1 else bitsN w 12 0
    let i := Instr.msend m a
    let x := s.me.readG m.toNat
    let y := s.me.readG (m.toNat + 1)
    let msg : Msg := { w0 := x.bits &&& 0xFFFFFFFF0FFFFFFF, w1 := y.bits, poison := x.poison || y.poison, src := s.cur.1,
                       ctx := s.cur.2 }
    (4095 < dst ∨ s.partOf dst ≠ s.partOf s.cur.1 → s.Traps i 0x06 0 w) ∧
      (dst ≤ 4095 → s.partOf dst = s.partOf s.cur.1 → s.clear i = true →
        (s.released 6 s.cur.1 s.cur.2 = false → exec i s = .next s) ∧
        (s.released 6 s.cur.1 s.cur.2 = true → s.here.pairing = none → s.injectionStall s.cur.1 = none →
          ∃ (u t : State), exec i s = .next t ∧ u.Completes t i [] ∧ u = { s with msgs := u.msgs, nextNum := s.nextNum + 1, replay := u.replay, budgets := u.budgets } ∧
            u.msgs = s.msgs ++ [{ id := s.nextNum, dst := dst, era := s.here.era, msg := msg, since := s.cycle }]))) ∧
  (∀ (s : State) (c : Nat) (m : MsgFlight) (before after : List MsgFlight), s.msgs = before ++ m :: after → m.dst = c →
    m ∉ before →
    let next := s.nextMail c = some m
    let first := m.waiting = true ∧ ∀ f, f ∈ before → f.dst = c → f.waiting = false
    let none_ := ∀ f, f ∈ s.msgs → f.dst = c → f.waiting = false
    ((s.core c).killed = true → (∀ f, f ∈ before → f.dst ≠ c) → ∃ t, exec (.mailboxArrival c) s = .next t ∧
      t.msgs = before ++ after ∧ t.cores = s.cores) ∧
    ((s.core c).killed = false → (s.core c).saved = none → 32 ≤ (s.core c).mailbox.length →
      (s.nextMail c = none → exec (.mailboxArrival c) s = .next s) ∧
      (next → ∃ t, exec (.mailboxArrival c) s = .next t ∧ t.msgs = before ++ after ++ [{ m with waiting := true }] ∧
        t.cores = s.cores)) ∧
    ((s.core c).killed = false → (s.core c).saved = none → (s.core c).mailbox.length < 32 → none_ → s.nextMail c = none →
      exec (.mailboxArrival c) s = .next s) ∧
    ((s.core c).killed = false → (s.core c).saved = none → (s.core c).mailbox.length < 32 → first ∨ (none_ ∧ next) →
      (s.core c).pairing = none →
      ∃ t, exec (.mailboxArrival c) s = .next t ∧ t.msgs = before ++ after ∧
        (t.core c).mailbox = (s.core c).mailbox ++ [m.msg] ∧ (∀ k, k ≠ c → t.core k = s.core k) ∧
        (t.core c).store = (s.core c).store ∧
        ∀ x, x ≤ 10 → if (s.ctx c x).live = true ∧ (s.ctx c x).wait = .mwait then
            (t.ctx c x).wait = .none ∧ (t.ctx c x).pc =
              ((s.ctx c x).goto (s.loopsFrozen c x) ((s.ctx c x).pc + BitVec.ofNat 64 (s.ctx c x).waitLen)).pc
          else t.ctx c x = s.ctx c x)) ∧
  (∀ (s : State) (c : Nat) (m : MsgFlight), s.nextMail c = some m → m ∈ s.msgs ∧ m.dst = c ∧ m.waiting = false ∧
    s.mailHeld m = false ∧ ∀ q, q ∈ s.msgs → q.dst = c → q.waiting = false → s.mailHeld q = false →
      m.since < q.since ∨ (m.since = q.since ∧ m.rank ≤ q.rank)) ∧
  (∀ (s : State) (i : Instr), i = .mwait ∨ i = .mwait16 → s.clear i = true →
    (s.here.mailbox ≠ [] → ∃ t, exec i s = .next t ∧ s.Completes t i []) ∧
    (s.here.mailbox = [] → ∃ t, exec i s = .next t ∧ t.me.wait = .mwait ∧ t.me.pc = s.me.pc)) ∧
  ∀ (s : State) (i : Instr) (d : Nat), (∃ r : BitVec 6, i = .mtake r ∧ d = r.toNat) ∨ (∃ r : BitVec 5, i = .mtake16 r ∧ d = r.toNat) →
    s.clear i = true →
    (s.here.mailbox = [] → ∃ t, exec i s = .next t ∧ s.Completes t i [.g d, .g (d + 1)] ∧
      t.me.readG d = writtenG d 0xF0000000 false ∧ t.me.readG (d + 1) = { bits := 0, poison := false }) ∧
    (∀ m rest, s.here.mailbox = m :: rest → m.copy = none →
      let u := s.modHere fun k => { k with mailbox := rest }
      ∃ t, exec i s = .next t ∧ u.Completes t i [.g d, .g (d + 1), .status 0x0A] ∧
        t.me.readG d = writtenG d m.w0 m.poison ∧ t.me.readG (d + 1) = { bits := m.w1, poison := m.poison } ∧
        t.me.chk = if m.poison then s.me.chk ||| 1 else s.me.chk) ∧
    (∀ m rest scope, s.here.mailbox = m :: rest → m.copy = some scope →
      ∃ t, exec i s = .next t ∧ t.here.mailbox = rest ∧ t.me.readG d = writtenG d m.w0 m.poison ∧
        t.me.chk.getLsbD 1 = (s.me.chk.getLsbD 1 || !(s.inScope scope m.src m.ctx true s.cur.1 s.cur.2 &&
          s.inScope scope s.cur.1 s.cur.2 false m.src m.ctx)))

/-- O41: On an unpaired core CBINIT lays a buffer over a location word with all stages free, or traps with subcode 7.
CBACQ takes the stage at head when it is free and nobody waits, writes its location and moves head; CBWAIT takes the
stage at tail when it is filled; otherwise they park in order; a request that comes after a later core's in the cycle
waits (R271). The grants do the same for the oldest waiting context; one that waits for another buffer is taken off
the list. CBCOM fills the oldest acquired stage and CBREL frees the oldest taken one, each a release at clus scope;
without such a stage they are only counted. An unconfigured buffer traps. Rests on R153, R154, R271, R272, R273, R274.
-/
def Obligations.CircularBuffers : Prop :=
  (∀ (s : State) (d a : BitVec 6) (n : BitVec 4), s.here.pairing = none →
    let b := s.g a.toNat
    let w := s.g d.toNat
    let bytes := bitsN w 23 0
    let count := bitsN w 28 24
    let cl := clusterOf s.cur.1
    let i := Instr.cbinit d a n
    let fresh : CircBuf := { base := b, bytes := bytes, count := count, head := 0, tail := 0,
                             stages := List.replicate count .free, commits := [], waitAcq := [], waitRd := [] }
    let badBase := isChip b = false ∨ 1 < chipLevel b ∨ chipHandle b = 0 ∨ chipOff b % 64 ≠ 0 ∨ 2 ^ 32 < chipOff b + count * bytes
    let badShape := bytes = 0 ∨ bytes % 64 ≠ 0 ∨ count < 2 ∨ 16 < count ∨ bitsN w 63 29 ≠ 0
    (badBase → s.Traps i 0x0A 7 b) ∧ (¬badBase → badShape → s.Traps i 0x0A 7 w) ∧
      (¬badBase → ¬badShape → s.cb cl n.toNat = none → s.clear i = true → ∃ u t, exec i s = .next t ∧ u.Completes t i [] ∧
        s.SetsBuffer u cl n.toNat fresh)) ∧
  (∀ (s : State) (d : BitVec 6) (n : BitVec 4), s.here.pairing = none →
    let cl := clusterOf s.cur.1
    let turn := s.portOpen (.scratch cl) (messageRank s.cur.1) = true
    let v := s.arriveAt (.scratch cl) (messageRank s.cur.1)
    (s.cb cl n.toNat = none → s.Traps (.cbacq d n) 0x0A 7 (n.setWidth 64) ∧ s.Traps (.cbwait d n) 0x0A 7 (n.setWidth 64)) ∧
    ∀ b, s.cb cl n.toNat = some b →
      (¬turn → (s.clear (.cbacq d n) = true → exec (.cbacq d n) s = .next s) ∧
        (s.clear (.cbwait d n) = true → exec (.cbwait d n) s = .next s)) ∧
      (turn → s.clear (.cbacq d n) = true → b.waitAcq = [] → b.stages.getD b.head .free = .free →
        Tab.get none b.commits b.head = none → ∃ u t, exec (.cbacq d n) s = .next t ∧
          v.SetsBuffer u cl n.toNat { b with stages := setAt b.stages b.head .acquired, head := (b.head + 1) % b.count } ∧
          u.Completes t (.cbacq d n) [.g d.toNat] ∧ t.me.readG d.toNat =
            writtenG d.toNat (addOffset b.base (BitVec.ofNat 64 (b.head * b.bytes))) false) ∧
      (turn → s.clear (.cbwait d n) = true → b.waitRd = [] → b.stages.getD b.tail .free = .filled →
        Tab.get none b.commits b.tail = none → ∃ u t, exec (.cbwait d n) s = .next t ∧
          v.SetsBuffer u cl n.toNat { b with stages := setAt b.stages b.tail .taken, tail := (b.tail + 1) % b.count } ∧
          u.Completes t (.cbwait d n) [.g d.toNat] ∧ t.me.readG d.toNat =
            writtenG d.toNat (addOffset b.base (BitVec.ofNat 64 (b.tail * b.bytes))) false) ∧
      (turn → s.clear (.cbacq d n) = true → b.waitAcq ≠ [] ∨ b.stages.getD b.head .free ≠ .free →
        ∃ t, exec (.cbacq d n) s = .next t ∧ t.me.wait = .cbacq n.toNat d.toNat ∧ t.me.pc = s.me.pc ∧
          t.cb cl n.toNat = some { b with waitAcq := b.waitAcq ++ [s.cur] }) ∧
      (turn → s.clear (.cbwait d n) = true → b.waitRd ≠ [] ∨ b.stages.getD b.tail .free ≠ .filled →
        ∃ t, exec (.cbwait d n) s = .next t ∧ t.me.wait = .cbwait n.toNat d.toNat ∧ t.me.pc = s.me.pc ∧
          t.cb cl n.toNat = some { b with waitRd := b.waitRd ++ [s.cur] })) ∧
  (∀ (s : State) (cl n c x d m : Nat) (b : CircBuf) (rest : List (Nat × Nat)), s.cb cl n = some b → (s.core c).pairing = none →
    (b.waitAcq = (c, x) :: rest → (s.ctx c x).wait = .cbacq m d → m ≠ n → ∃ t, exec (.cbacqGrant cl n) s = .next t ∧
      t.cores = s.cores ∧ t.cb cl n = some { b with waitAcq := rest }) ∧
    (b.waitAcq = (c, x) :: rest → (s.ctx c x).wait = .cbacq n d →
      (b.stages.getD b.head .free ≠ .free → exec (.cbacqGrant cl n) s = .next s) ∧
      (b.stages.getD b.head .free = .free → ∃ t, exec (.cbacqGrant cl n) s = .next t ∧ (t.ctx c x).wait = .none ∧
        t.cb cl n = some { b with stages := setAt b.stages b.head .acquired, head := (b.head + 1) % b.count, waitAcq := rest } ∧
        (t.ctx c x).readG d = writtenG d (addOffset b.base (BitVec.ofNat 64 (b.head * b.bytes))) false)) ∧
    (b.waitRd = (c, x) :: rest → (s.ctx c x).wait = .cbwait m d → m ≠ n → ∃ t, exec (.cbwaitGrant cl n) s = .next t ∧
      t.cores = s.cores ∧ t.cb cl n = some { b with waitRd := rest }) ∧
    (b.waitRd = (c, x) :: rest → (s.ctx c x).wait = .cbwait n d →
      (b.stages.getD b.tail .free ≠ .filled → exec (.cbwaitGrant cl n) s = .next s) ∧
      (b.stages.getD b.tail .free = .filled → ∃ t, exec (.cbwaitGrant cl n) s = .next t ∧ (t.ctx c x).wait = .none ∧
        t.cb cl n = some { b with stages := setAt b.stages b.tail .taken, tail := (b.tail + 1) % b.count, waitRd := rest } ∧
        (t.ctx c x).readG d = writtenG d (addOffset b.base (BitVec.ofNat 64 (b.tail * b.bytes))) false))) ∧
  ∀ (s : State) (n : BitVec 4), s.here.pairing = none →
    let cl := clusterOf s.cur.1
    let rel : Release := { core := s.cur.1, ctx := s.cur.2, isEngine := false, scope := 3 }
    let moves := fun (i : Instr) (from_ : CircBuf → Nat) (old new : Stage) =>
      (s.cb cl n.toNat = none → s.Traps i 0x0A 7 (n.setWidth 64)) ∧
      ∀ b, s.cb cl n.toNat = some b → s.clear i = true →
        (s.released 3 s.cur.1 s.cur.2 = false → exec i s = .next s) ∧
        (s.released 3 s.cur.1 s.cur.2 = true →
          (∀ j, j < b.count → b.stages.getD ((from_ b + j) % b.count) .free = old →
            (∀ k, k < j → b.stages.getD ((from_ b + k) % b.count) .free ≠ old) →
            ∃ u t, exec i s = .next t ∧ u.Completes t i [] ∧ s.SetsBuffer u cl n.toNat
              { b with stages := setAt b.stages ((from_ b + j) % b.count) new,
                       commits := Tab.put b.commits ((from_ b + j) % b.count) (some rel) }) ∧
          ((∀ j, j < b.count → b.stages.getD ((from_ b + j) % b.count) .free ≠ old) →
            ∃ t, exec i s = .next t ∧ (s.count Count.idleCommit cl).Completes t i []))
    moves (.cbcom n) (·.head) .acquired .filled ∧ moves (.cbrel n) (·.tail) .taken .free

/-- O42: PAIR waits for the loads outstanding and parks until the neighbour has issued it too; PAIR_RENDEZVOUS then
couples the two, the even one to act, each with the state after PAIR as checkpoint; the time limit makes the waiting
core take a gang fault. When both have stopped at the end of an interval with equal fingerprints, the even core sends
its outbox in order up to a release that still waits; once it is empty both start anew from a new checkpoint, and the
odd core's outbox is discarded; when they differ for the first or second time, both go back to the checkpoint, each
counted as a mismatch and a rollback. UNPAIR ends the pair and nothing else. Rests on R217, R218, R220, R221, R222,
R223, R330, R356. -/
def Obligations.Pairing : Prop :=
  (∀ s : State, s.cur.2 = 0 → s.clear .pair = true → s.me.loads ≠ [] → exec .pair s = .next s) ∧
  (∀ s : State, s.cur.2 = 0 → s.clear .pair = true → s.me.loads = [] → (s.core (partnerOf s.cur.1)).killed = false →
    (s.core (partnerOf s.cur.1)).part ≠ none →
    ∃ t, exec .pair s = .next t ∧ t.me.wait = .pair s.cycle ∧ t.me.pc = s.me.pc ∧ s.OnlyCore t s.cur.1) ∧
  (∀ (s : State) (c : Nat), c % 2 = 0 → s.pairWaits c = true → s.pairWaits (c + 1) = true → (s.core c).killed = false →
    (s.core (c + 1)).killed = false → (s.core c).part ≠ none → (s.core (c + 1)).part ≠ none → (s.core c).pairing = none →
    (s.core (c + 1)).pairing = none →
    ∃ t p q, exec (.pairRendezvous c) s = .next t ∧ (t.core c).pairing = some p ∧ (t.core (c + 1)).pairing = some q ∧
      p.partner = c + 1 ∧ q.partner = c ∧ p.even = true ∧ q.even = false ∧ p.retired = 0 ∧ q.retired = 0 ∧
      p.interval = (s.core c).pivl.toNat ∧ p.undo = [] ∧ p.outbox = [] ∧ p.checkpoint = t.ctx c 0 ∧
      q.checkpoint = t.ctx (c + 1) 0 ∧ (t.ctx c 0).wait = .none ∧ (t.ctx (c + 1) 0).wait = .none) ∧
  (∀ (s : State) (c since : Nat), (s.ctx c 0).wait = .pair since →
    (s.cycle < since + 2 ^ 20 → exec (.pairTimeout c) s = .next s) ∧
    (since + 2 ^ 20 ≤ s.cycle → (s.ctx c 0).loads = [] → (s.core c).gang = none → (s.core c).handler = false → (s.core c).tvec >>> 1 ≠ 0 →
      ∃ t, exec (.pairTimeout c) s = .next t ∧ (t.core c).handler = true ∧ (t.core c).tcause = 0x0016 ∧
        (t.core c).tpc = (s.ctx c 0).pc ∧ (t.core c).tval = 0 ∧ (s.dropDrive c).OnlyCore t c)) ∧
  (∀ (s : State) (c d : Nat) (p q : Machine.Pairing), c ≠ d → (s.core c).pairing = some p → (s.core d).pairing = some q → p.partner = d →
    q.partner = c → p.even = true → q.even = false → p.committing = false → (s.ctx c 0).wait = .interval → (s.ctx d 0).wait = .interval →
    let same := p.print = q.print ∧ p.retired = q.retired ∧ p.classes = q.classes
    (same → ∀ u rest, State.sendOutbox c p.outbox s = (u, rest) →
      (rest = [] → ∃ t p' q', exec (.pairIntervalCompare c) s = .next t ∧
        (t.core c).pairing = some p' ∧ (t.core d).pairing = some q' ∧ p'.undo = [] ∧ q'.undo = [] ∧ p'.outbox = [] ∧
        q'.outbox = [] ∧ p'.retired = 0 ∧ q'.retired = 0 ∧ p'.print = 0 ∧ q'.print = 0 ∧ p'.verified = p.verified + 1 ∧
        p'.checkpoint = { s.ctx c 0 with wait := .none } ∧ q'.checkpoint = { s.ctx d 0 with wait := .none } ∧
        (t.ctx c 0) = { s.ctx c 0 with wait := .none } ∧ (t.ctx d 0) = { s.ctx d 0 with wait := .none } ∧
        (t.core c).store = (s.core c).store ∧ t = { u with cores := t.cores }) ∧
      (rest ≠ [] → ∃ t, exec (.pairIntervalCompare c) s = .next t ∧
        (t.core c).pairing = some { p with outbox := rest, committing := true } ∧
        (t.ctx c 0).wait = .interval ∧ t.core d = u.core d ∧ t = { u with cores := t.cores })) ∧
    (¬same → p.mismatches.toNat < 2 → ∃ t p' q', exec (.pairIntervalCompare c) s = .next t ∧
      (t.core c).pairing = some p' ∧ (t.core d).pairing = some q' ∧ p'.mismatches = p.mismatches + 1 ∧ p'.outbox = [] ∧ q'.outbox = [] ∧
      (t.ctx c 0) = { p.checkpoint with wait := .none } ∧ (t.ctx d 0) = { q.checkpoint with wait := .none } ∧
      (t.core c).store = (s.core c).store.restore p.undo.reverse ∧
      (t.core d).store = (s.core d).store.restore q.undo.reverse ∧ t.net = s.net ∧
      (c < 4096 → d < 4096 → ∀ n k, n = Count.pairMismatch ∨ n = Count.rollback → k = c ∨ k = d →
        let count := fun (u : State) => (Tab.get 0 u.firmware.counters (countKey n k) : Word)
        count t = if count s = BitVec.allOnes 64 then count s else count s + 1))) ∧
  (∀ (s : State) (c : Nat),
    (∀ (ps : List Packet), (∀ p : Packet, p ∈ ps → (p.order = 0 ∨ p.order = 1) ∧ ∀ id, p.home ≠ .peer id) →
      ∃ u : State, State.sendOutbox c (ps.map Held.packet) s = (u, []) ∧
        u.net = s.net ++ ps.map fun p => { p with router := p.core, since := s.cycle }) ∧
    (∀ (p : Packet) rest, p.order = 2 ∨ p.order = 3 → s.released p.scope c 0 = false →
      State.sendOutbox c (.packet p :: rest) s = (s, .packet p :: rest))) ∧
  ∀ s : State, s.clear .unpair = true →
    let u := s.uncouple (s.here.bound s.cur.1)
    (s.here.pairing = none → ∃ t, exec .unpair s = .next t ∧ s.Completes t .unpair []) ∧
    (s.here.pairing ≠ none → s.here.gang = none → ∃ t, exec .unpair s = .next t ∧ u.Completes t .unpair [] ∧
      ∀ m, m ∈ s.here.bound s.cur.1 → (t.core m).pairing = none)

/-- O43: A request is performed only when no earlier one of its core to its home is unperformed the home's port has
served nothing of a later rank in the cycle, and nothing else keeps the home from serving it. In main memory under the
owner's domain a read answers the bytes there, a write replaces the bytes its mask selects and no others; under
another domain nothing is written, and zeros marked poisoned come back. On chip a remote request that no window admits
is refused, one whose handle is gone, of another generation or too small is dropped, one to a killed core's local
memory comes back poisoned, and any other reads or writes the bytes of the handle. A WAITA whose word differs is
answered, else it is armed. Rests on R77, R79, R59, R61, R72, R84, R85, R93, R94, R114, R358, R80. -/
def Obligations.HomePerforms : Prop :=
  ∀ (s : State) (p : Packet), s.net.find? (fun q => q.id == p.id) = some p →
    let done := fun (t : State) (a : Answer) (data : List Byte) (bad : Bool) =>
      (∀ q, q ∈ t.net ↔ q ∈ s.net ∧ q.id ≠ p.id) ∧
        ∃ r, t.replies = s.replies ++ [r] ∧ r.packet = p ∧ r.answer = a ∧ r.data = data ∧ r.poison = bad
    (s.nextAtHome p = false → exec (.homeAccessPerform ⟨p.id, none⟩) s = .next s) ∧
    (s.nextAtHome p = true → (∀ q, q ∈ s.net → q.armed = none) → s.dram.wf = true →
      ∀ (ch pa : Nat), p.home = .channel ch → p.pa = some pa →
      let bad := (span pa p.act.size).any fun a => Tab.get false s.dramBad (a / 64)
      (s.owned p.odi pa = true →
        (∀ n, p.act = .read n → ∃ t, exec (.homeAccessPerform ⟨p.id, none⟩) s = .next t ∧ t.dram = s.dram ∧ t.cores = s.cores ∧
          done t .done (s.dram.read pa n) bad) ∧
        (∀ data mask, p.act = .write data mask → mask = [] ∨ mask.length = data.length →
          ∃ t old, exec (.homeAccessPerform ⟨p.id, none⟩) s = .next t ∧ t.cores = s.cores ∧ t.clusters = s.clusters ∧ done t .done old bad ∧
          (∀ a, a < pa ∨ pa + data.length ≤ a → t.dram.byte a = s.dram.byte a) ∧
          ∀ j, j < data.length → t.dram.byte (pa + j) =
            if mask = [] then data.getD j 0
            else (data.getD j 0 &&& mask.getD j 0) ||| (s.dram.byte (pa + j) &&& ~~~(mask.getD j 0))) ∧
        (∀ op n v e, p.act = .atomic op n v e → ∃ t, exec (.homeAccessPerform ⟨p.id, none⟩) s = .next t ∧
          done t .done (s.dram.read pa n) bad ∧
          t.dram.read pa n = ((atomicNew op n (leNat (s.dram.read pa n)) (v.toNat % 2 ^ (8 * n)) (e.toNat % 2 ^ (8 * n))).map
            (leBytes n)).getD (s.dram.read pa n))) ∧
      (s.owned p.odi pa = false → (∀ old t, p.act ≠ .watch old t) → ∃ t, exec (.homeAccessPerform ⟨p.id, none⟩) s = .next t ∧
        t.dram = s.dram ∧ t.cores = s.cores ∧ t.clusters = s.clusters ∧
        done t .dropped (List.replicate p.act.size 0) true)) ∧
    (s.nextAtHome p = true → (∀ q, q ∈ s.net → q.armed = none) → (∀ ch, p.home ≠ .channel ch) → (∀ id, p.home ≠ .peer id) →
      let c := namedCore p.core p.loc
      let lvl := chipLevel p.loc
      let lost := lvl = 0 ∧ (s.core c).killed = true ∧ (p.op.isSome = true ∨ p.engine = true)
      let refused := p.isLocal = false ∧ (s.firewalled p c = true ∨ (s.columnInbox c (chipHandle p.loc) = false ∧
        (s.core c).admits p.core lvl (chipHandle p.loc) (s.wants p) = false))
      let m := s.storeAt p.home
      (lost → ∃ t, exec (.homeAccessPerform ⟨p.id, none⟩) s = .next t ∧ done t .lost (List.replicate p.act.size 0) true) ∧
      (¬lost → refused → ∃ t, exec (.homeAccessPerform ⟨p.id, none⟩) s = .next t ∧ done t .nack [] false ∧ t.cores = s.cores ∧
        t.clusters = s.clusters) ∧
      (¬lost → ¬refused → s.tileOf p = none → ∃ t, exec (.homeAccessPerform ⟨p.id, none⟩) s = .next t ∧
        done t .dropped (List.replicate p.act.size 0) true ∧ t.cores = s.cores ∧ t.clusters = s.clusters) ∧
      (¬lost → ¬refused → ∀ e, s.tileOf p = some e →
        let offs := e.physAll lvl (p.rot.getD e.rot) (chipOff p.loc) p.act.size
        (∀ n, p.act = .read n → ∃ t, exec (.homeAccessPerform ⟨p.id, none⟩) s = .next t ∧ t.storeAt p.home = m ∧
          done t .done (m.load offs).1 (m.load offs).2) ∧
        (∀ data, p.act = .write data [] → m.ok = true → offs.Nodup → ∃ t, exec (.homeAccessPerform ⟨p.id, none⟩) s = .next t ∧
          done t .done (m.load offs).1 (m.load offs).2 ∧ offs.map (t.storeAt p.home).bytes.byte = data ∧
          (∀ a, a ∉ offs → (t.storeAt p.home).bytes.byte a = m.bytes.byte a) ∧
          ∀ h, h ≠ p.home → t.storeAt h = s.storeAt h))) ∧
    (s.nextAtHome p = true → ∀ old time w, p.act = .watch old time → p.pa = none → (∀ id, p.home ≠ .peer id) →
      (∀ ch, p.home ≠ .channel ch) → (s.core (namedCore p.core p.loc)).killed = false →
      p.isLocal = true → p.whole = none → s.watched p = some w →
      (w.1 ≠ old → ∃ t, exec (.homeAccessPerform ⟨p.id, none⟩) s = .next t ∧ done t .done (bytesOf 8 w.1) w.2.1 ∧ t.cores = s.cores) ∧
      (w.1 = old → ∃ t q, exec (.homeAccessPerform ⟨p.id, none⟩) s = .next t ∧ q ∈ t.net ∧ q.id = p.id ∧ q.armed ≠ none ∧
        q.timeout = (if time = 0 then 0 else s.cycle + time) ∧ t.replies = s.replies ∧ t.cores = s.cores))

/-- O44: The last reply of a load or atomic writes its register, and a context that did not wait loses the interlock
while one that waited goes on past the instruction; a refusal of a waiting access traps with cause 7 and the location,
once loads issued before have returned. The response of a posted access takes its bytes back from the pending counts,
and a refusal sets chk bit 5 of the sender. An armed WAITA is answered at its time limit, or when a poll finds another
word or the granule's owner changed; else the poll is set 2,500 cycles on; a home that serves nothing does neither. An
acknowledgement marks its transmission once that has gone out. Rests on R59, R64, R97, R93, R94, R162, R107, R15, R82,
R248, R304. -/
def Obligations.Replies : Prop :=
  (∀ (s : State) (r : Reply) (o : Op) (n d cls : Nat) (before after : List Reply), s.replies = before ++ r :: after →
    (∀ q, q ∈ before → q.packet.id ≠ r.packet.id) → r.packet.op = some n → Tab.get none s.ops n = some o → o.left = 1 →
    o.nack = none → o.parts = [] → r.release = none → (s.core o.core).pairing = none →
    (s.core o.core).dueTrap = none → (s.ctx o.core o.ctx).live = true → (s.ctx o.core o.ctx).life = o.life →
    let x := s.ctx o.core o.ctx
    let word := extend cls r.data
    (o.dest = .scalar d cls → r.answer ≠ .nack → x.wait ≠ .reply n → x.wait ≠ .waita n → o.holds = false →
      ∃ t, exec (.accessReply r.packet.id) s = .next t ∧ t.replies = before ++ after ∧
        (t.ctx o.core o.ctx).readG d = writtenG d word (r.poison || o.taint) ∧
        (t.ctx o.core o.ctx).loads = (if d = 0 then x.loads else x.loads.erase (.g d)) ∧
        (∀ k, k ≠ d → (t.ctx o.core o.ctx).readG k = x.readG k) ∧ (t.ctx o.core o.ctx).pc = x.pc) ∧
    (o.dest = .scalar d cls → r.answer ≠ .nack → x.wait = .reply n →
      ∃ t, exec (.accessReply r.packet.id) s = .next t ∧ (t.ctx o.core o.ctx).wait = .none ∧
        (t.ctx o.core o.ctx).readG d = writtenG d word (r.poison || o.taint) ∧
        (t.ctx o.core o.ctx).pc =
          (x.goto (s.loopsFrozen o.core o.ctx) (x.pc + BitVec.ofNat 64 x.waitLen)).pc) ∧
    (o.dest = .scalar d cls → r.answer = .nack → x.wait = .reply n →
      (x.loads ≠ [] → exec (.accessReply r.packet.id) s = .next s) ∧
      (x.loads = [] → o.ctx ≠ 0 → ∃ t, exec (.accessReply r.packet.id) s = .next t ∧ t.replies = before ++ after ∧
        (t.ctx o.core o.ctx).frozen = some { cause := 0x07, sub := 0, pc := x.pc, tval := r.packet.loc, since := s.cycle } ∧
        ∀ k, (t.ctx o.core o.ctx).readG k = x.readG k))) ∧
  (∀ (s : State) (r : Reply) (before after : List Reply), s.replies = before ++ r :: after →
    (∀ q, q ∈ before → q.packet.id ≠ r.packet.id) → r.packet.op = none → r.packet.group = none → r.packet.row = none →
    let p := r.packet
    (r.answer ≠ .nack → ∃ t, exec (.postedAccessResponse p.id) s = .next t ∧ t.replies = before ++ after ∧
      t.net = s.net ∧ ∀ x, t.ctx p.core x = s.ctx p.core x) ∧
    (r.answer = .nack → p.core < 4096 → p.ctx < 11 → (s.core p.core).era = p.era → (s.ctx p.core p.ctx).live = true →
      (s.ctx p.core p.ctx).life = p.life → ∃ t, exec (.postedAccessResponse p.id) s = .next t ∧
        t.replies = before ++ after ∧ (t.ctx p.core p.ctx).chk = (s.ctx p.core p.ctx).chk ||| 0x20) ∧
    (∀ b, p.counted = [b] → ∃ t, exec (.postedAccessResponse p.id) s = .next t ∧
      (Tab.get {} (t.core p.core).barriers b : Barrier).pending =
        (Tab.get {} (s.core p.core).barriers b : Barrier).pending - BitVec.ofNat 48 p.bytes)) ∧
  (∀ (s : State) (c x : Nat) (p : Packet) (old : Word) (time : Nat), s.armedFor c x = some p → p.act = .watch old time →
    let w := s.readWatched p
    let answered := fun (t : State) => (∀ q, q ∈ t.net ↔ q ∈ s.net ∧ q.id ≠ p.id) ∧ t.cores = s.cores ∧
      ∃ r, t.replies = s.replies ++ [r] ∧ r.packet = p ∧ r.answer = .done ∧ r.data = bytesOf 8 w.1 ∧ r.poison = w.2.1
    (p.timeout = 0 ∨ s.cycle < p.timeout → exec (.waitaTimeout c x) s = .next s) ∧
    (s.watchServed p = false → exec (.waitaTimeout c x) s = .next s ∧ exec (.waitaPoll c x) s = .next s) ∧
    (p.timeout ≠ 0 → p.timeout ≤ s.cycle → s.watchServed p = true → ∃ t, exec (.waitaTimeout c x) s = .next t ∧ answered t) ∧
    (p.armed = some false → p.poll ≤ s.cycle → s.watchServed p = true → w.1 ≠ old ∨ s.disowned p = true → ∃ t, exec (.waitaPoll c x) s = .next t ∧ answered t) ∧
    (p.armed = some false → p.poll ≤ s.cycle → s.watchServed p = true → w.1 = old → s.watched p ≠ none →
      s.disowned p = false → ∃ t, exec (.waitaPoll c x) s = .next t ∧
      t.replies = s.replies ∧ t.net = s.net.map fun q => if q.id = p.id then { q with poll := q.poll + 2500 } else q)) ∧
  ∀ (s : State) (id : Nat), ∃ t, exec (.ultraEthernetAcknowledgement id) s = .next t ∧
    t = { s with outbox := t.outbox, replay := t.replay } ∧
      t.outbox = s.outbox.map fun q => if q.id = id ∧ q.sent = true then { q with acked := true } else q

/-- O45: EQF makes later entries of each named queue wait for the last entry now in any of them. CPYSET sets a shadow
field. CPYGO checks the flags, queues the ten fields at the tail and gives the next transfer id, or waits at 16
entries. CPYST reports unknown, queued, running or the status. COPY_START takes the head entry to the lowest free
engine, which ends it by its guard or a killed core, or else has all its pieces to do; and then performs the pieces,
each within a line of each side, in any order: the bytes read are those written, what lies across a link is asked for
or sent in a packet that carries the barriers counting it, and an error ends the copy. COPY_COMPLETION reports as the
flags say and sets chk bit 4 for errors. That the running entry counts among the 16 (log 74) and that pieces are steps
in any order (log 6) are the model's choices. Rests on R88, R107, R148, R149, R150, R91, R279, R280, R281, R287, R108.
-/
def Obligations.Copies : Prop :=
  (∀ (s : State) (a : BitVec 6), s.clear (.eqf a) = true → ∃ u t, exec (.eqf a) s = .next t ∧ u.Completes t (.eqf a) [] ∧
    s.OnlyCore u s.cur.1 ∧ u.here = { s.here with joins := u.here.joins } ∧
    ∀ q j, q < 5 → (j ∈ u.here.takeJoins q ↔ j ∈ s.here.takeJoins q ∨ ((s.g a.toNat).getLsbD q = true ∧ j.1 < 5 ∧
      (s.g a.toNat).getLsbD j.1 = true ∧ (s.here.serials j.1).getLast? = some j.2))) ∧
  (∀ (s : State) (a : BitVec 6) (f : BitVec 4), s.clear (.cpyset a f) = true →
    ∃ u t, exec (.cpyset a f) s = .next t ∧ u.Completes t (.cpyset a f) [] ∧ s.OnlyCore u s.cur.1 ∧
      u.here = { s.here with ctxs := u.here.ctxs } ∧ (∀ x, x ≠ s.cur.2 → u.here.ctx x = s.here.ctx x) ∧
      u.me = { s.me with shadow := u.me.shadow } ∧
      ∀ n, u.me.field n = if n = f.toNat then s.me.readG a.toNat else s.me.field n) ∧
  (∀ (s : State) (d : BitVec 6), s.here.pairing = none →
    let fl := (s.me.field 6).bits
    let scope : BitVec 4 := fl.extractLsb' 32 4
    let core := bitsN fl 28 16
    let q := bitsN fl 1 0
    let badScope := s.scopeFault s.cur.1 scope = true
    let bad := bitsN fl 3 2 ≠ 0 ∨ bitsN fl 5 4 = 3 ∨ bitsN fl 7 6 ≠ 0 ∨ bitsN fl 15 12 ≠ 0 ∨ bitsN fl 31 29 ≠ 0 ∨
      bitsN fl 47 44 ≠ 0 ∨ 5 < bitsN fl 43 40 ∨ 5 < bitsN fl 39 36 ∨ (4095 < core ∧ core ≠ 0x1FFF)
    let away := core ≤ 4095 ∧ s.partOf core ≠ s.partOf s.cur.1
    (badScope → s.Traps (.cpygo d) 0x13 0 (scope.setWidth 64)) ∧
    (¬badScope → bad → s.Traps (.cpygo d) 0x0A 6 fl) ∧
    (¬badScope → ¬bad → away → s.Traps (.cpygo d) 0x06 0 fl) ∧
    (¬badScope → ¬bad → ¬away → s.clear (.cpygo d) = true →
      (16 ≤ (s.here.serials q).length → exec (.cpygo d) s = .next s) ∧
      ((s.here.serials q).length < 16 → ∃ u t e, exec (.cpygo d) s = .next t ∧
        u.Completes t (.cpygo d) [.g d.toNat, .status 0x0A] ∧ s.OnlyCore u s.cur.1 ∧
        (let k := { s.here with eqs := u.here.eqs, serial := u.here.serial, nextId := u.here.nextId,
                                transfers := u.here.transfers }
         u.here = k) ∧
        (u.here.eq q).entries = (s.here.eq q).entries ++ [e] ∧ (u.here.eq q).running = (s.here.eq q).running ∧
        (∀ n, n ≠ q → u.here.eq n = s.here.eq n) ∧ e.fields = (List.range 10).map (fun n => (s.me.field n).bits) ∧
        e.id = s.here.nextId ∧ e.joins = s.here.takeJoins q ∧ e.queue = none ∧
        u.here.nextId = (if s.here.nextId = 0xFFFF then 1 else s.here.nextId + 1) ∧
        u.here.transfers = ({ id := e.id, state := .queued, scope := scope, ctx := s.cur.2 } :: s.here.transfers).take 64 ∧
        t.me.readG d.toNat = writtenG d.toNat (e.id.setWidth 64) false ∧
        t.me.chk = if (List.range 10).any (fun n => (s.me.field n).poison) then s.me.chk ||| 1 else s.me.chk))) ∧
  (∀ (s : State) (d a : BitVec 6), s.here.pairing = none → s.clear (.cpyst d a) = true →
    let id : BitVec 16 := (s.g a.toNat).setWidth 16
    let found := s.here.transfers.find? fun t => t.id == id
    let gives := fun (w : Word) => ∃ t, exec (.cpyst d a) s = .next t ∧ s.Completes t (.cpyst d a) [.g d.toNat, .status 0x0A] ∧
      t.me.chk ||| 3 = s.me.chk ||| 3 ∧ t.me.readG d.toNat = writtenG d.toNat w (poisonedSource (.cpyst d a) s)
    (id = 0 ∨ found = none → gives (1 <<< 61)) ∧
    ∀ x, id ≠ 0 → found = some x → (x.state = .queued → gives 0) ∧ (x.state = .running → gives (1 <<< 62)) ∧
      ∀ status, x.state = .done status → gives ((1 <<< 63) ||| BitVec.ofNat 64 status)) ∧
  (∀ (s : State) (c q engine piece : Nat) (e : CopyEntry) (rest : List CopyEntry),
    (s.core c).eq q = { entries := e :: rest, running := none } → s.freeEngine (dieOf c) = some engine →
    (s.core c).saved = none →
    ((s.core c).joined e.joins = false → exec (.copyStart c ⟨q, piece⟩) s = .next s) ∧
    ((s.core c).joined e.joins = true →
      let f := fun n => e.fields.getD n 0
      let all := List.range (copyPieces e.fields).length
      let runs := fun (status bytes : Nat) (todo : List Nat) (guard : Bool) =>
        ∃ t, exec (.copyStart c ⟨q, piece⟩) s = .next t ∧ t.dram = s.dram ∧ (∀ m, (t.core m).store = (s.core m).store) ∧
          let run : CopyRun :=
            { entry := e, engine := engine, status := status, bytes := bytes, left := 0, todo := todo, guard := guard }
          (t.core c).eq q = { entries := rest, running := some run }
      (e.begun = none → (s.core c).killed = true → runs 8 0 [] false) ∧
      ((s.core c).killed = false →
        (∀ todo status bytes, e.begun = some (todo, status, bytes) → runs status bytes todo false) ∧
        (e.begun = none → (f 7 = 0 → runs 0 0 all false) ∧
          (f 7 ≠ 0 → (if isChip (f 7) then chipOff (f 7) else bitsN (f 7) 56 0) % 8 ≠ 0 → runs 9 0 [] false) ∧
          (f 7 ≠ 0 → (if isChip (f 7) then chipOff (f 7) else bitsN (f 7) 56 0) % 8 = 0 →
            ∀ w, s.engineAt c (f 7) 8 0 false = w →
              (∀ n, w = .fail n → runs n 0 [] false) ∧
              ((∃ h offs, w = .chip h offs) ∨ (∃ pa, w = .mem pa) → s.engineFree w (engineRank (dieOf c) engine) = true →
                if leBits 64 (s.engineRead c w 8).1 = f 8 then runs 0 0 all false else runs 1 0 [] false) ∧
              ∀ h pa, w = .far h pa → s.engineStall w false = none → runs 0 0 all true))))) ∧
  (∀ (s : State) (c q piece n row : Nat) (src dst : Word) (r : CopyRun), ((s.core c).eq q).running = some r →
    r.guard = false → (s.core c).saved = none → (copyPieces r.entry.fields)[piece]? = some (row, src, dst, n) →
    (piece ∉ r.todo → exec (.copyStart c ⟨q, piece⟩) s = .next s) ∧
    (piece ∈ r.todo → s.budgetLeft 0 (s.odiOf c) = true →
      let fl : Word := r.entry.fields.getD 6 0
      let rank := engineRank (dieOf c) r.engine
      let failed := fun (st : Nat) => { r with status := if r.status = 0 ∨ r.status = 5 then st else r.status, todo := [] }
      let asked := { r with todo := r.todo.filter (· != piece), left := r.left + 1 }
      let runs := fun (t : State) (u : CopyRun) => ((t.core c).eq q).running = some u ∧
        ((t.core c).eq q).entries = ((s.core c).eq q).entries
      ∀ from_ to_, s.engineAt c src n (bitsN fl 39 36) false = from_ → s.engineAt c dst n (bitsN fl 43 40) true = to_ →
        (∀ st, from_ = .fail st → ∃ t, exec (.copyStart c ⟨q, piece⟩) s = .next t ∧ runs t (failed st) ∧
          t.dram = s.dram) ∧
        (∀ h pa, from_ = .far h pa → (∀ id, h ≠ .peer id) → (∀ st, to_ ≠ .fail st) → (∀ va, to_ ≠ .ask va) →
          s.engineFree to_ rank = true → s.engineStall to_ true = none →
          ∃ t p, exec (.copyStart c ⟨q, piece⟩) s = .next t ∧ runs t asked ∧ t.dram = s.dram ∧ t.net = s.net ++ [p] ∧
            p.home = h ∧ p.act = .read n ∧ p.core = c ∧ p.counted = s.engineCounts c to_) ∧
        ((∃ h offs, from_ = .chip h offs) ∨ (∃ pa, from_ = .mem pa) →
          let got := s.engineRead c from_ n
          let after := { r with todo := r.todo.filter (· != piece), bytes := r.bytes + n,
                                status := if r.status = 0 && got.2 then 5 else r.status }
          (∀ st, to_ = .fail st → ∃ t, exec (.copyStart c ⟨q, piece⟩) s = .next t ∧
            runs t (failed st) ∧ t.dram = s.dram) ∧
          (∀ h pa, to_ = .far h pa → (∀ id, h ≠ .peer id) → s.engineFree from_ rank = true →
            ∃ t p, exec (.copyStart c ⟨q, piece⟩) s = .next t ∧ runs t asked ∧ t.dram = s.dram ∧ t.net = s.net ++ [p] ∧
              p.home = h ∧ p.act = .write got.1 [] ∧ p.poison = got.2 ∧ p.counted = s.engineCounts c to_) ∧
          (s.engineFree from_ rank = true → s.engineFree to_ rank = true →
            (∀ pa, to_ = .mem pa → s.dram.wf = true → ∃ t, exec (.copyStart c ⟨q, piece⟩) s = .next t ∧ runs t after ∧
              t.dram.read pa n = got.1 ∧ ∀ a, a < pa ∨ pa + n ≤ a → t.dram.byte a = s.dram.byte a) ∧
            ∀ h offs, to_ = .chip h offs → offs.Nodup → (s.storeAt h).ok = true →
              ∃ t, exec (.copyStart c ⟨q, piece⟩) s = .next t ∧ runs t after ∧ t.dram = s.dram ∧
                offs.map (t.storeAt h).bytes.byte = got.1 ∧
                (∀ a, a ∉ offs → (t.storeAt h).bytes.byte a = (s.storeAt h).bytes.byte a) ∧
                ∀ h', h' ≠ h → t.storeAt h' = s.storeAt h')))) ∧
  (∀ fields : List Word,
    let f := fun n => fields.getD n 0
    let low := fun n => (f n).toNat % 2 ^ 32
    low 9 * low 3 = 1 → 0 < low 2 → low 2 ≤ lineRoom (f 0) → low 2 ≤ lineRoom (f 1) →
      copyPieces fields = [(0, f 0, f 1, low 2)]) ∧
  ∀ (s : State) (c q : Nat) (r : CopyRun), ((s.core c).eq q).running = some r →
    (r.left ≠ 0 ∨ r.todo ≠ [] ∨ r.guard = true → exec (.copyCompletion c q) s = .next s) ∧
    (r.left = 0 → r.todo = [] → r.guard = false → r.entry.queue = none → (s.core c).pairing = none →
      let fl : Word := r.entry.fields.getD 6 0
      let scope : BitVec 4 := fl.extractLsb' 32 4
      let n := bitsN fl 28 16
      let x := s.ctx c r.entry.ctx
      let w0 := r.entry.id.toNat + r.status * 2 ^ 16 + q * 2 ^ 24 + 2 ^ 28 + min r.bytes 0xFFFFFFFF * 2 ^ 32
      let msg : Msg := { w0 := BitVec.ofNat 64 w0, w1 := BitVec.ofNat 64 (bitsN fl 63 48), poison := false, src := c,
                         ctx := r.entry.ctx, copy := some scope }
      let rel : Release := { core := c, ctx := r.entry.ctx, isEngine := true, scope := scope }
      ∃ t, exec (.copyCompletion c q) s = .next t ∧ (t.core c).eq q = { (s.core c).eq q with running := none } ∧
        (∀ y, (s.core c).transfers.find? (fun t => t.id == r.entry.id) = some y →
          (t.core c).transfers.find? (fun t => t.id == r.entry.id) = some { y with state := .done r.status }) ∧
        (r.status ≤ 1 → ∀ y, t.ctx c y = s.ctx c y) ∧
        (1 < r.status → (s.core c).era = r.entry.era → x.live = true → x.life = r.entry.life →
          t.ctx c r.entry.ctx = { x with chk := x.chk ||| 0x10 }) ∧
        (bitsN fl 5 4 = 0 → t.msgs = s.msgs ++ [{ id := s.nextNum, dst := if n = 0x1FFF then c else n, era := r.entry.era, msg := msg,
                                                      since := s.cycle, engine := some (16 * dieOf c + r.engine) }]) ∧
        (bitsN fl 5 4 ≠ 0 → t.msgs = s.msgs) ∧
        (bitsN fl 5 4 ≠ 2 → t.clusters = s.clusters) ∧
        (bitsN fl 5 4 = 2 → ∀ b i, s.cb (clusterOf c) (bitsN fl 11 8) = some b → b.oldest b.head .acquired = some i →
          t.cb (clusterOf c) (bitsN fl 11 8) =
            some { b with stages := setAt b.stages i .filled, commits := Tab.put b.commits i (some rel) }))

/-- O46: A product checks narrow formats, options, the record of A, the group table, A, the record of B, B and the
guard in that order; it then joins the queue with its operands, row counts and guard outcome and names its tile in the
open batch, or waits while the queue holds 8. A tile move checks the tile for being busy, the type, the record and
every row. MCOMMIT closes the batch under the next number, and waits while eight are outstanding; MWAITB covers
completed batches once no more than its count are outstanding; both else wait for BATCH_COMPLETE. Rests on R106, R139,
R141, R142, R143, R144, R145, R146, R147, R317, R318, R351. -/
def Obligations.MatrixQueue : Prop :=
  (∀ (s : State) (kind : MatKind) (i : Instr) (d a : BitVec 6) (e : BitVec 4),
    (kind = .mma ∧ i = .mma d a e) ∨ (kind = .mmag ∧ i = .mmag d a e) →
    let e0 := s.me.readE 0
    let ta := optType e0
    let tb := optB e0
    let kA := depth ta (s.me.fmOf ta)
    let kB := depth tb (s.me.fmOf tb)
    let int := fun (ty : BitVec 5) => ty = 0 ∨ ty = 1
    let narrow := s.me.badNarrow ta = true ∨ s.me.badNarrow tb = true
    let bad := bitsN e0 23 20 ≠ 0 ∨ bitsN e0 63 28 ≠ 0 ∨ (kind = .mma ∧ bitsN e0 27 24 ≠ 0) ∨ kA = none ∨ kA ≠ kB ∨
      (e0.getLsbD 11 = true ∧ ¬(int ta ∧ int tb)) ∨ (e0.getLsbD 11 = false ∧ (int ta ∨ int tb))
    let steps := optSteps e0
    (narrow → s.Traps i 0x02 0 (formatVal ta tb 0)) ∧
    (¬narrow → bad → s.Traps i 0x0A 5 e0) ∧
    (¬narrow → ¬bad →
      (∀ v, s.operand a.toNat (steps == 1) = .error v → s.Traps i 0x0A 1 v) ∧
      ∀ ra rows, s.operand a.toNat (steps == 1) = .ok ra →
      (kind = .mma → rows = [16]) →
      (kind = .mmag → bitsN (s.me.readE 3) 0 0 = 0 ∧ rows.length = bitsN e0 27 24 + 1 ∧ rows.foldl (· + ·) 0 ≤ 16 ∧
        ∀ n, n < rows.length → let at' := (s.me.readE 3).toNat + 2 * n
          ∃ v, s.nearWord (BitVec.ofNat 64 (at' / 8 * 8)) v ∧ rows.getD n 0 = v.toNat / 2 ^ (8 * (at' % 8)) % 2 ^ 16) →
      (ra.group = none → ∀ st, st < steps → ∀ p, p ∈ aPieces ra 0 (rows.foldl (· + ·) 0) st → s.piecePasses .read p) →
      (kind = .mma → ∀ v, s.operand (2 * e.toNat) (steps == 1) = .error v → s.Traps i 0x0A 2 v) ∧
      ∀ rb, s.operand (2 * e.toNat) (steps == 1 && kind == .mma) = .ok rb →
      (rb.group = none → ∀ g, g < rows.length → rows.getD g 0 ≠ 0 → ∀ st, st < steps → ∀ p,
        p ∈ bPieces rb (e0.getLsbD 10) (kA.getD 0) (2 * typeBits tb (s.me.fmOf tb)) (g * rb.tp) st → s.piecePasses .read p) →
      let e1 := s.me.readE 1
      (kind = .mma → bitsN e1 2 0 ≠ 0 → s.Traps i 0x0A 3 e1) ∧
      (kind = .mma → e1 = 0 → s.clear i = true → 8 ≤ s.here.mq.length → exec i s = .next s) ∧
      (s.clear i = true → s.here.mq.length < 8 → s.me.side = [] → bitsN e1 2 0 = 0 →
        ∀ guarded : Bool, (e1 = 0 → guarded = false) →
        (e1 ≠ 0 → ∃ v, s.nearWord e1 v ∧ (guarded = true ↔ v ≠ s.me.readE 2)) →
        ∃ u t, exec i s = .next t ∧ u.Completes t i [] ∧ s.QueuesMat u
          { kind := kind, tile := d.toNat, options := e0, a := ra, b := rb, rows := rows, fmA := s.me.fmOf ta,
            fmB := s.me.fmOf tb, guarded := guarded, poison := s.groupPoison a.toNat || s.groupPoison (2 * e.toNat),
            ctx := s.cur.2, rowsOut := none, rowData := [], failed := false, readPoison := false,
            serial := s.here.serial, joins := s.here.takeJoins 4, next := 0 }))) ∧
  (∀ (s : State) (kind : MatKind) (i : Instr) (d a : BitVec 6),
    (kind = .tld ∧ i = .tld d a) ∨ (kind = .tldt ∧ i = .tldt d a) ∨ (kind = .tst ∧ i = .tst d a) →
    let e0 := s.me.readE 0
    let ty := optType e0
    let whole := if kind = .tst then (s.here.tile d.toNat).isInt else e0.getLsbD 11
    let taken := if whole = true then ty = 5 ∨ ty = 3 ∨ ty = 1 ∨ (kind ≠ .tst ∧ (ty = 2 ∨ ty = 0))
      else ty = 10 ∨ ty = 8 ∨ ty = 9 ∨ isNarrow ty = true
    (s.me.badNarrow ty = true → s.Traps i 0x02 0 (formatVal 0 0 ty)) ∧
    (s.me.badNarrow ty = false → s.here.busy d.toNat = true → s.Traps i 0x0B 0 (BitVec.ofNat 64 d.toNat)) ∧
    (s.me.badNarrow ty = false → s.here.busy d.toNat = false →
      (¬taken → s.Traps i 0x0A 5 e0) ∧
      (taken → (∀ v, s.operand a.toNat false = .error v → s.Traps i 0x0A 1 v) ∧
        ∀ ra, s.operand a.toNat false = .ok ra →
        (∀ r, r < 16 → s.piecePasses (if kind = .tst then .write else .read)
          (r, addOffset ra.loc (BitVec.ofNat 64 (r * ra.rp)), 2 * typeBits ty (s.me.fmOf ty))) → s.clear i = true →
        (8 ≤ s.here.mq.length → exec i s = .next s) ∧
        (s.here.mq.length < 8 → ∃ u t e, exec i s = .next t ∧ u.Completes t i [] ∧ s.QueuesMat u e ∧ e.kind = kind ∧
          e.tile = d.toNat ∧ e.options = e0 ∧ e.a = ra ∧ e.fmA = s.me.fmOf ty ∧ e.guarded = false ∧ e.poison = false ∧
          e.rowsOut = none ∧ e.next = 0 ∧ e.serial = s.here.serial ∧ e.joins = s.here.takeJoins 4)))) ∧
  (∀ (s : State) (d : BitVec 6), s.clear (.mcommit d) = true →
    let open_ := s.here.openBatch
    (open_.entries ≠ [] → 8 ≤ s.here.outstandingBatches → ∃ t, exec (.mcommit d) s = .next t ∧
      s.Parks t (.mcommit d.toNat) ∧ t.here.batches = s.here.batches ∧ t.here.openBatch = open_ ∧ t.me.pc = s.me.pc) ∧
    (open_.entries = [] ∨ s.here.outstandingBatches < 8 →
      let b : Batch := { open_ with number := s.here.nextBatch, done := open_.entries == [] }
      let u := s.modHere fun k => { k with batches := k.batches ++ [b], openBatch := {}, nextBatch := k.nextBatch + 1 }
      ∃ t, exec (.mcommit d) s = .next t ∧ u.Completes t (.mcommit d) [.g d.toNat] ∧
        t.me.readG d.toNat = writtenG d.toNat s.here.nextBatch false)) ∧
  (∀ (s : State) (n : BitVec 4), s.clear (.mwaitb n) = true →
    (n.toNat < s.here.outstandingBatches → ∃ t, exec (.mwaitb n) s = .next t ∧ t.me.wait = .mwaitb n.toNat ∧
      t.me.pc = s.me.pc ∧ t.here.batches = s.here.batches) ∧
    (s.here.outstandingBatches ≤ n.toNat →
      let u := s.modHere fun k => { k with batches := k.batches.filter fun b => !b.done }
      ∃ t, exec (.mwaitb n) s = .next t ∧ u.Completes t (.mwaitb n) [.status 0x0A] ∧
        ∀ b, t.me.chk.getLsbD b = (s.me.chk.getLsbD b || s.here.batches.any fun q =>
          q.done && ((b == 0 && q.poison) || (b == 5 && q.failed))))) ∧
  ∀ (s : State) (c : Nat) (b : Batch) (before after : List Batch), (s.core c).batches = before ++ b :: after →
    (∀ q, q ∈ before → q.done = true ∨ q.entries ≠ []) → b.done = false → b.entries = [] →
    let done := before ++ { b with done := true } :: after
    let left := (done.filter fun q => !q.done).length
    ((∀ n, (s.ctx c 0).wait = .mwaitb n → n < left) →
      (∀ d, (s.ctx c 0).wait = .mcommit d → (s.core c).openBatch.entries ≠ [] ∧ 8 ≤ left) →
      exec (.batchComplete c) s = .next (s.modCore c fun k => { k with batches := done })) ∧
    (∀ d, (s.ctx c 0).wait = .mcommit d → (s.core c).openBatch.entries = [] ∨ left < 8 → (s.core c).pairing = none →
      let open_ := (s.core c).openBatch
      ∃ t, exec (.batchComplete c) s = .next t ∧
        (t.core c).batches = done ++ [{ open_ with number := (s.core c).nextBatch, done := open_.entries == [] }] ∧
        (t.core c).openBatch = {} ∧ (t.core c).nextBatch = (s.core c).nextBatch + 1 ∧ (t.ctx c 0).wait = .none ∧
        (t.ctx c 0).readG d = writtenG d (s.core c).nextBatch false) ∧
    ∀ n, (s.ctx c 0).wait = .mwaitb n → left ≤ n → (s.core c).pairing = none →
      ∃ t, exec (.batchComplete c) s = .next t ∧ (t.core c).batches = done.filter (fun q => !q.done) ∧
        (t.ctx c 0).wait = .none ∧ (t.ctx c 0).pc =
          ((s.ctx c 0).goto (s.loopsFrozen c 0) ((s.ctx c 0).pc + BitVec.ofNat 64 (s.ctx c 0).waitLen)).pc

/-- O47: TRD and TWR move a row or column of a tile that is not busy between it and a vector under km; TZERO clears a
tile. ARBITER_GRANT gives one step to the core whose run goes on within its weight, else to the next ready one in
order, or ends the run when none is ready; a run ends with the head that is no longer ready; a step that waits for
what it reads is not counted. A step of registers multiplies and accumulates, wrapping for integers and with one
rounding for floats; a tile move asks for, or sends, each row. An entry with nothing left leaves the queue and its
batch; a tile load then has filled its tile from the rows. Rests on R52, R140, R143, R146, R147, R352, R139, R108,
R88. -/
def Obligations.TilesAndSteps : Prop :=
  (∀ (s : State) (d i : BitVec 6) (e : BitVec 4),
    let n := e.toNat / 2
    let t := s.here.tile n
    let x := s.v d.toNat
    let at' := fun j => if e.getLsbD 0 then 16 * j + bitsN (s.g i.toNat) 3 0 else 16 * bitsN (s.g i.toNat) 3 0 + j
    let elem := fun (q : Tile) j => (Tab.get 0 q.elems (at' j) : BitVec 32).toNat
    (s.here.busy n = true → s.Traps (.trd d i e) 0x0B 0 (BitVec.ofNat 64 n)) ∧
    (s.here.busy n = false → s.clear (.trd d i e) = true → ∃ u, exec (.trd d i e) s = .next u ∧
      s.Completes u (.trd d i e) [.v d.toNat] ∧ (u.v d.toNat).tag = (if t.isInt then 5 else 10) ∧
      (u.v d.toNat).poison = (t.poison || poisonedSource (.trd d i e) s) ∧
      ∀ j, j < 16 → lane (u.v d.toNat).bits 32 j = if s.me.km.getLsbD j then elem t j else lane x.bits 32 j) ∧
    (x.tag ≠ 10 → x.tag ≠ 5 → s.Traps (.twr d i e) 0x02 0 (formatVal x.tag 0 0)) ∧
    (x.tag = 10 ∨ x.tag = 5 → s.here.busy n = true → s.Traps (.twr d i e) 0x0B 0 (BitVec.ofNat 64 n)) ∧
    (x.tag = 10 ∨ x.tag = 5 → s.here.busy n = false → s.clear (.twr d i e) = true → Tab.rising 0 t.elems = true →
      ∃ u v, exec (.twr d i e) s = .next v ∧ u.Completes v (.twr d i e) [] ∧ s.OnlyCore u s.cur.1 ∧
        u.here = { s.here with tiles := u.here.tiles } ∧ (∀ m, m ≠ n → u.here.tile m = s.here.tile m) ∧
        (u.here.tile n).isInt = (x.tag == 5) ∧ (u.here.tile n).poison = (t.poison || x.poison) ∧
        (∀ j, j < 16 → elem (u.here.tile n) j = if s.me.km.getLsbD j then lane x.bits 32 j else elem t j) ∧
        ∀ k, (∀ j, j < 16 → k ≠ at' j) → (Tab.get 0 (u.here.tile n).elems k : BitVec 32) = Tab.get 0 t.elems k)) ∧
  (∀ (s : State) (d : BitVec 6), (s.here.busy d.toNat = true → s.Traps (.tzero d) 0x0B 0 (d.setWidth 64)) ∧
    (s.here.busy d.toNat = false → s.clear (.tzero d) = true →
      let u := s.modHere fun k => { k with tiles := Tab.put k.tiles d.toNat {} }
      ∃ t, exec (.tzero d) s = .next t ∧ u.Completes t (.tzero d) [] ∧ t.here.tile d.toNat = {})) ∧
  (∀ (s : State) (cl : Nat),
    let k := s.cluster cl
    let core := fun i => (clusterCores cl).getD i 0
    let ready := fun i => (s.core (core i)).headReady = true ∧ (s.core (core i)).killed = false
    let goesOn := 0 < k.run ∧ k.run < max (s.core (core k.last)).mqw.toNat 1 ∧ ready k.last
    let ends := s.modCluster cl fun q => { q with run := 0 }
    let granted := fun (before : State) (i run : Nat) =>
      let t := before.matrixStep (core i)
      let took := (s.core (core i)).stepped (t.core (core i)) = true
      (took → exec (.arbiterGrant cl) s =
        .next (t.modCluster cl fun q => { q with last := i, run := if (t.core (core i)).headReady then run else 0 })) ∧
      (¬took → exec (.arbiterGrant cl) s = .next t)
    (goesOn → granted s k.last (k.run + 1)) ∧
    (¬goesOn → ∀ j, 1 ≤ j → j ≤ 8 → ready ((k.last + j) % 8) → (∀ h, 1 ≤ h → h < j → ¬ready ((k.last + h) % 8)) →
      granted ends ((k.last + j) % 8) 1) ∧
    (¬goesOn → (∀ j, 1 ≤ j → j ≤ 8 → ¬ready ((k.last + j) % 8)) → exec (.arbiterGrant cl) s =
      .next (if k.run = 0 then s else ends))) ∧
  (∀ (s : State) (c : Nat) (e : MatEntry) (rest : List MatEntry) (ga gb : List Byte), (s.core c).mq = e :: rest → e.kind = .mma →
    e.rows = [16] → e.guarded = false → e.next = 0 → e.rowsOut.getD 0 = 0 → optSteps e.options = 1 → e.a.group = some ga → e.b.group = some gb →
    let ta := optType e.options
    let tb := optB e.options
    let k := (depth ta e.fmA).getD 0
    let bt := e.options.getLsbD 10
    let size := if bt then 96 else 2 * typeBits tb e.fmB
    let row := fun (g : List Byte) (n i : Nat) => leNat ((g.drop (i * n)).take n)
    let av := fun r j => elementAt ta e.fmA (row ga 96 r) j
    let bv := fun n j => if bt then elementAt tb e.fmB (row gb size n) j else elementAt tb e.fmB (row gb size j) n
    let old := (s.core c).tile e.tile
    let new := ((s.matrixStep c).core c).tile e.tile
    (((s.matrixStep c).core c).mq = rest ∧ new.isInt = e.options.getLsbD 11 ∧ new.poison = (old.poison || e.poison) ∧
      (∀ m, m ≠ e.tile → ((s.matrixStep c).core c).tile m = (s.core c).tile m)) ∧
    (Tab.rising 0 old.elems = true → ∀ r n, r < 16 → n < 16 →
      let acc : BitVec 32 := Tab.get 0 old.elems (16 * r + n)
      (Tab.get 0 new.elems (16 * r + n) : BitVec 32) =
        if e.options.getLsbD 11 then
          acc + BitVec.ofInt 32 ((List.range k).map fun j => laneInt ta (av r j) * laneInt tb (bv n j)).sum
        else BitVec.ofNat 32 (matrixSum (fmtF32.decode acc.toNat :: (List.range k).map fun j =>
          (laneValue ta (narrowFmt e.fmA) (av r j)).mul (laneValue tb (narrowFmt e.fmB) (bv n j)))))) ∧
  (∀ (s : State) (c : Nat) (e : MatEntry) (rest : List MatEntry), (s.core c).mq = e :: rest →
    e.kind = .tld ∨ e.kind = .tldt ∨ e.kind = .tst →
    let ty := optType e.options
    let n := 2 * typeBits ty e.fmA
    let at' := fun r => addOffset e.a.loc (BitVec.ofNat 64 (r * e.a.rp))
    (∀ r, r < 16 → n ≤ lineRoom (at' r) ∧ ∃ h pa near, s.rowAt c (at' r) (e.kind == .tst) = .home h pa near ∧
      ∀ id, h ≠ .peer id) →
    (((s.matrixStep c).core c).mq.head?.bind fun q => q.rowsOut) = some 16 ∧
    ∀ r, r < 16 → ∃ p, p ∈ (s.matrixStep c).net ∧ s.rowAt c (at' r) (e.kind == .tst) = .home p.home p.pa p.isLocal ∧
      p.loc = at' r ∧ p.core = c ∧ p.row = some e.serial ∧
      (e.kind = .tst → p.op = none ∧ p.act = .write (tileRowBytes e ((s.core c).tile e.tile) r) []) ∧
      (e.kind ≠ .tst → p.act = .read n ∧ ∃ m, p.op = some m)) ∧
  ∀ (s : State) (c : Nat) (e : MatEntry) (rest : List MatEntry), (s.core c).mq = e :: rest →
    let leaves := fun (t : State) => (t.core c).mq = rest ∧
      (t.core c).mgc = (if e.guarded then (s.core c).mgc + 1 else (s.core c).mgc) ∧
      (t.core c).batches.map (·.entries) =
        (s.core c).batches.map fun b => b.entries.filter (· != e.serial)
    ((s.core c).joined e.joins = false → exec (.matrixEntryComplete c) s = .next s) ∧
    ((s.core c).joined e.joins = true →
      ((e.isProduct = true ∧ e.steps = []) ∨ (e.kind = .tst ∧ e.rowsOut = some 0) →
        ∃ t, exec (.matrixEntryComplete c) s = .next t ∧ s.OnlyCore t c ∧ leaves t ∧ (t.core c).tiles = (s.core c).tiles) ∧
      ((e.kind = .tld ∨ e.kind = .tldt ∨ e.kind = .tst) → e.rowsOut ≠ some 0 → exec (.matrixEntryComplete c) s = .next s) ∧
      (e.kind = .tld ∨ e.kind = .tldt → e.rowsOut = some 0 → ∀ data : Nat → List Byte × Bool,
        e.rowData = (List.range 16).map (fun r => (8 * r, data r)) →
        let ty := optType e.options
        let int := e.options.getLsbD 11
        let x : Context := { fm := Tab.put [] (ty.toNat - 16) e.fmA }
        ∃ t, exec (.matrixEntryComplete c) s = .next t ∧ s.OnlyCore t c ∧ leaves t ∧
          ((t.core c).tile e.tile).isInt = int ∧ (∀ m, m ≠ e.tile → (t.core c).tile m = (s.core c).tile m) ∧
          (((t.core c).tile e.tile).poison = true ↔ ∃ r, r < 16 ∧ (data r).2 = true) ∧
          ∀ r n, r < 16 → n < 16 →
            (Tab.get 0 ((t.core c).tile e.tile).elems (if e.kind = .tldt then 16 * n + r else 16 * r + n) : BitVec 32) =
              BitVec.ofNat 32 (x.convert ty (if int then 5 else 10) (elementAt ty e.fmA (leNat (data r).1) n)).1))

/-- O48: BARSET records a rectangle and configuration, or faults and changes nothing. BARWAIT arrives unless it has,
and parks, or returns at once when the release has passed; BARARV arrives, unless an abandoned BARWAIT has, and goes
on. An arrival is sent once nothing issued before it is unaccounted for. The corner collects equal arrivals; a
different one makes parked members trap and every member unconfigured. The release comes when all have arrived and the
time of the rectangle has passed: ssnN rises, parked members go on, and with L above 0 a phase begins, which ends at
L. Rests on R158, R159, R160, R162, R164, R263, R264, R265, R92. -/
def Obligations.Barriers : Prop :=
  (∀ (s : State) (d a : BitVec 6) (n : BitVec 4),
    let rect : BitVec 32 := (s.g a.toNat).extractLsb' 32 32
    let conf := s.g d.toNat
    let b := s.here.bar n.toNat
    let bad := rectW rect = 0 ∨ rectH rect = 0 ∨ 64 < rectX rect + rectW rect ∨ 64 < rectY rect + rectH rect ∨
      inRect rect s.cur.1 = false ∨ bitsN conf 63 18 ≠ 0 ∨ b.arrived = true
    (bad → s.Traps (.barset d a n) 0x17 0 (n.setWidth 64)) ∧
    (¬bad → s.clear (.barset d a n) = true → ∃ u t, exec (.barset d a n) s = .next t ∧ u.Completes t (.barset d a n) [] ∧
      s.OnlyCore u s.cur.1 ∧
      u.here = { s.here with ctxs := u.here.ctxs, barriers := u.here.barriers, ssn := u.here.ssn } ∧
      u.here.bar n.toNat = { b with conf := some (rect, conf), arrived := false, sent := false, byArv := false,
                                    passed := false } ∧
      (∀ m, m ≠ n.toNat → u.here.bar m = s.here.bar m) ∧
      (∀ m, (Tab.get 0 u.here.ssn m : BitVec 32) = if m = n.toNat then 0 else Tab.get 0 s.here.ssn m) ∧
      ∀ x, u.here.ctx x = if n = 0 then { s.here.ctx x with meet := none } else s.here.ctx x)) ∧
  (∀ (s : State) (n : BitVec 4),
    let b := s.here.bar n.toNat
    let arrived := fun (q : Barrier) => q.arrived = true ∧ q.conf = b.conf ∧
      (b.arrived = true → q.sent = b.sent ∧ q.mark = b.mark) ∧ (b.arrived = false → q.sent = false ∧ q.mark = s.nextNum)
    (b.conf = none → s.Traps (.barwait n) 0x17 0 (n.setWidth 64) ∧ s.Traps (.bararv n) 0x17 0 (n.setWidth 64)) ∧
    (b.conf ≠ none → s.clear (.barwait n) = true →
      (b.passed = true → ∃ u t, exec (.barwait n) s = .next t ∧ u.Completes t (.barwait n) [] ∧ s.OnlyCore u s.cur.1 ∧
        u.here = { s.here with barriers := u.here.barriers } ∧
        u.here.bar n.toNat = { b with passed := false, byArv := false } ∧ ∀ m, m ≠ n.toNat → u.here.bar m = s.here.bar m) ∧
      (b.passed = false → ∃ t, exec (.barwait n) s = .next t ∧ s.Parks t (.barwait n.toNat) ∧
        arrived (t.here.bar n.toNat) ∧ (t.here.bar n.toNat).byArv = false ∧ ∀ m, m ≠ n.toNat → t.here.bar m = s.here.bar m)) ∧
    ∀ q, b.conf = some q →
      (phaseLen q ≠ 0 ∨ b.byArv = true → s.Traps (.bararv n) 0x17 0 (n.setWidth 64)) ∧
      (phaseLen q = 0 → b.byArv = false → s.clear (.bararv n) = true → ∃ u t, exec (.bararv n) s = .next t ∧
        u.Completes t (.bararv n) [] ∧ s.OnlyCore u s.cur.1 ∧ u.here = { s.here with barriers := u.here.barriers } ∧
        (b.arrived = true ∨ b.passed = false → arrived (u.here.bar n.toNat)) ∧
        (b.arrived = false → b.passed = true → u.here.bar n.toNat = { b with byArv := true }) ∧
        (u.here.bar n.toNat).byArv = true ∧ ∀ m, m ≠ n.toNat → u.here.bar m = s.here.bar m)) ∧
  (∀ (s : State) (c i : Nat) (q : BitVec 32 × Word), ((s.core c).bar i).conf = some q →
    let b := (s.core c).bar i
    let due := b.arrived = true ∧ b.sent = false ∧ (s.core c).killed = false ∧ s.arrivalWaits c i b.mark q.1 = false
    (¬due → exec (.barrierArrivalSend c i) s = .next s) ∧
    (due → ∃ t, exec (.barrierArrivalSend c i) s = .next t ∧
      t = { s with cores := t.cores, arrivals := s.arrivals ++ [{ core := c, corner := cornerOf q.1, b := i, conf := q }] } ∧
      (t.core c).bar i = { b with sent := true, sentAt := s.cycle } ∧ ∀ m, m ≠ c → t.core m = s.core m)) ∧
  (∀ (s : State) (corner i : Nat) (a : ArrivalFlight) (before after : List ArrivalFlight),
    s.arrivals = before ++ a :: after → a.corner = corner → a.b = i →
    (∀ o, o ∈ before → o.corner ≠ corner ∨ o.b ≠ i) →
    let got : List (Nat × (BitVec 32 × Word)) := Tab.get [] s.corners (4 * corner + i)
    ((∀ f, got.head? = some f → f.2 = a.conf) → ∃ t, exec (.barrierArrivalReceive corner i) s = .next t ∧
      t = { s with arrivals := before ++ after, corners := t.corners } ∧
      (Tab.get [] t.corners (4 * corner + i) : List (Nat × (BitVec 32 × Word))) = got ++ [(a.core, a.conf)]) ∧
    ∀ f, got.head? = some f → f.2 ≠ a.conf → ∃ t, exec (.barrierArrivalReceive corner i) s = .next t ∧
      let member := fun m => ∃ q, ((s.core m).bar i).conf = some q ∧ cornerOf q.1 = corner ∧
        (inRect f.2.1 m = true ∨ inRect a.conf.1 m = true)
      (∀ m, member m → ((t.core m).bar i).conf = none) ∧
      ((∀ m, member m → (s.core m).canTrap) → ∀ m, member m → (s.ctx m 0).wait = .barwait i →
        (t.core m).Took (s.core m) 0x17 (BitVec.ofNat 64 i))) ∧
  (∀ (s : State) (corner i first : Nat) (q : BitVec 32 × Word) (rest : List (Nat × (BitVec 32 × Word))),
    (Tab.get [] s.corners (4 * corner + i) : List (Nat × (BitVec 32 × Word))) = (first, q) :: rest →
    let here := fun m => m = first ∨ ∃ a, a ∈ rest ∧ a.1 = m
    let ripe := fun m => ((s.core m).bar i).sentAt + releaseTime q.1 ≤ s.cycle
    ((∃ m, m ∈ rectCores q.1 ∧ (¬here m ∨ ¬ripe m)) → exec (.barrierRelease corner i) s = .next s) ∧
    (rectCores q.1 ≠ [] → (∀ m, m ∈ rectCores q.1 → here m ∧ ripe m ∧ (s.core m).pairing = none) → (rectCores q.1).Nodup →
      ∃ t, exec (.barrierRelease corner i) s = .next t ∧ ∀ m, m ∈ rectCores q.1 → (s.core m).killed = false →
        ((s.core m).bar i).conf = some q →
        let k := t.core m
        (Tab.get 0 k.ssn i : BitVec 32) = Tab.get 0 (s.core m).ssn i + 1 ∧ (k.bar i).arrived = false ∧
        (k.bar i).sent = false ∧
        ((s.ctx m 0).wait ≠ .barwait i → (k.bar i).passed = true ∧ k.phase = (s.core m).phase ∧ k.ctx 0 = s.ctx m 0) ∧
        ((s.ctx m 0).wait = .barwait i → (k.bar i).passed = false ∧ s.WentOn t m 0 ∧
          (phaseLen q ≠ 0 → (s.core m).handler = false →
            k.phase = some { b := i, start := s.cycle, len := phaseLen q } ∧ k.phc s.cycle = 0)))) ∧
  ∀ (s : State) (c : Nat) (p : Phase), (s.core c).phase = some p →
    (s.cycle < p.start + p.len → exec (.exchangePhaseEnd c) s = .next s) ∧
    (p.start + p.len ≤ s.cycle → ∃ t, exec (.exchangePhaseEnd c) s = .next t ∧ s.OnlyCore t c ∧
      t.core c = { s.core c with phase := none } ∧ (t.core c).phc s.cycle = BitVec.allOnes 64)

/-- O49: XMIT and INTAKE fault outside a phase or its slots; else they hold the context. At its slot a transfer is
driven. At a collision the transfers involved go, and their senders trap. A transfer that arrives completes its XMIT;
an INTAKE takes what arrives in its cycle, with tag and poison, or zero with chk bit 2. XCHG holds each member until
the whole gang has reached it; then member r takes, from every member in order, its slice r. Rests on R164, R165,
R166, R167, R168, R300, R360, R361. -/
def Obligations.Exchange : Prop :=
  (∀ (s : State) (d a : BitVec 6) (e : BitVec 4),
    let w := s.g a.toNat
    let slot := bitsN w 15 0
    let h := bitsN w 21 16
    let ok := fun (p : Phase) (dst : Nat) => s.here.inPhase s.cycle = true ∧ slot < p.len ∧ s.cycle - p.start ≤ slot ∧ h ≠ 0 ∧
      (∃ q, (s.here.bar p.b).conf = some q ∧ inRect q.1 dst = true) ∧ slot + flightTime s.cur.1 dst h < p.len
    ((∀ p dst, s.here.phase = some p → stepTo s.cur.1 e.toNat h = some dst → ¬ok p dst) →
      s.Traps (.xmit d a e) 0x0C 0 (BitVec.ofNat 64 slot)) ∧
    ∀ p dst, s.here.phase = some p → stepTo s.cur.1 e.toNat h = some dst → ok p dst → s.clear (.xmit d a e) = true →
      let x : Transfer2 := { src := s.cur.1, slot := slot, hops := h, dir := e.toNat,
                             arrive := slot + flightTime s.cur.1 dst h, start := p.start, value := s.v d.toNat, driven := false }
      ∃ t, exec (.xmit d a e) s = .next t ∧ s.Parks t .xmit ∧ t = { s with cores := t.cores, exchange := s.exchange ++ [x] }) ∧
  (∀ (s : State) (d a : BitVec 6) (e : BitVec 4),
    let slot := bitsN (s.g a.toNat) 15 0
    let ok := fun (p : Phase) => s.here.inPhase s.cycle = true ∧ slot < p.len ∧ s.cycle - p.start ≤ slot
    ((∀ p, s.here.phase = some p → ¬ok p) → s.Traps (.intake d a e) 0x0C 0 (BitVec.ofNat 64 slot)) ∧
    ∀ p, s.here.phase = some p → ok p → s.clear (.intake d a e) = true →
      ∃ t, exec (.intake d a e) s = .next t ∧ s.Parks t (.intake d.toNat slot e.toNat) ∧ s.OnlyCore t s.cur.1) ∧
  (∀ (s : State) (d a : BitVec 6), s.clear (.xchg d a) = true →
    ∃ t, exec (.xchg d a) s = .next t ∧ s.Parks t (.xchg d.toNat a.toNat) ∧ s.OnlyCore t s.cur.1) ∧
  (∀ (s : State) (c : Nat), ∃ t, exec (.xmitDrive c) s = .next t ∧ t = { s with exchange := t.exchange } ∧
    ∀ x : Transfer2, (x.src ≠ c ∨ s.cycle < x.first → (x ∈ t.exchange ↔ x ∈ s.exchange)) ∧
      (x ∈ s.exchange → x.src = c → x.driven = false → x.first ≤ s.cycle → s.lives x = true →
        { x with driven := true } ∈ t.exchange) ∧
      (x ∈ t.exchange → x.src = c → x.first ≤ s.cycle → x.driven = true)) ∧
  (∀ s : State, (s.firstClash = none → exec .exchangeCollision s = .next s) ∧
    ∀ n, s.firstClash = some n → (s.exchange.map (·.src)).Nodup →
      let live := fun (x : Transfer2) => x ∈ s.exchange ∧ x.landed = false ∧ s.lives x = true ∧ x.first ≤ n ∧ n < x.ends
      let hit := fun (x : Transfer2) => live x ∧ ∃ y, live y ∧ (clashAt x y).isSome = true
      (∀ x, hit x → (s.core x.src).canTrap) → ∃ t, exec .exchangeCollision s = .next t ∧
        (∀ x, x ∈ t.exchange ↔ x ∈ s.exchange ∧ ¬hit x) ∧
        (∀ x, hit x → (t.core x.src).Took (s.core x.src) 0x0D (BitVec.ofNat 64 x.slot)) ∧
        ∀ m, (∀ x, hit x → x.src ≠ m) → t.core m = s.core m) ∧
  (∀ (s : State) (c : Nat) (x : Transfer2), s.firstClash = none → (s.core c).pairing = none →
    s.exchange.find? (fun y => y.src == c && y.driven && !y.landed && s.lives y && decide (y.ends ≤ s.cycle)) = some x →
    ∃ t, exec (.xmitArrival c) s = .next t ∧ s.WentOn t c 0 ∧ (∀ m, m ≠ c → t.core m = s.core m) ∧
      (x.taken = true → ∀ y, y ∈ t.exchange ↔ y ∈ s.exchange ∧ y ≠ x) ∧
      (x.taken = false → { x with landed := true } ∈ t.exchange)) ∧
  (∀ (s : State) (c d p dir : Nat) (q : Phase), (s.ctx c 0).wait = .intake d p dir → (s.core c).phase = some q →
    s.firstClash = none → (s.core c).pairing = none →
    let mine := fun (x : Transfer2) => x.target = some c ∧ x.dir = dir ∧ x.ends = q.start + p ∧ s.lives x = true
    (s.cycle < q.start + p → exec (.intakeLatch c) s = .next s) ∧
    (q.start + p ≤ s.cycle →
      ((∀ x, x ∈ s.exchange → ¬mine x) → ∃ t, exec (.intakeLatch c) s = .next t ∧ s.WentOn t c 0 ∧
        (t.ctx c 0).readV d = {} ∧ (t.ctx c 0).chk.getLsbD 2 = true ∧ t.exchange = s.exchange) ∧
      ∀ x before after, s.exchange = before ++ x :: after → (∀ y, y ∈ before → ¬mine y) → mine x → x.driven = true →
        ∃ t, exec (.intakeLatch c) s = .next t ∧ s.WentOn t c 0 ∧ (t.ctx c 0).readV d = x.value ∧
          (∀ n, n ≠ d → (t.ctx c 0).readV n = (s.ctx c 0).readV n) ∧ ∀ n, (t.ctx c 0).readG n = (s.ctx c 0).readG n)) ∧
  ∀ (s : State) (c : Nat) (g : Gang), (s.core c).gang = some g → 2 ≤ g.members.length → g.members.Nodup →
    (∀ m, m ∈ g.members → (s.core m).pairing = none) →
    let size := 64 / g.members.length
    ((∃ m, m ∈ g.members ∧ ∀ d a, (s.ctx m 0).wait ≠ .xchg d a) → exec (.xchgExchange c) s = .next s) ∧
    ((∀ m, m ∈ g.members → ∃ d a, (s.ctx m 0).wait = .xchg d a) → ∃ t, exec (.xchgExchange c) s = .next t ∧
      (∀ m, m ∉ g.members → t.core m = s.core m) ∧
      ∀ r d a, r < g.members.length → let m := g.members.getD r 0
        (s.ctx m 0).wait = .xchg d a → s.WentOn t m 0 ∧
        ((t.ctx m 0).readV d).tag = ((s.ctx m 0).readV a).tag ∧
        (((t.ctx m 0).readV d).poison = true ↔
          ∃ n f b, n ∈ g.members ∧ (s.ctx n 0).wait = .xchg f b ∧ ((s.ctx n 0).readV b).poison = true) ∧
        ∀ j f b n, j < g.members.length → (s.ctx (g.members.getD j 0) 0).wait = .xchg f b → n < size →
          lane ((t.ctx m 0).readV d).bits 8 (j * size + n) =
            lane ((s.ctx (g.members.getD j 0) 0).readV b).bits 8 (r * size + n))

/-- O50: GRPSET sets a group, waits while packets of it are pending, and after 2^22 cycles drops them with chk bit 3;
a rectangle outside the plot of b0 faults. MCAST sends the vector to the handle of every member, and its own store is
made at once. Two posted relaxed sums to one place that meet in a router's queue, and pass no packet of their cores,
merge into one packet that stands for both, the second's bytes accounted for. A head blocked for 4,096 cycles sends a
probe; in a cycle every head moves one hop. A lost slot poisons its packet, or drops it with its counts repaired; a
replay is counted. The router, its heads and what meets there (log 36), and the links and what is lost on them (log
43), are the model's choices. Rests on R171, R170, R169, R172, R294, R311, R162. -/
def Obligations.GroupsAndLinks : Prop :=
  (∀ (s : State) (d a : BitVec 6),
    let n := bitsN (s.g a.toNat) 7 0
    let conf := s.g d.toNat
    let r := groupRect conf
    let ok := rectW r ≠ 0 ∧ rectH r ≠ 0 ∧ ∃ q, s.here.plot = some q ∧ rectX q ≤ rectX r ∧ rectY q ≤ rectY r ∧
      rectX r + rectW r ≤ rectX q + rectW q ∧ rectY r + rectH r ≤ rectY q + rectH q
    (¬ok → s.Traps (.grpset d a) 0x0A 8 conf) ∧
    (ok → s.clear (.grpset d a) = true →
      ((s.here.group n).pending = 0 → ∃ u t, exec (.grpset d a) s = .next t ∧ u.Completes t (.grpset d a) [] ∧
        s.OnlyCore u s.cur.1 ∧ u.here = { s.here with groups := u.here.groups } ∧
        u.here.group n = { conf := some conf, pending := 0 } ∧ ∀ m, m ≠ n → u.here.group m = s.here.group m) ∧
      ((s.here.group n).pending ≠ 0 → ∃ t, exec (.grpset d a) s = .next t ∧ s.Parks t (.grpset s.cycle n conf) ∧
        t.here.groups = s.here.groups))) ∧
  (∀ (s : State) (c x since n : Nat) (conf : Word), (s.ctx c x).wait = .grpset since n conf → (s.core c).pairing = none →
    ((s.core c).group n).pending ≠ 0 → exec (.grpsetResume c x) s = .next s ∧
      (s.cycle < since + 2 ^ 22 → exec (.grpsetTimeout c x) s = .next s) ∧
      (since + 2 ^ 22 ≤ s.cycle → ∃ t, exec (.grpsetTimeout c x) s = .next t ∧ s.WentOn t c x ∧
        (t.core c).group n = { conf := some conf, pending := 0 } ∧ (t.ctx c x).chk.getLsbD 3 = true ∧
        ∀ p, p ∈ t.net ↔ p ∈ s.net ∧ ¬(p.core = c ∧ p.group = some n))) ∧
  (∀ (s : State) (c x since n : Nat) (conf : Word), (s.ctx c x).wait = .grpset since n conf → (s.core c).pairing = none →
    ((s.core c).group n).pending = 0 → ∃ t, exec (.grpsetResume c x) s = .next t ∧ s.WentOn t c x ∧
      (t.core c).group n = { conf := some conf, pending := 0 } ∧ s.OnlyCore t c) ∧
  (∀ (s : State) (d a : BitVec 6),
    let n := bitsN (s.g a.toNat) 7 0
    ((s.here.group n).conf = none → s.Traps (.mcast d a) 0x0A 8 (s.g a.toNat)) ∧
    ∀ conf, (s.here.group n).conf = some conf → s.here.pairing = none → s.injectionStall s.cur.1 = none →
      (∀ q, q ∈ s.net → q.armed = none) → s.portFree (.localMem s.cur.1) 0 = true → s.clear (.mcast d a) = true →
      let v := s.v d.toNat
      let cores := rectCores (groupRect conf)
      let loc := fun (m : Nat) => BitVec.ofNat 64
        (2 ^ 63 + m * 2 ^ 48 + bitsN conf 31 20 * 2 ^ 36 + bitsN conf 19 16 * 2 ^ 32 + 64 * bitsN conf 15 0)
      ∃ (u t : State), exec (.mcast d a) s = .next t ∧ u.Completes t (.mcast d a) [] ∧ (∀ x, u.here.ctx x = s.here.ctx x) ∧
        (∀ m, m ∈ cores → m ≠ s.cur.1 → ∃ p, p ∈ u.net ∧ p.core = s.cur.1 ∧ p.home = .localMem m ∧ p.loc = loc m ∧
          p.act = .write (vecBytes v.bits) [] ∧ p.poison = v.poison ∧ p.group = some n ∧ p.op = none ∧ p.isLocal = false) ∧
        (s.cur.1 ∉ cores → u.here.store = s.here.store) ∧
        (s.cur.1 ∈ cores → cores.Nodup → s.here.store.ok = true → ∀ e, s.tileFor (.localMem s.cur.1) (loc s.cur.1) 64 = some e →
          let offs := e.physAll 0 e.rot (chipOff (loc s.cur.1)) 64
          offs.Nodup → offs.map u.here.store.bytes.byte = vecBytes v.bits ∧
            ∀ b, b ∉ offs → u.here.store.bytes.byte b = s.here.store.bytes.byte b)) ∧
  (∀ (s : State) (a b : Nat) (p q : Packet), s.net.find? (fun r => r.id == a) = some p →
    s.net.find? (fun r => r.id == b) = some q →
    let due := mayMerge p q = true ∧ s.foremost p b = true ∧ s.foremost q a = true ∧ meetingRouter p q ≠ none
    (¬due → exec (.networkMerge a b) s = .next s) ∧
    (due → ∃ t q', exec (.networkMerge a b) s = .next t ∧ q' ∈ t.net ∧
      (let one : Packet := { p with act := q'.act, poison := p.poison || q.poison, router := q'.router, since := s.cycle,
                                    probed := false, merged := p.merged ++ (q.core, q.ctx, q.life, q.era, q.id) :: q.merged }
       q' = one) ∧ meetingRouter p q = some q'.router ∧ (∀ r, r ∈ t.net → r.id ≠ b) ∧
      (∀ r, r.id ≠ a → r.id ≠ b → (r ∈ t.net ↔ r ∈ s.net)) ∧
      (∀ v w e f, p.act = .atomic 0x19 8 v e → q.act = .atomic 0x19 8 w f → q'.act = .atomic 0x19 8 (v + w) e) ∧
      (∀ i, q.counted = [i] → ((t.core q.core).bar i).pending =
        ((s.core q.core).bar i).pending - BitVec.ofNat 48 q.bytes))) ∧
  (∀ (s : State) (r : Nat) (p : Packet), s.headAt r = some p →
    (s.cycle < p.since + 4096 → exec (.deadlockProbe r) s = .next s) ∧
    (p.since + 4096 ≤ s.cycle → ∃ t, exec (.deadlockProbe r) s = .next t ∧ t = { s with net := t.net } ∧
      t.net = s.net.map fun q => if q.id = p.id then { q with probed := true } else q) ∧
    (p.probed = false ∨ s.cyclic r = false → exec (.deadlockEscape r) s = .next s) ∧
    (p.probed = true → s.cyclic r = true → ∃ t, exec (.deadlockEscape r) s = .next t ∧ t = { s with net := t.net } ∧
      { p with router := nextHop p, since := s.cycle, probed := false } ∈ t.net ∧
      ∀ q, q ∈ s.net → (∀ r' h, s.headAt r' = some h → h.id ≠ q.id) → q ∈ t.net)) ∧
  (∀ (s : State) (link seq : Nat) (r : ReplaySlot) (p : Packet) (before after : List ReplaySlot) (header : Bool),
    s.replay = before ++ r :: after → r.link = link → r.seq = seq → r.lost = some header → r.kind = .request →
    (∀ q, q ∈ before → q.link ≠ link ∨ q.seq ≠ seq ∨ q.lost = none) → s.net.find? (fun q => q.id == r.packet) = some p →
    ∃ t, exec (.lossMarker link seq) s = .next t ∧ (header = false ∨ p.op = none → t.replay = before ++ after) ∧
      (header = false → t.net = s.net.map fun q => if q.id = p.id then { q with poison := true } else q) ∧
      (header = true → ∀ q, q ∈ t.net ↔ q ∈ s.net ∧ q.id ≠ p.id) ∧
      (header = true → p.op ≠ none → ∃ a, t.replies = s.replies ++ [a] ∧ a.packet = p ∧ a.answer = .lost ∧
        a.data = List.replicate p.act.size 0 ∧ a.poison = true) ∧
      (header = true → p.op = none → t.replies = s.replies ∧
        (∀ i, p.counted = [i] → ((t.core p.core).bar i).pending =
          ((s.core p.core).bar i).pending - BitVec.ofNat 48 p.bytes) ∧
        (p.act.isAtomic = true ∨ p.group ≠ none → (s.core p.core).era = p.era → (s.ctx p.core p.ctx).live = true →
          (s.ctx p.core p.ctx).life = p.life → (t.ctx p.core p.ctx).chk.getLsbD 3 = true))) ∧
  ∀ (s : State) (link seq : Nat),
    ((∀ r, r ∈ s.replay → r.link ≠ link ∨ r.seq ≠ seq) → exec (.linkReplay link seq) s = .next s) ∧
    ((∃ r, r ∈ s.replay ∧ r.link = link ∧ r.seq = seq) →
      exec (.linkReplay link seq) s = .next (s.count Count.linkReplay link))

/-- O51: MEET sends node, stamp, thread and q0 to the node's home and sets the meet record. There an arrival joins the
entry of its node and stamp, ORing the set and keeping the lower owner, or takes an unused entry, or when all are used
one that counts as free, or is dropped. MEETQ parks with its record until b0 has released, then writes the role and
the sets of R186. SPLIT keeps q0, goes to gS itself, starts a helper with the part in qS, holds it as a record, or
reports 0xFFFF. CFCFG sets the mode, clears the table and names the holding queue, or faults. That an unused entry is
taken before one that counts as free is the model's choice (log 46). Rests on R183, R184, R185, R186, R188, R189,
R276, R313, R314, R346. -/
def Obligations.Traversal : Prop :=
  (∀ (s : State) (a : BitVec 6), s.here.pairing = none → s.injectionStall s.cur.1 = none →
    (s.here.plot = none → s.Traps (.meet a) 0x17 0 0) ∧
    ∀ r, s.here.plot = some r → s.clear (.meet a) = true →
      let node : BitVec 32 := (s.g a.toNat).setWidth 32
      let stamp : BitVec 16 := (Tab.get 0 s.here.ssn 0 : BitVec 32).setWidth 16
      ∃ (u t : State) (m : MeetFlight), exec (.meet a) s = .next t ∧ u.Completes t (.meet a) [] ∧ u.meets = s.meets ++ [m] ∧ m.core = s.cur.1 ∧
        m.home = homeOfNode r s.here.mode node ∧ m.node = node ∧ m.stamp = stamp ∧
        m.tid = BitVec.ofNat 16 (s.cur.1 * 16 + s.cur.2) ∧ m.set = s.me.readQ 0 ∧
        u.me = { s.me with meet := some { node := node, stamp := stamp } } ∧
        (u.here.bar 0).pending = (s.here.bar 0).pending + 128) ∧
  (∀ (r : BitVec 32) (node : BitVec 32), rectW r ≠ 0 → rectH r ≠ 0 → rectX r + rectW r ≤ 64 → rectY r + rectH r ≤ 64 →
    (∀ mode, homeOfNode r mode node ∈ rectCores r) ∧
    ∀ mode : BitVec 2, mode ≠ 0 → let i := node.toNat % (rectW r * rectH r)
      homeOfNode r mode node = coreAt (rectX r + i % rectW r) (rectY r + i / rectW r)) ∧
  (∀ (s : State) (m : MeetFlight) (before after : List MeetFlight), s.meets = before ++ m :: after →
    (∀ o, o ∈ before → o.id ≠ m.id) → s.meetHeld m = false → (s.core m.home).conf.length ≤ 256 →
    let old := (s.core m.home).conf
    let fresh := fun (e : Conf) => (m.stamp - e.stamp).toNat ≤ 2
    ∃ t, exec (.meetArrival m.id) s = .next t ∧ t.meets = before ++ after ∧
      ((t.core m.core).bar 0).pending = ((s.core m.core).bar 0).pending - 128 ∧
      ((s.core m.home).killed = true → (t.core m.home).conf = old) ∧
      ((s.core m.home).killed = false →
        ((∃ e, e ∈ old ∧ e.node = m.node ∧ e.stamp = m.stamp) → (t.core m.home).conf = old.map fun e =>
          if e.node = m.node ∧ e.stamp = m.stamp then
            { e with owner := if m.tid.toNat < e.owner.toNat then m.tid else e.owner, set := e.set ||| m.set } else e) ∧
        ((∀ e, e ∈ old → e.node ≠ m.node ∨ e.stamp ≠ m.stamp) →
          (old.length < 256 →
            (t.core m.home).conf = old ++ [{ node := m.node, stamp := m.stamp, owner := m.tid, set := m.set }]) ∧
          ((old.filter fun e => decide ((m.stamp - e.stamp).toNat ≤ 2)).length < 256 →
            { node := m.node, stamp := m.stamp, owner := m.tid, set := m.set } ∈ (t.core m.home).conf ∧
            ∀ e, e ∈ old → fresh e → e ∈ (t.core m.home).conf) ∧
          (256 ≤ (old.filter fun e => decide ((m.stamp - e.stamp).toNat ≤ 2)).length → (t.core m.home).conf = old)))) ∧
  (∀ (s : State) (d : BitVec 6) (x : BitVec 4), s.clear (.meetq d x) = true →
    ∃ t r, exec (.meetq d x) s = .next t ∧ s.me.meet = some r ∧ s.Parks t (.meetq d.toNat x.toNat r) ∧ s.OnlyCore t s.cur.1) ∧
  (∀ (s : State) (c x d qx : Nat) (r : Meet), (s.ctx c x).wait = .meetq d qx r →
    (s.core c).pairing = none →
    let k := s.core c
    let stamp : BitVec 16 := (Tab.get 0 k.ssn 0 : BitVec 32).setWidth 16
    let holds := fun (n : BitVec 16) (e : Conf) => ∃ p, k.plot = some p ∧ (s.core (homeOfNode p k.mode r.node)).killed = false ∧
      (s.core (homeOfNode p k.mode r.node)).conf.find? (fun q => q.node == r.node && q.stamp == n) = some e
    let own := fun (e : Conf) => e.owner = BitVec.ofNat 16 (c * 16 + x)
    let role := fun (n : Nat) (q : List (Nat × QSet)) => ∃ t, exec (.meetqResolve c x) s = .next t ∧ s.OnlyCore t c ∧
      s.WentOn t c x ∧ (t.ctx c x).meet = none ∧ (t.ctx c x).readG d = writtenG d (BitVec.ofNat 64 n) false ∧
      (∀ i, (t.ctx c x).readQ i = match q.find? (fun e => e.1 == i) with | some e => e.2 | none => (s.ctx c x).readQ i) ∧
      (n = 3 → (t.ctx c x).chk.getLsbD 6 = true)
    (stamp = r.stamp → exec (.meetqResolve c x) s = .next s) ∧
    (stamp ≠ r.stamp →
      (stamp ≠ r.stamp + 1 ∨ (∀ e, ¬holds r.stamp e) → role 3 []) ∧
      (stamp = r.stamp + 1 → ∀ e, holds r.stamp e →
        (¬own e → role 1 []) ∧
        (own e → (∀ f, ¬holds (r.stamp - 1) f) → role 0 [(qx, e.set), (0, e.set)]) ∧
        (own e → ∀ f, holds (r.stamp - 1) f → role 2 [(qx, f.set), (0, e.set)])))) ∧
  (∀ (s : State) (d a : BitVec 6) (e : BitVec 4), s.clear (.split d a e) = true →
    let i := Instr.split d a e
    let part := s.me.readQ e.toNat
    let rest := s.me.readQ 0 &&& ~~~part
    let gives := fun (t : State) (n : Nat) => t.me.readG d.toNat = writtenG d.toNat (BitVec.ofNat 64 n) false
    let marks := fun (t : State) => t.me.chk = if poisonedSource i s then s.me.chk ||| 1 else s.me.chk
    (part = 0 → ∃ t, exec i s = .next t ∧ s.Completes t i [.g d.toNat] ∧ gives t 0) ∧
    (part ≠ 0 → rest = 0 → ∃ t, exec i s = .next t ∧ s.CompletesAt t i [.g d.toNat, .q 0] (s.g a.toNat) ∧ gives t 0 ∧
      t.me.readQ 0 = part) ∧
    (part ≠ 0 → rest ≠ 0 →
      (∀ h, 1 ≤ h → h ≤ 10 → (s.here.ctx h).live = false → (∀ n, 1 ≤ n → n < h → (s.here.ctx n).live = true) →
        ∃ u t, exec i s = .next t ∧ u.Completes t i [.g d.toNat, .q 0, .status 0x0A] ∧ gives t h ∧ t.me.readQ 0 = rest ∧ marks t ∧
          s.OnlyCore u s.cur.1 ∧ u.here = { s.here with ctxs := u.here.ctxs } ∧
          (∀ x, x ≠ h → u.here.ctx x = s.here.ctx x) ∧ (u.here.ctx h).Fresh (s.g a.toNat) s.me.readG ∧
          ∀ n, (u.here.ctx h).readQ n = if n = 0 then part else 0) ∧
      ((∀ n, 1 ≤ n → n ≤ 10 → (s.here.ctx n).live = true) →
        (s.here.freeSlots = [] → ∃ t, exec i s = .next t ∧ s.Completes t i [.g d.toNat] ∧ gives t 0xFFFF) ∧
        (∀ q, s.here.freeSlots ≠ [] → s.here.holding = some q → ∃ (u t : State) (j : Nat), exec i s = .next t ∧
          u.Completes t i [.g d.toNat, .q 0, .status 0x0A] ∧ gives t 0x8000 ∧ t.me.readQ 0 = rest ∧ marks t ∧ j ∈ s.here.freeSlots ∧
          u.here = { s.here with store := u.here.store, holding := some { q with slots := q.slots ++ [j] } } ∧
          (s.here.store.ok = true → ((s.here.store.tile q.handle).physAll 0 0 (256 * j) 256).Nodup →
            u.here.heldRecord q j = (s.g a.toNat, (List.range 15).map (fun n => (n + 1, s.me.readG (n + 1))), part)))))) ∧
  ∀ (s : State) (a : BitVec 6),
    let w := s.g a.toNat
    let h := bitsN w 31 20
    let gen : BitVec 4 := w.extractLsb' 16 4
    let e := s.here.store.tile h
    let bad := bitsN w 63 32 ≠ 0 ∨ bitsN w 15 3 ≠ 0 ∨ 2 ≤ bitsN w 1 0 ∨
      (h ≠ 0 ∧ ¬(e.used = true ∧ e.gen = gen ∧ 16384 ≤ e.rows * e.rowBytes))
    (bad → s.Traps (.cfcfg a) 0x0A 9 w) ∧
    (¬bad → s.clear (.cfcfg a) = true → ∃ u t, exec (.cfcfg a) s = .next t ∧ u.Completes t (.cfcfg a) [] ∧
      s.OnlyCore u s.cur.1 ∧
      (let k := { s.here with mode := u.here.mode, conf := u.here.conf, holding := u.here.holding, oldHolds := u.here.oldHolds }
       u.here = k) ∧
      u.here.mode.toNat = bitsN w 1 0 ∧ u.here.conf = (if w.getLsbD 2 then [] else s.here.conf) ∧
      (h = 0 → u.here.holding = none) ∧
      (h ≠ 0 → ∃ q, u.here.holding = some q ∧ q.handle = h ∧ q.gen = gen) ∧
      (∀ q, s.here.holding = some q → q.slots ≠ [] → u.here.holding = some q ∨ u.here.oldHolds = s.here.oldHolds ++ [q]))

/-- O52: CVDONE releases and makes the current point final once; outside a task nothing happens, a repeat is counted.
CVST reads the controller's state of R210, or 0. A band starts with the code its number fixes, and its computed and
sample points become ready. A skipped point is rebuilt once its sources are final or rebuilt, and is complete unless
it is a sample; a sample is compared once its own result is final. At the update of the next band in order the code
moves one step denser above hi, sparser when two bands lie below lo, else stays. Rests on R204, R205, R206, R207,
R208, R209, R210, R282, R283. -/
def Obligations.Coverage : Prop :=
  (∀ s : State, s.clear .cvdone = true →
    (s.here.task = none → ∃ t, exec .cvdone s = .next t ∧ s.Completes t .cvdone []) ∧
    ∀ q, s.here.task = some q →
      (s.here.cvdone = true → ∃ t, exec .cvdone s = .next t ∧ (s.count Count.repeatedDone s.cur.1).Completes t .cvdone []) ∧
      (s.here.cvdone = false → s.here.pairing = none →
        (s.released 6 s.cur.1 s.cur.2 = false → exec .cvdone s = .next s) ∧
        (s.released 6 s.cur.1 s.cur.2 = true → ∃ (u t : State), exec .cvdone s = .next t ∧ u.Completes t .cvdone [] ∧
          u = { s with cores := u.cores, launches := u.launches } ∧ u.here = { s.here with cvdone := true } ∧
          (∀ c, c ≠ s.cur.1 → u.core c = s.core c) ∧
          ∀ r, s.stageOf q.launch q.stage = some r → ∃ r', u.stageOf q.launch q.stage = some r' ∧
            r' = { r with final := r'.final } ∧ (r.desc.coverage = false → r'.final = r.final) ∧
            (r.desc.coverage = true → ∀ p, p ∈ r'.final ↔ p = q.point ∨ p ∈ r.final)))) ∧
  (∀ (s : State) (d : BitVec 6) (e : BitVec 4), s.here.pairing = none → s.clear (.cvst d e) = true →
    let gives := fun (w : Word) => ∃ t, exec (.cvst d e) s = .next t ∧ s.Completes t (.cvst d e) [.g d.toNat] ∧
      t.me.readG d.toNat = writtenG d.toNat w false
    (s.here.task = none → gives 0) ∧
    ∀ q l r, s.here.task = some q → s.launch q.launch = some l → l.stage q.stage = some r →
      (r.desc.coverage = false → gives 0) ∧
      (r.desc.coverage = true →
        (e = 0 → ∀ code, (if r.bands.length < 2 then some l.code else r.codes[r.bands.length - 2]?) = some code →
          gives (BitVec.ofNat 64 (code + 2 ^ 4 * r.codeOf (l.bandOf r.desc q.point) + 2 ^ 8 +
            2 ^ 32 * l.bandOf r.desc q.point))) ∧
        (e = 0 → 2 ≤ r.bands.length → r.codes.length ≤ r.bands.length - 2 →
          gives (BitVec.ofNat 64 (r.code + 2 ^ 4 * r.codeOf (l.bandOf r.desc q.point) + 2 ^ 32 * l.bandOf r.desc q.point))) ∧
        (e = 1 → r.last = none → gives (BitVec.allOnes 64)) ∧
        (e = 1 → ∀ b err, r.last = some (b, err) → gives (BitVec.ofNat 64 (err.toNat + 2 ^ 32 * b))) ∧
        (e = 2 → gives (BitVec.ofNat 64 (r.updates.toNat + 2 ^ 32 * r.changes.toNat))))) ∧
  (∀ (s : State) (n stage : Nat) (l : Launch) (r : StageRun), s.launch n = some l → l.stage stage = some r →
    let b := r.bands.length
    let code := if b < 2 then some l.code else r.codes[b - 2]?
    (code = none ∨ l.finished = true ∨ r.desc.coverage = false ∨ l.bandCount r.desc ≤ b →
      exec (.bandStart n stage) s = .next s) ∧
    ∀ k, code = some k → l.finished = false → r.desc.coverage = true → b < l.bandCount r.desc →
      ∃ t r', exec (.bandStart n stage) s = .next t ∧ t = { s with launches := t.launches } ∧
        t.stageOf n stage = some r' ∧ r' = { r with bands := r'.bands, ready := r'.ready } ∧
        (Tab.get { code := 0, errors := [] } r'.bands b : Band) = { code := k, errors := [] } ∧
        ∀ p, p ∈ r'.ready ↔ p ∈ r.ready ∨ (p ∈ l.bandPoints r.desc b ∧
          (l.computed r.desc k p = true ∨ p ∈ l.samples r.desc k b) ∧
          (stage = 0 ∨ ∃ q, l.stage (stage - 1) = some q ∧ p ∈ q.done))) ∧
  (∀ (s : State) (n stage point : Nat) (l : Launch) (r : StageRun), s.launch n = some l → l.stage stage = some r →
    let d := r.desc
    let b := l.bandOf d point
    let code := r.codeOf b
    let open_ := d.coverage = true ∧ l.finished = false ∧ point < d.points ∧ b ∈ Tab.keys r.bands ∧ l.computed d code point = false
    let q := l.sources d code point
    let ready := ∀ x, x ∈ q.1 → if l.computed d code x.2 then x.2 ∈ r.final else r.rebuilt x.2 = true
    let sample := point ∈ l.samples d code b
    (¬open_ ∨ (r.rebuilt point = false ∧ ¬ready) → exec (.reconstruction n stage point) s = .next s) ∧
    (open_ → ready → r.rebuilt point = false → s.budgetLeft 4 l.id.toNat = true →
      ∀ got t0, s.loadSources l r q.1 = (some got, t0) →
      (¬sample → t0.blockedPieces l (d.resultAt point) (d.pieces (d.resultAt point)) = none) →
      ∃ t r', exec (.reconstruction n stage point) s = .next t ∧ t.stageOf n stage = some r' ∧ r'.rebuilt point = true ∧
        (sample → r'.done = r.done ∧ t.dram = t0.dram) ∧ (¬sample → ∀ p, p ∈ r'.done ↔ p = point ∨ p ∈ r.done) ∧
        ∀ k, k < d.elems → ((Tab.get [] r'.recs point : List (Nat × Bool)).getD k (0, false)).1 =
          d.formElem (got.map fun x => (x.1, (x.2.getD k (0, false)).1)) q.2) ∧
    (open_ → r.rebuilt point = true → sample → point ∈ r.final →
      let old : Band := Tab.get { code := 0, errors := [] } r.bands b
      (∀ x, x ∈ old.errors → x.1 ≠ point) →
      ∀ bytes t0, s.readPieces l (d.resultAt point) (d.pieces (d.resultAt point)) = (some bytes, t0) →
      ∃ t r', exec (.reconstruction n stage point) s = .next t ∧ t.stageOf n stage = some r' ∧
        (Tab.get { code := 0, errors := [] } r'.bands b : Band).errors = old.errors ++
          [(point, l.sampleError d (Tab.get [] r.recs point)
            (d.unpack bytes))])) ∧
  ∀ (s : State) (n stage : Nat) (l : Launch) (r : StageRun), s.launch n = some l → l.stage stage = some r →
    let b := r.codes.length
    let band : Band := Tab.get { code := 0, errors := [] } r.bands b
    let due := r.desc.coverage = true ∧ l.finished = false ∧ b ∈ Tab.keys r.bands ∧
      (∀ p, p ∈ l.bandPoints r.desc b → p ∈ r.done) ∧ band.errors.length = (l.samples r.desc band.code b).length
    let steps := codeSteps r.desc
    let moves := fun (above below : Bool) (last : Option (BitVec 32)) => ∃ t r' e, exec (.controllerUpdate n stage) s = .next t ∧
      t.stageOf n stage = some r' ∧ r'.codes = r.codes ++ [r'.code] ∧ r'.last = some (b, e) ∧ (∀ x, last = some x → e = x) ∧
      r'.updates = r.updates + 1 ∧ r'.below = below ∧
      r'.changes = (if r'.code = r.code then r.changes else r.changes + 1) ∧
      (above = true → (∀ c, c ∈ steps → l.cmin ≤ c → c < r.code → c ≤ r'.code) ∧
        (r'.code = r.code ∨ (r'.code ∈ steps ∧ l.cmin ≤ r'.code ∧ r'.code < r.code)) ∧
        ((∃ c, c ∈ steps ∧ l.cmin ≤ c ∧ c < r.code) → r'.code ≠ r.code)) ∧
      (above = false → below = true → r.below = true → (∀ c, c ∈ steps → r.code < c → c ≤ l.cmax → r'.code ≤ c) ∧
        (r'.code = r.code ∨ (r'.code ∈ steps ∧ r.code < r'.code ∧ r'.code ≤ l.cmax)) ∧
        ((∃ c, c ∈ steps ∧ r.code < c ∧ c ≤ l.cmax) → r'.code ≠ r.code)) ∧
      (above = false → (below = false ∨ r.below = false) → r'.code = r.code)
    (¬due → exec (.controllerUpdate n stage) s = .next s) ∧
    (due → l.bandError band.errors = none → moves false true none) ∧
    (due → ∀ e, l.bandError band.errors = some e →
      let v := fmtF32.decode e.toNat
      (v.isNan = true → moves true false (some e)) ∧
      (v.isNan = false → moves (l.bounds.1.lt v) (v.lt l.bounds.2) (some e)))

/-- O53: The oldest frozen helper's trap enters the control context's handler once that context can take it. A task
goes only to an eligible core, as a record in its inbox; a stopped one is delivered again with attempt + 1 and flag 18
once its core's count is zero, and that of a killed core that held it too. Static handles go after the launch and
every count. At a rebalance instant, with moved cores in their sets once their old tasks are gone, each donor gives
one core to the fullest receiver. Waiting raises the effective priority. A cluster without column cores is gated after
50,000 idle cycles, a busy one restarts the count, and a wanted one wakes in 5,000. A complete launch stores its
status dword and then, once its units' writes are done, its value, for a host-side address as messages. Which core a
donor gives (log 41), who is served and credited (log 27) and the order of stages (log 28) are the model's choices.
Rests on R99, R109, R120, R198, R199, R200, R201, R202, R203, R214. -/
def Obligations.TasksAndLaunches : Prop :=
  (∀ (s : State) (c h : Nat) (f : Frozen) (rest : List Nat), (s.core c).trapQueue = h :: rest → (s.ctx c h).frozen = some f →
    let x := s.ctx c 0
    let able := (s.core c).handler = false ∧ (s.core c).inPhase s.cycle = false ∧ (s.core c).killed = false ∧
      (s.core c).dueTrap = none ∧ (∀ m, m ∈ (s.core c).gangOf c → (s.ctx m 0).awaits = false) ∧ x.wait ≠ .xmit ∧
      ∀ d p dir, x.wait ≠ .intake d p dir
    (¬able → exec (.helperTrapDelivery c) s = .next s) ∧
    (able → (s.core c).gang = none →
      ((s.core c).tvec >>> 1 = 0 → ∃ t, exec (.helperTrapDelivery c) s = .next t ∧ (t.core c).killed = true) ∧
      ((s.core c).tvec >>> 1 ≠ 0 → ∃ t, exec (.helperTrapDelivery c) s = .next t ∧
        (∀ m, m ≠ c → t.core m = s.core m) ∧ let k := t.core c
        k.handler = true ∧ k.tcause = f.sub ++ f.cause ∧ k.tval = f.tval ∧ k.tpc = f.pc ∧ k.tctx = BitVec.ofNat 4 h ∧
        k.tret = x.pc ∧ k.trapQueue = (h :: rest).filter (· != h) ∧ (k.ctx 0).pc = (s.core c).tvec &&& ~~~1 ∧
        (k.ctx 0).wait = .none ∧ (∀ n, (k.ctx 0).readG n = x.readG n ∧ (k.ctx 0).readV n = x.readV n) ∧
        ∀ n, n ≠ 0 → k.ctx n = s.ctx c n))) ∧
  (∀ (s : State) (c : Nat) (q : Task) (rest : List Task) (r : StageRun), (s.core c).redeliver = q :: rest →
    s.stageOf q.launch q.stage = some r →
    let after := s.outstanding c = true ∨ ∃ m, m ∈ q.after ∧ s.outstanding m = true
    (after → exec (.taskRedelivery c) s = .next s) ∧
    (¬after → ∃ t r', exec (.taskRedelivery c) s = .next t ∧ (t.core c).redeliver = rest ∧
      t.stageOf q.launch q.stage = some r' ∧
      (q.point ∈ r.done ∨ (∃ o, o ∈ r.retries ∧ o.point = q.point) → r' = r) ∧
      (q.point ∉ r.done → (∀ o, o ∈ r.retries → o.point ≠ q.point) → r'.retries = r.retries ++ [{ q with after := [] }.again] ∧
        ∀ e, e ∈ r'.flight ↔ e ∈ r.flight ∧ e.1 ≠ q.point))) ∧
  (∀ q : Task, 2 ≤ q.record.length → q.again.attempt = (q.attempt + 1) % 2 ^ 16 ∧
    (q.again.record.getD 1 0).getLsbD 18 = true ∧ q.again.mask = q.mask ∧ q.again.point = q.point ∧
    ∀ n, n ≠ 1 → q.again.record.getD n 0 = q.record.getD n 0) ∧
  (∀ (s : State) (n stage : Nat) (l : Launch) (r : StageRun) (v : Delivery) (cores : List Nat) (rect : BitVec 32),
    s.launch n = some l → s.deliverable n = some (stage, r, v, cores, rect) →
    let need := match v with | .retry t => t.mask | .group _ => r.desc.mask
    (∀ m, m ∈ cores → s.placeable m = true ∧ (s.core m).part = some l.part ∧ (s.core m).inbox.length < 4 ∧ m ∉ l.excluded ∧
      (s.core m).cap &&& need.setWidth 64 = need.setWidth 64) ∧
    (s.served n l = false → exec (.taskDelivery n) s = .next s) ∧
    (s.served n l = true → l.handles = [] → r.desc.paired = false → cores.Nodup → ∀ ps, v = .group ps →
      ∃ t, exec (.taskDelivery n) s = .next t ∧ (∀ m, m ∉ cores → (t.core m).inbox = (s.core m).inbox) ∧
        ∀ k, k < ps.length → k < cores.length → let m := cores.getD k 0
          ∃ q, (t.core m).inbox = (s.core m).inbox ++ [q] ∧ q.record = l.record stage r (ps.getD k 0) 0 rect k ∧
            q.mask = r.desc.mask ∧ q.launch = n ∧ q.stage = stage ∧ q.point = ps.getD k 0 ∧ q.fv = r.desc.fv ∧
            q.fq = r.desc.fq)) ∧
  (∀ (s : State) (n : Nat) (l : Launch), s.launch n = some l →
    let holds := fun (e : Nat × Core) => e ∈ s.cores ∧ n ∈ e.2.statics
    (l.finished = false ∨ (∃ e, holds e ∧ s.outstanding e.1 = true) → exec (.staticHandleFree n) s = .next s) ∧
    (l.finished = true → (∀ e, holds e → s.outstanding e.1 = false) → ∃ t, exec (.staticHandleFree n) s = .next t ∧
      t.launch n = none ∧ (∀ m, m ≠ n → t.launch m = s.launch m) ∧
      (∀ c, (s.core c).killed = true → t.core c = s.core c) ∧
      ∀ c, n ∈ (s.core c).statics → (s.core c).killed = false → n ∉ (t.core c).statics ∧
        (∀ h, h ∈ l.handles → h.level = 0 → (t.core c).store.tile h.number = {}) ∧
        ∀ m, (∀ h, h ∈ l.handles → h.level = 0 → h.number ≠ m) → (t.core c).store.tile m = (s.core c).store.tile m)) ∧
  (∀ (s : State) (n : Nat) (l : Launch), s.launch n = some l →
    let due := l.finished = false ∧ s.resultsQuiet n = true ∧ ∀ r, r ∈ l.stages → r.done.length = r.desc.points ∧ l.compared r = true
    (¬due → exec (.launchComplete n) s = .next s) ∧
    (due → l.signal = 0 → ∃ t l', exec (.launchComplete n) s = .next t ∧ t.launch n = some l' ∧ l'.finished = true ∧
      l'.status = l.status ∧ t.dram = s.dram) ∧
    (due → l.signal ≠ 0 → l.told = true → s.unitsQuiet l.part = false → exec (.launchComplete n) s = .next s) ∧
    (due → l.signal ≠ 0 → l.told = false → hostSide l.signal = true → s.unitsQuiet l.part = true →
      ∀ p, s.part l.part = some p → ∃ t l', exec (.launchComplete n) s = .next t ∧ t.launch n = some l' ∧ l'.finished = true ∧
        t.dram = s.dram ∧ t.outbox.map (fun o => (o.dst, o.body)) = s.outbox.map (fun o => (o.dst, o.body)) ++
          [(.host p.host, .store (l.signal + 8) (leBytes 8 l.status)), (.host p.host, .store l.signal (bytesOf 8 l.value))]) ∧
    (due → l.signal ≠ 0 → l.told = false → hostSide l.signal = false → s.dram.wf = true → (∀ p, p ∈ s.net → p.armed = none) →
      let die := s.partDie l.part
      let space := s.partSpace l.part
      let u := (s.unitPut die space (l.signal + 8) (leBytes 8 l.status) false none).2.modLaunch n fun l => { l with told := true }
      s.unitBlocked die space (l.signal + 8) = none → u.unitBlocked die space l.signal = none → u.unitsQuiet l.part = true →
      ∀ pb pa, s.translateNow die space (l.signal + 8) .write = .ok pb → u.translateNow die space l.signal .write = .ok pa →
      inPeer pb = false → inPeer pa = false → s.owned (space % 16) pb = true → s.owned (space % 16) pa = true →
      pb + 8 ≤ pa ∨ pa + 8 ≤ pb →
      ∃ t l', exec (.launchComplete n) s = .next t ∧ t.launch n = some l' ∧ l'.finished = true ∧
        t.dram.read pb 8 = leBytes 8 l.status ∧ t.dram.read pa 8 = bytesOf 8 l.value ∧
        ∀ a, (a < pb ∨ pb + 8 ≤ a) → (a < pa ∨ pa + 8 ≤ a) → t.dram.byte a = s.dram.byte a)) ∧
  (∀ (s : State) (n : Nat) (l : Launch), s.settle.launch n = some l →
    let queued := fun (k : Nat) (r : StageRun) => l.queued k r
    let receives := fun (k : Nat) (r : StageRun) =>
      l.stage k = some r ∧ k ≠ 0 ∧ r.desc.high ≤ queued k r ∧ queued k r ≠ 0
    let gives := fun (k : Nat) (r : StageRun) => l.stage k = some r ∧ l.gives r k = true
    let crossed := ∃ k r, l.stage k = some r ∧ k ≠ 0 ∧
      (decide (r.desc.high ≤ queued k r) ≠ r.above ∨ decide (queued k r ≤ r.desc.low) ≠ r.under)
    let due := l.finished = false ∧ (l.balance + 4096 ≤ s.cycle ∨ crossed)
    (¬due → exec (.rebalance n) s = .next s) ∧
    (due → ∃ t l', exec (.rebalance n) s = .next t ∧ t.launch n = some l' ∧ l'.balance = s.cycle / 4096 * 4096 ∧
      ((∀ k r, ¬receives k r) → ∀ k r, l.stage k = some r → ∃ r', l'.stage k = some r' ∧ r'.cores = r.cores ∧
        r'.joining = r.joining) ∧
      ∀ b rb, receives b rb → (∀ k r, receives k r → queued k r < queued b rb ∨ (queued k r = queued b rb ∧ b ≤ k)) →
        (∃ r', l'.stage b = some r' ∧ r'.cores = rb.cores ∧ ∀ c, c ∈ r'.joining ↔ c ∈ rb.joining ∨
          ∃ k r, k ≠ b ∧ gives k r ∧ c = r.cores.getLastD 0) ∧
        ∀ k r, k ≠ b → l.stage k = some r → ∃ r', l'.stage k = some r' ∧ r'.joining = r.joining ∧
          r'.cores = if l.gives r k then r.cores.filter (· != r.cores.getLastD 0) else r.cores)) ∧
  (∀ (s : State) (n : Nat) (l : Launch), s.launch n = some l →
    let due := l.finished = false ∧ l.hasReady = true ∧ l.waited + 2500000 * (l.aged + 1) ≤ s.cycle ∧ min 7 (l.prio + l.aged) < 7
    (¬due → exec (.priorityAging n) s = .next s) ∧
    (due → ∃ t, exec (.priorityAging n) s = .next t ∧ t = { s with launches := t.launches } ∧
      t.launch n = some { l with aged := l.aged + 1 })) ∧
  ∀ (s : State) (cl : Nat),
    let k := s.cluster cl
    let wanted := ∃ e l, e ∈ s.launches ∧ e.2 = some l ∧ l.finished = false ∧
      (∃ p, s.part l.part = some p ∧ cl ∈ p.clusters) ∧ ∃ k r, l.stage k = some r ∧ s.wantsWake e.1 k l r = true
    let turns := fun (i : Instr) (q : Power) => ∃ t, exec i s = .next t ∧ (t.cluster cl).power = q ∧ t.cores = s.cores ∧
      (t.cluster cl).store = k.store ∧ ∀ m, m ≠ cl → t.cluster m = s.cluster m
    (k.power = .awake → exec (.clusterWake cl) s = .next s) ∧
    (k.power = .gated → (¬wanted → exec (.clusterWake cl) s = .next s) ∧ (wanted → turns (.clusterWake cl) (.waking s.cycle))) ∧
    (∀ since, k.power = .waking since → (s.cycle < since + 5000 → exec (.clusterWake cl) s = .next s) ∧
      (since + 5000 ≤ s.cycle → turns (.clusterWake cl) .awake)) ∧
    let due := k.power = .awake ∧ (∀ c, c ∈ clusterCores cl → s.inColumn c = false) ∧ s.clusterIdle cl = true ∧
      k.idle + 50000 ≤ s.cycle
    (¬due → exec (.clusterGate cl) s = .next s) ∧ (due → turns (.clusterGate cl) .gated) ∧
    ∀ y, (s.clusterIdle cl = true → (s.noteBusy y).cluster cl = k) ∧
      (s.clusterIdle cl = false → cl ∈ s.knownClusters → (s.noteBusy y).cluster cl = { k with idle := y })

/-- O54: A cleared, unassigned core of a partition starts at its resident loop with all else fresh. Clearing unassigns
the cores, retags granules, changes no byte of one whose owner stays, and ends with all storage zero and free. A
pre-emptible unit is saved and waits at instructions it will issue again; resuming restores it. An error marks what it
struck. A self-test comes when due; its failing classes are fenced, a base failure kills, an ordered pass restores, a
killed core once it is drained. A re-encode ends at its time; a scrub reads the next line within its budget. A revived
core's partition (log 39), which instructions may be pre-empted (log 38) and what clearing leaves and waits for (logs
21 and 37) are the model's choices. Rests on R12, R36, R72, R74, R111, R112, R113, R213, R214, R215, R225, R247. -/
def Obligations.CoresAndPartitions : Prop :=
  (∀ (s : State) (c n : Nat) (tvec entry : Word) (p : Partition), s.part n = some p →
    let old := s.core c
    let due := p.clearing = false ∧ clusterOf c ∈ p.clusters ∧ s.inColumn c = false ∧ old.part = none ∧ old.killed = false ∧
      old.selfTest = none ∧ s.firmware.fencesOk = true ∧ s.firmware.service = true
    (¬due → exec (.coreAssignment c n tvec entry) s = .next s) ∧
    (due → ∃ t, exec (.coreAssignment c n tvec entry) s = .next t ∧ s.OnlyCore t c ∧ let k := t.core c
      k.part = some n ∧ k.tvec = tvec ∧ k.bilrok = some (tvec &&& ~~~(1 : Word)) ∧ k.loopPc = entry ∧ k.store = old.store ∧
      k.cap = old.cap ∧ (k.ctx 0).Fresh entry (fun _ => {}) ∧ (∀ x, x ≠ 0 → k.ctx x = {}) ∧ k.win = [] ∧ k.mode = 0 ∧
      k.conf = [] ∧ k.holding = none ∧ k.task = none ∧ k.inbox = [] ∧ k.mailbox = [] ∧ k.gang = none ∧ k.pairing = none ∧
      k.handler = false ∧ k.mqw = 1 ∧ k.pivl = 4096 ∧ k.need = 0)) ∧
  (∀ (s : State) (n : Nat) (next : PartitionSpec), ∃ t q, exec (.partitionClear n next) s = .next t ∧ t.part n = some q ∧
    q.odi = next.odi ∧ q.table = next.table ∧ q.host = next.host ∧ q.clearing = true ∧
    (∀ cl, cl ∈ q.clusters ↔ cl ∈ next.clusters ∧ (∃ m, m ∈ clusterCores cl ∧ s.inColumn m = false) ∧
      ∀ e p, e ∈ s.parts → e.1 ≠ n → e.2 = some p → cl ∉ p.clusters ∧ cl ∉ p.leaving) ∧
    (∀ cl, cl ∈ q.leaving ↔ cl ∉ q.clusters ∧ ∃ p, s.part n = some p ∧ (cl ∈ p.clusters ∨ cl ∈ p.leaving)) ∧
    (∀ p cl m, (s.part n = some p ∨ p = q) → cl ∈ p.clusters ∨ cl ∈ p.leaving → m ∈ clusterCores cl → s.inColumn m = false →
      (t.core m).part = none ∧ (t.core m).inbox = [] ∧ ∀ x, (t.ctx m x).live = false) ∧
    (∀ g, g ∈ next.granules → crashGranule g = false → Tab.get 0 t.owners g = next.odi) ∧
    (∀ g, g ∉ next.granules ∨ crashGranule g = true → Tab.get 0 t.owners g = Tab.get 0 s.owners g) ∧
    (s.dram.wf = true → ∀ a, a / 65536 ∉ next.granules ∨ crashGranule (a / 65536) = true ∨
        Tab.get 0 s.owners (a / 65536) = next.odi →
      t.dram.byte a = s.dram.byte a)) ∧
  (∀ (s : State) (n : Nat) (p : Partition), s.part n = some p →
    let clusters := p.clusters ++ p.leaving
    let cores := s.coresOf clusters
    (p.clearing = false ∨ s.traffic cores clusters = true → exec (.partitionClearComplete n) s = .next s) ∧
    (p.clearing = true → s.traffic cores clusters = false → ∃ t, exec (.partitionClearComplete n) s = .next t ∧
      t.part n = some { p with clearing := false, leaving := [] } ∧
      (∀ m, m ∈ cores → (t.core m).store = {} ∧ (t.core m).tiles = [] ∧ (t.core m).conf = [] ∧ (t.core m).ctxs = [] ∧
        (t.core m).killed = (s.core m).killed) ∧
      (∀ cl, cl ∈ clusters → (t.cluster cl).store = {} ∧ (t.cluster cl).cbs = [] ∧ (t.cluster cl).last = 7 ∧
        (t.cluster cl).run = 0) ∧
      ∀ m, m ∉ cores → t.core m = s.core m)) ∧
  (∀ (s : State) (c : Nat), (s.unit c).Nodup →
    let due := (s.core c).part ≠ none ∧ (s.core c).killed = false ∧ ∀ m, m ∈ s.unit c → s.preemptible m = true
    (¬due → exec (.preemption c) s = .next s) ∧
    (due → ∃ t, exec (.preemption c) s = .next t ∧ (∀ m, m ∉ s.unit c → t.core m = s.core m) ∧
      ∀ m, m ∈ s.unit c → let k := s.core m
        ∃ v, (t.core m).saved = some v ∧ v.store = k.store ∧ v.tiles = k.tiles ∧ v.mq = k.mq ∧
          v.eqs = (k.eqs.map fun e => (e.1, e.2.stop)) ∧ v.mailbox = k.mailbox ∧ v.inbox = k.inbox ∧ v.conf = k.conf ∧ v.barriers = k.barriers ∧
          v.step = BitVec.ofNat 64 ((k.mq.head?.map (·.next)).getD 0) ∧ (t.core m).tstep = v.step ∧
          (∀ x, x < 11 → (k.ctx x).live = true →
            (Tab.get {} v.contexts x : Context) = { k.ctx x with wait := .none, walkErr := none }) ∧
          ∀ x, t.ready m x = false) ∧
    (due → ∀ t, exec (.preemption c) s = .next t → ∀ cl, (∃ m, m ∈ clusterCores cl ∧ m ∈ s.unit c ∧ (s.core m).part ≠ none) →
      (∀ m, m ∈ clusterCores cl → (s.core m).part ≠ none → m ∈ s.unit c) → (s.cluster cl).saved = none →
      ∃ b, (t.cluster cl).saved = some ((s.cluster cl).store, b) ∧ (t.cluster cl).store = {} ∧ (t.cluster cl).cbs = [])) ∧
  (∀ (s : State) (c : Nat), (s.unit c).Nodup → ((s.core c).saved = none → exec (.preemptionResume c) s = .next s) ∧
    ((s.core c).saved ≠ none → ∃ t, exec (.preemptionResume c) s = .next t ∧ (∀ m, m ∉ s.unit c → t.core m = s.core m) ∧
      ∀ m v, m ∈ s.unit c → (s.core m).saved = some v → let k := t.core m
        k.saved = none ∧ k.ctxs = v.contexts ∧ k.store = v.store ∧ k.tiles = v.tiles ∧ k.eqs = v.eqs ∧ k.mailbox = v.mailbox ∧
        k.inbox = v.inbox ∧ k.conf = v.conf ∧ k.mq = v.mq ∧
        (∀ n b, (n, b) ∈ v.barriers →
          (n, { b with pending := (Tab.get {} (s.core m).barriers n : Barrier).pending }) ∈ k.barriers) ∧
        ∀ q, (s.cluster (clusterOf m)).saved = some q → (t.cluster (clusterOf m)).store = q.1 ∧
          (t.cluster (clusterOf m)).cbs = q.2 ∧ (t.cluster (clusterOf m)).saved = none)) ∧
  (∀ s : State,
    (∀ c o, ∃ t, exec (.uncorrectableError (.localWord c o)) s = .next t ∧
      Tab.get false (t.core c).store.poison (o / 8) = true ∧ (t.core c).store.bytes = (s.core c).store.bytes) ∧
    (∀ n o, ∃ t, exec (.uncorrectableError (.scratchWord n o)) s = .next t ∧
      Tab.get false (t.cluster n).store.poison (o / 8) = true ∧ (t.cluster n).store.bytes = (s.cluster n).store.bytes) ∧
    (∀ pa, ∃ t u, exec (.uncorrectableError (.dramLine pa)) s = .next t ∧
      exec (.uncorrectableError (.pageTableLine pa)) s = .next u ∧ Tab.get false t.dramBad (pa / 64) = true ∧
      Tab.get false u.dramBad (pa / 64) = true ∧ t.dram = s.dram) ∧
    (∀ c n, ∃ t, exec (.uncorrectableError (.tile c n)) s = .next t ∧ (t.core c).tile n =
      { (s.core c).tile n with poison := true }) ∧
    (∀ c n m, (s.core c).mailbox[n]? = some m → ∃ t, exec (.uncorrectableError (.mailboxEntry c n)) s = .next t ∧
      (t.core c).mailbox[n]? = some { m with poison := true }) ∧
    (∀ c n m, (s.core c).inbox[n]? = some m → ∃ t, exec (.uncorrectableError (.inboxEntry c n)) s = .next t ∧
      (t.core c).inbox[n]? = some { m with poison := true }) ∧
    (∀ c n, ∃ t, exec (.uncorrectableError (.confluenceEntry c n)) s = .next t ∧
      (t.core c).conf = (s.core c).conf.eraseIdx n) ∧
    (∀ c q r, ((s.core c).eq q).running = some r → ∃ t, exec (.uncorrectableError (.copyBuffer c q)) s = .next t ∧
      ((t.core c).eq q).running = some { r with status := if r.status = 0 then 5 else r.status }) ∧
    (∀ link seq header, ∃ t, exec (.uncorrectableError (.replaySlot link seq header)) s = .next t ∧
      t.replay = s.replay.map fun r => if r.link = link ∧ r.seq = seq then { r with lost := some header } else r) ∧
    ∀ c, (s.core c).killed = false → ∃ t, exec (.uncorrectableError (.coreMachinery c)) s = .next t ∧ (t.core c).Killed) ∧
  (∀ (s : State) (c : Nat),
    let k := s.core c
    let due := k.task = none ∧ k.inbox = [] ∧ k.killed = false ∧ k.selfTest = none ∧ k.saved = none ∧
      k.tested + s.firmware.selfTestPeriod ≤ s.cycle
    (∀ n, ∃ t, exec (.selfTestPeriodic (.interval n)) s = .next t ∧
      t = { s with firmware := { s.firmware with selfTestPeriod := n } }) ∧
    (¬due → exec (.selfTestPeriodic (.test c)) s = .next s) ∧
    (due → ∃ t, exec (.selfTestPeriodic (.test c)) s = .next t ∧ s.OnlyCore t c ∧
      t.core c = { k with selfTest := some { classes := BitVec.allOnes 28, cause := 2, since := s.cycle } } ∧
      t.placeable c = false)) ∧
  (∀ (s : State) (c : Nat) (failed : BitVec 28) (q : SelfTest), (s.core c).selfTest = some q →
    (∃ t, exec (.selfTestCompletion c failed true) s = .next t ∧ (t.core c).killed = true ∧ (t.core c).selfTest = none) ∧
    let waits := (s.core c).killed = true ∧ q.cause = 3 ∧ s.drained c = false
    (waits → exec (.selfTestCompletion c failed false) s = .next s) ∧
    (¬waits → ∃ t, exec (.selfTestCompletion c failed false) s = .next t ∧ (t.core c).selfTest = none ∧ (t.core c).tested = s.cycle ∧
      ((s.core c).killed = true → q.cause = 3 → (t.core c).killed = false ∧ (t.core c).part = none ∧
        ∀ n, n < 28 → (t.core c).cap.getLsbD n = if q.classes.getLsbD n then !failed.getLsbD n
          else !((s.liftFence c 0 true).firmware.fenced c ||| (s.core c).shared).getLsbD n) ∧
      (q.cause ≠ 3 → (t.core c).killed = (s.core c).killed ∧
        ∀ n, n < 28 → (t.core c).cap.getLsbD n = ((s.core c).cap.getLsbD n && !(failed.getLsbD n && q.classes.getLsbD n))) ∧
      ((s.core c).killed = false → q.cause = 3 → ∀ n, n < 28 → (t.core c).cap.getLsbD n =
        if q.classes.getLsbD n then !failed.getLsbD n else (s.core c).cap.getLsbD n))) ∧
  (∀ (s : State) (a : SramArray), ∃ (t : State), exec (.reEncodeComplete a) s = .next t ∧ t = { s with reencode := t.reencode } ∧
    ∀ e, e ∈ t.reencode ↔ e ∈ s.reencode ∧ ¬(e.1 = a ∧ e.2 ≤ s.cycle)) ∧
  (∀ (s : State) (n : Nat) (b : Bool),
    let old : Stack := Tab.get {} s.dramStacks n
    ∃ (t : State), exec (.stackPark n b) s = .next t ∧ t = { s with dramStacks := t.dramStacks } ∧
    (Tab.get {} t.dramStacks n : Stack) = { old with parked := b } ∧
    ∀ m, m ≠ n → (Tab.get {} t.dramStacks m : Stack) = Tab.get {} s.dramStacks m) ∧
  ∀ (s : State) (die : Nat) (o : ScrubOutcome),
    let line := nextLine die 2048 (Tab.get 0 s.scrub die)
    (s.budgetLeft 6 die = false → ∃ (t : State), exec (.scrubRead die o) s = .next t ∧ t = { s with budgets := t.budgets }) ∧
    (s.budgetLeft 6 die = true → s.arrayBusy (.channel (channelOf (line * 64))) = true → exec (.scrubRead die o) s = .next s) ∧
    (s.budgetLeft 6 die = true → s.arrayBusy (.channel (channelOf (line * 64))) = false →
      ∃ (t : State), exec (.scrubRead die o) s = .next t ∧ Tab.get 0 t.scrub die = line + 1 ∧ t.dram = s.dram ∧ t.cores = s.cores ∧
        (o = .uncorrectable → Tab.get false t.dramBad line = true) ∧ (o ≠ .uncorrectable → t.dramBad = s.dramBad))

/-- O55: A packet of an owning host with its class and one command is applied and answered with status 0: a queue is
configured, entries are submitted and kicked, a budget granted, a peer readmitted, a test ordered, classes fenced, a
report, a counter or a crash record returned, an image loaded, a hand-over begun, committed or cancelled. A malformed
one has status 1, a command outside its class, or one for what another host owns and that the access table does not
admit, 2, a busy core 3. An invalidation is answered later. The field layouts and what belongs to a partition (log
51), the report (log 12), the counter numbers (log 13) and the crash region (log 52) are the model's choices. Rests on
R68, R211, R212, R224, R225, R230, R231, R235, R239, R243, R244, R245. -/
def Obligations.Packets : Prop :=
  (∀ (s : State) (p : TlvPacket),
    ((packetLead p).1 ≠ 0x010 → (packetLead p).1 ≠ 0 → exec (.queueConfiguration p) s = .next s) ∧
    ((packetLead p).1 ≠ 0x011 → exec (.submission p) s = .next s) ∧
    ((packetLead p).1 ≠ 0x020 → exec (.budget p) s = .next s) ∧
    ((packetLead p).1 ≠ 0x021 → exec (.peerReadmit p) s = .next s) ∧
    ((packetLead p).1 ≠ 0x022 → exec (.selfTestOrder p) s = .next s) ∧
    ((packetLead p).1 ≠ 0x023 → exec (.fenceCommand p) s = .next s) ∧
    ((packetLead p).1 ≠ 0x024 → exec (.translationInvalidate (.packet p)) s = .next s) ∧
    ((packetLead p).1 ≠ 0x030 → exec (.spdm p) s = .next s) ∧
    ((packetLead p).1 ≠ 0x040 → exec (.counterRead p) s = .next s) ∧
    ((packetLead p).1 ≠ 0x041 → exec (.crashRecordRead p) s = .next s) ∧
    ((packetLead p).1 ≠ 0x050 → exec (.imageChunk p) s = .next s) ∧
    ((packetLead p).1 ≠ 0x051 ∨ (packetLead p).2 = [2] ∨ (packetLead p).2 = [3] → exec (.handOverBegin p) s = .next s) ∧
    (packetLead p ≠ (0x051, [2]) → exec (.handOverCommit p) s = .next s) ∧
    (packetLead p ≠ (0x051, [3]) → exec (.handOverCancel p) s = .next s)) ∧
  ∀ (s : State) (h : Nat) (v : Bool), h ∈ s.hostsToTell →
    (∀ cls, cls = 1 ∨ cls = 2 → 
      let bare : TlvPacket := { sender := .host h, fields := [outField 0x001 (leBytes 1 cls)], verifies := v }
      ∃ (t : State), exec (.queueConfiguration bare) s = .next t ∧ s.Answered t h cls 0 []) ∧
    (∀ bs : List Byte,
      let q := fieldAt bs 0 1
      let x := fieldAt bs 1 28
      let old := s.queue q
      let good := bs.length = 29 ∧ q < 64 ∧ bitField x 0 64 % 16 = 0 ∧
        (bitField x 64 5 = 0 ∨ (4 ≤ bitField x 64 5 ∧ bitField x 64 5 ≤ 20)) ∧ bitField x 72 4 ≠ 0 ∧ bitField x 80 64 % 64 = 0
      let part := bitField x 76 4
      let may := s.manages h = true ∨ (s.ownsPart h part = true ∧ (old.enabled = false ∨ s.ownsPart h old.part = true))
      (good → ¬may → ∃ (t : State), exec (.queueConfiguration (command h 1 0x010 bs v)) s = .next t ∧ s.Answered t h 1 2 []) ∧
      (good → may → ∃ (t : State), exec (.queueConfiguration (command h 1 0x010 bs v)) s = .next t ∧
        State.Answered { s with queues := t.queues } t h 1 0 [] ∧ (∀ m, m ≠ q → t.queue m = s.queue m) ∧
        (t.queue q).base = BitVec.ofNat 64 (bitField x 0 64) ∧ (t.queue q).log = bitField x 64 5 ∧
        (t.queue q).prio = bitField x 69 3 ∧ (t.queue q).weight = bitField x 72 4 ∧ (t.queue q).part = part ∧
        (t.queue q).status = BitVec.ofNat 64 (bitField x 80 64) ∧
        ((t.queue q).enabled = true ↔ bitField x 64 5 ≠ 0) ∧ (t.queue q).k = 0 ∧ (t.queue q).head = 0 ∧
        (t.queue q).stopped = false ∧ (t.queue q).work = old.work ∧
        ∀ n, n < 8 → bitField x (144 + 10 * n) 10 ≠ 0x3FF → bitField x (144 + 10 * n) 10 ∈ (t.queue q).peers) ∧
      (¬good → ∃ (t : State), exec (.queueConfiguration (command h 1 0x010 bs v)) s = .next t ∧ s.Answered t h 1 1 []) ∧
      ∃ (t : State), exec (.queueConfiguration (command h 2 0x010 bs v)) s = .next t ∧ s.Answered t h 2 2 []) ∧
    (∀ bs : List Byte, s.firmware.service = true →
      let q := fieldAt bs 0 1
      let k := s.queue q
      let n := (bs.length - 1) / 16
      let p := command h 3 0x011 bs v
      let good := bs.length = 1 + 16 * n ∧ n ≠ 0 ∧ n ≤ 64 ∧ q < 64
      let entries := (span 0 n).map fun i => (bs.drop (1 + 16 * i)).take 16
      (¬good → ∃ (t : State), exec (.submission p) s = .next t ∧ s.Answered t h 3 1 []) ∧
      (good → s.ownsQueue h q = false → ∃ (t : State), exec (.submission p) s = .next t ∧ s.Answered t h 3 2 []) ∧
      (good → s.ownsQueue h q = true → k.enabled = false → ∃ (t : State), exec (.submission p) s = .next t ∧
        s.Answered t h 3 1 []) ∧
      (good → s.ownsQueue h q = true → k.enabled = true →
        (∀ u, (s.noteHeaders p).writeRing (.host h) q k.k.toNat entries = .inl (some u) →
          ∃ (t : State), exec (.submission p) s = .next t ∧ (u.kickTo q (k.k + BitVec.ofNat 32 n)).Answered t h 3 0 []) ∧
        ((s.noteHeaders p).writeRing (.host h) q k.k.toNat entries = .inl none →
          ∃ (t : State), exec (.submission p) s = .next t ∧ s.Answered t h 3 1 []))) ∧
    (∀ bs : List Byte,
      let good := bs.length = 14 ∧ fieldAt bs 0 1 ≤ 6 ∧ fieldAt bs 5 1 ≤ 1 ∧ (fieldAt bs 5 1 = 0 → fieldAt bs 6 8 ≤ 100)
      let acts := if fieldAt bs 0 1 = 1 then [1, 7] else [fieldAt bs 0 1]
      let c := fieldAt bs 1 4
      let may := s.manages h = true ∨ s.ownsConsumer (fieldAt bs 0 1) c h = true
      (good → ¬may → ∃ (t : State), exec (.budget (command h 1 0x020 bs v)) s = .next t ∧ s.Answered t h 1 2 []) ∧
      (good → may → ∃ (t : State) (new : List BudgetRow), exec (.budget (command h 1 0x020 bs v)) s = .next t ∧
        State.Answered { s with budgets := new } t h 1 0 [] ∧
        (∀ a, a ∈ acts → ∃ r, r ∈ new ∧ r.activity = a ∧ r.consumer = c ∧ r.implied = false ∧
          r.expert = (fieldAt bs 5 1 == 1) ∧ r.amount = fieldAt bs 6 8 ∧ r.left = s.grant r) ∧
        (∀ r : BudgetRow, r.implied = false → (r.activity ∈ acts → r.consumer ≠ c) → (r ∈ new ↔ r ∈ s.budgets)) ∧
        ∀ r : BudgetRow, r.implied = true → (r ∈ new ↔ r ∈ s.budgets ∧ r.activity ∉ acts)) ∧
      (¬good → ∃ (t : State), exec (.budget (command h 1 0x020 bs v)) s = .next t ∧ s.Answered t h 1 1 [])) ∧
    (∀ n, n < 65536 →
      (n < 1024 → ∃ (t : State), exec (.peerReadmit (command h 1 0x021 (leBytes 2 n) v)) s = .next t ∧
        State.Answered { s with peers := t.peers, replay := s.replay.filter fun r => r.link != 16 + n % 8 } t h 1 0 [] ∧ (t.peer n).isolated = false ∧ (t.peer n).heard = s.cycle ∧
        ∀ m, m ≠ n → t.peer m = s.peer m) ∧
      (1024 ≤ n → ∃ (t : State), exec (.peerReadmit (command h 1 0x021 (leBytes 2 n) v)) s = .next t ∧
        s.Answered t h 1 1 [])) ∧
    (∀ (c : Nat) (m : BitVec 28), c < Config.coreCount →
      let bs := leBytes 2 c ++ leBytes 4 m.toNat
      let k := s.core c
      let busy := k.task ≠ none ∨ k.inbox ≠ [] ∨ k.selfTest ≠ none ∨ k.saved ≠ none
      let may := s.manages h = true ∨ s.ownsCore c h = true
      (¬may → (∃ (t : State), exec (.selfTestOrder (command h 1 0x022 bs v)) s = .next t ∧ s.Answered t h 1 2 []) ∧
        ∃ (t : State), exec (.fenceCommand (command h 1 0x023 bs v)) s = .next t ∧ s.Answered t h 1 2 []) ∧
      (may → busy → ∃ (t : State), exec (.selfTestOrder (command h 1 0x022 bs v)) s = .next t ∧ s.Answered t h 1 3 []) ∧
      (may → ¬busy → ∃ (t : State), exec (.selfTestOrder (command h 1 0x022 bs v)) s = .next t ∧
        State.Answered { s with cores := t.cores } t h 1 0 [] ∧ (∀ x, x ≠ c → t.core x = s.core x) ∧
        t.core c = { k with selfTest := some { classes := m, cause := 3, since := s.cycle } }) ∧
      (may → ∃ (t : State), exec (.fenceCommand (command h 1 0x023 bs v)) s = .next t ∧ (s.fence c m 3).Answered t h 1 0 [] ∧
        (∀ n, n < 28 → (t.core c).cap.getLsbD n = ((s.core c).cap.getLsbD n && !m.getLsbD n)) ∧
        (m ≠ 0 → ∃ e, e ∈ t.firmware.fences ∧ e.core = c ∧ e.classes &&& m = m ∧ e.cause = 3))) ∧
    (∀ bs : List Byte, bs.length ≠ 6 →
      (∃ (t : State), exec (.selfTestOrder (command h 1 0x022 bs v)) s = .next t ∧ s.Answered t h 1 1 []) ∧
      ∃ (t : State), exec (.fenceCommand (command h 1 0x023 bs v)) s = .next t ∧ s.Answered t h 1 1 []) ∧
    (∀ (bs : List Byte) (odi : Nat) (range : Option (Nat × Nat)), odi < 16 → (∀ i, i ∈ s.invs → i.id < s.nextNum) →
      ((bs = leBytes 1 odi ∧ range = none) ∨ ∃ a b, a < 2 ^ 64 ∧ b < 2 ^ 64 ∧ range = some (a, b) ∧
        bs = leBytes 1 odi ++ leBytes 8 a ++ leBytes 8 b) →
      let begun := fun (s t : State) (asked : InvFor) =>
        (∃ i, t.invs = s.invs ++ [i] ∧ i.id = s.nextNum ∧ i.odi = odi ∧ i.range = range ∧ i.asked = asked ∧
          (∀ n, n ∈ i.waits → ∃ p e, p ∈ s.net ++ s.heldPackets ∧ p.odi = odi ∧ p.pa ≠ none ∧ e ∈ p.numbers ∧ e.2 = n) ∧
          ∀ p e, p ∈ s.net ++ s.heldPackets → p.odi = odi → p.pa ≠ none → e ∈ p.numbers →
            let va := bitsN p.loc 56 0
            (meetsRange va 4096 range = true ∨ ∃ c x, x ∈ (s.core c).micro ∧ x.dropped odi range = true ∧ x.va ≤ va ∧
              va < x.va + x.size) → e.2 ∈ i.waits) ∧
        (∀ c, (t.core c).micro = (s.core c).micro.filter fun x => !x.dropped odi range) ∧
        (∀ n, (t.cluster n).cache = (s.cluster n).cache.filter fun x => !x.dropped odi range) ∧
        ∀ n, (t.die n).cache = (s.die n).cache.filter fun x => !x.dropped odi range
      let p := command h 1 0x024 bs v
      let may := s.manages h = true ∨ s.ownsDomain odi h = true
      (¬may → ∃ (t : State), exec (.translationInvalidate (.packet p)) s = .next t ∧ s.Answered t h 1 2 []) ∧
      (may → ∃ (t : State), exec (.translationInvalidate (.packet p)) s = .next t ∧ t.outbox = s.outbox ∧
        begun s t (.host (.host h) 1 s.nextNum (replyFields p 0 []))) ∧
      -- Bilrok's own: the monitors of the written channel see the write first
      ∀ (pa : Nat) (w : Word), s.dram.wf = true →
       (s.channelParked pa = true → exec (.translationInvalidate (.bilrok odi range [(pa, w)])) s = .next s) ∧
       (s.channelParked pa = false → ∃ (t : State),
        exec (.translationInvalidate (.bilrok odi range [(pa, w)])) s = .next t ∧ begun (s.writeTables [(pa, w)]) t .firmware ∧
        t.dram.read pa 8 = bytesOf 8 w ∧ (∀ a, a < pa ∨ pa + 8 ≤ a → t.dram.byte a = s.dram.byte a) ∧
        Tab.get false t.dramBad (pa / 64) = false ∧ ∀ n, pa / 64 ∉ (t.die n).bad)) ∧
    (∀ bs : List Byte,
      let good := 4 ≤ bs.length ∧ fieldAt bs 0 1 = 0x13
      let answer := if fieldAt bs 1 1 = 0xE0 then [0x13, 0x60, 0, 0] ++ s.firmware.report else Config.spdmAnswer bs
      (good → ∃ (t : State), exec (.spdm (command h 2 0x030 bs v)) s = .next t ∧ s.Answered t h 2 0 [outField 0x030 answer]) ∧
      (¬good → ∃ (t : State), exec (.spdm (command h 2 0x030 bs v)) s = .next t ∧ s.Answered t h 2 1 [])) ∧
    (∀ kind index, kind < 2 ^ 16 → index < 2 ^ 32 → ∃ (t : State),
      exec (.counterRead (command h 1 0x040 (leBytes 2 kind ++ leBytes 4 index) v)) s = .next t ∧
      s.Answered t h 1 0 [outField 0x040
        (leBytes 8 (Tab.get 0 s.firmware.counters (countKey kind index) : BitVec 64).toNat)]) ∧
    (∀ slot, slot < 256 → s.channelParked (crashAt slot) = true →
      exec (.crashRecordRead (command h 1 0x041 (leBytes 1 slot) v)) s = .next s) ∧
    (∀ slot, slot < 256 → s.channelParked (crashAt slot) = false →
      ∃ (t : State), exec (.crashRecordRead (command h 1 0x041 (leBytes 1 slot) v)) s = .next t ∧
      s.Answered t h 1 0 [outField 0x041 (s.dram.read (crashAt slot) 4096)]) ∧
    (∀ (off : Nat) (data : List Byte), off < 2 ^ 32 →
      let good := s.firmware.started = true ∧ data.length ≤ 61440
      let f := s.firmware
      let g := { f with image := f.image.write off data, imageLen := max f.imageLen (off + data.length) }
      let g := if v = true then { g with handOver := .pending, started := false } else g
      (good → ∃ (t : State), exec (.imageChunk (command h 1 0x050 (leBytes 4 off ++ data) v)) s = .next t ∧
        State.Answered { s with firmware := g } t h 1 0 []) ∧
      (¬good → ∃ (t : State), exec (.imageChunk (command h 1 0x050 (leBytes 4 off ++ data) v)) s = .next t ∧
        s.Answered t h 1 1 [])) ∧
    let f := s.firmware
    let begun := { f with handOver := .none, image := [], imageLen := 0, started := true }
    let committed := { f with handOver := .committed, running := f.incoming, image := [], imageLen := 0 }
    let cancelled := { f with handOver := if f.handOver = .committed then .committed else .none, image := [], imageLen := 0, started := false }
    (∃ (t : State), exec (.handOverBegin (command h 1 0x051 [1] v)) s = .next t ∧
      State.Answered { s with firmware := begun } t h 1 0 []) ∧
    (f.handOver = .pending → ∃ (t : State), exec (.handOverCommit (command h 1 0x051 [2] v)) s = .next t ∧
      State.Answered { s with firmware := committed } t h 1 0 []) ∧
    (f.handOver ≠ .pending → ∃ (t : State), exec (.handOverCommit (command h 1 0x051 [2] v)) s = .next t ∧
      s.Answered t h 1 1 []) ∧
    ∃ (t : State), exec (.handOverCancel (command h 1 0x051 [3] v)) s = .next t ∧
      State.Answered { s with firmware := cancelled } t h 1 0 []

/-- O56: An entry that is admitted, readable and paid for has the effect of Table 13.1 and the interpreter goes on; a
nonzero unused field, a misaligned address, an unknown op, a full or empty return stack and a failed read stop the
queue with their causes. A kick moves k or is counted; a delta packet waits behind what was admitted, or takes effect.
The status record is written when due, and a period restores every budget. How SKIPIF and deltas wait (log 50), the
reserved codes, scopes and flags that stop with cause 2 (logs 83 and 84), a host's windows (log 51) and which
addresses are a host's (log 90) are the model's choices. Rests on R193, R194, R79, R211, R229, R230, R232, R233, R234.
-/
def Obligations.Queues : Prop :=
  let entries := fun (q : Nat) => [(Instr.clNop q, 0), (.clLaunch q, 1), (.clCopy q, 2), (.clWait q, 3), (.clSignal q, 4),
    (.clSkipif q, 5), (.clJump q, 6), (.clCall q, 7), (.clReturn q, 8), (.clSetreg q, 9)]
  -- what the entries have in common
  (∀ (s : State) (q : Nat), (s.queue q).dueDispatch = none →
    ((s.queue q).nextEntry = none → (∀ i n, (i, n) ∈ entries q → exec i s = .next s) ∧ exec (.clBadOp q) s = .next s) ∧
    (∀ a t, (s.queue q).nextEntry = some a → s.partRead (s.queue q).part a 16 = (.failed, t) →
      (∀ i n, (i, n) ∈ entries q → exec i s = .next (t.stopQueue q 6)) ∧ exec (.clBadOp q) s = .next (t.stopQueue q 6)) ∧
    (∀ a bs p t, (s.queue q).nextEntry = some a → s.partRead (s.queue q).part a 16 = (.ok bs p, t) →
      s.budgetLeft 5 q = false → ∀ i n, (i, n) ∈ entries q → (entryOf bs).op = n → exec i s = .next (s.budgetStall 5 q)) ∧
    ∀ u e, s.AtEntry u q e →
      (∀ i n, (i, n) ∈ entries q → e.op ≠ n → exec i s = .next s) ∧
      (10 ≤ e.op → exec (.clBadOp q) s = .next (u.stopQueue q 1)) ∧ (e.op < 10 → exec (.clBadOp q) s = .next s)) ∧
  (∀ (s : State) (q cause : Nat), let t := s.stopQueue q cause
    let k := s.queue q
    t = { s with queues := t.queues } ∧ (∀ m, m ≠ q → t.queue m = s.queue m) ∧
    t.queue q = { k with stopped := true, cause := cause, stopAt := k.index, dirty := true }) ∧
  (∀ (k : Queue) (n : Nat), k.deltas = [] →
    (k.cursor = .ring → k.advance n = { k with head := k.head + BitVec.ofNat 32 n, issued := true }) ∧
    ∀ a, k.cursor = .addr a → k.advance n = { k with cursor := .addr (a + BitVec.ofNat 64 (16 * n)), issued := true }) ∧
  -- each entry
  (∀ (s u : State) (q : Nat) (e : Entry), s.AtEntry u q e →
    let k := u.queue q
    let plain := e.mod = 0 ∧ e.imm = 0
    (e.op = 0 → (plain ∧ e.addr = 0 → exec (.clNop q) s = .next (u.advance q 1)) ∧
      (¬(plain ∧ e.addr = 0) → exec (.clNop q) s = .next (u.stopQueue q 2))) ∧
    (e.op = 1 → (s.queue q).dueDispatch = none →
      let good := e.mod < 4 ∧ e.imm = 0
      (¬good → exec (.clLaunch q) s = .next (u.stopQueue q 2)) ∧
      (good → e.askew = true → exec (.clLaunch q) s = .next (u.stopQueue q 3)) ∧
      (good → e.askew = false →
        (2 ≤ e.mod → k.quiet = false → exec (.clLaunch q) s = .next s) ∧
        (e.mod < 2 ∨ k.quiet = true →
          (∀ v w, u.startLaunch q e.addr (e.mod % 2 == 1) = (some v, w) → (v.queue q).stopped = false →
            exec (.clLaunch q) s = .next (v.advance q 1)) ∧
          (∀ w, u.readDescriptor k.part e.addr = (.failed, w) → exec (.clLaunch q) s = .next (w.stopQueue q 6)) ∧
          ∀ w hd raws, u.readDescriptor k.part e.addr = (.ok hd raws, w) →
            let l := launchFrom hd (some q) k w.cycle
            e.mod % 2 = 0 → headerBad hd l = true →
            u.startLaunch q e.addr false = (some (w.enterLaunch { l with status := 2 }), w)))) ∧
    (e.op = 2 →
      let good := (e.mod = 0 ∨ e.mod = 2) ∧ e.imm = 0
      (¬good → exec (.clCopy q) s = .next (u.stopQueue q 2)) ∧
      (good → e.askew = true → exec (.clCopy q) s = .next (u.stopQueue q 3)) ∧
      (good → e.askew = false → (e.mod = 2 → k.quiet = false → exec (.clCopy q) s = .next s) ∧
        (e.mod = 0 ∨ k.quiet = true → (∀ v, u.partRead k.part e.addr 80 = (.failed, v) →
            exec (.clCopy q) s = .next (v.stopQueue q 6)) ∧
          ∀ v bs p, u.partRead k.part e.addr 80 = (.ok bs p, v) →
            let fields := (span 0 10).map fun n => wordAt bs (8 * n)
            let fl : Word := fields.getD 6 0
            let c := ((v.partCores k.part).filter fun c => !v.inColumn c).headD 0
            (copyFieldsBad fl = true → exec (.clCopy q) s = .next (v.stopQueue q 2)) ∧
            (copyFieldsBad fl = false → 16 ≤ ((v.core c).serials 0).length → exec (.clCopy q) s = .next s) ∧
            (copyFieldsBad fl = false → ((v.core c).serials 0).length < 16 → ∃ t, exec (.clCopy q) s = .next t ∧
              t.core c = (v.core c).enqueueCopy 0 fields (fl.extractLsb' 32 4) 0 ((v.core c).ctx 0).life (some q) ∧
              (t.queue q).copies = (v.queue q).copies + 1 ∧ ∀ m, m ≠ c → t.core m = v.core m)))) ∧
    (e.op = 3 →
      let good := e.mod / 4 % 32 = 0
      (¬good → exec (.clWait q) s = .next (u.stopQueue q 2)) ∧
      (good → e.askew = true → exec (.clWait q) s = .next (u.stopQueue q 3)) ∧
      (good → e.askew = false → (e.mod / 128 = 1 → k.quiet = false → exec (.clWait q) s = .next s) ∧
        (e.mod / 128 ≠ 1 ∨ k.quiet = true → ∀ v bs p, u.partRead k.part e.addr 8 = (.ok bs p, v) →
          let holds := match e.mod % 4 with
            | 0 => leNat bs = e.imm
            | 1 => leNat bs ≠ e.imm
            | 2 => leNat bs < e.imm
            | _ => leNat bs ≥ e.imm
          (holds → exec (.clWait q) s = .next (v.advance q 1)) ∧
          (¬holds → exec (.clWait q) s = .next { s with unitLines := v.unitLines })))) ∧
    (e.op = 4 → (12 ≤ e.mod → exec (.clSignal q) s = .next (u.stopQueue q 2)) ∧
      (e.mod < 12 → e.askew = true → exec (.clSignal q) s = .next (u.stopQueue q 3)) ∧
      (e.mod < 12 → e.askew = false → (k.quiet = false → exec (.clSignal q) s = .next s) ∧
        (k.quiet = true → hostSide e.addr = true → exec (.clSignal q) s =
          .next ((u.signalHost k.part e.addr (leBytes 8 e.imm)).advance q 1)) ∧
        (k.quiet = true → hostSide e.addr = false → ∀ r v, u.unitWrite (u.partDie k.part) (u.partSpace k.part) e.addr (leBytes 8 e.imm) false
          (some (unitRelease (BitVec.ofNat 4 e.mod))) = (r, v) → r ≠ .ask → exec (.clSignal q) s = .next (v.advance q 1)))) ∧
    (e.op = 5 → (e.mod / 4 % 2 ≠ 0 → exec (.clSkipif q) s = .next (u.stopQueue q 2)) ∧
      (e.mod / 4 % 2 = 0 → e.askew = true → exec (.clSkipif q) s = .next (u.stopQueue q 3)) ∧
      (e.mod / 4 % 2 = 0 → e.askew = false → ∀ v bs p, u.partRead k.part e.addr 8 = (.ok bs p, v) →
        (testHolds (e.mod % 4) (leNat bs) e.imm = false → exec (.clSkipif q) s = .next (v.advance q 1)) ∧
        (testHolds (e.mod % 4) (leNat bs) e.imm = true →
          (k.cursor ≠ .ring ∨ 1 + e.mod / 8 ≤ (k.k - k.head).toNat →
            exec (.clSkipif q) s = .next (v.advance q (1 + e.mod / 8))) ∧
          (k.cursor = .ring → (k.k - k.head).toNat < 1 + e.mod / 8 →
            exec (.clSkipif q) s = .next { s with unitLines := v.unitLines })))) ∧
    (e.op = 6 → (¬plain → exec (.clJump q) s = .next (u.stopQueue q 2)) ∧
      (plain → e.askew = true → exec (.clJump q) s = .next (u.stopQueue q 3)) ∧
      (plain → e.askew = false → exec (.clJump q) s = .next ((u.advance q 1).modQueue q fun k => k.goto e.addr))) ∧
    (e.op = 7 → (¬plain → exec (.clCall q) s = .next (u.stopQueue q 2)) ∧
      (plain → e.askew = true → exec (.clCall q) s = .next (u.stopQueue q 3)) ∧
      (plain → e.askew = false → (4 ≤ k.stack.length → exec (.clCall q) s = .next (u.stopQueue q 4)) ∧
        (k.stack.length < 4 → ∃ t, exec (.clCall q) s = .next t ∧ t = { u with queues := t.queues, budgets := t.budgets } ∧
          (t.queue q).stack = (k.advance 1).here :: k.stack ∧
          (t.queue q).cursor = ((k.advance 1).goto e.addr).cursor ∧ (t.queue q).head = ((k.advance 1).goto e.addr).head))) ∧
    (e.op = 8 → (¬(plain ∧ e.addr = 0) → exec (.clReturn q) s = .next (u.stopQueue q 2)) ∧
      (plain ∧ e.addr = 0 → (k.stack = [] → exec (.clReturn q) s = .next (u.stopQueue q 5)) ∧
        ∀ r rest, k.stack = r :: rest → ∃ t, exec (.clReturn q) s = .next t ∧ t = { u with queues := t.queues, budgets := t.budgets } ∧
          (t.queue q).stack = rest ∧ (t.queue q).cursor = ((k.advance 1).goto r).cursor ∧
          (t.queue q).head = ((k.advance 1).goto r).head)) ∧
    (e.op = 9 → (¬(e.mod < 32 ∧ e.imm = 0) → exec (.clSetreg q) s = .next (u.stopQueue q 2)) ∧
      (e.mod < 32 ∧ e.imm = 0 → ∃ t, exec (.clSetreg q) s = .next t ∧ t = { u with queues := t.queues, budgets := t.budgets } ∧
        (k.deltas = [] → t.queue q = ({ k with shadow := Tab.put k.shadow e.mod e.addr } : Queue).advance 1)))) ∧
  -- a jump within the ring goes to the index of the entry admitted there last, or to the first to come; another one leaves
  -- the ring (log 50)
  (∀ (k : Queue) (a : Word), k.log ≤ 20 → bitsN k.base 3 0 = 0 → bitsN a 3 0 = 0 →
    let g := k.goto a
    ((a - k.base).toNat < 16 * 2 ^ k.log → g.cursor = .ring ∧ g.slotAt g.head.toNat = a ∧
      ((k.k - g.head).toNat < 2 ^ k.log ∨ (k.k.toNat < 2 ^ k.log ∧ (g.head - k.k).toNat < 2 ^ k.log))) ∧
    (16 * 2 ^ k.log ≤ (a - k.base).toNat → g.cursor = .addr a ∧ g.head = k.head)) ∧
  -- a dispatch whose turn has come
  (∀ (s : State) (q : Nat) (bs : List Byte) (rest : List (BitVec 32 × Nat × List Byte)),
    (s.queue q).dueDispatch = some (bs, rest) →
    let k : Queue := { (s.queue q).applyDelta bs with deltas := rest }
    let at' : Word := Tab.get 0 k.shadow 31
    ((deltaHeader bs).getLsbD 14 = true → (s.queue q).quiet = false → exec (.clLaunch q) s = .next s) ∧
    ((deltaHeader bs).getLsbD 14 = false ∨ (s.queue q).quiet = true →
      let t := s.modQueue q fun _ => k
      (bitsN at' 3 0 ≠ 0 → exec (.clLaunch q) s = .next (t.stopQueue q 3)) ∧
      (bitsN at' 3 0 = 0 → ∀ v w, t.startLaunch q at' true = (some v, w) → (v.queue q).deltas = [] → ∃ u,
        exec (.clLaunch q) s = .next u ∧ u = { v with queues := u.queues } ∧
          u.queue q = { v.queue q with issued := true }))) ∧
  -- kicks
  (∀ (s : State) (host q : Nat) (sv : DeliveryService) (index : BitVec 32), sv ≠ .other →
    let k := s.queue q
    let taken := s.firmware.service = true ∧ k.enabled = true ∧ q < 64 ∧ s.ownsQueue host q = true
    let d := (index - k.k).toNat
    let moves := 0 < d ∧ d < 2 ^ 31
    (¬taken → exec (.kick host sv (.kick q index)) s = .next (s.count Count.droppedRequest host)) ∧
    (taken → ∃ (t : State), exec (.kick host sv (.kick q index)) s = .next t ∧ t = { s with queues := t.queues } ∧
      (∀ m, m ≠ q → t.queue m = s.queue m) ∧ (moves → (t.queue q).k = index ∧ (t.queue q).ignored = k.ignored) ∧
      (¬moves → (t.queue q).k = k.k ∧ (t.queue q).ignored = k.ignored + 1) ∧ (t.queue q).head = k.head ∧
      (2 ^ k.log < ((t.queue q).k - k.head).toNat → (t.queue q).stopped = true ∧ (t.queue q).cause = 8) ∧
      (((t.queue q).k - k.head).toNat ≤ 2 ^ k.log → (t.queue q).stopped = k.stopped))) ∧
  -- a host's other requests: within a window of a queue of its own they are served, all else is dropped and counted
  (∀ (s : State) (host : Nat),
    ∀ sv : DeliveryService,
    (∀ r, exec (.kick host .other r) s = .next (s.count Count.hostRequest host)) ∧
    (∀ w q, s.windowOf host w = some q → s.firmware.service = true ∧ s.ownsQueue host q = true ∧ w (s.queue q) = true) ∧
    (∀ a data, sv ≠ .other → (s.windowOf host fun k => k.inRing a data.length) = none →
      exec (.kick host sv (.ring a data)) s = .next (s.count Count.hostRequest host)) ∧
    (∀ a n, sv ≠ .other → (s.windowOf host fun k => k.inWindow a n) = none →
      exec (.kick host sv (.read a n)) s = .next (s.count Count.hostRequest host)) ∧
    (∀ a data q, sv ≠ .other → (s.windowOf host fun k => k.inRing a data.length) = some q → exec (.kick host sv (.ring a data)) s =
      .next (s.unitStore (s.partDie (s.queue q).part) (s.hostSpace host q) a data (peerRank host)).2) ∧
    (∀ (part : Nat) (p : Partition) a data, s.part part = some p → ∃ o, s.signalHost part a data =
      { s with outbox := s.outbox ++ [o], nextNum := s.nextNum + 1, budgets := (s.signalHost part a data).budgets } ∧
      o.dst = .host p.host ∧ o.body = .store a data) ∧
    ∀ a n q, sv ≠ .other → (s.windowOf host fun k => k.inWindow a n) = some q → ∀ bs p t,
      s.unitReadAs (peerRank host) (s.partDie (s.queue q).part) (s.hostSpace host q) (n / 64 + 2) a n = (.ok bs p, t) →
      exec (.kick host sv (.read a n)) s = .next (t.send (.host host) (.completion bs p false none))) ∧
  -- delta packets
  (∀ (s : State) (host : Nat) (bs : List Byte),
    let h := deltaHeader bs
    let q := bitsN h 13 8
    let k := s.queue q
    let up := s.firmware.service = true ∧ k.enabled = true
    let good := deltaBad bs = false ∧ s.ownsQueue host q = true
    let waits : Queue := { k with deltas := [(k.k, host, bs)] }
    let refused := s.modQueue q fun k => { k with rejected := k.rejected + 1 }
    (bitsN h 7 0 = 1 → exec (.deltaUpdate host bs) s = .next s) ∧
    (bitsN h 7 0 ≠ 1 → exec (.deltaDispatch host bs) s = .next s ∧
      (¬up → exec (.deltaUpdate host bs) s = .next (s.count Count.droppedRequest host)) ∧
      (up → ¬good → exec (.deltaUpdate host bs) s = .next refused) ∧
      (up → good → k.deltas = [] → k.cursor = .ring → k.stopped = false →
        (atOrPast k.head k.k = false → exec (.deltaUpdate host bs) s = .next (s.modQueue q fun _ => waits)) ∧
        (atOrPast k.head k.k = true → exec (.deltaUpdate host bs) s = .next (s.modQueue q fun k => k.applyDelta bs)))) ∧
    (bitsN h 7 0 = 1 → k.deltas = [] → k.cursor = .ring → k.stopped = false →
      (¬up → exec (.deltaDispatch host bs) s = .next (s.count Count.droppedRequest host)) ∧
      (up → ¬good → exec (.deltaDispatch host bs) s = .next refused) ∧
      (up → good → let t := s.modQueue q fun _ => waits
        (atOrPast k.head k.k = false → exec (.deltaDispatch host bs) s = .next t) ∧
        (atOrPast k.head k.k = true → exec (.deltaDispatch host bs) s = exec (.clLaunch q) t))) ∧
    (∀ j r, (maskBits (deltaMask h))[j]? = some r → (Tab.get 0 (k.applyDelta bs).shadow r : Word) = wordAt bs (8 + 8 * j)) ∧
    ∀ r, r ∉ maskBits (deltaMask h) → (Tab.get 0 (k.applyDelta bs).shadow r : Word) = Tab.get 0 k.shadow r) ∧
  -- the status record, and the budget period
  (∀ (s : State) (q : Nat),
    let k := s.queue q
    let due := k.dirty = true ∨ (k.issued = true ∧ k.wrote + 25000 ≤ s.cycle)
    (¬due → exec (.statusRecordWrite q) s = .next s) ∧
    (due → ∀ r v, s.unitWrite (s.partDie k.part) (s.partSpace k.part) k.status k.record false (some (unitRelease 9)) = (r, v) →
      r ≠ .ask →
      ∃ (t : State), exec (.statusRecordWrite q) s = .next t ∧ t = { v with queues := t.queues } ∧
        (t.queue q).dirty = false ∧ (t.queue q).wrote = s.cycle) ∧
    k.record.length = 64 ∧ fieldAt k.record 0 4 = k.k.toNat ∧ fieldAt k.record 4 4 = k.head.toNat ∧
    fieldAt k.record 8 1 = (if k.enabled = false then 2 else if k.stopped = true then 1 else 0) ∧
    fieldAt k.record 9 1 = k.cause % 256 ∧ fieldAt k.record 12 4 = k.stopAt.toNat ∧
    fieldAt k.record 16 8 = k.ignored.toNat ∧ fieldAt k.record 24 8 = k.rejected.toNat) ∧
  ∀ s : State, (s.cycle < s.period + 25000 → exec .budgetPeriod s = .next s) ∧
    (s.period + 25000 ≤ s.cycle →
      let new := s.budgets.filterMap fun (r : BudgetRow) =>
        if r.implied then (s.remainder r.activity r.consumer).map fun n => { r with left := n } else some { r with left := s.grant r }
      let u : State := { s with period := s.cycle / 25000 * 25000, budgets := new }
      ∃ (t : State), exec .budgetPeriod s = .next t ∧ t = { u with budgets := t.budgets, outbox := t.outbox } ∧
        ((∀ o, o ∈ s.outbox → o.sent = true) → t = u) ∧ ∀ r : BudgetRow, r.activity ≠ 2 → (r ∈ t.budgets ↔ r ∈ new))

/-- O57: A walk ends in a leaf that its waiters' tables get, in a fault that they take, in a bad line, or in a
question to the shared agent. An answer fills the tables, one without a leaf, a refusal or a silence of 50,000 cycles
faults; a stale answer, or a leaf that an invalidation in progress meets, is discarded. An invalidation empties the
tables, waits for the accesses under way, is acknowledged, and stale questions are asked again. That a refusal holds
for units for 50,000 cycles (log 48) and what answers and leaves are taken for (logs 54 and 69) are the model's
choices. Rests on R65, R66, R67, R68, R69, R238. -/
def Obligations.TranslationAgents : Prop :=
  let woken := fun (s t : State) (waiters : List (Nat × Nat)) (e : Option (Nat × BitVec 8)) =>
    ∀ w, w ∈ waiters → (s.ctx w.1 w.2).wait = .walk → (t.ctx w.1 w.2).wait = .none ∧ (t.ctx w.1 w.2).walkErr = e
  let filled := fun (t : State) (die : Nat) (waiters : List (Nat × Nat)) (x : Trans) => x ∈ (t.die die).cache ∧
    ∀ w, w ∈ waiters → x ∈ (t.core w.1).micro ∧ x ∈ (t.cluster (clusterOf w.1)).cache
  (∀ (s : State) (die : Nat),
    ((∀ w, w ∈ (s.die die).walks → s.invalidating w.space w.va = true) → exec (.translationWalk die) s = .next s) ∧
    ∀ before w after, (s.die die).walks = before ++ w :: after → (∀ x, x ∈ before → s.invalidating x.space x.va = true) →
      s.invalidating w.space w.va = false →
      ∃ (t : State), exec (.translationWalk die) s = .next t ∧
        let ends := (t.die die).walks = before ++ after
        let waits := (t.die die).walks = before ++ after ++ [w] ∧ ∀ c x, t.ctx c x = s.ctx c x
        match (s.walk die w.space w.va).1 with
        | .leaf x => if s.overtaken x then waits else ends ∧ filled t die w.waiters x ∧ woken s t w.waiters none
        | .fault sub => ends ∧ woken s t w.waiters (some (w.va / 4096, sub))
        | .bad line => ends ∧ woken s t w.waiters (some (w.va / 4096, 3)) ∧
            ((s.die die).bad.length < 256 → line ∈ (t.die die).bad)
        | .shared => ends ∧ (∀ c x, t.ctx c x = s.ctx c x) ∧
          ∃ r, r ∈ t.stas ∧ r.space = w.space ∧ (r.va = w.va ∨ r.va = w.va / 4096 * 4096) ∧ r.refused = false
        | .peer _ => waits
        | .busy => waits) ∧
  (∀ (s : State) (tag : Nat) (leaf : Word) (level : Nat),
    ((∀ r, r ∈ s.stas → r.tag = tag → r.stale = true ∨ r.refused = true) → exec (.staAnswer tag leaf level) s = .next s ∧
      exec (.staRefusal tag) s = .next s) ∧
    ∀ before r after, s.stas = before ++ r :: after → (∀ x, x ∈ before → x.tag ≠ tag) → r.tag = tag → r.refused = false →
      let faulted := fun (t : State) => woken s t r.waiters (some (r.va / 4096, 4)) ∧
        (r.waiters ≠ [] → t.stas = before ++ after) ∧
        (r.waiters = [] → t.stas = before ++ after ++ [{ r with refused := true, since := s.cycle }])
      (r.stale = false →
        (∃ (t : State), exec (.staAnswer tag leaf level) s = .next t ∧
          if pteOk leaf && pteLeaf leaf && 1 ≤ level && level ≤ 3 then
            if s.overtaken (leafTrans r.space r.va level leaf) then t = { s with stas := before ++ after ++ [{ r with stale := true }] }
            else t.stas = before ++ after ∧
              filled t r.die r.waiters (leafTrans r.space r.va level leaf) ∧ woken s t r.waiters none
          else t.stas = before ++ after ∧ woken s t r.waiters (some (r.va / 4096, 1))) ∧
        ∃ (t : State), exec (.staRefusal tag) s = .next t ∧ faulted t) ∧
      (r.since + 50000 ≤ s.cycle → ∃ (t : State), exec (.staTimeout tag) s = .next t ∧ faulted t)) ∧
  (∀ (s : State) (tag : Nat), (∀ r, r ∈ s.stas → r.tag = tag → r.refused = true ∨ s.cycle < r.since + 50000) →
    exec (.staTimeout tag) s = .next s) ∧
  (∀ (s : State) (seq odi : Nat) (range : Option (Nat × Nat)), ∃ (t : State),
    exec (.staInvalidate seq odi range) s = .next t ∧
    (∃ i, t.invs = s.invs ++ [i] ∧ i.id = s.nextNum ∧ i.odi = odi ∧ i.range = range ∧ i.asked = .agent seq ∧
      (∀ n, n ∈ i.waits → ∃ p e, p ∈ s.net ++ s.heldPackets ∧ p.odi = odi ∧ p.pa ≠ none ∧ e ∈ p.numbers ∧ e.2 = n) ∧
      ∀ p e, p ∈ s.net ++ s.heldPackets → p.odi = odi → p.pa ≠ none → e ∈ p.numbers →
        let va := bitsN p.loc 56 0
        (meetsRange va 4096 range = true ∨ ∃ c x, x ∈ (s.core c).micro ∧ x.dropped odi range = true ∧ x.va ≤ va ∧
          va < x.va + x.size) → e.2 ∈ i.waits) ∧
    (∀ c x, x ∈ (t.core c).micro ↔ x ∈ (s.core c).micro ∧ ¬(x.space % 16 = odi ∧ meetsRange x.va x.size range = true)) ∧
    (∀ n x, x ∈ (t.cluster n).cache ↔ x ∈ (s.cluster n).cache ∧ ¬(x.space % 16 = odi ∧ meetsRange x.va x.size range = true)) ∧
    (∀ n x, x ∈ (t.die n).cache ↔ x ∈ (s.die n).cache ∧ ¬(x.space % 16 = odi ∧ meetsRange x.va x.size range = true)) ∧
    ∀ r, r ∈ t.stas → r.space % 16 = odi → meetsRange r.va 4096 range = true → r.stale = true) ∧
  ∀ (s : State) (id : Nat),
    ((∀ i, i ∈ s.invs → i.id ≠ id) → exec (.invalidationComplete id) s = .next s) ∧
    ∀ before i after, s.invs = before ++ i :: after → (∀ x, x ∈ before → x.id ≠ id) → i.id = id →
      let pending := ∃ p e, p ∈ s.net ++ s.heldPackets ∧ e ∈ p.numbers ∧ e.2 ∈ i.waits
      (pending → exec (.invalidationComplete id) s = .next s) ∧
      (¬pending → ∃ (t : State), exec (.invalidationComplete id) s = .next t ∧
        t.invs = before ++ after ∧
        (∀ seq, i.asked = .agent seq → ∃ o, o ∈ t.outbox ∧ o.dst = .peer s.firmware.agent ∧
          o.body = .staAck seq) ∧
        (∀ d cls n fields, i.asked = .host d cls n fields → (∀ j, j ∈ before ++ after → j.asked ≠ i.asked) →
          ∃ o, o ∈ t.outbox ∧ o.dst = d ∧ o.body = .tlv (outField 0x001 (leBytes 1 cls) :: fields)) ∧
        (∀ r, r ∈ s.stas → r.stale = false → r ∈ t.stas) ∧
        ∀ r, r ∈ s.stas → r.stale = true → i.covers r.space r.va = true →
          (∀ x, x ∈ before ++ after → x.covers r.space r.va = false) →
          ∃ tag o, { r with tag := tag, stale := false, since := s.cycle } ∈ t.stas ∧ o ∈ t.outbox ∧ o.dst = .peer s.firmware.agent ∧
            o.body = .staRequest tag (r.space % 16) r.va r.kind)

/-- O58: A peer's request is performed under its domain and completed; an isolated peer's, or one that the device does
not perform, has an error completion. A completion answers its request or is counted, and the peer has been heard. A
peer silent for 50,000 cycles is isolated and its packets end. A core whose watchdog expires loses its role to a
spare, with a crash record. A reset restarts all but flash; a warm one keeps DRAM and the crash region. A supplied
table is applied. Poisoned zeros for an error (log 33), agent numbers (log 59), and the notice, the spare chosen and
what a reset keeps (log 52) are the model's choices. Rests on R224, R226, R229, R236, R237, R239, R240, R243, R245,
R246, R247. -/
def Obligations.PodAndResets : Prop :=
  (∀ (s : State) (r : PeerReq),
    let q := s.peerActs (s.peer r.peer).odi (peerRank r.peer) (reqRelease r) (reqActs r)
    let served := fun (a : Nat × Act) => s.portFree (.channel (channelOf a.1)) (peerRank r.peer)
    let ends := fun (u t : State) (data : List Byte) (poison error : Bool) (rel : Option (Release × Bool)) =>
      (r.posted = true ∧ t = u) ∨ (r.posted = false ∧ ∃ o, t = { u with outbox := u.outbox ++ [o], nextNum := u.nextNum + 1, replay := t.replay } ∧
        (∀ x, x ∈ t.replay → x ∈ u.replay ∨ (x.link = 16 + r.peer % 8 ∧ x.kind = .completion ∧ x.packet = u.nextNum)) ∧ o.dst = .peer r.peer ∧ o.body = .completion data poison error rel)
    ((s.peer r.peer).isolated = true ∨ reqOk r = false → ∃ (t : State), exec (.peerRequest r) s = .next t ∧ ends s t [] false true none) ∧
    ((s.peer r.peer).isolated = false → reqOk r = true →
      ((∃ a, a ∈ reqActs r ∧ served a = false) → exec (.peerRequest r) s = .next s) ∧
      ((∀ a, a ∈ reqActs r → served a = true) → ∃ (t : State),
        exec (.peerRequest r) s = .next t ∧ match r.op with
          | .write _ => ends q.1 t [] false false none
          | _ => ends q.1 t q.2.1 q.2.2.1 false (s.reqCheck r q.2.2.2))) ∧
    (∀ data, r.op = .write data → r.pa % 64 + data.length ≤ 64 → data ≠ [] → reqActs r = [(r.pa, .write data [])]) ∧
    ∀ n, r.op = .read n → r.pa % 64 + n ≤ 64 → 0 < n → reqActs r = [(r.pa, .read n)]) ∧
  (∀ (s : State) (id : Nat),
    (∀ n, ∃ (t : State), exec (.peerCompletion id (.credit n)) s = .next t ∧ t = { s with peers := t.peers } ∧
      t.peer n = { s.peer n with heard := s.cycle } ∧ ∀ m, m ≠ n → t.peer m = s.peer m) ∧
    (∀ n, (∀ p, p ∈ s.net → p.id = id → p.home ≠ .peer n) →
      let late := (s.modPeer n fun r => { r with heard := s.cycle }).count Count.lateCompletion 0
      exec (.peerCompletion id (.error n)) s = .next late ∧
      ∀ data poison release, exec (.peerCompletion id (.data n data poison release)) s = .next late) ∧
    ∀ before p after n, s.net = before ++ p :: after → (∀ x, x ∈ before → x.id = id → x.home ≠ .peer n) → p.id = id →
      p.home = .peer n →
      let completes := fun (a : PeerAnswer) (how : Answer) (data : List Byte) (poison : Bool) (rel : Option (Release × Bool)) =>
        ∃ (t : State), exec (.peerCompletion id a) s = .next t ∧ t.net = s.net.filter (fun x => x.id != id) ∧
          (t.peer n).heard = s.cycle ∧ ∃ y, t.replies = s.replies ++ [y] ∧ y.packet = p ∧ y.answer = how ∧ y.poison = poison ∧
            y.data = data ∧ y.release = rel
      (∀ data poison release, completes (.data n data poison release) .done
        (if p.op = none then [] else (data ++ List.replicate p.act.size 0).take p.act.size) poison
        (release.map fun (r : Nat × BitVec 4 × Bool) =>
          ({ core := r.1, ctx := 0, isEngine := false, scope := r.2.1 }, r.2.2))) ∧
      completes (.error n) .dropped (if p.op = none then [] else List.replicate p.act.size 0) true none) ∧
  (∀ (s : State) (n : Nat),
    let due := (∃ p, p ∈ s.net ∧ p.home = .peer n) ∧ (s.peer n).isolated = false ∧ (s.peer n).heard + 50000 ≤ s.cycle
    (¬due → exec (.peerIsolation n) s = .next s) ∧
    (due → ∃ (t : State), exec (.peerIsolation n) s = .next t ∧ (t.peer n).isolated = true ∧
      (∀ p, p ∈ t.net → p ∈ s.net ∧ p.home ≠ .peer n) ∧
      (∀ p, p ∈ s.net → p.home = .peer n → p.op ≠ none → ∃ y, y ∈ t.replies ∧ y.packet = p ∧ y.answer = .lost ∧
        y.poison = true ∧ y.data = List.replicate p.act.size 0) ∧
      (∀ p, p ∈ s.net → p.home = .peer n → p.op = none → ∃ y, y ∈ t.replies ∧ y.packet = p ∧ y.answer = .dropped) ∧
      ∀ p, p ∈ s.net → p.home = .peer n → p.core < Config.coreCount → ∃ m, m ∈ t.msgs ∧ m.dst = p.core ∧
        m.msg.w0 = BitVec.ofNat 64 (2 + 3 * 2 ^ 28) ∧ m.msg.w1 = BitVec.ofNat 64 n)) ∧
  (∀ (s : State) (c : Nat),
    let f := s.firmware
    let r := f.role c
    let held := s.inColumn c = true ∧ r ≠ 0
    let stack := s.channelParked (crashAt f.crashNext) = false
    let due := held ∧ stack ∧ Tab.get 0 f.dogs c + f.column.watchdog ≤ s.cycle
    let fails := fun (what : RoleEvent) (u : State) (cause : Nat) => ∃ (t : State), exec (.watchdogExpiry ⟨c, what⟩) s = .next t ∧
      let g := t.firmware
      g.role c = 0 ∧ (∀ spare rest, r ≠ 7 → (f.withRole 7).filter (· != c) = spare :: rest → g.role spare = r) ∧
      (s.dram.wf = true → (Tab.get [] f.headers c).length ≤ 16 → (u.crashRecord c cause).length = 4096 ∧
        t.dram.read (crashAt f.crashNext) 4096 = u.crashRecord c cause) ∧ g.crashNext = (f.crashNext + 1) % 256 ∧
      g.crashSeq = f.crashSeq + 1 ∧ (r ≠ 7 → g.withRole r = [] → g.service = false) ∧
      ∀ h, h ∈ s.hostsToTell → ∃ o fields, o ∈ t.outbox ∧ o.dst = .host h ∧ o.body = .tlv fields ∧
        outField 0x041 (leBytes 1 r ++ leBytes 2 c ++ leBytes 1 f.crashNext) ∈ fields
    (¬due → exec (.watchdogExpiry ⟨c, .expired⟩) s = .next s) ∧ (due → fails .expired s 0xFF) ∧
    (∀ cause pc value, (¬(held ∧ stack) → exec (.watchdogExpiry ⟨c, .trapped cause pc value⟩) s = .next s) ∧
      (held ∧ stack → fails (.trapped cause pc value)
        (s.modCore c fun k => { k with tcause := cause, tpc := pc, tval := value }) cause.toNat)) ∧
    (¬held → exec (.watchdogExpiry ⟨c, .restarted⟩) s = .next s) ∧
    (held → exec (.watchdogExpiry ⟨c, .restarted⟩) s =
      .next { s with firmware := { f with dogs := Tab.set 0 f.dogs c s.cycle } })) ∧
  (∀ s : State,
    let restarted := fun (t : State) => t.cycle = 0 ∧ t.queues = [] ∧ t.launches = [] ∧ t.net = [] ∧ t.msgs = [] ∧
      t.parts = [] ∧ t.stas = [] ∧ t.invs = [] ∧ t.outbox = [] ∧ (∀ c, (t.core c).ctxs = [] ∧ (t.core c).store = {}) ∧
      t.firmware.boot = s.firmware.boot + 1 ∧ t.firmware.fences = s.firmware.fences ∧ t.firmware.flash = s.firmware.flash ∧
      t.firmware.handOver = .none ∧ t.firmware.image = [] ∧ t.firmware.running = s.firmware.running ∧
      t.firmware.roles = [] ∧ t.firmware.counters = [] ∧
      t.firmware.service = (t.firmware.columnOk && t.firmware.fencesOk) ∧
      (t.firmware.columnOk = true → t.firmware.column = s.firmware.flash ∧ columnValid s.firmware.flash = true) ∧
      (t.firmware.fencesOk = true → ∀ e, e ∈ s.firmware.fences →
        (∀ n, n < 28 → e.classes.getLsbD n = true → (t.core e.core).cap.getLsbD n = false) ∧
        (e.killed = true → (t.core e.core).killed = true ∧ (t.core e.core).cap = 0))
    (∃ (t : State), exec .powerOnReset s = .next t ∧ restarted t ∧ t.dram = [] ∧ t.owners = [] ∧ t.firmware.crashNext = 0) ∧
    ∃ (t : State), exec .warmReset s = .next t ∧ restarted t ∧ t.dram = s.dram ∧ t.dramBad = s.dramBad ∧
      t.owners = s.owners ∧ t.firmware.crashNext = s.firmware.crashNext ∧
      t.firmware.crashSeq = s.firmware.crashSeq) ∧
  ∀ (s : State) (signed : Bool),
    (∀ entries : List FenceEntry,
      let due := signed = true ∧ entries.length ≤ 8192 ∧ (∀ e, e ∈ entries → e.core < Config.coreCount) ∧
        s.firmware.fencesOk = false
      (¬due → exec (.hostTableSupply (.fences entries signed)) s = .next s) ∧
      (due → ∃ (t : State), exec (.hostTableSupply (.fences entries signed)) s = .next t ∧
        let f := { s.firmware with fences := entries, fencesOk := true, service := s.firmware.columnOk }
        t.firmware = f ∧ t.dram = s.dram ∧
        ((∀ e, e ∈ entries → e.killed = true → (s.core e.core).part = none) → t = { s with cores := t.cores, firmware := f }) ∧
        ∀ e, e ∈ entries → (e.killed = true → (s.core e.core).part ≠ none → (t.core e.core).task = none) ∧ (∀ n, n < 28 → e.classes.getLsbD n = true → (t.core e.core).cap.getLsbD n = false) ∧
          (e.killed = true → (t.core e.core).killed = true ∧ (t.core e.core).cap = 0))) ∧
    ∀ table : ColumnTable,
      let due := signed = true ∧ columnValid table = true ∧ (s.firmware.columnOk = false ∨ s.firmware.service = false)
      (¬due → exec (.hostTableSupply (.column table signed)) s = .next s) ∧
      (due → ∃ (t : State), exec (.hostTableSupply (.column table signed)) s = .next t ∧
        let f := s.firmware
        let g := { f with column := table, flash := table, columnOk := true, roles := [], service := f.fencesOk }
        t = { s with firmware := g })

/-- O59: The reset state has every memory in its canonical form and empty: every byte of DRAM, of local memories and
of scratchpads reads 0 (the model's choice, log 1). No core is assigned to a partition and no context is live, no
partition, queue, launch or translation exists, and nothing is on its way. The registers' zeros are the model's choice
(log 2). Rests on R246, R226, R72, R65. -/
def Obligations.ResetState : Prop :=
  let s := State.reset
  s.memoriesOk = true ∧ (∀ a, s.dram.byte a = 0) ∧ (∀ c a, (s.core c).store.bytes.byte a = 0) ∧
    (∀ n a, (s.cluster n).store.bytes.byte a = 0) ∧
    (∀ c, (s.core c).part = none ∧ (s.core c).killed = false ∧ (s.core c).task = none ∧ (s.core c).handler = false ∧
      (s.core c).cap = BitVec.allOnes 64 ∧ ∀ x, (s.ctx c x).live = false ∧ (s.ctx c x).pc = 0) ∧
    (∀ n, s.part n = none) ∧ (∀ q, (s.queue q).enabled = false ∧ (s.queue q).k = 0) ∧ s.launches = [] ∧ s.net = [] ∧
    s.msgs = [] ∧ s.outbox = [] ∧ s.stas = [] ∧ s.firmware.service = true ∧ s.firmware.fences = []

/-- O60: From any state in which DRAM, every local memory and scratchpad, what pre-emption saved, the incoming image,
the poison marks and the release records are in their canonical form (addresses strictly rising, no entry equal to
what an unlisted one reads as), a step of whatever kind (an instruction, or any event of a unit, of a host or of the
pod) that answers a next state answers one in which they are too. The form is the model's own (log 1). Rests on R53,
R54, R55, R62, R74, R213, R245. -/
def Obligations.StepKeepsMemories : Prop :=
  ∀ s t : State, s.memoriesOk = true → Sys2Proof.Machine.step s = .next t → t.memoriesOk = true
end

