-- ==== Sys2Proof/Laws/Tab.lean ====
section
/-! SUPPORT. Laws of sparse tables and of memory: what is read after a write, and that every operation keeps the
canonical form. -/
namespace Sys2Proof.Machine

theorem Tab.get_put_self {α : Type} (d : α) (t : Tab α) (k : Nat) (v : α) : Tab.get d (Tab.put t k v) k = v := by
  induction t with
  | nil => simp [Tab.put, Tab.get]
  | cons e t ih =>
    obtain ⟨n, w⟩ := e
    by_cases h : k < n
    · simp [Tab.put, Tab.get, h]
    · by_cases h' : k = n
      · simp [Tab.put, Tab.get, h']
      · simp [Tab.put, Tab.get, h, h', ih]

theorem Tab.get_put_ne {α : Type} (d : α) (t : Tab α) (k j : Nat) (v : α) (h : j ≠ k) :
    Tab.get d (Tab.put t k v) j = Tab.get d t j := by
  induction t with
  | nil =>
    by_cases h' : j < k
    · simp [Tab.put, Tab.get, h, h']
    · simp [Tab.put, Tab.get, h, h']
  | cons e t ih =>
    obtain ⟨n, w⟩ := e
    by_cases h1 : k < n
    · by_cases h2 : j < k
      · have : j ≠ n := by omega
        have : j < n := by omega
        simp [Tab.put, Tab.get, *]
      · simp [Tab.put, Tab.get, h1, h, h2]
    · by_cases h2 : k = n
      · subst h2
        by_cases h3 : j < k <;> simp [Tab.put, Tab.get, h, h3]
      · simp [Tab.put, Tab.get, h1, h2, ih]

theorem Tab.get_put {α : Type} (d : α) (t : Tab α) (k j : Nat) (v : α) :
    Tab.get d (Tab.put t k v) j = if j = k then v else Tab.get d t j := by
  by_cases h : j = k
  · subst h; simp [Tab.get_put_self]
  · simp [h, Tab.get_put_ne]

/-! ### Numbers rise -/

theorem Tab.rising_weaken {α : Type} {b c : Nat} {t : Tab α} (h : c ≤ b) (r : Tab.rising b t = true) :
    Tab.rising c t = true := by
  cases t with
  | nil => rfl
  | cons e t =>
    obtain ⟨n, w⟩ := e
    simp [Tab.rising] at r ⊢
    exact ⟨by omega, r.2⟩

theorem Tab.get_below {α : Type} (d : α) {b k : Nat} {t : Tab α} (r : Tab.rising b t = true) (h : k < b) :
    Tab.get d t k = d := by
  cases t with
  | nil => rfl
  | cons e t =>
    obtain ⟨n, w⟩ := e
    simp [Tab.rising] at r
    have h1 : k ≠ n := by omega
    have h2 : k < n := by omega
    simp [Tab.get, h1, h2]

theorem Tab.rising_put {α : Type} {b k : Nat} {t : Tab α} (v : α) (r : Tab.rising b t = true) (h : b ≤ k) :
    Tab.rising b (Tab.put t k v) = true := by
  induction t generalizing b with
  | nil => simp [Tab.put, Tab.rising, h]
  | cons e t ih =>
    obtain ⟨n, w⟩ := e
    simp [Tab.rising] at r
    by_cases h1 : k < n
    · have h2 : k + 1 ≤ n := by omega
      simp [Tab.put, Tab.rising, h, h1, h2, r.2]
    · by_cases h2 : k = n
      · subst h2; simp [Tab.put, Tab.rising, r.1, r.2]
      · simp [Tab.put, Tab.rising, h1, h2, r.1]
        exact ih r.2 (by omega)

theorem Tab.above_of_rising {α : Type} {b k : Nat} {t : Tab α} (r : Tab.rising b t = true) (h : k < b) :
    Tab.above k t = t := by
  cases t with
  | nil => rfl
  | cons e t =>
    obtain ⟨n, w⟩ := e
    simp [Tab.rising] at r
    have : k < n := by omega
    simp [Tab.above, this]

theorem Tab.rising_erase {α : Type} {b : Nat} (k : Nat) {t : Tab α} (r : Tab.rising b t = true) :
    Tab.rising b (Tab.erase t k) = true := by
  induction t generalizing b with
  | nil => rfl
  | cons e t ih =>
    obtain ⟨n, w⟩ := e
    simp [Tab.rising] at r
    by_cases h1 : k < n
    · simp [Tab.erase, Tab.rising, h1, r.1, r.2]
    · by_cases h2 : k = n
      · subst h2
        simp [Tab.erase]
        rw [Tab.above_of_rising r.2 (by omega)]
        exact Tab.rising_weaken (by omega) r.2
      · simp [Tab.erase, Tab.rising, h1, h2, r.1]
        exact ih r.2

theorem Tab.get_erase_self {α : Type} (d : α) {b k : Nat} {t : Tab α} (r : Tab.rising b t = true) :
    Tab.get d (Tab.erase t k) k = d := by
  induction t generalizing b with
  | nil => rfl
  | cons e t ih =>
    obtain ⟨n, w⟩ := e
    simp [Tab.rising] at r
    by_cases h1 : k < n
    · have : k ≠ n := by omega
      simp [Tab.erase, Tab.get, h1, this]
    · by_cases h2 : k = n
      · subst h2
        simp [Tab.erase]
        rw [Tab.above_of_rising r.2 (by omega)]
        exact Tab.get_below d r.2 (by omega)
      · simp [Tab.erase, Tab.get, h1, h2]
        exact ih r.2

theorem Tab.get_erase_ne {α : Type} (d : α) {b k j : Nat} {t : Tab α} (r : Tab.rising b t = true) (h : j ≠ k) :
    Tab.get d (Tab.erase t k) j = Tab.get d t j := by
  induction t generalizing b with
  | nil => rfl
  | cons e t ih =>
    obtain ⟨n, w⟩ := e
    simp [Tab.rising] at r
    by_cases h1 : k < n
    · simp [Tab.erase, h1]
    · by_cases h2 : k = n
      · subst h2
        simp [Tab.erase]
        rw [Tab.above_of_rising r.2 (by omega)]
        by_cases h3 : j < k
        · simp [Tab.get, h, h3]
          exact Tab.get_below d r.2 (by omega)
        · simp [Tab.get, h, h3]
      · simp [Tab.erase, Tab.get, h1, h2, ih r.2]

theorem Tab.rising_set {α : Type} [DecidableEq α] (d : α) {b k : Nat} {t : Tab α} (v : α) (r : Tab.rising b t = true)
    (h : b ≤ k) : Tab.rising b (Tab.set d t k v) = true := by
  unfold Tab.set
  split
  · exact Tab.rising_erase k r
  · exact Tab.rising_put v r h

theorem Tab.get_set {α : Type} [DecidableEq α] (d : α) {b : Nat} {t : Tab α} (k j : Nat) (v : α)
    (r : Tab.rising b t = true) : Tab.get d (Tab.set d t k v) j = if j = k then v else Tab.get d t j := by
  unfold Tab.set
  by_cases h : j = k
  · subst h
    by_cases hv : v = d
    · simp [hv, Tab.get_erase_self d r]
    · simp [hv, Tab.get_put_self]
  · by_cases hv : v = d
    · simp [hv, h, Tab.get_erase_ne d r]
    · simp [hv, h, Tab.get_put_ne]

/-! ### Entries that satisfy a property -/

theorem Tab.all_put {α : Type} {p : Nat × α → Bool} {t : Tab α} (k : Nat) (v : α) (h : t.all p = true)
    (hv : p (k, v) = true) : (Tab.put t k v).all p = true := by
  induction t with
  | nil => simp [Tab.put, hv]
  | cons e t ih =>
    obtain ⟨n, w⟩ := e
    simp [List.all_cons] at h
    by_cases h1 : k < n
    · simp [Tab.put, h1, hv, h.1]; exact h.2
    · by_cases h2 : k = n
      · subst h2; simp [Tab.put, hv]; exact h.2
      · have := ih (by simpa using h.2)
        simp [Tab.put, h1, h2, h.1]
        simpa using this

theorem Tab.all_above {α : Type} {p : Nat × α → Bool} {t : Tab α} (k : Nat) (h : t.all p = true) :
    (Tab.above k t).all p = true := by
  induction t with
  | nil => rfl
  | cons e t ih =>
    obtain ⟨n, w⟩ := e
    simp [List.all_cons] at h
    by_cases h1 : k < n
    · simp [Tab.above, h1, h.1]; exact h.2
    · simp only [Tab.above, h1]; exact ih (by simpa using h.2)

theorem Tab.all_erase {α : Type} {p : Nat × α → Bool} {t : Tab α} (k : Nat) (h : t.all p = true) :
    (Tab.erase t k).all p = true := by
  induction t with
  | nil => rfl
  | cons e t ih =>
    obtain ⟨n, w⟩ := e
    simp [List.all_cons] at h
    by_cases h1 : k < n
    · simp [Tab.erase, h1, h.1]; exact h.2
    · by_cases h2 : k = n
      · subst h2
        have := Tab.all_above (p := p) (t := t) k (by simpa using h.2)
        simpa [Tab.erase] using this
      · have := ih (by simpa using h.2)
        simp [Tab.erase, h1, h2, h.1]
        simpa using this

/-- What an entry read from a table satisfies. -/
theorem Tab.all_get {α : Type} {p : α → Bool} {t : Tab α} (d : α) (k : Nat) (h : (t.all fun e => p e.2) = true)
    (hd : p d = true) : p (Tab.get d t k) = true := by
  induction t with
  | nil => exact hd
  | cons e t ih =>
    obtain ⟨n, w⟩ := e
    simp [List.all_cons] at h
    by_cases h1 : k = n
    · simp [Tab.get, h1, h.1]
    · by_cases h2 : k < n
      · simp [Tab.get, h1, h2, hd]
      · simp only [Tab.get, h1, h2, if_false]
        exact ih (by simpa using h.2)

/-! ### Memory -/

theorem Memory.wf_nil : Memory.wf [] = true := rfl

theorem Memory.wf_setByte {m : Memory} (a : Nat) (b : Byte) (h : m.wf = true) : (m.setByte a b).wf = true := by
  simp only [Memory.wf, Bool.and_eq_true] at h ⊢
  obtain ⟨r, z⟩ := h
  refine ⟨Tab.rising_set (0 : Byte) b r (by omega), ?_⟩
  unfold Memory.setByte Tab.set
  split
  · exact Tab.all_erase a z
  · next hb => exact Tab.all_put a b z (by simpa using hb)

/-- A read after a write of a byte. -/
theorem Memory.byte_setByte {m : Memory} (a x : Nat) (b : Byte) (h : m.wf = true) :
    (m.setByte a b).byte x = if x = a then b else m.byte x := by
  simp only [Memory.wf, Bool.and_eq_true] at h
  exact Tab.get_set (0 : Byte) a x b h.1

theorem Memory.wf_write {m : Memory} (a : Nat) (bs : List Byte) (h : m.wf = true) : (m.write a bs).wf = true := by
  induction bs generalizing m a with
  | nil => exact h
  | cons b bs ih => exact ih (a + 1) (Memory.wf_setByte a b h)

theorem Memory.byte_write_below {m : Memory} (a x : Nat) (bs : List Byte) (h : m.wf = true) (hx : x < a) :
    (m.write a bs).byte x = m.byte x := by
  induction bs generalizing m a with
  | nil => rfl
  | cons b bs ih =>
    rw [Memory.write, ih (a + 1) (Memory.wf_setByte a b h) (by omega), Memory.byte_setByte a x b h]
    have : x ≠ a := by omega
    simp [this]

theorem Memory.byte_write_above {m : Memory} (a x : Nat) (bs : List Byte) (h : m.wf = true) (hx : a + bs.length ≤ x) :
    (m.write a bs).byte x = m.byte x := by
  induction bs generalizing m a with
  | nil => rfl
  | cons b bs ih =>
    simp only [List.length_cons] at hx
    rw [Memory.write, ih (a + 1) (Memory.wf_setByte a b h) (by omega), Memory.byte_setByte a x b h]
    have : x ≠ a := by omega
    simp [this]

/-- What was written is read. -/
theorem Memory.read_write {m : Memory} (a : Nat) (bs : List Byte) (h : m.wf = true) :
    (m.write a bs).read a bs.length = bs := by
  induction bs generalizing m a with
  | nil => rfl
  | cons b bs ih =>
    simp only [List.length_cons, Memory.read, Memory.write]
    rw [ih (a + 1) (Memory.wf_setByte a b h),
      Memory.byte_write_below (a + 1) a bs (Memory.wf_setByte a b h) (by omega), Memory.byte_setByte a a b h]
    simp

/-- Dropping entries keeps the form. -/
theorem Memory.wf_filter {m : Memory} (p : Host.Cell → Bool) (h : m.wf = true) :
    Memory.wf (m.filter p : List Host.Cell) = true := by
  have rise : ∀ (b : Nat) (t : List Host.Cell), Tab.rising b t = true → Tab.rising b (t.filter p) = true := by
    intro b t
    induction t generalizing b with
    | nil => intro _; rfl
    | cons e t ih =>
      obtain ⟨n, w⟩ := e
      intro r
      simp [Tab.rising] at r
      by_cases hp : p (n, w)
      · simp [hp, Tab.rising, r.1, ih _ r.2]
      · simp [hp]
        exact Tab.rising_weaken (by omega) (ih _ r.2)
  simp only [Memory.wf, Bool.and_eq_true] at h ⊢
  refine ⟨rise 0 m h.1, ?_⟩
  have z := h.2
  simp only [List.all_eq_true] at z ⊢
  intro x hx
  exact z x (List.mem_filter.mp hx).1

theorem Tab.rising_append {α : Type} {b c : Nat} {s t : Tab α} (hs : Tab.rising b s = true) (below : ∀ e, e ∈ s → e.1 < c)
    (ht : Tab.rising c t = true) (h : b ≤ c) : Tab.rising b (s ++ t) = true := by
  induction s generalizing b with
  | nil => exact Tab.rising_weaken h ht
  | cons e s ih =>
    obtain ⟨k, v⟩ := e
    simp only [List.cons_append, Tab.rising, Bool.and_eq_true, decide_eq_true_eq] at hs ⊢
    exact ⟨hs.1, ih hs.2 (fun e he => below e (List.mem_cons_of_mem _ he)) (below (k, v) (List.mem_cons_self ..))⟩

/-- Above every number of the first part only the second counts. -/
theorem Tab.get_append_above {α : Type} (d : α) {k : Nat} {s t : Tab α} (h : ∀ e, e ∈ s → e.1 < k) :
    Tab.get d (s ++ t) k = Tab.get d t k := by
  induction s with
  | nil => rfl
  | cons e s ih =>
    have he := h e (List.mem_cons_self ..)
    simp only [List.cons_append, Tab.get]
    rw [if_neg (by omega), if_neg (by omega)]
    exact ih fun e he => h e (List.mem_cons_of_mem _ he)

/-- Below every number of the second part only the first counts. -/
theorem Tab.get_append_below {α : Type} (d : α) {k c : Nat} {s t : Tab α} (ht : Tab.rising c t = true) (h : k < c) :
    Tab.get d (s ++ t) k = Tab.get d s k := by
  induction s with
  | nil => exact Tab.get_below d ht h
  | cons e s ih => simp only [List.cons_append, Tab.get, ih]

theorem Tab.rising_filter_ge {α : Type} {b : Nat} (c : Nat) {t : Tab α} (r : Tab.rising b t = true) :
    Tab.rising c (t.filter fun e => decide (c ≤ e.1)) = true := by
  induction t generalizing b with
  | nil => rfl
  | cons e t ih =>
    obtain ⟨k, v⟩ := e
    simp only [Tab.rising, Bool.and_eq_true, decide_eq_true_eq] at r
    by_cases h : c ≤ k
    · have all : t.filter (fun e => decide (c ≤ e.1)) = t := by
        rw [List.filter_eq_self]
        intro x hx
        have : ∀ (b : Nat) (t : Tab α), Tab.rising b t = true → ∀ x, x ∈ t → b ≤ x.1 := by
          intro b t
          induction t generalizing b with
          | nil => intro _ x hx; cases hx
          | cons y t ih2 =>
            obtain ⟨n, w⟩ := y
            intro r x hx
            simp only [Tab.rising, Bool.and_eq_true, decide_eq_true_eq] at r
            rcases List.mem_cons.mp hx with rfl | hx
            · exact r.1
            · exact Nat.le_trans (by omega) (ih2 _ r.2 x hx)
        have := this _ _ r.2 x hx
        exact decide_eq_true (by omega)
      simp [h, Tab.rising, all, r.2]
    · simp [h]
      exact ih r.2

theorem Tab.get_filter_ge {α : Type} (d : α) {c k : Nat} {t : Tab α} (h : c ≤ k) :
    Tab.get d (t.filter fun e => decide (c ≤ e.1)) k = Tab.get d t k := by
  induction t with
  | nil => rfl
  | cons e t ih =>
    by_cases he : c ≤ e.1
    · simp [he, Tab.get, ih]
    · simp only [List.filter_cons, he, decide_false, Bool.false_eq_true, if_false, Tab.get]
      rw [if_neg (by omega), if_neg (by omega)]
      exact ih

theorem Tab.get_filter_lt {α : Type} (d : α) {b c k : Nat} {t : Tab α} (r : Tab.rising b t = true) (h : k < c) :
    Tab.get d (t.filter fun e => decide (e.1 < c)) k = Tab.get d t k := by
  induction t generalizing b with
  | nil => rfl
  | cons e t ih =>
    obtain ⟨n, v⟩ := e
    simp only [Tab.rising, Bool.and_eq_true, decide_eq_true_eq] at r
    by_cases he : n < c
    · simp [he, Tab.get, ih r.2]
    · simp only [List.filter_cons, he, decide_false, Bool.false_eq_true, if_false, Tab.get]
      rw [ih r.2, if_neg (by omega), if_pos (by omega)]
      exact Tab.get_below d r.2 (by omega)

/-- The bytes that `replace` lists. -/
theorem fresh_spec (f : Nat → Byte) (n a : Nat) :
    let t : Memory := (span a n).filterMap fun x => if f x = 0 then none else some (x, f x)
    Tab.rising a t = true ∧ (t.all fun c => c.2 != 0) = true ∧ (∀ e, e ∈ t → e.1 < a + n) ∧
      ∀ x, a ≤ x → x < a + n → Tab.get 0 t x = f x := by
  induction n generalizing a with
  | zero => refine ⟨rfl, rfl, ?_, ?_⟩ <;> intros <;> first | contradiction | omega
  | succ n ih =>
    obtain ⟨h1, h2, h3, h4⟩ := ih (a + 1)
    intro t
    by_cases hz : f a = 0
    · have ht : t = (span (a + 1) n).filterMap fun x => if f x = 0 then none else some (x, f x) := by
        simp [t, span, hz]
      rw [ht]
      refine ⟨Tab.rising_weaken (by omega) h1, h2, fun e he => by have := h3 e he; omega, ?_⟩
      intro x hx hn
      by_cases hxa : x = a
      · subst hxa
        rw [hz]
        exact Tab.get_below 0 h1 (by omega)
      · exact h4 x (by omega) (by omega)
    · have ht : t = (a, f a) :: (span (a + 1) n).filterMap fun x => if f x = 0 then none else some (x, f x) :=
        List.filterMap_cons_some (if_neg hz)
      rw [ht]
      refine ⟨by simp [Tab.rising]; exact h1, by simp only [List.all_cons, h2, Bool.and_true]; simpa using hz, ?_, ?_⟩
      · intro e he
        rcases List.mem_cons.mp he with rfl | he
        · simp
        · have := h3 e he; omega
      · intro x hx hn
        simp only [Tab.get]
        by_cases hxa : x = a
        · simp [hxa]
        · rw [if_neg hxa, if_neg (by omega)]
          exact h4 x (by omega) (by omega)

theorem Memory.wf_replace {m : Memory} (a n : Nat) (f : Nat → Byte) (h : m.wf = true) : (m.replace a n f).wf = true := by
  obtain ⟨f1, f2, f3, -⟩ := fresh_spec f n a
  have hl := Memory.wf_filter (fun c => decide (c.1 < a)) h
  have hr := Memory.wf_filter (fun c => decide (a + n ≤ c.1)) h
  simp only [Memory.wf, Bool.and_eq_true] at h hl hr
  have low : Tab.rising 0 (m.filter (fun c => decide (c.1 < a)) ++
      ((span a n).filterMap fun x => if f x = 0 then none else some (x, f x) : Memory)) = true :=
    Tab.rising_append hl.1 (fun e he => by simpa using (List.mem_filter.mp he).2) f1 (Nat.zero_le _)
  simp only [Memory.wf, Memory.replace, Bool.and_eq_true]
  refine ⟨Tab.rising_append low ?_ (Tab.rising_filter_ge (a + n) h.1) (Nat.zero_le _), ?_⟩
  · intro e he
    rcases List.mem_append.mp he with he | he
    · have : e.1 < a := by simpa using (List.mem_filter.mp he).2
      omega
    · exact f3 e he
  · simp only [List.all_append, Bool.and_eq_true]
    exact ⟨⟨hl.2, f2⟩, hr.2⟩

theorem Memory.byte_replace {m : Memory} (a n x : Nat) (f : Nat → Byte) (h : m.wf = true) :
    (m.replace a n f).byte x = if a ≤ x ∧ x < a + n then f x else m.byte x := by
  obtain ⟨f1, -, f3, f4⟩ := fresh_spec f n a
  simp only [Memory.wf, Bool.and_eq_true] at h
  have hr := Tab.rising_filter_ge (a + n) h.1
  unfold Memory.byte Memory.replace
  simp only [List.append_assoc]
  have lows : ∀ e, e ∈ m.filter (fun c => decide (c.1 < a)) → e.1 < a := fun e he => by simpa using (List.mem_filter.mp he).2
  by_cases hlo : x < a
  · rw [if_neg (by omega), Tab.get_append_below (0 : Byte) (Tab.rising_append f1 f3 hr (by omega)) hlo]
    exact Tab.get_filter_lt (0 : Byte) h.1 hlo
  · rw [Tab.get_append_above (0 : Byte) (fun e he => by have := lows e he; omega)]
    by_cases hhi : x < a + n
    · rw [if_pos ⟨by omega, hhi⟩, Tab.get_append_below (0 : Byte) hr hhi]
      exact f4 x (by omega) hhi
    · rw [if_neg (by omega), Tab.get_append_above (0 : Byte) (fun e he => by have := f3 e he; omega)]
      exact Tab.get_filter_ge (0 : Byte) (by omega)

end Sys2Proof.Machine
end

