-- ==== Sys2Proof/Laws/State.lean ====
section
/-! SUPPORT. What each named update of the state changes and what it leaves: one lemma per field and update. -/
namespace Sys2Proof.Machine

/-! ### The device -/

@[simp] theorem State.setCore_cur (s : State) (c : Nat) (k : Core) : (s.setCore c k).cur = s.cur := rfl
@[simp] theorem State.setCore_agenda (s : State) (c : Nat) (k : Core) : (s.setCore c k).agenda = s.agenda := rfl
@[simp] theorem State.setCore_cycle (s : State) (c : Nat) (k : Core) : (s.setCore c k).cycle = s.cycle := rfl
@[simp] theorem State.setCore_freeCtr (s : State) (c : Nat) (k : Core) : (s.setCore c k).freeCtr = s.freeCtr := rfl
@[simp] theorem State.setCore_nextNum (s : State) (c : Nat) (k : Core) : (s.setCore c k).nextNum = s.nextNum := rfl
@[simp] theorem State.setCore_clusters (s : State) (c : Nat) (k : Core) : (s.setCore c k).clusters = s.clusters := rfl
@[simp] theorem State.setCore_dies (s : State) (c : Nat) (k : Core) : (s.setCore c k).dies = s.dies := rfl
@[simp] theorem State.setCore_dram (s : State) (c : Nat) (k : Core) : (s.setCore c k).dram = s.dram := rfl
@[simp] theorem State.setCore_dramBad (s : State) (c : Nat) (k : Core) : (s.setCore c k).dramBad = s.dramBad := rfl
@[simp] theorem State.setCore_owners (s : State) (c : Nat) (k : Core) : (s.setCore c k).owners = s.owners := rfl
@[simp] theorem State.setCore_releases (s : State) (c : Nat) (k : Core) : (s.setCore c k).releases = s.releases := rfl
@[simp] theorem State.setCore_net (s : State) (c : Nat) (k : Core) : (s.setCore c k).net = s.net := rfl
@[simp] theorem State.setCore_replies (s : State) (c : Nat) (k : Core) : (s.setCore c k).replies = s.replies := rfl
@[simp] theorem State.setCore_ops (s : State) (c : Nat) (k : Core) : (s.setCore c k).ops = s.ops := rfl
@[simp] theorem State.setCore_msgs (s : State) (c : Nat) (k : Core) : (s.setCore c k).msgs = s.msgs := rfl
@[simp] theorem State.setCore_meets (s : State) (c : Nat) (k : Core) : (s.setCore c k).meets = s.meets := rfl
@[simp] theorem State.setCore_arrivals (s : State) (c : Nat) (k : Core) : (s.setCore c k).arrivals = s.arrivals := rfl
@[simp] theorem State.setCore_corners (s : State) (c : Nat) (k : Core) : (s.setCore c k).corners = s.corners := rfl
@[simp] theorem State.setCore_exchange (s : State) (c : Nat) (k : Core) : (s.setCore c k).exchange = s.exchange := rfl
@[simp] theorem State.setCore_replay (s : State) (c : Nat) (k : Core) : (s.setCore c k).replay = s.replay := rfl
@[simp] theorem State.setCore_invs (s : State) (c : Nat) (k : Core) : (s.setCore c k).invs = s.invs := rfl
@[simp] theorem State.setCore_stas (s : State) (c : Nat) (k : Core) : (s.setCore c k).stas = s.stas := rfl
@[simp] theorem State.setCore_parts (s : State) (c : Nat) (k : Core) : (s.setCore c k).parts = s.parts := rfl
@[simp] theorem State.setCore_launches (s : State) (c : Nat) (k : Core) : (s.setCore c k).launches = s.launches := rfl
@[simp] theorem State.setCore_queues (s : State) (c : Nat) (k : Core) : (s.setCore c k).queues = s.queues := rfl
@[simp] theorem State.setCore_budgets (s : State) (c : Nat) (k : Core) : (s.setCore c k).budgets = s.budgets := rfl
@[simp] theorem State.setCore_period (s : State) (c : Nat) (k : Core) : (s.setCore c k).period = s.period := rfl
@[simp] theorem State.setCore_peers (s : State) (c : Nat) (k : Core) : (s.setCore c k).peers = s.peers := rfl
@[simp] theorem State.setCore_outbox (s : State) (c : Nat) (k : Core) : (s.setCore c k).outbox = s.outbox := rfl
@[simp] theorem State.setCore_firmware (s : State) (c : Nat) (k : Core) : (s.setCore c k).firmware = s.firmware := rfl
@[simp] theorem State.setCore_dramStacks (s : State) (c : Nat) (k : Core) : (s.setCore c k).dramStacks = s.dramStacks := rfl
@[simp] theorem State.setCore_scrub (s : State) (c : Nat) (k : Core) : (s.setCore c k).scrub = s.scrub := rfl
@[simp] theorem State.setCore_reencode (s : State) (c : Nat) (k : Core) : (s.setCore c k).reencode = s.reencode := rfl
@[simp] theorem State.setCore_ports (s : State) (c : Nat) (k : Core) : (s.setCore c k).ports = s.ports := rfl
@[simp] theorem State.setCore_unitLines (s : State) (c : Nat) (k : Core) : (s.setCore c k).unitLines = s.unitLines := rfl

@[simp] theorem State.modCore_cur (s : State) (c : Nat) (f : Core → Core) : (s.modCore c f).cur = s.cur := rfl
@[simp] theorem State.modCore_agenda (s : State) (c : Nat) (f : Core → Core) : (s.modCore c f).agenda = s.agenda := rfl
@[simp] theorem State.modCore_cycle (s : State) (c : Nat) (f : Core → Core) : (s.modCore c f).cycle = s.cycle := rfl
@[simp] theorem State.modCore_freeCtr (s : State) (c : Nat) (f : Core → Core) : (s.modCore c f).freeCtr = s.freeCtr := rfl
@[simp] theorem State.modCore_nextNum (s : State) (c : Nat) (f : Core → Core) : (s.modCore c f).nextNum = s.nextNum := rfl
@[simp] theorem State.modCore_clusters (s : State) (c : Nat) (f : Core → Core) : (s.modCore c f).clusters = s.clusters := rfl
@[simp] theorem State.modCore_dies (s : State) (c : Nat) (f : Core → Core) : (s.modCore c f).dies = s.dies := rfl
@[simp] theorem State.modCore_dram (s : State) (c : Nat) (f : Core → Core) : (s.modCore c f).dram = s.dram := rfl
@[simp] theorem State.modCore_dramBad (s : State) (c : Nat) (f : Core → Core) : (s.modCore c f).dramBad = s.dramBad := rfl
@[simp] theorem State.modCore_owners (s : State) (c : Nat) (f : Core → Core) : (s.modCore c f).owners = s.owners := rfl
@[simp] theorem State.modCore_releases (s : State) (c : Nat) (f : Core → Core) : (s.modCore c f).releases = s.releases := rfl
@[simp] theorem State.modCore_net (s : State) (c : Nat) (f : Core → Core) : (s.modCore c f).net = s.net := rfl
@[simp] theorem State.modCore_replies (s : State) (c : Nat) (f : Core → Core) : (s.modCore c f).replies = s.replies := rfl
@[simp] theorem State.modCore_ops (s : State) (c : Nat) (f : Core → Core) : (s.modCore c f).ops = s.ops := rfl
@[simp] theorem State.modCore_msgs (s : State) (c : Nat) (f : Core → Core) : (s.modCore c f).msgs = s.msgs := rfl
@[simp] theorem State.modCore_meets (s : State) (c : Nat) (f : Core → Core) : (s.modCore c f).meets = s.meets := rfl
@[simp] theorem State.modCore_arrivals (s : State) (c : Nat) (f : Core → Core) : (s.modCore c f).arrivals = s.arrivals := rfl
@[simp] theorem State.modCore_corners (s : State) (c : Nat) (f : Core → Core) : (s.modCore c f).corners = s.corners := rfl
@[simp] theorem State.modCore_exchange (s : State) (c : Nat) (f : Core → Core) : (s.modCore c f).exchange = s.exchange := rfl
@[simp] theorem State.modCore_replay (s : State) (c : Nat) (f : Core → Core) : (s.modCore c f).replay = s.replay := rfl
@[simp] theorem State.modCore_invs (s : State) (c : Nat) (f : Core → Core) : (s.modCore c f).invs = s.invs := rfl
@[simp] theorem State.modCore_stas (s : State) (c : Nat) (f : Core → Core) : (s.modCore c f).stas = s.stas := rfl
@[simp] theorem State.modCore_parts (s : State) (c : Nat) (f : Core → Core) : (s.modCore c f).parts = s.parts := rfl
@[simp] theorem State.modCore_launches (s : State) (c : Nat) (f : Core → Core) : (s.modCore c f).launches = s.launches := rfl
@[simp] theorem State.modCore_queues (s : State) (c : Nat) (f : Core → Core) : (s.modCore c f).queues = s.queues := rfl
@[simp] theorem State.modCore_budgets (s : State) (c : Nat) (f : Core → Core) : (s.modCore c f).budgets = s.budgets := rfl
@[simp] theorem State.modCore_period (s : State) (c : Nat) (f : Core → Core) : (s.modCore c f).period = s.period := rfl
@[simp] theorem State.modCore_peers (s : State) (c : Nat) (f : Core → Core) : (s.modCore c f).peers = s.peers := rfl
@[simp] theorem State.modCore_outbox (s : State) (c : Nat) (f : Core → Core) : (s.modCore c f).outbox = s.outbox := rfl
@[simp] theorem State.modCore_firmware (s : State) (c : Nat) (f : Core → Core) : (s.modCore c f).firmware = s.firmware := rfl
@[simp] theorem State.modCore_dramStacks (s : State) (c : Nat) (f : Core → Core) : (s.modCore c f).dramStacks = s.dramStacks := rfl
@[simp] theorem State.modCore_scrub (s : State) (c : Nat) (f : Core → Core) : (s.modCore c f).scrub = s.scrub := rfl
@[simp] theorem State.modCore_reencode (s : State) (c : Nat) (f : Core → Core) : (s.modCore c f).reencode = s.reencode := rfl
@[simp] theorem State.modCore_ports (s : State) (c : Nat) (f : Core → Core) : (s.modCore c f).ports = s.ports := rfl
@[simp] theorem State.modCore_unitLines (s : State) (c : Nat) (f : Core → Core) : (s.modCore c f).unitLines = s.unitLines := rfl

@[simp] theorem State.modCtx_cur (s : State) (c x : Nat) (f : Context → Context) : (s.modCtx c x f).cur = s.cur := rfl
@[simp] theorem State.modCtx_agenda (s : State) (c x : Nat) (f : Context → Context) : (s.modCtx c x f).agenda = s.agenda := rfl
@[simp] theorem State.modCtx_cycle (s : State) (c x : Nat) (f : Context → Context) : (s.modCtx c x f).cycle = s.cycle := rfl
@[simp] theorem State.modCtx_freeCtr (s : State) (c x : Nat) (f : Context → Context) : (s.modCtx c x f).freeCtr = s.freeCtr := rfl
@[simp] theorem State.modCtx_nextNum (s : State) (c x : Nat) (f : Context → Context) : (s.modCtx c x f).nextNum = s.nextNum := rfl
@[simp] theorem State.modCtx_clusters (s : State) (c x : Nat) (f : Context → Context) : (s.modCtx c x f).clusters = s.clusters := rfl
@[simp] theorem State.modCtx_dies (s : State) (c x : Nat) (f : Context → Context) : (s.modCtx c x f).dies = s.dies := rfl
@[simp] theorem State.modCtx_dram (s : State) (c x : Nat) (f : Context → Context) : (s.modCtx c x f).dram = s.dram := rfl
@[simp] theorem State.modCtx_dramBad (s : State) (c x : Nat) (f : Context → Context) : (s.modCtx c x f).dramBad = s.dramBad := rfl
@[simp] theorem State.modCtx_owners (s : State) (c x : Nat) (f : Context → Context) : (s.modCtx c x f).owners = s.owners := rfl
@[simp] theorem State.modCtx_releases (s : State) (c x : Nat) (f : Context → Context) : (s.modCtx c x f).releases = s.releases := rfl
@[simp] theorem State.modCtx_net (s : State) (c x : Nat) (f : Context → Context) : (s.modCtx c x f).net = s.net := rfl
@[simp] theorem State.modCtx_replies (s : State) (c x : Nat) (f : Context → Context) : (s.modCtx c x f).replies = s.replies := rfl
@[simp] theorem State.modCtx_ops (s : State) (c x : Nat) (f : Context → Context) : (s.modCtx c x f).ops = s.ops := rfl
@[simp] theorem State.modCtx_msgs (s : State) (c x : Nat) (f : Context → Context) : (s.modCtx c x f).msgs = s.msgs := rfl
@[simp] theorem State.modCtx_meets (s : State) (c x : Nat) (f : Context → Context) : (s.modCtx c x f).meets = s.meets := rfl
@[simp] theorem State.modCtx_arrivals (s : State) (c x : Nat) (f : Context → Context) : (s.modCtx c x f).arrivals = s.arrivals := rfl
@[simp] theorem State.modCtx_corners (s : State) (c x : Nat) (f : Context → Context) : (s.modCtx c x f).corners = s.corners := rfl
@[simp] theorem State.modCtx_exchange (s : State) (c x : Nat) (f : Context → Context) : (s.modCtx c x f).exchange = s.exchange := rfl
@[simp] theorem State.modCtx_replay (s : State) (c x : Nat) (f : Context → Context) : (s.modCtx c x f).replay = s.replay := rfl
@[simp] theorem State.modCtx_invs (s : State) (c x : Nat) (f : Context → Context) : (s.modCtx c x f).invs = s.invs := rfl
@[simp] theorem State.modCtx_stas (s : State) (c x : Nat) (f : Context → Context) : (s.modCtx c x f).stas = s.stas := rfl
@[simp] theorem State.modCtx_parts (s : State) (c x : Nat) (f : Context → Context) : (s.modCtx c x f).parts = s.parts := rfl
@[simp] theorem State.modCtx_launches (s : State) (c x : Nat) (f : Context → Context) : (s.modCtx c x f).launches = s.launches := rfl
@[simp] theorem State.modCtx_queues (s : State) (c x : Nat) (f : Context → Context) : (s.modCtx c x f).queues = s.queues := rfl
@[simp] theorem State.modCtx_budgets (s : State) (c x : Nat) (f : Context → Context) : (s.modCtx c x f).budgets = s.budgets := rfl
@[simp] theorem State.modCtx_period (s : State) (c x : Nat) (f : Context → Context) : (s.modCtx c x f).period = s.period := rfl
@[simp] theorem State.modCtx_peers (s : State) (c x : Nat) (f : Context → Context) : (s.modCtx c x f).peers = s.peers := rfl
@[simp] theorem State.modCtx_outbox (s : State) (c x : Nat) (f : Context → Context) : (s.modCtx c x f).outbox = s.outbox := rfl
@[simp] theorem State.modCtx_firmware (s : State) (c x : Nat) (f : Context → Context) : (s.modCtx c x f).firmware = s.firmware := rfl
@[simp] theorem State.modCtx_dramStacks (s : State) (c x : Nat) (f : Context → Context) : (s.modCtx c x f).dramStacks = s.dramStacks := rfl
@[simp] theorem State.modCtx_scrub (s : State) (c x : Nat) (f : Context → Context) : (s.modCtx c x f).scrub = s.scrub := rfl
@[simp] theorem State.modCtx_reencode (s : State) (c x : Nat) (f : Context → Context) : (s.modCtx c x f).reencode = s.reencode := rfl
@[simp] theorem State.modCtx_ports (s : State) (c x : Nat) (f : Context → Context) : (s.modCtx c x f).ports = s.ports := rfl
@[simp] theorem State.modCtx_unitLines (s : State) (c x : Nat) (f : Context → Context) : (s.modCtx c x f).unitLines = s.unitLines := rfl

@[simp] theorem State.modMe_cur (s : State) (f : Context → Context) : (s.modMe f).cur = s.cur := rfl
@[simp] theorem State.modMe_agenda (s : State) (f : Context → Context) : (s.modMe f).agenda = s.agenda := rfl
@[simp] theorem State.modMe_cycle (s : State) (f : Context → Context) : (s.modMe f).cycle = s.cycle := rfl
@[simp] theorem State.modMe_freeCtr (s : State) (f : Context → Context) : (s.modMe f).freeCtr = s.freeCtr := rfl
@[simp] theorem State.modMe_nextNum (s : State) (f : Context → Context) : (s.modMe f).nextNum = s.nextNum := rfl
@[simp] theorem State.modMe_clusters (s : State) (f : Context → Context) : (s.modMe f).clusters = s.clusters := rfl
@[simp] theorem State.modMe_dies (s : State) (f : Context → Context) : (s.modMe f).dies = s.dies := rfl
@[simp] theorem State.modMe_dram (s : State) (f : Context → Context) : (s.modMe f).dram = s.dram := rfl
@[simp] theorem State.modMe_dramBad (s : State) (f : Context → Context) : (s.modMe f).dramBad = s.dramBad := rfl
@[simp] theorem State.modMe_owners (s : State) (f : Context → Context) : (s.modMe f).owners = s.owners := rfl
@[simp] theorem State.modMe_releases (s : State) (f : Context → Context) : (s.modMe f).releases = s.releases := rfl
@[simp] theorem State.modMe_net (s : State) (f : Context → Context) : (s.modMe f).net = s.net := rfl
@[simp] theorem State.modMe_replies (s : State) (f : Context → Context) : (s.modMe f).replies = s.replies := rfl
@[simp] theorem State.modMe_ops (s : State) (f : Context → Context) : (s.modMe f).ops = s.ops := rfl
@[simp] theorem State.modMe_msgs (s : State) (f : Context → Context) : (s.modMe f).msgs = s.msgs := rfl
@[simp] theorem State.modMe_meets (s : State) (f : Context → Context) : (s.modMe f).meets = s.meets := rfl
@[simp] theorem State.modMe_arrivals (s : State) (f : Context → Context) : (s.modMe f).arrivals = s.arrivals := rfl
@[simp] theorem State.modMe_corners (s : State) (f : Context → Context) : (s.modMe f).corners = s.corners := rfl
@[simp] theorem State.modMe_exchange (s : State) (f : Context → Context) : (s.modMe f).exchange = s.exchange := rfl
@[simp] theorem State.modMe_replay (s : State) (f : Context → Context) : (s.modMe f).replay = s.replay := rfl
@[simp] theorem State.modMe_invs (s : State) (f : Context → Context) : (s.modMe f).invs = s.invs := rfl
@[simp] theorem State.modMe_stas (s : State) (f : Context → Context) : (s.modMe f).stas = s.stas := rfl
@[simp] theorem State.modMe_parts (s : State) (f : Context → Context) : (s.modMe f).parts = s.parts := rfl
@[simp] theorem State.modMe_launches (s : State) (f : Context → Context) : (s.modMe f).launches = s.launches := rfl
@[simp] theorem State.modMe_queues (s : State) (f : Context → Context) : (s.modMe f).queues = s.queues := rfl
@[simp] theorem State.modMe_budgets (s : State) (f : Context → Context) : (s.modMe f).budgets = s.budgets := rfl
@[simp] theorem State.modMe_period (s : State) (f : Context → Context) : (s.modMe f).period = s.period := rfl
@[simp] theorem State.modMe_peers (s : State) (f : Context → Context) : (s.modMe f).peers = s.peers := rfl
@[simp] theorem State.modMe_outbox (s : State) (f : Context → Context) : (s.modMe f).outbox = s.outbox := rfl
@[simp] theorem State.modMe_firmware (s : State) (f : Context → Context) : (s.modMe f).firmware = s.firmware := rfl
@[simp] theorem State.modMe_dramStacks (s : State) (f : Context → Context) : (s.modMe f).dramStacks = s.dramStacks := rfl
@[simp] theorem State.modMe_scrub (s : State) (f : Context → Context) : (s.modMe f).scrub = s.scrub := rfl
@[simp] theorem State.modMe_reencode (s : State) (f : Context → Context) : (s.modMe f).reencode = s.reencode := rfl
@[simp] theorem State.modMe_ports (s : State) (f : Context → Context) : (s.modMe f).ports = s.ports := rfl
@[simp] theorem State.modMe_unitLines (s : State) (f : Context → Context) : (s.modMe f).unitLines = s.unitLines := rfl

@[simp] theorem State.modHere_cur (s : State) (f : Core → Core) : (s.modHere f).cur = s.cur := rfl
@[simp] theorem State.modHere_agenda (s : State) (f : Core → Core) : (s.modHere f).agenda = s.agenda := rfl
@[simp] theorem State.modHere_cycle (s : State) (f : Core → Core) : (s.modHere f).cycle = s.cycle := rfl
@[simp] theorem State.modHere_freeCtr (s : State) (f : Core → Core) : (s.modHere f).freeCtr = s.freeCtr := rfl
@[simp] theorem State.modHere_nextNum (s : State) (f : Core → Core) : (s.modHere f).nextNum = s.nextNum := rfl
@[simp] theorem State.modHere_clusters (s : State) (f : Core → Core) : (s.modHere f).clusters = s.clusters := rfl
@[simp] theorem State.modHere_dies (s : State) (f : Core → Core) : (s.modHere f).dies = s.dies := rfl
@[simp] theorem State.modHere_dram (s : State) (f : Core → Core) : (s.modHere f).dram = s.dram := rfl
@[simp] theorem State.modHere_dramBad (s : State) (f : Core → Core) : (s.modHere f).dramBad = s.dramBad := rfl
@[simp] theorem State.modHere_owners (s : State) (f : Core → Core) : (s.modHere f).owners = s.owners := rfl
@[simp] theorem State.modHere_releases (s : State) (f : Core → Core) : (s.modHere f).releases = s.releases := rfl
@[simp] theorem State.modHere_net (s : State) (f : Core → Core) : (s.modHere f).net = s.net := rfl
@[simp] theorem State.modHere_replies (s : State) (f : Core → Core) : (s.modHere f).replies = s.replies := rfl
@[simp] theorem State.modHere_ops (s : State) (f : Core → Core) : (s.modHere f).ops = s.ops := rfl
@[simp] theorem State.modHere_msgs (s : State) (f : Core → Core) : (s.modHere f).msgs = s.msgs := rfl
@[simp] theorem State.modHere_meets (s : State) (f : Core → Core) : (s.modHere f).meets = s.meets := rfl
@[simp] theorem State.modHere_arrivals (s : State) (f : Core → Core) : (s.modHere f).arrivals = s.arrivals := rfl
@[simp] theorem State.modHere_corners (s : State) (f : Core → Core) : (s.modHere f).corners = s.corners := rfl
@[simp] theorem State.modHere_exchange (s : State) (f : Core → Core) : (s.modHere f).exchange = s.exchange := rfl
@[simp] theorem State.modHere_replay (s : State) (f : Core → Core) : (s.modHere f).replay = s.replay := rfl
@[simp] theorem State.modHere_invs (s : State) (f : Core → Core) : (s.modHere f).invs = s.invs := rfl
@[simp] theorem State.modHere_stas (s : State) (f : Core → Core) : (s.modHere f).stas = s.stas := rfl
@[simp] theorem State.modHere_parts (s : State) (f : Core → Core) : (s.modHere f).parts = s.parts := rfl
@[simp] theorem State.modHere_launches (s : State) (f : Core → Core) : (s.modHere f).launches = s.launches := rfl
@[simp] theorem State.modHere_queues (s : State) (f : Core → Core) : (s.modHere f).queues = s.queues := rfl
@[simp] theorem State.modHere_budgets (s : State) (f : Core → Core) : (s.modHere f).budgets = s.budgets := rfl
@[simp] theorem State.modHere_period (s : State) (f : Core → Core) : (s.modHere f).period = s.period := rfl
@[simp] theorem State.modHere_peers (s : State) (f : Core → Core) : (s.modHere f).peers = s.peers := rfl
@[simp] theorem State.modHere_outbox (s : State) (f : Core → Core) : (s.modHere f).outbox = s.outbox := rfl
@[simp] theorem State.modHere_firmware (s : State) (f : Core → Core) : (s.modHere f).firmware = s.firmware := rfl
@[simp] theorem State.modHere_dramStacks (s : State) (f : Core → Core) : (s.modHere f).dramStacks = s.dramStacks := rfl
@[simp] theorem State.modHere_scrub (s : State) (f : Core → Core) : (s.modHere f).scrub = s.scrub := rfl
@[simp] theorem State.modHere_reencode (s : State) (f : Core → Core) : (s.modHere f).reencode = s.reencode := rfl
@[simp] theorem State.modHere_ports (s : State) (f : Core → Core) : (s.modHere f).ports = s.ports := rfl
@[simp] theorem State.modHere_unitLines (s : State) (f : Core → Core) : (s.modHere f).unitLines = s.unitLines := rfl

@[simp] theorem State.writeG_cur (s : State) (n : Nat) (w : Word) (p : Bool) : (s.writeG n w p).cur = s.cur := rfl
@[simp] theorem State.writeG_agenda (s : State) (n : Nat) (w : Word) (p : Bool) : (s.writeG n w p).agenda = s.agenda := rfl
@[simp] theorem State.writeG_cycle (s : State) (n : Nat) (w : Word) (p : Bool) : (s.writeG n w p).cycle = s.cycle := rfl
@[simp] theorem State.writeG_freeCtr (s : State) (n : Nat) (w : Word) (p : Bool) : (s.writeG n w p).freeCtr = s.freeCtr := rfl
@[simp] theorem State.writeG_nextNum (s : State) (n : Nat) (w : Word) (p : Bool) : (s.writeG n w p).nextNum = s.nextNum := rfl
@[simp] theorem State.writeG_clusters (s : State) (n : Nat) (w : Word) (p : Bool) : (s.writeG n w p).clusters = s.clusters := rfl
@[simp] theorem State.writeG_dies (s : State) (n : Nat) (w : Word) (p : Bool) : (s.writeG n w p).dies = s.dies := rfl
@[simp] theorem State.writeG_dram (s : State) (n : Nat) (w : Word) (p : Bool) : (s.writeG n w p).dram = s.dram := rfl
@[simp] theorem State.writeG_dramBad (s : State) (n : Nat) (w : Word) (p : Bool) : (s.writeG n w p).dramBad = s.dramBad := rfl
@[simp] theorem State.writeG_owners (s : State) (n : Nat) (w : Word) (p : Bool) : (s.writeG n w p).owners = s.owners := rfl
@[simp] theorem State.writeG_releases (s : State) (n : Nat) (w : Word) (p : Bool) : (s.writeG n w p).releases = s.releases := rfl
@[simp] theorem State.writeG_net (s : State) (n : Nat) (w : Word) (p : Bool) : (s.writeG n w p).net = s.net := rfl
@[simp] theorem State.writeG_replies (s : State) (n : Nat) (w : Word) (p : Bool) : (s.writeG n w p).replies = s.replies := rfl
@[simp] theorem State.writeG_ops (s : State) (n : Nat) (w : Word) (p : Bool) : (s.writeG n w p).ops = s.ops := rfl
@[simp] theorem State.writeG_msgs (s : State) (n : Nat) (w : Word) (p : Bool) : (s.writeG n w p).msgs = s.msgs := rfl
@[simp] theorem State.writeG_meets (s : State) (n : Nat) (w : Word) (p : Bool) : (s.writeG n w p).meets = s.meets := rfl
@[simp] theorem State.writeG_arrivals (s : State) (n : Nat) (w : Word) (p : Bool) : (s.writeG n w p).arrivals = s.arrivals := rfl
@[simp] theorem State.writeG_corners (s : State) (n : Nat) (w : Word) (p : Bool) : (s.writeG n w p).corners = s.corners := rfl
@[simp] theorem State.writeG_exchange (s : State) (n : Nat) (w : Word) (p : Bool) : (s.writeG n w p).exchange = s.exchange := rfl
@[simp] theorem State.writeG_replay (s : State) (n : Nat) (w : Word) (p : Bool) : (s.writeG n w p).replay = s.replay := rfl
@[simp] theorem State.writeG_invs (s : State) (n : Nat) (w : Word) (p : Bool) : (s.writeG n w p).invs = s.invs := rfl
@[simp] theorem State.writeG_stas (s : State) (n : Nat) (w : Word) (p : Bool) : (s.writeG n w p).stas = s.stas := rfl
@[simp] theorem State.writeG_parts (s : State) (n : Nat) (w : Word) (p : Bool) : (s.writeG n w p).parts = s.parts := rfl
@[simp] theorem State.writeG_launches (s : State) (n : Nat) (w : Word) (p : Bool) : (s.writeG n w p).launches = s.launches := rfl
@[simp] theorem State.writeG_queues (s : State) (n : Nat) (w : Word) (p : Bool) : (s.writeG n w p).queues = s.queues := rfl
@[simp] theorem State.writeG_budgets (s : State) (n : Nat) (w : Word) (p : Bool) : (s.writeG n w p).budgets = s.budgets := rfl
@[simp] theorem State.writeG_period (s : State) (n : Nat) (w : Word) (p : Bool) : (s.writeG n w p).period = s.period := rfl
@[simp] theorem State.writeG_peers (s : State) (n : Nat) (w : Word) (p : Bool) : (s.writeG n w p).peers = s.peers := rfl
@[simp] theorem State.writeG_outbox (s : State) (n : Nat) (w : Word) (p : Bool) : (s.writeG n w p).outbox = s.outbox := rfl
@[simp] theorem State.writeG_firmware (s : State) (n : Nat) (w : Word) (p : Bool) : (s.writeG n w p).firmware = s.firmware := rfl
@[simp] theorem State.writeG_dramStacks (s : State) (n : Nat) (w : Word) (p : Bool) : (s.writeG n w p).dramStacks = s.dramStacks := rfl
@[simp] theorem State.writeG_scrub (s : State) (n : Nat) (w : Word) (p : Bool) : (s.writeG n w p).scrub = s.scrub := rfl
@[simp] theorem State.writeG_reencode (s : State) (n : Nat) (w : Word) (p : Bool) : (s.writeG n w p).reencode = s.reencode := rfl
@[simp] theorem State.writeG_ports (s : State) (n : Nat) (w : Word) (p : Bool) : (s.writeG n w p).ports = s.ports := rfl
@[simp] theorem State.writeG_unitLines (s : State) (n : Nat) (w : Word) (p : Bool) : (s.writeG n w p).unitLines = s.unitLines := rfl

@[simp] theorem State.writeV_cur (s : State) (n : Nat) (v : VVal) : (s.writeV n v).cur = s.cur := rfl
@[simp] theorem State.writeV_agenda (s : State) (n : Nat) (v : VVal) : (s.writeV n v).agenda = s.agenda := rfl
@[simp] theorem State.writeV_cycle (s : State) (n : Nat) (v : VVal) : (s.writeV n v).cycle = s.cycle := rfl
@[simp] theorem State.writeV_freeCtr (s : State) (n : Nat) (v : VVal) : (s.writeV n v).freeCtr = s.freeCtr := rfl
@[simp] theorem State.writeV_nextNum (s : State) (n : Nat) (v : VVal) : (s.writeV n v).nextNum = s.nextNum := rfl
@[simp] theorem State.writeV_clusters (s : State) (n : Nat) (v : VVal) : (s.writeV n v).clusters = s.clusters := rfl
@[simp] theorem State.writeV_dies (s : State) (n : Nat) (v : VVal) : (s.writeV n v).dies = s.dies := rfl
@[simp] theorem State.writeV_dram (s : State) (n : Nat) (v : VVal) : (s.writeV n v).dram = s.dram := rfl
@[simp] theorem State.writeV_dramBad (s : State) (n : Nat) (v : VVal) : (s.writeV n v).dramBad = s.dramBad := rfl
@[simp] theorem State.writeV_owners (s : State) (n : Nat) (v : VVal) : (s.writeV n v).owners = s.owners := rfl
@[simp] theorem State.writeV_releases (s : State) (n : Nat) (v : VVal) : (s.writeV n v).releases = s.releases := rfl
@[simp] theorem State.writeV_net (s : State) (n : Nat) (v : VVal) : (s.writeV n v).net = s.net := rfl
@[simp] theorem State.writeV_replies (s : State) (n : Nat) (v : VVal) : (s.writeV n v).replies = s.replies := rfl
@[simp] theorem State.writeV_ops (s : State) (n : Nat) (v : VVal) : (s.writeV n v).ops = s.ops := rfl
@[simp] theorem State.writeV_msgs (s : State) (n : Nat) (v : VVal) : (s.writeV n v).msgs = s.msgs := rfl
@[simp] theorem State.writeV_meets (s : State) (n : Nat) (v : VVal) : (s.writeV n v).meets = s.meets := rfl
@[simp] theorem State.writeV_arrivals (s : State) (n : Nat) (v : VVal) : (s.writeV n v).arrivals = s.arrivals := rfl
@[simp] theorem State.writeV_corners (s : State) (n : Nat) (v : VVal) : (s.writeV n v).corners = s.corners := rfl
@[simp] theorem State.writeV_exchange (s : State) (n : Nat) (v : VVal) : (s.writeV n v).exchange = s.exchange := rfl
@[simp] theorem State.writeV_replay (s : State) (n : Nat) (v : VVal) : (s.writeV n v).replay = s.replay := rfl
@[simp] theorem State.writeV_invs (s : State) (n : Nat) (v : VVal) : (s.writeV n v).invs = s.invs := rfl
@[simp] theorem State.writeV_stas (s : State) (n : Nat) (v : VVal) : (s.writeV n v).stas = s.stas := rfl
@[simp] theorem State.writeV_parts (s : State) (n : Nat) (v : VVal) : (s.writeV n v).parts = s.parts := rfl
@[simp] theorem State.writeV_launches (s : State) (n : Nat) (v : VVal) : (s.writeV n v).launches = s.launches := rfl
@[simp] theorem State.writeV_queues (s : State) (n : Nat) (v : VVal) : (s.writeV n v).queues = s.queues := rfl
@[simp] theorem State.writeV_budgets (s : State) (n : Nat) (v : VVal) : (s.writeV n v).budgets = s.budgets := rfl
@[simp] theorem State.writeV_period (s : State) (n : Nat) (v : VVal) : (s.writeV n v).period = s.period := rfl
@[simp] theorem State.writeV_peers (s : State) (n : Nat) (v : VVal) : (s.writeV n v).peers = s.peers := rfl
@[simp] theorem State.writeV_outbox (s : State) (n : Nat) (v : VVal) : (s.writeV n v).outbox = s.outbox := rfl
@[simp] theorem State.writeV_firmware (s : State) (n : Nat) (v : VVal) : (s.writeV n v).firmware = s.firmware := rfl
@[simp] theorem State.writeV_dramStacks (s : State) (n : Nat) (v : VVal) : (s.writeV n v).dramStacks = s.dramStacks := rfl
@[simp] theorem State.writeV_scrub (s : State) (n : Nat) (v : VVal) : (s.writeV n v).scrub = s.scrub := rfl
@[simp] theorem State.writeV_reencode (s : State) (n : Nat) (v : VVal) : (s.writeV n v).reencode = s.reencode := rfl
@[simp] theorem State.writeV_ports (s : State) (n : Nat) (v : VVal) : (s.writeV n v).ports = s.ports := rfl
@[simp] theorem State.writeV_unitLines (s : State) (n : Nat) (v : VVal) : (s.writeV n v).unitLines = s.unitLines := rfl

@[simp] theorem State.gotoCtx_cur (s : State) (c x : Nat) (w : Word) : (s.gotoCtx c x w).cur = s.cur := rfl
@[simp] theorem State.gotoCtx_agenda (s : State) (c x : Nat) (w : Word) : (s.gotoCtx c x w).agenda = s.agenda := rfl
@[simp] theorem State.gotoCtx_cycle (s : State) (c x : Nat) (w : Word) : (s.gotoCtx c x w).cycle = s.cycle := rfl
@[simp] theorem State.gotoCtx_freeCtr (s : State) (c x : Nat) (w : Word) : (s.gotoCtx c x w).freeCtr = s.freeCtr := rfl
@[simp] theorem State.gotoCtx_nextNum (s : State) (c x : Nat) (w : Word) : (s.gotoCtx c x w).nextNum = s.nextNum := rfl
@[simp] theorem State.gotoCtx_clusters (s : State) (c x : Nat) (w : Word) : (s.gotoCtx c x w).clusters = s.clusters := rfl
@[simp] theorem State.gotoCtx_dies (s : State) (c x : Nat) (w : Word) : (s.gotoCtx c x w).dies = s.dies := rfl
@[simp] theorem State.gotoCtx_dram (s : State) (c x : Nat) (w : Word) : (s.gotoCtx c x w).dram = s.dram := rfl
@[simp] theorem State.gotoCtx_dramBad (s : State) (c x : Nat) (w : Word) : (s.gotoCtx c x w).dramBad = s.dramBad := rfl
@[simp] theorem State.gotoCtx_owners (s : State) (c x : Nat) (w : Word) : (s.gotoCtx c x w).owners = s.owners := rfl
@[simp] theorem State.gotoCtx_releases (s : State) (c x : Nat) (w : Word) : (s.gotoCtx c x w).releases = s.releases := rfl
@[simp] theorem State.gotoCtx_net (s : State) (c x : Nat) (w : Word) : (s.gotoCtx c x w).net = s.net := rfl
@[simp] theorem State.gotoCtx_replies (s : State) (c x : Nat) (w : Word) : (s.gotoCtx c x w).replies = s.replies := rfl
@[simp] theorem State.gotoCtx_ops (s : State) (c x : Nat) (w : Word) : (s.gotoCtx c x w).ops = s.ops := rfl
@[simp] theorem State.gotoCtx_msgs (s : State) (c x : Nat) (w : Word) : (s.gotoCtx c x w).msgs = s.msgs := rfl
@[simp] theorem State.gotoCtx_meets (s : State) (c x : Nat) (w : Word) : (s.gotoCtx c x w).meets = s.meets := rfl
@[simp] theorem State.gotoCtx_arrivals (s : State) (c x : Nat) (w : Word) : (s.gotoCtx c x w).arrivals = s.arrivals := rfl
@[simp] theorem State.gotoCtx_corners (s : State) (c x : Nat) (w : Word) : (s.gotoCtx c x w).corners = s.corners := rfl
@[simp] theorem State.gotoCtx_exchange (s : State) (c x : Nat) (w : Word) : (s.gotoCtx c x w).exchange = s.exchange := rfl
@[simp] theorem State.gotoCtx_replay (s : State) (c x : Nat) (w : Word) : (s.gotoCtx c x w).replay = s.replay := rfl
@[simp] theorem State.gotoCtx_invs (s : State) (c x : Nat) (w : Word) : (s.gotoCtx c x w).invs = s.invs := rfl
@[simp] theorem State.gotoCtx_stas (s : State) (c x : Nat) (w : Word) : (s.gotoCtx c x w).stas = s.stas := rfl
@[simp] theorem State.gotoCtx_parts (s : State) (c x : Nat) (w : Word) : (s.gotoCtx c x w).parts = s.parts := rfl
@[simp] theorem State.gotoCtx_launches (s : State) (c x : Nat) (w : Word) : (s.gotoCtx c x w).launches = s.launches := rfl
@[simp] theorem State.gotoCtx_queues (s : State) (c x : Nat) (w : Word) : (s.gotoCtx c x w).queues = s.queues := rfl
@[simp] theorem State.gotoCtx_budgets (s : State) (c x : Nat) (w : Word) : (s.gotoCtx c x w).budgets = s.budgets := rfl
@[simp] theorem State.gotoCtx_period (s : State) (c x : Nat) (w : Word) : (s.gotoCtx c x w).period = s.period := rfl
@[simp] theorem State.gotoCtx_peers (s : State) (c x : Nat) (w : Word) : (s.gotoCtx c x w).peers = s.peers := rfl
@[simp] theorem State.gotoCtx_outbox (s : State) (c x : Nat) (w : Word) : (s.gotoCtx c x w).outbox = s.outbox := rfl
@[simp] theorem State.gotoCtx_firmware (s : State) (c x : Nat) (w : Word) : (s.gotoCtx c x w).firmware = s.firmware := rfl
@[simp] theorem State.gotoCtx_dramStacks (s : State) (c x : Nat) (w : Word) : (s.gotoCtx c x w).dramStacks = s.dramStacks := rfl
@[simp] theorem State.gotoCtx_scrub (s : State) (c x : Nat) (w : Word) : (s.gotoCtx c x w).scrub = s.scrub := rfl
@[simp] theorem State.gotoCtx_reencode (s : State) (c x : Nat) (w : Word) : (s.gotoCtx c x w).reencode = s.reencode := rfl
@[simp] theorem State.gotoCtx_ports (s : State) (c x : Nat) (w : Word) : (s.gotoCtx c x w).ports = s.ports := rfl
@[simp] theorem State.gotoCtx_unitLines (s : State) (c x : Nat) (w : Word) : (s.gotoCtx c x w).unitLines = s.unitLines := rfl

@[simp] theorem State.modCluster_cur (s : State) (n : Nat) (f : Cluster → Cluster) : (s.modCluster n f).cur = s.cur := rfl
@[simp] theorem State.modCluster_agenda (s : State) (n : Nat) (f : Cluster → Cluster) : (s.modCluster n f).agenda = s.agenda := rfl
@[simp] theorem State.modCluster_cycle (s : State) (n : Nat) (f : Cluster → Cluster) : (s.modCluster n f).cycle = s.cycle := rfl
@[simp] theorem State.modCluster_freeCtr (s : State) (n : Nat) (f : Cluster → Cluster) : (s.modCluster n f).freeCtr = s.freeCtr := rfl
@[simp] theorem State.modCluster_nextNum (s : State) (n : Nat) (f : Cluster → Cluster) : (s.modCluster n f).nextNum = s.nextNum := rfl
@[simp] theorem State.modCluster_cores (s : State) (n : Nat) (f : Cluster → Cluster) : (s.modCluster n f).cores = s.cores := rfl
@[simp] theorem State.modCluster_dies (s : State) (n : Nat) (f : Cluster → Cluster) : (s.modCluster n f).dies = s.dies := rfl
@[simp] theorem State.modCluster_dram (s : State) (n : Nat) (f : Cluster → Cluster) : (s.modCluster n f).dram = s.dram := rfl
@[simp] theorem State.modCluster_dramBad (s : State) (n : Nat) (f : Cluster → Cluster) : (s.modCluster n f).dramBad = s.dramBad := rfl
@[simp] theorem State.modCluster_owners (s : State) (n : Nat) (f : Cluster → Cluster) : (s.modCluster n f).owners = s.owners := rfl
@[simp] theorem State.modCluster_releases (s : State) (n : Nat) (f : Cluster → Cluster) : (s.modCluster n f).releases = s.releases := rfl
@[simp] theorem State.modCluster_net (s : State) (n : Nat) (f : Cluster → Cluster) : (s.modCluster n f).net = s.net := rfl
@[simp] theorem State.modCluster_replies (s : State) (n : Nat) (f : Cluster → Cluster) : (s.modCluster n f).replies = s.replies := rfl
@[simp] theorem State.modCluster_ops (s : State) (n : Nat) (f : Cluster → Cluster) : (s.modCluster n f).ops = s.ops := rfl
@[simp] theorem State.modCluster_msgs (s : State) (n : Nat) (f : Cluster → Cluster) : (s.modCluster n f).msgs = s.msgs := rfl
@[simp] theorem State.modCluster_meets (s : State) (n : Nat) (f : Cluster → Cluster) : (s.modCluster n f).meets = s.meets := rfl
@[simp] theorem State.modCluster_arrivals (s : State) (n : Nat) (f : Cluster → Cluster) : (s.modCluster n f).arrivals = s.arrivals := rfl
@[simp] theorem State.modCluster_corners (s : State) (n : Nat) (f : Cluster → Cluster) : (s.modCluster n f).corners = s.corners := rfl
@[simp] theorem State.modCluster_exchange (s : State) (n : Nat) (f : Cluster → Cluster) : (s.modCluster n f).exchange = s.exchange := rfl
@[simp] theorem State.modCluster_replay (s : State) (n : Nat) (f : Cluster → Cluster) : (s.modCluster n f).replay = s.replay := rfl
@[simp] theorem State.modCluster_invs (s : State) (n : Nat) (f : Cluster → Cluster) : (s.modCluster n f).invs = s.invs := rfl
@[simp] theorem State.modCluster_stas (s : State) (n : Nat) (f : Cluster → Cluster) : (s.modCluster n f).stas = s.stas := rfl
@[simp] theorem State.modCluster_parts (s : State) (n : Nat) (f : Cluster → Cluster) : (s.modCluster n f).parts = s.parts := rfl
@[simp] theorem State.modCluster_launches (s : State) (n : Nat) (f : Cluster → Cluster) : (s.modCluster n f).launches = s.launches := rfl
@[simp] theorem State.modCluster_queues (s : State) (n : Nat) (f : Cluster → Cluster) : (s.modCluster n f).queues = s.queues := rfl
@[simp] theorem State.modCluster_budgets (s : State) (n : Nat) (f : Cluster → Cluster) : (s.modCluster n f).budgets = s.budgets := rfl
@[simp] theorem State.modCluster_period (s : State) (n : Nat) (f : Cluster → Cluster) : (s.modCluster n f).period = s.period := rfl
@[simp] theorem State.modCluster_peers (s : State) (n : Nat) (f : Cluster → Cluster) : (s.modCluster n f).peers = s.peers := rfl
@[simp] theorem State.modCluster_outbox (s : State) (n : Nat) (f : Cluster → Cluster) : (s.modCluster n f).outbox = s.outbox := rfl
@[simp] theorem State.modCluster_firmware (s : State) (n : Nat) (f : Cluster → Cluster) : (s.modCluster n f).firmware = s.firmware := rfl
@[simp] theorem State.modCluster_dramStacks (s : State) (n : Nat) (f : Cluster → Cluster) : (s.modCluster n f).dramStacks = s.dramStacks := rfl
@[simp] theorem State.modCluster_scrub (s : State) (n : Nat) (f : Cluster → Cluster) : (s.modCluster n f).scrub = s.scrub := rfl
@[simp] theorem State.modCluster_reencode (s : State) (n : Nat) (f : Cluster → Cluster) : (s.modCluster n f).reencode = s.reencode := rfl
@[simp] theorem State.modCluster_ports (s : State) (n : Nat) (f : Cluster → Cluster) : (s.modCluster n f).ports = s.ports := rfl
@[simp] theorem State.modCluster_unitLines (s : State) (n : Nat) (f : Cluster → Cluster) : (s.modCluster n f).unitLines = s.unitLines := rfl

@[simp] theorem State.modDie_cur (s : State) (n : Nat) (f : Die → Die) : (s.modDie n f).cur = s.cur := rfl
@[simp] theorem State.modDie_agenda (s : State) (n : Nat) (f : Die → Die) : (s.modDie n f).agenda = s.agenda := rfl
@[simp] theorem State.modDie_cycle (s : State) (n : Nat) (f : Die → Die) : (s.modDie n f).cycle = s.cycle := rfl
@[simp] theorem State.modDie_freeCtr (s : State) (n : Nat) (f : Die → Die) : (s.modDie n f).freeCtr = s.freeCtr := rfl
@[simp] theorem State.modDie_nextNum (s : State) (n : Nat) (f : Die → Die) : (s.modDie n f).nextNum = s.nextNum := rfl
@[simp] theorem State.modDie_cores (s : State) (n : Nat) (f : Die → Die) : (s.modDie n f).cores = s.cores := rfl
@[simp] theorem State.modDie_clusters (s : State) (n : Nat) (f : Die → Die) : (s.modDie n f).clusters = s.clusters := rfl
@[simp] theorem State.modDie_dram (s : State) (n : Nat) (f : Die → Die) : (s.modDie n f).dram = s.dram := rfl
@[simp] theorem State.modDie_dramBad (s : State) (n : Nat) (f : Die → Die) : (s.modDie n f).dramBad = s.dramBad := rfl
@[simp] theorem State.modDie_owners (s : State) (n : Nat) (f : Die → Die) : (s.modDie n f).owners = s.owners := rfl
@[simp] theorem State.modDie_releases (s : State) (n : Nat) (f : Die → Die) : (s.modDie n f).releases = s.releases := rfl
@[simp] theorem State.modDie_net (s : State) (n : Nat) (f : Die → Die) : (s.modDie n f).net = s.net := rfl
@[simp] theorem State.modDie_replies (s : State) (n : Nat) (f : Die → Die) : (s.modDie n f).replies = s.replies := rfl
@[simp] theorem State.modDie_ops (s : State) (n : Nat) (f : Die → Die) : (s.modDie n f).ops = s.ops := rfl
@[simp] theorem State.modDie_msgs (s : State) (n : Nat) (f : Die → Die) : (s.modDie n f).msgs = s.msgs := rfl
@[simp] theorem State.modDie_meets (s : State) (n : Nat) (f : Die → Die) : (s.modDie n f).meets = s.meets := rfl
@[simp] theorem State.modDie_arrivals (s : State) (n : Nat) (f : Die → Die) : (s.modDie n f).arrivals = s.arrivals := rfl
@[simp] theorem State.modDie_corners (s : State) (n : Nat) (f : Die → Die) : (s.modDie n f).corners = s.corners := rfl
@[simp] theorem State.modDie_exchange (s : State) (n : Nat) (f : Die → Die) : (s.modDie n f).exchange = s.exchange := rfl
@[simp] theorem State.modDie_replay (s : State) (n : Nat) (f : Die → Die) : (s.modDie n f).replay = s.replay := rfl
@[simp] theorem State.modDie_invs (s : State) (n : Nat) (f : Die → Die) : (s.modDie n f).invs = s.invs := rfl
@[simp] theorem State.modDie_stas (s : State) (n : Nat) (f : Die → Die) : (s.modDie n f).stas = s.stas := rfl
@[simp] theorem State.modDie_parts (s : State) (n : Nat) (f : Die → Die) : (s.modDie n f).parts = s.parts := rfl
@[simp] theorem State.modDie_launches (s : State) (n : Nat) (f : Die → Die) : (s.modDie n f).launches = s.launches := rfl
@[simp] theorem State.modDie_queues (s : State) (n : Nat) (f : Die → Die) : (s.modDie n f).queues = s.queues := rfl
@[simp] theorem State.modDie_budgets (s : State) (n : Nat) (f : Die → Die) : (s.modDie n f).budgets = s.budgets := rfl
@[simp] theorem State.modDie_period (s : State) (n : Nat) (f : Die → Die) : (s.modDie n f).period = s.period := rfl
@[simp] theorem State.modDie_peers (s : State) (n : Nat) (f : Die → Die) : (s.modDie n f).peers = s.peers := rfl
@[simp] theorem State.modDie_outbox (s : State) (n : Nat) (f : Die → Die) : (s.modDie n f).outbox = s.outbox := rfl
@[simp] theorem State.modDie_firmware (s : State) (n : Nat) (f : Die → Die) : (s.modDie n f).firmware = s.firmware := rfl
@[simp] theorem State.modDie_dramStacks (s : State) (n : Nat) (f : Die → Die) : (s.modDie n f).dramStacks = s.dramStacks := rfl
@[simp] theorem State.modDie_scrub (s : State) (n : Nat) (f : Die → Die) : (s.modDie n f).scrub = s.scrub := rfl
@[simp] theorem State.modDie_reencode (s : State) (n : Nat) (f : Die → Die) : (s.modDie n f).reencode = s.reencode := rfl
@[simp] theorem State.modDie_ports (s : State) (n : Nat) (f : Die → Die) : (s.modDie n f).ports = s.ports := rfl
@[simp] theorem State.modDie_unitLines (s : State) (n : Nat) (f : Die → Die) : (s.modDie n f).unitLines = s.unitLines := rfl

@[simp] theorem State.modQueue_cur (s : State) (n : Nat) (f : Queue → Queue) : (s.modQueue n f).cur = s.cur := rfl
@[simp] theorem State.modQueue_agenda (s : State) (n : Nat) (f : Queue → Queue) : (s.modQueue n f).agenda = s.agenda := rfl
@[simp] theorem State.modQueue_cycle (s : State) (n : Nat) (f : Queue → Queue) : (s.modQueue n f).cycle = s.cycle := rfl
@[simp] theorem State.modQueue_freeCtr (s : State) (n : Nat) (f : Queue → Queue) : (s.modQueue n f).freeCtr = s.freeCtr := rfl
@[simp] theorem State.modQueue_nextNum (s : State) (n : Nat) (f : Queue → Queue) : (s.modQueue n f).nextNum = s.nextNum := rfl
@[simp] theorem State.modQueue_cores (s : State) (n : Nat) (f : Queue → Queue) : (s.modQueue n f).cores = s.cores := rfl
@[simp] theorem State.modQueue_clusters (s : State) (n : Nat) (f : Queue → Queue) : (s.modQueue n f).clusters = s.clusters := rfl
@[simp] theorem State.modQueue_dies (s : State) (n : Nat) (f : Queue → Queue) : (s.modQueue n f).dies = s.dies := rfl
@[simp] theorem State.modQueue_dram (s : State) (n : Nat) (f : Queue → Queue) : (s.modQueue n f).dram = s.dram := rfl
@[simp] theorem State.modQueue_dramBad (s : State) (n : Nat) (f : Queue → Queue) : (s.modQueue n f).dramBad = s.dramBad := rfl
@[simp] theorem State.modQueue_owners (s : State) (n : Nat) (f : Queue → Queue) : (s.modQueue n f).owners = s.owners := rfl
@[simp] theorem State.modQueue_releases (s : State) (n : Nat) (f : Queue → Queue) : (s.modQueue n f).releases = s.releases := rfl
@[simp] theorem State.modQueue_net (s : State) (n : Nat) (f : Queue → Queue) : (s.modQueue n f).net = s.net := rfl
@[simp] theorem State.modQueue_replies (s : State) (n : Nat) (f : Queue → Queue) : (s.modQueue n f).replies = s.replies := rfl
@[simp] theorem State.modQueue_ops (s : State) (n : Nat) (f : Queue → Queue) : (s.modQueue n f).ops = s.ops := rfl
@[simp] theorem State.modQueue_msgs (s : State) (n : Nat) (f : Queue → Queue) : (s.modQueue n f).msgs = s.msgs := rfl
@[simp] theorem State.modQueue_meets (s : State) (n : Nat) (f : Queue → Queue) : (s.modQueue n f).meets = s.meets := rfl
@[simp] theorem State.modQueue_arrivals (s : State) (n : Nat) (f : Queue → Queue) : (s.modQueue n f).arrivals = s.arrivals := rfl
@[simp] theorem State.modQueue_corners (s : State) (n : Nat) (f : Queue → Queue) : (s.modQueue n f).corners = s.corners := rfl
@[simp] theorem State.modQueue_exchange (s : State) (n : Nat) (f : Queue → Queue) : (s.modQueue n f).exchange = s.exchange := rfl
@[simp] theorem State.modQueue_replay (s : State) (n : Nat) (f : Queue → Queue) : (s.modQueue n f).replay = s.replay := rfl
@[simp] theorem State.modQueue_invs (s : State) (n : Nat) (f : Queue → Queue) : (s.modQueue n f).invs = s.invs := rfl
@[simp] theorem State.modQueue_stas (s : State) (n : Nat) (f : Queue → Queue) : (s.modQueue n f).stas = s.stas := rfl
@[simp] theorem State.modQueue_parts (s : State) (n : Nat) (f : Queue → Queue) : (s.modQueue n f).parts = s.parts := rfl
@[simp] theorem State.modQueue_launches (s : State) (n : Nat) (f : Queue → Queue) : (s.modQueue n f).launches = s.launches := rfl
@[simp] theorem State.modQueue_budgets (s : State) (n : Nat) (f : Queue → Queue) : (s.modQueue n f).budgets = s.budgets := rfl
@[simp] theorem State.modQueue_period (s : State) (n : Nat) (f : Queue → Queue) : (s.modQueue n f).period = s.period := rfl
@[simp] theorem State.modQueue_peers (s : State) (n : Nat) (f : Queue → Queue) : (s.modQueue n f).peers = s.peers := rfl
@[simp] theorem State.modQueue_outbox (s : State) (n : Nat) (f : Queue → Queue) : (s.modQueue n f).outbox = s.outbox := rfl
@[simp] theorem State.modQueue_firmware (s : State) (n : Nat) (f : Queue → Queue) : (s.modQueue n f).firmware = s.firmware := rfl
@[simp] theorem State.modQueue_dramStacks (s : State) (n : Nat) (f : Queue → Queue) : (s.modQueue n f).dramStacks = s.dramStacks := rfl
@[simp] theorem State.modQueue_scrub (s : State) (n : Nat) (f : Queue → Queue) : (s.modQueue n f).scrub = s.scrub := rfl
@[simp] theorem State.modQueue_reencode (s : State) (n : Nat) (f : Queue → Queue) : (s.modQueue n f).reencode = s.reencode := rfl
@[simp] theorem State.modQueue_ports (s : State) (n : Nat) (f : Queue → Queue) : (s.modQueue n f).ports = s.ports := rfl
@[simp] theorem State.modQueue_unitLines (s : State) (n : Nat) (f : Queue → Queue) : (s.modQueue n f).unitLines = s.unitLines := rfl

@[simp] theorem State.modPeer_cur (s : State) (n : Nat) (f : Peer → Peer) : (s.modPeer n f).cur = s.cur := rfl
@[simp] theorem State.modPeer_agenda (s : State) (n : Nat) (f : Peer → Peer) : (s.modPeer n f).agenda = s.agenda := rfl
@[simp] theorem State.modPeer_cycle (s : State) (n : Nat) (f : Peer → Peer) : (s.modPeer n f).cycle = s.cycle := rfl
@[simp] theorem State.modPeer_freeCtr (s : State) (n : Nat) (f : Peer → Peer) : (s.modPeer n f).freeCtr = s.freeCtr := rfl
@[simp] theorem State.modPeer_nextNum (s : State) (n : Nat) (f : Peer → Peer) : (s.modPeer n f).nextNum = s.nextNum := rfl
@[simp] theorem State.modPeer_cores (s : State) (n : Nat) (f : Peer → Peer) : (s.modPeer n f).cores = s.cores := rfl
@[simp] theorem State.modPeer_clusters (s : State) (n : Nat) (f : Peer → Peer) : (s.modPeer n f).clusters = s.clusters := rfl
@[simp] theorem State.modPeer_dies (s : State) (n : Nat) (f : Peer → Peer) : (s.modPeer n f).dies = s.dies := rfl
@[simp] theorem State.modPeer_dram (s : State) (n : Nat) (f : Peer → Peer) : (s.modPeer n f).dram = s.dram := rfl
@[simp] theorem State.modPeer_dramBad (s : State) (n : Nat) (f : Peer → Peer) : (s.modPeer n f).dramBad = s.dramBad := rfl
@[simp] theorem State.modPeer_owners (s : State) (n : Nat) (f : Peer → Peer) : (s.modPeer n f).owners = s.owners := rfl
@[simp] theorem State.modPeer_releases (s : State) (n : Nat) (f : Peer → Peer) : (s.modPeer n f).releases = s.releases := rfl
@[simp] theorem State.modPeer_net (s : State) (n : Nat) (f : Peer → Peer) : (s.modPeer n f).net = s.net := rfl
@[simp] theorem State.modPeer_replies (s : State) (n : Nat) (f : Peer → Peer) : (s.modPeer n f).replies = s.replies := rfl
@[simp] theorem State.modPeer_ops (s : State) (n : Nat) (f : Peer → Peer) : (s.modPeer n f).ops = s.ops := rfl
@[simp] theorem State.modPeer_msgs (s : State) (n : Nat) (f : Peer → Peer) : (s.modPeer n f).msgs = s.msgs := rfl
@[simp] theorem State.modPeer_meets (s : State) (n : Nat) (f : Peer → Peer) : (s.modPeer n f).meets = s.meets := rfl
@[simp] theorem State.modPeer_arrivals (s : State) (n : Nat) (f : Peer → Peer) : (s.modPeer n f).arrivals = s.arrivals := rfl
@[simp] theorem State.modPeer_corners (s : State) (n : Nat) (f : Peer → Peer) : (s.modPeer n f).corners = s.corners := rfl
@[simp] theorem State.modPeer_exchange (s : State) (n : Nat) (f : Peer → Peer) : (s.modPeer n f).exchange = s.exchange := rfl
@[simp] theorem State.modPeer_replay (s : State) (n : Nat) (f : Peer → Peer) : (s.modPeer n f).replay = s.replay := rfl
@[simp] theorem State.modPeer_invs (s : State) (n : Nat) (f : Peer → Peer) : (s.modPeer n f).invs = s.invs := rfl
@[simp] theorem State.modPeer_stas (s : State) (n : Nat) (f : Peer → Peer) : (s.modPeer n f).stas = s.stas := rfl
@[simp] theorem State.modPeer_parts (s : State) (n : Nat) (f : Peer → Peer) : (s.modPeer n f).parts = s.parts := rfl
@[simp] theorem State.modPeer_launches (s : State) (n : Nat) (f : Peer → Peer) : (s.modPeer n f).launches = s.launches := rfl
@[simp] theorem State.modPeer_queues (s : State) (n : Nat) (f : Peer → Peer) : (s.modPeer n f).queues = s.queues := rfl
@[simp] theorem State.modPeer_budgets (s : State) (n : Nat) (f : Peer → Peer) : (s.modPeer n f).budgets = s.budgets := rfl
@[simp] theorem State.modPeer_period (s : State) (n : Nat) (f : Peer → Peer) : (s.modPeer n f).period = s.period := rfl
@[simp] theorem State.modPeer_outbox (s : State) (n : Nat) (f : Peer → Peer) : (s.modPeer n f).outbox = s.outbox := rfl
@[simp] theorem State.modPeer_firmware (s : State) (n : Nat) (f : Peer → Peer) : (s.modPeer n f).firmware = s.firmware := rfl
@[simp] theorem State.modPeer_dramStacks (s : State) (n : Nat) (f : Peer → Peer) : (s.modPeer n f).dramStacks = s.dramStacks := rfl
@[simp] theorem State.modPeer_scrub (s : State) (n : Nat) (f : Peer → Peer) : (s.modPeer n f).scrub = s.scrub := rfl
@[simp] theorem State.modPeer_reencode (s : State) (n : Nat) (f : Peer → Peer) : (s.modPeer n f).reencode = s.reencode := rfl
@[simp] theorem State.modPeer_ports (s : State) (n : Nat) (f : Peer → Peer) : (s.modPeer n f).ports = s.ports := rfl
@[simp] theorem State.modPeer_unitLines (s : State) (n : Nat) (f : Peer → Peer) : (s.modPeer n f).unitLines = s.unitLines := rfl

@[simp] theorem State.modLaunch_cur (s : State) (n : Nat) (f : Launch → Launch) : (s.modLaunch n f).cur = s.cur := rfl
@[simp] theorem State.modLaunch_agenda (s : State) (n : Nat) (f : Launch → Launch) : (s.modLaunch n f).agenda = s.agenda := rfl
@[simp] theorem State.modLaunch_cycle (s : State) (n : Nat) (f : Launch → Launch) : (s.modLaunch n f).cycle = s.cycle := rfl
@[simp] theorem State.modLaunch_freeCtr (s : State) (n : Nat) (f : Launch → Launch) : (s.modLaunch n f).freeCtr = s.freeCtr := rfl
@[simp] theorem State.modLaunch_nextNum (s : State) (n : Nat) (f : Launch → Launch) : (s.modLaunch n f).nextNum = s.nextNum := rfl
@[simp] theorem State.modLaunch_cores (s : State) (n : Nat) (f : Launch → Launch) : (s.modLaunch n f).cores = s.cores := rfl
@[simp] theorem State.modLaunch_clusters (s : State) (n : Nat) (f : Launch → Launch) : (s.modLaunch n f).clusters = s.clusters := rfl
@[simp] theorem State.modLaunch_dies (s : State) (n : Nat) (f : Launch → Launch) : (s.modLaunch n f).dies = s.dies := rfl
@[simp] theorem State.modLaunch_dram (s : State) (n : Nat) (f : Launch → Launch) : (s.modLaunch n f).dram = s.dram := rfl
@[simp] theorem State.modLaunch_dramBad (s : State) (n : Nat) (f : Launch → Launch) : (s.modLaunch n f).dramBad = s.dramBad := rfl
@[simp] theorem State.modLaunch_owners (s : State) (n : Nat) (f : Launch → Launch) : (s.modLaunch n f).owners = s.owners := rfl
@[simp] theorem State.modLaunch_releases (s : State) (n : Nat) (f : Launch → Launch) : (s.modLaunch n f).releases = s.releases := rfl
@[simp] theorem State.modLaunch_net (s : State) (n : Nat) (f : Launch → Launch) : (s.modLaunch n f).net = s.net := rfl
@[simp] theorem State.modLaunch_replies (s : State) (n : Nat) (f : Launch → Launch) : (s.modLaunch n f).replies = s.replies := rfl
@[simp] theorem State.modLaunch_ops (s : State) (n : Nat) (f : Launch → Launch) : (s.modLaunch n f).ops = s.ops := rfl
@[simp] theorem State.modLaunch_msgs (s : State) (n : Nat) (f : Launch → Launch) : (s.modLaunch n f).msgs = s.msgs := rfl
@[simp] theorem State.modLaunch_meets (s : State) (n : Nat) (f : Launch → Launch) : (s.modLaunch n f).meets = s.meets := rfl
@[simp] theorem State.modLaunch_arrivals (s : State) (n : Nat) (f : Launch → Launch) : (s.modLaunch n f).arrivals = s.arrivals := rfl
@[simp] theorem State.modLaunch_corners (s : State) (n : Nat) (f : Launch → Launch) : (s.modLaunch n f).corners = s.corners := rfl
@[simp] theorem State.modLaunch_exchange (s : State) (n : Nat) (f : Launch → Launch) : (s.modLaunch n f).exchange = s.exchange := rfl
@[simp] theorem State.modLaunch_replay (s : State) (n : Nat) (f : Launch → Launch) : (s.modLaunch n f).replay = s.replay := rfl
@[simp] theorem State.modLaunch_invs (s : State) (n : Nat) (f : Launch → Launch) : (s.modLaunch n f).invs = s.invs := rfl
@[simp] theorem State.modLaunch_stas (s : State) (n : Nat) (f : Launch → Launch) : (s.modLaunch n f).stas = s.stas := rfl
@[simp] theorem State.modLaunch_parts (s : State) (n : Nat) (f : Launch → Launch) : (s.modLaunch n f).parts = s.parts := rfl
@[simp] theorem State.modLaunch_queues (s : State) (n : Nat) (f : Launch → Launch) : (s.modLaunch n f).queues = s.queues := rfl
@[simp] theorem State.modLaunch_budgets (s : State) (n : Nat) (f : Launch → Launch) : (s.modLaunch n f).budgets = s.budgets := rfl
@[simp] theorem State.modLaunch_period (s : State) (n : Nat) (f : Launch → Launch) : (s.modLaunch n f).period = s.period := rfl
@[simp] theorem State.modLaunch_peers (s : State) (n : Nat) (f : Launch → Launch) : (s.modLaunch n f).peers = s.peers := rfl
@[simp] theorem State.modLaunch_outbox (s : State) (n : Nat) (f : Launch → Launch) : (s.modLaunch n f).outbox = s.outbox := rfl
@[simp] theorem State.modLaunch_firmware (s : State) (n : Nat) (f : Launch → Launch) : (s.modLaunch n f).firmware = s.firmware := rfl
@[simp] theorem State.modLaunch_dramStacks (s : State) (n : Nat) (f : Launch → Launch) : (s.modLaunch n f).dramStacks = s.dramStacks := rfl
@[simp] theorem State.modLaunch_scrub (s : State) (n : Nat) (f : Launch → Launch) : (s.modLaunch n f).scrub = s.scrub := rfl
@[simp] theorem State.modLaunch_reencode (s : State) (n : Nat) (f : Launch → Launch) : (s.modLaunch n f).reencode = s.reencode := rfl
@[simp] theorem State.modLaunch_ports (s : State) (n : Nat) (f : Launch → Launch) : (s.modLaunch n f).ports = s.ports := rfl
@[simp] theorem State.modLaunch_unitLines (s : State) (n : Nat) (f : Launch → Launch) : (s.modLaunch n f).unitLines = s.unitLines := rfl

@[simp] theorem State.modFirmware_cur (s : State) (f : Firmware → Firmware) : (s.modFirmware f).cur = s.cur := rfl
@[simp] theorem State.modFirmware_agenda (s : State) (f : Firmware → Firmware) : (s.modFirmware f).agenda = s.agenda := rfl
@[simp] theorem State.modFirmware_cycle (s : State) (f : Firmware → Firmware) : (s.modFirmware f).cycle = s.cycle := rfl
@[simp] theorem State.modFirmware_freeCtr (s : State) (f : Firmware → Firmware) : (s.modFirmware f).freeCtr = s.freeCtr := rfl
@[simp] theorem State.modFirmware_nextNum (s : State) (f : Firmware → Firmware) : (s.modFirmware f).nextNum = s.nextNum := rfl
@[simp] theorem State.modFirmware_cores (s : State) (f : Firmware → Firmware) : (s.modFirmware f).cores = s.cores := rfl
@[simp] theorem State.modFirmware_clusters (s : State) (f : Firmware → Firmware) : (s.modFirmware f).clusters = s.clusters := rfl
@[simp] theorem State.modFirmware_dies (s : State) (f : Firmware → Firmware) : (s.modFirmware f).dies = s.dies := rfl
@[simp] theorem State.modFirmware_dram (s : State) (f : Firmware → Firmware) : (s.modFirmware f).dram = s.dram := rfl
@[simp] theorem State.modFirmware_dramBad (s : State) (f : Firmware → Firmware) : (s.modFirmware f).dramBad = s.dramBad := rfl
@[simp] theorem State.modFirmware_owners (s : State) (f : Firmware → Firmware) : (s.modFirmware f).owners = s.owners := rfl
@[simp] theorem State.modFirmware_releases (s : State) (f : Firmware → Firmware) : (s.modFirmware f).releases = s.releases := rfl
@[simp] theorem State.modFirmware_net (s : State) (f : Firmware → Firmware) : (s.modFirmware f).net = s.net := rfl
@[simp] theorem State.modFirmware_replies (s : State) (f : Firmware → Firmware) : (s.modFirmware f).replies = s.replies := rfl
@[simp] theorem State.modFirmware_ops (s : State) (f : Firmware → Firmware) : (s.modFirmware f).ops = s.ops := rfl
@[simp] theorem State.modFirmware_msgs (s : State) (f : Firmware → Firmware) : (s.modFirmware f).msgs = s.msgs := rfl
@[simp] theorem State.modFirmware_meets (s : State) (f : Firmware → Firmware) : (s.modFirmware f).meets = s.meets := rfl
@[simp] theorem State.modFirmware_arrivals (s : State) (f : Firmware → Firmware) : (s.modFirmware f).arrivals = s.arrivals := rfl
@[simp] theorem State.modFirmware_corners (s : State) (f : Firmware → Firmware) : (s.modFirmware f).corners = s.corners := rfl
@[simp] theorem State.modFirmware_exchange (s : State) (f : Firmware → Firmware) : (s.modFirmware f).exchange = s.exchange := rfl
@[simp] theorem State.modFirmware_replay (s : State) (f : Firmware → Firmware) : (s.modFirmware f).replay = s.replay := rfl
@[simp] theorem State.modFirmware_invs (s : State) (f : Firmware → Firmware) : (s.modFirmware f).invs = s.invs := rfl
@[simp] theorem State.modFirmware_stas (s : State) (f : Firmware → Firmware) : (s.modFirmware f).stas = s.stas := rfl
@[simp] theorem State.modFirmware_parts (s : State) (f : Firmware → Firmware) : (s.modFirmware f).parts = s.parts := rfl
@[simp] theorem State.modFirmware_launches (s : State) (f : Firmware → Firmware) : (s.modFirmware f).launches = s.launches := rfl
@[simp] theorem State.modFirmware_queues (s : State) (f : Firmware → Firmware) : (s.modFirmware f).queues = s.queues := rfl
@[simp] theorem State.modFirmware_budgets (s : State) (f : Firmware → Firmware) : (s.modFirmware f).budgets = s.budgets := rfl
@[simp] theorem State.modFirmware_period (s : State) (f : Firmware → Firmware) : (s.modFirmware f).period = s.period := rfl
@[simp] theorem State.modFirmware_peers (s : State) (f : Firmware → Firmware) : (s.modFirmware f).peers = s.peers := rfl
@[simp] theorem State.modFirmware_outbox (s : State) (f : Firmware → Firmware) : (s.modFirmware f).outbox = s.outbox := rfl
@[simp] theorem State.modFirmware_dramStacks (s : State) (f : Firmware → Firmware) : (s.modFirmware f).dramStacks = s.dramStacks := rfl
@[simp] theorem State.modFirmware_scrub (s : State) (f : Firmware → Firmware) : (s.modFirmware f).scrub = s.scrub := rfl
@[simp] theorem State.modFirmware_reencode (s : State) (f : Firmware → Firmware) : (s.modFirmware f).reencode = s.reencode := rfl
@[simp] theorem State.modFirmware_ports (s : State) (f : Firmware → Firmware) : (s.modFirmware f).ports = s.ports := rfl
@[simp] theorem State.modFirmware_unitLines (s : State) (f : Firmware → Firmware) : (s.modFirmware f).unitLines = s.unitLines := rfl

@[simp] theorem State.count_cur (s : State) (a b : Nat) : (s.count a b).cur = s.cur := rfl
@[simp] theorem State.count_agenda (s : State) (a b : Nat) : (s.count a b).agenda = s.agenda := rfl
@[simp] theorem State.count_cycle (s : State) (a b : Nat) : (s.count a b).cycle = s.cycle := rfl
@[simp] theorem State.count_freeCtr (s : State) (a b : Nat) : (s.count a b).freeCtr = s.freeCtr := rfl
@[simp] theorem State.count_nextNum (s : State) (a b : Nat) : (s.count a b).nextNum = s.nextNum := rfl
@[simp] theorem State.count_cores (s : State) (a b : Nat) : (s.count a b).cores = s.cores := rfl
@[simp] theorem State.count_clusters (s : State) (a b : Nat) : (s.count a b).clusters = s.clusters := rfl
@[simp] theorem State.count_dies (s : State) (a b : Nat) : (s.count a b).dies = s.dies := rfl
@[simp] theorem State.count_dram (s : State) (a b : Nat) : (s.count a b).dram = s.dram := rfl
@[simp] theorem State.count_dramBad (s : State) (a b : Nat) : (s.count a b).dramBad = s.dramBad := rfl
@[simp] theorem State.count_owners (s : State) (a b : Nat) : (s.count a b).owners = s.owners := rfl
@[simp] theorem State.count_releases (s : State) (a b : Nat) : (s.count a b).releases = s.releases := rfl
@[simp] theorem State.count_net (s : State) (a b : Nat) : (s.count a b).net = s.net := rfl
@[simp] theorem State.count_replies (s : State) (a b : Nat) : (s.count a b).replies = s.replies := rfl
@[simp] theorem State.count_ops (s : State) (a b : Nat) : (s.count a b).ops = s.ops := rfl
@[simp] theorem State.count_msgs (s : State) (a b : Nat) : (s.count a b).msgs = s.msgs := rfl
@[simp] theorem State.count_meets (s : State) (a b : Nat) : (s.count a b).meets = s.meets := rfl
@[simp] theorem State.count_arrivals (s : State) (a b : Nat) : (s.count a b).arrivals = s.arrivals := rfl
@[simp] theorem State.count_corners (s : State) (a b : Nat) : (s.count a b).corners = s.corners := rfl
@[simp] theorem State.count_exchange (s : State) (a b : Nat) : (s.count a b).exchange = s.exchange := rfl
@[simp] theorem State.count_replay (s : State) (a b : Nat) : (s.count a b).replay = s.replay := rfl
@[simp] theorem State.count_invs (s : State) (a b : Nat) : (s.count a b).invs = s.invs := rfl
@[simp] theorem State.count_stas (s : State) (a b : Nat) : (s.count a b).stas = s.stas := rfl
@[simp] theorem State.count_parts (s : State) (a b : Nat) : (s.count a b).parts = s.parts := rfl
@[simp] theorem State.count_launches (s : State) (a b : Nat) : (s.count a b).launches = s.launches := rfl
@[simp] theorem State.count_queues (s : State) (a b : Nat) : (s.count a b).queues = s.queues := rfl
@[simp] theorem State.count_budgets (s : State) (a b : Nat) : (s.count a b).budgets = s.budgets := rfl
@[simp] theorem State.count_period (s : State) (a b : Nat) : (s.count a b).period = s.period := rfl
@[simp] theorem State.count_peers (s : State) (a b : Nat) : (s.count a b).peers = s.peers := rfl
@[simp] theorem State.count_outbox (s : State) (a b : Nat) : (s.count a b).outbox = s.outbox := rfl
@[simp] theorem State.count_dramStacks (s : State) (a b : Nat) : (s.count a b).dramStacks = s.dramStacks := rfl
@[simp] theorem State.count_scrub (s : State) (a b : Nat) : (s.count a b).scrub = s.scrub := rfl
@[simp] theorem State.count_reencode (s : State) (a b : Nat) : (s.count a b).reencode = s.reencode := rfl
@[simp] theorem State.count_ports (s : State) (a b : Nat) : (s.count a b).ports = s.ports := rfl
@[simp] theorem State.count_unitLines (s : State) (a b : Nat) : (s.count a b).unitLines = s.unitLines := rfl

/-! ### Reads after writes -/

theorem State.core_setCore (s : State) (c d : Nat) (k : Core) : (s.setCore c k).core d = if d = c then k else s.core d :=
  Tab.get_put _ _ _ _ _
@[simp] theorem State.core_setCore_self (s : State) (c : Nat) (k : Core) : (s.setCore c k).core c = k := by
  simp [State.core_setCore]
theorem State.core_modCore (s : State) (c d : Nat) (f : Core → Core) :
    (s.modCore c f).core d = if d = c then f (s.core c) else s.core d := State.core_setCore s c d _
@[simp] theorem State.core_modCore_self (s : State) (c : Nat) (f : Core → Core) : (s.modCore c f).core c = f (s.core c) := by
  simp [State.core_modCore]
theorem State.core_modCore_ne (s : State) (c d : Nat) (f : Core → Core) (h : d ≠ c) : (s.modCore c f).core d = s.core d := by
  simp [State.core_modCore, h]
theorem Core.ctx_modCtx (k : Core) (x y : Nat) (f : Context → Context) :
    (k.modCtx x f).ctx y = if y = x then f (k.ctx x) else k.ctx y := Tab.get_put _ _ _ _ _
@[simp] theorem Core.ctx_modCtx_self (k : Core) (x : Nat) (f : Context → Context) : (k.modCtx x f).ctx x = f (k.ctx x) := by
  simp [Core.ctx_modCtx]
theorem Core.ctx_modCtx_ne (k : Core) (x y : Nat) (f : Context → Context) (h : y ≠ x) : (k.modCtx x f).ctx y = k.ctx y := by
  simp [Core.ctx_modCtx, h]
theorem State.core_modCtx_ne (s : State) (c x d : Nat) (f : Context → Context) (h : d ≠ c) :
    (s.modCtx c x f).core d = s.core d := State.core_modCore_ne s c d _ h
@[simp] theorem State.core_modCtx_self (s : State) (c x : Nat) (f : Context → Context) :
    (s.modCtx c x f).core c = (s.core c).modCtx x f := State.core_modCore_self s c _
@[simp] theorem State.ctx_modCtx_self (s : State) (c x : Nat) (f : Context → Context) :
    (s.modCtx c x f).ctx c x = f (s.ctx c x) := by simp [State.ctx]
theorem State.ctx_modCtx_ne (s : State) (c x d y : Nat) (f : Context → Context) (h : (d, y) ≠ (c, x)) :
    (s.modCtx c x f).ctx d y = s.ctx d y := by
  by_cases hc : d = c
  · subst hc
    have hy : y ≠ x := fun e => h (by rw [e])
    simp [State.ctx, Core.ctx_modCtx_ne, hy]
  · simp [State.ctx, State.core_modCtx_ne, hc]
@[simp] theorem State.me_modMe (s : State) (f : Context → Context) : (s.modMe f).me = f s.me :=
  State.ctx_modCtx_self s s.cur.1 s.cur.2 f
@[simp] theorem State.here_modHere (s : State) (f : Core → Core) : (s.modHere f).here = f s.here :=
  State.core_modCore_self s s.cur.1 f
@[simp] theorem State.here_modMe (s : State) (f : Context → Context) : (s.modMe f).here = s.here.modCtx s.cur.2 f :=
  State.core_modCtx_self s s.cur.1 s.cur.2 f
@[simp] theorem State.me_writeG (s : State) (n : Nat) (w : Word) (p : Bool) : (s.writeG n w p).me = s.me.writeG n w p :=
  State.me_modMe s _
@[simp] theorem State.me_writeV (s : State) (n : Nat) (v : VVal) : (s.writeV n v).me = s.me.writeV n v :=
  State.me_modMe s _

/-! ### One core -/

@[simp] theorem Core.modCtx_part (k : Core) (x : Nat) (f : Context → Context) : (k.modCtx x f).part = k.part := rfl
@[simp] theorem Core.modCtx_killed (k : Core) (x : Nat) (f : Context → Context) : (k.modCtx x f).killed = k.killed := rfl
@[simp] theorem Core.modCtx_killCause (k : Core) (x : Nat) (f : Context → Context) : (k.modCtx x f).killCause = k.killCause := rfl
@[simp] theorem Core.modCtx_told (k : Core) (x : Nat) (f : Context → Context) : (k.modCtx x f).told = k.told := rfl
@[simp] theorem Core.modCtx_store (k : Core) (x : Nat) (f : Context → Context) : (k.modCtx x f).store = k.store := rfl
@[simp] theorem Core.modCtx_cap (k : Core) (x : Nat) (f : Context → Context) : (k.modCtx x f).cap = k.cap := rfl
@[simp] theorem Core.modCtx_shared (k : Core) (x : Nat) (f : Context → Context) : (k.modCtx x f).shared = k.shared := rfl
@[simp] theorem Core.modCtx_need (k : Core) (x : Nat) (f : Context → Context) : (k.modCtx x f).need = k.need := rfl
@[simp] theorem Core.modCtx_mqw (k : Core) (x : Nat) (f : Context → Context) : (k.modCtx x f).mqw = k.mqw := rfl
@[simp] theorem Core.modCtx_tvec (k : Core) (x : Nat) (f : Context → Context) : (k.modCtx x f).tvec = k.tvec := rfl
@[simp] theorem Core.modCtx_tcause (k : Core) (x : Nat) (f : Context → Context) : (k.modCtx x f).tcause = k.tcause := rfl
@[simp] theorem Core.modCtx_tpc (k : Core) (x : Nat) (f : Context → Context) : (k.modCtx x f).tpc = k.tpc := rfl
@[simp] theorem Core.modCtx_tval (k : Core) (x : Nat) (f : Context → Context) : (k.modCtx x f).tval = k.tval := rfl
@[simp] theorem Core.modCtx_tctx (k : Core) (x : Nat) (f : Context → Context) : (k.modCtx x f).tctx = k.tctx := rfl
@[simp] theorem Core.modCtx_tret (k : Core) (x : Nat) (f : Context → Context) : (k.modCtx x f).tret = k.tret := rfl
@[simp] theorem Core.modCtx_tstep (k : Core) (x : Nat) (f : Context → Context) : (k.modCtx x f).tstep = k.tstep := rfl
@[simp] theorem Core.modCtx_hchk (k : Core) (x : Nat) (f : Context → Context) : (k.modCtx x f).hchk = k.hchk := rfl
@[simp] theorem Core.modCtx_tsk (k : Core) (x : Nat) (f : Context → Context) : (k.modCtx x f).tsk = k.tsk := rfl
@[simp] theorem Core.modCtx_cov (k : Core) (x : Nat) (f : Context → Context) : (k.modCtx x f).cov = k.cov := rfl
@[simp] theorem Core.modCtx_win (k : Core) (x : Nat) (f : Context → Context) : (k.modCtx x f).win = k.win := rfl
@[simp] theorem Core.modCtx_ssn (k : Core) (x : Nat) (f : Context → Context) : (k.modCtx x f).ssn = k.ssn := rfl
@[simp] theorem Core.modCtx_mgc (k : Core) (x : Nat) (f : Context → Context) : (k.modCtx x f).mgc = k.mgc := rfl
@[simp] theorem Core.modCtx_pivl (k : Core) (x : Nat) (f : Context → Context) : (k.modCtx x f).pivl = k.pivl := rfl
@[simp] theorem Core.modCtx_bilrok (k : Core) (x : Nat) (f : Context → Context) : (k.modCtx x f).bilrok = k.bilrok := rfl
@[simp] theorem Core.modCtx_loopPc (k : Core) (x : Nat) (f : Context → Context) : (k.modCtx x f).loopPc = k.loopPc := rfl
@[simp] theorem Core.modCtx_handler (k : Core) (x : Nat) (f : Context → Context) : (k.modCtx x f).handler = k.handler := rfl
@[simp] theorem Core.modCtx_trapQueue (k : Core) (x : Nat) (f : Context → Context) : (k.modCtx x f).trapQueue = k.trapQueue := rfl
@[simp] theorem Core.modCtx_dueTrap (k : Core) (x : Nat) (f : Context → Context) : (k.modCtx x f).dueTrap = k.dueTrap := rfl
@[simp] theorem Core.modCtx_gang (k : Core) (x : Nat) (f : Context → Context) : (k.modCtx x f).gang = k.gang := rfl
@[simp] theorem Core.modCtx_pairing (k : Core) (x : Nat) (f : Context → Context) : (k.modCtx x f).pairing = k.pairing := rfl
@[simp] theorem Core.modCtx_phase (k : Core) (x : Nat) (f : Context → Context) : (k.modCtx x f).phase = k.phase := rfl
@[simp] theorem Core.modCtx_barriers (k : Core) (x : Nat) (f : Context → Context) : (k.modCtx x f).barriers = k.barriers := rfl
@[simp] theorem Core.modCtx_turn (k : Core) (x : Nat) (f : Context → Context) : (k.modCtx x f).turn = k.turn := rfl
@[simp] theorem Core.modCtx_issued (k : Core) (x : Nat) (f : Context → Context) : (k.modCtx x f).issued = k.issued := rfl
@[simp] theorem Core.modCtx_buffer (k : Core) (x : Nat) (f : Context → Context) : (k.modCtx x f).buffer = k.buffer := rfl
@[simp] theorem Core.modCtx_micro (k : Core) (x : Nat) (f : Context → Context) : (k.modCtx x f).micro = k.micro := rfl
@[simp] theorem Core.modCtx_mailbox (k : Core) (x : Nat) (f : Context → Context) : (k.modCtx x f).mailbox = k.mailbox := rfl
@[simp] theorem Core.modCtx_inbox (k : Core) (x : Nat) (f : Context → Context) : (k.modCtx x f).inbox = k.inbox := rfl
@[simp] theorem Core.modCtx_task (k : Core) (x : Nat) (f : Context → Context) : (k.modCtx x f).task = k.task := rfl
@[simp] theorem Core.modCtx_cvdone (k : Core) (x : Nat) (f : Context → Context) : (k.modCtx x f).cvdone = k.cvdone := rfl
@[simp] theorem Core.modCtx_era (k : Core) (x : Nat) (f : Context → Context) : (k.modCtx x f).era = k.era := rfl
@[simp] theorem Core.modCtx_lastId (k : Core) (x : Nat) (f : Context → Context) : (k.modCtx x f).lastId = k.lastId := rfl
@[simp] theorem Core.modCtx_consts (k : Core) (x : Nat) (f : Context → Context) : (k.modCtx x f).consts = k.consts := rfl
@[simp] theorem Core.modCtx_mq (k : Core) (x : Nat) (f : Context → Context) : (k.modCtx x f).mq = k.mq := rfl
@[simp] theorem Core.modCtx_batches (k : Core) (x : Nat) (f : Context → Context) : (k.modCtx x f).batches = k.batches := rfl
@[simp] theorem Core.modCtx_openBatch (k : Core) (x : Nat) (f : Context → Context) : (k.modCtx x f).openBatch = k.openBatch := rfl
@[simp] theorem Core.modCtx_nextBatch (k : Core) (x : Nat) (f : Context → Context) : (k.modCtx x f).nextBatch = k.nextBatch := rfl
@[simp] theorem Core.modCtx_tiles (k : Core) (x : Nat) (f : Context → Context) : (k.modCtx x f).tiles = k.tiles := rfl
@[simp] theorem Core.modCtx_eqs (k : Core) (x : Nat) (f : Context → Context) : (k.modCtx x f).eqs = k.eqs := rfl
@[simp] theorem Core.modCtx_serial (k : Core) (x : Nat) (f : Context → Context) : (k.modCtx x f).serial = k.serial := rfl
@[simp] theorem Core.modCtx_joins (k : Core) (x : Nat) (f : Context → Context) : (k.modCtx x f).joins = k.joins := rfl
@[simp] theorem Core.modCtx_nextId (k : Core) (x : Nat) (f : Context → Context) : (k.modCtx x f).nextId = k.nextId := rfl
@[simp] theorem Core.modCtx_transfers (k : Core) (x : Nat) (f : Context → Context) : (k.modCtx x f).transfers = k.transfers := rfl
@[simp] theorem Core.modCtx_conf (k : Core) (x : Nat) (f : Context → Context) : (k.modCtx x f).conf = k.conf := rfl
@[simp] theorem Core.modCtx_mode (k : Core) (x : Nat) (f : Context → Context) : (k.modCtx x f).mode = k.mode := rfl
@[simp] theorem Core.modCtx_holding (k : Core) (x : Nat) (f : Context → Context) : (k.modCtx x f).holding = k.holding := rfl
@[simp] theorem Core.modCtx_oldHolds (k : Core) (x : Nat) (f : Context → Context) : (k.modCtx x f).oldHolds = k.oldHolds := rfl
@[simp] theorem Core.modCtx_groups (k : Core) (x : Nat) (f : Context → Context) : (k.modCtx x f).groups = k.groups := rfl
@[simp] theorem Core.modCtx_statics (k : Core) (x : Nat) (f : Context → Context) : (k.modCtx x f).statics = k.statics := rfl
@[simp] theorem Core.modCtx_selfTest (k : Core) (x : Nat) (f : Context → Context) : (k.modCtx x f).selfTest = k.selfTest := rfl
@[simp] theorem Core.modCtx_tested (k : Core) (x : Nat) (f : Context → Context) : (k.modCtx x f).tested = k.tested := rfl
@[simp] theorem Core.modCtx_saved (k : Core) (x : Nat) (f : Context → Context) : (k.modCtx x f).saved = k.saved := rfl
@[simp] theorem Core.modCtx_redeliver (k : Core) (x : Nat) (f : Context → Context) : (k.modCtx x f).redeliver = k.redeliver := rfl
@[simp] theorem Core.modCtx_tracing (k : Core) (x : Nat) (f : Context → Context) : (k.modCtx x f).tracing = k.tracing := rfl
@[simp] theorem Core.modCtx_trace (k : Core) (x : Nat) (f : Context → Context) : (k.modCtx x f).trace = k.trace := rfl

/-! ### One context -/

@[simp] theorem Context.writeG_live (x : Context) (n : Nat) (w : Word) (p : Bool) : (x.writeG n w p).live = x.live := by
  unfold Context.writeG; split <;> rfl
@[simp] theorem Context.writeG_pc (x : Context) (n : Nat) (w : Word) (p : Bool) : (x.writeG n w p).pc = x.pc := by
  unfold Context.writeG; split <;> rfl
@[simp] theorem Context.writeG_v (x : Context) (n : Nat) (w : Word) (p : Bool) : (x.writeG n w p).v = x.v := by
  unfold Context.writeG; split <;> rfl
@[simp] theorem Context.writeG_k (x : Context) (n : Nat) (w : Word) (p : Bool) : (x.writeG n w p).k = x.k := by
  unfold Context.writeG; split <;> rfl
@[simp] theorem Context.writeG_q (x : Context) (n : Nat) (w : Word) (p : Bool) : (x.writeG n w p).q = x.q := by
  unfold Context.writeG; split <;> rfl
@[simp] theorem Context.writeG_e (x : Context) (n : Nat) (w : Word) (p : Bool) : (x.writeG n w p).e = x.e := by
  unfold Context.writeG; split <;> rfl
@[simp] theorem Context.writeG_fm (x : Context) (n : Nat) (w : Word) (p : Bool) : (x.writeG n w p).fm = x.fm := by
  unfold Context.writeG; split <;> rfl
@[simp] theorem Context.writeG_lp (x : Context) (n : Nat) (w : Word) (p : Bool) : (x.writeG n w p).lp = x.lp := by
  unfold Context.writeG; split <;> rfl
@[simp] theorem Context.writeG_lpd (x : Context) (n : Nat) (w : Word) (p : Bool) : (x.writeG n w p).lpd = x.lpd := by
  unfold Context.writeG; split <;> rfl
@[simp] theorem Context.writeG_km (x : Context) (n : Nat) (w : Word) (p : Bool) : (x.writeG n w p).km = x.km := by
  unfold Context.writeG; split <;> rfl
@[simp] theorem Context.writeG_rmode (x : Context) (n : Nat) (w : Word) (p : Bool) : (x.writeG n w p).rmode = x.rmode := by
  unfold Context.writeG; split <;> rfl
@[simp] theorem Context.writeG_fpf (x : Context) (n : Nat) (w : Word) (p : Bool) : (x.writeG n w p).fpf = x.fpf := by
  unfold Context.writeG; split <;> rfl
@[simp] theorem Context.writeG_efr (x : Context) (n : Nat) (w : Word) (p : Bool) : (x.writeG n w p).efr = x.efr := by
  unfold Context.writeG; split <;> rfl
@[simp] theorem Context.writeG_chk (x : Context) (n : Nat) (w : Word) (p : Bool) : (x.writeG n w p).chk = x.chk := by
  unfold Context.writeG; split <;> rfl
@[simp] theorem Context.writeG_det (x : Context) (n : Nat) (w : Word) (p : Bool) : (x.writeG n w p).det = x.det := by
  unfold Context.writeG; split <;> rfl
@[simp] theorem Context.writeG_liveV (x : Context) (n : Nat) (w : Word) (p : Bool) : (x.writeG n w p).liveV = x.liveV := by
  unfold Context.writeG; split <;> rfl
@[simp] theorem Context.writeG_shadow (x : Context) (n : Nat) (w : Word) (p : Bool) : (x.writeG n w p).shadow = x.shadow := by
  unfold Context.writeG; split <;> rfl
@[simp] theorem Context.writeG_meet (x : Context) (n : Nat) (w : Word) (p : Bool) : (x.writeG n w p).meet = x.meet := by
  unfold Context.writeG; split <;> rfl
@[simp] theorem Context.writeG_relMark (x : Context) (n : Nat) (w : Word) (p : Bool) : (x.writeG n w p).relMark = x.relMark := by
  unfold Context.writeG; split <;> rfl
@[simp] theorem Context.writeG_seen (x : Context) (n : Nat) (w : Word) (p : Bool) : (x.writeG n w p).seen = x.seen := by
  unfold Context.writeG; split <;> rfl
@[simp] theorem Context.writeG_wait (x : Context) (n : Nat) (w : Word) (p : Bool) : (x.writeG n w p).wait = x.wait := by
  unfold Context.writeG; split <;> rfl
@[simp] theorem Context.writeG_waitLen (x : Context) (n : Nat) (w : Word) (p : Bool) : (x.writeG n w p).waitLen = x.waitLen := by
  unfold Context.writeG; split <;> rfl
@[simp] theorem Context.writeG_waitTaint (x : Context) (n : Nat) (w : Word) (p : Bool) : (x.writeG n w p).waitTaint = x.waitTaint := by
  unfold Context.writeG; split <;> rfl
@[simp] theorem Context.writeG_waitClasses (x : Context) (n : Nat) (w : Word) (p : Bool) : (x.writeG n w p).waitClasses = x.waitClasses := by
  unfold Context.writeG; split <;> rfl
@[simp] theorem Context.writeG_loads (x : Context) (n : Nat) (w : Word) (p : Bool) : (x.writeG n w p).loads = x.loads := by
  unfold Context.writeG; split <;> rfl
@[simp] theorem Context.writeG_frozen (x : Context) (n : Nat) (w : Word) (p : Bool) : (x.writeG n w p).frozen = x.frozen := by
  unfold Context.writeG; split <;> rfl
@[simp] theorem Context.writeG_walkErr (x : Context) (n : Nat) (w : Word) (p : Bool) : (x.writeG n w p).walkErr = x.walkErr := by
  unfold Context.writeG; split <;> rfl
@[simp] theorem Context.writeG_side (x : Context) (n : Nat) (w : Word) (p : Bool) : (x.writeG n w p).side = x.side := by
  unfold Context.writeG; split <;> rfl
@[simp] theorem Context.writeG_half (x : Context) (n : Nat) (w : Word) (p : Bool) : (x.writeG n w p).half = x.half := by
  unfold Context.writeG; split <;> rfl
@[simp] theorem Context.writeG_issued (x : Context) (n : Nat) (w : Word) (p : Bool) : (x.writeG n w p).issued = x.issued := by
  unfold Context.writeG; split <;> rfl
@[simp] theorem Context.writeG_chkRead (x : Context) (n : Nat) (w : Word) (p : Bool) : (x.writeG n w p).chkRead = x.chkRead := by
  unfold Context.writeG; split <;> rfl
@[simp] theorem Context.writeG_life (x : Context) (n : Nat) (w : Word) (p : Bool) : (x.writeG n w p).life = x.life := by
  unfold Context.writeG; split <;> rfl
@[simp] theorem Context.writeV_live (x : Context) (n : Nat) (v : VVal) : (x.writeV n v).live = x.live := rfl
@[simp] theorem Context.writeV_pc (x : Context) (n : Nat) (v : VVal) : (x.writeV n v).pc = x.pc := rfl
@[simp] theorem Context.writeV_g (x : Context) (n : Nat) (v : VVal) : (x.writeV n v).g = x.g := rfl
@[simp] theorem Context.writeV_k (x : Context) (n : Nat) (v : VVal) : (x.writeV n v).k = x.k := rfl
@[simp] theorem Context.writeV_q (x : Context) (n : Nat) (v : VVal) : (x.writeV n v).q = x.q := rfl
@[simp] theorem Context.writeV_e (x : Context) (n : Nat) (v : VVal) : (x.writeV n v).e = x.e := rfl
@[simp] theorem Context.writeV_fm (x : Context) (n : Nat) (v : VVal) : (x.writeV n v).fm = x.fm := rfl
@[simp] theorem Context.writeV_lp (x : Context) (n : Nat) (v : VVal) : (x.writeV n v).lp = x.lp := rfl
@[simp] theorem Context.writeV_lpd (x : Context) (n : Nat) (v : VVal) : (x.writeV n v).lpd = x.lpd := rfl
@[simp] theorem Context.writeV_km (x : Context) (n : Nat) (v : VVal) : (x.writeV n v).km = x.km := rfl
@[simp] theorem Context.writeV_rmode (x : Context) (n : Nat) (v : VVal) : (x.writeV n v).rmode = x.rmode := rfl
@[simp] theorem Context.writeV_fpf (x : Context) (n : Nat) (v : VVal) : (x.writeV n v).fpf = x.fpf := rfl
@[simp] theorem Context.writeV_efr (x : Context) (n : Nat) (v : VVal) : (x.writeV n v).efr = x.efr := rfl
@[simp] theorem Context.writeV_chk (x : Context) (n : Nat) (v : VVal) : (x.writeV n v).chk = x.chk := rfl
@[simp] theorem Context.writeV_det (x : Context) (n : Nat) (v : VVal) : (x.writeV n v).det = x.det := rfl
@[simp] theorem Context.writeV_liveG (x : Context) (n : Nat) (v : VVal) : (x.writeV n v).liveG = x.liveG := rfl
@[simp] theorem Context.writeV_shadow (x : Context) (n : Nat) (v : VVal) : (x.writeV n v).shadow = x.shadow := rfl
@[simp] theorem Context.writeV_meet (x : Context) (n : Nat) (v : VVal) : (x.writeV n v).meet = x.meet := rfl
@[simp] theorem Context.writeV_relMark (x : Context) (n : Nat) (v : VVal) : (x.writeV n v).relMark = x.relMark := rfl
@[simp] theorem Context.writeV_seen (x : Context) (n : Nat) (v : VVal) : (x.writeV n v).seen = x.seen := rfl
@[simp] theorem Context.writeV_wait (x : Context) (n : Nat) (v : VVal) : (x.writeV n v).wait = x.wait := rfl
@[simp] theorem Context.writeV_waitLen (x : Context) (n : Nat) (v : VVal) : (x.writeV n v).waitLen = x.waitLen := rfl
@[simp] theorem Context.writeV_waitTaint (x : Context) (n : Nat) (v : VVal) : (x.writeV n v).waitTaint = x.waitTaint := rfl
@[simp] theorem Context.writeV_waitClasses (x : Context) (n : Nat) (v : VVal) : (x.writeV n v).waitClasses = x.waitClasses := rfl
@[simp] theorem Context.writeV_loads (x : Context) (n : Nat) (v : VVal) : (x.writeV n v).loads = x.loads := rfl
@[simp] theorem Context.writeV_frozen (x : Context) (n : Nat) (v : VVal) : (x.writeV n v).frozen = x.frozen := rfl
@[simp] theorem Context.writeV_walkErr (x : Context) (n : Nat) (v : VVal) : (x.writeV n v).walkErr = x.walkErr := rfl
@[simp] theorem Context.writeV_side (x : Context) (n : Nat) (v : VVal) : (x.writeV n v).side = x.side := rfl
@[simp] theorem Context.writeV_half (x : Context) (n : Nat) (v : VVal) : (x.writeV n v).half = x.half := rfl
@[simp] theorem Context.writeV_issued (x : Context) (n : Nat) (v : VVal) : (x.writeV n v).issued = x.issued := rfl
@[simp] theorem Context.writeV_chkRead (x : Context) (n : Nat) (v : VVal) : (x.writeV n v).chkRead = x.chkRead := rfl
@[simp] theorem Context.writeV_life (x : Context) (n : Nat) (v : VVal) : (x.writeV n v).life = x.life := rfl
@[simp] theorem Context.writeK_live (x : Context) (n : Nat) (w : Word) : (x.writeK n w).live = x.live := rfl
@[simp] theorem Context.writeK_pc (x : Context) (n : Nat) (w : Word) : (x.writeK n w).pc = x.pc := rfl
@[simp] theorem Context.writeK_g (x : Context) (n : Nat) (w : Word) : (x.writeK n w).g = x.g := rfl
@[simp] theorem Context.writeK_v (x : Context) (n : Nat) (w : Word) : (x.writeK n w).v = x.v := rfl
@[simp] theorem Context.writeK_q (x : Context) (n : Nat) (w : Word) : (x.writeK n w).q = x.q := rfl
@[simp] theorem Context.writeK_e (x : Context) (n : Nat) (w : Word) : (x.writeK n w).e = x.e := rfl
@[simp] theorem Context.writeK_fm (x : Context) (n : Nat) (w : Word) : (x.writeK n w).fm = x.fm := rfl
@[simp] theorem Context.writeK_lp (x : Context) (n : Nat) (w : Word) : (x.writeK n w).lp = x.lp := rfl
@[simp] theorem Context.writeK_lpd (x : Context) (n : Nat) (w : Word) : (x.writeK n w).lpd = x.lpd := rfl
@[simp] theorem Context.writeK_km (x : Context) (n : Nat) (w : Word) : (x.writeK n w).km = x.km := rfl
@[simp] theorem Context.writeK_rmode (x : Context) (n : Nat) (w : Word) : (x.writeK n w).rmode = x.rmode := rfl
@[simp] theorem Context.writeK_fpf (x : Context) (n : Nat) (w : Word) : (x.writeK n w).fpf = x.fpf := rfl
@[simp] theorem Context.writeK_efr (x : Context) (n : Nat) (w : Word) : (x.writeK n w).efr = x.efr := rfl
@[simp] theorem Context.writeK_chk (x : Context) (n : Nat) (w : Word) : (x.writeK n w).chk = x.chk := rfl
@[simp] theorem Context.writeK_det (x : Context) (n : Nat) (w : Word) : (x.writeK n w).det = x.det := rfl
@[simp] theorem Context.writeK_liveG (x : Context) (n : Nat) (w : Word) : (x.writeK n w).liveG = x.liveG := rfl
@[simp] theorem Context.writeK_liveV (x : Context) (n : Nat) (w : Word) : (x.writeK n w).liveV = x.liveV := rfl
@[simp] theorem Context.writeK_shadow (x : Context) (n : Nat) (w : Word) : (x.writeK n w).shadow = x.shadow := rfl
@[simp] theorem Context.writeK_meet (x : Context) (n : Nat) (w : Word) : (x.writeK n w).meet = x.meet := rfl
@[simp] theorem Context.writeK_relMark (x : Context) (n : Nat) (w : Word) : (x.writeK n w).relMark = x.relMark := rfl
@[simp] theorem Context.writeK_seen (x : Context) (n : Nat) (w : Word) : (x.writeK n w).seen = x.seen := rfl
@[simp] theorem Context.writeK_wait (x : Context) (n : Nat) (w : Word) : (x.writeK n w).wait = x.wait := rfl
@[simp] theorem Context.writeK_waitLen (x : Context) (n : Nat) (w : Word) : (x.writeK n w).waitLen = x.waitLen := rfl
@[simp] theorem Context.writeK_waitTaint (x : Context) (n : Nat) (w : Word) : (x.writeK n w).waitTaint = x.waitTaint := rfl
@[simp] theorem Context.writeK_waitClasses (x : Context) (n : Nat) (w : Word) : (x.writeK n w).waitClasses = x.waitClasses := rfl
@[simp] theorem Context.writeK_loads (x : Context) (n : Nat) (w : Word) : (x.writeK n w).loads = x.loads := rfl
@[simp] theorem Context.writeK_frozen (x : Context) (n : Nat) (w : Word) : (x.writeK n w).frozen = x.frozen := rfl
@[simp] theorem Context.writeK_walkErr (x : Context) (n : Nat) (w : Word) : (x.writeK n w).walkErr = x.walkErr := rfl
@[simp] theorem Context.writeK_side (x : Context) (n : Nat) (w : Word) : (x.writeK n w).side = x.side := rfl
@[simp] theorem Context.writeK_half (x : Context) (n : Nat) (w : Word) : (x.writeK n w).half = x.half := rfl
@[simp] theorem Context.writeK_issued (x : Context) (n : Nat) (w : Word) : (x.writeK n w).issued = x.issued := rfl
@[simp] theorem Context.writeK_chkRead (x : Context) (n : Nat) (w : Word) : (x.writeK n w).chkRead = x.chkRead := rfl
@[simp] theorem Context.writeK_life (x : Context) (n : Nat) (w : Word) : (x.writeK n w).life = x.life := rfl
@[simp] theorem Context.writeQ_live (x : Context) (n : Nat) (w : QSet) : (x.writeQ n w).live = x.live := rfl
@[simp] theorem Context.writeQ_pc (x : Context) (n : Nat) (w : QSet) : (x.writeQ n w).pc = x.pc := rfl
@[simp] theorem Context.writeQ_g (x : Context) (n : Nat) (w : QSet) : (x.writeQ n w).g = x.g := rfl
@[simp] theorem Context.writeQ_v (x : Context) (n : Nat) (w : QSet) : (x.writeQ n w).v = x.v := rfl
@[simp] theorem Context.writeQ_k (x : Context) (n : Nat) (w : QSet) : (x.writeQ n w).k = x.k := rfl
@[simp] theorem Context.writeQ_e (x : Context) (n : Nat) (w : QSet) : (x.writeQ n w).e = x.e := rfl
@[simp] theorem Context.writeQ_fm (x : Context) (n : Nat) (w : QSet) : (x.writeQ n w).fm = x.fm := rfl
@[simp] theorem Context.writeQ_lp (x : Context) (n : Nat) (w : QSet) : (x.writeQ n w).lp = x.lp := rfl
@[simp] theorem Context.writeQ_lpd (x : Context) (n : Nat) (w : QSet) : (x.writeQ n w).lpd = x.lpd := rfl
@[simp] theorem Context.writeQ_km (x : Context) (n : Nat) (w : QSet) : (x.writeQ n w).km = x.km := rfl
@[simp] theorem Context.writeQ_rmode (x : Context) (n : Nat) (w : QSet) : (x.writeQ n w).rmode = x.rmode := rfl
@[simp] theorem Context.writeQ_fpf (x : Context) (n : Nat) (w : QSet) : (x.writeQ n w).fpf = x.fpf := rfl
@[simp] theorem Context.writeQ_efr (x : Context) (n : Nat) (w : QSet) : (x.writeQ n w).efr = x.efr := rfl
@[simp] theorem Context.writeQ_chk (x : Context) (n : Nat) (w : QSet) : (x.writeQ n w).chk = x.chk := rfl
@[simp] theorem Context.writeQ_det (x : Context) (n : Nat) (w : QSet) : (x.writeQ n w).det = x.det := rfl
@[simp] theorem Context.writeQ_liveG (x : Context) (n : Nat) (w : QSet) : (x.writeQ n w).liveG = x.liveG := rfl
@[simp] theorem Context.writeQ_liveV (x : Context) (n : Nat) (w : QSet) : (x.writeQ n w).liveV = x.liveV := rfl
@[simp] theorem Context.writeQ_shadow (x : Context) (n : Nat) (w : QSet) : (x.writeQ n w).shadow = x.shadow := rfl
@[simp] theorem Context.writeQ_meet (x : Context) (n : Nat) (w : QSet) : (x.writeQ n w).meet = x.meet := rfl
@[simp] theorem Context.writeQ_relMark (x : Context) (n : Nat) (w : QSet) : (x.writeQ n w).relMark = x.relMark := rfl
@[simp] theorem Context.writeQ_seen (x : Context) (n : Nat) (w : QSet) : (x.writeQ n w).seen = x.seen := rfl
@[simp] theorem Context.writeQ_wait (x : Context) (n : Nat) (w : QSet) : (x.writeQ n w).wait = x.wait := rfl
@[simp] theorem Context.writeQ_waitLen (x : Context) (n : Nat) (w : QSet) : (x.writeQ n w).waitLen = x.waitLen := rfl
@[simp] theorem Context.writeQ_waitTaint (x : Context) (n : Nat) (w : QSet) : (x.writeQ n w).waitTaint = x.waitTaint := rfl
@[simp] theorem Context.writeQ_waitClasses (x : Context) (n : Nat) (w : QSet) : (x.writeQ n w).waitClasses = x.waitClasses := rfl
@[simp] theorem Context.writeQ_loads (x : Context) (n : Nat) (w : QSet) : (x.writeQ n w).loads = x.loads := rfl
@[simp] theorem Context.writeQ_frozen (x : Context) (n : Nat) (w : QSet) : (x.writeQ n w).frozen = x.frozen := rfl
@[simp] theorem Context.writeQ_walkErr (x : Context) (n : Nat) (w : QSet) : (x.writeQ n w).walkErr = x.walkErr := rfl
@[simp] theorem Context.writeQ_side (x : Context) (n : Nat) (w : QSet) : (x.writeQ n w).side = x.side := rfl
@[simp] theorem Context.writeQ_half (x : Context) (n : Nat) (w : QSet) : (x.writeQ n w).half = x.half := rfl
@[simp] theorem Context.writeQ_issued (x : Context) (n : Nat) (w : QSet) : (x.writeQ n w).issued = x.issued := rfl
@[simp] theorem Context.writeQ_chkRead (x : Context) (n : Nat) (w : QSet) : (x.writeQ n w).chkRead = x.chkRead := rfl
@[simp] theorem Context.writeQ_life (x : Context) (n : Nat) (w : QSet) : (x.writeQ n w).life = x.life := rfl
@[simp] theorem Context.writeE_live (x : Context) (n : Nat) (w : Word) : (x.writeE n w).live = x.live := rfl
@[simp] theorem Context.writeE_pc (x : Context) (n : Nat) (w : Word) : (x.writeE n w).pc = x.pc := rfl
@[simp] theorem Context.writeE_g (x : Context) (n : Nat) (w : Word) : (x.writeE n w).g = x.g := rfl
@[simp] theorem Context.writeE_v (x : Context) (n : Nat) (w : Word) : (x.writeE n w).v = x.v := rfl
@[simp] theorem Context.writeE_k (x : Context) (n : Nat) (w : Word) : (x.writeE n w).k = x.k := rfl
@[simp] theorem Context.writeE_q (x : Context) (n : Nat) (w : Word) : (x.writeE n w).q = x.q := rfl
@[simp] theorem Context.writeE_fm (x : Context) (n : Nat) (w : Word) : (x.writeE n w).fm = x.fm := rfl
@[simp] theorem Context.writeE_lp (x : Context) (n : Nat) (w : Word) : (x.writeE n w).lp = x.lp := rfl
@[simp] theorem Context.writeE_lpd (x : Context) (n : Nat) (w : Word) : (x.writeE n w).lpd = x.lpd := rfl
@[simp] theorem Context.writeE_km (x : Context) (n : Nat) (w : Word) : (x.writeE n w).km = x.km := rfl
@[simp] theorem Context.writeE_rmode (x : Context) (n : Nat) (w : Word) : (x.writeE n w).rmode = x.rmode := rfl
@[simp] theorem Context.writeE_fpf (x : Context) (n : Nat) (w : Word) : (x.writeE n w).fpf = x.fpf := rfl
@[simp] theorem Context.writeE_efr (x : Context) (n : Nat) (w : Word) : (x.writeE n w).efr = x.efr := rfl
@[simp] theorem Context.writeE_chk (x : Context) (n : Nat) (w : Word) : (x.writeE n w).chk = x.chk := rfl
@[simp] theorem Context.writeE_det (x : Context) (n : Nat) (w : Word) : (x.writeE n w).det = x.det := rfl
@[simp] theorem Context.writeE_liveG (x : Context) (n : Nat) (w : Word) : (x.writeE n w).liveG = x.liveG := rfl
@[simp] theorem Context.writeE_liveV (x : Context) (n : Nat) (w : Word) : (x.writeE n w).liveV = x.liveV := rfl
@[simp] theorem Context.writeE_shadow (x : Context) (n : Nat) (w : Word) : (x.writeE n w).shadow = x.shadow := rfl
@[simp] theorem Context.writeE_meet (x : Context) (n : Nat) (w : Word) : (x.writeE n w).meet = x.meet := rfl
@[simp] theorem Context.writeE_relMark (x : Context) (n : Nat) (w : Word) : (x.writeE n w).relMark = x.relMark := rfl
@[simp] theorem Context.writeE_seen (x : Context) (n : Nat) (w : Word) : (x.writeE n w).seen = x.seen := rfl
@[simp] theorem Context.writeE_wait (x : Context) (n : Nat) (w : Word) : (x.writeE n w).wait = x.wait := rfl
@[simp] theorem Context.writeE_waitLen (x : Context) (n : Nat) (w : Word) : (x.writeE n w).waitLen = x.waitLen := rfl
@[simp] theorem Context.writeE_waitTaint (x : Context) (n : Nat) (w : Word) : (x.writeE n w).waitTaint = x.waitTaint := rfl
@[simp] theorem Context.writeE_waitClasses (x : Context) (n : Nat) (w : Word) : (x.writeE n w).waitClasses = x.waitClasses := rfl
@[simp] theorem Context.writeE_loads (x : Context) (n : Nat) (w : Word) : (x.writeE n w).loads = x.loads := rfl
@[simp] theorem Context.writeE_frozen (x : Context) (n : Nat) (w : Word) : (x.writeE n w).frozen = x.frozen := rfl
@[simp] theorem Context.writeE_walkErr (x : Context) (n : Nat) (w : Word) : (x.writeE n w).walkErr = x.walkErr := rfl
@[simp] theorem Context.writeE_side (x : Context) (n : Nat) (w : Word) : (x.writeE n w).side = x.side := rfl
@[simp] theorem Context.writeE_half (x : Context) (n : Nat) (w : Word) : (x.writeE n w).half = x.half := rfl
@[simp] theorem Context.writeE_issued (x : Context) (n : Nat) (w : Word) : (x.writeE n w).issued = x.issued := rfl
@[simp] theorem Context.writeE_chkRead (x : Context) (n : Nat) (w : Word) : (x.writeE n w).chkRead = x.chkRead := rfl
@[simp] theorem Context.writeE_life (x : Context) (n : Nat) (w : Word) : (x.writeE n w).life = x.life := rfl
@[simp] theorem Context.setChk_live (x : Context) (n : Nat) : (x.setChk n).live = x.live := rfl
@[simp] theorem Context.setChk_pc (x : Context) (n : Nat) : (x.setChk n).pc = x.pc := rfl
@[simp] theorem Context.setChk_g (x : Context) (n : Nat) : (x.setChk n).g = x.g := rfl
@[simp] theorem Context.setChk_v (x : Context) (n : Nat) : (x.setChk n).v = x.v := rfl
@[simp] theorem Context.setChk_k (x : Context) (n : Nat) : (x.setChk n).k = x.k := rfl
@[simp] theorem Context.setChk_q (x : Context) (n : Nat) : (x.setChk n).q = x.q := rfl
@[simp] theorem Context.setChk_e (x : Context) (n : Nat) : (x.setChk n).e = x.e := rfl
@[simp] theorem Context.setChk_fm (x : Context) (n : Nat) : (x.setChk n).fm = x.fm := rfl
@[simp] theorem Context.setChk_lp (x : Context) (n : Nat) : (x.setChk n).lp = x.lp := rfl
@[simp] theorem Context.setChk_lpd (x : Context) (n : Nat) : (x.setChk n).lpd = x.lpd := rfl
@[simp] theorem Context.setChk_km (x : Context) (n : Nat) : (x.setChk n).km = x.km := rfl
@[simp] theorem Context.setChk_rmode (x : Context) (n : Nat) : (x.setChk n).rmode = x.rmode := rfl
@[simp] theorem Context.setChk_fpf (x : Context) (n : Nat) : (x.setChk n).fpf = x.fpf := rfl
@[simp] theorem Context.setChk_efr (x : Context) (n : Nat) : (x.setChk n).efr = x.efr := rfl
@[simp] theorem Context.setChk_det (x : Context) (n : Nat) : (x.setChk n).det = x.det := rfl
@[simp] theorem Context.setChk_liveG (x : Context) (n : Nat) : (x.setChk n).liveG = x.liveG := rfl
@[simp] theorem Context.setChk_liveV (x : Context) (n : Nat) : (x.setChk n).liveV = x.liveV := rfl
@[simp] theorem Context.setChk_shadow (x : Context) (n : Nat) : (x.setChk n).shadow = x.shadow := rfl
@[simp] theorem Context.setChk_meet (x : Context) (n : Nat) : (x.setChk n).meet = x.meet := rfl
@[simp] theorem Context.setChk_relMark (x : Context) (n : Nat) : (x.setChk n).relMark = x.relMark := rfl
@[simp] theorem Context.setChk_seen (x : Context) (n : Nat) : (x.setChk n).seen = x.seen := rfl
@[simp] theorem Context.setChk_wait (x : Context) (n : Nat) : (x.setChk n).wait = x.wait := rfl
@[simp] theorem Context.setChk_waitLen (x : Context) (n : Nat) : (x.setChk n).waitLen = x.waitLen := rfl
@[simp] theorem Context.setChk_waitTaint (x : Context) (n : Nat) : (x.setChk n).waitTaint = x.waitTaint := rfl
@[simp] theorem Context.setChk_waitClasses (x : Context) (n : Nat) : (x.setChk n).waitClasses = x.waitClasses := rfl
@[simp] theorem Context.setChk_loads (x : Context) (n : Nat) : (x.setChk n).loads = x.loads := rfl
@[simp] theorem Context.setChk_frozen (x : Context) (n : Nat) : (x.setChk n).frozen = x.frozen := rfl
@[simp] theorem Context.setChk_walkErr (x : Context) (n : Nat) : (x.setChk n).walkErr = x.walkErr := rfl
@[simp] theorem Context.setChk_side (x : Context) (n : Nat) : (x.setChk n).side = x.side := rfl
@[simp] theorem Context.setChk_half (x : Context) (n : Nat) : (x.setChk n).half = x.half := rfl
@[simp] theorem Context.setChk_issued (x : Context) (n : Nat) : (x.setChk n).issued = x.issued := rfl
@[simp] theorem Context.setChk_chkRead (x : Context) (n : Nat) : (x.setChk n).chkRead = x.chkRead := rfl
@[simp] theorem Context.setChk_life (x : Context) (n : Nat) : (x.setChk n).life = x.life := rfl

/-- The loop step changes the pc and the loop levels and nothing else (R22). -/
theorem loopStep_shape (n : Nat) (x : Context) :
    loopStep n x = { x with pc := (loopStep n x).pc, lp := (loopStep n x).lp, lpd := (loopStep n x).lpd } := by
  induction n generalizing x with
  | zero => rfl
  | succ n ih =>
    cases n with
    | zero =>
      unfold loopStep
      dsimp only
      split <;> rfl
    | succ m =>
      unfold loopStep
      dsimp only
      split
      · rfl
      · split
        · rw [ih]
        · rfl
/-- Continuing at an address changes the pc and the loop levels and nothing else. -/
theorem Context.goto_shape (x : Context) (b : Bool) (w : Word) :
    x.goto b w = { x with pc := (x.goto b w).pc, lp := (x.goto b w).lp, lpd := (x.goto b w).lpd } := by
  unfold Context.goto
  dsimp only
  split
  · rfl
  · split
    · rw [loopStep_shape]
    · rfl
@[simp] theorem Context.goto_live (x : Context) (b : Bool) (w : Word) : (x.goto b w).live = x.live := by
  rw [Context.goto_shape]
@[simp] theorem Context.goto_g (x : Context) (b : Bool) (w : Word) : (x.goto b w).g = x.g := by
  rw [Context.goto_shape]
@[simp] theorem Context.goto_v (x : Context) (b : Bool) (w : Word) : (x.goto b w).v = x.v := by
  rw [Context.goto_shape]
@[simp] theorem Context.goto_k (x : Context) (b : Bool) (w : Word) : (x.goto b w).k = x.k := by
  rw [Context.goto_shape]
@[simp] theorem Context.goto_q (x : Context) (b : Bool) (w : Word) : (x.goto b w).q = x.q := by
  rw [Context.goto_shape]
@[simp] theorem Context.goto_e (x : Context) (b : Bool) (w : Word) : (x.goto b w).e = x.e := by
  rw [Context.goto_shape]
@[simp] theorem Context.goto_fm (x : Context) (b : Bool) (w : Word) : (x.goto b w).fm = x.fm := by
  rw [Context.goto_shape]
@[simp] theorem Context.goto_km (x : Context) (b : Bool) (w : Word) : (x.goto b w).km = x.km := by
  rw [Context.goto_shape]
@[simp] theorem Context.goto_rmode (x : Context) (b : Bool) (w : Word) : (x.goto b w).rmode = x.rmode := by
  rw [Context.goto_shape]
@[simp] theorem Context.goto_fpf (x : Context) (b : Bool) (w : Word) : (x.goto b w).fpf = x.fpf := by
  rw [Context.goto_shape]
@[simp] theorem Context.goto_efr (x : Context) (b : Bool) (w : Word) : (x.goto b w).efr = x.efr := by
  rw [Context.goto_shape]
@[simp] theorem Context.goto_chk (x : Context) (b : Bool) (w : Word) : (x.goto b w).chk = x.chk := by
  rw [Context.goto_shape]
@[simp] theorem Context.goto_det (x : Context) (b : Bool) (w : Word) : (x.goto b w).det = x.det := by
  rw [Context.goto_shape]
@[simp] theorem Context.goto_liveG (x : Context) (b : Bool) (w : Word) : (x.goto b w).liveG = x.liveG := by
  rw [Context.goto_shape]
@[simp] theorem Context.goto_liveV (x : Context) (b : Bool) (w : Word) : (x.goto b w).liveV = x.liveV := by
  rw [Context.goto_shape]
@[simp] theorem Context.goto_shadow (x : Context) (b : Bool) (w : Word) : (x.goto b w).shadow = x.shadow := by
  rw [Context.goto_shape]
@[simp] theorem Context.goto_meet (x : Context) (b : Bool) (w : Word) : (x.goto b w).meet = x.meet := by
  rw [Context.goto_shape]
@[simp] theorem Context.goto_relMark (x : Context) (b : Bool) (w : Word) : (x.goto b w).relMark = x.relMark := by
  rw [Context.goto_shape]
@[simp] theorem Context.goto_seen (x : Context) (b : Bool) (w : Word) : (x.goto b w).seen = x.seen := by
  rw [Context.goto_shape]
@[simp] theorem Context.goto_wait (x : Context) (b : Bool) (w : Word) : (x.goto b w).wait = x.wait := by
  rw [Context.goto_shape]
@[simp] theorem Context.goto_waitLen (x : Context) (b : Bool) (w : Word) : (x.goto b w).waitLen = x.waitLen := by
  rw [Context.goto_shape]
@[simp] theorem Context.goto_waitTaint (x : Context) (b : Bool) (w : Word) : (x.goto b w).waitTaint = x.waitTaint := by
  rw [Context.goto_shape]
@[simp] theorem Context.goto_waitClasses (x : Context) (b : Bool) (w : Word) : (x.goto b w).waitClasses = x.waitClasses := by
  rw [Context.goto_shape]
@[simp] theorem Context.goto_loads (x : Context) (b : Bool) (w : Word) : (x.goto b w).loads = x.loads := by
  rw [Context.goto_shape]
@[simp] theorem Context.goto_frozen (x : Context) (b : Bool) (w : Word) : (x.goto b w).frozen = x.frozen := by
  rw [Context.goto_shape]
@[simp] theorem Context.goto_walkErr (x : Context) (b : Bool) (w : Word) : (x.goto b w).walkErr = x.walkErr := by
  rw [Context.goto_shape]
@[simp] theorem Context.goto_side (x : Context) (b : Bool) (w : Word) : (x.goto b w).side = x.side := by
  rw [Context.goto_shape]
@[simp] theorem Context.goto_half (x : Context) (b : Bool) (w : Word) : (x.goto b w).half = x.half := by
  rw [Context.goto_shape]
@[simp] theorem Context.goto_issued (x : Context) (b : Bool) (w : Word) : (x.goto b w).issued = x.issued := by
  rw [Context.goto_shape]
@[simp] theorem Context.goto_chkRead (x : Context) (b : Bool) (w : Word) : (x.goto b w).chkRead = x.chkRead := by
  rw [Context.goto_shape]
@[simp] theorem Context.goto_life (x : Context) (b : Bool) (w : Word) : (x.goto b w).life = x.life := by
  rw [Context.goto_shape]

/-- g0 reads zero; another register reads what was written to it. -/
theorem Context.readG_writeG (x : Context) (n m : Nat) (w : Word) (p : Bool) :
    (x.writeG n w p).readG m = if m = n then (if n = 0 then {} else { bits := w, poison := p }) else x.readG m := by
  by_cases h0 : m = 0
  · by_cases h : m = n
    · subst h; simp [Context.readG, h0]
    · subst h0; simp [Context.readG, h]
  · by_cases hn : n = 0
    · subst hn; simp [Context.writeG, h0]
    · by_cases h : m = n
      · subst h; simp [Context.writeG, Context.readG, h0, Tab.get_put_self]
      · simp [Context.writeG, Context.readG, h0, hn, h, Tab.get_put_ne]
@[simp] theorem Context.readG_zero (x : Context) : x.readG 0 = {} := rfl
theorem Context.readV_writeV (x : Context) (n m : Nat) (v : VVal) :
    (x.writeV n v).readV m = if m = n then v else x.readV m := Tab.get_put _ _ _ _ _
theorem Context.readK_writeK (x : Context) (n m : Nat) (w : Word) :
    (x.writeK n w).readK m = if m = n then w else x.readK m := Tab.get_put _ _ _ _ _
theorem Context.readQ_writeQ (x : Context) (n m : Nat) (w : QSet) :
    (x.writeQ n w).readQ m = if m = n then w else x.readQ m := Tab.get_put _ _ _ _ _
theorem Context.readE_writeE (x : Context) (n m : Nat) (w : Word) :
    (x.writeE n w).readE m = if m = n then w else x.readE m := Tab.get_put _ _ _ _ _

@[simp] theorem Context.readV_writeG (x : Context) (n : Nat) (w : Word) (p : Bool) (m : Nat) : (x.writeG n w p).readV m = x.readV m := by
  simp [Context.readV]
@[simp] theorem Context.readK_writeG (x : Context) (n : Nat) (w : Word) (p : Bool) (m : Nat) : (x.writeG n w p).readK m = x.readK m := by
  simp [Context.readK]
@[simp] theorem Context.readQ_writeG (x : Context) (n : Nat) (w : Word) (p : Bool) (m : Nat) : (x.writeG n w p).readQ m = x.readQ m := by
  simp [Context.readQ]
@[simp] theorem Context.readE_writeG (x : Context) (n : Nat) (w : Word) (p : Bool) (m : Nat) : (x.writeG n w p).readE m = x.readE m := by
  simp [Context.readE]
@[simp] theorem Context.readG_writeV (x : Context) (n : Nat) (v : VVal) (m : Nat) : (x.writeV n v).readG m = x.readG m := rfl
@[simp] theorem Context.readK_writeV (x : Context) (n : Nat) (v : VVal) (m : Nat) : (x.writeV n v).readK m = x.readK m := rfl
@[simp] theorem Context.readQ_writeV (x : Context) (n : Nat) (v : VVal) (m : Nat) : (x.writeV n v).readQ m = x.readQ m := rfl
@[simp] theorem Context.readE_writeV (x : Context) (n : Nat) (v : VVal) (m : Nat) : (x.writeV n v).readE m = x.readE m := rfl
@[simp] theorem Context.readG_writeK (x : Context) (n : Nat) (w : Word) (m : Nat) : (x.writeK n w).readG m = x.readG m := rfl
@[simp] theorem Context.readV_writeK (x : Context) (n : Nat) (w : Word) (m : Nat) : (x.writeK n w).readV m = x.readV m := rfl
@[simp] theorem Context.readQ_writeK (x : Context) (n : Nat) (w : Word) (m : Nat) : (x.writeK n w).readQ m = x.readQ m := rfl
@[simp] theorem Context.readE_writeK (x : Context) (n : Nat) (w : Word) (m : Nat) : (x.writeK n w).readE m = x.readE m := rfl
@[simp] theorem Context.readG_writeQ (x : Context) (n : Nat) (w : QSet) (m : Nat) : (x.writeQ n w).readG m = x.readG m := rfl
@[simp] theorem Context.readV_writeQ (x : Context) (n : Nat) (w : QSet) (m : Nat) : (x.writeQ n w).readV m = x.readV m := rfl
@[simp] theorem Context.readK_writeQ (x : Context) (n : Nat) (w : QSet) (m : Nat) : (x.writeQ n w).readK m = x.readK m := rfl
@[simp] theorem Context.readE_writeQ (x : Context) (n : Nat) (w : QSet) (m : Nat) : (x.writeQ n w).readE m = x.readE m := rfl
@[simp] theorem Context.readG_writeE (x : Context) (n : Nat) (w : Word) (m : Nat) : (x.writeE n w).readG m = x.readG m := rfl
@[simp] theorem Context.readV_writeE (x : Context) (n : Nat) (w : Word) (m : Nat) : (x.writeE n w).readV m = x.readV m := rfl
@[simp] theorem Context.readK_writeE (x : Context) (n : Nat) (w : Word) (m : Nat) : (x.writeE n w).readK m = x.readK m := rfl
@[simp] theorem Context.readQ_writeE (x : Context) (n : Nat) (w : Word) (m : Nat) : (x.writeE n w).readQ m = x.readQ m := rfl
@[simp] theorem Context.readG_setChk (x : Context) (n : Nat) (m : Nat) : (x.setChk n).readG m = x.readG m := rfl
@[simp] theorem Context.readV_setChk (x : Context) (n : Nat) (m : Nat) : (x.setChk n).readV m = x.readV m := rfl
@[simp] theorem Context.readK_setChk (x : Context) (n : Nat) (m : Nat) : (x.setChk n).readK m = x.readK m := rfl
@[simp] theorem Context.readQ_setChk (x : Context) (n : Nat) (m : Nat) : (x.setChk n).readQ m = x.readQ m := rfl
@[simp] theorem Context.readE_setChk (x : Context) (n : Nat) (m : Nat) : (x.setChk n).readE m = x.readE m := rfl
@[simp] theorem Context.readG_goto (x : Context) (b : Bool) (w : Word) (m : Nat) : (x.goto b w).readG m = x.readG m := by
  simp [Context.readG]
@[simp] theorem Context.readV_goto (x : Context) (b : Bool) (w : Word) (m : Nat) : (x.goto b w).readV m = x.readV m := by
  simp [Context.readV]
@[simp] theorem Context.readK_goto (x : Context) (b : Bool) (w : Word) (m : Nat) : (x.goto b w).readK m = x.readK m := by
  simp [Context.readK]
@[simp] theorem Context.readQ_goto (x : Context) (b : Bool) (w : Word) (m : Nat) : (x.goto b w).readQ m = x.readQ m := by
  simp [Context.readQ]
@[simp] theorem Context.readE_goto (x : Context) (b : Bool) (w : Word) (m : Nat) : (x.goto b w).readE m = x.readE m := by
  simp [Context.readE]

end Sys2Proof.Machine
end

