-- ==== Sys2Proof/Laws/Issue.lean ====
section
/-! SUPPORT. What issuing an instruction comes to: the outcomes of `issue` by the result of its body, and that retirement
changes no more than `State.Completes` says. -/
namespace Sys2Proof.Machine

/-! ### The outcomes of issue -/

/-- The state after an instruction's effect `u` has retired and control goes to `next`. -/
def State.retires (s : State) (i : Instr) (u : State) (next : Word) : State :=
  let v := (u.notePoison (poisonedSource i s)).leave next
  v.retirePair s.cur.1 s.cur.2 s.me.pc (dests i ++ s.me.impliedWrites (v.ctx s.cur.1 s.cur.2) (dests i)) (recordsValue i)
    (classes i s)
/-- The address after an instruction. -/
def State.after (s : State) (i : Instr) : Word := s.me.pc + BitVec.ofNat 64 (instrLen i)

theorem issue_clear (i : Instr) (s : State) (body : Bool → State → Res) (h : s.clear i = true) :
    issue i s body = match body (poisonedSource i s) s with
      | .done t => .next (s.retires i t (s.after i))
      | .jump t pc => .next (s.retires i t pc)
      | .gone t => .next t
      | .trap c sub v => .next (s.trapDrained c sub v (instrLen i))
      | .wait t => .next (t.modMe fun x =>
          { x with waitLen := instrLen i, waitTaint := poisonedSource i s, waitClasses := classes i s })
      | .stall t => .next t
      | .interval => .next (s.modMe fun x => { x with wait := .interval }) := by
  simp only [State.clear, Bool.and_eq_true, Bool.not_eq_true', Option.isNone_iff_eq_none] at h
  obtain ⟨⟨⟨h1, h2⟩, h3⟩, h4⟩ := h
  unfold issue
  rw [h1, h2, h3, h4]
  rfl

theorem issue_done {i : Instr} {s u : State} {body : Bool → State → Res} (h : s.clear i = true)
    (hb : body (poisonedSource i s) s = .done u) : issue i s body = .next (s.retires i u (s.after i)) := by
  rw [issue_clear i s body h, hb]
theorem issue_jump {i : Instr} {s u : State} {pc : Word} {body : Bool → State → Res} (h : s.clear i = true)
    (hb : body (poisonedSource i s) s = .jump u pc) : issue i s body = .next (s.retires i u pc) := by
  rw [issue_clear i s body h, hb]
theorem issue_gone {i : Instr} {s u : State} {body : Bool → State → Res} (h : s.clear i = true)
    (hb : body (poisonedSource i s) s = .gone u) : issue i s body = .next u := by
  rw [issue_clear i s body h, hb]
theorem issue_trap {i : Instr} {s : State} {c sub : BitVec 8} {v : Word} {body : Bool → State → Res}
    (h : s.clear i = true) (hb : body (poisonedSource i s) s = .trap c sub v) (hl : s.me.loads = []) :
    issue i s body = .next (s.trap c sub v (instrLen i)) := by
  rw [issue_clear i s body h, hb]
  simp [State.trapDrained, hl]
theorem issue_wait {i : Instr} {s u : State} {body : Bool → State → Res} (h : s.clear i = true)
    (hb : body (poisonedSource i s) s = .wait u) : issue i s body = .next (u.modMe fun x =>
      { x with waitLen := instrLen i, waitTaint := poisonedSource i s, waitClasses := classes i s }) := by
  rw [issue_clear i s body h, hb]
theorem issue_stall {i : Instr} {s u : State} {body : Bool → State → Res} (h : s.clear i = true)
    (hb : body (poisonedSource i s) s = .stall u) : issue i s body = .next u := by
  rw [issue_clear i s body h, hb]

/-! ### Frames -/

theorem Context.Keeps.refl (x : Context) (regs : List Reg) : x.Keeps x regs := by
  constructor <;> intros <;> first | rfl | exact ⟨rfl, rfl⟩

theorem Context.Keeps.trans {x y z : Context} {regs : List Reg} (h : x.Keeps y regs) (k : y.Keeps z regs) :
    x.Keeps z regs where
  live := k.live.trans h.live
  g n hn := (k.g n hn).trans (h.g n hn)
  v n hn := (k.v n hn).trans (h.v n hn)
  k n hn := (k.k n hn).trans (h.k n hn)
  q n hn := (k.q n hn).trans (h.q n hn)
  e n hn := (k.e n hn).trans (h.e n hn)
  fm n hn := (k.fm n hn).trans (h.fm n hn)
  km hn := (k.km hn).trans (h.km hn)
  rmode hn := (k.rmode hn).trans (h.rmode hn)
  fpf hn := (k.fpf hn).trans (h.fpf hn)
  efr hn := (k.efr hn).trans (h.efr hn)
  chk hn := (k.chk hn).trans (h.chk hn)
  det hn := (k.det hn).trans (h.det hn)
  shadow := k.shadow.trans h.shadow
  meet := k.meet.trans h.meet
  marks := ⟨k.marks.1.trans h.marks.1, k.marks.2.trans h.marks.2⟩
  loads := k.loads.trans h.loads
  frozen := k.frozen.trans h.frozen
  life := k.life.trans h.life

theorem Context.Keeps.writeG (x : Context) (d : Nat) (w : Word) (p : Bool) (regs : List Reg) (hd : Reg.g d ∈ regs) :
    x.Keeps (x.writeG d w p) regs := by
  constructor <;> intros <;> try simp [Context.readFm]
  rw [Context.readG_writeG, if_neg]
  rintro rfl
  contradiction

theorem Context.Keeps.writeV (x : Context) (d : Nat) (v : VVal) (regs : List Reg) (hd : Reg.v d ∈ regs) :
    x.Keeps (x.writeV d v) regs := by
  constructor <;> intros <;> try simp [Context.readFm]
  rw [Context.readV_writeV, if_neg]
  rintro rfl
  contradiction

theorem Context.Keeps.writeK (x : Context) (d : Nat) (w : Word) (regs : List Reg) (hd : Reg.k d ∈ regs) :
    x.Keeps (x.writeK d w) regs := by
  constructor <;> intros <;> try simp [Context.readFm]
  rw [Context.readK_writeK, if_neg]
  rintro rfl
  contradiction

theorem Context.Keeps.writeQ (x : Context) (d : Nat) (w : QSet) (regs : List Reg) (hd : Reg.q d ∈ regs) :
    x.Keeps (x.writeQ d w) regs := by
  constructor <;> intros <;> try simp [Context.readFm]
  rw [Context.readQ_writeQ, if_neg]
  rintro rfl
  contradiction

/-- A change of the issuing context that keeps it keeps the device. -/
theorem State.Keeps.modMe {s : State} {f : Context → Context} {regs : List Reg} (h : s.me.Keeps (f s.me) regs) :
    s.Keeps (s.modMe f) regs where
  outside := rfl
  cores c hc := State.core_modCtx_ne s _ _ c f hc
  here := by
    show (s.modMe f).core s.cur.1 = _
    rw [show (s.modMe f).here = s.here.modCtx s.cur.2 f from State.here_modMe s f]
    exact State.core_modCtx_self s _ _ f
  unpaired hp := by rw [State.here_modMe]; exact hp
  siblings x hx := by rw [State.here_modMe]; exact Core.ctx_modCtx_ne _ _ _ _ hx
  own := by rw [State.me_modMe]; exact h

theorem State.Keeps.refl (s : State) (regs : List Reg) : s.Keeps s regs where
  outside := rfl
  cores _ _ := rfl
  here := rfl
  unpaired h := h
  siblings _ _ := rfl
  own := Context.Keeps.refl _ _

theorem State.Keeps.cur {s t : State} {regs : List Reg} (h : s.Keeps t regs) : t.cur = s.cur := by
  rw [h.outside]

theorem State.Keeps.trans {s t u : State} {regs : List Reg} (h : s.Keeps t regs) (k : t.Keeps u regs) :
    s.Keeps u regs where
  outside := by
    have h1 := h.outside
    have h2 := k.outside
    rw [h1] at h2
    exact h2
  cores c hc := (k.cores c (by rw [h.cur]; exact hc)).trans (h.cores c hc)
  here := by
    have h1 := h.here
    have h2 := k.here
    rw [h1] at h2
    exact h2
  unpaired hp := k.unpaired (h.unpaired hp)
  siblings x hx := by
    have h1 := h.siblings x hx
    have h2 := k.siblings x (by rw [h.cur]; exact hx)
    exact h2.trans h1
  own := h.own.trans k.own

theorem State.Keeps.loopsFrozen {s t : State} {regs : List Reg} (h : s.Keeps t regs) (x : Nat) :
    t.loopsFrozen s.cur.1 x = s.loopsFrozen s.cur.1 x := by
  have hk : t.core s.cur.1 = t.here := by unfold State.here; rw [h.cur]
  have := congrArg Core.handler h.here
  simp only [State.loopsFrozen, hk]
  rw [this]
  rfl

theorem State.notePoison_eq (s : State) (p : Bool) :
    s.notePoison p = if p then s.modMe (fun x => x.setChk 0) else s := rfl

theorem State.Keeps.notePoison (s : State) (p : Bool) (regs : List Reg) : s.Keeps (s.notePoison p) regs := by
  cases p
  · exact State.Keeps.refl s regs
  · apply State.Keeps.modMe
    constructor <;> intros <;> try simp [Context.readFm]
    simp only [Context.setChk]
    ext j hj
    by_cases h0 : j = 0 <;> simp [h0]

theorem State.Keeps.leave (s : State) (next : Word) (regs : List Reg) : s.Keeps (s.leave next) regs := by
  have h1 : s.Keeps (s.modMe fun x => { x with side := [], walkErr := none, wait := .none }) regs := by
    apply State.Keeps.modMe
    constructor <;> intros <;> first | rfl | exact ⟨rfl, rfl⟩
  refine h1.trans ?_
  refine State.Keeps.modMe (f := fun t => t.goto _ next) ?_
  constructor <;> intros <;> simp [Context.readFm]

/-- A new record of a paired core's interval, and the end of the interval. -/
theorem State.Keeps.record (s : State) (q : Pairing) (stops : Prop) [Decidable stops] (regs : List Reg) (hx : s.cur.2 = 0)
    (hp : s.here.pairing ≠ none) :
    s.Keeps (s.modCore s.cur.1 fun k =>
      let k := { k with pairing := some q }
      if stops then k.modCtx 0 fun t => { t with wait := .interval } else k) regs := by
  have hme : ∀ f : Core → Core, (s.modCore s.cur.1 f).here = f s.here := fun f => State.core_modCore_self s _ f
  constructor
  · rfl
  · intro c hc; exact State.core_modCore_ne s _ c _ hc
  · rw [hme]; dsimp only; split <;> rfl
  · intro h; exact absurd h hp
  · intro x hx'
    rw [hme]
    dsimp only
    split
    · rw [Core.ctx_modCtx_ne _ _ _ _ (by rw [hx] at hx'; exact hx')]; rfl
    · rfl
  · have hm : ∀ f : Core → Core, (s.modCore s.cur.1 f).me = (f s.here).ctx s.cur.2 := fun f => by
      show ((s.modCore s.cur.1 f).core s.cur.1).ctx s.cur.2 = _
      rw [State.core_modCore_self]; rfl
    rw [hm]
    dsimp only
    split
    · rw [hx, Core.ctx_modCtx_self]
      have : s.me = s.here.ctx 0 := by unfold State.me State.here State.ctx; rw [hx]
      rw [this]
      constructor <;> intros <;> first | rfl | exact ⟨rfl, rfl⟩
    · have : s.me = s.here.ctx s.cur.2 := rfl
      rw [this]
      constructor <;> intros <;> first | rfl | exact ⟨rfl, rfl⟩

theorem State.Keeps.retirePair (s : State) (pc : Word) (rs : List Reg) (b : Bool) (cs : List Nat) (regs : List Reg) :
    s.Keeps (s.retirePair s.cur.1 s.cur.2 pc rs b cs) regs := by
  unfold State.retirePair
  split
  · exact State.Keeps.refl s regs
  · next p hp =>
    split
    · exact State.Keeps.refl s regs
    · next hx =>
      exact State.Keeps.record s _ _ regs (by simpa using hx) (by rw [State.here, hp]; simp)

/-- Retirement keeps what the effect kept. -/
theorem State.Keeps.retires {s u : State} {i : Instr} {regs : List Reg} (h : s.Keeps u regs) (next : Word) :
    s.Keeps (s.retires i u next) regs := by
  unfold State.retires
  have h1 := h.trans (State.Keeps.notePoison u (poisonedSource i s) regs)
  have h2 := h1.trans (State.Keeps.leave _ next regs)
  have h3 := fun rs => State.Keeps.retirePair ((u.notePoison (poisonedSource i s)).leave next) s.me.pc rs
    (recordsValue i) (classes i s) regs
  rw [h2.cur] at h3
  exact h2.trans (h3 _)

/-! ### What the issuing context holds after retirement -/

theorem loopStep_congr (n : Nat) (x y : Context) (hp : x.pc = y.pc) (hl : x.lp = y.lp) (hd : x.lpd = y.lpd) :
    (loopStep n x).pc = (loopStep n y).pc ∧ (loopStep n x).lp = (loopStep n y).lp ∧
      (loopStep n x).lpd = (loopStep n y).lpd := by
  induction n generalizing x y with
  | zero => exact ⟨hp, hl, hd⟩
  | succ n ih =>
    cases n with
    | zero =>
      unfold loopStep
      dsimp only
      rw [hl]
      split
      · exact ⟨rfl, rfl, rfl⟩
      · exact ⟨hp, rfl, rfl⟩
    | succ m =>
      unfold loopStep
      dsimp only
      rw [hl, hp]
      split
      · exact ⟨rfl, rfl, rfl⟩
      · split
        · exact ih _ _ rfl rfl rfl
        · exact ⟨rfl, rfl, rfl⟩

theorem Context.goto_congr (x y : Context) (b : Bool) (w : Word) (hl : x.lp = y.lp) (hd : x.lpd = y.lpd) :
    (x.goto b w).pc = (y.goto b w).pc ∧ (x.goto b w).lp = (y.goto b w).lp ∧ (x.goto b w).lpd = (y.goto b w).lpd := by
  unfold Context.goto
  dsimp only
  rw [hl, hd]
  split
  · exact ⟨rfl, rfl, rfl⟩
  · split
    · exact loopStep_congr _ _ _ rfl rfl rfl
    · exact ⟨rfl, rfl, rfl⟩

/-- The context after retirement: the effect's, moved on, with chk bit 0 for a poisoned source. -/
theorem State.retires_me {s u : State} {i : Instr} (next : Word) (hc : u.cur = s.cur) :
    ∃ w, (s.retires i u next).me =
      { (({ (if poisonedSource i s then u.me.setChk 0 else u.me) with side := [], walkErr := none, wait := .none } :
          Context).goto (u.loopsFrozen s.cur.1 s.cur.2) next) with wait := w } := by
  unfold State.retires
  have hn : (u.notePoison (poisonedSource i s)).cur = s.cur := by
    rw [State.notePoison_eq]; split <;> exact hc
  have hnm : (u.notePoison (poisonedSource i s)).me = if poisonedSource i s then u.me.setChk 0 else u.me := by
    rw [State.notePoison_eq]; split
    · exact State.me_modMe u _
    · rfl
  have hf : (u.notePoison (poisonedSource i s)).loopsFrozen s.cur.1 s.cur.2 = u.loopsFrozen s.cur.1 s.cur.2 := by
    rw [← hc]; exact (State.Keeps.notePoison u (poisonedSource i s) []).loopsFrozen _
  generalize u.notePoison (poisonedSource i s) = v at hn hnm hf
  have hl : (v.leave next).me = ({ v.me with side := [], walkErr := none, wait := .none } : Context).goto
      (u.loopsFrozen s.cur.1 s.cur.2) next := by
    have h1 : ∀ f : Context → Context, (v.modMe f).loopsFrozen v.cur.1 v.cur.2 = v.loopsFrozen v.cur.1 v.cur.2 := by
      intro f
      simp only [State.loopsFrozen]
      rw [show (v.modMe f).core v.cur.1 = (v.core v.cur.1).modCtx v.cur.2 f from State.core_modCtx_self v _ _ f]
      rfl
    show ((v.modMe _).modMe fun t => t.goto ((v.modMe _).loopsFrozen v.cur.1 v.cur.2) next).me = _
    rw [State.me_modMe, State.me_modMe, h1, hn, hf]
  have hlc : (v.leave next).cur = s.cur := hn
  generalize v.leave next = w at hl hlc
  rw [← hnm, ← hl]
  dsimp only
  generalize dests i ++ _ = rs
  unfold State.retirePair
  split
  · exact ⟨w.me.wait, rfl⟩
  · split
    · exact ⟨w.me.wait, rfl⟩
    · next hx =>
      have hx : s.cur.2 = 0 := by simpa using hx
      dsimp only
      have hm : ∀ f : Core → Core, (w.modCore s.cur.1 f).me = (f (w.core s.cur.1)).ctx s.cur.2 := fun f => by
        show ((w.modCore s.cur.1 f).core w.cur.1).ctx w.cur.2 = _
        rw [hlc, State.core_modCore_self]
      have hwm : w.me = (w.core s.cur.1).ctx 0 := by unfold State.me State.ctx; rw [hlc, hx]
      rw [hm, hx]
      split
      · rw [Core.ctx_modCtx_self]
        refine ⟨.interval, ?_⟩
        rw [hwm]
        rfl
      · refine ⟨w.me.wait, ?_⟩
        rw [hwm]
        rfl

/-- Completion from an effect that keeps all but some registers. -/
theorem State.Completes.of_done {s u : State} {i : Instr} {regs : List Reg} (h : s.Keeps u regs)
    (hlp : u.me.lp = s.me.lp) (hlpd : u.me.lpd = s.me.lpd) (hchk : Reg.status 0x0A ∉ regs → u.me.chk = s.me.chk) :
    s.Completes (s.retires i u (s.after i)) i regs := by
  obtain ⟨w, hm⟩ := State.retires_me (s := s) (u := u) (i := i) (s.after i) h.cur
  refine ⟨h.retires _, ?_, ?_⟩
  · unfold State.wentTo
    dsimp only
    rw [hm, h.loopsFrozen]
    apply Context.goto_congr
    · split <;> exact hlp
    · split <;> exact hlpd
  · intro hr
    rw [hm, ← hchk hr]
    simp only [Context.goto_chk]
    split <;> rfl

theorem State.retires_readG {s u : State} {i : Instr} (next : Word) (hc : u.cur = s.cur) (n : Nat) :
    (s.retires i u next).me.readG n = u.me.readG n := by
  obtain ⟨w, hm⟩ := State.retires_me (i := i) next hc
  rw [hm]
  simp only [Context.readG, Context.goto_g]
  cases poisonedSource i s <;> rfl
theorem State.retires_readV {s u : State} {i : Instr} (next : Word) (hc : u.cur = s.cur) (n : Nat) :
    (s.retires i u next).me.readV n = u.me.readV n := by
  obtain ⟨w, hm⟩ := State.retires_me (i := i) next hc
  rw [hm]
  simp only [Context.readV, Context.goto_v]
  split <;> rfl
theorem State.retires_readK {s u : State} {i : Instr} (next : Word) (hc : u.cur = s.cur) (n : Nat) :
    (s.retires i u next).me.readK n = u.me.readK n := by
  obtain ⟨w, hm⟩ := State.retires_me (i := i) next hc
  rw [hm]
  simp only [Context.readK, Context.goto_k]
  split <;> rfl
theorem State.retires_readQ {s u : State} {i : Instr} (next : Word) (hc : u.cur = s.cur) (n : Nat) :
    (s.retires i u next).me.readQ n = u.me.readQ n := by
  obtain ⟨w, hm⟩ := State.retires_me (i := i) next hc
  rw [hm]
  simp only [Context.readQ, Context.goto_q]
  split <;> rfl
theorem State.retires_fpf {s u : State} {i : Instr} (next : Word) (hc : u.cur = s.cur) :
    (s.retires i u next).me.fpf = u.me.fpf := by
  obtain ⟨w, hm⟩ := State.retires_me (i := i) next hc
  rw [hm]
  simp only [Context.goto_fpf]
  split <;> rfl
theorem State.retires_km {s u : State} {i : Instr} (next : Word) (hc : u.cur = s.cur) :
    (s.retires i u next).me.km = u.me.km := by
  obtain ⟨w, hm⟩ := State.retires_me (i := i) next hc
  rw [hm]
  simp only [Context.goto_km]
  split <;> rfl

/-! ### One register -/

/-- An effect that writes one g register. -/
theorem State.GivesG.of_body {s : State} {i : Instr} {d : BitVec 6} {w : Word} {body : Bool → State → Res}
    (hi : exec i s = issue i s body)
    (hb : body (poisonedSource i s) s = .done (s.writeG d.toNat w (poisonedSource i s))) : s.GivesG i d w := by
  intro hc
  have hk : s.Keeps (s.writeG d.toNat w (poisonedSource i s)) [.g d.toNat] :=
    State.Keeps.modMe (Context.Keeps.writeG _ _ _ _ _ (by simp))
  refine ⟨_, by rw [hi]; exact issue_done hc hb, ?_, ?_⟩
  · apply State.Completes.of_done hk <;> simp
  · rw [State.retires_readG _ hk.cur, State.me_writeG, Context.readG_writeG]
    simp [writtenG]

/-- An effect on the issuing context alone: the instruction completes, and what one may want to know of the context
after it is what the effect made of it. The last premise's `h` is any reading that going on, waiting and chk bit 0 do not
change. -/
theorem State.completes_of_modMe {s : State} {i : Instr} {body : Bool → State → Res} {f : Context → Context}
    {regs : List Reg} {P : State → Prop} (hi : exec i s = issue i s body)
    (hb : body (poisonedSource i s) s = .done (s.modMe f)) (hk : s.me.Keeps (f s.me) regs)
    (hlp : (f s.me).lp = s.me.lp) (hlpd : (f s.me).lpd = s.me.lpd)
    (hchk : Reg.status 0x0A ∉ regs → (f s.me).chk = s.me.chk)
    (hP : ∀ t, s.Completes t i regs → (∀ n, t.me.readG n = (f s.me).readG n) →
      (∀ n, t.me.readV n = (f s.me).readV n) → (∀ n, t.me.readK n = (f s.me).readK n) →
      (∀ n, t.me.readQ n = (f s.me).readQ n) → t.me.fpf = (f s.me).fpf → t.me.km = (f s.me).km →
      (∀ h : Context → BitVec 32, (∀ (x : Context) (b : Bool) n w, h { x.goto b n with wait := w } = h x) →
        (∀ x : Context, h { x with side := [], walkErr := none, wait := .none } = h x) →
        (∀ x : Context, h (x.setChk 0) = h x) → h t.me = h (f s.me)) → P t)
    (hc : s.clear i = true) : ∃ t, exec i s = .next t ∧ P t := by
  have hK := State.Keeps.modMe hk
  refine ⟨_, by rw [hi]; exact issue_done hc hb, ?_⟩
  apply hP
  · apply State.Completes.of_done hK
    · rw [State.me_modMe]; exact hlp
    · rw [State.me_modMe]; exact hlpd
    · intro h; rw [State.me_modMe]; exact hchk h
  · intro n; rw [State.retires_readG _ hK.cur, State.me_modMe]
  · intro n; rw [State.retires_readV _ hK.cur, State.me_modMe]
  · intro n; rw [State.retires_readK _ hK.cur, State.me_modMe]
  · intro n; rw [State.retires_readQ _ hK.cur, State.me_modMe]
  · rw [State.retires_fpf _ hK.cur, State.me_modMe]
  · rw [State.retires_km _ hK.cur, State.me_modMe]
  · intro h h1 h2 h3
    obtain ⟨w, hm⟩ := State.retires_me (i := i) (s.after i) hK.cur
    rw [hm, h1, h2]
    rw [State.me_modMe]
    split
    · exact h3 _
    · rfl

end Sys2Proof.Machine
end

