-- ==== Sys2Proof/Laws/Access.lean ====
section
/-! SUPPORT. What an access to the core's own local memory comes to: the undo log, the notes of releases read, and the bytes
that an act leaves. -/
namespace Sys2Proof.Machine

/-! ### Touching nothing, and one thing after another -/

theorem State.ReadsNear.refl (s : State) : s.ReadsNear s := by
  refine ⟨?_, rfl, rfl, rfl, rfl, rfl⟩
  constructor <;> intros <;> first | rfl | assumption

theorem State.Touches.cur {s u : State} {offs : List Nat} (h : s.Touches u offs) : u.cur = s.cur := by rw [h.outside]

theorem State.Touches.trans {s u v : State} {offs offs' : List Nat} (h : s.Touches u offs) (k : u.Touches v offs') :
    s.Touches v (offs ++ offs') where
  outside := by
    have h1 := h.outside
    have h2 := k.outside
    rw [h1] at h2
    exact h2
  cores c hc := (k.cores c (by rw [h.cur]; exact hc)).trans (h.cores c hc)
  here := by
    have h1 := h.here
    have h2 := k.here
    rw [h1] at h2
    exact h2
  unpaired hp := k.unpaired (h.unpaired hp)
  siblings x hx := (k.siblings x (by rw [h.cur]; exact hx)).trans (h.siblings x hx)
  own := by
    have h1 := h.own
    have h2 := k.own
    rw [h1] at h2
    exact h2
  chk := k.chk.trans h.chk
  tiles := k.tiles.trans h.tiles
  bytes a ha := by
    rw [List.mem_append, not_or] at ha
    exact (k.bytes a ha.2).trans (h.bytes a ha.1)
  poison n hn := (k.poison n fun a ha => hn a (List.mem_append_right _ ha)).trans
    (h.poison n fun a ha => hn a (List.mem_append_left _ ha))
  releases n hn := (k.releases n fun a ha => hn a (List.mem_append_right _ ha)).trans
    (h.releases n fun a ha => hn a (List.mem_append_left _ ha))
  arrivals p hp := h.arrivals p (k.arrivals p hp)
  waiting p hp ha := k.waiting p (h.waiting p hp ha) fun q hq hi => ha q (h.arrivals q hq) hi

theorem State.ReadsNear.trans {s u v : State} (h : s.ReadsNear u) (k : u.ReadsNear v) : s.ReadsNear v :=
  ⟨by simpa using h.1.trans k.1, k.2.1.trans h.2.1, k.2.2.1.trans h.2.2.1, k.2.2.2.1.trans h.2.2.2.1,
    k.2.2.2.2.1.trans h.2.2.2.2.1, k.2.2.2.2.2.trans h.2.2.2.2.2⟩

/-- A change of the issuing context within what an access may change of it. -/
theorem State.Touches.modMe {s : State} {f : Context → Context}
    (hf : f s.me = { s.me with relMark := (f s.me).relMark, seen := (f s.me).seen, chk := (f s.me).chk })
    (hc : (f s.me).chk ||| 2 = s.me.chk ||| 2) : s.Touches (s.modMe f) [] := by
  have hm : (s.modMe f).me = f s.me := State.me_modMe s f
  have hh : (s.modMe f).here = s.here.modCtx s.cur.2 f := State.here_modMe s f
  constructor
  · rfl
  · intro c h; exact State.core_modCtx_ne s _ _ c f h
  · rw [hh]; rfl
  · intro h; rw [hh]; exact h
  · intro x hx; rw [hh]; exact Core.ctx_modCtx_ne _ _ _ _ hx
  · rw [hm]; exact hf
  · rw [hm]; exact hc
  · rw [hh]; rfl
  · intros; rw [hh]; rfl
  · intros; rw [hh]; rfl
  · intros; rw [hh]; rfl
  · intro p hp; exact hp
  · intro p hp _; exact hp

/-- A change of the record that a paired core keeps. -/
theorem State.ReadsNear.pairing {s : State} {q : Pairing} (hp : s.here.pairing ≠ none) :
    s.ReadsNear (s.modHere fun k => { k with pairing := some q }) := by
  have hh : ∀ f : Core → Core, (s.modHere f).here = f s.here := fun f => State.core_modCore_self s _ f
  have hm : (s.modHere fun k => { k with pairing := some q }).me = s.me := by
    show ((s.modHere _).here).ctx _ = _
    rw [hh]
    rfl
  refine ⟨?_, by rw [hh], by rw [hm], rfl, rfl, rfl⟩
  constructor
  · rfl
  · intro c hc; exact State.core_modCore_ne s _ c _ hc
  · rw [hh]
  · intro h; exact absurd h hp
  · intro x _; rw [hh]; rfl
  · rw [hm]
  · rw [hm]
  · rw [hh]
  · intros; rw [hh]
  · intros; rw [hh]
  · intros; rw [hh]
  · intro p hp; exact hp
  · intro p hp _; exact hp

/-! ### The undo log, the fingerprint's stores and the notes of releases -/

theorem State.ReadsNear.of_logUndo {s u : State} {offs : List Nat} (h : s.logUndo offs = some u) : s.ReadsNear u := by
  unfold State.logUndo at h
  split at h
  · cases h; exact State.ReadsNear.refl s
  · next q hq =>
    dsimp only at h
    split at h
    · cases h
    · cases h; exact State.ReadsNear.pairing (by rw [hq]; simp)

theorem State.logUndo_unpaired {s : State} (h : s.here.pairing = none) (offs : List Nat) : s.logUndo offs = some s := by
  unfold State.logUndo
  rw [h]

theorem State.ReadsNear.recordStore (s : State) (w : Word) (data : List Byte) : s.ReadsNear (s.recordStore w data) := by
  cases hq : s.here.pairing with
  | none =>
    have : s.recordStore w data = s.modHere fun k => { k with pairing := k.pairing.map fun q =>
      { q with stores := q.stores ++ [(w, data.length, data)] } } := rfl
    have hh : ∀ f : Core → Core, (s.modHere f).here = f s.here := fun f => State.core_modCore_self s _ f
    have hm : (s.recordStore w data).here = s.here := by
      rw [this, hh, hq]
      show { s.here with pairing := none } = s.here
      rw [← hq]
    have hme : (s.recordStore w data).me = s.me := by
      show ((s.recordStore w data).here).ctx _ = _
      rw [hm]
      rfl
    refine ⟨?_, by rw [hm], by rw [hme], rfl, rfl, rfl⟩
    constructor
    · rfl
    · intro c hc; exact State.core_modCore_ne s _ c _ hc
    · rw [hm]
    · intro; rw [hm]; exact hq
    · intro x _; rw [hm]
    · rw [hme]
    · rw [hme]
    · rw [hm]
    · intros; rw [hm]
    · intros; rw [hm]
    · intros; rw [hm]
    · intro p hp; exact hp
    · intro p hp _; exact hp
  | some q =>
    have : s.recordStore w data = s.modHere fun k =>
        { k with pairing := some { q with stores := q.stores ++ [(w, data.length, data)] } } := by
      unfold State.recordStore State.modHere State.modCore
      dsimp only
      rw [show (s.core s.cur.1).pairing = some q from hq]
      rfl
    rw [this]
    exact State.ReadsNear.pairing (by rw [hq]; simp)

theorem recordStore_me (s : State) (w : Word) (data : List Byte) : (s.recordStore w data).me = s.me := by
  show ((s.modCore s.cur.1 _).core s.cur.1).ctx s.cur.2 = _
  rw [State.core_modCore_self]
  rfl
theorem logUndo_me {s u : State} {offs : List Nat} (h : s.logUndo offs = some u) : u.me = s.me := by
  unfold State.logUndo at h
  split at h
  · cases h; rfl
  · dsimp only at h
    split at h
    · cases h
    · cases h
      show ((s.modCore s.cur.1 _).core s.cur.1).ctx s.cur.2 = _
      rw [State.core_modCore_self]
      rfl

theorem chk_setChk_1 (x : Context) : (x.setChk 1).chk ||| 2 = x.chk ||| 2 := by
  simp only [Context.setChk]
  generalize x.chk = w
  clear x
  revert w
  decide

theorem State.ReadsNear.noteRelease {s : State} (load : Bool) (acq : Option (BitVec 4)) (rel : Option (Release × Bool)) :
    s.ReadsNear (s.noteRelease s.cur.1 s.cur.2 load acq rel) := by
  have key : ∀ f : Context → Context, (∀ x, f x = { x with seen := (f x).seen, chk := (f x).chk }) →
      (∀ x, (f x).chk ||| 2 = x.chk ||| 2) → s.ReadsNear (s.modCtx s.cur.1 s.cur.2 f) := by
    intro f hf hc
    have hm : (s.modMe f).me = f s.me := State.me_modMe s f
    have hh : (s.modMe f).here = s.here.modCtx s.cur.2 f := State.here_modMe s f
    refine ⟨State.Touches.modMe (by rw [hf]) (hc _), ?_, ?_, rfl, rfl, rfl⟩
    · show (s.modMe f).here.store = _
      rw [hh]
      rfl
    · show (s.modMe f).me.relMark = _
      rw [hm, hf]
  unfold State.noteRelease
  split
  · exact State.ReadsNear.refl s
  · refine key _ (fun x => ?_) (fun x => ?_)
    · dsimp only
      repeat' split
      all_goals rfl
    · have := chk_setChk_1 x
      dsimp only
      repeat' split
      all_goals first | rfl | assumption

/-! ### Writing bytes -/

theorem writeBytes_wf {m : Memory} (offs : List Nat) (bs : List Byte) (h : m.wf = true) :
    (writeBytes m offs bs).wf = true := by
  induction offs generalizing m bs with
  | nil => unfold writeBytes; exact h
  | cons a as ih =>
    cases bs with
    | nil => unfold writeBytes; exact h
    | cons b bs => unfold writeBytes; exact ih bs (Memory.wf_setByte a b h)

theorem writeBytes_ne {m : Memory} {offs : List Nat} {bs : List Byte} {x : Nat} (h : m.wf = true) (hx : x ∉ offs) :
    (writeBytes m offs bs).byte x = m.byte x := by
  induction offs generalizing m bs with
  | nil => unfold writeBytes; rfl
  | cons a as ih =>
    cases bs with
    | nil => unfold writeBytes; rfl
    | cons b bs =>
      unfold writeBytes
      rw [List.mem_cons, not_or] at hx
      rw [ih (Memory.wf_setByte a b h) hx.2, Memory.byte_setByte a x b h, if_neg hx.1]

theorem writeBytes_map {m : Memory} {offs : List Nat} {bs : List Byte} (h : m.wf = true) (hn : offs.Nodup)
    (hl : bs.length = offs.length) : offs.map (writeBytes m offs bs).byte = bs := by
  induction offs generalizing m bs with
  | nil => exact (List.length_eq_zero_iff.mp hl).symm
  | cons a as ih =>
    cases bs with
    | nil => cases hl
    | cons b bs =>
      rw [List.nodup_cons] at hn
      unfold writeBytes
      rw [List.map_cons, ih (Memory.wf_setByte a b h) hn.2 (by simpa using hl),
        writeBytes_ne (Memory.wf_setByte a b h) hn.1, Memory.byte_setByte a a b h, if_pos rfl]

theorem mergeBytes_length (os ds ms : List Byte) : (mergeBytes os ds ms).length = os.length := by
  induction os generalizing ds ms with
  | nil => unfold mergeBytes; rfl
  | cons o os ih =>
    cases ds with
    | nil => unfold mergeBytes; rfl
    | cons d ds =>
      cases ms with
      | nil => unfold mergeBytes; rfl
      | cons m ms => unfold mergeBytes; simp [ih]

theorem full_bit : ∀ j : Fin 8, (255#8)[j.val] = true := by decide

theorem mergeBytes_full (os ds : List Byte) (h : ds.length = os.length) :
    mergeBytes os ds (List.replicate ds.length 0xFF) = ds := by
  induction os generalizing ds with
  | nil => unfold mergeBytes; exact (List.length_eq_zero_iff.mp h).symm
  | cons o os ih =>
    cases ds with
    | nil => cases h
    | cons d ds =>
      rw [List.length_cons, List.replicate_succ]
      unfold mergeBytes
      rw [ih ds (by simpa using h)]
      congr 1
      ext i hi
      have h1 : (255#8)[i] = true := full_bit ⟨i, hi⟩
      simp [h1]

theorem maskedAt_sub (p : Byte → Bool) (offs : List Nat) (ms : List Byte) : ∀ a, a ∈ maskedAt p offs ms → a ∈ offs := by
  induction offs generalizing ms with
  | nil => intro a ha; unfold maskedAt at ha; cases ha
  | cons o os ih =>
    intro a ha
    cases ms with
    | nil => unfold maskedAt at ha; cases ha
    | cons m ms =>
      unfold maskedAt at ha
      split at ha
      · rcases List.mem_cons.mp ha with rfl | h
        · exact List.mem_cons_self
        · exact List.mem_cons_of_mem _ (ih ms a h)
      · exact List.mem_cons_of_mem _ (ih ms a ha)

/-- Marks of units that no written byte lies in stay, and the marks keep their form. -/
theorem markPoison_ne {t : Tab Bool} (size : Nat) (poison : Bool) (offs : List Nat) (h : Tab.rising 0 t = true) :
    Tab.rising 0 (markPoison t size poison offs) = true ∧ ∀ n, (∀ a, a ∈ offs → a / size ≠ n) →
      Tab.get false (markPoison t size poison offs) n = Tab.get false t n := by
  unfold markPoison
  generalize hc : (fun (t : Tab Bool) a => if poison then Tab.set false t (a / size) true
    else if covers offs size (a / size) then Tab.set false t (a / size) false else t) = step
  have hs : ∀ (t : Tab Bool) a, Tab.rising 0 t = true → Tab.rising 0 (step t a) = true ∧
      ∀ n, a / size ≠ n → Tab.get false (step t a) n = Tab.get false t n := by
    intro t a h
    subst hc
    dsimp only
    split
    · exact ⟨Tab.rising_set _ _ h (Nat.zero_le _), fun n hn => by rw [Tab.get_set _ _ _ _ h, if_neg (Ne.symm hn)]⟩
    · split
      · exact ⟨Tab.rising_set _ _ h (Nat.zero_le _), fun n hn => by rw [Tab.get_set _ _ _ _ h, if_neg (Ne.symm hn)]⟩
      · exact ⟨h, fun _ _ => rfl⟩
  clear hc
  induction offs generalizing t with
  | nil => exact ⟨h, fun _ _ => rfl⟩
  | cons a as ih =>
    obtain ⟨h1, h2⟩ := hs t a h
    obtain ⟨h3, h4⟩ := ih h1
    exact ⟨h3, fun n hn => (h4 n fun b hb => hn b (List.mem_cons_of_mem _ hb)).trans
      (h2 n (hn a List.mem_cons_self))⟩

/-- Records of lines that no written byte lies in stay, and the records keep their form. -/
theorem markRelease_ne {t : Tab (Option Release)} (rel : Option Release) (offs : List Nat) (h : Tab.rising 0 t = true) :
    Tab.rising 0 (markRelease t rel offs) = true ∧ ∀ n, (∀ a, a ∈ offs → a / 64 ≠ n) →
      Tab.get none (markRelease t rel offs) n = Tab.get none t n := by
  have key : ∀ (f : Nat → Option Release) (offs : List Nat) (t : Tab (Option Release)), Tab.rising 0 t = true →
      Tab.rising 0 (offs.foldl (init := t) fun t a => Tab.set none t (a / 64) (f a)) = true ∧
      ∀ n, (∀ a, a ∈ offs → a / 64 ≠ n) →
        Tab.get none (offs.foldl (init := t) fun t a => Tab.set none t (a / 64) (f a)) n = Tab.get none t n := by
    intro f offs
    induction offs with
    | nil => exact fun _ h => ⟨h, fun _ _ => rfl⟩
    | cons a as ih =>
      intro t h
      obtain ⟨h3, h4⟩ := ih _ (Tab.rising_set none (f a) h (Nat.zero_le (a / 64)))
      refine ⟨h3, fun n hn => (h4 n fun b hb => hn b (List.mem_cons_of_mem _ hb)).trans ?_⟩
      rw [Tab.get_set _ _ _ _ h, if_neg (Ne.symm (hn a List.mem_cons_self))]
  exact key _ offs t h

/-- Everything that writing over stored bytes does to the bytes, and that marks and records elsewhere stay. -/
theorem putBytes_spec {unit : Nat} {bytes : Memory} {marks : Tab Bool} {rels : Tab (Option Release)} {offs : List Nat}
    {data mask : List Byte} {poison : Bool} {rel : Option Release} (hb : bytes.wf = true)
    (hm : Tab.rising 0 marks = true) (hr : Tab.rising 0 rels = true) :
    let n := putBytes unit bytes marks rels offs data mask poison rel
    n.1.wf = true ∧ Tab.rising 0 n.2.1 = true ∧ Tab.rising 0 n.2.2 = true ∧
      (∀ a, a ∉ offs → n.1.byte a = bytes.byte a) ∧
      (offs.Nodup → offs.map n.1.byte = mergeBytes (offs.map bytes.byte) data mask) ∧
      (∀ u, (∀ a, a ∈ offs → a / unit ≠ u) → Tab.get false n.2.1 u = Tab.get false marks u) ∧
      ∀ l, (∀ a, a ∈ offs → a / 64 ≠ l) → Tab.get none n.2.2 l = Tab.get none rels l := by
  dsimp only [putBytes]
  have hp := markPoison_ne (t := marks) unit poison
    (if poison then maskedAt (· != 0) offs mask else maskedAt (· == 0xFF) offs mask) hm
  have hq := markRelease_ne (t := rels) rel (maskedAt (· != 0) offs mask) hr
  refine ⟨writeBytes_wf _ _ hb, hp.1, hq.1, fun a ha => writeBytes_ne hb ha, fun hn => writeBytes_map hb hn ?_,
    fun u hu => hp.2 u fun a ha => hu a ?_, fun l hl => hq.2 l fun a ha => hl a ?_⟩
  · rw [mergeBytes_length, List.length_map]
  · split at ha <;> exact maskedAt_sub _ _ _ a ha
  · exact maskedAt_sub _ _ _ a ha

/-! ### Monitors -/

/-- What the home's answer to an armed WAITA changes; a counter only at a channel. -/
theorem returnWatch_spec (s : State) (p : Packet) (w : Word × Bool × Option Release) :
    ∃ replies replay f, s.returnWatch p w = { s with net := s.net.filter (·.id != p.id), replies := replies, replay := replay, firmware := { s.firmware with counters := f } } ∧
      ((∀ ch, p.home ≠ .channel ch) → f = s.firmware.counters) := by
  unfold State.returnWatch
  split
  · next hd =>
    refine ⟨_, _, _, rfl, fun hn => ?_⟩
    unfold State.disowned at hd
    split at hd
    · next ch _ hp _ => exact absurd hp (hn ch)
    · cases hd
  · exact ⟨_, _, _, rfl, fun _ => rfl⟩

/-- Monitors that see a write take armed packets from the way and answer them; a counter may rise at a channel, and nothing
else happens. -/
theorem fireMonitors_spec (s : State) (h : Home) :
    ∃ net replies replay f, s.fireMonitors h = { s with net := net, replies := replies, replay := replay, firmware := { s.firmware with counters := f } } ∧ (∀ p, p ∈ net → p ∈ s.net) ∧
      (∀ p, p ∈ s.net → (∀ q, q ∈ s.net → q.id = p.id → q.armed ≠ some true) → p ∈ net) ∧
      ((∀ ch, h ≠ .channel ch) → f = s.firmware.counters) := by
  unfold State.fireMonitors
  have key : ∀ (ps : List Packet) (t : State), (∀ p, p ∈ ps → p ∈ s.net ∧ p.armed = some true ∧ p.home = h) →
      (∃ net replies replay f, t = { s with net := net, replies := replies, replay := replay, firmware := { s.firmware with counters := f } } ∧ (∀ p, p ∈ net → p ∈ s.net) ∧
        (∀ p, p ∈ s.net → (∀ q, q ∈ s.net → q.id = p.id → q.armed ≠ some true) → p ∈ net) ∧
        ((∀ ch, h ≠ .channel ch) → f = s.firmware.counters)) →
      ∃ net replies replay f, (ps.foldl (init := t) fun s p => match p.act, s.watched p with
          | .watch old _, some w => if w.1 != old || s.disowned p then s.returnWatch p w else s
          | _, _ => s) = { s with net := net, replies := replies, replay := replay, firmware := { s.firmware with counters := f } } ∧ (∀ p, p ∈ net → p ∈ s.net) ∧
        (∀ p, p ∈ s.net → (∀ q, q ∈ s.net → q.id = p.id → q.armed ≠ some true) → p ∈ net) ∧
        ((∀ ch, h ≠ .channel ch) → f = s.firmware.counters) := by
    intro ps
    induction ps with
    | nil => intro t _ h; exact h
    | cons p ps ih =>
      intro t hp ht
      rw [List.foldl_cons]
      refine ih _ (fun q hq => hp q (List.mem_cons_of_mem _ hq)) ?_
      have hpm := hp p List.mem_cons_self
      obtain ⟨net, replies, replay, f, rfl, h1, h2, h3⟩ := ht
      split
      · next w _ _ =>
        split
        · obtain ⟨replies', replay', f', e, hf⟩ := returnWatch_spec { s with net := net, replies := replies, replay := replay, firmware := { s.firmware with counters := f } } p w
          rw [e]
          refine ⟨net.filter (·.id != p.id), _, _, f', rfl, fun q hq => h1 q (List.mem_filter.mp hq).1, fun q hq ha => ?_,
            fun hn => (hf fun ch => hpm.2.2 ▸ hn ch).trans (h3 hn)⟩
          refine List.mem_filter.mpr ⟨h2 q hq ha, ?_⟩
          simp only [bne_iff_ne, ne_eq]
          intro hi
          exact ha p hpm.1 hi.symm hpm.2.1
        · exact ⟨net, replies, replay, f, rfl, h1, h2, h3⟩
      · exact ⟨net, replies, replay, f, rfl, h1, h2, h3⟩
  refine key _ s (fun p hp => ?_) ⟨s.net, s.replies, s.replay, _, rfl, fun _ h => h, fun _ h _ => h, fun _ => rfl⟩
  have := (List.mem_filter.mp hp)
  have h2 := this.2
  simp only [Bool.and_eq_true, beq_iff_eq] at h2
  exact ⟨this.1, h2.2, h2.1⟩
/-- At a home that is no channel no counter rises. -/
theorem fireMonitors_chip (s : State) {h : Home} (hn : ∀ ch, h ≠ .channel ch) :
    ∃ net replies replay, s.fireMonitors h = { s with net := net, replies := replies, replay := replay } ∧
      (∀ p, p ∈ net → p ∈ s.net) ∧ ∀ p, p ∈ s.net → (∀ q, q ∈ s.net → q.id = p.id → q.armed ≠ some true) → p ∈ net := by
  obtain ⟨net, replies, replay, f, e, h1, h2, h3⟩ := fireMonitors_spec s h
  rw [h3 hn] at e
  exact ⟨net, replies, replay, e, h1, h2⟩

/-! ### Acts on the own local memory -/

/-- A new own store, with monitors fired. -/
theorem State.Touches.store {s t : State} {m : Store} {offs : List Nat}
    (ht : t = { s with cores := t.cores, net := t.net, replies := t.replies, replay := t.replay })
    (hc : t.cores = (s.modCore s.cur.1 fun k => { k with store := m }).cores)
    (ha : ∀ p, p ∈ t.net → p ∈ s.net)
    (hw : ∀ p, p ∈ s.net → (∀ q, q ∈ s.net → q.id = p.id → q.armed ≠ some true) → p ∈ t.net)
    (h1 : m.tiles = s.here.store.tiles) (h2 : ∀ a, a ∉ offs → m.bytes.byte a = s.here.store.bytes.byte a)
    (h3 : ∀ n, (∀ a, a ∈ offs → a / 8 ≠ n) → Tab.get false m.poison n = Tab.get false s.here.store.poison n)
    (h4 : ∀ n, (∀ a, a ∈ offs → a / 64 ≠ n) → Tab.get none m.releases n = Tab.get none s.here.store.releases n) :
    s.Touches t offs ∧ t.here = { s.here with store := m } ∧ t.me = s.me := by
  have hcore : ∀ c, t.core c = (s.modCore s.cur.1 fun k => { k with store := m }).core c := fun c => by
    unfold State.core
    rw [hc]
  have hcur : t.cur = s.cur := by rw [ht]
  have hh : t.here = { s.here with store := m } := by
    show t.core t.cur.1 = _
    rw [hcur, hcore]
    exact State.core_modCore_self s _ _
  have hm : t.me = s.me := by
    show t.here.ctx t.cur.2 = _
    rw [hh, hcur]
    rfl
  refine ⟨?_, hh, hm⟩
  constructor
  · exact ht
  · intro c h; rw [hcore]; exact State.core_modCore_ne s _ c _ h
  · rw [hh]
  · intro h; rw [hh]; exact h
  · intro x _; rw [hh]; rfl
  · rw [hm]
  · rw [hm]
  · rw [hh]; exact h1
  · intro a h; rw [hh]; exact h2 a h
  · intro n h; rw [hh]; exact h3 n h
  · intro n h; rw [hh]; exact h4 n h
  · exact ha
  · exact hw

theorem actChip_me (s : State) (offs : List Nat) (a : Act) (bad : Bool) (rel : Option Release) :
    (s.actChip (.localMem s.cur.1) offs a bad rel).1.cur = s.cur ∧
      (s.actChip (.localMem s.cur.1) offs a bad rel).1.me = s.me := by
  unfold State.actChip
  dsimp only
  split
  · exact ⟨rfl, rfl⟩
  · next w _ =>
    generalize putBytes 8 _ _ _ offs w.1 w.2.1 w.2.2 rel = n
    obtain ⟨net, replies, replay, hf, -, -⟩ := fireMonitors_chip (s.setStore (.localMem s.cur.1)
      { s.storeAt (.localMem s.cur.1) with bytes := n.1, poison := n.2.1, releases := n.2.2 })
      (h := .localMem s.cur.1) (fun _ e => nomatch e)
    rw [hf]
    refine ⟨rfl, ?_⟩
    show (State.core (s.modCore s.cur.1 fun k => { k with store := { s.storeAt (.localMem s.cur.1) with
      bytes := n.1, poison := n.2.1, releases := n.2.2 } }) s.cur.1).ctx s.cur.2 = s.me
    rw [State.core_modCore_self]
    rfl

/-- Everything an act on the own local memory does: it answers the bytes found, and writes over them. -/
theorem actChip_own {s : State} (offs : List Nat) (a : Act) (bad : Bool) (rel : Option Release) :
    let r := s.actChip (.localMem s.cur.1) offs a bad rel
    let got := s.here.store.load offs
    r.2 = (got.1, got.2, readRelease s.here.store.releases (offs.headD 0) a.size) ∧
      (a.writes got.1 got.2 bad = none → r.1 = s) ∧
      ∀ w, a.writes got.1 got.2 bad = some w → s.here.store.ok = true →
        s.Touches r.1 offs ∧ r.1.here.store.ok = true ∧ r.1.me = s.me ∧ (offs.Nodup → offs.map r.1.here.store.bytes.byte = mergeBytes got.1 w.1 w.2.1) := by
  dsimp only
  have hst : s.storeAt (.localMem s.cur.1) = s.here.store := rfl
  unfold State.actChip
  dsimp only
  rw [hst]
  split
  · next hw =>
    refine ⟨rfl, fun _ => rfl, fun w h _ => ?_⟩
    rw [hw] at h
    cases h
  · next w hw =>
    refine ⟨rfl, fun h => ?_, fun v hv hok => ?_⟩
    · rw [hw] at h; cases h
    · have : v = w := by rw [hw] at hv; exact (Option.some.inj hv).symm
      subst this
      simp only [Store.ok, Bool.and_eq_true] at hok
      obtain ⟨⟨hb, hp⟩, hr⟩ := hok
      have sp := putBytes_spec (unit := 8) (offs := offs) (data := v.1) (mask := v.2.1) (poison := v.2.2) (rel := rel) hb hp hr
      dsimp only at sp
      generalize putBytes 8 s.here.store.bytes s.here.store.poison s.here.store.releases offs v.1 v.2.1 v.2.2 rel = n at sp
      obtain ⟨h1, h2, h3, h4, h5, h6, h7⟩ := sp
      obtain ⟨net, replies, replay, hf, hn1, hn2⟩ := fireMonitors_chip (s.setStore (.localMem s.cur.1)
        { s.here.store with bytes := n.1, poison := n.2.1, releases := n.2.2 }) (h := .localMem s.cur.1) (fun _ e => nomatch e)
      rw [hf]
      obtain ⟨T, hh, hm⟩ := State.Touches.store (s := s) (offs := offs) (t := { s.setStore (.localMem s.cur.1)
          { s.here.store with bytes := n.1, poison := n.2.1, releases := n.2.2 } with net := net, replies := replies, replay := replay })
        rfl rfl hn1 hn2 rfl h4 h6 h7
      refine ⟨T, ?_, hm, fun hd => ?_⟩
      · show Store.ok (State.here _).store = true
        rw [hh]
        simp [Store.ok, h1, h2, h3]
      · show List.map (State.here _).store.bytes.byte offs = _
        rw [hh]
        exact h5 hd

/-! ### Locations of the own local memory -/

theorem check_near {s : State} {c : Nat} {f : Option (Nat × BitVec 8)} {w : Word} {size align : Nat} {want : Want} {pl : Place}
    (h : s.check c f w size align want = .ok pl) (hn : pl.atIssue = true) : ∃ n g off, pl = .chip 0 c n g off true := by
  unfold State.check at h
  split at h
  · dsimp only at h
    by_cases hl : chipLevel w = 0
    · simp only [hl, if_true] at h
      repeat' split at h
      all_goals first
        | (injection h with h; subst h; first | (simp [Place.atIssue] at hn; done) | skip)
        | cases h
      · next hloc _ _ _ =>
        have : s.named c w = c := by simpa using hloc
        rw [this]
        exact ⟨_, _, _, rfl⟩
    · have key : ∀ n g off l, (Place.chip (chipLevel w) (s.named c w) n g off l).atIssue = true → False := by
        intro n g off l e
        cases hq : chipLevel w with
        | zero => exact hl hq
        | succ m => rw [hq] at e; cases e
      simp only [hl, if_false] at h
      repeat' split at h
      all_goals first
        | cases h; done
        | (injection h with h; subst h; exact (key _ _ _ _ hn).elim)
  · split at h
    · next p hp =>
      split at h
      · cases h
      · injection h with h
        subst h
        unfold State.translate at hp
        repeat' (first | dsimp only at hp | split at hp)
        all_goals first | (cases hp; done) | (injection hp with hp; subst hp; cases hn)
    · next hne => exact (hne _ h).elim

theorem locate_near {s : State} {w : Word} {size align : Nat} {want : Want} {pl : Place} {k : Place → Res}
    (h : s.check s.cur.1 s.me.walkErr w size align want = .ok pl) (hn : pl.atIssue = true)
    (hf : s.portFree pl.home 0 = true) : s.locate w size align want k = k pl := by
  obtain ⟨n, g, off, rfl⟩ := check_near h hn
  unfold State.locate
  rw [h]
  dsimp only
  rw [hf]
  rfl

theorem logUndo_recordStore {s : State} (w : Word) (data : List Byte) (offs : List Nat) (h : (s.logUndo offs).isSome) :
    ((s.recordStore w data).logUndo offs).isSome := by
  have hh : (s.recordStore w data).here = { s.here with pairing := s.here.pairing.map fun q =>
      { q with stores := q.stores ++ [(w, data.length, data)] } } := State.core_modCore_self s _ _
  unfold State.logUndo at h ⊢
  rw [hh]
  cases hq : s.here.pairing with
  | none => rfl
  | some q =>
    rw [hq] at h
    dsimp only [Option.map] at h ⊢
    split at h
    · cases h
    · next hlt => rw [if_neg hlt]; rfl

theorem heldBack_recordStore (s : State) (w : Word) (data : List Byte) (scope : BitVec 4) :
    (s.recordStore w data).heldBack scope = s.heldBack scope := by
  have hk : (s.recordStore w data).core s.cur.1 = { s.core s.cur.1 with pairing := (s.core s.cur.1).pairing.map fun q =>
      { q with stores := q.stores ++ [(w, data.length, data)] } } := State.core_modCore_self s _ _
  have hm : ∀ h, (s.recordStore w data).homeInScope scope s.cur.1 h = s.homeInScope scope s.cur.1 h := by
    intro h
    unfold State.homeInScope
    rw [hk]
    rfl
  unfold State.heldBack
  rw [show (s.recordStore w data).here = _ from hk, show (s.recordStore w data).cur = s.cur from rfl]
  cases hq : (s.core s.cur.1).pairing with
  | none =>
    rw [show s.here.pairing = none from hq]
    rfl
  | some q =>
    rw [show s.here.pairing = some q from hq]
    simp only [Option.map, hm]

/-- Everything a posted write or atomic to the own local memory does, when the undo log has room and a pair holds nothing
back that it releases. -/
theorem post_near {s : State} {w : Word} {pl : Place} {a : Act} {bad : Bool} {order : BitVec 2} {scope : BitVec 4}
    {offs : List Nat} {d : List Byte × List Byte × Bool} (hp : ∃ n g off, pl = .chip 0 s.cur.1 n g off true)
    (ho : offs = s.offsetsOf pl a.size) (hok : s.here.store.ok = true) (hr : (s.logUndo offs).isSome)
    (hb : order = 2 ∨ order = 3 → s.heldBack scope = false)
    (hw : a.writes (s.here.store.load offs).1 (s.here.store.load offs).2 bad = some d) :
    ∃ u, s.post w pl a bad order scope none = some u ∧ s.Touches u offs ∧ u.here.store.ok = true ∧
      u.me = s.me ∧
      (offs.Nodup → offs.map u.here.store.bytes.byte = mergeBytes (s.here.store.load offs).1 d.1 d.2.1) := by
  obtain ⟨n, g, off, rfl⟩ := hp
  have key : ∀ (v : State) (rel : Option Release), s.ReadsNear v → v.me = s.me → (v.logUndo offs).isSome →
      ∃ u, (v.logUndo offs).map (fun t => (t.actChip (.localMem s.cur.1) offs a bad rel).1) = some u ∧ s.Touches u offs ∧
        u.here.store.ok = true ∧ u.me = s.me ∧
        (offs.Nodup → offs.map u.here.store.bytes.byte = mergeBytes (s.here.store.load offs).1 d.1 d.2.1) := by
    intro v rel hv hme hr
    obtain ⟨t, ht⟩ := Option.isSome_iff_exists.mp hr
    rw [ht]
    have hst := hv.trans (State.ReadsNear.of_logUndo ht)
    have hstore : t.here.store = s.here.store := hst.2.1
    have sp := (actChip_own (s := t) offs a bad rel).2.2 d (by rw [hstore]; exact hw) (by rw [hstore]; exact hok)
    rw [hst.1.cur] at sp
    obtain ⟨h1, h2, h3, h4⟩ := sp
    refine ⟨_, rfl, by simpa using hst.1.trans h1, h2, h3.trans ((logUndo_me ht).trans hme), fun hd => ?_⟩
    rw [h4 hd, hstore]
  have hoff : ∀ v : State, s.ReadsNear v → v.offsetsOf (.chip 0 s.cur.1 n g off true) a.size = offs := by
    intro v hv
    rw [ho]
    have : v.core s.cur.1 = v.here := by unfold State.here; rw [hv.1.cur]
    simp only [State.offsetsOf, Place.home, State.storeAt]
    rw [this, hv.2.1]
    rfl
  have fin : ∀ (v : State) (p : Packet), s.ReadsNear v → v.me = s.me → (v.logUndo offs).isSome →
      v.heldBack scope = s.heldBack scope → p.order = order →
      ∃ u, (if (Place.chip 0 s.cur.1 n g off true).atIssue then
          let offs := v.offsetsOf (.chip 0 s.cur.1 n g off true) a.size
          if p.releaseOf.isSome && v.heldBack scope then none
          else (v.logUndo offs).map fun t => (t.actChip (Place.chip 0 s.cur.1 n g off true).home offs a bad p.releaseOf).1
        else v.sendPosted p) = some u ∧
        s.Touches u offs ∧ u.here.store.ok = true ∧ u.me = s.me ∧
        (offs.Nodup → offs.map u.here.store.bytes.byte = mergeBytes (s.here.store.load offs).1 d.1 d.2.1) := by
    intro v p hv hme hr hh hpo
    rw [if_pos (show (Place.chip 0 s.cur.1 n g off true).atIssue = true from rfl)]
    dsimp only
    rw [hoff v hv, if_neg]
    · exact key v _ hv hme hr
    · unfold Packet.releaseOf
      rw [hpo, hh]
      split
      · next ho => rw [hb (by simpa using ho)]; simp
      · simp
  unfold State.post
  dsimp only
  refine fin _ _ ?_ ?_ ?_ ?_ ?_
  rotate_left 4
  · rfl
  all_goals split
  all_goals first
    | exact heldBack_recordStore s _ _ _
    | exact State.ReadsNear.recordStore s _ _
    | exact recordStore_me s _ _
    | exact logUndo_recordStore _ _ _ hr
    | exact State.ReadsNear.refl s
    | rfl
    | exact hr

/-- An access of one part to the own local memory, none of whose data waits: what is found is delivered at once. -/
theorem ask_near {s : State} {w : Word} {pl : Place} {a : Act} {dest : Dest} {acq : Option (BitVec 4)} {order : BitVec 2}
    {scope : BitVec 4} {bad hold taint : Bool} {offs : List Nat} (hp : ∃ n g off, pl = .chip 0 s.cur.1 n g off true)
    (ho : offs = s.offsetsOf pl a.size) (hr : (s.logUndo (if a.isLoad then [] else offs)).isSome)
    (hm : s.meetsHeld [(0, w, pl, a)] = false) :
    let got := s.here.store.load offs
    ∃ u op, s.ask [(0, w, pl, a)] dest acq order scope bad hold taint false = .done (u.deliver op) ∧
      op.dest = dest ∧ op.core = s.cur.1 ∧ op.ctx = s.cur.2 ∧ op.taint = taint ∧ op.data = got ∧
      op.parts = [(0, got)] ∧ u.me.relMark = s.me.relMark ∧
      ((∃ n, a = .read n) → s.ReadsNear u) ∧
      (a.writes got.1 got.2 bad = none → s.ReadsNear u) ∧
      ∀ d, a.writes got.1 got.2 bad = some d → s.here.store.ok = true → s.Touches u offs ∧
        (offs.Nodup → offs.map u.here.store.bytes.byte = mergeBytes got.1 d.1 d.2.1) := by
  obtain ⟨n, g, off, rfl⟩ := hp
  dsimp only
  unfold State.ask
  rw [if_neg (by rw [hm]; simp)]
  simp only [List.filter_cons, List.filter_nil, Place.atIssue, Bool.not_true, Bool.not_false, Bool.and_true, Bool.or_false,
    Bool.false_eq_true, if_true, if_false, List.flatMap_cons, List.flatMap_nil, List.append_nil]
  generalize hL : s.logUndo _ = L
  have hl : L = s.logUndo (if a.isLoad then [] else offs) := by
    rw [← hL, ho]
    clear * -
    cases a <;> rfl
  clear hL
  obtain ⟨t, ht⟩ := Option.isSome_iff_exists.mp hr
  rw [hl, ht]
  simp only [List.foldl_cons, List.foldl_nil, List.nil_append]
  generalize (s.packet 0 (Place.mem 0) (Act.read 0) bad none 0 order scope none).releaseOf = rel
  have hst := State.ReadsNear.of_logUndo ht
  have hstore : t.here.store = s.here.store := hst.2.1
  have hcur := hst.1.cur
  have hoff : t.offsetsOf (Place.chip 0 s.cur.1 n g off true) a.size = offs := by
    rw [ho]
    have : t.core s.cur.1 = t.here := by unfold State.here; rw [hcur]
    simp only [State.offsetsOf, Place.home, State.storeAt]
    rw [this, hstore]
    rfl
  have sp := actChip_own (s := t) offs a bad rel
  have sm := actChip_me t offs a bad rel
  rw [hcur, hstore] at sp
  rw [hcur] at sm
  dsimp only at sp
  obtain ⟨h1, h2, h3⟩ := sp
  rw [hoff]
  simp only [Place.home]
  generalize hq : t.actChip (Home.localMem s.cur.1) offs a bad rel = q at h1 h2 h3 sm
  obtain ⟨q1, q2⟩ := q
  dsimp only at h1 h2 h3 sm
  subst h1
  have hqc : q1.cur = s.cur := sm.1
  have hqm : q1.me.relMark = s.me.relMark := by rw [sm.2]; exact hst.2.2.1
  have hn : ∀ r : Option (Release × Bool), q1.ReadsNear (q1.noteRelease s.cur.1 s.cur.2 a.isLoad acq r) := by
    intro r
    rw [← hqc]
    exact State.ReadsNear.noteRelease _ _ _
  have hnone : a.writes (s.here.store.load offs).1 (s.here.store.load offs).2 bad = none →
      ∀ r : Option (Release × Bool), s.ReadsNear (q1.noteRelease s.cur.1 s.cur.2 a.isLoad acq r) := by
    intro hw r
    rw [← h2 hw] at hst
    exact hst.trans (hn r)
  refine ⟨_, _, rfl, rfl, rfl, rfl, rfl, ?_, rfl, ?_, ?_, fun hw => hnone hw _, fun d hw hok => ⟨?_, fun hd => ?_⟩⟩
  · show ((sortBy (·.1) [(0, s.here.store.load offs)]).flatMap (·.2.1), List.any [(0, s.here.store.load offs)] (·.2.2)) = _
    simp [sortBy, insertBy]
  · rw [(hn _).2.2.1, hqm]
  · rintro ⟨m, rfl⟩
    exact hnone rfl _
  · simpa using (hst.1.trans (h3 d hw hok).1).trans (hn _).1
  · rw [(hn _).2.1]
    exact (h3 d hw hok).2.2.2 hd

/-! ### Retirement after an access -/

theorem State.Touches.poisonedSource {s u : State} {offs : List Nat} (h : s.Touches u offs) (i : Instr) :
    poisonedSource i u = poisonedSource i s := by
  have hl : ∀ x, (u.here.ctx x).live = (s.here.ctx x).live := by
    intro x
    by_cases hx : x = s.cur.2
    · rw [hx, show u.here.ctx s.cur.2 = u.me from by rw [← h.cur]; rfl, h.own]
      rfl
    · rw [h.siblings x hx]
  have hf : u.here.freeHelper = s.here.freeHelper := by
    unfold Core.freeHelper
    simp only [hl]
  have hs : u.here.freeSlots = s.here.freeSlots := by
    unfold Core.freeSlots Store.tile
    rw [h.tiles, h.here]
  have hr : u.reads i = s.reads i := by
    unfold State.reads State.groupSources State.g
    rw [hf, hs, h.own]
    rfl
  unfold Sys2Proof.Machine.poisonedSource
  rw [hr, h.own]
  rfl

/-- An instruction that touches storage, then changes no more than some registers, completes. -/
theorem State.Completes.of_touches {s u v : State} {i : Instr} {regs : List Reg} {offs : List Nat} (h : s.Touches u offs)
    (k : u.Keeps v regs) (hlp : v.me.lp = u.me.lp) (hlpd : v.me.lpd = u.me.lpd)
    (hchk : Reg.status 0x0A ∉ regs → v.me.chk = u.me.chk) : u.Completes (s.retires i v (s.after i)) i regs := by
  have hcur : v.cur = s.cur := k.cur.trans h.cur
  have hpc : u.me.pc = s.me.pc := by rw [h.own]
  obtain ⟨w, hm⟩ := State.retires_me (s := s) (u := v) (i := i) (s.after i) hcur
  refine ⟨?_, ?_, ?_⟩
  · unfold State.retires
    have h1 := k.trans (State.Keeps.notePoison v (Sys2Proof.Machine.poisonedSource i s) regs)
    have h2 := h1.trans (State.Keeps.leave _ (s.after i) regs)
    have h3 := fun rs => State.Keeps.retirePair ((v.notePoison (Sys2Proof.Machine.poisonedSource i s)).leave (s.after i))
      s.me.pc rs (recordsValue i) (classes i s) regs
    rw [h2.cur, h.cur] at h3
    exact h2.trans (h3 _)
  · unfold State.wentTo
    dsimp only
    rw [hm]
    have hf := k.loopsFrozen s.cur.2
    rw [h.cur] at hf
    rw [h.cur, hf, hpc]
    apply Context.goto_congr
    · split <;> exact hlp
    · split <;> exact hlpd
  · intro hr
    rw [hm, ← hchk hr, h.poisonedSource]
    simp only [Context.goto_chk]
    split <;> rfl

end Sys2Proof.Machine
end

