-- ==== Sys2Proof/Laws/Lanes.lean ====
section
/-! SUPPORT. Lanes of a vector: what is read from a packed vector, and what writing lanes comes to. -/
namespace Sys2Proof.Machine

theorem span_length (a n : Nat) : (span a n).length = n := by
  induction n generalizing a with
  | zero => rfl
  | succ n ih => simp [span, ih]

theorem mem_span (a n i : Nat) : i ∈ span a n ↔ a ≤ i ∧ i < a + n := by
  induction n generalizing a with
  | zero => simp [span]
  | succ n ih => simp only [span, List.mem_cons, ih]; omega

theorem span_getElem? (a n i : Nat) : (span a n)[i]? = if i < n then some (a + i) else none := by
  induction n generalizing a i with
  | zero => simp [span]
  | succ n ih =>
    cases i with
    | zero => simp [span]
    | succ i =>
      simp only [span, List.getElem?_cons_succ, ih]
      by_cases h : i < n
      · rw [if_pos h, if_pos (by omega)]; congr 1; omega
      · rw [if_neg h, if_neg (by omega)]

theorem span_zero (n : Nat) : span 0 n = List.range n := by
  apply List.ext_getElem?
  intro i
  rw [span_getElem?]
  by_cases h : i < n <;> simp [h]

theorem packNat_lt (w : Nat) (xs : List Nat) : packNat w xs < 2 ^ (w * xs.length) := by
  induction xs with
  | nil => simp [packNat]
  | cons x xs ih =>
    have hx : x % 2 ^ w < 2 ^ w := Nat.mod_lt _ (Nat.two_pow_pos w)
    simp only [packNat, List.length_cons, Nat.mul_add, Nat.mul_one, Nat.pow_add]
    calc x % 2 ^ w + 2 ^ w * packNat w xs < 2 ^ w + 2 ^ w * packNat w xs := by omega
      _ = 2 ^ w * (packNat w xs + 1) := by ring
      _ ≤ 2 ^ w * 2 ^ (w * xs.length) := Nat.mul_le_mul_left _ ih
      _ = 2 ^ (w * xs.length) * 2 ^ w := Nat.mul_comm _ _

theorem packNat_digit (w : Nat) (xs : List Nat) (i : Nat) :
    packNat w xs / 2 ^ (w * i) % 2 ^ w = xs.getD i 0 % 2 ^ w := by
  induction xs generalizing i with
  | nil => simp [packNat]
  | cons x xs ih =>
    cases i with
    | zero => simp [packNat, Nat.add_mul_mod_self_left]
    | succ i =>
      have hx : x % 2 ^ w < 2 ^ w := Nat.mod_lt _ (Nat.two_pow_pos w)
      have : 2 ^ (w * (i + 1)) = 2 ^ w * 2 ^ (w * i) := by rw [Nat.mul_add, Nat.pow_add, Nat.mul_one, Nat.mul_comm]
      rw [packNat, this, ← Nat.div_div_eq_div_mul, Nat.add_mul_div_left _ _ (Nat.two_pow_pos w), Nat.div_eq_of_lt hx,
        Nat.zero_add, ih]
      simp

/-- A lane of a packed vector is the lane that was packed. -/
theorem lane_packVec (w : Nat) (xs : List Nat) (i : Nat) (h : w * xs.length ≤ 512) :
    lane (packVec w xs) w i = xs.getD i 0 % 2 ^ w := by
  have hlt : packNat w xs < 2 ^ 512 := lt_of_lt_of_le (packNat_lt w xs) (Nat.pow_le_pow_right (by decide) h)
  unfold lane packVec
  rw [BitVec.toNat_ofNat, Nat.mod_eq_of_lt hlt, packNat_digit]

theorem lane_lt (v : Vec) (w i : Nat) : lane v w i < 2 ^ w := Nat.mod_lt _ (Nat.two_pow_pos w)

/-- A lane of a vector packed from a function of the lane number. -/
theorem lane_packVec_span (w n : Nat) (f : Nat → Nat) (i : Nat) (hi : i < n) (h : w * n ≤ 512) :
    lane (packVec w ((span 0 n).map f)) w i = f i % 2 ^ w := by
  rw [lane_packVec _ _ _ (by simpa [span_length] using h)]
  simp [List.getD, span_getElem?, hi]

theorem laneWidth_mul_laneCount (ty : BitVec 5) : laneWidth ty * laneCount ty = 512 := by
  revert ty; decide

theorem foldl_or_getLsbD {α : Type} (l : List α) (g : α → BitVec 5) (a : BitVec 5) (b : Nat) :
    (l.foldl (fun x r => x ||| g r) a).getLsbD b = (a.getLsbD b || l.any fun r => (g r).getLsbD b) := by
  induction l generalizing a with
  | nil => simp
  | cons x l ih => simp [ih, Bool.or_assoc]

/-- The context that `State.writeLanes` leaves: codes under km, old lanes elsewhere, and the flags of the active lanes. -/
def Context.withLanes (x : Context) (d : Nat) (ty : BitVec 5) (p : Bool) (extra : BitVec 5) (f : Nat → Coded) : Context :=
  let rs := (span 0 (laneCount ty)).map fun i => if x.km.getLsbD i then some (f i) else none
  { x.writeV d { bits := packVec (laneWidth ty) ((span 0 (laneCount ty)).map fun i =>
      if x.km.getLsbD i then (f i).1 else lane (x.readV d).bits (laneWidth ty) i), tag := ty, poison := p } with
    fpf := x.fpf ||| rs.foldl (fun a r => a ||| (r.map (·.2)).getD 0) (if rs.any Option.isSome then extra else 0) }

theorem zipWith_codes (l : List Nat) (km : Word) (f : Nat → Coded) (old : Nat → Nat) (g : Nat → Option Coded → Nat)
    (h1 : ∀ i c, g i (some c) = c.1) (h2 : ∀ i, g i none = old i) :
    List.zipWith g l (l.map fun i => if km.getLsbD i then some (f i) else none) =
      l.map fun i => if km.getLsbD i then (f i).1 else old i := by
  induction l with
  | nil => rfl
  | cons a l ih =>
    simp only [List.map_cons, List.zipWith_cons_cons, ih]
    congr 1
    split <;> simp [h1, h2]

theorem State.writeLanes_eq (s : State) (d : Nat) (ty : BitVec 5) (p : Bool) (extra : BitVec 5) (f : Nat → Coded) :
    s.writeLanes d ty p extra f = s.modMe fun x => x.withLanes d ty p extra f := by
  unfold State.writeLanes
  congr 1
  funext x
  unfold Context.withLanes
  dsimp only
  rw [zipWith_codes _ _ _ (lane (x.readV d).bits (laneWidth ty)) _ (fun _ _ => rfl) (fun _ => rfl)]
  rfl

theorem Context.Keeps.withLanes (x : Context) (d : Nat) (ty : BitVec 5) (p : Bool) (extra : BitVec 5) (f : Nat → Coded) :
    x.Keeps (x.withLanes d ty p extra f) [.v d, .status 0x08] := by
  constructor <;> intros <;> first
    | rfl
    | exact ⟨rfl, rfl⟩
    | (next n hn => exact (Context.Keeps.writeV x d _ [.v d, .status 0x08] (by simp)).v n hn)
    | (next h => exact absurd (by simp) h)

theorem Context.withLanes_v (x : Context) (d : Nat) (ty : BitVec 5) (p : Bool) (extra : BitVec 5) (f : Nat → Coded) :
    (x.withLanes d ty p extra f).readV d = { bits := packVec (laneWidth ty) ((span 0 (laneCount ty)).map fun i =>
      if x.km.getLsbD i then (f i).1 else lane (x.readV d).bits (laneWidth ty) i), tag := ty, poison := p } :=
  (Context.readV_writeV x d d _).trans (if_pos rfl)

/-- An effect that writes the lanes of one v register. -/
theorem State.GivesLanes.of_body {s : State} {i : Instr} {d : BitVec 6} {ty : BitVec 5} {extra : BitVec 5} {f : Nat → Coded}
    {body : Bool → State → Res} (hi : exec i s = issue i s body)
    (hb : body (poisonedSource i s) s = .done (s.writeLanes d.toNat ty (poisonedSource i s) extra f)) :
    s.GivesLanes i d ty extra f := by
  intro hc
  rw [State.writeLanes_eq] at hb
  have hk := State.Keeps.modMe (s := s) (f := fun x => x.withLanes d.toNat ty (poisonedSource i s) extra f)
    (Context.Keeps.withLanes s.me d.toNat ty (poisonedSource i s) extra f)
  have hv : ∀ next, (s.retires i (s.modMe fun x => x.withLanes d.toNat ty (poisonedSource i s) extra f) next).v d.toNat = _ :=
    fun next => ((State.retires_readV next hk.cur d.toNat).trans
      (congrArg (fun x : Context => x.readV d.toNat) (State.me_modMe s _))).trans (Context.withLanes_v _ _ _ _ _ _)
  refine ⟨_, by rw [hi]; exact issue_done hc hb, ?_, ?_, ?_, ?_, ?_⟩
  · apply State.Completes.of_done hk <;> simp <;> rfl
  · rw [hv]
  · rw [hv]
  · intro n hn
    rw [hv]
    dsimp only
    rw [lane_packVec_span _ _ _ _ hn (le_of_eq (laneWidth_mul_laneCount ty))]
    split
    · rfl
    · exact Nat.mod_eq_of_lt (lane_lt _ _ _)
  · intro b _
    rw [State.retires_fpf _ hk.cur, State.me_modMe]
    have hor : ∀ (x : BitVec 5), (s.me.fpf ||| x).getLsbD b = (s.me.fpf.getLsbD b || x.getLsbD b) := fun x => by simp
    refine (hor _).trans ?_
    congr 1
    rw [foldl_or_getLsbD]
    simp only [activeLanes, List.any_map, List.any_filter]
    generalize span 0 (laneCount ty) = l
    by_cases hany : (l.any (Option.isSome ∘ fun i => if s.me.km.getLsbD i then some (f i) else none)) = true
    · rw [if_pos hany]
      rw [Bool.eq_iff_iff]
      simp only [List.any_eq_true, Function.comp] at hany
      obtain ⟨x, hx, hx'⟩ := hany
      have hkx : s.me.km.getLsbD x = true := by
        by_contra h; simp [h] at hx'
      simp only [Bool.or_eq_true, List.any_eq_true, Function.comp, Bool.and_eq_true]
      constructor
      · rintro (h | ⟨y, hy, h⟩)
        · exact ⟨x, hx, hkx, .inr h⟩
        · refine ⟨y, hy, ?_⟩
          by_cases hky : s.me.km.getLsbD y = true
          · simp [hky] at h; exact ⟨hky, .inl h⟩
          · simp [hky] at h
      · rintro ⟨y, hy, hky, h | h⟩
        · exact .inr ⟨y, hy, by simpa [hky] using h⟩
        · exact .inl h
    · rw [if_neg hany]
      rw [Bool.eq_iff_iff]
      simp only [List.any_eq_true, Function.comp] at hany
      push Not at hany
      simp only [Bool.or_eq_true, List.any_eq_true, Function.comp, Bool.and_eq_true]
      constructor
      · rintro (h | ⟨y, hy, h⟩)
        · simp at h
        · have := hany y hy
          by_cases hky : s.me.km.getLsbD y = true
          · simp [hky] at this
          · simp [hky] at h
      · rintro ⟨y, hy, hky, _⟩
        have := hany y hy
        simp [hky] at this

end Sys2Proof.Machine
end

