-- ==== Sys2Proof/Laws/Arith.lean ====
section
/-! SUPPORT. The shapes of format A: what an instruction of one or two operands comes to, scalar or by lanes, and the
integers behind the scalar operations. -/
namespace Sys2Proof.Machine

theorem State.arith2_scalar (s : State) (p : Bool) (acc : BitVec 5 → Bool) (un : Bool) (d : BitVec 6) (t : BitVec 2)
    (a : BitVec 6) (u : BitVec 2) (b : BitVec 6) (f : BitVec 5 → BitVec 2 → Nat → Nat → Coded) (g : Word → Word → Word)
    (ht : t ≠ 1) (hu : u ≠ 1) :
    s.arith2 p acc un d t a u b f g =
      .done (s.writeG d.toNat (g (s.scalarOpnd false t a) (s.scalarOpnd un u b)) p) := by
  unfold State.arith2 State.firstTag
  rw [if_neg ht, if_neg hu]

theorem State.arith2_lanes (s : State) (p : Bool) (acc : BitVec 5 → Bool) (un : Bool) (d : BitVec 6) (t : BitVec 2)
    (a : BitVec 6) (u : BitVec 2) (b : BitVec 6) (f : BitVec 5 → BitVec 2 → Nat → Nat → Coded) (g : Word → Word → Word)
    (ty : BitVec 5) (h : s.firstTag t a u b = some ty) (ha : acc ty = true) (hd : s.tagsDiffer t a u b = false) :
    s.arith2 p acc un d t a u b f g =
      .done (s.writeLanes d.toNat ty p ((s.laneOpnd false t a ty).2 ||| (s.laneOpnd un u b ty).2) fun i =>
        f ty s.me.rmode ((s.laneOpnd false t a ty).1 i) ((s.laneOpnd un u b ty).1 i)) := by
  unfold State.arith2
  rw [h]
  simp only [ha, hd]
  rfl

theorem State.bitwise_scalar (s : State) (p : Bool) (d : BitVec 6) (t : BitVec 2) (a : BitVec 6) (u : BitVec 2)
    (b : BitVec 6) (f : Nat → Nat → Nat) (g : Word → Word → Word) (ht : t ≠ 1) (hu : u ≠ 1) :
    s.bitwise p d t a u b f g =
      .done (s.writeG d.toNat (g (s.scalarOpnd false t a) (s.scalarOpnd false u b)) p) := by
  unfold State.bitwise State.firstTag
  rw [if_neg ht, if_neg hu]

theorem State.bitwise_lanes (s : State) (p : Bool) (d : BitVec 6) (t : BitVec 2) (a : BitVec 6) (u : BitVec 2)
    (b : BitVec 6) (f : Nat → Nat → Nat) (g : Word → Word → Word) (ty : BitVec 5)
    (h : s.firstTag t a u b = some ty) (hd : s.tagsDiffer t a u b = false) :
    s.bitwise p d t a u b f g =
      .done (s.writeLanes d.toNat ty p 0 fun i => (f (s.bitOpnd t a ty i) (s.bitOpnd u b ty i), 0)) := by
  unfold State.bitwise
  rw [h]
  simp only [hd]
  rfl

theorem State.bitwise_format (s : State) (p : Bool) (d : BitVec 6) (t : BitVec 2) (a : BitVec 6) (u : BitVec 2)
    (b : BitVec 6) (f : Nat → Nat → Nat) (g : Word → Word → Word) (ty : BitVec 5)
    (h : s.firstTag t a u b = some ty) (hd : s.tagsDiffer t a u b = true) :
    s.bitwise p d t a u b f g = .trap 0x02 0 (s.formatVal2 t a u b) := by
  unfold State.bitwise
  rw [h]
  simp [hd]

theorem State.arith2_format (s : State) (p : Bool) (acc : BitVec 5 → Bool) (un : Bool) (d : BitVec 6) (t : BitVec 2)
    (a : BitVec 6) (u : BitVec 2) (b : BitVec 6) (f : BitVec 5 → BitVec 2 → Nat → Nat → Coded) (g : Word → Word → Word)
    (ty : BitVec 5) (h : s.firstTag t a u b = some ty) (hd : acc ty = false ∨ s.tagsDiffer t a u b = true) :
    s.arith2 p acc un d t a u b f g = .trap 0x02 0 (s.formatVal2 t a u b) := by
  unfold State.arith2
  rw [h]
  rcases hd with h1 | h1 <;> simp [h1]

theorem State.arith1_scalar (s : State) (p : Bool) (acc : BitVec 5 → Bool) (d : BitVec 6) (t : BitVec 2) (a : BitVec 6)
    (f : BitVec 5 → Nat → Coded) (g : Word → Word) (ht : t ≠ 1) :
    s.arith1 p acc d t a f g = .done (s.writeG d.toNat (g (s.scalarOpnd false t a)) p) := by
  unfold State.arith1
  rw [if_neg ht]

theorem State.arith1_lanes (s : State) (p : Bool) (acc : BitVec 5 → Bool) (d : BitVec 6) (a : BitVec 6)
    (f : BitVec 5 → Nat → Coded) (g : Word → Word) (ha : acc (s.v a.toNat).tag = true) :
    s.arith1 p acc d 1 a f g = .done (s.writeLanes d.toNat (s.v a.toNat).tag p 0 fun i =>
      f (s.v a.toNat).tag (lane (s.v a.toNat).bits (laneWidth (s.v a.toNat).tag) i)) := by
  unfold State.arith1
  rw [if_pos rfl]
  simp only [ha, if_true]

theorem State.arith1_format (s : State) (p : Bool) (acc : BitVec 5 → Bool) (d : BitVec 6) (a : BitVec 6)
    (f : BitVec 5 → Nat → Coded) (g : Word → Word) (ha : acc (s.v a.toNat).tag = false) :
    s.arith1 p acc d 1 a f g = .trap 0x02 0 (formatVal (s.v a.toNat).tag 0 0) := by
  unfold State.arith1
  rw [if_pos rfl]
  simp [ha]

theorem State.special_lanes (s : State) (p : Bool) (d a : BitVec 6) (f : Fmt → BitVec 2 → Num → Coded)
    (h : isFloatTag (s.v a.toNat).tag = true) :
    s.special p d a f = .done (s.writeLanes d.toNat (s.v a.toNat).tag p 0 fun i =>
      f (floatFmt (s.v a.toNat).tag) s.me.rmode
        ((floatFmt (s.v a.toNat).tag).decode (lane (s.v a.toNat).bits (laneWidth (s.v a.toNat).tag) i))) := by
  unfold State.special
  simp only [h, if_true]

theorem State.special_format (s : State) (p : Bool) (d a : BitVec 6) (f : Fmt → BitVec 2 → Num → Coded)
    (h : isFloatTag (s.v a.toNat).tag = false) :
    s.special p d a f = .trap 0x02 0 (formatVal (s.v a.toNat).tag 0 0) := by
  unfold State.special
  simp [h]

/-- A trap out of the body of an instruction whose loads have returned. -/
theorem State.Traps.of_body {s : State} {i : Instr} {c sub : BitVec 8} {v : Word} {body : Bool → State → Res}
    (hi : exec i s = issue i s body) (hb : body (poisonedSource i s) s = .trap c sub v) : s.Traps i c sub v := by
  intro hc hl
  rw [hi]
  exact issue_trap hc hb hl

/-! ### Shifts and bit counts of a word -/

theorem shl_eq (w a n : Nat) : shl w a n = (BitVec.ofNat w a <<< (n % w)).toNat := by
  simp [shl, BitVec.toNat_shiftLeft, Nat.shiftLeft_eq]

theorem shr_eq {w a : Nat} (n : Nat) (ha : a < 2 ^ w) : shr w a n = (BitVec.ofNat w a >>> (n % w)).toNat := by
  rw [shr, BitVec.toNat_ushiftRight, Nat.shiftRight_eq_div_pow, BitVec.toNat_ofNat, Nat.mod_eq_of_lt ha]

theorem sar_eq {w a : Nat} (n : Nat) (hw : 0 < w) (ha : a < 2 ^ w) :
    sar w a n = ((BitVec.ofNat w a).sshiftRight (n % w)).toNat := by
  have hm : n % w < w := Nat.mod_lt _ hw
  unfold sar
  generalize n % w = m at hm
  have hp : 0 < 2 ^ m := Nat.two_pow_pos m
  have hs : 2 ^ w = 2 ^ (w - m) * 2 ^ m := by rw [← Nat.pow_add]; congr 1; omega
  have hh : 2 ^ w = 2 * 2 ^ (w - 1) := by rw [← Nat.pow_succ']; congr 1; omega
  have hmsb : (BitVec.ofNat w a).msb = decide (2 ^ (w - 1) ≤ a) := by
    rw [BitVec.msb_eq_decide, BitVec.toNat_ofNat, Nat.mod_eq_of_lt ha]
  dsimp only
  by_cases h : a ≥ 2 ^ (w - 1)
  · rw [if_pos h, BitVec.sshiftRight_eq_of_msb_true (by rw [hmsb]; simpa using h), BitVec.toNat_not, BitVec.toNat_ushiftRight,
      BitVec.toNat_not, BitVec.toNat_ofNat, Nat.mod_eq_of_lt ha, Nat.shiftRight_eq_div_pow]
    have h1 : a / 2 ^ m < 2 ^ (w - m) := Nat.div_lt_of_lt_mul (by rw [Nat.mul_comm, ← hs]; exact ha)
    have h2 : (2 ^ w - 1 - a) / 2 ^ m = 2 ^ (w - m) - 1 - a / 2 ^ m := by
      have e : 2 ^ w - 1 - a = 2 ^ (w - m) * 2 ^ m - (a + 1) := by omega
      rw [e, Nat.mul_comm, Nat.mul_sub_div _ _ _ (by rw [Nat.mul_comm, ← hs]; omega)]
      omega
    have h3 : 2 ^ (w - m) ≤ 2 ^ w := Nat.pow_le_pow_right (by decide) (by omega)
    rw [h2]
    clear h2 hs hh hmsb h hp
    generalize a / 2 ^ m = q at *
    generalize 2 ^ (w - m) = r at *
    generalize 2 ^ w = t at *
    omega
  · rw [if_neg h, BitVec.sshiftRight_eq_of_msb_false (by rw [hmsb]; simpa using h), BitVec.toNat_ushiftRight, BitVec.toNat_ofNat,
      Nat.mod_eq_of_lt ha, Nat.shiftRight_eq_div_pow]

theorem rot_eq {w a : Nat} (n : Nat) (hw : 0 < w) (ha : a < 2 ^ w) :
    rot w a n = ((BitVec.ofNat w a).rotateLeft (n % w)).toNat := by
  have hm : n % w < w := Nat.mod_lt _ hw
  unfold rot
  generalize n % w = m at hm
  rw [BitVec.rotateLeft_def, Nat.mod_eq_of_lt hm]
  have hs : 2 ^ w = 2 ^ (w - m) * 2 ^ m := by rw [← Nat.pow_add]; congr 1; omega
  have h1 : a / 2 ^ (w - m) < 2 ^ m := Nat.div_lt_of_lt_mul (by rw [← hs]; exact ha)
  have h2 : a * 2 ^ m % 2 ^ w = 2 ^ m * (a % 2 ^ (w - m)) := by
    rw [hs, Nat.mul_mod_mul_right, Nat.mul_comm]
  rw [h2, Nat.two_pow_add_eq_or_of_lt h1, ← h2, BitVec.toNat_or, BitVec.toNat_shiftLeft, BitVec.toNat_ushiftRight,
    BitVec.toNat_ofNat, Nat.shiftLeft_eq, Nat.shiftRight_eq_div_pow, Nat.mod_eq_of_lt ha]

theorem shiftWord_shl (x n : Word) : shiftWord shl x n = x <<< (n.toNat % 64) := by
  rw [shiftWord, shl_eq]; simp only [BitVec.ofNat_toNat, BitVec.setWidth_eq]
theorem shiftWord_shr (x n : Word) : shiftWord shr x n = x >>> (n.toNat % 64) := by
  rw [shiftWord, shr_eq _ x.isLt]; simp only [BitVec.ofNat_toNat, BitVec.setWidth_eq]
theorem shiftWord_sar (x n : Word) : shiftWord sar x n = x.sshiftRight (n.toNat % 64) := by
  rw [shiftWord, sar_eq _ (by decide) x.isLt]; simp only [BitVec.ofNat_toNat, BitVec.setWidth_eq]
theorem shiftWord_rot (x n : Word) : shiftWord rot x n = x.rotateLeft (n.toNat % 64) := by
  rw [shiftWord, rot_eq _ (by decide) x.isLt]; simp only [BitVec.ofNat_toNat, BitVec.setWidth_eq]

/-- CLZ: the highest set bit stands at 63 minus the count. -/
theorem countWord_clz (x : Word) : (x = 0 → countWord clz x = 64) ∧ (x ≠ 0 → (countWord clz x).toNat < 64 ∧
    x.getLsbD (63 - (countWord clz x).toNat) = true ∧ ∀ n, 63 - (countWord clz x).toNat < n → x.getLsbD n = false) := by
  refine ⟨fun h => by subst h; rfl, fun h => ?_⟩
  have h0 : x.toNat ≠ 0 := fun e => h (BitVec.eq_of_toNat_eq e)
  have hl : Nat.log2 x.toNat < 64 := (Nat.log2_lt h0).mpr x.isLt
  have hc : (countWord clz x).toNat = 63 - Nat.log2 x.toNat := by
    unfold countWord clz
    rw [if_neg h0, BitVec.toNat_ofNat]
    omega
  rw [hc, show 63 - (63 - Nat.log2 x.toNat) = Nat.log2 x.toNat by omega]
  refine ⟨by omega, Nat.testBit_log2 h0, fun n hn => ?_⟩
  exact Nat.testBit_lt_two_pow (lt_of_lt_of_le Nat.lt_log2_self (Nat.pow_le_pow_right (by decide) hn))

theorem find?_span (p : Nat → Bool) (a n : Nat) : (∀ i, (span a n).find? p = some i → p i = true ∧ i < a + n ∧ ∀ j, a ≤ j → j < i → p j = false) ∧
    ((span a n).find? p = none → ∀ j, a ≤ j → j < a + n → p j = false) := by
  induction n generalizing a with
  | zero => exact ⟨fun i h => by simp [span] at h, fun _ j h1 h2 => by omega⟩
  | succ n ih =>
    unfold span
    by_cases hp : p a = true
    · rw [List.find?_cons_of_pos hp]
      refine ⟨fun i h => ?_, fun h => by simp at h⟩
      cases h
      exact ⟨hp, by omega, fun j h1 h2 => by omega⟩
    · rw [List.find?_cons_of_neg hp]
      have hf : p a = false := by simpa using hp
      refine ⟨fun i h => ?_, fun h j h1 h2 => ?_⟩
      · obtain ⟨h1, h2, h3⟩ := (ih (a + 1)).1 i h
        refine ⟨h1, by omega, fun j hj1 hj2 => ?_⟩
        rcases Nat.eq_or_lt_of_le hj1 with rfl | hj
        · exact hf
        · exact h3 j hj hj2
      · rcases Nat.eq_or_lt_of_le h1 with rfl | hj
        · exact hf
        · exact (ih (a + 1)).2 h j hj (by omega)

/-- FFS: the lowest set bit. -/
theorem countWord_ffs (x : Word) : (x = 0 → countWord ffs x = 64) ∧ (x ≠ 0 → (countWord ffs x).toNat < 64 ∧
    x.getLsbD (countWord ffs x).toNat = true ∧ ∀ n, n < (countWord ffs x).toNat → x.getLsbD n = false) := by
  refine ⟨fun h => by subst h; decide, fun h => ?_⟩
  have hf := find?_span x.toNat.testBit 0 64
  have hw : (countWord ffs x).toNat = ((span 0 64).find? x.toNat.testBit).getD 64 % 2 ^ 64 := rfl
  rw [hw]
  cases hs : (span 0 64).find? x.toNat.testBit with
  | none =>
    exfalso
    apply h
    apply BitVec.eq_of_getLsbD_eq
    intro i hi
    exact (hf.2 hs i (by omega) (by omega)).trans (by simp)
  | some i =>
    obtain ⟨h1, h2, h3⟩ := hf.1 i hs
    simp only [Option.getD_some]
    rw [Nat.mod_eq_of_lt (by omega)]
    exact ⟨by omega, h1, fun n hn => h3 n (by omega) hn⟩

theorem countWord_popc (x : Word) : countWord popc x = BitVec.ofNat 64 ((List.range 64).countP x.getLsbD) := by
  unfold countWord popc
  rw [show span 0 64 = List.range 64 by decide, List.countP_eq_length_filter]
  rfl

/-- BREV: bit 63 - i becomes bit i. -/
theorem countWord_brev (x : Word) (n : Nat) (hn : n < 64) : (countWord brev x).getLsbD n = x.getLsbD (63 - n) := by
  unfold countWord brev
  have h := packNat_digit 1 ((span 0 64).map fun i => if x.toNat.testBit (64 - 1 - i) then 1 else 0) n
  rw [BitVec.getLsbD_ofNat]
  simp only [hn, decide_true, Bool.true_and]
  rw [Nat.testBit_eq_decide_div_mod_eq]
  rw [Nat.one_mul] at h
  rw [show (2:Nat) ^ 1 = 2 from rfl] at h
  rw [h]
  have hg : ((span 0 64).map fun i => if x.toNat.testBit (64 - 1 - i) then 1 else 0).getD n 0 =
      if x.getLsbD (63 - n) = true then 1 else 0 := by simp [List.getD, span_getElem?, hn]; rfl
  rw [hg]
  split
  · next hb => rw [hb]; rfl
  · next hb => rw [Bool.eq_false_iff.mpr hb]; rfl
/-! ### The tree of a reduction -/

/-- What an entry of the tree stands for: an excluded lane is the identity. -/
def treeVal {α : Type} (φ : Nat → α) (e : α) : Option Nat → α
  | some c => φ c
  | none => e

theorem foldPairs_length (op : Nat → Nat → Coded) : ∀ l : List (Option Nat), 2 * (foldPairs op l).1.length ≤ l.length + 1
  | [] => by simp [foldPairs]
  | [_] => by simp [foldPairs]
  | a :: b :: t => by
    have := foldPairs_length op t
    simp only [foldPairs, List.length_cons]
    omega

theorem foldPairs_fold {α : Type} (op : Nat → Nat → Coded) (φ : Nat → α) (m : α → α → α) (e : α)
    (hm : ∀ x y z, m (m x y) z = m x (m y z)) (he : ∀ x, m e x = x) (he' : ∀ x, m x e = x)
    (hφ : ∀ x y, φ (op x y).1 = m (φ x) (φ y)) :
    ∀ l : List (Option Nat), ((foldPairs op l).1.map (treeVal φ e)).foldr m e = (l.map (treeVal φ e)).foldr m e
  | [] => rfl
  | [_] => rfl
  | a :: b :: t => by
    have ih := foldPairs_fold op φ m e hm he he' hφ t
    have hc : treeVal φ e (combine op a b).1 = m (treeVal φ e a) (treeVal φ e b) := by
      cases a <;> cases b <;> simp [combine, treeVal, he, he', hφ]
    simp only [foldPairs, List.map_cons, List.foldr_cons, ih, hc, hm]

/-- The tree combines all lanes, each once, in order. -/
theorem reduceTree_fold {α : Type} (op : Nat → Nat → Coded) (φ : Nat → α) (m : α → α → α) (e : α)
    (hm : ∀ x y z, m (m x y) z = m x (m y z)) (he : ∀ x, m e x = x) (he' : ∀ x, m x e = x)
    (hφ : ∀ x y, φ (op x y).1 = m (φ x) (φ y)) :
    ∀ (n : Nat) (l : List (Option Nat)) (f : BitVec 5), l.length ≤ 2 ^ n →
      treeVal φ e (reduceTree op n l f).1 = (l.map (treeVal φ e)).foldr m e
  | 0, l, f, h => by
    match l, h with
    | [], _ => rfl
    | [a], _ => exact (he' _).symm
    | _ :: _ :: _, h => simp at h
  | n + 1, l, f, h => by
    match l, h with
    | [a], _ => exact (he' _).symm
    | [], _ => exact reduceTree_fold op φ m e hm he he' hφ n [] _ (by simp)
    | a :: b :: t, h =>
      have hl := foldPairs_length op (a :: b :: t)
      have h2 : (2 : Nat) ^ (n + 1) = 2 * 2 ^ n := by ring
      show treeVal φ e (reduceTree op n (foldPairs op (a :: b :: t)).1 _).1 = _
      rw [reduceTree_fold op φ m e hm he he' hφ n _ _ (by omega)]
      exact foldPairs_fold op φ m e hm he he' hφ _

theorem foldPairs_all (op : Nat → Nat → Coded) (P : Nat → Prop) (h : ∀ x y, P x → P y → P (op x y).1) :
    ∀ l : List (Option Nat), (∀ c, some c ∈ l → P c) → ∀ c, some c ∈ (foldPairs op l).1 → P c
  | [], hl => hl
  | [_], hl => hl
  | a :: b :: t, hl => by
    intro c hc
    simp only [foldPairs, List.mem_cons] at hc
    rcases hc with hc | hc
    · cases a with
      | none => cases b with
        | none => simp [combine] at hc
        | some y => simp only [combine, Option.some.injEq] at hc; subst hc; exact hl _ (by simp)
      | some x => cases b with
        | none => simp only [combine, Option.some.injEq] at hc; subst hc; exact hl _ (by simp)
        | some y =>
          simp only [combine, Option.some.injEq] at hc
          subst hc
          exact h _ _ (hl _ (by simp)) (hl _ (by simp))
    · exact foldPairs_all op P h t (fun d hd => hl d (by simp [hd])) c hc

/-- What holds of every lane and is kept by the operation holds of the result. -/
theorem reduceTree_all (op : Nat → Nat → Coded) (P : Nat → Prop) (h : ∀ x y, P x → P y → P (op x y).1) :
    ∀ (n : Nat) (l : List (Option Nat)) (f : BitVec 5), (∀ c, some c ∈ l → P c) →
      ∀ c, (reduceTree op n l f).1 = some c → P c := by
  intro n
  induction n with
  | zero =>
    intro l f hl c hc
    cases l with
    | nil => simp [reduceTree] at hc
    | cons a l => simp only [reduceTree, List.headD_cons] at hc; subst hc; exact hl c (by simp)
  | succ n ih =>
    intro l f hl c hc
    unfold reduceTree at hc
    split at hc
    · dsimp only at hc; subst hc; exact hl c (by simp)
    · exact ih _ _ (foldPairs_all op P h l hl) c hc

theorem foldPairs_flags (op : Nat → Nat → Coded) (h : ∀ x y, (op x y).2 = 0) :
    ∀ l : List (Option Nat), (foldPairs op l).2 = 0
  | [] => rfl
  | [_] => rfl
  | a :: b :: t => by
    simp only [foldPairs, foldPairs_flags op h t]
    cases a <;> cases b <;> simp [combine, h]

/-- Operations that set no flag leave none. -/
theorem reduceTree_flags (op : Nat → Nat → Coded) (h : ∀ x y, (op x y).2 = 0) :
    ∀ (n : Nat) (l : List (Option Nat)) (f : BitVec 5), (reduceTree op n l f).2 = f := by
  intro n
  induction n with
  | zero => intro l f; rfl
  | succ n ih =>
    intro l f
    unfold reduceTree
    split
    · rfl
    · simp only [ih, foldPairs_flags op h]
      exact BitVec.or_zero

/-! ### From the shapes to the terms of claims -/

theorem State.GivesG.of_arith2 {s : State} {i : Instr} {acc un d t a u b f g} (hi : exec i s = issue i s fun p s => s.arith2 p acc un d t a u b f g)
   (ht : t ≠ 1) (hu : u ≠ 1) : s.GivesG i d (g (s.scalarOpnd false t a) (s.scalarOpnd un u b)) := State.GivesG.of_body hi (State.arith2_scalar _ _ _ _ _ _ _ _ _ _ _ ht hu)
theorem State.GivesG.of_bitwise {s : State} {i : Instr} {d t a u b f g} (hi : exec i s = issue i s fun p s => s.bitwise p d t a u b f g)
   (ht : t ≠ 1) (hu : u ≠ 1) : s.GivesG i d (g (s.scalarOpnd false t a) (s.scalarOpnd false u b)) :=
  State.GivesG.of_body hi (State.bitwise_scalar _ _ _ _ _ _ _ _ _ ht hu)
theorem State.GivesG.of_arith1 {s : State} {i : Instr} {acc d t a f g} (hi : exec i s = issue i s fun p s => s.arith1 p acc d t a f g)
   (ht : t ≠ 1) : s.GivesG i d (g (s.scalarOpnd false t a)) := State.GivesG.of_body hi (State.arith1_scalar _ _ _ _ _ _ _ _ ht)
theorem State.GivesG.congr {s : State} {i : Instr} {d w w'} (h : s.GivesG i d w) (e : w = w') : s.GivesG i d w' := e ▸ h
theorem State.scalarOpnd_short (s : State) (b : Bool) (d : BitVec 5) : s.scalarOpnd b 0 (d.setWidth 6) = s.g d.toNat := by
  have hd : (d.setWidth 6).toNat = d.toNat := by simp; omega
  rw [← hd]; rfl
theorem State.GivesLanes.congr {s : State} {i : Instr} {d ty e e' f g} (h : s.GivesLanes i d ty e f) (he : e = e')
    (hf : ∀ n, n < laneCount ty → (f n).1 % 2 ^ laneWidth ty = (g n).1 % 2 ^ laneWidth ty ∧ (f n).2 = (g n).2) : s.GivesLanes i d ty e' g := by
  subst he
  intro hc
  obtain ⟨t, h1, h2, h3, h4, h5, h6⟩ := h hc
  refine ⟨t, h1, h2, h3, h4, fun n hn => ?_, fun b hb => ?_⟩
  · rw [h5 n hn, (hf n hn).1]
  · rw [h6 b hb]
    congr 1
    rw [Bool.eq_iff_iff, List.any_eq_true, List.any_eq_true]
    apply exists_congr
    intro n
    apply and_congr_right
    intro hn
    have : n < laneCount ty := by
      have := (List.mem_filter.mp hn).1
      rw [mem_span] at this; omega
    rw [(hf n this).2]
theorem State.GivesLanes.of_arith2 {s : State} {i : Instr} {acc un d t a u b f g ty} (hi : exec i s = issue i s fun p s => s.arith2 p acc un d t a u b f g)
   (h : s.firstTag t a u b = some ty) (hd : s.tagsDiffer t a u b = false) (ha : acc ty = true) :
   s.GivesLanes i d ty ((s.laneOpnd false t a ty).2 ||| (s.laneOpnd un u b ty).2) (fun i =>
        f ty s.me.rmode ((s.laneOpnd false t a ty).1 i) ((s.laneOpnd un u b ty).1 i)) :=
  State.GivesLanes.of_body hi (State.arith2_lanes _ _ _ _ _ _ _ _ _ _ _ _ h ha hd)
theorem State.GivesLanes.of_bitwise {s : State} {i : Instr} {d t a u b f g ty} (hi : exec i s = issue i s fun p s => s.bitwise p d t a u b f g)
   (h : s.firstTag t a u b = some ty) (hd : s.tagsDiffer t a u b = false) :
   s.GivesLanes i d ty 0 (fun i => (f (s.bitOpnd t a ty i) (s.bitOpnd u b ty i), 0)) :=
  State.GivesLanes.of_body hi (State.bitwise_lanes _ _ _ _ _ _ _ _ _ _ h hd)
theorem State.GivesLanes.of_arith1 {s : State} {i : Instr} {acc d a f g} (hi : exec i s = issue i s fun p s => s.arith1 p acc d 1 a f g)
   (ha : acc (s.v a.toNat).tag = true) :
   s.GivesLanes i d (s.v a.toNat).tag 0 (fun i => f (s.v a.toNat).tag (lane (s.v a.toNat).bits (laneWidth (s.v a.toNat).tag) i)) :=
  State.GivesLanes.of_body hi (State.arith1_lanes _ _ _ _ _ _ _ ha)
theorem State.laneOpnd_flags (s : State) (un : Bool) (t : BitVec 2) (a : BitVec 6) (ty : BitVec 5) (h : isFloatTag ty = false) : (s.laneOpnd un t a ty).2 = 0 := by
  unfold State.laneOpnd
  split
  · rfl
  · simp [State.element, h]
theorem isFloatTag_of_int (ty : BitVec 5) (h : isIntTag ty = true) : isFloatTag ty = false := by revert ty; decide

/-! ### Lanes as integers, masks and frames -/

theorem Context.Keeps.writeK_fpf (x : Context) (d : Nat) (w : Word) (f : BitVec 5) :
    x.Keeps { x.writeK d w with fpf := f } [.k d, .status 0x08] := by
  constructor <;> intros <;> first
    | rfl
    | exact ⟨rfl, rfl⟩
    | (next n hn => exact (Context.Keeps.writeK x d _ [.k d, .status 0x08] (by simp)).k n hn)
    | (next h => exact absurd (by simp) h)
theorem mem_activeLanes (km : Word) (n i : Nat) : i ∈ activeLanes km n ↔ i < n ∧ km.getLsbD i = true := by
  unfold activeLanes
  rw [List.mem_filter, mem_span]
  simp
theorem Context.Keeps.writeV_fpf (x : Context) (d : Nat) (v : VVal) (f : BitVec 5) :
    x.Keeps { x.writeV d v with fpf := f } [.v d, .status 0x08] := by
  constructor <;> intros <;> first
    | rfl
    | exact ⟨rfl, rfl⟩
    | (next n hn => exact (Context.Keeps.writeV x d _ [.v d, .status 0x08] (by simp)).v n hn)
    | (next h => exact absurd (by simp) h)
theorem laneInt_mod (ty : BitVec 5) (c : Nat) : laneInt ty c ≡ (c : Int) [ZMOD ((2 ^ laneWidth ty : Nat) : Int)] := by
  unfold laneInt
  dsimp only
  split
  · push_cast; exact Int.sub_emod_right _ _
  · rfl
theorem wrap_mod (w : Nat) (z : Int) : ((wrap w z : Nat) : Int) ≡ z [ZMOD ((2 ^ w : Nat) : Int)] := by
  unfold wrap
  rw [Int.toNat_of_nonneg (Int.emod_nonneg _ (by positivity))]
  push_cast
  exact Int.mod_modEq _ _
theorem laneInt_wrap (ty : BitVec 5) (z : Int) (h1 : intLo (isSigned ty) (laneWidth ty) ≤ z) (h2 : z ≤ intHi (isSigned ty) (laneWidth ty)) :
    laneInt ty (wrap (laneWidth ty) z) = z := by
  have hw : 0 < laneWidth ty := by clear * -; revert ty; decide
  have hp : (2:Int) ^ laneWidth ty = 2 * 2 ^ (laneWidth ty - 1) := by rw [← pow_succ']; congr 1; omega
  have hp' : (2:Nat) ^ laneWidth ty = 2 * 2 ^ (laneWidth ty - 1) := by rw [← pow_succ']; congr 1; omega
  have hpos : (0 : Int) < 2 ^ (laneWidth ty - 1) := by positivity
  unfold intLo intHi at *
  unfold laneInt wrap
  have cast : ((2 ^ (laneWidth ty - 1) : Nat) : Int) = 2 ^ (laneWidth ty - 1) := by push_cast; rfl
  cases h : isSigned ty
  · simp only [h, Bool.false_and] at *
    rw [Int.emod_eq_of_lt (by simpa using h1) (by simp at h2; omega)]
    simp at h1 ⊢; exact h1
  · simp only [h, if_true, Bool.true_and] at *
    by_cases hz : z < 0
    · have : z % 2 ^ laneWidth ty = z + 2 ^ laneWidth ty := by
        rw [← Int.add_emod_right]; exact Int.emod_eq_of_lt (by omega) (by omega)
      rw [this, if_pos (by simp; omega)]
      rw [Int.toNat_of_nonneg (by omega)]; ring
    · rw [Int.emod_eq_of_lt (by omega) (by omega), if_neg (by simp; omega)]
      rw [Int.toNat_of_nonneg (by omega)]
theorem wrap_lt (w : Nat) (z : Int) : wrap w z < 2 ^ w := by
  unfold wrap
  have h := Int.emod_lt_of_pos z (show (0:Int) < 2 ^ w by positivity)
  have h0 := Int.emod_nonneg z (show (2:Int) ^ w ≠ 0 by positivity)
  have : ((2 ^ w : Nat) : Int) = 2 ^ w := by push_cast; rfl
  omega
theorem lo_le_hi (w : Nat) {b : Bool} : intLo b w ≤ intHi b w := by
  have : (0:Int) < 2 ^ (w-1) := by positivity
  have : (0:Int) < 2 ^ w := by positivity
  cases b <;> simp [intLo, intHi] <;> omega
theorem laneInt_bounds (ty : BitVec 5) (c : Nat) (hc : c < 2 ^ laneWidth ty) :
    intLo (isSigned ty) (laneWidth ty) ≤ laneInt ty c ∧ laneInt ty c ≤ intHi (isSigned ty) (laneWidth ty) := by
  have hw : 0 < laneWidth ty := by clear * -; revert ty; decide
  have hp' : (2:Nat) ^ laneWidth ty = 2 * 2 ^ (laneWidth ty - 1) := by rw [← pow_succ']; congr 1; omega
  have hp : (2:Int) ^ laneWidth ty = 2 * 2 ^ (laneWidth ty - 1) := by rw [← pow_succ']; congr 1; omega
  have cast : ((2 ^ (laneWidth ty - 1) : Nat) : Int) = 2 ^ (laneWidth ty - 1) := by push_cast; rfl
  unfold laneInt intLo intHi
  cases h : isSigned ty
  · simp; rw [hp, ← cast]; omega
  · simp only [Bool.true_and, if_true]
    split
    · next h => simp at h; rw [hp, ← cast]; omega
    · next h => simp at h; rw [← cast]; omega

end Sys2Proof.Machine
end

