-- ==== Sys2Proof/Laws/Memories.lean ====
section
/-! SUPPORT. Every operation over a memory, its poison marks and its release records keeps their canonical form, and so do
the operations on the device that are built from them. -/
namespace Sys2Proof.Machine

/-! ### Marks and records -/

theorem rising_markPoison {t : Tab Bool} (size : Nat) (poison : Bool) (offs : List Nat) (h : Tab.rising 0 t = true) :
    Tab.rising 0 (markPoison t size poison offs) = true := by
  unfold markPoison
  generalize hc : covers offs size = cov
  clear hc
  induction offs generalizing t with
  | nil => exact h
  | cons a as ih =>
    rw [List.foldl_cons]
    apply ih
    split
    · exact Tab.rising_set _ _ h (Nat.zero_le _)
    · split
      · exact Tab.rising_set _ _ h (Nat.zero_le _)
      · exact h

theorem rising_markRelease {t : Tab (Option Release)} (rel : Option Release) (offs : List Nat)
    (h : Tab.rising 0 t = true) : Tab.rising 0 (markRelease t rel offs) = true := by
  unfold markRelease
  generalize hall : offs = all
  rw [← hall]
  conv in (List.filter _ offs) => rw [hall]
  clear hall
  induction offs generalizing t with
  | nil => exact h
  | cons a as ih => exact ih (Tab.rising_set _ _ h (Nat.zero_le _))

/-- What `putBytes` answers is in its form. -/
theorem putBytes_ok {unit : Nat} {bytes : Memory} {marks : Tab Bool} {rels : Tab (Option Release)} (offs : List Nat)
    (data mask : List Byte) (poison : Bool) (rel : Option Release) (hb : bytes.wf = true) (hm : Tab.rising 0 marks = true)
    (hr : Tab.rising 0 rels = true) :
    let n := putBytes unit bytes marks rels offs data mask poison rel
    n.1.wf = true ∧ Tab.rising 0 n.2.1 = true ∧ Tab.rising 0 n.2.2 = true :=
  ⟨writeBytes_wf _ _ hb, rising_markPoison _ _ _ hm, rising_markRelease _ _ hr⟩

/-! ### Stores -/

theorem Store.ok_iff (m : Store) : m.ok = true ↔
    m.bytes.wf = true ∧ Tab.rising 0 m.poison = true ∧ Tab.rising 0 m.releases = true := by
  simp [Store.ok, and_assoc]

theorem Store.ok_empty : ({} : Store).ok = true := rfl

theorem Store.ok_save {m : Store} (offs : List Nat) (data : List Byte) (poison : Bool) (rel : Option Release)
    (h : m.ok = true) : (m.save offs data poison rel).ok = true := by
  rw [Store.ok_iff] at h ⊢
  exact ⟨writeBytes_wf _ _ h.1, rising_markPoison _ _ _ h.2.1, rising_markRelease _ _ h.2.2⟩

theorem Store.ok_poisonWord {m : Store} (offset : Nat) (h : m.ok = true) : (m.poisonWord offset).ok = true := by
  rw [Store.ok_iff] at h ⊢
  exact ⟨h.1, Tab.rising_set (k := offset / 8) false true h.2.1 (Nat.zero_le _), h.2.2⟩

/-- Dropping bytes, as an allocation does. -/
theorem Store.ok_filter {m : Store} (p : Host.Cell → Bool) (h : m.ok = true) :
    ({ m with bytes := (m.bytes.filter p : List Host.Cell) } : Store).ok = true := by
  rw [Store.ok_iff] at h ⊢
  exact ⟨Memory.wf_filter p h.1, h.2⟩

theorem Store.ok_restore {m : Store} (undo : List (Nat × (List Byte × List Bool))) (h : m.ok = true) :
    (m.restore undo).ok = true := by
  induction undo generalizing m with
  | nil => exact h
  | cons e rest ih =>
    obtain ⟨line, bytes, marks⟩ := e
    apply ih
    rw [Store.ok_iff] at h ⊢
    refine ⟨Memory.wf_write _ _ h.1, ?_, h.2.2⟩
    have key : ∀ (l : List (Bool × Nat)) (t : Tab Bool), Tab.rising 0 t = true →
        Tab.rising 0 (l.foldl (init := t) fun t e => Tab.set false t (8 * line + e.2) e.1) = true := by
      intro l
      induction l with
      | nil => intro t ht; exact ht
      | cons e l ih => intro t ht; exact ih _ (Tab.rising_set _ _ ht (Nat.zero_le _))
    exact key _ _ h.2.1

/-- Giving a store back what an instruction has changed of it (R26). -/
theorem Store.ok_putBack {m : Store} (b : Before) (h : m.ok = true) : (m.putBack b).ok = true := by
  rw [Store.ok_iff] at h ⊢
  have tabs : ∀ {α : Type} [DecidableEq α] (d : α) (l : List (Nat × α)) (t : Tab α), Tab.rising 0 t = true →
      Tab.rising 0 (l.foldl (fun t e => Tab.set d t e.1 e.2) t) = true := by
    intro α _ d l
    induction l with
    | nil => exact fun t ht => ht
    | cons e l ih => exact fun t ht => ih _ (Tab.rising_set _ _ ht (Nat.zero_le _))
  have bytes : ∀ (l : List (Nat × Byte)) (t : Memory), t.wf = true → (l.foldl (fun t e => t.setByte e.1 e.2) t : Memory).wf = true := by
    intro l
    induction l with
    | nil => exact fun t ht => ht
    | cons e l ih => exact fun t ht => ih _ (Memory.wf_setByte _ _ ht)
  exact ⟨bytes _ _ h.1, tabs false _ _ h.2.1, tabs none _ _ h.2.2⟩

theorem Core.memoryOk_takeBack {k : Core} (h : k.memoryOk = true) : k.takeBack.memoryOk = true := by
  unfold Core.takeBack
  split
  · rw [Core.memoryOk, Bool.and_eq_true] at h ⊢
    exact ⟨Store.ok_putBack _ h.1, h.2⟩
  · exact h

/-! ### The device -/

theorem State.memoriesOk_iff (s : State) : s.memoriesOk = true ↔
    s.dram.wf = true ∧ Tab.rising 0 s.dramBad = true ∧ Tab.rising 0 s.releases = true ∧
      (s.cores.all fun e => e.2.memoryOk) = true ∧ (s.clusters.all fun e => e.2.memoryOk) = true ∧
      s.firmware.image.wf = true := by
  simp [State.memoriesOk, and_assoc]

/-- What is not a memory does not matter. -/
theorem State.memoriesOk_congr {s t : State} (h : s.memoriesOk = true) (h1 : t.dram = s.dram) (h2 : t.dramBad = s.dramBad)
    (h3 : t.releases = s.releases) (h4 : t.cores = s.cores) (h5 : t.clusters = s.clusters)
    (h6 : t.firmware.image = s.firmware.image) : t.memoriesOk = true := by
  rw [State.memoriesOk_iff] at h ⊢
  rw [h1, h2, h3, h4, h5, h6]
  exact h

theorem State.core_memoryOk {s : State} (c : Nat) (h : s.memoriesOk = true) : (s.core c).memoryOk = true :=
  Tab.all_get (p := Core.memoryOk) {} c ((State.memoriesOk_iff s).mp h).2.2.2.1 rfl

theorem State.cluster_memoryOk {s : State} (n : Nat) (h : s.memoriesOk = true) : (s.cluster n).memoryOk = true :=
  Tab.all_get (p := Cluster.memoryOk) {} n ((State.memoriesOk_iff s).mp h).2.2.2.2.1 rfl

theorem State.cluster_storeOk {s : State} (n : Nat) (h : s.memoriesOk = true) : (s.cluster n).store.ok = true :=
  (Bool.and_eq_true_iff.mp (State.cluster_memoryOk n h)).1

theorem State.memoriesOk_setCore {s : State} (c : Nat) (k : Core) (h : s.memoriesOk = true) (hk : k.memoryOk = true) :
    (s.setCore c k).memoriesOk = true := by
  rw [State.memoriesOk_iff] at h ⊢
  obtain ⟨h1, h2, h3, h4, h5⟩ := h
  exact ⟨h1, h2, h3, Tab.all_put c k h4 hk, h5⟩

/-- A change of a core that keeps its stores' form. -/
theorem State.memoriesOk_modCore {s : State} (c : Nat) (f : Core → Core) (h : s.memoriesOk = true)
    (hf : ∀ k : Core, k.memoryOk = true → (f k).memoryOk = true) : (s.modCore c f).memoriesOk = true :=
  State.memoriesOk_setCore c _ h (hf _ (State.core_memoryOk c h))

/-- A change of a core that leaves its stores alone. -/
theorem State.memoriesOk_modCore' {s : State} (c : Nat) (f : Core → Core) (h : s.memoriesOk = true)
    (hs : ∀ k : Core, (f k).store = k.store) (hv : ∀ k : Core, (f k).saved = k.saved) : (s.modCore c f).memoriesOk = true :=
  State.memoriesOk_modCore c f h fun k hk => by
    unfold Core.memoryOk at hk ⊢
    rw [hs, hv]
    exact hk

theorem State.memoriesOk_modCtx {s : State} (c x : Nat) (f : Context → Context) (h : s.memoriesOk = true) :
    (s.modCtx c x f).memoriesOk = true := State.memoriesOk_modCore' c _ h (fun _ => rfl) (fun _ => rfl)

theorem State.memoriesOk_modMe {s : State} (f : Context → Context) (h : s.memoriesOk = true) :
    (s.modMe f).memoriesOk = true := State.memoriesOk_modCtx _ _ f h

theorem State.memoriesOk_modCluster {s : State} (n : Nat) (f : Cluster → Cluster) (h : s.memoriesOk = true)
    (hf : ∀ k : Cluster, k.memoryOk = true → (f k).memoryOk = true) : (s.modCluster n f).memoriesOk = true := by
  have hk := State.cluster_memoryOk n h
  rw [State.memoriesOk_iff] at h ⊢
  obtain ⟨h1, h2, h3, h4, h5, h6⟩ := h
  exact ⟨h1, h2, h3, h4, Tab.all_put (p := fun e : Nat × Cluster => e.2.memoryOk) n _ h5 (hf _ hk), h6⟩

/-- A fold of changes, each of which keeps the form. -/
theorem State.memoriesOk_foldl {α : Type} (f : State → α → State) (l : List α) (s : State) (h : s.memoriesOk = true)
    (hf : ∀ (s : State) (a : α), s.memoriesOk = true → (f s a).memoriesOk = true) :
    (l.foldl (init := s) f).memoriesOk = true := by
  induction l generalizing s with
  | nil => exact h
  | cons a l ih => exact ih _ (hf s a h)

theorem State.memoriesOk_count {s : State} (a b : Nat) (h : s.memoriesOk = true) : (s.count a b).memoriesOk = true :=
  State.memoriesOk_congr h rfl rfl rfl rfl rfl rfl

theorem State.memoriesOk_fireMonitors {s : State} (p : Home) (h : s.memoriesOk = true) :
    (s.fireMonitors p).memoriesOk = true := by
  obtain ⟨net, replies, replay, f, e, -⟩ := fireMonitors_spec s p
  rw [e]
  exact State.memoriesOk_congr h rfl rfl rfl rfl rfl rfl

theorem State.storeAt_ok {s : State} (p : Home) (h : s.memoriesOk = true) : (s.storeAt p).ok = true := by
  cases p with
  | localMem c =>
    have := State.core_memoryOk c h
    rw [Core.memoryOk, Bool.and_eq_true] at this
    exact this.1
  | scratch n => exact State.cluster_storeOk n h
  | channel _ => rfl
  | peer _ => rfl

theorem State.memoriesOk_setStore {s : State} (p : Home) (m : Store) (h : s.memoriesOk = true) (hm : m.ok = true) :
    (s.setStore p m).memoriesOk = true := by
  cases p with
  | localMem c =>
    refine State.memoriesOk_modCore c _ h fun k hk => ?_
    rw [Core.memoryOk, Bool.and_eq_true] at hk ⊢
    exact ⟨hm, hk.2⟩
  | scratch n =>
    exact State.memoriesOk_modCluster n _ h fun k hk => Bool.and_eq_true_iff.mpr ⟨hm, (Bool.and_eq_true_iff.mp hk).2⟩
  | channel _ => exact h
  | peer _ => exact h

/-- Acting on an on-chip store. -/
theorem State.memoriesOk_actChip {s : State} (p : Home) (offs : List Nat) (a : Act) (bad : Bool) (rel : Option Release)
    (h : s.memoriesOk = true) : (s.actChip p offs a bad rel).1.memoriesOk = true := by
  unfold State.actChip
  simp only
  split
  · exact h
  · refine State.memoriesOk_fireMonitors p (State.memoriesOk_setStore p _ h ?_)
    have hm := (Store.ok_iff _).mp (State.storeAt_ok p h)
    exact (Store.ok_iff _).mpr (putBytes_ok _ _ _ _ _ hm.1 hm.2.1 hm.2.2)

/-- Acting on main memory. -/
theorem State.memoriesOk_actDram {s : State} (odi pa : Nat) (a : Act) (bad : Bool) (rel : Option Release)
    (h : s.memoriesOk = true) : (s.actDram odi pa a bad rel).1.memoriesOk = true := by
  unfold State.actDram
  simp only
  split
  · exact State.memoriesOk_count _ _ h
  · split
    · exact h
    · next w _ =>
      apply State.memoriesOk_fireMonitors
      rw [State.memoriesOk_iff] at h ⊢
      obtain ⟨h1, h2, h3, h4⟩ := h
      have n := putBytes_ok (unit := 64) (span pa a.size) w.1 w.2.1 w.2.2 rel h1 h2 h3
      exact ⟨n.1, n.2.1, n.2.2, h4⟩

/-- Writing page-table entries. -/
theorem State.memoriesOk_writeTables {s : State} (writes : List (Nat × Word)) (h : s.memoriesOk = true) :
    (s.writeTables writes).memoriesOk = true := by
  unfold State.writeTables
  refine State.memoriesOk_foldl _ _ _ h fun s w h => ?_
  apply State.memoriesOk_fireMonitors
  rw [State.memoriesOk_iff] at h ⊢
  exact ⟨Memory.wf_write _ _ h.1, Tab.rising_set (k := w.1 / 64) false false h.2.1 (Nat.zero_le _), h.2.2⟩

/-- Handing a granule over. -/
theorem State.memoriesOk_handGranule {s : State} (odi g : Nat) (h : s.memoriesOk = true) :
    (s.handGranule odi g).memoriesOk = true := by
  unfold State.handGranule
  split
  · exact h
  · rw [State.memoriesOk_iff] at h ⊢
    exact ⟨Memory.wf_replace _ _ _ h.1, h.2⟩

/-- A granule keeps its bytes while another is handed over, or when its owner stays. -/
theorem State.byte_handGranule {s : State} (odi g a : Nat) (h : s.dram.wf = true)
    (ha : a / 65536 ≠ g ∨ Tab.get 0 s.owners g = odi) : (s.handGranule odi g).dram.byte a = s.dram.byte a := by
  unfold State.handGranule
  split
  · rfl
  · next hn =>
    have : a / 65536 ≠ g := ha.resolve_right fun h => hn (by simp [h])
    exact (Memory.byte_replace _ _ a _ h).trans (if_neg (by omega))

/-! ### Reset -/

/-- Saving a cluster's scratchpad, and giving it back. -/
theorem Cluster.memoryOk_restore {k : Cluster} (h : k.memoryOk = true) : k.restore.memoryOk = true := by
  unfold Cluster.restore
  split
  · exact h
  · next v hv =>
    unfold Cluster.memoryOk at h ⊢
    rw [hv] at h
    simpa using (Bool.and_eq_true_iff.mp h).2
theorem Core.memoryOk_restore {k : Core} (h : k.memoryOk = true) : k.restore.memoryOk = true := by
  unfold Core.restore
  split
  · exact h
  · next v hv =>
    unfold Core.memoryOk at h ⊢
    rw [hv] at h
    simpa using (Bool.and_eq_true_iff.mp h).2

theorem reset_dram_wf : State.reset.dram.wf = true := rfl

end Sys2Proof.Machine
end

