-- ==== Sys2Proof/Laws/PerInstr.lean ====
section
/-! SUPPORT. The encoder's words, one instruction at a time: the size marker of each is that of its length (R123, R133), and
the row tables give back the instruction with every field as it was. -/
namespace Sys2Proof.Laws.Encoding

/-- The rows read the instruction from the word that the encoder gives it, and the word's first bits say its length. -/
def Statement (i : Instr) : Prop := ∀ c, encode i = some c →
  match c with
  | .short h => h.extractLsb' 14 2 ≠ 3 ∧ halfRow h = some i
  | .wide w => w.extractLsb' 30 2 = 3 ∧ wordRow w = some i

theorem toNat_app {a b : Nat} (x : BitVec a) (y : BitVec b) : (x ++ y).toNat = x.toNat * 2 ^ b + y.toNat := by
  rw [BitVec.toNat_append, Nat.shiftLeft_eq, Nat.mul_comm, ← Nat.two_pow_add_eq_or_of_lt y.isLt, Nat.mul_comm]

/-- A field of a word, by arithmetic. -/
theorem field_nat {n p l k : Nat} {w : BitVec n} (h : w.toNat / 2 ^ p % 2 ^ l = k) : (w.extractLsb' p l).toNat = k := by
  rw [BitVec.extractLsb'_toNat, Nat.shiftRight_eq_div_pow, h]
theorem field_eq {n p l : Nat} {w : BitVec n} {v : BitVec l} (h : w.toNat / 2 ^ p % 2 ^ l = v.toNat) :
    w.extractLsb' p l = v := BitVec.eq_of_toNat_eq (field_nat h)
theorem field_ne {n p l : Nat} {w : BitVec n} {v : BitVec l} (h : w.toNat / 2 ^ p % 2 ^ l ≠ v.toNat) :
    w.extractLsb' p l ≠ v := fun e => h ((field_nat rfl).symm.trans (congrArg BitVec.toNat e))

theorem testBit_of_range {x y p l i : Nat} (h : x / 2 ^ p % 2 ^ l = y / 2 ^ p % 2 ^ l) (h1 : p ≤ i) (h2 : i < p + l) :
    x.testBit i = y.testBit i := by
  have := congrArg (fun z => z.testBit (i - p)) h
  simpa [Nat.testBit_mod_two_pow, Nat.testBit_div_two_pow, show i - p < l by omega, show i - p + p = i by omega,
    show p + (i - p) = i by omega] using this

/-- The fields of two words at some ranges agree. -/
def Agree {n : Nat} (w B : BitVec n) : List (Nat × Nat) → Prop
  | [] => True
  | (p, l) :: rs => w.extractLsb' p l = B.extractLsb' p l ∧ Agree w B rs

theorem testBit_of_agree {n i : Nat} {w B : BitVec n} {rs : List (Nat × Nat)} (h : Agree w B rs)
    (hr : (rs.any fun r => decide (r.1 ≤ i) && decide (i < r.1 + r.2)) = true) : w.getLsbD i = B.getLsbD i := by
  induction rs with
  | nil => simp at hr
  | cons r rs ih =>
    simp only [List.any_cons, Bool.or_eq_true] at hr
    rcases hr with hr | hr
    · simp only [Bool.and_eq_true, decide_eq_true_eq] at hr
      have := congrArg (fun z => z.getLsbD (i - r.1)) h.1
      simpa [show i - r.1 < r.2 by omega, show r.1 + (i - r.1) = i by omega] using this
    · exact ih h.2 hr

/-- Words that agree with the row's bits on ranges that make up its mask. -/
theorem fits_of_fields {n : Nat} {w M B : BitVec n} (rs : List (Nat × Nat))
    (hM : ∀ i : Fin n, M.getLsbD i.val = rs.any fun r => decide (r.1 ≤ i.val) && decide (i.val < r.1 + r.2))
    (hB : B &&& M = B) (h : Agree w B rs) : fits w M B = true := by
  unfold fits
  rw [beq_iff_eq, ← hB]
  apply BitVec.eq_of_getLsbD_eq
  intro i hi
  rw [BitVec.getLsbD_and, BitVec.getLsbD_and, hM ⟨i, hi⟩]
  by_cases hr : (rs.any fun r => decide (r.1 ≤ i) && decide (i < r.1 + r.2)) = true
  · rw [testBit_of_agree h hr]
  · simp only [Bool.not_eq_true] at hr
    simp [hr]

/-- Words that differ from the row's bits in the low bits, all of the mask. -/
theorem fits_low {n k : Nat} {w M B : BitVec n} {v : BitVec k} (hw : w.extractLsb' 0 k = v)
    (hM : M.extractLsb' 0 k = BitVec.allOnes k) (hB : B.extractLsb' 0 k ≠ v) : ¬ fits w M B = true := by
  unfold fits
  rw [beq_iff_eq]
  rintro rfl
  apply hB
  rw [BitVec.extractLsb'_and, hM, BitVec.and_allOnes, hw]

theorem layout_14_10_8 {x0 : BitVec 14} {x1 : BitVec 10} {x2 : BitVec 8} {w : BitVec 32}
    (h : x0 ++ x1 ++ x2 = w) :
    w.extractLsb' 18 14 = x0 ∧
    w.extractLsb' 8 10 = x1 ∧
    w.extractLsb' 0 8 = x2 ∧
    w.extractLsb' 30 2 = x0.extractLsb' 12 2 ∧
    w.extractLsb' 24 6 = x0.extractLsb' 6 6 ∧
    w.extractLsb' 0 2 = x2.extractLsb' 0 2 ∧
    w.extractLsb' 0 8 = x2.extractLsb' 0 8 := by
  have hw : w.toNat = _ := (congrArg BitVec.toNat h.symm).trans (toNat_app _ _)
  simp only [toNat_app] at hw
  refine ⟨field_eq ?_, field_eq ?_, field_eq ?_, field_eq ?_, field_eq ?_, field_eq ?_, field_eq ?_⟩ <;> (try rw [field_nat rfl]) <;> omega

theorem layout_14_6_12 {x0 : BitVec 14} {x1 : BitVec 6} {x2 : BitVec 12} {w : BitVec 32}
    (h : x0 ++ x1 ++ x2 = w) :
    w.extractLsb' 18 14 = x0 ∧
    w.extractLsb' 12 6 = x1 ∧
    w.extractLsb' 0 12 = x2 ∧
    w.extractLsb' 30 2 = x0.extractLsb' 12 2 ∧
    w.extractLsb' 24 6 = x0.extractLsb' 6 6 ∧
    w.extractLsb' 0 2 = x2.extractLsb' 0 2 ∧
    w.extractLsb' 0 8 = x2.extractLsb' 0 8 := by
  have hw : w.toNat = _ := (congrArg BitVec.toNat h.symm).trans (toNat_app _ _)
  simp only [toNat_app] at hw
  refine ⟨field_eq ?_, field_eq ?_, field_eq ?_, field_eq ?_, field_eq ?_, field_eq ?_, field_eq ?_⟩ <;> (try rw [field_nat rfl]) <;> omega

theorem layout_14_6_4_8 {x0 : BitVec 14} {x1 : BitVec 6} {x2 : BitVec 4} {x3 : BitVec 8} {w : BitVec 32}
    (h : x0 ++ x1 ++ x2 ++ x3 = w) :
    w.extractLsb' 18 14 = x0 ∧
    w.extractLsb' 12 6 = x1 ∧
    w.extractLsb' 8 4 = x2 ∧
    w.extractLsb' 0 8 = x3 ∧
    w.extractLsb' 30 2 = x0.extractLsb' 12 2 ∧
    w.extractLsb' 24 6 = x0.extractLsb' 6 6 ∧
    w.extractLsb' 0 2 = x3.extractLsb' 0 2 ∧
    w.extractLsb' 0 8 = x3.extractLsb' 0 8 := by
  have hw : w.toNat = _ := (congrArg BitVec.toNat h.symm).trans (toNat_app _ _)
  simp only [toNat_app] at hw
  refine ⟨field_eq ?_, field_eq ?_, field_eq ?_, field_eq ?_, field_eq ?_, field_eq ?_, field_eq ?_, field_eq ?_⟩ <;> (try rw [field_nat rfl]) <;> omega

theorem layout_14_6_6_4_2 {x0 : BitVec 14} {x1 : BitVec 6} {x2 : BitVec 6} {x3 : BitVec 4} {x4 : BitVec 2} {w : BitVec 32}
    (h : x0 ++ x1 ++ x2 ++ x3 ++ x4 = w) :
    w.extractLsb' 18 14 = x0 ∧
    w.extractLsb' 12 6 = x1 ∧
    w.extractLsb' 6 6 = x2 ∧
    w.extractLsb' 2 4 = x3 ∧
    w.extractLsb' 0 2 = x4 ∧
    w.extractLsb' 30 2 = x0.extractLsb' 12 2 ∧
    w.extractLsb' 24 6 = x0.extractLsb' 6 6 ∧
    w.extractLsb' 0 2 = x4.extractLsb' 0 2 := by
  have hw : w.toNat = _ := (congrArg BitVec.toNat h.symm).trans (toNat_app _ _)
  simp only [toNat_app] at hw
  refine ⟨field_eq ?_, field_eq ?_, field_eq ?_, field_eq ?_, field_eq ?_, field_eq ?_, field_eq ?_, field_eq ?_⟩ <;> (try rw [field_nat rfl]) <;> omega

theorem layout_16_6_10 {x0 : BitVec 16} {x1 : BitVec 6} {x2 : BitVec 10} {w : BitVec 32}
    (h : x0 ++ x1 ++ x2 = w) :
    w.extractLsb' 16 16 = x0 ∧
    w.extractLsb' 10 6 = x1 ∧
    w.extractLsb' 0 10 = x2 ∧
    w.extractLsb' 30 2 = x0.extractLsb' 14 2 ∧
    w.extractLsb' 24 6 = x0.extractLsb' 8 6 ∧
    w.extractLsb' 0 2 = x2.extractLsb' 0 2 ∧
    w.extractLsb' 0 8 = x2.extractLsb' 0 8 := by
  have hw : w.toNat = _ := (congrArg BitVec.toNat h.symm).trans (toNat_app _ _)
  simp only [toNat_app] at hw
  refine ⟨field_eq ?_, field_eq ?_, field_eq ?_, field_eq ?_, field_eq ?_, field_eq ?_, field_eq ?_⟩ <;> (try rw [field_nat rfl]) <;> omega

theorem layout_20_4_8 {x0 : BitVec 20} {x1 : BitVec 4} {x2 : BitVec 8} {w : BitVec 32}
    (h : x0 ++ x1 ++ x2 = w) :
    w.extractLsb' 12 20 = x0 ∧
    w.extractLsb' 8 4 = x1 ∧
    w.extractLsb' 0 8 = x2 ∧
    w.extractLsb' 30 2 = x0.extractLsb' 18 2 ∧
    w.extractLsb' 24 6 = x0.extractLsb' 12 6 ∧
    w.extractLsb' 0 2 = x2.extractLsb' 0 2 ∧
    w.extractLsb' 0 8 = x2.extractLsb' 0 8 := by
  have hw : w.toNat = _ := (congrArg BitVec.toNat h.symm).trans (toNat_app _ _)
  simp only [toNat_app] at hw
  refine ⟨field_eq ?_, field_eq ?_, field_eq ?_, field_eq ?_, field_eq ?_, field_eq ?_, field_eq ?_⟩ <;> (try rw [field_nat rfl]) <;> omega

theorem layout_26_4_2 {x0 : BitVec 26} {x1 : BitVec 4} {x2 : BitVec 2} {w : BitVec 32}
    (h : x0 ++ x1 ++ x2 = w) :
    w.extractLsb' 6 26 = x0 ∧
    w.extractLsb' 2 4 = x1 ∧
    w.extractLsb' 0 2 = x2 ∧
    w.extractLsb' 30 2 = x0.extractLsb' 24 2 ∧
    w.extractLsb' 24 6 = x0.extractLsb' 18 6 ∧
    w.extractLsb' 0 2 = x2.extractLsb' 0 2 := by
  have hw : w.toNat = _ := (congrArg BitVec.toNat h.symm).trans (toNat_app _ _)
  simp only [toNat_app] at hw
  refine ⟨field_eq ?_, field_eq ?_, field_eq ?_, field_eq ?_, field_eq ?_, field_eq ?_⟩ <;> (try rw [field_nat rfl]) <;> omega

theorem layout_5_11 {x0 : BitVec 5} {x1 : BitVec 11} {w : BitVec 16}
    (h : x0 ++ x1 = w) :
    w.extractLsb' 11 5 = x0 ∧
    w.extractLsb' 0 11 = x1 ∧
    w.extractLsb' 14 2 = x0.extractLsb' 3 2 ∧
    w.extractLsb' 11 5 = x0.extractLsb' 0 5 := by
  have hw : w.toNat = _ := (congrArg BitVec.toNat h.symm).trans (toNat_app _ _)
  refine ⟨field_eq ?_, field_eq ?_, field_eq ?_, field_eq ?_⟩ <;> (try rw [field_nat rfl]) <;> omega

theorem layout_5_5_6 {x0 : BitVec 5} {x1 : BitVec 5} {x2 : BitVec 6} {w : BitVec 16}
    (h : x0 ++ x1 ++ x2 = w) :
    w.extractLsb' 11 5 = x0 ∧
    w.extractLsb' 6 5 = x1 ∧
    w.extractLsb' 0 6 = x2 ∧
    w.extractLsb' 14 2 = x0.extractLsb' 3 2 ∧
    w.extractLsb' 11 5 = x0.extractLsb' 0 5 := by
  have hw : w.toNat = _ := (congrArg BitVec.toNat h.symm).trans (toNat_app _ _)
  simp only [toNat_app] at hw
  refine ⟨field_eq ?_, field_eq ?_, field_eq ?_, field_eq ?_, field_eq ?_⟩ <;> (try rw [field_nat rfl]) <;> omega

theorem layout_8_24 {x0 : BitVec 8} {x1 : BitVec 24} {w : BitVec 32}
    (h : x0 ++ x1 = w) :
    w.extractLsb' 24 8 = x0 ∧
    w.extractLsb' 0 24 = x1 ∧
    w.extractLsb' 30 2 = x0.extractLsb' 6 2 ∧
    w.extractLsb' 24 6 = x0.extractLsb' 0 6 ∧
    w.extractLsb' 0 2 = x1.extractLsb' 0 2 ∧
    w.extractLsb' 0 8 = x1.extractLsb' 0 8 := by
  have hw : w.toNat = _ := (congrArg BitVec.toNat h.symm).trans (toNat_app _ _)
  refine ⟨field_eq ?_, field_eq ?_, field_eq ?_, field_eq ?_, field_eq ?_, field_eq ?_⟩ <;> (try rw [field_nat rfl]) <;> omega

theorem layout_8_6_10_8 {x0 : BitVec 8} {x1 : BitVec 6} {x2 : BitVec 10} {x3 : BitVec 8} {w : BitVec 32}
    (h : x0 ++ x1 ++ x2 ++ x3 = w) :
    w.extractLsb' 24 8 = x0 ∧
    w.extractLsb' 18 6 = x1 ∧
    w.extractLsb' 8 10 = x2 ∧
    w.extractLsb' 0 8 = x3 ∧
    w.extractLsb' 30 2 = x0.extractLsb' 6 2 ∧
    w.extractLsb' 24 6 = x0.extractLsb' 0 6 ∧
    w.extractLsb' 0 2 = x3.extractLsb' 0 2 ∧
    w.extractLsb' 0 8 = x3.extractLsb' 0 8 := by
  have hw : w.toNat = _ := (congrArg BitVec.toNat h.symm).trans (toNat_app _ _)
  simp only [toNat_app] at hw
  refine ⟨field_eq ?_, field_eq ?_, field_eq ?_, field_eq ?_, field_eq ?_, field_eq ?_, field_eq ?_, field_eq ?_⟩ <;> (try rw [field_nat rfl]) <;> omega

theorem layout_8_6_18 {x0 : BitVec 8} {x1 : BitVec 6} {x2 : BitVec 18} {w : BitVec 32}
    (h : x0 ++ x1 ++ x2 = w) :
    w.extractLsb' 24 8 = x0 ∧
    w.extractLsb' 18 6 = x1 ∧
    w.extractLsb' 0 18 = x2 ∧
    w.extractLsb' 30 2 = x0.extractLsb' 6 2 ∧
    w.extractLsb' 24 6 = x0.extractLsb' 0 6 ∧
    w.extractLsb' 0 2 = x2.extractLsb' 0 2 ∧
    w.extractLsb' 0 8 = x2.extractLsb' 0 8 := by
  have hw : w.toNat = _ := (congrArg BitVec.toNat h.symm).trans (toNat_app _ _)
  simp only [toNat_app] at hw
  refine ⟨field_eq ?_, field_eq ?_, field_eq ?_, field_eq ?_, field_eq ?_, field_eq ?_, field_eq ?_⟩ <;> (try rw [field_nat rfl]) <;> omega

theorem layout_8_6_2_6_10 {x0 : BitVec 8} {x1 : BitVec 6} {x2 : BitVec 2} {x3 : BitVec 6} {x4 : BitVec 10} {w : BitVec 32}
    (h : x0 ++ x1 ++ x2 ++ x3 ++ x4 = w) :
    w.extractLsb' 24 8 = x0 ∧
    w.extractLsb' 18 6 = x1 ∧
    w.extractLsb' 16 2 = x2 ∧
    w.extractLsb' 10 6 = x3 ∧
    w.extractLsb' 0 10 = x4 ∧
    w.extractLsb' 30 2 = x0.extractLsb' 6 2 ∧
    w.extractLsb' 24 6 = x0.extractLsb' 0 6 ∧
    w.extractLsb' 0 2 = x4.extractLsb' 0 2 ∧
    w.extractLsb' 0 8 = x4.extractLsb' 0 8 := by
  have hw : w.toNat = _ := (congrArg BitVec.toNat h.symm).trans (toNat_app _ _)
  simp only [toNat_app] at hw
  refine ⟨field_eq ?_, field_eq ?_, field_eq ?_, field_eq ?_, field_eq ?_, field_eq ?_, field_eq ?_, field_eq ?_, field_eq ?_⟩ <;> (try rw [field_nat rfl]) <;> omega

theorem layout_8_6_2_6_2_6_2 {x0 : BitVec 8} {x1 : BitVec 6} {x2 : BitVec 2} {x3 : BitVec 6} {x4 : BitVec 2} {x5 : BitVec 6} {x6 : BitVec 2} {w : BitVec 32}
    (h : x0 ++ x1 ++ x2 ++ x3 ++ x4 ++ x5 ++ x6 = w) :
    w.extractLsb' 24 8 = x0 ∧
    w.extractLsb' 18 6 = x1 ∧
    w.extractLsb' 16 2 = x2 ∧
    w.extractLsb' 10 6 = x3 ∧
    w.extractLsb' 8 2 = x4 ∧
    w.extractLsb' 2 6 = x5 ∧
    w.extractLsb' 0 2 = x6 ∧
    w.extractLsb' 30 2 = x0.extractLsb' 6 2 ∧
    w.extractLsb' 24 6 = x0.extractLsb' 0 6 ∧
    w.extractLsb' 0 2 = x6.extractLsb' 0 2 := by
  have hw : w.toNat = _ := (congrArg BitVec.toNat h.symm).trans (toNat_app _ _)
  simp only [toNat_app] at hw
  refine ⟨field_eq ?_, field_eq ?_, field_eq ?_, field_eq ?_, field_eq ?_, field_eq ?_, field_eq ?_, field_eq ?_, field_eq ?_, field_eq ?_⟩ <;> (try rw [field_nat rfl]) <;> omega

theorem layout_8_6_6_12 {x0 : BitVec 8} {x1 : BitVec 6} {x2 : BitVec 6} {x3 : BitVec 12} {w : BitVec 32}
    (h : x0 ++ x1 ++ x2 ++ x3 = w) :
    w.extractLsb' 24 8 = x0 ∧
    w.extractLsb' 18 6 = x1 ∧
    w.extractLsb' 12 6 = x2 ∧
    w.extractLsb' 0 12 = x3 ∧
    w.extractLsb' 30 2 = x0.extractLsb' 6 2 ∧
    w.extractLsb' 24 6 = x0.extractLsb' 0 6 ∧
    w.extractLsb' 0 2 = x3.extractLsb' 0 2 ∧
    w.extractLsb' 0 8 = x3.extractLsb' 0 8 := by
  have hw : w.toNat = _ := (congrArg BitVec.toNat h.symm).trans (toNat_app _ _)
  simp only [toNat_app] at hw
  refine ⟨field_eq ?_, field_eq ?_, field_eq ?_, field_eq ?_, field_eq ?_, field_eq ?_, field_eq ?_, field_eq ?_⟩ <;> (try rw [field_nat rfl]) <;> omega

theorem layout_8_6_6_4_8 {x0 : BitVec 8} {x1 : BitVec 6} {x2 : BitVec 6} {x3 : BitVec 4} {x4 : BitVec 8} {w : BitVec 32}
    (h : x0 ++ x1 ++ x2 ++ x3 ++ x4 = w) :
    w.extractLsb' 24 8 = x0 ∧
    w.extractLsb' 18 6 = x1 ∧
    w.extractLsb' 12 6 = x2 ∧
    w.extractLsb' 8 4 = x3 ∧
    w.extractLsb' 0 8 = x4 ∧
    w.extractLsb' 30 2 = x0.extractLsb' 6 2 ∧
    w.extractLsb' 24 6 = x0.extractLsb' 0 6 ∧
    w.extractLsb' 0 2 = x4.extractLsb' 0 2 ∧
    w.extractLsb' 0 8 = x4.extractLsb' 0 8 := by
  have hw : w.toNat = _ := (congrArg BitVec.toNat h.symm).trans (toNat_app _ _)
  simp only [toNat_app] at hw
  refine ⟨field_eq ?_, field_eq ?_, field_eq ?_, field_eq ?_, field_eq ?_, field_eq ?_, field_eq ?_, field_eq ?_, field_eq ?_⟩ <;> (try rw [field_nat rfl]) <;> omega

theorem layout_8_6_6_5_7 {x0 : BitVec 8} {x1 : BitVec 6} {x2 : BitVec 6} {x3 : BitVec 5} {x4 : BitVec 7} {w : BitVec 32}
    (h : x0 ++ x1 ++ x2 ++ x3 ++ x4 = w) :
    w.extractLsb' 24 8 = x0 ∧
    w.extractLsb' 18 6 = x1 ∧
    w.extractLsb' 12 6 = x2 ∧
    w.extractLsb' 7 5 = x3 ∧
    w.extractLsb' 0 7 = x4 ∧
    w.extractLsb' 30 2 = x0.extractLsb' 6 2 ∧
    w.extractLsb' 24 6 = x0.extractLsb' 0 6 ∧
    w.extractLsb' 0 2 = x4.extractLsb' 0 2 := by
  have hw : w.toNat = _ := (congrArg BitVec.toNat h.symm).trans (toNat_app _ _)
  simp only [toNat_app] at hw
  refine ⟨field_eq ?_, field_eq ?_, field_eq ?_, field_eq ?_, field_eq ?_, field_eq ?_, field_eq ?_, field_eq ?_⟩ <;> (try rw [field_nat rfl]) <;> omega

theorem layout_8_6_6_6_4_2 {x0 : BitVec 8} {x1 : BitVec 6} {x2 : BitVec 6} {x3 : BitVec 6} {x4 : BitVec 4} {x5 : BitVec 2} {w : BitVec 32}
    (h : x0 ++ x1 ++ x2 ++ x3 ++ x4 ++ x5 = w) :
    w.extractLsb' 24 8 = x0 ∧
    w.extractLsb' 18 6 = x1 ∧
    w.extractLsb' 12 6 = x2 ∧
    w.extractLsb' 6 6 = x3 ∧
    w.extractLsb' 2 4 = x4 ∧
    w.extractLsb' 0 2 = x5 ∧
    w.extractLsb' 30 2 = x0.extractLsb' 6 2 ∧
    w.extractLsb' 24 6 = x0.extractLsb' 0 6 ∧
    w.extractLsb' 0 2 = x5.extractLsb' 0 2 := by
  have hw : w.toNat = _ := (congrArg BitVec.toNat h.symm).trans (toNat_app _ _)
  simp only [toNat_app] at hw
  refine ⟨field_eq ?_, field_eq ?_, field_eq ?_, field_eq ?_, field_eq ?_, field_eq ?_, field_eq ?_, field_eq ?_, field_eq ?_⟩ <;> (try rw [field_nat rfl]) <;> omega

theorem add : ∀ a b c d e, Statement (.add a b c d e) := by
  intro a b c d e w h
  obtain ⟨x, hx⟩ : ∃ x : BitVec 32, 0xC0#8 ++ a ++ b ++ c ++ d ++ e ++ 0x0#2 = x := ⟨_, rfl⟩
  obtain rfl : Code.wide x = w := (congrArg Code.wide hx.symm).trans (Option.some.inj h)
  obtain ⟨h0, h1, h2, h3, h4, h5, h6, ht, hm, hl2⟩ := layout_8_6_2_6_2_6_2 hx
  have hf : fits x 0xFF000003 0xC0000000 = true := fits_of_fields [(24, 8), (0, 2)] (by decide) (by decide) ⟨h0, h6, trivial⟩
  refine ⟨by rw [ht]; decide, ?_⟩
  replace hm := (congrArg BitVec.toNat hm).trans (rfl : _ = 0)
  simp only [wordRow, wordArith, hm]
  rw [if_pos hf, h1, h2, h3, h4, h5]
  rfl
theorem addG16 : ∀ a b, Statement (.addG16 a b) := by
  intro a b w h
  obtain ⟨x, hx⟩ : ∃ x : BitVec 16, 0x1#5 ++ a ++ b = x := ⟨_, rfl⟩
  obtain rfl : Code.short x = w := (congrArg Code.short hx.symm).trans (Option.some.inj h)
  obtain ⟨h0, h1, h2, ht, hm⟩ := layout_5_5_6 hx
  refine ⟨by rw [ht]; decide, ?_⟩
  replace hm := (congrArg BitVec.toNat hm).trans (rfl : _ = 1)
  simp only [halfRow, hm]
  rw [h1, h2]
theorem addV16 : ∀ a b, Statement (.addV16 a b) := by
  intro a b w h
  obtain ⟨x, hx⟩ : ∃ x : BitVec 16, 0xD#5 ++ a ++ b = x := ⟨_, rfl⟩
  obtain rfl : Code.short x = w := (congrArg Code.short hx.symm).trans (Option.some.inj h)
  obtain ⟨h0, h1, h2, ht, hm⟩ := layout_5_5_6 hx
  refine ⟨by rw [ht]; decide, ?_⟩
  replace hm := (congrArg BitVec.toNat hm).trans (rfl : _ = 13)
  simp only [halfRow, hm]
  rw [h1, h2]
theorem sub : ∀ a b c d e, Statement (.sub a b c d e) := by
  intro a b c d e w h
  obtain ⟨x, hx⟩ : ∃ x : BitVec 32, 0xC0#8 ++ a ++ b ++ c ++ d ++ e ++ 0x1#2 = x := ⟨_, rfl⟩
  obtain rfl : Code.wide x = w := (congrArg Code.wide hx.symm).trans (Option.some.inj h)
  obtain ⟨h0, h1, h2, h3, h4, h5, h6, ht, hm, hl2⟩ := layout_8_6_2_6_2_6_2 hx
  have hf : fits x 0xFF000003 0xC0000001 = true := fits_of_fields [(24, 8), (0, 2)] (by decide) (by decide) ⟨h0, h6, trivial⟩
  refine ⟨by rw [ht]; decide, ?_⟩
  replace hm := (congrArg BitVec.toNat hm).trans (rfl : _ = 0)
  simp only [wordRow, wordArith, hm]
  rw [if_neg (fits_low hl2 (by decide) (by decide)), if_pos hf, h1, h2, h3, h4, h5]
  rfl
theorem subG16 : ∀ a b, Statement (.subG16 a b) := by
  intro a b w h
  obtain ⟨x, hx⟩ : ∃ x : BitVec 16, 0x2#5 ++ a ++ b = x := ⟨_, rfl⟩
  obtain rfl : Code.short x = w := (congrArg Code.short hx.symm).trans (Option.some.inj h)
  obtain ⟨h0, h1, h2, ht, hm⟩ := layout_5_5_6 hx
  refine ⟨by rw [ht]; decide, ?_⟩
  replace hm := (congrArg BitVec.toNat hm).trans (rfl : _ = 2)
  simp only [halfRow, hm]
  rw [h1, h2]
theorem mul : ∀ a b c d e, Statement (.mul a b c d e) := by
  intro a b c d e w h
  obtain ⟨x, hx⟩ : ∃ x : BitVec 32, 0xC0#8 ++ a ++ b ++ c ++ d ++ e ++ 0x2#2 = x := ⟨_, rfl⟩
  obtain rfl : Code.wide x = w := (congrArg Code.wide hx.symm).trans (Option.some.inj h)
  obtain ⟨h0, h1, h2, h3, h4, h5, h6, ht, hm, hl2⟩ := layout_8_6_2_6_2_6_2 hx
  have hf : fits x 0xFF000003 0xC0000002 = true := fits_of_fields [(24, 8), (0, 2)] (by decide) (by decide) ⟨h0, h6, trivial⟩
  refine ⟨by rw [ht]; decide, ?_⟩
  replace hm := (congrArg BitVec.toNat hm).trans (rfl : _ = 0)
  simp only [wordRow, wordArith, hm]
  rw [if_neg (fits_low hl2 (by decide) (by decide)), if_neg (fits_low hl2 (by decide) (by decide)), if_pos hf, h1, h2, h3, h4, h5]
  rfl
theorem mulV16 : ∀ a b, Statement (.mulV16 a b) := by
  intro a b w h
  obtain ⟨x, hx⟩ : ∃ x : BitVec 16, 0xE#5 ++ a ++ b = x := ⟨_, rfl⟩
  obtain rfl : Code.short x = w := (congrArg Code.short hx.symm).trans (Option.some.inj h)
  obtain ⟨h0, h1, h2, ht, hm⟩ := layout_5_5_6 hx
  refine ⟨by rw [ht]; decide, ?_⟩
  replace hm := (congrArg BitVec.toNat hm).trans (rfl : _ = 14)
  simp only [halfRow, hm]
  rw [h1, h2]
theorem mulh : ∀ a b c d e, Statement (.mulh a b c d e) := by
  intro a b c d e w h
  obtain ⟨x, hx⟩ : ∃ x : BitVec 32, 0xC0#8 ++ a ++ b ++ c ++ d ++ e ++ 0x3#2 = x := ⟨_, rfl⟩
  obtain rfl : Code.wide x = w := (congrArg Code.wide hx.symm).trans (Option.some.inj h)
  obtain ⟨h0, h1, h2, h3, h4, h5, h6, ht, hm, hl2⟩ := layout_8_6_2_6_2_6_2 hx
  have hf : fits x 0xFF000003 0xC0000003 = true := fits_of_fields [(24, 8), (0, 2)] (by decide) (by decide) ⟨h0, h6, trivial⟩
  refine ⟨by rw [ht]; decide, ?_⟩
  replace hm := (congrArg BitVec.toNat hm).trans (rfl : _ = 0)
  simp only [wordRow, wordArith, hm]
  rw [if_neg (fits_low hl2 (by decide) (by decide)), if_neg (fits_low hl2 (by decide) (by decide)), if_neg (fits_low hl2 (by decide) (by decide)), if_pos hf, h1, h2, h3, h4, h5]
  rfl
theorem and : ∀ a b c d e, Statement (.and a b c d e) := by
  intro a b c d e w h
  obtain ⟨x, hx⟩ : ∃ x : BitVec 32, 0xC1#8 ++ a ++ b ++ c ++ d ++ e ++ 0x0#2 = x := ⟨_, rfl⟩
  obtain rfl : Code.wide x = w := (congrArg Code.wide hx.symm).trans (Option.some.inj h)
  obtain ⟨h0, h1, h2, h3, h4, h5, h6, ht, hm, hl2⟩ := layout_8_6_2_6_2_6_2 hx
  have hf : fits x 0xFF000003 0xC1000000 = true := fits_of_fields [(24, 8), (0, 2)] (by decide) (by decide) ⟨h0, h6, trivial⟩
  refine ⟨by rw [ht]; decide, ?_⟩
  replace hm := (congrArg BitVec.toNat hm).trans (rfl : _ = 1)
  simp only [wordRow, wordArith, hm]
  rw [if_pos hf, h1, h2, h3, h4, h5]
  rfl
theorem andG16 : ∀ a b, Statement (.andG16 a b) := by
  intro a b w h
  obtain ⟨x, hx⟩ : ∃ x : BitVec 16, 0x5#5 ++ a ++ b = x := ⟨_, rfl⟩
  obtain rfl : Code.short x = w := (congrArg Code.short hx.symm).trans (Option.some.inj h)
  obtain ⟨h0, h1, h2, ht, hm⟩ := layout_5_5_6 hx
  refine ⟨by rw [ht]; decide, ?_⟩
  replace hm := (congrArg BitVec.toNat hm).trans (rfl : _ = 5)
  simp only [halfRow, hm]
  rw [h1, h2]
theorem or : ∀ a b c d e, Statement (.or a b c d e) := by
  intro a b c d e w h
  obtain ⟨x, hx⟩ : ∃ x : BitVec 32, 0xC1#8 ++ a ++ b ++ c ++ d ++ e ++ 0x1#2 = x := ⟨_, rfl⟩
  obtain rfl : Code.wide x = w := (congrArg Code.wide hx.symm).trans (Option.some.inj h)
  obtain ⟨h0, h1, h2, h3, h4, h5, h6, ht, hm, hl2⟩ := layout_8_6_2_6_2_6_2 hx
  have hf : fits x 0xFF000003 0xC1000001 = true := fits_of_fields [(24, 8), (0, 2)] (by decide) (by decide) ⟨h0, h6, trivial⟩
  refine ⟨by rw [ht]; decide, ?_⟩
  replace hm := (congrArg BitVec.toNat hm).trans (rfl : _ = 1)
  simp only [wordRow, wordArith, hm]
  rw [if_neg (fits_low hl2 (by decide) (by decide)), if_pos hf, h1, h2, h3, h4, h5]
  rfl
theorem orG16 : ∀ a b, Statement (.orG16 a b) := by
  intro a b w h
  obtain ⟨x, hx⟩ : ∃ x : BitVec 16, 0x6#5 ++ a ++ b = x := ⟨_, rfl⟩
  obtain rfl : Code.short x = w := (congrArg Code.short hx.symm).trans (Option.some.inj h)
  obtain ⟨h0, h1, h2, ht, hm⟩ := layout_5_5_6 hx
  refine ⟨by rw [ht]; decide, ?_⟩
  replace hm := (congrArg BitVec.toNat hm).trans (rfl : _ = 6)
  simp only [halfRow, hm]
  rw [h1, h2]
theorem xor : ∀ a b c d e, Statement (.xor a b c d e) := by
  intro a b c d e w h
  obtain ⟨x, hx⟩ : ∃ x : BitVec 32, 0xC1#8 ++ a ++ b ++ c ++ d ++ e ++ 0x2#2 = x := ⟨_, rfl⟩
  obtain rfl : Code.wide x = w := (congrArg Code.wide hx.symm).trans (Option.some.inj h)
  obtain ⟨h0, h1, h2, h3, h4, h5, h6, ht, hm, hl2⟩ := layout_8_6_2_6_2_6_2 hx
  have hf : fits x 0xFF000003 0xC1000002 = true := fits_of_fields [(24, 8), (0, 2)] (by decide) (by decide) ⟨h0, h6, trivial⟩
  refine ⟨by rw [ht]; decide, ?_⟩
  replace hm := (congrArg BitVec.toNat hm).trans (rfl : _ = 1)
  simp only [wordRow, wordArith, hm]
  rw [if_neg (fits_low hl2 (by decide) (by decide)), if_neg (fits_low hl2 (by decide) (by decide)), if_pos hf, h1, h2, h3, h4, h5]
  rfl
theorem xorG16 : ∀ a b, Statement (.xorG16 a b) := by
  intro a b w h
  obtain ⟨x, hx⟩ : ∃ x : BitVec 16, 0x7#5 ++ a ++ b = x := ⟨_, rfl⟩
  obtain rfl : Code.short x = w := (congrArg Code.short hx.symm).trans (Option.some.inj h)
  obtain ⟨h0, h1, h2, ht, hm⟩ := layout_5_5_6 hx
  refine ⟨by rw [ht]; decide, ?_⟩
  replace hm := (congrArg BitVec.toNat hm).trans (rfl : _ = 7)
  simp only [halfRow, hm]
  rw [h1, h2]
theorem andn : ∀ a b c d e, Statement (.andn a b c d e) := by
  intro a b c d e w h
  obtain ⟨x, hx⟩ : ∃ x : BitVec 32, 0xC1#8 ++ a ++ b ++ c ++ d ++ e ++ 0x3#2 = x := ⟨_, rfl⟩
  obtain rfl : Code.wide x = w := (congrArg Code.wide hx.symm).trans (Option.some.inj h)
  obtain ⟨h0, h1, h2, h3, h4, h5, h6, ht, hm, hl2⟩ := layout_8_6_2_6_2_6_2 hx
  have hf : fits x 0xFF000003 0xC1000003 = true := fits_of_fields [(24, 8), (0, 2)] (by decide) (by decide) ⟨h0, h6, trivial⟩
  refine ⟨by rw [ht]; decide, ?_⟩
  replace hm := (congrArg BitVec.toNat hm).trans (rfl : _ = 1)
  simp only [wordRow, wordArith, hm]
  rw [if_neg (fits_low hl2 (by decide) (by decide)), if_neg (fits_low hl2 (by decide) (by decide)), if_neg (fits_low hl2 (by decide) (by decide)), if_pos hf, h1, h2, h3, h4, h5]
  rfl
theorem shl : ∀ a b c d e, Statement (.shl a b c d e) := by
  intro a b c d e w h
  obtain ⟨x, hx⟩ : ∃ x : BitVec 32, 0xC2#8 ++ a ++ b ++ c ++ d ++ e ++ 0x0#2 = x := ⟨_, rfl⟩
  obtain rfl : Code.wide x = w := (congrArg Code.wide hx.symm).trans (Option.some.inj h)
  obtain ⟨h0, h1, h2, h3, h4, h5, h6, ht, hm, hl2⟩ := layout_8_6_2_6_2_6_2 hx
  have hf : fits x 0xFF000003 0xC2000000 = true := fits_of_fields [(24, 8), (0, 2)] (by decide) (by decide) ⟨h0, h6, trivial⟩
  refine ⟨by rw [ht]; decide, ?_⟩
  replace hm := (congrArg BitVec.toNat hm).trans (rfl : _ = 2)
  simp only [wordRow, wordArith, hm]
  rw [if_pos hf, h1, h2, h3, h4, h5]
  rfl
theorem shlG16 : ∀ a b, Statement (.shlG16 a b) := by
  intro a b w h
  obtain ⟨x, hx⟩ : ∃ x : BitVec 16, 0x8#5 ++ a ++ b = x := ⟨_, rfl⟩
  obtain rfl : Code.short x = w := (congrArg Code.short hx.symm).trans (Option.some.inj h)
  obtain ⟨h0, h1, h2, ht, hm⟩ := layout_5_5_6 hx
  refine ⟨by rw [ht]; decide, ?_⟩
  replace hm := (congrArg BitVec.toNat hm).trans (rfl : _ = 8)
  simp only [halfRow, hm]
  rw [h1, h2]
theorem shr : ∀ a b c d e, Statement (.shr a b c d e) := by
  intro a b c d e w h
  obtain ⟨x, hx⟩ : ∃ x : BitVec 32, 0xC2#8 ++ a ++ b ++ c ++ d ++ e ++ 0x1#2 = x := ⟨_, rfl⟩
  obtain rfl : Code.wide x = w := (congrArg Code.wide hx.symm).trans (Option.some.inj h)
  obtain ⟨h0, h1, h2, h3, h4, h5, h6, ht, hm, hl2⟩ := layout_8_6_2_6_2_6_2 hx
  have hf : fits x 0xFF000003 0xC2000001 = true := fits_of_fields [(24, 8), (0, 2)] (by decide) (by decide) ⟨h0, h6, trivial⟩
  refine ⟨by rw [ht]; decide, ?_⟩
  replace hm := (congrArg BitVec.toNat hm).trans (rfl : _ = 2)
  simp only [wordRow, wordArith, hm]
  rw [if_neg (fits_low hl2 (by decide) (by decide)), if_pos hf, h1, h2, h3, h4, h5]
  rfl
theorem shrG16 : ∀ a b, Statement (.shrG16 a b) := by
  intro a b w h
  obtain ⟨x, hx⟩ : ∃ x : BitVec 16, 0x9#5 ++ a ++ b = x := ⟨_, rfl⟩
  obtain rfl : Code.short x = w := (congrArg Code.short hx.symm).trans (Option.some.inj h)
  obtain ⟨h0, h1, h2, ht, hm⟩ := layout_5_5_6 hx
  refine ⟨by rw [ht]; decide, ?_⟩
  replace hm := (congrArg BitVec.toNat hm).trans (rfl : _ = 9)
  simp only [halfRow, hm]
  rw [h1, h2]
theorem sar : ∀ a b c d e, Statement (.sar a b c d e) := by
  intro a b c d e w h
  obtain ⟨x, hx⟩ : ∃ x : BitVec 32, 0xC2#8 ++ a ++ b ++ c ++ d ++ e ++ 0x2#2 = x := ⟨_, rfl⟩
  obtain rfl : Code.wide x = w := (congrArg Code.wide hx.symm).trans (Option.some.inj h)
  obtain ⟨h0, h1, h2, h3, h4, h5, h6, ht, hm, hl2⟩ := layout_8_6_2_6_2_6_2 hx
  have hf : fits x 0xFF000003 0xC2000002 = true := fits_of_fields [(24, 8), (0, 2)] (by decide) (by decide) ⟨h0, h6, trivial⟩
  refine ⟨by rw [ht]; decide, ?_⟩
  replace hm := (congrArg BitVec.toNat hm).trans (rfl : _ = 2)
  simp only [wordRow, wordArith, hm]
  rw [if_neg (fits_low hl2 (by decide) (by decide)), if_neg (fits_low hl2 (by decide) (by decide)), if_pos hf, h1, h2, h3, h4, h5]
  rfl
theorem rot : ∀ a b c d e, Statement (.rot a b c d e) := by
  intro a b c d e w h
  obtain ⟨x, hx⟩ : ∃ x : BitVec 32, 0xC2#8 ++ a ++ b ++ c ++ d ++ e ++ 0x3#2 = x := ⟨_, rfl⟩
  obtain rfl : Code.wide x = w := (congrArg Code.wide hx.symm).trans (Option.some.inj h)
  obtain ⟨h0, h1, h2, h3, h4, h5, h6, ht, hm, hl2⟩ := layout_8_6_2_6_2_6_2 hx
  have hf : fits x 0xFF000003 0xC2000003 = true := fits_of_fields [(24, 8), (0, 2)] (by decide) (by decide) ⟨h0, h6, trivial⟩
  refine ⟨by rw [ht]; decide, ?_⟩
  replace hm := (congrArg BitVec.toNat hm).trans (rfl : _ = 2)
  simp only [wordRow, wordArith, hm]
  rw [if_neg (fits_low hl2 (by decide) (by decide)), if_neg (fits_low hl2 (by decide) (by decide)), if_neg (fits_low hl2 (by decide) (by decide)), if_pos hf, h1, h2, h3, h4, h5]
  rfl
theorem min : ∀ a b c d e, Statement (.min a b c d e) := by
  intro a b c d e w h
  obtain ⟨x, hx⟩ : ∃ x : BitVec 32, 0xC3#8 ++ a ++ b ++ c ++ d ++ e ++ 0x0#2 = x := ⟨_, rfl⟩
  obtain rfl : Code.wide x = w := (congrArg Code.wide hx.symm).trans (Option.some.inj h)
  obtain ⟨h0, h1, h2, h3, h4, h5, h6, ht, hm, hl2⟩ := layout_8_6_2_6_2_6_2 hx
  have hf : fits x 0xFF000003 0xC3000000 = true := fits_of_fields [(24, 8), (0, 2)] (by decide) (by decide) ⟨h0, h6, trivial⟩
  refine ⟨by rw [ht]; decide, ?_⟩
  replace hm := (congrArg BitVec.toNat hm).trans (rfl : _ = 3)
  simp only [wordRow, wordArith, hm]
  rw [if_pos hf, h1, h2, h3, h4, h5]
  rfl
theorem max : ∀ a b c d e, Statement (.max a b c d e) := by
  intro a b c d e w h
  obtain ⟨x, hx⟩ : ∃ x : BitVec 32, 0xC3#8 ++ a ++ b ++ c ++ d ++ e ++ 0x1#2 = x := ⟨_, rfl⟩
  obtain rfl : Code.wide x = w := (congrArg Code.wide hx.symm).trans (Option.some.inj h)
  obtain ⟨h0, h1, h2, h3, h4, h5, h6, ht, hm, hl2⟩ := layout_8_6_2_6_2_6_2 hx
  have hf : fits x 0xFF000003 0xC3000001 = true := fits_of_fields [(24, 8), (0, 2)] (by decide) (by decide) ⟨h0, h6, trivial⟩
  refine ⟨by rw [ht]; decide, ?_⟩
  replace hm := (congrArg BitVec.toNat hm).trans (rfl : _ = 3)
  simp only [wordRow, wordArith, hm]
  rw [if_neg (fits_low hl2 (by decide) (by decide)), if_pos hf, h1, h2, h3, h4, h5]
  rfl
theorem absd : ∀ a b c d e, Statement (.absd a b c d e) := by
  intro a b c d e w h
  obtain ⟨x, hx⟩ : ∃ x : BitVec 32, 0xC3#8 ++ a ++ b ++ c ++ d ++ e ++ 0x2#2 = x := ⟨_, rfl⟩
  obtain rfl : Code.wide x = w := (congrArg Code.wide hx.symm).trans (Option.some.inj h)
  obtain ⟨h0, h1, h2, h3, h4, h5, h6, ht, hm, hl2⟩ := layout_8_6_2_6_2_6_2 hx
  have hf : fits x 0xFF000003 0xC3000002 = true := fits_of_fields [(24, 8), (0, 2)] (by decide) (by decide) ⟨h0, h6, trivial⟩
  refine ⟨by rw [ht]; decide, ?_⟩
  replace hm := (congrArg BitVec.toNat hm).trans (rfl : _ = 3)
  simp only [wordRow, wordArith, hm]
  rw [if_neg (fits_low hl2 (by decide) (by decide)), if_neg (fits_low hl2 (by decide) (by decide)), if_pos hf, h1, h2, h3, h4, h5]
  rfl
theorem neg : ∀ a b c, Statement (.neg a b c) := by
  intro a b c w h
  obtain ⟨x, hx⟩ : ∃ x : BitVec 32, 0xC3#8 ++ a ++ b ++ c ++ 0x3#10 = x := ⟨_, rfl⟩
  obtain rfl : Code.wide x = w := (congrArg Code.wide hx.symm).trans (Option.some.inj h)
  obtain ⟨h0, h1, h2, h3, h4, ht, hm, hl2, hl8⟩ := layout_8_6_2_6_10 hx
  have hf : fits x 0xFF0003FF 0xC3000003 = true := fits_of_fields [(24, 8), (0, 10)] (by decide) (by decide) ⟨h0, h4, trivial⟩
  refine ⟨by rw [ht]; decide, ?_⟩
  replace hm := (congrArg BitVec.toNat hm).trans (rfl : _ = 3)
  simp only [wordRow, wordArith, hm]
  rw [if_neg (fits_low hl2 (by decide) (by decide)), if_neg (fits_low hl2 (by decide) (by decide)), if_neg (fits_low hl2 (by decide) (by decide)), if_pos hf, h1, h2, h3]
  rfl
theorem div : ∀ a b c d e, Statement (.div a b c d e) := by
  intro a b c d e w h
  obtain ⟨x, hx⟩ : ∃ x : BitVec 32, 0xC4#8 ++ a ++ b ++ c ++ d ++ e ++ 0x0#2 = x := ⟨_, rfl⟩
  obtain rfl : Code.wide x = w := (congrArg Code.wide hx.symm).trans (Option.some.inj h)
  obtain ⟨h0, h1, h2, h3, h4, h5, h6, ht, hm, hl2⟩ := layout_8_6_2_6_2_6_2 hx
  have hf : fits x 0xFF000003 0xC4000000 = true := fits_of_fields [(24, 8), (0, 2)] (by decide) (by decide) ⟨h0, h6, trivial⟩
  refine ⟨by rw [ht]; decide, ?_⟩
  replace hm := (congrArg BitVec.toNat hm).trans (rfl : _ = 4)
  simp only [wordRow, wordArith, hm]
  rw [if_pos hf, h1, h2, h3, h4, h5]
  rfl
theorem rem : ∀ a b c d e, Statement (.rem a b c d e) := by
  intro a b c d e w h
  obtain ⟨x, hx⟩ : ∃ x : BitVec 32, 0xC4#8 ++ a ++ b ++ c ++ d ++ e ++ 0x1#2 = x := ⟨_, rfl⟩
  obtain rfl : Code.wide x = w := (congrArg Code.wide hx.symm).trans (Option.some.inj h)
  obtain ⟨h0, h1, h2, h3, h4, h5, h6, ht, hm, hl2⟩ := layout_8_6_2_6_2_6_2 hx
  have hf : fits x 0xFF000003 0xC4000001 = true := fits_of_fields [(24, 8), (0, 2)] (by decide) (by decide) ⟨h0, h6, trivial⟩
  refine ⟨by rw [ht]; decide, ?_⟩
  replace hm := (congrArg BitVec.toNat hm).trans (rfl : _ = 4)
  simp only [wordRow, wordArith, hm]
  rw [if_neg (fits_low hl2 (by decide) (by decide)), if_pos hf, h1, h2, h3, h4, h5]
  rfl
theorem sqrt : ∀ a b, Statement (.sqrt a b) := by
  intro a b w h
  obtain ⟨x, hx⟩ : ∃ x : BitVec 32, 0xC4#8 ++ a ++ 0x1#2 ++ b ++ 0x2#10 = x := ⟨_, rfl⟩
  obtain rfl : Code.wide x = w := (congrArg Code.wide hx.symm).trans (Option.some.inj h)
  obtain ⟨h0, h1, h2, h3, h4, ht, hm, hl2, hl8⟩ := layout_8_6_2_6_10 hx
  have hf : fits x 0xFF0303FF 0xC4010002 = true := fits_of_fields [(24, 8), (16, 2), (0, 10)] (by decide) (by decide) ⟨h0, h2, h4, trivial⟩
  refine ⟨by rw [ht]; decide, ?_⟩
  replace hm := (congrArg BitVec.toNat hm).trans (rfl : _ = 4)
  simp only [wordRow, wordArith, hm]
  rw [if_neg (fits_low hl2 (by decide) (by decide)), if_neg (fits_low hl2 (by decide) (by decide)), if_pos hf, h1, h3]
  rfl
theorem rsq : ∀ a b, Statement (.rsq a b) := by
  intro a b w h
  obtain ⟨x, hx⟩ : ∃ x : BitVec 32, 0xC4#8 ++ a ++ 0x1#2 ++ b ++ 0x3#10 = x := ⟨_, rfl⟩
  obtain rfl : Code.wide x = w := (congrArg Code.wide hx.symm).trans (Option.some.inj h)
  obtain ⟨h0, h1, h2, h3, h4, ht, hm, hl2, hl8⟩ := layout_8_6_2_6_10 hx
  have hf : fits x 0xFF0303FF 0xC4010003 = true := fits_of_fields [(24, 8), (16, 2), (0, 10)] (by decide) (by decide) ⟨h0, h2, h4, trivial⟩
  refine ⟨by rw [ht]; decide, ?_⟩
  replace hm := (congrArg BitVec.toNat hm).trans (rfl : _ = 4)
  simp only [wordRow, wordArith, hm]
  rw [if_neg (fits_low hl2 (by decide) (by decide)), if_neg (fits_low hl2 (by decide) (by decide)), if_neg (fits_low hl2 (by decide) (by decide)), if_pos hf, h1, h3]
  rfl
theorem fma : ∀ a b c d e, Statement (.fma a b c d e) := by
  intro a b c d e w h
  obtain ⟨x, hx⟩ : ∃ x : BitVec 32, 0xC5#8 ++ a ++ b ++ c ++ d ++ e ++ 0x0#2 = x := ⟨_, rfl⟩
  obtain rfl : Code.wide x = w := (congrArg Code.wide hx.symm).trans (Option.some.inj h)
  obtain ⟨h0, h1, h2, h3, h4, h5, h6, ht, hm, hl2⟩ := layout_8_6_2_6_2_6_2 hx
  have hf : fits x 0xFF000003 0xC5000000 = true := fits_of_fields [(24, 8), (0, 2)] (by decide) (by decide) ⟨h0, h6, trivial⟩
  refine ⟨by rw [ht]; decide, ?_⟩
  replace hm := (congrArg BitVec.toNat hm).trans (rfl : _ = 5)
  simp only [wordRow, wordArith, hm]
  rw [if_pos hf, h1, h2, h3, h4, h5]
  rfl
theorem fms : ∀ a b c d e, Statement (.fms a b c d e) := by
  intro a b c d e w h
  obtain ⟨x, hx⟩ : ∃ x : BitVec 32, 0xC5#8 ++ a ++ b ++ c ++ d ++ e ++ 0x1#2 = x := ⟨_, rfl⟩
  obtain rfl : Code.wide x = w := (congrArg Code.wide hx.symm).trans (Option.some.inj h)
  obtain ⟨h0, h1, h2, h3, h4, h5, h6, ht, hm, hl2⟩ := layout_8_6_2_6_2_6_2 hx
  have hf : fits x 0xFF000003 0xC5000001 = true := fits_of_fields [(24, 8), (0, 2)] (by decide) (by decide) ⟨h0, h6, trivial⟩
  refine ⟨by rw [ht]; decide, ?_⟩
  replace hm := (congrArg BitVec.toNat hm).trans (rfl : _ = 5)
  simp only [wordRow, wordArith, hm]
  rw [if_neg (fits_low hl2 (by decide) (by decide)), if_pos hf, h1, h2, h3, h4, h5]
  rfl
theorem dot : ∀ a b c, Statement (.dot a b c) := by
  intro a b c w h
  obtain ⟨x, hx⟩ : ∃ x : BitVec 32, 0xC5#8 ++ a ++ 0x1#2 ++ b ++ 0x1#2 ++ c ++ 0x2#2 = x := ⟨_, rfl⟩
  obtain rfl : Code.wide x = w := (congrArg Code.wide hx.symm).trans (Option.some.inj h)
  obtain ⟨h0, h1, h2, h3, h4, h5, h6, ht, hm, hl2⟩ := layout_8_6_2_6_2_6_2 hx
  have hf : fits x 0xFF030303 0xC5010102 = true := fits_of_fields [(24, 8), (16, 2), (8, 2), (0, 2)] (by decide) (by decide) ⟨h0, h2, h4, h6, trivial⟩
  refine ⟨by rw [ht]; decide, ?_⟩
  replace hm := (congrArg BitVec.toNat hm).trans (rfl : _ = 5)
  simp only [wordRow, wordArith, hm]
  rw [if_neg (fits_low hl2 (by decide) (by decide)), if_neg (fits_low hl2 (by decide) (by decide)), if_pos hf, h1, h3, h5]
  rfl
theorem scale : ∀ a b c d, Statement (.scale a b c d) := by
  intro a b c d w h
  obtain ⟨x, hx⟩ : ∃ x : BitVec 32, 0xC5#8 ++ a ++ 0x1#2 ++ b ++ c ++ d ++ 0x3#2 = x := ⟨_, rfl⟩
  obtain rfl : Code.wide x = w := (congrArg Code.wide hx.symm).trans (Option.some.inj h)
  obtain ⟨h0, h1, h2, h3, h4, h5, h6, ht, hm, hl2⟩ := layout_8_6_2_6_2_6_2 hx
  have hf : fits x 0xFF030003 0xC5010003 = true := fits_of_fields [(24, 8), (16, 2), (0, 2)] (by decide) (by decide) ⟨h0, h2, h6, trivial⟩
  refine ⟨by rw [ht]; decide, ?_⟩
  replace hm := (congrArg BitVec.toNat hm).trans (rfl : _ = 5)
  simp only [wordRow, wordArith, hm]
  rw [if_neg (fits_low hl2 (by decide) (by decide)), if_neg (fits_low hl2 (by decide) (by decide)), if_neg (fits_low hl2 (by decide) (by decide)), if_pos hf, h1, h3, h4, h5]
  rfl
theorem ceq : ∀ a b c d e, Statement (.ceq a b c d e) := by
  intro a b c d e w h
  obtain ⟨x, hx⟩ : ∃ x : BitVec 32, 0xC6#8 ++ a ++ b ++ c ++ d ++ e ++ 0x0#2 = x := ⟨_, rfl⟩
  obtain rfl : Code.wide x = w := (congrArg Code.wide hx.symm).trans (Option.some.inj h)
  obtain ⟨h0, h1, h2, h3, h4, h5, h6, ht, hm, hl2⟩ := layout_8_6_2_6_2_6_2 hx
  have hf : fits x 0xFF000003 0xC6000000 = true := fits_of_fields [(24, 8), (0, 2)] (by decide) (by decide) ⟨h0, h6, trivial⟩
  refine ⟨by rw [ht]; decide, ?_⟩
  replace hm := (congrArg BitVec.toNat hm).trans (rfl : _ = 6)
  simp only [wordRow, wordArith, hm]
  rw [if_pos hf, h1, h2, h3, h4, h5]
  rfl
theorem cne : ∀ a b c d e, Statement (.cne a b c d e) := by
  intro a b c d e w h
  obtain ⟨x, hx⟩ : ∃ x : BitVec 32, 0xC6#8 ++ a ++ b ++ c ++ d ++ e ++ 0x1#2 = x := ⟨_, rfl⟩
  obtain rfl : Code.wide x = w := (congrArg Code.wide hx.symm).trans (Option.some.inj h)
  obtain ⟨h0, h1, h2, h3, h4, h5, h6, ht, hm, hl2⟩ := layout_8_6_2_6_2_6_2 hx
  have hf : fits x 0xFF000003 0xC6000001 = true := fits_of_fields [(24, 8), (0, 2)] (by decide) (by decide) ⟨h0, h6, trivial⟩
  refine ⟨by rw [ht]; decide, ?_⟩
  replace hm := (congrArg BitVec.toNat hm).trans (rfl : _ = 6)
  simp only [wordRow, wordArith, hm]
  rw [if_neg (fits_low hl2 (by decide) (by decide)), if_pos hf, h1, h2, h3, h4, h5]
  rfl
theorem clt : ∀ a b c d e, Statement (.clt a b c d e) := by
  intro a b c d e w h
  obtain ⟨x, hx⟩ : ∃ x : BitVec 32, 0xC6#8 ++ a ++ b ++ c ++ d ++ e ++ 0x2#2 = x := ⟨_, rfl⟩
  obtain rfl : Code.wide x = w := (congrArg Code.wide hx.symm).trans (Option.some.inj h)
  obtain ⟨h0, h1, h2, h3, h4, h5, h6, ht, hm, hl2⟩ := layout_8_6_2_6_2_6_2 hx
  have hf : fits x 0xFF000003 0xC6000002 = true := fits_of_fields [(24, 8), (0, 2)] (by decide) (by decide) ⟨h0, h6, trivial⟩
  refine ⟨by rw [ht]; decide, ?_⟩
  replace hm := (congrArg BitVec.toNat hm).trans (rfl : _ = 6)
  simp only [wordRow, wordArith, hm]
  rw [if_neg (fits_low hl2 (by decide) (by decide)), if_neg (fits_low hl2 (by decide) (by decide)), if_pos hf, h1, h2, h3, h4, h5]
  rfl
theorem cle : ∀ a b c d e, Statement (.cle a b c d e) := by
  intro a b c d e w h
  obtain ⟨x, hx⟩ : ∃ x : BitVec 32, 0xC6#8 ++ a ++ b ++ c ++ d ++ e ++ 0x3#2 = x := ⟨_, rfl⟩
  obtain rfl : Code.wide x = w := (congrArg Code.wide hx.symm).trans (Option.some.inj h)
  obtain ⟨h0, h1, h2, h3, h4, h5, h6, ht, hm, hl2⟩ := layout_8_6_2_6_2_6_2 hx
  have hf : fits x 0xFF000003 0xC6000003 = true := fits_of_fields [(24, 8), (0, 2)] (by decide) (by decide) ⟨h0, h6, trivial⟩
  refine ⟨by rw [ht]; decide, ?_⟩
  replace hm := (congrArg BitVec.toNat hm).trans (rfl : _ = 6)
  simp only [wordRow, wordArith, hm]
  rw [if_neg (fits_low hl2 (by decide) (by decide)), if_neg (fits_low hl2 (by decide) (by decide)), if_neg (fits_low hl2 (by decide) (by decide)), if_pos hf, h1, h2, h3, h4, h5]
  rfl
theorem clz : ∀ a b c, Statement (.clz a b c) := by
  intro a b c w h
  obtain ⟨x, hx⟩ : ∃ x : BitVec 32, 0xC7#8 ++ a ++ b ++ c ++ 0x0#10 = x := ⟨_, rfl⟩
  obtain rfl : Code.wide x = w := (congrArg Code.wide hx.symm).trans (Option.some.inj h)
  obtain ⟨h0, h1, h2, h3, h4, ht, hm, hl2, hl8⟩ := layout_8_6_2_6_10 hx
  have hf : fits x 0xFF0003FF 0xC7000000 = true := fits_of_fields [(24, 8), (0, 10)] (by decide) (by decide) ⟨h0, h4, trivial⟩
  refine ⟨by rw [ht]; decide, ?_⟩
  replace hm := (congrArg BitVec.toNat hm).trans (rfl : _ = 7)
  simp only [wordRow, wordArith, hm]
  rw [if_pos hf, h1, h2, h3]
  rfl
theorem ffs : ∀ a b c, Statement (.ffs a b c) := by
  intro a b c w h
  obtain ⟨x, hx⟩ : ∃ x : BitVec 32, 0xC7#8 ++ a ++ b ++ c ++ 0x1#10 = x := ⟨_, rfl⟩
  obtain rfl : Code.wide x = w := (congrArg Code.wide hx.symm).trans (Option.some.inj h)
  obtain ⟨h0, h1, h2, h3, h4, ht, hm, hl2, hl8⟩ := layout_8_6_2_6_10 hx
  have hf : fits x 0xFF0003FF 0xC7000001 = true := fits_of_fields [(24, 8), (0, 10)] (by decide) (by decide) ⟨h0, h4, trivial⟩
  refine ⟨by rw [ht]; decide, ?_⟩
  replace hm := (congrArg BitVec.toNat hm).trans (rfl : _ = 7)
  simp only [wordRow, wordArith, hm]
  rw [if_neg (fits_low hl2 (by decide) (by decide)), if_pos hf, h1, h2, h3]
  rfl
theorem popc : ∀ a b c, Statement (.popc a b c) := by
  intro a b c w h
  obtain ⟨x, hx⟩ : ∃ x : BitVec 32, 0xC7#8 ++ a ++ b ++ c ++ 0x2#10 = x := ⟨_, rfl⟩
  obtain rfl : Code.wide x = w := (congrArg Code.wide hx.symm).trans (Option.some.inj h)
  obtain ⟨h0, h1, h2, h3, h4, ht, hm, hl2, hl8⟩ := layout_8_6_2_6_10 hx
  have hf : fits x 0xFF0003FF 0xC7000002 = true := fits_of_fields [(24, 8), (0, 10)] (by decide) (by decide) ⟨h0, h4, trivial⟩
  refine ⟨by rw [ht]; decide, ?_⟩
  replace hm := (congrArg BitVec.toNat hm).trans (rfl : _ = 7)
  simp only [wordRow, wordArith, hm]
  rw [if_neg (fits_low hl2 (by decide) (by decide)), if_neg (fits_low hl2 (by decide) (by decide)), if_pos hf, h1, h2, h3]
  rfl
theorem brev : ∀ a b c, Statement (.brev a b c) := by
  intro a b c w h
  obtain ⟨x, hx⟩ : ∃ x : BitVec 32, 0xC7#8 ++ a ++ b ++ c ++ 0x3#10 = x := ⟨_, rfl⟩
  obtain rfl : Code.wide x = w := (congrArg Code.wide hx.symm).trans (Option.some.inj h)
  obtain ⟨h0, h1, h2, h3, h4, ht, hm, hl2, hl8⟩ := layout_8_6_2_6_10 hx
  have hf : fits x 0xFF0003FF 0xC7000003 = true := fits_of_fields [(24, 8), (0, 10)] (by decide) (by decide) ⟨h0, h4, trivial⟩
  refine ⟨by rw [ht]; decide, ?_⟩
  replace hm := (congrArg BitVec.toNat hm).trans (rfl : _ = 7)
  simp only [wordRow, wordArith, hm]
  rw [if_neg (fits_low hl2 (by decide) (by decide)), if_neg (fits_low hl2 (by decide) (by decide)), if_neg (fits_low hl2 (by decide) (by decide)), if_pos hf, h1, h2, h3]
  rfl
theorem cvt : ∀ a b c, Statement (.cvt a b c) := by
  intro a b c w h
  obtain ⟨x, hx⟩ : ∃ x : BitVec 32, 0xC8#8 ++ a ++ 0x1#2 ++ b ++ 0x3#2 ++ c ++ 0x0#2 = x := ⟨_, rfl⟩
  obtain rfl : Code.wide x = w := (congrArg Code.wide hx.symm).trans (Option.some.inj h)
  obtain ⟨h0, h1, h2, h3, h4, h5, h6, ht, hm, hl2⟩ := layout_8_6_2_6_2_6_2 hx
  have hf : fits x 0xFF030303 0xC8010300 = true := fits_of_fields [(24, 8), (16, 2), (8, 2), (0, 2)] (by decide) (by decide) ⟨h0, h2, h4, h6, trivial⟩
  refine ⟨by rw [ht]; decide, ?_⟩
  replace hm := (congrArg BitVec.toNat hm).trans (rfl : _ = 8)
  simp only [wordRow, wordVector, hm]
  rw [if_pos hf, h1, h3, h5]
  rfl
theorem cvtf : ∀ a b c, Statement (.cvtf a b c) := by
  intro a b c w h
  obtain ⟨x, hx⟩ : ∃ x : BitVec 32, 0xC8#8 ++ a ++ 0x1#2 ++ b ++ 0x3#2 ++ c ++ 0x1#2 = x := ⟨_, rfl⟩
  obtain rfl : Code.wide x = w := (congrArg Code.wide hx.symm).trans (Option.some.inj h)
  obtain ⟨h0, h1, h2, h3, h4, h5, h6, ht, hm, hl2⟩ := layout_8_6_2_6_2_6_2 hx
  have hf : fits x 0xFF030303 0xC8010301 = true := fits_of_fields [(24, 8), (16, 2), (8, 2), (0, 2)] (by decide) (by decide) ⟨h0, h2, h4, h6, trivial⟩
  refine ⟨by rw [ht]; decide, ?_⟩
  replace hm := (congrArg BitVec.toNat hm).trans (rfl : _ = 8)
  simp only [wordRow, wordVector, hm]
  rw [if_neg (fits_low hl2 (by decide) (by decide)), if_pos hf, h1, h3, h5]
  rfl
theorem tag : ∀ a b c, Statement (.tag a b c) := by
  intro a b c w h
  obtain ⟨x, hx⟩ : ∃ x : BitVec 32, 0xC8#8 ++ a ++ 0x1#2 ++ b ++ 0x3#2 ++ c ++ 0x2#2 = x := ⟨_, rfl⟩
  obtain rfl : Code.wide x = w := (congrArg Code.wide hx.symm).trans (Option.some.inj h)
  obtain ⟨h0, h1, h2, h3, h4, h5, h6, ht, hm, hl2⟩ := layout_8_6_2_6_2_6_2 hx
  have hf : fits x 0xFF030303 0xC8010302 = true := fits_of_fields [(24, 8), (16, 2), (8, 2), (0, 2)] (by decide) (by decide) ⟨h0, h2, h4, h6, trivial⟩
  refine ⟨by rw [ht]; decide, ?_⟩
  replace hm := (congrArg BitVec.toNat hm).trans (rfl : _ = 8)
  simp only [wordRow, wordVector, hm]
  rw [if_neg (fits_low hl2 (by decide) (by decide)), if_neg (fits_low hl2 (by decide) (by decide)), if_pos hf, h1, h3, h5]
  rfl
theorem shuf : ∀ a b c d, Statement (.shuf a b c d) := by
  intro a b c d w h
  obtain ⟨x, hx⟩ : ∃ x : BitVec 32, 0xC9#8 ++ a ++ 0x1#2 ++ b ++ c ++ d ++ 0x0#2 = x := ⟨_, rfl⟩
  obtain rfl : Code.wide x = w := (congrArg Code.wide hx.symm).trans (Option.some.inj h)
  obtain ⟨h0, h1, h2, h3, h4, h5, h6, ht, hm, hl2⟩ := layout_8_6_2_6_2_6_2 hx
  have hf : fits x 0xFF030003 0xC9010000 = true := fits_of_fields [(24, 8), (16, 2), (0, 2)] (by decide) (by decide) ⟨h0, h2, h6, trivial⟩
  refine ⟨by rw [ht]; decide, ?_⟩
  replace hm := (congrArg BitVec.toNat hm).trans (rfl : _ = 9)
  simp only [wordRow, wordVector, hm]
  rw [if_pos hf, h1, h3, h4, h5]
  rfl
theorem bcast : ∀ a b c d, Statement (.bcast a b c d) := by
  intro a b c d w h
  obtain ⟨x, hx⟩ : ∃ x : BitVec 32, 0xC9#8 ++ a ++ b ++ c ++ 0x3#2 ++ d ++ 0x1#2 = x := ⟨_, rfl⟩
  obtain rfl : Code.wide x = w := (congrArg Code.wide hx.symm).trans (Option.some.inj h)
  obtain ⟨h0, h1, h2, h3, h4, h5, h6, ht, hm, hl2⟩ := layout_8_6_2_6_2_6_2 hx
  have hf : fits x 0xFF000303 0xC9000301 = true := fits_of_fields [(24, 8), (8, 2), (0, 2)] (by decide) (by decide) ⟨h0, h4, h6, trivial⟩
  refine ⟨by rw [ht]; decide, ?_⟩
  replace hm := (congrArg BitVec.toNat hm).trans (rfl : _ = 9)
  simp only [wordRow, wordVector, hm]
  rw [if_neg (fits_low hl2 (by decide) (by decide)), if_pos hf, h1, h2, h3, h5]
  rfl
theorem slide : ∀ a b c d, Statement (.slide a b c d) := by
  intro a b c d w h
  obtain ⟨x, hx⟩ : ∃ x : BitVec 32, 0xC9#8 ++ a ++ 0x1#2 ++ b ++ c ++ d ++ 0x2#2 = x := ⟨_, rfl⟩
  obtain rfl : Code.wide x = w := (congrArg Code.wide hx.symm).trans (Option.some.inj h)
  obtain ⟨h0, h1, h2, h3, h4, h5, h6, ht, hm, hl2⟩ := layout_8_6_2_6_2_6_2 hx
  have hf : fits x 0xFF030003 0xC9010002 = true := fits_of_fields [(24, 8), (16, 2), (0, 2)] (by decide) (by decide) ⟨h0, h2, h6, trivial⟩
  refine ⟨by rw [ht]; decide, ?_⟩
  replace hm := (congrArg BitVec.toNat hm).trans (rfl : _ = 9)
  simp only [wordRow, wordVector, hm]
  rw [if_neg (fits_low hl2 (by decide) (by decide)), if_neg (fits_low hl2 (by decide) (by decide)), if_pos hf, h1, h3, h4, h5]
  rfl
theorem zip : ∀ a b c, Statement (.zip a b c) := by
  intro a b c w h
  obtain ⟨x, hx⟩ : ∃ x : BitVec 32, 0xC9#8 ++ a ++ 0x1#2 ++ b ++ 0x1#2 ++ c ++ 0x3#2 = x := ⟨_, rfl⟩
  obtain rfl : Code.wide x = w := (congrArg Code.wide hx.symm).trans (Option.some.inj h)
  obtain ⟨h0, h1, h2, h3, h4, h5, h6, ht, hm, hl2⟩ := layout_8_6_2_6_2_6_2 hx
  have hf : fits x 0xFF030303 0xC9010103 = true := fits_of_fields [(24, 8), (16, 2), (8, 2), (0, 2)] (by decide) (by decide) ⟨h0, h2, h4, h6, trivial⟩
  refine ⟨by rw [ht]; decide, ?_⟩
  replace hm := (congrArg BitVec.toNat hm).trans (rfl : _ = 9)
  simp only [wordRow, wordVector, hm]
  rw [if_neg (fits_low hl2 (by decide) (by decide)), if_neg (fits_low hl2 (by decide) (by decide)), if_neg (fits_low hl2 (by decide) (by decide)), if_pos hf, h1, h3, h5]
  rfl
theorem mov : ∀ a b c, Statement (.mov a b c) := by
  intro a b c w h
  obtain ⟨x, hx⟩ : ∃ x : BitVec 32, 0xCA#8 ++ a ++ b ++ c ++ 0x0#10 = x := ⟨_, rfl⟩
  obtain rfl : Code.wide x = w := (congrArg Code.wide hx.symm).trans (Option.some.inj h)
  obtain ⟨h0, h1, h2, h3, h4, ht, hm, hl2, hl8⟩ := layout_8_6_2_6_10 hx
  have hf : fits x 0xFF0003FF 0xCA000000 = true := fits_of_fields [(24, 8), (0, 10)] (by decide) (by decide) ⟨h0, h4, trivial⟩
  refine ⟨by rw [ht]; decide, ?_⟩
  replace hm := (congrArg BitVec.toNat hm).trans (rfl : _ = 10)
  simp only [wordRow, wordVector, hm]
  rw [if_pos hf, h1, h2, h3]
  rfl
theorem movG16 : ∀ a b, Statement (.movG16 a b) := by
  intro a b w h
  obtain ⟨x, hx⟩ : ∃ x : BitVec 16, 0x0#5 ++ a ++ b = x := ⟨_, rfl⟩
  obtain rfl : Code.short x = w := (congrArg Code.short hx.symm).trans (Option.some.inj h)
  obtain ⟨h0, h1, h2, ht, hm⟩ := layout_5_5_6 hx
  refine ⟨by rw [ht]; decide, ?_⟩
  replace hm := (congrArg BitVec.toNat hm).trans (rfl : _ = 0)
  simp only [halfRow, hm]
  rw [h1, h2]
theorem movV16 : ∀ a b, Statement (.movV16 a b) := by
  intro a b w h
  obtain ⟨x, hx⟩ : ∃ x : BitVec 16, 0xC#5 ++ a ++ b = x := ⟨_, rfl⟩
  obtain rfl : Code.short x = w := (congrArg Code.short hx.symm).trans (Option.some.inj h)
  obtain ⟨h0, h1, h2, ht, hm⟩ := layout_5_5_6 hx
  refine ⟨by rw [ht]; decide, ?_⟩
  replace hm := (congrArg BitVec.toNat hm).trans (rfl : _ = 12)
  simp only [halfRow, hm]
  rw [h1, h2]
theorem mvs : ∀ a b c d, Statement (.mvs a b c d) := by
  intro a b c d w h
  obtain ⟨x, hx⟩ : ∃ x : BitVec 32, 0xCA#8 ++ a ++ 0x1#2 ++ b ++ c ++ d ++ 0x1#2 = x := ⟨_, rfl⟩
  obtain rfl : Code.wide x = w := (congrArg Code.wide hx.symm).trans (Option.some.inj h)
  obtain ⟨h0, h1, h2, h3, h4, h5, h6, ht, hm, hl2⟩ := layout_8_6_2_6_2_6_2 hx
  have hf : fits x 0xFF030003 0xCA010001 = true := fits_of_fields [(24, 8), (16, 2), (0, 2)] (by decide) (by decide) ⟨h0, h2, h6, trivial⟩
  refine ⟨by rw [ht]; decide, ?_⟩
  replace hm := (congrArg BitVec.toNat hm).trans (rfl : _ = 10)
  simp only [wordRow, wordVector, hm]
  rw [if_neg (fits_low hl2 (by decide) (by decide)), if_pos hf, h1, h3, h4, h5]
  rfl
theorem mvv : ∀ a b c d e, Statement (.mvv a b c d e) := by
  intro a b c d e w h
  obtain ⟨x, hx⟩ : ∃ x : BitVec 32, 0xCA#8 ++ a ++ b ++ c ++ d ++ e ++ 0x2#2 = x := ⟨_, rfl⟩
  obtain rfl : Code.wide x = w := (congrArg Code.wide hx.symm).trans (Option.some.inj h)
  obtain ⟨h0, h1, h2, h3, h4, h5, h6, ht, hm, hl2⟩ := layout_8_6_2_6_2_6_2 hx
  have hf : fits x 0xFF000003 0xCA000002 = true := fits_of_fields [(24, 8), (0, 2)] (by decide) (by decide) ⟨h0, h6, trivial⟩
  refine ⟨by rw [ht]; decide, ?_⟩
  replace hm := (congrArg BitVec.toNat hm).trans (rfl : _ = 10)
  simp only [wordRow, wordVector, hm]
  rw [if_neg (fits_low hl2 (by decide) (by decide)), if_neg (fits_low hl2 (by decide) (by decide)), if_pos hf, h1, h2, h3, h4, h5]
  rfl
theorem sel : ∀ a b c, Statement (.sel a b c) := by
  intro a b c w h
  obtain ⟨x, hx⟩ : ∃ x : BitVec 32, 0xCA#8 ++ a ++ 0x1#2 ++ b ++ 0x1#2 ++ c ++ 0x3#2 = x := ⟨_, rfl⟩
  obtain rfl : Code.wide x = w := (congrArg Code.wide hx.symm).trans (Option.some.inj h)
  obtain ⟨h0, h1, h2, h3, h4, h5, h6, ht, hm, hl2⟩ := layout_8_6_2_6_2_6_2 hx
  have hf : fits x 0xFF030303 0xCA010103 = true := fits_of_fields [(24, 8), (16, 2), (8, 2), (0, 2)] (by decide) (by decide) ⟨h0, h2, h4, h6, trivial⟩
  refine ⟨by rw [ht]; decide, ?_⟩
  replace hm := (congrArg BitVec.toNat hm).trans (rfl : _ = 10)
  simp only [wordRow, wordVector, hm]
  rw [if_neg (fits_low hl2 (by decide) (by decide)), if_neg (fits_low hl2 (by decide) (by decide)), if_neg (fits_low hl2 (by decide) (by decide)), if_pos hf, h1, h3, h5]
  rfl
theorem rsum : ∀ a b, Statement (.rsum a b) := by
  intro a b w h
  obtain ⟨x, hx⟩ : ∃ x : BitVec 32, 0xCB#8 ++ a ++ 0x1#2 ++ b ++ 0x0#10 = x := ⟨_, rfl⟩
  obtain rfl : Code.wide x = w := (congrArg Code.wide hx.symm).trans (Option.some.inj h)
  obtain ⟨h0, h1, h2, h3, h4, ht, hm, hl2, hl8⟩ := layout_8_6_2_6_10 hx
  have hf : fits x 0xFF0303FF 0xCB010000 = true := fits_of_fields [(24, 8), (16, 2), (0, 10)] (by decide) (by decide) ⟨h0, h2, h4, trivial⟩
  refine ⟨by rw [ht]; decide, ?_⟩
  replace hm := (congrArg BitVec.toNat hm).trans (rfl : _ = 11)
  simp only [wordRow, wordVector, hm]
  rw [if_pos hf, h1, h3]
  rfl
theorem rmax : ∀ a b, Statement (.rmax a b) := by
  intro a b w h
  obtain ⟨x, hx⟩ : ∃ x : BitVec 32, 0xCB#8 ++ a ++ 0x1#2 ++ b ++ 0x1#10 = x := ⟨_, rfl⟩
  obtain rfl : Code.wide x = w := (congrArg Code.wide hx.symm).trans (Option.some.inj h)
  obtain ⟨h0, h1, h2, h3, h4, ht, hm, hl2, hl8⟩ := layout_8_6_2_6_10 hx
  have hf : fits x 0xFF0303FF 0xCB010001 = true := fits_of_fields [(24, 8), (16, 2), (0, 10)] (by decide) (by decide) ⟨h0, h2, h4, trivial⟩
  refine ⟨by rw [ht]; decide, ?_⟩
  replace hm := (congrArg BitVec.toNat hm).trans (rfl : _ = 11)
  simp only [wordRow, wordVector, hm]
  rw [if_neg (fits_low hl2 (by decide) (by decide)), if_pos hf, h1, h3]
  rfl
theorem rmin : ∀ a b, Statement (.rmin a b) := by
  intro a b w h
  obtain ⟨x, hx⟩ : ∃ x : BitVec 32, 0xCB#8 ++ a ++ 0x1#2 ++ b ++ 0x2#10 = x := ⟨_, rfl⟩
  obtain rfl : Code.wide x = w := (congrArg Code.wide hx.symm).trans (Option.some.inj h)
  obtain ⟨h0, h1, h2, h3, h4, ht, hm, hl2, hl8⟩ := layout_8_6_2_6_10 hx
  have hf : fits x 0xFF0303FF 0xCB010002 = true := fits_of_fields [(24, 8), (16, 2), (0, 10)] (by decide) (by decide) ⟨h0, h2, h4, trivial⟩
  refine ⟨by rw [ht]; decide, ?_⟩
  replace hm := (congrArg BitVec.toNat hm).trans (rfl : _ = 11)
  simp only [wordRow, wordVector, hm]
  rw [if_neg (fits_low hl2 (by decide) (by decide)), if_neg (fits_low hl2 (by decide) (by decide)), if_pos hf, h1, h3]
  rfl
theorem ror : ∀ a b, Statement (.ror a b) := by
  intro a b w h
  obtain ⟨x, hx⟩ : ∃ x : BitVec 32, 0xCB#8 ++ a ++ 0x1#2 ++ b ++ 0x3#10 = x := ⟨_, rfl⟩
  obtain rfl : Code.wide x = w := (congrArg Code.wide hx.symm).trans (Option.some.inj h)
  obtain ⟨h0, h1, h2, h3, h4, ht, hm, hl2, hl8⟩ := layout_8_6_2_6_10 hx
  have hf : fits x 0xFF0303FF 0xCB010003 = true := fits_of_fields [(24, 8), (16, 2), (0, 10)] (by decide) (by decide) ⟨h0, h2, h4, trivial⟩
  refine ⟨by rw [ht]; decide, ?_⟩
  replace hm := (congrArg BitVec.toNat hm).trans (rfl : _ = 11)
  simp only [wordRow, wordVector, hm]
  rw [if_neg (fits_low hl2 (by decide) (by decide)), if_neg (fits_low hl2 (by decide) (by decide)), if_neg (fits_low hl2 (by decide) (by decide)), if_pos hf, h1, h3]
  rfl
theorem kand : ∀ a b c, Statement (.kand a b c) := by
  intro a b c w h
  obtain ⟨x, hx⟩ : ∃ x : BitVec 32, 0xCC#8 ++ a ++ 0x0#2 ++ b ++ 0x0#2 ++ c ++ 0x0#2 = x := ⟨_, rfl⟩
  obtain rfl : Code.wide x = w := (congrArg Code.wide hx.symm).trans (Option.some.inj h)
  obtain ⟨h0, h1, h2, h3, h4, h5, h6, ht, hm, hl2⟩ := layout_8_6_2_6_2_6_2 hx
  have hf : fits x 0xFF030303 0xCC000000 = true := fits_of_fields [(24, 8), (16, 2), (8, 2), (0, 2)] (by decide) (by decide) ⟨h0, h2, h4, h6, trivial⟩
  refine ⟨by rw [ht]; decide, ?_⟩
  replace hm := (congrArg BitVec.toNat hm).trans (rfl : _ = 12)
  simp only [wordRow, wordVector, hm]
  rw [if_pos hf, h1, h3, h5]
  rfl
theorem kor : ∀ a b c, Statement (.kor a b c) := by
  intro a b c w h
  obtain ⟨x, hx⟩ : ∃ x : BitVec 32, 0xCC#8 ++ a ++ 0x0#2 ++ b ++ 0x0#2 ++ c ++ 0x1#2 = x := ⟨_, rfl⟩
  obtain rfl : Code.wide x = w := (congrArg Code.wide hx.symm).trans (Option.some.inj h)
  obtain ⟨h0, h1, h2, h3, h4, h5, h6, ht, hm, hl2⟩ := layout_8_6_2_6_2_6_2 hx
  have hf : fits x 0xFF030303 0xCC000001 = true := fits_of_fields [(24, 8), (16, 2), (8, 2), (0, 2)] (by decide) (by decide) ⟨h0, h2, h4, h6, trivial⟩
  refine ⟨by rw [ht]; decide, ?_⟩
  replace hm := (congrArg BitVec.toNat hm).trans (rfl : _ = 12)
  simp only [wordRow, wordVector, hm]
  rw [if_neg (fits_low hl2 (by decide) (by decide)), if_pos hf, h1, h3, h5]
  rfl
theorem knot : ∀ a b, Statement (.knot a b) := by
  intro a b w h
  obtain ⟨x, hx⟩ : ∃ x : BitVec 32, 0xCC#8 ++ a ++ 0x0#2 ++ b ++ 0x2#10 = x := ⟨_, rfl⟩
  obtain rfl : Code.wide x = w := (congrArg Code.wide hx.symm).trans (Option.some.inj h)
  obtain ⟨h0, h1, h2, h3, h4, ht, hm, hl2, hl8⟩ := layout_8_6_2_6_10 hx
  have hf : fits x 0xFF0303FF 0xCC000002 = true := fits_of_fields [(24, 8), (16, 2), (0, 10)] (by decide) (by decide) ⟨h0, h2, h4, trivial⟩
  refine ⟨by rw [ht]; decide, ?_⟩
  replace hm := (congrArg BitVec.toNat hm).trans (rfl : _ = 12)
  simp only [wordRow, wordVector, hm]
  rw [if_neg (fits_low hl2 (by decide) (by decide)), if_neg (fits_low hl2 (by decide) (by decide)), if_pos hf, h1, h3]
  rfl
theorem kuse : ∀ a, Statement (.kuse a) := by
  intro a w h
  obtain ⟨x, hx⟩ : ∃ x : BitVec 32, 0xCC00#16 ++ a ++ 0x3#10 = x := ⟨_, rfl⟩
  obtain rfl : Code.wide x = w := (congrArg Code.wide hx.symm).trans (Option.some.inj h)
  obtain ⟨h0, h1, h2, ht, hm, hl2, hl8⟩ := layout_16_6_10 hx
  have hf : fits x 0xFFFF03FF 0xCC000003 = true := fits_of_fields [(16, 16), (0, 10)] (by decide) (by decide) ⟨h0, h2, trivial⟩
  refine ⟨by rw [ht]; decide, ?_⟩
  replace hm := (congrArg BitVec.toNat hm).trans (rfl : _ = 12)
  simp only [wordRow, wordVector, hm]
  rw [if_neg (fits_low hl2 (by decide) (by decide)), if_neg (fits_low hl2 (by decide) (by decide)), if_neg (fits_low hl2 (by decide) (by decide)), if_pos hf, h1]
  rfl
theorem exp2 : ∀ a b, Statement (.exp2 a b) := by
  intro a b w h
  obtain ⟨x, hx⟩ : ∃ x : BitVec 32, 0xCD#8 ++ a ++ 0x1#2 ++ b ++ 0x0#10 = x := ⟨_, rfl⟩
  obtain rfl : Code.wide x = w := (congrArg Code.wide hx.symm).trans (Option.some.inj h)
  obtain ⟨h0, h1, h2, h3, h4, ht, hm, hl2, hl8⟩ := layout_8_6_2_6_10 hx
  have hf : fits x 0xFF0303FF 0xCD010000 = true := fits_of_fields [(24, 8), (16, 2), (0, 10)] (by decide) (by decide) ⟨h0, h2, h4, trivial⟩
  refine ⟨by rw [ht]; decide, ?_⟩
  replace hm := (congrArg BitVec.toNat hm).trans (rfl : _ = 13)
  simp only [wordRow, wordVector, hm]
  rw [if_pos hf, h1, h3]
  rfl
theorem log2 : ∀ a b, Statement (.log2 a b) := by
  intro a b w h
  obtain ⟨x, hx⟩ : ∃ x : BitVec 32, 0xCD#8 ++ a ++ 0x1#2 ++ b ++ 0x1#10 = x := ⟨_, rfl⟩
  obtain rfl : Code.wide x = w := (congrArg Code.wide hx.symm).trans (Option.some.inj h)
  obtain ⟨h0, h1, h2, h3, h4, ht, hm, hl2, hl8⟩ := layout_8_6_2_6_10 hx
  have hf : fits x 0xFF0303FF 0xCD010001 = true := fits_of_fields [(24, 8), (16, 2), (0, 10)] (by decide) (by decide) ⟨h0, h2, h4, trivial⟩
  refine ⟨by rw [ht]; decide, ?_⟩
  replace hm := (congrArg BitVec.toNat hm).trans (rfl : _ = 13)
  simp only [wordRow, wordVector, hm]
  rw [if_neg (fits_low hl2 (by decide) (by decide)), if_pos hf, h1, h3]
  rfl
theorem rcp : ∀ a b, Statement (.rcp a b) := by
  intro a b w h
  obtain ⟨x, hx⟩ : ∃ x : BitVec 32, 0xCD#8 ++ a ++ 0x1#2 ++ b ++ 0x2#10 = x := ⟨_, rfl⟩
  obtain rfl : Code.wide x = w := (congrArg Code.wide hx.symm).trans (Option.some.inj h)
  obtain ⟨h0, h1, h2, h3, h4, ht, hm, hl2, hl8⟩ := layout_8_6_2_6_10 hx
  have hf : fits x 0xFF0303FF 0xCD010002 = true := fits_of_fields [(24, 8), (16, 2), (0, 10)] (by decide) (by decide) ⟨h0, h2, h4, trivial⟩
  refine ⟨by rw [ht]; decide, ?_⟩
  replace hm := (congrArg BitVec.toNat hm).trans (rfl : _ = 13)
  simp only [wordRow, wordVector, hm]
  rw [if_neg (fits_low hl2 (by decide) (by decide)), if_neg (fits_low hl2 (by decide) (by decide)), if_pos hf, h1, h3]
  rfl
theorem tanh : ∀ a b, Statement (.tanh a b) := by
  intro a b w h
  obtain ⟨x, hx⟩ : ∃ x : BitVec 32, 0xCD#8 ++ a ++ 0x1#2 ++ b ++ 0x3#10 = x := ⟨_, rfl⟩
  obtain rfl : Code.wide x = w := (congrArg Code.wide hx.symm).trans (Option.some.inj h)
  obtain ⟨h0, h1, h2, h3, h4, ht, hm, hl2, hl8⟩ := layout_8_6_2_6_10 hx
  have hf : fits x 0xFF0303FF 0xCD010003 = true := fits_of_fields [(24, 8), (16, 2), (0, 10)] (by decide) (by decide) ⟨h0, h2, h4, trivial⟩
  refine ⟨by rw [ht]; decide, ?_⟩
  replace hm := (congrArg BitVec.toNat hm).trans (rfl : _ = 13)
  simp only [wordRow, wordVector, hm]
  rw [if_neg (fits_low hl2 (by decide) (by decide)), if_neg (fits_low hl2 (by decide) (by decide)), if_neg (fits_low hl2 (by decide) (by decide)), if_pos hf, h1, h3]
  rfl
theorem qand : ∀ a b c, Statement (.qand a b c) := by
  intro a b c w h
  obtain ⟨x, hx⟩ : ∃ x : BitVec 32, 0xCE#8 ++ a ++ 0x0#2 ++ b ++ 0x0#2 ++ c ++ 0x0#2 = x := ⟨_, rfl⟩
  obtain rfl : Code.wide x = w := (congrArg Code.wide hx.symm).trans (Option.some.inj h)
  obtain ⟨h0, h1, h2, h3, h4, h5, h6, ht, hm, hl2⟩ := layout_8_6_2_6_2_6_2 hx
  have hf : fits x 0xFF030303 0xCE000000 = true := fits_of_fields [(24, 8), (16, 2), (8, 2), (0, 2)] (by decide) (by decide) ⟨h0, h2, h4, h6, trivial⟩
  refine ⟨by rw [ht]; decide, ?_⟩
  replace hm := (congrArg BitVec.toNat hm).trans (rfl : _ = 14)
  simp only [wordRow, wordVector, hm]
  rw [if_pos hf, h1, h3, h5]
  rfl
theorem qor : ∀ a b c, Statement (.qor a b c) := by
  intro a b c w h
  obtain ⟨x, hx⟩ : ∃ x : BitVec 32, 0xCE#8 ++ a ++ 0x0#2 ++ b ++ 0x0#2 ++ c ++ 0x1#2 = x := ⟨_, rfl⟩
  obtain rfl : Code.wide x = w := (congrArg Code.wide hx.symm).trans (Option.some.inj h)
  obtain ⟨h0, h1, h2, h3, h4, h5, h6, ht, hm, hl2⟩ := layout_8_6_2_6_2_6_2 hx
  have hf : fits x 0xFF030303 0xCE000001 = true := fits_of_fields [(24, 8), (16, 2), (8, 2), (0, 2)] (by decide) (by decide) ⟨h0, h2, h4, h6, trivial⟩
  refine ⟨by rw [ht]; decide, ?_⟩
  replace hm := (congrArg BitVec.toNat hm).trans (rfl : _ = 14)
  simp only [wordRow, wordVector, hm]
  rw [if_neg (fits_low hl2 (by decide) (by decide)), if_pos hf, h1, h3, h5]
  rfl
theorem qandn : ∀ a b c, Statement (.qandn a b c) := by
  intro a b c w h
  obtain ⟨x, hx⟩ : ∃ x : BitVec 32, 0xCE#8 ++ a ++ 0x0#2 ++ b ++ 0x0#2 ++ c ++ 0x2#2 = x := ⟨_, rfl⟩
  obtain rfl : Code.wide x = w := (congrArg Code.wide hx.symm).trans (Option.some.inj h)
  obtain ⟨h0, h1, h2, h3, h4, h5, h6, ht, hm, hl2⟩ := layout_8_6_2_6_2_6_2 hx
  have hf : fits x 0xFF030303 0xCE000002 = true := fits_of_fields [(24, 8), (16, 2), (8, 2), (0, 2)] (by decide) (by decide) ⟨h0, h2, h4, h6, trivial⟩
  refine ⟨by rw [ht]; decide, ?_⟩
  replace hm := (congrArg BitVec.toNat hm).trans (rfl : _ = 14)
  simp only [wordRow, wordVector, hm]
  rw [if_neg (fits_low hl2 (by decide) (by decide)), if_neg (fits_low hl2 (by decide) (by decide)), if_pos hf, h1, h3, h5]
  rfl
theorem qxor : ∀ a b c, Statement (.qxor a b c) := by
  intro a b c w h
  obtain ⟨x, hx⟩ : ∃ x : BitVec 32, 0xCE#8 ++ a ++ 0x0#2 ++ b ++ 0x0#2 ++ c ++ 0x3#2 = x := ⟨_, rfl⟩
  obtain rfl : Code.wide x = w := (congrArg Code.wide hx.symm).trans (Option.some.inj h)
  obtain ⟨h0, h1, h2, h3, h4, h5, h6, ht, hm, hl2⟩ := layout_8_6_2_6_2_6_2 hx
  have hf : fits x 0xFF030303 0xCE000003 = true := fits_of_fields [(24, 8), (16, 2), (8, 2), (0, 2)] (by decide) (by decide) ⟨h0, h2, h4, h6, trivial⟩
  refine ⟨by rw [ht]; decide, ?_⟩
  replace hm := (congrArg BitVec.toNat hm).trans (rfl : _ = 14)
  simp only [wordRow, wordVector, hm]
  rw [if_neg (fits_low hl2 (by decide) (by decide)), if_neg (fits_low hl2 (by decide) (by decide)), if_neg (fits_low hl2 (by decide) (by decide)), if_pos hf, h1, h3, h5]
  rfl
theorem qcnt : ∀ a b, Statement (.qcnt a b) := by
  intro a b w h
  obtain ⟨x, hx⟩ : ∃ x : BitVec 32, 0xCF#8 ++ a ++ 0x0#2 ++ b ++ 0x0#10 = x := ⟨_, rfl⟩
  obtain rfl : Code.wide x = w := (congrArg Code.wide hx.symm).trans (Option.some.inj h)
  obtain ⟨h0, h1, h2, h3, h4, ht, hm, hl2, hl8⟩ := layout_8_6_2_6_10 hx
  have hf : fits x 0xFF0303FF 0xCF000000 = true := fits_of_fields [(24, 8), (16, 2), (0, 10)] (by decide) (by decide) ⟨h0, h2, h4, trivial⟩
  refine ⟨by rw [ht]; decide, ?_⟩
  replace hm := (congrArg BitVec.toNat hm).trans (rfl : _ = 15)
  simp only [wordRow, wordVector, hm]
  rw [if_pos hf, h1, h3]
  rfl
theorem qidx : ∀ a b c, Statement (.qidx a b c) := by
  intro a b c w h
  obtain ⟨x, hx⟩ : ∃ x : BitVec 32, 0xCF#8 ++ a ++ 0x0#2 ++ b ++ 0x0#2 ++ c ++ 0x1#2 = x := ⟨_, rfl⟩
  obtain rfl : Code.wide x = w := (congrArg Code.wide hx.symm).trans (Option.some.inj h)
  obtain ⟨h0, h1, h2, h3, h4, h5, h6, ht, hm, hl2⟩ := layout_8_6_2_6_2_6_2 hx
  have hf : fits x 0xFF030303 0xCF000001 = true := fits_of_fields [(24, 8), (16, 2), (8, 2), (0, 2)] (by decide) (by decide) ⟨h0, h2, h4, h6, trivial⟩
  refine ⟨by rw [ht]; decide, ?_⟩
  replace hm := (congrArg BitVec.toNat hm).trans (rfl : _ = 15)
  simp only [wordRow, wordVector, hm]
  rw [if_neg (fits_low hl2 (by decide) (by decide)), if_pos hf, h1, h3, h5]
  rfl
theorem qmark : ∀ a b, Statement (.qmark a b) := by
  intro a b w h
  obtain ⟨x, hx⟩ : ∃ x : BitVec 32, 0xCF#8 ++ a ++ 0x1#2 ++ b ++ 0x2#10 = x := ⟨_, rfl⟩
  obtain rfl : Code.wide x = w := (congrArg Code.wide hx.symm).trans (Option.some.inj h)
  obtain ⟨h0, h1, h2, h3, h4, ht, hm, hl2, hl8⟩ := layout_8_6_2_6_10 hx
  have hf : fits x 0xFF0303FF 0xCF010002 = true := fits_of_fields [(24, 8), (16, 2), (0, 10)] (by decide) (by decide) ⟨h0, h2, h4, trivial⟩
  refine ⟨by rw [ht]; decide, ?_⟩
  replace hm := (congrArg BitVec.toNat hm).trans (rfl : _ = 15)
  simp only [wordRow, wordVector, hm]
  rw [if_neg (fits_low hl2 (by decide) (by decide)), if_neg (fits_low hl2 (by decide) (by decide)), if_pos hf, h1, h3]
  rfl
theorem qclr : ∀ a b, Statement (.qclr a b) := by
  intro a b w h
  obtain ⟨x, hx⟩ : ∃ x : BitVec 32, 0xCF#8 ++ a ++ 0x1#2 ++ b ++ 0x3#10 = x := ⟨_, rfl⟩
  obtain rfl : Code.wide x = w := (congrArg Code.wide hx.symm).trans (Option.some.inj h)
  obtain ⟨h0, h1, h2, h3, h4, ht, hm, hl2, hl8⟩ := layout_8_6_2_6_10 hx
  have hf : fits x 0xFF0303FF 0xCF010003 = true := fits_of_fields [(24, 8), (16, 2), (0, 10)] (by decide) (by decide) ⟨h0, h2, h4, trivial⟩
  refine ⟨by rw [ht]; decide, ?_⟩
  replace hm := (congrArg BitVec.toNat hm).trans (rfl : _ = 15)
  simp only [wordRow, wordVector, hm]
  rw [if_neg (fits_low hl2 (by decide) (by decide)), if_neg (fits_low hl2 (by decide) (by decide)), if_neg (fits_low hl2 (by decide) (by decide)), if_pos hf, h1, h3]
  rfl
theorem vgth : ∀ a b c, Statement (.vgth a b c) := by
  intro a b c w h
  obtain ⟨x, hx⟩ : ∃ x : BitVec 32, 0xD0#8 ++ a ++ 0x0#2 ++ b ++ 0x1#2 ++ c ++ 0x0#2 = x := ⟨_, rfl⟩
  obtain rfl : Code.wide x = w := (congrArg Code.wide hx.symm).trans (Option.some.inj h)
  obtain ⟨h0, h1, h2, h3, h4, h5, h6, ht, hm, hl2⟩ := layout_8_6_2_6_2_6_2 hx
  have hf : fits x 0xFF030303 0xD0000100 = true := fits_of_fields [(24, 8), (16, 2), (8, 2), (0, 2)] (by decide) (by decide) ⟨h0, h2, h4, h6, trivial⟩
  refine ⟨by rw [ht]; decide, ?_⟩
  replace hm := (congrArg BitVec.toNat hm).trans (rfl : _ = 16)
  simp only [wordRow, wordVector, hm]
  rw [if_pos hf, h1, h3, h5]
  rfl
theorem vsct : ∀ a b c, Statement (.vsct a b c) := by
  intro a b c w h
  obtain ⟨x, hx⟩ : ∃ x : BitVec 32, 0xD0#8 ++ a ++ 0x0#2 ++ b ++ 0x1#2 ++ c ++ 0x1#2 = x := ⟨_, rfl⟩
  obtain rfl : Code.wide x = w := (congrArg Code.wide hx.symm).trans (Option.some.inj h)
  obtain ⟨h0, h1, h2, h3, h4, h5, h6, ht, hm, hl2⟩ := layout_8_6_2_6_2_6_2 hx
  have hf : fits x 0xFF030303 0xD0000101 = true := fits_of_fields [(24, 8), (16, 2), (8, 2), (0, 2)] (by decide) (by decide) ⟨h0, h2, h4, h6, trivial⟩
  refine ⟨by rw [ht]; decide, ?_⟩
  replace hm := (congrArg BitVec.toNat hm).trans (rfl : _ = 16)
  simp only [wordRow, wordVector, hm]
  rw [if_neg (fits_low hl2 (by decide) (by decide)), if_pos hf, h1, h3, h5]
  rfl
theorem addi : ∀ a b c, Statement (.addi a b c) := by
  intro a b c w h
  obtain ⟨x, hx⟩ : ∃ x : BitVec 32, 0xD1#8 ++ a ++ b ++ c = x := ⟨_, rfl⟩
  obtain rfl : Code.wide x = w := (congrArg Code.wide hx.symm).trans (Option.some.inj h)
  obtain ⟨h0, h1, h2, h3, ht, hm, hl2, hl8⟩ := layout_8_6_6_12 hx
  have hf : fits x 0xFF000000 0xD1000000 = true := fits_of_fields [(24, 8)] (by decide) (by decide) ⟨h0, trivial⟩
  refine ⟨by rw [ht]; decide, ?_⟩
  replace hm := (congrArg BitVec.toNat hm).trans (rfl : _ = 17)
  simp only [wordRow, wordSimple, hm]
  rw [if_pos hf, h1, h2, h3]
  rfl
theorem addiG16 : ∀ a b, Statement (.addiG16 a b) := by
  intro a b w h
  obtain ⟨x, hx⟩ : ∃ x : BitVec 16, 0x3#5 ++ a ++ b = x := ⟨_, rfl⟩
  obtain rfl : Code.short x = w := (congrArg Code.short hx.symm).trans (Option.some.inj h)
  obtain ⟨h0, h1, h2, ht, hm⟩ := layout_5_5_6 hx
  refine ⟨by rw [ht]; decide, ?_⟩
  replace hm := (congrArg BitVec.toNat hm).trans (rfl : _ = 3)
  simp only [halfRow, hm]
  rw [h1, h2]
theorem andi : ∀ a b c, Statement (.andi a b c) := by
  intro a b c w h
  obtain ⟨x, hx⟩ : ∃ x : BitVec 32, 0xD2#8 ++ a ++ b ++ c = x := ⟨_, rfl⟩
  obtain rfl : Code.wide x = w := (congrArg Code.wide hx.symm).trans (Option.some.inj h)
  obtain ⟨h0, h1, h2, h3, ht, hm, hl2, hl8⟩ := layout_8_6_6_12 hx
  have hf : fits x 0xFF000000 0xD2000000 = true := fits_of_fields [(24, 8)] (by decide) (by decide) ⟨h0, trivial⟩
  refine ⟨by rw [ht]; decide, ?_⟩
  replace hm := (congrArg BitVec.toNat hm).trans (rfl : _ = 18)
  simp only [wordRow, wordSimple, hm]
  rw [if_pos hf, h1, h2, h3]
  rfl
theorem lit : ∀ a b, Statement (.lit a b) := by
  intro a b w h
  obtain ⟨x, hx⟩ : ∃ x : BitVec 32, 0xD3#8 ++ a ++ b = x := ⟨_, rfl⟩
  obtain rfl : Code.wide x = w := (congrArg Code.wide hx.symm).trans (Option.some.inj h)
  obtain ⟨h0, h1, h2, ht, hm, hl2, hl8⟩ := layout_8_6_18 hx
  have hf : fits x 0xFF000000 0xD3000000 = true := fits_of_fields [(24, 8)] (by decide) (by decide) ⟨h0, trivial⟩
  refine ⟨by rw [ht]; decide, ?_⟩
  replace hm := (congrArg BitVec.toNat hm).trans (rfl : _ = 19)
  simp only [wordRow, wordSimple, hm]
  rw [if_pos hf, h1, h2]
  rfl
theorem litG16 : ∀ a b, Statement (.litG16 a b) := by
  intro a b w h
  obtain ⟨x, hx⟩ : ∃ x : BitVec 16, 0x4#5 ++ a ++ b = x := ⟨_, rfl⟩
  obtain rfl : Code.short x = w := (congrArg Code.short hx.symm).trans (Option.some.inj h)
  obtain ⟨h0, h1, h2, ht, hm⟩ := layout_5_5_6 hx
  refine ⟨by rw [ht]; decide, ?_⟩
  replace hm := (congrArg BitVec.toNat hm).trans (rfl : _ = 4)
  simp only [halfRow, hm]
  rw [h1, h2]
theorem lith : ∀ a b, Statement (.lith a b) := by
  intro a b w h
  obtain ⟨x, hx⟩ : ∃ x : BitVec 32, 0xD4#8 ++ a ++ b = x := ⟨_, rfl⟩
  obtain rfl : Code.wide x = w := (congrArg Code.wide hx.symm).trans (Option.some.inj h)
  obtain ⟨h0, h1, h2, ht, hm, hl2, hl8⟩ := layout_8_6_18 hx
  have hf : fits x 0xFF000000 0xD4000000 = true := fits_of_fields [(24, 8)] (by decide) (by decide) ⟨h0, trivial⟩
  refine ⟨by rw [ht]; decide, ?_⟩
  replace hm := (congrArg BitVec.toNat hm).trans (rfl : _ = 20)
  simp only [wordRow, wordSimple, hm]
  rw [if_pos hf, h1, h2]
  rfl
theorem ld : ∀ a b c d, Statement (.ld a b c d) := by
  intro a b c d w h
  obtain ⟨x, hx⟩ : ∃ x : BitVec 32, 0xD5#8 ++ a ++ b ++ c ++ d = x := ⟨_, rfl⟩
  obtain rfl : Code.wide x = w := (congrArg Code.wide hx.symm).trans (Option.some.inj h)
  obtain ⟨h0, h1, h2, h3, h4, ht, hm, hl2⟩ := layout_8_6_6_5_7 hx
  have hf : fits x 0xFF000000 0xD5000000 = true := fits_of_fields [(24, 8)] (by decide) (by decide) ⟨h0, trivial⟩
  refine ⟨by rw [ht]; decide, ?_⟩
  replace hm := (congrArg BitVec.toNat hm).trans (rfl : _ = 21)
  simp only [wordRow, wordSimple, hm]
  rw [if_pos hf, h1, h2, h3, h4]
  rfl
theorem ldG16 : ∀ a b, Statement (.ldG16 a b) := by
  intro a b w h
  obtain ⟨x, hx⟩ : ∃ x : BitVec 16, 0xA#5 ++ a ++ b = x := ⟨_, rfl⟩
  obtain rfl : Code.short x = w := (congrArg Code.short hx.symm).trans (Option.some.inj h)
  obtain ⟨h0, h1, h2, ht, hm⟩ := layout_5_5_6 hx
  refine ⟨by rw [ht]; decide, ?_⟩
  replace hm := (congrArg BitVec.toNat hm).trans (rfl : _ = 10)
  simp only [halfRow, hm]
  rw [h1, h2]
theorem st : ∀ a b c d, Statement (.st a b c d) := by
  intro a b c d w h
  obtain ⟨x, hx⟩ : ∃ x : BitVec 32, 0xD6#8 ++ a ++ b ++ c ++ d = x := ⟨_, rfl⟩
  obtain rfl : Code.wide x = w := (congrArg Code.wide hx.symm).trans (Option.some.inj h)
  obtain ⟨h0, h1, h2, h3, h4, ht, hm, hl2⟩ := layout_8_6_6_5_7 hx
  have hf : fits x 0xFF000000 0xD6000000 = true := fits_of_fields [(24, 8)] (by decide) (by decide) ⟨h0, trivial⟩
  refine ⟨by rw [ht]; decide, ?_⟩
  replace hm := (congrArg BitVec.toNat hm).trans (rfl : _ = 22)
  simp only [wordRow, wordSimple, hm]
  rw [if_pos hf, h1, h2, h3, h4]
  rfl
theorem stG16 : ∀ a b, Statement (.stG16 a b) := by
  intro a b w h
  obtain ⟨x, hx⟩ : ∃ x : BitVec 16, 0xB#5 ++ a ++ b = x := ⟨_, rfl⟩
  obtain rfl : Code.short x = w := (congrArg Code.short hx.symm).trans (Option.some.inj h)
  obtain ⟨h0, h1, h2, ht, hm⟩ := layout_5_5_6 hx
  refine ⟨by rw [ht]; decide, ?_⟩
  replace hm := (congrArg BitVec.toNat hm).trans (rfl : _ = 11)
  simp only [halfRow, hm]
  rw [h1, h2]
theorem vld : ∀ a b c d, Statement (.vld a b c d) := by
  intro a b c d w h
  obtain ⟨x, hx⟩ : ∃ x : BitVec 32, 0xD7#8 ++ a ++ b ++ c ++ d = x := ⟨_, rfl⟩
  obtain rfl : Code.wide x = w := (congrArg Code.wide hx.symm).trans (Option.some.inj h)
  obtain ⟨h0, h1, h2, h3, h4, ht, hm, hl2⟩ := layout_8_6_6_5_7 hx
  have hf : fits x 0xFF000000 0xD7000000 = true := fits_of_fields [(24, 8)] (by decide) (by decide) ⟨h0, trivial⟩
  refine ⟨by rw [ht]; decide, ?_⟩
  replace hm := (congrArg BitVec.toNat hm).trans (rfl : _ = 23)
  simp only [wordRow, wordSimple, hm]
  rw [if_pos hf, h1, h2, h3, h4]
  rfl
theorem vst : ∀ a b c d, Statement (.vst a b c d) := by
  intro a b c d w h
  obtain ⟨x, hx⟩ : ∃ x : BitVec 32, 0xD8#8 ++ a ++ b ++ c ++ d = x := ⟨_, rfl⟩
  obtain rfl : Code.wide x = w := (congrArg Code.wide hx.symm).trans (Option.some.inj h)
  obtain ⟨h0, h1, h2, h3, h4, ht, hm, hl2⟩ := layout_8_6_6_5_7 hx
  have hf : fits x 0xFF000000 0xD8000000 = true := fits_of_fields [(24, 8)] (by decide) (by decide) ⟨h0, trivial⟩
  refine ⟨by rw [ht]; decide, ?_⟩
  replace hm := (congrArg BitVec.toNat hm).trans (rfl : _ = 24)
  simp only [wordRow, wordSimple, hm]
  rw [if_pos hf, h1, h2, h3, h4]
  rfl
theorem aadd : ∀ a b c d e, Statement (.aadd a b c d e) := by
  intro a b c d e w h
  obtain ⟨x, hx⟩ : ∃ x : BitVec 32, 0xD9#8 ++ a ++ b ++ c ++ d ++ e = x := ⟨_, rfl⟩
  obtain rfl : Code.wide x = w := (congrArg Code.wide hx.symm).trans (Option.some.inj h)
  obtain ⟨h0, h1, h2, h3, h4, h5, ht, hm, hl2⟩ := layout_8_6_6_6_4_2 hx
  have hf : fits x 0xFF000000 0xD9000000 = true := fits_of_fields [(24, 8)] (by decide) (by decide) ⟨h0, trivial⟩
  refine ⟨by rw [ht]; decide, ?_⟩
  replace hm := (congrArg BitVec.toNat hm).trans (rfl : _ = 25)
  simp only [wordRow, wordSimple, hm]
  rw [if_pos hf, h1, h2, h3, h4, h5]
  rfl
theorem aand : ∀ a b c d e, Statement (.aand a b c d e) := by
  intro a b c d e w h
  obtain ⟨x, hx⟩ : ∃ x : BitVec 32, 0xDA#8 ++ a ++ b ++ c ++ d ++ e = x := ⟨_, rfl⟩
  obtain rfl : Code.wide x = w := (congrArg Code.wide hx.symm).trans (Option.some.inj h)
  obtain ⟨h0, h1, h2, h3, h4, h5, ht, hm, hl2⟩ := layout_8_6_6_6_4_2 hx
  have hf : fits x 0xFF000000 0xDA000000 = true := fits_of_fields [(24, 8)] (by decide) (by decide) ⟨h0, trivial⟩
  refine ⟨by rw [ht]; decide, ?_⟩
  replace hm := (congrArg BitVec.toNat hm).trans (rfl : _ = 26)
  simp only [wordRow, wordSimple, hm]
  rw [if_pos hf, h1, h2, h3, h4, h5]
  rfl
theorem aor : ∀ a b c d e, Statement (.aor a b c d e) := by
  intro a b c d e w h
  obtain ⟨x, hx⟩ : ∃ x : BitVec 32, 0xDB#8 ++ a ++ b ++ c ++ d ++ e = x := ⟨_, rfl⟩
  obtain rfl : Code.wide x = w := (congrArg Code.wide hx.symm).trans (Option.some.inj h)
  obtain ⟨h0, h1, h2, h3, h4, h5, ht, hm, hl2⟩ := layout_8_6_6_6_4_2 hx
  have hf : fits x 0xFF000000 0xDB000000 = true := fits_of_fields [(24, 8)] (by decide) (by decide) ⟨h0, trivial⟩
  refine ⟨by rw [ht]; decide, ?_⟩
  replace hm := (congrArg BitVec.toNat hm).trans (rfl : _ = 27)
  simp only [wordRow, wordSimple, hm]
  rw [if_pos hf, h1, h2, h3, h4, h5]
  rfl
theorem axor : ∀ a b c d e, Statement (.axor a b c d e) := by
  intro a b c d e w h
  obtain ⟨x, hx⟩ : ∃ x : BitVec 32, 0xDC#8 ++ a ++ b ++ c ++ d ++ e = x := ⟨_, rfl⟩
  obtain rfl : Code.wide x = w := (congrArg Code.wide hx.symm).trans (Option.some.inj h)
  obtain ⟨h0, h1, h2, h3, h4, h5, ht, hm, hl2⟩ := layout_8_6_6_6_4_2 hx
  have hf : fits x 0xFF000000 0xDC000000 = true := fits_of_fields [(24, 8)] (by decide) (by decide) ⟨h0, trivial⟩
  refine ⟨by rw [ht]; decide, ?_⟩
  replace hm := (congrArg BitVec.toNat hm).trans (rfl : _ = 28)
  simp only [wordRow, wordSimple, hm]
  rw [if_pos hf, h1, h2, h3, h4, h5]
  rfl
theorem amin : ∀ a b c d e, Statement (.amin a b c d e) := by
  intro a b c d e w h
  obtain ⟨x, hx⟩ : ∃ x : BitVec 32, 0xDD#8 ++ a ++ b ++ c ++ d ++ e = x := ⟨_, rfl⟩
  obtain rfl : Code.wide x = w := (congrArg Code.wide hx.symm).trans (Option.some.inj h)
  obtain ⟨h0, h1, h2, h3, h4, h5, ht, hm, hl2⟩ := layout_8_6_6_6_4_2 hx
  have hf : fits x 0xFF000000 0xDD000000 = true := fits_of_fields [(24, 8)] (by decide) (by decide) ⟨h0, trivial⟩
  refine ⟨by rw [ht]; decide, ?_⟩
  replace hm := (congrArg BitVec.toNat hm).trans (rfl : _ = 29)
  simp only [wordRow, wordSimple, hm]
  rw [if_pos hf, h1, h2, h3, h4, h5]
  rfl
theorem amax : ∀ a b c d e, Statement (.amax a b c d e) := by
  intro a b c d e w h
  obtain ⟨x, hx⟩ : ∃ x : BitVec 32, 0xDE#8 ++ a ++ b ++ c ++ d ++ e = x := ⟨_, rfl⟩
  obtain rfl : Code.wide x = w := (congrArg Code.wide hx.symm).trans (Option.some.inj h)
  obtain ⟨h0, h1, h2, h3, h4, h5, ht, hm, hl2⟩ := layout_8_6_6_6_4_2 hx
  have hf : fits x 0xFF000000 0xDE000000 = true := fits_of_fields [(24, 8)] (by decide) (by decide) ⟨h0, trivial⟩
  refine ⟨by rw [ht]; decide, ?_⟩
  replace hm := (congrArg BitVec.toNat hm).trans (rfl : _ = 30)
  simp only [wordRow, wordSimple, hm]
  rw [if_pos hf, h1, h2, h3, h4, h5]
  rfl
theorem axch : ∀ a b c d e, Statement (.axch a b c d e) := by
  intro a b c d e w h
  obtain ⟨x, hx⟩ : ∃ x : BitVec 32, 0xDF#8 ++ a ++ b ++ c ++ d ++ e = x := ⟨_, rfl⟩
  obtain rfl : Code.wide x = w := (congrArg Code.wide hx.symm).trans (Option.some.inj h)
  obtain ⟨h0, h1, h2, h3, h4, h5, ht, hm, hl2⟩ := layout_8_6_6_6_4_2 hx
  have hf : fits x 0xFF000000 0xDF000000 = true := fits_of_fields [(24, 8)] (by decide) (by decide) ⟨h0, trivial⟩
  refine ⟨by rw [ht]; decide, ?_⟩
  replace hm := (congrArg BitVec.toNat hm).trans (rfl : _ = 31)
  simp only [wordRow, wordSimple, hm]
  rw [if_pos hf, h1, h2, h3, h4, h5]
  rfl
theorem acas : ∀ a b c d e, Statement (.acas a b c d e) := by
  intro a b c d e w h
  obtain ⟨x, hx⟩ : ∃ x : BitVec 32, 0xE0#8 ++ a ++ b ++ c ++ d ++ e = x := ⟨_, rfl⟩
  obtain rfl : Code.wide x = w := (congrArg Code.wide hx.symm).trans (Option.some.inj h)
  obtain ⟨h0, h1, h2, h3, h4, h5, ht, hm, hl2⟩ := layout_8_6_6_6_4_2 hx
  have hf : fits x 0xFF000000 0xE0000000 = true := fits_of_fields [(24, 8)] (by decide) (by decide) ⟨h0, trivial⟩
  refine ⟨by rw [ht]; decide, ?_⟩
  replace hm := (congrArg BitVec.toNat hm).trans (rfl : _ = 32)
  simp only [wordRow, wordSimple, hm]
  rw [if_pos hf, h1, h2, h3, h4, h5]
  rfl
theorem afadd : ∀ a b c d e, Statement (.afadd a b c d e) := by
  intro a b c d e w h
  obtain ⟨x, hx⟩ : ∃ x : BitVec 32, 0xE1#8 ++ a ++ b ++ c ++ d ++ e = x := ⟨_, rfl⟩
  obtain rfl : Code.wide x = w := (congrArg Code.wide hx.symm).trans (Option.some.inj h)
  obtain ⟨h0, h1, h2, h3, h4, h5, ht, hm, hl2⟩ := layout_8_6_6_6_4_2 hx
  have hf : fits x 0xFF000000 0xE1000000 = true := fits_of_fields [(24, 8)] (by decide) (by decide) ⟨h0, trivial⟩
  refine ⟨by rw [ht]; decide, ?_⟩
  replace hm := (congrArg BitVec.toNat hm).trans (rfl : _ = 33)
  simp only [wordRow, wordSimple, hm]
  rw [if_pos hf, h1, h2, h3, h4, h5]
  rfl
theorem avadd : ∀ a b c d, Statement (.avadd a b c d) := by
  intro a b c d w h
  obtain ⟨x, hx⟩ : ∃ x : BitVec 32, 0x3880#14 ++ a ++ b ++ c ++ d = x := ⟨_, rfl⟩
  obtain rfl : Code.wide x = w := (congrArg Code.wide hx.symm).trans (Option.some.inj h)
  obtain ⟨h0, h1, h2, h3, h4, ht, hm, hl2⟩ := layout_14_6_6_4_2 hx
  have hf : fits x 0xFFFC0000 0xE2000000 = true := fits_of_fields [(18, 14)] (by decide) (by decide) ⟨h0, trivial⟩
  refine ⟨by rw [ht]; decide, ?_⟩
  replace hm := (congrArg BitVec.toNat hm).trans (rfl : _ = 34)
  simp only [wordRow, wordSimple, hm]
  rw [if_pos hf, h1, h2, h3, h4]
  rfl
theorem ldaq : ∀ a b c d, Statement (.ldaq a b c d) := by
  intro a b c d w h
  obtain ⟨x, hx⟩ : ∃ x : BitVec 32, 0xE3#8 ++ a ++ b ++ 0x0#6 ++ c ++ d = x := ⟨_, rfl⟩
  obtain rfl : Code.wide x = w := (congrArg Code.wide hx.symm).trans (Option.some.inj h)
  obtain ⟨h0, h1, h2, h3, h4, h5, ht, hm, hl2⟩ := layout_8_6_6_6_4_2 hx
  have hf : fits x 0xFF000FC0 0xE3000000 = true := fits_of_fields [(24, 8), (6, 6)] (by decide) (by decide) ⟨h0, h3, trivial⟩
  refine ⟨by rw [ht]; decide, ?_⟩
  replace hm := (congrArg BitVec.toNat hm).trans (rfl : _ = 35)
  simp only [wordRow, wordSimple, hm]
  rw [if_pos hf, h1, h2, h4, h5]
  rfl
theorem strl : ∀ a b c d, Statement (.strl a b c d) := by
  intro a b c d w h
  obtain ⟨x, hx⟩ : ∃ x : BitVec 32, 0x3900#14 ++ a ++ b ++ c ++ d = x := ⟨_, rfl⟩
  obtain rfl : Code.wide x = w := (congrArg Code.wide hx.symm).trans (Option.some.inj h)
  obtain ⟨h0, h1, h2, h3, h4, ht, hm, hl2⟩ := layout_14_6_6_4_2 hx
  have hf : fits x 0xFFFC0000 0xE4000000 = true := fits_of_fields [(18, 14)] (by decide) (by decide) ⟨h0, trivial⟩
  refine ⟨by rw [ht]; decide, ?_⟩
  replace hm := (congrArg BitVec.toNat hm).trans (rfl : _ = 36)
  simp only [wordRow, wordSimple, hm]
  rw [if_pos hf, h1, h2, h3, h4]
  rfl
theorem fence : ∀ a b, Statement (.fence a b) := by
  intro a b w h
  obtain ⟨x, hx⟩ : ∃ x : BitVec 32, 0x3940000#26 ++ a ++ b = x := ⟨_, rfl⟩
  obtain rfl : Code.wide x = w := (congrArg Code.wide hx.symm).trans (Option.some.inj h)
  obtain ⟨h0, h1, h2, ht, hm, hl2⟩ := layout_26_4_2 hx
  have hf : fits x 0xFFFFFFC0 0xE5000000 = true := fits_of_fields [(6, 26)] (by decide) (by decide) ⟨h0, trivial⟩
  refine ⟨by rw [ht]; decide, ?_⟩
  replace hm := (congrArg BitVec.toNat hm).trans (rfl : _ = 37)
  simp only [wordRow, wordSimple, hm]
  rw [if_pos hf, h1, h2]
  rfl
theorem waita : ∀ a b c d e, Statement (.waita a b c d e) := by
  intro a b c d e w h
  obtain ⟨x, hx⟩ : ∃ x : BitVec 32, 0xE6#8 ++ a ++ b ++ c ++ d ++ e = x := ⟨_, rfl⟩
  obtain rfl : Code.wide x = w := (congrArg Code.wide hx.symm).trans (Option.some.inj h)
  obtain ⟨h0, h1, h2, h3, h4, h5, ht, hm, hl2⟩ := layout_8_6_6_6_4_2 hx
  have hf : fits x 0xFF000000 0xE6000000 = true := fits_of_fields [(24, 8)] (by decide) (by decide) ⟨h0, trivial⟩
  refine ⟨by rw [ht]; decide, ?_⟩
  replace hm := (congrArg BitVec.toNat hm).trans (rfl : _ = 38)
  simp only [wordRow, wordSimple, hm]
  rw [if_pos hf, h1, h2, h3, h4, h5]
  rfl
theorem bz : ∀ a b, Statement (.bz a b) := by
  intro a b w h
  obtain ⟨x, hx⟩ : ∃ x : BitVec 32, 0xE7#8 ++ a ++ b = x := ⟨_, rfl⟩
  obtain rfl : Code.wide x = w := (congrArg Code.wide hx.symm).trans (Option.some.inj h)
  obtain ⟨h0, h1, h2, ht, hm, hl2, hl8⟩ := layout_8_6_18 hx
  have hf : fits x 0xFF000000 0xE7000000 = true := fits_of_fields [(24, 8)] (by decide) (by decide) ⟨h0, trivial⟩
  refine ⟨by rw [ht]; decide, ?_⟩
  replace hm := (congrArg BitVec.toNat hm).trans (rfl : _ = 39)
  simp only [wordRow, wordSimple, hm]
  rw [if_pos hf, h1, h2]
  rfl
theorem bzG16 : ∀ a b, Statement (.bzG16 a b) := by
  intro a b w h
  obtain ⟨x, hx⟩ : ∃ x : BitVec 16, 0xF#5 ++ a ++ b = x := ⟨_, rfl⟩
  obtain rfl : Code.short x = w := (congrArg Code.short hx.symm).trans (Option.some.inj h)
  obtain ⟨h0, h1, h2, ht, hm⟩ := layout_5_5_6 hx
  refine ⟨by rw [ht]; decide, ?_⟩
  replace hm := (congrArg BitVec.toNat hm).trans (rfl : _ = 15)
  simp only [halfRow, hm]
  rw [h1, h2]
theorem bnz : ∀ a b, Statement (.bnz a b) := by
  intro a b w h
  obtain ⟨x, hx⟩ : ∃ x : BitVec 32, 0xE8#8 ++ a ++ b = x := ⟨_, rfl⟩
  obtain rfl : Code.wide x = w := (congrArg Code.wide hx.symm).trans (Option.some.inj h)
  obtain ⟨h0, h1, h2, ht, hm, hl2, hl8⟩ := layout_8_6_18 hx
  have hf : fits x 0xFF000000 0xE8000000 = true := fits_of_fields [(24, 8)] (by decide) (by decide) ⟨h0, trivial⟩
  refine ⟨by rw [ht]; decide, ?_⟩
  replace hm := (congrArg BitVec.toNat hm).trans (rfl : _ = 40)
  simp only [wordRow, wordSimple, hm]
  rw [if_pos hf, h1, h2]
  rfl
theorem bnzG16 : ∀ a b, Statement (.bnzG16 a b) := by
  intro a b w h
  obtain ⟨x, hx⟩ : ∃ x : BitVec 16, 0x10#5 ++ a ++ b = x := ⟨_, rfl⟩
  obtain rfl : Code.short x = w := (congrArg Code.short hx.symm).trans (Option.some.inj h)
  obtain ⟨h0, h1, h2, ht, hm⟩ := layout_5_5_6 hx
  refine ⟨by rw [ht]; decide, ?_⟩
  replace hm := (congrArg BitVec.toNat hm).trans (rfl : _ = 16)
  simp only [halfRow, hm]
  rw [h1, h2]
theorem bany : ∀ a b, Statement (.bany a b) := by
  intro a b w h
  obtain ⟨x, hx⟩ : ∃ x : BitVec 32, 0xE9#8 ++ a ++ b = x := ⟨_, rfl⟩
  obtain rfl : Code.wide x = w := (congrArg Code.wide hx.symm).trans (Option.some.inj h)
  obtain ⟨h0, h1, h2, ht, hm, hl2, hl8⟩ := layout_8_6_18 hx
  have hf : fits x 0xFF000000 0xE9000000 = true := fits_of_fields [(24, 8)] (by decide) (by decide) ⟨h0, trivial⟩
  refine ⟨by rw [ht]; decide, ?_⟩
  replace hm := (congrArg BitVec.toNat hm).trans (rfl : _ = 41)
  simp only [wordRow, wordSimple, hm]
  rw [if_pos hf, h1, h2]
  rfl
theorem bnone : ∀ a b, Statement (.bnone a b) := by
  intro a b w h
  obtain ⟨x, hx⟩ : ∃ x : BitVec 32, 0xEA#8 ++ a ++ b = x := ⟨_, rfl⟩
  obtain rfl : Code.wide x = w := (congrArg Code.wide hx.symm).trans (Option.some.inj h)
  obtain ⟨h0, h1, h2, ht, hm, hl2, hl8⟩ := layout_8_6_18 hx
  have hf : fits x 0xFF000000 0xEA000000 = true := fits_of_fields [(24, 8)] (by decide) (by decide) ⟨h0, trivial⟩
  refine ⟨by rw [ht]; decide, ?_⟩
  replace hm := (congrArg BitVec.toNat hm).trans (rfl : _ = 42)
  simp only [wordRow, wordSimple, hm]
  rw [if_pos hf, h1, h2]
  rfl
theorem loop : ∀ a b, Statement (.loop a b) := by
  intro a b w h
  obtain ⟨x, hx⟩ : ∃ x : BitVec 32, 0xEB#8 ++ a ++ b = x := ⟨_, rfl⟩
  obtain rfl : Code.wide x = w := (congrArg Code.wide hx.symm).trans (Option.some.inj h)
  obtain ⟨h0, h1, h2, ht, hm, hl2, hl8⟩ := layout_8_6_18 hx
  have hf : fits x 0xFF000000 0xEB000000 = true := fits_of_fields [(24, 8)] (by decide) (by decide) ⟨h0, trivial⟩
  refine ⟨by rw [ht]; decide, ?_⟩
  replace hm := (congrArg BitVec.toNat hm).trans (rfl : _ = 43)
  simp only [wordRow, wordSimple, hm]
  rw [if_pos hf, h1, h2]
  rfl
theorem jtab : ∀ a b, Statement (.jtab a b) := by
  intro a b w h
  obtain ⟨x, hx⟩ : ∃ x : BitVec 32, 0xEC#8 ++ a ++ b = x := ⟨_, rfl⟩
  obtain rfl : Code.wide x = w := (congrArg Code.wide hx.symm).trans (Option.some.inj h)
  obtain ⟨h0, h1, h2, ht, hm, hl2, hl8⟩ := layout_8_6_18 hx
  have hf : fits x 0xFF000000 0xEC000000 = true := fits_of_fields [(24, 8)] (by decide) (by decide) ⟨h0, trivial⟩
  refine ⟨by rw [ht]; decide, ?_⟩
  replace hm := (congrArg BitVec.toNat hm).trans (rfl : _ = 44)
  simp only [wordRow, wordSimple, hm]
  rw [if_pos hf, h1, h2]
  rfl
theorem br : ∀ a, Statement (.br a) := by
  intro a w h
  obtain ⟨x, hx⟩ : ∃ x : BitVec 32, 0xED#8 ++ a = x := ⟨_, rfl⟩
  obtain rfl : Code.wide x = w := (congrArg Code.wide hx.symm).trans (Option.some.inj h)
  obtain ⟨h0, h1, ht, hm, hl2, hl8⟩ := layout_8_24 hx
  have hf : fits x 0xFF000000 0xED000000 = true := fits_of_fields [(24, 8)] (by decide) (by decide) ⟨h0, trivial⟩
  refine ⟨by rw [ht]; decide, ?_⟩
  replace hm := (congrArg BitVec.toNat hm).trans (rfl : _ = 45)
  simp only [wordRow, wordSimple, hm]
  rw [if_pos hf, h1]
  rfl
theorem br16 : ∀ a, Statement (.br16 a) := by
  intro a w h
  obtain ⟨x, hx⟩ : ∃ x : BitVec 16, 0x11#5 ++ a = x := ⟨_, rfl⟩
  obtain rfl : Code.short x = w := (congrArg Code.short hx.symm).trans (Option.some.inj h)
  obtain ⟨h0, h1, ht, hm⟩ := layout_5_11 hx
  refine ⟨by rw [ht]; decide, ?_⟩
  replace hm := (congrArg BitVec.toNat hm).trans (rfl : _ = 17)
  simp only [halfRow, hm]
  rw [h1]
theorem call : ∀ a, Statement (.call a) := by
  intro a w h
  obtain ⟨x, hx⟩ : ∃ x : BitVec 32, 0xEE#8 ++ a = x := ⟨_, rfl⟩
  obtain rfl : Code.wide x = w := (congrArg Code.wide hx.symm).trans (Option.some.inj h)
  obtain ⟨h0, h1, ht, hm, hl2, hl8⟩ := layout_8_24 hx
  have hf : fits x 0xFF000000 0xEE000000 = true := fits_of_fields [(24, 8)] (by decide) (by decide) ⟨h0, trivial⟩
  refine ⟨by rw [ht]; decide, ?_⟩
  replace hm := (congrArg BitVec.toNat hm).trans (rfl : _ = 46)
  simp only [wordRow, wordSimple, hm]
  rw [if_pos hf, h1]
  rfl
theorem jr : ∀ a b, Statement (.jr a b) := by
  intro a b w h
  obtain ⟨x, hx⟩ : ∃ x : BitVec 32, 0xEF#8 ++ a ++ b ++ 0x0#12 = x := ⟨_, rfl⟩
  obtain rfl : Code.wide x = w := (congrArg Code.wide hx.symm).trans (Option.some.inj h)
  obtain ⟨h0, h1, h2, h3, ht, hm, hl2, hl8⟩ := layout_8_6_6_12 hx
  have hf : fits x 0xFF000FFF 0xEF000000 = true := fits_of_fields [(24, 8), (0, 12)] (by decide) (by decide) ⟨h0, h3, trivial⟩
  refine ⟨by rw [ht]; decide, ?_⟩
  replace hm := (congrArg BitVec.toNat hm).trans (rfl : _ = 47)
  simp only [wordRow, wordControl, hm]
  rw [if_pos hf, h1, h2]
  rfl
theorem ret : Statement .ret := by
  intro w h
  obtain rfl := Option.some.inj h
  decide
theorem ret16 : Statement .ret16 := by
  intro w h
  obtain rfl := Option.some.inj h
  decide
theorem leave : Statement .leave := by
  intro w h
  obtain rfl := Option.some.inj h
  decide
theorem trap : ∀ a, Statement (.trap a) := by
  intro a w h
  obtain ⟨x, hx⟩ : ∃ x : BitVec 32, 0x3BC0#14 ++ a ++ 0x3#8 = x := ⟨_, rfl⟩
  obtain rfl : Code.wide x = w := (congrArg Code.wide hx.symm).trans (Option.some.inj h)
  obtain ⟨h0, h1, h2, ht, hm, hl2, hl8⟩ := layout_14_10_8 hx
  have hf : fits x 0xFFFC00FF 0xEF000003 = true := fits_of_fields [(18, 14), (0, 8)] (by decide) (by decide) ⟨h0, h2, trivial⟩
  refine ⟨by rw [ht]; decide, ?_⟩
  replace hm := (congrArg BitVec.toNat hm).trans (rfl : _ = 47)
  simp only [wordRow, wordControl, hm]
  rw [if_neg (fits_low hl2 (by decide) (by decide)), if_neg (fits_low hl2 (by decide) (by decide)), if_neg (fits_low hl2 (by decide) (by decide)), if_pos hf, h1]
  rfl
theorem rett : ∀ a, Statement (.rett a) := by
  intro a w h
  obtain ⟨x, hx⟩ : ∃ x : BitVec 32, 0xEF000#20 ++ a ++ 0x4#8 = x := ⟨_, rfl⟩
  obtain rfl : Code.wide x = w := (congrArg Code.wide hx.symm).trans (Option.some.inj h)
  obtain ⟨h0, h1, h2, ht, hm, hl2, hl8⟩ := layout_20_4_8 hx
  have hf : fits x 0xFFFFF0FF 0xEF000004 = true := fits_of_fields [(12, 20), (0, 8)] (by decide) (by decide) ⟨h0, h2, trivial⟩
  refine ⟨by rw [ht]; decide, ?_⟩
  replace hm := (congrArg BitVec.toNat hm).trans (rfl : _ = 47)
  simp only [wordRow, wordControl, hm]
  rw [if_neg (fits_low hl8 (by decide) (by decide)), if_neg (fits_low hl8 (by decide) (by decide)), if_neg (fits_low hl8 (by decide) (by decide)), if_neg (fits_low hl8 (by decide) (by decide)), if_pos hf, h1]
  rfl
theorem bkpt : ∀ a, Statement (.bkpt a) := by
  intro a w h
  obtain ⟨x, hx⟩ : ∃ x : BitVec 32, 0x3BC0#14 ++ a ++ 0x5#8 = x := ⟨_, rfl⟩
  obtain rfl : Code.wide x = w := (congrArg Code.wide hx.symm).trans (Option.some.inj h)
  obtain ⟨h0, h1, h2, ht, hm, hl2, hl8⟩ := layout_14_10_8 hx
  have hf : fits x 0xFFFC00FF 0xEF000005 = true := fits_of_fields [(18, 14), (0, 8)] (by decide) (by decide) ⟨h0, h2, trivial⟩
  refine ⟨by rw [ht]; decide, ?_⟩
  replace hm := (congrArg BitVec.toNat hm).trans (rfl : _ = 47)
  simp only [wordRow, wordControl, hm]
  rw [if_neg (fits_low hl8 (by decide) (by decide)), if_neg (fits_low hl8 (by decide) (by decide)), if_neg (fits_low hl8 (by decide) (by decide)), if_neg (fits_low hl8 (by decide) (by decide)), if_neg (fits_low hl8 (by decide) (by decide)), if_pos hf, h1]
  rfl
theorem nop : Statement .nop := by
  intro w h
  obtain rfl := Option.some.inj h
  decide
theorem nop16 : Statement .nop16 := by
  intro w h
  obtain rfl := Option.some.inj h
  decide
theorem hstart : ∀ a b, Statement (.hstart a b) := by
  intro a b w h
  obtain ⟨x, hx⟩ : ∃ x : BitVec 32, 0xF0#8 ++ a ++ b ++ 0x0#12 = x := ⟨_, rfl⟩
  obtain rfl : Code.wide x = w := (congrArg Code.wide hx.symm).trans (Option.some.inj h)
  obtain ⟨h0, h1, h2, h3, ht, hm, hl2, hl8⟩ := layout_8_6_6_12 hx
  have hf : fits x 0xFF000FFF 0xF0000000 = true := fits_of_fields [(24, 8), (0, 12)] (by decide) (by decide) ⟨h0, h3, trivial⟩
  refine ⟨by rw [ht]; decide, ?_⟩
  replace hm := (congrArg BitVec.toNat hm).trans (rfl : _ = 48)
  simp only [wordRow, wordControl, hm]
  rw [if_pos hf, h1, h2]
  rfl
theorem hexit : Statement .hexit := by
  intro w h
  obtain rfl := Option.some.inj h
  decide
theorem hexit16 : Statement .hexit16 := by
  intro w h
  obtain rfl := Option.some.inj h
  decide
theorem hwait : ∀ a, Statement (.hwait a) := by
  intro a w h
  obtain ⟨x, hx⟩ : ∃ x : BitVec 32, 0x3C00#14 ++ a ++ 0x2#12 = x := ⟨_, rfl⟩
  obtain rfl : Code.wide x = w := (congrArg Code.wide hx.symm).trans (Option.some.inj h)
  obtain ⟨h0, h1, h2, ht, hm, hl2, hl8⟩ := layout_14_6_12 hx
  have hf : fits x 0xFFFC0FFF 0xF0000002 = true := fits_of_fields [(18, 14), (0, 12)] (by decide) (by decide) ⟨h0, h2, trivial⟩
  refine ⟨by rw [ht]; decide, ?_⟩
  replace hm := (congrArg BitVec.toNat hm).trans (rfl : _ = 48)
  simp only [wordRow, wordControl, hm]
  rw [if_neg (fits_low hl2 (by decide) (by decide)), if_neg (fits_low hl2 (by decide) (by decide)), if_pos hf, h1]
  rfl
theorem live : ∀ a b, Statement (.live a b) := by
  intro a b w h
  obtain ⟨x, hx⟩ : ∃ x : BitVec 32, 0x3C00#14 ++ a ++ b ++ 0x3#8 = x := ⟨_, rfl⟩
  obtain rfl : Code.wide x = w := (congrArg Code.wide hx.symm).trans (Option.some.inj h)
  obtain ⟨h0, h1, h2, h3, ht, hm, hl2, hl8⟩ := layout_14_6_4_8 hx
  have hf : fits x 0xFFFC00FF 0xF0000003 = true := fits_of_fields [(18, 14), (0, 8)] (by decide) (by decide) ⟨h0, h3, trivial⟩
  refine ⟨by rw [ht]; decide, ?_⟩
  replace hm := (congrArg BitVec.toNat hm).trans (rfl : _ = 48)
  simp only [wordRow, wordControl, hm]
  rw [if_neg (fits_low hl2 (by decide) (by decide)), if_neg (fits_low hl2 (by decide) (by decide)), if_neg (fits_low hl2 (by decide) (by decide)), if_pos hf, h1, h2]
  rfl
theorem gang : ∀ a, Statement (.gang a) := by
  intro a w h
  obtain ⟨x, hx⟩ : ∃ x : BitVec 32, 0x3C00#14 ++ a ++ 0x4#12 = x := ⟨_, rfl⟩
  obtain rfl : Code.wide x = w := (congrArg Code.wide hx.symm).trans (Option.some.inj h)
  obtain ⟨h0, h1, h2, ht, hm, hl2, hl8⟩ := layout_14_6_12 hx
  have hf : fits x 0xFFFC0FFF 0xF0000004 = true := fits_of_fields [(18, 14), (0, 12)] (by decide) (by decide) ⟨h0, h2, trivial⟩
  refine ⟨by rw [ht]; decide, ?_⟩
  replace hm := (congrArg BitVec.toNat hm).trans (rfl : _ = 48)
  simp only [wordRow, wordControl, hm]
  rw [if_neg (fits_low hl8 (by decide) (by decide)), if_neg (fits_low hl8 (by decide) (by decide)), if_neg (fits_low hl8 (by decide) (by decide)), if_neg (fits_low hl8 (by decide) (by decide)), if_pos hf, h1]
  rfl
theorem ungang : Statement .ungang := by
  intro w h
  obtain rfl := Option.some.inj h
  decide
theorem mfs : ∀ a b, Statement (.mfs a b) := by
  intro a b w h
  obtain ⟨x, hx⟩ : ∃ x : BitVec 32, 0xF0#8 ++ a ++ b ++ 0x6#8 = x := ⟨_, rfl⟩
  obtain rfl : Code.wide x = w := (congrArg Code.wide hx.symm).trans (Option.some.inj h)
  obtain ⟨h0, h1, h2, h3, ht, hm, hl2, hl8⟩ := layout_8_6_10_8 hx
  have hf : fits x 0xFF0000FF 0xF0000006 = true := fits_of_fields [(24, 8), (0, 8)] (by decide) (by decide) ⟨h0, h3, trivial⟩
  refine ⟨by rw [ht]; decide, ?_⟩
  replace hm := (congrArg BitVec.toNat hm).trans (rfl : _ = 48)
  simp only [wordRow, wordControl, hm]
  rw [if_neg (fits_low hl8 (by decide) (by decide)), if_neg (fits_low hl8 (by decide) (by decide)), if_neg (fits_low hl8 (by decide) (by decide)), if_neg (fits_low hl8 (by decide) (by decide)), if_neg (fits_low hl8 (by decide) (by decide)), if_neg (fits_low hl8 (by decide) (by decide)), if_pos hf, h1, h2]
  rfl
theorem mts : ∀ a b, Statement (.mts a b) := by
  intro a b w h
  obtain ⟨x, hx⟩ : ∃ x : BitVec 32, 0xF0#8 ++ a ++ b ++ 0x7#8 = x := ⟨_, rfl⟩
  obtain rfl : Code.wide x = w := (congrArg Code.wide hx.symm).trans (Option.some.inj h)
  obtain ⟨h0, h1, h2, h3, ht, hm, hl2, hl8⟩ := layout_8_6_10_8 hx
  have hf : fits x 0xFF0000FF 0xF0000007 = true := fits_of_fields [(24, 8), (0, 8)] (by decide) (by decide) ⟨h0, h3, trivial⟩
  refine ⟨by rw [ht]; decide, ?_⟩
  replace hm := (congrArg BitVec.toNat hm).trans (rfl : _ = 48)
  simp only [wordRow, wordControl, hm]
  rw [if_neg (fits_low hl8 (by decide) (by decide)), if_neg (fits_low hl8 (by decide) (by decide)), if_neg (fits_low hl8 (by decide) (by decide)), if_neg (fits_low hl8 (by decide) (by decide)), if_neg (fits_low hl8 (by decide) (by decide)), if_neg (fits_low hl8 (by decide) (by decide)), if_neg (fits_low hl8 (by decide) (by decide)), if_pos hf, h1, h2]
  rfl
theorem chkerr : ∀ a, Statement (.chkerr a) := by
  intro a w h
  obtain ⟨x, hx⟩ : ∃ x : BitVec 32, 0xF0#8 ++ a ++ 0x8#18 = x := ⟨_, rfl⟩
  obtain rfl : Code.wide x = w := (congrArg Code.wide hx.symm).trans (Option.some.inj h)
  obtain ⟨h0, h1, h2, ht, hm, hl2, hl8⟩ := layout_8_6_18 hx
  have hf : fits x 0xFF03FFFF 0xF0000008 = true := fits_of_fields [(24, 8), (0, 18)] (by decide) (by decide) ⟨h0, h2, trivial⟩
  refine ⟨by rw [ht]; decide, ?_⟩
  replace hm := (congrArg BitVec.toNat hm).trans (rfl : _ = 48)
  simp only [wordRow, wordControl, hm]
  rw [if_neg (fits_low hl8 (by decide) (by decide)), if_neg (fits_low hl8 (by decide) (by decide)), if_neg (fits_low hl8 (by decide) (by decide)), if_neg (fits_low hl8 (by decide) (by decide)), if_neg (fits_low hl8 (by decide) (by decide)), if_neg (fits_low hl8 (by decide) (by decide)), if_neg (fits_low hl8 (by decide) (by decide)), if_neg (fits_low hl8 (by decide) (by decide)), if_pos hf, h1]
  rfl
theorem tnext : ∀ a, Statement (.tnext a) := by
  intro a w h
  obtain ⟨x, hx⟩ : ∃ x : BitVec 32, 0xF0#8 ++ a ++ 0x9#18 = x := ⟨_, rfl⟩
  obtain rfl : Code.wide x = w := (congrArg Code.wide hx.symm).trans (Option.some.inj h)
  obtain ⟨h0, h1, h2, ht, hm, hl2, hl8⟩ := layout_8_6_18 hx
  have hf : fits x 0xFF03FFFF 0xF0000009 = true := fits_of_fields [(24, 8), (0, 18)] (by decide) (by decide) ⟨h0, h2, trivial⟩
  refine ⟨by rw [ht]; decide, ?_⟩
  replace hm := (congrArg BitVec.toNat hm).trans (rfl : _ = 48)
  simp only [wordRow, wordControl, hm]
  rw [if_neg (fits_low hl8 (by decide) (by decide)), if_neg (fits_low hl8 (by decide) (by decide)), if_neg (fits_low hl8 (by decide) (by decide)), if_neg (fits_low hl8 (by decide) (by decide)), if_neg (fits_low hl8 (by decide) (by decide)), if_neg (fits_low hl8 (by decide) (by decide)), if_neg (fits_low hl8 (by decide) (by decide)), if_neg (fits_low hl8 (by decide) (by decide)), if_neg (fits_low hl8 (by decide) (by decide)), if_pos hf, h1]
  rfl
theorem tend : ∀ a, Statement (.tend a) := by
  intro a w h
  obtain ⟨x, hx⟩ : ∃ x : BitVec 32, 0xF0#8 ++ a ++ 0xA#18 = x := ⟨_, rfl⟩
  obtain rfl : Code.wide x = w := (congrArg Code.wide hx.symm).trans (Option.some.inj h)
  obtain ⟨h0, h1, h2, ht, hm, hl2, hl8⟩ := layout_8_6_18 hx
  have hf : fits x 0xFF03FFFF 0xF000000A = true := fits_of_fields [(24, 8), (0, 18)] (by decide) (by decide) ⟨h0, h2, trivial⟩
  refine ⟨by rw [ht]; decide, ?_⟩
  replace hm := (congrArg BitVec.toNat hm).trans (rfl : _ = 48)
  simp only [wordRow, wordControl, hm]
  rw [if_neg (fits_low hl8 (by decide) (by decide)), if_neg (fits_low hl8 (by decide) (by decide)), if_neg (fits_low hl8 (by decide) (by decide)), if_neg (fits_low hl8 (by decide) (by decide)), if_neg (fits_low hl8 (by decide) (by decide)), if_neg (fits_low hl8 (by decide) (by decide)), if_neg (fits_low hl8 (by decide) (by decide)), if_neg (fits_low hl8 (by decide) (by decide)), if_neg (fits_low hl8 (by decide) (by decide)), if_neg (fits_low hl8 (by decide) (by decide)), if_pos hf, h1]
  rfl
theorem tend16 : ∀ a, Statement (.tend16 a) := by
  intro a w h
  obtain ⟨x, hx⟩ : ∃ x : BitVec 16, 0x17#5 ++ a ++ 0x0#6 = x := ⟨_, rfl⟩
  obtain rfl : Code.short x = w := (congrArg Code.short hx.symm).trans (Option.some.inj h)
  obtain ⟨h0, h1, h2, ht, hm⟩ := layout_5_5_6 hx
  have hf : fits x 0xF83F 0xB800 = true := fits_of_fields [(11, 5), (0, 6)] (by decide) (by decide) ⟨h0, h2, trivial⟩
  refine ⟨by rw [ht]; decide, ?_⟩
  replace hm := (congrArg BitVec.toNat hm).trans (rfl : _ = 23)
  simp only [halfRow, hm]
  rw [if_pos hf, h1]
theorem pair : Statement .pair := by
  intro w h
  obtain rfl := Option.some.inj h
  decide
theorem unpair : Statement .unpair := by
  intro w h
  obtain rfl := Option.some.inj h
  decide
theorem extl : ∀ a b, Statement (.extl a b) := by
  intro a b w h
  obtain ⟨x, hx⟩ : ∃ x : BitVec 32, 0x3C00#14 ++ a ++ b ++ 0xD#8 = x := ⟨_, rfl⟩
  obtain rfl : Code.wide x = w := (congrArg Code.wide hx.symm).trans (Option.some.inj h)
  obtain ⟨h0, h1, h2, h3, ht, hm, hl2, hl8⟩ := layout_14_6_4_8 hx
  have hf : fits x 0xFFFC00FF 0xF000000D = true := fits_of_fields [(18, 14), (0, 8)] (by decide) (by decide) ⟨h0, h3, trivial⟩
  refine ⟨by rw [ht]; decide, ?_⟩
  replace hm := (congrArg BitVec.toNat hm).trans (rfl : _ = 48)
  simp only [wordRow, wordControl, hm]
  rw [if_neg (fits_low hl8 (by decide) (by decide)), if_neg (fits_low hl8 (by decide) (by decide)), if_neg (fits_low hl8 (by decide) (by decide)), if_neg (fits_low hl8 (by decide) (by decide)), if_neg (fits_low hl8 (by decide) (by decide)), if_neg (fits_low hl8 (by decide) (by decide)), if_neg (fits_low hl8 (by decide) (by decide)), if_neg (fits_low hl8 (by decide) (by decide)), if_neg (fits_low hl8 (by decide) (by decide)), if_neg (fits_low hl8 (by decide) (by decide)), if_neg (fits_low hl8 (by decide) (by decide)), if_neg (fits_low hl8 (by decide) (by decide)), if_neg (fits_low hl8 (by decide) (by decide)), if_pos hf, h1, h2]
  rfl
theorem extr : ∀ a b, Statement (.extr a b) := by
  intro a b w h
  obtain ⟨x, hx⟩ : ∃ x : BitVec 32, 0xF0#8 ++ a ++ 0x0#6 ++ b ++ 0xE#8 = x := ⟨_, rfl⟩
  obtain rfl : Code.wide x = w := (congrArg Code.wide hx.symm).trans (Option.some.inj h)
  obtain ⟨h0, h1, h2, h3, h4, ht, hm, hl2, hl8⟩ := layout_8_6_6_4_8 hx
  have hf : fits x 0xFF03F0FF 0xF000000E = true := fits_of_fields [(24, 8), (12, 6), (0, 8)] (by decide) (by decide) ⟨h0, h2, h4, trivial⟩
  refine ⟨by rw [ht]; decide, ?_⟩
  replace hm := (congrArg BitVec.toNat hm).trans (rfl : _ = 48)
  simp only [wordRow, wordControl, hm]
  rw [if_neg (fits_low hl8 (by decide) (by decide)), if_neg (fits_low hl8 (by decide) (by decide)), if_neg (fits_low hl8 (by decide) (by decide)), if_neg (fits_low hl8 (by decide) (by decide)), if_neg (fits_low hl8 (by decide) (by decide)), if_neg (fits_low hl8 (by decide) (by decide)), if_neg (fits_low hl8 (by decide) (by decide)), if_neg (fits_low hl8 (by decide) (by decide)), if_neg (fits_low hl8 (by decide) (by decide)), if_neg (fits_low hl8 (by decide) (by decide)), if_neg (fits_low hl8 (by decide) (by decide)), if_neg (fits_low hl8 (by decide) (by decide)), if_neg (fits_low hl8 (by decide) (by decide)), if_neg (fits_low hl8 (by decide) (by decide)), if_pos hf, h1, h3]
  rfl
theorem halloc : ∀ a b c, Statement (.halloc a b c) := by
  intro a b c w h
  obtain ⟨x, hx⟩ : ∃ x : BitVec 32, 0xF0#8 ++ a ++ b ++ c ++ 0xF#8 = x := ⟨_, rfl⟩
  obtain rfl : Code.wide x = w := (congrArg Code.wide hx.symm).trans (Option.some.inj h)
  obtain ⟨h0, h1, h2, h3, h4, ht, hm, hl2, hl8⟩ := layout_8_6_6_4_8 hx
  have hf : fits x 0xFF0000FF 0xF000000F = true := fits_of_fields [(24, 8), (0, 8)] (by decide) (by decide) ⟨h0, h4, trivial⟩
  refine ⟨by rw [ht]; decide, ?_⟩
  replace hm := (congrArg BitVec.toNat hm).trans (rfl : _ = 48)
  simp only [wordRow, wordControl, hm]
  rw [if_neg (fits_low hl8 (by decide) (by decide)), if_neg (fits_low hl8 (by decide) (by decide)), if_neg (fits_low hl8 (by decide) (by decide)), if_neg (fits_low hl8 (by decide) (by decide)), if_neg (fits_low hl8 (by decide) (by decide)), if_neg (fits_low hl8 (by decide) (by decide)), if_neg (fits_low hl8 (by decide) (by decide)), if_neg (fits_low hl8 (by decide) (by decide)), if_neg (fits_low hl8 (by decide) (by decide)), if_neg (fits_low hl8 (by decide) (by decide)), if_neg (fits_low hl8 (by decide) (by decide)), if_neg (fits_low hl8 (by decide) (by decide)), if_neg (fits_low hl8 (by decide) (by decide)), if_neg (fits_low hl8 (by decide) (by decide)), if_neg (fits_low hl8 (by decide) (by decide)), if_pos hf, h1, h2, h3]
  rfl
theorem hfree : ∀ a, Statement (.hfree a) := by
  intro a w h
  obtain ⟨x, hx⟩ : ∃ x : BitVec 32, 0x3C00#14 ++ a ++ 0x10#12 = x := ⟨_, rfl⟩
  obtain rfl : Code.wide x = w := (congrArg Code.wide hx.symm).trans (Option.some.inj h)
  obtain ⟨h0, h1, h2, ht, hm, hl2, hl8⟩ := layout_14_6_12 hx
  have hf : fits x 0xFFFC0FFF 0xF0000010 = true := fits_of_fields [(18, 14), (0, 12)] (by decide) (by decide) ⟨h0, h2, trivial⟩
  refine ⟨by rw [ht]; decide, ?_⟩
  replace hm := (congrArg BitVec.toNat hm).trans (rfl : _ = 48)
  simp only [wordRow, wordControl, hm]
  rw [if_neg (fits_low hl8 (by decide) (by decide)), if_neg (fits_low hl8 (by decide) (by decide)), if_neg (fits_low hl8 (by decide) (by decide)), if_neg (fits_low hl8 (by decide) (by decide)), if_neg (fits_low hl8 (by decide) (by decide)), if_neg (fits_low hl8 (by decide) (by decide)), if_neg (fits_low hl8 (by decide) (by decide)), if_neg (fits_low hl8 (by decide) (by decide)), if_neg (fits_low hl8 (by decide) (by decide)), if_neg (fits_low hl8 (by decide) (by decide)), if_neg (fits_low hl8 (by decide) (by decide)), if_neg (fits_low hl8 (by decide) (by decide)), if_neg (fits_low hl8 (by decide) (by decide)), if_neg (fits_low hl8 (by decide) (by decide)), if_neg (fits_low hl8 (by decide) (by decide)), if_neg (fits_low hl8 (by decide) (by decide)), if_pos hf, h1]
  rfl
theorem msend : ∀ a b, Statement (.msend a b) := by
  intro a b w h
  obtain ⟨x, hx⟩ : ∃ x : BitVec 32, 0xF1#8 ++ a ++ b ++ 0x0#12 = x := ⟨_, rfl⟩
  obtain rfl : Code.wide x = w := (congrArg Code.wide hx.symm).trans (Option.some.inj h)
  obtain ⟨h0, h1, h2, h3, ht, hm, hl2, hl8⟩ := layout_8_6_6_12 hx
  have hf : fits x 0xFF000FFF 0xF1000000 = true := fits_of_fields [(24, 8), (0, 12)] (by decide) (by decide) ⟨h0, h3, trivial⟩
  refine ⟨by rw [ht]; decide, ?_⟩
  replace hm := (congrArg BitVec.toNat hm).trans (rfl : _ = 49)
  simp only [wordRow, wordUnits, hm]
  rw [if_pos hf, h1, h2]
  rfl
theorem mwait : Statement .mwait := by
  intro w h
  obtain rfl := Option.some.inj h
  decide
theorem mwait16 : Statement .mwait16 := by
  intro w h
  obtain rfl := Option.some.inj h
  decide
theorem mtake : ∀ a, Statement (.mtake a) := by
  intro a w h
  obtain ⟨x, hx⟩ : ∃ x : BitVec 32, 0xF1#8 ++ a ++ 0x2#18 = x := ⟨_, rfl⟩
  obtain rfl : Code.wide x = w := (congrArg Code.wide hx.symm).trans (Option.some.inj h)
  obtain ⟨h0, h1, h2, ht, hm, hl2, hl8⟩ := layout_8_6_18 hx
  have hf : fits x 0xFF03FFFF 0xF1000002 = true := fits_of_fields [(24, 8), (0, 18)] (by decide) (by decide) ⟨h0, h2, trivial⟩
  refine ⟨by rw [ht]; decide, ?_⟩
  replace hm := (congrArg BitVec.toNat hm).trans (rfl : _ = 49)
  simp only [wordRow, wordUnits, hm]
  rw [if_neg (fits_low hl2 (by decide) (by decide)), if_neg (fits_low hl2 (by decide) (by decide)), if_pos hf, h1]
  rfl
theorem mtake16 : ∀ a, Statement (.mtake16 a) := by
  intro a w h
  obtain ⟨x, hx⟩ : ∃ x : BitVec 16, 0x16#5 ++ a ++ 0x0#6 = x := ⟨_, rfl⟩
  obtain rfl : Code.short x = w := (congrArg Code.short hx.symm).trans (Option.some.inj h)
  obtain ⟨h0, h1, h2, ht, hm⟩ := layout_5_5_6 hx
  have hf : fits x 0xF83F 0xB000 = true := fits_of_fields [(11, 5), (0, 6)] (by decide) (by decide) ⟨h0, h2, trivial⟩
  refine ⟨by rw [ht]; decide, ?_⟩
  replace hm := (congrArg BitVec.toNat hm).trans (rfl : _ = 22)
  simp only [halfRow, hm]
  rw [if_pos hf, h1]
theorem cpyset : ∀ a b, Statement (.cpyset a b) := by
  intro a b w h
  obtain ⟨x, hx⟩ : ∃ x : BitVec 32, 0x3C40#14 ++ a ++ b ++ 0x3#8 = x := ⟨_, rfl⟩
  obtain rfl : Code.wide x = w := (congrArg Code.wide hx.symm).trans (Option.some.inj h)
  obtain ⟨h0, h1, h2, h3, ht, hm, hl2, hl8⟩ := layout_14_6_4_8 hx
  have hf : fits x 0xFFFC00FF 0xF1000003 = true := fits_of_fields [(18, 14), (0, 8)] (by decide) (by decide) ⟨h0, h3, trivial⟩
  refine ⟨by rw [ht]; decide, ?_⟩
  replace hm := (congrArg BitVec.toNat hm).trans (rfl : _ = 49)
  simp only [wordRow, wordUnits, hm]
  rw [if_neg (fits_low hl2 (by decide) (by decide)), if_neg (fits_low hl2 (by decide) (by decide)), if_neg (fits_low hl2 (by decide) (by decide)), if_pos hf, h1, h2]
  rfl
theorem cpygo : ∀ a, Statement (.cpygo a) := by
  intro a w h
  obtain ⟨x, hx⟩ : ∃ x : BitVec 32, 0xF1#8 ++ a ++ 0x4#18 = x := ⟨_, rfl⟩
  obtain rfl : Code.wide x = w := (congrArg Code.wide hx.symm).trans (Option.some.inj h)
  obtain ⟨h0, h1, h2, ht, hm, hl2, hl8⟩ := layout_8_6_18 hx
  have hf : fits x 0xFF03FFFF 0xF1000004 = true := fits_of_fields [(24, 8), (0, 18)] (by decide) (by decide) ⟨h0, h2, trivial⟩
  refine ⟨by rw [ht]; decide, ?_⟩
  replace hm := (congrArg BitVec.toNat hm).trans (rfl : _ = 49)
  simp only [wordRow, wordUnits, hm]
  rw [if_neg (fits_low hl8 (by decide) (by decide)), if_neg (fits_low hl8 (by decide) (by decide)), if_neg (fits_low hl8 (by decide) (by decide)), if_neg (fits_low hl8 (by decide) (by decide)), if_pos hf, h1]
  rfl
theorem cpyst : ∀ a b, Statement (.cpyst a b) := by
  intro a b w h
  obtain ⟨x, hx⟩ : ∃ x : BitVec 32, 0xF1#8 ++ a ++ b ++ 0x5#12 = x := ⟨_, rfl⟩
  obtain rfl : Code.wide x = w := (congrArg Code.wide hx.symm).trans (Option.some.inj h)
  obtain ⟨h0, h1, h2, h3, ht, hm, hl2, hl8⟩ := layout_8_6_6_12 hx
  have hf : fits x 0xFF000FFF 0xF1000005 = true := fits_of_fields [(24, 8), (0, 12)] (by decide) (by decide) ⟨h0, h3, trivial⟩
  refine ⟨by rw [ht]; decide, ?_⟩
  replace hm := (congrArg BitVec.toNat hm).trans (rfl : _ = 49)
  simp only [wordRow, wordUnits, hm]
  rw [if_neg (fits_low hl8 (by decide) (by decide)), if_neg (fits_low hl8 (by decide) (by decide)), if_neg (fits_low hl8 (by decide) (by decide)), if_neg (fits_low hl8 (by decide) (by decide)), if_neg (fits_low hl8 (by decide) (by decide)), if_pos hf, h1, h2]
  rfl
theorem eqf : ∀ a, Statement (.eqf a) := by
  intro a w h
  obtain ⟨x, hx⟩ : ∃ x : BitVec 32, 0x3C40#14 ++ a ++ 0x6#12 = x := ⟨_, rfl⟩
  obtain rfl : Code.wide x = w := (congrArg Code.wide hx.symm).trans (Option.some.inj h)
  obtain ⟨h0, h1, h2, ht, hm, hl2, hl8⟩ := layout_14_6_12 hx
  have hf : fits x 0xFFFC0FFF 0xF1000006 = true := fits_of_fields [(18, 14), (0, 12)] (by decide) (by decide) ⟨h0, h2, trivial⟩
  refine ⟨by rw [ht]; decide, ?_⟩
  replace hm := (congrArg BitVec.toNat hm).trans (rfl : _ = 49)
  simp only [wordRow, wordUnits, hm]
  rw [if_neg (fits_low hl8 (by decide) (by decide)), if_neg (fits_low hl8 (by decide) (by decide)), if_neg (fits_low hl8 (by decide) (by decide)), if_neg (fits_low hl8 (by decide) (by decide)), if_neg (fits_low hl8 (by decide) (by decide)), if_neg (fits_low hl8 (by decide) (by decide)), if_pos hf, h1]
  rfl
theorem cbinit : ∀ a b c, Statement (.cbinit a b c) := by
  intro a b c w h
  obtain ⟨x, hx⟩ : ∃ x : BitVec 32, 0xF1#8 ++ a ++ b ++ c ++ 0x7#8 = x := ⟨_, rfl⟩
  obtain rfl : Code.wide x = w := (congrArg Code.wide hx.symm).trans (Option.some.inj h)
  obtain ⟨h0, h1, h2, h3, h4, ht, hm, hl2, hl8⟩ := layout_8_6_6_4_8 hx
  have hf : fits x 0xFF0000FF 0xF1000007 = true := fits_of_fields [(24, 8), (0, 8)] (by decide) (by decide) ⟨h0, h4, trivial⟩
  refine ⟨by rw [ht]; decide, ?_⟩
  replace hm := (congrArg BitVec.toNat hm).trans (rfl : _ = 49)
  simp only [wordRow, wordUnits, hm]
  rw [if_neg (fits_low hl8 (by decide) (by decide)), if_neg (fits_low hl8 (by decide) (by decide)), if_neg (fits_low hl8 (by decide) (by decide)), if_neg (fits_low hl8 (by decide) (by decide)), if_neg (fits_low hl8 (by decide) (by decide)), if_neg (fits_low hl8 (by decide) (by decide)), if_neg (fits_low hl8 (by decide) (by decide)), if_pos hf, h1, h2, h3]
  rfl
theorem cbacq : ∀ a b, Statement (.cbacq a b) := by
  intro a b w h
  obtain ⟨x, hx⟩ : ∃ x : BitVec 32, 0xF1#8 ++ a ++ 0x0#6 ++ b ++ 0x8#8 = x := ⟨_, rfl⟩
  obtain rfl : Code.wide x = w := (congrArg Code.wide hx.symm).trans (Option.some.inj h)
  obtain ⟨h0, h1, h2, h3, h4, ht, hm, hl2, hl8⟩ := layout_8_6_6_4_8 hx
  have hf : fits x 0xFF03F0FF 0xF1000008 = true := fits_of_fields [(24, 8), (12, 6), (0, 8)] (by decide) (by decide) ⟨h0, h2, h4, trivial⟩
  refine ⟨by rw [ht]; decide, ?_⟩
  replace hm := (congrArg BitVec.toNat hm).trans (rfl : _ = 49)
  simp only [wordRow, wordUnits, hm]
  rw [if_neg (fits_low hl8 (by decide) (by decide)), if_neg (fits_low hl8 (by decide) (by decide)), if_neg (fits_low hl8 (by decide) (by decide)), if_neg (fits_low hl8 (by decide) (by decide)), if_neg (fits_low hl8 (by decide) (by decide)), if_neg (fits_low hl8 (by decide) (by decide)), if_neg (fits_low hl8 (by decide) (by decide)), if_neg (fits_low hl8 (by decide) (by decide)), if_pos hf, h1, h3]
  rfl
theorem cbcom : ∀ a, Statement (.cbcom a) := by
  intro a w h
  obtain ⟨x, hx⟩ : ∃ x : BitVec 32, 0xF1000#20 ++ a ++ 0x9#8 = x := ⟨_, rfl⟩
  obtain rfl : Code.wide x = w := (congrArg Code.wide hx.symm).trans (Option.some.inj h)
  obtain ⟨h0, h1, h2, ht, hm, hl2, hl8⟩ := layout_20_4_8 hx
  have hf : fits x 0xFFFFF0FF 0xF1000009 = true := fits_of_fields [(12, 20), (0, 8)] (by decide) (by decide) ⟨h0, h2, trivial⟩
  refine ⟨by rw [ht]; decide, ?_⟩
  replace hm := (congrArg BitVec.toNat hm).trans (rfl : _ = 49)
  simp only [wordRow, wordUnits, hm]
  rw [if_neg (fits_low hl8 (by decide) (by decide)), if_neg (fits_low hl8 (by decide) (by decide)), if_neg (fits_low hl8 (by decide) (by decide)), if_neg (fits_low hl8 (by decide) (by decide)), if_neg (fits_low hl8 (by decide) (by decide)), if_neg (fits_low hl8 (by decide) (by decide)), if_neg (fits_low hl8 (by decide) (by decide)), if_neg (fits_low hl8 (by decide) (by decide)), if_neg (fits_low hl8 (by decide) (by decide)), if_pos hf, h1]
  rfl
theorem cbwait : ∀ a b, Statement (.cbwait a b) := by
  intro a b w h
  obtain ⟨x, hx⟩ : ∃ x : BitVec 32, 0xF1#8 ++ a ++ 0x0#6 ++ b ++ 0xA#8 = x := ⟨_, rfl⟩
  obtain rfl : Code.wide x = w := (congrArg Code.wide hx.symm).trans (Option.some.inj h)
  obtain ⟨h0, h1, h2, h3, h4, ht, hm, hl2, hl8⟩ := layout_8_6_6_4_8 hx
  have hf : fits x 0xFF03F0FF 0xF100000A = true := fits_of_fields [(24, 8), (12, 6), (0, 8)] (by decide) (by decide) ⟨h0, h2, h4, trivial⟩
  refine ⟨by rw [ht]; decide, ?_⟩
  replace hm := (congrArg BitVec.toNat hm).trans (rfl : _ = 49)
  simp only [wordRow, wordUnits, hm]
  rw [if_neg (fits_low hl8 (by decide) (by decide)), if_neg (fits_low hl8 (by decide) (by decide)), if_neg (fits_low hl8 (by decide) (by decide)), if_neg (fits_low hl8 (by decide) (by decide)), if_neg (fits_low hl8 (by decide) (by decide)), if_neg (fits_low hl8 (by decide) (by decide)), if_neg (fits_low hl8 (by decide) (by decide)), if_neg (fits_low hl8 (by decide) (by decide)), if_neg (fits_low hl8 (by decide) (by decide)), if_neg (fits_low hl8 (by decide) (by decide)), if_pos hf, h1, h3]
  rfl
theorem cbrel : ∀ a, Statement (.cbrel a) := by
  intro a w h
  obtain ⟨x, hx⟩ : ∃ x : BitVec 32, 0xF1000#20 ++ a ++ 0xB#8 = x := ⟨_, rfl⟩
  obtain rfl : Code.wide x = w := (congrArg Code.wide hx.symm).trans (Option.some.inj h)
  obtain ⟨h0, h1, h2, ht, hm, hl2, hl8⟩ := layout_20_4_8 hx
  have hf : fits x 0xFFFFF0FF 0xF100000B = true := fits_of_fields [(12, 20), (0, 8)] (by decide) (by decide) ⟨h0, h2, trivial⟩
  refine ⟨by rw [ht]; decide, ?_⟩
  replace hm := (congrArg BitVec.toNat hm).trans (rfl : _ = 49)
  simp only [wordRow, wordUnits, hm]
  rw [if_neg (fits_low hl8 (by decide) (by decide)), if_neg (fits_low hl8 (by decide) (by decide)), if_neg (fits_low hl8 (by decide) (by decide)), if_neg (fits_low hl8 (by decide) (by decide)), if_neg (fits_low hl8 (by decide) (by decide)), if_neg (fits_low hl8 (by decide) (by decide)), if_neg (fits_low hl8 (by decide) (by decide)), if_neg (fits_low hl8 (by decide) (by decide)), if_neg (fits_low hl8 (by decide) (by decide)), if_neg (fits_low hl8 (by decide) (by decide)), if_neg (fits_low hl8 (by decide) (by decide)), if_pos hf, h1]
  rfl
theorem mma : ∀ a b c, Statement (.mma a b c) := by
  intro a b c w h
  obtain ⟨x, hx⟩ : ∃ x : BitVec 32, 0xF2#8 ++ a ++ b ++ c ++ 0x0#8 = x := ⟨_, rfl⟩
  obtain rfl : Code.wide x = w := (congrArg Code.wide hx.symm).trans (Option.some.inj h)
  obtain ⟨h0, h1, h2, h3, h4, ht, hm, hl2, hl8⟩ := layout_8_6_6_4_8 hx
  have hf : fits x 0xFF0000FF 0xF2000000 = true := fits_of_fields [(24, 8), (0, 8)] (by decide) (by decide) ⟨h0, h4, trivial⟩
  refine ⟨by rw [ht]; decide, ?_⟩
  replace hm := (congrArg BitVec.toNat hm).trans (rfl : _ = 50)
  simp only [wordRow, wordUnits, hm]
  rw [if_pos hf, h1, h2, h3]
  rfl
theorem mmag : ∀ a b c, Statement (.mmag a b c) := by
  intro a b c w h
  obtain ⟨x, hx⟩ : ∃ x : BitVec 32, 0xF2#8 ++ a ++ b ++ c ++ 0x1#8 = x := ⟨_, rfl⟩
  obtain rfl : Code.wide x = w := (congrArg Code.wide hx.symm).trans (Option.some.inj h)
  obtain ⟨h0, h1, h2, h3, h4, ht, hm, hl2, hl8⟩ := layout_8_6_6_4_8 hx
  have hf : fits x 0xFF0000FF 0xF2000001 = true := fits_of_fields [(24, 8), (0, 8)] (by decide) (by decide) ⟨h0, h4, trivial⟩
  refine ⟨by rw [ht]; decide, ?_⟩
  replace hm := (congrArg BitVec.toNat hm).trans (rfl : _ = 50)
  simp only [wordRow, wordUnits, hm]
  rw [if_neg (fits_low hl2 (by decide) (by decide)), if_pos hf, h1, h2, h3]
  rfl
theorem mcommit : ∀ a, Statement (.mcommit a) := by
  intro a w h
  obtain ⟨x, hx⟩ : ∃ x : BitVec 32, 0xF2#8 ++ a ++ 0x2#18 = x := ⟨_, rfl⟩
  obtain rfl : Code.wide x = w := (congrArg Code.wide hx.symm).trans (Option.some.inj h)
  obtain ⟨h0, h1, h2, ht, hm, hl2, hl8⟩ := layout_8_6_18 hx
  have hf : fits x 0xFF03FFFF 0xF2000002 = true := fits_of_fields [(24, 8), (0, 18)] (by decide) (by decide) ⟨h0, h2, trivial⟩
  refine ⟨by rw [ht]; decide, ?_⟩
  replace hm := (congrArg BitVec.toNat hm).trans (rfl : _ = 50)
  simp only [wordRow, wordUnits, hm]
  rw [if_neg (fits_low hl2 (by decide) (by decide)), if_neg (fits_low hl2 (by decide) (by decide)), if_pos hf, h1]
  rfl
theorem mwaitb : ∀ a, Statement (.mwaitb a) := by
  intro a w h
  obtain ⟨x, hx⟩ : ∃ x : BitVec 32, 0xF2000#20 ++ a ++ 0x3#8 = x := ⟨_, rfl⟩
  obtain rfl : Code.wide x = w := (congrArg Code.wide hx.symm).trans (Option.some.inj h)
  obtain ⟨h0, h1, h2, ht, hm, hl2, hl8⟩ := layout_20_4_8 hx
  have hf : fits x 0xFFFFF0FF 0xF2000003 = true := fits_of_fields [(12, 20), (0, 8)] (by decide) (by decide) ⟨h0, h2, trivial⟩
  refine ⟨by rw [ht]; decide, ?_⟩
  replace hm := (congrArg BitVec.toNat hm).trans (rfl : _ = 50)
  simp only [wordRow, wordUnits, hm]
  rw [if_neg (fits_low hl2 (by decide) (by decide)), if_neg (fits_low hl2 (by decide) (by decide)), if_neg (fits_low hl2 (by decide) (by decide)), if_pos hf, h1]
  rfl
theorem tld : ∀ a b, Statement (.tld a b) := by
  intro a b w h
  obtain ⟨x, hx⟩ : ∃ x : BitVec 32, 0xF2#8 ++ a ++ b ++ 0x4#12 = x := ⟨_, rfl⟩
  obtain rfl : Code.wide x = w := (congrArg Code.wide hx.symm).trans (Option.some.inj h)
  obtain ⟨h0, h1, h2, h3, ht, hm, hl2, hl8⟩ := layout_8_6_6_12 hx
  have hf : fits x 0xFF000FFF 0xF2000004 = true := fits_of_fields [(24, 8), (0, 12)] (by decide) (by decide) ⟨h0, h3, trivial⟩
  refine ⟨by rw [ht]; decide, ?_⟩
  replace hm := (congrArg BitVec.toNat hm).trans (rfl : _ = 50)
  simp only [wordRow, wordUnits, hm]
  rw [if_neg (fits_low hl8 (by decide) (by decide)), if_neg (fits_low hl8 (by decide) (by decide)), if_neg (fits_low hl8 (by decide) (by decide)), if_neg (fits_low hl8 (by decide) (by decide)), if_pos hf, h1, h2]
  rfl
theorem tldt : ∀ a b, Statement (.tldt a b) := by
  intro a b w h
  obtain ⟨x, hx⟩ : ∃ x : BitVec 32, 0xF2#8 ++ a ++ b ++ 0x5#12 = x := ⟨_, rfl⟩
  obtain rfl : Code.wide x = w := (congrArg Code.wide hx.symm).trans (Option.some.inj h)
  obtain ⟨h0, h1, h2, h3, ht, hm, hl2, hl8⟩ := layout_8_6_6_12 hx
  have hf : fits x 0xFF000FFF 0xF2000005 = true := fits_of_fields [(24, 8), (0, 12)] (by decide) (by decide) ⟨h0, h3, trivial⟩
  refine ⟨by rw [ht]; decide, ?_⟩
  replace hm := (congrArg BitVec.toNat hm).trans (rfl : _ = 50)
  simp only [wordRow, wordUnits, hm]
  rw [if_neg (fits_low hl8 (by decide) (by decide)), if_neg (fits_low hl8 (by decide) (by decide)), if_neg (fits_low hl8 (by decide) (by decide)), if_neg (fits_low hl8 (by decide) (by decide)), if_neg (fits_low hl8 (by decide) (by decide)), if_pos hf, h1, h2]
  rfl
theorem tst : ∀ a b, Statement (.tst a b) := by
  intro a b w h
  obtain ⟨x, hx⟩ : ∃ x : BitVec 32, 0xF2#8 ++ a ++ b ++ 0x6#12 = x := ⟨_, rfl⟩
  obtain rfl : Code.wide x = w := (congrArg Code.wide hx.symm).trans (Option.some.inj h)
  obtain ⟨h0, h1, h2, h3, ht, hm, hl2, hl8⟩ := layout_8_6_6_12 hx
  have hf : fits x 0xFF000FFF 0xF2000006 = true := fits_of_fields [(24, 8), (0, 12)] (by decide) (by decide) ⟨h0, h3, trivial⟩
  refine ⟨by rw [ht]; decide, ?_⟩
  replace hm := (congrArg BitVec.toNat hm).trans (rfl : _ = 50)
  simp only [wordRow, wordUnits, hm]
  rw [if_neg (fits_low hl8 (by decide) (by decide)), if_neg (fits_low hl8 (by decide) (by decide)), if_neg (fits_low hl8 (by decide) (by decide)), if_neg (fits_low hl8 (by decide) (by decide)), if_neg (fits_low hl8 (by decide) (by decide)), if_neg (fits_low hl8 (by decide) (by decide)), if_pos hf, h1, h2]
  rfl
theorem trd : ∀ a b c, Statement (.trd a b c) := by
  intro a b c w h
  obtain ⟨x, hx⟩ : ∃ x : BitVec 32, 0xF2#8 ++ a ++ b ++ c ++ 0x7#8 = x := ⟨_, rfl⟩
  obtain rfl : Code.wide x = w := (congrArg Code.wide hx.symm).trans (Option.some.inj h)
  obtain ⟨h0, h1, h2, h3, h4, ht, hm, hl2, hl8⟩ := layout_8_6_6_4_8 hx
  have hf : fits x 0xFF0000FF 0xF2000007 = true := fits_of_fields [(24, 8), (0, 8)] (by decide) (by decide) ⟨h0, h4, trivial⟩
  refine ⟨by rw [ht]; decide, ?_⟩
  replace hm := (congrArg BitVec.toNat hm).trans (rfl : _ = 50)
  simp only [wordRow, wordUnits, hm]
  rw [if_neg (fits_low hl8 (by decide) (by decide)), if_neg (fits_low hl8 (by decide) (by decide)), if_neg (fits_low hl8 (by decide) (by decide)), if_neg (fits_low hl8 (by decide) (by decide)), if_neg (fits_low hl8 (by decide) (by decide)), if_neg (fits_low hl8 (by decide) (by decide)), if_neg (fits_low hl8 (by decide) (by decide)), if_pos hf, h1, h2, h3]
  rfl
theorem twr : ∀ a b c, Statement (.twr a b c) := by
  intro a b c w h
  obtain ⟨x, hx⟩ : ∃ x : BitVec 32, 0xF2#8 ++ a ++ b ++ c ++ 0x8#8 = x := ⟨_, rfl⟩
  obtain rfl : Code.wide x = w := (congrArg Code.wide hx.symm).trans (Option.some.inj h)
  obtain ⟨h0, h1, h2, h3, h4, ht, hm, hl2, hl8⟩ := layout_8_6_6_4_8 hx
  have hf : fits x 0xFF0000FF 0xF2000008 = true := fits_of_fields [(24, 8), (0, 8)] (by decide) (by decide) ⟨h0, h4, trivial⟩
  refine ⟨by rw [ht]; decide, ?_⟩
  replace hm := (congrArg BitVec.toNat hm).trans (rfl : _ = 50)
  simp only [wordRow, wordUnits, hm]
  rw [if_neg (fits_low hl8 (by decide) (by decide)), if_neg (fits_low hl8 (by decide) (by decide)), if_neg (fits_low hl8 (by decide) (by decide)), if_neg (fits_low hl8 (by decide) (by decide)), if_neg (fits_low hl8 (by decide) (by decide)), if_neg (fits_low hl8 (by decide) (by decide)), if_neg (fits_low hl8 (by decide) (by decide)), if_neg (fits_low hl8 (by decide) (by decide)), if_pos hf, h1, h2, h3]
  rfl
theorem tzero : ∀ a, Statement (.tzero a) := by
  intro a w h
  obtain ⟨x, hx⟩ : ∃ x : BitVec 32, 0xF2#8 ++ a ++ 0x9#18 = x := ⟨_, rfl⟩
  obtain rfl : Code.wide x = w := (congrArg Code.wide hx.symm).trans (Option.some.inj h)
  obtain ⟨h0, h1, h2, ht, hm, hl2, hl8⟩ := layout_8_6_18 hx
  have hf : fits x 0xFF03FFFF 0xF2000009 = true := fits_of_fields [(24, 8), (0, 18)] (by decide) (by decide) ⟨h0, h2, trivial⟩
  refine ⟨by rw [ht]; decide, ?_⟩
  replace hm := (congrArg BitVec.toNat hm).trans (rfl : _ = 50)
  simp only [wordRow, wordUnits, hm]
  rw [if_neg (fits_low hl8 (by decide) (by decide)), if_neg (fits_low hl8 (by decide) (by decide)), if_neg (fits_low hl8 (by decide) (by decide)), if_neg (fits_low hl8 (by decide) (by decide)), if_neg (fits_low hl8 (by decide) (by decide)), if_neg (fits_low hl8 (by decide) (by decide)), if_neg (fits_low hl8 (by decide) (by decide)), if_neg (fits_low hl8 (by decide) (by decide)), if_neg (fits_low hl8 (by decide) (by decide)), if_pos hf, h1]
  rfl
theorem barset : ∀ a b c, Statement (.barset a b c) := by
  intro a b c w h
  obtain ⟨x, hx⟩ : ∃ x : BitVec 32, 0xF3#8 ++ a ++ b ++ c ++ 0x0#8 = x := ⟨_, rfl⟩
  obtain rfl : Code.wide x = w := (congrArg Code.wide hx.symm).trans (Option.some.inj h)
  obtain ⟨h0, h1, h2, h3, h4, ht, hm, hl2, hl8⟩ := layout_8_6_6_4_8 hx
  have hf : fits x 0xFF0000FF 0xF3000000 = true := fits_of_fields [(24, 8), (0, 8)] (by decide) (by decide) ⟨h0, h4, trivial⟩
  refine ⟨by rw [ht]; decide, ?_⟩
  replace hm := (congrArg BitVec.toNat hm).trans (rfl : _ = 51)
  simp only [wordRow, wordUnits, hm]
  rw [if_pos hf, h1, h2, h3]
  rfl
theorem barwait : ∀ a, Statement (.barwait a) := by
  intro a w h
  obtain ⟨x, hx⟩ : ∃ x : BitVec 32, 0xF3000#20 ++ a ++ 0x1#8 = x := ⟨_, rfl⟩
  obtain rfl : Code.wide x = w := (congrArg Code.wide hx.symm).trans (Option.some.inj h)
  obtain ⟨h0, h1, h2, ht, hm, hl2, hl8⟩ := layout_20_4_8 hx
  have hf : fits x 0xFFFFF0FF 0xF3000001 = true := fits_of_fields [(12, 20), (0, 8)] (by decide) (by decide) ⟨h0, h2, trivial⟩
  refine ⟨by rw [ht]; decide, ?_⟩
  replace hm := (congrArg BitVec.toNat hm).trans (rfl : _ = 51)
  simp only [wordRow, wordUnits, hm]
  rw [if_neg (fits_low hl2 (by decide) (by decide)), if_pos hf, h1]
  rfl
theorem bararv : ∀ a, Statement (.bararv a) := by
  intro a w h
  obtain ⟨x, hx⟩ : ∃ x : BitVec 32, 0xF3000#20 ++ a ++ 0x2#8 = x := ⟨_, rfl⟩
  obtain rfl : Code.wide x = w := (congrArg Code.wide hx.symm).trans (Option.some.inj h)
  obtain ⟨h0, h1, h2, ht, hm, hl2, hl8⟩ := layout_20_4_8 hx
  have hf : fits x 0xFFFFF0FF 0xF3000002 = true := fits_of_fields [(12, 20), (0, 8)] (by decide) (by decide) ⟨h0, h2, trivial⟩
  refine ⟨by rw [ht]; decide, ?_⟩
  replace hm := (congrArg BitVec.toNat hm).trans (rfl : _ = 51)
  simp only [wordRow, wordUnits, hm]
  rw [if_neg (fits_low hl2 (by decide) (by decide)), if_neg (fits_low hl2 (by decide) (by decide)), if_pos hf, h1]
  rfl
theorem xmit : ∀ a b c, Statement (.xmit a b c) := by
  intro a b c w h
  obtain ⟨x, hx⟩ : ∃ x : BitVec 32, 0xF3#8 ++ a ++ b ++ c ++ 0x3#8 = x := ⟨_, rfl⟩
  obtain rfl : Code.wide x = w := (congrArg Code.wide hx.symm).trans (Option.some.inj h)
  obtain ⟨h0, h1, h2, h3, h4, ht, hm, hl2, hl8⟩ := layout_8_6_6_4_8 hx
  have hf : fits x 0xFF0000FF 0xF3000003 = true := fits_of_fields [(24, 8), (0, 8)] (by decide) (by decide) ⟨h0, h4, trivial⟩
  refine ⟨by rw [ht]; decide, ?_⟩
  replace hm := (congrArg BitVec.toNat hm).trans (rfl : _ = 51)
  simp only [wordRow, wordUnits, hm]
  rw [if_neg (fits_low hl2 (by decide) (by decide)), if_neg (fits_low hl2 (by decide) (by decide)), if_neg (fits_low hl2 (by decide) (by decide)), if_pos hf, h1, h2, h3]
  rfl
theorem intake : ∀ a b c, Statement (.intake a b c) := by
  intro a b c w h
  obtain ⟨x, hx⟩ : ∃ x : BitVec 32, 0xF3#8 ++ a ++ b ++ c ++ 0x4#8 = x := ⟨_, rfl⟩
  obtain rfl : Code.wide x = w := (congrArg Code.wide hx.symm).trans (Option.some.inj h)
  obtain ⟨h0, h1, h2, h3, h4, ht, hm, hl2, hl8⟩ := layout_8_6_6_4_8 hx
  have hf : fits x 0xFF0000FF 0xF3000004 = true := fits_of_fields [(24, 8), (0, 8)] (by decide) (by decide) ⟨h0, h4, trivial⟩
  refine ⟨by rw [ht]; decide, ?_⟩
  replace hm := (congrArg BitVec.toNat hm).trans (rfl : _ = 51)
  simp only [wordRow, wordUnits, hm]
  rw [if_neg (fits_low hl8 (by decide) (by decide)), if_neg (fits_low hl8 (by decide) (by decide)), if_neg (fits_low hl8 (by decide) (by decide)), if_neg (fits_low hl8 (by decide) (by decide)), if_pos hf, h1, h2, h3]
  rfl
theorem xchg : ∀ a b, Statement (.xchg a b) := by
  intro a b w h
  obtain ⟨x, hx⟩ : ∃ x : BitVec 32, 0xF3#8 ++ a ++ b ++ 0x5#12 = x := ⟨_, rfl⟩
  obtain rfl : Code.wide x = w := (congrArg Code.wide hx.symm).trans (Option.some.inj h)
  obtain ⟨h0, h1, h2, h3, ht, hm, hl2, hl8⟩ := layout_8_6_6_12 hx
  have hf : fits x 0xFF000FFF 0xF3000005 = true := fits_of_fields [(24, 8), (0, 12)] (by decide) (by decide) ⟨h0, h3, trivial⟩
  refine ⟨by rw [ht]; decide, ?_⟩
  replace hm := (congrArg BitVec.toNat hm).trans (rfl : _ = 51)
  simp only [wordRow, wordUnits, hm]
  rw [if_neg (fits_low hl8 (by decide) (by decide)), if_neg (fits_low hl8 (by decide) (by decide)), if_neg (fits_low hl8 (by decide) (by decide)), if_neg (fits_low hl8 (by decide) (by decide)), if_neg (fits_low hl8 (by decide) (by decide)), if_pos hf, h1, h2]
  rfl
theorem grpset : ∀ a b, Statement (.grpset a b) := by
  intro a b w h
  obtain ⟨x, hx⟩ : ∃ x : BitVec 32, 0xF3#8 ++ a ++ b ++ 0x6#12 = x := ⟨_, rfl⟩
  obtain rfl : Code.wide x = w := (congrArg Code.wide hx.symm).trans (Option.some.inj h)
  obtain ⟨h0, h1, h2, h3, ht, hm, hl2, hl8⟩ := layout_8_6_6_12 hx
  have hf : fits x 0xFF000FFF 0xF3000006 = true := fits_of_fields [(24, 8), (0, 12)] (by decide) (by decide) ⟨h0, h3, trivial⟩
  refine ⟨by rw [ht]; decide, ?_⟩
  replace hm := (congrArg BitVec.toNat hm).trans (rfl : _ = 51)
  simp only [wordRow, wordUnits, hm]
  rw [if_neg (fits_low hl8 (by decide) (by decide)), if_neg (fits_low hl8 (by decide) (by decide)), if_neg (fits_low hl8 (by decide) (by decide)), if_neg (fits_low hl8 (by decide) (by decide)), if_neg (fits_low hl8 (by decide) (by decide)), if_neg (fits_low hl8 (by decide) (by decide)), if_pos hf, h1, h2]
  rfl
theorem mcast : ∀ a b, Statement (.mcast a b) := by
  intro a b w h
  obtain ⟨x, hx⟩ : ∃ x : BitVec 32, 0xF3#8 ++ a ++ b ++ 0x7#12 = x := ⟨_, rfl⟩
  obtain rfl : Code.wide x = w := (congrArg Code.wide hx.symm).trans (Option.some.inj h)
  obtain ⟨h0, h1, h2, h3, ht, hm, hl2, hl8⟩ := layout_8_6_6_12 hx
  have hf : fits x 0xFF000FFF 0xF3000007 = true := fits_of_fields [(24, 8), (0, 12)] (by decide) (by decide) ⟨h0, h3, trivial⟩
  refine ⟨by rw [ht]; decide, ?_⟩
  replace hm := (congrArg BitVec.toNat hm).trans (rfl : _ = 51)
  simp only [wordRow, wordUnits, hm]
  rw [if_neg (fits_low hl8 (by decide) (by decide)), if_neg (fits_low hl8 (by decide) (by decide)), if_neg (fits_low hl8 (by decide) (by decide)), if_neg (fits_low hl8 (by decide) (by decide)), if_neg (fits_low hl8 (by decide) (by decide)), if_neg (fits_low hl8 (by decide) (by decide)), if_neg (fits_low hl8 (by decide) (by decide)), if_pos hf, h1, h2]
  rfl
theorem qld : ∀ a b, Statement (.qld a b) := by
  intro a b w h
  obtain ⟨x, hx⟩ : ∃ x : BitVec 32, 0xF4#8 ++ a ++ b ++ 0x0#12 = x := ⟨_, rfl⟩
  obtain rfl : Code.wide x = w := (congrArg Code.wide hx.symm).trans (Option.some.inj h)
  obtain ⟨h0, h1, h2, h3, ht, hm, hl2, hl8⟩ := layout_8_6_6_12 hx
  have hf : fits x 0xFF000FFF 0xF4000000 = true := fits_of_fields [(24, 8), (0, 12)] (by decide) (by decide) ⟨h0, h3, trivial⟩
  refine ⟨by rw [ht]; decide, ?_⟩
  replace hm := (congrArg BitVec.toNat hm).trans (rfl : _ = 52)
  simp only [wordRow, wordUnits, hm]
  rw [if_pos hf, h1, h2]
  rfl
theorem qst : ∀ a b, Statement (.qst a b) := by
  intro a b w h
  obtain ⟨x, hx⟩ : ∃ x : BitVec 32, 0xF4#8 ++ a ++ b ++ 0x1#12 = x := ⟨_, rfl⟩
  obtain rfl : Code.wide x = w := (congrArg Code.wide hx.symm).trans (Option.some.inj h)
  obtain ⟨h0, h1, h2, h3, ht, hm, hl2, hl8⟩ := layout_8_6_6_12 hx
  have hf : fits x 0xFF000FFF 0xF4000001 = true := fits_of_fields [(24, 8), (0, 12)] (by decide) (by decide) ⟨h0, h3, trivial⟩
  refine ⟨by rw [ht]; decide, ?_⟩
  replace hm := (congrArg BitVec.toNat hm).trans (rfl : _ = 52)
  simp only [wordRow, wordUnits, hm]
  rw [if_neg (fits_low hl2 (by decide) (by decide)), if_pos hf, h1, h2]
  rfl
theorem meet : ∀ a, Statement (.meet a) := by
  intro a w h
  obtain ⟨x, hx⟩ : ∃ x : BitVec 32, 0x3D00#14 ++ a ++ 0x2#12 = x := ⟨_, rfl⟩
  obtain rfl : Code.wide x = w := (congrArg Code.wide hx.symm).trans (Option.some.inj h)
  obtain ⟨h0, h1, h2, ht, hm, hl2, hl8⟩ := layout_14_6_12 hx
  have hf : fits x 0xFFFC0FFF 0xF4000002 = true := fits_of_fields [(18, 14), (0, 12)] (by decide) (by decide) ⟨h0, h2, trivial⟩
  refine ⟨by rw [ht]; decide, ?_⟩
  replace hm := (congrArg BitVec.toNat hm).trans (rfl : _ = 52)
  simp only [wordRow, wordUnits, hm]
  rw [if_neg (fits_low hl2 (by decide) (by decide)), if_neg (fits_low hl2 (by decide) (by decide)), if_pos hf, h1]
  rfl
theorem meetq : ∀ a b, Statement (.meetq a b) := by
  intro a b w h
  obtain ⟨x, hx⟩ : ∃ x : BitVec 32, 0xF4#8 ++ a ++ 0x0#6 ++ b ++ 0x3#8 = x := ⟨_, rfl⟩
  obtain rfl : Code.wide x = w := (congrArg Code.wide hx.symm).trans (Option.some.inj h)
  obtain ⟨h0, h1, h2, h3, h4, ht, hm, hl2, hl8⟩ := layout_8_6_6_4_8 hx
  have hf : fits x 0xFF03F0FF 0xF4000003 = true := fits_of_fields [(24, 8), (12, 6), (0, 8)] (by decide) (by decide) ⟨h0, h2, h4, trivial⟩
  refine ⟨by rw [ht]; decide, ?_⟩
  replace hm := (congrArg BitVec.toNat hm).trans (rfl : _ = 52)
  simp only [wordRow, wordUnits, hm]
  rw [if_neg (fits_low hl2 (by decide) (by decide)), if_neg (fits_low hl2 (by decide) (by decide)), if_neg (fits_low hl2 (by decide) (by decide)), if_pos hf, h1, h3]
  rfl
theorem split : ∀ a b c, Statement (.split a b c) := by
  intro a b c w h
  obtain ⟨x, hx⟩ : ∃ x : BitVec 32, 0xF4#8 ++ a ++ b ++ c ++ 0x4#8 = x := ⟨_, rfl⟩
  obtain rfl : Code.wide x = w := (congrArg Code.wide hx.symm).trans (Option.some.inj h)
  obtain ⟨h0, h1, h2, h3, h4, ht, hm, hl2, hl8⟩ := layout_8_6_6_4_8 hx
  have hf : fits x 0xFF0000FF 0xF4000004 = true := fits_of_fields [(24, 8), (0, 8)] (by decide) (by decide) ⟨h0, h4, trivial⟩
  refine ⟨by rw [ht]; decide, ?_⟩
  replace hm := (congrArg BitVec.toNat hm).trans (rfl : _ = 52)
  simp only [wordRow, wordUnits, hm]
  rw [if_neg (fits_low hl8 (by decide) (by decide)), if_neg (fits_low hl8 (by decide) (by decide)), if_neg (fits_low hl8 (by decide) (by decide)), if_neg (fits_low hl8 (by decide) (by decide)), if_pos hf, h1, h2, h3]
  rfl
theorem cfcfg : ∀ a, Statement (.cfcfg a) := by
  intro a w h
  obtain ⟨x, hx⟩ : ∃ x : BitVec 32, 0x3D00#14 ++ a ++ 0x5#12 = x := ⟨_, rfl⟩
  obtain rfl : Code.wide x = w := (congrArg Code.wide hx.symm).trans (Option.some.inj h)
  obtain ⟨h0, h1, h2, ht, hm, hl2, hl8⟩ := layout_14_6_12 hx
  have hf : fits x 0xFFFC0FFF 0xF4000005 = true := fits_of_fields [(18, 14), (0, 12)] (by decide) (by decide) ⟨h0, h2, trivial⟩
  refine ⟨by rw [ht]; decide, ?_⟩
  replace hm := (congrArg BitVec.toNat hm).trans (rfl : _ = 52)
  simp only [wordRow, wordUnits, hm]
  rw [if_neg (fits_low hl8 (by decide) (by decide)), if_neg (fits_low hl8 (by decide) (by decide)), if_neg (fits_low hl8 (by decide) (by decide)), if_neg (fits_low hl8 (by decide) (by decide)), if_neg (fits_low hl8 (by decide) (by decide)), if_pos hf, h1]
  rfl
theorem cvdone : Statement .cvdone := by
  intro w h
  obtain rfl := Option.some.inj h
  decide
theorem cvst : ∀ a b, Statement (.cvst a b) := by
  intro a b w h
  obtain ⟨x, hx⟩ : ∃ x : BitVec 32, 0xF4#8 ++ a ++ 0x0#6 ++ b ++ 0x7#8 = x := ⟨_, rfl⟩
  obtain rfl : Code.wide x = w := (congrArg Code.wide hx.symm).trans (Option.some.inj h)
  obtain ⟨h0, h1, h2, h3, h4, ht, hm, hl2, hl8⟩ := layout_8_6_6_4_8 hx
  have hf : fits x 0xFF03F0FF 0xF4000007 = true := fits_of_fields [(24, 8), (12, 6), (0, 8)] (by decide) (by decide) ⟨h0, h2, h4, trivial⟩
  refine ⟨by rw [ht]; decide, ?_⟩
  replace hm := (congrArg BitVec.toNat hm).trans (rfl : _ = 52)
  simp only [wordRow, wordUnits, hm]
  rw [if_neg (fits_low hl8 (by decide) (by decide)), if_neg (fits_low hl8 (by decide) (by decide)), if_neg (fits_low hl8 (by decide) (by decide)), if_neg (fits_low hl8 (by decide) (by decide)), if_neg (fits_low hl8 (by decide) (by decide)), if_neg (fits_low hl8 (by decide) (by decide)), if_neg (fits_low hl8 (by decide) (by decide)), if_pos hf, h1, h3]
  rfl
theorem helperTrapDelivery : ∀ a, Statement (.helperTrapDelivery a) := fun _ _ h => nomatch h
theorem taskRedelivery : ∀ a, Statement (.taskRedelivery a) := fun _ _ h => nomatch h
theorem gangForm : ∀ a, Statement (.gangForm a) := fun _ _ h => nomatch h
theorem tnextTake : ∀ a, Statement (.tnextTake a) := fun _ _ h => nomatch h
theorem taskDelivery : ∀ a, Statement (.taskDelivery a) := fun _ _ h => nomatch h
theorem staticHandleFree : ∀ a, Statement (.staticHandleFree a) := fun _ _ h => nomatch h
theorem coreAssignment : ∀ a b c d, Statement (.coreAssignment a b c d) := fun _ _ _ _ _ h => nomatch h
theorem partitionClear : ∀ a b, Statement (.partitionClear a b) := fun _ _ _ h => nomatch h
theorem preemption : ∀ a, Statement (.preemption a) := fun _ _ h => nomatch h
theorem preemptionResume : ∀ a, Statement (.preemptionResume a) := fun _ _ h => nomatch h
theorem uncorrectableError : ∀ a, Statement (.uncorrectableError a) := fun _ _ h => nomatch h
theorem homeAccessPerform : ∀ a, Statement (.homeAccessPerform a) := fun _ _ h => nomatch h
theorem accessReply : ∀ a, Statement (.accessReply a) := fun _ _ h => nomatch h
theorem waitaTimeout : ∀ a b, Statement (.waitaTimeout a b) := fun _ _ _ h => nomatch h
theorem waitaPoll : ∀ a b, Statement (.waitaPoll a b) := fun _ _ _ h => nomatch h
theorem mailboxArrival : ∀ a, Statement (.mailboxArrival a) := fun _ _ h => nomatch h
theorem copyStart : ∀ a b, Statement (.copyStart a b) := fun _ _ _ h => nomatch h
theorem copyCompletion : ∀ a b, Statement (.copyCompletion a b) := fun _ _ _ h => nomatch h
theorem cbacqGrant : ∀ a b, Statement (.cbacqGrant a b) := fun _ _ _ h => nomatch h
theorem cbwaitGrant : ∀ a b, Statement (.cbwaitGrant a b) := fun _ _ _ h => nomatch h
theorem arbiterGrant : ∀ a, Statement (.arbiterGrant a) := fun _ _ h => nomatch h
theorem matrixEntryComplete : ∀ a, Statement (.matrixEntryComplete a) := fun _ _ h => nomatch h
theorem batchComplete : ∀ a, Statement (.batchComplete a) := fun _ _ h => nomatch h
theorem barrierArrivalSend : ∀ a b, Statement (.barrierArrivalSend a b) := fun _ _ _ h => nomatch h
theorem barrierArrivalReceive : ∀ a b, Statement (.barrierArrivalReceive a b) := fun _ _ _ h => nomatch h
theorem barrierRelease : ∀ a b, Statement (.barrierRelease a b) := fun _ _ _ h => nomatch h
theorem exchangePhaseEnd : ∀ a, Statement (.exchangePhaseEnd a) := fun _ _ h => nomatch h
theorem xmitDrive : ∀ a, Statement (.xmitDrive a) := fun _ _ h => nomatch h
theorem exchangeCollision : Statement .exchangeCollision := fun _ h => nomatch h
theorem xmitArrival : ∀ a, Statement (.xmitArrival a) := fun _ _ h => nomatch h
theorem intakeLatch : ∀ a, Statement (.intakeLatch a) := fun _ _ h => nomatch h
theorem xchgExchange : ∀ a, Statement (.xchgExchange a) := fun _ _ h => nomatch h
theorem meetArrival : ∀ a, Statement (.meetArrival a) := fun _ _ h => nomatch h
theorem meetqResolve : ∀ a b, Statement (.meetqResolve a b) := fun _ _ _ h => nomatch h
theorem grpsetResume : ∀ a b, Statement (.grpsetResume a b) := fun _ _ _ h => nomatch h
theorem grpsetTimeout : ∀ a b, Statement (.grpsetTimeout a b) := fun _ _ _ h => nomatch h
theorem networkMerge : ∀ a b, Statement (.networkMerge a b) := fun _ _ _ h => nomatch h
theorem deadlockProbe : ∀ a, Statement (.deadlockProbe a) := fun _ _ h => nomatch h
theorem deadlockEscape : ∀ a, Statement (.deadlockEscape a) := fun _ _ h => nomatch h
theorem lossMarker : ∀ a b, Statement (.lossMarker a b) := fun _ _ _ h => nomatch h
theorem translationWalk : ∀ a, Statement (.translationWalk a) := fun _ _ h => nomatch h
theorem staAnswer : ∀ a b c, Statement (.staAnswer a b c) := fun _ _ _ _ h => nomatch h
theorem staRefusal : ∀ a, Statement (.staRefusal a) := fun _ _ h => nomatch h
theorem staTimeout : ∀ a, Statement (.staTimeout a) := fun _ _ h => nomatch h
theorem staInvalidate : ∀ a b c, Statement (.staInvalidate a b c) := fun _ _ _ _ h => nomatch h
theorem invalidationComplete : ∀ a, Statement (.invalidationComplete a) := fun _ _ h => nomatch h
theorem pairRendezvous : ∀ a, Statement (.pairRendezvous a) := fun _ _ h => nomatch h
theorem pairTimeout : ∀ a, Statement (.pairTimeout a) := fun _ _ h => nomatch h
theorem pairIntervalCompare : ∀ a, Statement (.pairIntervalCompare a) := fun _ _ h => nomatch h
theorem selfTestPeriodic : ∀ a, Statement (.selfTestPeriodic a) := fun _ _ h => nomatch h
theorem rebalance : ∀ a, Statement (.rebalance a) := fun _ _ h => nomatch h
theorem priorityAging : ∀ a, Statement (.priorityAging a) := fun _ _ h => nomatch h
theorem clusterWake : ∀ a, Statement (.clusterWake a) := fun _ _ h => nomatch h
theorem clusterGate : ∀ a, Statement (.clusterGate a) := fun _ _ h => nomatch h
theorem bandStart : ∀ a b, Statement (.bandStart a b) := fun _ _ _ h => nomatch h
theorem reconstruction : ∀ a b c, Statement (.reconstruction a b c) := fun _ _ _ _ h => nomatch h
theorem controllerUpdate : ∀ a b, Statement (.controllerUpdate a b) := fun _ _ _ h => nomatch h
theorem launchComplete : ∀ a, Statement (.launchComplete a) := fun _ _ h => nomatch h
theorem budgetPeriod : Statement .budgetPeriod := fun _ h => nomatch h
theorem clNop : ∀ a, Statement (.clNop a) := fun _ _ h => nomatch h
theorem clLaunch : ∀ a, Statement (.clLaunch a) := fun _ _ h => nomatch h
theorem clCopy : ∀ a, Statement (.clCopy a) := fun _ _ h => nomatch h
theorem clWait : ∀ a, Statement (.clWait a) := fun _ _ h => nomatch h
theorem clSignal : ∀ a, Statement (.clSignal a) := fun _ _ h => nomatch h
theorem clSkipif : ∀ a, Statement (.clSkipif a) := fun _ _ h => nomatch h
theorem clJump : ∀ a, Statement (.clJump a) := fun _ _ h => nomatch h
theorem clCall : ∀ a, Statement (.clCall a) := fun _ _ h => nomatch h
theorem clReturn : ∀ a, Statement (.clReturn a) := fun _ _ h => nomatch h
theorem clSetreg : ∀ a, Statement (.clSetreg a) := fun _ _ h => nomatch h
theorem kick : ∀ a b c, Statement (.kick a b c) := fun _ _ _ _ h => nomatch h
theorem deltaUpdate : ∀ a b, Statement (.deltaUpdate a b) := fun _ _ _ h => nomatch h
theorem deltaDispatch : ∀ a b, Statement (.deltaDispatch a b) := fun _ _ _ h => nomatch h
theorem statusRecordWrite : ∀ a, Statement (.statusRecordWrite a) := fun _ _ h => nomatch h
theorem queueConfiguration : ∀ a, Statement (.queueConfiguration a) := fun _ _ h => nomatch h
theorem submission : ∀ a, Statement (.submission a) := fun _ _ h => nomatch h
theorem budget : ∀ a, Statement (.budget a) := fun _ _ h => nomatch h
theorem peerReadmit : ∀ a, Statement (.peerReadmit a) := fun _ _ h => nomatch h
theorem selfTestOrder : ∀ a, Statement (.selfTestOrder a) := fun _ _ h => nomatch h
theorem fenceCommand : ∀ a, Statement (.fenceCommand a) := fun _ _ h => nomatch h
theorem translationInvalidate : ∀ a, Statement (.translationInvalidate a) := fun _ _ h => nomatch h
theorem spdm : ∀ a, Statement (.spdm a) := fun _ _ h => nomatch h
theorem counterRead : ∀ a, Statement (.counterRead a) := fun _ _ h => nomatch h
theorem crashRecordRead : ∀ a, Statement (.crashRecordRead a) := fun _ _ h => nomatch h
theorem imageChunk : ∀ a, Statement (.imageChunk a) := fun _ _ h => nomatch h
theorem handOverBegin : ∀ a, Statement (.handOverBegin a) := fun _ _ h => nomatch h
theorem handOverCommit : ∀ a, Statement (.handOverCommit a) := fun _ _ h => nomatch h
theorem handOverCancel : ∀ a, Statement (.handOverCancel a) := fun _ _ h => nomatch h
theorem peerRequest : ∀ a, Statement (.peerRequest a) := fun _ _ h => nomatch h
theorem peerCompletion : ∀ a b, Statement (.peerCompletion a b) := fun _ _ _ h => nomatch h
theorem peerIsolation : ∀ a, Statement (.peerIsolation a) := fun _ _ h => nomatch h
theorem watchdogExpiry : ∀ a, Statement (.watchdogExpiry a) := fun _ _ h => nomatch h
theorem powerOnReset : Statement .powerOnReset := fun _ h => nomatch h
theorem warmReset : Statement .warmReset := fun _ h => nomatch h
theorem stackPark : ∀ a b, Statement (.stackPark a b) := fun _ _ _ h => nomatch h
theorem scrubRead : ∀ a b, Statement (.scrubRead a b) := fun _ _ _ h => nomatch h
theorem illegalInstruction : ∀ a b, Statement (.illegalInstruction a b) := fun _ _ _ h => nomatch h
theorem clBadOp : ∀ a, Statement (.clBadOp a) := fun _ _ h => nomatch h
theorem postedAccessResponse : ∀ a, Statement (.postedAccessResponse a) := fun _ _ h => nomatch h
theorem ultraEthernetAcknowledgement : ∀ a, Statement (.ultraEthernetAcknowledgement a) := fun _ _ h => nomatch h
theorem linkReplay : ∀ a b, Statement (.linkReplay a b) := fun _ _ _ h => nomatch h
theorem selfTestCompletion : ∀ a b c, Statement (.selfTestCompletion a b c) := fun _ _ _ _ h => nomatch h
theorem reEncodeComplete : ∀ a, Statement (.reEncodeComplete a) := fun _ _ h => nomatch h
theorem partitionClearComplete : ∀ a, Statement (.partitionClearComplete a) := fun _ _ h => nomatch h
theorem hostTableSupply : ∀ a, Statement (.hostTableSupply a) := fun _ _ h => nomatch h

end Sys2Proof.Laws.Encoding
end

