-- ==== Sys2Proof/Tests/Slice0.lean ====
section
/-! SUPPORT. The model's own tests: ill-formed terms that the checks refuse, words written out from the formats of the
spec, single steps, and for every statement a state and operands that meet its premises. -/
namespace Sys2Proof.Tests
open Sys2Proof Sys2Proof.Machine

/-! ### Helpers -/

/-- A live context at an address of the device's memory. -/
def live : Context := { live := true, pc := 0x1000 }
/-- Core 0 of cluster 0 with a context and a partition; further fields as given. -/
def on (k : Core) : State :=
  { State.reset with cores := [(0, { k with part := some 0 })],
                     parts := [(0, some { odi := 0, table := 0, clusters := [0], host := 0, clearing := false })] }
def run (x : Context) : State := on { ctxs := [(0, x)] }
/-- `run` with g registers: number and value. -/
def withG (rs : List (Nat × Word)) : State :=
  run (rs.foldl (init := live) fun x r => x.writeG r.1 r.2 false)
/-- `run` with v registers of tags: number, tag and bits. -/
def withV (rs : List (Nat × BitVec 5 × BitVec 512)) : State :=
  run (rs.foldl (init := live) fun x r => x.writeV r.1 { bits := r.2.2, tag := r.2.1, poison := false })
/-- A property of the state after an instruction. -/
def after (i : Instr) (s : State) (p : State → Bool) : Bool :=
  match exec i s with
  | .next t => p t
  | _ => false
/-- The location word of a handle of core 0's local memory, at an offset. -/
def loc (handle off : Nat) : Word := BitVec.ofNat 64 (2 ^ 63 + handle * 2 ^ 36 + off)
/-- Core 0 with handles 1 and 2 allocated, 16 rows of 64 bytes each. -/
def withTiles (rs : List (Nat × Word)) : Core :=
  { ctxs := [(0, rs.foldl (init := live) fun x r => x.writeG r.1 r.2 false)],
    store := { tiles := [(1, { used := true, rows := 16, rowBytes := 64, granules := [0] }),
                         (2, { used := true, rows := 16, rowBytes := 64, granules := [1] })] } }
/-- The offsets of a location of the own local memory that passes the checks. -/
def nearOffs (s : State) (w : Word) (size align : Nat) (want : Want) : Option (List Nat) :=
  match s.check s.cur.1 s.me.walkErr w size align want with
  | .ok pl => if pl.atIssue && s.portFree pl.home 0 then some (s.offsetsOf pl size) else none
  | _ => none
theorem nearOffs_spec {s : State} {w : Word} {size align : Nat} {want : Want} {offs : List Nat}
    (h : nearOffs s w size align want = some offs) : s.nearAt w size align want offs := by
  unfold nearOffs at h
  split at h
  · next pl hp =>
    split at h
    · next ha =>
      have hb := Bool.and_eq_true_iff.1 ha
      exact ⟨pl, hp, hb.1, hb.2, (Option.some.inj h).symm⟩
    · exact absurd h (by simp)
  · exact absurd h (by simp)
/-- A core without a partner holds nothing back. -/
theorem apart_of_unpaired {s : State} (h : s.here.pairing = none) (w : Word) (n : Nat) : s.apart w n :=
  fun _ _ _ _ => by simp [State.meetsHeld, h]
/-- Where a location that is not the own local memory's lies. -/
def farPlace (s : State) (w : Word) (size align : Nat) (want : Want) : Option Place :=
  match s.check s.cur.1 s.me.walkErr w size align want with
  | .ok pl =>
    if pl.atIssue || (match pl.home with | .peer _ => true | _ => false) || (s.accessStall s.cur.1 pl want).isSome then none
    else some pl
  | _ => none
/-- A location of so many bytes passes the checks of an access. -/
def admits (s : State) (want : Want) (w : Word) (n : Nat) : Bool :=
  match s.check s.cur.1 s.me.walkErr w n 1 want with
  | .ok pl => (s.farFault s.cur.1 pl n want).isNone && !s.savedHome pl.home && (!pl.atIssue || s.portFree pl.home 0) &&
      (s.accessStall s.cur.1 pl want).isNone
  | _ => false
theorem admits_spec {s : State} {want : Want} {w : Word} {n : Nat} (h : admits s want w n = true) : s.passes want w n := by
  unfold admits at h
  split at h
  · next pl hp =>
    simp only [Bool.and_eq_true, Bool.or_eq_true, Bool.not_eq_true', Option.isNone_iff_eq_none] at h
    exact ⟨pl, hp, h.1.1.1, h.1.1.2, fun ha => h.1.2.resolve_left (by simp [ha]), h.2⟩
  · exact absurd h (by simp)
/-- A translation of a page of main memory. -/
def page (va pa : Nat) (r w x : Bool) : Trans := { space := 0, va := va, pa := pa, size := 4096, r := r, w := w, x := x }
/-- A line of code in the instruction buffer. -/
def codeLine (va : Nat) (bytes : List Byte) : CodeLine :=
  { va := va, bytes := bytes ++ List.replicate (64 - bytes.length) 0, poison := false, half := false }
/-- A stage of one point without a result layout, and a launch of it. -/
def desc : StageDesc := { stageFrom [] with i := 1, j := 1, k := 1, rtype := 255, fg := 1 }
def stage : StageRun := { freshStage desc true none [0] 0 with flight := [(0, 0)] }
def launchOf (r : StageRun) : Launch := { launchFrom [] none {} 0 with id := 1, stages := [r] }
/-- A task record of launch 1. -/
def task : Task :=
  { record := [0, 2 ^ 32, 0, 0, 0, 0, 0, 0], mask := 1, fv := 0, fq := 0, poison := false, launch := 1, stage := 0, point := 0,
    group := 0 }
/-- A state with further cores of the partition. -/
def andCores (s : State) (cs : List (Nat × Core)) : State := { s with cores := s.cores ++ cs.map fun e => (e.1, { e.2 with part := some 0 }) }
/-- A request of core 0's control context to a home. -/
def packet (id : Nat) (w : Word) (pa : Option Nat) (h : Home) (a : Act) : Packet :=
  { id := id, core := 0, ctx := 0, life := 0, era := 0, loc := w, pa := pa, home := h, act := a, poison := false, odi := 0,
    op := none, part := 0, order := 0, scope := 0, counted := [], bytes := a.size, group := none, noMerge := false,
    isLocal := false }
/-- An access of core 0's control context that awaits one reply. -/
def opTo (d : Dest) : Op :=
  { core := 0, ctx := 0, life := 0, era := 0, dest := d, loc := 0, holds := false, left := 1, parts := [], acq := none,
    nack := none, taint := false }
/-- A circular buffer of stages of 64 bytes. -/
def buffer (stages : List Stage) : CircBuf :=
  { base := loc 1 0, bytes := 64, count := stages.length, head := 0, tail := 0, stages := stages, commits := [], waitAcq := [],
    waitRd := [] }
def withBuffer (s : State) (b : CircBuf) : State := s.modCluster 0 fun k => { k with cbs := [(0, some b)] }
/-- A pairing at the end of an interval. -/
def pairingOf (partner : Nat) (even : Bool) : Machine.Pairing :=
  { partner := partner, even := even, print := 0, retired := 4096, interval := 4096, classes := 1, undo := [], outbox := [],
    stores := [], checkpoint := live, mismatches := 0, verified := 0, replies := [] }
/-- The rectangle of cores 0 and 1, and a core with barrier 0 set to it, with a phase of so many cycles. -/
def two : BitVec 32 := 0x00000201
def withBar (k : Core) (b : Barrier) : Core := { k with barriers := [(0, b)] }
def set (len : Nat) : Barrier := { conf := some (two, BitVec.ofNat 64 len) }

/-! ### Ill-formed terms, one for each check -/

theorem test_wf_reg16 : (Instr.addG16 3 32).illFormed = some .registerNumber := by decide
theorem test_wf_compare : (Instr.ceq 8 1 0 0 0).illFormed = some .registerNumber := by decide
theorem test_wf_cvt : (Instr.cvt 1 2 14).illFormed = some .typeCode := by decide
theorem test_wf_cvtf : (Instr.cvtf 1 2 15).illFormed = some .typeCode := by decide
theorem test_wf_shuf : (Instr.shuf 1 2 0 3).illFormed = some .operandKind := by decide
theorem test_wf_bcast : (Instr.bcast 1 1 2 3).illFormed = some .operandKind := by decide
theorem test_wf_slide : (Instr.slide 1 2 1 3).illFormed = some .operandKind := by decide
theorem test_wf_mvv : (Instr.mvv 1 0 2 1 3).illFormed = some .operandKind := by decide
theorem test_wf_kand : (Instr.kand 1 8 2).illFormed = some .registerNumber := by decide
theorem test_wf_knot : (Instr.knot 8 1).illFormed = some .registerNumber := by decide
theorem test_wf_kuse : (Instr.kuse 8).illFormed = some .registerNumber := by decide
theorem test_wf_qand : (Instr.qand 1 2 4).illFormed = some .registerNumber := by decide
theorem test_wf_qcnt : (Instr.qcnt 1 4).illFormed = some .registerNumber := by decide
theorem test_wf_qmark : (Instr.qmark 4 1).illFormed = some .registerNumber := by decide
theorem test_wf_ld : (Instr.ld 1 2 8 0).illFormed = some .typeCode := by decide
theorem test_wf_vld : (Instr.vld 1 2 14 0).illFormed = some .typeCode := by decide
theorem test_wf_posted_atomic : (Instr.aadd 0 1 2 0 3).illFormed = some .order := by decide
theorem test_wf_avadd : (Instr.avadd 1 2 0 1).illFormed = some .order := by decide
theorem test_wf_ldaq : (Instr.ldaq 1 2 0 2).illFormed = some .order := by decide
theorem test_wf_bany : (Instr.bany 8 0).illFormed = some .registerNumber := by decide
theorem test_wf_loop : (Instr.loop 1 2).illFormed = some .literal := by decide
theorem test_wf_rett : (Instr.rett 2).illFormed = some .literal := by decide
theorem test_wf_live : (Instr.live 1 4).illFormed = some .literal := by decide
theorem test_wf_mfs : (Instr.mfs 1 0x048).illFormed = some .statusNumber := by decide
theorem test_wf_mts : (Instr.mts 1 0x000).illFormed = some .statusNumber := by decide
theorem test_wf_msend : (Instr.msend 3 1).illFormed = some .registerNumber := by decide
theorem test_wf_mtake : (Instr.mtake 0).illFormed = some .registerNumber := by decide
theorem test_wf_mtake16 : (Instr.mtake16 5).illFormed = some .registerNumber := by decide
theorem test_wf_cpyset : (Instr.cpyset 1 10).illFormed = some .literal := by decide
theorem test_wf_mma : (Instr.mma 1 3 0).illFormed = some .registerNumber := by decide
theorem test_wf_mwaitb : (Instr.mwaitb 9).illFormed = some .literal := by decide
theorem test_wf_tld : (Instr.tld 8 2).illFormed = some .registerNumber := by decide
theorem test_wf_tzero : (Instr.tzero 8).illFormed = some .registerNumber := by decide
theorem test_wf_barset : (Instr.barset 1 2 4).illFormed = some .registerNumber := by decide
theorem test_wf_xmit : (Instr.xmit 1 2 4).illFormed = some .literal := by decide
theorem test_wf_meetq : (Instr.meetq 1 0).illFormed = some .registerNumber := by decide
theorem test_wf_split : (Instr.split 1 2 4).illFormed = some .registerNumber := by decide
theorem test_wf_cvst : (Instr.cvst 1 3).illFormed = some .literal := by decide
theorem test_wf_good : (Instr.mma 7 62 15).wf = true ∧ (Instr.mtake 62).wf = true ∧ (Instr.loop 1 3).wf = true := by decide

/-! ### Words of the spec's formats (06 and the reference entries) -/

/-- What a 32-bit word stands for. -/
def wide (w : BitVec 32) : Except Reject (Instr × List Byte) := decode (Code.wide w).bytes
/-- What a 16-bit word stands for. -/
def short (h : BitVec 16) : Except Reject (Instr × List Byte) := decode (Code.short h).bytes
def stands (r : Except Reject (Instr × List Byte)) (i : Instr) : Bool :=
  match r with
  | .ok (j, []) => j == i
  | _ => false

theorem test_decode_arith : stands (wide 0xC00C1014) (.add 3 0 4 0 5) && stands (wide 0xC36C6C5A) (.absd 27 0 27 0 22) &&
    stands (short 0x6909) (.addV16 4 9) && stands (wide 0xD1282F9C) (.addi 10 2 (-100)) &&
    stands (short 0x19C1) (.addiG16 7 1) = true := by decide
theorem test_decode_vector : stands (wide 0xC809074C) (.cvt 2 1 19) && stands (wide 0xCD050800) (.exp2 1 2) &&
    stands (wide 0xCC04080C) (.kand 1 2 3) && stands (wide 0xD0081114) (.vgth 2 4 5) = true := by decide
theorem test_decode_memory : stands (wide 0xD5246301) (.ld 9 6 6 1) && stands (wide 0xD627E2FE) (.st 9 62 5 (-2)) &&
    stands (wide 0xE020425B) (.acas 8 4 9 6 3) && stands (wide 0xE5000018) (.fence 6 0) &&
    stands (wide 0xE5000022) (.fence 8 2) && stands (wide 0xF010590F) (.halloc 4 5 9) &&
    stands (wide 0xF0004010) (.hfree 4) = true := by decide
theorem test_decode_control : stands (wide 0xE827FF38) (.bnz 9 (-200)) && stands (wide 0xED001000) (.br 0x1000) &&
    stands (wide 0xEF000505) (.bkpt 5) && stands (wide 0xEFFC1000) (.jr 63 1) && stands (wide 0xEF000004) (.rett 0) &&
    stands (wide 0xEF000001) .ret = true := by decide
theorem test_decode_status : stands (wide 0xF0140008) (.chkerr 5) && stands (wide 0xF000010D) (.extl 0 1) &&
    stands (wide 0xF008020E) (.extr 2 2) && stands (wide 0xF0103307) (.mts 4 0x033) &&
    stands (wide 0xF0144007) (.mts 5 0x040) && stands (wide 0xF003D203) (.live 61 2) = true := by decide
theorem test_decode_tasks : stands (wide 0xF0040009) (.tnext 1) && stands (wide 0xF014000A) (.tend 5) &&
    stands (short 0xB800) (.tend16 0) && stands (wide 0xF4000006) .cvdone && stands (wide 0xF4140107) (.cvst 5 1) = true := by
  decide
theorem test_decode_units : stands (wide 0xF1300004) (.cpygo 12) && stands (wide 0xF1009603) (.cpyset 9 6) &&
    stands (wide 0xF114C005) (.cpyst 5 12) && stands (wide 0xF1003006) (.eqf 3) && stands (wide 0xF2147507) (.trd 5 7 5) &&
    stands (wide 0xF4007005) (.cfcfg 7) && stands (wide 0xF4004002) (.meet 4) && stands (wide 0xF4180103) (.meetq 6 1) &&
    stands (wide 0xF4149104) (.split 5 9 1) = true := by decide
/-- A word that stands for nothing, and why. -/
def refuses (r : Except Reject (Instr × List Byte)) (e : Reject) : Bool :=
  match r with
  | .error d => d == e
  | .ok _ => false

theorem test_decode_reserved : refuses (wide 0xFFFFFFFF) .reservedWord && refuses (decode [0, 0xC0]) .tooShort = true := by decide

/-! ### Premises of the statements about arithmetic (O1-O17) -/

theorem witness_ScalarSums : ([.add 0 0 63 3 31, .sub 63 2 63 0 0, .mul 1 3 32 2 0, .mulh 63 0 1 0 2, .neg 63 3 32,
    .fma 1 0 2 3 63, .fms 63 2 0 0 1, .addi 63 0 0x800, .addG16 31 31, .subG16 0 0, .addiG16 31 0x20].all
    (withG [(63, 5)]).clear) = true := by decide
theorem witness_ScalarBits : ([.and 0 0 63 3 31, .or 63 2 63 0 0, .xor 1 3 32 2 0, .andn 63 0 1 0 2, .mov 63 3 32,
    .andi 63 0 0x800, .andG16 31 31, .orG16 0 0, .xorG16 31 1, .movG16 31 31].all (withG [(63, 5)]).clear) = true := by
  decide
theorem witness_LiteralClearsPoison : ([.lit 0 0x20000, .lit 63 0x3FFFF, .litG16 31 0x20, .lith 63 0x3FFFF, .lith 0 0].all
    (withG [(63, 5)]).clear) = true := by decide
theorem witness_ScalarOrder : ([.min 0 0 63 3 31, .max 63 2 63 0 0, .absd 1 3 32 2 0, .div 63 0 1 0 2, .rem 63 3 32 0 0,
    .ceq 1 0 2 3 63, .cne 63 2 0 0 1, .clt 63 0 0 0 0, .cle 31 0 63 0 63].all (withG [(63, 5)]).clear) = true := by decide
theorem witness_ScalarShifts : ([.shl 0 0 63 3 63, .shr 63 2 63 0 0, .sar 1 3 32 2 0, .rot 63 0 1 0 2, .clz 63 3 32,
    .ffs 1 0 2, .popc 63 2 0, .brev 63 0 0, .shlG16 31 63, .shrG16 0 0].all (withG [(63, 5)]).clear) = true := by decide
/-- Both ends of the integer tags, a vector first and second, alone and beside a scalar. -/
theorem witness_VectorIntegers : let s := withV [(0, 7, 1), (4, 0, 3), (5, 0, 9), (31, 7, 2), (63, 7, 5)]
    s.firstTag 1 4 1 5 = some 0 ∧ s.tagsDiffer 1 4 1 5 = false ∧ s.firstTag 3 1 1 63 = some 7 ∧
    s.tagsDiffer 3 1 1 63 = false ∧ isIntTag 0 = true ∧ isIntTag 7 = true ∧ (s.v 0).tag = 7 ∧ (s.v 31).tag = 7 ∧
    ([.add 0 1 4 1 5, .sub 63 3 1 1 63, .mul 0 1 4 1 5, .mulh 0 1 4 0 1, .absd 1 1 4 1 5, .div 1 1 4 2 0, .rem 1 1 4 1 5,
      .min 1 1 4 1 5, .max 1 1 4 1 5, .neg 63 1 4, .addV16 0 31, .mulV16 0 31].all s.clear) = true := by decide
theorem witness_VectorBitsAndShifts : let s := withV [(4, 13, 3), (5, 0, 9), (63, 7, 5)]
    s.firstTag 1 4 3 5 = some 13 ∧ s.tagsDiffer 1 4 3 5 = false ∧ s.firstTag 1 63 3 63 = some 7 ∧ isIntTag 7 = true ∧
    ([.and 0 1 4 3 5, .or 63 1 4 3 5, .xor 0 1 4 3 5, .andn 0 1 4 3 5, .shl 1 1 63 3 63, .shr 1 1 63 3 63, .sar 1 1 63 3 63,
      .rot 1 1 63 3 63, .mov 63 1 4, .clz 0 1 5, .ffs 0 1 5, .popc 0 1 5, .brev 0 1 5, .movV16 31 31].all s.clear) = true := by
  decide
theorem witness_VectorFloats : let s := withV [(4, 8, 3), (5, 8, 9), (31, 11, 0), (63, 11, 5)]
    s.firstTag 1 4 1 5 = some 8 ∧ s.tagsDiffer 1 4 1 5 = false ∧ s.firstTag 0 1 1 63 = some 11 ∧ isFloatTag 8 = true ∧
    isFloatTag 11 = true ∧ (s.v 31).tag = 11 ∧
    ([.add 0 1 4 1 5, .sub 63 0 1 1 63, .mul 0 1 4 1 5, .div 0 1 4 1 5, .min 0 1 4 1 5, .max 0 1 4 1 5, .absd 0 1 4 1 5,
      .fma 31 0 1 1 63, .fms 31 0 1 1 63, .neg 63 1 4, .addV16 31 31, .mulV16 31 31].all s.clear) = true := by decide
theorem witness_VectorFusedAndSpecial : let s := withV [(3, 0, 1), (4, 0, 3), (5, 3, 9), (6, 8, 2), (63, 11, 5)]
    s.firstTag 1 3 1 4 = some 0 ∧ s.tagsDiffer 1 3 1 4 = false ∧ (s.v 3).tag = 0 ∧ (s.v 5).tag.toNat < 4 ∧
    isFloatTag (s.v 6).tag = true ∧ isFloatTag (s.v 63).tag = true ∧
    ([.fma 3 1 3 1 4, .fms 3 1 3 1 4, .dot 7 3 4, .dot 7 5 5, .sqrt 1 6, .rsq 1 6, .rcp 1 6, .exp2 63 63, .log2 1 63, .tanh 1 6,
      .scale 1 6 3 32, .scale 63 63 0 0, .dot 7 6 6, .dot 7 63 63].all s.clear) = true := by decide
theorem witness_VectorCompares : let s := withV [(4, 0, 3), (5, 11, 9), (63, 12, 5)]
    s.firstTag 1 4 3 31 = some 0 ∧ s.tagsDiffer 1 4 3 31 = false ∧ s.firstTag 1 5 1 5 = some 11 ∧
    s.firstTag 1 63 1 63 = some 12 ∧ isQid 12 = true ∧
    ([.ceq 0 1 4 3 31, .cne 7 1 5 1 5, .clt 1 1 63 1 63, .cle 7 1 4 0 0].all s.clear) = true := by decide
theorem witness_Reductions : let s := withV [(4, 0, 3), (5, 11, 9), (63, 7, 5)]
    isIntTag (s.v 4).tag = true ∧ isIntTag (s.v 63).tag = true ∧ isFloatTag (s.v 5).tag = true ∧
    ([.ror 0 4, .rsum 63 63, .rmax 1 4, .rmin 1 4, .rsum 2 5, .rmax 2 5, .rmin 2 5].all s.clear) = true := by decide
theorem witness_Conversions : let s := withV [(4, 8, 3), (5, 10, 9), (63, 7, 5)]
    isRaw (s.v 63).tag = false ∧ s.me.badNarrow 8 = false ∧ (s.v 4).tag = 8 ∧ (s.v 5).tag = 10 ∧
    isIntTag (s.v 63).tag = true ∧ ([.cvt 0 63 0, .cvt 63 4 11, .cvtf 1 4 8, .cvtf 1 5 0x29, .tag 63 4 13].all s.clear) = true := by
  decide
theorem witness_Permutes : let s := withV [(4, 8, 3), (5, 8, 9), (63, 7, 5)]
    (s.v 4).tag = (s.v 5).tag ∧ ([.shuf 0 4 1 63, .shuf 63 4 2 63, .slide 0 63 3 63, .slide 1 4 0 0, .zip 63 4 5,
      .bcast 0 0 63 0, .bcast 63 3 32 13].all s.clear) = true := by decide
theorem witness_LaneMoves : let s := withV [(4, 8, 3), (5, 8, 9), (63, 7, 5)]
    (s.v 4).tag = (s.v 5).tag ∧ ([.sel 63 4 5, .mvs 63 63 3 63, .mvs 0 4 0 0, .mvv 63 3 32 3 63, .mvv 4 0 0 2 1, .kand 0 7 7,
      .kor 7 0 1, .knot 7 0, .kuse 7, .kuse 0].all s.clear) = true := by decide
theorem witness_MembershipSets : let s := withV [(4, 2, 3), (5, 4, 9), (63, 12, 5)]
    (s.v 4).tag = 2 ∧ (s.v 5).tag = 4 ∧ (s.v 63).tag = 12 ∧ ([.qand 0 3 3, .qor 3 0 1, .qandn 1 2 3, .qxor 0 0 0, .qcnt 63 3,
      .qidx 63 0 63, .qmark 3 4, .qclr 0 63, .qmark 1 5].all s.clear) = true := by decide
/-- A qid vector, two vectors of different tags, a raw vector; no load is outstanding. -/
theorem witness_FormatFaults : let s := withV [(4, 12, 3), (5, 4, 9), (63, 13, 5)]
    s.firstTag 1 4 0 0 = some 12 ∧ (isIntTag 12 || isFloatTag 12) = false ∧ isIntTag 12 = false ∧
    s.firstTag 1 4 1 5 = some 12 ∧ s.tagsDiffer 1 4 1 5 = true ∧ (isIntTag 13 || isFloatTag 13 || isQid 13) = false ∧
    s.firstTag 1 63 0 0 = some 13 ∧ (s.v 63).tag ≠ 2 ∧ (s.v 63).tag ≠ 4 ∧ (s.v 63).tag ≠ 12 ∧ s.me.loads = [] ∧
    ([.add 0 1 4 0 0, .mulh 0 1 4 0 0, .min 0 1 63 0 0, .and 0 1 4 1 5, .zip 0 4 5, .sqrt 0 4, .clz 0 1 4, .neg 0 1 4,
      .qmark 0 63].all s.clear) = true := by decide

/-! ### Single steps of the arithmetic instructions -/

theorem test_add_wraps : after (.add 63 0 63 3 1) (withG [(63, 0xFFFFFFFFFFFFFFFF)])
    (fun t => t.me.readG 63 == { bits := 0, poison := false } && t.me.pc == 0x1004) = true := by decide
theorem test_g0_stays_zero : after (.addi 0 0 5) (withG []) (fun t => (t.me.readG 0).bits == 0) = true := by decide
theorem test_mulh : after (.mulh 1 0 2 3 0x3F) (withG [(2, 5)]) (fun t => (t.me.readG 1).bits == BitVec.allOnes 64) = true := by
  decide
theorem test_div_zero : after (.div 1 0 2 3 0) (withG [(2, 5)]) (fun t => (t.me.readG 1).bits == BitVec.allOnes 64) = true := by
  decide
theorem test_rem_sign : after (.rem 1 0 2 3 3) (withG [(2, -7)]) (fun t => (t.me.readG 1).bits == -1) = true := by decide
theorem test_sar_whole_width : after (.sar 1 0 2 3 63) (withG [(2, 0x8000000000000000)])
    (fun t => (t.me.readG 1).bits == BitVec.allOnes 64) = true := by decide
theorem test_lith : after (.lith 1 3) (withG [(1, 5)]) (fun t => (t.me.readG 1).bits == 5 * 2 ^ 18 + 3) = true := by decide
theorem test_lanes_wrap : after (.add 1 1 4 3 1) (withV [(4, 0, 0xFF)]) (fun t => lane (t.v 1).bits 8 0 == 0 &&
    lane (t.v 1).bits 8 1 == 1 && (t.v 1).tag == 0) = true := by decide +kernel
/-- 1.0 + 1.0 = 2.0 in f16 (3C00 and 4000). -/
theorem test_add_f16 : after (.add 1 1 4 1 4) (withV [(4, 8, 0x3C00)]) (fun t => lane (t.v 1).bits 16 0 == 0x4000) = true := by
  decide +kernel
theorem test_clz_zero : after (.clz 1 0 2) (withG []) (fun t => (t.me.readG 1).bits == 64) = true := by decide
theorem test_poison_follows : after (.add 1 0 2 0 3) (run (live.writeG 2 1 true))
    (fun t => (t.me.readG 1).poison && t.me.chk.getLsbD 0) = true := by decide

/-! ### Premises of the statements about code, memory and handles (O20-O28) -/

/-- The line of the pc is buffered; it is not; and it holds no instruction. ADD g3,g4,g5 stands at 0x1000. -/
theorem witness_StepRunsDecoded :
    let code : List Byte := [0x0C, 0xC0, 0x14, 0x10, 0xFF, 0xFF, 0xFF, 0xFF]
    let s := { on { ctxs := [(0, live), (1, { live with pc := 0x1004 })], buffer := [codeLine 0x1000 code] } with
               agenda := [.issue 0 0, .issue 0 1] }
    let k : Core := { ctxs := [(0, live)], micro := [page 0x1000 0x1000 true true true] }
    let t := { on k with agenda := [.issue 0 0], dram := Memory.write [] 0x1000 code }
    s.agenda = [.issue 0 0, .issue 0 1] ∧ (s.core 0).gang = none ∧ s.ready 0 0 = true ∧ s.ready 0 1 = true ∧ s.slot 0 1 = true ∧ (s.modCore 0 fun k => { k with turn := 10 }).slot 0 0 = true ∧
    (s.core 0).atBilrok = false ∧ (s.core 0).bilrok = none ∧ ((s.core 0).buffer.map (·.va)) = [0x1000] ∧
    ((codeLine 0x1000 code).halfAt 0x1000) = 0xC00C ∧ ((codeLine 0x1000 code).halfAt 0x1002) = 0x1014 ∧
    isWide 0xC00C = true ∧ stands (decode (Code.wide 0xC00C1014).bytes) (.add 3 0 4 0 5) = true ∧
    refuses (decode (Code.wide 0xFFFFFFFF).bytes) .reservedWord = true ∧
    t.ready 0 0 = true ∧ t.slot 0 0 = true ∧ (t.core 0).buffer = [] ∧ t.lookup 0 0x1000 = some (page 0x1000 0x1000 true true true) ∧
    inPeer 0x1000 = false ∧ t.owned (t.odiOf 0) 0x1000 = true ∧ t.arrayBusy (.channel (channelOf 0x1000)) = false ∧
    Tab.get false t.dramBad 64 = false ∧ t.dram.read 0x1000 4 = [0x0C, 0xC0, 0x14, 0x10] := by decide +kernel

/-- Offset 0, the last aligned word of a handle, and a whole 128-byte set. -/
theorem witness_LocalLoads : let s := on (withTiles [(4, loc 1 0), (5, loc 1 1016), (6, loc 2 0)])
    (nearOffs s (s.formatM 4 0 1) 1 1 .read).isSome = true ∧ (nearOffs s (s.formatM 5 0 8) 8 8 .read).isSome = true ∧
    (nearOffs s (s.formatM 4 0 64) 64 64 .read).isSome = true ∧ (nearOffs s (s.g 5) 8 8 .atomic).isSome = true ∧
    (nearOffs s (s.g 6) 128 128 .read).isSome = true ∧ s.portFree (.localMem 0) 0 = true ∧ (s.logUndo []).isSome = true ∧ s.here.pairing = none ∧ s.me.badNarrow 0 = false ∧
    s.elementBits 0 = 8 ∧ laneCount 0 = 64 ∧
    ([.ld 0 4 0 0, .ld 63 5 7 0, .ldG16 31 5, .vld 63 4 0 0, .qld 3 6, .ldaq 63 5 8 1].all s.clear) = true := by decide +kernel
theorem witness_LocalStores : let s := on (withTiles [(4, loc 1 0), (5, loc 1 1016), (6, loc 2 0)])
    s.here.store.ok = true ∧ s.here.pairing = none ∧ s.mayStore 0 0 = true ∧ s.mayStore 2 8 = true ∧ (s.v 63).tag = 13 ∧ isRaw 13 = true ∧
    nearOffs s (s.formatM 4 0 1) 1 1 .write = some [0] ∧
    nearOffs s (s.formatM 5 0 8) 8 8 .write = some (List.range' 1016 8) ∧ (List.range' 1016 8).Nodup ∧
    (nearOffs s (s.formatM 4 0 64) 64 64 .write) = some (List.range 64) ∧ (List.range 64).Nodup ∧
    nearOffs s (s.g 5) 8 8 .atomic = some (List.range' 1016 8) ∧ (nearOffs s (s.g 6) 128 128 .write).isSome = true ∧ s.portFree (.localMem 0) 0 = true ∧
    (s.logUndo (List.range 64)).isSome = true ∧
    ([.st 0 4 0 0, .st 63 5 7 0, .stG16 31 5, .vst 63 4 0 0, .vst 63 4 13 0, .qst 3 6, .strl 5 63 8 2].all s.clear) = true := by
  decide +kernel
/-- Lanes 0 and 15 are active; the others are excluded by km. -/
theorem witness_GatherScatter :
    let x := ((live.writeG 4 (loc 1 0) false).writeV 2 { tag := 0 }).writeV 5 { bits := 3 * 2 ^ 480, tag := 5 }
    let s := on { withTiles [] with ctxs := [(0, { x with km := 0x8001 })] }
    s.gatherFault 0 5 = false ∧ (s.v 2).tag = 0 ∧ (s.v 5).tag = 5 ∧ laneInt 5 (lane (s.v 5).bits 32 15) = 3 ∧
    nearOffs s (addOffset (s.g 4) 0) 1 1 .read = some [0] ∧ nearOffs s (addOffset (s.g 4) 3) 1 1 .write = some [3] ∧
    s.here.store.ok = true ∧ (s.logUndo []).isSome = true ∧ s.here.pairing = none ∧ s.clear (.vgth 2 4 5) = true ∧ s.clear (.vsct 2 4 5) = true := by
  decide +kernel
theorem witness_Atomics : let s := on (withTiles [(4, loc 1 0), (5, loc 1 1016), (6, loc 1 1020), (7, loc 1 960)])
    let s := s.modMe fun x => x.writeV 0 { tag := 11 }
    s.here.store.ok = true ∧ s.mayStore 3 11 = true ∧ isFloatTag (s.v 0).tag = true ∧
    (nearOffs s (s.g 4) 8 8 .atomic).isSome = true ∧ (nearOffs s (s.g 5) 8 8 .atomic).isSome = true ∧
    nearOffs s (s.g 6) 4 4 .atomic = some (List.range' 1020 4) ∧ nearOffs s (s.g 7) 64 64 .atomic = some (List.range' 960 64) ∧
    (s.logUndo (List.range' 960 64)).isSome = true ∧ s.here.pairing = none ∧
    ([.aadd 0 4 63 0 0, .aand 63 5 0 11 3, .aor 1 4 2 8 1, .axor 1 4 2 8 2, .amin 1 4 2 0 0, .amax 1 4 2 0 0, .axch 1 4 2 0 0,
      .acas 8 4 9 6 3, .afadd 63 6 1 0 0, .avadd 7 0 0 2].all s.clear) = true := by decide +kernel
/-- A page of main memory, the cluster's scratchpad and another core's local memory. -/
theorem witness_FarAccesses :
    let tile : TileEntry := { used := true, rows := 16, rowBytes := 64, granules := [0] }
    let k := withTiles [(7, loc 1 1016), (4, 0x2000), (5, BitVec.ofNat 64 (2 ^ 63 + 2 ^ 61 + 2 ^ 36)), (6, BitVec.ofNat 64 (2 ^ 63 + 2 ^ 48 + 2 ^ 36))]
    let s := { on { k with micro := [page 0x2000 0x2000 true true false] } with
               clusters := [(0, { store := { tiles := [(1, tile)] } })] }
    let s := s.modCore 1 fun k => { k with part := some 0, store := { tiles := [(1, tile)] } }
    s.here.pairing = none ∧ s.mayStore 0 0 = true ∧ farPlace s (s.formatM 4 0 8) 8 8 .write = some (.mem 0x2000) ∧
    farPlace s (s.formatM 4 0 8) 8 8 .read = some (.mem 0x2000) ∧ farPlace s (s.g 4) 8 8 .atomic = some (.mem 0x2000) ∧
    (farPlace s (s.g 5) 8 8 .read).map (·.isLocal) = some true ∧ (farPlace s (s.g 6) 8 8 .read).map (·.isLocal) = some false ∧
    ([.st 0 4 7 0, .ld 63 4 7 0, .ld 1 5 6 0, .ld 1 6 6 0, .aadd 0 4 63 0 0, .acas 63 5 1 11 2, .waita 1 4 2 8 1].all
      s.clear) = true ∧ farPlace s (s.g 4) 8 8 .read = some (.mem 0x2000) ∧
    -- and a word of the own local memory, 0 as g2 is, unlike g4
    nearOffs s (s.g 7) 8 8 .read = some (List.range' 1016 8) ∧ (s.g 2).toNat = 0 ∧ (s.g 4).toNat = 0x2000 ∧ (s.logUndo []).isSome = true ∧
    ([.waita 1 7 2 8 1, .waita 1 7 4 8 1].all s.clear) = true := by decide +kernel
/-- One word for each check: a reserved level, handle 0, another partition, misaligned, unallocated, another generation,
past the end; and pages without permissions, misaligned, with reserved bits, not held. -/
theorem witness_LocationChecks :
    let w := fun (level core handle gen off : Nat) =>
      BitVec.ofNat 64 (2 ^ 63 + level * 2 ^ 61 + core * 2 ^ 48 + handle * 2 ^ 36 + gen * 2 ^ 32 + off)
    let k := withTiles [(1, w 2 0 1 0 0), (2, w 0 4096 1 0 0), (3, w 0 0 0 0 0), (4, w 0 8 1 0 0), (5, w 0 0 1 0 1),
      (6, w 0 0 3 0 0), (7, w 0 0 1 1 0), (8, w 0 0x1FFF 1 0 1024), (9, 0x2000), (10, 0x2001), (11, 0x0200000000000000),
      (12, 0x4000), (13, 0x3000)]
    let s := on { k with micro := [page 0x2000 0x2000 true true false, page 0x3000 0x3000 false false false] }
    (List.range' 1 8).all (fun n => isChip (s.g n)) = true ∧ (List.range' 9 5).all (fun n => !isChip (s.g n)) = true ∧
    chipLevel (s.g 1) = 2 ∧ chipCore (s.g 2) = 4096 ∧ chipHandle (s.g 3) = 0 ∧ s.partOf 8 ≠ s.partOf 0 ∧ s.columnInbox 8 1 = false ∧
    chipOff (s.g 5) % 8 = 1 ∧ ((s.storeAt (.localMem 0)).tile 3).used = false ∧ chipGen (s.g 7) = 1 ∧ chipOff (s.g 8) = 1024 ∧
    chipCore (s.g 8) = 0x1FFF ∧ s.lookup 0 0x2000 = some (page 0x2000 0x2000 true true false) ∧ bitsN (s.g 10) 56 0 % 8 = 1 ∧
    bitsN (s.g 11) 62 57 = 1 ∧ s.lookup 0 0x4000 = none ∧ s.me.walkErr = none ∧ (s.die 0).walks.length < 1024 ∧
    s.lookup 0 0x3000 = some (page 0x3000 0x3000 false false false) ∧ s.me.loads = [] ∧ s.here.pairing = none ∧
    s.clear (.ld 0 1 7 0) = true ∧ s.clear (.st 63 12 7 0) = true := by decide +kernel
/-- A release that is not performed, one that is, a load that read a release. -/
theorem witness_Fences :
    let r : Release := { core := 0, ctx := 0, isEngine := false, scope := 0 }
    let k := withTiles [(4, loc 1 0)]
    let s := on { k with ctxs := [(0, { (k.ctx 0) with relMark := some 0, seen := [r] })],
                         store := { k.store with releases := [(0, some r)] } }
    ([.fence 0 0, .fence 11 3, .fence 8 1, .fence 8 2, .st 0 4 7 0, .ldaq 1 4 0 1, .ldaq 1 4 8 1].all s.clear) = true ∧
    s.here.pairing = none ∧ s.fenceMet 0 0 = true ∧ s.me.relMark = some 0 ∧ s.released 0 0 0 = true ∧ s.here.store.ok = true ∧
    nearOffs s (s.formatM 4 0 8) 8 8 .write = some (List.range 8) ∧ nearOffs s (s.g 4) 8 8 .atomic = some (List.range 8) ∧
    (s.logUndo (List.range 8)).isSome = true ∧ (s.logUndo []).isSome = true ∧
    Tab.get none s.here.store.releases 0 = some r ∧
    -- a store on its way
    let u := { s with net := [packet 1 0x2000 (some 0x2000) (.channel 0) (.write [1] [])] }
    u.fenceMet 8 0 = false ∧ u.fenceMet 8 2 = false ∧ u.released 0 0 0 = true ∧ u.homeInScope 8 0 (.channel 0) = true ∧
    ([.fence 8 0, .fence 8 2].all u.clear) = true := by decide +kernel
/-- Shapes that are invalid, fit, and do not fit; handles to free in each state of their list. -/
theorem witness_Handles :
    let k := withTiles [(1, 0), (2, 16), (3, 70000), (4, loc 1 0), (5, loc 3 0), (6, loc 1 0 + 2 ^ 32), (7, loc 2 0 + 2 ^ 48), (8, 5)]
    let x := ((k.ctx 0).writeE 1 1).writeE 2 (1 + 2 ^ 16)
    let s := on { k with ctxs := [(0, x)] }
    s.here.pairing = none ∧ (s.g 1).toNat = 0 ∧ bitsN (s.me.readE 1) 10 0 = 1 ∧ (s.me.readE 1) &&& 0xF307FF = s.me.readE 1 ∧
    bitsN (s.me.readE 2) 17 16 = 1 ∧ ((s.storeAt (.localMem 0)).tile 3).used = false ∧
    ((s.storeAt (.localMem 0)).tile 1).used = true ∧ ((s.storeAt (.localMem 0)).tile 2).used = true ∧
    1 ≤ ((s.storeAt (.localMem 0)).freeGranules 0).length ∧ (s.storeAt (.localMem 0)).ok = true ∧
    ((s.storeAt (.localMem 0)).freeGranules 0).length < (70000 * 64 + 1023) / 1024 ∧ isChip (s.g 8) = false ∧
    chipCore (s.g 7) = 1 ∧ chipGen (s.g 6) = 1 ∧ chipHandle (s.g 5) = 3 ∧ s.here.holdsRecords 1 = false ∧
    s.here.queuesName 0 0 1 = false ∧ s.here.holding = none ∧
    ([.halloc 9 1 1, .halloc 9 2 1, .halloc 0 3 1, .halloc 63 2 2, .hfree 4, .hfree 5, .hfree 6, .hfree 7, .hfree 8].all
      s.clear) = true ∧
    -- the scratchpad's table has served core 7 in this cycle
    let u := s.arriveAt (.scratch 0) (messageRank 7)
    s.portOpen (.scratch 0) (messageRank 0) = true ∧ u.portOpen (.scratch 0) (messageRank 0) = false ∧
    u.clear (.halloc 63 2 2) = true := by decide +kernel

theorem test_store_then_bytes : after (.st 9 4 3 0) (on (withTiles [(4, loc 1 8), (9, 0x1234)]))
    (fun t => (t.core 0).store.bytes.read 8 3 == [0x34, 0x12, 0]) = true := by decide +kernel
theorem test_load_sign : after (.ld 9 4 1 0) (on { withTiles [(4, loc 1 8)] with
    store := { (withTiles []).store with bytes := [(8, 0x80)] } }) (fun t => (t.me.readG 9).bits == 0xFFFFFFFFFFFFFF80) = true := by
  decide +kernel
theorem test_acas_fails : after (.acas 8 4 9 0 0) (on { withTiles [(4, loc 1 8), (8, 6), (9, 7)] with
    store := { (withTiles []).store with bytes := [(8, 5)] } })
    (fun t => (t.me.readG 8).bits == 5 && (t.core 0).store.bytes.byte 8 == 5) = true := by decide +kernel
/-- The third handle, generation 0, of one row of 64 bytes. -/
theorem test_halloc : after (.halloc 9 2 1) (on { withTiles [] with
    ctxs := [(0, (live.writeG 2 1 false).writeE 1 1)] }) (fun t => (t.me.readG 9).bits == loc 3 0) = true := by decide +kernel
theorem test_past_the_end_traps : after (.ld 9 4 7 0) (on { withTiles [(4, loc 1 1024)] with tvec := 0x8000 })
    (fun t => (t.core 0).tcause == 0x0309 && (t.core 0).tval == loc 1 1024 && t.me.pc == 0x8000) = true := by decide +kernel

/-! ### Premises of the statements about control, traps, helpers and tasks (O29-O40) -/

/-- A table entry of +8 halfwords, high halfword first, stands after JTAB at 0x1000. -/
theorem witness_Branches : let s := on { (withTiles [(1, 0), (2, 1), (63, 0x2000)]) with
      buffer := [codeLine 0x1000 [0, 0, 0, 0, 0, 0, 8, 0]] }
    (s.g 1).toNat < 1 ∧ 1 ≤ (s.g 2).toNat ∧ (codeLine 0x1000 [0, 0, 0, 0, 0, 0, 8, 0]).halfAt 0x1004 = 0 ∧
    (codeLine 0x1000 [0, 0, 0, 0, 0, 0, 8, 0]).halfAt 0x1006 = 8 ∧ s.here.bilrok = none ∧
    ([.bz 1 0x20000, .bz 2 0x1FFFF, .bnz 0 0, .bany 7 1, .bnone 0 1, .bzG16 0 0x20, .bnzG16 31 1, .br 0x800000, .call 0x7FFFFF,
      .br16 0x400, .jr 0 63, .jr 63 1, .ret, .ret16, .nop, .nop16, .jtab 1 1, .jtab 2 1].all s.clear) = true := by decide +kernel
/-- No level, a whole level, four levels open; levels frozen in a handler. -/
theorem witness_Loops :
    let l : Level := { start := 0x1000, stop := 0x1010, count := 1 }
    let s := fun n => run { (live.writeG 1 5 false) with lp := (List.range n).map fun i => (i, l), lpd := n }
    let f := on { ctxs := [(0, live)], handler := true }
    (s 0).loopsFrozen 0 0 = false ∧ (s 0).g 0 = 0 ∧ (s 0).g 1 ≠ 0 ∧ (s 0).me.lpd < 4 ∧ 4 ≤ (s 4).me.lpd ∧ 0 < (s 1).me.lpd ∧
    f.loopsFrozen 0 0 = true ∧ f.me.loads = [] ∧ (s 0).clear (.loop 0 3) = true ∧ (s 3).clear (.loop 1 0x1FFFF) = true ∧
    (s 4).clear (.loop 1 3) = true ∧ (s 1).clear .leave = true ∧ (s 0).clear .leave = true ∧ f.clear .leave = true ∧
    (Tab.get {} (s 1).me.lp 0 : Level).stop = 0x1010 ∧ (Tab.get {} (s 1).me.lp 0 : Level).count = 1 := by decide +kernel
theorem witness_TakingATrap :
    let s := on { ctxs := [(0, live), (1, live)], tvec := 0x8000 }
    s.cur.2 = 0 ∧ s.here.gang = none ∧ s.here.handler = false ∧ s.here.tvec >>> 1 ≠ 0 ∧ s.me.awaits = false ∧
    (run { live with loads := [.g 5] }).me.awaits = true ∧
    ({ s with cur := (0, 1) } : State).cur.2 ≠ 0 ∧ (on { ctxs := [(0, live)] }).here.tvec >>> 1 = 0 ∧
    (on { ctxs := [(0, live)], handler := true }).here.handler = true := by decide
/-- A control context with a handler, a helper, a handler that traps, a phase; a frozen helper past its TRAP. -/
theorem witness_TrapAndBreakpoint :
    let s := on { ctxs := [(0, live), (1, live)], tvec := 0x8000 }
    let h := on { ctxs := [(0, live)], tvec := 0x8000, handler := true }
    let p := on { ctxs := [(0, live)], phase := some { b := 0, start := 0, len := 8 } }
    let x : Context := { live with frozen := some { cause := 0x11, sub := 0, pc := 0x1000, tval := 0, since := 0 } }
    let r := on { ctxs := [(0, live), (10, x)], handler := true, tctx := 10, tcause := 0x11, tpc := 0x1000,
                  buffer := [codeLine 0x1000 [1, 0xEF, 3, 1]] }
    ([.trap 0, .bkpt 0x3FF].all s.clear) = true ∧ ({ s with cur := (0, 1) } : State).clear (.trap 1) = true ∧
    h.clear (.bkpt 1) = true ∧ p.here.inPhase p.cycle = true ∧ s.me.loads = [] ∧ r.clear (.rett 0) = true ∧
    r.here.tctx.toNat ≤ 10 ∧ r.here.tctx ≠ 0 ∧ r.here.tcause.setWidth 8 = (0x11 : BitVec 8) ∧
    (codeLine 0x1000 [1, 0xEF, 3, 1]).halfAt 0x1000 = 0xEF01 ∧ isWide 0xEF01 = true ∧ r.here.bilrok = none := by decide +kernel
theorem witness_ReturnFromTrap :
    let x : Context := { live with frozen := some { cause := 4, sub := 0, pc := 0x1000, tval := 0, since := 0 } }
    let k : Core := { ctxs := [(0, live), (1, x), (10, x)], handler := true, tvec := 0x8000 }
    let c := on k
    let q := on { k with trapQueue := [1, 10] }
    let h := on { k with tctx := 10, tcause := 4 }
    let n := on { ctxs := [(0, live)] }
    c.here.tctx = 0 ∧ c.here.trapQueue = [] ∧ c.clear (.rett 0) = true ∧ q.clear (.rett 0) = true ∧
    (q.here.ctx 1).frozen.isSome = true ∧ q.here.tvec >>> 1 ≠ 0 ∧ h.here.tctx.toNat ≤ 10 ∧ h.clear (.rett 0) = true ∧
    h.clear (.rett 1) = true ∧ h.here.trapQueue.filter (· != 10) = [] ∧ h.here.tcause.setWidth 8 ≠ (0x11 : BitVec 8) ∧
    h.here.tcause.setWidth 8 ≠ (0x12 : BitVec 8) ∧ n.here.handler = false ∧ c.cur.2 = 0 ∧
    ({ c with cur := (0, 1) } : State).cur.2 ≠ 0 := by decide +kernel
/-- A killed control context's check fails with loads outstanding and without. -/
theorem witness_IllegalWords :
    let s := run live
    let o := run { live with loads := [.g 5] }
    let i := Instr.mts 1 0
    s.ready 0 0 = true ∧ s.me.loads = [] ∧ s.intervalDue (.illegalInstruction 0xFFFFFFFF true) = false ∧
    interlocked i s = false ∧ s.intervalDue i = false ∧ (commonFault i s).isSome = true ∧
    interlocked i o = false ∧ (commonFault i o).isSome = true ∧ o.me.loads ≠ [] ∧ o.ready 0 0 = true := by decide +kernel
/-- Helper 1 is free; helpers 1 to 10 are live; a helper issues; a record is held. -/
theorem witness_Helpers :
    let s := on { ctxs := [(0, live.writeG 1 6 false), (2, live)] }
    let full := on { ctxs := (List.range 11).map fun n => (n, live) }
    let held := on { withTiles [] with ctxs := [(0, live), (1, live)],
                                       holding := some { handle := 1, gen := 0, slots := [0, 1] } }
    s.clear (.hstart 63 1) = true ∧ (s.here.ctx 1).live = false ∧ full.clear (.hstart 0 1) = true ∧
    ((List.range' 1 10).all fun n => (full.here.ctx n).live) = true ∧
    ({ s with cur := (0, 2) } : State).clear .hexit = true ∧ ({ full with cur := (0, 10) } : State).clear .hexit16 = true ∧
    ({ held with cur := (0, 1) } : State).clear .hexit = true ∧ held.here.oldHolds = [] ∧
    (held.here.holding.map (·.slots)) = some [0, 1] ∧ s.here.holding = none ∧ s.clear (.hwait 1) = true ∧
    s.clear (.hwait 0) = true ∧ (s.g 1).getLsbD 2 = true ∧ ([.live 1 0, .live 1 1, .live 0 2, .live 1 3].all s.clear) = true := by
  decide +kernel
/-- Cores 0 and 1 park in GANG 2; core 1 has not come; core 1 has a live helper. -/
theorem witness_Gangs :
    let w : Context := { live with wait := .gang 2 false, waitLen := 4 }
    let b : Context := { live with wait := .gang 2 true, waitLen := 4 }
    let s := andCores (on { ctxs := [(0, w)], tvec := 0x8000 }) [(1, { ctxs := [(0, w)], tvec := 0x8000 })]
    let l := on { ctxs := [(0, w)] }
    let h := andCores (on { ctxs := [(0, w)], tvec := 0x8000 }) [(1, { ctxs := [(0, b), (1, live)], tvec := 0x8000 })]
    let g := on { ctxs := [(0, live)], gang := some { members := [0, 1] } }
    gangGroup 0 2 = [0, 1] ∧ (s.ctx 0 0).wait = .gang 2 false ∧ (s.ctx 1 0).wait = .gang 2 false ∧
    (s.core 0).killed = false ∧ (s.core 1).killed = false ∧ (s.core 0).pairing = none ∧ (s.core 1).pairing = none ∧
    (l.ctx 1 0).wait = .none ∧ (h.ctx 1 0).wait = .gang 2 true ∧ (h.core 1).gang = none ∧ (h.core 1).handler = false ∧
    (h.core 1).tvec >>> 1 ≠ 0 ∧ (withG [(1, 2)]).clear (.gang 1) = true ∧ (withG [(1, 8)]).clear (.gang 1) = true ∧
    g.clear .ungang = true := by decide +kernel
theorem witness_StatusRegisters : let s := on (withTiles [(1, 256)])
    s.here.pairing = none ∧ s.here.phase = none ∧ ((List.range 0x48).all fun n =>
      !statusListed n || s.clear (.mfs 63 (BitVec.ofNat 10 n))) = true ∧
    ((List.range 0x48).all fun n => !statusWritable n || s.clear (.mts 1 (BitVec.ofNat 10 n))) = true := by decide +kernel
theorem witness_ExtendedRegisters : let s := run (live.writeG 1 5 true)
    ([.extr 0 0, .extr 63 15, .extl 1 15, .extl 0 0, .chkerr 63].all s.clear) = true ∧ task.record.length = 8 := by decide +kernel
/-- A record waits, none does; a parked TNEXT; no current task; the task of a stage's last point. -/
theorem witness_TaskTurnover :
    let s := on { ctxs := [(0, live)], inbox := [task] }
    let p := on { ctxs := [(0, { live with wait := .tnext 63 })], inbox := [task] }
    let t := { on { ctxs := [(0, live)], inbox := [task], task := some task } with launches := [(1, some (launchOf stage))] }
    s.clear (.tnext 0) = true ∧ s.here.pairing = none ∧ task.record.length = 8 ∧ (run live).here.inbox = [] ∧
    (run live).clear (.tnext 63) = true ∧ (p.ctx 0 0).wait = .tnext 63 ∧ (p.core 0).killed = false ∧ (p.core 0).saved = none ∧
    (p.core 0).task = none ∧ (p.ctx 0 0).waitTaint = false ∧ (run live).clear (.tend 63) = true ∧
    (run live).clear (.tend16 31) = true ∧ (run live).here.task = none ∧ t.clear (.tend 0) = true ∧
    (t.here.task.map (·.shadow)) = some false ∧ ((t.launch 1).bind (·.stage 0)).isSome = true ∧ stage.done = [] ∧
    t.here.stageCoverage t = false ∧ t.released 6 0 0 = true := by decide +kernel
/-- Core 1 is of the partition, core 8 of none, 4096 no core; a mailbox that is full, and one that is not. -/
theorem witness_Messages :
    let s := andCores (on (withTiles [(1, 8), (2, 0x1FFF), (3, 4096), (4, 1)])) [(1, { ctxs := [(0, { live with wait := .mwait })] })]
    let m : Msg := { w0 := 1, w1 := 2, poison := false, src := 0, ctx := 0 }
    let f : MsgFlight := { dst := 1, era := 0, msg := m }
    let full := andCores s [(2, { mailbox := List.replicate 32 m })]
    (s.core 8).part ≠ s.here.part ∧ (s.core 1).part = s.here.part ∧ s.released 6 0 0 = true ∧ s.injectionStall 0 = none ∧
    s.here.pairing = none ∧ ([.msend 0 1, .msend 62 2, .msend 10 3, .msend 10 4, .mwait, .mwait16, .mtake 62, .mtake16 30].all
      s.clear) = true ∧ s.here.mailbox = [] ∧ ({ s with msgs := [f] } : State).msgs = [] ++ f :: [] ∧
    ({ s with msgs := [f] } : State).nextMail 1 = some f ∧ ({ s with msgs := [{ f with waiting := true }] } : State).nextMail 1 = none ∧
    ({ full with msgs := [{ f with dst := 2 }] } : State).nextMail 2 = some { f with dst := 2 } ∧
    f.waiting = false ∧
    (s.core 1).killed = false ∧ (s.core 1).saved = none ∧ (s.core 1).pairing = none ∧ (s.core 1).mailbox.length < 32 ∧
    (full.core 2).mailbox.length = 32 ∧ (s.ctx 1 0).live = true ∧ (s.ctx 1 0).wait = .mwait ∧
    (on { ctxs := [(0, live)], mailbox := [m] }).clear (.mtake 2) = true := by decide +kernel

theorem test_branch_back : after (.bnz 1 (-2)) (withG [(1, 5)]) (fun t => t.me.pc == 0xFFC) = true := by decide
theorem test_call_links : after (.call 8) (withG []) (fun t => t.me.pc == 0x1010 && (t.me.readG 63).bits == 0x1004) = true := by
  decide
/-- The last instruction of a body of count 2 goes back to its start. -/
theorem test_loop_step : after .nop (run { live with lp := [(0, { start := 0xF00, stop := 0x1004, count := 2 })], lpd := 1 })
    (fun t => t.me.pc == 0xF00 && (Tab.get {} t.me.lp 0 : Level).count == 1) = true := by decide
/-- TRAP 7: cause 0x11, tval 7, tret past it, H set. -/
theorem test_trap : after (.trap 7) (on { ctxs := [(0, live)], tvec := 0x8000 }) (fun t => t.here.tcause == 0x11 && t.here.tval == 7 &&
    t.here.tret == 0x1004 && t.here.handler && t.me.pc == 0x8000) = true := by decide +kernel
theorem test_rett : after (.rett 0) (on { ctxs := [(0, live)], tvec := 0x8000, handler := true, tret := 0x2000 })
    (fun t => !t.here.handler && t.me.pc == 0x2000) = true := by decide +kernel
theorem test_mts_mqw_zero : after (.mts 1 0x00E) (withG [(1, 0x10)]) (fun t => t.here.mqw == 1) = true := by decide +kernel
theorem test_mtake_empty : after (.mtake 2) (withG []) (fun t => (t.me.readG 2).bits == 0xF0000000) = true := by decide +kernel

/-! ### Premises of the statements about buffers, pairs, homes, replies and copies (O41-O45) -/

/-- Bases and shapes that are bad and good; stages free and filled; waiting contexts first in line; stages to fill and free. -/
theorem witness_CircularBuffers :
    let k := withTiles [(1, loc 1 0), (2, 5), (3, 64 + 2 * 2 ^ 24), (4, 64 + 2 ^ 24)]
    let s := on k
    let free := withBuffer s (buffer [.free, .free])
    let full := withBuffer s { buffer [.filled, .filled] with head := 1 }
    let acq := on { k with ctxs := [(0, { (k.ctx 0) with wait := .cbacq 0 5 })] }
    let rd := on { k with ctxs := [(0, { (k.ctx 0) with wait := .cbwait 0 5 })] }
    let wa := withBuffer acq { buffer [.free, .filled] with waitAcq := [(0, 0)] }
    let wf := withBuffer acq { buffer [.filled, .free] with waitAcq := [(0, 0)] }
    let ra := withBuffer rd { buffer [.filled, .free] with waitRd := [(0, 0)] }
    let mid := withBuffer s (buffer [.free, .acquired, .taken])
    s.here.pairing = none ∧ clusterOf s.cur.1 = 0 ∧ s.cb 0 0 = none ∧ isChip (s.g 2) = false ∧ bitsN (s.g 4) 28 24 = 1 ∧
    bitsN (s.g 3) 28 24 = 2 ∧ bitsN (s.g 3) 23 0 = 64 ∧ ([.cbinit 3 2 0, .cbinit 4 1 15, .cbinit 3 1 0, .cbacq 5 0, .cbwait 5 15,
      .cbcom 0, .cbrel 15].all s.clear) = true ∧ (free.cb 0 0).isSome = true ∧ free.clear (.cbacq 63 0) = true ∧
    free.clear (.cbwait 0 0) = true ∧ full.clear (.cbwait 63 0) = true ∧ full.clear (.cbacq 0 0) = true ∧
    (wa.ctx 0 0).wait = .cbacq 0 5 ∧ (wf.ctx 0 0).wait = .cbacq 0 5 ∧ (ra.ctx 0 0).wait = .cbwait 0 5 ∧
    (wa.cb 0 0).map (·.waitAcq) = some [(0, 0)] ∧ (ra.cb 0 0).map (·.waitRd) = some [(0, 0)] ∧
    mid.clear (.cbcom 0) = true ∧ mid.clear (.cbrel 0) = true ∧ mid.released 3 0 0 = true ∧
    (buffer [.free, .acquired, .taken]).stages.getD 1 .free = .acquired ∧ free.clear (.cbcom 0) = true := by decide +kernel
theorem witness_Pairing :
    let w : Context := { live with wait := .pair 0, waitLen := 4 }
    let z : Context := { live with wait := .interval }
    let write := packet 1 0x2000 (some 0x2000) (.channel 0) (.write [1] [])
    let s := andCores (on { ctxs := [(0, live)] }) [(1, { ctxs := [(0, live)] })]
    let r := andCores (on { ctxs := [(0, w)], tvec := 0x8000 }) [(1, { ctxs := [(0, w)] })]
    let late : State := { r with cycle := 2 ^ 20 }
    let i := andCores (on { ctxs := [(0, z)], pairing := some (pairingOf 1 true) }) [(1, { ctxs := [(0, z)], pairing := some (pairingOf 0 false) })]
    let j := andCores (on { ctxs := [(0, z)], pairing := some (pairingOf 1 true) })
      [(1, { ctxs := [(0, z)], pairing := some { pairingOf 0 false with print := 1 } })]
    let u := on { ctxs := [(0, live)], pairing := some { pairingOf 1 true with retired := 0 } }
    s.clear .pair = true ∧ partnerOf 0 = 1 ∧ partnerOf 1 = 0 ∧ (s.core 1).killed = false ∧ (s.core 1).part = some 0 ∧
    s.clear .unpair = true ∧ r.pairWaits 0 = true ∧ r.pairWaits 1 = true ∧ (r.core 0).pairing = none ∧
    (r.ctx 0 0).wait = .pair 0 ∧ r.cycle < 0 + 2 ^ 20 ∧ 0 + 2 ^ 20 ≤ late.cycle ∧ (late.core 0).gang = none ∧
    (late.core 0).handler = false ∧ (late.core 0).tvec >>> 1 ≠ 0 ∧ (i.core 0).pairing = some (pairingOf 1 true) ∧
    (i.core 1).pairing = some (pairingOf 0 false) ∧ (i.ctx 0 0).wait = .interval ∧ (i.ctx 1 0).wait = .interval ∧
    (j.core 1).pairing.map (·.print) = some 1 ∧ u.here.gang = none ∧ u.here.pairing ≠ none ∧
    u.clear .unpair = true ∧
    -- held releases and writes, and what they wait for
    ({ pairingOf 1 true with outbox := [.packet { write with order := 2 }] } : Machine.Pairing).outbox ≠ [] ∧
    ({ i with net := [write] } : State).released 8 0 0 = false ∧ write.order = 0 ∧ write.home ≠ .peer 3 ∧
    (match State.sendOutbox 0 [.packet { write with order := 2, scope := 8 }] { i with net := [write] } with
      | (_, rest) => rest == [.packet { write with order := 2, scope := 8 }]) = true ∧
    (State.sendOutbox 0 [.packet write] i).2 = [] := by decide +kernel
/-- Main memory of the domain and of another; the cluster's scratchpad; a remote core's memory without a window, a handle
that is gone, a killed core; and a request behind another. -/
theorem witness_HomePerforms :
    let tile : TileEntry := { used := true, rows := 16, rowBytes := 64, granules := [0] }
    let sp := BitVec.ofNat 64 (2 ^ 63 + 2 ^ 61 + 2 ^ 36)
    let rem := BitVec.ofNat 64 (2 ^ 63 + 2 ^ 48 + 2 ^ 36)
    let base := andCores { on { ctxs := [(0, live)] } with clusters := [(0, { store := { tiles := [(1, tile)] } })] }
      [(1, { store := { tiles := [(1, tile)] } }), (2, { killed := true })]
    let at' := fun (p : Packet) => ({ base with net := [p] } : State)
    let h := Home.channel (channelOf 0x2000)
    let rd := packet 1 0x2000 (some 0x2000) h (.read 8)
    let near : Packet := { packet 1 sp none (.scratch 0) (.read 8) with isLocal := true }
    let far := packet 1 rem none (.localMem 1) (.read 8)
    let gone : Packet := { packet 1 (sp + 2 ^ 36) none (.scratch 0) (.write [1] []) with isLocal := true }
    let dead : Packet := { packet 1 (rem + 2 ^ 48) none (.localMem 2) (.read 8) with op := some 7 }
    let watch : Packet := { packet 1 sp none (.scratch 0) (.watch 0 5) with isLocal := true }
    let two : State := { base with net := [rd, { rd with id := 2 }] }
    (at' rd).net.find? (fun q => q.id == rd.id) = some rd ∧ (at' rd).nextAtHome rd = true ∧ base.dram.wf = true ∧
    base.owned 0 0x2000 = true ∧ base.owned 1 0x2000 = false ∧ (at' near).nextAtHome near = true ∧
    base.tileFor (.scratch 0) sp 8 = some tile ∧ base.tileFor (.scratch 0) (sp + 2 ^ 36) 1 = none ∧
    (base.core 1).admits 0 0 1 (base.wants far) = false ∧ far.isLocal = false ∧ (base.core 2).killed = true ∧
    namedCore 0 (rem + 2 ^ 48) = 2 ∧ (at' dead).nextAtHome dead = true ∧ (at' gone).nextAtHome gone = true ∧
    (at' watch).watched watch = some (0, false, none) ∧ namedCore 0 sp = 0 ∧ (base.core 0).killed = false ∧
    two.nextAtHome { rd with id := 2 } = false ∧ (base.storeAt (.scratch 0)).ok = true ∧
    (tile.physAll 1 0 0 8).Nodup := by decide +kernel
theorem witness_Replies :
    let p : Packet := { packet 1 0x2000 (some 0x2000) (.channel (channelOf 0x2000)) (.read 8) with op := some 9 }
    let r : Reply := { packet := p, answer := .done, data := List.replicate 8 1, poison := false, release := none }
    let w : Context := { live with wait := .reply 9, waitLen := 4 }
    let s : State := { run live with replies := [r], ops := [(9, some (opTo (.scalar 5 6)))] }
    let t : State := { run w with replies := [r], ops := [(9, some (opTo (.scalar 5 6)))] }
    let h : State := { on { ctxs := [(1, w)] } with replies := [{ r with answer := .nack }], ops := [(9, some { opTo (.scalar 5 6) with ctx := 1 })] }
    let v : Packet := { p with op := none, counted := [0], act := .write [1] [] }
    let wt : Packet := { packet 1 0x2000 (some 0x2000) (.channel (channelOf 0x2000)) (.watch 5 0) with op := some 9, armed := some false, timeout := 1 }
    let a : State := { run { live with wait := .waita 9 } with net := [wt], ops := [(9, some (opTo (.word 5)))], cycle := 1 }
    let eq : State := { a with dram := [(0x2000, 5)] }
    let o : Out := { id := 3, dst := .host 0, body := .store 0 [], core := none, acked := false }
    p.op = some 9 ∧ (Tab.get none s.ops 9).map (·.left) = some 1 ∧ (s.core 0).pairing = none ∧ (s.ctx 0 0).live = true ∧
    (s.ctx 0 0).life = 0 ∧ s.me.wait ≠ .reply 9 ∧ t.me.wait = .reply 9 ∧ (h.ctx 0 1).wait = .reply 9 ∧ (h.ctx 0 1).loads = [] ∧
    v.op = none ∧ v.group = none ∧ v.row = none ∧ v.core < 4096 ∧ v.ctx < 11 ∧ (s.core 0).era = v.era ∧ v.counted = [0] ∧
    (a.armedFor 0 0).map (·.id) = some 1 ∧ a.cycle = 1 ∧ (a.readWatched wt).1 ≠ 5 ∧ (eq.readWatched wt).1 = 5 ∧
    (eq.watched wt).isSome = true ∧ a.watchServed wt = true ∧ a.disowned wt = false ∧
    ({ a with owners := [(0, 1)] } : State).disowned wt = true ∧
    ({ a with dramStacks := [(channelOf 0x2000 / 64, { parked := true })] } : State).watchServed wt = false ∧ wt.poll ≤ a.cycle ∧
    ({ s with outbox := [o] } : State).outbox.find? (fun q => q.id == o.id && !q.acked) = some o ∧ s.budgetLeft 2 0 = true := by
  decide +kernel

/-! ### Premises of the statements about the engines (O45-O47) -/

/-- Flags that are good, that name a bad scope, a reserved bit, a core without a partition; ids queued, running, done and
unknown; a head entry that may start, one that must wait, one that had begun, one of a killed core; guards that match, differ, fail
and stand in a pod peer. -/
theorem witness_Copies :
    let x : Context := [(0x2000 : Word), loc 1 0, 8, 1, 0, 0, 5 * 2 ^ 32, 0, 0, 1].zipIdx.foldl (init := live.writeG 1 1 false) fun (x : Context) f =>
      { x with shadow := Tab.put x.shadow f.2 ⟨f.1, false⟩ }
    let k : Core := { withTiles [] with ctxs := [(0, x)] }
    let far : Word := 0x4000
    let s := { on k with dies := [(0, { cache := [page 0x2000 0x2000 true true false, page 0x4000 (2 ^ 51) true true false] })] }
    let fl := fun (w : Word) => ({ k with ctxs := [(0, { x with shadow := Tab.put x.shadow 6 ⟨w, false⟩ })] } : Core)
    let e : CopyEntry := { fields := x.shadow.map fun f => f.2.bits, id := 1, ctx := 0, life := 0, era := 0, serial := 0, joins := [], queue := none }
    let put := fun (n : Nat) (w : Word) => { e with fields := setAt e.fields n w }
    let queued := fun (e : CopyEntry) => { s with cores := [(0, { k with part := some 0, eqs := [(1, { entries := [e] })] })] }
    let start := queued e
    let begun := queued { e with begun := some ([0], 0, 0) }
    let dead : State := { s with cores := [(0, { k with part := some 0, killed := true, eqs := [(1, { entries := [e] })] })] }
    let full := on { k with eqs := [(0, { entries := List.replicate 16 e })] }
    let known := fun (st : CopyState) => on { k with transfers := [{ id := 1, state := st, scope := 0, ctx := 0 }] }
    s.clear (.eqf 1) = true ∧ s.clear (.cpyset 1 9) = true ∧ s.here.pairing = none ∧ s.scopeFault 0 0 = false ∧
    s.scopeFault 0 4 = true ∧ s.scopeFault 0 12 = true ∧ (on (fl (5 * 2 ^ 32))).me.field 6 = ⟨5 * 2 ^ 32, false⟩ ∧ (on (fl 0)).clear (.cpygo 5) = true ∧
    bitsN ((on (fl 8)).me.field 6).bits 3 2 = 2 ∧ ((on (fl 0)).core 7).part ≠ (on (fl 0)).here.part ∧
    16 ≤ (full.here.serials 0).length ∧ ((on (fl 0)).here.serials 0).length < 16 ∧ s.clear (.cpyst 5 1) = true ∧ s.g 1 = (1 : Word) ∧
    (known .queued).here.transfers ≠ [] ∧ (known (.done 3)).clear (.cpyst 5 1) = true ∧ s.here.transfers = [] ∧
    (start.core 0).eq 1 = { entries := [e], running := none } ∧ start.freeEngine 0 = some 0 ∧ (start.core 0).saved = none ∧
    (start.core 0).joined e.joins = true ∧ (start.core 0).joined [(0, 0)] = true ∧ (start.core 0).joined [(1, 0)] = false ∧
    (dead.core 0).killed = true ∧ ((begun.core 0).eq 1).entries.head?.bind (·.begun) = some ([0], 0, 0) ∧ (begun.core 0).killed = false ∧
    e.fields.getD 7 0 = 0 ∧ chipOff (loc 1 1) % 8 ≠ 0 ∧ start.engineAt 0 (loc 3 0) 8 0 false = .fail 3 ∧
    (start.engineAt 0 (loc 1 8) 8 0 false matches .chip _ _) ∧
    start.engineFree (start.engineAt 0 (loc 1 8) 8 0 false) (engineRank 0 0) = true ∧
    leBits 64 (start.engineRead 0 (start.engineAt 0 (loc 1 8) 8 0 false) 8).1 = (put 7 (loc 1 8)).fields.getD 8 0 ∧
    leBits 64 (start.engineRead 0 (start.engineAt 0 (loc 1 8) 8 0 false) 8).1 ≠ (setAt (put 7 (loc 1 8)).fields 8 7).getD 8 0 ∧
    start.engineAt 0 far 8 0 false = .far (.peer 0) (some (2 ^ 51)) ∧ start.engineStall (.far (.peer 0) (some (2 ^ 51))) false = none := by
  decide +kernel

/-- A copy from main memory to a tile with its one piece to do, and the ways back; a completed one of status 2, and a
buffer that its completion commits. -/
theorem witness_Copies_pieces :
    let x : Context := [(0x2000 : Word), loc 1 0, 8, 1, 0, 0, 5 * 2 ^ 32, 0, 0, 1].zipIdx.foldl (init := live.writeG 1 1 false) fun (x : Context) f =>
      { x with shadow := Tab.put x.shadow f.2 ⟨f.1, false⟩ }
    let k : Core := { withTiles [] with ctxs := [(0, x)] }
    let s := { on k with dies := [(0, { cache := [page 0x2000 0x2000 true true false, page 0x6000 0x20000 true true false] })] }
    let e : CopyEntry := { fields := x.shadow.map fun f => f.2.bits, id := 1, ctx := 0, life := 0, era := 0, serial := 0, joins := [], queue := none }
    let r : CopyRun := { entry := e, engine := 0, status := 0, bytes := 0, left := 0, todo := [0] }
    let runs : State := { s with cores := [(0, { k with part := some 0, eqs := [(1, { running := some r })] })] }
    let d : CopyRun := { entry := e, engine := 0, status := 2, bytes := 8, left := 0 }
    let done := on { k with eqs := [(1, { running := some d })], transfers := [{ id := 1, state := .running, scope := 0, ctx := 0 }] }
    let toBuf : State := withBuffer done (buffer [.acquired, .free])
    ((runs.core 0).eq 1).running = some r ∧ (runs.core 0).saved = none ∧ (copyPieces e.fields)[0]? = some (0, 0x2000, loc 1 0, 8) ∧
    1 ∉ r.todo ∧ 0 ∈ r.todo ∧ runs.budgetLeft 0 (runs.odiOf 0) = true ∧
    runs.engineAt 0 0x2000 8 0 false = .mem 0x2000 ∧ (runs.engineAt 0 (loc 1 0) 8 0 true matches .chip _ _) ∧
    runs.engineAt 0 0x2008 8 0 true = .mem 0x2008 ∧ (runs.engineAt 0 (loc 1 0) 8 0 false matches .chip _ _) ∧
    runs.engineAt 0 (loc 3 0) 8 0 true = .fail 3 ∧ runs.engineAt 0 0x6000 8 0 false = .far (.channel 128) (some 0x20000) ∧
    runs.engineAt 0 0x6000 8 0 true = .far (.channel 128) (some 0x20000) ∧ runs.engineStall (.mem 0x2000) true = none ∧ runs.engineFree (.mem 0x2000) (engineRank 0 0) = true ∧
    runs.engineFree (runs.engineAt 0 (loc 1 0) 8 0 true) (engineRank 0 0) = true ∧
    runs.dram.wf = true ∧ (runs.storeAt (.localMem 0)).ok = true ∧
    (match runs.engineAt 0 (loc 1 0) 8 0 true with | .chip h offs => decide offs.Nodup && h == .localMem 0 | _ => false) = true ∧
    0 < (e.fields.getD 2 0).toNat % 2 ^ 32 ∧ 8 ≤ lineRoom (e.fields.getD 0 0) ∧ 8 ≤ lineRoom (e.fields.getD 1 0) ∧
    (e.fields.getD 9 0).toNat % 2 ^ 32 * ((e.fields.getD 3 0).toNat % 2 ^ 32) = 1 ∧
    ((done.core 0).eq 1).running = some d ∧ d.left = 0 ∧ d.todo = [] ∧ d.guard = false ∧ done.net = [] ∧ (done.core 0).pairing = none ∧
    d.entry.queue = none ∧ 1 < d.status ∧ (done.core 0).era = d.entry.era ∧ (done.ctx 0 0).live = true ∧ (done.ctx 0 0).life = d.entry.life ∧
    (toBuf.cb 0 0).bind (fun b => b.oldest b.head .acquired) = some 0 ∧
    (done.core 0).transfers.find? (fun t => t.id == d.entry.id) ≠ none := by
  decide +kernel

/-- A group operand (VG), a record in memory, a malformed one; options good, reserved, mixed; a guard word in the own
memory; a full queue; tile moves to a busy tile and of an untaken type; batches. -/
theorem witness_MatrixQueue :
    let vg := fun (n : Nat) => BitVec.ofNat 64 (2 ^ 40 + n)
    let opts := BitVec.ofNat 64 (10 + 10 * 32 + 2 ^ 12)
    let x := [(1, (0 : Word)), (2, loc 1 0), (3, 64 + 64 * 2 ^ 16), (4, loc 1 0), (5, 0), (6, loc 1 0), (7, 2 ^ 41)].foldl (init := live)
      fun (x : Context) r => x.writeG r.1 r.2 false
    let x := { (x.writeG 8 0 false).writeG 9 (vg 0) false with e := [(0, opts)] }
    let on' := fun (x : Context) => on { withTiles [] with ctxs := [(0, x)] }
    let opt := fun (w : Word) => on' { x with e := [(0, w)] }
    let s := on' x
    let guarded := on' { x with e := [(0, opts), (1, loc 1 8), (2, 1)] }
    let m : MatEntry := { kind := .mma, tile := 1, options := opts, a := ⟨0, 0, 0, 96, some []⟩, b := ⟨0, 0, 0, 96, some []⟩, rows := [16],
                          fmA := 0, fmB := 0, guarded := false, poison := false, ctx := 0, rowsOut := none, rowData := [],
                          failed := false, readPoison := false, serial := 0, joins := [], next := 0 }
    let full := on { withTiles [] with ctxs := [(0, x)], mq := List.replicate 8 m, openBatch := { tiles := [1] } }
    let batch : Batch := { number := 1, entries := [0], tiles := [1] }
    let open' := on { ctxs := [(0, x)], openBatch := batch, batches := List.replicate 8 batch }
    let wait := on { ctxs := [(0, { live with wait := .mwaitb 0 })], batches := [{ batch with entries := [] }] }
    let commits := on { ctxs := [(0, { live with wait := .mcommit 5 })], openBatch := batch, batches := [{ batch with entries := [] }] }
    let groups := on' { x with e := [(0, opts), (3, loc 1 64)] }
    let odd := on' { x with e := [(0, opts), (1, loc 1 4)] }
    s.me.badNarrow 10 = false ∧ s.me.badNarrow 16 = true ∧ (s.operand 8 true).toBool = true ∧
    (s.operand 8 false).toBool = false ∧ (s.operand 2 true).toBool = true ∧ (s.operand 6 true).toBool = false ∧
    depth 10 0 = some 24 ∧ depth 8 0 = some 48 ∧ depth 2 0 = none ∧ bitsN ((opt (2 ^ 20)).me.readE 0) 23 20 = 1 ∧
    ([.mma 1 8 4, .mmag 1 8 1, .tld 1 2, .tldt 1 2, .tst 1 2, .mcommit 5, .mwaitb 0].all s.clear) = true ∧ s.me.side = [] ∧
    s.here.mq.length < 8 ∧ s.me.readE 1 = 0 ∧ full.clear (.mma 2 8 4) = true ∧ 8 ≤ full.here.mq.length ∧
    guarded.clear (.mma 1 8 4) = true ∧ bitsN (guarded.me.readE 1) 2 0 = 0 ∧
    (nearOffs guarded (guarded.me.readE 1) 8 1 .read).isSome = true ∧ bitsN ((opt 0).me.readE 0) 4 0 = 0 ∧
    bitsN (groups.me.readE 3) 0 0 = 0 ∧ (nearOffs groups (groups.me.readE 3) 8 1 .read).isSome = true ∧
    groups.clear (.mmag 1 8 1) = true ∧ aPieces { m.a with group := none } 0 0 0 = [] ∧
    (∀ r, r < 16 → admits s .read (addOffset (loc 1 0) (BitVec.ofNat 64 (r * 64))) 64 = true) ∧
    (∀ r, r < 16 → admits s .write (addOffset (loc 1 0) (BitVec.ofNat 64 (r * 64))) 64 = true) ∧
    full.here.busy 1 = true ∧ s.here.busy 1 = false ∧ full.clear (.tld 2 2) = true ∧
    open'.here.openBatch.entries ≠ [] ∧ 8 ≤ open'.here.outstandingBatches ∧ open'.clear (.mcommit 5) = true ∧
    s.here.openBatch.entries = [] ∧ open'.clear (.mwaitb 3) = true ∧ 3 < open'.here.outstandingBatches ∧
    s.here.outstandingBatches ≤ 0 ∧ (wait.core 0).batches = [] ++ { batch with entries := [] } :: [] ∧
    (wait.ctx 0 0).wait = .mwaitb 0 ∧ (wait.core 0).pairing = none ∧ bitsN (odd.me.readE 1) 2 0 ≠ 0 ∧
    (commits.core 0).batches = [] ++ { batch with entries := [] } :: [] ∧ (commits.ctx 0 0).wait = .mcommit 5 ∧
    (commits.core 0).openBatch.entries ≠ [] ∧ (commits.core 0).pairing = none := by
  decide +kernel

/-- A busy tile and a free one; vectors of a taken tag and of none; heads ready, absent, of a killed core; a run within
its weight and past it; a step of registers; rows of a tile move; entries that are finished and one that is not. -/
theorem witness_TilesAndSteps :
    let opts := BitVec.ofNat 64 (10 + 10 * 32 + 2 ^ 12)
    let g : List Byte := []
    let m : MatEntry := { kind := .mma, tile := 1, options := opts, a := ⟨0, 0, 0, 96, some g⟩, b := ⟨0, 0, 0, 96, some g⟩, rows := [16],
                          fmA := 0, fmB := 0, guarded := false, poison := false, ctx := 0, rowsOut := none, rowData := [],
                          failed := false, readPoison := false, serial := 0, joins := [], next := 0 }
    let move : MatEntry := { m with kind := .tld, options := 10, a := ⟨loc 1 0, 0, 0, 64, none⟩ }
    let mq := fun (q : List MatEntry) => on { withTiles [] with mq := q, openBatch := { tiles := [1], entries := [0] } }
    let s : State := { mq [m] with clusters := [(0, { last := 0, run := 1 })] }
    let v := withV [(2, 10, 0), (3, 5, 0), (4, 13, 0)]
    let full : MatEntry := { move with rowsOut := some 0, rowData := (List.range 16).map fun r => (8 * r, ([], false)) }
    s.here.busy 1 = true ∧ v.here.busy 1 = false ∧ ([.trd 2 1 2, .trd 2 1 3, .twr 2 1 2, .twr 3 1 3, .tzero 1].all v.clear) = true ∧
    (v.v 2).tag = 10 ∧ (v.v 3).tag = 5 ∧ (v.v 4).tag = 13 ∧ Tab.rising 0 (v.here.tile 1).elems = true ∧
    (s.cluster 0).run = 1 ∧ (s.core ((clusterCores 0).getD 0 0)).headReady = true ∧ (s.core 0).killed = false ∧
    ¬ 1 < max (s.core 0).mqw.toNat 1 ∧ (∀ i, i < 8 → 1 ≤ i → (s.core ((clusterCores 0).getD i 0)).headReady = false) ∧
    (v.core 0).headReady = false ∧ (s.core 0).mq = [m] ∧ optSteps m.options = 1 ∧
    ((mq [move]).core 0).mq = [move] ∧ (∀ r, r < 16 → 64 ≤ lineRoom (addOffset (loc 1 0) (BitVec.ofNat 64 (r * 64)))) ∧
    (∀ r, r < 16 → (mq [move]).rowAt 0 (addOffset (loc 1 0) (BitVec.ofNat 64 (r * 64))) false = .home (.localMem 0) none true) ∧
    (s.core 0).joined m.joins = true ∧ (s.core 0).joined [(4, 0)] = false ∧ { m with guarded := true }.isProduct = true ∧
    { m with guarded := true }.steps = [] ∧ move.rowsOut ≠ some 0 ∧ full.rowsOut = some 0 ∧
    full.rowData = (List.range 16).map (fun r => (8 * r, ([], false))) ∧
    (s.core 0).stepped ((s.matrixStep 0).core 0) = true ∧ m.rowsOut.getD 0 = 0 := by
  decide +kernel

/-! ### Premises of the statements about barriers, the exchange plane, groups and traversal (O48-O51) -/

/-- Rectangles, arrivals, waiting members, phases over and going on. -/
theorem witness_Barriers :
    let k : Core := { ctxs := [(0, [(1, (0x201 : Word) <<< 32), (2, 16), (3, 1 <<< 20), (4, (0x1 : Word) <<< 32)].foldl (init := live)
      fun (x : Context) r => x.writeG r.1 r.2 false)] }
    let s := on k
    let free := on (withBar k (set 0))
    let phase := on (withBar k (set 16))
    let gone := on (withBar k { set 0 with passed := true })
    let came := on (withBar k { set 0 with arrived := true })
    let waits : Core := withBar { k with ctxs := [(0, { live with wait := .barwait 0 })], tvec := 0x8000 } { set 16 with arrived := true, sent := true }
    let at' := fun (as : List ArrivalFlight) (cs : Tab (List (Nat × (BitVec 32 × Word)))) =>
      ({ andCores (on waits) [(1, waits)] with arrivals := as, corners := cs, cycle := 100 } : State)
    let conf : BitVec 32 × Word := (two, 16)
    let flight : ArrivalFlight := { core := 0, corner := 0, b := 0, conf := conf }
    let ended := on { k with phase := some { b := 0, start := 0, len := 0 } }
    let lasts := on { k with phase := some { b := 0, start := 0, len := 9 } }
    s.clear (.barset 2 1 0) = true ∧ rectW (0x201 : BitVec 32) = 2 ∧ rectH (two) = 1 ∧ inRect two 0 = true ∧ inRect two 1 = true ∧
    inRect two 2 = false ∧ (s.g 1).extractLsb' 32 32 = two ∧ bitsN (s.g 2) 63 18 = 0 ∧ bitsN (s.g 3) 63 18 ≠ 0 ∧
    rectW ((s.g 4).extractLsb' 32 32) = 0 ∧ (came.here.bar 0).arrived = true ∧ (s.here.bar 0).conf = none ∧
    (free.here.bar 0).conf ≠ none ∧ free.clear (.barwait 0) = true ∧ (gone.here.bar 0).passed = true ∧
    gone.clear (.barwait 0) = true ∧ gone.clear (.bararv 0) = true ∧ (gone.here.bar 0).arrived = false ∧ phaseLen (two, 16) ≠ 0 ∧ (phase.here.bar 0).conf = some (two, 16) ∧
    (free.here.bar 0).conf = some (two, 0) ∧ phaseLen (two, 0) = 0 ∧ free.clear (.bararv 0) = true ∧
    (came.core 0).killed = false ∧ came.arrivalWaits 0 0 0 two = false ∧ (came.here.bar 0).sent = false ∧
    cornerOf two = 0 ∧ (at' [flight] []).arrivals = [] ++ flight :: [] ∧ (at' [flight] [(0, [(1, (two, 0))])]).corners ≠ [] ∧
    ((at' [] []).ctx 0 0).wait = .barwait 0 ∧ ((at' [] []).core 0).gang = none ∧ ((at' [] []).core 0).handler = false ∧
    ((at' [] []).core 0).tvec >>> 1 ≠ 0 ∧ (((at' [] []).core 0).ctx 0).awaits = false ∧ rectCores two = [0, 1] ∧ (rectCores two).Nodup ∧
    (Tab.get [] (at' [] [(0, [(1, conf), (0, conf)])]).corners 0 : List (Nat × (BitVec 32 × Word))) = (1, conf) :: [(0, conf)] ∧
    (∀ m, m < 2 → (((at' [] []).core m).bar 0).sentAt + releaseTime two ≤ 100) ∧ ((at' [] []).core 1).killed = false ∧
    (((at' [] []).core 1).bar 0).conf = some conf ∧ ended.here.phase ≠ none ∧ 0 + 0 ≤ ended.cycle ∧ lasts.cycle < 0 + 9 := by
  decide +kernel
/-- A phase with its slots; directions on and off the mesh; transfers due, colliding, arrived; waiting takers; a gang. -/
theorem witness_Exchange :
    let k : Core := { withBar (withTiles [(1, 4 + 2 ^ 16), (2, 4), (3, 200), (5, 2 ^ 16)]) (set 100) with
                      phase := some { b := 0, start := 0, len := 100 }, tvec := 0x8000 }
    let s := on k
    let xmit : Context := { live with wait := .xmit }
    let t : Transfer2 := { src := 0, slot := 4, hops := 1, dir := 0, arrive := 6, start := 0, value := {}, driven := true }
    let at' := fun (ts : List Transfer2) (cycle : Nat) =>
      ({ andCores (on { k with ctxs := [(0, xmit)] })
          [(1, { k with ctxs := [(0, xmit)] }), (2, { k with ctxs := [(0, { live with wait := .intake 3 6 0 })] })] with
         exchange := ts, cycle := cycle } : State)
    let far : Transfer2 := { t with src := 1, driven := true }
    let long : Transfer2 := { t with hops := 2 }
    let g : Gang := { members := [0, 1] }
    let x : Context := { live with wait := .xchg 3 4 }
    let gang := fun (y : Context) => andCores (on { ctxs := [(0, y)], gang := some g }) [(1, { ctxs := [(0, x)], gang := some g })]
    s.here.inPhase s.cycle = true ∧ stepTo 0 0 1 = some 1 ∧ stepTo 0 1 1 = none ∧ stepTo 0 2 1 = none ∧ stepTo 0 3 1 = some 64 ∧
    bitsN (s.g 1) 15 0 = 4 ∧ bitsN (s.g 1) 21 16 = 1 ∧ bitsN (s.g 5) 15 0 = 0 ∧ flightTime 0 1 1 = 2 ∧ 4 + 2 < 100 ∧
    inRect two 1 = true ∧ s.clear (.xmit 2 1 0) = true ∧ s.clear (.intake 2 2 0) = true ∧ bitsN (s.g 3) 15 0 = 200 ∧
    (gang live).clear (.xchg 2 3) = true ∧ { t with driven := false }.first = 4 ∧ (at' [t] 5).lives t = true ∧
    (at' [] 5).firstClash = none ∧ (at' [long, far] 5).firstClash = some 4 ∧ ([long, far].map (·.src)).Nodup ∧
    ((at' [] 5).core 1).gang = none ∧ ((at' [] 5).core 1).handler = false ∧ ((at' [] 5).core 1).tvec >>> 1 ≠ 0 ∧ (((at' [] 5).core 1).ctx 0).awaits = false ∧
    (at' [t] 6).firstClash = none ∧ t.ends = 6 ∧ ((at' [t] 6).core 0).pairing = none ∧
    ((at' [far] 6).ctx 2 0).wait = .intake 3 6 0 ∧ far.target = some 2 ∧ far.ends = 0 + 6 ∧ (at' [far] 6).lives far = true ∧
    ((at' [far] 6).core 2).phase = some { b := 0, start := 0, len := 100 } ∧ (at' [far] 6).firstClash = none ∧
    ((gang x).core 0).gang = some g ∧ 2 ≤ g.members.length ∧ g.members.Nodup ∧ ((gang x).core 1).pairing = none ∧
    ((gang x).ctx 0 0).wait = .xchg 3 4 ∧ ((gang x).ctx 1 0).wait = .xchg 3 4 ∧ ((gang live).ctx 0 0).wait = .none := by decide +kernel
/-- A rectangle inside the plot and one outside; a group free, pending, set; sums that merge and that do not; heads new,
old and in a cycle; slots lost with their header and without, of posted and answered packets. -/
theorem witness_GroupsAndLinks :
    let conf : Word := (0x201 : Word) <<< 32 ||| 0x00100000
    let k : Core := withBar (withTiles [(1, conf), (2, conf ||| (0x40 : Word) <<< 56), (3, 0), (4, 7)]) (set 0)
    let s := on k
    let pending := on { k with groups := [(0, { conf := some conf, pending := 1 })] }
    let grouped := on { k with groups := [(0, { conf := some conf })] }
    let wait := fun (n : Nat) => ({ on { k with ctxs := [(0, { live with wait := .grpset 0 0 conf })],
                                                groups := [(0, { conf := some conf, pending := n })] } with cycle := 2 ^ 22 } : State)
    let p := packet 1 (loc 1 0 + 2 ^ 48) none (.localMem 1) (.atomic 0x19 8 3 0)
    let q : Packet := { p with id := 2, act := .atomic 0x19 8 4 0, counted := [0] }
    let away : Packet := { p with home := .localMem 1, router := 0 }
    let back : Packet := { p with id := 2, home := .localMem 0, router := 1 }
    let net := fun (ps : List Packet) => ({ s with net := ps, cycle := 4096 } : State)
    let slot : ReplaySlot := { link := 0, seq := 0, kind := .request, packet := 1, lost := some true }
    let posted : State := { net [p] with replay := [slot] }
    let asked : State := { net [{ p with op := some 3 }] with replay := [{ slot with lost := some false }] }
    bitsN (s.g 3) 7 0 = 0 ∧ rectW (groupRect (s.g 1)) = 2 ∧ rectH (groupRect (s.g 1)) = 1 ∧ s.here.plot = some two ∧
    rectX (groupRect (s.g 2)) + rectW (groupRect (s.g 2)) = 66 ∧ s.clear (.grpset 1 3) = true ∧ (s.here.group 0).pending = 0 ∧
    (pending.here.group 0).pending ≠ 0 ∧ pending.clear (.grpset 1 3) = true ∧ ((wait 1).ctx 0 0).wait = .grpset 0 0 conf ∧
    ((wait 1).core 0).pairing = none ∧ (((wait 1).core 0).group 0).pending ≠ 0 ∧ 0 + 2 ^ 22 ≤ (wait 1).cycle ∧
    (((wait 0).core 0).group 0).pending = 0 ∧ (s.here.group 0).conf = none ∧ (grouped.here.group 0).conf = some conf ∧
    grouped.injectionStall 0 = none ∧ grouped.clear (.mcast 2 3) = true ∧ rectCores (groupRect conf) = [0, 1] ∧
    grouped.here.store.ok = true ∧ (grouped.tileFor (.localMem 0) (BitVec.ofNat 64 (2 ^ 63 + 2 ^ 36)) 64).isSome = true ∧
    (net [p, q]).net.find? (fun r => r.id == 1) = some p ∧ mayMerge p q = true ∧ (net [p, q]).foremost q 1 = true ∧ (net [p, q]).foremost p 2 = true ∧ meetingRouter p q = some 0 ∧ slot.kind = .request ∧
    (∀ r, r ∈ grouped.net → r.armed = none) ∧ grouped.portFree (.localMem 0) 0 = true ∧ grouped.here.pairing = none ∧
    mayMerge p { q with order := 1 } = false ∧ (net [away, back]).headAt 0 = some away ∧ away.since + 4096 ≤ 4096 ∧
    (net [{ away with probed := true }, back]).cyclic 0 = true ∧ (net [away]).cyclic 0 = false ∧
    posted.replay = [] ++ slot :: [] ∧ posted.net.find? (fun q => q.id == slot.packet) = some p ∧ p.op = none ∧
    asked.net.find? (fun q => q.id == slot.packet) = some { p with op := some 3 } ∧ p.act.isAtomic = true ∧
    (s.core p.core).era = p.era ∧ (s.ctx p.core p.ctx).live = true ∧ (s.ctx p.core p.ctx).life = p.life := by decide +kernel
/-- A core in a plot and one in none; an arrival that joins, one that is new, one to a killed home; records answered and
not; parts of a set; modes. -/
theorem witness_Traversal :
    let k : Core := withBar (withTiles [(1, 5), (2, 2 ^ 20 + 5), (3, 8), (4, 1), (5, 0x2000)]) (set 0)
    let s := on k
    let none' := on (withTiles [(1, 5)])
    let m : MeetFlight := { id := 1, core := 0, home := 1, node := 5, stamp := 0, tid := 0, set := 1 }
    let e : Conf := { node := 5, stamp := 0, owner := 0, set := 1 }
    let home := fun (h : Core) => ({ andCores s [(1, h)] with meets := [m] } : State)
    let met := fun (w : Wait) => ({ live with wait := w, meet := some ⟨5, 1⟩ } : Context)
    let held' := fun (ssn : BitVec 32) (cs : List Conf) => andCores (on { withBar { ctxs := [(0, met (.meetq 6 2 ⟨5, 1⟩))] }
        { set 0 with conf := some (0x101, 0) } with ssn := [(0, ssn)], conf := cs, mode := 1 }) []
    let q := fun (set0 part : QSet) => run { live.writeG 1 0x2000 false with q := [(0, set0), (2, part)] }
    let busy : Core := { ctxs := (List.range 11).map fun n => (n, { live with q := [(0, 3), (2, 1)] }) }
    let tile : TileEntry := { used := true, gen := 2, rows := 256, rowBytes := 64, granules := List.range 4 }
    let held : Core := { busy with store := { tiles := [(1, tile)] }, holding := some { handle := 1, gen := 2, slots := [] } }
    let cf := fun (w : Word) => on { held with ctxs := [(0, live.writeG 1 w false)] }
    s.here.pairing = none ∧ s.injectionStall 0 = none ∧ none'.here.plot = none ∧ s.here.plot = some two ∧ s.clear (.meet 1) = true ∧
    rectW two ≠ 0 ∧ rectH two ≠ 0 ∧ rectX two + rectW two ≤ 64 ∧ rectY two + rectH two ≤ 64 ∧
    (home {}).meets = [] ++ m :: [] ∧ (home {}).meetHeld m = false ∧ ((home { conf := [e] }).core 1).conf.length ≤ 256 ∧ ((home { conf := [e] }).core 1).conf = [e] ∧ ((home { killed := true }).core 1).killed = true ∧
    ((home { conf := [{ e with node := 6 }] }).core 1).killed = false ∧ (run (met .none)).clear (.meetq 6 2) = true ∧
    ((held' 2 []).ctx 0 0).wait = .meetq 6 2 ⟨5, 1⟩ ∧ (run (met .none)).me.meet = some ⟨5, 1⟩ ∧ ((held' 2 []).core 0).pairing = none ∧
    ((held' 2 [{ e with stamp := 1 }]).core 0).plot = some 0x101 ∧ homeOfNode 0x101 1 5 = 0 ∧
    (Tab.get 0 ((held' 2 []).core 0).ssn 0 : BitVec 32) = 2 ∧ (q 1 0).clear (.split 6 1 2) = true ∧ (q 1 0).me.readQ 2 = 0 ∧
    (q 1 1).me.readQ 0 &&& ~~~(q 1 1).me.readQ 2 = 0 ∧ (q 3 1).me.readQ 0 &&& ~~~(q 3 1).me.readQ 2 ≠ 0 ∧
    ((q 3 1).here.ctx 1).live = false ∧ (q 3 1).clear (.split 6 1 2) = true ∧ (on busy).here.freeSlots = [] ∧
    (∀ n, n ≤ 10 → ((on busy).here.ctx n).live = true) ∧ (on held).here.freeSlots ≠ [] ∧ (on held).clear (.split 6 1 2) = true ∧
    (on held).here.store.ok = true ∧ (cf (2 ^ 20 + 2 * 2 ^ 16 + 5)).clear (.cfcfg 1) = true ∧ tile.rows * tile.rowBytes = 16384 ∧
    (cf 3).clear (.cfcfg 1) = true ∧ (cf 0).clear (.cfcfg 1) = true ∧ (cf (2 * 2 ^ 20)).here.store.tile 2 = {} := by decide +kernel

/-! ### Premises of the statements about coverage, tasks, partitions (O52-O54) -/

/-- A coverage stage of four by four points with code 3, of which 4, 5, 6, 9 are skipped and 4 and 9 are samples; no task,
a declared one; errors none, above, below, not a number. -/
theorem witness_Coverage :
    let d : StageDesc := { desc with i := 4, j := 4, coverage := true, rtype := 10, tile := 4, result := 0x2000 }
    let band : Band := { code := 3, errors := [] }
    let r : StageRun := { freshStage d true none [0] 3 with bands := [(0, band)], code := 3, final := List.range 16 }
    let l : Launch := { launchOf r with height := 8, period := 3, code := 3, cmax := 7, hi := 0x3F800000 }
    let q : Task := { task with point := 5 }
    let at' := fun (l : Launch) (q : Option Task) (done : Bool) =>
      ({ on { ctxs := [(0, live)], task := q, cvdone := done } with launches := [(1, some l)], dies := [(0, { cache := [page 0x2000 0x2000 true true false] })] } : State)
    let s := at' l (some q) false
    let fresh := { l with stages := [{ r with bands := [] }] }
    let ended : Launch := { l with finished := true }
    let plain : Launch := { l with stages := [{ r with desc := { d with coverage := false } }] }
    let known : StageRun := { r with recs := [(4, [(0, false)])] }
    let twice : StageRun := { r with bands := [(0, band), (1, band)], last := some (0, 7) }
    let errs := fun (es : List (Nat × BitVec 32)) => { l with stages := [{ r with bands := [(0, { band with errors := es })], done := List.range 16 }] }
    s.clear .cvdone = true ∧ (at' l none false).here.task = none ∧ s.here.task = some q ∧ s.here.cvdone = false ∧
    (at' l (some q) true).here.cvdone = true ∧ s.here.pairing = none ∧ s.released 6 0 0 = true ∧ s.stageOf 1 0 = some r ∧
    s.clear (.cvst 5 0) = true ∧ s.clear (.cvst 5 1) = true ∧ s.clear (.cvst 5 2) = true ∧ s.launch 1 = some l ∧ l.stage 0 = some r ∧
    r.last = none ∧ twice.last ≠ none ∧ 2 ≤ twice.bands.length ∧ twice.codes.length ≤ twice.bands.length - 2 ∧
    plain.stage 0 ≠ none ∧ l.bandCount d = 1 ∧ fresh.finished = false ∧ ended.finished = true ∧
    l.samples d 3 0 = [4, 9] ∧ l.skipped d 3 0 = [4, 5, 6, 9] ∧ 0 ∈ Tab.keys r.bands ∧ l.computed d 3 5 = false ∧
    (∀ x, x ∈ (l.sources d 3 5).1 → x.2 ∈ r.final) ∧ r.rebuilt 5 = false ∧ s.budgetLeft 4 l.id.toNat = true ∧
    (s.loadSources l r (l.sources d 3 5).1).1.isSome = true ∧ (l.samples d 3 0).contains 5 = false ∧
    ((s.loadSources l r (l.sources d 3 5).1).2.blockedPieces l (d.resultAt 5) (d.pieces (d.resultAt 5))).isNone = true ∧
    known.rebuilt 4 = true ∧ 4 ∈ r.final ∧ (s.readPieces l (d.resultAt 4) (d.pieces (d.resultAt 4))).1.isSome = true ∧
    (∀ p, p ∈ l.bandPoints d 0 → p ∈ List.range 16) ∧ r.codes.length = 0 ∧
    ({ l with period := 16 } : Launch).samples d 0 0 = [] ∧ l.bandError [] = none ∧
    l.bandError [(4, 0x40000000), (9, 0)] = some 0x40000000 ∧ (l.bounds.1.lt (fmtF32.decode 0x40000000)) = true ∧
    ((fmtF32.decode 0x3E000000).lt l.bounds.2) = true ∧ (fmtF32.decode 0x7FC00000).isNan = true ∧
    (errs [(4, 0), (9, 0)]).stages.length = 1 := by decide +kernel
/-- A frozen helper with a handler, without, and behind a reply; a task to deliver, one to deliver again; static handles
held and outstanding; launches with points left and complete, with and without a signal; stages that give and receive;
clusters awake, gated, waking, idle. -/
theorem witness_TasksAndLaunches :
    let f : Frozen := { pc := 0x1004, cause := 1, sub := 2, tval := 3, since := 0 }
    let helper := fun (tvec : Word) (w : Wait) =>
      on { ctxs := [(0, { live with wait := w }), (3, { live with frozen := some f })], tvec := tvec, trapQueue := [3, 5] }
    let again := fun (net : List Packet) => ({ on { redeliver := [task] } with launches := [(1, some (launchOf stage))], net := net } : State)
    let ready : StageRun := { stage with flight := [], ready := [0], walked := 1 }
    let give := { on { ctxs := [(0, live)] } with launches := [(1, some (launchOf ready))] }
    (helper 0x8000 .none).ctx 0 3 ≠ {} ∧ ((helper 0x8000 .none).core 0).trapQueue = 3 :: [5] ∧
    ((helper 0x8000 .none).ctx 0 3).frozen = some f ∧ ((helper 0x8000 .none).core 0).handler = false ∧
    ((helper 0x8000 .none).core 0).inPhase 0 = false ∧ ((helper 0x8000 .none).core 0).killed = false ∧
    ((helper 0x8000 .none).core 0).dueTrap = none ∧ ((helper 0x8000 .none).ctx 0 0).awaits = false ∧ ((helper 0x8000 .none).core 0).gang = none ∧ ((helper 0x8000 (.reply 3)).ctx 0 0).wait = .reply 3 ∧
    ((helper 0 .none).core 0).tvec >>> 1 = 0 ∧ ((helper 0x8000 .none).core 0).tvec >>> 1 ≠ 0 ∧
    ((again []).core 0).redeliver = task :: [] ∧ (again []).stageOf task.launch task.stage = some stage ∧
    (again []).outstanding 0 = false ∧ (again [packet 1 0 none (.localMem 1) (.read 8)]).outstanding 0 = true ∧
    (∀ m, m ∈ task.after → (again []).outstanding m = false) ∧ task.point ∉ stage.done ∧ 2 ≤ task.record.length ∧ (give.deliverable 1).map (fun e => (e.1, e.2.2.2.1)) = some (0, [0]) ∧
    (give.launch 1).map (give.served 1) = some true ∧ ready.desc.paired = false := by
  decide +kernel
/-- Launches with handles held and outstanding, complete with and without a signal; donors and receivers; clusters in each power state. -/
theorem witness_TasksAndLaunches_ends :
    let ready : StageRun := { stage with flight := [], ready := [0], walked := 1 }
    let give := { on { ctxs := [(0, live)] } with launches := [(1, some (launchOf ready))] }
    let handle : StaticHandle := { level := 0, number := 5, rows := 1, rowBytes := 64, rot := 0 }
    let l : Launch := { launchOf stage with handles := [handle], finished := true }
    let kept := fun (l : Launch) (net : List Packet) =>
      ({ on { ctxs := [(0, live)], statics := [1] } with launches := [(1, some l)], net := net } : State)
    let done : Launch := launchOf { stage with done := [0], flight := [] }
    let signal : Launch := { done with signal := 0x2000, value := 9 }
    let told : State := kept { signal with told := true } [{ packet 1 0 none (.peer 0) (.write [0] []) with core := 4096, ctx := 0 }]
    let ends := ({ kept signal [] with dies := [(0, { cache := [page 0x2000 0x2000 true true false] })] } : State)
    let give0 : StageRun := { stage with walked := 1, flight := [], done := [0], cores := [0, 1] }
    let take1 : StageRun := { ready with desc := { desc with high := 1 }, ready := [0, 1], cores := [2] }
    let two : Launch := { launchOf give0 with stages := [give0, take1] }
    let power := fun (p : Power) => ({ give with clusters := [(0, { power := p })], cycle := 3000000 } : State)
    let far : Launch := { launchOf ready with stages := [{ ready with desc := { desc with i := 1000 }, cores := [] }] }
    let wants : State := { power .gated with launches := [(1, some far)] }
    (kept l []).launch 1 = some l ∧ (kept l []).outstanding 0 = false ∧ 1 ∈ ((kept l []).core 0).statics ∧
    (kept l [packet 1 0 none (.localMem 1) (.read 8)]).outstanding 0 = true ∧ (launchOf stage).finished = false ∧
    (∀ r, r ∈ done.stages → r.done.length = r.desc.points ∧ done.compared r = true) ∧ done.signal = 0 ∧ signal.signal ≠ 0 ∧
    ends.dram.wf = true ∧ ends.translateNow 0 0 0x2008 .write = .ok 0x2008 ∧ inPeer 0x2008 = false ∧ ends.owned 0 0x2000 = true ∧
    ends.partDie 0 = 0 ∧ told.unitsQuiet 0 = false ∧ ends.unitsQuiet 0 = true ∧ (ends.unitBlocked 0 0 0x2008).isNone = true ∧
    (∀ p, p ∈ ends.net → p.armed = none) ∧ ends.translateNow 0 0 0x2000 .write = .ok 0x2000 ∧ ends.partSpace 0 = 0 ∧ 0x2000 + 8 ≤ 0x2008 ∧
    two.gives give0 0 = true ∧ take1.desc.high ≤ two.queued 1 take1 ∧ two.queued 1 take1 ≠ 0 ∧ 
    ((kept two []).settle.launch 1).isSome = true ∧ ends.resultsQuiet 1 = true ∧ told.resultsQuiet 1 = true ∧
    hostSide signal.signal = false ∧ hostSide 0x7E00000000000000 = true ∧ (kept signal []).unitsQuiet 0 = true ∧ ((kept signal []).part 0).isSome = true ∧ two.balance + 4096 ≤ 4096 ∧
    (launchOf ready).hasReady = true ∧ 0 + 2500000 * (0 + 1) ≤ (power .awake).cycle ∧
    (wants.cluster 0).power = .gated ∧ (wants.launch 1).map (fun l => l.stages.all fun r => wants.wantsWake 1 0 l r) = some true ∧
    ((power (.waking 0)).cluster 0).power = .waking 0 ∧ ((power .awake).clusterIdle 0 = false) ∧
    (State.reset.clusterIdle 1 = true) ∧ 0 ∈ (power .awake).knownClusters ∧ (∀ c, c ∈ clusterCores 1 → State.reset.inColumn c = false) ∧
    (∃ c, c ∈ clusterCores 63 ∧ State.reset.inColumn c = true) ∧ 0 + 50000 ≤ (power .awake).cycle := by
  decide +kernel
/-- An owned, free core; a unit at rest and one in a handler; saved units; what an error can strike; self-tests due, in
progress, ordered; spare and spent budgets; a stack at rest. -/
theorem witness_CoresAndPartitions :
    let p : Partition := { odi := 0, table := 0, clusters := [0], host := 0, clearing := false }
    let s := on { ctxs := [(0, live)] }
    let clearing : State := { s with parts := [(0, some { p with clearing := true })] }
    let free : State := { s with cores := [(0, {})] }
    let saved := on { saved := some { contexts := [(0, live)], store := {}, tiles := [], mq := [], eqs := [], mailbox := [],
                                      inbox := [], conf := [], barriers := [], step := 0 } }
    let m : Msg := { w0 := 1, w1 := 2, poison := false, src := 0, ctx := 0 }
    let e : CopyEntry := { fields := [], id := 1, ctx := 0, life := 0, era := 0, serial := 0, joins := [], queue := none }
    let struck := on { mailbox := [m], inbox := [task], eqs := [(0, { running := some ⟨e, 0, 0, 0, 0, [], false⟩ })], conf := [⟨1, 2, 3, 4⟩] }
    let test := fun (dead : Bool) (cause : BitVec 3) =>
      on { killed := dead, selfTest := some { classes := 3, cause := cause, since := 0 } }
    let late : State := { s with cycle := s.firmware.selfTestPeriod }
    let parked : State := { s with dramStacks := [(channelOf (nextLine 0 2048 0 * 64) / 64, { parked := true })] }
    let spent : State := { s with budgets := [{ activity := 6, consumer := 0, expert := false, amount := 1, left := 0, stalls := 0 }] }
    let whole : State := { saved with clusters := [(0, { saved := some ({}, []) })] }
    let other := on { killed := true, selfTest := some { classes := 3, cause := 3, since := 0 } }
    free.part 0 = some p ∧ free.firmware.fencesOk = true ∧ free.firmware.service = true ∧ clusterOf 0 ∈ p.clusters ∧ free.inColumn 0 = false ∧ (free.core 0).part = none ∧
    (free.core 0).killed = false ∧ (free.core 0).selfTest = none ∧ (s.core 0).part ≠ none ∧
    clearing.part 0 = some { p with clearing := true } ∧ clearing.traffic (clearing.coresOf [0]) [0] = false ∧
    (s.unit 0).Nodup ∧ (∀ m, m ∈ s.unit 0 → s.preemptible m = true) ∧
    (on { ctxs := [(0, live)], handler := true }).preemptible 0 = false ∧ (saved.unit 0).Nodup ∧ (saved.core 0).saved ≠ none ∧ (whole.cluster 0).saved ≠ none ∧ (s.cluster 0).saved = none ∧
    (∀ m, m ∈ clusterCores 0 → (s.core m).part ≠ none → m ∈ s.unit 0) ∧ ((other.core 0).selfTest.map (·.cause)) = some 3 ∧
    (late.core 0).inbox = [] ∧ (late.core 0).saved = none ∧
    (s.core 0).saved = none ∧ (struck.core 0).mailbox[0]? = some m ∧ (struck.core 0).inbox[0]? = some task ∧
    ((struck.core 0).eq 0).running ≠ none ∧ (struck.core 0).conf.eraseIdx 0 = [] ∧
    (late.core 0).tested + late.firmware.selfTestPeriod ≤ late.cycle ∧ (late.core 0).task = none ∧
    (¬ (s.core 0).tested + s.firmware.selfTestPeriod ≤ s.cycle) ∧ ((test true 3).core 0).selfTest ≠ none ∧
    ((test true 3).core 0).killed = true ∧ (test true 3).drained 0 = true ∧
    ({ test true 3 with net := [packet 1 0 none (.localMem 1) (.read 8)] } : State).drained 0 = false ∧ ((test false 2).core 0).killed = false ∧ s.budgetLeft 6 0 = true ∧
    spent.budgetLeft 6 0 = false ∧ s.arrayBusy (.channel (channelOf (nextLine 0 2048 0 * 64))) = false ∧
    parked.arrayBusy (.channel (channelOf (nextLine 0 2048 0 * 64))) = true := by decide +kernel

/-! ### Premises of the statements about host, pod and reset (O55-O60), and about the encoder (O18) -/

/-- A partition of host 0 whose page of main memory holds bytes from 0x2000 on. -/
def hosted (bs : List Byte) : State :=
  { on { ctxs := [(0, live)] } with dram := Memory.write [] 0x2000 bs, dies := [(0, { cache := [page 0x2000 0x2000 true true false] })] }
/-- Queue 1 with a ring of 16 entries at 0x2000. -/
def ring : Queue := { base := 0x2000, log := 4, k := 1, enabled := true, status := 0x2100 }
def ringed (k : Queue) (bs : List Byte) : State := { hosted bs with queues := [(1, k)] }
/-- The bytes of an entry. -/
def entryBytes (op md imm addr : Nat) : List Byte := leBytes 1 op ++ leBytes 1 md ++ leBytes 6 imm ++ leBytes 8 addr
/-- The entry that queue 1 has read and paid for. -/
def atEntry (s : State) : Option Entry :=
  match (s.queue 1).nextEntry with
  | some a => match (s.partRead (s.queue 1).part a 16).1 with
    | .ok bs _ => if s.budgetLeft 5 1 then some (entryOf bs) else none
    | _ => none
  | none => none
theorem atEntry_spec {s : State} {e : Entry} (h : atEntry s = some e) : ∃ u, s.AtEntry u 1 e := by
  unfold atEntry at h
  split at h
  · next a ha =>
    split at h
    · next bs p hr =>
      split at h
      · next hb => exact ⟨_, a, bs, p, ha, Prod.ext hr rfl, (Option.some.inj h).symm, hb⟩
      · exact absurd h (by simp)
    · exact absurd h (by simp)
  · exact absurd h (by simp)

/-- An owning host and an enabled queue; a configuration that is good and one that is not; entries submitted, a queue of
another host; budgets, cores busy and free, images, a pending hand-over. -/
theorem witness_Packets :
    let s := ringed ring []
    let conf := leBytes 1 2 ++ leBytes 8 0x2000 ++ leBytes 1 (4 + 32) ++ leBytes 1 3 ++ leBytes 8 0x2100 ++ List.replicate 10 0xFF
    let x := fieldAt conf 1 28
    let one := leBytes 1 1 ++ entryBytes 0 0 0 0
    let busy : State := { s with cores := [(0, { inbox := [task] })] }
    let other : State := { s with parts := [(0, some { odi := 0, table := 0, clusters := [0], host := 9, clearing := false })] }
    let off : State := { s with queues := [(1, { ring with enabled := false })] }
    let pending : State := { s with firmware := { s.firmware with handOver := .pending, started := true } }
    let managed : State := { other with parts := other.parts ++ s.parts.map (fun p => (1, p.2)), firmware := { s.firmware with hosts := [(0, (true, false, 0))] } }
    (packetLead (command 0 1 0x010 conf true)).1 = 0x010 ∧ s.ownsPart 0 (bitField x 76 4) = true ∧ other.ownsPart 0 0 = false ∧
    other.manages 0 = false ∧ managed.manages 0 = true ∧ 0 ∈ managed.hostsToTell ∧ (off.queue 1).enabled = false ∧
    fieldAt [0x13, 0xE0, 0, 0] 0 1 = 0x13 ∧ fieldAt [0x13, 0xE0, 0, 0] 1 1 = 0xE0 ∧ packetLead (command 0 1 0x051 [2] true) = (0x051, [2]) ∧
    (packetLead (command 0 1 0x020 [] true)).1 ≠ 0x010 ∧ 0 ∈ s.hostsToTell ∧ s.firmware.service = true ∧ conf.length = 29 ∧
    fieldAt conf 0 1 = 2 ∧ bitField x 0 64 % 16 = 0 ∧ bitField x 64 5 = 4 ∧ bitField x 72 4 = 3 ∧ bitField x 80 64 = 0x2100 ∧
    bitField x 144 10 = 0x3FF ∧ one.length = 17 ∧ fieldAt one 0 1 = 1 ∧ s.ownsQueue 0 1 = true ∧ (s.queue 1).enabled = true ∧
    other.ownsQueue 0 1 = false ∧ off.ownsQueue 0 1 = true ∧ (off.queue 1).enabled = false ∧
    (match s.writeRing (.host 0) 1 1 [entryBytes 0 0 0 0] with | .inl (some _) => true | _ => false) = true ∧
    (match { s with dies := [] }.writeRing (.host 0) 1 1 [entryBytes 0 0 0 0] with | .inl none => true | _ => false) = true ∧
    (leBytes 1 6 ++ leBytes 4 0 ++ leBytes 1 0 ++ leBytes 8 100).length = 14 ∧ (busy.core 0).inbox ≠ [] ∧
    (s.core 0).task = none ∧ (s.core 0).inbox = [] ∧ (s.core 0).selfTest = none ∧ (s.core 0).saved = none ∧
    s.ownsConsumer 6 0 0 = true ∧ other.ownsConsumer 3 0 0 = false ∧ s.ownsCore 0 0 = true ∧ other.ownsCore 0 0 = false ∧
    s.ownsDomain 0 0 = true ∧ other.ownsDomain 0 0 = false ∧ s.tablesFree [(0x2000, 0)] = true ∧ s.channelParked (crashAt 0) = false ∧
    ({ s with dramStacks := [(stackOf (crashAt 0), { parked := true })] } : State).channelParked (crashAt 0) = true ∧
    s.net = [] ∧ pending.firmware.started = true ∧ pending.firmware.handOver = .pending ∧ s.firmware.started = false := by
  decide +kernel
/-- For each operation an entry that is read, at its bounds; ring full and empty, read failed, budget spent; kicks that
move and that do not; delta packets; a due record; periods. -/
theorem witness_Queues_entries :
    let s := fun (bs : List Byte) => ringed ring bs
    let e := fun (op md imm addr : Nat) => decide (atEntry (s (entryBytes op md imm addr)) = some ⟨op, md, imm, BitVec.ofNat 64 addr⟩)
    ring.k = 1 ∧ [e 0 0 0 0, e 0 1 0 0, e 1 1 0 0x2040, e 1 4 0 0x2040, e 1 0 0 0x2041, e 1 3 0 0x2040, e 2 2 0 0x2040, e 2 1 0 0x2040, e 3 129 5 0x2040, e 3 4 5 0x2040, e 4 11 7 0x2040, e 4 12 7 0x2040,
      e 5 (3 + 8) 0 0x2040, e 5 4 0 0x2040, e 6 0 0 0x2040, e 6 0 1 0x2040, e 7 0 0 0x3000, e 8 0 0 0, e 8 0 0 1, e 9 31 0 5, e 9 32 0 5, e 10 0 0 0, e 255 0 0 0].all id = true ∧
    (Entry.askew ⟨1, 0, 0, 0x2041⟩) = true ∧ (Entry.askew ⟨1, 0, 0, 0x2040⟩) = false := by decide +kernel
theorem witness_Queues_effects :
    let s := fun (bs : List Byte) => ringed ring bs
    let spent : State := { s [] with budgets := [{ activity := 5, consumer := 1, expert := false, amount := 1, left := 0, stalls := 0 }] }
    let busy : Queue := { ring with work := [7] }
    let empty : Queue := { ring with k := 0 }
    empty.nextEntry = none ∧ ring.nextEntry = some 0x2000 ∧ ring.dueDispatch = none ∧
    ({ s [] with dies := [] }.partRead 0 0x2000 16).1 = .failed ∧ spent.budgetLeft 5 1 = false ∧ ring.quiet = true ∧ busy.quiet = false ∧
    ((s []).readDescriptor 0 0x2040 matches (.ok _ _, _)) ∧ headerBad (List.replicate 64 0) (launchFrom (List.replicate 64 0) (some 1) ring 0) = true ∧
    (({ s [] with dies := [] }.readDescriptor 0 0x2040).1 = .failed) ∧
    ((s []).startLaunch 1 0x2040 false).1.map (fun v => (v.queue 1).stopped) = some false ∧
    copyFieldsBad 0 = false ∧ copyFieldsBad 4 = true ∧ ((s []).partRead 0 0x2040 80 matches (.ok _ _, _)) ∧
    (((s []).core 0).serials 0).length < 16 ∧
    (((on { eqs := [(0, { entries := List.replicate 16 { fields := [], id := 1, ctx := 0, life := 0, era := 0, serial := 0, joins := [], queue := none } })] }).core 0).serials 0).length = 16 ∧
    ((s []).unitWrite 0 0 0x2040 (leBytes 8 7) false (some (unitRelease 11)) matches (.done, _)) ∧
    hostSide 0x2040 = false ∧ hostSide 0x7E00000000000000 = true ∧ ((s []).part (ring.part)).isSome = true ∧ testHolds 3 0 0 = true ∧ testHolds 1 0 0 = false ∧ 1 + 0 ≤ (ring.k - ring.head).toNat := by decide +kernel
theorem witness_Queues :
    let s := fun (bs : List Byte) => ringed ring bs
    (s []).windowOf 0 (fun k => k.inRing 0x2000 16) = some 1 ∧ (s []).windowOf 0 (fun k => k.inRing 0x20F8 16) = none ∧
    (s []).windowOf 0 (fun k => k.inWindow 0x2100 64) = some 1 ∧ (s []).windowOf 0 (fun k => k.inWindow 0x2140 8) = none ∧
    ((s []).unitReadAs (peerRank 0) ((s []).partDie 0) ((s []).hostSpace 0 1) 3 0x2100 64 matches (.ok _ _, _)) ∧
    atOrPast 0 1 = false ∧ atOrPast 1 1 = true ∧ ({ ring with head := 1 } : Queue).cursor = .ring ∧ ring.stopped = false := by
  decide +kernel
/-- A ring with entries and without, a jump inside it and outside, delta packets good and bad, dispatches due, kicks that move, do not, and overrun. -/
theorem witness_Queues_ring :
    let s := fun (bs : List Byte) => ringed ring bs
    let update := leBytes 8 (2 ^ 40 + 2 ^ 8) ++ leBytes 8 5
    let dispatch := leBytes 8 (2 ^ 63 + 2 ^ 8 + 1) ++ leBytes 8 0x2040
    let due : Queue := { ring with k := 0, deltas := [(0, 0, dispatch)] }
    let empty : Queue := { ring with k := 0 }
    ring.log ≤ 20 ∧ bitsN ring.base 3 0 = 0 ∧ ((0x2040 : Word) - ring.base).toNat < 16 * 2 ^ ring.log ∧
    16 * 2 ^ ring.log ≤ ((0x3000 : Word) - ring.base).toNat ∧ ring.deltas = [] ∧
    due.dueDispatch = some (dispatch, []) ∧ (deltaHeader dispatch).getLsbD 14 = false ∧ due.quiet = true ∧
    bitsN (Tab.get 0 ({ due.applyDelta dispatch with deltas := [] } : Queue).shadow 31 : Word) 3 0 = 0 ∧
    (s []).firmware.service = true ∧ (s []).ownsQueue 0 1 = true ∧ 0 < ((2 : BitVec 32) - ring.k).toNat ∧
    ¬ 0 < (ring.k - ring.k).toNat ∧ 2 ^ ring.log < ((17 : BitVec 32) - ring.head).toNat ∧ deltaBad update = false ∧
    deltaBad dispatch = false ∧ bitsN (deltaHeader update) 7 0 ≠ 1 ∧ bitsN (deltaHeader dispatch) 7 0 = 1 ∧
    bitsN (deltaHeader update) 13 8 = 1 ∧ deltaBad (leBytes 8 2) = true ∧ (maskBits (deltaMask (deltaHeader update)))[0]? = some 8 ∧
    ring.head ≠ ring.k ∧ empty.head = empty.k ∧ ({ ring with dirty := true } : Queue).dirty = true ∧
    ((s []).unitWrite 0 0 ring.status ring.record false (some (unitRelease 9)) matches (.done, _)) ∧
    (s []).cycle < (s []).period + 25000 ∧ 0 + 25000 ≤ ({ s [] with cycle := 25000 } : State).cycle := by
  decide +kernel
/-- A walk to a leaf, a fault, a bad line and a question; an invalidation that holds a walk; questions open, stale and
refused; invalidations for the agent and for a host, with an access under way. -/
theorem witness_TranslationAgents :
    let table := fun (pte : Nat) => [(0x10000, 0x11001), (0x11000, 0x12001), (0x12000, 0x13001), (0x13010, pte)].foldl (init := ([] : Memory))
      fun m e => Memory.write m e.1 (leBytes 8 e.2)
    let w : Walk := { space := 0, va := 0x2000, waiters := [(0, 0)] }
    let s := fun (pte : Nat) (b : List Nat) => ({ on { ctxs := [(0, { live with wait := .walk })] } with
      dram := table pte, parts := [(0, some { odi := 0, table := 0x10000, clusters := [0], host := 0, clearing := false })],
      dies := [(0, { walks := [w], bad := b })] } : State)
    let r : StaReq := { tag := 3, space := 0, kind := 0, va := 0x2000, die := 0, since := 0, waiters := [(0, 0)], stale := false }
    let asks := fun (r : StaReq) => ({ s 0 [] with stas := [r], cycle := 50000 } : State)
    let i : Inv := { id := 4, odi := 0, range := none, waits := [1], asked := .agent 2 }
    let invs := fun (net : List Packet) => ({ asks { r with stale := true } with invs := [i], net := net } : State)
    ((s 0 []).die 0).walks = [] ++ w :: [] ∧ (s 0 []).invalidating 0 0x2000 = false ∧
    (invs []).invalidating 0 0x2000 = true ∧ ((s 0 []).ctx 0 0).wait = .walk ∧
    ((s 0 []).walk 0 0 0x2000).1 = .fault 1 ∧ ((s (0x5000 + 15) []).walk 0 0 0x2000).1 = .leaf (page 0x2000 0x5000 true true false) ∧
    ((s 0x47 [0x13010 / 64]).walk 0 0 0x2000).1 = .bad (0x13010 / 64) ∧ ((s 0x47 []).walk 0 0 0x2000).1 = .shared ∧
    (s 0 []).overtaken (page 0x2000 0x5000 true true false) = false ∧ (invs []).overtaken (page 0x2000 0x5000 true true false) = true ∧
    (asks r).stas = [] ++ r :: [] ∧ r.refused = false ∧ r.since + 50000 ≤ (asks r).cycle ∧ (asks { r with stale := true }).stas ≠ [] ∧
    (pteOk 0 && pteLeaf 0) = false ∧ (invs []).invs = [] ++ i :: [] ∧ i.covers r.space r.va = true ∧
    (∀ p, p ∈ (invs []).net → p.id ∉ i.waits) ∧ (invs [packet 1 0 none (.localMem 1) (.read 8)]).net.any (fun p => i.waits.contains p.id) = true ∧
    ({ i with asked := InvFor.host (.host 0) 1 2 [] } : Inv).asked = .host (.host 0) 1 2 [] ∧ (s 0 []).cycle < r.since + 50000 := by
  decide +kernel
/-- Peers at work and isolated; requests good, bad, busy; a request under way; a silent peer; a core of the column whose
watchdog is over; tables that are valid and awaited. -/
theorem witness_PodAndResets :
    let s := hosted []
    let r : PeerReq := { peer := 3, pa := 0x2000, op := .read 8, info := none }
    let isolated : State := { s with peers := [(3, { isolated := true })] }
    let parked : State := { s with dramStacks := [(channelOf 0x2000 / 64, { parked := true })] }
    let p := packet 1 (BitVec.ofNat 64 (2 ^ 45)) (some (2 ^ 45)) (.peer 3) (.read 8)
    let sent := fun (p : Packet) => ({ s with net := [p], cycle := 50000 } : State)
    let dog : State := { s with cycle := Config.watchdogPeriod }
    let e : FenceEntry := { core := 1, classes := 3, killed := false, cause := 3, cyc := 0, boot := 0 }
    let waits := fun (c f : Bool) => ({ s with firmware := { s.firmware with columnOk := c, fencesOk := f, service := false } } : State)
    (isolated.peer (r.peer)).isolated = true ∧ (s.peer r.peer).isolated = false ∧ reqOk r = true ∧ reqOk { r with op := .read 0 } = false ∧
    reqOk { r with op := .write [1, 2] } = true ∧ reqOk { r with op := .read 256 } = true ∧ reqOk { r with op := .read 257 } = false ∧
    (∀ a, a ∈ reqActs r → s.portFree (.channel (channelOf a.1)) (peerRank r.peer) = true) ∧
    (reqActs r).any (fun a => !parked.portFree (.channel (channelOf a.1)) (peerRank r.peer)) = true ∧ ({ r with posted := true } : PeerReq).posted = true ∧ r.pa % 64 + 2 ≤ 64 ∧ r.pa % 64 + 8 ≤ 64 ∧
    (sent p).net = [] ++ p :: [] ∧ p.home = .peer 3 ∧ p.op = none ∧ ({ p with op := some 2 } : Packet).op ≠ none ∧
    ((sent p).peer 3).isolated = false ∧ ((sent p).peer 3).heard + 50000 ≤ (sent p).cycle ∧ p.core < Config.coreCount ∧
    s.channelParked (crashAt s.firmware.crashNext) = false ∧ s.net = [] ∧ dog.inColumn 63 = true ∧ dog.firmware.role 63 ≠ 0 ∧
    Tab.get 0 dog.firmware.dogs 63 + dog.firmware.column.watchdog ≤ dog.cycle ∧ 0 ∈ s.hostsToTell ∧
    columnValid s.firmware.flash = true ∧ e.core < Config.coreCount ∧ (waits true false).firmware.fencesOk = false ∧
    (waits false true).firmware.columnOk = false ∧ [e].length ≤ 8192 := by decide +kernel
theorem witness_StepKeepsMemories :
    (hosted [1, 2]).memoriesOk = true ∧ (match Machine.step (hosted [1, 2]) with | .next _ => true | _ => false) = true := by
  decide +kernel
/-- Instructions with a word at the ends of their fields, and a row without one. -/
theorem witness_DecodeEncode :
    (Instr.addi 63 0 (-8192)).illFormed = none ∧ (encode (.addi 63 0 (-8192))).isSome = true ∧
    (Instr.add 0 7 63 3 0).illFormed = none ∧ (encode (.add 0 7 63 3 0)).isSome = true ∧
    (encode (.clNop 0)) = none := by decide

/-! ### Single steps of the engines, the planes, the launch and the host (values from the rules named) -/

/-- R148, R150: the first transfer id is 1, and the transfer is queued. -/
theorem test_cpygo : after (.cpygo 5) (run live) (fun t => t.me.readG 5 == ⟨1, false⟩ && (t.here.eq 0).entries.length == 1) = true := by
  decide +kernel
/-- R148: a shadow field keeps the value, read from g2. -/
theorem test_cpyset : after (.cpyset 2 9) (withG [(2, 7)]) (fun t => (t.me.field 9).bits == 7 && (t.me.field 2).bits == 0) = true := by
  decide +kernel
/-- R145: the first batch has number 1. -/
theorem test_mcommit : after (.mcommit 5) (run live) (fun t => (t.me.readG 5).bits == 1) = true := by decide +kernel
/-- R52: TWR writes row 1 from an int32 vector, TRD reads it back. -/
theorem test_twr : after (.twr 3 1 2) (run ((live.writeG 1 1 false).writeV 3 { bits := 0x0000000900000007, tag := 5, poison := false }))
    (fun t => (Tab.get 0 (t.here.tile 1).elems 17 : BitVec 32) == 9 && (t.here.tile 1).isInt) = true := by decide +kernel
/-- R158: a rectangle that leaves the mesh faults with cause 17, its number in tval. -/
theorem test_barset_fault : after (.barset 2 1 3) (on { ctxs := [(0, live.writeG 1 (0x3F000201 <<< 32) false)], tvec := 0x8000 })
    (fun t => t.here.tcause == 0x0017 && t.here.tval == 3 && (t.here.bar 3).conf == none) = true := by decide +kernel
/-- R158: a good one is set. -/
theorem test_barset : after (.barset 2 1 3) (withG [(1, 0x201 <<< 32), (2, 5)]) (fun t => (t.here.bar 3).conf == some (two, 5)) = true := by
  decide +kernel
/-- R167: INTAKE outside a phase is an exchange fault, its slot in tval. -/
theorem test_intake_fault : after (.intake 3 1 0) (on { ctxs := [(0, live.writeG 1 9 false)], tvec := 0x8000 })
    (fun t => t.here.tcause == 0x000C && t.here.tval == 9) = true := by decide +kernel
/-- R171: MCAST sends one packet to the other core of the rectangle and stores in the own memory at once. -/
theorem test_mcast :
    let k := withTiles [(3, 0)]
    let x := (k.ctx 0).writeV 2 { bits := 0xA5, tag := 13, poison := false }
    after (.mcast 2 3) (on { k with ctxs := [(0, x)], groups := [(0, { conf := some ((0x201 : Word) <<< 32 ||| 0x00100000) })] })
      (fun t => t.net.length == 1 && t.net.all (fun p => p.home == .localMem 1) && t.here.store.bytes.byte 0 == 0xA5) = true := by
  decide +kernel
/-- R183: MEET sends its node, and b0 counts 128 bytes. -/
theorem test_meet : after (.meet 1) (on (withBar (withTiles [(1, 5)]) (set 0)))
    (fun t => t.meets.map (·.node) == [5] && (t.here.bar 0).pending == 128) = true := by decide +kernel
/-- R188: SPLIT with a free context gives the part to helper 1 and keeps the rest. -/
theorem test_split : after (.split 6 1 2) (run { live.writeG 1 0x2000 false with q := [(0, 3), (2, 1)] })
    (fun t => (t.me.readG 6).bits == 1 && t.me.readQ 0 == 2 && (t.here.ctx 1).readQ 0 == 1 && (t.here.ctx 1).pc == 0x2000) = true := by
  decide +kernel
/-- R210: outside a task CVST reads 0. -/
theorem test_cvst : after (.cvst 5 1) (withG [(5, 9)]) (fun t => (t.me.readG 5).bits == 0) = true := by decide +kernel
/-- R149: COPY_START copies the piece that it has left, 8 bytes of main memory. -/
theorem test_copy_start :
    let e : CopyEntry := { fields := [0x2000, 0x2040, 8, 1, 0, 0, 0, 0, 0, 1], id := 1, ctx := 0, life := 0, era := 0, serial := 0, joins := [], queue := none }
    let s := hosted [1, 2, 3, 4, 5, 6, 7, 8]
    after (.copyStart 0 ⟨0, 0⟩) { s with cores := [(0, { (s.core 0) with eqs := [(0, { running := some { entry := e, engine := 0, status := 0, bytes := 0, left := 0, todo := [0] } })] })] }
      (fun t => t.dram.read 0x2040 8 == [1, 2, 3, 4, 5, 6, 7, 8] && (((t.core 0).eq 0).running.map (·.status)) == some 0) = true := by
  decide +kernel
/-- R193: NOP moves the interpreter on; RETURN without a CALL stops the queue with cause 5. -/
theorem test_cl_nop : after (.clNop 1) (ringed ring (entryBytes 0 0 0 0)) (fun t => (t.queue 1).head == 1) = true := by decide +kernel
theorem test_cl_return : after (.clReturn 1) (ringed ring (entryBytes 8 0 0 0))
    (fun t => (t.queue 1).stopped && (t.queue 1).cause == 5) = true := by decide +kernel
/-- R193: SETREG writes the register that mod names. -/
theorem test_cl_setreg : after (.clSetreg 1) (ringed ring (entryBytes 9 31 0 77))
    (fun t => (Tab.get 0 (t.queue 1).shadow 31 : Word) == 77) = true := by decide +kernel
/-- R232: a kick that goes back is ignored and counted. -/
theorem test_kick : after (.kick 0 .rod (.kick 1 0)) (ringed ring []) (fun t => (t.queue 1).k == 1 && (t.queue 1).ignored == 1) = true := by decide +kernel
/-- R232: more admitted than the ring holds stops the queue with cause 8. -/
theorem test_kick_overrun : after (.kick 0 .rod (.kick 1 17)) (ringed ring []) (fun t => (t.queue 1).cause == 8) = true := by decide +kernel
/-- R237: a peer's write lands in memory. -/
theorem test_peer_write : after (.peerRequest { peer := 3, pa := 0x2000, op := .write [7, 8], info := none }) (hosted [])
    (fun t => t.dram.read 0x2000 2 == [7, 8] && t.outbox.length == 1) = true := by decide +kernel

end Sys2Proof.Tests
end

section
/-! Proofs of the statements about the execution model: what retirement leaves when an effect has gone through
intermediate states, and the loop instructions (R22-R24). -/
namespace Sys2Proof.Machine

/-! ### Retirement of an effect that starts from another state -/

/-- Retirement keeps what the effect kept of a state that it passed through. -/
theorem State.Keeps.of_retires {s u v : State} {i : Instr} {regs : List Reg} (next : Word) (hc : u.cur = s.cur)
    (k : u.Keeps v regs) : u.Keeps (s.retires i v next) regs := by
  have h1 := k.trans (State.Keeps.notePoison v (poisonedSource i s) regs)
  have h2 := h1.trans (State.Keeps.leave _ next regs)
  have h3 := fun rs => State.Keeps.retirePair ((v.notePoison (poisonedSource i s)).leave next) s.me.pc rs
    (recordsValue i) (classes i s) regs
  rw [h2.cur, hc] at h3
  exact h2.trans (h3 _)

/-- As `State.Completes.of_done`, with control going on at an address, from a state `u` that the effect passed through
before it wrote registers. -/
theorem State.CompletesAt.of_retires {s u v : State} {i : Instr} {regs : List Reg} (next : Word) (hc : u.cur = s.cur)
    (hp : poisonedSource i u = poisonedSource i s) (k : u.Keeps v regs) (hlp : v.me.lp = u.me.lp)
    (hlpd : v.me.lpd = u.me.lpd) (hchk : Reg.status 0x0A ∉ regs → v.me.chk = u.me.chk) :
    u.CompletesAt (s.retires i v next) i regs next := by
  have hv : v.cur = s.cur := k.cur.trans hc
  obtain ⟨w, hm⟩ := State.retires_me (i := i) next hv
  refine ⟨k.of_retires next hc, ?_, ?_⟩
  · have hf := k.loopsFrozen s.cur.2
    rw [hc] at hf
    unfold State.wentTo
    dsimp only
    rw [hm, hc, hf]
    apply Context.goto_congr
    · split <;> exact hlp
    · split <;> exact hlpd
  · intro hr
    rw [hm, ← hchk hr, hp]
    simp only [Context.goto_chk]
    split <;> rfl

/-- An effect whose own state is the completion's: only retirement is left. -/
theorem State.CompletesAt.of_effect {s u : State} {i : Instr} (next : Word) (hc : u.cur = s.cur)
    (hp : poisonedSource i u = poisonedSource i s) : u.CompletesAt (s.retires i u next) i [] next :=
  State.CompletesAt.of_retires next hc hp (State.Keeps.refl u []) rfl rfl fun _ => rfl

/-! ### LOOP, LEAVE and the loop step -/

/-- What a change of the loop levels leaves to read. -/
theorem poisonedSource_modMe_levels {s : State} {i : Instr} {lp : Tab Level} {n : Nat}
    (hi : ∀ t : State, t.reads i = sources i) :
    poisonedSource i (s.modMe fun x => { x with lp := lp, lpd := n }) = poisonedSource i s := by
  unfold poisonedSource
  rw [hi, hi, State.me_modMe]
  rfl

theorem exec_loop (r : BitVec 6) (o : BitVec 18) (s : State) : exec (.loop r o) s = execLoop r o s := rfl
theorem exec_leave (s : State) : exec .leave s = execLeave s := rfl

theorem loop_faults {s : State} {r : BitVec 6} {o : BitVec 18}
    (h : s.loopsFrozen s.cur.1 s.cur.2 = true ∨ (s.g r.toNat ≠ 0 ∧ 4 ≤ s.me.lpd)) :
    s.Traps (.loop r o) 0x0F 0 (BitVec.ofNat 64 s.me.lpd) := by
  intro hc hl
  rw [exec_loop, execLoop]
  refine issue_trap hc ?_ hl
  rcases h with h | ⟨h1, h2⟩
  · simp [State.frozenHere, h, State.loopFault]
  · dsimp only
    rw [if_neg h1, if_pos h2, ite_self]
    rfl

/-- LOOP with count 0 skips the body (R23). -/
theorem loop_skips {s : State} {r : BitVec 6} {o : BitVec 18} (hf : s.loopsFrozen s.cur.1 s.cur.2 = false)
    (hc : s.clear (.loop r o) = true) (h0 : s.g r.toNat = 0) :
    ∃ t, exec (.loop r o) s = .next t ∧ s.CompletesAt t (.loop r o) [] (s.me.pc + 2 * o.signExtend 64) := by
  refine ⟨s.retires (.loop r o) s (target s.me.pc o), ?_, State.CompletesAt.of_effect _ rfl rfl⟩
  rw [exec_loop, execLoop]
  refine issue_jump hc ?_
  simp [State.frozenHere, hf, h0]

/-- LOOP with a count and a free level opens it (R23). -/
theorem loop_opens {s : State} {r : BitVec 6} {o : BitVec 18} (hf : s.loopsFrozen s.cur.1 s.cur.2 = false)
    (hc : s.clear (.loop r o) = true) (h0 : s.g r.toNat ≠ 0) (hd : s.me.lpd < 4) :
    let level : Level := { start := s.me.pc + 4, stop := s.me.pc + 2 * o.signExtend 64, count := s.g r.toNat }
    let u := s.modMe fun x => { x with lp := Tab.put x.lp x.lpd level, lpd := x.lpd + 1 }
    ∃ t, exec (.loop r o) s = .next t ∧ u.CompletesAt t (.loop r o) [] (s.me.pc + 4) := by
  intro level u
  refine ⟨s.retires (.loop r o) u (s.after (.loop r o)), ?_, State.CompletesAt.of_effect _ rfl ?_⟩
  · rw [exec_loop, execLoop]
    refine issue_done hc ?_
    simp only [State.frozenHere, hf, h0, Bool.false_eq_true, if_false, ge_iff_le, Nat.not_le.mpr hd]
    rfl
  · exact poisonedSource_modMe_levels fun _ => List.append_nil _

theorem leave_faults {s : State} (h : s.loopsFrozen s.cur.1 s.cur.2 = true ∨ s.me.lpd = 0) :
    s.Traps .leave 0x0F 0 (BitVec.ofNat 64 s.me.lpd) := by
  intro hc hl
  rw [exec_leave, execLeave]
  refine issue_trap hc ?_ hl
  rcases h with h | h <;> simp [State.frozenHere, h, State.loopFault]

/-- LEAVE closes the innermost level and goes to its end (R23). -/
theorem leave_closes {s : State} (hf : s.loopsFrozen s.cur.1 s.cur.2 = false) (hd : 0 < s.me.lpd)
    (hc : s.clear .leave = true) :
    let u := s.modMe fun x => { x with lpd := x.lpd - 1 }
    ∃ t, exec .leave s = .next t ∧ u.CompletesAt t .leave [] (Tab.get {} s.me.lp (s.me.lpd - 1) : Level).stop := by
  intro u
  refine ⟨_, ?_, State.CompletesAt.of_effect (s := s) _ rfl ?_⟩
  · rw [exec_leave, execLeave]
    refine issue_jump hc ?_
    simp [State.frozenHere, hf, Nat.pos_iff_ne_zero.mp hd, u]
  · rfl

/-- No step is due where there is no level or the address is not the innermost level's end. -/
theorem Context.goto_elsewhere {x : Context} {next : Word}
    (h : x.lpd = 0 ∨ next ≠ (Tab.get {} x.lp (x.lpd - 1) : Level).stop) : x.goto false next = { x with pc := next } := by
  unfold Context.goto
  dsimp only
  rcases h with h | h
  · rw [h]; rfl
  · rw [if_neg h, ite_self]

/-- Where no step is excluded, it is the innermost level's. -/
theorem Context.goto_end {x : Context} {next : Word} {n : Nat} (hd : x.lpd = n + 1)
    (hs : next = (Tab.get {} x.lp n : Level).stop) : x.goto false next = loopStep (n + 1) { x with pc := next } := by
  unfold Context.goto
  dsimp only
  rw [hd, if_neg (by simp), Nat.add_sub_cancel, if_pos hs]

/-- A level that has turns left goes to its start (R22). -/
theorem loopStep_again (x : Context) (n : Nat) (h : (Tab.get {} x.lp n : Level).count ≠ 1) :
    let l : Level := Tab.get {} x.lp n
    loopStep (n + 1) x = { x with pc := l.start, lp := Tab.put x.lp n { l with count := l.count - 1 }, lpd := n + 1 } := by
  rw [loopStep]
  exact if_pos fun h0 => h (sub_eq_zero.mp h0)

/-- A level whose last turn ends closes, and control goes on at the same address outside it (R22). -/
theorem loopStep_closes (x : Context) (n : Nat) (h : (Tab.get {} x.lp n : Level).count = 1) :
    let l : Level := Tab.get {} x.lp n
    loopStep (n + 1) x =
      ({ x with lp := Tab.put x.lp n { l with count := l.count - 1 }, lpd := n } : Context).goto false x.pc := by
  have h0 : ¬(Tab.get {} x.lp n : Level).count - 1 ≠ 0 := not_not.mpr (sub_eq_zero.mpr h)
  rw [loopStep]
  dsimp only
  rw [if_neg h0]
  cases n <;> rfl

theorem Context.goto_again {x : Context} {next : Word} (hd : x.lpd ≠ 0)
    (hs : next = (Tab.get {} x.lp (x.lpd - 1) : Level).stop) (h1 : (Tab.get {} x.lp (x.lpd - 1) : Level).count ≠ 1) :
    let l : Level := Tab.get {} x.lp (x.lpd - 1)
    x.goto false next = { x with pc := l.start, lp := Tab.put x.lp (x.lpd - 1) { l with count := l.count - 1 } } := by
  have hn : x.lpd = x.lpd - 1 + 1 := by omega
  intro l
  rw [Context.goto_end hn hs]
  exact (loopStep_again { x with pc := next } _ h1).trans (by rw [← hn])

theorem Context.goto_closes {x : Context} {next : Word} (hd : x.lpd ≠ 0)
    (hs : next = (Tab.get {} x.lp (x.lpd - 1) : Level).stop) (h1 : (Tab.get {} x.lp (x.lpd - 1) : Level).count = 1) :
    let l : Level := Tab.get {} x.lp (x.lpd - 1)
    x.goto false next = ({ x with lp := Tab.put x.lp (x.lpd - 1) { l with count := l.count - 1 }, lpd := x.lpd - 1 } :
      Context).goto false next := by
  have hn : x.lpd = x.lpd - 1 + 1 := by omega
  rw [Context.goto_end hn hs]
  exact loopStep_closes { x with pc := next } _ h1

/-- Settles O30: the instructions by the outcome of their bodies, the loop step by its level's count. -/
theorem loops : Obligations.Loops :=
  ⟨fun _ _ _ => ⟨loop_faults, fun hf hc => ⟨loop_skips hf hc, loop_opens hf hc⟩⟩,
    fun _ => ⟨leave_faults, leave_closes⟩,
    fun _ _ => ⟨rfl, Context.goto_elsewhere, Context.goto_again, Context.goto_closes⟩⟩

end Sys2Proof.Machine
end

section
/-! HSTART with the last free helper: what was poisoned among g1-g15 is still a source of the completion, but no longer
one of the state in which the helper runs (R108, R296; log 23). -/
namespace Sys2Proof.Machine

theorem exec_hstart (d a : BitVec 6) (s : State) : exec (.hstart d a) s = execHstart d a s := rfl

theorem State.retires_chk {s u : State} {i : Instr} (next : Word) (hc : u.cur = s.cur) :
    (s.retires i u next).me.chk = if poisonedSource i s then u.me.chk ||| 1 else u.me.chk := by
  obtain ⟨w, hm⟩ := State.retires_me (i := i) next hc
  rw [hm]
  simp only [Context.goto_chk]
  split <;> rfl

/-- HSTART with a free helper: chk is the starter's, with bit 0 for a poisoned source. -/
theorem hstart_chk {s t : State} {d a : BitVec 6} {h : Nat} (hc : s.clear (.hstart d a) = true)
    (hf : s.here.freeHelper = some h) (hh : h ≠ s.cur.2) (ht : exec (.hstart d a) s = .next t) :
    t.me.chk = if poisonedSource (.hstart d a) s then s.me.chk ||| 1 else s.me.chk := by
  have hb : execHstart d a s = .next (s.retires (.hstart d a)
      ((s.modHere fun k => k.startHelper h (s.g a.toNat) s.me.inherit 0).writeG d.toNat (BitVec.ofNat 64 h)
        (poisonedSource (.hstart d a) s)) (s.after (.hstart d a))) := by
    rw [execHstart]
    refine issue_done hc ?_
    simp only [hf]
  rw [exec_hstart, hb] at ht
  injection ht with ht
  have hm : (s.modHere fun k => k.startHelper h (s.g a.toNat) s.me.inherit 0).me = s.me := by
    show ((s.modHere _).here).ctx s.cur.2 = s.here.ctx s.cur.2
    rw [State.here_modHere]
    exact Core.ctx_modCtx_ne _ _ _ _ hh.symm
  rw [← ht, State.retires_chk]
  · rw [State.me_writeG, Context.writeG_chk, hm]
  · rfl

theorem State.reads_hstart (s : State) (d a : BitVec 6) : s.reads (.hstart d a) =
    .g a.toNat :: if s.here.freeHelper.isSome then (span 1 15).map Reg.g else [] := rfl

/-- With no free helper HSTART reads its operand alone. -/
theorem poisonedSource_hstart_full {s : State} (d a : BitVec 6) (h : s.here.freeHelper = none) :
    poisonedSource (.hstart d a) s = (s.me.readG a.toNat).poison := by
  rw [poisonedSource, State.reads_hstart, h]
  exact Bool.or_false _

theorem Core.freeHelper_none {k : Core} (h : ∀ n, 1 ≤ n → n ≤ 10 → (k.ctx n).live = true) : k.freeHelper = none := by
  unfold Core.freeHelper
  rw [List.find?_eq_none]
  intro n hn
  obtain ⟨h1, h10⟩ := (mem_span 1 10 n).mp hn
  simp [h n h1 (by omega)]

/-- Core 0 in service with helpers 1 to 9 live, helper 10 free and g1 poisoned. -/
def lastHelperFree : State :=
  let live : Context := { live := true, pc := 0x1000 }
  let k : Core := { part := some 0, ctxs := (0, live.writeG 1 0 true) :: (List.range' 1 9).map fun n => (n, live) }
  { State.reset with cores := [(0, k)] }

theorem lastHelperFree_clear : lastHelperFree.clear (.hstart 20 0) = true := rfl
theorem lastHelperFree_poisonedSource : poisonedSource (.hstart 20 0) lastHelperFree = true := rfl
theorem lastHelperFree_helpers : ∀ n, 1 ≤ n → n < 10 → (lastHelperFree.here.ctx n).live = true := by
  intro n h1 h10
  interval_cases n <;> rfl

/-- Refutes O35: helper 10 is the last free one and g1 is poisoned. HSTART copies g1, so chk bit 0 is set; but in the
state from which the statement counts the completion helper 10 is live and no other is free, where HSTART copies nothing
and reads no poison. -/
theorem not_helpers : ¬ Obligations.Helpers := by
  intro ⟨hstart, _⟩
  obtain ⟨u, t, ht, hdone, -, honly, -, hsame, hfresh, -⟩ :=
    (hstart lastHelperFree 20 0 rfl lastHelperFree_clear).2 10 (by decide) (by decide) rfl lastHelperFree_helpers
  have hcur : u.cur = (0, 0) := by rw [honly.1]; rfl
  have hme : u.me = lastHelperFree.me := by
    have h0 := hsame 0 (by decide)
    unfold State.here at h0
    unfold State.me State.ctx
    rw [hcur] at h0 ⊢
    exact h0
  have hfull : u.here.freeHelper = none := by
    refine Core.freeHelper_none fun n h1 h10 => ?_
    rcases Nat.lt_or_eq_of_le h10 with h | rfl
    · rw [hsame n (by omega)]
      exact lastHelperFree_helpers n h1 h
    · exact hfresh.live.1
  have hset : t.me.chk = 1 := by
    rw [hstart_chk lastHelperFree_clear (h := 10) rfl (by decide) ht, lastHelperFree_poisonedSource]
    rfl
  have hclear : t.me.chk = 0 := by
    obtain ⟨-, -, hchk⟩ := hdone
    rw [hchk (by decide), poisonedSource_hstart_full 20 0 hfull, hme]
    rfl
  exact absurd (hset.symm.trans hclear) (by decide)

end Sys2Proof.Machine
end

section
/-! What a turn of a context comes to: fetching what stands ready, and issuing the instruction it decodes to (R15, R20,
R65, R123, R134). -/
namespace Sys2Proof

/-! ### The word and its instruction -/

/-- The first halfword tells a word's size (R123). -/
def Code.sized : Code → Prop
  | .short h => Machine.isWide h = false
  | .wide w => Machine.isWide (w.extractLsb' 16 16) = true

/-- Two neighbouring parts of a word, as one. -/
theorem append_extract {n : Nat} (w : BitVec n) (p a b : Nat) :
    w.extractLsb' (p + b) a ++ w.extractLsb' p b = w.extractLsb' p (a + b) :=
  BitVec.extractLsb'_append_extractLsb'_eq_extractLsb' rfl

theorem codeAt_bytes {code : Code} (h : code.sized) : codeAt code.bytes = .ok (code, []) := by
  cases code with
  | short x =>
    have e : (x.extractLsb' 8 8 ++ x.extractLsb' 0 8 : BitVec 16) = x :=
      (append_extract x 0 8 8).trans (BitVec.extractLsb'_eq_self)
    simp only [Code.sized, Machine.isWide] at h
    simp only [Code.bytes, codeAt, e, h]
    rfl
  | wide w =>
    have hi : (w.extractLsb' 24 8 ++ w.extractLsb' 16 8 : BitVec 16) = w.extractLsb' 16 16 := append_extract w 16 8 8
    have lo : (w.extractLsb' 8 8 ++ w.extractLsb' 0 8 : BitVec 16) = w.extractLsb' 0 16 := append_extract w 0 8 8
    have e : (w.extractLsb' 16 16 ++ w.extractLsb' 0 16 : BitVec 32) = w :=
      (append_extract w 0 16 16).trans (BitVec.extractLsb'_eq_self)
    simp only [Code.sized, Machine.isWide] at h
    simp only [Code.bytes, codeAt, hi, lo, e, h, if_true]

theorem decode_bytes {code : Code} (h : code.sized) :
    decode code.bytes = (decodeCode code).map fun i => (i, []) := by
  unfold decode
  simp only [codeAt_bytes h]
  cases decodeCode code <;> rfl

end Sys2Proof

namespace Sys2Proof.Machine

theorem instrOf_ok {code : Code} {i : Instr} (h : code.sized) (hd : decode code.bytes = .ok (i, [])) :
    instrOf code = i := by
  rw [decode_bytes h] at hd
  unfold instrOf
  cases hc : decodeCode code with
  | error r => rw [hc] at hd; cases hd
  | ok j => rw [hc] at hd; cases hd; rfl

theorem instrOf_error {code : Code} {r : Reject} (h : code.sized) (hd : decode code.bytes = .error r) :
    instrOf code = .illegalInstruction (BitVec.ofNat 32 code.value.toNat) (code.size == 4) := by
  rw [decode_bytes h] at hd
  unfold instrOf
  cases hc : decodeCode code with
  | error r => rfl
  | ok j => rw [hc] at hd; cases hd

theorem State.holdsCode.sized {s : State} {c : Nat} {a : Word} {code : Code} (h : s.holdsCode c a code) : code.sized := by
  cases code <;> exact h.1

/-! ### Fetching what the buffer holds -/

/-- A halfword that stands ready is outside the resident loop. -/
theorem State.codeHalf.outside {s : State} {c : Nat} {a : Word} {h : Half} (hs : s.codeHalf c a h) :
    (s.core c).inLoop a = false := by
  obtain ⟨-, -, hl, -⟩ := hs
  unfold Core.inLoop
  rcases hl with hl | hl | hl
  · rw [hl]; rfl
  · simp [Nat.not_le.mpr hl]
  · simp [Nat.not_lt.mpr hl]

theorem fetchHalf_of_codeHalf {s : State} {c : Nat} (x : Nat) {a : Word} {h : Half} (hs : s.codeHalf c a h) :
    s.fetchHalf c x a = (.half h, s) := by
  have hout := hs.outside
  obtain ⟨heven, htop, -, l, hfind, hclean, hhalf⟩ := hs
  unfold State.fetchHalf
  rw [heven, htop]
  simp only [hout, hfind, hclean, hhalf, Bool.false_eq_true, if_false]

/-- The second halfword of a word, if it has one. -/
theorem fetchAt_of_first {s v : State} {c : Nat} (x : Nat) {a : Word} {code : Code}
    (hfirst : ∀ h, v.codeHalf c a h → s.fetchHalf c x a = (.half h, v)) (hv : v.holdsCode c a code) :
    s.fetchAt c x a = (.code code, v.fetched c x a code.size) := by
  cases code with
  | short h =>
    obtain ⟨hw, hc⟩ := hv
    simp only [State.fetchAt, hfirst h hc, hw]
    rfl
  | wide w =>
    obtain ⟨hw, hhigh, hlow⟩ := hv
    have e : (w.extractLsb' 16 16 ++ w.extractLsb' 0 16 : BitVec 32) = w :=
      (append_extract w 0 16 16).trans BitVec.extractLsb'_eq_self
    simp only [State.fetchAt, hfirst _ hhigh, hw, fetchHalf_of_codeHalf x hlow, e, if_true]
    rfl

theorem fetchAt_of_holdsCode {s : State} {c : Nat} (x : Nat) {a : Word} {code : Code} (h : s.holdsCode c a code) :
    s.fetchAt c x a = (.code code, s.fetched c x a code.size) :=
  fetchAt_of_first x (fun _ => fetchHalf_of_codeHalf x) h

/-! ### Fetching a line of main memory -/

theorem map_byte_span (m : Memory) (n a : Nat) : (span a n).map m.byte = m.read a n := by
  induction n generalizing a with
  | zero => rfl
  | succ n ih => simp only [span, List.map_cons, Memory.read, ih]

/-- A read of a clean line that the domain owns changes nothing (R72). -/
theorem actDram_read {s : State} {odi pa : Nat} (rel : Option Release) (ho : s.owned odi (pa / 64 * 64) = true)
    (hb : Tab.get false s.dramBad (pa / 64) = false) :
    ∃ old, s.actDram odi (pa / 64 * 64) (.read 64) false rel = (s, s.dram.read (pa / 64 * 64) 64, false, old) := by
  have hclean : ((span (pa / 64 * 64) 64).any fun o => Tab.get false s.dramBad (o / 64)) = false := by
    rw [List.any_eq_false]
    intro o ho
    obtain ⟨h1, h2⟩ := (mem_span _ _ _).mp ho
    rw [show o / 64 = pa / 64 by omega, hb]
    exact Bool.false_ne_true
  refine ⟨readRelease s.releases (pa / 64 * 64) 64, ?_⟩
  unfold State.actDram
  simp only [ho, Bool.not_true, Bool.false_eq_true, if_false, Act.size, Act.writes, map_byte_span, hclean]

/-- A line that the buffer does not hold is found once it has been placed. -/
theorem Core.find_addLine {k : Core} {l : CodeLine} {p : CodeLine → Bool} (hp : p l = true)
    (hk : ∀ q, q ∈ k.buffer → q.va ≠ l.va) (himp : ∀ q, p q = true → q.va = l.va) :
    (k.addLine l).buffer.find? p = some l := by
  have hnone : ∀ q, q ∈ k.buffer → ¬p q = true := fun q hq h => hk q hq (himp q h)
  have hany : (k.buffer.any fun q => q.va == l.va) = false := by
    rw [List.any_eq_false]
    intro q hq
    simpa using hk q hq
  unfold Core.addLine
  simp only [hany, Bool.false_eq_true, if_false]
  rw [List.find?_append, List.find?_eq_none.mpr, Option.none_or, List.find?_singleton, if_pos hp]
  intro q hq
  split at hq
  · exact hnone q hq
  · exact hnone q (List.mem_filter.mp hq).1

section
variable {s : State} {c x : Nat} {a : Word} {t : Trans}

/-- The line of main memory that a fetch at an address puts into the buffer: `t` translates it, `s` holds its bytes. -/
def State.lineAt (s : State) (c x : Nat) (a : Word) (t : Trans) : CodeLine :=
  { va := bitsN a 56 0 / 64 * 64, bytes := s.dram.read ((t.pa + (bitsN a 56 0 - t.va)) / 64 * 64) 64, poison := false,
    half := (s.ctx c x).half }

/-- What a fetch needs to read its line from main memory in the same step: an executable translation, and a clean line of
the domain in an array that is free (R20, R65, R72, R214). -/
structure State.LineReady (s : State) (c : Nat) (a : Word) (t : Trans) : Prop where
  missing : (s.core c).buffer.find? (fun l => decide (l.va = bitsN a 56 0 / 64 * 64)) = none
  held    : s.lookup c (bitsN a 56 0) = some t
  execute : t.x = true
  device  : inPeer ((t.pa + (bitsN a 56 0 - t.va)) / 64 * 64) = false
  owned   : s.owned (s.odiOf c) ((t.pa + (bitsN a 56 0 - t.va)) / 64 * 64) = true
  free    : s.arrayBusy (.channel (channelOf ((t.pa + (bitsN a 56 0 - t.va)) / 64 * 64))) = false
  clean   : Tab.get false s.dramBad ((t.pa + (bitsN a 56 0 - t.va)) / 64) = false

theorem readLine_of_ready (h : s.LineReady c a t) :
    s.readLine c x (bitsN a 56 0) (t.pa + (bitsN a 56 0 - t.va)) =
      (some (s.lineAt c x a t), s.modCore c fun k => k.addLine (s.lineAt c x a t)) := by
  obtain ⟨old, hr⟩ := actDram_read none h.owned h.clean
  unfold State.readLine
  simp only [h.device, h.free, hr, Bool.false_eq_true, if_false]
  rfl

theorem translate_of_ready (failed : Option (Nat × BitVec 8)) (h : s.LineReady c a t) (ha : bitsN a 62 57 = 0) :
    s.translate c failed a .fetch = .ok (.mem (t.pa + (bitsN a 56 0 - t.va))) := by
  unfold State.translate
  simp [ha, h.held, Trans.grants, h.execute]

/-- A fetch whose line is missing reads the line from main memory, and gives what then stands ready. -/
theorem fetchHalf_of_ready {h : Half} (hr : s.LineReady c a t)
    (hv : (s.modCore c fun k => k.addLine (s.lineAt c x a t)).codeHalf c a h) :
    s.fetchHalf c x a = (.half h, s.modCore c fun k => k.addLine (s.lineAt c x a t)) := by
  have hout := hv.outside
  obtain ⟨heven, htop, -, l, hfind, hclean, hhalf⟩ := hv
  rw [State.core_modCore_self] at hout hfind
  have hmiss : ∀ q, q ∈ (s.core c).buffer → q.va ≠ bitsN a 56 0 / 64 * 64 := by
    intro q hq
    simpa using List.find?_eq_none.mp hr.missing q hq
  have hbits : bitsN a 62 57 = 0 := by
    have := List.find?_some hfind
    simp only [Bool.and_eq_true, beq_iff_eq] at this
    exact this.2
  have hl : l = s.lineAt c x a t := by
    rw [Core.find_addLine (by simp [State.lineAt, hbits]) hmiss (by
      intro q hq
      simp only [Bool.and_eq_true, decide_eq_true_eq] at hq
      exact hq.1)] at hfind
    exact (Option.some.inj hfind).symm
  have hnone : (s.core c).buffer.find? (fun l => decide (l.va = bitsN a 56 0 / 64 * 64) && bitsN a 62 57 == 0) = none := by
    rw [List.find?_eq_none]
    intro q hq
    simp [hmiss q hq]
  have hin : (s.core c).inLoop a = false := by
    rw [← hout]
    unfold Core.addLine
    split <;> rfl
  unfold State.fetchHalf
  rw [heven, htop]
  simp only [hin, hnone, translate_of_ready _ hr hbits, readLine_of_ready hr, Bool.false_eq_true, if_false]
  rw [← hl, hhalf, hclean]
  rfl

end

/-! ### A turn of a context -/

/-- A ready context that is given the core's slot issues what it has fetched (R15). -/
theorem step_of_fetched {s t : State} {c x : Nat} {rest : List Turn} {code : Code} (ha : s.agenda = .issue c x :: rest)
    (hg : (s.core c).gang = none) (hr : ({ s with agenda := rest, cur := (c, x) } : State).ready c x = true)
    (hb : x = 0 → (s.core c).atBilrok = false) (hs : ({ s with agenda := rest, cur := (c, x) } : State).slot c x = true)
    (hf : ({ s with agenda := rest, cur := (c, x) } : State).fetchAt c x (s.ctx c x).pc = (.code code, t)) :
    step s = exec (instrOf code) (t.issuing c x) := by
  have hboot : (x == 0 && (s.core c).atBilrok) = false := by
    cases x with
    | zero => simpa using hb rfl
    | succ n => rfl
  have hturn : step s = ({ s with agenda := rest } : State).issueAlone c x := by
    unfold step
    rw [ha]
    show ({ s with agenda := rest } : State).issueTurn c x = _
    unfold State.issueTurn
    rw [show (({ s with agenda := rest } : State).core c).gang = none from hg]
  rw [hturn]
  unfold State.issueAlone
  dsimp only
  rw [hr, show (x == 0 && (({ s with agenda := rest, cur := (c, x) } : State).core c).atBilrok) = false from hboot]
  simp only [Bool.not_true, Bool.false_eq_true, if_false]
  rw [show ({ s with agenda := rest, cur := (c, x) } : State).ctx c x = s.ctx c x from rfl, hf]
  simp only [hs, Bool.not_true, Bool.false_eq_true, if_false]

/-- Settles O20: the turn comes to fetching and issuing; what the buffer holds is fetched as it stands, and a missing line
that is ready in main memory is placed first. -/
theorem stepRunsDecoded : Obligations.StepRunsDecoded := by
  unfold Obligations.StepRunsDecoded
  intro s c x rest ha u pc hg hr hb hs
  refine ⟨fun code i hcode hd => ?_, fun code r hcode hd => ?_, ?_⟩
  · rw [step_of_fetched ha hg hr hb hs (fetchAt_of_holdsCode x hcode), instrOf_ok hcode.sized hd]
  · rw [step_of_fetched ha hg hr hb hs (fetchAt_of_holdsCode x hcode), instrOf_error hcode.sized hd]
  · intro code i t va pa line v hmiss _ _ hheld hx hdev howned hfree hclean hcode hd
    have hready : u.LineReady c pc t := ⟨hmiss, hheld, hx, hdev, howned, hfree, hclean⟩
    have hfetch : u.fetchAt c x pc = (.code code, v.fetched c x pc code.size) :=
      fetchAt_of_first x (fun _ => fetchHalf_of_ready hready) hcode
    rw [step_of_fetched ha hg hr hb hs hfetch, instrOf_ok hcode.sized hd]

end Sys2Proof.Machine
end

section
/-! Gangs: parking, forming, faulting and uncoupling (R25, R26, R293, R355), with the rules about work done core by core.
-/
namespace Sys2Proof.Machine

/-! ### Work on one core, and core by core -/

theorem State.OnlyCore.refl (s : State) (c : Nat) : s.OnlyCore s c := ⟨rfl, fun _ _ => rfl⟩
theorem State.OnlyCore.trans {s t u : State} {c : Nat} (h : s.OnlyCore t c) (k : t.OnlyCore u c) : s.OnlyCore u c := by
  refine ⟨?_, fun m hm => (k.2 m hm).trans (h.2 m hm)⟩
  have h1 := h.1
  have h2 := k.1
  rw [h1] at h2
  exact h2
theorem State.OnlyCore.cur {s t : State} {c : Nat} (h : s.OnlyCore t c) : t.cur = s.cur := by rw [h.1]
theorem State.onlyCore_modCore (s : State) (c : Nat) (f : Core → Core) : s.OnlyCore (s.modCore c f) c :=
  ⟨rfl, fun m hm => State.core_modCore_ne s c m f hm⟩
theorem State.onlyCore_modMe (s : State) (f : Context → Context) : s.OnlyCore (s.modMe f) s.cur.1 :=
  s.onlyCore_modCore s.cur.1 fun k => k.modCtx s.cur.2 f
theorem State.Keeps.onlyCore {s t : State} {regs : List Reg} (h : s.Keeps t regs) : s.OnlyCore t s.cur.1 :=
  ⟨h.outside, h.cores⟩

theorem State.me_modHere (s : State) (f : Core → Core) : (s.modHere f).me = (f s.here).ctx s.cur.2 := by
  show (s.modHere f).here.ctx s.cur.2 = _
  rw [State.here_modHere]

theorem Tab.put_put {α : Type} (t : Tab α) (k : Nat) (v w : α) : Tab.put (Tab.put t k v) k w = Tab.put t k w := by
  induction t with
  | nil => simp [Tab.put]
  | cons e t ih =>
    obtain ⟨n, u⟩ := e
    by_cases h : k < n
    · simp [Tab.put, h]
    · by_cases h' : k = n
      · simp [Tab.put, h']
      · simp [Tab.put, h, h', ih]

/-- Two changes of one core are one. -/
theorem State.modCore_modCore (s : State) (c : Nat) (f g : Core → Core) :
    (s.modCore c f).modCore c g = s.modCore c fun k => g (f k) := by
  show ({ s with cores := Tab.put (Tab.put s.cores c (f (s.core c))) c (g ((s.modCore c f).core c)) } : State) = _
  rw [Tab.put_put, State.core_modCore_self]
  rfl
theorem Core.modCtx_modCtx (k : Core) (x : Nat) (f g : Context → Context) :
    (k.modCtx x f).modCtx x g = k.modCtx x fun t => g (f t) := by
  show ({ k with ctxs := Tab.put (Tab.put k.ctxs x (f (k.ctx x))) x (g ((k.modCtx x f).ctx x)) } : Core) = _
  rw [Tab.put_put, Core.ctx_modCtx_self]
  rfl
theorem State.modCtx_modCtx (s : State) (c x : Nat) (f g : Context → Context) :
    (s.modCtx c x f).modCtx c x g = s.modCtx c x fun t => g (f t) := by
  show (s.modCore c _).modCore c _ = _
  rw [State.modCore_modCore]
  simp only [Core.modCtx_modCtx]
  rfl

/-- An operation on a list of different cores that does the same to each and nothing to the others, as long as they are
in a condition that it may rely on. -/
theorem core_foldl_each {f : State → Nat → State} {F : Core → Core} {Q : Core → Prop}
    (own : ∀ s a, Q (s.core a) → (f s a).core a = F (s.core a))
    (other : ∀ s a, Q (s.core a) → ∀ m, m ≠ a → (f s a).core m = s.core m) {l : List Nat} (hn : l.Nodup) (s : State)
    (hQ : ∀ a, a ∈ l → Q (s.core a)) (m : Nat) :
    (l.foldl f s).core m = if m ∈ l then F (s.core m) else s.core m := by
  induction l generalizing s with
  | nil => rfl
  | cons a l ih =>
    obtain ⟨ha, hl⟩ := List.nodup_cons.mp hn
    have hQa := hQ a List.mem_cons_self
    have hrest : ∀ b, b ∈ l → Q ((f s a).core b) := fun b hb => by
      rw [other s a hQa b fun e => ha (e ▸ hb)]
      exact hQ b (List.mem_cons_of_mem _ hb)
    rw [List.foldl_cons, ih hl (f s a) hrest]
    by_cases hm : m = a
    · subst hm
      simp [ha, own s m hQa]
    · simp [hm, other s a hQa m hm]

/-! ### GANG -/

theorem exec_gang (a : BitVec 6) (s : State) : exec (.gang a) s = execGang a s := rfl
theorem exec_ungang (s : State) : exec .ungang s = execUngang s := rfl
theorem exec_gangForm (c : Nat) (s : State) : exec (.gangForm c) s = execGangForm c s := rfl

/-- A helper of a core is live. -/
theorem any_helper_live (k : Core) :
    ((span 1 10).any fun h => (k.ctx h).live) = true ↔ ∃ h, 1 ≤ h ∧ h ≤ 10 ∧ (k.ctx h).live = true := by
  simp only [List.any_eq_true, mem_span]
  constructor
  · rintro ⟨h, ⟨h1, h10⟩, hl⟩; exact ⟨h, h1, by omega, hl⟩
  · rintro ⟨h, h1, h10, hl⟩; exact ⟨h, ⟨h1, by omega⟩, hl⟩

/-- GANG parks the control context; a follower notes whether one of its helpers is live (R25). -/
theorem gang_parks {s : State} {a : BitVec 6} (hc : s.clear (.gang a) = true) :
    let n := bitsN (s.g a.toNat) 3 0
    ∃ t bad, exec (.gang a) s = .next t ∧ t.me.wait = .gang n bad ∧ t.me.pc = s.me.pc ∧ s.OnlyCore t s.cur.1 ∧
      (bad = true ↔ (gangGroup s.cur.1 n).head? ≠ some s.cur.1 ∧ ∃ h, 1 ≤ h ∧ h ≤ 10 ∧ (s.here.ctx h).live = true) := by
  intro n
  refine ⟨_, (gangGroup s.cur.1 n).head? != some s.cur.1 && (span 1 10).any fun h => (s.here.ctx h).live,
    by rw [exec_gang, execGang]; exact issue_wait hc rfl, ?_, ?_, ?_, ?_⟩
  · rw [State.me_modMe, State.me_modMe]
  · rw [State.me_modMe, State.me_modMe]
  · exact (s.onlyCore_modMe _).trans ((s.modMe _).onlyCore_modMe _)
  · rw [Bool.and_eq_true, any_helper_live, bne_iff_ne]

/-- UNGANG uncouples the issuing member (R355). -/
theorem ungang_uncouples {s : State} (hc : s.clear .ungang = true) :
    let u := s.modHere fun k => { k with gang := none }
    ∃ t, exec .ungang s = .next t ∧ u.Completes t .ungang [] := by
  intro u
  have hpc : u.me.pc + BitVec.ofNat 64 (instrLen .ungang) = s.after .ungang := by
    rw [State.me_modHere]
    rfl
  refine ⟨s.retires .ungang u (s.after .ungang), by rw [exec_ungang, execUngang]; exact issue_done hc rfl, ?_⟩
  unfold State.Completes
  rw [hpc]
  exact State.CompletesAt.of_effect (s.after .ungang) rfl rfl

/-! ### The fault of a parked member -/

theorem State.core_unpark (s : State) (c x m : Nat) : (s.unpark c x).core m = s.core m := by
  unfold State.unpark
  split <;> rfl
theorem State.core_dropDrive (s : State) (c m : Nat) : (s.dropDrive c).core m = s.core m := rfl

/-- The gang fault of a member parked in GANG (R25). -/
def Core.gangFault (k : Core) : Core := k.enterHandler 0 0x16 0 0 (k.ctx 0).pc (k.ctx 0).pc

theorem trapCtx_gangFault {s : State} {c : Nat} (h : (s.core c).canTrap) :
    s.trapCtx c 0 0x16 0 0 4 = ((s.unpark c 0).dropDrive c).modCore c fun k =>
      k.enterHandler 0 0x16 0 0 ((s.core c).ctx 0).pc ((s.core c).ctx 0).pc := by
  obtain ⟨halone, hout, hvec, hset⟩ := h
  have hlater : s.trapCtx c 0 0x16 0 0 4 = (s.disband c).laterTrap c 0x16 0 0 4 := rfl
  have hdisband : s.disband c = s := by rw [State.disband, State.disbandBut, halone]
  rw [hlater, hdisband, State.laterTrap, hset, if_neg (by simp), State.controlTrap, hout, if_neg (by simpa using hvec)]
  rfl
theorem core_trapCtx_gangFault {s : State} {c : Nat} (h : (s.core c).canTrap) :
    (s.trapCtx c 0 0x16 0 0 4).core c = (s.core c).gangFault := by
  rw [trapCtx_gangFault h, State.core_modCore_self, State.core_dropDrive, State.core_unpark]
  rfl
theorem core_trapCtx_gangFault_ne {s : State} {c m : Nat} (h : (s.core c).canTrap) (hm : m ≠ c) :
    (s.trapCtx c 0 0x16 0 0 4).core m = s.core m := by
  rw [trapCtx_gangFault h, State.core_modCore_ne _ _ _ _ hm, State.core_dropDrive, State.core_unpark]

/-! ### GANG_FORM -/

theorem gangWaits_iff (s : State) (n m : Nat) : s.gangWaits n m = true ↔ ∃ b, (s.ctx m 0).wait = .gang n b := by
  unfold State.gangWaits
  split
  · next k b h => rw [h]; simp
  · next h => simp only [Bool.false_eq_true, false_iff]; rintro ⟨b, hb⟩; exact h n b hb

/-- A context that waits no longer, with what was known of a poisoned source noted (R108). -/
def Context.unheld (t : Context) : Context :=
  { t with wait := .none, side := [], walkErr := none, chk := if t.waitTaint then t.chk ||| 1 else t.chk }
/-- A waiting context as an event lets it go on, past its instruction. -/
def Context.resumed (t : Context) (frozen : Bool) : Context := t.unheld.goto frozen (t.pc + BitVec.ofNat 64 t.waitLen)

theorem Context.resumed_wait (t : Context) (frozen : Bool) : (t.resumed frozen).wait = .none := by
  simp [Context.resumed, Context.unheld]
theorem Context.resumed_pc (t : Context) (frozen : Bool) :
    (t.resumed frozen).pc = (t.goto frozen (t.pc + BitVec.ofNat 64 t.waitLen)).pc := by
  exact (Context.goto_congr t.unheld t frozen (t.pc + BitVec.ofNat 64 t.waitLen) rfl rfl).1

/-- A core as a member of a gang. -/
def Core.coupled (k : Core) (group : List Nat) : Core := { k with gang := some { members := group } }
/-- What holds of a member whose context goes on in a gang. -/
theorem Core.of_coupled {k l : Core} {group : List Nat}
    (h : l = (k.modCtx 0 fun t => t.resumed k.handler).coupled group) :
    l.gang = some { members := group } ∧ (l.ctx 0).wait = .none ∧
      (l.ctx 0).pc = ((k.ctx 0).goto k.handler ((k.ctx 0).pc + BitVec.ofNat 64 (k.ctx 0).waitLen)).pc := by
  have hctx : l.ctx 0 = (k.ctx 0).resumed k.handler := by
    rw [h]
    exact Core.ctx_modCtx_self k 0 fun t => t.resumed k.handler
  rw [hctx]
  exact ⟨by rw [h]; rfl, Context.resumed_wait _ _, Context.resumed_pc _ _⟩

/-- What an event does to a waiting context of a core without a partner. -/
theorem finish_unpaired {s : State} {c x : Nat} (regs : List Reg) (old : Context) (hp : (s.core c).pairing = none) :
    s.finish c x regs old = s.modCtx c x fun t => t.resumed (s.loopsFrozen c x) := by
  have hu : ∀ f : Context → Context, ((s.modCtx c x f).core c).pairing = none := fun f => by
    rw [State.core_modCtx_self]; exact hp
  have hf : ∀ f : Context → Context, (s.modCtx c x f).loopsFrozen c x = s.loopsFrozen c x := fun f => by
    unfold State.loopsFrozen
    rw [State.core_modCtx_self]
    rfl
  unfold State.finish State.gotoCtx State.retirePair
  simp only [State.modCtx_modCtx, hu, hf]
  show s.modCore c _ = s.modCore c _
  unfold State.modCore Core.modCtx Tab.update
  rfl

/-- GANG_FORM by what it finds: nobody killed, everybody parked, a follower with a live helper or none. -/
theorem execGangForm_eq {s : State} {c n : Nat} {bad : Bool} (hw : (s.ctx c 0).wait = .gang n bad)
    (hk : ∀ m, m ∈ gangGroup c n → (s.core m).killed = false) :
    execGangForm c s =
      if ((gangGroup c n).filter (s.gangWaits n)).length ≠ (gangGroup c n).length then .next s
      else if (gangGroup c n).any s.gangBad then
        .next (((gangGroup c n).filter (s.gangWaits n)).foldl (fun s m => s.trapCtx m 0 0x16 0 0 4) s)
      else .next ((gangGroup c n).foldl (fun s m => s.modCore m fun k => k.coupled (gangGroup c n))
        ((gangGroup c n).foldl (fun s m => s.finish m 0 []) s)) := by
  have hany : ((gangGroup c n).any fun m => (s.core m).killed) = false := by
    rw [List.any_eq_false]
    intro m hm
    simp [hk m hm]
  unfold execGangForm
  simp only [hw, hany, Bool.false_eq_true, if_false]
  rfl

section
variable {s : State} {c n : Nat} {bad : Bool} (hw : (s.ctx c 0).wait = .gang n bad)
  (hk : ∀ m, m ∈ gangGroup c n → (s.core m).killed = false)
include hw hk

theorem gangForm_waits (h : ∃ m, m ∈ gangGroup c n ∧ ¬∃ b, (s.ctx m 0).wait = .gang n b) :
    exec (.gangForm c) s = .next s := by
  obtain ⟨m, hm, hnot⟩ := h
  rw [exec_gangForm, execGangForm_eq hw hk, if_pos]
  intro hlen
  exact hnot ((gangWaits_iff s n m).mp (List.length_filter_eq_length_iff.mp hlen m hm))

/-- The whole group parked, with no live helper: one gang, each member past its GANG (R25). -/
theorem gangForm_couples (hn : (gangGroup c n).Nodup) (hall : ∀ m, m ∈ gangGroup c n → (s.ctx m 0).wait = .gang n false)
    (hp : ∀ m, m ∈ gangGroup c n → (s.core m).pairing = none) :
    ∃ t, exec (.gangForm c) s = .next t ∧ ∀ m, m ∈ gangGroup c n → (t.core m).gang = some { members := gangGroup c n } ∧
      (t.ctx m 0).wait = .none ∧
      (t.ctx m 0).pc = ((s.ctx m 0).goto (s.loopsFrozen m 0) ((s.ctx m 0).pc + BitVec.ofNat 64 (s.ctx m 0).waitLen)).pc := by
  have hparked : (gangGroup c n).filter (s.gangWaits n) = gangGroup c n :=
    List.filter_eq_self.mpr fun m hm => (gangWaits_iff s n m).mpr ⟨false, hall m hm⟩
  have hbad : (gangGroup c n).any s.gangBad = false := by
    rw [List.any_eq_false]
    intro m hm
    simp [State.gangBad, hall m hm]
  refine ⟨_, by rw [exec_gangForm, execGangForm_eq hw hk, hparked, hbad, if_neg (by simp), if_neg (by simp)],
    fun m hm => ?_⟩
  have hresumed := core_foldl_each (f := fun s m => s.finish m 0 []) (F := fun k => k.modCtx 0 fun t => t.resumed k.handler)
    (Q := fun k => k.pairing = none)
    (fun s a h => by rw [finish_unpaired [] _ h, State.core_modCtx_self]; rfl)
    (fun s a h m hm => by rw [finish_unpaired [] _ h]; exact State.core_modCtx_ne s a 0 m _ hm) hn s hp m
  have hcoupled := core_foldl_each (f := fun s m => s.modCore m fun k => k.coupled (gangGroup c n))
    (F := fun k => k.coupled (gangGroup c n)) (Q := fun _ => True)
    (fun s a _ => State.core_modCore_self s a _) (fun s a _ m hm => State.core_modCore_ne s a m _ hm) hn
    ((gangGroup c n).foldl (fun s m => s.finish m 0 []) s) (fun _ _ => trivial) m
  rw [hresumed, if_pos hm, if_pos hm] at hcoupled
  exact Core.of_coupled hcoupled

/-- A follower that had a live helper: every member takes a gang fault at its GANG (R25). -/
theorem gangForm_faults (hn : (gangGroup c n).Nodup)
    (hall : ∀ m, m ∈ gangGroup c n → ∃ b, (s.ctx m 0).wait = .gang n b)
    (hbad : ∃ m, m ∈ gangGroup c n ∧ (s.ctx m 0).wait = .gang n true)
    (hat : ∀ m, m ∈ gangGroup c n → (s.core m).canTrap) :
    ∃ t, exec (.gangForm c) s = .next t ∧ ∀ m, m ∈ gangGroup c n → t.core m = (s.core m).gangFault := by
  have hparked : (gangGroup c n).filter (s.gangWaits n) = gangGroup c n :=
    List.filter_eq_self.mpr fun m hm => (gangWaits_iff s n m).mpr (hall m hm)
  have hany : (gangGroup c n).any s.gangBad = true := by
    obtain ⟨m, hm, hw⟩ := hbad
    exact List.any_eq_true.mpr ⟨m, hm, by simp [State.gangBad, hw]⟩
  refine ⟨_, by rw [exec_gangForm, execGangForm_eq hw hk, hparked, hany, if_neg (by simp), if_pos rfl], fun m hm => ?_⟩
  rw [core_foldl_each (F := Core.gangFault) (fun s a h => core_trapCtx_gangFault h)
    (fun s a h m hm => core_trapCtx_gangFault_ne h hm) hn s hat m, if_pos hm]

end

/-! ### The aligned groups -/

theorem gangGroup_two (c : Nat) : gangGroup c 2 = [c - xOf c % 2, c - xOf c % 2 + 1] := rfl
theorem gangGroup_four (c : Nat) :
    gangGroup c 4 = [c - xOf c % 4, c - xOf c % 4 + 1, c - xOf c % 4 + 2, c - xOf c % 4 + 3] := rfl
theorem mem_clusterCores (cl m : Nat) : m ∈ clusterCores cl ↔ clusterOf m = cl := by
  simp only [clusterCores, List.mem_flatMap, List.mem_map, mem_span, coreAt, clusterOf, xOf, yOf]
  constructor
  · rintro ⟨dy, hy, dx, hx, rfl⟩
    omega
  · intro h
    exact ⟨m / 64 % 2, by omega, m % 64 % 4, by omega, by omega⟩

/-- Settles O36: a member parks with what it saw of its helpers; the group faults, waits or forms core by core, as what
is done at one member leaves the others alone. -/
theorem gangs : Obligations.Gangs := by
  unfold Obligations.Gangs
  refine ⟨fun s a _ hc => gang_parks hc, ?_, fun c _ => ?_, fun s hc => ungang_uncouples hc⟩
  · intro s c n bad hw group parked hn hk
    refine ⟨?_, ?_, ?_⟩
    · exact fun hall hp => gangForm_couples hw hk hn hall hp
    · exact gangForm_waits hw hk
    · intro hall hbad hat
      have hfaults : ∀ m, m ∈ group → (s.core m).canTrap := fun m hm => by
        obtain ⟨halone, hout, hvec, hloads⟩ := hat m hm
        obtain ⟨b, hgang⟩ := hall m hm
        unfold State.ctx at hgang hloads
        exact ⟨halone, hout, hvec, by simp [Context.awaits, hgang, hloads]⟩
      obtain ⟨t, he, ht⟩ := gangForm_faults hw hk hn hall hbad hfaults
      refine ⟨t, he, fun m hm => ?_⟩
      rw [ht m hm]
      exact ⟨(hat m hm).1, rfl, rfl, rfl⟩
  · exact ⟨gangGroup_two c, gangGroup_four c, fun m _ => mem_clusterCores (clusterOf c) m⟩

end Sys2Proof.Machine
end

section
/-! Tasks: taking a record (R27, R353), the report of a task's end and what it sets in its launch (R203, R209, R350). -/
namespace Sys2Proof.Machine

/-! ### Tables mapped entry by entry -/

/-- What a table holds after each entry was changed by its number and value; an unlisted number holds the default. -/
theorem Tab.get_map {α β : Type} (d : α) (e : β) (f : Nat → α → β) (t : Tab α) (n : Nat) (h : f n d = e) :
    Tab.get e (t.map fun x => (x.1, f x.1 x.2)) n = f n (Tab.get d t n) := by
  induction t with
  | nil => exact h.symm
  | cons x t ih =>
    simp only [List.map_cons, Tab.get]
    split
    · next hn => rw [hn]
    · split
      · exact h.symm
      · exact ih

/-! ### Taking a record -/

/-- The words of a record go to e0 and on. -/
def Context.loadRecord (x : Context) (record : List Word) : Context :=
  record.zipIdx.foldl (init := x) fun (x : Context) (e : Word × Nat) => x.writeE e.2 e.1

theorem loadRecord_from (record : List Word) (k : Nat) (x : Context) :
    ∃ es, (record.zipIdx k).foldl (init := x) (fun (x : Context) (e : Word × Nat) => x.writeE e.2 e.1) =
        { x with e := es } ∧
      ∀ n, Tab.get 0 es n = if k ≤ n ∧ n < k + record.length then record.getD (n - k) 0 else x.readE n := by
  induction record generalizing k x with
  | nil => exact ⟨x.e, rfl, fun n => (if_neg (by simp)).symm⟩
  | cons w record ih =>
    obtain ⟨es, hes, hget⟩ := ih (k + 1) (x.writeE k w)
    refine ⟨es, hes, fun n => ?_⟩
    rw [hget]
    rcases Nat.lt_trichotomy n k with hn | rfl | hn
    · rw [if_neg (by omega), if_neg (by omega)]
      exact Tab.get_put_ne 0 x.e k n w hn.ne
    · rw [if_neg (by omega), if_pos (by simp), Nat.sub_self]
      exact Tab.get_put_self 0 x.e n w
    · have hsub : n - k = n - (k + 1) + 1 := by omega
      rw [hsub, List.getD_cons_succ, List.length_cons]
      by_cases hlt : n < k + (record.length + 1)
      · rw [if_pos (by omega), if_pos (by omega)]
      · rw [if_neg (by omega), if_neg (by omega)]
        exact Tab.get_put_ne 0 x.e k n w hn.ne'

theorem Context.readV_trim (x : Context) {fv fq n : Nat} (h : fv ≤ n) : (x.trim fv fq).readV n = {} := by
  have he : (x.trim fv fq).v = x.v.map fun e => (e.1, if e.1 < fv then e.2 else {}) :=
    List.map_congr_left fun e _ => by split <;> rfl
  unfold Context.readV
  rw [he]
  exact (Tab.get_map {} {} (fun k (u : VVal) => if k < fv then u else {}) _ _ (ite_self _)).trans (if_neg (Nat.not_lt.mpr h))
theorem Context.readQ_trim (x : Context) {fv fq n : Nat} (h : fq ≤ n) : (x.trim fv fq).readQ n = 0 := by
  have he : (x.trim fv fq).q = x.q.map fun e => (e.1, if e.1 < fq then e.2 else 0) :=
    List.map_congr_left fun e _ => by split <;> rfl
  unfold Context.readQ
  rw [he]
  exact (Tab.get_map 0 0 (fun k (u : QSet) => if k < fq then u else 0) _ _ (ite_self _)).trans (if_neg (Nat.not_lt.mpr h))

/-- A context as the taking of a task clears it. -/
def Context.unchecked (x : Context) : Context := { x with chk := 0 }
/-- A core with every context's chk cleared. -/
def Core.unchecked (k : Core) : Core := { k with ctxs := k.ctxs.map fun e => (e.1, e.2.unchecked) }
/-- The control context with a task's record and footprint. -/
def Context.begins (x : Context) (t : Task) : Context :=
  let x := (x.loadRecord t.record).trim t.fv t.fq
  if t.poison then x.setChk 0 else x

theorem Core.ctx_unchecked (k : Core) (m : Nat) : k.unchecked.ctx m = (k.ctx m).unchecked :=
  Tab.get_map ({} : Context) ({} : Context) (fun _ x => x.unchecked) k.ctxs m rfl
theorem Core.ctxs_take (k : Core) (t : Task) (cycle : Nat) :
    (k.take t cycle).ctxs = (k.unchecked.modCtx 0 fun x => x.begins t).ctxs := rfl
theorem Core.ctx_take (k : Core) (t : Task) (cycle : Nat) : (k.take t cycle).ctx 0 = (k.ctx 0).unchecked.begins t := by
  rw [Core.ctx, Core.ctxs_take]
  exact (Core.ctx_modCtx_self _ 0 _).trans (by rw [Core.ctx_unchecked])
theorem Core.ctx_take_ne (k : Core) (t : Task) (cycle : Nat) {m : Nat} (hm : m ≠ 0) :
    (k.take t cycle).ctx m = (k.ctx m).unchecked := by
  rw [Core.ctx, Core.ctxs_take]
  exact (Core.ctx_modCtx_ne _ 0 m _ hm).trans (Core.ctx_unchecked k m)

section
variable (x : Context) (t : Task)

theorem Context.begins_chk : (x.begins t).chk = if t.poison then x.chk ||| 1 else x.chk := by
  obtain ⟨es, hes, -⟩ := loadRecord_from t.record 0 x
  unfold Context.begins Context.loadRecord
  rw [hes]
  cases t.poison <;> rfl
theorem Context.begins_readG (n : Nat) : (x.begins t).readG n = x.readG n := by
  obtain ⟨es, hes, -⟩ := loadRecord_from t.record 0 x
  unfold Context.begins Context.loadRecord
  rw [hes]
  cases t.poison <;> rfl
theorem Context.begins_waitTaint : (x.begins t).waitTaint = x.waitTaint := by
  obtain ⟨es, hes, -⟩ := loadRecord_from t.record 0 x
  unfold Context.begins Context.loadRecord
  rw [hes]
  cases t.poison <;> rfl
theorem Context.begins_readE {n : Nat} (hn : n < t.record.length) : (x.begins t).readE n = t.record.getD n 0 := by
  obtain ⟨es, hes, hget⟩ := loadRecord_from t.record 0 x
  have h := hget n
  rw [if_pos (by omega), Nat.sub_zero] at h
  unfold Context.begins Context.loadRecord
  rw [hes, ← h]
  cases t.poison <;> rfl
theorem Context.begins_readV {n : Nat} (hn : t.fv ≤ n) : (x.begins t).readV n = {} := by
  rw [← (x.loadRecord t.record).readV_trim (fq := t.fq) hn]
  unfold Context.begins
  cases t.poison <;> rfl
theorem Context.begins_readQ {n : Nat} (hn : t.fq ≤ n) : (x.begins t).readQ n = 0 := by
  rw [← (x.loadRecord t.record).readQ_trim (fv := t.fv) hn]
  unfold Context.begins
  cases t.poison <;> rfl

end

/-- A core that has taken a task (R27): what the record, the mask and the footprint set. -/
def Core.HasTaken (k old : Core) (t : Task) (cycle : Nat) : Prop :=
  let x := k.ctx 0
  k.task = some { t with since := cycle } ∧ (∀ n, n < 8 → x.readE n = t.record.getD n 0) ∧
    k.tsk = ((t.record.getD 1 0 : Word).extractLsb' 32 32) ∧
    k.cov = ((t.record.getD 1 0 : Word).extractLsb' 20 4) ∧ k.need = t.mask.setWidth 64 ∧
    k.hchk = 0 ∧ (∀ m, m ≠ 0 → (k.ctx m).chk = 0) ∧ x.chk = (if t.poison then 1 else 0) ∧
    (∀ n, t.fv ≤ n → x.readV n = {}) ∧ (∀ n, t.fq ≤ n → x.readQ n = 0) ∧ k.inbox = old.inbox

/-- What goes on at the core afterwards leaves it so. -/
theorem Core.HasTaken.of_same {k l old : Core} {t : Task} {cycle : Nat} (h : k.HasTaken old t cycle)
    (hl : l = { k with ctxs := l.ctxs, pairing := l.pairing }) (hctx : ∀ m, m ≠ 0 → l.ctx m = k.ctx m)
    (he : ∀ n, (l.ctx 0).readE n = (k.ctx 0).readE n) (hv : ∀ n, (l.ctx 0).readV n = (k.ctx 0).readV n)
    (hq : ∀ n, (l.ctx 0).readQ n = (k.ctx 0).readQ n) (hchk : (l.ctx 0).chk = (k.ctx 0).chk) : l.HasTaken old t cycle := by
  obtain ⟨htask, hrec, htsk, hcov, hneed, hhchk, hothers, hown, hdeadV, hdeadQ, hin⟩ := h
  refine ⟨?_, fun n hn => (he n).trans (hrec n hn), ?_, ?_, ?_, ?_, fun m hm => ?_, hchk.trans hown,
    fun n hn => (hv n).trans (hdeadV n hn), fun n hn => (hq n).trans (hdeadQ n hn), ?_⟩
  · rw [hl]; exact htask
  · rw [hl]; exact htsk
  · rw [hl]; exact hcov
  · rw [hl]; exact hneed
  · rw [hl]; exact hhchk
  · rw [hctx m hm]; exact hothers m hm
  · rw [hl]; exact hin

/-- The core as `takeTask` leaves it. -/
def Core.taking (k : Core) (t : Task) (cycle : Nat) (consts : List Word) : Core := { k.take t cycle with consts := consts }

theorem Core.ctx_taking (k : Core) (t : Task) (cycle : Nat) (consts : List Word) :
    (k.taking t cycle consts).ctx 0 = (k.ctx 0).unchecked.begins t := k.ctx_take t cycle

theorem Core.hasTaken_taking (k : Core) {t : Task} (hr : t.record.length = 8) (cycle : Nat) (consts : List Word) :
    (k.taking t cycle consts).HasTaken k t cycle := by
  have h0 := k.ctx_taking t cycle consts
  refine ⟨rfl, fun n hn => ?_, rfl, rfl, rfl, rfl, fun m hm => ?_, ?_, fun n hn => ?_, fun n hn => ?_, rfl⟩
  · rw [h0, Context.begins_readE _ _ (hr ▸ hn)]
  · exact congrArg Context.chk (k.ctx_take_ne t cycle hm)
  · rw [h0, Context.begins_chk, show (k.ctx 0).unchecked.chk = 0 from rfl]
    cases t.poison <;> rfl
  · rw [h0, Context.begins_readV _ _ hn]
  · rw [h0, Context.begins_readQ _ _ hn]

theorem State.core_takeTask (s : State) (c : Nat) (t : Task) :
    (s.takeTask c t).core c = (s.core c).taking t s.cycle (((s.launch t.launch).map (·.consts)).getD []) :=
  State.core_modCore_self s c _

/-! ### TNEXT -/

theorem exec_tnext (d : BitVec 6) (s : State) : exec (.tnext d) s = execTnext d s := rfl
theorem exec_tnextTake (c : Nat) (s : State) : exec (.tnextTake c) s = execTnextTake c s := rfl

/-- A TNEXT that is no illegal instruction finds no task current (R353). -/
theorem task_none_of_clear_tnext {s : State} {d : BitVec 6} (hc : s.clear (.tnext d) = true) : s.here.task = none := by
  by_contra hsome
  have hfault : commonFault (.tnext d) s ≠ none := by
    have hill : illegalNow (.tnext d) s = true := Option.isSome_iff_ne_none.mpr hsome
    unfold commonFault
    rw [if_pos (by rw [hill, Bool.or_true])]
    exact Option.some_ne_none _
  unfold State.clear at hc
  simp only [Bool.and_eq_true, Option.isNone_iff_eq_none] at hc
  exact hfault hc.2

theorem Core.nextTask_eq {k : Core} (h : k.task = none) : k.nextTask = k.inbox.head? := by
  simp [Core.nextTask, h]

/-- A core that has taken a task has it still when an instruction's effect has retired. -/
theorem State.Keeps.hasTaken {u t : State} {old : Core} {k : Task} {cycle : Nat} (h : u.Keeps t []) (hx : u.cur.2 = 0)
    (hchk : t.me.chk = u.me.chk) (htask : u.here.HasTaken old k cycle) : t.here.HasTaken old k cycle := by
  have hu : u.me = u.here.ctx 0 := by unfold State.me State.ctx State.here; rw [hx]
  have ht : t.me = t.here.ctx 0 := by unfold State.me State.ctx State.here; rw [h.cur, hx]
  have hown := h.own
  rw [hu, ht] at hown hchk
  refine htask.of_same h.here (fun m hm => h.siblings m (hx ▸ hm)) (fun n => hown.e n (by simp)) (fun n => hown.v n (by simp))
    (fun n => hown.q n (by simp)) hchk

/-- TNEXT with a record in the inbox (R27, R353). -/
theorem tnext_takes {s : State} {d : BitVec 6} {k : Task} {rest : List Task} (hx : s.cur.2 = 0)
    (hc : s.clear (.tnext d) = true) (hin : s.here.inbox = k :: rest) (hr : k.record.length = 8) :
    ∃ t, exec (.tnext d) s = .next t ∧ t.here.HasTaken s.here k s.cycle ∧ t.cur = s.cur ∧
      t.me.readG d.toNat = writtenG d.toNat (k.record.getD 0 0) false ∧
      (∀ n, n ≠ d.toNat → t.me.readG n = s.me.readG n) ∧ s.OnlyCore t s.cur.1 ∧ t.here.store = s.here.store := by
  let u := s.takeTask s.cur.1 k
  let v := u.writeG d.toNat (k.record.getD 0 0) false
  have hnext : s.here.nextTask = some k := by rw [Core.nextTask_eq (task_none_of_clear_tnext hc), hin]; rfl
  have hdone : v.CompletesAt (s.retires (.tnext d) v (s.after (.tnext d))) (.tnext d) [] (s.after (.tnext d)) :=
    State.CompletesAt.of_effect _ rfl rfl
  obtain ⟨hkeeps, -, hchk⟩ := hdone
  have hu : u.here = s.here.taking k s.cycle _ := s.core_takeTask s.cur.1 k
  have hv : v.here = u.here.modCtx 0 fun x => x.writeG d.toNat (k.record.getD 0 0) false :=
    (State.here_modMe u _).trans (by rw [show u.cur.2 = 0 from hx])
  have htaken : v.here.HasTaken s.here k s.cycle := by
    have htaken : u.here.HasTaken s.here k s.cycle := hu ▸ Core.hasTaken_taking s.here hr s.cycle _
    refine htaken.of_same ?_ ?_ ?_ ?_ ?_ ?_
    · rw [hv]; rfl
    · intro m hm; rw [hv]; exact Core.ctx_modCtx_ne _ _ _ _ hm
    all_goals
      rw [hv, Core.ctx_modCtx_self]
      simp [Context.readE, Context.readV, Context.readQ]
  have hme : u.me = (s.me.unchecked.begins k) := by
    show u.here.ctx s.cur.2 = _
    rw [hu, hx, Core.ctx_taking]
    unfold State.me State.ctx State.here
    rw [hx]
  have hread : ∀ n, (s.retires (.tnext d) v (s.after (.tnext d))).me.readG n =
      if n = d.toNat then writtenG n (k.record.getD 0 0) false else s.me.readG n := fun n => by
    rw [State.retires_readG (s := s) (u := v) _ rfl, State.me_writeG, hme, Context.readG_writeG, Context.begins_readG]
    by_cases h : n = d.toNat
    · rw [if_pos h, if_pos h, h]; rfl
    · rw [if_neg h, if_neg h]; rfl
  refine ⟨_, ?_, hkeeps.hasTaken hx (hchk (by simp)) htaken, hkeeps.cur, ?_, ?_, ?_, ?_⟩
  · rw [exec_tnext, execTnext]
    exact issue_done hc (by rw [hnext])
  · rw [hread, if_pos rfl]
  · intro n hn; rw [hread, if_neg hn]
  · exact ((s.onlyCore_modCore _ _).trans (u.onlyCore_modMe _)).trans hkeeps.onlyCore
  · rw [hkeeps.here, hv, hu]; rfl

/-- TNEXT with an empty inbox parks. -/
theorem tnext_parks {s : State} {d : BitVec 6} (hc : s.clear (.tnext d) = true) (hin : s.here.inbox = []) :
    ∃ t, exec (.tnext d) s = .next t ∧ t.me.wait = .tnext d.toNat ∧ t.me.pc = s.me.pc ∧ s.OnlyCore t s.cur.1 := by
  have hnext : s.here.nextTask = none := by rw [Core.nextTask_eq (task_none_of_clear_tnext hc), hin]; rfl
  refine ⟨_, by rw [exec_tnext, execTnext]; exact issue_wait hc (by rw [hnext]), ?_, ?_, ?_⟩
  · rw [State.me_modMe, State.me_modMe]
  · rw [State.me_modMe, State.me_modMe]
  · exact (s.onlyCore_modMe _).trans ((s.modMe _).onlyCore_modMe _)

theorem Context.resumed_readG (t : Context) (frozen : Bool) (n : Nat) : (t.resumed frozen).readG n = t.readG n := by
  simp [Context.resumed, Context.unheld, Context.readG]

theorem execTnextTake_eq {s : State} {c d : Nat} {k : Task} (hw : (s.ctx c 0).wait = .tnext d)
    (hnext : (s.core c).nextTask = some k) :
    execTnextTake c s = .next (((s.takeTask c k).modCtx c 0 fun x => x.writeG d (k.record.getD 0 0) false).finish c 0
      (.g d :: (span 0 8).map .e)) := by
  unfold State.ctx at hw
  unfold execTnextTake
  simp only [hw, hnext]

/-- The event that completes a parked TNEXT (R27, R353). -/
theorem tnextTake_takes {s : State} {c d : Nat} {k : Task} {rest : List Task} (hw : (s.ctx c 0).wait = .tnext d)
    (htask : (s.core c).task = none) (hin : (s.core c).inbox = k :: rest) (hr : k.record.length = 8)
    (hp : (s.core c).pairing = none) (htaint : (s.ctx c 0).waitTaint = false) :
    ∃ t, exec (.tnextTake c) s = .next t ∧ (t.core c).HasTaken (s.core c) k s.cycle ∧ (t.ctx c 0).wait = .none ∧
      (t.ctx c 0).readG d = writtenG d (k.record.getD 0 0) false := by
  let u := s.takeTask c k
  let v := u.modCtx c 0 fun x => x.writeG d (k.record.getD 0 0) false
  let w := v.modCtx c 0 fun x => x.resumed (v.loopsFrozen c 0)
  have hnext : (s.core c).nextTask = some k := by rw [Core.nextTask_eq htask, hin]; rfl
  have hu : u.core c = (s.core c).taking k s.cycle _ := s.core_takeTask c k
  have hv : v.core c = (u.core c).modCtx 0 fun x => x.writeG d (k.record.getD 0 0) false := State.core_modCtx_self u c 0 _
  have hw' : w.core c = (v.core c).modCtx 0 fun x => x.resumed (v.loopsFrozen c 0) := State.core_modCtx_self v c 0 _
  have hu0 : (u.core c).ctx 0 = ((s.core c).ctx 0).unchecked.begins k := by
    rw [hu, Core.ctx_taking]
  have hw0 : (w.core c).ctx 0 = (((u.core c).ctx 0).writeG d (k.record.getD 0 0) false).resumed (v.loopsFrozen c 0) := by
    rw [hw', Core.ctx_modCtx_self, hv, Core.ctx_modCtx_self]
  have hexec : exec (.tnextTake c) s = .next w := by
    have hpv : (v.core c).pairing = none := by rw [hv, hu]; exact hp
    rw [exec_tnextTake, execTnextTake_eq hw hnext]
    exact congrArg Host.Outcome.next (finish_unpaired _ _ hpv)
  refine ⟨w, hexec, ?_, ?_, ?_⟩
  · have htaken : (u.core c).HasTaken (s.core c) k s.cycle := hu ▸ Core.hasTaken_taking (s.core c) hr s.cycle _
    refine htaken.of_same ?_ ?_ ?_ ?_ ?_ ?_
    · rw [hw', hv]; rfl
    · intro m hm
      rw [hw', Core.ctx_modCtx_ne _ _ _ _ hm, hv, Core.ctx_modCtx_ne _ _ _ _ hm]
    all_goals
      rw [hw0]
      simp [Context.resumed, Context.unheld, Context.readE, Context.readV, Context.readQ]
    rw [hu0, Context.begins_waitTaint]
    exact fun h => absurd (h.symm.trans htaint) (by decide)
  · show ((w.core c).ctx 0).wait = _
    rw [hw0, Context.resumed_wait]
  · show ((w.core c).ctx 0).readG d = _
    rw [hw0, Context.resumed_readG, Context.readG_writeG, if_pos rfl]
    rfl

/-! ### What a report sets in its launch -/

theorem State.launch_modLaunch {s : State} {n : Nat} {l : Launch} (f : Launch → Launch) (h : s.launch n = some l) :
    (s.modLaunch n f).launch n = some (f l) := by
  unfold State.modLaunch State.launch
  rw [Tab.get_put_self]
  unfold State.launch at h
  rw [h]
  rfl

theorem Launch.stage_modStage (l : Launch) (m n : Nat) (f : StageRun → StageRun) :
    (l.modStage m f).stage n = if n = m then (l.stage n).map f else l.stage n := by
  unfold Launch.stage Launch.modStage
  simp only [List.getElem?_map, List.getElem?_zipIdx, Option.map_map]
  by_cases h : n = m
  · subst h
    rw [if_pos rfl]
    exact Option.map_congr fun a _ => by simp
  · rw [if_neg h]
    exact (Option.map_congr fun a _ => by simp [h]).trans (congrFun Option.map_id _)

/-- A stage with a point done. -/
def StageRun.withDone (r : StageRun) (n : Nat) : StageRun :=
  { r with done := insertNat n r.done, flight := r.flight.filter (·.1 != n) }

/-- A point's completion sets it done in its own stage; what becomes ready is the next stage's. -/
theorem Launch.pointDone_sets (l : Launch) (stage n : Nat) :
    (l.pointDone stage n).status = l.status ∧
      (l.pointDone stage n).stage stage = (l.stage stage).map (·.withDone n) := by
  have hown : (l.modStage stage (·.withDone n)).stage stage = (l.stage stage).map (·.withDone n) := by
    rw [Launch.stage_modStage, if_pos rfl]
  have hnext : ∀ f, ((l.modStage stage (·.withDone n)).modStage (stage + 1) f).stage stage =
      (l.stage stage).map (·.withDone n) := fun f => by
    rw [Launch.stage_modStage, if_neg (Nat.ne_of_lt (Nat.lt_succ_self stage)), hown]
  unfold Launch.pointDone
  dsimp only
  split
  · split
    · split
      · exact ⟨rfl, hnext _⟩
      · exact ⟨rfl, hown⟩
    · split
      · exact ⟨rfl, hnext _⟩
      · split
        · exact ⟨rfl, hnext _⟩
        · exact ⟨rfl, hown⟩
  · exact ⟨rfl, hown⟩

theorem mem_insertNat (n : Nat) (l : List Nat) : n ∈ insertNat n l := by
  induction l with
  | nil => exact List.mem_singleton_self n
  | cons m l ih =>
    unfold insertNat
    split
    · exact List.mem_cons_self
    · split
      · next h => rw [h]; exact List.mem_cons_self
      · exact List.mem_cons_of_mem _ ih

/-- A launch that has waited since some cycle has the same stages and status. -/
theorem State.waitFrom_launch {s : State} {n : Nat} {l : Launch} (old : State) (h : s.launch n = some l) :
    ∃ l', (s.waitFrom old n).launch n = some l' ∧ l'.stages = l.stages ∧ l'.status = l.status := by
  refine ⟨_, State.launch_modLaunch _ h, ?_, ?_⟩ <;> split <;> rfl

/-- A stage with the report of a task noted. -/
def StageRun.reported (r : StageRun) (t : Task) (cycle : Nat) : StageRun :=
  { r with final := if r.desc.coverage then insertNat t.point r.final else r.final,
           times := (r.times ++ [cycle - t.since]).reverse.take 64 |>.reverse,
           retries := r.retries.filter fun q => q.point != t.point }

theorem State.report_eq {s : State} {t : Task} {l : Launch} {q : StageRun} (error : Bool) (hl : s.launch t.launch = some l)
    (hq : l.stage t.stage = some q) (hnew : t.point ∉ q.done) (hshadow : t.shadow = false) :
    s.report t error =
      let s := if error then s.launchError t.launch else s
      let s := s.modStage t.launch t.stage fun r => r.reported t s.cycle
      (s.modLaunch t.launch fun l => l.pointDone t.stage t.point).waitFrom s t.launch := by
  have hstage : s.stageOf t.launch t.stage = some q := by unfold State.stageOf; rw [hl]; exact hq
  unfold State.report
  rw [hstage]
  dsimp only
  rw [if_neg (by simp [hnew, hshadow])]
  rfl

/-- The report of a task whose point was not done (R198, R203, R209). -/
theorem State.report_sets {s : State} {t : Task} {l : Launch} {q : StageRun} (error : Bool) (hl : s.launch t.launch = some l)
    (hq : l.stage t.stage = some q) (hnew : t.point ∉ q.done) (hshadow : t.shadow = false) :
    ∃ l' r, (s.report t error).launch t.launch = some l' ∧ l'.stage t.stage = some r ∧ t.point ∈ r.done ∧
      (q.desc.coverage = true → t.point ∈ r.final) ∧ (error = true → 1 ≤ l'.status) := by
  obtain ⟨l₁, hl₁, hstages, hstatus⟩ : ∃ l₁, (if error then s.launchError t.launch else s).launch t.launch = some l₁ ∧
      l₁.stages = l.stages ∧ (error = true → 1 ≤ l₁.status) := by
    cases error
    · exact ⟨l, hl, rfl, fun h => absurd h (by decide)⟩
    · exact ⟨_, State.launch_modLaunch _ hl, rfl, fun _ => Nat.le_max_right _ _⟩
  rw [State.report_eq error hl hq hnew hshadow]
  dsimp only
  generalize (if error then s.launchError t.launch else s) = s₁ at hl₁
  have hl₂ := State.launch_modLaunch (fun l => l.modStage t.stage fun r => r.reported t s₁.cycle) hl₁
  obtain ⟨l', hl', hst, hs⟩ := State.waitFrom_launch (s₁.modStage t.launch t.stage fun r => r.reported t s₁.cycle)
    (State.launch_modLaunch (fun l => l.pointDone t.stage t.point) hl₂)
  obtain ⟨hstat, hdone⟩ := (l₁.modStage t.stage fun r => r.reported t s₁.cycle).pointDone_sets t.stage t.point
  refine ⟨l', (q.reported t s₁.cycle).withDone t.point, hl', ?_, mem_insertNat _ _, fun hcov => ?_, fun he => ?_⟩
  · unfold Launch.stage at hdone hq ⊢
    rw [hst, hdone]
    have := Launch.stage_modStage l₁ t.stage t.stage fun r => r.reported t s₁.cycle
    unfold Launch.stage at this
    rw [this, if_pos rfl, hstages, hq]
    rfl
  · show t.point ∈ if q.desc.coverage then insertNat t.point q.final else q.final
    rw [if_pos hcov]
    exact mem_insertNat _ _
  · rw [hs, hstat]
    exact hstatus he

/-- A report changes nothing but launches. -/
theorem State.report_frame (s : State) (t : Task) (error : Bool) : ∃ ls, s.report t error = { s with launches := ls } := by
  have hframe : ∀ (u : State) (f : Launch → Launch) (g : StageRun → StageRun) (old : State),
      ∃ ls, ((u.modStage t.launch t.stage g).modLaunch t.launch f).waitFrom old t.launch = { u with launches := ls } :=
    fun u f g old => ⟨_, rfl⟩
  unfold State.report
  split
  · exact ⟨s.launches, rfl⟩
  · dsimp only
    split
    · exact ⟨s.launches, rfl⟩
    · obtain ⟨ls, h⟩ := hframe (if error then s.launchError t.launch else s) _ _ _
      refine ⟨ls, h.trans ?_⟩
      cases error <;> rfl

/-! ### TEND -/

/-- TEND with no current task only counts (R350). -/
theorem tend_stray {s : State} {i : Instr} {a : Nat} (hi : exec i s = issue i s fun p s => s.doTend p a)
    (hc : s.clear i = true) (htask : s.here.task = none) :
    ∃ t, exec i s = .next t ∧ (s.count Count.strayTaskEnd s.cur.1).Completes t i [] := by
  refine ⟨s.retires i (s.count Count.strayTaskEnd s.cur.1) (s.after i), ?_, State.CompletesAt.of_effect _ rfl rfl⟩
  rw [hi]
  exact issue_done hc (by unfold State.doTend; rw [htask])

/-- The body of TEND at a task that is its core's own: it does not wait, and reports (R209, R350). -/
theorem doTend_reports {s : State} {k : Task} {p : Bool} {a : Nat} (hp : s.here.pairing = none)
    (htask : s.here.task = some k)
    (hgo : s.here.stageCoverage s = false ∨ s.here.cvdone = true ∨ s.released 6 s.cur.1 0 = true) :
    s.doTend p a =
      .done ((s.report k (p || s.here.chkSet || (s.g a).setWidth 32 != (0 : BitVec 32))).modHere Core.endTask) := by
  unfold State.doTend
  rw [htask]
  dsimp only
  rw [if_neg, hp]
  · rfl
  · rcases hgo with h | h | h
    · simp [h]
    · simp [h]
    · rw [h, Bool.not_true, Bool.and_false]
      exact Bool.false_ne_true

/-- TEND at a task whose point is not done (R27, R203, R209, R350). -/
theorem tend_ends {s : State} {i : Instr} {a : Nat} {k : Task} {l : Launch} {q : StageRun}
    (hi : exec i s = issue i s fun p s => s.doTend p a) (hp : s.here.pairing = none) (hc : s.clear i = true)
    (htask : s.here.task = some k) (hshadow : k.shadow = false) (hl : s.launch k.launch = some l)
    (hq : l.stage k.stage = some q) (hnew : k.point ∉ q.done)
    (hgo : s.here.stageCoverage s = false ∨ s.here.cvdone = true ∨ s.released 6 s.cur.1 0 = true) :
    ∃ t l' r, exec i s = .next t ∧ t.here.task = none ∧ t.here.inbox = s.here.inbox.drop 1 ∧ t.here.cvdone = false ∧
      t.launch k.launch = some l' ∧ l'.stage k.stage = some r ∧ k.point ∈ r.done ∧
      (q.desc.coverage = true → k.point ∈ r.final) ∧
      (poisonedSource i s = true ∨ s.here.chkSet = true ∨ (s.g a).setWidth 32 ≠ (0 : BitVec 32) → 1 ≤ l'.status) ∧
      (∀ n, t.me.readG n = s.me.readG n) ∧ t.here.store = s.here.store := by
  let error := poisonedSource i s || s.here.chkSet || (s.g a).setWidth 32 != (0 : BitVec 32)
  let u := s.report k error
  let v := u.modHere Core.endTask
  obtain ⟨l', r, hl', hr, hdone, hfinal, hstatus⟩ := State.report_sets error hl hq hnew hshadow
  obtain ⟨ls, hu⟩ := s.report_frame k error
  have hcur : v.cur = s.cur := by
    show u.cur = _
    rw [show u = _ from hu]
  have hhere : u.here = s.here := by
    rw [show u = _ from hu]
    rfl
  have hv : v.here = s.here.endTask := (State.here_modHere u _).trans (by rw [hhere])
  have hme : v.me = s.me := by
    show v.here.ctx v.cur.2 = s.here.ctx s.cur.2
    rw [hv, hcur]
    rfl
  have hkeeps : v.Keeps (s.retires i v (s.after i)) [] := (State.Keeps.refl v []).of_retires (s.after i) hcur
  refine ⟨s.retires i v (s.after i), l', r, ?_, ?_, ?_, ?_, ?_, hr, hdone, hfinal, fun h => hstatus ?_, fun n => ?_, ?_⟩
  · rw [hi]
    exact issue_done hc (doTend_reports hp htask hgo)
  · rw [hkeeps.here, hv]; rfl
  · rw [hkeeps.here, hv]; rfl
  · rw [hkeeps.here, hv]; rfl
  · rw [hkeeps.outside]; exact hl'
  · rcases h with h | h | h
    · simp [error, h]
    · simp [error, h]
    · exact Bool.or_eq_true_iff.mpr (Or.inr (bne_iff_ne.mpr h))
  · rw [State.retires_readG _ hcur, hme]
  · rw [hkeeps.here, hv]; rfl

theorem exec_tend (a : BitVec 6) (s : State) : exec (.tend a) s = issue (.tend a) s fun p s => s.doTend p a.toNat := rfl
theorem exec_tend16 (a : BitVec 5) (s : State) :
    exec (.tend16 a) s = issue (.tend16 a) s fun p s => s.doTend p a.toNat := rfl

/-- Settles O39: the record's fields at the core that takes it, by the instruction or by the event; the report by what
it sets in the launch. -/
theorem taskTurnover : Obligations.TaskTurnover := by
  unfold Obligations.TaskTurnover
  refine ⟨fun s d hx _ hc => ⟨fun k rest hin hr => ?_, tnext_parks hc⟩, ?_, fun s i a hi _ hp hc => ?_⟩
  · obtain ⟨t, he, htaken, hcur, hread⟩ := tnext_takes hx hc hin hr
    refine ⟨t, he, ?_, hread⟩
    unfold State.here at htaken
    rw [hcur] at htaken
    exact htaken
  · intro s c d k rest hw _ _ htask hin hr hp htaint
    exact tnextTake_takes hw htask hin hr hp htaint
  · have hexec : exec i s = issue i s fun p s => s.doTend p a := by
      rcases hi with ⟨r, rfl, rfl⟩ | ⟨r, rfl, rfl⟩
      · exact exec_tend r s
      · exact exec_tend16 r s
    exact ⟨tend_stray hexec hc, fun k l q htask hshadow hl hq hnew hgo =>
      tend_ends hexec hp hc htask hshadow hl hq hnew hgo⟩

end Sys2Proof.Machine
end

section
/-! The supervisor's and the reliability manager's short events: assignment of a core (R12, R36), periodic self-tests,
re-encodes, parked stacks, scrubbing (R214, R215, R225, R247), and the errors that mark what they struck (R213). -/
namespace Sys2Proof.Machine

/-! ### Events that are due or not -/

theorem whenDue_pos {due : Bool} {s t : State} (h : due = true) : whenDue due s t = .next t := by rw [whenDue, if_pos h]
theorem whenDue_neg {due : Bool} {s t : State} (h : ¬due = true) : whenDue due s t = .next s := by rw [whenDue, if_neg h]

/-! ### Assignment -/

theorem exec_coreAssignment (c n : Nat) (tvec entry : Word) (s : State) :
    exec (.coreAssignment c n tvec entry) s = execCoreAssignment c n tvec entry s := rfl

/-- A core that may be assigned to a partition. -/
def State.assignable (s : State) (p : Partition) (c : Nat) : Prop :=
  p.clearing = false ∧ clusterOf c ∈ p.clusters ∧ s.inColumn c = false ∧ (s.core c).part = none ∧
    (s.core c).killed = false ∧ (s.core c).selfTest = none ∧ s.firmware.fencesOk = true ∧ s.firmware.service = true

/-- The core as assigned. -/
def Core.assigned (k : Core) (n : Nat) (tvec entry : Word) : Core :=
  { k.cleared with part := some n, store := k.store, tvec := tvec, bilrok := some (tvec &&& ~~~(1 : Word)),
                   loopPc := entry, ctxs := [(0, { live := true, pc := entry, life := (k.ctx 0).life })] }

theorem execCoreAssignment_eq {s : State} {c n : Nat} (tvec entry : Word) {p : Partition} (hp : s.part n = some p)
    [Decidable (s.assignable p c)] :
    execCoreAssignment c n tvec entry s =
      .next (if s.assignable p c then s.setCore c ((s.core c).assigned n tvec entry) else s) := by
  have hiff : (!s.firmware.fencesOk || !s.firmware.service || p.clearing || !p.clusters.contains (clusterOf c) ||
      s.inColumn c || (s.core c).part.isSome || (s.core c).killed || (s.core c).selfTest.isSome) = true ↔ ¬s.assignable p c := by
    unfold State.assignable
    simp only [Bool.or_eq_true, Bool.not_eq_true', List.contains_eq_mem, decide_eq_false_iff_not,
      Option.isSome_iff_ne_none]
    grind
  unfold execCoreAssignment
  rw [hp]
  dsimp only
  by_cases h : s.assignable p c
  · rw [if_neg (fun hb => hiff.mp hb h), if_pos h]
    rfl
  · rw [if_pos (hiff.mpr h), if_neg h]

/-- A context that has just been made. -/
theorem assigned_fresh (k : Core) (n : Nat) (tvec entry : Word) :
    ((k.assigned n tvec entry).ctx 0).Fresh entry fun _ => {} where
  live := ⟨rfl, rfl⟩
  g m := by
    by_cases h : m = 0
    · subst h; rfl
    · show (if m = 0 then ({} : GVal) else {}) = _
      rw [ite_self, ite_self]
  dead m := ⟨rfl, rfl, rfl, rfl⟩
  modes := ⟨rfl, rfl, rfl, rfl, rfl, rfl, rfl⟩
  clear := ⟨rfl, rfl, rfl, rfl, rfl, rfl⟩

theorem ctx_assigned_ne (k : Core) (n : Nat) (tvec entry : Word) {x : Nat} (hx : x ≠ 0) :
    (k.assigned n tvec entry).ctx x = {} := by
  show Tab.get ({} : Context) [(0, _)] x = _
  simp [Tab.get, hx]

/-! ### Self-tests, re-encodes, stacks -/

theorem exec_selfTestPeriodic (m : SelfTestMove) (s : State) :
    exec (.selfTestPeriodic m) s = execSelfTestPeriodic m s := rfl

/-- A core whose periodic self-test is due (R225). -/
def State.testDue (s : State) (c : Nat) : Prop :=
  (s.core c).task = none ∧ (s.core c).inbox = [] ∧ (s.core c).killed = false ∧ (s.core c).selfTest = none ∧
    (s.core c).saved = none ∧ (s.core c).tested + s.firmware.selfTestPeriod ≤ s.cycle

theorem testDue_iff (s : State) (c : Nat) :
    ((s.core c).task.isNone && (s.core c).inbox == [] && !(s.core c).killed && (s.core c).selfTest.isNone &&
      (s.core c).saved.isNone && decide ((s.core c).tested + s.firmware.selfTestPeriod ≤ s.cycle)) = true ↔ s.testDue c := by
  simp only [State.testDue, Bool.and_eq_true, Option.isNone_iff_eq_none, beq_iff_eq, Bool.not_eq_true', decide_eq_true_eq]
  tauto

theorem selfTestPeriodic_waits {s : State} {c : Nat} (h : ¬s.testDue c) :
    exec (.selfTestPeriodic (.test c)) s = .next s := by
  rw [exec_selfTestPeriodic]
  exact whenDue_neg fun hb => h ((testDue_iff s c).mp hb)

/-- A due test takes the core out of placement (R225). -/
theorem selfTestPeriodic_tests {s : State} {c : Nat} (h : s.testDue c) :
    ∃ t, exec (.selfTestPeriodic (.test c)) s = .next t ∧ s.OnlyCore t c ∧
      t.core c = { s.core c with selfTest := some { classes := BitVec.allOnes 28, cause := 2, since := s.cycle } } ∧
      t.placeable c = false := by
  let f : Core → Core := fun k =>
    { k with selfTest := some { classes := BitVec.allOnes 28, cause := 2, since := s.cycle } }
  have hcore : (s.modCore c f).core c = f (s.core c) := State.core_modCore_self s c f
  refine ⟨s.modCore c f, ?_, s.onlyCore_modCore c f, hcore, ?_⟩
  · rw [exec_selfTestPeriodic]
    exact whenDue_pos ((testDue_iff s c).mpr h)
  · unfold State.placeable
    rw [hcore]
    simp [f]

theorem reEncodeComplete_ends (s : State) (a : SramArray) :
    ∃ (t : State), exec (.reEncodeComplete a) s = .next t ∧ t = { s with reencode := t.reencode } ∧
      ∀ e, e ∈ t.reencode ↔ e ∈ s.reencode ∧ ¬(e.1 = a ∧ e.2 ≤ s.cycle) := by
  refine ⟨_, rfl, rfl, fun e => ?_⟩
  rw [List.mem_filter]
  simp only [Bool.not_eq_true', Bool.and_eq_false_iff, beq_eq_false_iff_ne, decide_eq_false_iff_not]
  tauto

theorem stackPark_parks (s : State) (n : Nat) (b : Bool) :
    ∃ (t : State), exec (.stackPark n b) s = .next t ∧ t = { s with dramStacks := t.dramStacks } ∧
      (Tab.get {} t.dramStacks n : Stack) = { (Tab.get {} s.dramStacks n : Stack) with parked := b } ∧
      ∀ m, m ≠ n → (Tab.get {} t.dramStacks m : Stack) = Tab.get {} s.dramStacks m :=
  ⟨_, rfl, rfl, Tab.get_put_self _ _ n _, fun m hm => Tab.get_put_ne _ _ n m _ hm⟩

/-! ### Scrubbing -/

theorem exec_scrubRead (die : Nat) (o : ScrubOutcome) (s : State) : exec (.scrubRead die o) s = execScrubRead die o s := rfl

theorem State.withRow_frame (s : State) (a n : Nat) : ∃ b, s.withRow a n = { s with budgets := b } := by
  unfold State.withRow
  split
  · exact ⟨s.budgets, rfl⟩
  · split
    · exact ⟨_, rfl⟩
    · exact ⟨s.budgets, rfl⟩
theorem State.spend_frame (s : State) (a n m : Nat) : ∃ b, s.spend a n m = { s with budgets := b } := by
  obtain ⟨b, h⟩ := s.withRow_frame a n
  unfold State.spend
  rw [h]
  exact ⟨_, rfl⟩
theorem State.budgetStall_frame (s : State) (a n : Nat) : ∃ b, s.budgetStall a n = { s with budgets := b } := by
  obtain ⟨b, h⟩ := s.withRow_frame a n
  unfold State.budgetStall
  rw [h]
  exact ⟨_, rfl⟩

/-- Main memory, its marks, the cores and the scrub engines are as they were. -/
structure State.SameMemory (s t : State) : Prop where
  dram : t.dram = s.dram
  bad  : t.dramBad = s.dramBad
  core : t.cores = s.cores
  line : t.scrub = s.scrub

theorem State.SameMemory.refl (s : State) : s.SameMemory s := ⟨rfl, rfl, rfl, rfl⟩
theorem State.SameMemory.trans {s t u : State} (h : s.SameMemory t) (k : t.SameMemory u) : s.SameMemory u :=
  ⟨k.dram.trans h.dram, k.bad.trans h.bad, k.core.trans h.core, k.line.trans h.line⟩
theorem State.SameMemory.spend (s : State) (a n m : Nat) : s.SameMemory (s.spend a n m) := by
  obtain ⟨b, h⟩ := s.spend_frame a n m
  rw [h]; exact ⟨rfl, rfl, rfl, rfl⟩
theorem State.SameMemory.budgetStall (s : State) (a n : Nat) : s.SameMemory (s.budgetStall a n) := by
  obtain ⟨b, h⟩ := s.budgetStall_frame a n
  rw [h]; exact ⟨rfl, rfl, rfl, rfl⟩
theorem State.SameMemory.send (s : State) (dst : Sender) (body : OutBody) : s.SameMemory (s.send dst body) := by
  unfold State.send
  cases dst with
  | peer n => exact ⟨rfl, rfl, rfl, rfl⟩
  | host h =>
    dsimp only
    split
    · refine State.SameMemory.trans ?_ (State.SameMemory.spend _ 2 h body.size)
      exact ⟨rfl, rfl, rfl, rfl⟩
    · refine State.SameMemory.trans ?_ (State.SameMemory.budgetStall _ 2 h)
      exact ⟨rfl, rfl, rfl, rfl⟩
theorem State.SameMemory.noticeHosts (s : State) (fields : List TlvField) : s.SameMemory (s.noticeHosts fields) := by
  unfold State.noticeHosts
  exact List.foldlRecOn _ _ (State.SameMemory.refl s) fun t h n _ => h.trans (State.SameMemory.send t (.host n) _)
/-- A device's corrected error is noted in its stack's record and told to hosts (R212, R215). -/
theorem State.SameMemory.noteDevice (s : State) (line device : Nat) : s.SameMemory (s.noteDevice line device) := by
  unfold State.noteDevice
  dsimp only
  split
  · exact State.SameMemory.refl s
  · split
    · refine State.SameMemory.trans ?_ (State.SameMemory.noticeHosts _ _)
      exact ⟨rfl, rfl, rfl, rfl⟩
    · exact ⟨rfl, rfl, rfl, rfl⟩

/-- What the scrub engine finds at a line (R215). -/
def State.scrubbed (s : State) (line : Nat) : ScrubOutcome → State
  | .clean => s
  | .corrected device => s.noteDevice line device
  | .uncorrectable =>
    ({ s with dramBad := Tab.set false s.dramBad line true }).count Count.dramUncorrectable (channelOf (line * 64) / 64)

theorem execScrubRead_eq (s : State) (die : Nat) (o : ScrubOutcome) :
    execScrubRead die o s =
      let line := nextLine die 2048 (Tab.get 0 s.scrub die)
      if s.budgetLeft 6 die = false then .next (s.budgetStall 6 die)
      else if s.arrayBusy (.channel (channelOf (line * 64))) then .next s
      else .next ((({ s with scrub := Tab.put s.scrub die (line + 1) } : State).spend 6 die 64).scrubbed line o) := by
  unfold execScrubRead
  cases s.budgetLeft 6 die
  · rfl
  · cases o <;> rfl

theorem scrubRead_stalls {s : State} {die : Nat} (o : ScrubOutcome) (hb : s.budgetLeft 6 die = false) :
    ∃ (t : State), exec (.scrubRead die o) s = .next t ∧ t = { s with budgets := t.budgets } := by
  obtain ⟨b, h⟩ := s.budgetStall_frame 6 die
  refine ⟨s.budgetStall 6 die, ?_, by rw [h]⟩
  rw [exec_scrubRead, execScrubRead_eq]
  dsimp only
  rw [if_pos hb]
theorem scrubRead_waits {s : State} {die : Nat} (o : ScrubOutcome) (hb : s.budgetLeft 6 die = true)
    (hbusy : s.arrayBusy (.channel (channelOf (nextLine die 2048 (Tab.get 0 s.scrub die) * 64))) = true) :
    exec (.scrubRead die o) s = .next s := by
  rw [exec_scrubRead, execScrubRead_eq]
  dsimp only
  rw [if_neg (by simp [hb]), if_pos hbusy]

/-- The scrub engine reads its next line where it may (R215, R247). -/
theorem scrubRead_reads {s : State} {die : Nat} (o : ScrubOutcome) (hb : s.budgetLeft 6 die = true)
    (hbusy : s.arrayBusy (.channel (channelOf (nextLine die 2048 (Tab.get 0 s.scrub die) * 64))) = false) :
    let line := nextLine die 2048 (Tab.get 0 s.scrub die)
    ∃ (t : State), exec (.scrubRead die o) s = .next t ∧ Tab.get 0 t.scrub die = line + 1 ∧ t.dram = s.dram ∧
      t.cores = s.cores ∧ (o = .uncorrectable → Tab.get false t.dramBad line = true) ∧
      (o ≠ .uncorrectable → t.dramBad = s.dramBad) := by
  intro line
  let u : State := { s with scrub := Tab.put s.scrub die (line + 1) }
  have hline : Tab.get 0 u.scrub die = line + 1 := Tab.get_put_self 0 s.scrub die _
  have hspent : u.SameMemory (u.spend 6 die 64) := State.SameMemory.spend u 6 die 64
  have hexec : exec (.scrubRead die o) s = .next ((u.spend 6 die 64).scrubbed line o) := by
    rw [exec_scrubRead, execScrubRead_eq]
    dsimp only
    rw [if_neg (by simp [hb]), if_neg (by simp [hbusy])]
  refine ⟨_, hexec, ?_⟩
  cases o with
  | clean => exact ⟨hspent.line ▸ hline, hspent.dram, hspent.core, nofun, fun _ => hspent.bad⟩
  | corrected device =>
    have hnoted := hspent.trans (State.SameMemory.noteDevice _ line device)
    exact ⟨hnoted.line ▸ hline, hnoted.dram, hnoted.core, nofun, fun _ => hnoted.bad⟩
  | uncorrectable =>
    exact ⟨hspent.line ▸ hline, hspent.dram, hspent.core, fun _ => Tab.get_put_self false _ line true,
      fun h => absurd rfl h⟩

/-! ### Errors that mark what they struck (R213) -/

theorem Store.poison_poisonWord (m : Store) (o : Nat) : Tab.get false (m.poisonWord o).poison (o / 8) = true :=
  Tab.get_put_self false m.poison (o / 8) true

theorem getElem?_modAt {α : Type} {l : List α} {n : Nat} {a : α} (h : l[n]? = some a) (f : α → α) :
    (modAt l n f)[n]? = some (f a) := by
  unfold modAt
  simp [List.getElem?_map, List.getElem?_zipIdx, h]

theorem State.cluster_modCluster_self (s : State) (n : Nat) (f : Cluster → Cluster) :
    (s.modCluster n f).cluster n = f (s.cluster n) := Tab.get_put_self ({} : Cluster) s.clusters n _
theorem State.cluster_modCluster_ne (s : State) (n m : Nat) (f : Cluster → Cluster) (h : m ≠ n) :
    (s.modCluster n f).cluster m = s.cluster m := Tab.get_put_ne ({} : Cluster) s.clusters n m _ h
theorem State.core_count (s : State) (kind index c : Nat) : (s.count kind index).core c = s.core c := rfl

section
variable (s : State) (c n : Nat)

theorem error_marks_localWord : ∃ t, exec (.uncorrectableError (.localWord c n)) s = .next t ∧
    Tab.get false (t.core c).store.poison (n / 8) = true ∧ (t.core c).store.bytes = (s.core c).store.bytes := by
  refine ⟨_, rfl, ?_⟩
  rw [State.core_count, State.core_modCore_self]
  exact ⟨Store.poison_poisonWord _ n, rfl⟩
theorem error_marks_scratchWord : ∃ t, exec (.uncorrectableError (.scratchWord c n)) s = .next t ∧
    Tab.get false (t.cluster c).store.poison (n / 8) = true ∧ (t.cluster c).store.bytes = (s.cluster c).store.bytes := by
  have hc : ((s.modCluster c fun k => { k with store := k.store.poisonWord n }).count
      Count.sramUncorrectableCluster c).cluster c =
      { s.cluster c with store := (s.cluster c).store.poisonWord n } := 
    State.cluster_modCluster_self s c fun k => { k with store := k.store.poisonWord n }
  refine ⟨_, rfl, ?_⟩
  rw [hc]
  exact ⟨Store.poison_poisonWord _ n, rfl⟩
theorem error_marks_line : ∃ t u, exec (.uncorrectableError (.dramLine n)) s = .next t ∧
    exec (.uncorrectableError (.pageTableLine n)) s = .next u ∧ Tab.get false t.dramBad (n / 64) = true ∧
    Tab.get false u.dramBad (n / 64) = true ∧ t.dram = s.dram :=
  ⟨_, _, rfl, rfl, Tab.get_put_self false s.dramBad (n / 64) true, Tab.get_put_self false s.dramBad (n / 64) true, rfl⟩
theorem error_marks_tile : ∃ t, exec (.uncorrectableError (.tile c n)) s = .next t ∧
    (t.core c).tile n = { (s.core c).tile n with poison := true } := by
  refine ⟨_, rfl, ?_⟩
  rw [State.core_count, State.core_modCore_self]
  exact Tab.get_put_self {} (s.core c).tiles n _
theorem error_marks_mail {m : Msg} (h : (s.core c).mailbox[n]? = some m) :
    ∃ t, exec (.uncorrectableError (.mailboxEntry c n)) s = .next t ∧
      (t.core c).mailbox[n]? = some { m with poison := true } := by
  refine ⟨_, rfl, ?_⟩
  rw [State.core_count, State.core_modCore_self]
  exact getElem?_modAt h fun m => { m with poison := true }
theorem error_marks_record {k : Task} (h : (s.core c).inbox[n]? = some k) :
    ∃ t, exec (.uncorrectableError (.inboxEntry c n)) s = .next t ∧
      (t.core c).inbox[n]? = some { k with poison := true } := by
  refine ⟨_, rfl, ?_⟩
  rw [State.core_count, State.core_modCore_self]
  exact getElem?_modAt h fun t => { t with poison := true }
theorem error_drops_confluenceEntry : ∃ t, exec (.uncorrectableError (.confluenceEntry c n)) s = .next t ∧
    (t.core c).conf = (s.core c).conf.eraseIdx n := by
  refine ⟨_, rfl, ?_⟩
  rw [State.core_count, State.core_modCore_self]
theorem error_marks_copy {r : CopyRun} (h : ((s.core c).eq n).running = some r) :
    ∃ t, exec (.uncorrectableError (.copyBuffer c n)) s = .next t ∧
      ((t.core c).eq n).running = some { r with status := if r.status = 0 then 5 else r.status } := by
  refine ⟨_, rfl, ?_⟩
  rw [State.core_modCore_self]
  refine (congrArg CopyQueue.running (Tab.get_put_self {} (s.core c).eqs n _)).trans ?_
  exact (congrArg (Option.map _) h).trans rfl
theorem error_marks_replaySlot (header : Bool) : ∃ t, exec (.uncorrectableError (.replaySlot c n header)) s = .next t ∧
    t.replay = s.replay.map fun r => if r.link = c ∧ r.seq = n then { r with lost := some header } else r := by
  refine ⟨_, rfl, List.map_congr_left fun r _ => ?_⟩
  simp only [Bool.and_eq_true, beq_iff_eq]

end

end Sys2Proof.Machine
end

section
/-! Clearing a partition (R72, R74, R241): what beginning it does to cores, granules and bytes, and what its end leaves.
-/
namespace Sys2Proof.Machine

/-! ### Tables whose entries need not rise -/

theorem Tab.get_above {α : Type} (d : α) (t : Tab α) {k j : Nat} (h : k < j) :
    Tab.get d (Tab.above k t) j = Tab.get d t j := by
  induction t with
  | nil => rfl
  | cons e t ih =>
    unfold Tab.above
    split
    · rfl
    · next hk =>
      have h1 : j ≠ e.1 := by omega
      have h2 : ¬j < e.1 := by omega
      rw [ih]
      simp [Tab.get, h1, h2]
theorem Tab.get_above_low {α : Type} (d : α) (t : Tab α) {k j : Nat} (h : j ≤ k) : Tab.get d (Tab.above k t) j = d := by
  induction t with
  | nil => rfl
  | cons e t ih =>
    unfold Tab.above
    split
    · next hk =>
      have h1 : j ≠ e.1 := by omega
      have h2 : j < e.1 := by omega
      simp [Tab.get, h1, h2]
    · exact ih
theorem Tab.get_erase {α : Type} (d : α) (t : Tab α) (k j : Nat) :
    Tab.get d (Tab.erase t k) j = if j = k then d else Tab.get d t j := by
  induction t with
  | nil => simp [Tab.erase, Tab.get]
  | cons e t ih =>
    unfold Tab.erase
    rcases Nat.lt_trichotomy k e.1 with hk | hk | hk
    · rw [if_pos hk]
      split
      · next h => simp [Tab.get, h, hk, hk.ne]
      · rfl
    · rw [if_neg (by omega), if_pos hk]
      rcases Nat.lt_trichotomy j k with hj | rfl | hj
      · rw [Tab.get_above_low d t hj.le, if_neg hj.ne]
        simp [Tab.get, show j ≠ e.1 by omega, show j < e.1 by omega]
      · rw [Tab.get_above_low d t le_rfl, if_pos rfl]
      · rw [Tab.get_above d t hj, if_neg hj.ne']
        simp [Tab.get, show j ≠ e.1 by omega, show ¬j < e.1 by omega]
    · rw [if_neg (by omega), if_neg (by omega)]
      simp only [Tab.get, ih]
      by_cases hj : j = k
      · simp [hj, show k ≠ e.1 by omega, show ¬k < e.1 by omega]
      · simp [hj]
/-- Whatever the table's form, a set value is the value read. -/
theorem Tab.get_set_any {α : Type} [DecidableEq α] (d : α) (t : Tab α) (k j : Nat) (v : α) :
    Tab.get d (Tab.set d t k v) j = if j = k then v else Tab.get d t j := by
  unfold Tab.set
  split
  · next h => rw [Tab.get_erase, h]
  · exact Tab.get_put d t k j v

/-! ### Work on cores and clusters that may come up more than once -/

/-- What an operation brings about at a core, and another core's turn does not undo, holds at every core of the list. -/
theorem core_foldl_holds {f : State → Nat → State} {P : Core → Prop} {l : List Nat} {m : Nat} (hm : m ∈ l)
    (own : ∀ s, P ((f s m).core m)) (keep : ∀ s a, P (s.core m) → P ((f s a).core m)) (s : State) :
    P ((l.foldl f s).core m) := by
  induction l generalizing s with
  | nil => cases hm
  | cons a l ih =>
    rw [List.foldl_cons]
    by_cases hl : m ∈ l
    · exact ih hl (f s a)
    · have ha : m = a := (List.mem_cons.mp hm).resolve_right hl
      refine List.foldlRecOn l f (motive := fun t => P (t.core m)) ?_ fun t ht b _ => keep t b ht
      exact ha ▸ own s

/-- A change of cores that done twice is done once. -/
theorem core_foldl_modCore {F : Core → Core} (idem : ∀ k, F (F k) = F k) (l : List Nat) (s : State) (m : Nat) :
    (l.foldl (fun s c => s.modCore c F) s).core m = if m ∈ l then F (s.core m) else s.core m := by
  induction l generalizing s with
  | nil => rfl
  | cons a l ih =>
    rw [List.foldl_cons, ih]
    by_cases ha : m = a
    · subst ha
      simp [idem]
    · simp [ha, State.core_modCore_ne s a m F ha]
/-- As for cores. -/
theorem cluster_foldl_modCluster {F : Cluster → Cluster} (idem : ∀ k, F (F k) = F k) (l : List Nat) (s : State) (m : Nat) :
    (l.foldl (fun s c => s.modCluster c F) s).cluster m = if m ∈ l then F (s.cluster m) else s.cluster m := by
  induction l generalizing s with
  | nil => rfl
  | cons a l ih =>
    rw [List.foldl_cons, ih]
    by_cases ha : m = a
    · subst ha
      simp [idem, State.cluster_modCluster_self]
    · simp [ha, State.cluster_modCluster_ne s a m F ha]

theorem cores_foldl_modCluster (F : Cluster → Cluster) (l : List Nat) (s : State) :
    (l.foldl (fun s c => s.modCluster c F) s).cores = s.cores :=
  List.foldlRecOn l _ (motive := fun t : State => t.cores = s.cores) rfl fun _ h _ _ => h
theorem clusters_foldl_modCore (F : Core → Core) (l : List Nat) (s : State) :
    (l.foldl (fun s c => s.modCore c F) s).clusters = s.clusters :=
  List.foldlRecOn l _ (motive := fun t : State => t.clusters = s.clusters) rfl fun _ h _ _ => h

/-! ### Granules -/

theorem State.owner_handGranule (s : State) (odi g j : Nat) :
    Tab.get 0 (s.handGranule odi g).owners j = if j = g ∧ crashGranule g = false then odi else Tab.get 0 s.owners j := by
  unfold State.handGranule
  split
  · next h =>
    rcases Bool.or_eq_true_iff.mp h with hc | ho
    · rw [if_neg (by simp [hc])]
    · split
      · next hj => rw [hj.1]; exact of_decide_eq_true ho
      · rfl
  · next h =>
    have hc : crashGranule g = false := by
      simp only [Bool.or_eq_true, not_or, Bool.not_eq_true] at h
      exact h.1
    simp only [Tab.get_set_any, hc, and_true]

theorem State.cores_handGranule (s : State) (odi g : Nat) : (s.handGranule odi g).cores = s.cores := by
  unfold State.handGranule
  split <;> rfl
theorem State.dram_wf_handGranule {s : State} (odi g : Nat) (h : s.dram.wf = true) :
    (s.handGranule odi g).dram.wf = true := by
  unfold State.handGranule
  split
  · exact h
  · exact Memory.wf_replace _ _ _ h

/-- Granules handed over one after another. -/
def State.handGranules (s : State) (odi : Nat) (granules : List Nat) : State :=
  granules.foldl (init := s) fun s g => s.handGranule odi g

theorem State.cores_handGranules (s : State) (odi : Nat) (granules : List Nat) :
    (s.handGranules odi granules).cores = s.cores :=
  List.foldlRecOn granules _ (motive := fun t : State => t.cores = s.cores) rfl fun t h g _ =>
    (t.cores_handGranule odi g).trans h

theorem State.owner_handGranules (s : State) (odi : Nat) (granules : List Nat) (j : Nat) :
    Tab.get 0 (s.handGranules odi granules).owners j =
      if j ∈ granules ∧ crashGranule j = false then odi else Tab.get 0 s.owners j := by
  unfold State.handGranules
  induction granules generalizing s with
  | nil => simp
  | cons g l ih =>
    rw [List.foldl_cons, ih, s.owner_handGranule]
    by_cases hg : j = g
    · subst hg
      by_cases hc : crashGranule j = false <;> simp [hc]
    · simp [hg]

/-- A byte stays whose granule is not handed over or has its owner already. -/
theorem State.byte_handGranules {s : State} (odi : Nat) (granules : List Nat) (a : Nat) (h : s.dram.wf = true)
    (ha : a / 65536 ∉ granules ∨ crashGranule (a / 65536) = true ∨ Tab.get 0 s.owners (a / 65536) = odi) :
    (s.handGranules odi granules).dram.byte a = s.dram.byte a := by
  unfold State.handGranules
  induction granules generalizing s with
  | nil => rfl
  | cons g l ih =>
    have hstep : (s.handGranule odi g).dram.byte a = s.dram.byte a := by
      by_cases hc : crashGranule g = true
      · simp [State.handGranule, hc]
      · refine s.byte_handGranule odi g a h ?_
        by_cases hg : a / 65536 = g
        · subst hg
          exact Or.inr ((ha.resolve_left fun hn => hn List.mem_cons_self).resolve_left hc)
        · exact Or.inl hg
    have hrest : a / 65536 ∉ l ∨ crashGranule (a / 65536) = true ∨
        Tab.get 0 (s.handGranule odi g).owners (a / 65536) = odi := by
      rcases ha with hn | hc | ho
      · exact Or.inl fun hl => hn (List.mem_cons_of_mem g hl)
      · exact Or.inr (Or.inl hc)
      · exact Or.inr (Or.inr (by rw [s.owner_handGranule, ho, ite_self]))
    rw [List.foldl_cons, ih (State.dram_wf_handGranule odi g h) hrest, hstep]

/-! ### Beginning -/

/-- Main memory and its owners are as they were. -/
def State.SameGranules (s t : State) : Prop := t.dram = s.dram ∧ t.owners = s.owners

theorem State.SameGranules.trans {s t u : State} (h : s.SameGranules t) (k : t.SameGranules u) : s.SameGranules u :=
  ⟨k.1.trans h.1, k.2.trans h.2⟩
theorem State.SameGranules.foldl {α : Type} {f : State → α → State} (h : ∀ (s : State) a, s.SameGranules (f s a))
    (l : List α) (s : State) :
    s.SameGranules (l.foldl f s) :=
  List.foldlRecOn l f (motive := s.SameGranules) ⟨rfl, rfl⟩ fun t ht a _ => ht.trans (h t a)

theorem State.SameGranules.unpark (s : State) (c x : Nat) : s.SameGranules (s.unpark c x) := by
  unfold State.unpark
  split <;> exact ⟨rfl, rfl⟩
theorem State.SameGranules.restoreCluster (s : State) (c : Nat) : s.SameGranules (s.restoreCluster c) := by
  unfold State.restoreCluster
  split <;> exact ⟨rfl, rfl⟩
theorem State.SameGranules.unparkAll (s : State) (c : Nat) : s.SameGranules (s.unparkAll c) :=
  State.SameGranules.foldl (fun s x => State.SameGranules.unpark s c x) (span 0 11) s
theorem State.SameGranules.dropDrive (s : State) (c : Nat) : s.SameGranules (s.dropDrive c) := ⟨rfl, rfl⟩
theorem State.SameGranules.modCore (s : State) (c : Nat) (f : Core → Core) : s.SameGranules (s.modCore c f) := ⟨rfl, rfl⟩
theorem State.SameGranules.stopTask (s : State) (c : Nat) : s.SameGranules (s.stopTask c) := by
  unfold State.stopTask State.uncouple
  refine State.SameGranules.trans (State.SameGranules.foldl ?_ _ _) (State.SameGranules.foldl ?_ _ _)
  · exact fun t m => State.SameGranules.modCore t m _
  · intro t m
    have hrestored := State.SameGranules.restoreCluster t m
    have hunparked := hrestored.trans (State.SameGranules.unparkAll _ m)
    exact (hunparked.trans (State.SameGranules.dropDrive _ m)).trans (State.SameGranules.modCore _ m Core.stop)

/-- The clusters that a partition had. -/
def hadClusters (q : Option Partition) : List Nat := (q.map fun p => p.clusters ++ p.leaving).getD []
/-- The clusters of the other partitions. -/
def State.otherClusters (s : State) (n : Nat) : List Nat :=
  s.parts.flatMap fun e => if e.1 = n then [] else hadClusters e.2
/-- The clusters that the next partition gets. -/
def State.wantedClusters (s : State) (n : Nat) (next : PartitionSpec) : List Nat :=
  (next.clusters.filter fun c => !(s.otherClusters n).contains c && !(clusterCores c).all s.inColumn).eraseDups
/-- The clusters that are cleared. -/
def State.clearedClusters (s : State) (n : Nat) (next : PartitionSpec) : List Nat :=
  (hadClusters (s.part n) ++ s.wantedClusters n next).eraseDups
/-- The partition while it is cleared. -/
def State.nextPartition (s : State) (n : Nat) (next : PartitionSpec) : Partition :=
  { odi := next.odi, table := next.table, clusters := s.wantedClusters n next, host := next.host, clearing := true,
    leaving := (s.clearedClusters n next).filter fun c => !(s.wantedClusters n next).contains c }

/-- The tasks of cores stop, and the cores have no partition any more. -/
def State.unassignAll (s : State) (cores : List Nat) : State :=
  cores.foldl (init := cores.foldl (init := s) fun s c => if (s.core c).part.isSome then s.stopTask c else s) fun s c =>
    s.modCore c Core.unassign
/-- What is on its way to cores and from them, and what waits for them, is dropped. -/
def State.dropTraffic (s : State) (cores : List Nat) : State :=
  { s.forgetWaiters cores with
    arrivals := s.arrivals.filter (fun a => !cores.contains a.core && !cores.contains a.corner),
    corners := s.corners.filter (fun e => !cores.contains (e.1 / 4)),
    exchange := s.exchange.filter fun t => !cores.contains t.src && !(t.target.map cores.contains).getD false }

theorem exec_partitionClear (n : Nat) (next : PartitionSpec) (s : State) :
    exec (.partitionClear n next) s =
      let cores := s.coresOf (s.clearedClusters n next)
      let t := ((s.unassignAll cores).dropTraffic cores).handGranules next.odi next.granules
      .next { t with parts := Tab.put t.parts n (some (s.nextPartition n next)) } := rfl

theorem State.SameGranules.unassignAll (s : State) (cores : List Nat) : s.SameGranules (s.unassignAll cores) := by
  unfold State.unassignAll
  refine State.SameGranules.trans (State.SameGranules.foldl ?_ _ _) (State.SameGranules.foldl ?_ _ _)
  · intro t c
    split
    · exact State.SameGranules.stopTask t c
    · exact ⟨rfl, rfl⟩
  · exact fun t c => State.SameGranules.modCore t c Core.unassign

/-- An unassigned core. -/
def Core.isUnassigned (k : Core) : Prop := k.part = none ∧ k.inbox = [] ∧ ∀ x, (k.ctx x).live = false

theorem isUnassigned_unassignAll (s : State) {cores : List Nat} {m : Nat} (hm : m ∈ cores) :
    ((s.unassignAll cores).core m).isUnassigned := by
  unfold State.unassignAll
  refine core_foldl_holds hm (fun t => ?_) (fun t a h => ?_) _
  · rw [State.core_modCore_self]
    exact ⟨rfl, rfl, fun _ => rfl⟩
  · rw [State.core_modCore]
    split
    · exact ⟨rfl, rfl, fun _ => rfl⟩
    · exact h

theorem mem_coresOf {s : State} {clusters : List Nat} {cl m : Nat} (hcl : cl ∈ clusters) (hm : m ∈ clusterCores cl)
    (hin : s.inColumn m = false) : m ∈ s.coresOf clusters :=
  List.mem_filter.mpr ⟨List.mem_flatMap.mpr ⟨cl, hcl, hm⟩, by simp [hin]⟩

theorem mem_hadClusters {q : Option Partition} {cl : Nat} :
    cl ∈ hadClusters q ↔ ∃ p, q = some p ∧ (cl ∈ p.clusters ∨ cl ∈ p.leaving) := by
  cases q with
  | none => simp [hadClusters]
  | some p => simp [hadClusters]

theorem mem_otherClusters {s : State} {n cl : Nat} :
    cl ∉ s.otherClusters n ↔ ∀ e p, e ∈ s.parts → e.1 ≠ n → e.2 = some p → cl ∉ p.clusters ∧ cl ∉ p.leaving := by
  unfold State.otherClusters
  simp only [List.mem_flatMap, not_exists, not_and]
  constructor
  · intro h e p he hn hp
    have := h e he
    rw [if_neg hn, mem_hadClusters] at this
    exact not_or.mp fun hcl => this ⟨p, hp, hcl⟩
  · intro h e he
    split
    · exact List.not_mem_nil
    · next hn =>
      rw [mem_hadClusters]
      rintro ⟨p, hp, hcl⟩
      obtain ⟨h1, h2⟩ := h e p he hn hp
      exact hcl.elim h1 h2

theorem mem_wantedClusters {s : State} {n cl : Nat} {next : PartitionSpec} :
    cl ∈ s.wantedClusters n next ↔ cl ∈ next.clusters ∧ (∃ m, m ∈ clusterCores cl ∧ s.inColumn m = false) ∧
      ∀ e p, e ∈ s.parts → e.1 ≠ n → e.2 = some p → cl ∉ p.clusters ∧ cl ∉ p.leaving := by
  unfold State.wantedClusters
  rw [List.mem_eraseDups, List.mem_filter, ← mem_otherClusters]
  simp only [Bool.and_eq_true, Bool.not_eq_true', List.contains_eq_mem, decide_eq_false_iff_not, List.all_eq_false,
    Bool.not_eq_true]
  tauto

theorem mem_clearedClusters {s : State} {n cl : Nat} {next : PartitionSpec} :
    cl ∈ s.clearedClusters n next ↔ cl ∈ hadClusters (s.part n) ∨ cl ∈ s.wantedClusters n next := by
  unfold State.clearedClusters
  rw [List.mem_eraseDups, List.mem_append]

theorem mem_leaving {s : State} {n cl : Nat} {next : PartitionSpec} :
    cl ∈ (s.nextPartition n next).leaving ↔ cl ∉ s.wantedClusters n next ∧
      ∃ p, s.part n = some p ∧ (cl ∈ p.clusters ∨ cl ∈ p.leaving) := by
  unfold State.nextPartition
  rw [List.mem_filter, mem_clearedClusters, ← mem_hadClusters]
  simp only [Bool.not_eq_true', List.contains_eq_mem, decide_eq_false_iff_not]
  tauto

/-- Clearing begins: the partition's clusters, the cores it takes back, the granules it gets (R72, R74, R241). -/
theorem partitionClear_begins (s : State) (n : Nat) (next : PartitionSpec) :
    ∃ t q, exec (.partitionClear n next) s = .next t ∧ t.part n = some q ∧
      q.odi = next.odi ∧ q.table = next.table ∧ q.host = next.host ∧ q.clearing = true ∧
      (∀ cl, cl ∈ q.clusters ↔ cl ∈ next.clusters ∧ (∃ m, m ∈ clusterCores cl ∧ s.inColumn m = false) ∧
        ∀ e p, e ∈ s.parts → e.1 ≠ n → e.2 = some p → cl ∉ p.clusters ∧ cl ∉ p.leaving) ∧
      (∀ cl, cl ∈ q.leaving ↔ cl ∉ q.clusters ∧ ∃ p, s.part n = some p ∧ (cl ∈ p.clusters ∨ cl ∈ p.leaving)) ∧
      (∀ p cl m, (s.part n = some p ∨ p = q) → cl ∈ p.clusters ∨ cl ∈ p.leaving → m ∈ clusterCores cl →
        s.inColumn m = false → (t.core m).part = none ∧ (t.core m).inbox = [] ∧ ∀ x, (t.ctx m x).live = false) ∧
      (∀ g, g ∈ next.granules → crashGranule g = false → Tab.get 0 t.owners g = next.odi) ∧
      (∀ g, g ∉ next.granules ∨ crashGranule g = true → Tab.get 0 t.owners g = Tab.get 0 s.owners g) ∧
      (s.dram.wf = true → ∀ a, a / 65536 ∉ next.granules ∨ crashGranule (a / 65536) = true ∨
          Tab.get 0 s.owners (a / 65536) = next.odi → t.dram.byte a = s.dram.byte a) := by
  let cores := s.coresOf (s.clearedClusters n next)
  let u := (s.unassignAll cores).dropTraffic cores
  have hsame : s.SameGranules u := State.SameGranules.unassignAll s cores
  have howner : ∀ g, Tab.get 0 (u.handGranules next.odi next.granules).owners g =
      if g ∈ next.granules ∧ crashGranule g = false then next.odi else Tab.get 0 s.owners g := fun g => by
    rw [State.owner_handGranules, hsame.2]
  refine ⟨_, s.nextPartition n next, exec_partitionClear n next s, Tab.get_put_self none _ n _, rfl, rfl, rfl, rfl,
    fun cl => mem_wantedClusters, fun cl => mem_leaving, ?_, ?_, ?_, ?_⟩
  · intro p cl m hp hcl hm hin
    have hcleared : cl ∈ s.clearedClusters n next := by
      rw [mem_clearedClusters]
      rcases hp with hp | rfl
      · exact Or.inl (mem_hadClusters.mpr ⟨p, hp, hcl⟩)
      · exact hcl.elim Or.inr fun hl => Or.inl (mem_hadClusters.mpr (mem_leaving.mp hl).2)
    have hcore : (u.handGranules next.odi next.granules).core m = (s.unassignAll cores).core m := by
      unfold State.core
      rw [State.cores_handGranules]
      rfl
    have hun := isUnassigned_unassignAll s (mem_coresOf hcleared hm hin)
    rw [← hcore] at hun
    exact hun
  · exact fun g hg hc => (howner g).trans (if_pos ⟨hg, hc⟩)
  · exact fun g hg => (howner g).trans (if_neg fun h => hg.elim (fun hn => hn h.1) fun hc => by simp [hc] at h)
  · intro hwf a ha
    rw [← hsame.1] at hwf ⊢
    rw [← hsame.2] at ha
    exact State.byte_handGranules next.odi next.granules a hwf ha

/-! ### The end -/

theorem exec_partitionClearComplete (n : Nat) (s : State) :
    exec (.partitionClearComplete n) s = execPartitionClearComplete n s := rfl

/-- The storage of cores and clusters, cleared. -/
def State.clearAll (s : State) (cores clusters : List Nat) : State :=
  clusters.foldl (init := cores.foldl (init := s) fun s c => s.modCore c Core.cleared) fun s c =>
    s.modCluster c Cluster.cleared

theorem Core.cleared_cleared (k : Core) : k.cleared.cleared = k.cleared := rfl
theorem Cluster.cleared_cleared (k : Cluster) : k.cleared.cleared = k.cleared := rfl
theorem State.core_clearAll (s : State) (cores clusters : List Nat) (m : Nat) :
    (s.clearAll cores clusters).core m = if m ∈ cores then (s.core m).cleared else s.core m := by
  unfold State.clearAll State.core
  rw [cores_foldl_modCluster]
  exact core_foldl_modCore Core.cleared_cleared cores s m
theorem State.cluster_clearAll (s : State) (cores clusters : List Nat) (cl : Nat) :
    (s.clearAll cores clusters).cluster cl = if cl ∈ clusters then (s.cluster cl).cleared else s.cluster cl := by
  unfold State.clearAll
  rw [cluster_foldl_modCluster Cluster.cleared_cleared]
  unfold State.cluster
  rw [clusters_foldl_modCore]

section
variable {s : State} {n : Nat} {p : Partition} (hp : s.part n = some p)
include hp

theorem execPartitionClearComplete_eq :
    execPartitionClearComplete n s =
      let clusters := p.clusters ++ p.leaving
      let cores := s.coresOf clusters
      if !p.clearing || s.traffic cores clusters then .next s
      else .next { s.clearAll cores clusters with
        parts := Tab.put (s.clearAll cores clusters).parts n (some { p with clearing := false, leaving := [] }) } := by
  unfold execPartitionClearComplete
  rw [hp]
  rfl

theorem partitionClearComplete_waits
    (h : p.clearing = false ∨ s.traffic (s.coresOf (p.clusters ++ p.leaving)) (p.clusters ++ p.leaving) = true) :
    exec (.partitionClearComplete n) s = .next s := by
  rw [exec_partitionClearComplete, execPartitionClearComplete_eq hp]
  exact if_pos (by rcases h with h | h <;> simp [h])

/-- Clearing ends once the traffic has drained: storage is zero and free (R74, R140). -/
theorem partitionClearComplete_ends (hc : p.clearing = true) :
    let clusters := p.clusters ++ p.leaving
    let cores := s.coresOf clusters
    s.traffic cores clusters = false →
    ∃ t, exec (.partitionClearComplete n) s = .next t ∧
      t.part n = some { p with clearing := false, leaving := [] } ∧
      (∀ m, m ∈ cores → (t.core m).store = {} ∧ (t.core m).tiles = [] ∧ (t.core m).conf = [] ∧ (t.core m).ctxs = [] ∧
        (t.core m).killed = (s.core m).killed) ∧
      (∀ cl, cl ∈ clusters → (t.cluster cl).store = {} ∧ (t.cluster cl).cbs = [] ∧ (t.cluster cl).last = 7 ∧
        (t.cluster cl).run = 0) ∧
      ∀ m, m ∉ cores → t.core m = s.core m := by
  intro clusters cores ht
  have hcore : ∀ m, _ := s.core_clearAll cores clusters
  have hcluster : ∀ cl, _ := s.cluster_clearAll cores clusters
  refine ⟨{ s.clearAll cores clusters with
      parts := Tab.put (s.clearAll cores clusters).parts n (some { p with clearing := false, leaving := [] }) }, ?_,
    Tab.get_put_self none _ n _, fun m hm => ?_, fun cl hcl => ?_, fun m hm => (hcore m).trans (if_neg hm)⟩
  · rw [exec_partitionClearComplete, execPartitionClearComplete_eq hp]
    exact if_neg (by simpa [hc] using ht)
  · have hm : _ = (s.core m).cleared := (hcore m).trans (if_pos hm)
    unfold State.core at hm ⊢
    rw [hm]
    exact ⟨rfl, rfl, rfl, rfl, rfl⟩
  · have hm : _ = (s.cluster cl).cleared := (hcluster cl).trans (if_pos hcl)
    unfold State.cluster at hm ⊢
    rw [hm]
    exact ⟨rfl, rfl, rfl, rfl⟩

end

end Sys2Proof.Machine
end

section
/-! Pre-emption and resumption (R110-R112): waiting instructions are abandoned, the unit's cores and clusters are saved,
and resuming restores them. -/
namespace Sys2Proof.Machine

/-! ### Abandoning what contexts wait for -/

/-- A context whose waiting instruction is abandoned. -/
def Context.settled (t : Context) : Context := { t with wait := .none, walkErr := none }
/-- A core with the waiting instruction of one context abandoned, if that is live. -/
def Core.settleAt (k : Core) (x : Nat) : Core := if (k.ctx x).live then k.modCtx x Context.settled else k
/-- A core with every waiting instruction abandoned. -/
def Core.settled (k : Core) : Core := (span 0 11).foldl Core.settleAt k

/-- Scratchpads, and what pre-emption saved of clusters, are as they were. -/
def State.SameScratch (s t : State) : Prop :=
  ∀ n, (t.cluster n).store = (s.cluster n).store ∧ (t.cluster n).saved = (s.cluster n).saved

theorem State.SameScratch.refl (s : State) : s.SameScratch s := fun _ => ⟨rfl, rfl⟩
theorem State.SameScratch.trans {s t u : State} (h : s.SameScratch t) (k : t.SameScratch u) : s.SameScratch u :=
  fun n => ⟨(k n).1.trans (h n).1, (k n).2.trans (h n).2⟩
theorem State.SameScratch.modCluster (s : State) (m : Nat) {f : Cluster → Cluster}
    (hf : (f (s.cluster m)).store = (s.cluster m).store ∧ (f (s.cluster m)).saved = (s.cluster m).saved) :
    s.SameScratch (s.modCluster m f) := by
  intro n
  by_cases hn : n = m
  · rw [hn, State.cluster_modCluster_self]; exact hf
  · rw [State.cluster_modCluster_ne _ _ _ _ hn]; exact ⟨rfl, rfl⟩
theorem State.SameScratch.modCore (s : State) (m : Nat) (f : Core → Core) : s.SameScratch (s.modCore m f) :=
  fun _ => ⟨rfl, rfl⟩
theorem State.SameScratch.unpark (s : State) (c x : Nat) : s.SameScratch (s.unpark c x) := by
  unfold State.unpark
  split
  · refine State.SameScratch.modCluster s _ ?_
    exact ⟨rfl, rfl⟩
  · refine State.SameScratch.modCluster s _ ?_
    exact ⟨rfl, rfl⟩
  · exact State.SameScratch.refl s

/-- Abandoning lets the context be, and changes nothing else of cores and scratchpads. -/
theorem State.abandon_eq (s : State) (c x : Nat) : ∃ u : State, s.abandon c x = u.modCtx c x Context.settled ∧
    (∀ m, u.core m = s.core m) ∧ s.SameScratch u := by
  unfold State.abandon
  dsimp only
  split
  · exact ⟨_, rfl, fun _ => rfl, fun _ => ⟨rfl, rfl⟩⟩
  · exact ⟨_, rfl, s.core_unpark c x, State.SameScratch.unpark s c x⟩

/-- One context's turn in the stopping of a core. -/
def State.settleAt (m : Nat) (s : State) (x : Nat) : State := if (s.ctx m x).live then s.abandon m x else s

theorem State.core_settleAt (m : Nat) (s : State) (x : Nat) : (s.settleAt m x).core m = (s.core m).settleAt x := by
  unfold State.settleAt Core.settleAt State.ctx
  split
  · obtain ⟨u, hu, hcore, -⟩ := s.abandon_eq m x
    rw [hu, State.core_modCtx_self, hcore]
  · rfl
theorem State.core_settleAt_ne {m c : Nat} (s : State) (x : Nat) (h : c ≠ m) : (s.settleAt m x).core c = s.core c := by
  unfold State.settleAt
  split
  · obtain ⟨u, hu, hcore, -⟩ := s.abandon_eq m x
    rw [hu, State.core_modCtx_ne _ _ _ _ _ h, hcore]
  · rfl
theorem State.SameScratch.settleAt (m : Nat) (s : State) (x : Nat) : s.SameScratch (s.settleAt m x) := by
  unfold State.settleAt
  split
  · obtain ⟨u, hu, -, hscratch⟩ := s.abandon_eq m x
    rw [hu]
    exact hscratch
  · exact State.SameScratch.refl s

theorem State.core_foldl_settleAt (m : Nat) (l : List Nat) (s : State) :
    (l.foldl (State.settleAt m) s).core m = l.foldl Core.settleAt (s.core m) := by
  induction l generalizing s with
  | nil => rfl
  | cons x l ih => rw [List.foldl_cons, ih, s.core_settleAt]; rfl

/-- A core of the unit stops. -/
def State.stopAt (s : State) (m : Nat) : State := ((span 0 11).foldl (State.settleAt m) s).modCore m Core.save

theorem State.core_stopAt (s : State) (m : Nat) : (s.stopAt m).core m = (s.core m).settled.save := by
  unfold State.stopAt Core.settled
  rw [State.core_modCore_self, State.core_foldl_settleAt]
theorem State.core_stopAt_ne (s : State) {m c : Nat} (h : c ≠ m) : (s.stopAt m).core c = s.core c := by
  unfold State.stopAt
  rw [State.core_modCore_ne _ _ _ _ h]
  exact List.foldlRecOn (span 0 11) (State.settleAt m) (motive := fun t : State => t.core c = s.core c) rfl
    fun t ht x _ => (t.core_settleAt_ne x h).trans ht
theorem State.SameScratch.stopAt (s : State) (m : Nat) : s.SameScratch (s.stopAt m) := by
  have h : s.SameScratch ((span 0 11).foldl (State.settleAt m) s) :=
    List.foldlRecOn (span 0 11) (State.settleAt m) (State.SameScratch.refl s) fun t ht x _ =>
      ht.trans (State.SameScratch.settleAt m t x)
  exact h.trans (State.SameScratch.modCore _ m Core.save)

/-! ### What a stopped core's record holds -/

theorem Core.settled_frame (k : Core) : k.settled = { k with ctxs := k.settled.ctxs } := by
  refine List.foldlRecOn (span 0 11) Core.settleAt (motive := fun l : Core => l = { k with ctxs := l.ctxs }) rfl
    fun l hl x _ => ?_
  unfold Core.settleAt
  split
  · show { l with ctxs := _ } = _
    rw [hl]
    rfl
  · exact hl

theorem Core.ctx_settleAt (k : Core) (x y : Nat) :
    (k.settleAt x).ctx y = if y = x ∧ (k.ctx x).live = true then (k.ctx y).settled else k.ctx y := by
  unfold Core.settleAt
  by_cases hl : (k.ctx x).live = true
  · rw [if_pos hl, Core.ctx_modCtx]
    by_cases hy : y = x
    · rw [if_pos hy, if_pos ⟨hy, hl⟩, hy]
    · rw [if_neg hy, if_neg fun h => hy h.1]
  · rw [if_neg hl, if_neg fun h => hl h.2]

/-- Each context of the list that is live is settled. -/
theorem Core.ctx_foldl_settleAt (l : List Nat) (k : Core) {y : Nat} (hy : y ∈ l) (hl : (k.ctx y).live = true) :
    (l.foldl Core.settleAt k).ctx y = (k.ctx y).settled := by
  induction l generalizing k with
  | nil => cases hy
  | cons x l ih =>
    rw [List.foldl_cons]
    by_cases hx : y = x
    · have hset : (k.settleAt x).ctx y = (k.ctx y).settled := by
        rw [k.ctx_settleAt, if_pos ⟨hx, hx ▸ hl⟩]
      refine List.foldlRecOn l Core.settleAt (motive := fun t : Core => t.ctx y = (k.ctx y).settled) hset
        fun t ht z _ => ?_
      rw [t.ctx_settleAt, ht]
      exact ite_self _
    · have hsame : (k.settleAt x).ctx y = k.ctx y := by rw [k.ctx_settleAt, if_neg fun h => hx h.1]
      rw [ih (k.settleAt x) ((List.mem_cons.mp hy).resolve_left hx) (hsame ▸ hl), hsame]

theorem Core.ctx_settled (k : Core) {y : Nat} (hy : y < 11) (hl : (k.ctx y).live = true) :
    k.settled.ctx y = (k.ctx y).settled :=
  k.ctx_foldl_settleAt (span 0 11) ((mem_span 0 11 y).mpr ⟨Nat.zero_le y, by omega⟩) hl

/-- What is saved of a core (R111). -/
def Core.record (k : Core) : Saved :=
  { contexts := k.settled.ctxs, store := k.store, tiles := k.tiles, mq := k.mq, eqs := k.eqs.map fun e => (e.1, e.2.stop),
    mailbox := k.mailbox, inbox := k.inbox, conf := k.conf, barriers := k.barriers,
    step := BitVec.ofNat 64 ((k.mq.head?.map (·.next)).getD 0) }

theorem Core.ctx_record (k : Core) {x : Nat} (hx : x < 11) (hl : (k.ctx x).live = true) :
    (Tab.get {} k.record.contexts x : Context) = { k.ctx x with wait := .none, walkErr := none } := by
  have h := k.ctx_settled hx hl
  have hcontexts : k.record.contexts = k.settled.ctxs := by rw [Core.record]
  unfold Core.ctx at h ⊢
  rw [hcontexts, h]
  rfl

theorem Core.saved_save (k : Core) : k.settled.save.saved = some k.record ∧ k.settled.save.tstep = k.record.step ∧
    k.settled.save.part = k.part := by
  have hframe := k.settled_frame
  unfold Core.record
  generalize k.settled = l at hframe ⊢
  obtain ⟨ctxs, rfl⟩ : ∃ ctxs, l = { k with ctxs := ctxs } := ⟨l.ctxs, hframe⟩
  exact ⟨rfl, rfl, rfl⟩

theorem State.not_ready_of_saved {s : State} {c : Nat} (x : Nat) (h : (s.core c).saved ≠ none) : s.ready c x = false := by
  have hsome : (s.core c).saved.isNone = false := Option.isNone_eq_false_iff.mpr (Option.isSome_iff_ne_none.mpr h)
  unfold State.ready
  simp [hsome]

/-! ### Saving clusters -/

theorem State.core_saveCluster (s : State) (cl m : Nat) : (s.saveCluster cl).core m = s.core m := by
  unfold State.saveCluster
  dsimp only
  split <;> rfl
theorem State.core_foldl_saveCluster (l : List Nat) (s : State) (m : Nat) :
    (l.foldl State.saveCluster s).core m = s.core m :=
  List.foldlRecOn l State.saveCluster (motive := fun t : State => t.core m = s.core m) rfl fun t ht a _ =>
    (t.core_saveCluster a m).trans ht

theorem State.cluster_saveCluster_ne (s : State) {cl n : Nat} (h : n ≠ cl) :
    (s.saveCluster cl).cluster n = s.cluster n := by
  unfold State.saveCluster
  dsimp only
  split
  · rfl
  · exact State.cluster_modCluster_ne _ _ _ _ h
/-- A cluster that is saved already stays. -/
theorem State.cluster_saveCluster_saved (s : State) (cl : Nat) {n : Nat} (h : (s.cluster n).saved ≠ none) :
    (s.saveCluster cl).cluster n = s.cluster n := by
  by_cases hn : n = cl
  · have hs : (s.cluster cl).saved.isSome = true := Option.isSome_iff_ne_none.mpr (hn ▸ h)
    unfold State.saveCluster
    rw [if_pos (by simp [hs])]
  · exact s.cluster_saveCluster_ne hn

/-- Every core of the cluster that has a partition is saved, and some core has one. -/
def State.clusterStopped (s : State) (cl : Nat) : Prop :=
  (∃ m, m ∈ clusterCores cl ∧ (s.core m).part ≠ none) ∧
    ∀ m, m ∈ clusterCores cl → (s.core m).part ≠ none → (s.core m).saved ≠ none

theorem State.cluster_saveCluster {s : State} {cl : Nat} (h : s.clusterStopped cl) (hs : (s.cluster cl).saved = none) :
    (s.saveCluster cl).cluster cl =
      { s.cluster cl with saved := some ((s.cluster cl).store, (s.cluster cl).cbs), store := {}, cbs := [] } := by
  obtain ⟨⟨m, hm, hpart⟩, hall⟩ := h
  have hne : ((clusterCores cl).filter fun c => (s.core c).part.isSome).isEmpty = false := by
    rw [List.isEmpty_eq_false_iff_exists_mem]
    exact ⟨m, List.mem_filter.mpr ⟨hm, Option.isSome_iff_ne_none.mpr hpart⟩⟩
  have hsaved : (((clusterCores cl).filter fun c => (s.core c).part.isSome).all fun c =>
      (s.core c).saved.isSome) = true := by
    rw [List.all_eq_true]
    intro c hc
    obtain ⟨hc, hpart⟩ := List.mem_filter.mp hc
    exact Option.isSome_iff_ne_none.mpr (hall c hc (Option.isSome_iff_ne_none.mp hpart))
  unfold State.saveCluster
  dsimp only
  rw [hne, hs, hsaved, if_neg (by simp)]
  exact State.cluster_modCluster_self s cl _

theorem State.cluster_foldl_saveCluster {l : List Nat} {cl : Nat} (hcl : cl ∈ l) {s : State} (h : s.clusterStopped cl)
    (hs : (s.cluster cl).saved = none) :
    (l.foldl State.saveCluster s).cluster cl =
      { s.cluster cl with saved := some ((s.cluster cl).store, (s.cluster cl).cbs), store := {}, cbs := [] } := by
  induction l generalizing s with
  | nil => cases hcl
  | cons a l ih =>
    rw [List.foldl_cons]
    by_cases ha : cl = a
    · rw [← ha]
      have hsaved := State.cluster_saveCluster h hs
      refine List.foldlRecOn l State.saveCluster (motive := fun t : State => t.cluster cl = _) hsaved fun t ht b _ => ?_
      rw [t.cluster_saveCluster_saved b (by rw [ht]; exact Option.some_ne_none _), ht]
    · have hsame := s.cluster_saveCluster_ne ha
      have hstopped : (s.saveCluster a).clusterStopped cl := by
        unfold State.clusterStopped
        simp only [State.core_saveCluster]
        exact h
      rw [ih ((List.mem_cons.mp hcl).resolve_left ha) hstopped (hsame ▸ hs), hsame]

/-! ### PREEMPTION -/

theorem exec_preemption (c : Nat) (s : State) : exec (.preemption c) s = execPreemption c s := rfl

/-- The core's unit may be pre-empted now (R110; log 38). -/
def State.preemptDue (s : State) (c : Nat) : Prop :=
  (s.core c).part ≠ none ∧ (s.core c).killed = false ∧ ∀ m, m ∈ s.unit c → s.preemptible m = true
/-- The device with a unit pre-empted. -/
def State.preempted (s : State) (c : Nat) : State :=
  ((s.unit c).map clusterOf).eraseDups.foldl (init := (s.unit c).foldl State.stopAt s) State.saveCluster

theorem execPreemption_eq (c : Nat) (s : State) :
    execPreemption c s =
      if (s.core c).part.isNone || (s.core c).killed || !(s.unit c).all s.preemptible then .next s
      else .next (s.preempted c) := rfl

theorem preemptDue_iff (s : State) (c : Nat) :
    ((s.core c).part.isNone || (s.core c).killed || !(s.unit c).all s.preemptible) = true ↔ ¬s.preemptDue c := by
  unfold State.preemptDue
  cases (s.core c).part <;> cases (s.core c).killed <;> simp

theorem preemption_waits {s : State} {c : Nat} (h : ¬s.preemptDue c) : exec (.preemption c) s = .next s := by
  rw [exec_preemption, execPreemption_eq, if_pos ((preemptDue_iff s c).mpr h)]
theorem preemption_stops {s : State} {c : Nat} (h : s.preemptDue c) : exec (.preemption c) s = .next (s.preempted c) := by
  rw [exec_preemption, execPreemption_eq, if_neg fun hb => (preemptDue_iff s c).mp hb h]

theorem State.core_stopUnit (s : State) {l : List Nat} (hn : l.Nodup) (m : Nat) :
    (l.foldl State.stopAt s).core m = if m ∈ l then (s.core m).settled.save else s.core m :=
  core_foldl_each (F := fun k => k.settled.save) (Q := fun _ => True) (fun s a _ => s.core_stopAt a)
    (fun s _ _ _ hm => s.core_stopAt_ne hm) hn s (fun _ _ => trivial) m
theorem State.core_preempted (s : State) {c : Nat} (hn : (s.unit c).Nodup) (m : Nat) :
    (s.preempted c).core m = if m ∈ s.unit c then (s.core m).settled.save else s.core m := by
  unfold State.preempted
  rw [State.core_foldl_saveCluster, State.core_stopUnit s hn]

theorem State.cluster_preempted {s : State} {c cl : Nat} (hn : (s.unit c).Nodup)
    (hsome : ∃ m, m ∈ clusterCores cl ∧ m ∈ s.unit c ∧ (s.core m).part ≠ none)
    (hall : ∀ m, m ∈ clusterCores cl → (s.core m).part ≠ none → m ∈ s.unit c) (hs : (s.cluster cl).saved = none) :
    ∃ b, ((s.preempted c).cluster cl).saved = some ((s.cluster cl).store, b) ∧
      ((s.preempted c).cluster cl).store = {} ∧ ((s.preempted c).cluster cl).cbs = [] := by
  let u := (s.unit c).foldl State.stopAt s
  obtain ⟨hstore, hsaved⟩ := (List.foldlRecOn (s.unit c) State.stopAt (State.SameScratch.refl s) fun t ht m _ =>
    ht.trans (State.SameScratch.stopAt t m) : s.SameScratch u) cl
  have hcore : ∀ m, u.core m = _ := s.core_stopUnit hn
  have hpart : ∀ m, (u.core m).part = (s.core m).part := fun m => by
    rw [hcore]
    split
    · exact (s.core m).saved_save.2.2
    · rfl
  obtain ⟨m, hm, hunit, hp⟩ := hsome
  have hstopped : u.clusterStopped cl := by
    refine ⟨⟨m, hm, hpart m ▸ hp⟩, fun d hd hpd => ?_⟩
    rw [hcore, if_pos (hall d hd (hpart d ▸ hpd)), (s.core d).saved_save.1]
    exact Option.some_ne_none _
  have hmem : cl ∈ ((s.unit c).map clusterOf).eraseDups :=
    List.mem_eraseDups.mpr (List.mem_map.mpr ⟨m, hunit, (mem_clusterCores cl m).mp hm⟩)
  have hcluster : (s.preempted c).cluster cl = _ := State.cluster_foldl_saveCluster hmem hstopped (hsaved.trans hs)
  refine ⟨(u.cluster cl).cbs, ?_, ?_, ?_⟩
  · rw [hcluster, ← hstore]
  · rw [hcluster]
  · rw [hcluster]

/-! ### PREEMPTION_RESUME -/

theorem exec_preemptionResume (c : Nat) (s : State) : exec (.preemptionResume c) s = execPreemptionResume c s := rfl

theorem Cluster.restore_of_none {k : Cluster} (h : k.saved = none) : k.restore = k := by
  unfold Cluster.restore
  rw [h]
theorem Cluster.restore_of_saved {k : Cluster} {q : Store × Tab (Option CircBuf)} (h : k.saved = some q) :
    k.restore.store = q.1 ∧ k.restore.cbs = q.2 ∧ k.restore.saved = none := by
  unfold Cluster.restore
  rw [h]
  exact ⟨rfl, rfl, rfl⟩
theorem Cluster.restore_restore (k : Cluster) : k.restore.restore = k.restore := by
  cases h : k.saved with
  | none => rw [Cluster.restore_of_none h, Cluster.restore_of_none h]
  | some q =>
    obtain ⟨-, -, hnone⟩ := Cluster.restore_of_saved h
    exact Cluster.restore_of_none hnone

theorem State.cluster_restoreCluster (s : State) (c n : Nat) :
    (s.restoreCluster c).cluster n = if n = clusterOf c then (s.cluster n).restore else s.cluster n := by
  unfold State.restoreCluster
  by_cases hs : (s.cluster (clusterOf c)).saved.isSome = true
  · rw [if_pos hs]
    by_cases hn : n = clusterOf c
    · rw [if_pos hn, hn, State.cluster_modCluster_self]
    · rw [if_neg hn, State.cluster_modCluster_ne _ _ _ _ hn]
  · rw [if_neg hs]
    split
    · next hn =>
      have hnone : (s.cluster n).saved = none := by rw [hn]; simpa using hs
      rw [Cluster.restore_of_none hnone]
    · rfl
theorem State.core_restoreCluster (s : State) (c m : Nat) : (s.restoreCluster c).core m = s.core m := by
  unfold State.restoreCluster
  split <;> rfl

/-- A core of the unit goes on. -/
def State.resumeAt (s : State) (m : Nat) : State := (s.restoreCluster m).modCore m Core.restore

theorem State.core_resumeUnit (s : State) {l : List Nat} (hn : l.Nodup) (m : Nat) :
    (l.foldl State.resumeAt s).core m = if m ∈ l then (s.core m).restore else s.core m := by
  refine core_foldl_each (Q := fun _ => True) (fun s a _ => ?_) (fun s a _ m hm => ?_) hn s (fun _ _ => trivial) m
  · unfold State.resumeAt
    rw [State.core_modCore_self, State.core_restoreCluster]
  · unfold State.resumeAt
    rw [State.core_modCore_ne _ _ _ _ hm, State.core_restoreCluster]
theorem State.cluster_resumeUnit (s : State) (l : List Nat) (n : Nat) :
    (l.foldl State.resumeAt s).cluster n = if n ∈ l.map clusterOf then (s.cluster n).restore else s.cluster n := by
  induction l generalizing s with
  | nil => rfl
  | cons a l ih =>
    have hstep : (s.resumeAt a).cluster n = if n = clusterOf a then (s.cluster n).restore else s.cluster n :=
      s.cluster_restoreCluster a n
    rw [List.foldl_cons, ih, hstep]
    by_cases hn : n = clusterOf a
    · simp [hn, Cluster.restore_restore]
    · simp [hn]

theorem preemptionResume_waits {s : State} {c : Nat} (h : (s.core c).saved = none) :
    exec (.preemptionResume c) s = .next s := by
  rw [exec_preemptionResume, execPreemptionResume, if_pos (by simp [h])]
theorem preemptionResume_resumes {s : State} {c : Nat} (h : (s.core c).saved ≠ none) :
    exec (.preemptionResume c) s = .next ((s.unit c).foldl State.resumeAt s) := by
  rw [exec_preemptionResume, execPreemptionResume, if_neg (by simpa using h)]
  rfl

/-- What is there again of a pre-empted task (R112). -/
theorem Core.restore_of_saved {k : Core} {v : Saved} (h : k.saved = some v) :
    k.restore.saved = none ∧ k.restore.ctxs = v.contexts ∧ k.restore.store = v.store ∧ k.restore.tiles = v.tiles ∧
      k.restore.eqs = v.eqs ∧ k.restore.mailbox = v.mailbox ∧ k.restore.inbox = v.inbox ∧ k.restore.conf = v.conf ∧
      k.restore.mq = v.mq ∧ ∀ n b, (n, b) ∈ v.barriers →
        (n, { b with pending := (Tab.get {} k.barriers n : Barrier).pending }) ∈ k.restore.barriers := by
  unfold Core.restore
  rw [h]
  exact ⟨rfl, rfl, rfl, rfl, rfl, rfl, rfl, rfl, rfl, fun n b hb => List.mem_map.mpr ⟨(n, b), hb, rfl⟩⟩

end Sys2Proof.Machine
end

section
/-! Killing a core (R113, R114), and what a completed self-test sets (R224, R225). -/
namespace Sys2Proof.Machine

/-! ### A core whose inbox is sealed stays sealed -/

/-- Nothing is in the core's inbox, no task is current, nothing is saved, and the test is this. -/
structure Core.Sealed (k : Core) (test : Option SelfTest) : Prop where
  inbox : k.inbox = []
  task  : k.task = none
  saved : k.saved = none
  test  : k.selfTest = test

theorem Core.restore_of_none {k : Core} (h : k.saved = none) : k.restore = k := by
  unfold Core.restore
  rw [h]

/-- Going back to the resident loop leaves the inbox, the task, what is saved and the test. -/
theorem Core.Sealed.backToLoop {k : Core} {test : Option SelfTest} (h : k.Sealed test) : k.backToLoop.Sealed test := by
  have hdropped : ((span 1 10).foldl (init := k) fun k n => if (k.ctx n).live then k.dropHelper n else k).Sealed test := by
    refine List.foldlRecOn (span 1 10) _ (motive := fun l : Core => l.Sealed test) h fun l hl n _ => ?_
    split
    · exact ⟨hl.inbox, hl.task, hl.saved, hl.test⟩
    · exact hl
  unfold Core.backToLoop
  generalize (span 1 10).foldl (init := k) (fun k n => if (k.ctx n).live then k.dropHelper n else k) = l at hdropped ⊢
  exact ⟨hdropped.inbox, hdropped.task, hdropped.saved, hdropped.test⟩
theorem Core.Sealed.stop {k : Core} {test : Option SelfTest} (h : k.Sealed test) : k.stop.Sealed test := by
  have hloop : k.restore.backToLoop.Sealed test := by
    rw [Core.restore_of_none h.saved]
    exact h.backToLoop
  unfold Core.stop
  generalize k.restore.backToLoop = l at hloop ⊢
  exact ⟨hloop.inbox, rfl, hloop.saved, hloop.test⟩
theorem Core.Sealed.queueRedelivery {k : Core} {test : Option SelfTest} (h : k.Sealed test) (classes : BitVec 28)
    (killed : List Nat) : (k.queueRedelivery classes killed).Sealed test := by
  unfold Core.queueRedelivery
  dsimp only
  rw [Core.restore_of_none h.saved, h.task]
  exact h
theorem Core.sealed_sealInbox (k : Core) : k.sealInbox.Sealed k.selfTest := by
  have hrestored : k.restore.saved = none ∧ k.restore.selfTest = k.selfTest := by
    unfold Core.restore
    split
    · next h => exact ⟨h, rfl⟩
    · exact ⟨rfl, rfl⟩
  have hqueued : (k.queueRedelivery 0).task = none ∧ (k.queueRedelivery 0).saved = none ∧
      (k.queueRedelivery 0).selfTest = k.selfTest := by
    unfold Core.queueRedelivery
    dsimp only
    split
    · exact ⟨rfl, hrestored⟩
    · next h => exact ⟨h, hrestored⟩
  exact ⟨rfl, hqueued.1, hqueued.2.1, hqueued.2.2⟩

/-- A change of one core keeps what holds of another core, and of that core what the change keeps. -/
theorem State.core_modCore_keeps {P : Core → Prop} {s : State} {c : Nat} (m : Nat) {f : Core → Core}
    (hf : P (s.core c) → P (f (s.core c))) (h : P (s.core c)) : P ((s.modCore m f).core c) := by
  rw [State.core_modCore]
  split
  · next hc => rw [← hc]; exact hf h
  · exact h

theorem State.core_unparkAll (s : State) (c m : Nat) : (s.unparkAll c).core m = s.core m :=
  List.foldlRecOn (span 0 11) _ (motive := fun t : State => t.core m = s.core m) rfl fun t ht x _ =>
    (t.core_unpark c x m).trans ht

theorem Core.Sealed.stopTask {s : State} {c : Nat} {test : Option SelfTest} (m : Nat) (h : (s.core c).Sealed test) :
    ((s.stopTask m).core c).Sealed test := by
  have huncoupled : ((s.uncouple ((s.core m).bound m)).core c).Sealed test := by
    refine List.foldlRecOn _ _ (motive := fun t : State => (t.core c).Sealed test) h fun t ht a _ => ?_
    exact State.core_modCore_keeps (P := fun k => k.Sealed test) a (fun hk => ⟨hk.inbox, hk.task, hk.saved, hk.test⟩) ht
  refine List.foldlRecOn _ _ (motive := fun t : State => (t.core c).Sealed test) huncoupled fun t ht a _ => ?_
  refine State.core_modCore_keeps (P := fun k => k.Sealed test) a (fun hk => hk.stop) ?_
  rw [State.core_dropDrive, State.core_unparkAll, State.core_restoreCluster]
  exact ht

/-! ### Killing -/

/-- A killed core with its test. -/
def Core.KilledWith (k : Core) (test : Option SelfTest) : Prop := k.Killed ∧ k.selfTest = test

/-- A context of a killed core. -/
def Context.ended (x : Context) : Context := { x with live := false, wait := .none }
/-- What killing leaves of the core itself. -/
def Core.die (k : Core) (cause : Word) : Core :=
  { k with killed := true, killCause := cause, told := [], cap := 0, mq := [],
           ctxs := k.ctxs.map fun e => (e.1, e.2.ended),
           eqs := k.eqs.map fun e =>
             (e.1, { e.2 with running := e.2.running.map fun r => { r with status := 8, todo := [], guard := false } }) }

theorem Core.ctx_die (k : Core) (cause : Word) (x : Nat) : (k.die cause).ctx x = (k.ctx x).ended :=
  Tab.get_map ({} : Context) ({} : Context) (fun _ y => y.ended) k.ctxs x rfl
theorem Core.Sealed.die {k : Core} {test : Option SelfTest} (h : k.Sealed test) (cause : Word) :
    (k.die cause).KilledWith test :=
  ⟨⟨⟨rfl, fun x => by rw [k.ctx_die]; rfl⟩, rfl, rfl, h.inbox, h.task⟩, h.test⟩

/-- The device once the core's inbox is sealed and every affected task is queued and stopped. -/
def State.stopAffected (s : State) (c : Nat) (others bound : List Nat) : State :=
  (others.foldl (init := others.foldl (init := s.modCore c Core.sealInbox) fun s m => s.modCore m fun k =>
    k.queueRedelivery 0 (if bound.contains m then [c] else [])) fun s m => s.stopTask m).stopTask c

theorem sealed_stopAffected (s : State) (c : Nat) (others bound : List Nat) :
    ((s.stopAffected c others bound).core c).Sealed (s.core c).selfTest := by
  refine Core.Sealed.stopTask c ?_
  refine List.foldlRecOn _ _ (motive := fun t : State => (t.core c).Sealed (s.core c).selfTest) ?_ fun t ht m _ =>
    ht.stopTask m
  refine List.foldlRecOn _ _ (motive := fun t : State => (t.core c).Sealed (s.core c).selfTest) ?_ fun t ht m _ => ?_
  · rw [State.core_modCore_self]
    exact (s.core c).sealed_sealInbox
  · exact State.core_modCore_keeps (P := fun k => k.Sealed (s.core c).selfTest) m (fun hk => hk.queueRedelivery _ _) ht

theorem State.core_notify (s : State) (dst : Nat) (w0 w1 : Word) (c : Nat) : (s.notify dst w0 w1).core c = s.core c := rfl
theorem Core.KilledWith.notifyKill {s : State} {c : Nat} {test : Option SelfTest} (h : (s.core c).KilledWith test)
    (dst killed : Nat) (tsk : BitVec 32) (cause : Word) :
    ((s.notifyKill dst killed tsk cause).core c).KilledWith test := by
  unfold State.notifyKill
  split
  · exact h
  · rw [State.core_notify]
    refine State.core_modCore_keeps (P := fun k => k.KilledWith test) killed ?_ h
    exact fun hk => ⟨⟨hk.1.dead, hk.1.classes, hk.1.work⟩, hk.2⟩

/-- The messages of a core that wait for full mailboxes are dropped. -/
def State.dropStuck (s : State) (c : Nat) : State :=
  let stuck := fun (m : MsgFlight) =>
    m.msg.src == c && m.msg.copy.isNone && (m.waiting || decide (32 ≤ (s.core m.dst).mailbox.length))
  (s.msgs.filter stuck).foldl (init := { s with msgs := s.msgs.filter fun m => !stuck m }) fun s m =>
    s.count Count.droppedMessage m.dst
/-- The device without the armed accesses at a core, with its kill in the fence table and counted. -/
def State.recordKill (s : State) (c : Nat) : State :=
  let net := s.net.map fun p => if p.home == .localMem c then { p with armed := none } else p
  (({ s with net := net } : State).writeFence c 0 true 4).count Count.kill c

/-- Killing a core, in its steps (R113). -/
theorem State.killCore_eq (s : State) (c : Nat) (cause : Word) :
    s.killCore c cause =
      let u := s.dropStuck c
      let v := (u.stopAffected c (s.affected c) ((u.core c).bound c)).modCore c fun k => k.die cause
      (s.unitsOf c).foldl (fun t m => t.notifyKill m c (s.core c).tsk cause) (v.recordKill c) := rfl

theorem State.core_dropStuck (s : State) (c m : Nat) : (s.dropStuck c).core m = s.core m :=
  List.foldlRecOn (s.msgs.filter _) _ (motive := fun t : State => t.core m = s.core m) rfl fun _ ht _ _ => ht
theorem State.core_recordKill (s : State) (c m : Nat) : (s.recordKill c).core m = s.core m := rfl

theorem killed_killCore (s : State) (c : Nat) (cause : Word) :
    ((s.killCore c cause).core c).KilledWith (s.core c).selfTest := by
  rw [State.killCore_eq]
  refine List.foldlRecOn (s.unitsOf c) _ (motive := fun t : State => (t.core c).KilledWith (s.core c).selfTest) ?_
    fun t ht m _ => ht.notifyKill m c _ cause
  rw [State.core_recordKill, State.core_modCore_self]
  have hsealed := sealed_stopAffected (s.dropStuck c) c (s.affected c) (((s.dropStuck c).core c).bound c)
  rw [s.core_dropStuck c c] at hsealed ⊢
  exact hsealed.die cause

theorem error_kills (s : State) {c : Nat} (h : (s.core c).killed = false) :
    ∃ t, exec (.uncorrectableError (.coreMachinery c)) s = .next t ∧ (t.core c).Killed := by
  refine ⟨(s.count Count.sramUncorrectable c).killCore c 0xFF, ?_, (killed_killCore _ c _).1⟩
  have hk : ¬((s.count Count.sramUncorrectable c).core c).killed = true := by
    rw [State.core_count, h]
    exact Bool.false_ne_true
  show Host.Outcome.next (if _ then _ else _) = _
  rw [if_neg hk]

/-! ### Fencing classes -/

/-- A core with classes of the tensor block cleared for its cluster (R224). -/
def Core.withoutTensor (k : Core) (tensor : BitVec 28) : Core :=
  { k with cap := k.cap &&& ~~~(tensor.setWidth 64), shared := k.shared ||| tensor }

theorem Core.withoutTensor_withoutTensor (tensor : BitVec 28) (k : Core) :
    (k.withoutTensor tensor).withoutTensor tensor = k.withoutTensor tensor := by
  unfold Core.withoutTensor
  dsimp only
  rw [BitVec.and_assoc, BitVec.and_self, BitVec.or_assoc, BitVec.or_self]

/-- A core without some classes. -/
def Core.withoutClasses (k : Core) (classes : BitVec 28) : Core := { k with cap := k.cap &&& ~~~(classes.setWidth 64) }

theorem State.clearClasses_eq (s : State) (c : Nat) (classes : BitVec 28) :
    s.clearClasses c classes =
      (clusterCores (clusterOf c)).foldl (fun t m => t.modCore m fun k => k.withoutTensor (classes &&& 0x3F0000))
        (s.modCore c fun k => k.withoutClasses classes) := rfl
theorem State.core_clearClasses (s : State) (c : Nat) (classes : BitVec 28) :
    (s.clearClasses c classes).core c = ((s.core c).withoutClasses classes).withoutTensor (classes &&& 0x3F0000) := by
  rw [State.clearClasses_eq, core_foldl_modCore (Core.withoutTensor_withoutTensor (classes &&& 0x3F0000)),
    if_pos ((mem_clusterCores _ _).mpr rfl), State.core_modCore_self]
theorem State.core_writeFence (s : State) (c : Nat) (classes : BitVec 28) (killed : Bool) (cause : BitVec 3) (m : Nat) :
    (s.writeFence c classes killed cause).core m = s.core m := rfl

/-- Fencing clears classes of a core, and changes nothing else of it but what its cluster's fences have cleared. -/
theorem State.core_fence (s : State) (c : Nat) (classes : BitVec 28) (cause : BitVec 3) : ∃ cap shared,
    (s.fence c classes cause).core c = { s.core c with cap := cap, shared := shared } ∧
      ∀ n, n < 28 → cap.getLsbD n = ((s.core c).cap.getLsbD n && !classes.getLsbD n) := by
  unfold State.fence
  split
  · next h => exact ⟨(s.core c).cap, (s.core c).shared, rfl, fun n _ => by simp [h]⟩
  · rw [State.core_writeFence, State.core_clearClasses]
    refine ⟨_, _, rfl, fun n hn => ?_⟩
    show (((s.core c).cap &&& ~~~(classes.setWidth 64)) &&& ~~~((classes &&& 0x3F0000).setWidth 64)).getLsbD n = _
    simp only [BitVec.getLsbD_and, BitVec.getLsbD_not, BitVec.getLsbD_setWidth]
    cases classes.getLsbD n <;> simp [show n < 64 by omega]

/-! ### Completing a self-test -/

theorem State.core_countClasses (s : State) (kind c : Nat) (classes : BitVec 28) (m : Nat) :
    (s.countClasses kind c classes).core m = s.core m := by
  refine List.foldlRecOn (span 0 28) _ (motive := fun t : State => t.core m = s.core m) rfl fun t ht n _ => ?_
  split
  · exact ht
  · exact ht
theorem State.fences_countClasses (s : State) (kind c : Nat) (classes : BitVec 28) :
    (s.countClasses kind c classes).firmware.fences = s.firmware.fences := by
  refine List.foldlRecOn (span 0 28) _ (motive := fun t : State => t.firmware.fences = s.firmware.fences) rfl
    fun t ht n _ => ?_
  split
  · exact ht
  · exact ht

/-- The device with a core's test over and counted (R225). -/
def State.testOver (s : State) (c : Nat) (q : SelfTest) (failed : BitVec 28) : State :=
  let u := s.modCore c fun k => { k with selfTest := none, tested := s.cycle }
  (u.countClasses Count.selfTestRun c q.classes).countClasses Count.selfTestFailure c (failed &&& q.classes)
/-- The core as its test's end leaves it. -/
def Core.testOver (k : Core) (cycle : Nat) : Core := { k with selfTest := none, tested := cycle }

theorem State.core_testOver (s : State) (c : Nat) (q : SelfTest) (failed : BitVec 28) :
    (s.testOver c q failed).core c = (s.core c).testOver s.cycle := by
  unfold State.testOver
  rw [State.core_countClasses, State.core_countClasses, State.core_modCore_self]
  rfl
theorem State.fences_testOver (s : State) (c : Nat) (q : SelfTest) (failed : BitVec 28) :
    (s.testOver c q failed).firmware.fences = s.firmware.fences := by
  unfold State.testOver
  rw [State.fences_countClasses, State.fences_countClasses]
  rfl

/-- What fences a core after its kill has been lifted, by the table. -/
theorem fenced_liftFence {s t : State} (c : Nat) (h : t.firmware.fences = s.firmware.fences) :
    (t.liftFence c 0 true).firmware.fenced c = (s.liftFence c 0 true).firmware.fenced c := by
  have hfences : (t.liftFence c 0 true).firmware.fences = (s.liftFence c 0 true).firmware.fences := by
    show List.filter _ (List.map _ t.firmware.fences) = List.filter _ (List.map _ s.firmware.fences)
    rw [h]
  unfold Firmware.fenced
  rw [hfences]

/-- A killed core that an ordered test brings back, by what fences it. -/
def Core.revived (k : Core) (fenced : BitVec 28) : Core :=
  { k.cleared with killed := false, killCause := 0, cap := ~~~((fenced ||| k.shared).setWidth 64) }

theorem State.core_revive (s : State) (c : Nat) :
    (s.revive c).core c = (s.core c).revived ((s.liftFence c 0 true).firmware.fenced c) :=
  State.core_modCore_self (s.liftFence c 0 true) c _

/-- The core before its failing classes are fenced: a killed one that the host has ordered tested is back. -/
def Core.readmitted (k : Core) (cause : BitVec 3) (fenced : BitVec 28) : Core :=
  if k.killed = true ∧ cause = 3 then k.revived fenced else k

/-- A passing ordered test gives the core its classes back. -/
def Core.regains (k : Core) (good : BitVec 28) : Core :=
  { k with cap := k.cap ||| good.setWidth 64, shared := k.shared &&& ~~~good }

theorem Core.readmitted_back {k : Core} {cause : BitVec 3} (fenced : BitVec 28) (h : k.killed = true ∧ cause = 3) :
    k.readmitted cause fenced = k.revived fenced := if_pos h
theorem Core.readmitted_same {k : Core} {cause : BitVec 3} (fenced : BitVec 28) (h : ¬(k.killed = true ∧ cause = 3)) :
    k.readmitted cause fenced = k := if_neg h
theorem Core.readmitted_test (k : Core) (cause : BitVec 3) (fenced : BitVec 28) :
    (k.readmitted cause fenced).selfTest = k.selfTest ∧ (k.readmitted cause fenced).tested = k.tested := by
  unfold Core.readmitted
  split <;> exact ⟨rfl, rfl⟩
/-- After an ordered test no core is dead whose base set has passed. -/
theorem Core.readmitted_alive (k : Core) (fenced : BitVec 28) : (k.readmitted 3 fenced).killed = false := by
  by_cases h : k.killed = true
  · rw [Core.readmitted_back fenced ⟨h, rfl⟩]
    rfl
  · rw [Core.readmitted_same fenced fun hk => h hk.1]
    exact Bool.not_eq_true _ ▸ h

/-- What the end of a test brings about (R224, R225). -/
def State.afterTest (s : State) (c : Nat) (failed : BitVec 28) (baseFailed : Bool) (q : SelfTest) : State :=
  if !baseFailed && (s.core c).killed && q.cause == 3 && !s.drained c then s
  else
    let bad := failed &&& q.classes
    let good := q.classes &&& ~~~failed
    let u := s.testOver c q failed
    if baseFailed then
      let v := u.fence c bad q.cause
      if (s.core c).killed then v else v.killCore c 0xFE
    else
      let v := (if (s.core c).killed && q.cause = 3 then u.revive c else u).fence c bad q.cause
      if q.cause = 3 then
        let w := v.liftFence c good false
        if (w.core c).killed then w else w.modCore c fun k => k.regains good
      else v

section
variable {s : State} {c : Nat} {q : SelfTest} (failed : BitVec 28) (hq : (s.core c).selfTest = some q)
include hq

theorem exec_selfTestCompletion (baseFailed : Bool) :
    exec (.selfTestCompletion c failed baseFailed) s = .next (s.afterTest c failed baseFailed q) := by
  show execSelfTestCompletion c failed baseFailed s = _
  unfold execSelfTestCompletion State.afterTest
  simp only [hq]
  split
  · rfl
  · split
    · rfl
    · split <;> rfl

/-- A failure of the base set kills the core (R225). -/
theorem selfTestCompletion_kills :
    ∃ t, exec (.selfTestCompletion c failed true) s = .next t ∧ (t.core c).killed = true ∧ (t.core c).selfTest = none := by
  let v := (s.testOver c q failed).fence c (failed &&& q.classes) q.cause
  obtain ⟨cap, shared, hcore, -⟩ := (s.testOver c q failed).core_fence c (failed &&& q.classes) q.cause
  have htest : (v.core c).selfTest = none ∧ (v.core c).killed = (s.core c).killed := by
    rw [hcore, s.core_testOver]
    exact ⟨rfl, rfl⟩
  have hafter : s.afterTest c failed true q = if (s.core c).killed then v else v.killCore c 0xFE := rfl
  refine ⟨_, exec_selfTestCompletion failed hq true, ?_⟩
  rw [hafter]
  split
  · next hk => exact ⟨htest.2.trans hk, htest.1⟩
  · obtain ⟨hkilled, hsame⟩ := killed_killCore v c 0xFE
    exact ⟨hkilled.dead.1, hsame.trans htest.1⟩

theorem selfTestCompletion_waits (h : (s.core c).killed = true ∧ q.cause = 3 ∧ s.drained c = false) :
    exec (.selfTestCompletion c failed false) s = .next s := by
  obtain ⟨hk, hcause, hd⟩ := h
  have hafter : s.afterTest c failed false q = s := if_pos (by simp [hk, hcause, hd])
  rw [exec_selfTestCompletion failed hq, hafter]

end

/-- The core after a test whose base set has passed: readmitted, then without the classes that failed, then, by an
ordered test, with those that passed. -/
theorem State.core_afterTest {s : State} {c : Nat} {q : SelfTest} (failed : BitVec 28)
    (h : ¬((s.core c).killed = true ∧ q.cause = 3 ∧ s.drained c = false)) :
    ∃ cap shared, let k := ((s.core c).testOver s.cycle).readmitted q.cause ((s.liftFence c 0 true).firmware.fenced c)
      let fenced : Core := { k with cap := cap, shared := shared }
      (s.afterTest c failed false q).core c = (if q.cause = 3 then fenced.regains (q.classes &&& ~~~failed) else fenced) ∧
        ∀ n, n < 28 → cap.getLsbD n = (k.cap.getLsbD n && !(failed &&& q.classes).getLsbD n) := by
  let u := s.testOver c q failed
  let r := if (s.core c).killed && q.cause = 3 then u.revive c else u
  let v := r.fence c (failed &&& q.classes) q.cause
  let w := v.liftFence c (q.classes &&& ~~~failed) false
  have hu : u.core c = (s.core c).testOver s.cycle := s.core_testOver c q failed
  have hr : r.core c = ((s.core c).testOver s.cycle).readmitted q.cause ((s.liftFence c 0 true).firmware.fenced c) := by
    by_cases hback : (s.core c).killed = true ∧ q.cause = 3
    · have hrevived : r = u.revive c := if_pos (by simpa using hback)
      rw [Core.readmitted_back (k := (s.core c).testOver s.cycle) _ hback, hrevived, State.core_revive, hu,
        fenced_liftFence c (s.fences_testOver c q failed)]
    · have hsame : r = u := if_neg (by simpa using hback)
      rw [Core.readmitted_same (k := (s.core c).testOver s.cycle) _ hback, hsame, hu]
  have hafter : s.afterTest c failed false q =
      if q.cause = 3 then if (w.core c).killed then w else w.modCore c fun k => k.regains (q.classes &&& ~~~failed) else v :=
    if_neg fun hb => h (by simpa [and_assoc] using hb)
  obtain ⟨cap, shared, hcore, hcap⟩ := r.core_fence c (failed &&& q.classes) q.cause
  rw [hr] at hcore hcap
  refine ⟨cap, shared, ?_, hcap⟩
  rw [hafter]
  by_cases hcause : q.cause = 3
  · have hw : w.core c = _ := hcore
    have halive : ¬(w.core c).killed = true := by
      rw [hw]
      show ¬(Core.readmitted _ q.cause _).killed = true
      rw [hcause, Core.readmitted_alive]
      exact Bool.false_ne_true
    rw [if_pos hcause, if_pos hcause, if_neg halive, State.core_modCore_self, hw]
  · rw [if_neg hcause, if_neg hcause]
    exact hcore

/-! ### What completion says of the core -/

/-- The classes of a core after an ordered test: those tested as they passed, the others as they were. -/
theorem cap_regains (q : SelfTest) (failed : BitVec 28) {k : Core} {cap : Word} {shared : BitVec 28} {n : Nat}
    (hn : n < 28) (hcap : cap.getLsbD n = (k.cap.getLsbD n && !(failed &&& q.classes).getLsbD n)) :
    (({ k with cap := cap, shared := shared } : Core).regains (q.classes &&& ~~~failed)).cap.getLsbD n =
      if q.classes.getLsbD n then !failed.getLsbD n else k.cap.getLsbD n := by
  show (cap ||| (q.classes &&& ~~~failed).setWidth 64).getLsbD n = _
  rw [BitVec.getLsbD_or, hcap, BitVec.getLsbD_setWidth, BitVec.getLsbD_and, BitVec.getLsbD_and, BitVec.getLsbD_not]
  cases q.classes.getLsbD n <;> cases failed.getLsbD n <;> simp [hn, show n < 64 by omega]

section
variable (s : State) {c : Nat} (q : SelfTest) (failed : BitVec 28)
  (h : ¬((s.core c).killed = true ∧ q.cause = 3 ∧ s.drained c = false))
include h

theorem afterTest_over : ((s.afterTest c failed false q).core c).selfTest = none ∧
    ((s.afterTest c failed false q).core c).tested = s.cycle := by
  obtain ⟨cap, shared, hcore, -⟩ := State.core_afterTest failed h
  obtain ⟨htest, hcycle⟩ := ((s.core c).testOver s.cycle).readmitted_test q.cause ((s.liftFence c 0 true).firmware.fenced c)
  rw [hcore]
  split <;> exact ⟨htest, hcycle⟩

/-- An ordered test brings a killed core back, with the classes that nothing fences (R225; log 39). -/
theorem afterTest_revives (hk : (s.core c).killed = true) (hcause : q.cause = 3) :
    ((s.afterTest c failed false q).core c).killed = false ∧ ((s.afterTest c failed false q).core c).part = none ∧
      ∀ n, n < 28 → ((s.afterTest c failed false q).core c).cap.getLsbD n = if q.classes.getLsbD n then !failed.getLsbD n
        else !((s.liftFence c 0 true).firmware.fenced c ||| (s.core c).shared).getLsbD n := by
  obtain ⟨cap, shared, hcore, hcap⟩ := State.core_afterTest failed h
  rw [Core.readmitted_back (k := (s.core c).testOver s.cycle) _ ⟨hk, hcause⟩] at hcore hcap
  rw [hcore, if_pos hcause]
  refine ⟨rfl, rfl, fun n hn => ?_⟩
  rw [cap_regains q failed hn (hcap n hn)]
  congr 1
  show (~~~(((s.liftFence c 0 true).firmware.fenced c ||| (s.core c).shared).setWidth 64)).getLsbD n = _
  simp [show n < 64 by omega]

/-- A test that the host has not ordered takes its failing classes away (R225). -/
theorem afterTest_fences (hcause : q.cause ≠ 3) :
    ((s.afterTest c failed false q).core c).killed = (s.core c).killed ∧
      ∀ n, n < 28 → ((s.afterTest c failed false q).core c).cap.getLsbD n =
        ((s.core c).cap.getLsbD n && !(failed.getLsbD n && q.classes.getLsbD n)) := by
  obtain ⟨cap, shared, hcore, hcap⟩ := State.core_afterTest failed h
  rw [Core.readmitted_same (k := (s.core c).testOver s.cycle) _ fun hk => hcause hk.2] at hcore hcap
  rw [hcore, if_neg hcause]
  exact ⟨rfl, fun n hn => (hcap n hn).trans (by rw [BitVec.getLsbD_and]; rfl)⟩

/-- An ordered test of a living core restores what passes (R225). -/
theorem afterTest_restores (hk : (s.core c).killed = false) (hcause : q.cause = 3) {n : Nat} (hn : n < 28) :
    ((s.afterTest c failed false q).core c).cap.getLsbD n =
      if q.classes.getLsbD n then !failed.getLsbD n else (s.core c).cap.getLsbD n := by
  obtain ⟨cap, shared, hcore, hcap⟩ := State.core_afterTest failed h
  rw [Core.readmitted_same (k := (s.core c).testOver s.cycle) _ fun hd => by simp [Core.testOver, hk] at hd] at hcore hcap
  rw [hcore, if_pos hcause, cap_regains q failed hn (hcap n hn)]
  rfl

end

end Sys2Proof.Machine
end

section
/-! The claim about cores and partitions, clause by clause. -/
namespace Sys2Proof.Machine

theorem coreAssignment_assigns {s : State} {c n : Nat} (tvec entry : Word) {p : Partition} (hp : s.part n = some p)
    (hdue : s.assignable p c) :
    ∃ t, exec (.coreAssignment c n tvec entry) s = .next t ∧ s.OnlyCore t c ∧
      t.core c = (s.core c).assigned n tvec entry := by
  classical
  refine ⟨s.setCore c ((s.core c).assigned n tvec entry), ?_, s.onlyCore_modCore c fun k => k.assigned n tvec entry,
    State.core_setCore_self s c _⟩
  rw [exec_coreAssignment, execCoreAssignment_eq tvec entry hp, if_pos hdue]
theorem coreAssignment_waits {s : State} {c n : Nat} (tvec entry : Word) {p : Partition} (hp : s.part n = some p)
    (hdue : ¬s.assignable p c) : exec (.coreAssignment c n tvec entry) s = .next s := by
  classical
  rw [exec_coreAssignment, execCoreAssignment_eq tvec entry hp, if_neg hdue]

/-- Settles O54: each event by what its steps do to one core, one cluster or one granule, which the steps for the others
leave alone. -/
theorem coresAndPartitions : Obligations.CoresAndPartitions := by
  unfold Obligations.CoresAndPartitions
  refine ⟨?_, partitionClear_begins, ?_, ?_, ?_, ?_, ?_, ?_, reEncodeComplete_ends, stackPark_parks, ?_⟩
  · intro s c n tvec entry p hp
    refine ⟨coreAssignment_waits tvec entry hp, fun hdue => ?_⟩
    obtain ⟨t, he, honly, hcore⟩ := coreAssignment_assigns tvec entry hp hdue
    refine ⟨t, he, honly, ?_⟩
    rw [hcore]
    exact ⟨rfl, rfl, rfl, rfl, rfl, rfl, assigned_fresh _ n tvec entry, fun x hx => ctx_assigned_ne _ n tvec entry hx, rfl, rfl,
      rfl, rfl, rfl, rfl, rfl, rfl, rfl, rfl, rfl, rfl, rfl⟩
  · exact fun s n p hp => ⟨partitionClearComplete_waits hp, partitionClearComplete_ends hp⟩
  · intro s c hn
    refine ⟨preemption_waits, fun hdue => ?_, fun hdue t ht cl hsome hall hs => ?_⟩
    · refine ⟨s.preempted c, preemption_stops hdue, fun m hm => ?_, fun m hm => ?_⟩
      · rw [s.core_preempted hn, if_neg hm]
      · obtain ⟨hsaved, hstep, -⟩ := (s.core m).saved_save
        have hcore : (s.preempted c).core m = (s.core m).settled.save := by rw [s.core_preempted hn, if_pos hm]
        rw [← hcore] at hsaved hstep
        exact ⟨(s.core m).record, hsaved, rfl, rfl, rfl, rfl, rfl, rfl, rfl, rfl, rfl, hstep,
          fun x hx hl => (s.core m).ctx_record hx hl,
          fun x => State.not_ready_of_saved x (hsaved ▸ Option.some_ne_none _)⟩
    · obtain rfl : s.preempted c = t := Host.Outcome.next.inj ((preemption_stops hdue).symm.trans ht)
      exact State.cluster_preempted hn hsome hall hs
  · intro s c hn
    refine ⟨preemptionResume_waits, fun hs => ⟨_, preemptionResume_resumes hs, fun m hm => ?_, fun m v hm hv => ?_⟩⟩
    · rw [s.core_resumeUnit hn, if_neg hm]
    · have hcore := s.core_resumeUnit hn m
      rw [if_pos hm] at hcore
      obtain ⟨hnone, hctxs, hstore, htiles, heqs, hmail, hinbox, hconf, hmq, hbarriers⟩ := Core.restore_of_saved hv
      rw [hcore]
      refine ⟨hnone, hctxs, hstore, htiles, heqs, hmail, hinbox, hconf, hmq, hbarriers, fun q hq => ?_⟩
      rw [s.cluster_resumeUnit, if_pos (List.mem_map.mpr ⟨m, hm, rfl⟩)]
      exact Cluster.restore_of_saved hq
  · exact fun s => ⟨error_marks_localWord s, error_marks_scratchWord s, error_marks_line s, error_marks_tile s,
      fun c n m => error_marks_mail s c n, fun c n m => error_marks_record s c n, error_drops_confluenceEntry s,
      fun c q r => error_marks_copy s c q, error_marks_replaySlot s, fun c => error_kills s⟩
  · exact fun s c => ⟨fun n => ⟨_, rfl, rfl⟩, selfTestPeriodic_waits, selfTestPeriodic_tests⟩
  · intro s c failed q hq
    refine ⟨selfTestCompletion_kills failed hq, selfTestCompletion_waits failed hq, fun h => ?_⟩
    obtain ⟨hover, hcycle⟩ := afterTest_over s q failed h
    exact ⟨_, exec_selfTestCompletion failed hq false, hover, hcycle, afterTest_revives s q failed h,
      afterTest_fences s q failed h, fun hk hcause n hn => afterTest_restores s q failed h hk hcause hn⟩
  · exact fun s die o => ⟨scrubRead_stalls o, scrubRead_waits o, scrubRead_reads o⟩

end Sys2Proof.Machine
end

section
/-! O60: the form of every memory along a step. `State.Ok` says that a state's memories are in their form; each operation
has one lemma under its own name, so that a proof reads as the operation's definition does. -/
namespace Sys2Proof.Machine
-- One proof after the other: side by side they hold more memory than a compile of the whole text may take.
set_option Elab.async false

/-! ### The form of every kind of result -/

/-- Every memory, mark and record table of the device is in its canonical form. -/
def State.Ok (s : State) : Prop := s.memoriesOk = true
/-- The stores of a core, of a cluster, are. -/
def Core.Ok (k : Core) : Prop := k.memoryOk = true
def Cluster.Ok (k : Cluster) : Prop := k.memoryOk = true
def Store.Ok (m : Store) : Prop := m.ok = true
/-- A state, a store that may be answered is in its form. -/
def SomeOk : Option State → Prop
  | some s => s.Ok
  | none => True
def SomeStoreOk : Option Store → Prop
  | some m => m.Ok
  | none => True
/-- The state that the effect of an instruction answers is. -/
def Res.Ok : Res → Prop
  | .done s | .jump s _ | .gone s | .wait s | .stall s => s.Ok
  | .trap .. | .interval => True
/-- The next state that a step answers is. -/
def OutcomeOk : Host.Outcome State Fault Refusal → Prop
  | .next s => s.Ok
  | .fault _ | .refused _ => True

section
variable {c : Prop} [Decidable c]
theorem State.Ok.ite {s t : State} (hs : s.Ok) (ht : t.Ok) : (if c then s else t).Ok := by split; exacts [hs, ht]
theorem State.Ok.ite_fst {α : Type} {a b : State × α} (ha : a.1.Ok) (hb : b.1.Ok) : (if c then a else b).1.Ok := by
  split; exacts [ha, hb]
theorem State.Ok.ite_snd {α : Type} {a b : α × State} (ha : a.2.Ok) (hb : b.2.Ok) : (if c then a else b).2.Ok := by
  split; exacts [ha, hb]
theorem SomeOk.ite_fst {α : Type} {a b : Option State × α} (ha : SomeOk a.1) (hb : SomeOk b.1) :
    SomeOk (if c then a else b).1 := by split; exacts [ha, hb]
theorem Core.Ok.ite {k l : Core} (hk : k.Ok) (hl : l.Ok) : (if c then k else l).Ok := by split; exacts [hk, hl]
theorem Res.Ok.ite {r q : Res} (hr : r.Ok) (hq : q.Ok) : (if c then r else q).Ok := by split; exacts [hr, hq]
theorem SomeStoreOk.ite {a b : Option Store} (ha : SomeStoreOk a) (hb : SomeStoreOk b) :
    SomeStoreOk (if c then a else b) := by split; exacts [ha, hb]
theorem SomeOk.ite {a b : Option State} (ha : SomeOk a) (hb : SomeOk b) : SomeOk (if c then a else b) := by
  split; exacts [ha, hb]
theorem OutcomeOk.ite {a b : Host.Outcome State Fault Refusal} (ha : OutcomeOk a) (hb : OutcomeOk b) :
    OutcomeOk (if c then a else b) := by split; exacts [ha, hb]
end

section
variable {s : State}
theorem Res.Ok.done (h : s.Ok) : (Res.done s).Ok := h
theorem Res.Ok.jump {pc : Word} (h : s.Ok) : (Res.jump s pc).Ok := h
theorem Res.Ok.gone (h : s.Ok) : (Res.gone s).Ok := h
theorem Res.Ok.wait (h : s.Ok) : (Res.wait s).Ok := h
theorem Res.Ok.stall (h : s.Ok) : (Res.stall s).Ok := h
theorem Res.Ok.trap {cause sub : BitVec 8} {tval : Word} : (Res.trap cause sub tval).Ok := trivial
theorem Res.Ok.interval : Res.interval.Ok := trivial
theorem SomeOk.some (h : s.Ok) : SomeOk (some s) := h
theorem SomeOk.none : SomeOk .none := trivial
theorem OutcomeOk.next (h : s.Ok) : OutcomeOk (.next s) := h
theorem SomeStoreOk.some {m : Store} (h : m.Ok) : SomeStoreOk (some m) := h
theorem SomeStoreOk.none : SomeStoreOk .none := trivial
theorem State.Ok.of_some {o : Option State} (e : o = .some s) (h : SomeOk o) : s.Ok := by rw [e] at h; exact h
theorem State.Ok.of_fst {α : Type} {r : State × α} {a : α} (e : r = (s, a)) (h : r.1.Ok) : s.Ok := by
  rw [e] at h; exact h
theorem State.Ok.of_snd {α : Type} {r : α × State} {a : α} (e : r = (a, s)) (h : r.2.Ok) : s.Ok := by
  rw [e] at h; exact h
theorem State.Ok.of_fst_some {α : Type} {r : Option State × α} {a : α} (e : r = (.some s, a)) (h : SomeOk r.1) : s.Ok := by
  rw [e] at h; exact h
theorem State.Ok.of_done {r : Res} (e : r = .done s) (h : r.Ok) : s.Ok := by rw [e] at h; exact h
theorem State.Ok.of_next {r : Host.Outcome State Fault Refusal} (e : r = .next s) (h : OutcomeOk r) : s.Ok := by
  rw [e] at h; exact h
theorem State.Ok.foldl {α : Type} {f : State → α → State} {l : List α} (h : s.Ok) (hf : ∀ t a, t.Ok → (f t a).Ok) :
    (l.foldl f s).Ok := by
  induction l generalizing s with
  | nil => exact h
  | cons a l ih => exact ih (hf s a h)
theorem Core.Ok.foldl {α : Type} {f : Core → α → Core} {l : List α} {k : Core} (h : k.Ok)
    (hf : ∀ t a, t.Ok → (f t a).Ok) : (l.foldl f k).Ok := by
  induction l generalizing k with
  | nil => exact h
  | cons a l ih => exact ih (hf k a h)
theorem State.Ok.foldl_fst {α β : Type} {f : State × β → α → State × β} {l : List α} {r : State × β} (h : r.1.Ok)
    (hf : ∀ r a, r.1.Ok → (f r a).1.Ok) : (l.foldl f r).1.Ok := by
  induction l generalizing r with
  | nil => exact h
  | cons a l ih => exact ih (hf r a h)
theorem State.Ok.foldl_snd {α β : Type} {f : β × State → α → β × State} {l : List α} {r : β × State} (h : r.2.Ok)
    (hf : ∀ r a, r.2.Ok → (f r a).2.Ok) : (l.foldl f r).2.Ok := by
  induction l generalizing r with
  | nil => exact h
  | cons a l ih => exact ih (hf r a h)
theorem State.Ok.of_some_fst {α : Type} {o : Option (State × α)} {a : α} (e : o = .some (s, a))
    (h : SomeOk (o.map Prod.fst)) : s.Ok := by rw [e] at h; exact h
theorem State.Ok.of_some_snd {α : Type} {o : Option (α × State)} {a : α} (e : o = .some (a, s))
    (h : SomeOk (o.map Prod.snd)) : s.Ok := by rw [e] at h; exact h
theorem Store.Ok.of_some {o : Option Store} {m : Store} (e : o = .some m) (h : SomeStoreOk o) : m.Ok := by
  rw [e] at h; exact h
theorem Store.Ok.of_some_snd {α : Type} {o : Option (α × Store)} {m : Store} {a : α} (e : o = .some (a, m))
    (h : SomeStoreOk (o.map Prod.snd)) : m.Ok := by rw [e] at h; exact h
theorem SomeOk.foldlM {α : Type} {f : State → α → Option State} {l : List α} (h : s.Ok)
    (hf : ∀ s a, s.Ok → SomeOk (f s a)) : SomeOk (l.foldlM f s) := by
  induction l generalizing s with
  | nil => exact h
  | cons a l ih =>
    rw [List.foldlM_cons]
    cases e : f s a with
    | none => trivial
    | some t => exact ih (.of_some e (hf s a h))
theorem SomeStoreOk.foldlM {α : Type} {f : Store → α → Option Store} {l : List α} {m : Store} (h : m.Ok)
    (hf : ∀ m a, m.Ok → SomeStoreOk (f m a)) : SomeStoreOk (l.foldlM f m) := by
  induction l generalizing m with
  | nil => exact h
  | cons a l ih =>
    rw [List.foldlM_cons]
    cases e : f m a with
    | none => trivial
    | some t => exact ih (.of_some e (hf m a h))
theorem Store.Ok.foldl {α : Type} {f : Store → α → Store} {l : List α} {m : Store} (h : m.Ok)
    (hf : ∀ m a, m.Ok → (f m a).Ok) : (l.foldl f m).Ok := by
  induction l generalizing m with
  | nil => exact h
  | cons a l ih => exact ih (hf m a h)
theorem SomeOk.mapped {α : Type} {o : Option α} {f : α → State} (hf : ∀ a, (f a).Ok) : SomeOk (o.map f) := by
  cases o with | none => trivial | some a => exact hf a
theorem SomeOk.findSome {α : Type} {l : List α} {f : α → Option State} (hf : ∀ a, SomeOk (f a)) :
    SomeOk (l.findSome? f) := by
  induction l with
  | nil => trivial
  | cons a l ih =>
    rw [List.findSome?_cons]
    split
    next e => exact .of_some e (hf a)
    next => exact ih
theorem SomeOk.map {o : Option State} {f : State → State} (h : SomeOk o) (hf : ∀ s, s.Ok → (f s).Ok) :
    SomeOk (o.map f) := by cases o with | none => trivial | some s => exact hf s h
theorem SomeOk.bind {o : Option State} {f : State → Option State} (h : SomeOk o) (hf : ∀ s, s.Ok → SomeOk (f s)) :
    SomeOk (o.bind f) := by cases o with | none => trivial | some s => exact hf s h
theorem State.Ok.getD {o : Option State} (h : SomeOk o) (hs : s.Ok) : (o.getD s).Ok := by
  cases o with | none => exact hs | some t => exact h
end

/-! ### Changes of a core, of a cluster, and of what is no memory -/

section
variable {s : State}
theorem Core.Ok.core {c : Nat} (h : s.Ok) : (s.core c).Ok := State.core_memoryOk c h
theorem Core.Ok.here (h : s.Ok) : s.here.Ok := State.core_memoryOk _ h
theorem Cluster.Ok.cluster {n : Nat} (h : s.Ok) : (s.cluster n).Ok := State.cluster_memoryOk n h
theorem Store.Ok.storeAt {p : Home} (h : s.Ok) : (s.storeAt p).Ok := State.storeAt_ok p h
theorem Store.Ok.ofCore {k : Core} (h : k.Ok) : k.store.Ok := (Bool.and_eq_true_iff.mp h).1
theorem Store.Ok.ofCluster {k : Cluster} (h : k.Ok) : k.store.Ok := (Bool.and_eq_true_iff.mp h).1
theorem SomeStoreOk.ofCore {k : Core} (h : k.Ok) : SomeStoreOk (k.saved.map fun v => v.store) := by
  have hv := (Bool.and_eq_true_iff.mp h).2
  cases e : k.saved with
  | none => trivial
  | some v => rw [e] at hv; exact hv
theorem SomeStoreOk.ofCluster {k : Cluster} (h : k.Ok) : SomeStoreOk (k.saved.map Prod.fst) := by
  have hv := (Bool.and_eq_true_iff.mp h).2
  cases e : k.saved with
  | none => trivial
  | some v => rw [e] at hv; exact hv
theorem Core.Ok.of_stores {k : Core} (h : k.store.Ok) (hv : SomeStoreOk (k.saved.map fun v => v.store)) : k.Ok := by
  refine Bool.and_eq_true_iff.mpr ⟨h, ?_⟩
  cases e : k.saved with
  | none => rfl
  | some v => rw [e] at hv; exact hv
theorem Core.Ok.withStore {k : Core} {store : Store}
    {part killed killCause told ctxs cap shared need mqw tvec tcause tpc tval tctx tret tstep hchk tsk cov win ssn
    mgc pivl bilrok loopPc handler trapQueue dueTrap gang pairing phase barriers turn issued buffer micro mailbox
    inbox task cvdone era lastId consts mq batches openBatch nextBatch tiles eqs serial joins nextId transfers conf
    mode holding oldHolds groups statics selfTest tested redeliver tracing trace}
    (h : k.Ok) (hm : store.Ok) :
    ({ k with store := store, part := part, killed := killed, killCause := killCause, told := told, ctxs := ctxs, cap := cap,
              shared := shared, need := need, mqw := mqw, tvec := tvec, tcause := tcause, tpc := tpc,
              tval := tval, tctx := tctx, tret := tret, tstep := tstep, hchk := hchk, tsk := tsk, cov := cov,
              win := win, ssn := ssn, mgc := mgc, pivl := pivl, bilrok := bilrok, loopPc := loopPc,
              handler := handler, trapQueue := trapQueue, dueTrap := dueTrap, gang := gang, pairing := pairing,
              phase := phase, barriers := barriers, turn := turn, issued := issued, buffer := buffer,
              micro := micro, mailbox := mailbox, inbox := inbox, task := task, cvdone := cvdone, era := era,
              lastId := lastId, consts := consts, mq := mq, batches := batches, openBatch := openBatch,
              nextBatch := nextBatch, tiles := tiles, eqs := eqs, serial := serial, joins := joins,
              nextId := nextId, transfers := transfers, conf := conf, mode := mode, holding := holding,
              oldHolds := oldHolds, groups := groups, statics := statics, selfTest := selfTest, tested := tested,
              redeliver := redeliver, tracing := tracing, trace := trace } : Core).Ok :=
  have hv := SomeStoreOk.ofCore h
  .of_stores hm hv
theorem Cluster.Ok.of_stores {k : Cluster} (h : k.store.Ok) (hv : SomeStoreOk (k.saved.map Prod.fst)) : k.Ok := by
  refine Bool.and_eq_true_iff.mpr ⟨h, ?_⟩
  cases e : k.saved with
  | none => rfl
  | some v => rw [e] at hv; exact hv
theorem Cluster.Ok.withStore {k : Cluster} {store : Store} {cbs last run cache power trace idle}
    (h : k.Ok) (hm : store.Ok) :
    ({ k with store := store, cbs := cbs, last := last, run := run, cache := cache, power := power,
              trace := trace, idle := idle } : Cluster).Ok :=
  have hv := SomeStoreOk.ofCluster h
  .of_stores hm hv
theorem State.Ok.setCore {c : Nat} {k : Core} (h : s.Ok) (hk : k.Ok) : (s.setCore c k).Ok :=
  State.memoriesOk_setCore c k h hk
/-- A change of every core, of every cluster. -/
theorem State.Ok.mapCores {f : Nat × Core → Nat × Core} (h : s.Ok) (hf : ∀ e, e.2.Ok → (f e).2.Ok) :
    ({ s with cores := s.cores.map f } : State).Ok := by
  obtain ⟨h1, h2, h3, h4, h5⟩ := (State.memoriesOk_iff s).mp h
  refine (State.memoriesOk_iff _).mpr ⟨h1, h2, h3, ?_, h5⟩
  rw [List.all_map]
  exact List.all_eq_true.mpr fun e he => hf e (List.all_eq_true.mp h4 e he)
theorem State.Ok.mapClusters {f : Nat × Cluster → Nat × Cluster} (h : s.Ok) (hf : ∀ e, e.2.Ok → (f e).2.Ok) :
    ({ s with clusters := s.clusters.map f } : State).Ok := by
  obtain ⟨h1, h2, h3, h4, h5, h6⟩ := (State.memoriesOk_iff s).mp h
  refine (State.memoriesOk_iff _).mpr ⟨h1, h2, h3, h4, ?_, h6⟩
  rw [List.all_map]
  exact List.all_eq_true.mpr fun e he => hf e (List.all_eq_true.mp h5 e he)
theorem State.Ok.modCore {c : Nat} {f : Core → Core} (h : s.Ok) (hf : ∀ k : Core, k.Ok → (f k).Ok) : (s.modCore c f).Ok :=
  State.memoriesOk_modCore c f h hf
theorem State.Ok.modHere {f : Core → Core} (h : s.Ok) (hf : ∀ k : Core, k.Ok → (f k).Ok) : (s.modHere f).Ok :=
  h.modCore hf
theorem State.Ok.modCluster {n : Nat} {f : Cluster → Cluster} (h : s.Ok) (hf : ∀ k : Cluster, k.Ok → (f k).Ok) :
    (s.modCluster n f).Ok := State.memoriesOk_modCluster n f h hf
theorem Core.Ok.update {k : Core}
    {part killed killCause told ctxs cap shared need mqw tvec tcause tpc tval tctx tret tstep hchk tsk cov win ssn
    mgc pivl bilrok loopPc handler trapQueue dueTrap gang pairing phase barriers turn issued buffer micro mailbox
    inbox task cvdone era lastId consts mq batches openBatch nextBatch tiles eqs serial joins nextId transfers conf
    mode holding oldHolds groups statics selfTest tested redeliver tracing trace}
    (h : k.Ok) :
    ({ k with part := part, killed := killed, killCause := killCause, told := told, ctxs := ctxs, cap := cap,
              shared := shared, need := need, mqw := mqw, tvec := tvec, tcause := tcause, tpc := tpc,
              tval := tval, tctx := tctx, tret := tret, tstep := tstep, hchk := hchk, tsk := tsk, cov := cov,
              win := win, ssn := ssn, mgc := mgc, pivl := pivl, bilrok := bilrok, loopPc := loopPc,
              handler := handler, trapQueue := trapQueue, dueTrap := dueTrap, gang := gang, pairing := pairing,
              phase := phase, barriers := barriers, turn := turn, issued := issued, buffer := buffer,
              micro := micro, mailbox := mailbox, inbox := inbox, task := task, cvdone := cvdone, era := era,
              lastId := lastId, consts := consts, mq := mq, batches := batches, openBatch := openBatch,
              nextBatch := nextBatch, tiles := tiles, eqs := eqs, serial := serial, joins := joins,
              nextId := nextId, transfers := transfers, conf := conf, mode := mode, holding := holding,
              oldHolds := oldHolds, groups := groups, statics := statics, selfTest := selfTest, tested := tested,
              redeliver := redeliver, tracing := tracing, trace := trace } : Core).Ok := h
theorem Cluster.Ok.update {k : Cluster} {cbs last run cache power trace idle}
    (h : k.Ok) :
    ({ k with cbs := cbs, last := last, run := run, cache := cache, power := power,
              trace := trace, idle := idle } : Cluster).Ok := h
theorem Core.Ok.modCtx {k : Core} {x : Nat} {f : Context → Context} (h : k.Ok) : (k.modCtx x f).Ok := h
theorem State.Ok.modCtx {c x : Nat} {f : Context → Context} (h : s.Ok) : (s.modCtx c x f).Ok :=
  h.modCore fun _ => id
theorem State.Ok.modMe {f : Context → Context} (h : s.Ok) : (s.modMe f).Ok := h.modCtx
theorem State.Ok.modDie {n : Nat} {f : Die → Die} (h : s.Ok) : (s.modDie n f).Ok := h
theorem State.Ok.modQueue {n : Nat} {f : Queue → Queue} (h : s.Ok) : (s.modQueue n f).Ok := h
theorem State.Ok.modPeer {n : Nat} {f : Peer → Peer} (h : s.Ok) : (s.modPeer n f).Ok := h
theorem State.Ok.modLaunch {n : Nat} {f : Launch → Launch} (h : s.Ok) : (s.modLaunch n f).Ok := h
/-- A change of the firmware that leaves the incoming image. -/
theorem State.Ok.modFirmware {f : Firmware → Firmware} (h : s.Ok) (hf : (f s.firmware).image = s.firmware.image) :
    (s.modFirmware f).Ok := State.memoriesOk_congr h rfl rfl rfl rfl rfl hf
/-- What is no memory may change. -/
theorem State.Ok.update
    {cur agenda cycle freeCtr nextNum dies owners net replies ops msgs meets arrivals corners exchange replay invs
    stas parts launches queues budgets period peers outbox dramStacks scrub reencode ports unitLines}
    {f : Firmware} (h : s.Ok) (hf : f.image = s.firmware.image := by rfl) :
    ({ s with cur := cur, agenda := agenda, cycle := cycle, freeCtr := freeCtr, nextNum := nextNum, dies := dies,
              owners := owners, net := net, replies := replies, ops := ops, msgs := msgs, meets := meets,
              arrivals := arrivals, corners := corners, exchange := exchange, replay := replay, invs := invs,
              stas := stas, parts := parts, launches := launches, queues := queues, budgets := budgets,
              period := period, peers := peers, outbox := outbox, dramStacks := dramStacks, scrub := scrub,
              reencode := reencode, ports := ports, unitLines := unitLines, firmware := f } : State).Ok :=
  State.memoriesOk_congr h rfl rfl rfl rfl rfl hf
/-- A change of the poisoned lines of main memory. -/
theorem State.Ok.markDram {n : Nat} {bad : Bool} (h : s.Ok) :
    ({ s with dramBad := Tab.set false s.dramBad n bad } : State).Ok := by
  obtain ⟨h1, h2, h3⟩ := (State.memoriesOk_iff s).mp h
  exact (State.memoriesOk_iff _).mpr ⟨h1, Tab.rising_set _ _ h2 (Nat.zero_le _), h3⟩
theorem State.Ok.freeWord (h : s.Ok) : s.freeWord.2.Ok := h
theorem State.Ok.freeBool (h : s.Ok) : s.freeBool.2.Ok := h
theorem State.Ok.count {kind index : Nat} (h : s.Ok) : (s.count kind index).Ok := h.modFirmware rfl
theorem State.Ok.setStore {p : Home} {m : Store} (h : s.Ok) (hm : m.Ok) : (s.setStore p m).Ok :=
  State.memoriesOk_setStore p m h hm
theorem State.Ok.fireMonitors {p : Home} (h : s.Ok) : (s.fireMonitors p).Ok := State.memoriesOk_fireMonitors p h
theorem State.Ok.actChip {p : Home} {offs : List Nat} {a : Act} {bad : Bool} {rel : Option Release} (h : s.Ok) :
    (s.actChip p offs a bad rel).1.Ok := State.memoriesOk_actChip p offs a bad rel h
theorem State.Ok.actDram {odi pa : Nat} {a : Act} {bad : Bool} {rel : Option Release} (h : s.Ok) :
    (s.actDram odi pa a bad rel).1.Ok := State.memoriesOk_actDram odi pa a bad rel h
theorem State.Ok.writeTables {writes : List (Nat × Word)} (h : s.Ok) : (s.writeTables writes).Ok :=
  State.memoriesOk_writeTables writes h
theorem State.Ok.handGranule {odi g : Nat} (h : s.Ok) : (s.handGranule odi g).Ok := State.memoriesOk_handGranule odi g h
theorem Core.Ok.restore {k : Core} (h : k.Ok) : k.restore.Ok := Core.memoryOk_restore h
theorem Core.Ok.takeBack {k : Core} (h : k.Ok) : k.takeBack.Ok := Core.memoryOk_takeBack h
theorem Cluster.Ok.restore {k : Cluster} (h : k.Ok) : k.restore.Ok := Cluster.memoryOk_restore h
theorem Store.Ok.update {m : Store} {tiles : Tab TileEntry} (h : m.Ok) : ({ m with tiles := tiles } : Store).Ok := h
theorem Store.Ok.filter {m : Store} {p : Host.Cell → Bool} (h : m.Ok) :
    ({ m with bytes := m.bytes.filter p } : Store).Ok := Store.ok_filter p h
theorem Store.Ok.restore {m : Store} {undo : List (Nat × (List Byte × List Bool))} (h : m.Ok) : (m.restore undo).Ok :=
  Store.ok_restore undo h
theorem Store.Ok.save {m : Store} {offs : List Nat} {data : List Byte} {poison : Bool} {rel : Option Release}
    (h : m.Ok) : (m.save offs data poison rel).Ok := Store.ok_save offs data poison rel h
theorem Store.Ok.poisonWord {m : Store} {o : Nat} (h : m.Ok) : (m.poisonWord o).Ok := Store.ok_poisonWord o h
end

end Sys2Proof.Machine
end

section
/-! O60: registers, contexts, gangs, tasks and translation (Machine/Ops, Access). -/
namespace Sys2Proof.Machine
-- One proof after the other: side by side they hold more memory than a compile of the whole text may take.
set_option Elab.async false

section
variable {s : State} {k : Core} {m : Store}

theorem State.Ok.writeG {n bits poison} (h : s.Ok) : (s.writeG n bits poison).Ok :=
  h.modMe
theorem State.Ok.writeV {n v} (h : s.Ok) : (s.writeV n v).Ok :=
  h.modMe
theorem State.Ok.chkEvent {c x life era bit} (h : s.Ok) : (s.chkEvent c x life era bit).Ok :=
  .ite h.count (.ite h.modCtx (.modCore h fun _ h' => h'))
theorem State.Ok.gotoCtx {c x next} (h : s.Ok) : (s.gotoCtx c x next).Ok :=
  h.modCtx
theorem Core.Ok.startHelper {n pc regs q0} (h : k.Ok) : (k.startHelper n pc regs q0).Ok :=
  h.modCtx
theorem Core.Ok.dropHelper {n} (h : k.Ok) : (k.dropHelper n).Ok :=
  h.modCtx.update

theorem Core.Ok.oldestHeld {r : Holding × Nat × Core} (e : k.oldestHeld = some r) (h : k.Ok) : r.2.2.Ok := by
  unfold Core.oldestHeld at e
  split at e <;> split at e <;> try split at e
  all_goals cases e
  all_goals exact h

theorem Core.Ok.endHelper {n} (h : k.Ok) : (k.endHelper n).Ok := by
  unfold Core.endHelper
  dsimp only
  split
  next e => exact .startHelper (.oldestHeld e (.update (h.dropHelper (n := n))))
  · exact .update h.dropHelper

theorem State.Ok.uncouple {members} (h : s.Ok) : (s.uncouple members).Ok :=
  .foldl h fun _ _ h' => .modCore h' fun _ h' => h'
theorem Core.Ok.backToLoop (h : k.Ok) : (k.backToLoop).Ok :=
  .update (.modCtx (.foldl h fun _ _ h' => .ite h'.dropHelper h'))
theorem State.Ok.restoreCluster {c} (h : s.Ok) : (s.restoreCluster c).Ok :=
  .ite (.modCluster h fun _ h' => h'.restore) h
theorem Core.Ok.stop (h : k.Ok) : (k.stop).Ok :=
  h.restore.backToLoop.update

theorem State.Ok.unpark {c x} (h : s.Ok) : (s.unpark c x).Ok := by
  unfold State.unpark
  split
  · exact .modCluster h fun _ h' => h'
  · exact .modCluster h fun _ h' => h'
  · exact h

theorem State.Ok.unparkAll {c} (h : s.Ok) : (s.unparkAll c).Ok :=
  .foldl h fun _ _ h' => h'.unpark
theorem State.Ok.dropDrive {c} (h : s.Ok) : (s.dropDrive c).Ok :=
  h
theorem State.Ok.stopTask {c} (h : s.Ok) : (s.stopTask c).Ok :=
  .foldl h.uncouple fun _ _ h' => .modCore h'.restoreCluster.unparkAll.dropDrive fun _ h' => h'.stop

theorem Core.Ok.queueRedelivery {classes killed} (h : k.Ok) : (k.queueRedelivery classes killed).Ok := by
  unfold Core.queueRedelivery
  dsimp only
  split
  · exact h.restore.update
  · exact h.restore

theorem Core.Ok.sealInbox (h : k.Ok) : (k.sealInbox).Ok :=
  h.queueRedelivery.update
theorem State.Ok.clearClasses {c classes} (h : s.Ok) : (s.clearClasses c classes).Ok :=
  .foldl (.modCore h fun _ h' => h') fun _ _ h' => .modCore h' fun _ h' => h'
theorem State.Ok.writeFence {c classes killed cause} (h : s.Ok) : (s.writeFence c classes killed cause).Ok :=
  .modFirmware h rfl
theorem State.Ok.fence {c classes cause} (h : s.Ok) : (s.fence c classes cause).Ok :=
  .ite h h.clearClasses.writeFence
theorem State.Ok.notify {dst w0 w1} (h : s.Ok) : (s.notify dst w0 w1).Ok :=
  h
theorem State.Ok.notifyKill {dst killed tsk cause} (h : s.Ok) : (s.notifyKill dst killed tsk cause).Ok :=
  .ite h (.notify (.modCore h fun _ h' => h'))

theorem State.Ok.killCore {c cause} (h : s.Ok) : (s.killCore c cause).Ok :=
  .foldl (.count (.writeFence (.update (.modCore (.stopTask (.foldl (.foldl (.modCore
      (.foldl h fun _ _ h' => h'.count) fun _ h' => h'.sealInbox) fun _ _ h' => .modCore h'
      fun _ h' => h'.queueRedelivery) fun _ _ h' => h'.stopTask)) fun _ h' => h')))) fun _ _ h' => h'.notifyKill

theorem Store.Ok.putBack {b} (h : m.Ok) : (m.putBack b).Ok := Store.ok_putBack b h
theorem Core.Ok.enterHandler {ctx cause sub tval tpc tret} (h : k.Ok) :
    (k.enterHandler ctx cause sub tval tpc tret).Ok :=
  h.modCtx.update
theorem State.Ok.controlTrap {c cause sub tval len} (h : s.Ok) : (s.controlTrap c cause sub tval len).Ok :=
  .ite h.killCore (.modCore h.unpark.dropDrive fun _ h' => h'.enterHandler)
theorem State.Ok.laterTrap {c cause sub tval len} (h : s.Ok) : (s.laterTrap c cause sub tval len).Ok :=
  .ite (.modCore h fun _ h' => h') h.controlTrap

theorem State.Ok.takeDue {c} (h : s.Ok) : (s.takeDue c).Ok := by
  unfold State.takeDue
  split
  · exact .ite h (.controlTrap (.modCore h fun _ h' => h'))
  · exact h

theorem State.Ok.disbandBut {c spared} (h : s.Ok) : (s.disbandBut c spared).Ok := by
  unfold State.disbandBut
  split
  · exact h
  · exact .foldl (.foldl h fun _ _ h' => .modCore h' fun _ h' => h') fun _ _ h' => h'.laterTrap

theorem State.Ok.disband {c} (h : s.Ok) : (s.disband c).Ok :=
  h.disbandBut
theorem State.Ok.trapCtx {c x cause sub tval len} (h : s.Ok) : (s.trapCtx c x cause sub tval len).Ok :=
  .ite (.laterTrap (.disband (.ite h.count (.ite h.count h)))) (.modCore (.unpark (.ite h.count (.ite h.count h)))
      fun _ h' => h'.modCtx.update)
theorem State.Ok.trap {cause sub tval len} (h : s.Ok) : (s.trap cause sub tval len).Ok :=
  h.trapCtx

theorem State.Ok.deliverTrap {c n tret} (h : s.Ok) : (s.deliverTrap c n tret).Ok := by
  unfold State.deliverTrap
  split
  · exact h
  · exact .ite h.killCore (.modCore h.unpark.dropDrive fun _ h' => h'.enterHandler.update)

theorem State.Ok.requestWalk {c x va kind} (h : s.Ok) : (s.requestWalk c x va kind).Ok :=
  .ite h h.modDie
theorem State.Ok.awaitWalk {va kind} (h : s.Ok) : (s.awaitWalk va kind).Ok :=
  .ite h.requestWalk h.requestWalk.modMe
theorem State.Ok.noteBad {die line} (h : s.Ok) : (s.noteBad die line).Ok :=
  h.modDie.count

theorem State.Ok.walkFailed {die space w} (h : s.Ok) : (s.walkFailed die space w).Ok := by
  unfold State.walkFailed
  refine .ite h ?_
  split
  · exact h.noteBad
  · exact h

theorem State.Ok.addPending {c bs n} (h : s.Ok) : (s.addPending c bs n).Ok :=
  .ite h (.modCore h fun _ h' => h')
theorem State.Ok.subPending {c bs n} (h : s.Ok) : (s.subPending c bs n).Ok :=
  .ite h (.modCore h fun _ h' => h')
theorem State.Ok.arriveAt {p rank} (h : s.Ok) : (s.arriveAt p rank).Ok :=
  h

theorem State.Ok.withRow {activity consumer} (h : s.Ok) : (s.withRow activity consumer).Ok := by
  unfold State.withRow
  refine .ite h ?_
  split
  · exact h
  · exact h

theorem State.Ok.spend {activity consumer n} (h : s.Ok) : (s.spend activity consumer n).Ok :=
  h.withRow.update
theorem State.Ok.budgetStall {activity consumer} (h : s.Ok) : (s.budgetStall activity consumer).Ok :=
  h.withRow.update

theorem State.Ok.spendPacket {c home isLocal back n} (h : s.Ok) : (s.spendPacket c home isLocal back n).Ok := by
  unfold State.spendPacket
  dsimp only
  split
  · refine .spend ?_
    split
    · exact h.spend
    · exact h
  · split
    · exact h.spend
    · exact h

end
end Sys2Proof.Machine
end

section
/-! O60: issue and what a home performs (Machine/Issue, Arith, Home). -/
namespace Sys2Proof.Machine
-- One proof after the other: side by side they hold more memory than a compile of the whole text may take.
set_option Elab.async false

section
variable {s : State} {k : Core} {m : Store}

theorem State.Ok.retirePair {c x pc regs values cls} (h : s.Ok) : (s.retirePair c x pc regs values cls).Ok := by
  unfold State.retirePair
  split
  · exact h
  · exact .ite h (.modCore h fun _ h' => .ite (.modCtx h') h')

theorem State.Ok.leave {next} (h : s.Ok) : (s.leave next).Ok :=
  h.modMe.gotoCtx
theorem State.Ok.notePoison {p} (h : s.Ok) : (s.notePoison p).Ok :=
  .ite h.modMe h
theorem State.Ok.trapDrained {cause sub tval len} (h : s.Ok) : (s.trapDrained cause sub tval len).Ok :=
  .ite h.trap h

theorem OutcomeOk.issue {i : Instr} {body : Bool → State → Res} (h : s.Ok) (hb : ∀ p, (body p s).Ok) :
    OutcomeOk (issue i s body) := by
  unfold Machine.issue
  refine .ite h (.ite h.modMe ?_)
  split
  next f _ => exact h.trapDrained
  next =>
    have hr := hb (poisonedSource i s)
    dsimp only
    split
    all_goals rename_i e; rw [e] at hr
    · exact State.Ok.retirePair (.leave (.notePoison hr))
    · exact State.Ok.retirePair (.leave (.notePoison hr))
    · exact hr
    · exact h.trapDrained
    · exact State.Ok.modMe hr
    · exact hr
    · exact h.modMe

theorem State.Ok.finish {c x regs old} (h : s.Ok) : (s.finish c x regs old).Ok :=
  h.modCtx.gotoCtx.retirePair
theorem OutcomeOk.whenDue {due : Bool} {t : State} (h : s.Ok) (ht : t.Ok) : OutcomeOk (whenDue due s t) :=
  State.Ok.ite ht h
theorem State.Ok.writeLanes {d ty p extra f} (h : s.Ok) : (s.writeLanes d ty p extra f).Ok :=
  h.modMe
theorem State.Ok.writeAll {d ty p f} (h : s.Ok) : (s.writeAll d ty p f).Ok :=
  h.writeV

theorem Res.Ok.arith2 {p accept unsigned d t a u b onLane onWord} (h : s.Ok) :
    (s.arith2 p accept unsigned d t a u b onLane onWord).Ok := by
  unfold State.arith2
  split
  · exact .done h.writeG
  · exact .ite .trap (.done h.writeLanes)

theorem Res.Ok.bitwise {p d t a u b onLane onWord} (h : s.Ok) : (s.bitwise p d t a u b onLane onWord).Ok := by
  unfold State.bitwise
  split
  · exact .done h.writeG
  · exact .ite .trap (.done h.writeLanes)

theorem Res.Ok.arith1 {p accept d t a onLane onWord} (h : s.Ok) : (s.arith1 p accept d t a onLane onWord).Ok :=
  .ite (.ite (.done h.writeLanes) .trap) (.done h.writeG)
theorem Res.Ok.special {p d a f} (h : s.Ok) : (s.special p d a f).Ok :=
  .ite (.done h.writeLanes) .trap
theorem Res.Ok.doAdd {p d t a u b} (h : s.Ok) : (s.doAdd p d t a u b).Ok :=
  .arith2 h
theorem Res.Ok.doSub {p d t a u b} (h : s.Ok) : (s.doSub p d t a u b).Ok :=
  .arith2 h
theorem Res.Ok.doMul {p d t a u b} (h : s.Ok) : (s.doMul p d t a u b).Ok :=
  .arith2 h
theorem Res.Ok.doAnd {p d t a u b} (h : s.Ok) : (s.doAnd p d t a u b).Ok :=
  .bitwise h
theorem Res.Ok.doOr {p d t a u b} (h : s.Ok) : (s.doOr p d t a u b).Ok :=
  .bitwise h
theorem Res.Ok.doXor {p d t a u b} (h : s.Ok) : (s.doXor p d t a u b).Ok :=
  .bitwise h
theorem Res.Ok.doShift {p op d t a u b} (h : s.Ok) : (s.doShift p op d t a u b).Ok :=
  .arith2 h
theorem Res.Ok.doMov {p d t a} (h : s.Ok) : (s.doMov p d t a).Ok :=
  .arith1 h
theorem Res.Ok.doAddi {p d a i} (h : s.Ok) : (s.doAddi p d a i).Ok :=
  .done h.writeG
theorem Res.Ok.doLit {d i} (h : s.Ok) : (s.doLit d i).Ok :=
  .done h.writeG

theorem Res.Ok.doFma {p minus d t a u b} (h : s.Ok) : (s.doFma p minus d t a u b).Ok := by
  unfold State.doFma
  split
  · exact .done h.writeG
  · exact .ite .trap (.done h.writeLanes)

theorem Res.Ok.doCompare {p r d t a u b} (h : s.Ok) : (s.doCompare p r d t a u b).Ok := by
  unfold State.doCompare
  split
  · exact .done h.writeG
  · exact .ite .trap (.done h.modMe)

theorem Res.Ok.doReduce {p accept d a op identity} (h : s.Ok) : (s.doReduce p accept d a op identity).Ok :=
  .ite .trap (.done h.modMe)
theorem OutcomeOk.execAdd {d t a u b} (h : s.Ok) : OutcomeOk (execAdd d t a u b s) :=
  .issue h fun _ => .doAdd h
theorem OutcomeOk.execAddG16 {d a} (h : s.Ok) : OutcomeOk (execAddG16 d a s) :=
  .issue h fun _ => .doAdd h
theorem OutcomeOk.execAddV16 {d a} (h : s.Ok) : OutcomeOk (execAddV16 d a s) :=
  .issue h fun _ => .doAdd h
theorem OutcomeOk.execSub {d t a u b} (h : s.Ok) : OutcomeOk (execSub d t a u b s) :=
  .issue h fun _ => .doSub h
theorem OutcomeOk.execSubG16 {d a} (h : s.Ok) : OutcomeOk (execSubG16 d a s) :=
  .issue h fun _ => .doSub h
theorem OutcomeOk.execMul {d t a u b} (h : s.Ok) : OutcomeOk (execMul d t a u b s) :=
  .issue h fun _ => .doMul h
theorem OutcomeOk.execMulV16 {d a} (h : s.Ok) : OutcomeOk (execMulV16 d a s) :=
  .issue h fun _ => .doMul h
theorem OutcomeOk.execMulh {d t a u b} (h : s.Ok) : OutcomeOk (execMulh d t a u b s) :=
  .issue h fun _ => .arith2 h
theorem OutcomeOk.execFma {d t a u b} (h : s.Ok) : OutcomeOk (execFma d t a u b s) :=
  .issue h fun _ => .doFma h
theorem OutcomeOk.execFms {d t a u b} (h : s.Ok) : OutcomeOk (execFms d t a u b s) :=
  .issue h fun _ => .doFma h
theorem OutcomeOk.execAddi {d a i} (h : s.Ok) : OutcomeOk (execAddi d a i s) :=
  .issue h fun _ => .doAddi h
theorem OutcomeOk.execAddiG16 {d i} (h : s.Ok) : OutcomeOk (execAddiG16 d i s) :=
  .issue h fun _ => .doAddi h
theorem OutcomeOk.execAnd {d t a u b} (h : s.Ok) : OutcomeOk (execAnd d t a u b s) :=
  .issue h fun _ => .doAnd h
theorem OutcomeOk.execAndG16 {d a} (h : s.Ok) : OutcomeOk (execAndG16 d a s) :=
  .issue h fun _ => .doAnd h
theorem OutcomeOk.execOr {d t a u b} (h : s.Ok) : OutcomeOk (execOr d t a u b s) :=
  .issue h fun _ => .doOr h
theorem OutcomeOk.execOrG16 {d a} (h : s.Ok) : OutcomeOk (execOrG16 d a s) :=
  .issue h fun _ => .doOr h
theorem OutcomeOk.execXor {d t a u b} (h : s.Ok) : OutcomeOk (execXor d t a u b s) :=
  .issue h fun _ => .doXor h
theorem OutcomeOk.execXorG16 {d a} (h : s.Ok) : OutcomeOk (execXorG16 d a s) :=
  .issue h fun _ => .doXor h
theorem OutcomeOk.execAndn {d t a u b} (h : s.Ok) : OutcomeOk (execAndn d t a u b s) :=
  .issue h fun _ => .bitwise h
theorem OutcomeOk.execAndi {d a i} (h : s.Ok) : OutcomeOk (execAndi d a i s) :=
  .issue h fun _ => .done h.writeG
theorem OutcomeOk.execLit {d i} (h : s.Ok) : OutcomeOk (execLit d i s) :=
  .issue h fun _ => .doLit h
theorem OutcomeOk.execLitG16 {d i} (h : s.Ok) : OutcomeOk (execLitG16 d i s) :=
  .issue h fun _ => .doLit h
theorem OutcomeOk.execLith {d i} (h : s.Ok) : OutcomeOk (execLith d i s) :=
  .issue h fun _ => .done h.writeG
theorem OutcomeOk.execMov {d t a} (h : s.Ok) : OutcomeOk (execMov d t a s) :=
  .issue h fun _ => .doMov h
theorem OutcomeOk.execMovG16 {d a} (h : s.Ok) : OutcomeOk (execMovG16 d a s) :=
  .issue h fun _ => .doMov h
theorem OutcomeOk.execMovV16 {d a} (h : s.Ok) : OutcomeOk (execMovV16 d a s) :=
  .issue h fun _ => .doMov h
theorem OutcomeOk.execShl {d t a u b} (h : s.Ok) : OutcomeOk (execShl d t a u b s) :=
  .issue h fun _ => .doShift h
theorem OutcomeOk.execShlG16 {d i} (h : s.Ok) : OutcomeOk (execShlG16 d i s) :=
  .issue h fun _ => .doShift h
theorem OutcomeOk.execShr {d t a u b} (h : s.Ok) : OutcomeOk (execShr d t a u b s) :=
  .issue h fun _ => .doShift h
theorem OutcomeOk.execShrG16 {d i} (h : s.Ok) : OutcomeOk (execShrG16 d i s) :=
  .issue h fun _ => .doShift h
theorem OutcomeOk.execSar {d t a u b} (h : s.Ok) : OutcomeOk (execSar d t a u b s) :=
  .issue h fun _ => .doShift h
theorem OutcomeOk.execRot {d t a u b} (h : s.Ok) : OutcomeOk (execRot d t a u b s) :=
  .issue h fun _ => .doShift h
theorem OutcomeOk.execClz {d t a} (h : s.Ok) : OutcomeOk (execClz d t a s) :=
  .issue h fun _ => .arith1 h
theorem OutcomeOk.execFfs {d t a} (h : s.Ok) : OutcomeOk (execFfs d t a s) :=
  .issue h fun _ => .arith1 h
theorem OutcomeOk.execPopc {d t a} (h : s.Ok) : OutcomeOk (execPopc d t a s) :=
  .issue h fun _ => .arith1 h
theorem OutcomeOk.execBrev {d t a} (h : s.Ok) : OutcomeOk (execBrev d t a s) :=
  .issue h fun _ => .arith1 h
theorem OutcomeOk.execMin {d t a u b} (h : s.Ok) : OutcomeOk (execMin d t a u b s) :=
  .issue h fun _ => .arith2 h
theorem OutcomeOk.execMax {d t a u b} (h : s.Ok) : OutcomeOk (execMax d t a u b s) :=
  .issue h fun _ => .arith2 h
theorem OutcomeOk.execAbsd {d t a u b} (h : s.Ok) : OutcomeOk (execAbsd d t a u b s) :=
  .issue h fun _ => .arith2 h
theorem OutcomeOk.execNeg {d t a} (h : s.Ok) : OutcomeOk (execNeg d t a s) :=
  .issue h fun _ => .arith1 h
theorem OutcomeOk.execCeq {d t a u b} (h : s.Ok) : OutcomeOk (execCeq d t a u b s) :=
  .issue h fun _ => .doCompare h
theorem OutcomeOk.execCne {d t a u b} (h : s.Ok) : OutcomeOk (execCne d t a u b s) :=
  .issue h fun _ => .doCompare h
theorem OutcomeOk.execClt {d t a u b} (h : s.Ok) : OutcomeOk (execClt d t a u b s) :=
  .issue h fun _ => .doCompare h
theorem OutcomeOk.execCle {d t a u b} (h : s.Ok) : OutcomeOk (execCle d t a u b s) :=
  .issue h fun _ => .doCompare h
theorem OutcomeOk.execDiv {d t a u b} (h : s.Ok) : OutcomeOk (execDiv d t a u b s) :=
  .issue h fun _ => .arith2 h
theorem OutcomeOk.execRem {d t a u b} (h : s.Ok) : OutcomeOk (execRem d t a u b s) :=
  .issue h fun _ => .arith2 h
theorem OutcomeOk.execSqrt {d a} (h : s.Ok) : OutcomeOk (execSqrt d a s) :=
  .issue h fun _ => .special h
theorem OutcomeOk.execRsq {d a} (h : s.Ok) : OutcomeOk (execRsq d a s) :=
  .issue h fun _ => .special h
theorem OutcomeOk.execExp2 {d a} (h : s.Ok) : OutcomeOk (execExp2 d a s) :=
  .issue h fun _ => .special h
theorem OutcomeOk.execLog2 {d a} (h : s.Ok) : OutcomeOk (execLog2 d a s) :=
  .issue h fun _ => .special h
theorem OutcomeOk.execRcp {d a} (h : s.Ok) : OutcomeOk (execRcp d a s) :=
  .issue h fun _ => .special h
theorem OutcomeOk.execTanh {d a} (h : s.Ok) : OutcomeOk (execTanh d a s) :=
  .issue h fun _ => .special h
theorem OutcomeOk.execDot {d a b} (h : s.Ok) : OutcomeOk (execDot d a b s) :=
  .issue h fun _ => .ite .trap (.done h.writeLanes)
theorem OutcomeOk.execScale {d a u b} (h : s.Ok) : OutcomeOk (execScale d a u b s) :=
  .issue h fun _ => .ite .trap (.special h)
theorem OutcomeOk.execRsum {d a} (h : s.Ok) : OutcomeOk (execRsum d a s) :=
  .issue h fun _ => .doReduce h
theorem OutcomeOk.execRmax {d a} (h : s.Ok) : OutcomeOk (execRmax d a s) :=
  .issue h fun _ => .doReduce h
theorem OutcomeOk.execRmin {d a} (h : s.Ok) : OutcomeOk (execRmin d a s) :=
  .issue h fun _ => .doReduce h
theorem OutcomeOk.execRor {d a} (h : s.Ok) : OutcomeOk (execRor d a s) :=
  .issue h fun _ => .doReduce h
theorem State.Ok.takeSlots {kind id links} (h : s.Ok) : (s.takeSlots kind id links).Ok :=
  h
theorem State.Ok.leaveSlots {kind id} (h : s.Ok) : (s.leaveSlots kind id).Ok :=
  h
theorem State.Ok.answerWith {p a data poison r} (h : s.Ok) : (s.answerWith p a data poison r).Ok :=
  .takeSlots h
theorem State.Ok.answer {p a data poison r} (h : s.Ok) : (s.answer p a data poison r).Ok :=
  h.answerWith
theorem State.Ok.endWatch {p w} (h : s.Ok) : (s.endWatch p w).Ok :=
  .answer h
theorem State.Ok.countDropped {a p} (h : s.Ok) : (s.countDropped a p).Ok :=
  h.count
theorem State.Ok.countMismatch {a p} (h : s.Ok) : (s.countMismatch a p).Ok :=
  h.count
theorem State.Ok.returnWatch {p w} (h : s.Ok) : (s.returnWatch p w).Ok :=
  .endWatch (.ite h.countMismatch h)
theorem State.Ok.arm {p timeout} (h : s.Ok) : (s.arm p timeout).Ok :=
  h
theorem State.Ok.traceAt {src loc} (h : s.Ok) : (s.traceAt src loc).Ok :=
  .ite h (.ite (.modCore h fun _ h' => h') (.modCluster h fun _ h' => h'))

theorem State.Ok.traceStore {p} (h : s.Ok) : (s.traceStore p).Ok := by
  unfold State.traceStore
  split
  · exact .ite h h.traceAt
  · exact h

theorem State.Ok.perform {p} (h : s.Ok) : (s.perform p).Ok := by
  unfold State.perform
  split
  · exact h
  · split
    · split
      · exact .ite h.returnWatch h.arm
      · exact .answer (.countDropped h)
    · exact .answer (.actDram h)
  · refine .ite (.answer (.ite h (.notifyKill h))) (.ite (.answer (.ite (.countDropped h) h)) ?_)
    split
    · exact .answer (.countDropped h)
    · split
      · split
        · exact .ite h.endWatch h.arm
        · exact .answer (.countDropped h)
      · exact .answer (.actChip (.traceStore h))

end
end Sys2Proof.Machine
end

section
/-! O60: sending, memory instructions and what units read and write (Machine/Send, Memory, Units). -/
namespace Sys2Proof.Machine
-- One proof after the other: side by side they hold more memory than a compile of the whole text may take.
set_option Elab.async false

section
variable {s : State} {k : Core} {m : Store}

theorem Res.Ok.ordered {order scope k'} (h : s.Ok) (hk' : ∀ x y z, x.Ok → (k' x y z).Ok) :
    (s.ordered order scope k').Ok :=
  .ite (.stall h) (hk' _ _ _ h.modMe)

theorem State.Ok.noteRelease {c x load acq rel} (h : s.Ok) : (s.noteRelease c x load acq rel).Ok := by
  unfold State.noteRelease
  split
  · exact h
  · exact h.modCtx

theorem State.Ok.notePassed {c x load acq r} (h : s.Ok) : (s.notePassed c x load acq r).Ok :=
  .foldl h fun _ _ h' => h'.noteRelease
theorem State.Ok.cutOff {p} (h : s.Ok) : (s.cutOff p).Ok :=
  .ite (.answer h) (.answer (.count h))

theorem State.Ok.cutIsolated {p} (h : s.Ok) : (s.cutIsolated p).Ok := by
  unfold State.cutIsolated
  split
  · exact .ite h.cutOff h
  · exact h

theorem State.Ok.launchPacket {p} (h : s.Ok) : (s.launchPacket p).Ok := by
  unfold State.launchPacket
  refine .cutIsolated (.spendPacket (.addPending (.takeSlots (.update ?_))))
  split
  · refine .modCore ?_ fun _ h' => h'
    split
    · exact .ite h h.modPeer
    · exact h
  · split
    · exact .ite h h.modPeer
    · exact h

theorem State.Ok.launchMeet {m} (h : s.Ok) : (s.launchMeet m).Ok :=
  .spendPacket (.addPending (.takeSlots h))
theorem State.Ok.sendMeet {m} (h : s.Ok) : (s.sendMeet m).Ok :=
  .launchMeet h
theorem State.Ok.launchMsg {m} (h : s.Ok) : (s.launchMsg m).Ok :=
  .spendPacket (.takeSlots h)
theorem State.Ok.sendMsg {m} (h : s.Ok) : (s.sendMsg m).Ok :=
  .launchMsg h

theorem SomeOk.sendPosted {p} (h : s.Ok) : SomeOk (s.sendPosted p) := by
  unfold State.sendPosted
  split
  · exact .some h.launchPacket
  · exact .ite (.some h.launchPacket) (.ite .none (.some (.modHere h fun _ h' => h')))

theorem State.Ok.recordStore {w data} (h : s.Ok) : (s.recordStore w data).Ok :=
  .modHere h fun _ h' => h'

theorem SomeOk.logUndo {offs} (h : s.Ok) : SomeOk (s.logUndo offs) := by
  unfold State.logUndo
  split
  · exact .some h
  · exact .ite .none (.some (.modHere h fun _ h' => h'))

theorem SomeOk.post {w pl a bad order scope group whole} (h : s.Ok) :
    SomeOk (s.post w pl a bad order scope group whole) := by
  unfold State.post
  refine .ite (.ite .none (.map (.logUndo ?_) fun _ h' => h'.actChip)) (.sendPosted ?_)
  · split
    · exact h.recordStore
    · exact h.recordStore
    · exact h.recordStore
    · exact h
  · split
    · exact h.recordStore
    · exact h.recordStore
    · exact h.recordStore
    · exact h

theorem Res.Ok.ofPost {r} (hr : SomeOk r) : (Res.ofPost r).Ok := by
  cases r with
  | none => trivial
  | some s => exact hr

theorem Res.Ok.locate {w size align want k'} (h : s.Ok) (hk' : ∀ x, (k' x).Ok) :
    (s.locate w size align want k').Ok := by
  unfold State.locate
  split
  · exact .trap
  · exact .wait h.awaitWalk
  · refine .ite (.stall h) ?_
    split
    · exact .stall h.budgetStall
    · exact hk' _

theorem Res.Ok.injecting {k'} (h : s.Ok) (hk' : k'.Ok) : (s.injecting k').Ok := by
  unfold State.injecting
  split
  · exact .stall h.budgetStall
  · exact hk'

theorem Core.Ok.addLine {l} (h : k.Ok) : (k.addLine l).Ok :=
  .ite h h

theorem State.Ok.deliver {o} (h : s.Ok) : (s.deliver o).Ok := by
  unfold State.deliver
  split
  · exact h
  · exact h.modCtx
  · exact h.modCtx
  · exact h.modCtx
  · exact h.modCtx
  · exact h.modCtx
  · exact .modCore h fun _ h' => h'.addLine
  · exact h.modCtx
  · exact h
  · exact h
  · exact h
  · exact .modCore h fun _ h' => h'

theorem Res.Ok.ask {reqs dest acq order scope bad hold taint waita} (h : s.Ok) :
    (s.ask reqs dest acq order scope bad hold taint waita).Ok := by
  unfold State.ask
  extract_lets _ _ _ _ _ _ proto _ performed
  refine .ite .interval ?_
  split
  · exact .interval
  next e =>
    extract_lets now near _ _ _ send
    have hn : near.Ok := .foldl_fst (.of_some e (.logUndo h)) fun _ _ ht => ht.actChip.noteRelease
    have hperf {t : State} (ht : t.Ok) : (performed t).Ok := by
      dsimp only [performed]
      refine .ite ?_ ht
      split
      exacts [ht.perform, ht]
    refine .ite (.done hn.deliver) ?_
    have hs {op : Op} : (send op).Ok := hperf (hn.update.foldl fun _ _ ht => ht.launchPacket)
    clear_value send now near
    split
    · refine .ite (.wait hs.modMe) ?_
      split
      · exact .stall hn
      · have hp {f : Core → Core} (hf : ∀ k : Core, k.Ok → (f k).Ok) : (near.modHere f).Ok := hn.modHere hf
        split
        · exact .gone (.trap (hp fun _ hk => hk))
        · exact .done (.deliver (.notePassed (hp fun _ hk => hk)))
    · exact .ite (.wait hs.modMe) (.done hs.modMe)

theorem Res.Ok.loadAt {w pl size dest taint} (h : s.Ok) : (s.loadAt w pl size dest taint).Ok :=
  .ask h

theorem State.Ok.passOn {c x bytes poison read} (h : s.Ok) : (s.passOn c x bytes poison read).Ok := by
  unfold State.passOn
  split
  · exact .ite h (.modCore h fun _ h' => h')
  · exact h

theorem SomeOk.takePassed (h : s.Ok) : SomeOk (s.takePassed.map Prod.snd) := by
  unfold State.takePassed
  split
  · split
    · exact .modHere h fun _ hk => hk
    · trivial
  · trivial

theorem SomeOk.takeOver (h : s.Ok) : SomeOk (s.takeOver.map Prod.snd) := by
  unfold State.takeOver
  rw [Option.map_map]
  exact SomeOk.takePassed h

theorem SomeOk.hold {p} (h : s.Ok) : SomeOk (s.hold p) := by
  unfold State.hold
  dsimp only
  split
  · exact .ite .none (.some (.modHere h fun _ h' => h'))
  · exact .some h

theorem SomeOk.holdPackets {ps} (h : s.Ok) : SomeOk (s.holdPackets ps) :=
  .hold h
theorem Res.Ok.doLd {p d b c o} (h : s.Ok) : (s.doLd p d b c o).Ok :=
  .locate h fun _ => .loadAt h
theorem Res.Ok.doSt {d b c o} (h : s.Ok) : (s.doSt d b c o).Ok :=
  .locate h fun _ => .ordered h fun _ _ _ h' => .ofPost (.post h')
theorem OutcomeOk.execLd {d b c o} (h : s.Ok) : OutcomeOk (execLd d b c o s) :=
  .issue h fun _ => .doLd h
theorem OutcomeOk.execLdG16 {d b} (h : s.Ok) : OutcomeOk (execLdG16 d b s) :=
  .issue h fun _ => .doLd h
theorem OutcomeOk.execSt {d b c o} (h : s.Ok) : OutcomeOk (execSt d b c o s) :=
  .issue h fun _ => .doSt h
theorem OutcomeOk.execStG16 {d b} (h : s.Ok) : OutcomeOk (execStG16 d b s) :=
  .issue h fun _ => .doSt h
theorem OutcomeOk.execVld {d b c o} (h : s.Ok) : OutcomeOk (execVld d b c o s) :=
  .issue h fun _ => .ite .trap (.locate h fun _ => .loadAt h)
theorem OutcomeOk.execVst {d b c o} (h : s.Ok) : OutcomeOk (execVst d b c o s) :=
  .issue h fun _ => .ite .trap (.locate h fun _ => .ordered h fun _ _ _ h' => .ofPost (.post h'))

theorem Res.Ok.locateLanes {size : Nat} {want : Want} {k : List (Nat × Word × Place) → Res}
    {ls : List (Nat × Word)} {acc : List (Nat × Word × Place)} (h : s.Ok) (hk : ∀ l, (k l).Ok) :
    (s.locateLanes size want k ls acc).Ok := by
  induction ls generalizing acc with
  | nil => exact hk _
  | cons l ls ih => exact .ite .trap (.locate h fun _ => ih)

theorem OutcomeOk.execVgth {d b i} (h : s.Ok) : OutcomeOk (execVgth d b i s) :=
  .issue h fun _ => .ite .trap (.locateLanes h fun _ => .ask h)

theorem SomeOk.postLanes {data : VVal} {size : Nat} {ls : List (Nat × Word × Place)} (h : s.Ok) :
    SomeOk (State.postLanes data size ls s) := by
  induction ls generalizing s with
  | nil => exact h
  | cons l ls ih => exact .bind (.post h) fun _ => ih

theorem OutcomeOk.execVsct {d b i} (h : s.Ok) : OutcomeOk (execVsct d b i s) :=
  .issue h fun _ => .ite .trap (.locateLanes h fun _ => .ofPost (.postLanes h))
theorem Res.Ok.doAtomic {p op bytes d a v scope o} (h : s.Ok) : (s.doAtomic p op bytes d a v scope o).Ok :=
  .ite .trap (.locate h fun _ => .ordered h fun _ _ _ h' => .ite (.ofPost (.post h')) (.ask h'))
theorem OutcomeOk.execAadd {d a v p o} (h : s.Ok) : OutcomeOk (execAadd d a v p o s) :=
  .issue h fun _ => .doAtomic h
theorem OutcomeOk.execAand {d a v p o} (h : s.Ok) : OutcomeOk (execAand d a v p o s) :=
  .issue h fun _ => .doAtomic h
theorem OutcomeOk.execAor {d a v p o} (h : s.Ok) : OutcomeOk (execAor d a v p o s) :=
  .issue h fun _ => .doAtomic h
theorem OutcomeOk.execAxor {d a v p o} (h : s.Ok) : OutcomeOk (execAxor d a v p o s) :=
  .issue h fun _ => .doAtomic h
theorem OutcomeOk.execAmin {d a v p o} (h : s.Ok) : OutcomeOk (execAmin d a v p o s) :=
  .issue h fun _ => .doAtomic h
theorem OutcomeOk.execAmax {d a v p o} (h : s.Ok) : OutcomeOk (execAmax d a v p o s) :=
  .issue h fun _ => .doAtomic h
theorem OutcomeOk.execAxch {d a v p o} (h : s.Ok) : OutcomeOk (execAxch d a v p o s) :=
  .issue h fun _ => .doAtomic h
theorem OutcomeOk.execAcas {d a v p o} (h : s.Ok) : OutcomeOk (execAcas d a v p o s) :=
  .issue h fun _ => .doAtomic h
theorem OutcomeOk.execAfadd {d a v p o} (h : s.Ok) : OutcomeOk (execAfadd d a v p o s) :=
  .issue h fun _ => .doAtomic h
theorem OutcomeOk.execAvadd {a v p o} (h : s.Ok) : OutcomeOk (execAvadd a v p o s) :=
  .issue h fun _ => .ite .trap (.ite .trap (.locate h fun _ => .ordered h fun _ _ _ h' => .ofPost (.post h')))
theorem OutcomeOk.execLdaq {d a p o} (h : s.Ok) : OutcomeOk (execLdaq d a p o s) :=
  .issue h fun _ => .locate h fun _ => .ask h

theorem OutcomeOk.execStrl {a v p o} (h : s.Ok) : OutcomeOk (execStrl a v p o s) := by
  unfold Machine.execStrl
  dsimp only
  refine .issue h fun _ => .locate h fun _ => .ordered h fun _ _ _ h' => ?_
  split
  · exact .stall h'
  · exact .ask h'.recordStore

theorem OutcomeOk.execWaita {d a v p o} (h : s.Ok) : OutcomeOk (execWaita d a v p o s) :=
  .issue h fun _ => .ite .trap (.locate h fun _ => .ask h)
theorem State.Ok.fenceAcquire {scope} (h : s.Ok) : (s.fenceAcquire scope).Ok :=
  h.modMe
theorem OutcomeOk.execFence {p k'} (h : s.Ok) : OutcomeOk (execFence p k' s) :=
  .issue h fun _ => .ite (.stall h) (.done (.ite (.modMe (.ite h.fenceAcquire h)) (.ite h.fenceAcquire h)))
theorem OutcomeOk.execQld {d a} (h : s.Ok) : OutcomeOk (execQld d a s) :=
  .issue h fun _ => .locate h fun _ => .ask h
theorem OutcomeOk.execQst {d a} (h : s.Ok) : OutcomeOk (execQst d a s) :=
  .issue h fun _ => .locate h fun _ => .ordered h fun _ _ _ h' => .ofPost (.bind (.post h') fun _ h' => .post h')

theorem SomeStoreOk.alloc {level rows rowBytes rot : Nat} (h : m.Ok) :
    SomeStoreOk ((m.alloc level rows rowBytes rot).map Prod.snd) := by
  unfold Store.alloc
  dsimp only
  split
  · trivial
  · split
    · trivial
    · exact h.update

theorem State.Ok.blur {p : Home} {level : Nat} {gs : List Nat} (h : s.Ok) : (s.blur p level gs).Ok :=
  .update (.setStore h (.filter (.storeAt h)))

theorem OutcomeOk.execHalloc {d a n} (h : s.Ok) : OutcomeOk (execHalloc d a n s) := by
  unfold Machine.execHalloc
  dsimp only
  refine .issue h fun _ => .ite .trap (.ite ?_ (.ite (.stall h) ?_))
  · split
    next e0 =>
      exact .done (.writeG (.of_some_snd e0 (.takeOver h)))
    · exact .stall h
  · split
    · exact .done (.writeG (.ite (.passOn (.ite h.arriveAt h)) (.ite h.arriveAt h)))
    next e3 =>
      exact .done (.writeG (.ite (.passOn (.blur (.setStore (.ite h.arriveAt h) (.of_some_snd e3 (.alloc (.storeAt
          (.ite h.arriveAt h))))))) (.blur (.setStore (.ite h.arriveAt h) (.of_some_snd e3 (.alloc (.storeAt
          (.ite h.arriveAt h))))))))

theorem State.Ok.freeHandle {home p} (h : s.Ok) : (s.freeHandle home p).Ok :=
  .setStore h (.update (.storeAt h))

theorem OutcomeOk.execHfree {a} (h : s.Ok) : OutcomeOk (execHfree a s) := by
  unfold Machine.execHfree
  refine .issue h fun _ => .ite .trap (.ite .trap (.ite ?_ (.ite (.ite (.ite (.gone h.passOn.trap)
      (.stall h)) .trap) (.ite (.ite (.ite (.gone h.passOn.trap) (.stall h)) .trap) (.ite .trap (.ite (.stall h)
      (.done (.modHere (.ite h.freeHandle.passOn h.freeHandle) fun _ h' => h'))))))))
  split
  next e0 =>
    exact .ite (.done (.of_some_snd e0 (.takeOver h))) (.ite (.gone (.trap (.of_some_snd e0 (.takeOver h))))
        (.stall h))
  · exact .stall h

theorem State.Ok.askShared {die space va kind} (h : s.Ok) : (s.askShared die space va kind).Ok :=
  .ite h h
theorem State.Ok.askUnit {space key va pa n} (h : s.Ok) : (s.askUnit space key va pa n).Ok :=
  .ite h (.ite h.budgetStall (.launchPacket h))

theorem State.Ok.seek {die space va want} (h : s.Ok) : (s.seek die space va want).Ok := by
  unfold State.seek
  split
  · exact h.askUnit
  · exact h.askShared
  · exact h

theorem State.Ok.dropTables (h : s.Ok) : (s.dropTables).Ok :=
  h

theorem State.Ok.unitReadAs {rank die space fuel : Nat} {w : Word} {n : Nat} (h : s.Ok) :
    (s.unitReadAs rank die space fuel w n).2.Ok := by
  induction fuel generalizing s w n with
  | zero => exact h
  | succ fuel ih =>
    unfold State.unitReadAs
    split
    · exact h
    · dsimp only
      split
      · exact h.walkFailed.dropTables
      · exact h.seek
      · split
        · split
          · exact h.askUnit
          · split
            next e => exact .update (.of_snd e (ih h))
            next => exact ih h
        · split
          · exact h
          · split
            next e => exact .dropTables (.of_snd e (ih (.actDram h.arriveAt)))
            next => exact ih (.actDram h.arriveAt)

theorem State.Ok.unitRead {die space fuel w n} (h : s.Ok) : (s.unitRead die space fuel w n).2.Ok :=
  h.unitReadAs
theorem State.Ok.partRead {p w n} (h : s.Ok) : (s.partRead p w n).2.Ok :=
  h.unitRead

theorem SomeOk.unitBlocked {die space w rank} (h : s.Ok) : SomeOk (s.unitBlocked die space w rank) := by
  unfold State.unitBlocked
  split
  · exact .none
  · exact .some h.seek
  · exact .ite (.ite .none (.some h.budgetStall)) (.ite .none (.some h))

theorem State.Ok.unitPut {die space w data poison rel rank result} (h : s.Ok) :
    (s.unitPut die space w data poison rel rank result).2.Ok := by
  unfold State.unitPut
  split
  · split
    · exact h.launchPacket.dropTables
    · exact h.arriveAt.actDram.dropTables
  · exact h.walkFailed.dropTables.count

theorem State.Ok.unitWrite {die space w data poison rel} (h : s.Ok) :
    (s.unitWrite die space w data poison rel).2.Ok := by
  unfold State.unitWrite
  split
  next e0 =>
    exact .of_some e0 (.unitBlocked h)
  · exact h.unitPut

theorem State.Ok.unitStore {die space at' data rank} (h : s.Ok) : (s.unitStore die space at' data rank).2.Ok := by
  unfold State.unitStore
  dsimp only
  split
  next e0 =>
    exact .of_some e0 (.findSome fun _ => .unitBlocked h)
  · exact .foldl_snd h fun _ _ h' => h'.unitPut

theorem State.Ok.send {dst body} (h : s.Ok) : (s.send dst body).Ok := by
  unfold State.send
  split
  · exact .ite (.spend h) (.budgetStall h)
  · exact h

theorem State.Ok.sendStalled (h : s.Ok) : (s.sendStalled).Ok := by
  unfold State.sendStalled
  refine .foldl h fun _ _ h' => ?_
  split
  · exact .ite (.spend h') h'.budgetStall
  · exact h'

theorem State.Ok.sendTlv {dst cls fields} (h : s.Ok) : (s.sendTlv dst cls fields).Ok :=
  h.send
theorem State.Ok.replyStatus {dst cls sequence status} (h : s.Ok) : (s.replyStatus dst cls sequence status).Ok :=
  h.sendTlv
theorem State.Ok.noticeHosts {fields} (h : s.Ok) : (s.noticeHosts fields).Ok :=
  .foldl h fun _ _ h' => h'.sendTlv

theorem State.Ok.signalHost {part w data} (h : s.Ok) : (s.signalHost part w data).Ok := by
  unfold State.signalHost
  split
  · exact h.send
  · exact h

theorem State.Ok.noteDevice {line device} (h : s.Ok) : (s.noteDevice line device).Ok :=
  .ite h (.ite (.noticeHosts (.count h)) (.count h))

theorem State.Ok.corrected {p device} (h : s.Ok) : (s.corrected p device).Ok := by
  unfold State.corrected
  split
  · exact h.count
  · exact h.count
  · exact h.noteDevice
  · exact h

theorem State.Ok.correctedAlone {a1} (h : s.Ok) : (s.correctedAlone a1).Ok := by
  unfold State.correctedAlone
  split
  · exact h
  · exact h.count
  · exact h.count
  · exact h.noteDevice

end
end Sys2Proof.Machine
end

section
/-! O60: launches, contexts and messages (Machine/Launch, Context, Mailbox). -/
namespace Sys2Proof.Machine
-- One proof after the other: side by side they hold more memory than a compile of the whole text may take.
set_option Elab.async false

section
variable {s : State} {k : Core} {m : Store}

theorem State.Ok.modStage {l n f} (h : s.Ok) : (s.modStage l n f).Ok :=
  h.modLaunch
theorem State.Ok.launchError {l} (h : s.Ok) : (s.launchError l).Ok :=
  h.modLaunch
theorem State.Ok.waitFrom {old : State} {n : Nat} (h : s.Ok) : (s.waitFrom old n).Ok := h.modLaunch

theorem State.Ok.report {t error} (h : s.Ok) : (s.report t error).Ok := by
  unfold State.report
  split
  · exact h
  · exact .ite h (.waitFrom (.modLaunch (.modStage (.ite h.launchError h))))

theorem State.Ok.declareFinal {l stage point} (h : s.Ok) : (s.declareFinal l stage point).Ok :=
  h.modStage
theorem Core.Ok.endTask (h : k.Ok) : (k.endTask).Ok :=
  h
theorem Core.Ok.take {t cycle} (h : k.Ok) : (k.take t cycle).Ok :=
  .update (.modCtx h)
theorem State.Ok.takeTask {c t} (h : s.Ok) : (s.takeTask c t).Ok :=
  .modCore h fun _ h' => h'.take.update
theorem SomeStoreOk.allocStatic {p} (h : m.Ok) : SomeStoreOk (m.allocStatic p) :=
  .ite .none (.some h)
theorem SomeStoreOk.allocAll {hs} (h : m.Ok) : SomeStoreOk (m.allocAll hs) :=
  .foldlM h fun _ _ h' => .allocStatic h'

theorem SomeOk.allocStatics {n c} (h : s.Ok) : SomeOk (s.allocStatics n c) := by
  unfold State.allocStatics
  dsimp only
  split
  · exact .none
  · refine .ite (.some h) ?_
    split
    next e20 e21 =>
      exact .some (.modLaunch (.ite (.modCore h fun _ h' => .withStore h' (.of_some e20 (.allocAll (.ofCore
          (.core h))))) (.modCluster (.modCore h fun _ h' => .withStore h' (.of_some e20 (.allocAll (.ofCore
          (.core h))))) fun _ h' => .withStore h' (.of_some e21 (.allocAll (.ofCluster (.cluster h)))))))
    · exact .none

theorem Store.Ok.freeStatic {number} (h : m.Ok) : (m.freeStatic number).Ok :=
  h
theorem State.Ok.settle (h : s.Ok) : (s.settle).Ok :=
  h
theorem State.Ok.putTask {n stage t c} (h : s.Ok) : (s.putTask n stage t c).Ok :=
  .modStage (.modCore h fun _ h' => h')

theorem State.Ok.deliverTo {n stage l r v cores rect} (h : s.Ok) : (s.deliverTo n stage l r v cores rect).Ok := by
  unfold State.deliverTo
  split
  · exact .ite (.foldl h.modStage fun _ _ h' => h'.putTask) h.modStage.putTask
  · exact .ite (.foldl h.modStage fun _ _ h' => h'.putTask) (.foldl h.modStage fun _ _ h' => h'.putTask)

theorem State.Ok.noteDispatch {n l} (h : s.Ok) : (s.noteDispatch n l).Ok :=
  .modLaunch h
theorem State.Ok.withdraw {t : Task} {launch : BitVec 32} (h : s.Ok) : (s.withdraw t launch).Ok :=
  .waitFrom (.modStage (.mapCores (.foldl h fun _ _ hs => hs.notify) fun _ => id))
theorem SomeOk.takeCore {n stage l need} (h : s.Ok) : SomeOk (s.takeCore n stage l need) :=
  .mapped fun _ => .modStage (.foldl (.foldl h fun _ _ h' => h'.withdraw) fun _ _ h' => h'.modStage)

theorem OutcomeOk.execTaskDelivery {n} (h : s.Ok) : OutcomeOk (execTaskDelivery n s) := by
  unfold Machine.execTaskDelivery
  split
  · exact .next h
  · split
    · refine .ite (.next h) ?_
      split
      next e3 =>
        exact .next (.noteDispatch (.deliverTo (.of_some e3 (.foldlM h fun _ _ h' => .allocStatics h'))))
      · exact .next (.modLaunch (.foldl h fun _ _ h' => h'.count))
    · split
      · exact .ite (.next h) (.next (.getD (.takeCore h.settle) h))
      · exact .next h

theorem OutcomeOk.execTnextTake {c} (h : s.Ok) : OutcomeOk (execTnextTake c s) := by
  unfold Machine.execTnextTake
  dsimp only
  split
  · exact .next h.takeTask.modCtx.finish
  · exact .next h

theorem OutcomeOk.execTaskRedelivery {c} (h : s.Ok) : OutcomeOk (execTaskRedelivery c s) := by
  unfold Machine.execTaskRedelivery
  split
  · exact .next h
  · exact .ite (.next h) (.next (.waitFrom (.modStage (.modCore h fun _ h' => h'))))

theorem OutcomeOk.execStaticHandleFree {n : Nat} (h : s.Ok) : OutcomeOk (execStaticHandleFree n s) := by
  have freed {l : List StaticHandle} {m : Store} (hm : m.Ok) : (l.foldl (fun m h => m.freeStatic h.number) m).Ok :=
    .foldl hm fun _ _ h => h.freeStatic
  unfold Machine.execStaticHandleFree
  split
  · exact h
  · refine .ite h (.next (.update (.foldl (.foldl h fun _ _ hs => .modCore hs fun k hk => ?_)
      fun _ _ hs => .modCluster hs fun k hk => ?_)))
    · refine .of_stores (freed (.ofCore hk)) ?_
      have hv := SomeStoreOk.ofCore hk
      cases e : k.saved with
      | none => trivial
      | some v => rw [e] at hv; exact freed hv
    · refine .of_stores (freed (.ofCluster hk)) ?_
      have hv := SomeStoreOk.ofCluster hk
      cases e : k.saved with
      | none => trivial
      | some v => rw [e] at hv; exact freed hv

theorem OutcomeOk.execRebalance {n} (h : s.Ok) : OutcomeOk (execRebalance n s) := by
  unfold Machine.execRebalance
  split
  · exact .next h
  · exact .ite (.next h) (.next h.modLaunch)

theorem OutcomeOk.execPriorityAging {n} (h : s.Ok) : OutcomeOk (execPriorityAging n s) := by
  unfold Machine.execPriorityAging
  split
  · exact .next h
  · exact .whenDue h h.modLaunch

theorem State.Ok.startReencode {cl} (h : s.Ok) : (s.startReencode cl).Ok :=
  h

theorem OutcomeOk.execClusterWake {cl} (h : s.Ok) : OutcomeOk (execClusterWake cl s) := by
  unfold Machine.execClusterWake
  split
  · exact .next h
  · exact .whenDue h (.modCluster h fun _ h' => h')
  · exact .whenDue h (.startReencode (.modCluster h fun _ h' => h'))

theorem State.Ok.noteBusy {cycle} (h : s.Ok) : (s.noteBusy cycle).Ok :=
  .foldl h fun _ _ h' => .modCluster h' fun _ h' => h'
theorem OutcomeOk.execClusterGate {cl} (h : s.Ok) : OutcomeOk (execClusterGate cl s) :=
  .whenDue h (.startReencode (.modCluster h fun _ h' => h'))

theorem State.Ok.freeQueues {l} (h : s.Ok) : (s.freeQueues l).Ok := by
  unfold State.freeQueues
  refine .foldl h fun _ _ h' => ?_
  split
  · exact h'.freeHandle
  · exact h'

theorem SomeOk.tellStatus {n l} (h : s.Ok) : SomeOk (s.tellStatus n l).1 := by
  unfold State.tellStatus
  split
  · exact .some h
  · split
    · exact .some h.signalHost.modLaunch
    · split
      · exact .none
      next e5 =>
        exact .some (.modLaunch (.of_snd e5 h.unitWrite))

theorem State.Ok.tellStatus {n l} (h : s.Ok) : (s.tellStatus n l).2.Ok := by
  unfold State.tellStatus
  split
  · exact h
  · split
    · exact h.signalHost.modLaunch
    · split
      next e4 =>
        exact .of_snd e4 h.unitWrite
      next e5 =>
        exact .modLaunch (.of_snd e5 h.unitWrite)

theorem SomeOk.writeSignal {n l} (h : s.Ok) : SomeOk (s.writeSignal n l).1 := by
  unfold State.writeSignal
  split
  · exact .none
  next e1 =>
    split
    · exact .some (.of_fst_some e1 (.tellStatus h))
    · split
      · exact .none
      · split
        · exact .some (.signalHost (.of_fst_some e1 (.tellStatus h)))
        · split
          · exact .none
          next e9 =>
            exact .some (.of_snd e9 (.unitWrite (.of_fst_some e1 (.tellStatus h))))

theorem State.Ok.writeSignal {n l} (h : s.Ok) : (s.writeSignal n l).2.Ok := by
  unfold State.writeSignal
  split
  next e0 =>
    exact .of_snd e0 h.tellStatus
  next e1 =>
    split
    · exact .of_fst_some e1 (.tellStatus h)
    · split
      · exact .of_fst_some e1 (.tellStatus h)
      · split
        · exact .signalHost (.of_fst_some e1 (.tellStatus h))
        · split
          next e8 =>
            exact .of_snd e8 (.unitWrite (.of_fst_some e1 (.tellStatus h)))
          next e9 =>
            exact .of_snd e9 (.unitWrite (.of_fst_some e1 (.tellStatus h)))

theorem State.Ok.closeLaunch {n l} (h : s.Ok) : (s.closeLaunch n l).Ok := by
  unfold State.closeLaunch
  split
  · exact h.freeQueues.modLaunch.modQueue
  · exact h.freeQueues.modLaunch

theorem State.Ok.completeLaunch {n} (h : s.Ok) : (s.completeLaunch n).Ok := by
  unfold State.completeLaunch
  split
  · exact h
  · split
    next e2 =>
      exact .closeLaunch (.of_fst_some e2 (.writeSignal h))
    next e3 =>
      exact .of_snd e3 h.writeSignal

theorem OutcomeOk.execLaunchComplete {n} (h : s.Ok) : OutcomeOk (execLaunchComplete n s) := by
  unfold Machine.execLaunchComplete
  split
  · exact .whenDue h h.completeLaunch
  · exact .next h

theorem OutcomeOk.execHstart {d a} (h : s.Ok) : OutcomeOk (execHstart d a s) := by
  unfold Machine.execHstart
  refine .issue h fun _ => ?_
  split
  · exact .done h.writeG
  · exact .done (.writeG (.modHere h fun _ h' => h'.startHelper))

theorem OutcomeOk.execHexit (h : s.Ok) : OutcomeOk (execHexit s) :=
  .issue h fun _ => .gone (.modHere h fun _ h' => h'.endHelper)
theorem OutcomeOk.execHexit16 (h : s.Ok) : OutcomeOk (execHexit16 s) :=
  .issue h fun _ => .gone (.modHere h fun _ h' => h'.endHelper)
theorem OutcomeOk.execHwait {a} (h : s.Ok) : OutcomeOk (execHwait a s) :=
  .issue h fun _ => .ite (.wait h.modMe) (.done h)
theorem OutcomeOk.execLive {a e} (h : s.Ok) : OutcomeOk (execLive a e s) :=
  .issue h fun _ => .done h.modMe
theorem OutcomeOk.execGang {a} (h : s.Ok) : OutcomeOk (execGang a s) :=
  .issue h fun _ => .wait h.modMe

theorem OutcomeOk.execGangForm {c} (h : s.Ok) : OutcomeOk (execGangForm c s) := by
  unfold Machine.execGangForm
  split
  · exact .ite (.next (.foldl h fun _ _ h' => h'.trapCtx)) (.ite (.next h) (.ite (.next
        (.foldl h fun _ _ h' => h'.trapCtx)) (.next (.foldl (.foldl h fun _ _ h' => h'.finish)
        fun _ _ h' => .modCore h' fun _ h' => h'))))
  · exact .next h

theorem OutcomeOk.execUngang (h : s.Ok) : OutcomeOk (execUngang s) :=
  .issue h fun _ => .done (.modHere h fun _ h' => h')
theorem OutcomeOk.execMfs {d n} (h : s.Ok) : OutcomeOk (execMfs d n s) :=
  .issue h fun _ => .done h.writeG

theorem Core.Ok.writeStatus {n v} (h : k.Ok) : (k.writeStatus n v).Ok := by
  unfold Core.writeStatus
  split
  · exact h
  · exact h
  · exact h
  · exact h
  · exact h
  · exact h
  · exact h
  · exact h
  · exact h
  · exact .ite h h

theorem OutcomeOk.execMts {a n} (h : s.Ok) : OutcomeOk (execMts a n s) :=
  .issue h fun _ => .done (.modHere h.modMe fun _ h' => h'.writeStatus)
theorem OutcomeOk.execChkerr {d} (h : s.Ok) : OutcomeOk (execChkerr d s) :=
  .issue h fun _ => .done h.writeG.modMe

theorem OutcomeOk.execTnext {d} (h : s.Ok) : OutcomeOk (execTnext d s) := by
  unfold Machine.execTnext
  refine .issue h fun _ => ?_
  split
  · exact .wait h.modMe
  · exact .done h.takeTask.writeG

theorem State.Ok.unpair {c} (h : s.Ok) : (s.unpair c).Ok :=
  h.uncouple

theorem Res.Ok.doTend {p a} (h : s.Ok) : (s.doTend p a).Ok := by
  unfold State.doTend
  split
  · exact .done h.count
  · exact .ite (.stall h) (.done (.modHere (.report (.ite h.unpair h)) fun _ h' => h'.endTask))

theorem OutcomeOk.execTend {a} (h : s.Ok) : OutcomeOk (execTend a s) :=
  .issue h fun _ => .doTend h
theorem OutcomeOk.execTend16 {a} (h : s.Ok) : OutcomeOk (execTend16 a s) :=
  .issue h fun _ => .doTend h
theorem OutcomeOk.execExtl {a n} (h : s.Ok) : OutcomeOk (execExtl a n s) :=
  .issue h fun _ => .done h.modMe
theorem OutcomeOk.execExtr {d n} (h : s.Ok) : OutcomeOk (execExtr d n s) :=
  .issue h fun _ => .done h.writeG

theorem State.Ok.abandon {c x} (h : s.Ok) : (s.abandon c x).Ok := by
  unfold State.abandon
  refine .modCtx ?_
  split
  · exact h
  · exact h.unpark

theorem State.Ok.abandonXchg {c} (h : s.Ok) : (s.abandonXchg c).Ok := by
  unfold State.abandonXchg
  refine .foldl h fun _ _ h' => ?_
  split
  · exact h'.modCtx
  · exact h'

theorem OutcomeOk.execHelperTrapDelivery {c} (h : s.Ok) : OutcomeOk (execHelperTrapDelivery c s) := by
  unfold Machine.execHelperTrapDelivery
  split
  · exact .next h
  · exact .ite (.next h) (.next h.abandonXchg.abandon.disband.deliverTrap)

theorem OutcomeOk.execMsend {m a} (h : s.Ok) : OutcomeOk (execMsend m a s) :=
  .issue h fun _ => .ite .trap (.ite (.stall h) (.injecting h (.ite (.ofPost (.hold h)) (.done h.sendMsg))))
theorem State.Ok.enterMail {m} (h : s.Ok) : (s.enterMail m).Ok :=
  .foldl (.modCore (.leaveSlots h) fun _ h' => h') fun _ _ h' => .ite h'.finish h'

theorem OutcomeOk.execMailboxArrival {c} (h : s.Ok) : OutcomeOk (execMailboxArrival c s) := by
  unfold Machine.execMailboxArrival
  refine .ite ?_ (.ite (.next h) ?_)
  · split
    · exact .next (.count (.leaveSlots h))
    · exact .next h
  · split
    · exact .next h.enterMail
    · split
      · exact .next h
      · exact .next (.ite (.enterMail h) (.update h))

theorem Res.Ok.doMwait (h : s.Ok) : (s.doMwait).Ok :=
  .ite (.wait h.modMe) (.done h)
theorem OutcomeOk.execMwait (h : s.Ok) : OutcomeOk (execMwait s) :=
  .issue h fun _ => .doMwait h
theorem OutcomeOk.execMwait16 (h : s.Ok) : OutcomeOk (execMwait16 s) :=
  .issue h fun _ => .doMwait h
theorem State.Ok.acquireCopy {c x scope src ctx} (h : s.Ok) : (s.acquireCopy c x scope src ctx).Ok :=
  .ite h h.modCtx

theorem Res.Ok.doMtake {d} (h : s.Ok) : (s.doMtake d).Ok := by
  unfold State.doMtake
  split
  · exact .done h.writeG.writeG
  · refine .done (.notePoison (.writeG (.writeG ?_)))
    split
    · exact .acquireCopy (.modHere h fun _ h' => h')
    · exact .modHere h fun _ h' => h'

theorem OutcomeOk.execMtake {d} (h : s.Ok) : OutcomeOk (execMtake d s) :=
  .issue h fun _ => .doMtake h
theorem OutcomeOk.execMtake16 {d} (h : s.Ok) : OutcomeOk (execMtake16 d s) :=
  .issue h fun _ => .doMtake h
theorem State.Ok.setCb {cl n b} (h : s.Ok) : (s.setCb cl n b).Ok :=
  .modCluster h fun _ h' => h'
theorem State.Ok.initCb {cl n base bytes count} (h : s.Ok) : (s.initCb cl n base bytes count).Ok :=
  h.setCb
theorem OutcomeOk.execCbinit {d a n} (h : s.Ok) : OutcomeOk (execCbinit d a n s) :=
  .issue h fun _ => .ite .trap (.ite .trap (.ite (.ofPost (.hold h)) (.done h.initCb)))
theorem State.Ok.grantAcq {cl n b c x d} (h : s.Ok) : (s.grantAcq cl n b c x d).Ok :=
  h.setCb.noteRelease.modCtx.passOn

theorem State.Ok.acquireStage {c x rel} (h : s.Ok) : (s.acquireStage c x rel).Ok := by
  unfold State.acquireStage
  split
  · exact .ite h.acquireCopy h.noteRelease
  · exact h

theorem State.Ok.grantRd {cl n b c x d} (h : s.Ok) : (s.grantRd cl n b c x d).Ok :=
  h.setCb.acquireStage.modCtx.passOn

theorem Res.Ok.cbRequest {d n k'} (h : s.Ok) (hk' : ∀ x y z, x.Ok → (k' x y z).Ok) : (s.cbRequest d n k').Ok := by
  unfold State.cbRequest
  refine .ite .interval ?_
  split
  · exact .trap
  · refine .ite ?_ (.ite (.stall h) (hk' _ _ _ h.arriveAt))
    split
    next e2 =>
      exact .done (.writeG (.foldl (.of_some_snd e2 (.takePassed h)) fun _ _ h' => h'.acquireStage))
    · exact .stall h

theorem OutcomeOk.execCbacq {d n} (h : s.Ok) : OutcomeOk (execCbacq d n s) :=
  .issue h fun _ => .cbRequest h fun _ _ _ h' => .ite (.done h'.grantAcq) (.wait h'.setCb.modMe)
theorem OutcomeOk.execCbwait {d n} (h : s.Ok) : OutcomeOk (execCbwait d n s) :=
  .issue h fun _ => .cbRequest h fun _ _ _ h' => .ite (.done h'.grantRd) (.wait h'.setCb.modMe)

theorem OutcomeOk.execCbacqGrant {cl n} (h : s.Ok) : OutcomeOk (execCbacqGrant cl n s) := by
  unfold Machine.execCbacqGrant
  split
  · split
    · split
      · exact .ite (.next h.setCb) (.ite (.next h) (.next h.grantAcq.finish))
      · exact .next h.setCb
    · exact .next h
  · exact .next h

theorem OutcomeOk.execCbwaitGrant {cl n} (h : s.Ok) : OutcomeOk (execCbwaitGrant cl n s) := by
  unfold Machine.execCbwaitGrant
  split
  · split
    · split
      · exact .ite (.next h.setCb) (.ite (.next h) (.next h.grantRd.finish))
      · exact .next h.setCb
    · exact .next h
  · exact .next h

theorem State.Ok.commitStage {cl n b r} (h : s.Ok) : (s.commitStage cl n b r).Ok := by
  unfold State.commitStage
  split
  · exact h.setCb
  · exact h.count

theorem State.Ok.freeStage {cl n b r} (h : s.Ok) : (s.freeStage cl n b r).Ok := by
  unfold State.freeStage
  split
  · exact h.setCb
  · exact h.count

theorem Res.Ok.cbRelease {n held k'} (h : s.Ok) (hk' : ∀ x y z u, x.Ok → (k' x y z u).Ok) :
    (s.cbRelease n held k').Ok := by
  unfold State.cbRelease
  refine .ite .interval ?_
  split
  · exact .trap
  · exact .ite (.ofPost (.hold h)) (.ite (.stall h) (.done (hk' _ _ _ _ h)))

theorem OutcomeOk.execCbcom {n} (h : s.Ok) : OutcomeOk (execCbcom n s) :=
  .issue h fun _ => .cbRelease h fun _ _ _ _ h' => h'.commitStage
theorem OutcomeOk.execCbrel {n} (h : s.Ok) : OutcomeOk (execCbrel n s) :=
  .issue h fun _ => .cbRelease h fun _ _ _ _ h' => h'.freeStage

end
end Sys2Proof.Machine
end

section
/-! O60: copies, pairs and the matrix queue (Machine/Copy, Pair, Matrix). -/
namespace Sys2Proof.Machine
-- One proof after the other: side by side they hold more memory than a compile of the whole text may take.
set_option Elab.async false

section
variable {s : State} {k : Core} {m : Store}

theorem Core.Ok.modEq {q f} (h : k.Ok) : (k.modEq q f).Ok :=
  h
theorem OutcomeOk.execEqf {a} (h : s.Ok) : OutcomeOk (execEqf a s) :=
  .issue h fun _ => .done (.modHere h fun _ h' => h')
theorem OutcomeOk.execCpyset {a f} (h : s.Ok) : OutcomeOk (execCpyset a f s) :=
  .issue h fun _ => .done h.modMe
theorem Core.Ok.enqueueCopy {q fields scope ctx life from_} (h : k.Ok) :
    (k.enqueueCopy q fields scope ctx life from_).Ok :=
  h.modEq.update

theorem OutcomeOk.execCpygo {d} (h : s.Ok) : OutcomeOk (execCpygo d s) := by
  unfold Machine.execCpygo
  refine .issue h fun _ => .ite .trap (.ite .trap (.ite .trap (.ite ?_ (.ite (.stall h) (.done (.writeG
      (.notePoison (.passOn (.modHere h fun _ h' => h'.enqueueCopy)))))))))
  split
  next e0 =>
    exact .done (.writeG (.notePoison (.of_some_snd e0 (.takeOver h))))
  · exact .stall h

theorem OutcomeOk.execCpyst {d a} (h : s.Ok) : OutcomeOk (execCpyst d a s) := by
  unfold Machine.execCpyst
  refine .issue h fun _ => .ite ?_ ?_
  · split
    next e0 =>
      refine .done (.writeG ?_)
      split
      · exact .ite (.acquireCopy (.of_some_snd e0 (.takeOver h))) (.of_some_snd e0 (.takeOver h))
      · exact .of_some_snd e0 (.takeOver h)
    · exact .stall h
  · split
    · exact .done h.passOn.writeG
    · split
      · exact .done h.passOn.writeG
      · exact .done h.passOn.writeG
      · exact .done h.acquireCopy.passOn.writeG

theorem State.Ok.engineNote {c w n write status} (h : s.Ok) : (s.engineNote c w n write status).Ok := by
  unfold State.engineNote
  dsimp only
  split
  · exact .ite h.countDropped h
  · exact h.walkFailed
  · split
    · exact h.countMismatch
    · exact h
  · exact h

theorem State.Ok.engineArrives {at' rank} (h : s.Ok) : (s.engineArrives at' rank).Ok := by
  unfold State.engineArrives
  split
  · exact h.arriveAt
  · exact h

theorem State.Ok.engineAsk {c q w p pa rot n dest counted} (h : s.Ok) :
    (s.engineAsk c q w p pa rot n dest counted).Ok :=
  .launchPacket h

theorem State.Ok.engineWrite {c w at' data poison} (h : s.Ok) : (s.engineWrite c w at' data poison).Ok := by
  unfold State.engineWrite
  split
  · exact .actChip (.ite h h.traceAt)
  · exact h.actDram
  · exact h

theorem State.Ok.modRun {c q f} (h : s.Ok) : (s.modRun c q f).Ok :=
  .modCore h fun _ h' => h'.modEq

theorem State.Ok.putLine {c q rank dst rot dest data poison counted asked} (h : s.Ok) :
    (s.putLine c q rank dst rot dest data poison counted asked).Ok := by
  unfold State.putLine
  split
  · exact h.launchPacket.modRun
  · exact h.engineArrives.engineWrite.modRun

theorem State.Ok.copyPiece {c q r i src dst n} (h : s.Ok) : (s.copyPiece c q r i src dst n).Ok := by
  unfold State.copyPiece
  refine .ite h.budgetStall ?_
  split
  · exact h.seek
  · exact h.engineNote.modRun
  · exact h.seek
  · exact h.engineNote.modRun
  · refine .ite h ?_
    split
    · exact h.budgetStall
    · split
      · exact h.spend.modRun.engineArrives.engineAsk.modRun
      · exact h.spend.modRun.engineArrives.putLine

theorem Core.Ok.markTransfer {id st} (h : k.Ok) : (k.markTransfer id st).Ok := by
  unfold Core.markTransfer
  split
  · exact h
  · exact h

theorem State.Ok.beginCopy {c q engine e rest} (h : s.Ok) : (s.beginCopy c q engine e rest).Ok := by
  unfold State.beginCopy
  refine .ite (.modCore h fun _ h' => h'.modEq.markTransfer) (.ite (.modCore h fun _ h' => h'.modEq.markTransfer)
      (.ite (.modCore h fun _ h' => h'.modEq.markTransfer) ?_))
  split
  · exact .modCore h.engineNote fun _ h' => h'.modEq.markTransfer
  · exact h.seek
  · split
    · exact h.budgetStall
    · exact .engineAsk (.modCore h fun _ h' => h'.modEq.markTransfer)
  · exact .ite h (.modCore h.engineArrives fun _ h' => h'.modEq.markTransfer)

theorem State.Ok.guardArrived {c q status data} (h : s.Ok) : (s.guardArrived c q status data).Ok :=
  h.modRun

theorem OutcomeOk.execCopyStart {c turn} (h : s.Ok) : OutcomeOk (execCopyStart c turn s) := by
  unfold Machine.execCopyStart
  dsimp only
  split
  · refine .ite (.next h) ?_
    split
    · exact .next h.copyPiece
    · exact .next h
  · split
    · exact .next h
    · exact .whenDue h h.beginCopy
  · exact .next h

theorem OutcomeOk.execCopyCompletion {c q} (h : s.Ok) : OutcomeOk (Machine.execCopyCompletion c q s) := by
  unfold Machine.execCopyCompletion
  split
  · exact .next h
  · refine .ite (.next h) ?_
    extract_lets _ _ done told queued
    have hd : done.Ok := h.dropTables.modCore fun _ hk => hk.modEq.markTransfer
    have ht : told.Ok := .ite hd.chkEvent hd
    have hq : queued.Ok := by
      dsimp only [queued]
      split
      exacts [ht.modQueue, ht]
    clear_value queued
    split
    · refine .next ?_
      split
      · exact .ite hq.sendMsg.sendMsg hq.sendMsg
      · exact hq.sendMsg
    · split
      · exact .next hq.commitStage
      · exact .next hq.count
    · exact .next hq

theorem SomeOk.copyArrived {c q dst rot p status data poison} (h : s.Ok) :
    SomeOk (s.copyArrived c q dst rot p status data poison).1 := by
  unfold State.copyArrived
  dsimp only
  split
  · exact .some h.subPending
  · split
    · exact .some h.subPending.modRun
    · split
      · exact .none
      · exact .some h.engineNote.subPending.modRun
      · split
        · exact .none
        · split
          · exact .none
          · exact .some h.putLine.subPending.modRun

theorem State.Ok.copyArrived {c q dst rot p status data poison} (h : s.Ok) :
    (s.copyArrived c q dst rot p status data poison).2.Ok := by
  unfold State.copyArrived
  dsimp only
  split
  · exact h.subPending
  · split
    · exact h.subPending.modRun
    · split
      · exact h.seek
      · exact h.engineNote.subPending.modRun
      · split
        · exact h
        · split
          · exact h.budgetStall
          · exact h.putLine.subPending.modRun

theorem State.Ok.lineAnswered {p a} (h : s.Ok) : (s.lineAnswered p a).Ok :=
  h.modRun

theorem OutcomeOk.execPair (h : s.Ok) : OutcomeOk (execPair s) := by
  unfold Machine.execPair
  exact .issue (.ite h.trapCtx h) fun _ => .ite (.stall (.ite h.trapCtx h)) (.ite .trap (.wait (.modMe
      (.ite h.trapCtx h))))

theorem Core.Ok.couple {c partner} (h : k.Ok) : (k.couple c partner).Ok :=
  h
theorem OutcomeOk.execPairRendezvous {c} (h : s.Ok) : OutcomeOk (execPairRendezvous c s) :=
  .ite (.next h) (.ite (.next h.trapCtx) (.ite (.next h) (.next (.modCore
      (.modCore h.finish.finish fun _ h' => h'.couple) fun _ h' => h'.couple))))

theorem OutcomeOk.execPairTimeout {c} (h : s.Ok) : OutcomeOk (execPairTimeout c s) := by
  unfold Machine.execPairTimeout
  split
  · exact .whenDue h h.trapCtx
  · exact .next h

theorem SomeOk.sendCb {c n k'} (h : s.Ok) (hk' : ∀ x y z u, x.Ok → (k' x y z u).Ok) : SomeOk (s.sendCb c n k') := by
  unfold State.sendCb
  split
  · exact .some h
  · exact .ite (.some (hk' _ _ _ _ h)) .none

theorem SomeOk.sendHeld {c a2} (h : s.Ok) : SomeOk (s.sendHeld c a2) := by
  unfold State.sendHeld
  split
  · exact .ite .none (.some h.launchPacket)
  · exact .some (.foldl h fun _ _ h' => h'.launchPacket)
  · exact .ite (.some h.launchMsg) .none
  · exact .some h.launchMeet
  · exact .ite (.some h.declareFinal) .none
  · exact .some h.initCb
  · exact .sendCb h fun _ _ _ _ h' => h'.commitStage
  · exact .sendCb h fun _ _ _ _ h' => h'.freeStage

theorem State.Ok.sendOutbox {c : Nat} {held : List Held} (h : s.Ok) : (State.sendOutbox c held s).1.Ok := by
  induction held generalizing s with
  | nil => exact h
  | cons p held ih =>
    unfold State.sendOutbox
    split
    next e => exact ih (.of_some e (.sendHeld h))
    · exact h

theorem Core.Ok.verify (h : k.Ok) : (k.verify).Ok :=
  h.modCtx.update

theorem Core.Ok.rollBack (h : k.Ok) : (k.rollBack).Ok := by
  unfold Core.rollBack
  split
  · exact h
  · exact .update (.modCtx (.withStore h (.restore (.ofCore h))))

theorem State.Ok.escalate {a b classes} (h : s.Ok) : (s.escalate a b classes).Ok :=
  .modCore (.modCore (.count (.count (.stopTask (.modCore (.modCore (.modCore (.modCore h fun _ h' => h')
      fun _ h' => h') fun _ h' => h'.queueRedelivery) fun _ h' => h'.queueRedelivery)))) fun _ h' => h')
      fun _ h' => h'

theorem OutcomeOk.execPairIntervalCompare {c} (h : s.Ok) : OutcomeOk (execPairIntervalCompare c s) := by
  unfold Machine.execPairIntervalCompare
  split
  · exact .next h
  · split
    · exact .next h
    · exact .ite (.next h) (.ite (.next (.ite (.modCore (.modCore (.modCore h.sendOutbox fun _ h' => h')
          fun _ h' => h'.verify) fun _ h' => h'.verify) (.modCore h.sendOutbox fun _ h' => h'))) (.next (.ite
          (.escalate (.modCore (.unpark (.count (.count (.modCore h.count.count.unpark fun _ h' => h'.rollBack))))
          fun _ h' => h'.rollBack)) (.modCore (.unpark (.count (.count
          (.modCore h.count.count.unpark fun _ h' => h'.rollBack)))) fun _ h' => h'.rollBack))))

theorem OutcomeOk.execUnpair (h : s.Ok) : OutcomeOk (execUnpair s) :=
  .issue h fun _ => .done (.ite h.unpair h)

theorem Res.Ok.checkAt {w n want k'} (h : s.Ok) (hk' : ∀ x, (k' x).Ok) : (s.checkAt w n want k').Ok := by
  unfold State.checkAt
  refine .locate h fun _ => .ite (.stall h) ?_
  split
  · exact .trap
  · exact hk' _

theorem Res.Ok.checkPieces {want : Want} {k : Unit → Res} {ps : List Piece} (h : s.Ok) (hk : ∀ x, (k x).Ok) :
    (s.checkPieces want k ps).Ok := by
  induction ps with
  | nil => exact hk ()
  | cons p ps ih => exact .ite (.checkAt h fun _ => ih) (.checkAt h fun _ => .checkAt h fun _ => ih)

theorem Res.Ok.sideWord {w k'} (h : s.Ok) (hk' : ∀ x y, x.Ok → (k' x y).Ok) : (s.sideWord w k').Ok := by
  unfold State.sideWord
  dsimp only
  split
  · exact hk' _ _ h
  · split
    · split
      next e3 =>
        exact hk' _ _ (.of_done e3 (.ask h))
      · exact .ask h
    · exact .stall h

theorem Res.Ok.sideWords {k : State → List Word → Res} {ws acc : List Word} (h : s.Ok)
    (hk : ∀ x y, x.Ok → (k x y).Ok) : (State.sideWords k ws acc s).Ok := by
  induction ws generalizing s acc with
  | nil => exact hk _ _ h
  | cons w ws ih => exact .sideWord h fun _ _ => ih

theorem Res.Ok.groupTable {e3 g first k'} (h : s.Ok) (hfirst : ∀ x y, x.Ok → (∀ v0, (y v0).Ok) → (first x y).Ok)
    (hk' : ∀ x y, x.Ok → (k' x y).Ok) : (s.groupTable e3 g first k').Ok :=
  .ite (hfirst _ _ h.modMe fun _ => .trap) (.checkPieces h fun _ => .sideWords h fun _ _ h' => .ite
      (hfirst _ _ h' fun _ => .trap) (hk' _ _ h'))

theorem Res.Ok.enqueueMat {e} (h : s.Ok) : (s.enqueueMat e).Ok :=
  .ite (.stall h) (.done (.modHere h fun _ h' => h'))

theorem Res.Ok.matrixB {kind d a e e0 ra rows} (h : s.Ok) : (s.matrixB kind d a e e0 ra rows).Ok := by
  unfold State.matrixB
  refine .checkPieces h fun _ => ?_
  split
  · exact .trap
  · exact .checkPieces h fun _ => .ite (.enqueueMat h) (.ite .trap
        (.checkAt h fun _ => .sideWord h fun _ _ h' => .enqueueMat h'))

theorem Res.Ok.doMma {kind d a e} (h : s.Ok) : (s.doMma kind d a e).Ok := by
  unfold State.doMma
  refine .ite .trap (.ite .trap ?_)
  split
  · exact .trap
  · exact .ite (.groupTable h (fun _ _ h2 h3 => .ite (h3 _) (.checkAt h2 fun _ => h3 _)) fun _ _ h' => .matrixB h')
        (.matrixB h)

theorem OutcomeOk.execMma {d a e} (h : s.Ok) : OutcomeOk (execMma d a e s) :=
  .issue h fun _ => .doMma h
theorem OutcomeOk.execMmag {d a e} (h : s.Ok) : OutcomeOk (execMmag d a e s) :=
  .issue h fun _ => .doMma h

theorem Res.Ok.doTileMove {kind d a} (h : s.Ok) : (s.doTileMove kind d a).Ok := by
  unfold State.doTileMove
  refine .ite .trap (.ite .trap (.ite .trap ?_))
  split
  · exact .trap
  · exact .checkPieces h fun _ => .enqueueMat h

theorem OutcomeOk.execTld {d a} (h : s.Ok) : OutcomeOk (execTld d a s) :=
  .issue h fun _ => .doTileMove h
theorem OutcomeOk.execTldt {d a} (h : s.Ok) : OutcomeOk (execTldt d a s) :=
  .issue h fun _ => .doTileMove h
theorem OutcomeOk.execTst {d a} (h : s.Ok) : OutcomeOk (execTst d a s) :=
  .issue h fun _ => .doTileMove h
theorem OutcomeOk.execTrd {d i e} (h : s.Ok) : OutcomeOk (execTrd d i e s) :=
  .issue h fun _ => .ite .trap (.done h.writeV)
theorem OutcomeOk.execTwr {d i e} (h : s.Ok) : OutcomeOk (execTwr d i e s) :=
  .issue h fun _ => .ite .trap (.ite .trap (.done (.modHere h fun _ h' => h')))
theorem OutcomeOk.execTzero {d} (h : s.Ok) : OutcomeOk (execTzero d s) :=
  .issue h fun _ => .ite .trap (.done (.modHere h fun _ h' => h'))
theorem State.Ok.commitBatch {c d} (h : s.Ok) : (s.commitBatch c d).Ok :=
  .modCtx (.modCore h fun _ h' => h')
theorem OutcomeOk.execMcommit {d} (h : s.Ok) : OutcomeOk (execMcommit d s) :=
  .issue h fun _ => .ite (.wait h.modMe) (.done h.commitBatch)
theorem State.Ok.cover {c} (h : s.Ok) : (s.cover c).Ok :=
  .ite (.modCtx (.ite (.modCtx (.modCore h fun _ h' => h')) (.modCore h fun _ h' => h'))) (.ite (.modCtx
      (.modCore h fun _ h' => h')) (.modCore h fun _ h' => h'))
theorem OutcomeOk.execMwaitb {n} (h : s.Ok) : OutcomeOk (execMwaitb n s) :=
  .issue h fun _ => .ite (.done h.cover) (.wait h.modMe)

theorem OutcomeOk.execBatchComplete {c} (h : s.Ok) : OutcomeOk (execBatchComplete c s) := by
  unfold Machine.execBatchComplete
  dsimp only
  split
  · exact .next h
  · split
    · exact .next (.ite (.finish (.cover (.modCore h fun _ h' => h'))) (.modCore h fun _ h' => h'))
    · exact .next (.ite (.modCore h fun _ h' => h') (.finish (.commitBatch (.modCore h fun _ h' => h'))))
    · exact .next (.modCore h fun _ h' => h')

theorem State.Ok.partNoted {c e rot p} (h : s.Ok) : (s.partNoted c e rot p).Ok := by
  unfold State.partNoted
  refine .ite h ?_
  split
  · exact h.engineNote
  · exact h.engineArrives

theorem State.Ok.askRow {c home w pa near serial rot key n} (h : s.Ok) :
    (s.askRow c home w pa near serial rot key n).Ok :=
  .launchPacket h
theorem Core.Ok.modEntry {serial f} (h : k.Ok) : (k.modEntry serial f).Ok :=
  h

theorem State.Ok.productStep {c e st} (h : s.Ok) : (s.productStep c e st).Ok := by
  unfold State.productStep
  refine .ite h ?_
  split
  · exact h.seek
  · split
    · exact h.budgetStall
    · exact .foldl (.modCore h fun _ h' => h'.modEntry) fun _ _ h' => h'.askRow
  · exact .ite h (.modCore (.foldl h fun _ _ h' => h'.partNoted) fun _ h' => .modEntry h')

theorem State.Ok.moveStep {c e} (h : s.Ok) : (s.moveStep c e).Ok := by
  unfold State.moveStep
  dsimp only
  split
  · exact h.seek
  · refine .foldl (.ite (.foldl (.foldl (.modCore h fun _ h' => h'.modEntry) fun _ _ h' => h'.walkFailed)
        fun _ _ h' => h'.count) (.foldl (.modCore h fun _ h' => h'.modEntry) fun _ _ h' => h'.walkFailed))
        fun _ _ h' => ?_
    split
    · exact .ite h'.launchPacket h'.askRow
    · exact h'

theorem Core.Ok.completeHead (h : k.Ok) : (k.completeHead).Ok := by
  unfold Core.completeHead
  split
  · exact h
  · exact h

theorem State.Ok.matrixStep {c} (h : s.Ok) : (s.matrixStep c).Ok := by
  unfold State.matrixStep
  split
  · exact h
  · refine .ite h.moveStep (.modCore ?_ fun _ h' => ?_)
    · split
      · exact h.productStep
      · exact h
    · split
      · exact .ite h'.completeHead h'
      · exact h'

theorem State.Ok.grantStep {cl i run} (h : s.Ok) : (s.grantStep cl i run).Ok :=
  .ite h.matrixStep (.modCluster h.matrixStep fun _ h' => h')

theorem OutcomeOk.execArbiterGrant {cl} (h : s.Ok) : OutcomeOk (execArbiterGrant cl s) := by
  unfold Machine.execArbiterGrant
  refine .ite (.next h.grantStep) ?_
  split
  · exact .next (.grantStep (.modCluster h fun _ h' => h'))
  · exact .next (.ite h (.modCluster h fun _ h' => h'))

theorem OutcomeOk.execMatrixEntryComplete {c} (h : s.Ok) : OutcomeOk (execMatrixEntryComplete c s) := by
  unfold Machine.execMatrixEntryComplete
  dsimp only
  split
  · exact .next h
  · exact .ite (.next h) (.ite (.next (.modCore h fun _ h' => h'.completeHead)) (.ite (.next h) (.ite (.next
        (.modCore h fun _ h' => h'.completeHead)) (.next (.modCore h fun _ h' => .completeHead (.modEntry h'))))))

end
end Sys2Proof.Machine
end

section
/-! O60: barriers, the exchange plane, fetching and walks (Machine/Barrier, Exchange, Fetch, Translation). -/
namespace Sys2Proof.Machine
-- One proof after the other: side by side they hold more memory than a compile of the whole text may take.
set_option Elab.async false

section
variable {s : State} {k : Core} {m : Store}

theorem Core.Ok.modBar {n : Nat} {f : Barrier → Barrier} (h : k.Ok) : (k.modBar n f).Ok := by
  have hm := Store.Ok.ofCore h
  have hv := SomeStoreOk.ofCore h
  refine .of_stores hm ?_
  unfold Core.modBar
  cases e : k.saved with
  | none => trivial
  | some v => rw [e] at hv; exact hv

theorem OutcomeOk.execBarset {d a n} (h : s.Ok) : OutcomeOk (execBarset d a n s) :=
  .issue h fun _ => .ite .trap (.done (.modHere h fun _ h' => .ite h'.modBar.update.update h'.modBar.update))
theorem State.Ok.arrive {i} (h : s.Ok) : (s.arrive i).Ok :=
  .modHere h fun _ h' => h'.modBar
theorem OutcomeOk.execBarwait {n} (h : s.Ok) : OutcomeOk (execBarwait n s) :=
  .issue h fun _ => .ite .trap (.ite (.done (.modHere h fun _ h' => h'.modBar)) (.wait (.modMe (.modHere
      (.ite h h.arrive) fun _ h' => h'.modBar))))

theorem OutcomeOk.execBararv {n} (h : s.Ok) : OutcomeOk (execBararv n s) := by
  unfold Machine.execBararv
  dsimp only
  refine .issue h fun _ => ?_
  split
  · exact .trap
  · exact .ite .trap (.done (.modHere (.ite h h.arrive) fun _ h' => h'.modBar))

theorem OutcomeOk.execBarrierArrivalSend {c i} (h : s.Ok) : OutcomeOk (execBarrierArrivalSend c i s) := by
  unfold Machine.execBarrierArrivalSend
  dsimp only
  split
  · exact .next h
  · exact .ite (.next h) (.next (.update (.modCore h fun _ h' => h'.modBar)))

theorem State.Ok.barrierMismatch {corner i confs} (h : s.Ok) : (s.barrierMismatch corner i confs).Ok :=
  .foldl h fun _ _ h' => .ite (.trapCtx (.modCore h' fun _ h' => h'.modBar)) (.modCore h' fun _ h' => h'.modBar)

theorem OutcomeOk.execBarrierArrivalReceive {corner i} (h : s.Ok) :
    OutcomeOk (execBarrierArrivalReceive corner i s) := by
  unfold Machine.execBarrierArrivalReceive
  dsimp only
  split
  · exact .next h
  · split
    · exact .ite (.next (.barrierMismatch h)) (.next (.update h))
    · exact .next (.update h)

theorem State.Ok.releaseMember {i q m} (h : s.Ok) : (s.releaseMember i q m).Ok :=
  .ite h (.ite (.modCore h fun _ h' => h'.modBar.update) (.ite (.finish (.modCore h fun _ h' => h'.modBar.update))
      (.modCore (.finish (.modCore h fun _ h' => h'.modBar.update)) fun _ h' => h')))

theorem OutcomeOk.execBarrierRelease {corner i} (h : s.Ok) : OutcomeOk (execBarrierRelease corner i s) := by
  unfold Machine.execBarrierRelease
  dsimp only
  split
  · exact .next h
  · exact .ite (.next h) (.next (.foldl h fun _ _ h' => h'.releaseMember))

theorem OutcomeOk.execExchangePhaseEnd {c} (h : s.Ok) : OutcomeOk (execExchangePhaseEnd c s) := by
  unfold Machine.execExchangePhaseEnd
  split
  · exact .whenDue h (.modCore h fun _ h' => h')
  · exact .next h

theorem OutcomeOk.execXmit {d a e} (h : s.Ok) : OutcomeOk (execXmit d a e s) := by
  unfold Machine.execXmit
  dsimp only
  refine .issue h fun _ => ?_
  split
  · exact .ite .trap (.wait (.modMe h))
  · exact .trap

theorem OutcomeOk.execIntake {d a e} (h : s.Ok) : OutcomeOk (execIntake d a e s) := by
  unfold Machine.execIntake
  refine .issue h fun _ => ?_
  split
  · exact .ite .trap (.wait h.modMe)
  · exact .trap

theorem OutcomeOk.execXmitDrive {c} (h : s.Ok) : OutcomeOk (execXmitDrive c s) :=
  .next h

theorem OutcomeOk.execExchangeCollision (h : s.Ok) : OutcomeOk (execExchangeCollision s) := by
  unfold Machine.execExchangeCollision
  split
  · exact .next h
  · exact .next (.foldl h fun _ _ h' => h'.disbandBut.trapCtx)

theorem OutcomeOk.execXmitArrival {c} (h : s.Ok) : OutcomeOk (execXmitArrival c s) := by
  unfold Machine.execXmitArrival
  split
  · exact .ite (.next h) (.next (.finish h))
  · split
    · exact .next (.count h)
    · exact .next h

theorem State.Ok.latchedAt {c} (h : s.Ok) : (s.latchedAt c).Ok :=
  h.modCtx

theorem OutcomeOk.execIntakeLatch {c} (h : s.Ok) : OutcomeOk (execIntakeLatch c s) := by
  unfold Machine.execIntakeLatch
  split
  · refine .ite (.next h) ?_
    split
    · exact .ite (.next h) (.next (.latchedAt (.finish (.modCtx h))))
    · exact .next h.modCtx.finish.latchedAt
  · exact .next h

theorem OutcomeOk.execXchg {d a} (h : s.Ok) : OutcomeOk (execXchg d a s) :=
  .issue h fun _ => .wait h.modMe

theorem OutcomeOk.execXchgExchange {c} (h : s.Ok) : OutcomeOk (execXchgExchange c s) := by
  unfold Machine.execXchgExchange
  refine .ite (.next h) (.next (.foldl h fun _ _ h' => ?_))
  split
  · exact h'.modCtx.finish
  · exact h'

theorem Core.Ok.setGroup {n conf} (h : k.Ok) : (k.setGroup n conf).Ok :=
  h
theorem OutcomeOk.execGrpset {d a} (h : s.Ok) : OutcomeOk (execGrpset d a s) :=
  .issue h fun _ => .ite .trap (.ite (.done (.modHere h fun _ h' => h'.setGroup)) (.wait h.modMe))

theorem OutcomeOk.execGrpsetResume {c x} (h : s.Ok) : OutcomeOk (execGrpsetResume c x s) := by
  unfold Machine.execGrpsetResume
  split
  · exact .whenDue h (.finish (.modCore h fun _ h' => h'.setGroup))
  · exact .next h

theorem OutcomeOk.execGrpsetTimeout {c x} (h : s.Ok) : OutcomeOk (execGrpsetTimeout c x s) := by
  unfold Machine.execGrpsetTimeout
  split
  · exact .ite (.next h) (.next (.finish (.modCore (.modCtx (.foldl h fun _ _ h' => h'.leaveSlots.subPending.count))
        fun _ h' => h'.setGroup)))
  · exact .next h

theorem State.Ok.sendAll {ps} (h : s.Ok) : (s.sendAll ps).Ok :=
  .foldl h fun _ _ h' => .ite h'.launchPacket.perform h'.launchPacket

theorem OutcomeOk.execMcast {d a} (h : s.Ok) : OutcomeOk (execMcast d a s) := by
  unfold Machine.execMcast
  dsimp only
  refine .issue h fun _ => ?_
  split
  · exact .trap
  · exact .ite (.stall h) (.injecting h (.ite (.ofPost (.holdPackets (.foldl h fun _ _ h' => h'.recordStore)))
        (.done (.sendAll (.foldl h fun _ _ h' => h'.recordStore)))))

theorem OutcomeOk.execNetworkMerge {a b} (h : s.Ok) : OutcomeOk (execNetworkMerge a b s) := by
  unfold Machine.execNetworkMerge
  split
  · split
    · exact .next h
    · exact .ite (.next h) (.next (.subPending (.leaveSlots h)))
  · exact .next h

theorem OutcomeOk.execDeadlockProbe {r} (h : s.Ok) : OutcomeOk (execDeadlockProbe r s) := by
  unfold Machine.execDeadlockProbe
  split
  · exact .next h
  · exact .whenDue h h

theorem OutcomeOk.execDeadlockEscape {r} (h : s.Ok) : OutcomeOk (execDeadlockEscape r s) := by
  unfold Machine.execDeadlockEscape
  split
  · exact .next h
  · exact .ite (.next h) (.next h)

theorem State.Ok.resultLost {p} (h : s.Ok) : (s.resultLost p).Ok := by
  unfold State.resultLost
  split
  · exact h.modLaunch.count
  · exact h

theorem State.Ok.losePacket {p} (h : s.Ok) : (s.losePacket p).Ok := by
  unfold State.losePacket
  refine .ite h.update.answer ?_
  extract_lets base line group row
  have hb : base.Ok := h.update.subPending.resultLost
  have hl : line.Ok := .ite hb.lineAnswered hb
  have hg : group.Ok := by
    dsimp only [group]
    split
    exacts [hl.modCore fun _ hk => hk, hl]
  have hr : row.Ok := by
    dsimp only [row]
    split
    exacts [hg.modCore fun _ hk => hk.modEntry, hg]
  exact .ite (hr.chkEvent.foldl fun _ _ ht => ht.chkEvent) hr

theorem OutcomeOk.execLossMarker {link seq} (h : s.Ok) : OutcomeOk (execLossMarker link seq s) := by
  unfold Machine.execLossMarker
  dsimp only
  split
  · exact .next h
  · split
    · split
      · exact .next (.count h)
      · exact .ite (.next (.losePacket (.count h))) (.next (.update (.count h)))
    · exact .next (.update (.count h))
    · split
      · exact .next (.count h)
      · exact .ite (.next (.count (.update (.count h)))) (.next (.update (.count h)))
    · split
      · exact .next (.count h)
      · exact .ite (.next (.count (.subPending (.update (.count h))))) (.next (.count h))
    · exact .ite (.next (.update (.count h))) (.next (.update (.count h)))

theorem OutcomeOk.execLinkReplay {link seq} (h : s.Ok) : OutcomeOk (execLinkReplay link seq s) :=
  .whenDue h h.count
theorem Core.Ok.useLine {va} (h : k.Ok) : (k.useLine va).Ok :=
  h
theorem Core.Ok.demoteLines {lost} (h : k.Ok) : (k.demoteLines lost).Ok :=
  h
theorem State.Ok.askLine {c x va pa half holds} (h : s.Ok) : (s.askLine c x va pa half holds).Ok :=
  .launchPacket h

theorem State.Ok.readLine {c x va pa} (h : s.Ok) : (s.readLine c x va pa).2.Ok := by
  unfold State.readLine
  dsimp only
  split
  · split
    · exact h.budgetStall
    · exact h.askLine.modCtx
  · split
    · exact h
    · exact .modCore h.actDram fun _ h' => h'.addLine

theorem State.Ok.fetchHalf {c x a} (h : s.Ok) : (s.fetchHalf c x a).2.Ok := by
  unfold State.fetchHalf
  dsimp only
  split
  · exact h
  · split
    · exact h
    · split
      · exact h
      · split
        · exact h
        · split
          · exact h
          · exact h.awaitWalk
          · exact h
          · split
            next e12 =>
              exact .of_snd e12 h.readLine
            next e13 =>
              exact .of_snd e13 h.readLine

theorem State.Ok.fetchAhead {c x half va} (h : s.Ok) : (s.fetchAhead c x half va).Ok := by
  unfold State.fetchAhead
  refine .ite h ?_
  split
  · exact h.requestWalk
  · exact .ite h (.ite (.ite h.askLine h.budgetStall) (.ite h (.modCore h.actDram fun _ h' => h'.addLine)))

theorem State.Ok.fetchPath {c x half a} (h : s.Ok) : (s.fetchPath c x half a).Ok :=
  .ite h (.foldl h fun _ _ h' => h'.fetchAhead)
theorem State.Ok.fetched {c x pc size} (h : s.Ok) : (s.fetched c x pc size).Ok :=
  .ite h (.fetchPath (.modCore h fun _ h' => h'.useLine.useLine))

theorem State.Ok.fetchAt {c x pc} (h : s.Ok) : (s.fetchAt c x pc).2.Ok := by
  unfold State.fetchAt
  split
  next e0 =>
    split
    · split
      next e2 =>
        exact .fetched (.of_snd e2 (.fetchHalf (.of_snd e0 h.fetchHalf)))
      next e3 =>
        exact .of_snd e3 (.fetchHalf (.of_snd e0 h.fetchHalf))
    · exact .fetched (.of_snd e0 h.fetchHalf)
  next e5 =>
    exact .of_snd e5 h.fetchHalf

theorem State.Ok.wake {waiters failed} (h : s.Ok) : (s.wake waiters failed).Ok :=
  .foldl h fun _ _ h' => .ite h'.modCtx h'
theorem State.Ok.fill {die t waiters} (h : s.Ok) : (s.fill die t waiters).Ok :=
  .foldl h.modDie fun _ _ h' => .modCore (.modCluster h' fun _ h' => h') fun _ h' => h'
theorem State.Ok.shareWalk {die w} (h : s.Ok) : (s.shareWalk die w).Ok :=
  h.askShared.update

theorem OutcomeOk.execTranslationWalk {die} (h : s.Ok) : OutcomeOk (execTranslationWalk die s) := by
  unfold Machine.execTranslationWalk
  dsimp only
  split
  · exact .next h
  · split
    · exact .next (.ite h.modDie h.modDie.dropTables.fill.wake)
    · exact .next h.modDie.dropTables.wake
    · exact .next h.modDie.dropTables.noteBad.wake
    · exact .next h.modDie.dropTables.shareWalk
    · exact .next h.modDie.askUnit
    · exact .next h.modDie

theorem OutcomeOk.execStaAnswer {tag leaf level} (h : s.Ok) : OutcomeOk (execStaAnswer tag leaf level s) := by
  unfold Machine.execStaAnswer
  split
  · exact .next h
  · exact .ite (.ite (.next (.update h)) (.next (.wake (.fill h)))) (.next (.wake h))

theorem State.Ok.refuseShared {r rest} (h : s.Ok) : (s.refuseShared r rest).Ok :=
  .wake h

theorem OutcomeOk.execStaRefusal {tag} (h : s.Ok) : OutcomeOk (execStaRefusal tag s) := by
  unfold Machine.execStaRefusal
  split
  · exact .next h
  · exact .next h.refuseShared

theorem OutcomeOk.execStaTimeout {tag} (h : s.Ok) : OutcomeOk (execStaTimeout tag s) := by
  unfold Machine.execStaTimeout
  split
  · exact .next h
  · exact .next h.refuseShared

theorem State.Ok.beginInvalidation {odi : Nat} {range : Option (Nat × Nat)} {asked : InvFor} (h : s.Ok) :
    (s.beginInvalidation odi range asked).Ok := by
  have hc := (h.dropTables.mapCores (f := fun e =>
    (e.1, { e.2 with micro := e.2.micro.filter fun t => !t.dropped odi range })) fun _ => id).mapClusters
        (f := fun e =>
    (e.1, { e.2 with cache := e.2.cache.filter fun t => !t.dropped odi range })) fun _ => id
  exact State.memoriesOk_congr hc rfl rfl rfl rfl rfl rfl

theorem OutcomeOk.execStaInvalidate {seq odi range} (h : s.Ok) : OutcomeOk (execStaInvalidate seq odi range s) :=
  .next h.beginInvalidation
theorem State.Ok.resend {i} (h : s.Ok) : (s.resend i).Ok :=
  .foldl h fun _ _ h' => .ite (.send h') h'

theorem OutcomeOk.execInvalidationComplete {id} (h : s.Ok) : OutcomeOk (execInvalidationComplete id s) := by
  unfold Machine.execInvalidationComplete
  split
  · exact .next h
  · refine .ite (.next h) (.next (.resend ?_))
    split
    · exact .ite h (.sendTlv h)
    · exact .send h
    · exact h

end
end Sys2Proof.Machine
end

section
/-! O60: assignment, control, traversals and coverage (Machine/Assign, Control, Traversal, Coverage). -/
namespace Sys2Proof.Machine
-- One proof after the other: side by side they hold more memory than a compile of the whole text may take.
set_option Elab.async false

section
variable {s : State} {k : Core} {m : Store}

theorem Core.Ok.unassign (h : k.Ok) : k.unassign.Ok :=
  have hm := Store.Ok.ofCore h
  .of_stores hm .none
theorem Core.Ok.cleared : k.cleared.Ok := rfl
theorem Cluster.Ok.cleared {k : Cluster} : k.cleared.Ok := rfl
theorem State.Ok.forgetWaiters {cores} (h : s.Ok) : (s.forgetWaiters cores).Ok :=
  h
theorem OutcomeOk.execPartitionClear {n next} (h : s.Ok) : OutcomeOk (execPartitionClear n next s) :=
  .next (.update (.foldl (.update (.forgetWaiters (.foldl (.foldl h fun _ _ h' => .ite h'.stopTask h')
      fun _ _ h' => .modCore h' fun _ h' => h'.unassign))) fun _ _ h' => h'.handGranule))

theorem OutcomeOk.execPartitionClearComplete {n} (h : s.Ok) : OutcomeOk (execPartitionClearComplete n s) := by
  unfold Machine.execPartitionClearComplete
  split
  · exact .next h
  · exact .ite (.next h) (.next (.update (.foldl (.foldl h fun _ _ h' => .modCore h' fun _ h' => .cleared)
        fun _ _ h' => .modCluster h' fun _ h' => .cleared)))

theorem OutcomeOk.execCoreAssignment {c n tvec entry} (h : s.Ok) :
    OutcomeOk (execCoreAssignment c n tvec entry s) := by
  unfold Machine.execCoreAssignment
  split
  · exact .next h
  · exact .ite (.next h) (.next (.setCore h (.withStore .cleared (.ofCore (.core h)))))

theorem Core.Ok.save (h : k.Ok) : k.save.Ok :=
  have hm := Store.Ok.ofCore h
  .of_stores hm (.some hm)

theorem State.Ok.saveCluster {cl : Nat} (h : s.Ok) : (s.saveCluster cl).Ok :=
  .ite h (.modCluster h fun _ hk =>
    have hm := Store.Ok.ofCluster hk
    .of_stores rfl (.some hm))

theorem OutcomeOk.execPreemption {c} (h : s.Ok) : OutcomeOk (execPreemption c s) :=
  .ite (.next h) (.next (.foldl (.foldl h fun _ _ h' => .modCore (.foldl h' fun _ _ h' => .ite h'.abandon h')
      fun _ h' => h'.save) fun _ _ h' => h'.saveCluster))
theorem OutcomeOk.execPreemptionResume {c} (h : s.Ok) : OutcomeOk (execPreemptionResume c s) :=
  .ite (.next h) (.next (.foldl h fun _ _ h' => .modCore h'.restoreCluster fun _ h' => h'.restore))

theorem OutcomeOk.execUncorrectableError {site} (h : s.Ok) : OutcomeOk (execUncorrectableError site s) := by
  unfold Machine.execUncorrectableError
  split
  · exact .next (.count (.modCore h fun _ h' => .withStore h' (.poisonWord (.ofCore h'))))
  · exact .next (.count (.modCluster h fun _ h' => .withStore h' (.poisonWord (.ofCluster h'))))
  · exact .next h.markDram.count
  · exact .next (.count (.modCore h fun _ h' => h'))
  · exact .next (.count (.modCore h fun _ h' => h'))
  · exact .next (.count (.modCore h fun _ h' => h'))
  · exact .next (.count (.modCore h fun _ h' => h'))
  · exact .next (.modCore h fun _ h' => h'.modEq)
  · exact .next h
  · exact .next h.markDram.count
  · exact .next (.ite h.count h.count.killCore)

theorem OutcomeOk.execSelfTestPeriodic {move} (h : s.Ok) : OutcomeOk (execSelfTestPeriodic move s) := by
  unfold Machine.execSelfTestPeriodic
  split
  · exact .next (.modFirmware h rfl)
  · exact .whenDue h (.modCore h fun _ h' => h')

theorem State.Ok.liftFence {c classes revive} (h : s.Ok) : (s.liftFence c classes revive).Ok :=
  .modFirmware h rfl
theorem State.Ok.revive {c} (h : s.Ok) : (s.revive c).Ok :=
  .modCore h.liftFence fun _ _ => .update .cleared
theorem State.Ok.countClasses {kind c classes} (h : s.Ok) : (s.countClasses kind c classes).Ok :=
  .foldl h fun _ _ h' => .ite h'.count h'

theorem OutcomeOk.execSelfTestCompletion {c failed baseFailed} (h : s.Ok) :
    OutcomeOk (Machine.execSelfTestCompletion c failed baseFailed s) := by
  unfold Machine.execSelfTestCompletion
  extract_lets _ tested
  have ht : tested.Ok := h.modCore fun _ hk => hk
  split
  · exact .next h
  · refine .ite (.next h) ?_
    extract_lets _ _ counted _ revived fenced lifted
    have hc : counted.Ok := ht.countClasses.countClasses
    have hf : fenced.Ok := .fence (.ite hc.revive hc)
    have hl : lifted.Ok := hf.liftFence
    exact .ite (.next (.ite hc.fence hc.fence.killCore)) (.ite (.next (.ite hl (hl.modCore fun _ hk => hk)))
        (.next hf))

theorem OutcomeOk.execReEncodeComplete {array} (h : s.Ok) : OutcomeOk (execReEncodeComplete array s) :=
  .next h
theorem OutcomeOk.execStackPark {stack parked} (h : s.Ok) : OutcomeOk (execStackPark stack parked s) :=
  .next h

theorem OutcomeOk.execScrubRead {die outcome} (h : s.Ok) : OutcomeOk (execScrubRead die outcome s) := by
  unfold Machine.execScrubRead
  refine .ite (.next h.budgetStall) (.ite (.next h) ?_)
  split
  · exact .next (.spend h)
  · exact .next (.noteDevice (.spend h))
  · exact .next (.count (.markDram (.spend h)))

theorem OutcomeOk.execBudgetPeriod (h : s.Ok) : OutcomeOk (execBudgetPeriod s) :=
  .whenDue h (.sendStalled h)
theorem Res.Ok.branch {taken dest} (h : s.Ok) : (s.branch taken dest).Ok :=
  .ite (.jump (.modMe (.modHere h.fetchPath fun _ h' => h'.demoteLines))) (.done
      (.modHere h.fetchPath fun _ h' => h'.demoteLines))
theorem OutcomeOk.execBz {r o} (h : s.Ok) : OutcomeOk (execBz r o s) :=
  .issue h fun _ => .branch h
theorem OutcomeOk.execBzG16 {r o} (h : s.Ok) : OutcomeOk (execBzG16 r o s) :=
  .issue h fun _ => .branch h
theorem OutcomeOk.execBnz {r o} (h : s.Ok) : OutcomeOk (execBnz r o s) :=
  .issue h fun _ => .branch h
theorem OutcomeOk.execBnzG16 {r o} (h : s.Ok) : OutcomeOk (execBnzG16 r o s) :=
  .issue h fun _ => .branch h
theorem OutcomeOk.execBany {r o} (h : s.Ok) : OutcomeOk (execBany r o s) :=
  .issue h fun _ => .branch h
theorem OutcomeOk.execBnone {r o} (h : s.Ok) : OutcomeOk (execBnone r o s) :=
  .issue h fun _ => .branch h
theorem OutcomeOk.execBr {o} (h : s.Ok) : OutcomeOk (execBr o s) :=
  .issue h fun _ => .jump h
theorem OutcomeOk.execBr16 {o} (h : s.Ok) : OutcomeOk (execBr16 o s) :=
  .issue h fun _ => .jump h
theorem OutcomeOk.execCall {o} (h : s.Ok) : OutcomeOk (execCall o s) :=
  .issue h fun _ => .jump h.writeG
theorem OutcomeOk.execJr {d r} (h : s.Ok) : OutcomeOk (execJr d r s) :=
  .issue h fun _ => .jump h.writeG
theorem OutcomeOk.execRet (h : s.Ok) : OutcomeOk (execRet s) :=
  .issue h fun _ => .jump h
theorem OutcomeOk.execRet16 (h : s.Ok) : OutcomeOk (execRet16 s) :=
  .issue h fun _ => .jump h
theorem Res.Ok.loopFault (_ : s.Ok) : (s.loopFault).Ok :=
  .trap
theorem OutcomeOk.execLoop {r o} (h : s.Ok) : OutcomeOk (execLoop r o s) :=
  .issue h fun _ => .ite (.loopFault h) (.ite (.jump h) (.ite (.loopFault h) (.done h.modMe)))
theorem OutcomeOk.execLeave (h : s.Ok) : OutcomeOk (execLeave s) :=
  .issue h fun _ => .ite (.loopFault h) (.jump h.modMe)

theorem OutcomeOk.execJtab {r n} (h : s.Ok) : OutcomeOk (execJtab r n s) := by
  unfold Machine.execJtab
  dsimp only
  refine .issue h fun _ => .ite (.jump h) ?_
  split
  next e0 =>
    split
    next e1 =>
      exact .jump (.of_snd e1 (.fetchHalf (.of_snd e0 h.fetchHalf)))
    next e2 =>
      split
      · exact .trap
      · exact .trap
      · exact .wait (.of_snd e2 (.fetchHalf (.of_snd e0 h.fetchHalf)))
  next e6 =>
    split
    · exact .trap
    · exact .trap
    · exact .wait (.of_snd e6 h.fetchHalf)

theorem OutcomeOk.execTrap {n} (h : s.Ok) : OutcomeOk (execTrap n s) :=
  .issue h fun _ => .trap
theorem OutcomeOk.execBkpt {n} (h : s.Ok) : OutcomeOk (execBkpt n s) :=
  .issue h fun _ => .trap

theorem SomeOk.resumeHelper {c n} (h : s.Ok) : SomeOk (s.resumeHelper c n) := by
  have hf : (s.fetchHalf c 0 (s.core c).tpc).2.Ok := h.fetchHalf
  unfold State.resumeHelper
  dsimp only
  refine .ite ?_ ?_
  · exact .some (.gotoCtx h.modCtx)
  · generalize s.fetchHalf c 0 (s.core c).tpc = r at hf
    obtain ⟨f, t⟩ := r
    cases f with
    | half p => exact .some (.gotoCtx (.modCtx hf))
    | wait => exact .none
    | fault sub => exact .some (.gotoCtx (.modCtx hf))
    | poison => exact .some (.gotoCtx (.modCtx hf))

theorem OutcomeOk.execRett {e} (h : s.Ok) : OutcomeOk (execRett e s) := by
  have left {c} {t : State} (ht : t.Ok) : Res.Ok (match
      (t.modCore c fun k => { k with handler := false }).here.trapQueue with
      | m :: _ => .gone ((t.modCore c fun k => { k with handler := false }).deliverTrap c m
          (t.modCore c fun k => { k with handler := false }).here.tret)
      | [] => .jump (t.modCore c fun k => { k with handler := false })
          (t.modCore c fun k => { k with handler := false }).here.tret) := by
    split
    · exact .gone (.deliverTrap (.modCore ht fun _ hk => hk))
    · exact .jump (.modCore ht fun _ hk => hk)
  unfold Machine.execRett
  refine .issue h fun _ => .ite (left h) (.ite (left (.modCore h fun _ hk => hk.endHelper)) ?_)
  split
  next e => exact left (.of_some e (.resumeHelper h))
  next => exact .wait h.fetchHalf

theorem OutcomeOk.execNop (h : s.Ok) : OutcomeOk (execNop s) :=
  .issue h fun _ => .done h
theorem OutcomeOk.execNop16 (h : s.Ok) : OutcomeOk (execNop16 s) :=
  .issue h fun _ => .done h

theorem OutcomeOk.execMeet {a} (h : s.Ok) : OutcomeOk (execMeet a s) := by
  unfold Machine.execMeet
  refine .issue h fun _ => ?_
  split
  · exact .trap
  · refine .injecting h ?_
    split
    · exact .interval
    next e3 =>
      exact .done (.modMe (.of_some e3 (.ite (.hold h) (.some h.sendMeet))))

theorem Core.Ok.mergeMeet {m : MeetFlight} {pick : Nat} {l : Core} (e : k.mergeMeet m pick = some l) (h : k.Ok) :
    l.Ok := by
  unfold Core.mergeMeet at e
  dsimp only at e
  split at e
  · cases e; exact h
  · split at e
    · cases e; exact h
    · split at e <;> cases e
      exact h

theorem OutcomeOk.execMeetArrival {id : Nat} (h : s.Ok) : OutcomeOk (execMeetArrival id s) := by
  unfold Machine.execMeetArrival
  split
  · exact h
  · refine .ite h ?_
    dsimp only
    have hs {m : MeetFlight} {rest} :
        ((({ s with meets := rest }).subPending m.core [0] 128).leaveSlots .meet id).Ok :=
      .leaveSlots (.subPending (.update h))
    split
    next e =>
      split at e
      · cases e
      · exact .next (.setCore (.freeWord hs) (.mergeMeet e (.core hs)))
    next => exact .next hs.count

theorem OutcomeOk.execMeetq {d x} (h : s.Ok) : OutcomeOk (execMeetq d x s) := by
  unfold Machine.execMeetq
  refine .issue h fun _ => ?_
  split
  · exact .wait h.modMe
  · exact .stall h

theorem State.Ok.takeRole {c x d qx role sets} (h : s.Ok) : (s.takeRole c x d qx role sets).Ok :=
  h.modCtx.finish

theorem OutcomeOk.execMeetqResolve {c x} (h : s.Ok) : OutcomeOk (execMeetqResolve c x s) := by
  unfold Machine.execMeetqResolve
  dsimp only
  split
  · refine .ite ?_ (.ite (.next h) (.next (.takeRole ?_)))
    · split
      · split
        · split
          · exact .next (.takeRole (.modCore h fun _ h' => h'))
          · exact .next (.takeRole (.modCore h fun _ h' => h'))
          · exact .next (.modCore h fun _ h' => h')
        · exact .next h
      · exact .next h
    · split
      · exact .ite (.modCore h fun _ h' => h') h
      · exact h
  · exact .next h

theorem Core.Ok.holdRecord {slot start regs set} (h : k.Ok) : (k.holdRecord slot start regs set).Ok := by
  unfold Core.holdRecord
  split
  · exact h
  · exact .withStore h (.save (.foldl (.save (.ofCore h)) fun _ _ hm => hm.save))

theorem OutcomeOk.execSplit {d a e} (h : s.Ok) : OutcomeOk (execSplit d a e s) := by
  unfold Machine.execSplit
  refine .issue h fun _ => .ite (.done h.writeG) (.ite (.jump h.modMe.writeG) ?_)
  split
  · exact .done (.writeG (.modHere h.modMe fun _ h' => h'.startHelper))
  · split
    · exact .done h.writeG
    · exact .done (.writeG (.fireMonitors (.modHere h.freeWord.modMe fun _ h' => h'.holdRecord)))

theorem OutcomeOk.execCfcfg {a} (h : s.Ok) : OutcomeOk (execCfcfg a s) :=
  .issue h fun _ => .ite .trap (.done (.modHere h fun _ h' => h'))

theorem OutcomeOk.execCvdone (h : s.Ok) : OutcomeOk (execCvdone s) := by
  unfold Machine.execCvdone
  refine .issue h fun _ => ?_
  split
  · exact .done h
  · exact .ite (.done h.count) (.ite (.ofPost (.map (.hold h) fun _ h' => .modHere h' fun _ h' => h')) (.ite
        (.stall h) (.done (.modHere h.declareFinal fun _ h' => h'))))

theorem OutcomeOk.execCvst {d e} (h : s.Ok) : OutcomeOk (execCvst d e s) := by
  unfold Machine.execCvst
  refine .issue h fun _ => .ite ?_ (.done h.passOn.writeG)
  split
  next e0 =>
    exact .done (.writeG (.of_some_snd e0 (.takeOver h)))
  · exact .stall h

theorem OutcomeOk.execBandStart {n stage} (h : s.Ok) : OutcomeOk (execBandStart n stage s) := by
  unfold Machine.execBandStart
  split
  · exact .next h
  · split
    · exact .next h
    · split
      · exact .next h
      · exact .ite (.next h) (.next h.modStage.waitFrom)

theorem SomeOk.blockedPieces {l at' ps} (h : s.Ok) : SomeOk (s.blockedPieces l at' ps) :=
  .findSome fun _ => .unitBlocked h

theorem State.Ok.readPieces {l at' ps} (h : s.Ok) : (s.readPieces l at' ps).2.Ok := by
  induction ps generalizing s with
  | nil => exact h
  | cons p ps ih =>
    unfold State.readPieces
    split
    next e => exact .of_snd e h.unitRead
    next e =>
      dsimp only
      split
      next e' => exact .of_snd e' (ih (.of_snd e h.unitRead))
      next e' => exact .update (.of_snd e' (ih (.of_snd e h.unitRead)))

theorem State.Ok.writePieces {n l at' bytes ps} (h : s.Ok) : (s.writePieces n l at' bytes ps).Ok := by
  induction ps generalizing s with
  | nil => exact h
  | cons p ps ih => exact ih (.ite h.unitPut (.count (.launchError h.unitPut)))

theorem State.Ok.loadSources {l r ps} (h : s.Ok) : (s.loadSources l r ps).2.Ok := by
  induction ps generalizing s with
  | nil => exact h
  | cons p ps ih =>
    unfold State.loadSources
    have got : (if r.rebuilt p.2 then (some (Tab.get [] r.recs p.2), s)
        else match s.readPieces l (r.desc.resultAt p.2) (r.desc.pieces (r.desc.resultAt p.2)) with
          | (some bytes, t) => (some (r.desc.unpack bytes), t)
          | (none, t) => (none, t)).2.Ok := by
      split
      · exact h
      · split
        next e => exact .of_snd e h.readPieces
        next e => exact .of_snd e h.readPieces
    dsimp only
    split
    next e => exact .of_snd e got
    next e =>
      split
      next e' => exact .of_snd e' (ih (.of_snd e got))
      next e' => exact .update (.of_snd e' (ih (.of_snd e got)))

theorem State.Ok.rebuild {n stage l r point sources div sample} (h : s.Ok) :
    (s.rebuild n stage l r point sources div sample).2.Ok := by
  unfold State.rebuild
  dsimp only
  split
  next e => exact .of_snd e h.loadSources
  next e =>
    have ht := State.Ok.of_snd e h.loadSources
    split
    next e' =>
      split at e'
      · cases e'
      · exact .update (.of_some e' (.blockedPieces ht))
    next =>
      exact .ite (.modStage (.ite ht.launchError ht))
        (.waitFrom (.modLaunch (.writePieces (.modStage (.ite ht.launchError ht)))))

theorem SomeOk.rebuild {n stage l r point sources div sample} (h : s.Ok) :
    SomeOk (s.rebuild n stage l r point sources div sample).1 := by
  unfold State.rebuild
  dsimp only
  split
  · trivial
  next e =>
    have ht := State.Ok.of_snd e h.loadSources
    split
    · trivial
    next =>
      exact .some (.ite (.modStage (.ite ht.launchError ht))
        (.waitFrom (.modLaunch (.writePieces (.modStage (.ite ht.launchError ht))))))

theorem State.Ok.compareSample {n stage l r point} (h : s.Ok) : (s.compareSample n stage l r point).Ok := by
  unfold State.compareSample
  dsimp only
  split
  next e0 =>
    exact .of_snd e0 h.readPieces
  next e1 =>
    exact .modStage (.of_snd e1 h.readPieces)

theorem OutcomeOk.execReconstruction {n stage point} (h : s.Ok) : OutcomeOk (execReconstruction n stage point s) := by
  unfold Machine.execReconstruction
  split
  · exact .next h
  · split
    · exact .next h
    · refine .ite (.next h) (.ite (.ite (.next h) (.ite (.next h.budgetStall) ?_)) (.ite (.next h.compareSample)
          (.next h)))
      split
      next e4 =>
        exact .next (.spend (.of_fst_some e4 (.rebuild h)))
      next e5 =>
        exact .next (.of_snd e5 h.rebuild)

theorem OutcomeOk.execControllerUpdate {n stage} (h : s.Ok) : OutcomeOk (execControllerUpdate n stage s) := by
  unfold Machine.execControllerUpdate
  split
  · exact .next h
  · split
    · exact .next h
    · exact .ite (.next h) (.next (.modStage (.ite h h.freeWord)))

end
end Sys2Proof.Machine
end

section
/-! O60: command queues and vector instructions (Machine/Host, Lanes). -/
namespace Sys2Proof.Machine
-- One proof after the other: side by side they hold more memory than a compile of the whole text may take.
set_option Elab.async false

section
variable {s : State} {k : Core} {m : Store}

theorem State.Ok.stopQueue {q cause} (h : s.Ok) : (s.stopQueue q cause).Ok :=
  h.modQueue
theorem State.Ok.advance {q n} (h : s.Ok) : (s.advance q n).Ok :=
  h.spend.modQueue

theorem State.Ok.entryStep {q op unused misaligned body} (h : s.Ok) (hbody : ∀ x y, x.Ok → (body x y).Ok) :
    (s.entryStep q op unused misaligned body).Ok := by
  unfold State.entryStep
  dsimp only
  split
  · exact h
  · split
    next e2 =>
      exact .stopQueue (.of_snd e2 h.partRead)
    next e3 =>
      exact .of_snd e3 h.partRead
    next e4 =>
      exact .ite h (.ite h.budgetStall (.ite (.stopQueue (.of_snd e4 h.partRead)) (.ite (.stopQueue
          (.of_snd e4 h.partRead)) (hbody _ _ (.of_snd e4 h.partRead)))))

theorem SomeOk.allocQueues {part ds} (h : s.Ok) : SomeOk ((s.allocQueues part ds).map Prod.fst) := by
  induction ds generalizing s with
  | nil => exact h
  | cons d ds ih =>
    unfold State.allocQueues
    dsimp only
    split
    · trivial
    next e =>
      obtain ⟨c, -, hc⟩ := List.exists_of_findSome?_eq_some e
      obtain ⟨⟨n', m'⟩, hr, he⟩ := Option.map_eq_some_iff.mp hc
      cases he
      have hm : m'.Ok := .of_some_snd hr (.alloc (.ofCluster (.cluster h)))
      rw [Option.map_map]
      exact ih (.modCluster h fun _ hk => .withStore hk hm)

theorem State.Ok.readDescriptor {part at'} (h : s.Ok) : (s.readDescriptor part at').2.Ok := by
  unfold State.readDescriptor
  split
  next e0 =>
    exact .of_snd e0 h.partRead
  next e1 =>
    exact .of_snd e1 h.partRead
  next e2 =>
    refine .ite_snd (.of_snd e2 h.partRead) ?_
    split
    next e3 =>
      exact .of_snd e3 (.partRead (.of_snd e2 h.partRead))
    next e4 =>
      exact .of_snd e4 (.partRead (.of_snd e2 h.partRead))
    next e5 =>
      exact .of_snd e5 (.partRead (.of_snd e2 h.partRead))

theorem State.Ok.enterLaunch {l} (h : s.Ok) : (s.enterLaunch l).Ok := by
  unfold State.enterLaunch
  refine .ite (.completeLaunch ?_) ?_
  · split
    · exact .modQueue h
    · exact h
  · split
    · exact .modQueue h
    · exact h

/-- What starting a launch answers: the state after it, and the state in which it waits. -/
def StartOk (r : Option State × State) : Prop := SomeOk r.1 ∧ r.2.Ok
theorem StartOk.ite {c : Prop} [Decidable c] {a b : Option State × State} (ha : StartOk a) (hb : StartOk b) :
    StartOk (if c then a else b) := by split; exacts [ha, hb]

theorem StartOk.startLaunch {q at' shadow} (h : s.Ok) : StartOk (s.startLaunch q at' shadow) := by
  have failed {t : State} {l : Launch} (ht : t.Ok) : StartOk (some (t.enterLaunch l), t) := ⟨ht.enterLaunch, ht⟩
  unfold State.startLaunch
  extract_lets
  split
  next e => exact ⟨.stopQueue (.of_snd e h.readDescriptor), .of_snd e h.readDescriptor⟩
  next e => exact ⟨.none, .of_snd e h.readDescriptor⟩
  next e =>
    have hd := State.Ok.of_snd e h.readDescriptor
    extract_lets _ _ _ ds
    refine .ite (failed hd) ?_
    extract_lets
    split
    next e => exact ⟨.none, .of_snd e (.ite_snd hd hd.partRead)⟩
    next e => exact failed (.of_snd e (.ite_snd hd hd.partRead))
    next e => exact failed (.of_snd e (.ite_snd hd hd.partRead))
    next e =>
      have hb := State.Ok.of_snd e (.ite_snd hd hd.partRead)
      split
      · exact failed hb
      next e =>
        have ht := State.Ok.of_some_fst e (.allocQueues hb)
        clear_value ds
        split
        · exact failed hb
        · extract_lets
          exact .ite ⟨hb.enterLaunch, hb⟩ ⟨ht.enterLaunch, ht⟩

theorem SomeOk.startLaunch {q at' shadow} (h : s.Ok) : SomeOk (s.startLaunch q at' shadow).1 :=
  (StartOk.startLaunch h).1
theorem State.Ok.startLaunch {q at' shadow} (h : s.Ok) : (s.startLaunch q at' shadow).2.Ok :=
  (StartOk.startLaunch h).2
theorem OutcomeOk.execClNop {q} (h : s.Ok) : OutcomeOk (execClNop q s) :=
  .next (.entryStep h fun _ _ h' => h'.advance)

theorem State.Ok.dispatchNext {q} (h : s.Ok) : (s.dispatchNext q).Ok := by
  unfold State.dispatchNext
  extract_lets
  split
  · exact h
  · extract_lets
    refine .ite h ?_
    extract_lets
    refine .ite (.stopQueue h.modQueue) ?_
    split
    next e => exact .modQueue (.of_fst_some e (.startLaunch h.modQueue))
    next e => exact .modQueue (.of_snd e h.modQueue.startLaunch)

theorem OutcomeOk.execClLaunch {q} (h : s.Ok) : OutcomeOk (execClLaunch q s) := by
  unfold Machine.execClLaunch
  refine .ite (.next h.dispatchNext) (.next (.entryStep h fun _ _ h' => .ite h ?_))
  split
  next e1 =>
    exact .ite (.of_fst_some e1 (.startLaunch h')) (.advance (.of_fst_some e1 (.startLaunch h')))
  next e2 =>
    exact .of_snd e2 h'.startLaunch

theorem OutcomeOk.execClCopy {q} (h : s.Ok) : OutcomeOk (execClCopy q s) := by
  unfold Machine.execClCopy
  refine .next (.entryStep h fun _ _ h' => .ite h ?_)
  split
  next e1 =>
    exact .stopQueue (.of_snd e1 h'.partRead)
  next e2 =>
    exact .of_snd e2 h'.partRead
  next e3 =>
    exact .ite (.stopQueue (.of_snd e3 h'.partRead)) (.ite h (.advance (.modQueue (.modCore (.of_snd e3 h'.partRead)
        fun _ h' => h'.enqueueCopy))))

theorem OutcomeOk.execClWait {q} (h : s.Ok) : OutcomeOk (execClWait q s) := by
  unfold Machine.execClWait
  refine .next (.entryStep h fun _ _ h' => .ite h ?_)
  split
  next e1 =>
    exact .stopQueue (.of_snd e1 h'.partRead)
  next e2 =>
    exact .of_snd e2 h'.partRead
  next e3 =>
    exact .ite (.advance (.of_snd e3 h'.partRead)) h

theorem OutcomeOk.execClSignal {q} (h : s.Ok) : OutcomeOk (execClSignal q s) := by
  unfold Machine.execClSignal
  refine .next (.entryStep h fun _ _ h' => .ite h (.ite h'.signalHost.advance ?_))
  split
  next e1 =>
    exact .of_snd e1 h'.unitWrite
  next e2 =>
    exact .advance (.of_snd e2 h'.unitWrite)

theorem OutcomeOk.execClSkipif {q} (h : s.Ok) : OutcomeOk (execClSkipif q s) := by
  unfold Machine.execClSkipif
  dsimp only
  refine .next (.entryStep h fun _ _ h' => ?_)
  split
  next e1 =>
    exact .stopQueue (.of_snd e1 h'.partRead)
  next e2 =>
    exact .of_snd e2 h'.partRead
  next e3 =>
    exact .ite (.advance (.of_snd e3 h'.partRead)) (.ite h (.advance (.of_snd e3 h'.partRead)))

theorem OutcomeOk.execClJump {q} (h : s.Ok) : OutcomeOk (execClJump q s) :=
  .next (.entryStep h fun _ _ h' => h'.advance.modQueue)
theorem OutcomeOk.execClCall {q} (h : s.Ok) : OutcomeOk (execClCall q s) :=
  .next (.entryStep h fun _ _ h' => .ite h'.stopQueue h'.advance.modQueue)

theorem OutcomeOk.execClReturn {q} (h : s.Ok) : OutcomeOk (execClReturn q s) := by
  unfold Machine.execClReturn
  refine .next (.entryStep h fun _ _ h' => ?_)
  split
  · exact h'.stopQueue
  · exact h'.advance.modQueue

theorem OutcomeOk.execClSetreg {q} (h : s.Ok) : OutcomeOk (execClSetreg q s) :=
  .next (.entryStep h fun _ _ h' => h'.modQueue.advance)
theorem OutcomeOk.execClBadOp {q} (h : s.Ok) : OutcomeOk (execClBadOp q s) :=
  .next (.entryStep h fun _ _ h' => h'.stopQueue)
theorem State.Ok.kickTo {q index} (h : s.Ok) : (s.kickTo q index).Ok :=
  .ite h.modQueue.stopQueue h.modQueue

theorem OutcomeOk.execKick {host service request} (h : s.Ok) : OutcomeOk (execKick host service request s) := by
  unfold Machine.execKick
  refine .ite (.next h.count) ?_
  split
  · exact .ite (.next h.count) (.next h.kickTo)
  · split
    · exact .next h.count
    · exact .next h.unitStore
  · split
    · exact .next h.count
    · split
      next e7 =>
        exact .next (.send (.of_snd e7 h.unitReadAs))
      next e8 =>
        exact .next (.send (.of_snd e8 h.unitReadAs))
      next e9 =>
        exact .next (.of_snd e9 h.unitReadAs)

theorem State.Ok.deltaArrives {host bs} (h : s.Ok) : (s.deltaArrives host bs).Ok :=
  .ite h.count (.ite h.modQueue h.modQueue)
theorem OutcomeOk.execDeltaUpdate {host bs} (h : s.Ok) : OutcomeOk (execDeltaUpdate host bs s) :=
  .ite (.next h) (.next h.deltaArrives)
theorem OutcomeOk.execDeltaDispatch {host bs} (h : s.Ok) : OutcomeOk (execDeltaDispatch host bs s) :=
  .ite (.next h) (.next h.deltaArrives.dispatchNext)

theorem OutcomeOk.execStatusRecordWrite {q} (h : s.Ok) : OutcomeOk (execStatusRecordWrite q s) := by
  unfold Machine.execStatusRecordWrite
  refine .ite (.next h) ?_
  split
  next e0 =>
    exact .next (.of_snd e0 h.unitWrite)
  next e1 =>
    exact .next (.modQueue (.of_snd e1 h.unitWrite))

theorem OutcomeOk.execCvt {d a l} (h : s.Ok) : OutcomeOk (execCvt d a l s) :=
  .issue h fun _ => .ite .trap (.done h.writeLanes)
theorem OutcomeOk.execCvtf {d a l} (h : s.Ok) : OutcomeOk (execCvtf d a l s) :=
  .issue h fun _ => .ite .trap (.done h.modMe)
theorem OutcomeOk.execTag {d a l} (h : s.Ok) : OutcomeOk (execTag d a l s) :=
  .issue h fun _ => .ite .trap (.done h.writeV)
theorem OutcomeOk.execShuf {d a u b} (h : s.Ok) : OutcomeOk (execShuf d a u b s) :=
  .issue h fun _ => .done h.writeLanes
theorem OutcomeOk.execBcast {d t a y} (h : s.Ok) : OutcomeOk (execBcast d t a y s) :=
  .issue h fun _ => .done h.writeLanes
theorem OutcomeOk.execSlide {d a u b} (h : s.Ok) : OutcomeOk (execSlide d a u b s) :=
  .issue h fun _ => .done h.writeLanes
theorem OutcomeOk.execZip {d a b} (h : s.Ok) : OutcomeOk (execZip d a b s) :=
  .issue h fun _ => .ite .trap (.done h.writeLanes)
theorem OutcomeOk.execSel {d a b} (h : s.Ok) : OutcomeOk (execSel d a b s) :=
  .issue h fun _ => .ite .trap (.done h.writeAll)
theorem OutcomeOk.execMvs {d a u b} (h : s.Ok) : OutcomeOk (execMvs d a u b s) :=
  .issue h fun _ => .done h.writeG
theorem OutcomeOk.execMvv {d t a u b} (h : s.Ok) : OutcomeOk (execMvv d t a u b s) :=
  .issue h fun _ => .done h.modMe
theorem OutcomeOk.execKand {d a b} (h : s.Ok) : OutcomeOk (execKand d a b s) :=
  .issue h fun _ => .done h.modMe
theorem OutcomeOk.execKor {d a b} (h : s.Ok) : OutcomeOk (execKor d a b s) :=
  .issue h fun _ => .done h.modMe
theorem OutcomeOk.execKnot {d a} (h : s.Ok) : OutcomeOk (execKnot d a s) :=
  .issue h fun _ => .done h.modMe
theorem OutcomeOk.execKuse {a} (h : s.Ok) : OutcomeOk (execKuse a s) :=
  .issue h fun _ => .done h.modMe
theorem OutcomeOk.execQand {d a b} (h : s.Ok) : OutcomeOk (execQand d a b s) :=
  .issue h fun _ => .done h.modMe
theorem OutcomeOk.execQor {d a b} (h : s.Ok) : OutcomeOk (execQor d a b s) :=
  .issue h fun _ => .done h.modMe
theorem OutcomeOk.execQandn {d a b} (h : s.Ok) : OutcomeOk (execQandn d a b s) :=
  .issue h fun _ => .done h.modMe
theorem OutcomeOk.execQxor {d a b} (h : s.Ok) : OutcomeOk (execQxor d a b s) :=
  .issue h fun _ => .done h.modMe
theorem OutcomeOk.execQcnt {d a} (h : s.Ok) : OutcomeOk (execQcnt d a s) :=
  .issue h fun _ => .done h.writeG
theorem OutcomeOk.execQidx {d a c} (h : s.Ok) : OutcomeOk (execQidx d a c s) :=
  .issue h fun _ => .done h.modMe
theorem OutcomeOk.execQmark {d a} (h : s.Ok) : OutcomeOk (execQmark d a s) :=
  .issue h fun _ => .ite .trap (.done h.modMe)
theorem OutcomeOk.execQclr {d a} (h : s.Ok) : OutcomeOk (execQclr d a s) :=
  .issue h fun _ => .ite .trap (.done h.modMe)

end
end Sys2Proof.Machine
end

section
/-! O60: replies, host orders and the pod plane (Machine/Replies, Sha, Pod). -/
namespace Sys2Proof.Machine
-- One proof after the other: side by side they hold more memory than a compile of the whole text may take.
set_option Elab.async false

section
variable {s : State} {k : Core} {m : Store}

theorem OutcomeOk.execHomeAccessPerform {arrival} (h : s.Ok) : OutcomeOk (execHomeAccessPerform arrival s) := by
  unfold Machine.execHomeAccessPerform
  split
  · refine .whenDue h ?_
    split
    · exact h.arriveAt.perform.corrected
    · exact h.arriveAt.perform.correctedAlone
    · exact h.arriveAt.perform
  · refine .next ?_
    split
    · exact h.correctedAlone
    · exact h

theorem OutcomeOk.execWaitaTimeout {c x} (h : s.Ok) : OutcomeOk (execWaitaTimeout c x s) := by
  unfold Machine.execWaitaTimeout
  split
  · exact .whenDue h h.returnWatch
  · exact .next h

theorem OutcomeOk.execWaitaPoll {c x} (h : s.Ok) : OutcomeOk (execWaitaPoll c x s) := by
  unfold Machine.execWaitaPoll
  split
  · split
    · exact .ite (.next h) (.ite (.next h.returnWatch) (.next h))
    · exact .next h
  · exact .next h

theorem State.Ok.noteReply {o r} (h : s.Ok) : (s.noteReply o r).Ok :=
  .ite h h.noteRelease

theorem State.Ok.passReply {o p} (h : s.Ok) : (s.passReply o p).Ok := by
  unfold State.passReply
  dsimp only
  split
  · exact .ite h (.modCore h fun _ h' => h')
  · exact h

theorem State.Ok.withdrawOp {n} (h : s.Ok) : (s.withdrawOp n).Ok :=
  .foldl h fun _ _ h' => h'.leaveSlots

theorem State.Ok.rejoinGang {c} (h : s.Ok) : (s.rejoinGang c).Ok := by
  unfold State.rejoinGang
  split
  · exact h
  · refine .foldl h fun _ _ h' => .modCtx (.modCore ?_ fun _ h' => h'.takeBack)
    split
    · exact h'.withdrawOp
    · exact h'.withdrawOp
    · exact h'

theorem State.Ok.endAccess {n o p old} (h : s.Ok) : (s.endAccess n o p old).Ok := by
  unfold State.endAccess
  refine .ite h (.ite ?_ (.ite h (.takeDue (.modCtx (.deliver h)))))
  split
  · split
    · exact .takeDue (.modCtx (.passReply h))
    · exact .trapCtx (.modCtx (.ite (.rejoinGang (.passReply h)) (.passReply h)))
  · split
    · exact .takeDue (.modCtx (.deliver (.passReply h)))
    · exact .takeDue (.modCtx (.deliver (.passReply h)))
    · exact .takeDue (.finish (.deliver (.passReply h)))

theorem State.Ok.dropReply {id n} (h : s.Ok) : (s.dropReply id n).Ok :=
  .leaveSlots h

theorem OutcomeOk.execAccessReply {id} (h : s.Ok) : OutcomeOk (execAccessReply id s) := by
  unfold Machine.execAccessReply
  dsimp only
  split
  · exact .next h
  · split
    · exact .next (.leaveSlots h)
    · refine .ite (.next (.update (.noteReply (.leaveSlots h)))) ?_
      split
      · split
        next e5 =>
          exact .next (.dropReply (.of_fst_some e5 (.copyArrived h)))
        next e6 =>
          exact .next (.of_snd e6 h.copyArrived)
      · exact .next (.guardArrived (.dropReply (.leaveSlots h)))
      · exact .next (.deliver (.dropReply (.leaveSlots h)))
      · exact .next (.deliver (.update (.leaveSlots h)))
      · exact .ite (.next h) (.next (.endAccess (.noteReply (.leaveSlots h))))

theorem OutcomeOk.execPostedAccessResponse {id} (h : s.Ok) : OutcomeOk (Machine.execPostedAccessResponse id s) := by
  unfold Machine.execPostedAccessResponse
  split
  · exact .next h
  · extract_lets _ base paid group
    have hb : base.Ok := h.update.leaveSlots.subPending
    have hp : paid.Ok := .ite hb hb.resultLost
    have hg : group.Ok := by
      dsimp only [group]
      split
      exacts [hp.modCore fun _ hk => hk, hp]
    clear_value group
    refine .ite (.next hp.lineAnswered) ?_
    split
    · exact .next (hg.modCore fun _ hk => hk.modEntry)
    · exact .ite (.next (hg.chkEvent.foldl fun _ _ ht => ht.chkEvent)) (.next hg)

theorem OutcomeOk.execUltraEthernetAcknowledgement {id} (h : s.Ok) :
    OutcomeOk (execUltraEthernetAcknowledgement id s) :=
  .next (.leaveSlots h)
theorem State.Ok.noteHeaders {p} (h : s.Ok) : (s.noteHeaders p).Ok :=
  .modFirmware h rfl
/-- The state that a field leaves is in its form. -/
def Applied.Ok (a : Applied) : Prop := a.s.Ok
theorem Applied.Ok.ite {c : Prop} [Decidable c] {a b : Applied} (ha : a.Ok) (hb : b.Ok) :
    (if c then a else b).Ok := by
  split; exacts [ha, hb]
theorem Applied.Ok.of {status reply later ask wait} (h : s.Ok) :
    ({ s := s, status := status, reply := reply, later := later, ask := ask, wait := wait } : Applied).Ok := h
theorem Applied.Ok.queue {sender bs} (h : s.Ok) : (s.applyQueue sender bs).Ok :=
  .ite (.of h) (.ite (.of h) (.of h.modQueue))

theorem SomeOk.writeRing {sender q n entries} (h : s.Ok) :
    ∀ o, s.writeRing sender q n entries = .inl o → SomeOk o := by
  induction entries generalizing s n with
  | nil => rintro _ ⟨⟩; exact h
  | cons e entries ih =>
    intro o ho
    unfold State.writeRing at ho
    dsimp only at ho
    split at ho
    next e => exact ih (.of_snd e h.unitStore) o ho
    · cases ho; trivial
    · cases ho

theorem Applied.Ok.submission {sender bs} (h : s.Ok) : (s.applySubmission sender bs).Ok := by
  unfold State.applySubmission
  refine .ite (.of h) (.ite (.of h) (.ite (.of h) ?_))
  split
  next e => exact .of (.kickTo (SomeOk.writeRing h _ e))
  · exact .of h
  · exact .of h

theorem Applied.Ok.budget {sender bs} (h : s.Ok) : (s.applyBudget sender bs).Ok :=
  .ite (.of h) (.ite (.of h) (.of (.foldl h fun _ _ ht => ht.update)))
theorem Applied.Ok.readmit {bs} (h : s.Ok) : (s.applyReadmit bs).Ok := .ite (.of h) (.of h.modPeer.update)

theorem Applied.Ok.selfTest {sender bs} (h : s.Ok) : (s.applySelfTest sender bs).Ok := by
  unfold State.applySelfTest
  split
  · exact .of h
  · exact .ite (.of h) (.ite (.of h) (.of (.modCore h fun _ hk => hk)))

theorem Applied.Ok.fence {sender bs} (h : s.Ok) : (s.applyFence sender bs).Ok := by
  unfold State.applyFence
  split
  · exact .of h
  · exact .ite (.of h.fence) (.of h)

theorem Applied.Ok.invalidate {sender bs} (h : s.Ok) : (s.applyInvalidate sender bs).Ok :=
  .ite (.of h) (.ite (.of h) (.of h.beginInvalidation))
theorem Applied.Ok.spdm {bs} (h : s.Ok) : (s.applySpdm bs).Ok := .ite (.of h) (.ite (.of h) (.of h))
theorem Applied.Ok.counter {bs} (h : s.Ok) : (s.applyCounter bs).Ok := .ite (.of h) (.of h)
theorem Applied.Ok.crash {bs} (h : s.Ok) : (s.applyCrash bs).Ok := .ite (.of h) (.ite (.of h) (.of h))
/-- A change of the firmware that leaves a formed incoming image. -/

theorem State.Ok.withFirmware {f : Firmware} (h : s.Ok) (hf : f.image.wf = true) :
    ({ s with firmware := f } : State).Ok := by
  obtain ⟨dram, marks, rels, cores, clusters, -⟩ := (State.memoriesOk_iff s).mp h
  exact (State.memoriesOk_iff _).mpr ⟨dram, marks, rels, cores, clusters, hf⟩

theorem State.Ok.image (h : s.Ok) : s.firmware.image.wf = true :=
  have ⟨_, _, _, _, _, hf⟩ := (State.memoriesOk_iff s).mp h
  hf

theorem Applied.Ok.chunk {bs verifies} (h : s.Ok) : (s.applyChunk bs verifies).Ok := by
  have hw {n data} : (s.firmware.image.write n data).wf = true := Memory.wf_write _ _ h.image
  refine .ite (.of h) (.of (.withFirmware h ?_))
  split <;> exact hw

theorem Applied.Ok.handOver {bs} (h : s.Ok) : (s.applyHandOver bs).Ok := by
  unfold State.applyHandOver
  dsimp only
  split
  · exact .of (.withFirmware h rfl)
  · exact .ite (.of (.withFirmware h rfl)) (.of h)
  · exact .of (.withFirmware h rfl)
  · exact .of h

theorem Applied.Ok.field {p f} (h : s.Ok) : (s.applyField p f).Ok := by
  unfold State.applyField
  dsimp only
  split
  · exact .queue h
  · exact .submission h
  · exact .budget h
  · exact .readmit h
  · exact .selfTest h
  · exact .fence h
  · exact .invalidate h
  · exact .spdm h
  · exact .counter h
  · exact .crash h
  · exact .chunk h
  · exact .handOver h
  · exact .of h

theorem Applied.Ok.fields {p fs a} (h : Applied.Ok a) : (State.applyFields p fs a).Ok := by
  induction fs generalizing a with
  | nil => exact h
  | cons f fs ih => exact .ite h (ih (.of (Applied.Ok.field h)))

theorem State.Ok.replyTlv {p status more} (h : s.Ok) : (s.replyTlv p status more).Ok :=
  h.sendTlv
theorem State.Ok.replyLater {p from_ more} (h : s.Ok) : (s.replyLater p from_ more).Ok :=
  h
theorem State.Ok.rejectTlv {p status} (h : s.Ok) : (s.rejectTlv p status).Ok :=
  h.count.replyTlv

theorem State.Ok.receiveTlv {p} (h : s.Ok) : (s.receiveTlv p).Ok := by
  unfold State.receiveTlv
  dsimp only
  split
  · exact h.noteHeaders.rejectTlv
  · have applied := Applied.Ok.fields (p := p) (fs := p.fields) (a := { s := s.noteHeaders p }) h.noteHeaders
    refine .ite h.noteHeaders.rejectTlv (.ite h.noteHeaders.rejectTlv (.ite h.noteHeaders.rejectTlv ?_))
    split
    · exact .getD (.unitBlocked h) h
    · exact .ite h (.ite (.replyLater applied) (.replyTlv applied))

theorem OutcomeOk.execQueueConfiguration {p} (h : s.Ok) : OutcomeOk (execQueueConfiguration p s) :=
  .whenDue h h.receiveTlv
theorem OutcomeOk.execSubmission {p} (h : s.Ok) : OutcomeOk (execSubmission p s) :=
  .whenDue h h.receiveTlv
theorem OutcomeOk.execBudget {p} (h : s.Ok) : OutcomeOk (execBudget p s) :=
  .whenDue h h.receiveTlv
theorem OutcomeOk.execPeerReadmit {p} (h : s.Ok) : OutcomeOk (execPeerReadmit p s) :=
  .whenDue h h.receiveTlv
theorem OutcomeOk.execSelfTestOrder {p} (h : s.Ok) : OutcomeOk (execSelfTestOrder p s) :=
  .whenDue h h.receiveTlv
theorem OutcomeOk.execFenceCommand {p} (h : s.Ok) : OutcomeOk (execFenceCommand p s) :=
  .whenDue h h.receiveTlv

theorem OutcomeOk.execTranslationInvalidate {order} (h : s.Ok) : OutcomeOk (execTranslationInvalidate order s) := by
  unfold Machine.execTranslationInvalidate
  split
  · exact .whenDue h h.receiveTlv
  · exact .whenDue h h.writeTables.beginInvalidation

theorem OutcomeOk.execSpdm {p} (h : s.Ok) : OutcomeOk (execSpdm p s) :=
  .whenDue h h.receiveTlv
theorem OutcomeOk.execCounterRead {p} (h : s.Ok) : OutcomeOk (execCounterRead p s) :=
  .whenDue h h.receiveTlv
theorem OutcomeOk.execCrashRecordRead {p} (h : s.Ok) : OutcomeOk (execCrashRecordRead p s) :=
  .whenDue h h.receiveTlv
theorem OutcomeOk.execImageChunk {p} (h : s.Ok) : OutcomeOk (execImageChunk p s) :=
  .whenDue h h.receiveTlv
theorem OutcomeOk.execHandOverBegin {p} (h : s.Ok) : OutcomeOk (execHandOverBegin p s) :=
  .whenDue h h.receiveTlv
theorem OutcomeOk.execHandOverCommit {p} (h : s.Ok) : OutcomeOk (execHandOverCommit p s) :=
  .whenDue h h.receiveTlv
theorem OutcomeOk.execHandOverCancel {p} (h : s.Ok) : OutcomeOk (execHandOverCancel p s) :=
  .whenDue h h.receiveTlv

theorem State.Ok.peerActs {odi rank rel acts} (h : s.Ok) : (s.peerActs odi rank rel acts).1.Ok := by
  induction acts generalizing s with
  | nil => exact h
  | cons a acts ih => exact ih h.arriveAt.actDram

theorem OutcomeOk.execPeerRequest {r} (h : s.Ok) : OutcomeOk (execPeerRequest r s) := by
  unfold Machine.execPeerRequest
  refine .ite (.next (.ite h h.send.takeSlots)) (.ite (.next h) ?_)
  split
  · exact .next (.ite h.peerActs h.peerActs.send.takeSlots)
  · exact .next (.ite h.peerActs h.peerActs.send.takeSlots)

theorem OutcomeOk.execPeerCompletion {id answer} (h : s.Ok) : OutcomeOk (execPeerCompletion id answer s) := by
  unfold Machine.execPeerCompletion
  dsimp only
  split
  · exact .next h.modPeer
  · split
    · exact .next h.modPeer.count
    · split
      · exact .next h.modPeer.update.leaveSlots.answerWith
      · exact .next (.answerWith (.ite h.modPeer.update.leaveSlots h.modPeer.update.leaveSlots.count))

theorem State.Ok.failCopy {p} (h : s.Ok) : (s.failCopy p).Ok :=
  .ite h.modRun h
theorem OutcomeOk.execPeerIsolation {n} (h : s.Ok) : OutcomeOk (execPeerIsolation n s) :=
  .whenDue h (.foldl (.foldl h.modPeer fun _ _ h' => h'.failCopy.cutOff) fun _ _ h' => h'.notify)
/-- Clearing the poison of lines keeps the marks in their form. -/

theorem rising_cleared {m : Tab Bool} {lines : List Nat} (h : Tab.rising 0 m = true) :
    Tab.rising 0 (lines.foldl (fun m l => Tab.set false m l false) m) = true := by
  induction lines generalizing m with
  | nil => exact h
  | cons l lines ih => exact ih (Tab.rising_set _ _ h (Nat.zero_le _))

theorem State.Ok.failRole {c cause} (h : s.Ok) : (s.failRole c cause).Ok := by
  obtain ⟨dram, marks, rels, cores, clusters, image⟩ := (State.memoriesOk_iff s).mp h
  unfold State.failRole
  extract_lets _ _ _ _ _ f g clean
  have hi : g.image = s.firmware.image := by dsimp only [g, f]
  have hc : Tab.rising 0 clean = true := rising_cleared marks
  clear_value g clean
  refine .noticeHosts ?_
  refine (State.memoriesOk_iff _).mpr ⟨?_, hc, rels, cores, clusters, hi ▸ image⟩
  dsimp only
  exact Memory.wf_write _ _ dram

theorem OutcomeOk.execWatchdogExpiry {move} (h : s.Ok) : OutcomeOk (execWatchdogExpiry move s) := by
  unfold Machine.execWatchdogExpiry
  split
  · exact .whenDue h h.failRole
  · exact .whenDue h (.failRole (.modCore h fun _ h' => h'))
  · exact .whenDue h (.modFirmware h rfl)

theorem State.Ok.applyFences {entries} (h : s.Ok) : (s.applyFences entries).Ok :=
  .foldl h fun _ _ h' => .ite (.modCore (.ite h'.clearClasses.stopTask h'.clearClasses) fun _ h' => h')
      (.ite h'.clearClasses.stopTask h'.clearClasses)

theorem OutcomeOk.execHostTableSupply {t} (h : s.Ok) : OutcomeOk (execHostTableSupply t s) := by
  unfold Machine.execHostTableSupply
  split
  · exact .whenDue h (.modFirmware (.applyFences (.modFirmware h rfl)) rfl)
  · exact .whenDue h (.modFirmware (.modFirmware h rfl) rfl)

theorem State.Ok.reboot : s.reboot.Ok := by
  have fresh : State.reset.Ok := rfl
  exact .ite fresh.update.applyFences fresh.update
theorem OutcomeOk.execPowerOnReset (_ : s.Ok) : OutcomeOk (execPowerOnReset s) :=
  .next .reboot

theorem OutcomeOk.execWarmReset (h : s.Ok) : OutcomeOk (execWarmReset s) := by
  obtain ⟨dram, marks, rels, -⟩ := (State.memoriesOk_iff s).mp h
  obtain ⟨-, -, -, cores, clusters, image⟩ := (State.memoriesOk_iff s.reboot).mp State.Ok.reboot
  exact (State.memoriesOk_iff _).mpr ⟨dram, marks, rels, cores, clusters, image⟩

theorem OutcomeOk.execIllegalInstruction {word wide} (h : s.Ok) : OutcomeOk (execIllegalInstruction word wide s) :=
  .issue h fun _ => .trap

end
end Sys2Proof.Machine
end

section
/-! O60: what each instruction answers, and every turn. -/
namespace Sys2Proof.Machine
-- One proof after the other: side by side they hold more memory than a compile of the whole text may take.
set_option Elab.async false

section
variable {s : State}

/-- Every row of the opcode table keeps the form. -/
theorem OutcomeOk.exec {i} (h : s.Ok) : OutcomeOk (exec i s) :=
  match i with
  | .add .. => .execAdd h
  | .addG16 .. => .execAddG16 h
  | .addV16 .. => .execAddV16 h
  | .sub .. => .execSub h
  | .subG16 .. => .execSubG16 h
  | .mul .. => .execMul h
  | .mulV16 .. => .execMulV16 h
  | .mulh .. => .execMulh h
  | .and .. => .execAnd h
  | .andG16 .. => .execAndG16 h
  | .or .. => .execOr h
  | .orG16 .. => .execOrG16 h
  | .xor .. => .execXor h
  | .xorG16 .. => .execXorG16 h
  | .andn .. => .execAndn h
  | .shl .. => .execShl h
  | .shlG16 .. => .execShlG16 h
  | .shr .. => .execShr h
  | .shrG16 .. => .execShrG16 h
  | .sar .. => .execSar h
  | .rot .. => .execRot h
  | .min .. => .execMin h
  | .max .. => .execMax h
  | .absd .. => .execAbsd h
  | .neg .. => .execNeg h
  | .div .. => .execDiv h
  | .rem .. => .execRem h
  | .sqrt .. => .execSqrt h
  | .rsq .. => .execRsq h
  | .fma .. => .execFma h
  | .fms .. => .execFms h
  | .dot .. => .execDot h
  | .scale .. => .execScale h
  | .ceq .. => .execCeq h
  | .cne .. => .execCne h
  | .clt .. => .execClt h
  | .cle .. => .execCle h
  | .clz .. => .execClz h
  | .ffs .. => .execFfs h
  | .popc .. => .execPopc h
  | .brev .. => .execBrev h
  | .cvt .. => .execCvt h
  | .cvtf .. => .execCvtf h
  | .tag .. => .execTag h
  | .shuf .. => .execShuf h
  | .bcast .. => .execBcast h
  | .slide .. => .execSlide h
  | .zip .. => .execZip h
  | .mov .. => .execMov h
  | .movG16 .. => .execMovG16 h
  | .movV16 .. => .execMovV16 h
  | .mvs .. => .execMvs h
  | .mvv .. => .execMvv h
  | .sel .. => .execSel h
  | .rsum .. => .execRsum h
  | .rmax .. => .execRmax h
  | .rmin .. => .execRmin h
  | .ror .. => .execRor h
  | .kand .. => .execKand h
  | .kor .. => .execKor h
  | .knot .. => .execKnot h
  | .kuse .. => .execKuse h
  | .exp2 .. => .execExp2 h
  | .log2 .. => .execLog2 h
  | .rcp .. => .execRcp h
  | .tanh .. => .execTanh h
  | .qand .. => .execQand h
  | .qor .. => .execQor h
  | .qandn .. => .execQandn h
  | .qxor .. => .execQxor h
  | .qcnt .. => .execQcnt h
  | .qidx .. => .execQidx h
  | .qmark .. => .execQmark h
  | .qclr .. => .execQclr h
  | .vgth .. => .execVgth h
  | .vsct .. => .execVsct h
  | .addi .. => .execAddi h
  | .addiG16 .. => .execAddiG16 h
  | .andi .. => .execAndi h
  | .lit .. => .execLit h
  | .litG16 .. => .execLitG16 h
  | .lith .. => .execLith h
  | .ld .. => .execLd h
  | .ldG16 .. => .execLdG16 h
  | .st .. => .execSt h
  | .stG16 .. => .execStG16 h
  | .vld .. => .execVld h
  | .vst .. => .execVst h
  | .aadd .. => .execAadd h
  | .aand .. => .execAand h
  | .aor .. => .execAor h
  | .axor .. => .execAxor h
  | .amin .. => .execAmin h
  | .amax .. => .execAmax h
  | .axch .. => .execAxch h
  | .acas .. => .execAcas h
  | .afadd .. => .execAfadd h
  | .avadd .. => .execAvadd h
  | .ldaq .. => .execLdaq h
  | .strl .. => .execStrl h
  | .fence .. => .execFence h
  | .waita .. => .execWaita h
  | .bz .. => .execBz h
  | .bzG16 .. => .execBzG16 h
  | .bnz .. => .execBnz h
  | .bnzG16 .. => .execBnzG16 h
  | .bany .. => .execBany h
  | .bnone .. => .execBnone h
  | .loop .. => .execLoop h
  | .jtab .. => .execJtab h
  | .br .. => .execBr h
  | .br16 .. => .execBr16 h
  | .call .. => .execCall h
  | .jr .. => .execJr h
  | .ret => .execRet h
  | .ret16 => .execRet16 h
  | .leave => .execLeave h
  | .trap .. => .execTrap h
  | .rett .. => .execRett h
  | .bkpt .. => .execBkpt h
  | .nop => .execNop h
  | .nop16 => .execNop16 h
  | .hstart .. => .execHstart h
  | .hexit => .execHexit h
  | .hexit16 => .execHexit16 h
  | .hwait .. => .execHwait h
  | .live .. => .execLive h
  | .gang .. => .execGang h
  | .ungang => .execUngang h
  | .mfs .. => .execMfs h
  | .mts .. => .execMts h
  | .chkerr .. => .execChkerr h
  | .tnext .. => .execTnext h
  | .tend .. => .execTend h
  | .tend16 .. => .execTend16 h
  | .pair => .execPair h
  | .unpair => .execUnpair h
  | .extl .. => .execExtl h
  | .extr .. => .execExtr h
  | .halloc .. => .execHalloc h
  | .hfree .. => .execHfree h
  | .msend .. => .execMsend h
  | .mwait => .execMwait h
  | .mwait16 => .execMwait16 h
  | .mtake .. => .execMtake h
  | .mtake16 .. => .execMtake16 h
  | .cpyset .. => .execCpyset h
  | .cpygo .. => .execCpygo h
  | .cpyst .. => .execCpyst h
  | .eqf .. => .execEqf h
  | .cbinit .. => .execCbinit h
  | .cbacq .. => .execCbacq h
  | .cbcom .. => .execCbcom h
  | .cbwait .. => .execCbwait h
  | .cbrel .. => .execCbrel h
  | .mma .. => .execMma h
  | .mmag .. => .execMmag h
  | .mcommit .. => .execMcommit h
  | .mwaitb .. => .execMwaitb h
  | .tld .. => .execTld h
  | .tldt .. => .execTldt h
  | .tst .. => .execTst h
  | .trd .. => .execTrd h
  | .twr .. => .execTwr h
  | .tzero .. => .execTzero h
  | .barset .. => .execBarset h
  | .barwait .. => .execBarwait h
  | .bararv .. => .execBararv h
  | .xmit .. => .execXmit h
  | .intake .. => .execIntake h
  | .xchg .. => .execXchg h
  | .grpset .. => .execGrpset h
  | .mcast .. => .execMcast h
  | .qld .. => .execQld h
  | .qst .. => .execQst h
  | .meet .. => .execMeet h
  | .meetq .. => .execMeetq h
  | .split .. => .execSplit h
  | .cfcfg .. => .execCfcfg h
  | .cvdone => .execCvdone h
  | .cvst .. => .execCvst h
  | .helperTrapDelivery .. => .execHelperTrapDelivery h
  | .taskRedelivery .. => .execTaskRedelivery h
  | .gangForm .. => .execGangForm h
  | .tnextTake .. => .execTnextTake h
  | .taskDelivery .. => .execTaskDelivery h
  | .staticHandleFree .. => .execStaticHandleFree h
  | .coreAssignment .. => .execCoreAssignment h
  | .partitionClear .. => .execPartitionClear h
  | .preemption .. => .execPreemption h
  | .preemptionResume .. => .execPreemptionResume h
  | .uncorrectableError .. => .execUncorrectableError h
  | .homeAccessPerform .. => .execHomeAccessPerform h
  | .accessReply .. => .execAccessReply h
  | .waitaTimeout .. => .execWaitaTimeout h
  | .waitaPoll .. => .execWaitaPoll h
  | .mailboxArrival .. => .execMailboxArrival h
  | .copyStart .. => .execCopyStart h
  | .copyCompletion .. => .execCopyCompletion h
  | .cbacqGrant .. => .execCbacqGrant h
  | .cbwaitGrant .. => .execCbwaitGrant h
  | .arbiterGrant .. => .execArbiterGrant h
  | .matrixEntryComplete .. => .execMatrixEntryComplete h
  | .batchComplete .. => .execBatchComplete h
  | .barrierArrivalSend .. => .execBarrierArrivalSend h
  | .barrierArrivalReceive .. => .execBarrierArrivalReceive h
  | .barrierRelease .. => .execBarrierRelease h
  | .exchangePhaseEnd .. => .execExchangePhaseEnd h
  | .xmitDrive .. => .execXmitDrive h
  | .exchangeCollision => .execExchangeCollision h
  | .xmitArrival .. => .execXmitArrival h
  | .intakeLatch .. => .execIntakeLatch h
  | .xchgExchange .. => .execXchgExchange h
  | .meetArrival .. => .execMeetArrival h
  | .meetqResolve .. => .execMeetqResolve h
  | .grpsetResume .. => .execGrpsetResume h
  | .grpsetTimeout .. => .execGrpsetTimeout h
  | .networkMerge .. => .execNetworkMerge h
  | .deadlockProbe .. => .execDeadlockProbe h
  | .deadlockEscape .. => .execDeadlockEscape h
  | .lossMarker .. => .execLossMarker h
  | .translationWalk .. => .execTranslationWalk h
  | .staAnswer .. => .execStaAnswer h
  | .staRefusal .. => .execStaRefusal h
  | .staTimeout .. => .execStaTimeout h
  | .staInvalidate .. => .execStaInvalidate h
  | .invalidationComplete .. => .execInvalidationComplete h
  | .pairRendezvous .. => .execPairRendezvous h
  | .pairTimeout .. => .execPairTimeout h
  | .pairIntervalCompare .. => .execPairIntervalCompare h
  | .selfTestPeriodic .. => .execSelfTestPeriodic h
  | .rebalance .. => .execRebalance h
  | .priorityAging .. => .execPriorityAging h
  | .clusterWake .. => .execClusterWake h
  | .clusterGate .. => .execClusterGate h
  | .bandStart .. => .execBandStart h
  | .reconstruction .. => .execReconstruction h
  | .controllerUpdate .. => .execControllerUpdate h
  | .launchComplete .. => .execLaunchComplete h
  | .budgetPeriod => .execBudgetPeriod h
  | .clNop .. => .execClNop h
  | .clLaunch .. => .execClLaunch h
  | .clCopy .. => .execClCopy h
  | .clWait .. => .execClWait h
  | .clSignal .. => .execClSignal h
  | .clSkipif .. => .execClSkipif h
  | .clJump .. => .execClJump h
  | .clCall .. => .execClCall h
  | .clReturn .. => .execClReturn h
  | .clSetreg .. => .execClSetreg h
  | .kick .. => .execKick h
  | .deltaUpdate .. => .execDeltaUpdate h
  | .deltaDispatch .. => .execDeltaDispatch h
  | .statusRecordWrite .. => .execStatusRecordWrite h
  | .queueConfiguration .. => .execQueueConfiguration h
  | .submission .. => .execSubmission h
  | .budget .. => .execBudget h
  | .peerReadmit .. => .execPeerReadmit h
  | .selfTestOrder .. => .execSelfTestOrder h
  | .fenceCommand .. => .execFenceCommand h
  | .translationInvalidate .. => .execTranslationInvalidate h
  | .spdm .. => .execSpdm h
  | .counterRead .. => .execCounterRead h
  | .crashRecordRead .. => .execCrashRecordRead h
  | .imageChunk .. => .execImageChunk h
  | .handOverBegin .. => .execHandOverBegin h
  | .handOverCommit .. => .execHandOverCommit h
  | .handOverCancel .. => .execHandOverCancel h
  | .peerRequest .. => .execPeerRequest h
  | .peerCompletion .. => .execPeerCompletion h
  | .peerIsolation .. => .execPeerIsolation h
  | .watchdogExpiry .. => .execWatchdogExpiry h
  | .powerOnReset => .execPowerOnReset h
  | .warmReset => .execWarmReset h
  | .stackPark .. => .execStackPark h
  | .scrubRead .. => .execScrubRead h
  | .illegalInstruction .. => .execIllegalInstruction h
  | .clBadOp .. => .execClBadOp h
  | .postedAccessResponse .. => .execPostedAccessResponse h
  | .ultraEthernetAcknowledgement .. => .execUltraEthernetAcknowledgement h
  | .linkReplay .. => .execLinkReplay h
  | .selfTestCompletion .. => .execSelfTestCompletion h
  | .reEncodeComplete .. => .execReEncodeComplete h
  | .partitionClearComplete .. => .execPartitionClearComplete h
  | .hostTableSupply .. => .execHostTableSupply h

/-! ### The turns -/

theorem State.Ok.calm {c} (h : s.Ok) : (s.calm c).Ok := h.unparkAll.dropDrive.modCore fun _ hk => hk.backToLoop

theorem State.Ok.reportFailed {c} (h : s.Ok) : (s.reportFailed c).Ok := by
  unfold State.reportFailed
  split
  · exact h.report.modCore fun _ hk => hk.endTask
  · exact h

theorem State.Ok.respond {c} (h : s.Ok) : (s.respond c).Ok := by
  have counted {n} : (if bitsN (s.core c).tcause 7 0 = 3 then s else s.count Count.taskCause n).Ok := .ite h h.count
  unfold State.respond
  dsimp only
  split
  · exact counted.calm
  · exact .ite (.stopTask (h.foldl fun _ _ ht => ht.modCore fun _ hk => hk.queueRedelivery))
      (.ite h (.stopTask (counted.foldl fun _ _ ht => ht.reportFailed)))

theorem State.Ok.follow {lead members} (h : s.Ok) : (s.follow lead members).Ok :=
  h.foldl fun _ _ ht => .ite ht ht.modCtx
theorem State.Ok.remember {start i members} (h : s.Ok) : (s.remember start i members).Ok :=
  .ite h (h.foldl fun _ _ ht => ht.modCore fun _ hk => hk)
/-- A gang starts over from where it began, or goes on from what its members have done. -/

theorem OutcomeOk.gangExec {i start members} (hs : start.Ok) (h : s.Ok) : OutcomeOk (gangExec i start members s) := by
  induction members generalizing s with
  | nil => exact h
  | cons m rest ih =>
    unfold Machine.gangExec
    dsimp only
    split
    next e =>
      have ht := State.Ok.of_next e (.exec h.update)
      exact .ite (.exec hs.update) (.ite (.next hs.update) (ih ht))
    next => exact .exec h.update

theorem State.Ok.issuing {c x} (h : s.Ok) : (s.issuing c x).Ok := .modCtx (h.modCore fun _ hk => hk)

theorem OutcomeOk.issueAlone {c x} (h : s.Ok) : OutcomeOk (s.issueAlone c x) := by
  have at_ : ({ s with cur := (c, x) } : State).Ok := h.update
  unfold State.issueAlone
  refine .ite (.next at_) (.ite (.next at_.respond) ?_)
  split
  next e => exact .next (.of_snd e at_.fetchAt)
  next e =>
    have ht := State.Ok.of_snd e at_.fetchAt
    refine .ite (.next at_) ?_
    split
    · exact .exec ht.issuing
    · exact .next ht.issuing.trapDrained
    · exact .next ht

theorem OutcomeOk.issueGang {members} (h : s.Ok) : OutcomeOk (s.issueGang members) := by
  have all {t : State} (ht : t.Ok) : (members.foldl (fun t m => t.issuing m 0) t).Ok := ht.foldl fun _ _ hu => hu.issuing
  have lead : ({ s with cur := (members.headD 0, 0) } : State).Ok := h.update
  unfold State.issueGang
  refine .ite (.next h) (.ite (.next h.respond) ?_)
  extract_lets
  split
  next e => exact .next (.of_snd e lead.follow.fetchAt)
  next e =>
    have ht := State.Ok.of_snd e lead.follow.fetchAt
    refine .ite (.next lead.follow) ?_
    split
    · exact .next (all ht).trapDrained
    · split
      next e =>
        have hu := State.Ok.of_next e (.gangExec (all ht) (all ht))
        exact .next (.ite hu.remember.follow hu.remember)
      · exact .gangExec (all ht) (all ht)
    · exact .next ht

theorem OutcomeOk.issueTurn {c x} (h : s.Ok) : OutcomeOk (s.issueTurn c x) := by
  unfold State.issueTurn
  split
  · exact .ite (.issueAlone h) (.ite (.issueGang h) (.next h))
  · exact .issueAlone h

theorem OutcomeOk.take {t} (h : s.Ok) : OutcomeOk (s.take t) := by
  unfold State.take
  split
  · exact .issueTurn h
  · split
    next e => exact .next (.ite h (.of_next e (.exec h)))
    next => exact .exec h
  · exact .next h.noteBusy.update

theorem OutcomeOk.step (h : s.Ok) : OutcomeOk (step s) := by
  have on {rest : List Turn} : ({ s with agenda := rest } : State).Ok := h.update
  unfold Machine.step State.defaultTurn
  split
  · exact .take on
  · split
    · exact .take on
    · exact .next h

end

/-- Settles O60: each operation keeps the form (`State.Ok`), so each row of the opcode table does, and so each turn. -/
theorem stepKeepsMemories : Obligations.StepKeepsMemories := by
  unfold Obligations.StepKeepsMemories
  intro s t h e
  exact State.Ok.of_next e (.step h)

end Sys2Proof.Machine
end

section
/-! O9: floating lanes. A floating tag is no integer tag, so each lane operation is its rounding of the exact values. -/
namespace Sys2Proof.Machine
-- One proof after the other: side by side they hold more memory than a compile of the whole text may take.
set_option Elab.async false

/-! ### Lane operations on a floating tag -/

section
variable {ty : BitVec 5} (hf : isFloatTag ty = true)
include hf
theorem isIntTag_of_float : isIntTag ty = false := by revert ty; decide
theorem isNumTag_of_float : isNumTag ty = true := by simp [isNumTag, hf]
theorem isOrderTag_of_float : isOrderTag ty = true := by simp [isOrderTag, isNumTag_of_float hf]
theorem laneAdd_of_float (m : BitVec 2) (a b : Nat) : laneAdd ty m a b = fpLane fpAdd ty m a b := by
  simp [laneAdd, isIntTag_of_float hf]
theorem laneSub_of_float (m : BitVec 2) (a b : Nat) : laneSub ty m a b = fpLane fpSub ty m a b := by
  simp [laneSub, isIntTag_of_float hf]
theorem laneMul_of_float (m : BitVec 2) (a b : Nat) : laneMul ty m a b = fpLane fpMul ty m a b := by
  simp [laneMul, isIntTag_of_float hf]
theorem laneDiv_of_float (m : BitVec 2) (a b : Nat) : laneDiv ty m a b = fpLane fpDiv ty m a b := by
  simp [laneDiv, isIntTag_of_float hf]
theorem laneMinMax_of_float (isMax : Bool) (m : BitVec 2) (a b : Nat) : laneMinMax isMax ty m a b =
    fpMinMax (floatFmt ty) isMax ((floatFmt ty).decode a) ((floatFmt ty).decode b) := by
  simp [laneMinMax, hf]
theorem laneAbsd_of_float (m : BitVec 2) (a b : Nat) : laneAbsd ty m a b =
    ((fpLane fpSub ty m a b).1 % 2 ^ ((floatFmt ty).e + (floatFmt ty).m), (fpLane fpSub ty m a b).2) := by
  simp [laneAbsd, isIntTag_of_float hf, fpLane]
theorem laneNeg_of_float (a : Nat) : laneNeg ty a =
    if ((floatFmt ty).decode a).isNan then
      ((floatFmt ty).nanCode, if ((floatFmt ty).decode a).isSignalling then flagInvalid else 0)
    else ((a + 2 ^ ((floatFmt ty).e + (floatFmt ty).m)) % 2 ^ laneWidth ty, 0) := by
  simp [laneNeg, isIntTag_of_float hf, flagIf]
theorem laneFma_of_float (m : BitVec 2) (minus : Bool) (a b c : Nat) : laneFma ty m minus a b c =
    fpFma (floatFmt ty) m ((floatFmt ty).decode a) ((floatFmt ty).decode b)
      (if minus then ((floatFmt ty).decode c).neg else (floatFmt ty).decode c) := by
  simp [laneFma, isIntTag_of_float hf]
end

/-! ### FMA and FMS by lanes -/

theorem State.doFma_lanes (s : State) (p minus : Bool) {d a b : BitVec 6} {t u : BitVec 2} {ty : BitVec 5}
    (h : s.firstTag t a u b = some ty) (ha : isNumTag ty = true) (hd : s.tagsDiffer t a u b = false)
    (hold : (s.v d.toNat).tag = ty) :
    s.doFma p minus d t a u b =
      .done (s.writeLanes d.toNat ty p ((s.laneOpnd false t a ty).2 ||| (s.laneOpnd false u b ty).2) fun i =>
        laneFma ty s.me.rmode minus ((s.laneOpnd false t a ty).1 i) ((s.laneOpnd false u b ty).1 i)
          (lane (s.v d.toNat).bits (laneWidth ty) i)) := by
  unfold State.doFma
  simp [h, ha, hd, hold]

/-! ### From the shapes to floating lanes -/

/-- An instruction of the two-operand shape on floating lanes, as the operation on a lane says. -/
theorem State.GivesLanes.of_floats {s : State} {i : Instr} {acc d t a u b onLane onWord ty} {f : Nat → Coded}
    (hi : exec i s = issue i s fun p s => s.arith2 p acc false d t a u b onLane onWord)
    (h : s.firstTag t a u b = some ty) (hd : s.tagsDiffer t a u b = false) (ha : acc ty = true)
    (hl : ∀ n, onLane ty s.me.rmode ((s.laneOpnd false t a ty).1 n) ((s.laneOpnd false u b ty).1 n) = f n) :
    s.GivesLanes i d ty ((s.laneOpnd false t a ty).2 ||| (s.laneOpnd false u b ty).2) f :=
  (State.GivesLanes.of_arith2 hi h hd ha).congr rfl fun n _ => by rw [hl n]; exact ⟨rfl, rfl⟩

/-- FMA or FMS on floating lanes. -/
theorem State.GivesLanes.of_fma {s : State} {i : Instr} {minus d t a u b ty} {f : Nat → Coded}
    (hi : exec i s = issue i s fun p s => s.doFma p minus d t a u b)
    (h : s.firstTag t a u b = some ty) (hd : s.tagsDiffer t a u b = false) (ha : isNumTag ty = true)
    (hold : (s.v d.toNat).tag = ty)
    (hl : ∀ n, laneFma ty s.me.rmode minus ((s.laneOpnd false t a ty).1 n) ((s.laneOpnd false u b ty).1 n)
      (lane (s.v d.toNat).bits (laneWidth ty) n) = f n) :
    s.GivesLanes i d ty ((s.laneOpnd false t a ty).2 ||| (s.laneOpnd false u b ty).2) f :=
  (State.GivesLanes.of_body hi (s.doFma_lanes _ minus h ha hd hold)).congr rfl fun n _ => by rw [hl n]; exact ⟨rfl, rfl⟩

/-- The 16-bit vector forms: both operands are v registers of the tag, the first one the destination. -/
theorem State.GivesLanes.of_short {s : State} {i : Instr} {acc onLane onWord} {d : BitVec 5} {a : BitVec 6}
    {ty : BitVec 5} {f : Nat → Coded}
    (hi : exec i s = issue i s fun p s => s.arith2 p acc false (d.setWidth 6) 1 (d.setWidth 6) 1 a onLane onWord)
    (hd : (s.v d.toNat).tag = ty) (hy : (s.v a.toNat).tag = ty) (ha : acc ty = true)
    (hl : ∀ n, onLane ty s.me.rmode (lane (s.v d.toNat).bits (laneWidth ty) n)
      (lane (s.v a.toNat).bits (laneWidth ty) n) = f n) :
    s.GivesLanes i (d.setWidth 6) ty 0 f := by
  have hn : (d.setWidth 6).toNat = d.toNat := by simp; omega
  refine (State.GivesLanes.of_floats (f := f) hi ?_ ?_ ha fun n => ?_).congr (by simp [State.laneOpnd])
    fun _ _ => ⟨rfl, rfl⟩
  · simp [State.firstTag, hd, -BitVec.toNat_setWidth, hn]
  · simp [State.tagsDiffer, hd, hy, -BitVec.toNat_setWidth, hn]
  · rw [← hl n, ← hn]; rfl

/-- Settles O9: by the shape of each instruction and its lane operation on a floating tag. -/
theorem vectorFloats : Obligations.VectorFloats := by
  unfold Obligations.VectorFloats
  refine ⟨fun s d a b t u ty h hd hf => ?_, fun s d a hf => ?_, fun s d a ty hx hy hf => ?_⟩
  · have num := isNumTag_of_float hf
    have order := isOrderTag_of_float hf
    refine ⟨.of_floats rfl h hd num fun n => laneAdd_of_float hf _ _ _,
      .of_floats rfl h hd num fun n => laneSub_of_float hf _ _ _,
      .of_floats rfl h hd num fun n => laneMul_of_float hf _ _ _,
      .of_floats rfl h hd num fun n => laneDiv_of_float hf _ _ _,
      .of_floats rfl h hd order fun n => laneMinMax_of_float hf _ _ _ _,
      .of_floats rfl h hd order fun n => laneMinMax_of_float hf _ _ _ _,
      .of_floats rfl h hd num fun n => laneAbsd_of_float hf _ _ _, fun hold => ?_⟩
    exact ⟨.of_fma rfl h hd num hold fun n => laneFma_of_float hf _ _ _ _ _,
      .of_fma rfl h hd num hold fun n => laneFma_of_float hf _ _ _ _ _⟩
  · refine (State.GivesLanes.of_arith1 (acc := isNumTag) (f := laneNeg) rfl (isNumTag_of_float hf)).congr rfl fun n _ => ?_
    rw [laneNeg_of_float hf]
    exact ⟨rfl, rfl⟩
  · exact ⟨.of_short rfl hx hy (isNumTag_of_float hf) fun n => laneAdd_of_float hf _ _ _,
      .of_short rfl hx hy (isNumTag_of_float hf) fun n => laneMul_of_float hf _ _ _⟩

end Sys2Proof.Machine
end

section
/-! O13: conversions. What an effect on the context alone leaves, the loop of CVTF lane by lane, and the three
instructions. -/
namespace Sys2Proof.Machine
-- One proof after the other: side by side they hold more memory than a compile of the whole text may take.
set_option Elab.async false

/-! ### An effect that changes the issuing context alone -/

theorem State.retires_efr {s u : State} {i : Instr} (next : Word) (hc : u.cur = s.cur) :
    (s.retires i u next).me.efr = u.me.efr := by
  obtain ⟨w, hm⟩ := State.retires_me (i := i) next hc
  rw [hm]
  simp only [Context.goto_efr]
  split <;> rfl

/-- The instruction completes, with the v registers, the flags and the residual that the effect has left. -/
theorem State.completes_modMe {s : State} {i : Instr} {body : Bool → State → Res} {f : Context → Context}
    {regs : List Reg} (hi : exec i s = issue i s body)
    (hb : body (poisonedSource i s) s = .done (s.modMe f)) (hc : s.clear i = true) (hk : s.me.Keeps (f s.me) regs)
    (hlp : (f s.me).lp = s.me.lp) (hlpd : (f s.me).lpd = s.me.lpd) (hchk : (f s.me).chk = s.me.chk) :
    ∃ t, exec i s = .next t ∧ s.Completes t i regs ∧ (∀ n, t.v n = (f s.me).readV n) ∧ t.me.fpf = (f s.me).fpf ∧
      t.me.efr = (f s.me).efr := by
  have kept := State.Keeps.modMe hk
  refine ⟨_, hi.trans (issue_done hc hb), .of_done kept ?_ ?_ fun _ => ?_, fun n => ?_, ?_, ?_⟩
  · rw [State.me_modMe, hlp]
  · rw [State.me_modMe, hlpd]
  · rw [State.me_modMe, hchk]
  · exact (State.retires_readV _ kept.cur n).trans (congrArg (·.readV n) (s.me_modMe f))
  · rw [State.retires_fpf _ kept.cur, State.me_modMe]
  · rw [State.retires_efr _ kept.cur, State.me_modMe]

/-! ### CVT -/

/-- An integer becomes an integer by saturation to the destination's range (R46). -/
theorem Context.convert_int (x : Context) {src dst : BitVec 5} (hs : isIntTag src = true) (hd : isIntTag dst = true)
    (c : Nat) : (x.convert src dst c).1 =
      ((max (intLo (isSigned dst) (laneWidth dst)) (min (intHi (isSigned dst) (laneWidth dst)) (laneInt src c))) %
        2 ^ laneWidth dst).toNat := by
  have notFloat {ty : BitVec 5} (h : isIntTag ty = true) : isFloatTag ty = false ∧ isNarrow ty = false := by
    revert ty; decide
  unfold Context.convert
  simp only [notFloat hs, notFloat hd, saturate, Bool.or_self, Bool.false_eq_true, if_false]

theorem State.cvt_gives {s : State} {d a l : BitVec 6} (hraw : isRaw (s.v a.toNat).tag = false)
    (hraw' : isRaw (l.setWidth 5) = false) (hbad : s.me.badNarrow (s.v a.toNat).tag = false)
    (hbad' : s.me.badNarrow (l.setWidth 5) = false) :
    s.GivesLanes (.cvt d a l) d (l.setWidth 5) 0 fun n =>
      if n < laneCount (s.v a.toNat).tag ∧ n < laneCount (l.setWidth 5) then
        s.me.convert (s.v a.toNat).tag (l.setWidth 5) (lane (s.v a.toNat).bits (laneWidth (s.v a.toNat).tag) n)
      else (0, 0) := by
  refine .of_body (show execCvt d a l s = _ from rfl) ?_
  dsimp only
  rw [if_neg (by rw [hraw, hraw', hbad, hbad']; decide)]
  simp only [Nat.lt_min]

/-! ### CVTF -/

section
variable {km : Word} {src dst : Fmt} {uns : Bool} {old code : Nat → Nat}

theorem cvtfLanes_length (n i : Nat) (st : Nat × BitVec 5) :
    (cvtfLanes km src dst uns old code n i st).1.length = n := by
  induction n generalizing i st with
  | zero => rfl
  | succ n ih =>
    unfold cvtfLanes
    split
    · exact congrArg (· + 1) (ih _ _)
    · exact congrArg (· + 1) (ih _ _)

/-- A lane outside the mask keeps its bits. -/
theorem cvtfLanes_masked {n j : Nat} (i : Nat) (st : Nat × BitVec 5) (hj : j < n) (hk : km.getLsbD (i + j) = false) :
    (cvtfLanes km src dst uns old code n i st).1.getD j 0 = old (i + j) := by
  induction n generalizing i j st with
  | zero => exact absurd hj (Nat.not_lt_zero j)
  | succ n ih =>
    cases j with
    | zero =>
      unfold cvtfLanes
      rw [if_pos (by rw [← Nat.add_zero i, hk]; rfl)]
      rfl
    | succ j =>
      have hrest : i + (j + 1) = i + 1 + j := by omega
      rw [hrest] at hk ⊢
      unfold cvtfLanes
      split
      · exact ih _ _ (Nat.lt_of_succ_lt_succ hj) hk
      · exact ih _ _ (Nat.lt_of_succ_lt_succ hj) hk
end

/-- The register that CVTF writes: the loop's codes and +0 in the lanes above, under km. -/
def cvtfBits (km : Word) (ty : BitVec 5) (old : Vec) (n : Nat) (codes : List Nat) : Vec :=
  packVec (laneWidth ty) (codes ++ (span n (laneCount ty - n)).map fun i =>
    if km.getLsbD i then 0 else lane old (laneWidth ty) i)

/-- Its lanes, when the codes are those of a loop over the source's lanes. -/
theorem lane_cvtfBits {km : Word} {ty : BitVec 5} {old : Vec} {n : Nat} {codes : List Nat} (hn : codes.length = n)
    (hle : n ≤ laneCount ty)
    (hold : ∀ i, i < n → km.getLsbD i = false → codes.getD i 0 = lane old (laneWidth ty) i) {i : Nat}
    (hi : i < laneCount ty) :
    lane (cvtfBits km ty old n codes) (laneWidth ty) i =
      if km.getLsbD i = false then lane old (laneWidth ty) i
      else if i < n then codes.getD i 0 % 2 ^ laneWidth ty else 0 := by
  unfold cvtfBits
  rw [lane_packVec _ _ _ (by
    rw [List.length_append, List.length_map, span_length, hn, Nat.add_sub_cancel' hle, laneWidth_mul_laneCount])]
  rcases Nat.lt_or_ge i n with below | above
  · rw [List.getD_append _ _ _ _ (hn ▸ below), if_pos below]
    split
    next off => rw [hold i below off, Nat.mod_eq_of_lt (lane_lt _ _ _)]
    next => rfl
  · have hget : (span n (laneCount ty - n))[i - n]? = some i := by
      rw [span_getElem?, if_pos (by omega), Nat.add_sub_cancel' above]
    rw [List.getD_append_right _ _ _ _ (hn ▸ above), hn, List.getD, List.getElem?_map, hget, if_neg (Nat.not_lt.mpr above),
      Option.map_some, Option.getD_some]
    split
    next on => rw [if_neg (by rw [on]; decide), Nat.zero_mod]
    next off => rw [if_pos (Bool.eq_false_iff.mpr off), Nat.mod_eq_of_lt (lane_lt _ _ _)]

/-- What CVTF leaves of the context: the register, the flags and, when chained, the residual. -/
def Context.withCvtf (x : Context) (d : Nat) (v : VVal) (chained : Bool) (residual : Nat) (flags : BitVec 5) : Context :=
  { x.writeV d v with fpf := x.fpf ||| flags, efr := if chained then BitVec.ofNat 32 residual else x.efr }

theorem Context.Keeps.withCvtf (x : Context) (d : Nat) (v : VVal) (chained : Bool) (residual : Nat) (flags : BitVec 5) :
    x.Keeps (x.withCvtf d v chained residual flags) [.v d, .status 0x08, .status 0x09] :=
  { Context.Keeps.writeV x d v [.v d, .status 0x08, .status 0x09] (by simp) with
    fpf := fun h => absurd (by simp) h, efr := fun h => absurd (by simp) h }

/-- A source of CVTF has no more lanes than a destination. -/
theorem laneCount_cvtf {src ty : BitVec 5} (hs : src = 8 ∨ src = 9 ∨ src = 10)
    (hd : ty = 8 ∨ ty = 9 ∨ isNarrow ty = true) : laneCount src ≤ laneCount ty := by
  have few : laneCount src ≤ 32 := by rcases hs with rfl | rfl | rfl <;> decide
  have many : 32 ≤ laneCount ty := by revert ty; decide
  exact few.trans many

/-- The loop that CVTF runs. -/
def State.cvtfRun (s : State) (d a l : BitVec 6) : List Nat × Nat × BitVec 5 :=
  let v := s.v a.toNat
  let ty : BitVec 5 := l.setWidth 5
  let dst := if isNarrow ty then (s.me.narrow ty).getD fmtF32 else floatFmt ty
  cvtfLanes s.me.km (floatFmt v.tag) dst (isNarrow ty && !dst.sgn) (lane (s.v d.toNat).bits (laneWidth ty))
    (lane v.bits (laneWidth v.tag)) (laneCount v.tag) 0 (if l.getLsbD 5 then s.me.efr.toNat else 0, 0)

/-- The register that it writes. -/
def State.cvtfValue (s : State) (d a l : BitVec 6) : VVal :=
  { bits := cvtfBits s.me.km (l.setWidth 5) (s.v d.toNat).bits (laneCount (s.v a.toNat).tag) (s.cvtfRun d a l).1,
    tag := l.setWidth 5, poison := poisonedSource (.cvtf d a l) s }

theorem State.cvtf_completes {s : State} {d a l : BitVec 6}
    (hs : (s.v a.toNat).tag = 8 ∨ (s.v a.toNat).tag = 9 ∨ (s.v a.toNat).tag = 10)
    (hd : l.setWidth 5 = (8 : BitVec 5) ∨ l.setWidth 5 = (9 : BitVec 5) ∨ isNarrow (l.setWidth 5) = true)
    (hbad : s.me.badNarrow (l.setWidth 5) = false) (hc : s.clear (.cvtf d a l) = true) :
    let r := s.cvtfRun d a l
    let x := s.me.withCvtf d.toNat (s.cvtfValue d a l) (l.getLsbD 5) r.2.1 r.2.2
    ∃ t, exec (.cvtf d a l) s = .next t ∧ s.Completes t (.cvtf d a l) [.v d.toNat, .status 0x08, .status 0x09] ∧
      (∀ n, t.v n = x.readV n) ∧ t.me.fpf = x.fpf ∧ t.me.efr = x.efr := by
  refine State.completes_modMe
    (f := fun c => c.withCvtf d.toNat (s.cvtfValue d a l) (l.getLsbD 5) (s.cvtfRun d a l).2.1 (s.cvtfRun d a l).2.2)
    (show execCvtf d a l s = _ from rfl) ?_ hc (.withCvtf ..) rfl rfl rfl
  have okSrc : ((s.v a.toNat).tag == 8 || (s.v a.toNat).tag == 9 || (s.v a.toNat).tag == 10) = true := by
    simpa [or_assoc] using hs
  have okDst : (l.setWidth 5 == (8 : BitVec 5) || l.setWidth 5 == (9 : BitVec 5) || isNarrow (l.setWidth 5)) = true := by
    simpa [or_assoc] using hd
  exact if_neg (by rw [okSrc, okDst, hbad]; decide)

/-! ### TAG -/

theorem State.tag_completes {s : State} {d a l : BitVec 6} (hbad : s.me.badNarrow (s.v a.toNat).tag = false)
    (hbad' : s.me.badNarrow (l.setWidth 5) = false) (hc : s.clear (.tag d a l) = true) :
    let x := s.me.writeV d.toNat ⟨(s.v a.toNat).bits, l.setWidth 5, poisonedSource (.tag d a l) s⟩
    ∃ t, exec (.tag d a l) s = .next t ∧ s.Completes t (.tag d a l) [.v d.toNat] ∧ (∀ n, t.v n = x.readV n) ∧
      t.me.fpf = x.fpf ∧ t.me.efr = x.efr := by
  refine State.completes_modMe
    (f := fun c => c.writeV d.toNat ⟨(s.v a.toNat).bits, l.setWidth 5, poisonedSource (.tag d a l) s⟩)
    (show execTag d a l s = _ from rfl) ?_ hc (.writeV _ _ _ _ (by simp)) rfl rfl rfl
  exact if_neg (by rw [hbad, hbad']; decide)

/-- Settles O13: CVT by its lanes, CVTF by its loop, TAG by the register it writes. -/
theorem conversions : Obligations.Conversions := by
  unfold Obligations.Conversions
  refine ⟨fun s d a l => ?_, fun s d a l hs hd hbad hc => ?_, fun s d a l hbad hbad' hc => ?_⟩
  · exact fun hraw hraw' hbad hbad' =>
      ⟨State.cvt_gives hraw hraw' hbad hbad', fun hs hd c => s.me.convert_int hs hd c⟩
  · obtain ⟨t, ht, hcomp, hv, hfpf, hefr⟩ := State.cvtf_completes hs hd hbad hc
    have hreg := (hv d.toNat).trans ((Context.readV_writeV ..).trans (if_pos rfl))
    refine ⟨t, ht, hcomp, congrArg VVal.tag hreg, congrArg VVal.poison hreg, fun hch => ?_, fun hch => ?_, hfpf, fun n hn => ?_⟩
    · exact hefr.trans (if_neg (by rw [hch]; decide))
    · exact hefr.trans (if_pos hch)
    · rw [hreg]
      exact lane_cvtfBits (cvtfLanes_length _ _ _) (laneCount_cvtf hs hd)
        (fun i hi hk => (cvtfLanes_masked 0 _ hi (by rwa [Nat.zero_add])).trans (by rw [Nat.zero_add])) hn
  · obtain ⟨t, ht, hcomp, hv, -⟩ := State.tag_completes hbad hbad' hc
    exact ⟨t, ht, hcomp, (hv d.toNat).trans ((Context.readV_writeV ..).trans (if_pos rfl))⟩

end Sys2Proof.Machine
end

section
/-! O17: a refused tag, or two vectors of different tags, is a format fault of each shape of instruction. -/
namespace Sys2Proof.Machine
-- One proof after the other: side by side they hold more memory than a compile of the whole text may take.
set_option Elab.async false

/-! ### Format faults of the shapes that have no such lemma yet -/

theorem State.doCompare_format (s : State) (p : Bool) (r : Rel) {d a b : BitVec 6} {t u : BitVec 2} {ty : BitVec 5}
    (h : s.firstTag t a u b = some ty) (hd : isOrderTag ty = false ∨ s.tagsDiffer t a u b = true) :
    s.doCompare p r d t a u b = .trap 0x02 0 (s.formatVal2 t a u b) := by
  unfold State.doCompare
  rw [h]
  rcases hd with hd | hd <;> simp [hd]

theorem State.doReduce_format (s : State) (p : Bool) {acc : BitVec 5 → Bool} {d a : BitVec 6}
    (op : BitVec 5 → BitVec 2 → Nat → Nat → Coded) (identity : BitVec 5 → Nat) (ha : acc (s.v a.toNat).tag = false) :
    s.doReduce p acc d a op identity = .trap 0x02 0 (formatVal (s.v a.toNat).tag 0 0) := by
  unfold State.doReduce
  simp [ha]

theorem isIndexTag_eq_false {ty : BitVec 5} (h : ty ≠ 2 ∧ ty ≠ 4 ∧ ty ≠ 12) : isIndexTag ty = false := by
  obtain ⟨h2, h4, h12⟩ := h
  rw [isIndexTag, beq_false_of_ne h2, beq_false_of_ne h4, beq_false_of_ne h12]
  rfl

/-! ### Different tags -/

/-- The tags of two sources differ only when both are vectors. -/
theorem State.tagsDiffer_iff (s : State) (t : BitVec 2) (a : BitVec 6) (u : BitVec 2) (b : BitVec 6) :
    s.tagsDiffer t a u b = true ↔ (t = 1 ∧ u = 1) ∧ (s.v a.toNat).tag ≠ (s.v b.toNat).tag := by
  simp [State.tagsDiffer]

/-- What a fault on them reports. -/
theorem State.formatVal2_of_tagsDiffer {s : State} {t u : BitVec 2} {a b : BitVec 6} (h : s.tagsDiffer t a u b = true) :
    s.formatVal2 t a u b = formatVal (s.v a.toNat).tag (s.v b.toNat).tag 0 := by
  obtain ⟨⟨rfl, rfl⟩, -⟩ := (s.tagsDiffer_iff t a u b).mp h
  simp [State.formatVal2]

/-! ### The shapes trap -/

section
variable {s : State} {i : Instr} {d a b : BitVec 6} {t u : BitVec 2} {ty : BitVec 5}

theorem State.Traps.of_arith2 {acc un onLane onWord}
    (hi : exec i s = issue i s fun p s => s.arith2 p acc un d t a u b onLane onWord)
    (h : s.firstTag t a u b = some ty) (hd : acc ty = false ∨ s.tagsDiffer t a u b = true) :
    s.Traps i 0x02 0 (s.formatVal2 t a u b) := .of_body hi (s.arith2_format _ _ _ _ _ _ _ _ _ _ ty h hd)

theorem State.Traps.of_bitwise {onLane onWord}
    (hi : exec i s = issue i s fun p s => s.bitwise p d t a u b onLane onWord)
    (h : s.firstTag t a u b = some ty) (hd : s.tagsDiffer t a u b = true) :
    s.Traps i 0x02 0 (s.formatVal2 t a u b) := .of_body hi (s.bitwise_format _ _ _ _ _ _ _ _ ty h hd)

theorem State.Traps.of_compare {r} (hi : exec i s = issue i s fun p s => s.doCompare p r d t a u b)
    (h : s.firstTag t a u b = some ty) (hd : isOrderTag ty = false ∨ s.tagsDiffer t a u b = true) :
    s.Traps i 0x02 0 (s.formatVal2 t a u b) := .of_body hi (s.doCompare_format _ r h hd)

theorem State.Traps.of_arith1 {acc onLane onWord}
    (hi : exec i s = issue i s fun p s => s.arith1 p acc d 1 a onLane onWord) (ha : acc (s.v a.toNat).tag = false) :
    s.Traps i 0x02 0 (formatVal (s.v a.toNat).tag 0 0) := .of_body hi (s.arith1_format _ _ _ _ _ _ ha)

theorem State.Traps.of_special {f} (hi : exec i s = issue i s fun p s => s.special p d a f)
    (ha : isFloatTag (s.v a.toNat).tag = false) : s.Traps i 0x02 0 (formatVal (s.v a.toNat).tag 0 0) :=
  .of_body hi (s.special_format _ _ _ _ ha)

theorem State.Traps.of_reduce {acc op identity} (hi : exec i s = issue i s fun p s => s.doReduce p acc d a op identity)
    (ha : acc (s.v a.toNat).tag = false) : s.Traps i 0x02 0 (formatVal (s.v a.toNat).tag 0 0) :=
  .of_body hi (s.doReduce_format _ op identity ha)
end

/-- Settles O17: each instruction has one of the shapes, and each shape traps on the tags it refuses. -/
theorem formatFaults : Obligations.FormatFaults := by
  unfold Obligations.FormatFaults
  intro s d a b t u ty h
  refine ⟨fun hd => ?_, fun hd => ?_, fun hd => ?_, fun hd => ?_, fun ha => ?_, fun ha => ?_, fun ha => ?_, fun ha => ?_⟩
  · exact ⟨.of_arith2 rfl h hd, .of_arith2 rfl h hd, .of_arith2 rfl h hd, .of_arith2 rfl h hd, .of_arith2 rfl h hd⟩
  · exact ⟨.of_arith2 rfl h hd, .of_arith2 rfl h hd, .of_arith2 rfl h hd, .of_arith2 rfl h hd, .of_arith2 rfl h hd,
      .of_arith2 rfl h hd⟩
  · exact ⟨.of_arith2 rfl h hd, .of_arith2 rfl h hd, .of_compare rfl h hd, .of_compare rfl h hd, .of_compare rfl h hd,
      .of_compare rfl h hd⟩
  · have differ := ((s.tagsDiffer_iff t a u b).mp hd).2
    have mixed := State.formatVal2_of_tagsDiffer hd
    refine ⟨.of_bitwise rfl h hd, .of_bitwise rfl h hd, .of_bitwise rfl h hd, .of_bitwise rfl h hd, ?_, ?_⟩
    · rw [mixed]
      exact .of_body (show execZip d a b s = _ from rfl) (if_pos differ)
    · rw [mixed]
      exact .of_body (show execSel d a b s = _ from rfl) (if_pos differ)
  · exact ⟨.of_special rfl ha, .of_special rfl ha, .of_special rfl ha, .of_special rfl ha, .of_special rfl ha,
      .of_special rfl ha⟩
  · exact ⟨.of_arith1 rfl ha, .of_arith1 rfl ha, .of_arith1 rfl ha, .of_arith1 rfl ha⟩
  · exact ⟨.of_arith1 rfl ha, .of_reduce rfl ha, .of_reduce rfl ha, .of_reduce rfl ha⟩
  · have unindexed : (!isIndexTag (s.v a.toNat).tag) = true := by rw [isIndexTag_eq_false ha]; rfl
    exact ⟨.of_body (show execQmark d a s = _ from rfl) (if_pos unindexed),
      .of_body (show execQclr d a s = _ from rfl) (if_pos unindexed)⟩

end Sys2Proof.Machine
end

section
/-! O47: tables written one key after the other, and the tile instructions that act at issue. -/
namespace Sys2Proof.Machine
-- One proof after the other: side by side they hold more memory than a compile of the whole text may take.
set_option Elab.async false

/-! ### Writing a table at several keys -/

section
variable {α β : Type} [DecidableEq α] (d : α) (key : β → Nat) (val : β → α → α)

/-- Write a table at the key of each entry, from what it held there. -/
def setAll (t : Tab α) (l : List β) : Tab α :=
  l.foldl (fun t q => Tab.set d t (key q) (val q (Tab.get d t (key q)))) t

variable {d key val} {t : Tab α} {l : List β}

/-- A key that is not written keeps its value. -/
theorem get_setAll_other (hr : Tab.rising 0 t = true) {k : Nat} (hk : ∀ q, q ∈ l → key q ≠ k) :
    Tab.get d (setAll d key val t l) k = Tab.get d t k := by
  induction l generalizing t with
  | nil => rfl
  | cons q l ih =>
    refine (ih (Tab.rising_set d _ hr (Nat.zero_le _)) fun p hp => hk p (List.mem_cons_of_mem _ hp)).trans ?_
    rw [Tab.get_set d _ _ _ hr, if_neg fun e => hk q List.mem_cons_self e.symm]

/-- A key that is written once holds the entry's value. -/
theorem get_setAll (hr : Tab.rising 0 t = true) (hn : (l.map key).Nodup) {q : β} (hq : q ∈ l) :
    Tab.get d (setAll d key val t l) (key q) = val q (Tab.get d t (key q)) := by
  induction l generalizing t with
  | nil => exact absurd hq List.not_mem_nil
  | cons p l ih =>
    obtain ⟨hp, hn⟩ := List.nodup_cons.mp hn
    have hr' := Tab.rising_set d (val p (Tab.get d t (key p))) hr (Nat.zero_le (key p))
    have apart {r : β} (h : r ∈ l) : key r ≠ key p := fun e => hp (e ▸ List.mem_map_of_mem h)
    rcases List.mem_cons.mp hq with rfl | hq
    · refine (get_setAll_other hr' fun r hr => apart hr).trans ?_
      rw [Tab.get_set d _ _ _ hr, if_pos rfl]
    · refine (ih hr' hn hq).trans ?_
      rw [Tab.get_set d _ _ _ hr, if_neg (apart hq)]
end

/-! ### The 16 elements of a row or a column -/

/-- The key of element j of row or column n. -/
def lineKey (rc : Bool) (n j : Nat) : Nat := if rc then 16 * j + n else 16 * n + j

theorem lineKey_inj {rc : Bool} {n i j : Nat} (h : lineKey rc n i = lineKey rc n j) : i = j := by
  cases rc <;> simp only [lineKey, Bool.false_eq_true, if_false, if_true] at h <;> omega

theorem tileLine_eq (rc : Bool) (n : Nat) : tileLine rc n = (List.range 16).map (lineKey rc n) := by
  rw [tileLine, span_zero]
  rfl

theorem tileLine_getD (rc : Bool) (n : Nat) {j : Nat} (hj : j < 16) : (tileLine rc n).getD j 0 = lineKey rc n j := by
  rw [tileLine_eq, List.getD, List.getElem?_map, List.getElem?_range hj]
  rfl

/-- The new lanes under the mask, the old ones elsewhere. -/
theorem lane_blend (km : Word) {w : Nat} (old : Vec) {new : Nat → Nat} {i : Nat} (hi : i < 512 / w)
    (hn : new i < 2 ^ w) : lane (blend km w old new) w i = if km.getLsbD i then new i else lane old w i := by
  unfold blend
  rw [lane_packVec_span _ _ _ _ hi (Nat.mul_div_le 512 w)]
  split
  · exact Nat.mod_eq_of_lt hn
  · exact Nat.mod_eq_of_lt (lane_lt _ _ _)

/-! ### TRD -/

/-- An element of a tile's line. -/
def Tile.elem (t : Tile) (rc : Bool) (n j : Nat) : BitVec 32 := Tab.get 0 t.elems (lineKey rc n j)

/-- What TRD writes. -/
def State.trdValue (s : State) (d i : BitVec 6) (e : BitVec 4) : VVal :=
  let t := s.here.tile (e.toNat / 2)
  let at' := tileLine (e.getLsbD 0) (bitsN (s.g i.toNat) 3 0)
  { bits := blend s.me.km 32 (s.v d.toNat).bits fun j => (Tab.get 0 t.elems (at'.getD j 0) : BitVec 32).toNat,
    tag := tileCode t.isInt, poison := t.poison || poisonedSource (.trd d i e) s }

theorem State.lane_trdValue (s : State) (d i : BitVec 6) (e : BitVec 4) {j : Nat} (hj : j < 16) :
    lane (s.trdValue d i e).bits 32 j =
      if s.me.km.getLsbD j then
        ((s.here.tile (e.toNat / 2)).elem (e.getLsbD 0) (bitsN (s.g i.toNat) 3 0) j).toNat
      else lane (s.v d.toNat).bits 32 j := by
  refine (lane_blend _ _ hj (BitVec.isLt _)).trans ?_
  rw [tileLine_getD _ _ hj]
  rfl

theorem State.trd_traps {s : State} {d i : BitVec 6} {e : BitVec 4} (h : s.here.busy (e.toNat / 2) = true) :
    s.Traps (.trd d i e) 0x0B 0 (BitVec.ofNat 64 (e.toNat / 2)) :=
  .of_body (show execTrd d i e s = _ from rfl) (if_pos h)

theorem State.trd_completes {s : State} {d i : BitVec 6} {e : BitVec 4} (h : s.here.busy (e.toNat / 2) = false)
    (hc : s.clear (.trd d i e) = true) :
    ∃ u, exec (.trd d i e) s = .next u ∧ s.Completes u (.trd d i e) [.v d.toNat] ∧
      u.v d.toNat = s.trdValue d i e := by
  obtain ⟨u, hu, hcomp, hv, -⟩ := State.completes_modMe (s := s) (i := .trd d i e) (regs := [.v d.toNat])
    (f := fun c => c.writeV d.toNat (s.trdValue d i e)) (show execTrd d i e s = _ from rfl)
    (if_neg (by rw [h]; decide)) hc (.writeV _ _ _ _ (by simp)) rfl rfl rfl
  exact ⟨u, hu, hcomp, (hv d.toNat).trans ((Context.readV_writeV ..).trans (if_pos rfl))⟩

/-! ### An effect on the tiles of the own core -/

/-- A core with other tiles. -/
def Core.withTiles (k : Core) (tiles : Tab Tile) : Core := { k with tiles := tiles }

/-- The instruction completes from the state whose tiles it has changed. -/
theorem State.completes_tiles {s : State} {i : Instr} {body : Bool → State → Res} {g : Core → Tab Tile}
    (hi : exec i s = issue i s body)
    (hb : body (poisonedSource i s) s = .done (s.modHere fun k => k.withTiles (g k))) (hc : s.clear i = true)
    (hr : ∀ t : State, t.reads i = sources i) :
    ∃ v, exec i s = .next v ∧ (s.modHere fun k => k.withTiles (g k)).Completes v i [] := by
  have hme : (s.modHere fun k => k.withTiles (g k)).me = s.me := s.me_modHere _
  have hp : poisonedSource i (s.modHere fun k => k.withTiles (g k)) = poisonedSource i s := by
    unfold poisonedSource
    rw [hr, hr, hme]
  refine ⟨_, hi.trans (issue_done hc hb), ?_⟩
  have hafter : s.after i = (s.modHere fun k => k.withTiles (g k)).me.pc + BitVec.ofNat 64 (instrLen i) := by
    rw [hme]
    rfl
  have done := State.CompletesAt.of_effect (s := s) (u := s.modHere fun k => k.withTiles (g k)) (s.after i) rfl hp
  rw [hafter] at done ⊢
  exact done

/-! ### TWR -/

/-- What TWR leaves in its tile. -/
def twrTile (t : Tile) (rc : Bool) (n : Nat) (km : Word) (x : VVal) : Tile :=
  let elems := ((tileLine rc n).zipIdx.filter fun q => km.getLsbD q.2).foldl (init := t.elems) fun m q =>
    Tab.set 0 m q.1 (BitVec.ofNat 32 (lane x.bits 32 q.2))
  { elems := elems, isInt := x.tag == 5, poison := t.poison || x.poison }

section
variable (t : Tile) (rc : Bool) (n : Nat) (km : Word) (x : VVal)

theorem mem_tileLine_zipIdx {q : Nat × Nat} : q ∈ (tileLine rc n).zipIdx ↔ q.2 < 16 ∧ q.1 = lineKey rc n q.2 := by
  rw [List.mem_zipIdx_iff_getElem?, tileLine_eq, List.getElem?_map]
  constructor
  · intro h
    obtain ⟨j, hj, hk⟩ := Option.map_eq_some_iff.mp h
    obtain ⟨hlt, rfl⟩ := List.getElem?_eq_some_iff.mp hj
    exact ⟨by simpa using hlt, by simpa using hk.symm⟩
  · rintro ⟨hlt, hk⟩
    rw [List.getElem?_range hlt, hk]
    rfl

/-- The lanes that TWR writes, as keys. -/
theorem nodup_tileLine : (((tileLine rc n).zipIdx.filter fun q => km.getLsbD q.2).map Prod.fst).Nodup := by
  have keys : ((tileLine rc n).zipIdx.map Prod.fst).Nodup := by
    rw [List.zipIdx_map_fst, tileLine_eq]
    exact List.Nodup.map (fun _ _ => lineKey_inj) List.nodup_range
  exact keys.sublist (List.filter_sublist.map _)

variable {t} (hr : Tab.rising 0 t.elems = true)
include hr

theorem twrTile_elem {j : Nat} (hj : j < 16) : ((twrTile t rc n km x).elem rc n j).toNat =
    if km.getLsbD j then lane x.bits 32 j else (t.elem rc n j).toNat := by
  have written := @get_setAll (BitVec 32) (Nat × Nat) _ 0 Prod.fst
    (fun q _ => BitVec.ofNat 32 (lane x.bits 32 q.2)) t.elems _ hr (nodup_tileLine rc n km)
  have other := @get_setAll_other (BitVec 32) (Nat × Nat) _ 0 Prod.fst
    (fun q _ => BitVec.ofNat 32 (lane x.bits 32 q.2)) t.elems
    ((tileLine rc n).zipIdx.filter fun q => km.getLsbD q.2) hr (lineKey rc n j)
  split
  next on =>
    refine (congrArg BitVec.toNat (written (q := (lineKey rc n j, j)) ?_)).trans ?_
    · exact List.mem_filter.mpr ⟨(mem_tileLine_zipIdx rc n).mpr ⟨hj, rfl⟩, on⟩
    · rw [BitVec.toNat_ofNat, Nat.mod_eq_of_lt (lane_lt _ _ _)]
  next off =>
    refine congrArg BitVec.toNat (other fun q hq e => off ?_)
    obtain ⟨hmem, hk⟩ := List.mem_filter.mp hq
    obtain ⟨-, hkey⟩ := (mem_tileLine_zipIdx rc n).mp hmem
    rwa [lineKey_inj (hkey.symm.trans e)] at hk

theorem twrTile_other {k : Nat} (hk : ∀ j, j < 16 → k ≠ lineKey rc n j) :
    (Tab.get 0 (twrTile t rc n km x).elems k : BitVec 32) = Tab.get 0 t.elems k := by
  refine get_setAll_other (key := Prod.fst) (val := fun q _ => BitVec.ofNat 32 (lane x.bits 32 q.2)) hr fun q hq e => ?_
  obtain ⟨hlt, hkey⟩ := (mem_tileLine_zipIdx rc n).mp (List.mem_filter.mp hq).1
  exact hk q.2 hlt (e.symm.trans hkey)
end

theorem State.twr_format {s : State} {d i : BitVec 6} {e : BitVec 4} (h10 : (s.v d.toNat).tag ≠ 10)
    (h5 : (s.v d.toNat).tag ≠ 5) : s.Traps (.twr d i e) 0x02 0 (formatVal (s.v d.toNat).tag 0 0) :=
  .of_body (show execTwr d i e s = _ from rfl) (if_pos (by rw [decide_eq_true h10, decide_eq_true h5]; rfl))

section
variable {s : State} {d i : BitVec 6} {e : BitVec 4} (ht : (s.v d.toNat).tag = 10 ∨ (s.v d.toNat).tag = 5)
include ht

theorem State.twr_tagged : ¬((s.v d.toNat).tag ≠ 10 && (s.v d.toNat).tag ≠ 5) = true := by
  rcases ht with h | h <;> simp [h]

theorem State.twr_traps (h : s.here.busy (e.toNat / 2) = true) :
    s.Traps (.twr d i e) 0x0B 0 (BitVec.ofNat 64 (e.toNat / 2)) :=
  .of_body (show execTwr d i e s = _ from rfl) ((if_neg (State.twr_tagged ht)).trans (if_pos h))

/-- The tiles of a core once TWR has written. -/
def State.twrTiles (s : State) (d i : BitVec 6) (e : BitVec 4) (k : Core) : Tab Tile :=
  Tab.put k.tiles (e.toNat / 2)
    (twrTile (k.tile (e.toNat / 2)) (e.getLsbD 0) (bitsN (s.g i.toNat) 3 0) s.me.km (s.v d.toNat))

theorem State.twr_completes (h : s.here.busy (e.toNat / 2) = false) (hc : s.clear (.twr d i e) = true) :
    ∃ v, exec (.twr d i e) s = .next v ∧
      (s.modHere fun k => k.withTiles (s.twrTiles d i e k)).Completes v (.twr d i e) [] :=
  State.completes_tiles (i := .twr d i e) (g := s.twrTiles d i e) (show execTwr d i e s = _ from rfl)
    ((if_neg (State.twr_tagged ht)).trans (if_neg (by rw [h]; decide))) hc fun _ => List.append_nil _
end

/-! ### TZERO -/

theorem State.tzero_traps {s : State} {d : BitVec 6} (h : s.here.busy d.toNat = true) :
    s.Traps (.tzero d) 0x0B 0 (d.setWidth 64) := .of_body (show execTzero d s = _ from rfl) (if_pos h)

theorem State.tzero_completes {s : State} {d : BitVec 6} (h : s.here.busy d.toNat = false)
    (hc : s.clear (.tzero d) = true) :
    ∃ t, exec (.tzero d) s = .next t ∧
      (s.modHere fun k => k.withTiles (Tab.put k.tiles d.toNat {})).Completes t (.tzero d) [] :=
  State.completes_tiles (i := .tzero d) (g := fun k => Tab.put k.tiles d.toNat {})
    (show execTzero d s = _ from rfl) (if_neg (by rw [h]; decide)) hc fun _ => List.append_nil _

end Sys2Proof.Machine
end

section
/-! O47: the arbiter's grants. -/
namespace Sys2Proof.Machine
-- One proof after the other: side by side they hold more memory than a compile of the whole text may take.
set_option Elab.async false

/-! ### The first number that has a property -/

theorem find?_span_first {p : Nat → Bool} {a n j : Nat} (ha : a ≤ j) (hj : j < a + n) (hp : p j = true)
    (hfirst : ∀ h, a ≤ h → h < j → p h = false) : (span a n).find? p = some j := by
  obtain ⟨found, missed⟩ := find?_span p a n
  cases e : (span a n).find? p with
  | none => exact absurd (missed e j ha hj) (by rw [hp]; decide)
  | some i =>
    obtain ⟨hi, -, before⟩ := found i e
    have hai : a ≤ i := ((mem_span a n i).mp (List.mem_of_find?_eq_some e)).1
    rcases Nat.lt_trichotomy i j with h | rfl | h
    · exact absurd (hfirst i hai h) (by rw [hi]; decide)
    · rfl
    · exact absurd (before j ha h) (by rw [hp]; decide)

/-! ### A grant -/

/-- The core at a position of the cluster has a step to take. -/
def State.mayStep (s : State) (cl i : Nat) : Bool :=
  (s.core ((clusterCores cl).getD i 0)).headReady && !(s.core ((clusterCores cl).getD i 0)).killed

theorem State.mayStep_iff {s : State} {cl i : Nat} : s.mayStep cl i = true ↔
    (s.core ((clusterCores cl).getD i 0)).headReady = true ∧ (s.core ((clusterCores cl).getD i 0)).killed = false := by
  rw [State.mayStep, Bool.and_eq_true, Bool.not_eq_true']

theorem State.mayStep_eq (s : State) (cl : Nat) : s.mayStep cl = fun i =>
    (s.core ((clusterCores cl).getD i 0)).headReady && !(s.core ((clusterCores cl).getD i 0)).killed := rfl

/-- The run of the last core goes on. -/
def State.runGoesOn (s : State) (cl : Nat) : Prop :=
  let k := s.cluster cl
  0 < k.run ∧ k.run < max (s.core ((clusterCores cl).getD k.last 0)).mqw.toNat 1 ∧ s.mayStep cl k.last = true

/-- The cluster's run has ended. -/
def State.endRun (s : State) (cl : Nat) : State := s.modCluster cl fun q => { q with run := 0 }

theorem State.grantStep_took {s : State} {cl i run : Nat}
    (h : (s.core ((clusterCores cl).getD i 0)).stepped
      ((s.matrixStep ((clusterCores cl).getD i 0)).core ((clusterCores cl).getD i 0)) = true) :
    s.grantStep cl i run = (s.matrixStep ((clusterCores cl).getD i 0)).modCluster cl fun q =>
      { q with last := i, run := if ((s.matrixStep ((clusterCores cl).getD i 0)).core
        ((clusterCores cl).getD i 0)).headReady then run else 0 } :=
  if_neg (by rw [h]; decide)

/-- A step that waits is not counted. -/
theorem State.grantStep_waits {s : State} {cl i run : Nat}
    (h : ¬(s.core ((clusterCores cl).getD i 0)).stepped
      ((s.matrixStep ((clusterCores cl).getD i 0)).core ((clusterCores cl).getD i 0)) = true) :
    s.grantStep cl i run = s.matrixStep ((clusterCores cl).getD i 0) :=
  if_pos (by rw [Bool.not_eq_true] at h; rw [h]; rfl)

/-! ### Which core the unit goes to -/

section
variable {s : State} {cl : Nat}

theorem State.runGoesOn_iff : (0 < (s.cluster cl).run && (s.cluster cl).run <
    max (s.core ((clusterCores cl).getD (s.cluster cl).last 0)).mqw.toNat 1 && s.mayStep cl (s.cluster cl).last) = true ↔
    s.runGoesOn cl := by
  simp [State.runGoesOn, and_assoc]

theorem arbiterGrant_goesOn (h : s.runGoesOn cl) :
    exec (.arbiterGrant cl) s = .next (s.grantStep cl (s.cluster cl).last ((s.cluster cl).run + 1)) :=
  (show execArbiterGrant cl s = _ from if_pos (State.runGoesOn_iff.mpr h))

theorem arbiterGrant_passes {j : Nat} (h : ¬s.runGoesOn cl) (h1 : 1 ≤ j) (h8 : j ≤ 8)
    (hj : s.mayStep cl (((s.cluster cl).last + j) % 8) = true)
    (hfirst : ∀ i, 1 ≤ i → i < j → ¬s.mayStep cl (((s.cluster cl).last + i) % 8) = true) :
    exec (.arbiterGrant cl) s = .next ((s.endRun cl).grantStep cl (((s.cluster cl).last + j) % 8) 1) := by
  have found : ((span 1 8).map fun i => ((s.cluster cl).last + i) % 8).find? (s.mayStep cl) =
      some (((s.cluster cl).last + j) % 8) := by
    rw [List.find?_map]
    exact congrArg _ (find?_span_first h1 (by omega) hj fun i hi hij => Bool.eq_false_iff.mpr (hfirst i hi hij))
  refine (show execArbiterGrant cl s = _ from if_neg (mt State.runGoesOn_iff.mp h)).trans ?_
  dsimp only
  rw [← State.mayStep_eq, found]
  rfl

theorem arbiterGrant_rests (h : ¬s.runGoesOn cl)
    (hnone : ∀ j, 1 ≤ j → j ≤ 8 → ¬s.mayStep cl (((s.cluster cl).last + j) % 8) = true) :
    exec (.arbiterGrant cl) s = .next (if (s.cluster cl).run = 0 then s else s.endRun cl) := by
  have missed : ((span 1 8).map fun i => ((s.cluster cl).last + i) % 8).find? (s.mayStep cl) = none := by
    refine List.find?_eq_none.mpr fun i hi => ?_
    obtain ⟨j, hj, rfl⟩ := List.mem_map.mp hi
    obtain ⟨h1, h8⟩ := (mem_span 1 8 j).mp hj
    exact hnone j h1 (by omega)
  refine (show execArbiterGrant cl s = _ from if_neg (mt State.runGoesOn_iff.mp h)).trans ?_
  dsimp only
  rw [← State.mayStep_eq, missed]
  rfl
end

end Sys2Proof.Machine
end

section
/-! O47: a product step whose operands stand in registers. -/
namespace Sys2Proof.Machine
-- One proof after the other: side by side they hold more memory than a compile of the whole text may take.
set_option Elab.async false

/-! ### The elements of a tile, row by row -/

/-- Rows and columns of a tile, in order. -/
def tileGrid : List (Nat × Nat) := (span 0 16).flatMap fun r => (span 0 16).map fun c => (r, c)

theorem tileGrid_eq : tileGrid = (List.range 16).product (List.range 16) := by
  rw [tileGrid, span_zero]
  rfl

theorem mem_tileGrid {q : Nat × Nat} : q ∈ tileGrid ↔ q.1 < 16 ∧ q.2 < 16 := by
  rw [tileGrid_eq, List.pair_mem_product, List.mem_range, List.mem_range]

/-- Keys that tell rows and columns apart are all different. -/
theorem nodup_tileGrid {key : Nat × Nat → Nat}
    (h : ∀ p q, p ∈ tileGrid → q ∈ tileGrid → key p = key q → p = q) : (tileGrid.map key).Nodup := by
  have grid : tileGrid.Nodup := by
    rw [tileGrid_eq]
    exact List.nodup_range.product List.nodup_range
  exact grid.map_on fun p hp q hq e => h p q hp hq e

theorem rowKey_inj {row0 : Nat} {p q : Nat × Nat} (hp : p ∈ tileGrid) (hq : q ∈ tileGrid)
    (h : 16 * (row0 + p.1) + p.2 = 16 * (row0 + q.1) + q.2) : p = q := by
  obtain ⟨-, hp⟩ := mem_tileGrid.mp hp
  obtain ⟨-, hq⟩ := mem_tileGrid.mp hq
  exact Prod.ext (by omega) (by omega)

/-! ### The product of two operands in registers -/

/-- Row i of a group of registers, at so many bytes a row. -/
def groupRow (g : List Byte) (size i : Nat) : Nat := leNat ((g.drop (i * size)).take size)

theorem getD_groupRow (g : List Byte) (size : Nat) {m i : Nat} (hi : i < m) :
    ((span 0 m).map (groupRow g size)).getD i 0 = groupRow g size i := by
  rw [span_zero, List.getD, List.getElem?_map, List.getElem?_range hi]
  rfl

section
variable (e : MatEntry) (ga gb : List Byte)

/-- The depth of a step. -/
def MatEntry.stepDepth : Nat := (depth (optType e.options) e.fmA).getD 0
/-- The bytes of a row of B. -/
def MatEntry.rowBytes : Nat := if e.options.getLsbD 10 then 96 else 2 * typeBits (optB e.options) e.fmB
/-- Elements of A and of B. -/
def MatEntry.elemA (r j : Nat) : Nat := elementAt (optType e.options) e.fmA (groupRow ga 96 r) j
def MatEntry.elemB (n j : Nat) : Nat :=
  if e.options.getLsbD 10 then elementAt (optB e.options) e.fmB (groupRow gb e.rowBytes n) j
  else elementAt (optB e.options) e.fmB (groupRow gb e.rowBytes j) n
/-- An element of the tile after a step. -/
def MatEntry.product (r n : Nat) (acc : BitVec 32) : BitVec 32 :=
  if e.options.getLsbD 11 then
    acc + BitVec.ofInt 32 ((List.range e.stepDepth).map fun j =>
      laneInt (optType e.options) (e.elemA ga r j) * laneInt (optB e.options) (e.elemB gb n j)).sum
  else BitVec.ofNat 32 (matrixSum (fmtF32.decode acc.toNat :: (List.range e.stepDepth).map fun j =>
    (laneValue (optType e.options) (narrowFmt e.fmA) (e.elemA ga r j)).mul
      (laneValue (optB e.options) (narrowFmt e.fmB) (e.elemB gb n j))))

/-- The elements that a step of registers leaves. -/
def MatEntry.stepped (old : Tab (BitVec 32)) : Tab (BitVec 32) :=
  stepElems e old 0 16 e.stepDepth ((span 0 16).map (groupRow ga 96))
    ((span 0 (if e.options.getLsbD 10 then 16 else e.stepDepth)).map (groupRow gb e.rowBytes))
end

theorem foldl_add_eq_sum (l : List Nat) (f : Nat → Int) (a : Int) :
    l.foldl (fun t j => t + f j) a = a + (l.map f).sum := by
  induction l generalizing a with
  | nil => exact (Int.add_zero a).symm
  | cons j l ih => rw [List.foldl_cons, ih, List.map_cons, List.sum_cons, Int.add_assoc]

/-- An element of the tile after a step, from the rows that the step has read. -/
def stepElem (e : MatEntry) (k : Nat) (aRows bRows : List Nat) (r c : Nat) (acc : BitVec 32) : BitVec 32 :=
  let a := fun j => elementAt (optType e.options) e.fmA (aRows.getD r 0) j
  let b := fun j => if e.options.getLsbD 10 then elementAt (optB e.options) e.fmB (bRows.getD c 0) j
    else elementAt (optB e.options) e.fmB (bRows.getD j 0) c
  if e.options.getLsbD 11 then
    acc + BitVec.ofInt 32 ((span 0 k).foldl (init := (0 : Int)) fun t j =>
      t + laneInt (optType e.options) (a j) * laneInt (optB e.options) (b j))
  else BitVec.ofNat 32 (matrixSum (fmtF32.decode acc.toNat :: (span 0 k).map fun j =>
    (laneValue (optType e.options) (narrowFmt e.fmA) (a j)).mul (laneValue (optB e.options) (narrowFmt e.fmB) (b j))))

theorem stepElems_eq (e : MatEntry) (old : Tab (BitVec 32)) (k : Nat) (aRows bRows : List Nat) :
    stepElems e old 0 16 k aRows bRows = setAll 0 (fun q => 16 * (0 + q.1) + q.2)
      (fun q acc => stepElem e k aRows bRows q.1 q.2 acc) old tileGrid := rfl

/-- The rows of a step of registers give the product of their elements. -/
theorem stepElem_groups (e : MatEntry) (ga gb : List Byte) {r n : Nat} (hr : r < 16) (hn : n < 16) (acc : BitVec 32) :
    stepElem e e.stepDepth ((span 0 16).map (groupRow ga 96))
      ((span 0 (if e.options.getLsbD 10 then 16 else e.stepDepth)).map (groupRow gb e.rowBytes)) r n acc =
        e.product ga gb r n acc := by
  have rowB {j : Nat} (hj : j ∈ List.range e.stepDepth) :
      (if e.options.getLsbD 10 then elementAt (optB e.options) e.fmB
        (((span 0 (if e.options.getLsbD 10 then 16 else e.stepDepth)).map (groupRow gb e.rowBytes)).getD n 0) j
      else elementAt (optB e.options) e.fmB
        (((span 0 (if e.options.getLsbD 10 then 16 else e.stepDepth)).map (groupRow gb e.rowBytes)).getD j 0) n) =
          e.elemB gb n j := by
    unfold MatEntry.elemB
    split
    · rw [getD_groupRow _ _ hn]
    · rw [getD_groupRow _ _ (List.mem_range.mp hj)]
  unfold stepElem MatEntry.product
  dsimp only
  rw [getD_groupRow _ _ hr, span_zero e.stepDepth, foldl_add_eq_sum, Int.zero_add]
  split
  · congr 3
    refine List.map_congr_left fun j hj => ?_
    rw [rowB hj]
    rfl
  · congr 3
    refine List.map_congr_left fun j hj => ?_
    rw [rowB hj]
    rfl

theorem MatEntry.get_stepped (e : MatEntry) (ga gb : List Byte) {old : Tab (BitVec 32)}
    (hold : Tab.rising 0 old = true) {r n : Nat} (hr : r < 16) (hn : n < 16) :
    (Tab.get 0 (e.stepped ga gb old) (16 * r + n) : BitVec 32) = e.product ga gb r n (Tab.get 0 old (16 * r + n)) := by
  have written := get_setAll (d := (0 : BitVec 32)) (l := tileGrid) (key := fun q => 16 * (0 + q.1) + q.2)
    (val := fun q acc => stepElem e e.stepDepth ((span 0 16).map (groupRow ga 96))
      ((span 0 (if e.options.getLsbD 10 then 16 else e.stepDepth)).map (groupRow gb e.rowBytes)) q.1 q.2 acc)
    hold (nodup_tileGrid fun p q => rowKey_inj) (mem_tileGrid.mpr ⟨hr, hn⟩ : (r, n) ∈ tileGrid)
  rw [← stepElems_eq] at written
  rw [Nat.zero_add] at written
  exact written.trans (stepElem_groups e ga gb hr hn _)

/-! ### The step -/

/-- The first of the queue's entries with its own number is the head. -/
theorem replaceFirst_head {p : MatEntry → Bool} {f : MatEntry → MatEntry} {e : MatEntry} {rest : List MatEntry}
    (h : p e = true) : replaceFirst p f (e :: rest) = f e :: rest := if_pos h

theorem Core.mq_modEntry {k : Core} {e : MatEntry} {rest : List MatEntry} (h : k.mq = e :: rest)
    (f : MatEntry → MatEntry) : (k.modEntry e.serial f).mq = f e :: rest :=
  (congrArg _ h).trans (replaceFirst_head (beq_self_eq_true e.serial))

/-- The head entry completes: it leaves the queue, is counted when guarded, and leaves the batches. -/
theorem Core.completeHead_eq {k : Core} {e : MatEntry} {rest : List MatEntry} (h : k.mq = e :: rest) :
    k.completeHead.mq = rest ∧ k.completeHead.mgc = (if e.guarded then k.mgc + 1 else k.mgc) ∧
      k.completeHead.tiles = k.tiles ∧
      k.completeHead.batches.map (·.entries) = k.batches.map fun b => b.entries.filter (· != e.serial) := by
  unfold Core.completeHead
  rw [h]
  refine ⟨rfl, rfl, rfl, ?_⟩
  rw [List.map_map]
  refine List.map_congr_left fun b _ => ?_
  dsimp only [Function.comp]
  split
  · rfl
  next hb =>
    refine (List.filter_eq_self.mpr fun n hn => ?_).symm
    rw [bne_iff_ne]
    rintro rfl
    exact hb (List.contains_iff_mem.mpr hn)

section
variable {s : State} {c : Nat} {e : MatEntry} {rest : List MatEntry} {ga gb : List Byte}

/-- The tile after a step of registers. -/
def MatEntry.newTile (e : MatEntry) (ga gb : List Byte) (t : Tile) : Tile :=
  { elems := e.stepped ga gb t.elems, isInt := e.options.getLsbD 11, poison := t.poison || e.poison }

theorem MatEntry.elems_newTile (e : MatEntry) (ga gb : List Byte) (t : Tile) :
    (e.newTile ga gb t).elems = e.stepped ga gb t.elems := by
  dsimp only [MatEntry.newTile]

/-- One step of one group of 16 rows. -/
theorem MatEntry.steps_single (hrows : e.rows = [16]) (hg : e.guarded = false) (hn : optSteps e.options = 1) :
    e.steps = [(0, 16, 0, 0)] := by
  simp [MatEntry.steps, hrows, hg, hn, span]

theorem State.productStep_registers (hout : e.rowsOut.getD 0 = 0) (ha : e.a.group = some ga) (hb : e.b.group = some gb) :
    s.productStep c e (0, 16, 0, 0) = s.modCore c fun k =>
      ({ k with tiles := Tab.put k.tiles e.tile (e.newTile ga gb (k.tile e.tile)) } : Core).modEntry e.serial fun e' =>
        { e' with next := e'.next + 1, rowsOut := none, rowData := [], readPoison := e'.readPoison || e.poison } := by
  unfold State.productStep
  simp only [ha, hb, hout, Option.isSome_some, if_true, List.map_nil, List.flatten_nil, List.append_nil,
    List.filterMap_nil, ne_eq, not_true_eq_false, if_false, List.any_nil, Bool.false_eq_true, List.foldl_nil, Bool.or_false]
  rfl

/-- The head entry after its one step. -/
def MatEntry.went (e : MatEntry) : MatEntry :=
  { e with next := e.next + 1, rowsOut := none, rowData := [], readPoison := e.readPoison || e.poison }

/-- The core after that step, its head entry still in the queue. -/
def Core.multiplied (k : Core) (e : MatEntry) (ga gb : List Byte) : Core :=
  ({ k with tiles := Tab.put k.tiles e.tile (e.newTile ga gb (k.tile e.tile)) } : Core).modEntry e.serial fun e' =>
    { e' with next := e'.next + 1, rowsOut := none, rowData := [], readPoison := e'.readPoison || e.poison }

theorem Core.mq_multiplied {k : Core} (hq : k.mq = e :: rest) : (k.multiplied e ga gb).mq = e.went :: rest :=
  Core.mq_modEntry (k := { k with tiles := Tab.put k.tiles e.tile (e.newTile ga gb (k.tile e.tile)) }) hq _

theorem Core.tile_multiplied (k : Core) (m : Nat) :
    (k.multiplied e ga gb).tile m = if m = e.tile then e.newTile ga gb (k.tile e.tile) else k.tile m := Tab.get_put ..

/-- An entry of one step of registers completes with it. -/
theorem State.core_matrixStep_registers (hq : (s.core c).mq = e :: rest) (hkind : e.kind = .mma) (hrows : e.rows = [16])
    (hg : e.guarded = false) (hnext : e.next = 0) (hout : e.rowsOut.getD 0 = 0) (hn : optSteps e.options = 1)
    (ha : e.a.group = some ga) (hb : e.b.group = some gb) :
    (s.matrixStep c).core c = ((s.core c).multiplied e ga gb).completeHead := by
  have product : e.isProduct = true := by rw [MatEntry.isProduct, hkind]; rfl
  have steps := MatEntry.steps_single hrows hg hn
  have stepless : e.went.stepless = true := by
    have same : e.went.steps = [(0, 16, 0, 0)] := steps
    have next : e.went.next = 1 := congrArg (· + 1) hnext
    rw [MatEntry.stepless, same, next]
    exact Bool.and_eq_true_iff.mpr ⟨product, rfl⟩
  unfold State.matrixStep
  rw [hq]
  dsimp only
  rw [product, steps, hnext]
  dsimp only [List.getElem?_cons_zero]
  rw [if_neg (by decide), State.productStep_registers hout ha hb, State.core_modCore_self, State.core_modCore_self]
  show (match ((s.core c).multiplied e ga gb).mq with | e :: _ => _ | [] => _) = _
  rw [Core.mq_multiplied hq]
  exact if_pos stepless
end

end Sys2Proof.Machine
end

section
/-! O47: the step of a tile move. Its rows lie each within a line, so each is one part, and each is sent to its home. -/
namespace Sys2Proof.Machine
-- One proof after the other: side by side they hold more memory than a compile of the whole text may take.
set_option Elab.async false

/-! ### Putting a packet on its way -/

theorem State.addPending_net (s : State) (c : Nat) (bs : List Nat) (n : Nat) : (s.addPending c bs n).net = s.net := by
  unfold State.addPending
  split <;> rfl

theorem State.addPending_mq (s : State) (m : Nat) (bs : List Nat) (n c : Nat) :
    ((s.addPending m bs n).core c).mq = (s.core c).mq := by
  unfold State.addPending
  split
  · rfl
  · rw [State.core_modCore]
    split
    next e => rw [e]
    next => rfl

theorem State.spendPacket_frame (s : State) (c : Nat) (h : Home) (near back : Bool) (n : Nat) :
    ∃ b, s.spendPacket c h near back n = { s with budgets := b } := by
  have spends (t : State) : (∃ b, t = { s with budgets := b }) →
      ∃ b, (match if near || c ≥ 4096 then none else t.injector c with
      | some p => t.spend 3 p n
      | none => t) = { s with budgets := b } := by
    rintro ⟨b, rfl⟩
    split
    next p _ =>
      obtain ⟨b', h⟩ := State.spend_frame { s with budgets := b } 3 p n
      exact ⟨b', h⟩
    next => exact ⟨b, rfl⟩
  refine spends _ ?_
  cases h with
  | peer id => exact s.spend_frame _ id n
  | _ => exact ⟨s.budgets, rfl⟩

/-- A packet to a home of this device that belongs to no group joins what is on its way, and no queue changes. -/
theorem State.launchPacket_joins (s : State) (p : Packet) (hh : ∀ id, p.home ≠ .peer id) (hg : p.group = none) :
    (s.launchPacket p).net = s.net ++ [{ p with router := p.core, since := s.cycle }] ∧
      ∀ c, ((s.launchPacket p).core c).mq = (s.core c).mq := by
  have launched : ∃ t : State, t.net = s.net ++ [{ p with router := p.core, since := s.cycle }] ∧
      (∀ c, (t.core c).mq = (s.core c).mq) ∧ ∃ b, s.launchPacket p = { t with budgets := b } := by
    unfold State.launchPacket State.cutIsolated
    rw [hg]
    cases e : p.home with
    | peer id => exact absurd e (hh id)
    | _ =>
      refine ⟨_, ?_, ?_, State.spendPacket_frame ..⟩
      · rw [State.addPending_net]
        rfl
      · exact fun c => State.addPending_mq ..
  obtain ⟨t, net, mq, b, e⟩ := launched
  rw [e]
  exact ⟨net, mq⟩

/-! ### The parts of a row -/

theorem typeBits_pos (ty : BitVec 5) (fm : BitVec 32) : 0 < typeBits ty fm := by
  have lane : 0 < laneWidth ty := by revert ty; decide
  unfold typeBits
  split
  · split
    · split <;> decide
    · decide
  · exact lane

/-- A row that lies within a line is one part. -/
theorem lineParts_within {key n : Nat} {w : Word} (h0 : 0 < n) (h : n ≤ lineRoom w) :
    lineParts (key, w, n) = [(8 * key, w, n)] := by
  unfold lineParts splitLines
  dsimp only
  rw [if_neg (Nat.ne_of_gt h0), Nat.min_eq_left h, Nat.sub_self]
  rfl

theorem leBytes_length (n x : Nat) : (leBytes n x).length = n := by
  induction n generalizing x with
  | zero => rfl
  | succ n ih => exact congrArg (· + 1) (ih _)

theorem tileRowBytes_length (e : MatEntry) (t : Tile) (r : Nat) :
    (tileRowBytes e t r).length = 2 * typeBits (optType e.options) e.fmA := leBytes_length _ _

/-! ### One row -/

/-- A part of a tile move: its row, its piece, and where it goes. -/
abbrev RowPart := Nat × Piece × RowAt

/-- Where a row of a tile move stands, and how many bytes it has. -/
def MatEntry.rowLoc (e : MatEntry) (r : Nat) : Word := addOffset e.a.loc (BitVec.ofNat 64 (r * e.a.rp))
def MatEntry.rowSize (e : MatEntry) : Nat := 2 * typeBits (optType e.options) e.fmA
/-- The one part of a row. -/
def State.rowPart (s : State) (c : Nat) (e : MatEntry) (r : Nat) : RowPart :=
  (r, (8 * r, e.rowLoc r, e.rowSize), s.rowAt c (e.rowLoc r) (e.kind == .tst))

/-- A packet carries a row of a tile move. -/
structure State.CarriesRow (s : State) (c : Nat) (e : MatEntry) (r : Nat) (p : Packet) : Prop where
  place : s.rowAt c (e.rowLoc r) (e.kind == .tst) = .home p.home p.pa p.isLocal
  own   : p.loc = e.rowLoc r ∧ p.core = c ∧ p.row = some e.serial
  store : e.kind = .tst → p.op = none ∧ p.act = .write (tileRowBytes e ((s.core c).tile e.tile) r) []
  load  : e.kind ≠ .tst → p.act = .read e.rowSize ∧ ∃ m, p.op = some m

/-- Sending a part, as the step does it with the parts at hand. -/
def State.sendPart (c : Nat) (e : MatEntry) (tile : Tile) (parts : List RowPart) (s : State) (q : RowPart) : State :=
  match q.2.2 with
  | .home h pa near =>
    if e.kind == .tst then
      let start := ((parts.filter fun o => o.1 == q.1 && o.2.1.1 < q.2.1.1).map fun o => o.2.1.2.2).foldl (· + ·) 0
      let data := ((tileRowBytes e tile q.1).drop start).take q.2.1.2.2
      s.launchPacket (s.rowPacket c h q.2.1.2.1 pa near (.write data []) tile.poison e.serial e.a.rot none)
    else s.askRow c h q.2.1.2.1 pa near e.serial e.a.rot q.2.1.1 q.2.1.2.2
  | _ => s

section
variable {s : State} {c : Nat} {e : MatEntry}

/-- No part of a row precedes its only one. -/
theorem rowPart_first (l : List Nat) (r : Nat) :
    ((l.map (s.rowPart c e)).filter fun o => o.1 == (s.rowPart c e r).1 && o.2.1.1 < (s.rowPart c e r).2.1.1) = [] := by
  refine List.filter_eq_nil_iff.mpr fun o ho => ?_
  obtain ⟨i, -, rfl⟩ := List.mem_map.mp ho
  rw [Bool.and_eq_true, beq_iff_eq, decide_eq_true_iff]
  rintro ⟨same, h⟩
  obtain rfl : i = r := same
  exact Nat.lt_irrefl _ h

theorem State.sendPart_joins {t : State} {l : List Nat} {r : Nat} {h : Home} {pa : Option Nat} {near : Bool}
    (hat : s.rowAt c (e.rowLoc r) (e.kind == .tst) = .home h pa near) (hh : ∀ id, h ≠ .peer id) :
    (∃ p, (t.sendPart c e ((s.core c).tile e.tile) (l.map (s.rowPart c e)) (s.rowPart c e r)).net = t.net ++ [p] ∧
      s.CarriesRow c e r p) ∧
    ∀ m, ((t.sendPart c e ((s.core c).tile e.tile) (l.map (s.rowPart c e)) (s.rowPart c e r)).core m).mq =
      (t.core m).mq := by
  have hq : (s.rowPart c e r).2.2 = .home h pa near := hat
  unfold State.sendPart
  rw [hq]
  dsimp only
  rw [rowPart_first]
  split
  next hk =>
    have store : e.kind = .tst := eq_of_beq hk
    have whole : ((tileRowBytes e ((s.core c).tile e.tile) (s.rowPart c e r).1).drop 0).take (s.rowPart c e r).2.1.2.2 =
        tileRowBytes e ((s.core c).tile e.tile) r := List.take_of_length_le (le_of_eq (tileRowBytes_length ..))
    obtain ⟨net, mq⟩ := t.launchPacket_joins (t.rowPacket c h (s.rowPart c e r).2.1.2.1 pa near
      (.write (((tileRowBytes e ((s.core c).tile e.tile) (s.rowPart c e r).1).drop 0).take (s.rowPart c e r).2.1.2.2) [])
      ((s.core c).tile e.tile).poison e.serial e.a.rot none) hh rfl
    exact ⟨⟨_, net, hat, ⟨rfl, rfl, rfl⟩, fun _ => ⟨rfl, congrArg (Act.write · []) whole⟩,
      fun h => absurd store h⟩, mq⟩
  next hk =>
    have load : e.kind ≠ .tst := fun h => hk (beq_iff_eq.mpr h)
    unfold State.askRow
    exact ⟨⟨_, (State.launchPacket_joins _ _ hh rfl).1, hat, ⟨rfl, rfl, rfl⟩, fun h => absurd h load,
      fun _ => ⟨rfl, _, rfl⟩⟩,
      (State.launchPacket_joins _ _ hh rfl).2⟩
end

/-! ### All rows -/

/-- Parts sent one after the other: each has its packet on its way, and no queue has changed. -/
theorem foldl_sends {F : State → RowPart → State} {P : RowPart → Packet → Prop} (l : List RowPart) (t : State)
    (hF : ∀ q, q ∈ l → ∀ t : State, (∃ p, (F t q).net = t.net ++ [p] ∧ P q p) ∧
      ∀ m, ((F t q).core m).mq = (t.core m).mq) :
    (∀ p, p ∈ t.net → p ∈ (l.foldl F t).net) ∧ (∀ q, q ∈ l → ∃ p, p ∈ (l.foldl F t).net ∧ P q p) ∧
      ∀ m, ((l.foldl F t).core m).mq = (t.core m).mq := by
  induction l generalizing t with
  | nil => exact ⟨fun _ h => h, fun q hq => absurd hq List.not_mem_nil, fun _ => rfl⟩
  | cons q l ih =>
    obtain ⟨⟨p, net, hp⟩, mq⟩ := hF q List.mem_cons_self t
    obtain ⟨keeps, sends, rest⟩ := ih (F t q) fun r hr => hF r (List.mem_cons_of_mem _ hr)
    have joined {x : Packet} (hx : x ∈ t.net ++ [p]) : x ∈ (l.foldl F (F t q)).net := keeps x (net ▸ hx)
    refine ⟨fun x hx => joined (List.mem_append_left _ hx), fun r hr => ?_, fun m => (rest m).trans (mq m)⟩
    rcases List.mem_cons.mp hr with rfl | hr
    · exact ⟨p, joined (List.mem_append_right _ List.mem_cons_self), hp⟩
    · exact sends r hr

section
variable {s : State} {c : Nat} {e : MatEntry} {rest : List MatEntry}

/-- Each row lies within a line and has a home of this device. -/
def State.RowsAtHome (s : State) (c : Nat) (e : MatEntry) : Prop :=
  ∀ r, r < 16 → e.rowSize ≤ lineRoom (e.rowLoc r) ∧
    ∃ h pa near, s.rowAt c (e.rowLoc r) (e.kind == .tst) = .home h pa near ∧ ∀ id, h ≠ .peer id

theorem State.moveParts (hrows : s.RowsAtHome c e) :
    ((span 0 16).flatMap fun r => (lineParts (r, e.rowLoc r, e.rowSize)).map fun p =>
      (r, p, s.rowAt c p.2.1 (e.kind == .tst))) = (List.range 16).map (s.rowPart c e) := by
  rw [span_zero, ← List.flatMap_singleton' (List.map _ _), List.flatMap_map]
  refine List.flatMap_congr fun r hr => ?_
  obtain ⟨fits, -⟩ := hrows r (List.mem_range.mp hr)
  have nonempty : 0 < e.rowSize := Nat.mul_pos (by decide) (typeBits_pos _ _)
  rw [lineParts_within nonempty fits]
  rfl

theorem State.rowPart_home (hrows : s.RowsAtHome c e) {q : RowPart} (hq : q ∈ (List.range 16).map (s.rowPart c e)) :
    ∃ h pa near, q.2.2 = .home h pa near := by
  obtain ⟨r, hr, rfl⟩ := List.mem_map.mp hq
  obtain ⟨-, h, pa, near, hat, -⟩ := hrows r (List.mem_range.mp hr)
  exact ⟨h, pa, near, hat⟩

/-- The step notes that 16 transfers are out, and sends them. -/
theorem State.moveStep_eq (hrows : s.RowsAtHome c e) :
    ∃ f : MatEntry → MatEntry, (∀ e', (f e').rowsOut = some 16) ∧
      s.moveStep c e = ((List.range 16).map (s.rowPart c e)).foldl
        (State.sendPart c e ((s.core c).tile e.tile) ((List.range 16).map (s.rowPart c e)))
        (s.modCore c fun k => k.modEntry e.serial f) := by
  have lost : ((List.range 16).map (s.rowPart c e)).filter (fun q => q.2.2 == .fail) = [] := by
    refine List.filter_eq_nil_iff.mpr fun q hq => ?_
    obtain ⟨h, pa, near, hat⟩ := State.rowPart_home hrows hq
    rw [hat]
    exact Bool.false_ne_true
  have sent : (((List.range 16).map (s.rowPart c e)).filter fun q => q.2.2 != .fail).length = 16 := by
    rw [List.filter_eq_self.mpr fun q hq => ?_]
    · rw [List.length_map, List.length_range]
    · obtain ⟨h, pa, near, hat⟩ := State.rowPart_home hrows hq
      rw [hat]
      rfl
  have parts := State.moveParts hrows
  unfold MatEntry.rowLoc MatEntry.rowSize at parts
  unfold State.moveStep
  dsimp only
  rw [parts, lost, sent]
  split
  next va hask =>
    obtain ⟨q, hq, hva⟩ := List.exists_of_findSome?_eq_some hask
    obtain ⟨h, pa, near, hat⟩ := State.rowPart_home hrows hq
    rw [hat] at hva
    cases hva
  next =>
    rw [List.foldl_nil, List.foldl_nil, ite_self]
    exact ⟨_, fun _ => rfl, rfl⟩

theorem MatEntry.isProduct_of_move (hk : e.kind = .tld ∨ e.kind = .tldt ∨ e.kind = .tst) : e.isProduct = false := by
  unfold MatEntry.isProduct
  rcases hk with h | h | h <;> rw [h] <;> rfl

theorem State.matrixStep_move (hq : (s.core c).mq = e :: rest) (hk : e.kind = .tld ∨ e.kind = .tldt ∨ e.kind = .tst) :
    s.matrixStep c = s.moveStep c e := by
  unfold State.matrixStep
  rw [hq]
  exact if_pos (by rw [MatEntry.isProduct_of_move hk]; rfl)

/-- The step of a tile move: 16 transfers are out, and each row has its packet. -/
theorem State.matrixStep_sends (hq : (s.core c).mq = e :: rest)
    (hk : e.kind = .tld ∨ e.kind = .tldt ∨ e.kind = .tst) (hrows : s.RowsAtHome c e) :
    (((s.matrixStep c).core c).mq.head?.bind fun q => q.rowsOut) = some 16 ∧
      ∀ r, r < 16 → ∃ p, p ∈ (s.matrixStep c).net ∧ s.CarriesRow c e r p := by
  obtain ⟨f, hf, hstep⟩ := State.moveStep_eq hrows
  obtain ⟨-, sends, mq⟩ := foldl_sends (F := State.sendPart c e ((s.core c).tile e.tile)
    ((List.range 16).map (s.rowPart c e))) (P := fun q p => s.CarriesRow c e q.1 p)
    ((List.range 16).map (s.rowPart c e)) (s.modCore c fun k => k.modEntry e.serial f) fun q hq t => by
      obtain ⟨r, hr, rfl⟩ := List.mem_map.mp hq
      obtain ⟨-, h, pa, near, hat, hh⟩ := hrows r (List.mem_range.mp hr)
      exact State.sendPart_joins hat hh
  rw [State.matrixStep_move hq hk, hstep]
  refine ⟨?_, fun r hr => sends _ (List.mem_map_of_mem (List.mem_range.mpr hr))⟩
  rw [mq, State.core_modCore_self, Core.mq_modEntry hq]
  exact hf e
end

end Sys2Proof.Machine
end

section
/-! O47: the end of a matrix entry, and the tile that a load fills from its rows. -/
namespace Sys2Proof.Machine
-- One proof after the other: side by side they hold more memory than a compile of the whole text may take.
set_option Elab.async false

/-! ### The tile that is filled -/

section
variable (e : MatEntry)

/-- The bits of a row that has come: its parts in order. -/
def MatEntry.rowBits (m : Nat) : Nat :=
  leNat ((sortBy (·.1) (e.rowData.filter fun q => q.1 / 8 == m)).flatMap fun q => q.2.1)

/-- The key of element n of row m in straight or transposed order. -/
def MatEntry.fillKey (q : Nat × Nat) : Nat := if e.kind == .tldt then 16 * q.2 + q.1 else 16 * q.1 + q.2

/-- Element n of a row of the given bits, converted to the tile's type. -/
def MatEntry.fillValue (bits n : Nat) : BitVec 32 :=
  let x : Context := { fm := Tab.put [] ((optType e.options).toNat - 16) e.fmA }
  BitVec.ofNat 32 (x.convert (optType e.options) (tileCode (e.options.getLsbD 11))
    (elementAt (optType e.options) e.fmA bits n)).1

theorem elems_fillTile : (fillTile e).elems =
    setAll 0 e.fillKey (fun q _ => e.fillValue (e.rowBits q.1) q.2) [] tileGrid := by
  rw [setAll, tileGrid, List.foldl_flatMap]
  simp only [List.foldl_map]
  dsimp only [fillTile, MatEntry.fillKey, MatEntry.fillValue, MatEntry.rowBits]

theorem isInt_fillTile : (fillTile e).isInt = e.options.getLsbD 11 := by
  dsimp only [fillTile]

theorem poison_fillTile : (fillTile e).poison = e.rowData.any fun q => q.2.2 := by
  dsimp only [fillTile]

variable {e}

theorem MatEntry.fillKey_inj {p q : Nat × Nat} (hp : p ∈ tileGrid) (hq : q ∈ tileGrid)
    (h : e.fillKey p = e.fillKey q) : p = q := by
  obtain ⟨hp1, hp2⟩ := mem_tileGrid.mp hp
  obtain ⟨hq1, hq2⟩ := mem_tileGrid.mp hq
  unfold MatEntry.fillKey at h
  split at h
  · exact Prod.ext (by omega) (by omega)
  · exact Prod.ext (by omega) (by omega)

/-- Each element of the tile is the converted element of its row. -/
theorem get_fillTile {r n : Nat} (hr : r < 16) (hn : n < 16) :
    Tab.get 0 (fillTile e).elems (e.fillKey (r, n)) = e.fillValue (e.rowBits r) n := by
  have written := get_setAll (d := (0 : BitVec 32)) (l := tileGrid) (t := []) (key := e.fillKey)
    (val := fun q _ => e.fillValue (e.rowBits q.1) q.2) (q := (r, n)) rfl
    (nodup_tileGrid fun p q => MatEntry.fillKey_inj) (mem_tileGrid.mpr ⟨hr, hn⟩)
  rw [elems_fillTile]
  exact written

/-! Rows that came whole, each as one part under its own number. -/

variable {data : Nat → List Byte × Bool}
  (hdata : e.rowData = (List.range 16).map fun r => (8 * r, data r))
include hdata

theorem MatEntry.rowBits_whole {r : Nat} (hr : r < 16) : e.rowBits r = leNat (data r).1 := by
  have only : (e.rowData.filter fun q => q.1 / 8 == r) = [(8 * r, data r)] := by
    rw [hdata, List.filter_map]
    have same : ((fun q : Nat × List Byte × Bool => q.1 / 8 == r) ∘ fun i => (8 * i, data i)) = fun i => i == r := by
      funext i
      rw [Function.comp, Nat.mul_div_cancel_left i (by decide)]
    rw [same, List.filter_beq, List.nodup_range.count, if_pos (List.mem_range.mpr hr)]
    rfl
  rw [MatEntry.rowBits, only]
  exact congrArg leNat (List.append_nil _)

theorem poison_fillTile_iff : (fillTile e).poison = true ↔ ∃ r, r < 16 ∧ (data r).2 = true := by
  rw [poison_fillTile, hdata, List.any_map, List.any_eq_true]
  simp only [List.mem_range, Function.comp]

end

/-! ### The end of the head entry -/

section
variable {s : State} {c : Nat} {e : MatEntry} {rest : List MatEntry}

/-- The head entry has left the queue, is counted when guarded, and is in no batch. -/
def Core.LostHead (k q : Core) (e : MatEntry) (rest : List MatEntry) : Prop :=
  q.mq = rest ∧ q.mgc = (if e.guarded then k.mgc + 1 else k.mgc) ∧
    q.batches.map (·.entries) = k.batches.map fun b => b.entries.filter (· != e.serial)

/-- The core that a tile load leaves: the tile filled, the head entry gone. -/
def Core.filled (k : Core) (e : MatEntry) : Core :=
  (({ k with tiles := Tab.put k.tiles e.tile (fillTile e) } : Core).modEntry e.serial fun e' =>
    { e' with readPoison := (fillTile e).poison }).completeHead

theorem Core.lostHead_completeHead {k : Core} (hq : k.mq = e :: rest) :
    k.LostHead k.completeHead e rest ∧ k.completeHead.tiles = k.tiles := by
  obtain ⟨mq, mgc, tiles, batches⟩ := Core.completeHead_eq hq
  exact ⟨⟨mq, mgc, batches⟩, tiles⟩

theorem Core.lostHead_filled {k : Core} (hq : k.mq = e :: rest) :
    k.LostHead (k.filled e) e rest ∧ (k.filled e).tiles = Tab.put k.tiles e.tile (fillTile e) := by
  obtain ⟨mq, mgc, tiles, batches⟩ := Core.completeHead_eq (Core.mq_modEntry
    (k := { k with tiles := Tab.put k.tiles e.tile (fillTile e) }) hq fun e' =>
      { e' with readPoison := (fillTile e).poison })
  exact ⟨⟨mq, mgc, batches⟩, tiles⟩

theorem Core.tile_filled {k : Core} (hq : k.mq = e :: rest) (m : Nat) :
    (k.filled e).tile m = if m = e.tile then fillTile e else k.tile m := by
  rw [Core.tile, (Core.lostHead_filled hq).2]
  exact Tab.get_put ..

section
variable (hq : (s.core c).mq = e :: rest)
include hq

theorem matrixEntryComplete_waits (hj : (s.core c).joined e.joins = false) :
    exec (.matrixEntryComplete c) s = .next s := by
  show execMatrixEntryComplete c s = _
  unfold execMatrixEntryComplete
  dsimp only
  rw [hq]
  exact if_pos (by rw [hj]; rfl)

theorem matrixEntryComplete_stepless (hj : (s.core c).joined e.joins = true) (hp : e.isProduct = true)
    (hs : e.steps = []) : exec (.matrixEntryComplete c) s = .next (s.modCore c Core.completeHead) := by
  have done : e.stepless = true := by
    rw [MatEntry.stepless, hp, hs]
    exact decide_eq_true (Nat.zero_le e.next)
  show execMatrixEntryComplete c s = _
  unfold execMatrixEntryComplete
  dsimp only
  rw [hq]
  dsimp only
  rw [hj, Bool.not_true, if_neg Bool.false_ne_true, if_pos done]

/-- What a tile move does once it joins: it waits for its rows, and then a store leaves and a load fills its tile. -/
theorem matrixEntryComplete_move (hj : (s.core c).joined e.joins = true)
    (hk : e.kind = .tld ∨ e.kind = .tldt ∨ e.kind = .tst) : exec (.matrixEntryComplete c) s =
      if e.rowsOut ≠ some 0 then .next s
      else if e.kind == .tst then .next (s.modCore c Core.completeHead)
      else .next (s.modCore c fun k => k.filled e) := by
  have move := MatEntry.isProduct_of_move hk
  have steps : e.stepless = false := by rw [MatEntry.stepless, move, Bool.false_and]
  show execMatrixEntryComplete c s = _
  unfold execMatrixEntryComplete
  dsimp only
  rw [hq]
  dsimp only
  rw [hj, Bool.not_true, if_neg Bool.false_ne_true, steps, if_neg Bool.false_ne_true, move, Bool.false_or]
  simp only [decide_eq_true_eq]
  rfl
end
end

end Sys2Proof.Machine
end

section
/-! O47 assembled. -/
namespace Sys2Proof.Machine
-- One proof after the other: side by side they hold more memory than a compile of the whole text may take.
set_option Elab.async false

/-- Settles O47: each clause is read off the lemma about its instruction or event; a line of a tile and the elements of
a product or of a filled tile are tables written at distinct keys. -/
theorem tilesAndSteps : Obligations.TilesAndSteps := by
  unfold Obligations.TilesAndSteps
  refine ⟨fun s d i e => ⟨State.trd_traps, fun h hc => ?_, State.twr_format, State.twr_traps, fun ht h hc hr => ?_⟩,
    fun s d => ⟨State.tzero_traps, fun h hc => ?_⟩, fun s cl => ?_, fun s c e rest ga gb => ?_, fun s c e rest => ?_,
    fun s c e rest => ?_⟩
  · obtain ⟨u, hu, hcomp, hv⟩ := State.trd_completes h hc
    refine ⟨u, hu, hcomp, ?_, ?_, fun j hj => ?_⟩
    · rw [hv]
      rfl
    · rw [hv]
      rfl
    · rw [hv]
      exact s.lane_trdValue d i e hj
  · obtain ⟨v, hv, hcomp⟩ := State.twr_completes ht h hc
    have here := State.here_modHere s fun k => k.withTiles (s.twrTiles d i e k)
    have tile (m : Nat) : (s.modHere fun k => k.withTiles (s.twrTiles d i e k)).here.tile m =
        if m = e.toNat / 2 then twrTile (s.here.tile (e.toNat / 2)) (e.getLsbD 0) (bitsN (s.g i.toNat) 3 0) s.me.km
          (s.v d.toNat) else s.here.tile m := by
      rw [here]
      exact Tab.get_put ..
    refine ⟨_, v, hv, hcomp, s.onlyCore_modCore .., by rw [here]; rfl, fun m hm => (tile m).trans (if_neg hm), ?_, ?_,
      fun j hj => ?_, fun k hk => ?_⟩
    all_goals rw [tile, if_pos rfl]
    · rfl
    · rfl
    · exact twrTile_elem _ _ _ _ hr hj
    · exact twrTile_other _ _ _ _ hr hk
  · obtain ⟨t, ht, hcomp⟩ := State.tzero_completes h hc
    refine ⟨t, ht, hcomp, ?_⟩
    rw [hcomp.1.here]
    exact (congrArg (Core.tile · d.toNat) (s.here_modHere _)).trans (Tab.get_put_self ..)
  · simp only [← State.mayStep_iff]
    refine ⟨fun h => ⟨fun took => ?_, fun waits => ?_⟩,
      fun h j h1 h8 hj hfirst => ⟨fun took => ?_, fun waits => ?_⟩, fun h hnone => ?_⟩
    · rw [arbiterGrant_goesOn h, State.grantStep_took took]
    · rw [arbiterGrant_goesOn h, State.grantStep_waits waits]
    · rw [arbiterGrant_passes h h1 h8 hj hfirst]
      exact congrArg _ (State.grantStep_took took)
    · rw [arbiterGrant_passes h h1 h8 hj hfirst]
      exact congrArg _ (State.grantStep_waits waits)
    · exact arbiterGrant_rests h hnone
  · intro hq hkind hrows hg hnext hout hn ha hb
    have core := State.core_matrixStep_registers hq hkind hrows hg hnext hout hn ha hb
    obtain ⟨mq, -, tiles, -⟩ := Core.completeHead_eq (Core.mq_multiplied (ga := ga) (gb := gb) hq)
    have tile (m : Nat) : ((s.matrixStep c).core c).tile m =
        if m = e.tile then e.newTile ga gb ((s.core c).tile e.tile) else (s.core c).tile m := by
      rw [core, Core.tile, tiles]
      exact Core.tile_multiplied _ m
    refine ⟨⟨by rw [core, mq], ?_, ?_, fun m hm => (tile m).trans (if_neg hm)⟩, fun hold r n hr hn' => ?_⟩
    all_goals rw [tile, if_pos rfl]
    · rfl
    · rfl
    · dsimp only
      rw [MatEntry.elems_newTile, e.get_stepped ga gb hold hr hn']
      rfl
  · intro hq hkind _ _ _ hrows
    obtain ⟨out, sends⟩ := State.matrixStep_sends hq hkind hrows
    refine ⟨out, fun r hr => ?_⟩
    obtain ⟨p, hp, place, ⟨loc, core, row⟩, store, load⟩ := sends r hr
    exact ⟨p, hp, place, loc, core, row, store, load⟩
  · intro hq
    have left {f : Core → Core} (h : (s.core c).LostHead (f (s.core c)) e rest) :
        (s.core c).LostHead ((s.modCore c f).core c) e rest := by
      rw [s.core_modCore_self]
      exact h
    have stored := Core.lostHead_completeHead hq
    have filled := Core.tile_filled hq
    refine ⟨matrixEntryComplete_waits hq, fun hj => ⟨fun hdone => ⟨s.modCore c Core.completeHead, ?_,
      s.onlyCore_modCore ..,
      left stored.1, ?_⟩, fun hk hout => ?_, fun hk hout data hdata => ⟨s.modCore c fun k => k.filled e, ?_,
        s.onlyCore_modCore .., left (Core.lostHead_filled hq).1, ?_, fun m hm => ?_, ?_, fun r n hr hn => ?_⟩⟩⟩
    · rcases hdone with ⟨hp, hs⟩ | ⟨hk, hout⟩
      · exact matrixEntryComplete_stepless hq hj hp hs
      · rw [matrixEntryComplete_move hq hj (.inr (.inr hk)), if_neg (not_not_intro hout), if_pos (beq_iff_eq.mpr hk)]
    · rw [s.core_modCore_self]
      exact stored.2
    · rw [matrixEntryComplete_move hq hj hk, if_pos hout]
    · have load : ¬(e.kind == .tst) = true := by rcases hk with h | h <;> rw [h] <;> decide
      rw [matrixEntryComplete_move hq hj (hk.imp_right .inl), if_neg (not_not_intro hout), if_neg load]
    all_goals rw [s.core_modCore_self, filled]
    · rw [if_pos rfl, isInt_fillTile]
    · exact if_neg hm
    · rw [if_pos rfl]
      exact poison_fillTile_iff hdata
    · have key : (if e.kind = .tldt then 16 * n + r else 16 * r + n) = e.fillKey (r, n) := by
        simp only [MatEntry.fillKey, beq_iff_eq]
      rw [if_pos rfl, key, get_fillTile hr hn, MatEntry.rowBits_whole hdata hr]
      rfl
end Sys2Proof.Machine
end

section
/-! O26: what the checks of a location find, one failure after the other, and what LD and ST then do. -/
namespace Sys2Proof.Machine

/-! ### The checks of an on-chip word (R58) -/

theorem State.named_unpaired {s : State} (hp : s.here.pairing = none) (w : Word) :
    s.named s.cur.1 w = namedCore s.cur.1 w := by
  unfold State.named
  rw [show (s.core s.cur.1).pairing = none from hp]

section
variable {s : State} {c : Nat} {failed : Option (Nat × BitVec 8)} {w : Word} {size align : Nat} {want : Want}

/-- The word names no core's or cluster's storage (subcode 4). -/
def chipInvalid (w : Word) (core : Nat) : Prop := chipLevel w > 1 ∨ core > 4095 ∨ chipHandle w = 0
/-- The word lies outside the issuer's partition, and in no inbox that it may store to (R58, R242). -/
def State.refuses (s : State) (c : Nat) (w : Word) (core : Nat) (want : Want) : Prop :=
  s.partOf core ≠ s.partOf c ∧ (s.columnInbox core (chipHandle w) && want == .write) = false
/-- The word names the issuer's local memory or its cluster's scratchpad. -/
def chipNear (w : Word) (c core : Nat) : Prop := if chipLevel w = 0 then core = c else clusterOf core = clusterOf c
/-- The handle's entry in the table of the storage that the word names. -/
def State.chipTile (s : State) (w : Word) (core : Nat) : TileEntry :=
  (s.storeAt (if chipLevel w = 0 then .localMem core else .scratch (clusterOf core))).tile (chipHandle w)

theorem State.chipTile_eq (s : State) (w : Word) (core : Nat) :
    (if chipLevel w = 0 then (s.core core).store.tile (chipHandle w)
      else (s.cluster (clusterOf core)).store.tile (chipHandle w)) = s.chipTile w core := by
  unfold State.chipTile
  split <;> rfl

theorem chipNear_iff (w : Word) (c core : Nat) :
    (if chipLevel w = 0 then core == c else clusterOf core == clusterOf c) = true ↔ chipNear w c core := by
  unfold chipNear
  split <;> exact beq_iff_eq

theorem check_chip_invalid (hc : isChip w = true) (h : chipInvalid w (s.named c w)) :
    s.check c failed w size align want = .trap 0x09 4 := by
  unfold State.check
  rw [if_pos hc]
  exact if_pos (by simpa [chipInvalid, or_assoc] using h)

theorem check_chip_valid (hc : isChip w = true) (h : ¬chipInvalid w (s.named c w)) :
    s.check c failed w size align want =
      if s.partOf (s.named c w) ≠ s.partOf c && !(s.columnInbox (s.named c w) (chipHandle w) && want == .write) then
        .trap 0x06 0
      else if chipOff w % align ≠ 0 then .trap 0x08 0
      else if !(if chipLevel w = 0 then s.named c w == c else clusterOf (s.named c w) == clusterOf c) then
        .ok (.chip (chipLevel w) (s.named c w) (chipHandle w) (chipGen w) (chipOff w) false)
      else if !(s.chipTile w (s.named c w)).used then .trap 0x09 1
      else if (s.chipTile w (s.named c w)).gen ≠ chipGen w then .trap 0x09 2
      else if chipOff w + size > (s.chipTile w (s.named c w)).rows * (s.chipTile w (s.named c w)).rowBytes then
        .trap 0x09 3
      else .ok (.chip (chipLevel w) (s.named c w) (chipHandle w) (chipGen w) (chipOff w) true) := by
  unfold State.check
  rw [if_pos hc]
  refine (if_neg (by simpa [chipInvalid, or_assoc] using h)).trans ?_
  dsimp only
  rw [s.chipTile_eq]

theorem check_chip_refused (hc : isChip w = true) (h : ¬chipInvalid w (s.named c w))
    (hr : s.refuses c w (s.named c w) want) : s.check c failed w size align want = .trap 0x06 0 := by
  rw [check_chip_valid hc h, if_pos]
  simp [hr.1, hr.2]

theorem check_chip_admitted (hc : isChip w = true) (h : ¬chipInvalid w (s.named c w))
    (hp : s.partOf (s.named c w) = s.partOf c) :
    (chipOff w % align ≠ 0 → s.check c failed w size align want = .trap 0x08 0) ∧
    (chipOff w % align = 0 → chipNear w c (s.named c w) →
      let t := s.chipTile w (s.named c w)
      (t.used = false → s.check c failed w size align want = .trap 0x09 1) ∧
      (t.used = true → t.gen ≠ chipGen w → s.check c failed w size align want = .trap 0x09 2) ∧
      (t.used = true → t.gen = chipGen w → t.rows * t.rowBytes < chipOff w + size →
        s.check c failed w size align want = .trap 0x09 3)) := by
  rw [check_chip_valid hc h, if_neg (by simp [hp])]
  refine ⟨fun ha => if_pos ha, fun ha hn => ?_⟩
  rw [if_neg (not_not_intro ha), if_neg (by rw [(chipNear_iff ..).mpr hn]; decide)]
  refine ⟨fun hu => if_pos (by rw [hu]; rfl), fun hu hg => ?_, fun hu hg hb => ?_⟩ <;>
    rw [if_neg (by rw [hu]; decide)]
  · exact if_pos hg
  · rw [if_neg (not_not_intro hg)]
    exact if_pos hb

/-! ### The checks of a virtual address (R64) -/

theorem check_virtual (hc : isChip w = false) :
    s.check c failed w size align want = match s.translate c failed w want with
      | .ok p => if bitsN w 56 0 % align ≠ 0 then .trap 0x08 0 else .ok p
      | r => r := by
  unfold State.check
  exact if_neg (by simp [hc])

theorem check_noncanonical (hc : isChip w = false) (h : bitsN w 62 57 ≠ 0) :
    s.check c failed w size align want = .trap 0x05 2 := by
  rw [check_virtual hc, State.translate, if_pos h]

theorem check_held {t : Trans} (hc : isChip w = false) (h : bitsN w 62 57 = 0)
    (hl : s.lookup c (bitsN w 56 0) = some t) :
    (t.grants want = false → s.check c failed w size align want = .trap 0x06 0) ∧
      (t.grants want = true → bitsN w 56 0 % align ≠ 0 → s.check c failed w size align want = .trap 0x08 0) := by
  rw [check_virtual hc, State.translate, if_neg (not_not_intro h)]
  simp only [hl]
  refine ⟨fun hg => by rw [hg]; rfl, fun hg ha => ?_⟩
  rw [hg]
  exact if_pos ha

theorem check_walks (hc : isChip w = false) (h : bitsN w 62 57 = 0) (hl : s.lookup c (bitsN w 56 0) = none) :
    s.check c none w size align want = .walk (bitsN w 56 0) := by
  rw [check_virtual hc, State.translate, if_neg (not_not_intro h)]
  simp only [hl]

end

/-! ### LD and ST whose location fails a check -/

theorem State.locate_trap {s : State} {w : Word} {size align : Nat} {want : Want} {cause sub : BitVec 8}
    (h : s.check s.cur.1 s.me.walkErr w size align want = .trap cause sub) (k : Place → Res) :
    s.locate w size align want k = .trap cause sub w := by
  unfold State.locate
  rw [h]

theorem exec_ld (d b : BitVec 6) (c : BitVec 5) (o : BitVec 7) (s : State) :
    exec (.ld d b c o) s = issue (.ld d b c o) s fun p s => s.doLd p d b c o := rfl
theorem exec_st (d b : BitVec 6) (c : BitVec 5) (o : BitVec 7) (s : State) :
    exec (.st d b c o) s = issue (.st d b c o) s fun _ s => s.doSt d b c o := rfl

theorem ld_traps {s : State} {d b : BitVec 6} {c : BitVec 5} {o : BitVec 7} {cause sub : BitVec 8}
    (h : s.check s.cur.1 s.me.walkErr (s.formatM b o (classSize c)) (classSize c) (classSize c) .read = .trap cause sub) :
    s.Traps (.ld d b c o) cause sub (s.formatM b o (classSize c)) :=
  fun hc hl => (exec_ld d b c o s).trans (issue_trap hc (State.locate_trap h _) hl)

theorem st_traps {s : State} {d b : BitVec 6} {c : BitVec 5} {o : BitVec 7} {cause sub : BitVec 8}
    (h : s.check s.cur.1 s.me.walkErr (s.formatM b o (classSize c)) (classSize c) (classSize c) .write = .trap cause sub) :
    s.Traps (.st d b c o) cause sub (s.formatM b o (classSize c)) :=
  fun hc hl => (exec_st d b c o s).trans (issue_trap hc (State.locate_trap h _) hl)

theorem ld_st_trap {s : State} (d : BitVec 6) {b : BitVec 6} {c : BitVec 5} {o : BitVec 7} {cause sub : BitVec 8}
    (h : ∀ want, want = .read ∨ want = .write →
      s.check s.cur.1 s.me.walkErr (s.formatM b o (classSize c)) (classSize c) (classSize c) want = .trap cause sub) :
    s.Traps (.ld d b c o) cause sub (s.formatM b o (classSize c)) ∧
      s.Traps (.st d b c o) cause sub (s.formatM b o (classSize c)) :=
  ⟨ld_traps (h _ (.inl rfl)), st_traps (h _ (.inr rfl))⟩

/-! ### Waiting for a walk (R66) -/

theorem State.die_modDie_self (s : State) (n : Nat) (f : Die → Die) : (s.modDie n f).die n = f (s.die n) :=
  Tab.get_put_self ({} : Die) s.dies n _

/-- A walk is queued or joined for a context wherever the die's queue has room, or the shared agent is already asked. -/
theorem State.requestWalk_enlists {s : State} (c x va kind : Nat) (h : (s.die (dieOf c)).walks.length < 1024) :
    (((s.requestWalk c x va kind).die (dieOf c)).walks.any fun w => w.waiters.contains (c, x)) = true ∨
      ((s.requestWalk c x va kind).stas.any fun r => r.waiters.contains (c, x)) = true := by
  have joins (l : List (Nat × Nat)) : (if l.contains (c, x) then l else l ++ [(c, x)]).contains (c, x) = true := by
    split
    · assumption
    · simp
  unfold State.requestWalk
  dsimp only
  split
  · next hs =>
    obtain ⟨r, hr, hm⟩ := List.any_eq_true.mp hs
    refine .inr (List.any_eq_true.mpr ⟨_, List.mem_map_of_mem hr, ?_⟩)
    rw [if_pos hm]
    exact joins _
  · left
    rw [State.die_modDie_self]
    split
    · next hw =>
      obtain ⟨w, hw, hm⟩ := List.any_eq_true.mp hw
      refine List.any_eq_true.mpr ⟨_, List.mem_map_of_mem hw, ?_⟩
      rw [if_pos hm]
      exact joins _
    · rw [if_neg (by omega)]
      simp

theorem State.requestWalk_frame (s : State) (c x va kind : Nat) :
    s.requestWalk c x va kind =
      { s with dies := (s.requestWalk c x va kind).dies, stas := (s.requestWalk c x va kind).stas } := by
  unfold State.requestWalk
  dsimp only
  split <;> rfl

theorem State.awaitWalk_waits {s : State} (va kind : Nat) (h : (s.die (dieOf s.cur.1)).walks.length < 1024) :
    s.awaitWalk va kind = (s.requestWalk s.cur.1 s.cur.2 va kind).modMe fun x => { x with wait := .walk } := by
  have hc : (s.requestWalk s.cur.1 s.cur.2 va kind).cur = s.cur := by rw [s.requestWalk_frame]
  unfold State.awaitWalk
  dsimp only
  rw [hc, if_neg]
  rcases State.requestWalk_enlists s.cur.1 s.cur.2 va kind h with h | h <;> rw [h] <;> simp

/-- O26's last clause: the context waits at its instruction. -/
theorem State.locate_walk {s : State} {i : Instr} {w : Word} {size align va : Nat} {want : Want} {k : Place → Res}
    {body : Bool → State → Res} (hc : s.clear i = true) (h : s.check s.cur.1 s.me.walkErr w size align want = .walk va)
    (hw : (s.die (dieOf s.cur.1)).walks.length < 1024) (hb : body (poisonedSource i s) s = s.locate w size align want k) :
    ∃ t, issue i s body = .next t ∧ t.me.wait = .walk ∧ t.me.pc = s.me.pc := by
  have hr : (s.requestWalk s.cur.1 s.cur.2 va want.code).me = s.me := by rw [s.requestWalk_frame]; rfl
  refine ⟨_, issue_wait hc (u := s.awaitWalk va want.code) ?_, ?_⟩
  · rw [hb, State.locate, h]
  · rw [State.awaitWalk_waits va want.code hw, State.me_modMe, State.me_modMe, hr]
    exact ⟨rfl, rfl⟩

/-- Settles O26: each check of R58 and R64 fails with its trap when those before it pass. -/
theorem locationChecks : Obligations.LocationChecks := by
  unfold Obligations.LocationChecks
  intro s d b c o n w both
  refine ⟨?_, fun hc => ⟨fun h => ?_, fun h t hl => ⟨fun hr => ?_, fun hw => ?_,
    fun hr hw ha => ?_⟩, fun h hl hf hd hi => ?_⟩⟩
  · intro hc hp core bad foreign near t
    have hcore : s.named s.cur.1 w = core := State.named_unpaired hp w
    refine ⟨fun hbad => ld_st_trap d fun want _ => check_chip_invalid hc (by rw [hcore]; exact hbad),
      fun hbad hfor => ⟨ld_traps (check_chip_refused hc (by rw [hcore]; exact hbad) ⟨?_, ?_⟩), fun hin =>
        st_traps (check_chip_refused hc (by rw [hcore]; exact hbad) ⟨?_, ?_⟩)⟩,
      fun hbad hfor ha => ?_, fun hbad hfor ha hn => ⟨fun hu => ?_, fun hu hg => ?_, fun hu hg hb => ?_⟩⟩
    · rw [hcore]; exact hfor
    · simp
    · rw [hcore]; exact hfor
    · rw [hcore, show s.columnInbox core (chipHandle w) = false from hin]; rfl
    all_goals
      have valid : ¬chipInvalid w (s.named s.cur.1 w) := by rw [hcore]; exact hbad
      have admitted := fun want => check_chip_admitted (failed := s.me.walkErr) (size := n) (align := n) (want := want) hc
        valid (by rw [hcore]; exact not_not.mp hfor)
      rw [hcore] at admitted
      refine ld_st_trap d fun want _ => ?_
    · exact (admitted want).1 ha
    · exact ((admitted want).2 ha hn).1 hu
    · exact ((admitted want).2 ha hn).2.1 hu hg
    · exact ((admitted want).2 ha hn).2.2 hu hg hb
  · exact ld_st_trap d fun want _ => check_noncanonical hc h
  · exact ld_traps ((check_held hc h hl).1 hr)
  · exact st_traps ((check_held hc h hl).1 hw)
  · refine ld_st_trap d fun want hwant => (check_held hc h hl).2 ?_ ha
    rcases hwant with rfl | rfl <;> assumption
  · rw [exec_ld]
    exact State.locate_walk (size := n) (align := n) (want := .read) hi (by rw [hf]; exact check_walks hc h hl) hd rfl

end Sys2Proof.Machine
end

section
/-! O28: what HALLOC and HFREE make of a table of handles. -/
namespace Sys2Proof.Machine

/-! ### A filtered table -/

theorem Tab.get_filter {α : Type} (d : α) (p : Nat × α → Bool) {b : Nat} {t : Tab α} (r : Tab.rising b t = true) (k : Nat) :
    Tab.get d (t.filter p) k = Tab.get d t k ∨ (Tab.get d (t.filter p) k = d ∧ ∃ v, p (k, v) = false) := by
  induction t generalizing b with
  | nil => exact .inl rfl
  | cons e t ih =>
    obtain ⟨n, v⟩ := e
    simp only [Tab.rising, Bool.and_eq_true] at r
    have below (h : k ≤ n) : Tab.get d (t.filter p) k = d := by
      have ht := Tab.get_below d r.2 (Nat.lt_succ_of_le h)
      rcases ih r.2 with h | h
      · rw [h, ht]
      · exact h.1
    cases hp : p (n, v)
    · rw [List.filter_cons_of_neg (by simp [hp])]
      rcases Nat.lt_trichotomy k n with h | rfl | h
      · left
        rw [below (Nat.le_of_lt h), Tab.get, if_neg (by omega), if_pos h]
      · exact .inr ⟨below (Nat.le_refl k), v, hp⟩
      · rw [Tab.get, if_neg (by omega), if_neg (by omega)]
        exact ih r.2
    · rw [List.filter_cons_of_pos hp, Tab.get, Tab.get]
      split
      · exact .inl rfl
      · split
        · exact .inl rfl
        · exact ih r.2

/-! ### One store -/

theorem State.storeAt_setStore_level (s : State) (level c : Nat) (m : Store) :
    (s.setStore (levelHome level c) m).storeAt (levelHome level c) = m := by
  unfold levelHome
  split
  · exact congrArg Core.store (State.core_modCore_self s c _)
  · exact congrArg Cluster.store (State.cluster_modCluster_self s (clusterOf c) _)

theorem State.StoreOnly.refl (s : State) (h : Home) : s.StoreOnly s h := ⟨rfl, fun _ => rfl, fun _ => rfl, fun _ _ => rfl⟩

theorem State.StoreOnly.trans {s u v : State} {h : Home} (a : s.StoreOnly u h) (b : u.StoreOnly v h) : s.StoreOnly v h where
  outside := by
    have hv := b.outside
    rw [a.outside] at hv
    exact hv
  cores c := by
    have hv := b.cores c
    rw [a.cores c] at hv
    exact hv
  clusters n := by
    have hv := b.clusters n
    rw [a.clusters n] at hv
    exact hv
  others h' hh := (b.others h' hh).trans (a.others h' hh)

theorem State.StoreOnly.setStore (s : State) (h : Home) (m : Store) : s.StoreOnly (s.setStore h m) h := by
  cases h with
  | localMem c =>
    have core (d : Nat) : (s.setStore (.localMem c) m).core d = if d = c then { s.core c with store := m } else s.core d :=
      State.core_modCore s c d _
    refine ⟨rfl, fun d => ?_, fun _ => rfl, fun h' hh => ?_⟩
    · rw [core]
      split
      · next h => rw [h]
      · rfl
    · cases h' with
      | localMem d => exact congrArg Core.store ((core d).trans (if_neg fun e => hh (congrArg _ e)))
      | _ => rfl
  | scratch n =>
    have cluster (d : Nat) : (s.setStore (.scratch n) m).cluster d =
        if d = n then { s.cluster n with store := m } else s.cluster d := Tab.get_put ({} : Cluster) s.clusters n d _
    refine ⟨rfl, fun _ => rfl, fun d => ?_, fun h' hh => ?_⟩
    · rw [cluster]
      split
      · next h => rw [h]
      · rfl
    · cases h' with
      | scratch d => exact congrArg Cluster.store ((cluster d).trans (if_neg fun e => hh (congrArg _ e)))
      | _ => rfl
  | channel _ => exact State.StoreOnly.refl s _
  | peer _ => exact State.StoreOnly.refl s _

theorem State.StoreOnly.cur {s u : State} {h : Home} (a : s.StoreOnly u h) : u.cur = s.cur := by rw [a.outside]
theorem State.StoreOnly.ctx {s u : State} {h : Home} (a : s.StoreOnly u h) (c x : Nat) : u.ctx c x = s.ctx c x := by
  unfold State.ctx
  rw [a.cores c]
  rfl
theorem State.StoreOnly.me {s u : State} {h : Home} (a : s.StoreOnly u h) : u.me = s.me := by
  unfold State.me
  rw [a.cur]
  exact a.ctx _ _
theorem State.StoreOnly.pairing {s u : State} {h : Home} (a : s.StoreOnly u h) (c : Nat) :
    (u.core c).pairing = (s.core c).pairing := by rw [a.cores c]

/-- A core that is replaced by itself. -/
theorem State.core_modCore_id {s : State} {c : Nat} {f : Core → Core} (hf : f (s.core c) = s.core c) (d : Nat) :
    (s.modCore c f).core d = s.core d := by
  rw [State.core_modCore]
  split
  · next h => rw [hf, h]
  · rfl
theorem State.storeAt_modCore_id {s : State} {c : Nat} {f : Core → Core} (hf : f (s.core c) = s.core c) (h : Home) :
    (s.modCore c f).storeAt h = s.storeAt h := by
  cases h with
  | localMem d => exact congrArg Core.store (State.core_modCore_id hf d)
  | _ => rfl
theorem State.StoreOnly.modCore_id {s : State} {c : Nat} {f : Core → Core} (hf : f (s.core c) = s.core c) (h : Home) :
    s.StoreOnly (s.modCore c f) h :=
  ⟨rfl, fun d => by rw [State.core_modCore_id hf d], fun _ => rfl, fun h' _ => State.storeAt_modCore_id hf h'⟩

/-! ### Unpaired cores pass nothing on (R220) -/

theorem State.isOdd_unpaired {s : State} (hp : s.here.pairing = none) : s.isOdd = false := by
  unfold State.isOdd
  rw [hp]
  rfl
theorem State.holdsBack_unpaired {s : State} (hp : s.here.pairing = none) : s.holdsBack = false := by
  unfold State.holdsBack
  rw [hp]
  rfl
theorem State.passOn_unpaired {s : State} {c : Nat} (hp : (s.core c).pairing = none) (x : Nat) (bytes : List Byte)
    (poison : Bool) : s.passOn c x bytes poison = s := by
  unfold State.passOn
  rw [hp]

theorem issue_congr {i : Instr} {s : State} {f g : Bool → State → Res}
    (h : f (poisonedSource i s) s = g (poisonedSource i s) s) : issue i s f = issue i s g := by
  unfold issue
  dsimp only
  rw [h]

/-! ### The lowest free handle (R56) -/

section
variable {m : Store} {level rows rowBytes : Nat}

theorem Store.alloc_none (rot : Nat) (h : (∀ k, 1 ≤ k → k ≤ 4095 → (m.tile k).used = true) ∨
    (m.freeGranules level).length < (rows * rowBytes + granule level - 1) / granule level) :
    m.alloc level rows rowBytes rot = none := by
  unfold Store.alloc
  dsimp only
  rcases h with h | h
  · rw [List.find?_eq_none.mpr fun k hk => by
      obtain ⟨h1, h2⟩ := (mem_span 1 4095 k).mp hk
      rw [h k h1 (by omega)]
      decide]
  · split
    · rfl
    · exact if_pos h

/-- The entry that HALLOC records under a number. -/
def Store.newTile (m : Store) (level rows rowBytes rot k : Nat) : TileEntry :=
  { used := true, gen := (m.tile k).gen, rows := rows, rowBytes := rowBytes, rot := rot,
    granules := (m.freeGranules level).take ((rows * rowBytes + granule level - 1) / granule level) }

theorem Store.alloc_some {k : Nat} (rot : Nat) (h1 : 1 ≤ k) (h2 : k ≤ 4095) (free : (m.tile k).used = false)
    (lowest : ∀ j, 1 ≤ j → j < k → (m.tile j).used = true)
    (room : (rows * rowBytes + granule level - 1) / granule level ≤ (m.freeGranules level).length) :
    m.alloc level rows rowBytes rot =
      some (k, { m with tiles := Tab.put m.tiles k (m.newTile level rows rowBytes rot k) }) := by
  unfold Store.alloc
  dsimp only
  rw [find?_span_first (p := fun h => !(m.tile h).used) h1 (by omega) (by simp [free])
    fun j hj hk => by simp [lowest j hj hk]]
  exact if_neg (Nat.not_lt.mpr room)

theorem Store.freeGranules_nodup (m : Store) (level : Nat) : (m.freeGranules level).Nodup := by
  unfold Store.freeGranules
  rw [span_zero]
  exact List.Nodup.filter _ List.nodup_range

/-- A free granule is one of the level's, and no handle holds it. -/
theorem Store.freeGranules_free {g : Nat} (h : g ∈ m.freeGranules level) :
    g < granuleCount level ∧ ∀ j, g ∉ (m.tile j).granules := by
  unfold Store.freeGranules at h
  obtain ⟨hg, hn⟩ := List.mem_filter.mp h
  rw [mem_span] at hg
  refine ⟨by omega, fun j => ?_⟩
  have unheld : (m.tiles.all fun e => !e.2.granules.contains g) = true := by
    simpa [List.all_eq_true] using hn
  have h := Tab.all_get (p := fun t : TileEntry => !t.granules.contains g) {} j unheld rfl
  intro held
  rw [Store.tile] at held
  rw [List.contains_iff_mem.mpr held] at h
  cases h

end

/-! ### The contents of a new handle (R56) -/

theorem State.StoreOnly.blur (s : State) (h : Home) (level : Nat) (gs : List Nat) : s.StoreOnly (s.blur h level gs) h :=
  (State.StoreOnly.setStore s h _).trans ⟨rfl, fun _ => rfl, fun _ => rfl, fun h' _ => by cases h' <;> rfl⟩

theorem State.storeAt_blur (s : State) (level c : Nat) (gs : List Nat) :
    ((s.blur (levelHome level c) level gs).storeAt (levelHome level c)).tiles = (s.storeAt (levelHome level c)).tiles ∧
      ((s.storeAt (levelHome level c)).bytes.wf = true → ∀ x,
        ((s.blur (levelHome level c) level gs).storeAt (levelHome level c)).bytes.byte x =
            (s.storeAt (levelHome level c)).bytes.byte x ∨
          (x / granule level ∈ gs ∧
            ((s.blur (levelHome level c) level gs).storeAt (levelHome level c)).bytes.byte x = 0)) := by
  generalize hm : s.storeAt (levelHome level c) = m
  have stored : (s.blur (levelHome level c) level gs).storeAt (levelHome level c) =
      { m with bytes := m.bytes.filter fun b => !gs.contains (b.1 / granule level) || Config.freeBool (s.freeCtr + b.1) } := by
    rw [← hm]
    have h := State.storeAt_setStore_level s level c { s.storeAt (levelHome level c) with
      bytes := (s.storeAt (levelHome level c)).bytes.filter fun b =>
        !gs.contains (b.1 / granule level) || Config.freeBool (s.freeCtr + b.1) }
    refine Eq.trans ?_ h
    unfold State.blur
    cases levelHome level c <;> rfl
  rw [stored]
  refine ⟨rfl, fun hwf x => ?_⟩
  simp only [Memory.wf, Bool.and_eq_true] at hwf
  refine (Tab.get_filter 0 _ hwf.1 x).imp id fun ⟨hz, v, hv⟩ => ⟨?_, hz⟩
  rw [Bool.or_eq_false_iff, Bool.not_eq_false', List.contains_iff_mem] at hv
  exact hv.1

/-! ### HALLOC -/

/-- The shape that HALLOC is given is invalid (R295). -/
def State.shapeInvalid (s : State) (a : BitVec 6) (n : BitVec 4) : Prop :=
  let e := s.me.readE n.toNat
  (s.g a.toNat).toNat = 0 ∨ bitsN e 10 0 = 0 ∨ 1024 < bitsN e 10 0 ∨ 1 < bitsN e 17 16 ∨ 5 < bitsN e 23 20 ∨
    (bitsN e 17 16 = 0 ∧ bitsN e 23 20 ≠ 0) ∨ e &&& 0xF307FF ≠ e

/-- The scratchpad's table serves a request of the issuing core (R56). -/
def State.tableServed (s : State) (level : Nat) : State :=
  if level = 1 then s.arriveAt (levelHome level s.cur.1) (messageRank s.cur.1) else s

theorem State.tableServed_eq (s : State) (level : Nat) : s.tableServed level = { s with ports := (s.tableServed level).ports } := by
  unfold State.tableServed
  split <;> rfl
theorem State.StoreOnly.tableServed (s : State) (level : Nat) (h : Home) : s.StoreOnly (s.tableServed level) h := by
  rw [s.tableServed_eq level]
  exact ⟨rfl, fun _ => rfl, fun _ => rfl, fun h' _ => by cases h' <;> rfl⟩
theorem State.storeAt_tableServed (s : State) (level : Nat) (h : Home) : (s.tableServed level).storeAt h = s.storeAt h := by
  rw [s.tableServed_eq level]
  cases h <;> rfl

/-- The state with the new handle's entry, its granules' contents unspecified. -/
def State.allocated (s : State) (level n : Nat) (m : Store) : State :=
  ((s.tableServed level).setStore (levelHome level s.cur.1) m).blur (levelHome level s.cur.1) level (m.tile n).granules

theorem State.StoreOnly.allocated (s : State) (level n : Nat) (m : Store) :
    s.StoreOnly (s.allocated level n m) (levelHome level s.cur.1) :=
  ((State.StoreOnly.tableServed s level _).trans (State.StoreOnly.setStore _ _ m)).trans (State.StoreOnly.blur _ _ _ _)

/-- The location word of a new handle. -/
def handleWord (level core n : Nat) (gen : BitVec 4) : Word :=
  BitVec.ofNat 64 (2 ^ 63 + level * 2 ^ 61 + core * 2 ^ 48 + n * 2 ^ 36 + gen.toNat * 2 ^ 32)

theorem exec_halloc (d a : BitVec 6) (n : BitVec 4) (s : State) : exec (.halloc d a n) s = execHalloc d a n s := rfl
theorem exec_hfree (a : BitVec 6) (s : State) : exec (.hfree a) s = execHfree a s := rfl

/-- HALLOC of an unpaired core. -/
theorem exec_halloc_unpaired {s : State} (d a : BitVec 6) (n : BitVec 4) (hp : s.here.pairing = none) :
    exec (.halloc d a n) s = issue (.halloc d a n) s fun p _ =>
      let e := s.me.readE n.toNat
      let level := bitsN e 17 16
      if (s.g a.toNat).toNat = 0 || bitsN e 10 0 = 0 || bitsN e 10 0 > 1024 || level > 1 || bitsN e 23 20 > 5 ||
          (level = 0 && bitsN e 23 20 ≠ 0) || e &&& 0xF307FF ≠ e then .trap 0x09 5 e
      else if level = 1 && !s.portOpen (levelHome level s.cur.1) (messageRank s.cur.1) then .stall s
      else match (s.storeAt (levelHome level s.cur.1)).alloc level (s.g a.toNat).toNat (64 * bitsN e 10 0) (bitsN e 23 20) with
        | none => .done ((s.tableServed level).writeG d.toNat 0 p)
        | some (k, m) => .done ((s.allocated level k m).writeG d.toNat (handleWord level s.cur.1 k (m.tile k).gen) p) := by
  rw [exec_halloc, execHalloc]
  refine issue_congr ?_
  dsimp only
  generalize bitsN (s.me.readE n.toNat) 17 16 = level
  refine if_congr Iff.rfl rfl ?_
  rw [State.isOdd_unpaired hp, Bool.and_false, if_neg Bool.false_ne_true]
  refine if_congr Iff.rfl rfl ?_
  have hs : (if level = 1 then s.arriveAt (levelHome level s.cur.1) (messageRank s.cur.1) else s) = s.tableServed level := rfl
  have hcur : (s.tableServed level).cur = s.cur := by rw [s.tableServed_eq level]
  have hid : (s.tableServed level).here.idOf s.cur.1 = s.cur.1 := by
    have : (s.tableServed level).here = s.here := by rw [s.tableServed_eq level]; rfl
    rw [this, Core.idOf, hp]
    rfl
  rw [hs, s.storeAt_tableServed]
  generalize (s.storeAt (levelHome level s.cur.1)).alloc level _ _ _ = got
  cases got with
  | none =>
    dsimp only
    rw [State.passOn_unpaired (((State.StoreOnly.tableServed s level (levelHome level s.cur.1)).pairing s.cur.1).trans hp),
      ite_self]
  | some r =>
    obtain ⟨k, m⟩ := r
    dsimp only
    rw [hid]
    show Res.done (State.writeG (if level = 1 then (s.allocated level k m).passOn _ _ _ _ else s.allocated level k m) _ _ _) = _
    rw [State.passOn_unpaired (((State.StoreOnly.allocated s level k m).pairing s.cur.1).trans hp), ite_self]
    rfl

theorem shapeInvalid_iff (s : State) (a : BitVec 6) (n : BitVec 4) :
    s.shapeInvalid a n ↔ ((s.g a.toNat).toNat = 0 || bitsN (s.me.readE n.toNat) 10 0 = 0 ||
      bitsN (s.me.readE n.toNat) 10 0 > 1024 || bitsN (s.me.readE n.toNat) 17 16 > 1 ||
      bitsN (s.me.readE n.toNat) 23 20 > 5 || (bitsN (s.me.readE n.toNat) 17 16 = 0 && bitsN (s.me.readE n.toNat) 23 20 ≠ 0) ||
      s.me.readE n.toNat &&& 0xF307FF ≠ s.me.readE n.toNat) = true := by
  simp only [State.shapeInvalid, Bool.or_eq_true, decide_eq_true_eq, Bool.and_eq_true, or_assoc, gt_iff_lt]

/-- An instruction that changes storage alone and then writes one g register completes. -/
theorem State.Completes.of_writeG {s u : State} {i : Instr} (d : Nat) (w : Word) (hi : ∀ t : State, t.reads i = sources i)
    (hc : u.cur = s.cur) (hm : u.me = s.me) :
    let t := s.retires i (u.writeG d w (poisonedSource i s)) (s.after i)
    u.Completes t i [.g d] ∧ t.me.readG d = writtenG d w (poisonedSource i s) := by
  have hp : poisonedSource i u = poisonedSource i s := by
    unfold poisonedSource
    rw [hi, hi, hm]
  have hk : u.Keeps (u.writeG d w (poisonedSource i s)) [.g d] :=
    State.Keeps.modMe (Context.Keeps.writeG _ _ _ _ _ (by simp))
  have ha : s.after i = u.me.pc + BitVec.ofNat 64 (instrLen i) := by rw [hm]; rfl
  refine ⟨?_, ?_⟩
  · rw [ha]
    exact State.CompletesAt.of_retires _ hc hp hk (by simp) (by simp) (by simp)
  · rw [State.retires_readG _ (hk.cur.trans hc), State.me_writeG, Context.readG_writeG]
    simp [writtenG]

theorem State.Completes.of_stored {s u : State} {i : Instr} (hi : ∀ t : State, t.reads i = sources i)
    (hc : u.cur = s.cur) (hm : u.me = s.me) : u.Completes (s.retires i u (s.after i)) i [] := by
  have ha : s.after i = u.me.pc + BitVec.ofNat 64 (instrLen i) := by rw [hm]; rfl
  rw [ha]
  refine State.CompletesAt.of_effect _ hc ?_
  unfold poisonedSource
  rw [hi, hi, hm]

/-! ### HFREE -/

/-- A SPLIT record that stands in a freed handle of the local memory goes (R189). -/
def Core.forgets (k : Core) (level h : Nat) : Core :=
  { k with holding := if level = 0 && (k.holding.map (·.handle)) == some h then none else k.holding }
/-- The state with a handle freed. -/
def State.handleFreed (s : State) (level h : Nat) : State :=
  (s.freeHandle (levelHome level s.cur.1) h).modHere fun k => k.forgets level h

theorem Core.forgets_nothing {k : Core} {level h : Nat} (hh : level = 1 ∨ k.holding.map (·.handle) ≠ some h) :
    k.forgets level h = k := by
  unfold Core.forgets
  rw [if_neg]
  rcases hh with rfl | hh
  · simp
  · simp [hh]

/-- HFREE of an unpaired core. -/
theorem exec_hfree_unpaired {s : State} (a : BitVec 6) (hp : s.here.pairing = none) :
    exec (.hfree a) s = issue (.hfree a) s fun _ _ =>
      let w := s.g a.toNat
      let level := chipLevel w
      let core := namedCore s.cur.1 w
      let t := (s.storeAt (levelHome level s.cur.1)).tile (chipHandle w)
      if !isChip w || level > 1 || core > 4095 || chipHandle w = 0 then .trap 0x09 4 w
      else if (level = 0 && core ≠ s.cur.1) || (level = 1 && clusterOf core ≠ clusterOf s.cur.1) then .trap 0x09 6 w
      else if !t.used then .trap 0x09 1 w
      else if t.gen ≠ chipGen w then .trap 0x09 2 w
      else if level = 0 && s.here.holdsRecords (chipHandle w) then .trap 0x09 6 w
      else if s.here.queuesName level s.cur.1 (chipHandle w) then .stall s
      else .done (s.handleFreed level (chipHandle w)) := by
  rw [exec_hfree, execHfree]
  refine issue_congr ?_
  dsimp only
  rw [State.named_unpaired hp, State.isOdd_unpaired hp, State.holdsBack_unpaired hp]
  simp only [Bool.and_false, Bool.false_eq_true, if_false]
  rw [State.passOn_unpaired (s := s.freeHandle _ _) (((State.StoreOnly.setStore s _ _).pairing s.cur.1).trans hp), ite_self]
  rfl

/-- Freeing raises the generation and leaves the rest, unless a SPLIT record stands in the handle. -/
theorem State.handleFreed_spec {s : State} {level h : Nat}
    (hh : level = 1 ∨ s.here.holding.map (·.handle) ≠ some h) :
    let m := s.storeAt (levelHome level s.cur.1)
    s.StoreOnly (s.handleFreed level h) (levelHome level s.cur.1) ∧
      (s.handleFreed level h).storeAt (levelHome level s.cur.1) =
        { m with tiles := Tab.put m.tiles h { gen := (m.tile h).gen + 1 } } := by
  have only : s.StoreOnly (s.freeHandle (levelHome level s.cur.1) h) (levelHome level s.cur.1) :=
    State.StoreOnly.setStore s _ _
  have store := State.storeAt_setStore_level s level s.cur.1 { s.storeAt (levelHome level s.cur.1) with
    tiles := Tab.put (s.storeAt (levelHome level s.cur.1)).tiles h
      { gen := ((s.storeAt (levelHome level s.cur.1)).tile h).gen + 1 } }
  change (s.freeHandle (levelHome level s.cur.1) h).storeAt _ = _ at store
  unfold State.handleFreed
  generalize s.freeHandle (levelHome level s.cur.1) h = u at only store ⊢
  have same : (u.core u.cur.1).forgets level h = u.core u.cur.1 := by
    apply Core.forgets_nothing
    rw [only.cores, only.cur]
    exact hh
  exact ⟨only.trans (State.StoreOnly.modCore_id same _), (State.storeAt_modCore_id same _).trans store⟩

/-! ### The obligation -/

theorem State.storeAt_allocated (s : State) (level n : Nat) (m : Store) :
    ((s.allocated level n m).storeAt (levelHome level s.cur.1)).tiles = m.tiles ∧
      (m.bytes.wf = true → ∀ x, ((s.allocated level n m).storeAt (levelHome level s.cur.1)).bytes.byte x = m.bytes.byte x ∨
        (x / granule level ∈ (m.tile n).granules ∧
          ((s.allocated level n m).storeAt (levelHome level s.cur.1)).bytes.byte x = 0)) := by
  have h := State.storeAt_blur ((s.tableServed level).setStore (levelHome level s.cur.1) m) level s.cur.1 (m.tile n).granules
  rw [State.storeAt_setStore_level] at h
  exact h

/-- Settles O28: HALLOC and HFREE of an unpaired core, branch by branch. -/
theorem handles : Obligations.Handles := by
  unfold Obligations.Handles
  refine ⟨?_, ?_⟩
  · intro s d a n hp rows e rb level rot bad h m need i turn
    have hi (t : State) : t.reads i = sources i := List.append_nil _
    have shape : bad ↔ _ := shapeInvalid_iff s a n
    have waits : turn → ¬(level = 1 && !s.portOpen h (messageRank s.cur.1)) = true := by
      rintro (h0 | h1)
      · rw [h0]; simp
      · rw [h1]; simp
    refine ⟨fun hb hc hl => ?_, fun hb ht hc => ?_, fun hb ht hc full => ?_,
      fun hb ht hc hok k h1 h2 free lowest room => ?_⟩
    all_goals rw [exec_halloc_unpaired d a n hp]
    · exact issue_trap hc (if_pos (shape.mp hb)) hl
    · have low : ¬1 < level := fun h => hb (.inr (.inr (.inr (.inl h))))
      have one : level = 1 := by
        have : level ≠ 0 := fun h => ht (.inl h)
        omega
      have closed : s.portOpen h (messageRank s.cur.1) = false := Bool.eq_false_iff.mpr fun h => ht (.inr h)
      refine issue_stall hc ((if_neg (mt shape.mpr hb)).trans (if_pos ?_))
      show (decide (level = 1) && !s.portOpen h (messageRank s.cur.1)) = true
      rw [one, closed]
      rfl
    · have no : m.alloc level rows (64 * rb) rot = none := Store.alloc_none rot full
      obtain ⟨done, value⟩ := State.Completes.of_writeG (s := s) (u := s.tableServed level) d.toNat 0 hi
        (by rw [s.tableServed_eq level]) (State.StoreOnly.tableServed s level h).me
      refine ⟨s.tableServed level, _, issue_done hc ((if_neg (mt shape.mpr hb)).trans ((if_neg (waits ht)).trans ?_)),
        s.tableServed_eq level, done, value⟩
      show (match m.alloc level rows (64 * rb) rot with | none => _ | some (k, m) => _) = _
      rw [no]
    · have taken := Store.alloc_some (level := level) rot h1 h2 free lowest room
      generalize hT : m.newTile level rows (64 * rb) rot k = T at taken
      have hM : Store.tile { m with tiles := Tab.put m.tiles k T } k = T := Tab.get_put_self _ _ _ _
      have gen : T.gen = (m.tile k).gen := by rw [← hT]; rfl
      have only := State.StoreOnly.allocated s level k { m with tiles := Tab.put m.tiles k T }
      obtain ⟨tiles, bytes⟩ := State.storeAt_allocated s level k { m with tiles := Tab.put m.tiles k T }
      obtain ⟨done, value⟩ := State.Completes.of_writeG (s := s)
        (u := s.allocated level k { m with tiles := Tab.put m.tiles k T }) d.toNat
        (handleWord level s.cur.1 k (m.tile k).gen) hi only.cur only.me
      rw [hM] at bytes
      have tile (j : Nat) : ((s.allocated level k { m with tiles := Tab.put m.tiles k T }).storeAt h).tile j =
          if j = k then T else m.tile j := by
        rw [Store.tile, tiles]
        exact Tab.get_put _ _ _ _ _
      have granules : T.granules = (m.freeGranules level).take need := by rw [← hT]; rfl
      refine ⟨_, _, T.granules, issue_done hc ((if_neg (mt shape.mpr hb)).trans ((if_neg (waits ht)).trans ?_)),
        only, done, value, ?_, ?_, ?_, fun g hg => ?_, fun j hj => (tile j).trans (if_neg hj), bytes ?_⟩
      · show (match m.alloc level rows (64 * rb) rot with | none => _ | some (k, m) => _) = _
        rw [taken]
        dsimp only
        rw [hM, gen]
      · rw [tile, if_pos rfl, ← hT]
        rfl
      · rw [granules]
        exact List.Nodup.sublist (List.take_sublist _ _) (m.freeGranules_nodup level)
      · rw [granules, List.length_take]
        exact Nat.min_eq_left room
      · rw [granules] at hg
        exact Store.freeGranules_free (List.mem_of_mem_take hg)
      · simp only [Store.ok, Bool.and_eq_true] at hok
        exact hok.1.1
  · intro s a hp w level core bad foreign h t i held
    have hi (t : State) : t.reads i = sources i := List.append_nil _
    have words : bad ↔ (!isChip w || level > 1 || core > 4095 || chipHandle w = 0) = true := by
      simp only [bad, Bool.or_eq_true, Bool.not_eq_true', decide_eq_true_eq, or_assoc, gt_iff_lt]
    have abroad : foreign ↔ ((level = 0 && core ≠ s.cur.1) || (level = 1 && clusterOf core ≠ clusterOf s.cur.1)) = true := by
      simp only [foreign, Bool.or_eq_true, Bool.and_eq_true, decide_eq_true_eq]
    have records : held ↔ (level = 0 && s.here.holdsRecords (chipHandle w)) = true := by
      simp only [held, Bool.and_eq_true, decide_eq_true_eq]
    have unused : t.used = false → (!t.used) = true := fun h => by rw [h]; rfl
    have used : t.used = true → ¬(!t.used) = true := fun h => by rw [h]; decide
    simp only [State.Traps]
    rw [exec_hfree_unpaired a hp]
    refine ⟨fun hb hc hl => issue_trap hc (if_pos (words.mp hb)) hl,
      fun hb hf hc hl => issue_trap hc ((if_neg (mt words.mpr hb)).trans (if_pos (abroad.mp hf))) hl,
      fun hb hf hu hc hl => issue_trap hc ((if_neg (mt words.mpr hb)).trans ((if_neg (mt abroad.mpr hf)).trans
        (if_pos (unused hu)))) hl,
      fun hb hf hu hg hc hl => issue_trap hc ((if_neg (mt words.mpr hb)).trans ((if_neg (mt abroad.mpr hf)).trans
        ((if_neg (used hu)).trans (if_pos hg)))) hl,
      fun hb hf hu hg hr hc hl => issue_trap hc ((if_neg (mt words.mpr hb)).trans ((if_neg (mt abroad.mpr hf)).trans
        ((if_neg (used hu)).trans ((if_neg (not_not_intro hg)).trans (if_pos (records.mp hr)))))) hl,
      fun hb hf hu hg hr hc => ⟨fun hq => issue_stall hc ?_, fun hq hh => ?_⟩⟩
    · exact (if_neg (mt words.mpr hb)).trans ((if_neg (mt abroad.mpr hf)).trans
        ((if_neg (used hu)).trans ((if_neg (not_not_intro hg)).trans ((if_neg (mt records.mpr hr)).trans (if_pos hq)))))
    · obtain ⟨only, store⟩ := State.handleFreed_spec (s := s) (level := level) (h := chipHandle w) hh
      refine ⟨_, _, issue_done hc ((if_neg (mt words.mpr hb)).trans ((if_neg (mt abroad.mpr hf)).trans
          ((if_neg (used hu)).trans ((if_neg (not_not_intro hg)).trans ((if_neg (mt records.mpr hr)).trans
          (if_neg (by rw [hq]; decide))))))), only, State.Completes.of_stored hi only.cur only.me, ?_, fun j hj => ?_, ?_, ?_⟩
      all_goals rw [store]
      · exact Tab.get_put_self _ _ _ _
      · exact Tab.get_put_ne _ _ _ _ _ hj

end Sys2Proof.Machine
end

section
/-! O25: accesses that leave the core. The request joins what is on its way, and the reply's destination is awaited. -/
namespace Sys2Proof.Machine

/-! ### What sending may change -/

theorem State.Sends.cur {s u : State} {ps : List Packet} (h : s.Sends u ps) : u.cur = s.cur := by rw [h.outside]

theorem State.Sends.trans {s u v : State} {ps qs : List Packet} (a : s.Sends u ps) (b : u.Sends v qs) :
    s.Sends v (ps ++ qs) where
  outside := by
    have hv := b.outside
    rw [a.outside] at hv
    rw [← List.append_assoc]
    exact hv
  cores c hc := (b.cores c (by rw [a.cur]; exact hc)).trans (a.cores c hc)
  here := by
    have hv := b.here
    rw [a.here] at hv
    exact hv
  siblings x hx := (b.siblings x (by rw [a.cur]; exact hx)).trans (a.siblings x hx)
  own := by
    have hv := b.own
    rw [a.own] at hv
    exact hv

/-- Packets join what is on its way, and no core changes. -/
theorem State.Sends.joined (s : State) (ps : List Packet) (n : Nat) (replay : List ReplaySlot) (budgets : List BudgetRow)
    (ops : Tab (Option Op)) :
    s.Sends { s with net := s.net ++ ps, nextNum := n, replay := replay, budgets := budgets, ops := ops } ps :=
  ⟨rfl, fun _ _ => rfl, rfl, fun _ _ => rfl, rfl⟩
/-- Nothing is sent, and only tables outside the cores change. -/
theorem State.Sends.of_tables (s : State) (n : Nat) (budgets : List BudgetRow) (ops : Tab (Option Op)) :
    s.Sends { s with nextNum := n, budgets := budgets, ops := ops } [] :=
  ⟨by rw [List.append_nil], fun _ _ => rfl, rfl, fun _ _ => rfl, rfl⟩

theorem State.Sends.modMe {s : State} {f : Context → Context}
    (hf : f s.me = { s.me with relMark := (f s.me).relMark, loads := (f s.me).loads, wait := (f s.me).wait }) :
    s.Sends (s.modMe f) [] where
  outside := by rw [List.append_nil]; rfl
  cores c hc := State.core_modCtx_ne s _ _ c f hc
  here := by rw [State.here_modMe]; rfl
  siblings x hx := by rw [State.here_modMe]; exact Core.ctx_modCtx_ne _ _ _ _ hx
  own := by rw [State.me_modMe]; exact hf

/-- A change of the issuing context after sending. -/
theorem State.Sends.thenMe {s u : State} {ps : List Packet} {f : Context → Context} (h : s.Sends u ps)
    (hf : f u.me = { u.me with relMark := (f u.me).relMark, loads := (f u.me).loads, wait := (f u.me).wait }) :
    s.Sends (u.modMe f) ps := by
  have := h.trans (State.Sends.modMe hf)
  rwa [List.append_nil] at this

theorem State.modMe_modMe (s : State) (f g : Context → Context) : (s.modMe f).modMe g = s.modMe fun x => g (f x) :=
  State.modCtx_modCtx s _ _ f g

theorem State.me_modCore_id {s : State} {f : Core → Core} (hf : f s.here = s.here) : (s.modCore s.cur.1 f).me = s.me :=
  congrArg (Core.ctx · s.cur.2) (State.core_modCore_id hf s.cur.1)

theorem State.Sends.modCore_id {s : State} {f : Core → Core} (hf : f s.here = s.here) :
    s.Sends (s.modCore s.cur.1 f) [] where
  outside := by rw [List.append_nil]; rfl
  cores c _ := State.core_modCore_id hf c
  here := by
    rw [show (s.modCore s.cur.1 f).here = s.here from State.core_modCore_id hf s.cur.1]
  siblings x _ := congrArg (Core.ctx · x) (State.core_modCore_id hf s.cur.1)
  own := by rw [State.me_modCore_id hf]

theorem State.Sends.odiOf {s u : State} {ps : List Packet} (h : s.Sends u ps) : u.odiOf s.cur.1 = s.odiOf s.cur.1 := by
  have part : (u.core s.cur.1).part = (s.core s.cur.1).part := by
    have := congrArg Core.part h.here
    rw [State.here, h.cur] at this
    exact this
  unfold State.odiOf State.partOf State.inColumn State.part
  rw [part, h.outside]

theorem State.Sends.poisonedSource {s u : State} {ps : List Packet} {i : Instr} (h : s.Sends u ps)
    (hi : ∀ t : State, t.reads i = sources i) : poisonedSource i u = poisonedSource i s := by
  unfold Sys2Proof.Machine.poisonedSource
  rw [hi, hi, h.own]
  rfl

/-- The instruction completes once its requests are on their way. -/
theorem State.Completes.of_sent {s u : State} {ps : List Packet} {i : Instr} (h : s.Sends u ps)
    (hi : ∀ t : State, t.reads i = sources i) : u.Completes (s.retires i u (s.after i)) i [] := by
  have ha : s.after i = u.me.pc + BitVec.ofNat 64 (instrLen i) := by rw [h.own]; rfl
  rw [ha]
  exact State.CompletesAt.of_effect _ h.cur (h.poisonedSource hi)

/-! ### Putting a request on its way -/

/-- The packet joins what is on its way, with its place in the windows of its links (R172). -/
def State.joinedBy (s : State) (q : Packet) : State :=
  ({ s with net := s.net ++ [q], nextNum := s.nextNum + 1 }).takeSlots .request q.id (linksOf q)
/-- The packet as it leaves. -/
def State.leaving (s : State) (p : Packet) : Packet := { p with router := p.core, since := s.cycle }

/-- A request to a home of this device: what it takes of links, pending-byte counts and budgets. -/
theorem State.launchPacket_device {s : State} {p : Packet} (hh : ∀ id, p.home ≠ .peer id) (hg : p.group = none) :
    s.launchPacket p =
      ((s.joinedBy (s.leaving p)).addPending p.core p.counted p.bytes).spendPacket p.core p.home (p.isLocal || p.engine)
        (p.op.isSome && p.act.readsOnly) p.bytes := by
  unfold State.launchPacket State.cutIsolated State.leaving
  rw [hg]
  cases e : p.home with
  | peer id => exact absurd e (hh id)
  | _ => rfl

/-- Pending-byte counts of the own core. -/
theorem State.Sends.of_barriers (s : State) (f : Core → Tab Barrier) :
    s.Sends (s.modCore s.cur.1 fun k => { k with barriers := f k }) [] ∧
      (s.modCore s.cur.1 fun k => { k with barriers := f k }).me = s.me := by
  have here : (s.modCore s.cur.1 fun k => { k with barriers := f k }).here = { s.here with barriers := f s.here } :=
    State.core_modCore_self s _ _
  have me : (s.modCore s.cur.1 fun k => { k with barriers := f k }).me = s.me := by
    have := congrArg (Core.ctx · s.cur.2) here
    exact this
  refine ⟨⟨by rw [List.append_nil]; rfl, fun c hc => State.core_modCore_ne s _ c _ hc, ?_, fun x _ => ?_, ?_⟩, me⟩
  · rw [here]
  · rw [here]
    rfl
  · rw [me]

theorem State.Sends.addPending (s : State) (bs : List Nat) (n : Nat) :
    s.Sends (s.addPending s.cur.1 bs n) [] ∧ (s.addPending s.cur.1 bs n).me = s.me ∧
      (s.addPending s.cur.1 bs n).ops = s.ops := by
  unfold State.addPending
  split
  · exact ⟨State.Sends.of_tables s _ _ _, rfl, rfl⟩
  · obtain ⟨sends, me⟩ := State.Sends.of_barriers s _
    exact ⟨sends, me, rfl⟩

theorem State.Sends.launchPacket {s : State} {p : Packet} (hh : ∀ id, p.home ≠ .peer id) (hg : p.group = none)
    (hc : p.core = s.cur.1) :
    s.Sends (s.launchPacket p) [s.leaving p] ∧ (s.launchPacket p).me = s.me ∧ (s.launchPacket p).ops = s.ops := by
  rw [State.launchPacket_device hh hg, hc]
  have joins : s.Sends (s.joinedBy (s.leaving p)) [s.leaving p] := State.Sends.joined s _ _ _ _ _
  have me : (s.joinedBy (s.leaving p)).me = s.me := rfl
  have ops : (s.joinedBy (s.leaving p)).ops = s.ops := rfl
  generalize s.joinedBy (s.leaving p) = t at joins me ops ⊢
  obtain ⟨counts, me', ops'⟩ := State.Sends.addPending t p.counted p.bytes
  rw [joins.cur] at counts me' ops'
  obtain ⟨b, hb⟩ := State.spendPacket_frame (t.addPending s.cur.1 p.counted p.bytes) s.cur.1 p.home
    (p.isLocal || p.engine) (p.op.isSome && p.act.readsOnly) p.bytes
  rw [hb]
  exact ⟨(joins.trans counts).trans (State.Sends.of_tables _ _ b _), me'.trans me, ops'.trans ops⟩

/-- A request to the issuer's own storage takes nothing of counts or budgets. -/
theorem State.launchPacket_local {s : State} {p : Packet} (hh : ∀ id, p.home ≠ .peer id) (hg : p.group = none)
    (hl : p.isLocal = true) (hn : p.counted = []) : s.launchPacket p = s.joinedBy (s.leaving p) := by
  rw [State.launchPacket_device hh hg, hl, hn]
  unfold State.spendPacket
  cases e : p.home with
  | peer id => exact absurd e (hh id)
  | _ => rfl

/-! ### The request of an access -/

theorem State.Asks.of_sends {s u : State} {p : Packet} {w : Word} {pl : Place} {a : Act} {poison : Bool}
    {order : BitVec 2} {scope : BitVec 4} {ps : List Packet} (h : s.Sends u ps) (k : u.Asks p w pl a poison order scope) :
    s.Asks p w pl a poison order scope := by
  obtain ⟨⟨core, ctx, odi⟩, place, does, order⟩ := k
  rw [h.cur] at core ctx odi
  exact ⟨⟨core, ctx, odi.trans h.odiOf⟩, place, does, order⟩

theorem State.Asks.packet (s : State) (w : Word) (pl : Place) (a : Act) (bad : Bool) (op : Option Nat) (part id : Nat)
    (order : BitVec 2) (scope : BitVec 4) (whole : Option (Word × Nat)) :
    s.Asks (s.leaving { s.packet w pl a bad op part order scope none with id := id, whole := whole })
      w pl a bad order scope :=
  ⟨⟨rfl, rfl, rfl⟩, ⟨rfl, rfl, rfl, fun _ h => by rw [h]; rfl⟩, ⟨rfl, rfl⟩, rfl, rfl⟩

/-- An unpaired core records nothing of its stores. -/
theorem Core.map_unpaired {k : Core} (hp : k.pairing = none) (f : Pairing → Pairing) :
    ({ k with pairing := k.pairing.map f } : Core) = k := by
  rw [hp]
  show ({ k with pairing := none } : Core) = k
  rw [← hp]

/-- A posted write or atomic to a place outside the own local memory. -/
theorem post_far {s : State} {w : Word} {pl : Place} {a : Act} {bad : Bool} {order : BitVec 2} {scope : BitVec 4}
    (hp : s.here.pairing = none) (hn : pl.atIssue = false) (hh : ∀ id, pl.home ≠ .peer id) :
    ∃ u p, s.post w pl a bad order scope none = some u ∧ s.Sends u [p] ∧ u.me = s.me ∧ p.op = none ∧
      s.Asks p w pl a bad order scope := by
  have sent (v : State) (hv : s.Sends v []) (hm : v.me = s.me) (hvp : v.here.pairing = none) :
      ∃ u p, v.sendPosted { v.packet w pl a bad none 0 order scope none with whole := none } = some u ∧
        s.Sends u [p] ∧ u.me = s.me ∧ p.op = none ∧ s.Asks p w pl a bad order scope := by
    obtain ⟨sends, me, -⟩ := State.Sends.launchPacket (s := v)
      (p := { v.packet w pl a bad none 0 order scope none with whole := none }) hh rfl rfl
    refine ⟨_, _, ?_, hv.trans sends, me.trans hm, rfl,
      State.Asks.of_sends hv (State.Asks.packet v w pl a bad none 0 _ order scope none)⟩
    unfold State.sendPosted
    rw [hvp]
  have recorded (data : List Byte) : s.Sends (s.recordStore w data) [] ∧ (s.recordStore w data).here.pairing = none := by
    have same := Core.map_unpaired hp fun q => { q with stores := q.stores ++ [(w, data.length, data)] }
    refine ⟨State.Sends.modCore_id (f := fun k => { k with pairing := k.pairing.map fun q =>
      { q with stores := q.stores ++ [(w, data.length, data)] } }) same, ?_⟩
    rw [show (s.recordStore w data).here = s.here from State.core_modCore_id same s.cur.1]
    exact hp
  unfold State.post
  dsimp only
  rw [hn]
  cases a
  case read | watch => exact sent s (State.Sends.of_tables s _ _ _) rfl hp
  all_goals exact sent _ (recorded _).1 (recordStore_me s w _) (recorded _).2

/-- The access that the replies of a single request belong to. -/
def State.soleOp (s : State) (w : Word) (dest : Dest) (acq : Option (BitVec 4)) (hold taint : Bool) : Op :=
  { core := s.cur.1, ctx := s.cur.2, life := s.me.life, era := s.here.era, dest := dest, loc := w, holds := hold, left := 1,
    parts := [], acq := acq, nack := none, taint := taint }

/-- The request of a single part, and the table with the access it belongs to. -/
def State.soleRequest (s : State) (w : Word) (pl : Place) (a : Act) (order : BitVec 2) (scope : BitVec 4) (bad : Bool) :
    Packet :=
  { s.packet w pl a bad (some s.nextNum) 0 order scope none with whole := none, id := s.nextNum + 1 }
def State.tabled (s : State) (op : Op) : State :=
  { s with ops := Tab.put s.ops s.nextNum (some op), nextNum := s.nextNum + 1 }

theorem State.meetsHeld_unpaired {s : State} (hp : s.here.pairing = none) (reqs : List (Nat × Word × Place × Act)) :
    s.meetsHeld reqs = false := by
  unfold State.meetsHeld
  rw [hp]

/-- A non-posted access of one part outside the own local memory. -/
theorem ask_far {s : State} {w : Word} {pl : Place} {a : Act} {dest : Dest} {acq : Option (BitVec 4)}
    {order : BitVec 2} {scope : BitVec 4} {bad hold taint waita : Bool} (hp : s.here.pairing = none)
    (hn : pl.atIssue = false) (hd : ∀ d, dest ≠ .query d) :
    s.ask [(0, w, pl, a)] dest acq order scope bad hold taint waita =
      let u := (s.tabled (s.soleOp w dest acq hold taint)).launchPacket (s.soleRequest w pl a order scope bad)
      if hold then .wait (u.modMe fun t => { t with wait := if waita then .waita s.nextNum else .reply s.nextNum })
      else .done (u.modMe fun t => { t with loads := t.loads ++ dest.regs }) := by
  unfold State.ask
  rw [State.meetsHeld_unpaired hp]
  simp only [Bool.false_eq_true, if_false, List.filter_cons, List.filter_nil, hn, Bool.false_and, Bool.not_false,
    Bool.true_or, if_true, List.flatMap_nil, State.logUndo_unpaired hp]
  simp only [List.foldl_nil, hp, List.all_cons, hn, Bool.false_and, Bool.false_eq_true, if_false, reduceCtorEq]
  cases dest with
  | query d => exact absurd rfl (hd d)
  | _ => rfl

theorem State.asked_sends {s : State} {w : Word} {pl : Place} {a : Act} (op : Op) {order : BitVec 2} {scope : BitVec 4}
    {bad : Bool} (hh : ∀ id, pl.home ≠ .peer id) :
    ∃ p, s.Sends ((s.tabled op).launchPacket (s.soleRequest w pl a order scope bad)) [p] ∧
      ((s.tabled op).launchPacket (s.soleRequest w pl a order scope bad)).me = s.me ∧
      s.Asks p w pl a bad order scope ∧ p.op = some s.nextNum ∧
      Tab.get none ((s.tabled op).launchPacket (s.soleRequest w pl a order scope bad)).ops s.nextNum = some op := by
  obtain ⟨sends, me, ops⟩ := State.Sends.launchPacket (s := s.tabled op) (p := s.soleRequest w pl a order scope bad) hh rfl rfl
  refine ⟨_, (State.Sends.of_tables s _ _ _).trans sends, me, State.Asks.packet s w pl a bad _ 0 _ order scope none, rfl, ?_⟩
  rw [ops]
  exact Tab.get_put_self _ _ _ _

/-! ### Reaching the access -/

theorem locate_far {s : State} {w : Word} {size align : Nat} {want : Want} {pl : Place} (k : Place → Res)
    (h : s.farAt w size align want pl) : s.locate w size align want k = k pl := by
  obtain ⟨check, far, -, budget⟩ := h
  unfold State.locate
  rw [check]
  dsimp only
  rw [far, budget]
  rfl

/-- The state in which a store or atomic is issued: the release mark is consumed (R366). -/
def State.unmarked (s : State) : State := s.modMe fun x => { x with relMark := none }

theorem State.me_unmarked (s : State) : s.unmarked.me = { s.me with relMark := none } := State.me_modMe s _
theorem State.Sends.unmarked (s : State) : s.Sends s.unmarked [] := State.Sends.modMe rfl
theorem State.unmarked_unpaired {s : State} (hp : s.here.pairing = none) : s.unmarked.here.pairing = none := by
  rw [State.unmarked, State.here_modMe]
  exact hp

theorem ordered_mayStore {s : State} {order : BitVec 2} {scope : BitVec 4} (h : s.mayStore order scope = true)
    (k : State → BitVec 2 → BitVec 4 → Res) :
    s.ordered order scope k = k s.unmarked (s.orderOf order scope).1 (s.orderOf order scope).2 := by
  unfold State.ordered
  rw [if_neg]
  · rfl
  · intro hw
    simp only [Bool.and_eq_true, Bool.or_eq_true, decide_eq_true_eq] at hw
    obtain ⟨release, waits⟩ := hw
    rw [State.mayStore, waits] at h
    rcases release with e | e <;> rw [e] at h <;> cases h

/-! ### ST -/

theorem st_sends {s : State} {d b : BitVec 6} {c : BitVec 5} {o : BitVec 7} {pl : Place} (hp : s.here.pairing = none)
    (hc : s.clear (.st d b c o) = true) (hm : s.mayStore 0 0 = true)
    (hf : s.farAt (s.formatM b o (classSize c)) (classSize c) (classSize c) .write pl) :
    ∃ u t p, exec (.st d b c o) s = .next t ∧ s.Sends u [p] ∧ u.Completes t (.st d b c o) [] ∧ p.op = none ∧
      s.Asks p (s.formatM b o (classSize c)) pl (.write (bytesOf (classSize c) (s.g d.toNat)) [])
        (s.me.readG d.toNat).poison (s.orderOf 0 0).1 (s.orderOf 0 0).2 ∧
      u.me.relMark = none ∧ u.me.loads = s.me.loads := by
  have hi (t : State) : t.reads (.st d b c o) = sources (.st d b c o) := List.append_nil _
  have read : s.unmarked.me.readG d.toNat = s.me.readG d.toNat := by rw [State.me_unmarked]; rfl
  obtain ⟨u, p, post, sends, me, op, asks⟩ := post_far (s := s.unmarked) (w := s.formatM b o (classSize c)) (pl := pl)
    (a := .write (bytesOf (classSize c) (s.g d.toNat)) []) (bad := (s.me.readG d.toNat).poison)
    (order := (s.orderOf 0 0).1) (scope := (s.orderOf 0 0).2) (State.unmarked_unpaired hp) hf.2.1 hf.2.2.1
  have all := (State.Sends.unmarked s).trans sends
  refine ⟨u, _, p, (exec_st d b c o s).trans (issue_done hc ?_), all, State.Completes.of_sent all hi, op,
    asks.of_sends (State.Sends.unmarked s), ?_, ?_⟩
  · refine (locate_far _ hf).trans ((ordered_mayStore hm _).trans ?_)
    dsimp only
    rw [read]
    exact congrArg Res.ofPost post
  · rw [me, State.me_unmarked]
  · rw [me, State.me_unmarked]

/-! ### LD -/

theorem holds_brief {pl : Place} (h : pl.isLocal = true ∨ ∃ pa, pl = .mem pa) : holds pl none = false := by
  rcases h with h | ⟨pa, rfl⟩
  · cases pl with
    | mem => rfl
    | chip l c n g off near =>
      have : near = true := h
      rw [this]
      rfl
  · rfl
theorem holds_remote {pl : Place} (h : pl.isLocal = false) (hm : ∀ pa, pl ≠ .mem pa) : holds pl none = true := by
  cases pl with
  | mem pa => exact absurd rfl (hm pa)
  | chip l c n g off near =>
    have : near = false := h
    rw [this]
    rfl

theorem loadAt_eq (s : State) (w : Word) (pl : Place) (size : Nat) (dest : Dest) (taint : Bool) :
    s.loadAt w pl size dest taint = s.ask [(0, w, pl, .read size)] dest none 0 0 false (holds pl none) taint false := by
  cases pl <;> rfl

/-- An access that does not hold the context: its destination is awaited and the instruction completes. -/
theorem ask_far_brief {s v : State} {i : Instr} {w : Word} {pl : Place} {a : Act} {dest : Dest} {order : BitVec 2}
    {scope : BitVec 4} {bad taint : Bool} {body : Bool → State → Res} (hc : s.clear i = true)
    (hi : ∀ t : State, t.reads i = sources i) (hv : s.Sends v []) (hp : v.here.pairing = none)
    (hn : pl.atIssue = false) (hh : ∀ id, pl.home ≠ .peer id) (hd : ∀ d, dest ≠ .query d)
    (hb : body (poisonedSource i s) s = v.ask [(0, w, pl, a)] dest none order scope bad false taint false) :
    ∃ u t p k, issue i s body = .next t ∧ s.Sends u [p] ∧ u.Completes t i [] ∧ s.Asks p w pl a bad order scope ∧
      u.me.loads = v.me.loads ++ dest.regs ∧ u.me.relMark = v.me.relMark ∧ p.op = some k ∧
      (Tab.get none u.ops k).map (·.dest) = some dest := by
  rw [ask_far hp hn hd] at hb
  obtain ⟨p, sends, me, asks, op, table⟩ := State.asked_sends (s := v) (w := w) (pl := pl) (a := a)
    (v.soleOp w dest none false taint) (order := order) (scope := scope) (bad := bad) hh
  have all := (hv.trans sends).thenMe (f := fun t => { t with loads := t.loads ++ dest.regs }) rfl
  refine ⟨_, _, p, v.nextNum, issue_done hc hb, all, State.Completes.of_sent all hi, asks.of_sends hv, ?_, ?_, op, ?_⟩
  · rw [State.me_modMe, me]
  · rw [State.me_modMe, me]
  · exact congrArg (Option.map (·.dest)) table

/-- An access that holds the context until its reply: what is kept of the instruction set aside, nothing but the request
and the wait has changed. -/
theorem ask_far_held {s : State} {i : Instr} {w : Word} {pl : Place} {a : Act} {dest : Dest} {acq : Option (BitVec 4)}
    {order : BitVec 2} {scope : BitVec 4} {bad taint waita : Bool} {body : Bool → State → Res} (hc : s.clear i = true)
    (hp : s.here.pairing = none) (hn : pl.atIssue = false) (hh : ∀ id, pl.home ≠ .peer id) (hd : ∀ d, dest ≠ .query d)
    (hb : body (poisonedSource i s) s = s.ask [(0, w, pl, a)] dest acq order scope bad true taint waita) :
    ∃ t p k, issue i s body = .next t ∧
      s.Sends (t.modMe fun x =>
        { x with waitLen := s.me.waitLen, waitTaint := s.me.waitTaint, waitClasses := s.me.waitClasses }) [p] ∧
      s.Asks p w pl a bad order scope ∧ t.me.wait = (if waita then .waita k else .reply k) ∧ t.me.loads = s.me.loads ∧
      t.me.waitLen = instrLen i ∧ p.op = some k ∧ (Tab.get none t.ops k).map (·.dest) = some dest := by
  rw [ask_far hp hn hd] at hb
  obtain ⟨p, sends, me, asks, op, table⟩ := State.asked_sends (s := s) (w := w) (pl := pl) (a := a)
    (s.soleOp w dest acq true taint) (order := order) (scope := scope) (bad := bad) hh
  refine ⟨_, p, s.nextNum, issue_wait hc hb, ?_, asks, ?_, ?_, ?_, op, congrArg (Option.map (·.dest)) table⟩
  · rw [State.modMe_modMe, State.modMe_modMe]
    exact sends.thenMe (by rw [me])
  · rw [State.me_modMe, State.me_modMe]
  · rw [State.me_modMe, State.me_modMe, me]
  · rw [State.me_modMe]

theorem ld_far_body {s : State} {p : Bool} {d b : BitVec 6} {c : BitVec 5} {o : BitVec 7} {pl : Place}
    (hf : s.farAt (s.formatM b o (classSize c)) (classSize c) (classSize c) .read pl) :
    s.doLd p d b c o = s.ask [(0, s.formatM b o (classSize c), pl, .read (classSize c))] (.scalar d.toNat c.toNat) none 0 0
      false (holds pl none) p false :=
  (locate_far _ hf).trans (loadAt_eq s _ pl _ _ p)

theorem regs_scalar (d : BitVec 6) (cls : Nat) : (Dest.scalar d.toNat cls).regs = if d = 0 then [] else [.g d.toNat] := by
  have zero : d = 0 ↔ d.toNat = 0 := ⟨fun h => by rw [h]; rfl, fun h => BitVec.eq_of_toNat_eq h⟩
  exact if_congr zero.symm rfl rfl

/-! ### Atomics -/

theorem acquireOf_none {o : BitVec 2} (q : BitVec 4) (h : o.toNat % 2 = 0) : acquireOf o q = none := by
  have even : ∀ o : BitVec 2, o.toNat % 2 = 0 → ¬(o = 1 || o = 3) = true := by decide
  exact if_neg (even o h)

theorem State.g_unmarked (s : State) (n : Nat) : s.unmarked.me.readG n = s.me.readG n := by
  rw [State.me_unmarked]
  rfl

/-- An atomic other than AFADD, at a place outside the own local memory. -/
theorem doAtomic_far {s : State} {p : Bool} {op : Nat} {d a v : BitVec 6} {q : BitVec 4} {o : BitVec 2} {pl : Place}
    (hop : op ≠ 0x21) (hm : s.mayStore o q = true) (hf : s.farAt (s.g a.toNat) 8 8 .atomic pl) :
    s.doAtomic p op 8 d a v q o =
      let act := Act.atomic op 8 (s.g v.toNat) (s.g d.toNat)
      let ord := (s.orderOf o q).1
      let scope := (s.orderOf o q).2
      let bad := (s.me.readG v.toNat).poison
      if d = 0 then Res.ofPost (s.unmarked.post (s.g a.toNat) pl act bad ord scope none)
      else s.unmarked.ask [(0, s.g a.toNat, pl, act)] (.word d.toNat) (acquireOf o q) ord scope bad (holds pl (acquireOf o q))
        (p && decide (0x20 ≤ op)) false := by
  unfold State.doAtomic
  dsimp only
  rw [if_neg (by simp [hop]), locate_far _ hf, ordered_mayStore hm]
  unfold State.g
  rw [State.g_unmarked, State.g_unmarked]

/-- Posted without a destination; awaited in its register with one, when it does not acquire. -/
theorem atomic_sends {s : State} {i : Instr} {op : Nat} {d a v : BitVec 6} {q : BitVec 4} {o : BitVec 2} {pl : Place}
    (he : exec i s = issue i s fun t s => s.doAtomic t op 8 d a v q o) (hi : ∀ t : State, t.reads i = sources i)
    (hop : op ≠ 0x21) (hp : s.here.pairing = none) (hm : s.mayStore o q = true)
    (hf : s.farAt (s.g a.toNat) 8 8 .atomic pl) (hc : s.clear i = true) :
    (d = 0 → ∃ u t p, exec i s = .next t ∧ s.Sends u [p] ∧ u.Completes t i [] ∧ p.op = none ∧ u.me.relMark = none ∧
      s.Asks p (s.g a.toNat) pl (.atomic op 8 (s.g v.toNat) 0) (s.me.readG v.toNat).poison (s.orderOf o q).1
        (s.orderOf o q).2) ∧
    (d ≠ 0 → o.toNat % 2 = 0 → pl.isLocal = true ∨ (∃ pa, pl = .mem pa) → ∃ u t p k, exec i s = .next t ∧ s.Sends u [p] ∧
      u.Completes t i [] ∧ p.op = some k ∧ u.me.relMark = none ∧ u.me.loads = s.me.loads ++ [.g d.toNat] ∧
      s.Asks p (s.g a.toNat) pl (.atomic op 8 (s.g v.toNat) (s.g d.toNat)) (s.me.readG v.toNat).poison (s.orderOf o q).1
        (s.orderOf o q).2) := by
  have unmarked := State.Sends.unmarked s
  have unpaired := State.unmarked_unpaired hp
  obtain ⟨far, device⟩ : pl.atIssue = false ∧ ∀ id, pl.home ≠ .peer id := ⟨hf.2.1, hf.2.2.1⟩
  refine ⟨fun h0 => ?_, fun h0 ho hb => ?_⟩
  · subst h0
    obtain ⟨u, p, post, sends, me, op, asks⟩ := post_far (s := s.unmarked) (w := s.g a.toNat) (pl := pl)
      (a := .atomic op 8 (s.g v.toNat) 0) (bad := (s.me.readG v.toNat).poison) (order := (s.orderOf o q).1)
      (scope := (s.orderOf o q).2) unpaired far device
    refine ⟨u, _, p, he.trans (issue_done hc ((doAtomic_far hop hm hf).trans (congrArg Res.ofPost post))),
      unmarked.trans sends, State.Completes.of_sent (unmarked.trans sends) hi, op, ?_, asks.of_sends unmarked⟩
    rw [me, State.me_unmarked]
  · have body (p : Bool) := doAtomic_far (s := s) (p := p) (d := d) (v := v) hop hm hf
    dsimp only at body
    rw [acquireOf_none q ho] at body
    simp only [if_neg h0, holds_brief hb] at body
    obtain ⟨u, t, p, k, exec, sends, done, asks, loads, mark, op, -⟩ := ask_far_brief
      (body := fun t s => s.doAtomic t op 8 d a v q o) hc hi unmarked unpaired far device (fun _ => by simp) (body _)
    rw [State.me_unmarked] at loads mark
    refine ⟨u, t, p, k, he.trans exec, sends, done, op, mark, loads.trans ?_, asks⟩
    have pos : d.toNat ≠ 0 := fun h => h0 (BitVec.eq_of_toNat_eq h)
    exact congrArg _ (if_neg pos)

/-! ### WAITA (R93, R359) -/

theorem exec_waita (d a v : BitVec 6) (q : BitVec 4) (o : BitVec 2) (s : State) :
    exec (.waita d a v q o) s = execWaita d a v q o s := rfl

/-- A place of this device that passes the checks lies in no pod peer's page. -/
theorem State.farPage_device {s : State} {w : Word} {size align : Nat} {want : Want} {pl : Place}
    (h : s.check s.cur.1 s.me.walkErr w size align want = .ok pl) (hh : ∀ id, pl.home ≠ .peer id) :
    s.farPage w want = false := by
  unfold State.farPage
  cases hc : isChip w with
  | true =>
    have chip (pl' : Place) (h' : s.check s.cur.1 s.me.walkErr w 1 1 want = .ok pl') : pl'.offDevice = false := by
      by_cases hv : chipInvalid w (s.named s.cur.1 w)
      · rw [check_chip_invalid hc hv] at h'
        cases h'
      · rw [check_chip_valid hc hv] at h'
        repeat' split at h'
        all_goals cases h'
        all_goals rfl
    cases h' : s.check s.cur.1 s.me.walkErr w 1 1 want with
    | ok pl' => exact chip pl' h'
    | _ => rfl
  | false =>
    rw [check_virtual hc] at h ⊢
    cases ht : s.translate s.cur.1 s.me.walkErr w want with
    | ok p =>
      rw [ht] at h
      dsimp only at h ⊢
      rw [if_neg (by rw [Nat.mod_one]; simp)]
      split at h
      · cases h
      · cases h
        cases pl with
        | chip => rfl
        | mem pa =>
          show inPeer pa = false
          refine Bool.eq_false_iff.mpr fun hin => hh (peerOf pa) ?_
          exact if_pos hin
    | _ => rfl

theorem waita_far_body {s : State} {t : Bool} {d a v : BitVec 6} {q : BitVec 4} {o : BitVec 2} {pl : Place}
    (hf : s.farAt (s.g a.toNat) 8 8 .read pl) :
    (if s.farPage (s.g a.toNat) .read then Res.trap 0x06 0 (s.g a.toNat)
      else s.locate (s.g a.toNat) 8 8 .read fun pl =>
        s.ask [(0, s.g a.toNat, pl, .watch (s.g v.toNat) (s.me.readE 15).toNat)] (.word d.toNat) (acquireOf o q) 0 q false
          true t true) =
      s.ask [(0, s.g a.toNat, pl, .watch (s.g v.toNat) (s.me.readE 15).toNat)] (.word d.toNat) (acquireOf o q) 0 q false
        true t true := by
  rw [State.farPage_device hf.1 hf.2.2.1, if_neg Bool.false_ne_true, locate_far _ hf]

theorem leBytes_leNat (bs : List Byte) : leBytes bs.length (leNat bs) = bs := by
  induction bs with
  | nil => rfl
  | cons b bs ih =>
    have low : (b.toNat + 256 * leNat bs) % 256 = b.toNat := by
      have := b.isLt
      omega
    have high : (b.toNat + 256 * leNat bs) / 256 = leNat bs := by
      have := b.isLt
      omega
    simp only [leNat, List.length_cons, leBytes, low, high, ih, BitVec.ofNat_toNat, BitVec.setWidth_eq]

theorem leNat_lt (bs : List Byte) : leNat bs < 2 ^ (8 * bs.length) := by
  induction bs with
  | nil => decide
  | cons b bs ih =>
    have := b.isLt
    rw [leNat, List.length_cons, Nat.mul_succ, Nat.pow_add]
    omega

/-- The bytes of a word that was read from bytes. -/
theorem bytesOf_leBits {bs : List Byte} {n : Nat} (h : bs.length = n) : bytesOf n (leBits (8 * n) bs) = bs := by
  subst h
  rw [bytesOf, leBits, BitVec.toNat_ofNat, Nat.mod_eq_of_lt (leNat_lt bs), leBytes_leNat]

/-- Translation finds physical addresses. -/
theorem State.translate_mem {s : State} {c : Nat} {failed : Option (Nat × BitVec 8)} {w : Word} {want : Want} {p : Place}
    (h : s.translate c failed w want = .ok p) : ∃ pa, p = .mem pa := by
  unfold State.translate at h
  split at h
  · cases h
  · cases hl : s.lookup c (bitsN w 56 0) with
    | some t =>
      simp only [hl] at h
      split at h
      · cases h
        exact ⟨_, rfl⟩
      · cases h
    | none =>
      simp only [hl] at h
      repeat' split at h
      all_goals cases h

/-- A place of the own local memory that passed the checks, and what was found of its handle. -/
theorem check_near_word {s : State} {c : Nat} {failed : Option (Nat × BitVec 8)} {w : Word} {size align : Nat} {want : Want}
    {pl : Place} (h : s.check c failed w size align want = .ok pl) (hn : pl.atIssue = true) :
    chipLevel w = 0 ∧ s.named c w = c ∧ pl = .chip 0 c (chipHandle w) (chipGen w) (chipOff w) true ∧
      s.tileFor (.localMem c) w size = some ((s.core c).store.tile (chipHandle w)) := by
  have chip : isChip w = true := by
    by_contra hc
    rw [check_virtual (Bool.eq_false_iff.mpr hc)] at h
    split at h
    · next p hp =>
      obtain ⟨pa, rfl⟩ := State.translate_mem hp
      split at h <;> cases h
      cases hn
    · next hne => exact hne _ h
  have valid : ¬chipInvalid w (s.named c w) := fun hv => by
    rw [check_chip_invalid chip hv] at h
    cases h
  rw [check_chip_valid chip valid] at h
  have level (l : Bool) (hl : (Place.chip (chipLevel w) (s.named c w) (chipHandle w) (chipGen w) (chipOff w) l).atIssue = true) :
      chipLevel w = 0 ∧ l = true := by
    cases e : chipLevel w with
    | zero => rw [e] at hl; exact ⟨rfl, hl⟩
    | succ n => rw [e] at hl; cases hl
  generalize near : (if chipLevel w = 0 then s.named c w == c else clusterOf (s.named c w) == clusterOf c) = isNear at h
  split at h
  · cases h
  split at h
  · cases h
  split at h
  · cases h
    cases (level _ hn).2
  next hnear =>
  split at h
  · cases h
  next used =>
  split at h
  · cases h
  next gen =>
  split at h
  · cases h
  next bound =>
  cases h
  obtain ⟨zero, -⟩ := level _ hn
  have named : s.named c w = c := by
    have yes : isNear = true := by simpa using hnear
    rw [zero, yes] at near
    simpa using near
  have tile : s.chipTile w c = (s.core c).store.tile (chipHandle w) := by
    unfold State.chipTile
    rw [zero]
    rfl
  rw [named, tile] at used gen bound
  refine ⟨zero, named, by rw [zero, named], if_pos ?_⟩
  show (((s.core c).store.tile (chipHandle w)).used && ((s.core c).store.tile (chipHandle w)).gen == chipGen w &&
    decide (chipOff w + size ≤ ((s.core c).store.tile (chipHandle w)).rows * ((s.core c).store.tile (chipHandle w)).rowBytes)) =
      true
  rw [Bool.not_eq_true, Bool.not_eq_false'] at used
  rw [used, not_not.mp gen]
  simpa using Nat.not_lt.mp bound

/-- A WAITA of the own local memory is performed as soon as it is asked (R78, R93). -/
theorem ask_near_watch {s : State} {w : Word} {pl : Place} {a : Act} {dest : Dest} {acq : Option (BitVec 4)}
    {order : BitVec 2} {scope : BitVec 4} {bad taint : Bool} (hp : s.here.pairing = none) (hn : pl.atIssue = true)
    (hl : pl.isLocal = true) (hh : ∀ id, pl.home ≠ .peer id) (hd : ∀ d, dest ≠ .query d) :
    s.ask [(0, w, pl, a)] dest acq order scope bad true taint true =
      let v := s.tabled (s.soleOp w dest acq true taint)
      let q := v.leaving (s.soleRequest w pl a order scope bad)
      .wait (((v.joinedBy q).perform q).modMe fun t => { t with wait := .waita s.nextNum }) := by
  have joined (op : Op) : (s.tabled op).launchPacket (s.soleRequest w pl a order scope bad) =
      (s.tabled op).joinedBy ((s.tabled op).leaving (s.soleRequest w pl a order scope bad)) :=
    State.launchPacket_local hh rfl hl rfl
  have last (op : Op) (q : Packet) : ((s.tabled op).joinedBy q).net.getLast? = some q := List.getLast?_concat
  unfold State.ask
  rw [State.meetsHeld_unpaired hp]
  simp only [Bool.false_eq_true, if_false, List.filter_cons, List.filter_nil, Bool.not_true, Bool.and_false,
    Bool.or_true, if_true, List.flatMap_nil, State.logUndo_unpaired hp]
  simp only [List.foldl_nil, hp, List.all_cons, List.all_nil, hn, Bool.and_self, if_true, reduceCtorEq, if_false]
  have step : (match ((s.tabled (s.soleOp w dest acq true taint)).launchPacket (s.soleRequest w pl a order scope bad)).net.getLast? with
      | some p => ((s.tabled (s.soleOp w dest acq true taint)).launchPacket (s.soleRequest w pl a order scope bad)).perform p
      | none => (s.tabled (s.soleOp w dest acq true taint)).launchPacket (s.soleRequest w pl a order scope bad)) =
      ((s.tabled (s.soleOp w dest acq true taint)).joinedBy
        ((s.tabled (s.soleOp w dest acq true taint)).leaving (s.soleRequest w pl a order scope bad))).perform
        ((s.tabled (s.soleOp w dest acq true taint)).leaving (s.soleRequest w pl a order scope bad)) := by
    rw [joined, last]
  rw [← step]
  cases dest with
  | query d => exact absurd rfl (hd d)
  | _ => rfl

/-- What a home does with a WAITA of its own core. -/
theorem State.perform_ownWatch {v : State} {p : Packet} {c timeout : Nat} {old : Word}
    {w : Word × Bool × Option Release} (home : p.home = .localMem c) (act : p.act = .watch old timeout)
    (alive : (v.core (namedCore p.core p.loc)).killed = false) (own : p.isLocal = true) (tile : (v.tileOf p).isSome)
    (watched : v.watched p = some w) :
    v.perform p = if w.1 != old then v.endWatch p w else v.arm p timeout := by
  obtain ⟨t, ht⟩ := Option.isSome_iff_exists.mp tile
  unfold State.perform
  rw [home]
  dsimp only
  rw [alive, own, ht, act, watched]
  simp

/-- Waiting at an instruction after something outside the cores has changed. -/
theorem State.Parks.of_outside {s P : State} {i : Instr} {k : Wait} {p : Bool} {cs : List Nat} (hc : P.cur = s.cur)
    (hk : P.cores = s.cores) :
    let t := (P.modMe fun x => { x with wait := k }).modMe fun x =>
      { x with waitLen := instrLen i, waitTaint := p, waitClasses := cs }
    s.Parks t k ∧ t.here = { s.here with ctxs := t.here.ctxs } ∧ t = { P with cores := t.cores } := by
  intro t
  have core (c : Nat) : P.core c = s.core c := by rw [State.core, hk]; rfl
  have here : P.here = s.here := by rw [State.here, hc]; exact core _
  have me : P.me = s.me := by
    show P.here.ctx P.cur.2 = s.here.ctx s.cur.2
    rw [here, hc]
  have joint : t = P.modMe fun x => { x with wait := k, waitLen := instrLen i, waitTaint := p, waitClasses := cs } :=
    State.modMe_modMe P _ _
  have moved : t.here = s.here.modCtx s.cur.2 fun x =>
      { x with wait := k, waitLen := instrLen i, waitTaint := p, waitClasses := cs } := by
    rw [joint, State.here_modMe, here, hc]
  refine ⟨⟨?_, fun x hx => ?_, fun c h => ?_⟩, ?_, ?_⟩
  · rw [joint, State.me_modMe, me]
  · rw [moved]
    exact Core.ctx_modCtx_ne _ _ _ _ hx
  · rw [joint]
    exact (State.core_modCtx_ne P _ _ c _ (by rw [hc]; exact h)).trans (core c)
  · rw [moved]
    rfl
  · rw [joint]
    rfl

/-- The bytes that are read for a word. -/
theorem length_physAll (t : TileEntry) (level rot off n : Nat) : (t.physAll level rot off n).length = n := by
  unfold TileEntry.physAll
  rw [List.length_map, span_length]

/-- What an on-chip home finds of the word that a WAITA watches. -/
theorem State.watched_onChip {u : State} {r : Packet} {t : TileEntry} (pa : r.pa = none)
    (tile : u.tileFor r.home r.loc 8 = some t) :
    let offs := t.physAll (chipLevel r.loc) t.rot (chipOff r.loc) 8
    u.watched r = some (leBits 64 ((u.storeAt r.home).load offs).1, ((u.storeAt r.home).load offs).2,
      readRelease (u.storeAt r.home).releases (offs.headD 0) 8) := by
  unfold State.watched
  rw [pa, tile]
  rfl

/-- What is found of the word that a WAITA of the own local memory watches decides what becomes of it. -/
theorem State.perform_watchRequest {s : State} {w old : Word} {align timeout : Nat} {want : Want} {pl : Place} {op : Op}
    {order : BitVec 2} {scope : BitVec 4} {bad : Bool} {r : Packet} (hp : s.here.pairing = none)
    (check : s.check s.cur.1 s.me.walkErr w 8 align want = .ok pl) (near : pl.atIssue = true)
    (alive : s.here.killed = false)
    (hr : (s.tabled op).leaving (s.soleRequest w pl (.watch old timeout) order scope bad) = r) :
    ∃ rel, ((s.tabled op).joinedBy r).perform r =
      if leBits 64 (s.here.store.load (s.offsetsOf pl 8)).1 != old then
        ((s.tabled op).joinedBy r).endWatch r (leBits 64 (s.here.store.load (s.offsetsOf pl 8)).1,
          (s.here.store.load (s.offsetsOf pl 8)).2, rel)
      else ((s.tabled op).joinedBy r).arm r timeout := by
  obtain ⟨level, named, place, tile⟩ := check_near_word check near
  rw [State.named_unpaired hp] at named
  have offs : s.offsetsOf pl 8 = (s.here.store.tile (chipHandle w)).physAll (chipLevel w)
      (s.here.store.tile (chipHandle w)).rot (chipOff w) 8 := by
    rw [place, level]
    rfl
  have home : r.home = .localMem s.cur.1 := by rw [← hr, place]; rfl
  have own : r.isLocal = true := by rw [← hr, place]; rfl
  have pa : r.pa = none := by rw [← hr, place]; rfl
  have loc : r.loc = w := by rw [← hr]; rfl
  have core : r.core = s.cur.1 := by rw [← hr]; rfl
  have act : r.act = .watch old timeout := by rw [← hr]; rfl
  have part : r.whole = none := by rw [← hr]; rfl
  clear hr place
  have found : ((s.tabled op).joinedBy r).tileFor r.home r.loc 8 = some (s.here.store.tile (chipHandle w)) := by
    rw [home, loc]
    exact tile
  have whole : ((s.tabled op).joinedBy r).tileOf r = some (s.here.store.tile (chipHandle w)) := by
    rw [State.tileOf, part, act]
    exact found
  have watched := State.watched_onChip pa found
  rw [home, loc] at watched
  have performed := State.perform_ownWatch home act (by rw [core, loc, named]; exact alive) own
    (Option.isSome_of_eq_some whole) watched
  rw [offs]
  exact ⟨_, performed⟩

theorem State.not_killed_of_clear {s : State} {i : Instr} (h : s.clear i = true) : s.here.killed = false := by
  have ready : s.ready s.cur.1 s.cur.2 = true := by
    simp only [State.clear, Bool.and_eq_true] at h
    exact h.1.1.1
  simp only [State.ready, Bool.and_eq_true, Bool.not_eq_true'] at ready
  exact ready.1.1.1.1.1.2

/-- Arming touches the packet of that number alone, and arms it. -/
theorem State.arm_net (u : State) (r : Packet) (timeout : Nat) :
    (∀ p : Packet, p.id ≠ r.id → (p ∈ (u.arm r timeout).net ↔ p ∈ u.net)) ∧
      (r ∈ u.net → ∃ p, p ∈ (u.arm r timeout).net ∧ p.op = r.op ∧ p.armed.isSome = true) := by
  unfold State.arm
  dsimp only
  refine ⟨fun p hp => ?_, fun hr => ⟨_, List.mem_map_of_mem hr, ?_⟩⟩
  · rw [List.mem_map]
    refine ⟨?_, fun h => ⟨p, h, if_neg (by simpa using hp)⟩⟩
    rintro ⟨q, hq, e⟩
    split at e
    · next same =>
      rw [← e] at hp
      exact absurd (beq_iff_eq.mp same) hp
    · rw [← e]
      exact hq
  · rw [if_pos (beq_self_eq_true _)]
    exact ⟨rfl, rfl⟩

/-- The home's answer to a WAITA takes it off its way. -/
theorem State.endWatch_answers (u : State) (r : Packet) (w : Word × Bool × Option Release) :
    ∃ (e : Reply) (replay : List ReplaySlot), u.endWatch r w =
        { u with net := u.net.filter (·.id != r.id), replies := u.replies ++ [e], replay := replay } ∧
      e.packet = r ∧ e.answer = .done ∧ e.data = bytesOf 8 w.1 ∧ e.poison = w.2.1 :=
  ⟨_, _, rfl, rfl, rfl, rfl, rfl⟩

/-- WAITA of a word of the own local memory: armed when the word is the expected one, else answered at once. -/
theorem waita_near {s : State} {d a v : BitVec 6} {q : BitVec 4} {o : BitVec 2} {offs : List Nat}
    (hp : s.here.pairing = none) (hc : s.clear (.waita d a v q o) = true) (hn : s.nearAt (s.g a.toNat) 8 8 .read offs) :
    ∃ t k, exec (.waita d a v q o) s = .next t ∧ s.Parks t (.waita k) ∧ t.here = { s.here with ctxs := t.here.ctxs } ∧
      t = { s with cores := t.cores, net := t.net, replies := t.replies, replay := t.replay, ops := t.ops,
                   nextNum := t.nextNum } ∧
      (∀ n, n ≠ k → Tab.get none t.ops n = Tab.get none s.ops n) ∧
      (Tab.get none t.ops k).map (·.dest) = some (.word d.toNat) ∧
      (∀ p, p.id ≠ s.nextNum + 1 → (p ∈ t.net ↔ p ∈ s.net)) ∧
      (BitVec.ofNat 64 (leNat (s.here.store.load offs).1) = s.g v.toNat → t.replies = s.replies ∧
        ∃ p, p ∈ t.net ∧ p.op = some k ∧ p.armed.isSome = true) ∧
      (BitVec.ofNat 64 (leNat (s.here.store.load offs).1) ≠ s.g v.toNat → ∃ r, t.replies = s.replies ++ [r] ∧
        r.packet.op = some k ∧ r.answer = .done ∧ r.data = (s.here.store.load offs).1 ∧
        r.poison = (s.here.store.load offs).2) := by
  obtain ⟨pl, check, near, free, rfl⟩ := hn
  obtain ⟨-, -, place, -⟩ := check_near_word check near
  have device : ∀ id, pl.home ≠ .peer id := fun id h => by rw [place] at h; cases h
  have own : pl.isLocal = true := by rw [place]; rfl
  have eight : (s.here.store.load (s.offsetsOf pl 8)).1.length = 8 := by
    rw [place]
    exact (List.length_map ..).trans (length_physAll ..)
  generalize hop : s.soleOp (s.g a.toNat) (.word d.toNat) (acquireOf o q) true (poisonedSource (.waita d a v q o) s) = op
  generalize hr : (s.tabled op).leaving (s.soleRequest (s.g a.toNat) pl
    (.watch (s.g v.toNat) (s.me.readE 15).toNat) 0 q false) = r
  obtain ⟨rel, performed⟩ := State.perform_watchRequest hp check near (State.not_killed_of_clear hc) hr
  have body : exec (.waita d a v q o) s = _ := (exec_waita d a v q o s).trans (issue_wait hc
    (((if_neg (by rw [State.farPage_device check device]; decide)).trans (locate_near check near free)).trans
      (ask_near_watch hp near own device (fun _ => by simp))))
  rw [hop, hr, performed] at body
  have isDest : op.dest = .word d.toNat := by rw [← hop]; rfl
  have rId : r.id = s.nextNum + 1 := by rw [← hr]; rfl
  have rOp : r.op = some s.nextNum := by rw [← hr]; rfl
  have entry : (Tab.get none (Tab.put s.ops s.nextNum (some op)) s.nextNum).map (·.dest) = some (.word d.toNat) := by
    rw [Tab.get_put_self]
    exact congrArg some isDest
  have joined (p : Packet) (h : p.id ≠ s.nextNum + 1) : p ∈ s.net ++ [r] ↔ p ∈ s.net := by
    rw [List.mem_append, List.mem_singleton]
    exact or_iff_left fun e => h (e ▸ rId)
  by_cases same : leBits 64 (s.here.store.load (s.offsetsOf pl 8)).1 = s.g v.toNat
  · rw [if_neg (by simpa using same)] at body
    obtain ⟨others, armed⟩ := ((s.tabled op).joinedBy r).arm_net r (s.me.readE 15).toNat
    obtain ⟨parks, here, outside⟩ := State.Parks.of_outside (s := s) (i := .waita d a v q o) (k := .waita s.nextNum)
      (p := poisonedSource (.waita d a v q o) s) (cs := classes (.waita d a v q o) s)
      (P := ((s.tabled op).joinedBy r).arm r (s.me.readE 15).toNat) rfl rfl
    refine ⟨_, s.nextNum, body, parks, here, outside, fun n h => Tab.get_put_ne _ _ _ _ _ h, entry,
      fun p h => (others p (by rw [rId]; exact h)).trans (joined p h), fun _ => ⟨rfl, ?_⟩, fun h => absurd same h⟩
    rw [rOp] at armed
    exact armed (List.mem_append_right _ (List.mem_singleton_self r))
  · rw [if_pos (by simpa using same)] at body
    obtain ⟨e, replay, ended, packet, answer, data, poison⟩ := ((s.tabled op).joinedBy r).endWatch_answers r
      (leBits 64 (s.here.store.load (s.offsetsOf pl 8)).1, (s.here.store.load (s.offsetsOf pl 8)).2, rel)
    rw [ended] at body
    obtain ⟨parks, here, outside⟩ := State.Parks.of_outside (s := s) (i := .waita d a v q o) (k := .waita s.nextNum)
      (p := poisonedSource (.waita d a v q o) s) (cs := classes (.waita d a v q o) s)
      (P := { (s.tabled op).joinedBy r with
        net := ((s.tabled op).joinedBy r).net.filter (·.id != r.id),
        replies := ((s.tabled op).joinedBy r).replies ++ [e],
        replay := replay }) rfl rfl
    refine ⟨_, s.nextNum, body, parks, here, outside, fun n h => Tab.get_put_ne _ _ _ _ _ h, entry,
      fun p h => ?_, fun h => absurd h same, fun _ => ⟨e, rfl, packet ▸ rOp, answer, ?_, poison⟩⟩
    · show p ∈ (s.net ++ [r]).filter _ ↔ _
      rw [List.mem_filter, joined p h]
      exact and_iff_left (by rw [rId]; simpa using h)
    · rw [data]
      exact bytesOf_leBits (n := 8) eight

/-! ### The obligation -/

/-- Settles O25: the request of each access, the register awaited or the context held. -/
theorem farAccesses : Obligations.FarAccesses := by
  unfold Obligations.FarAccesses
  refine ⟨fun s d b c o pl => st_sends, fun s d b c o pl hp hc hf => ⟨fun hb => ?_, fun hl hm => ?_⟩, ?_,
    fun s d a v q o offs => waita_near, fun s d a v q o pl hp hc hf => ?_⟩
  · have hi (t : State) : t.reads (.ld d b c o) = sources (.ld d b c o) := List.append_nil _
    have body (p : Bool) := ld_far_body (p := p) (d := d) hf
    rw [holds_brief hb] at body
    obtain ⟨u, t, p, k, exec, sends, done, asks, loads, mark, op, dest⟩ := ask_far_brief
      (body := fun p s => s.doLd p d b c o) hc hi (State.Sends.of_tables s _ _ _) hp hf.2.1 hf.2.2.1 (fun _ => by simp)
      (body _)
    refine ⟨u, t, p, k, (exec_ld d b c o s).trans exec, sends, done, asks, ?_, mark, op, dest⟩
    rw [← regs_scalar d c.toNat]
    exact loads
  · have body (p : Bool) := ld_far_body (p := p) (d := d) hf
    rw [holds_remote hl hm] at body
    obtain ⟨t, p, k, exec, sends, asks, wait, loads, len, op, dest⟩ := ask_far_held
      (body := fun p s => s.doLd p d b c o) hc hp hf.2.1 hf.2.2.1 (fun _ => by simp) (body _)
    exact ⟨t, p, k, (exec_ld d b c o s).trans exec, sends, asks, wait, loads, len, op, dest⟩
  · intro s d a v q o pl w hp hm hf sends
    refine ⟨?_, ?_, ?_, ?_, ?_, ?_, ?_, ?_⟩
    all_goals exact atomic_sends rfl (fun _ => List.append_nil _) (by decide) hp hm hf
  · have body := waita_far_body (t := poisonedSource (.waita d a v q o) s) (d := d) (v := v) (q := q) (o := o) hf
    obtain ⟨t, p, k, exec, sends, asks, wait, -, -, op, dest⟩ := ask_far_held (i := .waita d a v q o)
      (dest := .word d.toNat) (waita := true) (body := fun t s =>
        if s.farPage (s.g a.toNat) .read then .trap 0x06 0 (s.g a.toNat)
        else s.locate (s.g a.toNat) 8 8 .read fun pl =>
          s.ask [(0, s.g a.toNat, pl, .watch (s.g v.toNat) (s.me.readE 15).toNat)] (.word d.toNat) (acquireOf o q) 0 q false
            true t true) hc hp hf.2.1 hf.2.2.1 (fun _ h => nomatch h) body
    exact ⟨t, p, k, (exec_waita d a v q o s).trans exec, sends, asks, wait, op, dest⟩

end Sys2Proof.Machine
end

section
/-! O44: what a reply, a notice, the time limit and the polling of a WAITA and the transport's acknowledgement do. -/
namespace Sys2Proof.Machine

/-- The first element that a test picks, where none before it is picked. -/
theorem takeFirst_append {α : Type} {p : α → Bool} {before after : List α} {a : α} (hb : ∀ b, b ∈ before → p b = false)
    (ha : p a = true) : takeFirst p (before ++ a :: after) = some (a, before ++ after) := by
  induction before with
  | nil => rw [List.nil_append, takeFirst, if_pos ha]; rfl
  | cons b bs ih =>
    rw [List.cons_append, takeFirst, if_neg (by rw [hb b List.mem_cons_self]; decide),
      ih fun c hc => hb c (List.mem_cons_of_mem _ hc)]
    rfl

/-- A helper's fault freezes it (R99). -/
theorem State.trapCtx_helper (u : State) (c : Nat) {x : Nat} (hx : x ≠ 0) {cause : BitVec 8} (sub : BitVec 8) (tval : Word)
    (len : Nat) (h3 : cause ≠ 0x03) (h12 : cause ≠ 0x0C) :
    (u.trapCtx c x cause sub tval len).replies = u.replies ∧
      (u.trapCtx c x cause sub tval len).ctx c x = { u.ctx c x with
        wait := .none, side := [], walkErr := none,
        frozen := some { cause := cause, sub := sub, pc := (u.ctx c x).pc, tval := tval, since := u.cycle } } := by
  unfold State.trapCtx
  rw [if_neg h3, if_neg h12, if_neg hx]
  refine ⟨?_, ?_⟩
  · show (u.unpark c x).replies = u.replies
    unfold State.unpark
    split <;> rfl
  · unfold State.ctx
    rw [State.core_modCore_self, State.core_unpark]
    exact Core.ctx_modCtx_self (u.core c) x fun t => { t with
      frozen := some { cause := cause, sub := sub, pc := ((u.core c).ctx x).pc, tval := tval, since := u.cycle },
      wait := .none, side := [], walkErr := none }

/-! ### The last reply of an access (R15, R59, R64) -/

theorem exec_accessReply (id : Nat) (s : State) : exec (.accessReply id) s = execAccessReply id s := rfl

/-- The access is at its end. -/
def State.withoutOp (s : State) (n : Nat) : State := { s with ops := Tab.erase s.ops n }
/-- The reply has left the way. -/
def State.withoutReply (s : State) (id : Nat) (rest : List Reply) : State :=
  ({ s with replies := rest }).leaveSlots .reply id

theorem State.noteReply_silent {s : State} {o : Op} {r : Reply} (h : r.release = none) : s.noteReply o r = s := by
  unfold State.noteReply State.noteRelease
  rw [h]
  exact ite_self s

theorem State.takeDue_none {s : State} {c : Nat} (h : (s.core c).dueTrap = none) : s.takeDue c = s := by
  unfold State.takeDue
  rw [h]
theorem State.passReply_unpaired {s : State} {o : Op} (p : Packet) (h : (s.core o.core).pairing = none) :
    s.passReply o p = s := by
  unfold State.passReply
  rw [h]

section
variable {s : State} {r : Reply} {o : Op} {n d cls : Nat} {before after : List Reply}

/-- The only reply of a scalar's access ends it, unless it is a refusal that waits for earlier loads (R97). -/
theorem accessReply_ends (hs : s.replies = before ++ r :: after) (first : ∀ q, q ∈ before → q.packet.id ≠ r.packet.id)
    (hp : r.packet.op = some n) (ho : Tab.get none s.ops n = some o) (left : o.left = 1) (silent : r.release = none)
    (dest : o.dest = .scalar d cls) :
    exec (.accessReply r.packet.id) s =
      if (o.take r).nack.isSome && (s.ctx o.core o.ctx).loads ≠ [] then .next s
      else .next ((s.withoutReply r.packet.id (before ++ after)).endAccess n (o.take r) r.packet (s.ctx o.core o.ctx)) := by
  have taken : takeFirst (fun q => q.packet.id == r.packet.id && q.packet.op.isSome) s.replies = some (r, before ++ after) := by
    rw [hs]
    refine takeFirst_append (fun q hq => ?_) ?_
    · rw [beq_false_of_ne (first q hq)]
      rfl
    · rw [hp, beq_self_eq_true]
      rfl
  have last : (o.take r).left = 0 := by
    show o.left - 1 = 0
    rw [left]
  have dest' : (o.take r).dest = .scalar d cls := dest
  rw [exec_accessReply]
  unfold execAccessReply
  rw [taken]
  dsimp only
  rw [hp]
  dsimp only [Option.getD_some]
  rw [ho]
  dsimp only
  rw [last, dest', State.noteReply_silent silent, if_neg (by decide)]
  rfl

theorem Op.take_answered (hn : r.answer ≠ .nack) (dest : o.dest = .scalar d cls) (parts : o.parts = [])
    (nack : o.nack = none) : (o.take r).nack = none ∧ (o.take r).data = (r.data, r.poison) := by
  have accepts : o.refuses r = false := by
    unfold Op.refuses
    rw [dest, beq_false_of_ne hn, Bool.and_false]
    rfl
  have parts' : (o.take r).parts = [(r.packet.part, (r.data, r.poison))] := by
    unfold Op.take
    dsimp only
    rw [accepts, parts]
    rfl
  refine ⟨?_, ?_⟩
  · unfold Op.take
    dsimp only
    rw [accepts, Bool.false_and]
    exact nack
  · unfold Op.data
    rw [parts']
    simp [sortBy, insertBy]

theorem Op.take_refused (hn : r.answer = .nack) (nack : o.nack = none) :
    (o.take r).nack = some (r.packet.part, r.packet.loc) := by
  have refuses : o.refuses r = true := by
    unfold Op.refuses
    rw [hn]
    rfl
  unfold Op.take
  dsimp only
  rw [refuses, nack]
  rfl

/-- The data of a scalar's access goes into its register. -/
theorem State.deliver_scalar (s : State) (dest : o.dest = .scalar d cls) {data : List Byte} {poison : Bool}
    (found : o.data = (data, poison)) :
    s.deliver o = s.modCtx o.core o.ctx fun x => x.writeG d (extend cls data) (poison || o.taint) := by
  unfold State.deliver
  rw [dest, found]

variable (live : (s.ctx o.core o.ctx).live = true) (life : (s.ctx o.core o.ctx).life = o.life)
include live life

/-- A context that did not wait: the register is written and no longer awaited. -/
theorem State.endAccess_awaited {p : Packet} {old : Context} (due : (s.core o.core).dueTrap = none)
    (hr : (s.ctx o.core o.ctx).wait ≠ .reply n) (hw : (s.ctx o.core o.ctx).wait ≠ .waita n) (holds : o.holds = false)
    (dest : o.dest = .scalar d cls) {data : List Byte} {poison : Bool} (found : o.data = (data, poison)) :
    s.endAccess n o p old = (s.withoutOp n).modCtx o.core o.ctx fun x =>
      { x.writeG d (extend cls data) (poison || o.taint) with loads := dropRegs (Dest.scalar d cls).regs x.loads } := by
  have ended : s.endAccess n o p old = (((s.withoutOp n).deliver o).modCtx o.core o.ctx fun t =>
      { t with loads := dropRegs o.dest.regs t.loads }).takeDue o.core := by
    unfold State.endAccess
    dsimp only
    rw [live, life, if_neg (by simp), if_neg (by simp [hr, hw]), holds, if_neg Bool.false_ne_true]
    rfl
  rw [ended, State.deliver_scalar _ dest found, State.modCtx_modCtx, dest, State.takeDue_none]
  · simp only [Context.writeG_loads]
  · rw [State.core_modCtx_self]
    exact due

/-- A context that waited: the register is written and it goes on past its instruction. -/
theorem State.endAccess_waited {p : Packet} {old : Context} (pair : (s.core o.core).pairing = none)
    (due : (s.core o.core).dueTrap = none) (hr : (s.ctx o.core o.ctx).wait = .reply n) (nack : o.nack = none)
    (dest : o.dest = .scalar d cls) {data : List Byte} {poison : Bool} (found : o.data = (data, poison)) :
    s.endAccess n o p old = (s.withoutOp n).modCtx o.core o.ctx fun x =>
      (x.writeG d (extend cls data) (poison || o.taint)).resumed (s.loopsFrozen o.core o.ctx) := by
  have ended : s.endAccess n o p old =
      ((((s.withoutOp n).passReply o p).deliver o).finish o.core o.ctx o.dest.regs old).takeDue o.core := by
    unfold State.endAccess
    dsimp only
    rw [live, life, if_neg (by simp), if_pos (by simp [hr]), nack, dest]
    rfl
  have frozen (f : Context → Context) :
      ((s.withoutOp n).modCtx o.core o.ctx f).loopsFrozen o.core o.ctx = s.loopsFrozen o.core o.ctx := by
    unfold State.loopsFrozen
    rw [State.core_modCtx_self]
    rfl
  rw [ended, State.passReply_unpaired (s := s.withoutOp n) p pair, State.deliver_scalar _ dest found, finish_unpaired,
    State.modCtx_modCtx, frozen, State.takeDue_none]
  · rw [State.core_modCtx_self]
    exact due
  · rw [State.core_modCtx_self]
    exact pair

/-- A helper whose waiting access is refused freezes with a capability fault at the location (R97, R99). -/
theorem State.endAccess_refused {p : Packet} {old : Context} {k : Nat} {w : Word} (pair : (s.core o.core).pairing = none)
    (hr : (s.ctx o.core o.ctx).wait = .reply n) (nack : o.nack = some (k, w)) (dest : o.dest = .scalar d cls)
    (hx : o.ctx ≠ 0) :
    (s.endAccess n o p old).replies = s.replies ∧
      (s.endAccess n o p old).ctx o.core o.ctx = { s.ctx o.core o.ctx with
        wait := .none, side := [], walkErr := none,
        frozen := some { cause := 0x07, sub := 0, pc := (s.ctx o.core o.ctx).pc, tval := w, since := s.cycle } } := by
  have ended : s.endAccess n o p old = (((s.withoutOp n).passReply o p).modCtx o.core o.ctx fun t =>
      { t with wait := .none }).trapCtx o.core o.ctx 0x07 0 w (s.ctx o.core o.ctx).waitLen := by
    unfold State.endAccess
    dsimp only
    rw [live, life, if_neg (by simp), if_pos (by simp [hr]), nack, dest, if_neg hx]
    rfl
  rw [ended, State.passReply_unpaired (s := s.withoutOp n) p pair]
  obtain ⟨replies, ctx⟩ := State.trapCtx_helper ((s.withoutOp n).modCtx o.core o.ctx fun t => { t with wait := .none }) o.core hx
    (cause := 0x07) 0 w (s.ctx o.core o.ctx).waitLen (by decide) (by decide)
  rw [State.ctx_modCtx_self] at ctx
  exact ⟨replies, ctx⟩

end

/-- The first clause of O44. -/
theorem accessReply_spec {s : State} {r : Reply} {o : Op} {n d cls : Nat} {before after : List Reply}
    (hs : s.replies = before ++ r :: after) (first : ∀ q, q ∈ before → q.packet.id ≠ r.packet.id)
    (hp : r.packet.op = some n) (ho : Tab.get none s.ops n = some o) (left : o.left = 1) (nack : o.nack = none)
    (parts : o.parts = []) (silent : r.release = none) (pair : (s.core o.core).pairing = none)
    (due : (s.core o.core).dueTrap = none) (live : (s.ctx o.core o.ctx).live = true)
    (life : (s.ctx o.core o.ctx).life = o.life) (dest : o.dest = .scalar d cls) :
    let x := s.ctx o.core o.ctx
    (r.answer ≠ .nack → x.wait ≠ .reply n → x.wait ≠ .waita n → o.holds = false →
      ∃ t, exec (.accessReply r.packet.id) s = .next t ∧ t.replies = before ++ after ∧
        (t.ctx o.core o.ctx).readG d = writtenG d (extend cls r.data) (r.poison || o.taint) ∧
        (t.ctx o.core o.ctx).loads = (if d = 0 then x.loads else x.loads.erase (.g d)) ∧
        (∀ k, k ≠ d → (t.ctx o.core o.ctx).readG k = x.readG k) ∧ (t.ctx o.core o.ctx).pc = x.pc) ∧
    (r.answer ≠ .nack → x.wait = .reply n →
      ∃ t, exec (.accessReply r.packet.id) s = .next t ∧ (t.ctx o.core o.ctx).wait = .none ∧
        (t.ctx o.core o.ctx).readG d = writtenG d (extend cls r.data) (r.poison || o.taint) ∧
        (t.ctx o.core o.ctx).pc = (x.goto (s.loopsFrozen o.core o.ctx) (x.pc + BitVec.ofNat 64 x.waitLen)).pc) ∧
    (r.answer = .nack → x.wait = .reply n →
      (x.loads ≠ [] → exec (.accessReply r.packet.id) s = .next s) ∧
      (x.loads = [] → o.ctx ≠ 0 → ∃ t, exec (.accessReply r.packet.id) s = .next t ∧ t.replies = before ++ after ∧
        (t.ctx o.core o.ctx).frozen = some { cause := 0x07, sub := 0, pc := x.pc, tval := r.packet.loc, since := s.cycle } ∧
        ∀ k, (t.ctx o.core o.ctx).readG k = x.readG k)) := by
  intro x
  have ends := accessReply_ends hs first hp ho left silent dest
  have written (y : Context) : (y.writeG d (extend cls r.data) (r.poison || o.taint)).readG d =
      writtenG d (extend cls r.data) (r.poison || o.taint) := by
    rw [Context.readG_writeG]
    simp [writtenG]
  refine ⟨fun answered hr hw holds => ?_, fun answered hr => ?_, fun refused hr => ?_⟩
  · obtain ⟨nack', data⟩ := Op.take_answered answered dest parts nack
    rw [nack', if_neg (by simp), State.endAccess_awaited (s := s.withoutReply _ _) (o := o.take r) live life due hr hw holds
      dest data] at ends
    have ctx : ((((s.withoutReply r.packet.id (before ++ after)).withoutOp n).modCtx o.core o.ctx fun y =>
        { y.writeG d (extend cls r.data) (r.poison || o.taint) with
          loads := dropRegs (Dest.scalar d cls).regs y.loads }).ctx o.core o.ctx) =
        { x.writeG d (extend cls r.data) (r.poison || o.taint) with
          loads := dropRegs (Dest.scalar d cls).regs x.loads } := State.ctx_modCtx_self ..
    refine ⟨_, ends, rfl, (congrArg (Context.readG · d) ctx).trans (written x), (congrArg Context.loads ctx).trans ?_,
      fun k hk => (congrArg (Context.readG · k) ctx).trans ?_, (congrArg Context.pc ctx).trans (Context.writeG_pc ..)⟩
    · show dropRegs (Dest.scalar d cls).regs x.loads = _
      rw [Dest.regs]
      split <;> rfl
    · show (x.writeG d _ _).readG k = _
      rw [Context.readG_writeG, if_neg hk]
  · obtain ⟨nack', data⟩ := Op.take_answered answered dest parts nack
    rw [nack', if_neg (by simp), State.endAccess_waited (s := s.withoutReply _ _) (o := o.take r) live life pair due hr nack'
      dest data] at ends
    have ctx : ((((s.withoutReply r.packet.id (before ++ after)).withoutOp n).modCtx o.core o.ctx fun y =>
        (y.writeG d (extend cls r.data) (r.poison || o.taint)).resumed
          (s.loopsFrozen o.core o.ctx)).ctx o.core o.ctx) =
        (x.writeG d (extend cls r.data) (r.poison || o.taint)).resumed (s.loopsFrozen o.core o.ctx) :=
      State.ctx_modCtx_self ..
    refine ⟨_, ends, (congrArg Context.wait ctx).trans (Context.resumed_wait ..),
      (congrArg (Context.readG · d) ctx).trans ?_, (congrArg Context.pc ctx).trans ?_⟩
    · rw [Context.resumed_readG]
      exact written x
    · rw [Context.resumed_pc, Context.writeG_pc, Context.writeG_waitLen]
      exact (Context.goto_congr _ x _ _ (Context.writeG_lp ..) (Context.writeG_lpd ..)).1
  · have refusal := Op.take_refused refused nack
    rw [refusal] at ends
    refine ⟨fun hl => ends.trans (if_pos (by simpa using hl)), fun hl hx => ?_⟩
    rw [if_neg (by rw [show (s.ctx o.core o.ctx).loads = [] from hl]; simp)] at ends
    obtain ⟨replies, ctx⟩ := State.endAccess_refused (s := s.withoutReply r.packet.id (before ++ after)) (o := o.take r)
      (p := r.packet) (old := x) live life pair hr refusal dest hx
    refine ⟨_, ends, replies, congrArg Context.frozen ctx, fun k => ?_⟩
    have read := congrArg (Context.readG · k) ctx
    exact read

/-! ### Notices of posted accesses (R59, R107, R162) -/

theorem exec_postedAccessResponse (id : Nat) (s : State) :
    exec (.postedAccessResponse id) s = execPostedAccessResponse id s := rfl

/-- What a notice leaves: the replies and packets on their way, and the pending-byte counts. -/
structure State.KeepsCounts (s t : State) : Prop where
  replies  : t.replies = s.replies
  net      : t.net = s.net
  barriers : ∀ c, (t.core c).barriers = (s.core c).barriers

theorem State.KeepsCounts.refl (s : State) : s.KeepsCounts s := ⟨rfl, rfl, fun _ => rfl⟩
theorem State.KeepsCounts.trans {s t u : State} (h : s.KeepsCounts t) (k : t.KeepsCounts u) : s.KeepsCounts u :=
  ⟨k.replies.trans h.replies, k.net.trans h.net, fun c => (k.barriers c).trans (h.barriers c)⟩
theorem State.KeepsCounts.modCore (s : State) (c : Nat) {f : Core → Core} (hf : ∀ k, (f k).barriers = k.barriers) :
    s.KeepsCounts (s.modCore c f) := by
  refine ⟨rfl, rfl, fun d => ?_⟩
  rw [State.core_modCore]
  split
  · next h => rw [hf, h]
  · rfl
theorem State.KeepsCounts.chkEvent (s : State) (c x life era bit : Nat) : s.KeepsCounts (s.chkEvent c x life era bit) := by
  unfold State.chkEvent
  dsimp only
  split
  · exact ⟨rfl, rfl, fun _ => rfl⟩
  · split
    all_goals
      refine State.KeepsCounts.modCore s c ?_
      exact fun _ => rfl
theorem State.KeepsCounts.foldl {α : Type} {f : State → α → State} (hf : ∀ (s : State) a, s.KeepsCounts (f s a)) (l : List α)
    (s : State) : s.KeepsCounts (l.foldl f s) :=
  List.foldlRecOn l f (motive := fun t => s.KeepsCounts t) (State.KeepsCounts.refl s) fun t ht a _ => ht.trans (hf t a)

/-- Everything of one context. -/
theorem State.ctx_modCore_same (s : State) (c : Nat) {f : Core → Core} (hf : ∀ k, (f k).ctxs = k.ctxs) (d x : Nat) :
    (s.modCore c f).ctx d x = s.ctx d x := by
  unfold State.ctx Core.ctx
  rw [State.core_modCore]
  split
  · next h => rw [hf, h]
  · rfl

/-- A result that a launch's unit could not write changes its launch and a counter alone. -/
theorem State.resultLost_frame (s : State) (p : Packet) :
    ∃ launches firmware, s.resultLost p = { s with launches := launches, firmware := firmware } := by
  unfold State.resultLost
  split
  · exact ⟨_, _, rfl⟩
  · exact ⟨s.launches, s.firmware, rfl⟩

/-- The event that a refusal is, at the contexts that the packet stands for. -/
def State.refusalNoted (s : State) (p : Packet) : State :=
  p.merged.foldl (init := s.chkEvent p.core p.ctx p.life p.era 5) fun s m => s.chkEvent m.1 m.2.1 m.2.2.1 m.2.2.2.1 5

/-- The state in which a notice has been taken and its bytes taken back. -/
def State.noticeTaken (s : State) (r : Reply) (rest : List Reply) : State :=
  let t := (s.withoutReply r.packet.id rest).subPending r.packet.core r.packet.counted r.packet.bytes
  if r.answer = .done then t else t.resultLost r.packet

section
variable {s : State} {r : Reply} {before after : List Reply}

/-- The notice of a packet that is no row of a matrix and of no multicast group. -/
theorem postedAccessResponse_eq (hs : s.replies = before ++ r :: after)
    (first : ∀ q, q ∈ before → q.packet.id ≠ r.packet.id) (hp : r.packet.op = none) (hg : r.packet.group = none)
    (hr : r.packet.row = none) :
    exec (.postedAccessResponse r.packet.id) s = .next (
      if r.packet.engine then (s.noticeTaken r (before ++ after)).lineAnswered r.packet r.answer
      else if r.answer = .nack && r.packet.core < 4096 then (s.noticeTaken r (before ++ after)).refusalNoted r.packet
      else s.noticeTaken r (before ++ after)) := by
  have taken : takeFirst (fun q => q.packet.id == r.packet.id && q.packet.op.isNone) s.replies = some (r, before ++ after) := by
    rw [hs]
    refine takeFirst_append (fun q hq => ?_) ?_
    · rw [beq_false_of_ne (first q hq)]
      rfl
    · rw [hp, beq_self_eq_true]
      rfl
  rw [exec_postedAccessResponse]
  unfold execPostedAccessResponse
  rw [taken]
  dsimp only
  rw [hg, hr]
  dsimp only
  split
  · rfl
  · split <;> rfl

theorem State.noticeTaken_frame (s : State) (r : Reply) (rest : List Reply) :
    let t := s.noticeTaken r rest
    let u := (s.withoutReply r.packet.id rest).subPending r.packet.core r.packet.counted r.packet.bytes
    u.KeepsCounts t ∧ (∀ c, t.core c = u.core c) ∧ t.replies = rest ∧ t.net = s.net := by
  obtain ⟨launches, firmware, lost⟩ := ((s.withoutReply r.packet.id rest).subPending r.packet.core r.packet.counted
    r.packet.bytes).resultLost_frame r.packet
  have sub (t : State) (c : Nat) (bs : List Nat) (n : Nat) : (t.subPending c bs n).replies = t.replies ∧
      (t.subPending c bs n).net = t.net := by
    unfold State.subPending
    split <;> exact ⟨rfl, rfl⟩
  obtain ⟨replies, net⟩ := sub (s.withoutReply r.packet.id rest) r.packet.core r.packet.counted r.packet.bytes
  dsimp only
  unfold State.noticeTaken
  dsimp only
  split
  · exact ⟨State.KeepsCounts.refl _, fun _ => rfl, replies, net⟩
  · rw [lost]
    exact ⟨⟨rfl, rfl, fun _ => rfl⟩, fun _ => rfl, replies, net⟩

theorem State.ctx_subPending (s : State) (c : Nat) (bs : List Nat) (n d x : Nat) :
    (s.subPending c bs n).ctx d x = s.ctx d x := by
  unfold State.subPending
  split
  · rfl
  · refine State.ctx_modCore_same s c ?_ d x
    exact fun _ => rfl

theorem State.ctx_noticeTaken (s : State) (r : Reply) (rest : List Reply) (c x : Nat) :
    (s.noticeTaken r rest).ctx c x = s.ctx c x := by
  obtain ⟨-, core, -⟩ := s.noticeTaken_frame r rest
  unfold State.ctx
  rw [core]
  exact State.ctx_subPending ..

theorem State.KeepsCounts.lineAnswered (s : State) (p : Packet) (a : Answer) : s.KeepsCounts (s.lineAnswered p a) := by
  unfold State.lineAnswered State.modRun
  refine State.KeepsCounts.modCore s p.core ?_
  exact fun _ => rfl
theorem State.KeepsCounts.refusalNoted (s : State) (p : Packet) : s.KeepsCounts (s.refusalNoted p) :=
  (State.KeepsCounts.chkEvent ..).trans (State.KeepsCounts.foldl (fun _ _ => State.KeepsCounts.chkEvent ..) _ _)

/-- What a notice does after the bytes have been taken back keeps them so. -/
theorem postedAccessResponse_keeps (hs : s.replies = before ++ r :: after)
    (first : ∀ q, q ∈ before → q.packet.id ≠ r.packet.id) (hp : r.packet.op = none) (hg : r.packet.group = none)
    (hr : r.packet.row = none) :
    ∃ t, exec (.postedAccessResponse r.packet.id) s = .next t ∧ (s.noticeTaken r (before ++ after)).KeepsCounts t := by
  refine ⟨_, postedAccessResponse_eq hs first hp hg hr, ?_⟩
  split
  · exact State.KeepsCounts.lineAnswered ..
  · split
    · exact State.KeepsCounts.refusalNoted ..
    · exact State.KeepsCounts.refl _

end

/-- Bit 5 of a context's chk, once set, stays through further refusals. -/
theorem State.chk_chkEvent {s : State} {c x : Nat} {w : BitVec 7} (hw : w ||| 0x20 = w) (h : (s.ctx c x).chk = w)
    (d y life era : Nat) : ((s.chkEvent d y life era 5).ctx c x).chk = w := by
  unfold State.chkEvent
  dsimp only
  split
  · exact h
  · split
    · unfold State.ctx at h ⊢
      by_cases hd : c = d
      · rw [hd, State.core_modCtx_self, Core.ctx_modCtx]
        split
        · next hx =>
          show ((s.core d).ctx y).chk ||| (1 <<< 5) = w
          rw [← hx, ← hd, h]
          exact hw
        · rw [← hd]
          exact h
      · rw [State.core_modCtx_ne _ _ _ _ _ hd]
        exact h
    · rw [State.ctx_modCore_same]
      · exact h
      · exact fun _ => rfl

theorem State.chk_refusalNoted {s : State} {p : Packet} (era : (s.core p.core).era = p.era)
    (live : (s.ctx p.core p.ctx).live = true) (life : (s.ctx p.core p.ctx).life = p.life) :
    ((s.refusalNoted p).ctx p.core p.ctx).chk = (s.ctx p.core p.ctx).chk ||| 0x20 := by
  have once : ((s.chkEvent p.core p.ctx p.life p.era 5).ctx p.core p.ctx).chk = (s.ctx p.core p.ctx).chk ||| 0x20 := by
    unfold State.chkEvent
    dsimp only
    rw [era, if_neg (by simp), show (s.core p.core).ctx p.ctx = s.ctx p.core p.ctx from rfl, live, life,
      beq_self_eq_true, if_pos (by rfl), State.ctx_modCtx_self]
    rfl
  refine List.foldlRecOn p.merged _
    (motive := fun t : State => (t.ctx p.core p.ctx).chk = (s.ctx p.core p.ctx).chk ||| 0x20) once fun t ht m _ => ?_
  refine State.chk_chkEvent ?_ ht ..
  rw [BitVec.or_assoc, BitVec.or_self]

/-! ### WAITA at its home (R93, R94) -/

theorem exec_waitaTimeout (c x : Nat) (s : State) : exec (.waitaTimeout c x) s = execWaitaTimeout c x s := rfl
theorem exec_waitaPoll (c x : Nat) (s : State) : exec (.waitaPoll c x) s = execWaitaPoll c x s := rfl

/-- The home of an armed WAITA returns its word. -/
theorem State.returnWatch_answers (s : State) (p : Packet) (w : Word × Bool × Option Release) :
    let t := s.returnWatch p w
    (∀ q, q ∈ t.net ↔ q ∈ s.net ∧ q.id ≠ p.id) ∧ t.cores = s.cores ∧
      ∃ r, t.replies = s.replies ++ [r] ∧ r.packet = p ∧ r.answer = .done ∧ r.data = bytesOf 8 w.1 ∧ r.poison = w.2.1 := by
  have counted (u : State) (hn : u.net = s.net) (hc : u.cores = s.cores) (hr : u.replies = s.replies) :
      let t := u.endWatch p w
      (∀ q, q ∈ t.net ↔ q ∈ s.net ∧ q.id ≠ p.id) ∧ t.cores = s.cores ∧
        ∃ r, t.replies = s.replies ++ [r] ∧ r.packet = p ∧ r.answer = .done ∧ r.data = bytesOf 8 w.1 ∧ r.poison = w.2.1 := by
    obtain ⟨e, replay, ended, is⟩ := u.endWatch_answers p w
    dsimp only
    rw [ended]
    refine ⟨fun q => ?_, hc, e, by rw [← hr], is⟩
    show q ∈ u.net.filter _ ↔ _
    rw [List.mem_filter, hn, bne_iff_ne]
  unfold State.returnWatch
  split
  · exact counted _ rfl rfl rfl
  · exact counted _ rfl rfl rfl

section
variable {s : State} {c x : Nat} {p : Packet} (armed : s.armedFor c x = some p)
include armed

theorem waitaTimeout_eq : exec (.waitaTimeout c x) s =
    .next (if p.timeout != 0 && decide (p.timeout ≤ s.cycle) && s.watchServed p then s.returnWatch p (s.readWatched p)
      else s) := by
  rw [exec_waitaTimeout]
  unfold execWaitaTimeout
  rw [armed]
  rfl

theorem waitaPoll_unserved (served : s.watchServed p = false) : exec (.waitaPoll c x) s = .next s := by
  rw [exec_waitaPoll]
  unfold execWaitaPoll
  rw [armed]
  dsimp only
  split
  · rw [served]
    simp
  · rfl

theorem waitaPoll_served {old : Word} {time : Nat} (act : p.act = .watch old time) (polls : p.armed = some false)
    (due : p.poll ≤ s.cycle) (served : s.watchServed p = true) :
    exec (.waitaPoll c x) s =
      if (s.readWatched p).1 != old || (s.watched p).isNone || s.disowned p then .next (s.returnWatch p (s.readWatched p))
      else .next { s with net := s.net.map fun q => if q.id == p.id then { q with poll := q.poll + 2500 } else q } := by
  rw [exec_waitaPoll]
  unfold execWaitaPoll
  rw [armed]
  dsimp only
  rw [act, polls, served]
  exact if_neg (by simpa using due)

end

/-! ### The transport's acknowledgement (R82) -/

theorem ultraEthernetAcknowledgement_marks (s : State) (id : Nat) :
    ∃ t, exec (.ultraEthernetAcknowledgement id) s = .next t ∧ t = { s with outbox := t.outbox, replay := t.replay } ∧
      t.outbox = s.outbox.map fun q => if q.id = id ∧ q.sent = true then { q with acked := true } else q := by
  refine ⟨_, rfl, rfl, ?_⟩
  show replaceWhere _ _ s.outbox = _
  unfold replaceWhere
  simp only [Bool.and_eq_true, beq_iff_eq]

/-! ### The obligation -/

/-- Settles O44: replies, notices, WAITA at its home and acknowledgements. -/
theorem replies : Obligations.Replies := by
  unfold Obligations.Replies
  refine ⟨?_, ?_, ?_, ultraEthernetAcknowledgement_marks⟩
  · intro s r o n d cls before after hs first hp ho left nack parts silent pair due live life x word
    have spec := fun dest => accessReply_spec (d := d) (cls := cls) hs first hp ho left nack parts silent pair due live life dest
    exact ⟨fun dest => (spec dest).1, fun dest => (spec dest).2.1, fun dest => (spec dest).2.2⟩
  · intro s r before after hs first hp hg hr p
    have event := postedAccessResponse_eq hs first hp hg hr
    obtain ⟨t, ht, keeps⟩ := postedAccessResponse_keeps hs first hp hg hr
    obtain ⟨counts, core, replies, net⟩ := s.noticeTaken_frame r (before ++ after)
    have done := keeps.replies.trans replies
    refine ⟨fun hn => ?_, fun hn (hc : r.packet.core < 4096) hx era live life => ?_, fun b hb => ⟨t, ht, ?_⟩⟩
    · refine ⟨t, ht, done, keeps.net.trans net, fun x => ?_⟩
      rw [← s.ctx_noticeTaken r (before ++ after)]
      rw [ht] at event
      injection event with event
      rw [event]
      split
      · unfold State.lineAnswered State.modRun
        refine State.ctx_modCore_same _ _ ?_ _ _
        exact fun _ => rfl
      · rw [if_neg (by simp [hn])]
    · refine ⟨t, ht, done, ?_⟩
      have own : p.engine = false := by
        unfold Packet.engine
        simp [hx]
      have still : ((s.noticeTaken r (before ++ after)).core p.core).era = p.era := by
        rw [core]
        unfold State.subPending
        split
        · exact era
        · rw [State.core_modCore_self]
          exact era
      rw [ht] at event
      injection event with event
      rw [event, own, if_neg Bool.false_ne_true, if_pos (by simp [hn, hc]), State.chk_refusalNoted still, s.ctx_noticeTaken]
      all_goals rw [s.ctx_noticeTaken]
      · exact live
      · exact life
    · rw [keeps.barriers, counts.barriers]
      show (Tab.get {} ((s.withoutReply p.id (before ++ after)).subPending p.core p.counted p.bytes |>.core p.core).barriers b :
        Barrier).pending = _
      rw [hb, State.subPending, if_neg (by simp), State.core_modCore_self]
      exact congrArg Barrier.pending (Tab.get_put_self ({} : Barrier) _ b _)
  · intro s c x p old time armed act w answered
    have timeout := waitaTimeout_eq armed
    refine ⟨fun h => ?_, fun served => ⟨?_, waitaPoll_unserved armed served⟩, fun h0 hd served => ?_,
      fun polls due served changed => ?_, fun polls due served same held owned => ?_⟩
    · rw [timeout, if_neg]
      rcases h with h | h
      · simp [h]
      · simp [Nat.not_le.mpr h]
    · rw [timeout, served, Bool.and_false, if_neg Bool.false_ne_true]
    · refine ⟨_, timeout, ?_⟩
      rw [if_pos (by simp [h0, hd, served])]
      exact s.returnWatch_answers p w
    · refine ⟨_, (waitaPoll_served armed act polls due served).trans (if_pos ?_), s.returnWatch_answers p w⟩
      rcases changed with h | h
      · rw [bne_iff_ne.mpr h]
        rfl
      · rw [h, Bool.or_true]
    · refine ⟨_, (waitaPoll_served armed act polls due served).trans (if_neg ?_), rfl, ?_⟩
      · rw [show (s.readWatched p).1 = old from same, owned]
        simpa using held
      · simp only [beq_iff_eq]

end Sys2Proof.Machine
end

section
/-! O57: walks, the shared translation agent, and invalidations. -/
namespace Sys2Proof.Machine

theorem takeFirst_none {α : Type} {p : α → Bool} : ∀ {l : List α}, (∀ a, a ∈ l → p a = false) → takeFirst p l = none
  | [], _ => rfl
  | a :: l, h => by
    simp [takeFirst, h a List.mem_cons_self, takeFirst_none fun b hb => h b (List.mem_cons_of_mem a hb)]

/-- What each step of a fold establishes for its own element, and every later step keeps, holds of all of them after it. -/
theorem foldl_forall {σ α : Type} {f : σ → α → σ} {I : σ → Prop} {P : α → σ → Prop} (inv : ∀ t a, I t → I (f t a))
    (own : ∀ t a, I t → P a (f t a)) (later : ∀ t a b, I t → P b t → P b (f t a)) :
    ∀ (l : List α) (t : σ), I t → ∀ a, a ∈ l → P a (l.foldl f t)
  | [], _, _, _, ha => absurd ha List.not_mem_nil
  | b :: l, t, ht, a, ha => by
    rcases List.mem_cons.mp ha with rfl | ha
    · have keeps : I (l.foldl f (f t a)) ∧ P a (l.foldl f (f t a)) :=
        List.foldlRecOn l f (motive := fun u => I u ∧ P a u) ⟨inv t a ht, own t a ht⟩
          fun u hu c _ => ⟨inv u c hu.1, later u c a hu.1 hu.2⟩
      exact keeps.2
    · exact foldl_forall inv own later l (f t b) (inv t b ht) a ha

/-! ### Contexts that wait for a walk -/

/-- What a walk's end leaves a context that waited for it. -/
def Context.woken (x : Context) (e : Option (Nat × BitVec 8)) : Context :=
  if x.wait = .walk then { x with wait := .none, walkErr := e } else x

theorem State.ctx_wakeOne (s : State) (w : Nat × Nat) (e : Option (Nat × BitVec 8)) (c x : Nat) :
    (s.wake [w] e).ctx c x = if (c, x) = w then (s.ctx c x).woken e else s.ctx c x := by
  have one : s.wake [w] e =
      if (s.ctx w.1 w.2).wait = .walk then s.modCtx w.1 w.2 fun t => { t with wait := .none, walkErr := e } else s := rfl
  rw [one]
  by_cases hw : (c, x) = w
  · subst hw
    unfold Context.woken
    split <;> simp
  · rw [if_neg hw]
    split
    · exact State.ctx_modCtx_ne s _ _ c x _ hw
    · rfl

theorem State.ctx_wake (l : List (Nat × Nat)) (e : Option (Nat × BitVec 8)) (s : State) (c x : Nat) :
    (s.wake l e).ctx c x = if (c, x) ∈ l then (s.ctx c x).woken e else s.ctx c x := by
  induction l generalizing s with
  | nil => simp [State.wake]
  | cons w l ih =>
    have step : s.wake (w :: l) e = (s.wake [w] e).wake l e := rfl
    have twice (k : Context) : (k.woken e).woken e = k.woken e := by
      unfold Context.woken
      split <;> simp_all
    rw [step, ih, State.ctx_wakeOne]
    by_cases hw : (c, x) = w <;> by_cases hl : (c, x) ∈ l <;> simp [hw, hl, twice]

theorem State.wake_waiter {l : List (Nat × Nat)} (e : Option (Nat × BitVec 8)) (s : State) {w : Nat × Nat} (hl : w ∈ l)
    (waits : (s.ctx w.1 w.2).wait = .walk) :
    ((s.wake l e).ctx w.1 w.2).wait = .none ∧ ((s.wake l e).ctx w.1 w.2).walkErr = e := by
  rw [State.ctx_wake, if_pos hl]
  simp [Context.woken, waits]

/-- Only contexts change. -/
theorem State.wake_outside (l : List (Nat × Nat)) (e : Option (Nat × BitVec 8)) (s : State) :
    s.wake l e = { s with cores := (s.wake l e).cores } := by
  refine List.foldlRecOn l _ (motive := fun t : State => t = { s with cores := t.cores }) rfl fun t ht w _ => ?_
  split
  · exact congrArg (fun u : State => u.modCtx w.1 w.2 fun x => { x with wait := .none, walkErr := e }) ht
  · exact ht

theorem State.micro_wake (l : List (Nat × Nat)) (e : Option (Nat × BitVec 8)) (s : State) (c : Nat) :
    ((s.wake l e).core c).micro = (s.core c).micro := by
  refine List.foldlRecOn l _ (motive := fun t : State => (t.core c).micro = (s.core c).micro) rfl fun t ht w _ => ?_
  split
  · rw [← ht]
    show ((t.modCore w.1 fun k => k.modCtx w.2 _).core c).micro = _
    rw [State.core_modCore]
    split
    · next h => rw [h]; rfl
    · rfl
  · exact ht

/-! ### Tables -/

theorem mem_keep {α : Type} (a : α) (l : List α) {n : Nat} (h : 0 < n) : a ∈ keep n a l := by
  obtain ⟨n, rfl⟩ := Nat.exists_eq_add_of_lt h
  simp [keep]

/-- A translation enters the tables of one waiter: its cluster's, then its core's. -/
def State.fillWaiter (s : State) (x : Trans) (w : Nat × Nat) : State :=
  (s.modCluster (clusterOf w.1) fun k => { k with cache := keep 256 x (k.cache.filter (· != x)) }).modCore w.1 fun k =>
    { k with micro := keep 16 x (k.micro.filter (· != x)) }

/-- A translation in a waiter's two tables. -/
def State.holdsTrans (s : State) (x : Trans) (w : Nat × Nat) : Prop :=
  x ∈ (s.core w.1).micro ∧ x ∈ (s.cluster (clusterOf w.1)).cache

theorem State.fill_eq (s : State) (die : Nat) (x : Trans) (l : List (Nat × Nat)) :
    s.fill die x l = l.foldl (fun t w => t.fillWaiter x w)
      (s.modDie die fun d => { d with cache := keep 16384 x (d.cache.filter (· != x)) }) := rfl

theorem State.micro_fillWaiter (s : State) (x : Trans) (w : Nat × Nat) (c : Nat) :
    ((s.fillWaiter x w).core c).micro = if c = w.1 then keep 16 x ((s.core c).micro.filter (· != x)) else (s.core c).micro := by
  unfold State.fillWaiter
  rw [State.core_modCore]
  split
  · next h => rw [h]; rfl
  · rfl

theorem State.cache_fillWaiter (s : State) (x : Trans) (w : Nat × Nat) (n : Nat) :
    ((s.fillWaiter x w).cluster n).cache =
      if n = clusterOf w.1 then keep 256 x ((s.cluster n).cache.filter (· != x)) else (s.cluster n).cache := by
  show (((s.modCluster (clusterOf w.1) fun k => { k with cache := keep 256 x (k.cache.filter (· != x)) }).cluster n)).cache = _
  by_cases h : n = clusterOf w.1
  · rw [if_pos h, h, State.cluster_modCluster_self]
  · rw [if_neg h, State.cluster_modCluster_ne _ _ _ _ h]

theorem State.fillWaiter_own (s : State) (x : Trans) (w : Nat × Nat) : (s.fillWaiter x w).holdsTrans x w := by
  constructor
  · rw [State.micro_fillWaiter, if_pos rfl]
    exact mem_keep x _ (by decide)
  · rw [State.cache_fillWaiter, if_pos rfl]
    exact mem_keep x _ (by decide)

theorem State.fillWaiter_keeps (s : State) (x : Trans) (w v : Nat × Nat) (h : s.holdsTrans x v) :
    (s.fillWaiter x w).holdsTrans x v := by
  obtain ⟨micro, cache⟩ := h
  constructor
  · rw [State.micro_fillWaiter]
    split
    · exact mem_keep x _ (by decide)
    · exact micro
  · rw [State.cache_fillWaiter]
    split
    · exact mem_keep x _ (by decide)
    · exact cache

theorem State.fill_waiters (s : State) (die : Nat) (x : Trans) {l : List (Nat × Nat)} {w : Nat × Nat} (h : w ∈ l) :
    (s.fill die x l).holdsTrans x w :=
  foldl_forall (I := fun _ => True) (P := fun w (t : State) => t.holdsTrans x w) (fun _ _ h => h)
    (fun t w _ => t.fillWaiter_own x w) (fun t w v _ h => t.fillWaiter_keeps x w v h) l _ trivial w h

/-- What a filling leaves unchanged: the contexts, and all but tables. -/
theorem State.fill_frame (s : State) (die : Nat) (x : Trans) (l : List (Nat × Nat)) :
    (s.fill die x l).dies = (s.modDie die fun d => { d with cache := keep 16384 x (d.cache.filter (· != x)) }).dies ∧
      (s.fill die x l).stas = s.stas ∧ ∀ c y, (s.fill die x l).ctx c y = s.ctx c y := by
  rw [State.fill_eq]
  refine List.foldlRecOn l _ (motive := fun t : State => t.dies = _ ∧ t.stas = s.stas ∧ ∀ c y, t.ctx c y = s.ctx c y)
    ⟨rfl, rfl, fun _ _ => rfl⟩ ?_
  rintro t ⟨dies, stas, ctxs⟩ w -
  refine ⟨dies, stas, fun c y => ?_⟩
  rw [← ctxs c y]
  refine (State.ctx_modCore_same (t.modCluster (clusterOf w.1) _) w.1 ?_ c y).trans rfl
  exact fun _ => rfl

theorem State.die_fill (s : State) (die : Nat) (x : Trans) (l : List (Nat × Nat)) :
    (s.fill die x l).die die = { s.die die with cache := keep 16384 x ((s.die die).cache.filter (· != x)) } := by
  show Tab.get {} (s.fill die x l).dies die = _
  rw [(s.fill_frame die x l).1]
  exact State.die_modDie_self s die _

/-- The tables of a die and of waiting contexts hold a translation. -/
def State.filledWith (s : State) (die : Nat) (l : List (Nat × Nat)) (x : Trans) : Prop :=
  x ∈ (s.die die).cache ∧ ∀ w, w ∈ l → s.holdsTrans x w

/-- What the end of a walk or an answer with a leaf does: the tables are filled, and the waiters go on. -/
theorem State.fill_wake (s : State) (die : Nat) (x : Trans) (l : List (Nat × Nat)) (e : Option (Nat × BitVec 8)) :
    let t := (s.fill die x l).wake l e
    t.filledWith die l x ∧ (t.die die).walks = (s.die die).walks ∧ t.stas = s.stas ∧
      ∀ w, w ∈ l → (s.ctx w.1 w.2).wait = .walk → (t.ctx w.1 w.2).wait = .none ∧ (t.ctx w.1 w.2).walkErr = e := by
  intro t
  obtain ⟨_, stas, ctxs⟩ := s.fill_frame die x l
  have out : t = { s.fill die x l with cores := t.cores } := State.wake_outside l e _
  have dies : t.die die = (s.fill die x l).die die := by rw [out]; rfl
  have clusters (n : Nat) : t.cluster n = (s.fill die x l).cluster n := by rw [out]; rfl
  refine ⟨⟨?_, fun w hw => ?_⟩, ?_, ?_, fun w hw waits => State.wake_waiter e _ hw ?_⟩
  · rw [dies, State.die_fill]
    exact mem_keep x _ (by decide)
  · obtain ⟨micro, cache⟩ := s.fill_waiters die x hw
    unfold State.holdsTrans
    rw [clusters]
    exact ⟨(State.micro_wake l e _ w.1).symm ▸ micro, cache⟩
  · rw [dies, State.die_fill]
  · rw [out]
    exact stas
  · rw [ctxs]
    exact waits

/-! ### Requests to the shared agent -/

/-- A page has a request whose answer is awaited. -/
def State.asksPage (s : State) (space page : Nat) : Prop :=
  ∃ r, r ∈ s.stas ∧ r.space = space ∧ r.va = page ∧ r.refused = false

theorem State.askShared_asks (s : State) (die space va kind : Nat) : 
    (s.askShared die space va kind).asksPage space (va / 4096 * 4096) := by
  unfold State.askShared
  dsimp only
  split
  · next h =>
    obtain ⟨r, hr, h⟩ := List.any_eq_true.mp h
    simp only [Bool.and_eq_true, beq_iff_eq, Bool.not_eq_true'] at h
    obtain ⟨⟨space, page⟩, refused⟩ := h
    exact ⟨r, hr, space, page, refused⟩
  · exact ⟨_, List.mem_append_right _ List.mem_cons_self, rfl, rfl, rfl⟩

theorem State.askShared_frame (s : State) (die space va kind : Nat) :
    (s.askShared die space va kind).cores = s.cores ∧ (s.askShared die space va kind).dies = s.dies := by
  unfold State.askShared
  dsimp only
  split <;> exact ⟨rfl, rfl⟩

theorem State.shareWalk_asks (s : State) (die : Nat) (w : Walk) : (s.shareWalk die w).asksPage w.space (w.va / 4096 * 4096) := by
  obtain ⟨r, hr, space, va, refused⟩ := s.askShared_asks die w.space w.va w.kind
  refine ⟨_, List.mem_map_of_mem hr, ?_⟩
  split <;> exact ⟨space, va, refused⟩

/-! ### Requests to a pod peer -/

/-- What a request of a unit leaves unchanged. -/
structure State.KeepsCores (s t : State) : Prop where
  cores : t.cores = s.cores
  dies  : t.dies = s.dies

theorem State.KeepsCores.trans {s t u : State} (h : s.KeepsCores t) (k : t.KeepsCores u) : s.KeepsCores u :=
  ⟨k.cores.trans h.cores, k.dies.trans h.dies⟩

theorem State.KeepsCores.budgetStall (s : State) (a n : Nat) : s.KeepsCores (s.budgetStall a n) := by
  obtain ⟨b, h⟩ := s.budgetStall_frame a n
  rw [h]
  exact ⟨rfl, rfl⟩

theorem State.KeepsCores.cutIsolated (s : State) (p : Packet) : s.KeepsCores (s.cutIsolated p) := by
  unfold State.cutIsolated
  split
  · split
    · unfold State.cutOff
      dsimp only
      split <;> exact ⟨rfl, rfl⟩
    · exact ⟨rfl, rfl⟩
  · exact ⟨rfl, rfl⟩

theorem State.KeepsCores.spendPacket (s : State) (c : Nat) (h : Home) (near back : Bool) (n : Nat) :
    s.KeepsCores (s.spendPacket c h near back n) := by
  obtain ⟨b, spent⟩ := s.spendPacket_frame c h near back n
  rw [spent]
  exact ⟨rfl, rfl⟩

theorem State.KeepsCores.addPending (s : State) (c : Nat) {bs : List Nat} (h : bs = []) (n : Nat) :
    s.KeepsCores (s.addPending c bs n) := by
  unfold State.addPending
  rw [if_pos h]
  exact ⟨rfl, rfl⟩

theorem State.KeepsCores.launchPacket {s : State} {p : Packet} (group : p.group = none) (counted : p.counted = []) :
    s.KeepsCores (s.launchPacket p) := by
  unfold State.launchPacket
  rw [group]
  dsimp only
  refine State.KeepsCores.trans (State.KeepsCores.trans (State.KeepsCores.trans ?_ (State.KeepsCores.addPending _ _ counted _))
    (State.KeepsCores.spendPacket _ _ _ _ _ _)) (State.KeepsCores.cutIsolated _ _)
  split
  · split
    all_goals exact ⟨rfl, rfl⟩
  · exact ⟨rfl, rfl⟩

theorem State.KeepsCores.askUnit (s : State) (space key va pa n : Nat) : s.KeepsCores (s.askUnit space key va pa n) := by
  unfold State.askUnit
  split
  · exact ⟨rfl, rfl⟩
  · split
    · exact State.KeepsCores.budgetStall s _ _
    · refine State.KeepsCores.trans ?_ (State.KeepsCores.launchPacket rfl rfl)
      exact ⟨rfl, rfl⟩

/-! ### A walk (R65, R66, R69) -/

/-- The die's walk is taken from the queue, with the lines of tables that it read. -/
def State.walkTaken (s : State) (die : Nat) (rest : List Walk) (lines : List (Nat × Nat × Nat × Word)) : State :=
  (s.modDie die fun d => { d with walks := rest, walkTab := (lines ++ d.walkTab).take 1024 }).dropTables
/-- The walk is queued again behind the others. -/
def State.walkLater (s : State) (die : Nat) (rest : List Walk) (w : Walk) : State :=
  s.modDie die fun d => { d with walks := rest ++ [w] }

/-- What a walk does, by how it ends. -/
def State.walkEnds (s : State) (die : Nat) (rest : List Walk) (w : Walk) (lines : List (Nat × Nat × Nat × Word)) :
    WalkEnd → State
  | .leaf x => if s.overtaken x then s.walkLater die rest w
      else ((s.walkTaken die rest lines).fill die x w.waiters).wake w.waiters none
  | .fault sub => (s.walkTaken die rest lines).wake w.waiters (some (w.va / 4096, sub))
  | .bad line => ((s.walkTaken die rest lines).noteBad die line).wake w.waiters (some (w.va / 4096, 3))
  | .shared => (s.walkTaken die rest lines).shareWalk die w
  | .peer pa => (s.walkLater die rest w).askUnit w.space (tableKey pa) w.va pa 8
  | .busy => s.walkLater die rest w

theorem exec_translationWalk (die : Nat) (s : State) : exec (.translationWalk die) s = execTranslationWalk die s := rfl

theorem translationWalk_ends {s : State} {die : Nat} {w : Walk} {rest : List Walk}
    (taken : takeFirst (fun v : Walk => !s.invalidating v.space v.va) (s.die die).walks = some (w, rest)) :
    exec (.translationWalk die) s =
      .next (s.walkEnds die rest w (s.walk die w.space w.va).2 (s.walk die w.space w.va).1) := by
  rw [exec_translationWalk]
  unfold execTranslationWalk
  rw [taken]
  dsimp only
  cases (s.walk die w.space w.va).1 <;> rfl

theorem State.die_walkTaken (s : State) (die : Nat) (rest : List Walk) (lines : List (Nat × Nat × Nat × Word)) :
    (s.walkTaken die rest lines).die die =
      { s.die die with walks := rest, walkTab := (lines ++ (s.die die).walkTab).take 1024 } :=
  State.die_modDie_self s die fun d => { d with walks := rest, walkTab := (lines ++ d.walkTab).take 1024 }
theorem State.die_walkLater (s : State) (die : Nat) (rest : List Walk) (w : Walk) :
    (s.walkLater die rest w).die die = { s.die die with walks := rest ++ [w] } :=
  State.die_modDie_self s die fun d => { d with walks := rest ++ [w] }

theorem State.die_wake (l : List (Nat × Nat)) (e : Option (Nat × BitVec 8)) (s : State) (die : Nat) :
    (s.wake l e).die die = s.die die := by
  rw [State.wake_outside]
  rfl
theorem State.stas_wake (l : List (Nat × Nat)) (e : Option (Nat × BitVec 8)) (s : State) : (s.wake l e).stas = s.stas := by
  rw [State.wake_outside]

theorem State.die_noteBad (s : State) (die line : Nat) :
    ((s.noteBad die line).die die).walks = (s.die die).walks ∧
      ((s.die die).bad.length < 256 → line ∈ ((s.noteBad die line).die die).bad) := by
  let note := fun d : Die =>
    { d with bad := if d.bad.length < 256 && !d.bad.contains line then d.bad ++ [line] else d.bad }
  have noted : (s.noteBad die line).die die = note (s.die die) := State.die_modDie_self s die note
  rw [noted]
  refine ⟨rfl, fun short => ?_⟩
  dsimp only [note]
  split
  · exact List.mem_append_right _ List.mem_cons_self
  · next h => simpa [short] using h

theorem State.KeepsCores.ctx {s t : State} (h : s.KeepsCores t) (c x : Nat) : t.ctx c x = s.ctx c x := by
  unfold State.ctx State.core
  rw [h.cores]
theorem State.KeepsCores.die {s t : State} (h : s.KeepsCores t) (die : Nat) : t.die die = s.die die := by
  unfold State.die
  rw [h.dies]

theorem State.KeepsCores.shareWalk (s : State) (die : Nat) (w : Walk) : s.KeepsCores (s.shareWalk die w) := by
  obtain ⟨cores, dies⟩ := s.askShared_frame die w.space w.va w.kind
  exact ⟨cores, dies⟩

/-! ### The shared agent's answer, refusal and silence (R238) -/

section
variable {s : State} {tag : Nat} {r : StaReq} {before after : List StaReq}

theorem exec_staAnswer (tag : Nat) (leaf : Word) (level : Nat) (s : State) :
    exec (.staAnswer tag leaf level) s = execStaAnswer tag leaf level s := rfl
theorem exec_staRefusal (tag : Nat) (s : State) : exec (.staRefusal tag) s = execStaRefusal tag s := rfl
theorem exec_staTimeout (tag : Nat) (s : State) : exec (.staTimeout tag) s = execStaTimeout tag s := rfl

theorem staAnswer_none (leaf : Word) (level : Nat)
    (h : ∀ r, r ∈ s.stas → r.tag = tag → r.stale = true ∨ r.refused = true) :
    exec (.staAnswer tag leaf level) s = .next s ∧ exec (.staRefusal tag) s = .next s := by
  have taken : takeFirst (fun r : StaReq => r.tag == tag && !r.stale && !r.refused) s.stas = none := by
    refine takeFirst_none fun r hr => ?_
    by_cases ht : r.tag = tag
    · rcases h r hr ht with e | e <;> simp [e]
    · simp [ht]
  rw [exec_staAnswer, exec_staRefusal]
  unfold execStaAnswer execStaRefusal
  rw [taken]
  exact ⟨rfl, rfl⟩

theorem staTimeout_none (h : ∀ r, r ∈ s.stas → r.tag = tag → r.refused = true ∨ s.cycle < r.since + 50000) :
    exec (.staTimeout tag) s = .next s := by
  have taken : takeFirst (fun r : StaReq => r.tag == tag && !r.refused && decide (r.since + 50000 ≤ s.cycle)) s.stas = none := by
    refine takeFirst_none fun r hr => ?_
    by_cases ht : r.tag = tag
    · rcases h r hr ht with e | e
      · simp [e]
      · simp [Nat.not_le.mpr e]
    · simp [ht]
  rw [exec_staTimeout]
  unfold execStaTimeout
  rw [taken]

variable (hs : s.stas = before ++ r :: after) (first : ∀ x, x ∈ before → x.tag ≠ tag) (own : r.tag = tag)
  (open_ : r.refused = false)
include hs first own open_

theorem staTaken (fresh : r.stale = false) :
    takeFirst (fun r : StaReq => r.tag == tag && !r.stale && !r.refused) s.stas = some (r, before ++ after) := by
  rw [hs]
  exact takeFirst_append (fun x hx => by simp [first x hx]) (by simp [own, fresh, open_])

theorem staAnswer_first (leaf : Word) (level : Nat) (fresh : r.stale = false) :
    exec (.staAnswer tag leaf level) s = .next (
      if pteOk leaf && pteLeaf leaf && 1 ≤ level && level ≤ 3 then
        if s.overtaken (leafTrans r.space r.va level leaf) then { s with stas := before ++ after ++ [{ r with stale := true }] }
        else (({ s with stas := before ++ after } : State).fill r.die (leafTrans r.space r.va level leaf) r.waiters).wake
          r.waiters none
      else ({ s with stas := before ++ after } : State).wake r.waiters (some (r.va / 4096, 1))) := by
  rw [exec_staAnswer]
  unfold execStaAnswer
  rw [staTaken hs first own open_ fresh]
  dsimp only
  split
  · exact (apply_ite Host.Outcome.next _ _ _).symm
  · rfl

theorem staRefusal_first (fresh : r.stale = false) : exec (.staRefusal tag) s = .next (s.refuseShared r (before ++ after)) := by
  rw [exec_staRefusal]
  unfold execStaRefusal
  rw [staTaken hs first own open_ fresh]

theorem staTimeout_first (late : r.since + 50000 ≤ s.cycle) :
    exec (.staTimeout tag) s = .next (s.refuseShared r (before ++ after)) := by
  have taken : takeFirst (fun r : StaReq => r.tag == tag && !r.refused && decide (r.since + 50000 ≤ s.cycle)) s.stas =
      some (r, before ++ after) := by
    rw [hs]
    exact takeFirst_append (fun x hx => by simp [first x hx]) (by simp [own, late, open_])
  rw [exec_staTimeout]
  unfold execStaTimeout
  rw [taken]

end

theorem State.refuseShared_spec (s : State) (r : StaReq) (rest : List StaReq) :
    let t := s.refuseShared r rest
    (∀ w, w ∈ r.waiters → (s.ctx w.1 w.2).wait = .walk →
      (t.ctx w.1 w.2).wait = .none ∧ (t.ctx w.1 w.2).walkErr = some (r.va / 4096, 4)) ∧
    (r.waiters ≠ [] → t.stas = rest) ∧
    (r.waiters = [] → t.stas = rest ++ [{ r with refused := true, since := s.cycle }]) := by
  intro t
  have stas : t.stas = rest ++ if r.waiters = [] then [{ r with refused := true, since := s.cycle }] else [] :=
    State.stas_wake _ _ _
  refine ⟨fun w hw waits => State.wake_waiter _ _ hw waits, fun h => ?_, fun h => ?_⟩
  · rw [stas, if_neg h, List.append_nil]
  · rw [stas, if_pos h]

/-! ### An invalidation begins (R67, R68) -/

theorem State.mem_core_micro {s : State} {c : Nat} {x : Trans} (h : x ∈ (s.core c).micro) :
    ∃ e, e ∈ s.cores ∧ x ∈ e.2.micro := by
  by_contra none
  have all : (s.cores.all fun e => decide (x ∉ e.2.micro)) = true :=
    List.all_eq_true.mpr fun e he => decide_eq_true fun hx => none ⟨e, he, hx⟩
  exact absurd h (of_decide_eq_true (Tab.all_get (p := fun k : Core => decide (x ∉ k.micro)) {} c all rfl))

/-- What an invalidation that begins waits for: accesses under way that were translated in the domain, all that a dropped
entry or the range can have served among them. -/
def State.WaitsFor (s : State) (odi : Nat) (range : Option (Nat × Nat)) (waits : List Nat) : Prop :=
  (∀ n, n ∈ waits → ∃ p e, p ∈ s.net ++ s.heldPackets ∧ p.odi = odi ∧ p.pa ≠ none ∧ e ∈ p.numbers ∧ e.2 = n) ∧
  ∀ p e, p ∈ s.net ++ s.heldPackets → p.odi = odi → p.pa ≠ none → e ∈ p.numbers →
    (meetsRange (bitsN p.loc 56 0) 4096 range = true ∨ ∃ c x, x ∈ (s.core c).micro ∧ x.dropped odi range = true ∧
      x.va ≤ bitsN p.loc 56 0 ∧ bitsN p.loc 56 0 < x.va + x.size) → e.2 ∈ waits

theorem State.beginInvalidation_core (s : State) (odi : Nat) (range : Option (Nat × Nat)) (asked : InvFor) (c : Nat) :
    (s.beginInvalidation odi range asked).core c =
      { s.core c with micro := (s.core c).micro.filter fun x => !x.dropped odi range } :=
  Tab.get_map ({} : Core) ({} : Core) (fun _ k => { k with micro := k.micro.filter fun x => !x.dropped odi range }) s.cores c rfl

theorem State.beginInvalidation_cluster (s : State) (odi : Nat) (range : Option (Nat × Nat)) (asked : InvFor) (n : Nat) :
    (s.beginInvalidation odi range asked).cluster n =
      { s.cluster n with cache := (s.cluster n).cache.filter fun x => !x.dropped odi range } :=
  Tab.get_map ({} : Cluster) ({} : Cluster) (fun _ k => { k with cache := k.cache.filter fun x => !x.dropped odi range })
    s.clusters n rfl

/-- A walk's kept line of a table that an invalidation meets. -/
def lineDropped (odi : Nat) (range : Option (Nat × Nat)) (w : Nat × Nat × Nat × Word) : Bool :=
  w.1 % 16 == odi && meetsRange (w.2.2.1 * 2 ^ levelShift w.2.1) (2 ^ levelShift w.2.1) range

theorem State.beginInvalidation_die (s : State) (odi : Nat) (range : Option (Nat × Nat)) (asked : InvFor) (n : Nat) :
    (s.beginInvalidation odi range asked).die n =
      { s.die n with cache := (s.die n).cache.filter fun x => !x.dropped odi range,
                     walkTab := (s.die n).walkTab.filter fun w => !lineDropped odi range w } :=
  Tab.get_map ({} : Die) ({} : Die)
    (fun _ d => { d with cache := d.cache.filter fun x => !x.dropped odi range,
                         walkTab := d.walkTab.filter fun w => !lineDropped odi range w }) s.dies n rfl

theorem State.beginInvalidation_inv (s : State) (odi : Nat) (range : Option (Nat × Nat)) (asked : InvFor) :
    ∃ i, (s.beginInvalidation odi range asked).invs = s.invs ++ [i] ∧ i.id = s.nextNum ∧ i.odi = odi ∧ i.range = range ∧
      i.asked = asked ∧ s.WaitsFor odi range i.waits := by
  refine ⟨_, rfl, rfl, rfl, rfl, rfl, fun n hn => ?_, fun p e hp domain mapped he meets => ?_⟩
  · obtain ⟨p, hp, hn⟩ := List.mem_flatMap.mp hn
    obtain ⟨hp, touched⟩ := List.mem_filter.mp hp
    obtain ⟨e, he, rfl⟩ := List.mem_map.mp hn
    simp only [Bool.and_eq_true, beq_iff_eq] at touched
    obtain ⟨⟨domain, mapped⟩, -⟩ := touched
    exact ⟨p, e, hp, domain, Option.isSome_iff_ne_none.mp mapped, he, rfl⟩
  · refine List.mem_flatMap.mpr ⟨p, List.mem_filter.mpr ⟨hp, ?_⟩, List.mem_map_of_mem he⟩
    simp only [Bool.and_eq_true, beq_iff_eq, Bool.or_eq_true]
    refine ⟨⟨domain, Option.isSome_iff_ne_none.mpr mapped⟩, meets.imp_right ?_⟩
    rintro ⟨c, x, micro, dropped, low, high⟩
    obtain ⟨k, hk, hx⟩ := State.mem_core_micro micro
    refine List.any_eq_true.mpr ⟨x, List.mem_filter.mpr ⟨?_, dropped⟩, by simp [low, high]⟩
    exact List.mem_append_left _ (List.mem_append_left _ (List.mem_flatMap.mpr ⟨k, hk, hx⟩))

theorem State.beginInvalidation_stale {s : State} {odi : Nat} {range : Option (Nat × Nat)} {asked : InvFor} {r : StaReq}
    (hr : r ∈ (s.beginInvalidation odi range asked).stas) (domain : r.space % 16 = odi)
    (meets : meetsRange r.va 4096 range = true) : r.stale = true := by
  obtain ⟨q, -, rfl⟩ := List.mem_map.mp hr
  split
  · rfl
  · next h =>
    rw [if_neg h] at domain meets
    exact absurd (by simp [domain, meets]) h

theorem mem_live {l : List Trans} {x : Trans} {odi : Nat} {range : Option (Nat × Nat)} :
    x ∈ l.filter (fun x => !x.dropped odi range) ↔ x ∈ l ∧ ¬(x.space % 16 = odi ∧ meetsRange x.va x.size range = true) := by
  rw [List.mem_filter]
  simp [Trans.dropped, imp_iff_not_or]

/-! ### An invalidation completes -/

section
variable {s : State} {id : Nat} {i : Inv} {before after : List Inv}

theorem exec_invalidationComplete (id : Nat) (s : State) :
    exec (.invalidationComplete id) s = execInvalidationComplete id s := rfl

theorem invalidationComplete_none (h : ∀ i, i ∈ s.invs → i.id ≠ id) : exec (.invalidationComplete id) s = .next s := by
  have taken : takeFirst (fun i : Inv => i.id == id) s.invs = none := takeFirst_none fun i hi => by simp [h i hi]
  rw [exec_invalidationComplete]
  unfold execInvalidationComplete
  rw [taken]

/-- An access that an invalidation waits for is still under way. -/
def State.waitsOn (s : State) (i : Inv) : Bool := (s.net ++ s.heldPackets).any fun p => p.numbers.any fun e => i.waits.contains e.2

theorem State.waitsOn_iff : s.waitsOn i = true ↔ ∃ p e, p ∈ s.net ++ s.heldPackets ∧ e ∈ p.numbers ∧ e.2 ∈ i.waits := by
  unfold State.waitsOn
  simp only [List.any_eq_true, List.contains_iff_mem]
  constructor
  · rintro ⟨p, hp, e, he, hw⟩
    exact ⟨p, e, hp, he, hw⟩
  · rintro ⟨p, e, hp, he, hw⟩
    exact ⟨p, hp, e, he, hw⟩

/-- Whoever ordered an invalidation is told of its end. -/
def State.tellOfEnd (s : State) (i : Inv) (rest : List Inv) : State :=
  match i.asked with
  | .host sender cls _ fields =>
    if rest.any fun j => j.asked == i.asked then { s with invs := rest }
    else ({ s with invs := rest } : State).sendTlv sender cls fields
  | .agent seq => ({ s with invs := rest } : State).send (.peer s.firmware.agent) (.staAck seq)
  | .firmware => { s with invs := rest }

theorem invalidationComplete_first (hs : s.invs = before ++ i :: after) (first : ∀ x, x ∈ before → x.id ≠ id)
    (own : i.id = id) :
    exec (.invalidationComplete id) s =
      .next (if s.waitsOn i then s else (s.tellOfEnd i (before ++ after)).resend i) := by
  have taken : takeFirst (fun i : Inv => i.id == id) s.invs = some (i, before ++ after) := by
    rw [hs]
    exact takeFirst_append (fun x hx => by simp [first x hx]) (by simp [own])
  rw [exec_invalidationComplete]
  unfold execInvalidationComplete State.waitsOn State.tellOfEnd
  rw [taken]
  dsimp only
  split
  · rfl
  · cases i.asked <;> rfl

end

/-! ### Stale requests are asked again -/

/-- What a budget of a host takes from a transmission, or counts as held back. -/
theorem State.spendOrStall_frame (s : State) (free : Bool) (h n : Nat) :
    ∃ b, (if free then s.spend 2 h n else s.budgetStall 2 h) = { s with budgets := b } := by
  split
  · exact s.spend_frame 2 h n
  · exact s.budgetStall_frame 2 h

theorem State.send_frame (s : State) (dst : Sender) (body : OutBody) : ∃ o b,
    s.send dst body = { s with outbox := s.outbox ++ [o], nextNum := s.nextNum + 1, budgets := b } ∧ o.dst = dst ∧
      o.body = body := by
  cases dst with
  | host h =>
    let o : Out := { id := s.nextNum, dst := .host h, body := body, core := none, acked := false, sent := s.budgetLeft 2 h }
    obtain ⟨b, sent⟩ := State.spendOrStall_frame { s with outbox := s.outbox ++ [o], nextNum := s.nextNum + 1 }
      (s.budgetLeft 2 h) h body.size
    exact ⟨o, b, sent, rfl, rfl⟩
  | peer n => exact ⟨_, s.budgets, rfl, rfl, rfl⟩

/-- A request to the shared agent is listed under a new tag. -/
def State.relisted (s : State) (r : StaReq) : State :=
  { s with stas := s.stas ++ [{ r with tag := s.nextNum, stale := false, since := s.cycle }], nextNum := s.nextNum + 1 }

/-- One request to the shared agent, after an invalidation: asked again under a new tag, or kept. -/
def State.resendOne (i : Inv) (s : State) (r : StaReq) : State :=
  if r.stale && r.space % 16 == i.odi && !s.invalidating r.space r.va then
    (s.relisted r).send (.peer s.firmware.agent) (.staRequest s.nextNum (r.space % 16) r.va r.kind)
  else { s with stas := s.stas ++ [r] }

theorem State.resend_eq (s : State) (i : Inv) : s.resend i = s.stas.foldl (State.resendOne i) { s with stas := [] } := rfl

/-- What the asking again adds to and what it leaves unchanged. -/
structure State.AsksMore (s t : State) : Prop where
  invs     : t.invs = s.invs
  firmware : t.firmware = s.firmware
  cycle    : t.cycle = s.cycle
  stas     : s.stas ⊆ t.stas
  outbox   : s.outbox ⊆ t.outbox

theorem State.AsksMore.refl (s : State) : s.AsksMore s := ⟨rfl, rfl, rfl, List.Subset.refl _, List.Subset.refl _⟩
theorem State.AsksMore.trans {s t u : State} (h : s.AsksMore t) (k : t.AsksMore u) : s.AsksMore u :=
  ⟨k.invs.trans h.invs, k.firmware.trans h.firmware, k.cycle.trans h.cycle, fun _ hx => k.stas (h.stas hx),
    fun _ hx => k.outbox (h.outbox hx)⟩
theorem State.AsksMore.send (s : State) (dst : Sender) (body : OutBody) : s.AsksMore (s.send dst body) := by
  obtain ⟨o, b, sent, -, -⟩ := s.send_frame dst body
  rw [sent]
  exact ⟨rfl, rfl, rfl, List.Subset.refl _, List.subset_append_left _ _⟩
theorem State.AsksMore.asking (s : State) (r : StaReq) (n : Nat) : s.AsksMore { s with stas := s.stas ++ [r], nextNum := n } :=
  ⟨rfl, rfl, rfl, List.subset_append_left _ _, List.Subset.refl _⟩

theorem State.AsksMore.resendOne (i : Inv) (s : State) (r : StaReq) : s.AsksMore (s.resendOne i r) := by
  unfold State.resendOne
  split
  · exact (State.AsksMore.asking s _ _).trans (State.AsksMore.send _ _ _)
  · exact State.AsksMore.asking s r s.nextNum

theorem State.mem_send (s : State) (dst : Sender) (body : OutBody) :
    ∃ o, o ∈ (s.send dst body).outbox ∧ o.dst = dst ∧ o.body = body := by
  obtain ⟨o, b, sent, own⟩ := s.send_frame dst body
  rw [sent]
  exact ⟨o, List.mem_append_right _ List.mem_cons_self, own⟩

/-- A request is asked again. -/
def State.AskedAgain (s t : State) (r : StaReq) : Prop := ∃ tag o,
  { r with tag := tag, stale := false, since := s.cycle } ∈ t.stas ∧ o ∈ t.outbox ∧ o.dst = .peer s.firmware.agent ∧
    o.body = .staRequest tag (r.space % 16) r.va r.kind

theorem State.AskedAgain.more {s t u : State} {r : StaReq} (h : s.AskedAgain t r) (k : t.AsksMore u) : s.AskedAgain u r := by
  obtain ⟨tag, o, asked, out, dst, holds⟩ := h
  exact ⟨tag, o, k.stas asked, k.outbox out, dst, holds⟩

/-- A request that an invalidation, complete now, made stale and no other meets. -/
def State.againAsked (s : State) (i : Inv) (r : StaReq) : Bool := r.stale && r.space % 16 == i.odi && !s.invalidating r.space r.va

theorem State.resendOne_again {s : State} {i : Inv} {r : StaReq} (h : s.againAsked i r = true) :
    s.AskedAgain (s.resendOne i r) r := by
  have again : s.resendOne i r =
      (s.relisted r).send (.peer s.firmware.agent) (.staRequest s.nextNum (r.space % 16) r.va r.kind) := if_pos h
  rw [again]
  obtain ⟨o, out, dst, holds⟩ := (s.relisted r).mem_send (.peer s.firmware.agent)
    (.staRequest s.nextNum (r.space % 16) r.va r.kind)
  exact ⟨s.nextNum, o, (State.AsksMore.send _ _ _).stas (List.mem_append_right _ List.mem_cons_self), out, dst, holds⟩

theorem State.resendOne_kept {s : State} {i : Inv} {r : StaReq} (h : s.againAsked i r = false) : r ∈ (s.resendOne i r).stas := by
  have kept : s.resendOne i r = { s with stas := s.stas ++ [r] } := if_neg (ne_true_of_eq_false h)
  rw [kept]
  exact List.mem_append_right _ List.mem_cons_self

/-- A request that an invalidation's end leaves is listed as it is, or asked again. -/
theorem State.resend_request (s : State) (i : Inv) {r : StaReq} (hr : r ∈ s.stas) :
    if s.againAsked i r = true then s.AskedAgain (s.resend i) r else r ∈ (s.resend i).stas := by
  rw [State.resend_eq]
  refine foldl_forall (f := State.resendOne i)
    (I := fun t => t.invs = s.invs ∧ t.firmware = s.firmware ∧ t.cycle = s.cycle)
    (P := fun r (t : State) => if s.againAsked i r = true then s.AskedAgain t r else r ∈ t.stas) ?_ ?_ ?_ s.stas
    { s with stas := [] }
    ⟨rfl, rfl, rfl⟩ r hr
  · rintro t r ⟨invs, firmware, cycle⟩
    have more := State.AsksMore.resendOne i t r
    exact ⟨more.invs.trans invs, more.firmware.trans firmware, more.cycle.trans cycle⟩
  · rintro t r ⟨invs, firmware, cycle⟩
    have same : t.againAsked i r = s.againAsked i r := by
      unfold State.againAsked State.invalidating
      rw [invs]
    split
    · next h =>
      have again := State.resendOne_again (same.trans h)
      unfold State.AskedAgain at again ⊢
      rwa [firmware, cycle] at again
    · next h => exact State.resendOne_kept (same.trans (eq_false_of_ne_true h))
  · intro t r q _ h
    split at h
    · next e => rw [if_pos e]; exact h.more (State.AsksMore.resendOne i t r)
    · next e => rw [if_neg e]; exact (State.AsksMore.resendOne i t r).stas h

theorem State.resend_frame (s : State) (i : Inv) : (s.resend i).invs = s.invs ∧ s.outbox ⊆ (s.resend i).outbox := by
  have more : State.AsksMore { s with stas := [] } (s.resend i) :=
    List.foldlRecOn s.stas (State.resendOne i) (motive := fun t => State.AsksMore { s with stas := [] } t)
      (State.AsksMore.refl _) fun t ht r _ => ht.trans (State.AsksMore.resendOne i t r)
  exact ⟨more.invs, more.outbox⟩

theorem State.tellOfEnd_frame (s : State) (i : Inv) (rest : List Inv) :
    State.AsksMore { s with invs := rest } (s.tellOfEnd i rest) := by
  unfold State.tellOfEnd State.sendTlv
  split
  · split
    · exact State.AsksMore.refl _
    · exact State.AsksMore.send _ _ _
  · exact State.AsksMore.send _ _ _
  · exact State.AsksMore.refl _

theorem State.tellOfEnd_agent {s : State} {i : Inv} {seq : Nat} (rest : List Inv) (asked : i.asked = .agent seq) :
    ∃ o, o ∈ (s.tellOfEnd i rest).outbox ∧ o.dst = .peer s.firmware.agent ∧ o.body = .staAck seq := by
  unfold State.tellOfEnd
  rw [asked]
  exact State.mem_send _ _ _

theorem State.tellOfEnd_host {s : State} {i : Inv} {rest : List Inv} {d : Sender} {cls n : Nat} {fields : List TlvField}
    (asked : i.asked = .host d cls n fields) (last : ∀ j, j ∈ rest → j.asked ≠ i.asked) :
    ∃ o, o ∈ (s.tellOfEnd i rest).outbox ∧ o.dst = d ∧ o.body = .tlv (outField 0x001 (leBytes 1 cls) :: fields) := by
  have no : (rest.any fun j => j.asked == i.asked) = false := List.any_eq_false.mpr fun j hj => by simp [last j hj]
  unfold State.tellOfEnd
  rw [no, asked]
  exact State.mem_send _ _ _


/-! ### The obligation -/

/-- How a walk ends, and who goes on. -/
theorem State.walkEnds_spec (s : State) (die : Nat) (rest : List Walk) (w : Walk) (lines : List (Nat × Nat × Nat × Word))
    (e : WalkEnd) :
    let t := s.walkEnds die rest w lines e
    let ends := (t.die die).walks = rest
    let waits := (t.die die).walks = rest ++ [w] ∧ ∀ c x, t.ctx c x = s.ctx c x
    let woken := fun f => ∀ v, v ∈ w.waiters → (s.ctx v.1 v.2).wait = .walk →
      (t.ctx v.1 v.2).wait = .none ∧ (t.ctx v.1 v.2).walkErr = f
    match e with
    | .leaf x => if s.overtaken x then waits else ends ∧ t.filledWith die w.waiters x ∧ woken none
    | .fault sub => ends ∧ woken (some (w.va / 4096, sub))
    | .bad line => ends ∧ woken (some (w.va / 4096, 3)) ∧ ((s.die die).bad.length < 256 → line ∈ (t.die die).bad)
    | .shared => ends ∧ (∀ c x, t.ctx c x = s.ctx c x) ∧ t.asksPage w.space (w.va / 4096 * 4096)
    | .peer _ => waits
    | .busy => waits := by
  intro t ends waits woken
  have later : ((s.walkLater die rest w).die die).walks = rest ++ [w] := by rw [State.die_walkLater]
  have taken : ((s.walkTaken die rest lines).die die).walks = rest := by rw [State.die_walkTaken]
  cases e with
  | leaf x =>
    dsimp only
    split
    · next met =>
      have held : t = s.walkLater die rest w := if_pos met
      exact ⟨by rw [held, later], fun c y => by rw [held]; rfl⟩
    · next met =>
      have done : t = ((s.walkTaken die rest lines).fill die x w.waiters).wake w.waiters none := if_neg met
      obtain ⟨filled, walks, -, wakes⟩ := (s.walkTaken die rest lines).fill_wake die x w.waiters none
      rw [← done] at filled walks wakes
      exact ⟨walks.trans taken, filled, wakes⟩
  | fault sub =>
    exact ⟨(congrArg Die.walks (State.die_wake w.waiters _ _ die)).trans taken,
      fun v hv waiting => State.wake_waiter _ (s.walkTaken die rest lines) hv waiting⟩
  | bad line =>
    obtain ⟨walks, listed⟩ := (s.walkTaken die rest lines).die_noteBad die line
    have kept := State.die_wake w.waiters (some (w.va / 4096, 3)) ((s.walkTaken die rest lines).noteBad die line) die
    refine ⟨(congrArg Die.walks kept).trans (walks.trans taken), fun v hv waiting => ?_, fun short => ?_⟩
    · exact State.wake_waiter _ ((s.walkTaken die rest lines).noteBad die line) hv waiting
    · rw [State.die_walkTaken] at listed
      have := listed short
      rwa [← kept] at this
  | shared =>
    have keeps := State.KeepsCores.shareWalk (s.walkTaken die rest lines) die w
    exact ⟨(congrArg Die.walks (keeps.die die)).trans taken, fun c y => (keeps.ctx c y).trans rfl,
      (s.walkTaken die rest lines).shareWalk_asks die w⟩
  | peer pa =>
    have keeps := State.KeepsCores.askUnit (s.walkLater die rest w) w.space (tableKey pa) w.va pa 8
    exact ⟨(congrArg Die.walks (keeps.die die)).trans later, fun c y => (keeps.ctx c y).trans rfl⟩
  | busy => exact ⟨later, fun _ _ => rfl⟩

/-- Settles O57: each way in which a walk, an answer or an invalidation ends, by the tables and the contexts that change. -/
theorem translationAgents : Obligations.TranslationAgents := by
  unfold Obligations.TranslationAgents
  intro woken filled
  refine ⟨fun s die => ⟨fun none => ?_, fun before w after hs first own => ?_⟩,
    fun s tag leaf level => ⟨staAnswer_none leaf level, ?_⟩,
    fun s tag => staTimeout_none, fun s seq odi range => ?_, fun s id => ⟨invalidationComplete_none, ?_⟩⟩
  · have taken : takeFirst (fun v : Walk => !s.invalidating v.space v.va) (s.die die).walks = .none :=
      takeFirst_none fun v hv => by simp [none v hv]
    rw [exec_translationWalk]
    unfold execTranslationWalk
    rw [taken]
  · have taken : takeFirst (fun v : Walk => !s.invalidating v.space v.va) (s.die die).walks = some (w, before ++ after) := by
      rw [hs]
      exact takeFirst_append (fun v hv => by simp [first v hv]) (by simp [own])
    refine ⟨_, translationWalk_ends taken, ?_⟩
    have spec := s.walkEnds_spec die (before ++ after) w (s.walk die w.space w.va).2 (s.walk die w.space w.va).1
    intro ends waits
    revert spec ends waits
    generalize (s.walk die w.space w.va).1 = e
    cases e with
    | leaf x => exact id
    | fault sub => exact id
    | bad line => exact id
    | shared =>
      rintro ⟨walks, ctxs, r, hr, space, va, refused⟩
      exact ⟨walks, ctxs, r, hr, space, .inr va, refused⟩
    | peer pa => exact id
    | busy => exact id
  · intro before r after hs first own open_ faulted
    have refused := s.refuseShared_spec r (before ++ after)
    refine ⟨fun fresh => ⟨⟨_, staAnswer_first hs first own open_ leaf level fresh, ?_⟩,
      _, staRefusal_first hs first own open_ fresh, refused⟩,
      fun late => ⟨_, staTimeout_first hs first own open_ late, refused⟩⟩
    split
    · split
      · rfl
      · obtain ⟨filled, -, stas, wakes⟩ := State.fill_wake { s with stas := before ++ after } r.die
          (leafTrans r.space r.va level leaf) r.waiters .none
        exact ⟨stas, filled, wakes⟩
    · exact ⟨State.stas_wake _ _ _, fun w hw waits => State.wake_waiter _ { s with stas := before ++ after } hw waits⟩
  · refine ⟨_, rfl, ?_, fun c x => ?_, fun n x => ?_, fun n x => ?_, fun r => State.beginInvalidation_stale⟩
    · obtain ⟨i, invs, name, domain, range, asked, waits⟩ := s.beginInvalidation_inv odi range (.agent seq)
      exact ⟨i, invs, name, domain, range, asked, waits⟩
    · rw [State.beginInvalidation_core]
      exact mem_live
    · rw [State.beginInvalidation_cluster]
      exact mem_live
    · rw [State.beginInvalidation_die]
      exact mem_live
  · intro before i after hs first own pending
    have ends := invalidationComplete_first hs first own
    refine ⟨fun h => ?_, fun h => ?_⟩
    · rw [ends, if_pos (State.waitsOn_iff.mpr h)]
    · rw [if_neg (mt State.waitsOn_iff.mp h)] at ends
      have told := s.tellOfEnd_frame i (before ++ after)
      obtain ⟨invs, outbox⟩ := (s.tellOfEnd i (before ++ after)).resend_frame i
      refine ⟨_, ends, invs.trans told.invs, ?_, ?_, ?_, ?_⟩
      · intro seq asked
        obtain ⟨o, out, own⟩ := State.tellOfEnd_agent (before ++ after) asked
        exact ⟨o, outbox out, own⟩
      · intro d cls n fields asked last
        obtain ⟨o, out, own⟩ := State.tellOfEnd_host asked last
        exact ⟨o, outbox out, own⟩
      · intro r hr fresh
        have kept := (s.tellOfEnd i (before ++ after)).resend_request i (told.stas hr)
        rwa [if_neg (by simp [State.againAsked, fresh])] at kept
      · intro r hr stale met free
        have asked := (s.tellOfEnd i (before ++ after)).resend_request i (told.stas hr)
        have again : (s.tellOfEnd i (before ++ after)).againAsked i r = true := by
          have none : (s.tellOfEnd i (before ++ after)).invalidating r.space r.va = false := by
            unfold State.invalidating
            rw [told.invs]
            exact List.any_eq_false.mpr fun x hx => by simp [free x hx]
          have domain : i.odi = r.space % 16 := by
            unfold Inv.covers at met
            simp only [Bool.and_eq_true, beq_iff_eq] at met
            exact met.1
          simp [State.againAsked, stale, none, domain]
        rw [if_pos again] at asked
        unfold State.AskedAgain at asked
        rwa [told.cycle, told.firmware] at asked

end Sys2Proof.Machine
end

section
/-! O55: the packets of hosts. -/
namespace Sys2Proof.Machine

/-! ### Little-endian fields -/

theorem leNat_leBytes (n x : Nat) : leNat (leBytes n x) = x % 256 ^ n := by
  induction n generalizing x with
  | zero => simp [leBytes, leNat, Nat.mod_one]
  | succ n ih =>
    simp only [leBytes, leNat, ih, BitVec.toNat_ofNat]
    rw [Nat.mod_mod, pow_succ', Nat.mod_mul]

/-- The field that some bytes hold between others. -/
theorem fieldAt_part {a b c : List Byte} {off n : Nat} (ha : a.length = off) (hb : b.length = n) :
    fieldAt (a ++ b ++ c) off n = leNat b := by
  subst ha hb
  simp [fieldAt]

theorem fieldAt_leBytes {a c : List Byte} {off n x : Nat} (ha : a.length = off) (hx : x < 256 ^ n) :
    fieldAt (a ++ leBytes n x ++ c) off n = x := by
  rw [fieldAt_part ha (leBytes_length n x), leNat_leBytes, Nat.mod_eq_of_lt hx]

/-! ### What a packet of one command is -/

section
variable (h cls : Nat) (type : BitVec 12) (bs : List Byte) (v : Bool)

@[simp] theorem fieldType_outField (type : BitVec 12) (bs : List Byte) : fieldType (outField type bs) = type.toNat := rfl
@[simp] theorem fieldBytes_outField (type : BitVec 12) (bs : List Byte) : fieldBytes (outField type bs) = bs := List.take_length

theorem fieldBad_outField {type : BitVec 12} (known : tlvKnown type.toNat = true) (bs : List Byte) :
    fieldBad (outField type bs) = false := by
  simp [fieldBad, known]
  simp [outField]
theorem fieldBad_class (bs : List Byte) : fieldBad (outField 1#12 bs) = false := fieldBad_outField rfl bs

theorem packetLead_command {type : BitVec 12} (known : tlvKnown type.toNat = true) (high : 3 < type.toNat) :
    packetLead (command h cls type bs v) = (type.toNat, bs) := by
  have first : (command h cls type bs v).fields.find? (fun f => tlvKnown (fieldType f) && (fieldType f) > 3) =
      some (outField type bs) := by
    simp [command, List.find?, known, high]
  unfold packetLead
  rw [first]
  exact congrArg (Prod.mk _) (fieldBytes_outField type bs)

/-- A packet of a host whose first field gives its class, with no sequence. -/
structure PlainPacket (p : TlvPacket) (h cls : Nat) : Prop where
  sender : p.sender = .host h
  cls    : packetClass p = some cls
  seq    : packetSeq p = []

theorem packetClass_lead {p : TlvPacket} {rest : List TlvField} {cls : Nat} (hf : p.fields = outField 0x001 (leBytes 1 cls) :: rest)
    (hc : cls < 256) : packetClass p = some cls := by
  unfold packetClass
  rw [hf]
  simp [leBytes_length, leNat_leBytes, Nat.mod_eq_of_lt hc]

theorem command_plain {cls : Nat} {type : BitVec 12} (hc : cls < 256) (high : 3 < type.toNat) :
    PlainPacket (command h cls type bs v) h cls := by
  refine ⟨rfl, packetClass_lead rfl hc, ?_⟩
  have none : (command h cls type bs v).fields.find? (fun f => (fieldType f) == 2) = none := by
    simp [command]
    omega
  unfold packetSeq
  rw [none]
  rfl
end

/-! ### Answers (R235, R211) -/

section
variable {h cls : Nat} {p : TlvPacket}

theorem State.budgetLeft_firmware (u : State) (f : Firmware) (a n : Nat) :
    ({ u with firmware := f } : State).budgetLeft a n = u.budgetLeft a n := by
  unfold State.budgetLeft State.withRow
  have same : ({ u with firmware := f } : State).remainder a n = u.remainder a n := rfl
  rw [same]
  cases u.remainder a n <;> split <;> rfl

/-- What is sent for a status and further fields. -/
def State.answerOut (w : State) (h cls status : Nat) (more : List TlvField) : Out :=
  { id := w.nextNum, dst := .host h,
    body := .tlv ([outField 0x001 (leBytes 1 cls), outField 0x003 (leBytes 4 status)] ++ more),
    core := none, acked := false, sent := w.budgetLeft 2 h }
/-- An answer has been sent, paid from a budget. -/
def State.replied (w : State) (h cls status : Nat) (more : List TlvField) (budgets : List BudgetRow) : State :=
  { w with outbox := w.outbox ++ [w.answerOut h cls status more], nextNum := w.nextNum + 1, budgets := budgets }

theorem State.replyTlv_plain (hp : PlainPacket p h cls) (w : State) (status : Nat) (more : List TlvField) :
    ∃ budgets, w.replyTlv p status more = w.replied h cls status more budgets := by
  have body : outField 0x001 (leBytes 1 cls) :: replyFields p status more =
      [outField 0x001 (leBytes 1 cls), outField 0x003 (leBytes 4 status)] ++ more := by
    unfold replyFields
    rw [hp.seq]
    rfl
  unfold State.replyTlv State.sendTlv State.send
  rw [hp.sender, hp.cls, Option.getD_some, body]
  exact State.spendOrStall_frame
    { w with outbox := w.outbox ++ [w.answerOut h cls status more], nextNum := w.nextNum + 1 } (w.budgetLeft 2 h) h 64

/-- A reply answers for a state that differs in noted headers and in counters alone. -/
theorem State.answered_replied {u w : State} {headers : Tab (List (BitVec 32))} {counters : Tab (BitVec 64)}
    (hw : w = { u with firmware := { u.firmware with headers := headers, counters := counters } }) (status : Nat)
    (more : List TlvField) (budgets : List BudgetRow) : u.Answered (w.replied h cls status more budgets) h cls status more := by
  subst hw
  let noted : Firmware := { u.firmware with headers := headers, counters := counters }
  exact congrArg (fun free => { u with
    firmware := noted
    outbox := u.outbox ++ [{ u.answerOut h cls status more with sent := free }]
    nextNum := u.nextNum + 1
    budgets := budgets }) (u.budgetLeft_firmware noted 2 h)

theorem State.with_own_firmware (u : State) :
    u = { u with firmware := { u.firmware with headers := u.firmware.headers, counters := u.firmware.counters } } := rfl

/-! ### How a packet is received -/

/-- A packet of one field, once that has been applied. -/
def State.received (s : State) (p : TlvPacket) (a : Applied) : State :=
  if a.status ≠ 0 then (s.noteHeaders p).rejectTlv p a.status
  else match a.ask with
    | some (die, space, w) => (s.unitBlocked die space w (senderRank p.sender)).getD s
    | none => if a.wait then s else if a.later then a.s.replyLater p s.nextNum a.reply else a.s.replyTlv p 0 a.reply

theorem State.answered_rejected (hp : PlainPacket p h cls) (s : State) (status : Nat) :
    s.Answered ((s.noteHeaders p).rejectTlv p status) h cls status [] := by
  obtain ⟨b, sent⟩ := State.replyTlv_plain hp ((s.noteHeaders p).count Count.rejectedPacket (senderIndex p.sender)) status []
  unfold State.rejectTlv
  rw [sent]
  exact State.answered_replied rfl status [] b

theorem State.received_rejects (hp : PlainPacket p h cls) (s : State) {a : Applied} {status : Nat} (ha : a.status = status)
    (h0 : status ≠ 0) : s.Answered (s.received p a) h cls status [] := by
  subst ha
  unfold State.received
  rw [if_pos h0]
  exact State.answered_rejected hp s a.status

theorem State.received_replies (hp : PlainPacket p h cls) (s w : State) (more : List TlvField) :
    ∃ budgets, s.received p { s := w, reply := more } = w.replied h cls 0 more budgets :=
  State.replyTlv_plain hp w 0 more

/-- The classes in which an owning host's packets are looked at. -/
def State.hostClass (s : State) (cls : Nat) : Prop := cls = 1 ∨ cls = 2 ∨ (cls = 3 ∧ s.firmware.service = true)

theorem State.classAdmitted_host {s : State} (hh : h ∈ s.hostsToTell) (hc : s.hostClass cls) :
    s.classAdmitted (.host h) cls = true := by
  have owner : s.hostsToTell.contains h = true := List.contains_iff_mem.mpr hh
  unfold State.classAdmitted
  dsimp only
  rw [owner]
  rcases hc with rfl | rfl | ⟨rfl, service⟩
  · rfl
  · rfl
  · simpa using service

theorem State.hostClass_lt {s : State} (hc : s.hostClass cls) : cls < 256 := by
  rcases hc with rfl | rfl | ⟨rfl, -⟩ <;> decide

theorem fieldAdmitted_class (h cls : Nat) : fieldAdmitted (.host h) cls 1 = true := rfl

/-- The class does nothing, the command is applied. -/
theorem applyFields_command (s : State) (h cls : Nat) (type : BitVec 12) (bs : List Byte) (v : Bool) :
    State.applyFields (command h cls type bs v) (command h cls type bs v).fields { s := s } =
      s.applyField (command h cls type bs v) (outField type bs) := rfl

theorem receiveTlv_checked (s : State) (p : TlvPacket) {cls : Nat} (hc : packetClass p = some cls)
    (good : p.fields.any fieldBad = false) (admits : s.classAdmitted p.sender cls = true) :
    s.receiveTlv p =
      if p.fields.any fun f => !fieldAdmitted p.sender cls (fieldType f) then (s.noteHeaders p).rejectTlv p 2
      else s.received p (State.applyFields p p.fields { s := s.noteHeaders p }) := by
  have admits' : (s.noteHeaders p).classAdmitted p.sender cls = true := admits
  unfold State.receiveTlv
  dsimp only
  rw [hc]
  dsimp only
  rw [good, admits']
  rfl

variable {s : State} {type : BitVec 12} (bs : List Byte) (v : Bool) (hh : h ∈ s.hostsToTell) (hc : s.hostClass cls)
  (known : tlvKnown type.toNat = true) (high : 3 < type.toNat)
include hh hc known high

/-- A command comes in its class: its field is applied. -/
theorem State.receiveTlv_command (comes : fieldAdmitted (.host h) cls type.toNat = true) :
    s.receiveTlv (command h cls type bs v) =
      s.received (command h cls type bs v)
        ((s.noteHeaders (command h cls type bs v)).applyField (command h cls type bs v) (outField type bs)) := by
  rw [receiveTlv_checked s _ (command_plain h bs v (State.hostClass_lt hc) high).cls
    (by simp [command, fieldBad_outField known, fieldBad_class]) (State.classAdmitted_host hh hc),
    if_neg ?_]
  · exact congrArg _ (applyFields_command _ h cls type bs v)
  · simp [command, comes, fieldAdmitted_class]

theorem State.receiveTlv_misplaced (comes : fieldAdmitted (.host h) cls type.toNat = false) :
    s.Answered (s.receiveTlv (command h cls type bs v)) h cls 2 [] := by
  have plain := command_plain h bs v (State.hostClass_lt hc) high
  rw [receiveTlv_checked s _ plain.cls
    (by simp [command, fieldBad_outField known, fieldBad_class]) (State.classAdmitted_host hh hc),
    if_pos ?_]
  · exact State.answered_rejected plain s 2
  · simp [command, comes]

end

/-- A command that a step is named after, in a class in which it may come. -/
structure Comes (h cls : Nat) (type : BitVec 12) : Prop where
  known    : tlvKnown type.toNat = true
  high     : 3 < type.toNat
  admitted : fieldAdmitted (.host h) cls type.toNat = true

section
variable {h cls : Nat} {s : State} {i : Instr} {type : BitVec 12} {bs : List Byte} {v : Bool} (hh : h ∈ s.hostsToTell)
  (hc : s.hostClass cls) (comes : Comes h cls type)
  (step : exec i s = .next (s.receiveTlv (command h cls type bs v)))
include hh hc comes step

/-- A command that fails is answered with the status of its failure. -/
theorem State.command_rejected {status : Nat} {w : State} (h0 : status ≠ 0)
    (fails : (s.noteHeaders (command h cls type bs v)).applyField (command h cls type bs v) (outField type bs) =
      { s := w, status := status }) : ∃ t, exec i s = .next t ∧ s.Answered t h cls status [] := by
  refine ⟨_, step, ?_⟩
  rw [State.receiveTlv_command bs v hh hc comes.known comes.high comes.admitted, fails]
  exact State.received_rejects (command_plain h bs v (State.hostClass_lt hc) comes.high) s rfl h0

/-- A command that is applied is answered with status 0. -/
theorem State.command_applied {w : State} {more : List TlvField}
    (applies : (s.noteHeaders (command h cls type bs v)).applyField (command h cls type bs v) (outField type bs) =
      { s := w, reply := more }) : ∃ budgets, exec i s = .next (w.replied h cls 0 more budgets) := by
  rw [step, State.receiveTlv_command bs v hh hc comes.known comes.high comes.admitted, applies]
  obtain ⟨b, sent⟩ := State.received_replies (command_plain h bs v (State.hostClass_lt hc) comes.high) s w more
  exact ⟨b, congrArg _ sent⟩

/-- A command that is applied to a state like the device's answers it. -/
theorem State.command_answered {u w : State} {more : List TlvField} {headers : Tab (List (BitVec 32))} {counters : Tab (BitVec 64)}
    (applies : (s.noteHeaders (command h cls type bs v)).applyField (command h cls type bs v) (outField type bs) =
      { s := w, reply := more })
    (same : w = { u with firmware := { u.firmware with headers := headers, counters := counters } }) :
    ∃ t, exec i s = .next t ∧ u.Answered t h cls 0 more := by
  obtain ⟨b, sent⟩ := State.command_applied hh hc comes step applies
  exact ⟨_, sent, State.answered_replied same 0 more b⟩

end

/-! ### The steps that commands lead -/

section
variable (h cls : Nat) (bs : List Byte) (v : Bool) (s : State)

theorem leads {h cls : Nat} {type : BitVec 12} {bs : List Byte} {v : Bool} (known : tlvKnown type.toNat = true)
    (high : 3 < type.toNat) : ((packetLead (command h cls type bs v)).1 == type.toNat) = true := by
  rw [packetLead_command h cls bs v known high]
  exact beq_self_eq_true _

theorem queueConfiguration_command :
    exec (.queueConfiguration (command h cls 0x010 bs v)) s = .next (s.receiveTlv (command h cls 0x010 bs v)) :=
  whenDue_pos (by rw [packetLead_command h cls bs v rfl (by decide)]; rfl)
theorem submission_command :
    exec (.submission (command h cls 0x011 bs v)) s = .next (s.receiveTlv (command h cls 0x011 bs v)) :=
  whenDue_pos (leads rfl (by decide))
theorem budget_command : exec (.budget (command h cls 0x020 bs v)) s = .next (s.receiveTlv (command h cls 0x020 bs v)) :=
  whenDue_pos (leads rfl (by decide))
theorem peerReadmit_command :
    exec (.peerReadmit (command h cls 0x021 bs v)) s = .next (s.receiveTlv (command h cls 0x021 bs v)) :=
  whenDue_pos (leads rfl (by decide))
theorem selfTestOrder_command :
    exec (.selfTestOrder (command h cls 0x022 bs v)) s = .next (s.receiveTlv (command h cls 0x022 bs v)) :=
  whenDue_pos (leads rfl (by decide))
theorem fenceCommand_command :
    exec (.fenceCommand (command h cls 0x023 bs v)) s = .next (s.receiveTlv (command h cls 0x023 bs v)) :=
  whenDue_pos (leads rfl (by decide))
theorem translationInvalidate_command : exec (.translationInvalidate (.packet (command h cls 0x024 bs v))) s =
    .next (s.receiveTlv (command h cls 0x024 bs v)) :=
  whenDue_pos (leads rfl (by decide))
theorem spdm_command : exec (.spdm (command h cls 0x030 bs v)) s = .next (s.receiveTlv (command h cls 0x030 bs v)) :=
  whenDue_pos (leads rfl (by decide))
theorem counterRead_command :
    exec (.counterRead (command h cls 0x040 bs v)) s = .next (s.receiveTlv (command h cls 0x040 bs v)) :=
  whenDue_pos (leads rfl (by decide))
theorem crashRecordRead_command :
    exec (.crashRecordRead (command h cls 0x041 bs v)) s = .next (s.receiveTlv (command h cls 0x041 bs v)) :=
  whenDue_pos (leads rfl (by decide))
theorem imageChunk_command :
    exec (.imageChunk (command h cls 0x050 bs v)) s = .next (s.receiveTlv (command h cls 0x050 bs v)) :=
  whenDue_pos (leads rfl (by decide))
theorem handOverBegin_command :
    exec (.handOverBegin (command h cls 0x051 [1] v)) s = .next (s.receiveTlv (command h cls 0x051 [1] v)) :=
  whenDue_pos (by rw [packetLead_command h cls [1] v rfl (by decide)]; rfl)
theorem handOverCommit_command :
    exec (.handOverCommit (command h cls 0x051 [2] v)) s = .next (s.receiveTlv (command h cls 0x051 [2] v)) :=
  whenDue_pos (by rw [packetLead_command h cls [2] v rfl (by decide)]; rfl)
theorem handOverCancel_command :
    exec (.handOverCancel (command h cls 0x051 [3] v)) s = .next (s.receiveTlv (command h cls 0x051 [3] v)) :=
  whenDue_pos (by rw [packetLead_command h cls [3] v rfl (by decide)]; rfl)

/-- A packet led by another field is no occasion of a step. -/
theorem packets_otherwise (s : State) (p : TlvPacket) :
    ((packetLead p).1 ≠ 0x010 → (packetLead p).1 ≠ 0 → exec (.queueConfiguration p) s = .next s) ∧
    ((packetLead p).1 ≠ 0x011 → exec (.submission p) s = .next s) ∧
    ((packetLead p).1 ≠ 0x020 → exec (.budget p) s = .next s) ∧
    ((packetLead p).1 ≠ 0x021 → exec (.peerReadmit p) s = .next s) ∧
    ((packetLead p).1 ≠ 0x022 → exec (.selfTestOrder p) s = .next s) ∧
    ((packetLead p).1 ≠ 0x023 → exec (.fenceCommand p) s = .next s) ∧
    ((packetLead p).1 ≠ 0x024 → exec (.translationInvalidate (.packet p)) s = .next s) ∧
    ((packetLead p).1 ≠ 0x030 → exec (.spdm p) s = .next s) ∧
    ((packetLead p).1 ≠ 0x040 → exec (.counterRead p) s = .next s) ∧
    ((packetLead p).1 ≠ 0x041 → exec (.crashRecordRead p) s = .next s) ∧
    ((packetLead p).1 ≠ 0x050 → exec (.imageChunk p) s = .next s) ∧
    ((packetLead p).1 ≠ 0x051 ∨ (packetLead p).2 = [2] ∨ (packetLead p).2 = [3] → exec (.handOverBegin p) s = .next s) ∧
    (packetLead p ≠ (0x051, [2]) → exec (.handOverCommit p) s = .next s) ∧
    (packetLead p ≠ (0x051, [3]) → exec (.handOverCancel p) s = .next s) := by
  have skip {due : Bool} {t : State} (h : due = false) : whenDue due s t = .next s := whenDue_neg (by simp [h])
  have ne {n : Nat} (h : (packetLead p).1 ≠ n) : ((packetLead p).1 == n) = false := beq_eq_false_iff_ne.mpr h
  refine ⟨fun a b => skip (by rw [ne a, ne b]; rfl), fun a => skip (ne a), fun a => skip (ne a), fun a => skip (ne a),
    fun a => skip (ne a), fun a => skip (ne a), fun a => skip (ne a), fun a => skip (ne a), fun a => skip (ne a),
    fun a => skip (ne a), fun a => skip (ne a), fun a => skip ?_, fun a => skip (beq_eq_false_iff_ne.mpr a),
    fun a => skip (beq_eq_false_iff_ne.mpr a)⟩
  rcases a with a | a | a
  · rw [ne a]; rfl
  · rw [a]; simp
  · rw [a]; simp
end


/-! ### Queues -/

section
variable {h cls : Nat} {bs : List Byte} {v : Bool} {s : State}

theorem applyField_queue : s.applyField (command h cls 0x010 bs v) (outField 0x010 bs) = s.applyQueue (.host h) bs :=
  congrArg (s.applyQueue (.host h)) (fieldBytes_outField _ bs)

/-- A configuration whose fields are in range (Table 16.1). -/
def queueGood (bs : List Byte) : Prop :=
  bs.length = 29 ∧ fieldAt bs 0 1 < 64 ∧ bitField (fieldAt bs 1 28) 0 64 % 16 = 0 ∧
    (bitField (fieldAt bs 1 28) 64 5 = 0 ∨ (4 ≤ bitField (fieldAt bs 1 28) 64 5 ∧ bitField (fieldAt bs 1 28) 64 5 ≤ 20)) ∧
    bitField (fieldAt bs 1 28) 72 4 ≠ 0 ∧ bitField (fieldAt bs 1 28) 80 64 % 64 = 0
/-- A host may configure a queue for a partition (R230). -/
def State.mayQueue (s : State) (h q part : Nat) : Prop :=
  s.manages h = true ∨ (s.ownsPart h part = true ∧ ((s.queue q).enabled = false ∨ s.ownsPart h (s.queue q).part = true))
/-- The queue that a configuration leaves. -/
def Queue.configured (old : Queue) (x cycle : Nat) : Queue :=
  { base := BitVec.ofNat 64 (bitField x 0 64), log := bitField x 64 5, prio := bitField x 69 3, weight := bitField x 72 4,
    part := bitField x 76 4, status := BitVec.ofNat 64 (bitField x 80 64),
    peers := ((span 0 8).map fun n => bitField x (144 + 10 * n) 10).filter (· != 0x3FF),
    enabled := bitField x 64 5 != 0, dirty := true, wrote := cycle, ignored := old.ignored, rejected := old.rejected,
    work := old.work, copies := old.copies }

/-- The two tests of a configuration, as they are made. -/
def queueOk (bs : List Byte) : Bool :=
  bs.length == 29 && fieldAt bs 0 1 < 64 && bitField (fieldAt bs 1 28) 0 64 % 16 == 0 &&
    (bitField (fieldAt bs 1 28) 64 5 == 0 || (4 ≤ bitField (fieldAt bs 1 28) 64 5 && bitField (fieldAt bs 1 28) 64 5 ≤ 20)) &&
    bitField (fieldAt bs 1 28) 72 4 != 0 && bitField (fieldAt bs 1 28) 80 64 % 64 == 0
theorem queueOk_iff : queueOk bs = true ↔ queueGood bs := by
  simp only [queueOk, queueGood, Bool.and_eq_true, Bool.or_eq_true, beq_iff_eq, bne_iff_ne, decide_eq_true_eq, and_assoc, ne_eq]
def State.queueAdmitted (s : State) (h q part : Nat) : Bool :=
  s.mayOrder (.host h) fun h => s.ownsPart h part && (!(s.queue q).enabled || s.ownsPart h (s.queue q).part)
theorem State.queueAdmitted_iff {q part : Nat} : s.queueAdmitted h q part = true ↔ s.mayQueue h q part := by
  simp only [State.queueAdmitted, State.mayOrder, State.mayQueue, Bool.or_eq_true, Bool.and_eq_true, Bool.not_eq_true']

theorem not_of_iff {b : Bool} {p : Prop} (e : b = true ↔ p) (h : ¬p) : (!b) = true := by
  rw [Bool.not_eq_true']
  exact eq_false_of_ne_true (mt e.mp h)
theorem not_not_of_iff {b : Bool} {p : Prop} (e : b = true ↔ p) (h : p) : ¬(!b) = true := by
  rw [e.mpr h]
  exact Bool.false_ne_true

theorem applyQueue_bad (h : Nat) (bad : ¬queueGood bs) : s.applyQueue (.host h) bs = { s := s, status := 1 } :=
  if_pos (not_of_iff queueOk_iff bad)

theorem applyQueue_refused (good : queueGood bs) (may : ¬s.mayQueue h (fieldAt bs 0 1) (bitField (fieldAt bs 1 28) 76 4)) :
    s.applyQueue (.host h) bs = { s := s, status := 2 } :=
  (if_neg (not_not_of_iff queueOk_iff good)).trans (if_pos (not_of_iff State.queueAdmitted_iff may))

theorem applyQueue_done (good : queueGood bs) (may : s.mayQueue h (fieldAt bs 0 1) (bitField (fieldAt bs 1 28) 76 4)) :
    s.applyQueue (.host h) bs =
      { s := s.modQueue (fieldAt bs 0 1) fun _ => (s.queue (fieldAt bs 0 1)).configured (fieldAt bs 1 28) s.cycle } :=
  (if_neg (not_not_of_iff queueOk_iff good)).trans (if_neg (not_not_of_iff State.queueAdmitted_iff may))

theorem mem_configured_peers {old : Queue} {x cycle n : Nat} (hn : n < 8) (hp : bitField x (144 + 10 * n) 10 ≠ 0x3FF) :
    bitField x (144 + 10 * n) 10 ∈ (old.configured x cycle).peers :=
  List.mem_filter.mpr ⟨List.mem_map_of_mem ((mem_span 0 8 n).mpr ⟨Nat.zero_le n, by omega⟩), bne_iff_ne.mpr hp⟩

/-- What a configured queue holds. -/
theorem Queue.configured_spec {k old : Queue} {x cycle : Nat} (e : k = old.configured x cycle) :
    k.base = BitVec.ofNat 64 (bitField x 0 64) ∧ k.log = bitField x 64 5 ∧ k.prio = bitField x 69 3 ∧
      k.weight = bitField x 72 4 ∧ k.part = bitField x 76 4 ∧ k.status = BitVec.ofNat 64 (bitField x 80 64) ∧
      (k.enabled = true ↔ bitField x 64 5 ≠ 0) ∧ k.k = 0 ∧ k.head = 0 ∧ k.stopped = false ∧ k.work = old.work ∧
      ∀ n, n < 8 → bitField x (144 + 10 * n) 10 ≠ 0x3FF → bitField x (144 + 10 * n) 10 ∈ k.peers := by
  subst e
  exact ⟨rfl, rfl, rfl, rfl, rfl, rfl, bne_iff_ne, rfl, rfl, rfl, rfl, fun n hn hp => mem_configured_peers hn hp⟩

/-! ### Submissions -/

theorem applyField_submission : s.applyField (command h cls 0x011 bs v) (outField 0x011 bs) = s.applySubmission (.host h) bs :=
  congrArg (s.applySubmission (.host h)) (fieldBytes_outField _ bs)

/-- 1 to 64 entries for one of the 64 queues. -/
def submissionGood (bs : List Byte) : Prop :=
  bs.length = 1 + 16 * ((bs.length - 1) / 16) ∧ (bs.length - 1) / 16 ≠ 0 ∧ (bs.length - 1) / 16 ≤ 64 ∧ fieldAt bs 0 1 < 64

theorem applySubmission_bad (h : Nat) (bad : ¬submissionGood bs) : s.applySubmission (.host h) bs = { s := s, status := 1 } := by
  unfold State.applySubmission
  refine if_pos ?_
  unfold submissionGood at bad
  simp only [Bool.or_eq_true, bne_iff_ne, beq_iff_eq, decide_eq_true_eq]
  omega

theorem applySubmission_good (h : Nat) (good : submissionGood bs) :
    s.applySubmission (.host h) bs =
      if !s.ownsQueue h (fieldAt bs 0 1) then { s := s, status := 2 }
      else if !(s.queue (fieldAt bs 0 1)).enabled then { s := s, status := 1 }
      else
        match s.writeRing (.host h) (fieldAt bs 0 1) (s.queue (fieldAt bs 0 1)).k.toNat
          ((span 0 ((bs.length - 1) / 16)).map fun i => (bs.drop (1 + 16 * i)).take 16) with
        | .inl (some t) =>
          { s := t.kickTo (fieldAt bs 0 1) ((s.queue (fieldAt bs 0 1)).k + BitVec.ofNat 32 ((bs.length - 1) / 16)) }
        | .inl none => { s := s, status := 1 }
        | .inr w => { s := s, ask := some (s.partDie (s.queue (fieldAt bs 0 1)).part,
            s.senderSpace (.host h) (fieldAt bs 0 1), w) } := by
  unfold State.applySubmission
  refine (if_neg ?_).trans ?_
  · unfold submissionGood at good
    simp only [Bool.or_eq_true, bne_iff_ne, beq_iff_eq, decide_eq_true_eq]
    omega
  · rfl

section
variable (good : submissionGood bs)
include good

theorem applySubmission_unowned (owns : s.ownsQueue h (fieldAt bs 0 1) = false) :
    s.applySubmission (.host h) bs = { s := s, status := 2 } :=
  (applySubmission_good h good).trans (if_pos (by rw [owns]; rfl))

variable (owns : s.ownsQueue h (fieldAt bs 0 1) = true)
include owns

theorem applySubmission_disabled (off : (s.queue (fieldAt bs 0 1)).enabled = false) :
    s.applySubmission (.host h) bs = { s := s, status := 1 } :=
  (applySubmission_good h good).trans ((if_neg (by rw [owns]; decide)).trans (if_pos (by rw [off]; rfl)))

variable (on : (s.queue (fieldAt bs 0 1)).enabled = true)
include on

theorem applySubmission_written {u : State} (wrote : s.writeRing (.host h) (fieldAt bs 0 1) (s.queue (fieldAt bs 0 1)).k.toNat
      ((span 0 ((bs.length - 1) / 16)).map fun i => (bs.drop (1 + 16 * i)).take 16) = .inl (some u)) :
    s.applySubmission (.host h) bs =
      { s := u.kickTo (fieldAt bs 0 1) ((s.queue (fieldAt bs 0 1)).k + BitVec.ofNat 32 ((bs.length - 1) / 16)) } := by
  refine (applySubmission_good h good).trans ((if_neg (by rw [owns]; decide)).trans ((if_neg (by rw [on]; decide)).trans ?_))
  rw [wrote]

theorem applySubmission_dropped (dropped : s.writeRing (.host h) (fieldAt bs 0 1) (s.queue (fieldAt bs 0 1)).k.toNat
      ((span 0 ((bs.length - 1) / 16)).map fun i => (bs.drop (1 + 16 * i)).take 16) = .inl none) :
    s.applySubmission (.host h) bs = { s := s, status := 1 } := by
  refine (applySubmission_good h good).trans ((if_neg (by rw [owns]; decide)).trans ((if_neg (by rw [on]; decide)).trans ?_))
  rw [dropped]
end

/-! ### Budgets (R211) -/

theorem applyField_budget : s.applyField (command h cls 0x020 bs v) (outField 0x020 bs) = s.applyBudget (.host h) bs :=
  congrArg (s.applyBudget (.host h)) (fieldBytes_outField _ bs)

/-- An activity of Table 13.7, a control of 0 or 1, and a share that is a percentage. -/
def budgetGood (bs : List Byte) : Prop :=
  bs.length = 14 ∧ fieldAt bs 0 1 ≤ 6 ∧ fieldAt bs 5 1 ≤ 1 ∧ (fieldAt bs 5 1 = 0 → fieldAt bs 6 8 ≤ 100)

/-- The row that a budget sets, for an activity. -/
def State.newRow (s : State) (c : Nat) (expert : Bool) (amount a : Nat) : BudgetRow :=
  let row : BudgetRow :=
    { activity := a, consumer := c, expert := expert, amount := amount, left := 0,
      stalls := ((s.budgets.find? fun r => r.activity == a && r.consumer == c).map (·.stalls)).getD 0 }
  { row with left := s.grant row }
/-- One activity's budget is set; what the shares leave is divided anew. -/
def State.setBudget (c : Nat) (expert : Bool) (amount : Nat) (s : State) (a : Nat) : State :=
  { s with budgets := (s.budgets.filter fun r => !(r.activity == a && r.consumer == c) && !(r.implied && r.activity == a)) ++
      [s.newRow c expert amount a] }

theorem applyBudget_bad (h : Nat) (bad : ¬budgetGood bs) : s.applyBudget (.host h) bs = { s := s, status := 1 } := by
  unfold State.applyBudget
  refine if_pos ?_
  unfold budgetGood at bad
  simp only [Bool.or_eq_true, Bool.and_eq_true, decide_eq_true_eq, Bool.not_eq_true', beq_eq_false_iff_ne]
  omega

theorem budgetGood_passes (good : budgetGood bs) :
    ¬(bs.length ≠ 14 || fieldAt bs 0 1 > 6 || fieldAt bs 5 1 > 1 || (!(fieldAt bs 5 1 == 1) && fieldAt bs 6 8 > 100)) = true := by
  unfold budgetGood at good
  simp only [Bool.or_eq_true, Bool.and_eq_true, decide_eq_true_eq, Bool.not_eq_true', beq_eq_false_iff_ne]
  omega

theorem applyBudget_refused (good : budgetGood bs)
    (may : s.mayOrder (.host h) (s.ownsConsumer (fieldAt bs 0 1) (fieldAt bs 1 4)) = false) :
    s.applyBudget (.host h) bs = { s := s, status := 2 } := by
  unfold State.applyBudget
  exact (if_neg (budgetGood_passes good)).trans (if_pos (by rw [may]; rfl))

theorem applyBudget_done (good : budgetGood bs)
    (may : s.mayOrder (.host h) (s.ownsConsumer (fieldAt bs 0 1) (fieldAt bs 1 4)) = true) :
    s.applyBudget (.host h) bs =
      { s := List.foldl (State.setBudget (fieldAt bs 1 4) (fieldAt bs 5 1 == 1) (fieldAt bs 6 8)) s
          (if fieldAt bs 0 1 = 1 then [1, 7] else [fieldAt bs 0 1]) } := by
  unfold State.applyBudget
  exact (if_neg (budgetGood_passes good)).trans (if_neg (by rw [may]; decide))

section
variable {c amount : Nat} {expert : Bool}

theorem mem_setBudget (s : State) (a : Nat) (r : BudgetRow) :
    r ∈ (State.setBudget c expert amount s a).budgets ↔
      (r ∈ s.budgets ∧ (r.activity = a → r.consumer ≠ c ∧ r.implied = false)) ∨ r = s.newRow c expert amount a := by
  unfold State.setBudget
  simp only [List.mem_append, List.mem_filter, List.mem_singleton]
  refine or_congr_left (and_congr_right fun _ => ?_)
  by_cases ha : r.activity = a <;> simp [ha]

/-- UALink's budget is one for each direction. -/
theorem budgetActs_nodup (a : Nat) : (if a = 1 then [1, 7] else [a]).Nodup := by
  split
  · decide
  · exact List.nodup_singleton a

theorem foldl_setBudget_outside (acts : List Nat) (s : State) :
    acts.foldl (State.setBudget c expert amount) s =
      { s with budgets := (acts.foldl (State.setBudget c expert amount) s).budgets } :=
  List.foldlRecOn acts _ (motive := fun t : State => t = { s with budgets := t.budgets }) rfl fun t ht a _ =>
    congrArg (fun u : State => { u with budgets := (State.setBudget c expert amount t a).budgets }) ht

/-- Set budgets of other consumers stay. -/
theorem mem_foldl_setBudget_other {r : BudgetRow} (hr : r.implied = false) (acts : List Nat) (s : State)
    (other : r.activity ∈ acts → r.consumer ≠ c) :
    r ∈ (acts.foldl (State.setBudget c expert amount) s).budgets ↔ r ∈ s.budgets := by
  induction acts generalizing s with
  | nil => rfl
  | cons a acts ih =>
    have first : r ∈ (State.setBudget c expert amount s a).budgets ↔ r ∈ s.budgets := by
      rw [mem_setBudget]
      constructor
      · rintro (⟨old, -⟩ | rfl)
        · exact old
        · exact absurd rfl (other List.mem_cons_self)
      · exact fun old => .inl ⟨old, fun ha => ⟨other (ha ▸ List.mem_cons_self), hr⟩⟩
    exact (ih _ fun h => other (List.mem_cons_of_mem a h)).trans first

/-- The equal parts of what shares leave are divided anew. -/
theorem mem_foldl_setBudget_implied {r : BudgetRow} (hr : r.implied = true) (acts : List Nat) (s : State) :
    r ∈ (acts.foldl (State.setBudget c expert amount) s).budgets ↔ r ∈ s.budgets ∧ r.activity ∉ acts := by
  induction acts generalizing s with
  | nil => simp
  | cons a acts ih =>
    have first : r ∈ (State.setBudget c expert amount s a).budgets ↔ r ∈ s.budgets ∧ r.activity ≠ a := by
      rw [mem_setBudget]
      constructor
      · rintro (⟨old, kept⟩ | rfl)
        · exact ⟨old, fun ha => absurd hr (by simp [(kept ha).2])⟩
        · exact absurd hr Bool.false_ne_true
      · exact fun ⟨old, ha⟩ => .inl ⟨old, fun e => absurd e ha⟩
    rw [List.foldl_cons, ih, first, List.mem_cons, not_or, and_assoc]

/-- Each activity's row is set. -/
theorem foldl_setBudget_sets {acts : List Nat} (distinct : acts.Nodup) (s : State) {a : Nat} (ha : a ∈ acts) :
    ∃ r, r ∈ (acts.foldl (State.setBudget c expert amount) s).budgets ∧ r.activity = a ∧ r.consumer = c ∧ r.implied = false ∧
      r.expert = expert ∧ r.amount = amount ∧ r.left = s.grant r := by
  induction acts generalizing s with
  | nil => exact absurd ha List.not_mem_nil
  | cons b acts ih =>
    obtain ⟨fresh, distinct⟩ := List.nodup_cons.mp distinct
    rcases List.mem_cons.mp ha with rfl | ha
    · refine ⟨s.newRow c expert amount a, ?_, rfl, rfl, rfl, rfl, rfl, rfl⟩
      exact (mem_foldl_setBudget_other rfl acts _ fun h => absurd h fresh).mpr ((mem_setBudget s a _).mpr (.inr rfl))
    · exact ih distinct _ ha
end

/-! ### Peers, tests and fences -/

/-- A field alone, and the first of two. -/
theorem fieldAt_only {n x : Nat} (hx : x < 256 ^ n) : fieldAt (leBytes n x) 0 n = x := by
  have := fieldAt_leBytes (a := []) (c := []) rfl hx
  simpa using this
theorem fieldAt_first {n x : Nat} (hx : x < 256 ^ n) (c : List Byte) : fieldAt (leBytes n x ++ c) 0 n = x :=
  fieldAt_leBytes (a := []) rfl hx
theorem fieldAt_last {a : List Byte} {off n x : Nat} (ha : a.length = off) (hx : x < 256 ^ n) :
    fieldAt (a ++ leBytes n x) off n = x := by
  have := fieldAt_leBytes (c := []) ha hx
  simpa using this

theorem applyField_readmit : s.applyField (command h cls 0x021 bs v) (outField 0x021 bs) = s.applyReadmit bs :=
  congrArg s.applyReadmit (fieldBytes_outField _ bs)

/-- A peer is admitted again, and its link starts anew. -/
def State.readmitted (s : State) (n : Nat) : State :=
  { s.modPeer n fun r => { r with isolated := false, heard := s.cycle } with
    replay := s.replay.filter fun r => r.link != 16 + n % 8 }

theorem applyReadmit_done {n : Nat} (hn : n < 1024) : s.applyReadmit (leBytes 2 n) = { s := s.readmitted n } := by
  unfold State.applyReadmit
  rw [fieldAt_only (show n < 256 ^ 2 by omega)]
  exact if_neg (by simp [leBytes_length, hn])
theorem applyReadmit_bad {n : Nat} (hn : 1024 ≤ n) (fits : n < 65536) :
    s.applyReadmit (leBytes 2 n) = { s := s, status := 1 } := by
  unfold State.applyReadmit
  rw [fieldAt_only (show n < 256 ^ 2 from fits)]
  exact if_pos (by simp [hn])

theorem applyField_selfTest : s.applyField (command h cls 0x022 bs v) (outField 0x022 bs) = s.applySelfTest (.host h) bs :=
  congrArg (s.applySelfTest (.host h)) (fieldBytes_outField _ bs)
theorem applyField_fence : s.applyField (command h cls 0x023 bs v) (outField 0x023 bs) = s.applyFence (.host h) bs :=
  congrArg (s.applyFence (.host h)) (fieldBytes_outField _ bs)

theorem coreAndClasses_fields {c : Nat} (hc : c < Config.coreCount) (m : BitVec 28) :
    coreAndClasses (leBytes 2 c ++ leBytes 4 m.toNat) = some (c, m) := by
  have fits : c < 256 ^ 2 := lt_trans hc (by decide)
  unfold coreAndClasses
  rw [fieldAt_first fits, fieldAt_last (leBytes_length 2 c) (lt_trans m.isLt (by decide))]
  have len : (leBytes 2 c ++ leBytes 4 m.toNat).length = 6 := by rw [List.length_append, leBytes_length, leBytes_length]
  simp [len, hc, m.isLt]

theorem coreAndClasses_none (hl : bs.length ≠ 6) : coreAndClasses bs = none := by
  unfold coreAndClasses
  exact if_neg (by simp [hl])

theorem applySelfTest_bad (hl : bs.length ≠ 6) : s.applySelfTest (.host h) bs = { s := s, status := 1 } := by
  unfold State.applySelfTest
  rw [coreAndClasses_none hl]
theorem applyFence_bad (hl : bs.length ≠ 6) : s.applyFence (.host h) bs = { s := s, status := 1 } := by
  unfold State.applyFence
  rw [coreAndClasses_none hl]

theorem mayOrder_host {owns : Nat → Bool} : s.mayOrder (.host h) owns = true ↔ s.manages h = true ∨ owns h = true := by
  simp [State.mayOrder]

section
variable {c : Nat} {m : BitVec 28} (fields : coreAndClasses bs = some (c, m))
include fields

theorem applySelfTest_refused (may : ¬(s.manages h = true ∨ s.ownsCore c h = true)) :
    s.applySelfTest (.host h) bs = { s := s, status := 2 } := by
  unfold State.applySelfTest
  rw [fields]
  exact if_pos (not_of_iff mayOrder_host may)

theorem applyFence_refused (may : ¬(s.manages h = true ∨ s.ownsCore c h = true)) :
    s.applyFence (.host h) bs = { s := s, status := 2 } := by
  unfold State.applyFence
  rw [fields]
  exact if_neg (mt mayOrder_host.mp may)

theorem applyFence_done (may : s.manages h = true ∨ s.ownsCore c h = true) :
    s.applyFence (.host h) bs = { s := s.fence c m 3 } := by
  unfold State.applyFence
  rw [fields]
  exact if_pos (mayOrder_host.mpr may)

/-- A core that holds a task or a record, or is being tested. -/
def Core.engaged (k : Core) : Prop := k.task ≠ none ∨ k.inbox ≠ [] ∨ k.selfTest ≠ none ∨ k.saved ≠ none

omit fields in
theorem Core.engaged_iff (k : Core) :
    (k.task.isSome || k.inbox ≠ [] || k.selfTest.isSome || k.saved.isSome) = true ↔ k.engaged := by
  simp only [Core.engaged, Bool.or_eq_true, decide_eq_true_eq, Option.isSome_iff_ne_none, or_assoc]

theorem applySelfTest_busy (may : s.manages h = true ∨ s.ownsCore c h = true) (busy : (s.core c).engaged) :
    s.applySelfTest (.host h) bs = { s := s, status := 3 } := by
  unfold State.applySelfTest
  rw [fields]
  exact (if_neg (not_not_of_iff mayOrder_host may)).trans (if_pos ((s.core c).engaged_iff.mpr busy))

theorem applySelfTest_done (may : s.manages h = true ∨ s.ownsCore c h = true) (idle : ¬(s.core c).engaged) :
    s.applySelfTest (.host h) bs =
      { s := s.modCore c fun k => { k with selfTest := some { classes := m, cause := 3, since := s.cycle } } } := by
  unfold State.applySelfTest
  rw [fields]
  exact (if_neg (not_not_of_iff mayOrder_host may)).trans (if_neg (mt (s.core c).engaged_iff.mp idle))
end

theorem foldl_modCore_firmware (f : Firmware) (g : Core → Core) (cores : List Nat) (s : State) :
    cores.foldl (fun t m => t.modCore m g) ({ s with firmware := f } : State) =
      { cores.foldl (fun t m => t.modCore m g) s with firmware := f } := by
  induction cores generalizing s with
  | nil => rfl
  | cons m cores ih => exact ih (s.modCore m g)

theorem State.clearClasses_firmware (s : State) (f : Firmware) (c : Nat) (m : BitVec 28) :
    ({ s with firmware := f } : State).clearClasses c m = { s.clearClasses c m with firmware := f } := by
  rw [State.clearClasses_eq, State.clearClasses_eq]
  exact foldl_modCore_firmware f (fun k => k.withoutTensor (m &&& 0x3F0000)) (clusterCores (clusterOf c))
    (s.modCore c fun k => k.withoutClasses m)

theorem State.firmware_clearClasses (s : State) (c : Nat) (m : BitVec 28) : (s.clearClasses c m).firmware = s.firmware := by
  rw [State.clearClasses_eq]
  exact List.foldlRecOn _ _ (motive := fun t : State => t.firmware = s.firmware) rfl fun _ ht _ _ => ht

/-- A fence does not depend on the headers that are noted. -/
theorem State.fence_noteHeaders (s : State) (p : TlvPacket) (c : Nat) (m : BitVec 28) (cause : BitVec 3) :
    ∃ headers, (s.noteHeaders p).fence c m cause =
      { s.fence c m cause with firmware := { (s.fence c m cause).firmware with headers := headers } } := by
  refine ⟨(s.noteHeaders p).firmware.headers, ?_⟩
  unfold State.fence
  split
  · rfl
  · have noted : (s.noteHeaders p).clearClasses c m = { s.clearClasses c m with firmware := (s.noteHeaders p).firmware } :=
      s.clearClasses_firmware _ c m
    have own := s.firmware_clearClasses c m
    unfold State.writeFence State.modFirmware
    rw [noted, own]
    rfl

/-- A fence is listed. -/
theorem State.mem_fences_fence {c : Nat} {m : BitVec 28} (hm : m ≠ 0) (cause : BitVec 3) (s : State) :
    ∃ e, e ∈ (s.fence c m cause).firmware.fences ∧ e.core = c ∧ e.classes &&& m = m ∧ e.cause = cause := by
  have covers (x : BitVec 28) : (m ||| x) &&& m = m := by
    ext i
    simp
    intro a
    simp [a]
  unfold State.fence
  rw [if_neg hm]
  unfold State.writeFence State.modFirmware
  dsimp only
  split
  · next h =>
    obtain ⟨old, found⟩ := Option.isSome_iff_exists.mp h
    refine ⟨_, List.mem_map_of_mem (List.mem_of_find?_eq_some found), ?_⟩
    rw [if_pos (List.find?_some found)]
    exact ⟨rfl, covers _, rfl⟩
  · exact ⟨_, List.mem_append_right _ List.mem_cons_self, rfl, covers _, rfl⟩

/-! ### Reports, counters and crash records -/

theorem applyField_spdm : s.applyField (command h cls 0x030 bs v) (outField 0x030 bs) = s.applySpdm bs :=
  congrArg s.applySpdm (fieldBytes_outField _ bs)

/-- What an SPDM message is answered. -/
def State.spdmReply (s : State) (bs : List Byte) : List Byte :=
  if fieldAt bs 1 1 = 0xE0 then [0x13, 0x60, 0, 0] ++ s.firmware.report else Config.spdmAnswer bs

theorem applySpdm_bad (bad : ¬(4 ≤ bs.length ∧ fieldAt bs 0 1 = 0x13)) : s.applySpdm bs = { s := s, status := 1 } := by
  unfold State.applySpdm
  refine if_pos ?_
  simp only [Bool.or_eq_true, decide_eq_true_eq]
  omega
theorem applySpdm_done (good : 4 ≤ bs.length ∧ fieldAt bs 0 1 = 0x13) :
    s.applySpdm bs = { s := s, reply := [outField 0x030 (s.spdmReply bs)] } := by
  unfold State.applySpdm State.spdmReply
  refine (if_neg ?_).trans ?_
  · simp only [Bool.or_eq_true, decide_eq_true_eq]
    omega
  · split
    · rfl
    · rfl

theorem applyField_counter : s.applyField (command h cls 0x040 bs v) (outField 0x040 bs) = s.applyCounter bs :=
  congrArg s.applyCounter (fieldBytes_outField _ bs)

theorem applyCounter_done {kind index : Nat} (hk : kind < 2 ^ 16) (hi : index < 2 ^ 32) :
    s.applyCounter (leBytes 2 kind ++ leBytes 4 index) = { s := s, reply := [outField 0x040
      (leBytes 8 (Tab.get 0 s.firmware.counters (countKey kind index) : BitVec 64).toNat)] } := by
  have len : (leBytes 2 kind ++ leBytes 4 index).length = 6 := by rw [List.length_append, leBytes_length, leBytes_length]
  unfold State.applyCounter
  rw [fieldAt_first (show kind < 256 ^ 2 from hk), fieldAt_last (leBytes_length 2 kind) (show index < 256 ^ 4 from hi)]
  exact if_neg (not_not.mpr len)

theorem applyField_crash : s.applyField (command h cls 0x041 bs v) (outField 0x041 bs) = s.applyCrash bs :=
  congrArg s.applyCrash (fieldBytes_outField _ bs)

theorem applyCrash_waits {slot : Nat} (hs : slot < 256) (parked : s.channelParked (crashAt slot) = true) :
    s.applyCrash (leBytes 1 slot) = { s := s, wait := true } := by
  unfold State.applyCrash
  rw [fieldAt_only (show slot < 256 ^ 1 from hs)]
  exact (if_neg (not_not.mpr (leBytes_length 1 slot))).trans (if_pos parked)
theorem applyCrash_done {slot : Nat} (hs : slot < 256) (parked : s.channelParked (crashAt slot) = false) :
    s.applyCrash (leBytes 1 slot) = { s := s, reply := [outField 0x041 (s.dram.read (crashAt slot) 4096)] } := by
  unfold State.applyCrash
  rw [fieldAt_only (show slot < 256 ^ 1 from hs)]
  exact (if_neg (not_not.mpr (leBytes_length 1 slot))).trans (if_neg (ne_true_of_eq_false parked))

/-! ### Images and the hand-over (R245) -/

theorem applyField_chunk : s.applyField (command h cls 0x050 bs v) (outField 0x050 bs) = s.applyChunk bs v :=
  congrArg (s.applyChunk · v) (fieldBytes_outField _ bs)

/-- The firmware with a chunk of the incoming image, which may be the last. -/
def Firmware.withChunk (f : Firmware) (off : Nat) (data : List Byte) (verifies : Bool) : Firmware :=
  let g := { f with image := f.image.write off data, imageLen := max f.imageLen (off + data.length) }
  if verifies then { g with handOver := .pending, started := false } else g

theorem applyChunk_bad {off : Nat} {data : List Byte} (bad : ¬(s.firmware.started = true ∧ data.length ≤ 61440)) :
    s.applyChunk (leBytes 4 off ++ data) v = { s := s, status := 1 } := by
  have len : (leBytes 4 off ++ data).length = 4 + data.length := by rw [List.length_append, leBytes_length]
  unfold State.applyChunk
  refine if_pos ?_
  rw [len]
  rcases not_and_or.mp bad with e | e
  · simp [e]
  · simp only [Bool.or_eq_true, decide_eq_true_eq]
    omega
theorem applyChunk_done {off : Nat} {data : List Byte} (ho : off < 2 ^ 32)
    (good : s.firmware.started = true ∧ data.length ≤ 61440) :
    s.applyChunk (leBytes 4 off ++ data) v = { s := { s with firmware := s.firmware.withChunk off data v } } := by
  obtain ⟨started, short⟩ := good
  have len : (leBytes 4 off ++ data).length = 4 + data.length := by rw [List.length_append, leBytes_length]
  have rest : (leBytes 4 off ++ data).drop 4 = data := List.drop_left' (leBytes_length 4 off)
  unfold State.applyChunk
  refine (if_neg ?_).trans ?_
  · rw [len, started]
    simp
    omega
  · rw [fieldAt_first (show off < 256 ^ 4 from ho), rest]
    rfl

theorem applyField_handOver : s.applyField (command h cls 0x051 bs v) (outField 0x051 bs) = s.applyHandOver bs :=
  congrArg s.applyHandOver (fieldBytes_outField _ bs)

theorem applyHandOver_begins : s.applyHandOver [1] = { s :=
    { s with firmware := { s.firmware with handOver := .none, image := [], imageLen := 0, started := true } } } := rfl
theorem applyHandOver_commits (pending : s.firmware.handOver = .pending) : s.applyHandOver [2] = { s :=
    { s with firmware := { s.firmware with handOver := .committed, running := s.firmware.incoming, image := [], imageLen := 0 } } } :=
  if_pos pending
theorem applyHandOver_idle (idle : s.firmware.handOver ≠ .pending) : s.applyHandOver [2] = { s := s, status := 1 } :=
  if_neg idle
theorem applyHandOver_cancels : s.applyHandOver [3] = { s :=
    { s with firmware := { s.firmware with image := [], imageLen := 0, started := false,
                                           handOver := if s.firmware.handOver = .committed then .committed else .none } } } := rfl

/-! ### Invalidations (R68) -/

theorem applyField_invalidate : s.applyField (command h cls 0x024 bs v) (outField 0x024 bs) = s.applyInvalidate (.host h) bs :=
  congrArg (s.applyInvalidate (.host h)) (fieldBytes_outField _ bs)

/-- The fields of an order to invalidate a domain's translations, all or of a range. -/
def OrdersRange (bs : List Byte) (odi : Nat) (range : Option (Nat × Nat)) : Prop :=
  (bs = leBytes 1 odi ∧ range = none) ∨ ∃ a b, a < 2 ^ 64 ∧ b < 2 ^ 64 ∧ range = some (a, b) ∧
    bs = leBytes 1 odi ++ leBytes 8 a ++ leBytes 8 b

theorem OrdersRange.fields {odi : Nat} {range : Option (Nat × Nat)} (ho : odi < 16) (h : OrdersRange bs odi range) :
    (bs.length = 1 ∨ bs.length = 17) ∧ fieldAt bs 0 1 = odi ∧
      (if bs.length = 1 then none else some (fieldAt bs 1 8, fieldAt bs 9 8)) = range := by
  have fits : odi < 256 ^ 1 := by omega
  obtain ⟨rfl, rfl⟩ | ⟨a, b, ha, hb, rfl, rfl⟩ := h
  · exact ⟨.inl (leBytes_length 1 odi), fieldAt_only fits, if_pos (leBytes_length 1 odi)⟩
  · have len : (leBytes 1 odi ++ leBytes 8 a ++ leBytes 8 b).length = 17 := by
      simp only [List.length_append, leBytes_length]
    have first : fieldAt (leBytes 1 odi ++ leBytes 8 a ++ leBytes 8 b) 0 1 = odi := by
      rw [List.append_assoc]
      exact fieldAt_first fits _
    refine ⟨.inr len, first, ?_⟩
    rw [len, fieldAt_leBytes (leBytes_length 1 odi) (show a < 256 ^ 8 from ha),
      fieldAt_last (by rw [List.length_append, leBytes_length, leBytes_length]) (show b < 256 ^ 8 from hb)]
    rfl

section
variable {odi : Nat} {range : Option (Nat × Nat)} (ho : odi < 16) (fields : OrdersRange bs odi range)
include ho fields

theorem applyInvalidate_passes : ¬((bs.length ≠ 1 && bs.length ≠ 17) || fieldAt bs 0 1 ≥ 16) = true := by
  obtain ⟨len, first, -⟩ := fields.fields ho
  rw [first]
  simp only [Bool.or_eq_true, Bool.and_eq_true, decide_eq_true_eq]
  omega

theorem applyInvalidate_refused (may : ¬(s.manages h = true ∨ s.ownsDomain odi h = true)) :
    s.applyInvalidate (.host h) bs = { s := s, status := 2 } := by
  have first := (fields.fields ho).2.1
  unfold State.applyInvalidate
  refine (if_neg (applyInvalidate_passes ho fields)).trans (if_pos ?_)
  rw [first]
  exact not_of_iff mayOrder_host may

theorem applyInvalidate_begins (may : s.manages h = true ∨ s.ownsDomain odi h = true) :
    s.applyInvalidate (.host h) bs =
      { s := s.beginInvalidation odi range (.host (.host h) 0 0 []), later := true } := by
  obtain ⟨-, first, is⟩ := fields.fields ho
  unfold State.applyInvalidate
  refine (if_neg (applyInvalidate_passes ho fields)).trans ((if_neg ?_).trans ?_)
  · rw [first]
    exact not_not_of_iff mayOrder_host may
  · rw [first]
    exact congrArg (fun r => ({ s := s.beginInvalidation odi r (.host (.host h) 0 0 []), later := true } : Applied)) is
end

end


/-- An invalidation has begun. -/
def State.Begun (s t : State) (odi : Nat) (range : Option (Nat × Nat)) (asked : InvFor) : Prop :=
  (∃ i, t.invs = s.invs ++ [i] ∧ i.id = s.nextNum ∧ i.odi = odi ∧ i.range = range ∧ i.asked = asked ∧
    s.WaitsFor odi range i.waits) ∧
  (∀ c, (t.core c).micro = (s.core c).micro.filter fun x => !x.dropped odi range) ∧
  (∀ n, (t.cluster n).cache = (s.cluster n).cache.filter fun x => !x.dropped odi range) ∧
  ∀ n, (t.die n).cache = (s.die n).cache.filter fun x => !x.dropped odi range

theorem State.begins (s : State) (odi : Nat) (range : Option (Nat × Nat)) (asked : InvFor) :
    s.Begun (s.beginInvalidation odi range asked) odi range asked := by
  refine ⟨s.beginInvalidation_inv odi range asked, fun c => ?_, fun n => ?_, fun n => ?_⟩
  · rw [State.beginInvalidation_core]
  · rw [State.beginInvalidation_cluster]
  · rw [State.beginInvalidation_die]

theorem replaceWhere_last {α : Type} {p : α → Bool} {l : List α} {a : α} (hl : ∀ b, b ∈ l → p b = false) (ha : p a = true)
    (f : α → α) : replaceWhere p f (l ++ [a]) = l ++ [f a] := by
  have kept : l.map (fun b => if p b then f b else b) = l :=
    (List.map_congr_left fun b hb => if_neg (ne_true_of_eq_false (hl b hb))).trans l.map_id
  unfold replaceWhere
  rw [List.map_append, kept, List.map_singleton, if_pos ha]

/-- An invalidation ordered by a packet is the packet's to answer; those that began before stay as they are. -/
theorem State.begins_deferred {s : State} {p : TlvPacket} {odi h : Nat} {range : Option (Nat × Nat)} {asked : InvFor}
    (hp : PlainPacket p h 1) (older : ∀ i, i ∈ s.invs → i.id < s.nextNum) (more : List TlvField) :
    s.Begun ((s.beginInvalidation odi range asked).replyLater p s.nextNum more) odi range
      (.host (.host h) 1 s.nextNum (replyFields p 0 more)) := by
  obtain ⟨⟨i, invs, name, domain, ranges, -, waits⟩, micro, caches, dies⟩ := s.begins odi range asked
  refine ⟨⟨{ i with asked := .host (.host h) 1 s.nextNum (replyFields p 0 more) }, ?_, name, domain, ranges, rfl, waits⟩,
    micro, caches, dies⟩
  show replaceWhere _ _ (s.beginInvalidation odi range asked).invs = _
  rw [invs, hp.sender, hp.cls]
  exact replaceWhere_last (fun j hj => decide_eq_false (Nat.not_le.mpr (older j hj))) (decide_eq_true name.ge) _

/-- Bilrok writes one entry of a table. -/
theorem State.writeTables_entry (s : State) (pa : Nat) (w : Word) :
    let t := s.writeTables [(pa, w)]
    t.dram = s.dram.write pa (bytesOf 8 w) ∧ t.dramBad = Tab.set false s.dramBad (pa / 64) false ∧
      t.dies = s.dies.map fun e => (e.1, { e.2 with bad := e.2.bad.filter (· != pa / 64) }) := by
  intro t
  obtain ⟨net, replies, replay, f, fires, -⟩ := fireMonitors_spec
    { s with dram := s.dram.write pa (bytesOf 8 w), dramBad := Tab.set false s.dramBad (pa / 64) false,
             dies := s.dies.map fun e => (e.1, { e.2 with bad := e.2.bad.filter (· != pa / 64) }) } (.channel (channelOf pa))
  have is : t = _ := fires
  rw [is]
  exact ⟨rfl, rfl, rfl⟩

theorem translationInvalidate_bilrok (odi : Nat) (range : Option (Nat × Nat)) (pa : Nat) (w : Word) {s : State}
    (wf : s.dram.wf = true) :
    (s.channelParked pa = true → exec (.translationInvalidate (.bilrok odi range [(pa, w)])) s = .next s) ∧
    (s.channelParked pa = false → ∃ t, exec (.translationInvalidate (.bilrok odi range [(pa, w)])) s = .next t ∧
      (s.writeTables [(pa, w)]).Begun t odi range .firmware ∧ t.dram.read pa 8 = bytesOf 8 w ∧
      (∀ a, a < pa ∨ pa + 8 ≤ a → t.dram.byte a = s.dram.byte a) ∧ Tab.get false t.dramBad (pa / 64) = false ∧
      ∀ n, pa / 64 ∉ (t.die n).bad) := by
  have free : s.tablesFree [(pa, w)] = !s.channelParked pa := Bool.and_true _
  refine ⟨fun parked => whenDue_neg ?_, fun parked => ⟨_, whenDue_pos ?_, State.begins _ _ _ _, ?_⟩⟩
  · rw [free, parked]
    exact Bool.false_ne_true
  · rw [free, parked]
    rfl
  · obtain ⟨dram, bad, dies⟩ := s.writeTables_entry pa w
    have len : (bytesOf 8 w).length = 8 := leBytes_length 8 _
    refine ⟨?_, fun a ha => ?_, ?_, fun n hn => ?_⟩
    · show (s.writeTables [(pa, w)]).dram.read pa 8 = _
      rw [dram]
      have := Memory.read_write pa (bytesOf 8 w) wf
      rwa [len] at this
    · show (s.writeTables [(pa, w)]).dram.byte a = _
      rw [dram]
      rcases ha with ha | ha
      · exact Memory.byte_write_below pa a _ wf ha
      · exact Memory.byte_write_above pa a _ wf (by rwa [len])
    · show Tab.get false (s.writeTables [(pa, w)]).dramBad (pa / 64) = false
      rw [bad, Tab.get_set_any, if_pos rfl]
    · rw [State.beginInvalidation_die] at hn
      have entry : ((s.writeTables [(pa, w)]).die n).bad = (s.die n).bad.filter (· != pa / 64) := by
        unfold State.die
        rw [dies, Tab.get_map ({} : Die) ({} : Die) (fun _ d => { d with bad := d.bad.filter (· != pa / 64) }) s.dies n rfl]
      have hn : pa / 64 ∈ ((s.writeTables [(pa, w)]).die n).bad := hn
      rw [entry] at hn
      simp at hn

/-! ### The obligation -/

/-- A packet of its class alone is answered, and nothing is applied. -/
theorem queueConfiguration_bare {s : State} {h cls : Nat} (hh : h ∈ s.hostsToTell) (hc : s.hostClass cls) (v : Bool) :
    ∃ t, exec (.queueConfiguration { sender := .host h, fields := [outField 0x001 (leBytes 1 cls)], verifies := v }) s = .next t ∧
      s.Answered t h cls 0 [] := by
  let p : TlvPacket := { sender := .host h, fields := [outField 0x001 (leBytes 1 cls)], verifies := v }
  have plain : PlainPacket p h cls := ⟨rfl, packetClass_lead rfl (State.hostClass_lt hc), rfl⟩
  have good : p.fields.any fieldBad = false := by simp [p, fieldBad_class]
  have received := receiveTlv_checked s p plain.cls good (State.classAdmitted_host hh hc)
  obtain ⟨b, sent⟩ := State.received_replies plain s (s.noteHeaders p) []
  refine ⟨_, whenDue_pos rfl, ?_⟩
  rw [received]
  exact (congrArg (fun t => s.Answered t h cls 0 []) sent).mpr (State.answered_replied rfl 0 [] b)

/-- Settles O55: a packet is received in one way, and each command's field by its own lemma. -/
theorem packets : Obligations.Packets := by
  unfold Obligations.Packets
  refine ⟨packets_otherwise, fun s h v hh => ⟨fun cls hc => ?_, ?_, ?_, ?_, ?_, ?_, ?_, ?_, ?_, ?_, ?_, ?_, ?_, ?_⟩⟩
  · exact queueConfiguration_bare hh (hc.imp_right .inl) v
  · intro bs q x old good part may
    let u := s.noteHeaders (command h 1 0x010 bs v)
    have comes : Comes h 1 0x010 := ⟨rfl, by decide, rfl⟩
    have step := queueConfiguration_command h 1 bs v s
    refine ⟨fun hg hm => ?_, fun hg hm => ?_, fun hg => ?_, _, queueConfiguration_command .., ?_⟩
    · exact State.command_rejected hh (.inl rfl) comes step (by decide)
        (applyField_queue.trans (applyQueue_refused (s := u) hg hm))
    · obtain ⟨b, sent⟩ := State.command_applied hh (.inl rfl) comes step
        (applyField_queue.trans (applyQueue_done (s := u) hg hm))
      exact ⟨_, sent, State.answered_replied rfl 0 [] b, fun m hm => Tab.get_put_ne ({} : Queue) s.queues q m _ hm,
        Queue.configured_spec (Tab.get_put_self ({} : Queue) s.queues q (old.configured x s.cycle))⟩
    · exact State.command_rejected hh (.inl rfl) comes step (by decide) (applyField_queue.trans (applyQueue_bad h hg))
    · exact State.receiveTlv_misplaced bs v hh (.inr (.inl rfl)) rfl (by decide) rfl
  · intro bs service q k n p good entries
    have hc : s.hostClass 3 := .inr (.inr ⟨rfl, service⟩)
    let u := s.noteHeaders p
    have comes : Comes h 3 0x011 := ⟨rfl, by decide, rfl⟩
    have step := submission_command h 3 bs v s
    refine ⟨fun hg => ?_, fun hg owns => ?_, fun hg owns off => ?_, fun hg owns on => ⟨fun r wrote => ?_, fun dropped => ?_⟩⟩
    · exact State.command_rejected hh hc comes step (by decide) (applyField_submission.trans (applySubmission_bad h hg))
    · exact State.command_rejected hh hc comes step (by decide)
        (applyField_submission.trans (applySubmission_unowned (s := u) hg owns))
    · exact State.command_rejected hh hc comes step (by decide)
        (applyField_submission.trans (applySubmission_disabled (s := u) hg owns off))
    · exact State.command_answered hh hc comes step
        (applyField_submission.trans (applySubmission_written (s := u) hg owns on wrote))
        (State.with_own_firmware _)
    · exact State.command_rejected hh hc comes step (by decide)
        (applyField_submission.trans (applySubmission_dropped (s := u) hg owns on dropped))
  · intro bs good acts c may
    let u := s.noteHeaders (command h 1 0x020 bs v)
    have comes : Comes h 1 0x020 := ⟨rfl, by decide, rfl⟩
    have step := budget_command h 1 bs v s
    refine ⟨fun hg hm => ?_, fun hg hm => ?_, fun hg => ?_⟩
    · exact State.command_rejected hh (.inl rfl) comes step (by decide)
        (applyField_budget.trans (applyBudget_refused (s := u) hg (eq_false_of_ne_true (mt mayOrder_host.mp hm))))
    · obtain ⟨b, sent⟩ := State.command_applied hh (.inl rfl) comes step
        (applyField_budget.trans (applyBudget_done (s := u) hg (mayOrder_host.mpr hm)))
      rw [foldl_setBudget_outside] at sent
      exact ⟨_, _, sent, State.answered_replied rfl 0 [] b, fun a ha => foldl_setBudget_sets (budgetActs_nodup _) u ha,
        fun r hr other => mem_foldl_setBudget_other hr acts u other, fun r hr => mem_foldl_setBudget_implied hr acts u⟩
    · exact State.command_rejected hh (.inl rfl) comes step (by decide) (applyField_budget.trans (applyBudget_bad h hg))
  · intro n fits
    let u := s.noteHeaders (command h 1 0x021 (leBytes 2 n) v)
    have comes : Comes h 1 0x021 := ⟨rfl, by decide, rfl⟩
    have step := peerReadmit_command h 1 (leBytes 2 n) v s
    refine ⟨fun hn => ?_, fun hn => ?_⟩
    · obtain ⟨b, sent⟩ := State.command_applied hh (.inl rfl) comes step
        (applyField_readmit.trans (applyReadmit_done (s := u) hn))
      have own : (u.readmitted n).peer n = { s.peer n with isolated := false, heard := s.cycle } :=
        Tab.get_put_self ({} : Peer) s.peers n _
      exact ⟨_, sent, State.answered_replied rfl 0 [] b, congrArg Peer.isolated own, congrArg Peer.heard own,
        fun m hm => Tab.get_put_ne ({} : Peer) s.peers n m _ hm⟩
    · exact State.command_rejected hh (.inl rfl) comes step (by decide) (applyField_readmit.trans (applyReadmit_bad hn fits))
  · intro c m hc bs k busy may
    have fields : coreAndClasses bs = some (c, m) := coreAndClasses_fields hc m
    let u := s.noteHeaders (command h 1 0x022 bs v)
    let w := s.noteHeaders (command h 1 0x023 bs v)
    have tests : Comes h 1 0x022 := ⟨rfl, by decide, rfl⟩
    have fences : Comes h 1 0x023 := ⟨rfl, by decide, rfl⟩
    have test := selfTestOrder_command h 1 bs v s
    have fence := fenceCommand_command h 1 bs v s
    refine ⟨fun hm => ⟨?_, ?_⟩, fun hm hb => ?_, fun hm hb => ?_, fun hm => ?_⟩
    · exact State.command_rejected hh (.inl rfl) tests test (by decide)
        (applyField_selfTest.trans (applySelfTest_refused (s := u) fields hm))
    · exact State.command_rejected hh (.inl rfl) fences fence (by decide)
        (applyField_fence.trans (applyFence_refused (s := w) fields hm))
    · exact State.command_rejected hh (.inl rfl) tests test (by decide)
        (applyField_selfTest.trans (applySelfTest_busy (s := u) fields hm hb))
    · obtain ⟨b, sent⟩ := State.command_applied hh (.inl rfl) tests test
        (applyField_selfTest.trans (applySelfTest_done (s := u) fields hm hb))
      exact ⟨_, sent, State.answered_replied rfl 0 [] b, fun x hx => Tab.get_put_ne ({} : Core) s.cores c x _ hx,
        Tab.get_put_self ({} : Core) s.cores c _⟩
    · obtain ⟨b, sent⟩ := State.command_applied hh (.inl rfl) fences fence
        (applyField_fence.trans (applyFence_done (s := w) fields hm))
      obtain ⟨headers, noted⟩ := s.fence_noteHeaders (command h 1 0x023 bs v) c m 3
      obtain ⟨cap, shared, cleared, bits⟩ := w.core_fence c m 3
      exact ⟨_, sent, State.answered_replied noted 0 [] b,
        fun n hn => (congrArg (fun k : Core => k.cap.getLsbD n) cleared).trans (bits n hn), fun hm => w.mem_fences_fence hm 3⟩
  · intro bs hl
    exact ⟨State.command_rejected hh (.inl rfl) ⟨rfl, by decide, rfl⟩ (selfTestOrder_command h 1 bs v s) (by decide)
        (applyField_selfTest.trans (applySelfTest_bad hl)),
      State.command_rejected hh (.inl rfl) ⟨rfl, by decide, rfl⟩ (fenceCommand_command h 1 bs v s) (by decide)
        (applyField_fence.trans (applyFence_bad hl))⟩
  · intro bs odi range ho older fields begun p may
    let u := s.noteHeaders p
    have comes : Comes h 1 0x024 := ⟨rfl, by decide, rfl⟩
    have step := translationInvalidate_command h 1 bs v s
    refine ⟨fun hm => ?_, fun hm => ?_, fun pa w wf => translationInvalidate_bilrok odi range pa w wf⟩
    · exact State.command_rejected hh (.inl rfl) comes step (by decide)
        (applyField_invalidate.trans (applyInvalidate_refused (s := u) ho fields hm))
    · have received := (State.receiveTlv_command bs v hh (.inl rfl) comes.known comes.high comes.admitted).trans
        (congrArg _ (applyField_invalidate.trans (applyInvalidate_begins (s := u) ho fields hm)))
      exact ⟨_, step.trans (congrArg _ received), rfl,
        State.begins_deferred (s := u) (command_plain h bs v (by decide) (by decide)) older []⟩
  · intro bs good answer
    let u := s.noteHeaders (command h 2 0x030 bs v)
    have comes : Comes h 2 0x030 := ⟨rfl, by decide, rfl⟩
    have step := spdm_command h 2 bs v s
    exact ⟨fun hg => State.command_answered hh (.inr (.inl rfl)) comes step
        (applyField_spdm.trans (applySpdm_done (s := u) hg)) rfl,
      fun hg => State.command_rejected hh (.inr (.inl rfl)) comes step (by decide) (applyField_spdm.trans (applySpdm_bad hg))⟩
  · intro kind index hk hi
    exact State.command_answered hh (.inl rfl) ⟨rfl, by decide, rfl⟩ (counterRead_command h 1 _ v s)
      (applyField_counter.trans (applyCounter_done hk hi)) rfl
  · intro slot hs parked
    have received := (State.receiveTlv_command (leBytes 1 slot) v hh (.inl rfl) (type := 0x041) rfl (by decide) rfl).trans
      (congrArg _ (applyField_crash.trans (applyCrash_waits (s := s.noteHeaders _) hs parked)))
    exact (crashRecordRead_command ..).trans (congrArg _ received)
  · intro slot hs parked
    exact State.command_answered hh (.inl rfl) ⟨rfl, by decide, rfl⟩ (crashRecordRead_command h 1 _ v s)
      (applyField_crash.trans (applyCrash_done hs parked)) rfl
  · intro off data ho good f g g'
    let u := s.noteHeaders (command h 1 0x050 (leBytes 4 off ++ data) v)
    have comes : Comes h 1 0x050 := ⟨rfl, by decide, rfl⟩
    have step := imageChunk_command h 1 (leBytes 4 off ++ data) v s
    refine ⟨fun hg => ?_, fun hg => ?_⟩
    · have chunk := (applyField_chunk (h := h) (cls := 1) (v := v)).trans (applyChunk_done (s := u) ho hg)
      cases v with
      | true => exact State.command_answered hh (.inl rfl) comes step chunk rfl
      | false => exact State.command_answered hh (.inl rfl) comes step chunk rfl
    · exact State.command_rejected hh (.inl rfl) comes step (by decide)
        (applyField_chunk.trans (applyChunk_bad (s := u) hg))
  · intro f begun committed cancelled
    have comes : Comes h 1 0x051 := ⟨rfl, by decide, rfl⟩
    exact ⟨State.command_answered hh (.inl rfl) comes (handOverBegin_command h 1 v s)
        (applyField_handOver.trans applyHandOver_begins) rfl,
      fun pending => State.command_answered hh (.inl rfl) comes (handOverCommit_command h 1 v s)
        (applyField_handOver.trans (applyHandOver_commits pending)) rfl,
      fun idle => State.command_rejected hh (.inl rfl) comes (handOverCommit_command h 1 v s) (by decide)
        (applyField_handOver.trans (applyHandOver_idle (s := s.noteHeaders _) idle)),
      State.command_answered hh (.inl rfl) comes (handOverCancel_command h 1 v s)
        (applyField_handOver.trans applyHandOver_cancels) rfl⟩

end Sys2Proof.Machine
end

section
/-! O43: HOME_ACCESS_PERFORM. -/
namespace Sys2Proof.Machine

theorem exec_homeAccessPerform (a : HomeArrival) (s : State) :
    exec (.homeAccessPerform a) s = execHomeAccessPerform a s := rfl

/-- The port of the home has served the packet in this cycle. -/
def State.reached (s : State) (p : Packet) : State := s.arriveAt p.home (s.rankOf p)

/-- The state that a packet has left, with the slots that its request held. -/
def State.without (s : State) (p : Packet) : State :=
  { s with net := s.net.filter (·.id != p.id),
           replay := s.replay.filter fun r => r.packet != p.id || r.kind != .request || r.lost.isSome }

/-- A packet under way has been answered: it has left, and one reply has joined. -/
def State.Responded (s t : State) (p : Packet) (a : Answer) (data : List Byte) (bad : Bool) : Prop :=
  (∀ q, q ∈ t.net ↔ q ∈ s.net ∧ q.id ≠ p.id) ∧
    ∃ r, t.replies = s.replies ++ [r] ∧ r.packet = p ∧ r.answer = a ∧ r.data = data ∧ r.poison = bad

section
variable {s u : State} {p : Packet} {a : Answer} {data : List Byte} {bad : Bool}

theorem homeAccessPerform_notNext (found : s.net.find? (fun q => q.id == p.id) = some p)
    (held : s.nextAtHome p = false) : exec (.homeAccessPerform ⟨p.id, none⟩) s = .next s := by
  rw [exec_homeAccessPerform, execHomeAccessPerform, found]
  exact congrArg Host.Outcome.next (if_neg (ne_true_of_eq_false held))

theorem homeAccessPerform_next (found : s.net.find? (fun q => q.id == p.id) = some p)
    (next : s.nextAtHome p = true) :
    exec (.homeAccessPerform ⟨p.id, none⟩) s = .next ((s.reached p).perform p) := by
  rw [exec_homeAccessPerform, execHomeAccessPerform, found]
  exact congrArg Host.Outcome.next (if_pos next)

/-- Answering the packet that has left is all that happens to what is under way. -/
theorem State.responded_answerWith (rel : Option (Release × Bool)) (net : u.net = s.net.filter (·.id != p.id))
    (replies : u.replies = s.replies) : s.Responded (u.answerWith p a data bad rel) p a data bad := by
  have net' : (u.answerWith p a data bad rel).net = u.net := rfl
  have replies' : (u.answerWith p a data bad rel).replies = u.replies ++
      [{ packet := p, answer := a, data := data, poison := bad, release := rel }] := rfl
  refine ⟨fun q => ?_, _, by rw [replies', replies], rfl, rfl, rfl, rfl⟩
  rw [net', net, List.mem_filter, bne_iff_ne]

theorem State.responded_answer (rel : Option Release) (net : u.net = s.net.filter (·.id != p.id))
    (replies : u.replies = s.replies) : s.Responded (u.answer p a data bad rel) p a data bad :=
  State.responded_answerWith _ net replies

/-- What an answer leaves unchanged. -/
theorem State.answer_frame (u : State) (rel : Option Release) :
    (u.answer p a data bad rel).cores = u.cores ∧ (u.answer p a data bad rel).clusters = u.clusters ∧
      (u.answer p a data bad rel).dram = u.dram ∧ ∀ h, (u.answer p a data bad rel).storeAt h = u.storeAt h :=
  ⟨rfl, rfl, rfl, fun h => by cases h <;> rfl⟩

/-- A drop that is counted and answered. -/
theorem State.responded_dropped (u : State) (p : Packet) :
    let t := ((u.without p).countDropped p.act p.home).answer p .dropped (List.replicate p.act.size 0) true none
    u.Responded t p .dropped (List.replicate p.act.size 0) true ∧ t.cores = u.cores ∧ t.clusters = u.clusters :=
  ⟨State.responded_answer none rfl rfl, rfl, rfl⟩

/-! ### Main memory -/

/-- Where no packet is armed no monitor fires. -/
theorem State.fireMonitors_unarmed (h : Home) (free : ∀ q, q ∈ s.net → q.armed = none) : s.fireMonitors h = s := by
  have none_armed : (s.net.filter fun p => p.home == h && p.armed == some true) = [] := by
    refine List.filter_eq_nil_iff.mpr fun q hq armed => ?_
    rw [free q hq] at armed
    simp at armed
  rw [State.fireMonitors, none_armed]
  rfl

/-- A byte of a masked merge: the data's bits under the mask, and the bits found elsewhere. -/
theorem mergeBytes_getD (os ds ms : List Byte) (j : Nat) (hd : ds.length = os.length) (hm : ms.length = os.length)
    (hj : j < os.length) :
    (mergeBytes os ds ms).getD j 0 = (ds.getD j 0 &&& ms.getD j 0) ||| (os.getD j 0 &&& ~~~(ms.getD j 0)) := by
  induction os generalizing ds ms j with
  | nil => cases hj
  | cons o os ih =>
    cases ds with
    | nil => cases hd
    | cons d ds =>
      cases ms with
      | nil => cases hm
      | cons m ms =>
        unfold mergeBytes
        cases j with
        | zero => rfl
        | succ j =>
          simp only [List.getD_cons_succ]
          exact ih ds ms j (by simpa using hd) (by simpa using hm) (by simpa using hj)

/-- A mask without bits leaves what it finds. -/
theorem mergeBytes_clear (os ds : List Byte) (n : Nat) : mergeBytes os ds (List.replicate n 0) = os := by
  induction os generalizing ds n with
  | nil => unfold mergeBytes; rfl
  | cons o os ih =>
    cases ds with
    | nil => unfold mergeBytes; rfl
    | cons d ds =>
      cases n with
      | zero => unfold mergeBytes; rfl
      | succ n =>
        rw [List.replicate_succ]
        unfold mergeBytes
        rw [ih]
        congr 1
        exact (congrArg₂ (· ||| ·) BitVec.and_zero (BitVec.and_allOnes (x := o))).trans BitVec.zero_or

theorem span_eq_range' (a n : Nat) : span a n = List.range' a n := by
  induction n generalizing a with
  | zero => rfl
  | succ n ih => rw [span, List.range'_succ, ih]

theorem nodup_span (a n : Nat) : (span a n).Nodup := by
  rw [span_eq_range']
  exact List.nodup_range'

/-- A byte of a stretch of memory. -/
theorem Memory.getD_read (m : Memory) (a n : Nat) {j : Nat} (hj : j < n) : (m.read a n).getD j 0 = m.byte (a + j) := by
  rw [← map_byte_span, List.getD_eq_getElem?_getD, List.getElem?_map, span_getElem?, if_pos hj]
  rfl

theorem Memory.length_read (m : Memory) (a n : Nat) : (m.read a n).length = n := by
  rw [← map_byte_span, List.length_map, span_length]

/-- The bytes of a stretch that has been written over. -/
theorem read_putBytes {unit : Nat} {m : Memory} {marks : Tab Bool} {rels : Tab (Option Release)} (a n : Nat)
    (data mask : List Byte) (poison : Bool) (rel : Option Release) (hm : m.wf = true) :
    (putBytes unit m marks rels (span a n) data mask poison rel).1.read a n = mergeBytes (m.read a n) data mask := by
  have len : (mergeBytes ((span a n).map m.byte) data mask).length = (span a n).length := by
    rw [mergeBytes_length, List.length_map]
  rw [← map_byte_span, ← map_byte_span]
  exact writeBytes_map hm (nodup_span a n) len

/-- No other byte is written. -/
theorem byte_putBytes_outside {unit : Nat} {m : Memory} {marks : Tab Bool} {rels : Tab (Option Release)} (a n : Nat)
    (data mask : List Byte) (poison : Bool) (rel : Option Release) (hm : m.wf = true) {x : Nat}
    (hx : x < a ∨ a + n ≤ x) :
    (putBytes unit m marks rels (span a n) data mask poison rel).1.byte x = m.byte x := by
  refine writeBytes_ne hm fun inside => ?_
  obtain ⟨low, high⟩ := (mem_span _ _ _).mp inside
  omega

end

section
variable {u : State} {p : Packet} {ch pa odi : Nat} {act : Act} {bad : Bool} {rel : Option Release}

/-- What is found in main memory, and what a write of it leaves. -/
theorem State.actDram_owned (own : u.owned odi pa = true) (free : ∀ q, q ∈ u.net → q.armed = none) :
    ∃ old marks rels mem, u.actDram odi pa act bad rel =
        ({ u with dram := mem, dramBad := marks, releases := rels }, u.dram.read pa act.size,
          ((span pa act.size).any fun a => Tab.get false u.dramBad (a / 64)), old) ∧
      mem = match act.writes (u.dram.read pa act.size)
            ((span pa act.size).any fun a => Tab.get false u.dramBad (a / 64)) bad with
        | none => u.dram
        | some w => (putBytes 64 u.dram u.dramBad u.releases (span pa act.size) w.1 w.2.1 w.2.2 rel).1 := by
  unfold State.actDram
  dsimp only
  rw [own, map_byte_span]
  cases act.writes (u.dram.read pa act.size)
      ((span pa act.size).any fun a => Tab.get false u.dramBad (a / 64)) bad with
  | none => exact ⟨_, _, _, _, rfl, rfl⟩
  | some w =>
    have still : ∀ mem marks rels, ({ u with dram := mem, dramBad := marks, releases := rels }).fireMonitors
        (.channel (channelOf pa)) = { u with dram := mem, dramBad := marks, releases := rels } :=
      fun _ _ _ => State.fireMonitors_unarmed _ free
    exact ⟨_, _, _, _, Prod.ext (still _ _ _) rfl, rfl⟩

/-- An access to main memory other than WAITA is the act there, answered. -/
theorem State.perform_channel (home : p.home = .channel ch) (at' : p.pa = some pa) (act : ∀ old t, p.act ≠ .watch old t) :
    u.perform p =
      let r := (u.without p).actDram p.odi pa p.act p.poison p.releaseOf
      r.1.answer p (if u.owned p.odi pa then .done else .dropped) r.2.1 r.2.2.1 r.2.2.2 := by
  unfold State.perform
  rw [home, at']
  dsimp only [Option.getD]
  split
  · next old t e => exact absurd e (act old t)
  · rfl

/-- Under the owner's domain: the answer carries what was found, and main memory what the act writes over it. -/
theorem State.perform_owned (home : p.home = .channel ch) (at' : p.pa = some pa) (own : u.owned p.odi pa = true)
    (free : ∀ q, q ∈ u.net → q.armed = none) (act : ∀ old t, p.act ≠ .watch old t) :
    let found := u.dram.read pa p.act.size
    let poison := (span pa p.act.size).any fun a => Tab.get false u.dramBad (a / 64)
    u.Responded (u.perform p) p .done found poison ∧ (u.perform p).cores = u.cores ∧
      (u.perform p).clusters = u.clusters ∧
      (u.perform p).dram = match p.act.writes found poison p.poison with
        | none => u.dram
        | some w => (putBytes 64 u.dram u.dramBad u.releases (span pa p.act.size) w.1 w.2.1 w.2.2 p.releaseOf).1 := by
  have free' : ∀ q, q ∈ (u.without p).net → q.armed = none := fun q hq => free q (List.mem_filter.mp hq).1
  obtain ⟨old, marks, rels, mem, acted, left⟩ := State.actDram_owned (u := u.without p) (odi := p.odi) (pa := pa)
    (act := p.act) (bad := p.poison) (rel := p.releaseOf) own free'
  rw [State.perform_channel home at' act, acted, own]
  exact ⟨State.responded_answer _ rfl rfl, rfl, rfl, left⟩

/-- Under another domain nothing is written and zeros marked poisoned come back (R72). -/
theorem State.perform_disowned (home : p.home = .channel ch) (at' : p.pa = some pa) (own : u.owned p.odi pa = false)
    (act : ∀ old t, p.act ≠ .watch old t) :
    (u.perform p).dram = u.dram ∧ (u.perform p).cores = u.cores ∧ (u.perform p).clusters = u.clusters ∧
      u.Responded (u.perform p) p .dropped (List.replicate p.act.size 0) true := by
  have acted : (u.without p).actDram p.odi pa p.act p.poison p.releaseOf =
      ((u.without p).countMismatch p.act (.channel (channelOf pa)), List.replicate p.act.size 0, true, none) := by
    have own' : (u.without p).owned p.odi pa = false := own
    rw [State.actDram, own']
    rfl
  rw [State.perform_channel home at' act, acted, own]
  exact ⟨rfl, rfl, rfl, State.responded_answer _ rfl rfl⟩

end

/-! ### On chip -/

/-- The home is local memory or a scratchpad. -/
def Home.onChip (h : Home) : Prop := (∀ ch, h ≠ .channel ch) ∧ ∀ id, h ≠ .peer id

/-- A request of a core for a killed core's local memory, or of a copy engine. -/
def State.lostAt (s : State) (p : Packet) : Bool :=
  decide (chipLevel p.loc = 0) && (s.core (namedCore p.core p.loc)).killed && (p.op.isSome || p.engine)

/-- A remote request that the firmware column or the windows of the core that its location names refuse. -/
def State.refusedAt (s : State) (p : Packet) : Bool :=
  let c := namedCore p.core p.loc
  !p.isLocal && (s.firewalled p c || !(s.columnInbox c (chipHandle p.loc) ||
    (s.core c).admits p.core (chipLevel p.loc) (chipHandle p.loc) (s.wants p)))

section
variable {u : State} {p : Packet}

theorem State.lostAt_iff : u.lostAt p = true ↔ chipLevel p.loc = 0 ∧ (u.core (namedCore p.core p.loc)).killed = true ∧
    (p.op.isSome = true ∨ p.engine = true) := by
  simp [State.lostAt, and_assoc]

theorem State.refusedAt_iff : u.refusedAt p = true ↔ p.isLocal = false ∧
    (u.firewalled p (namedCore p.core p.loc) = true ∨
      (u.columnInbox (namedCore p.core p.loc) (chipHandle p.loc) = false ∧
        (u.core (namedCore p.core p.loc)).admits p.core (chipLevel p.loc) (chipHandle p.loc) (u.wants p) = false)) := by
  simp [State.refusedAt]

/-- What an on-chip home does with a request, by its checks in order. -/
theorem State.perform_onChip (chip : p.home.onChip) :
    u.perform p =
      if u.lostAt p then
        (if p.engine then u.without p
          else (u.without p).notifyKill p.core (namedCore p.core p.loc) (u.core (namedCore p.core p.loc)).tsk
            (u.core (namedCore p.core p.loc)).killCause).answer p .lost (List.replicate p.act.size 0) true none
      else if u.refusedAt p then
        (if p.row.isSome then (u.without p).countDropped p.act p.home else u.without p).answer p .nack [] false none
      else match u.tileOf p with
        | none => ((u.without p).countDropped p.act p.home).answer p .dropped (List.replicate p.act.size 0) true none
        | some t => match p.act with
          | .watch old timeout => match u.watched p with
            | some w => if w.1 != old then u.endWatch p w else u.arm p timeout
            | none => ((u.without p).countDropped p.act p.home).answer p .dropped (List.replicate p.act.size 0) true none
          | a =>
            let r := ((u.without p).traceStore p).actChip p.home
              (t.physAll (chipLevel p.loc) (p.rot.getD t.rot) (chipOff p.loc) p.act.size) a p.poison p.releaseOf
            r.1.answer p .done r.2.1 r.2.2.1 r.2.2.2 := by
  obtain ⟨noChannel, noPeer⟩ := chip
  unfold State.perform
  cases home : p.home with
  | peer id => exact absurd home (noPeer id)
  | channel ch => exact absurd home (noChannel ch)
  | localMem c => rfl
  | scratch n => rfl

theorem State.notifyKill_frame (s : State) (dst killed : Nat) (tsk : BitVec 32) (cause : Word) :
    (s.notifyKill dst killed tsk cause).net = s.net ∧ (s.notifyKill dst killed tsk cause).replies = s.replies := by
  unfold State.notifyKill
  split
  · exact ⟨rfl, rfl⟩
  · exact ⟨rfl, rfl⟩

/-- A request for a killed core's local memory, or a copy engine's, comes back lost. -/
theorem State.perform_lost (chip : p.home.onChip) (lost : u.lostAt p = true) :
    u.Responded (u.perform p) p .lost (List.replicate p.act.size 0) true := by
  rw [State.perform_onChip chip, if_pos lost]
  split
  · exact State.responded_answer none rfl rfl
  · obtain ⟨net, replies⟩ := (u.without p).notifyKill_frame p.core (namedCore p.core p.loc)
      (u.core (namedCore p.core p.loc)).tsk (u.core (namedCore p.core p.loc)).killCause
    exact State.responded_answer none net replies

/-- A request that no window admits is refused. -/
theorem State.perform_refused (chip : p.home.onChip) (lost : u.lostAt p = false) (refused : u.refusedAt p = true) :
    u.Responded (u.perform p) p .nack [] false ∧ (u.perform p).cores = u.cores ∧
      (u.perform p).clusters = u.clusters := by
  rw [State.perform_onChip chip, if_neg (ne_true_of_eq_false lost), if_pos refused]
  split
  · exact ⟨State.responded_answer none rfl rfl, rfl, rfl⟩
  · exact ⟨State.responded_answer none rfl rfl, rfl, rfl⟩

/-- A request whose handle is gone, of another generation or too small is dropped. -/
theorem State.perform_dropped (chip : p.home.onChip) (lost : u.lostAt p = false) (refused : u.refusedAt p = false)
    (gone : u.tileOf p = none) :
    u.Responded (u.perform p) p .dropped (List.replicate p.act.size 0) true ∧ (u.perform p).cores = u.cores ∧
      (u.perform p).clusters = u.clusters := by
  rw [State.perform_onChip chip, if_neg (ne_true_of_eq_false lost), if_neg (ne_true_of_eq_false refused), gone]
  exact u.responded_dropped p

/-! ### Stores of homes -/

theorem State.storeAt_modCore (s : State) (c : Nat) {f : Core → Core} (keeps : ∀ k, (f k).store = k.store) (h : Home) :
    (s.modCore c f).storeAt h = s.storeAt h := by
  cases h with
  | localMem d =>
    show ((s.modCore c f).core d).store = (s.core d).store
    rw [State.core_modCore]
    split
    · next same => rw [same, keeps]
    · rfl
  | scratch n => rfl
  | channel ch => rfl
  | peer id => rfl

theorem State.storeAt_modCluster (s : State) (n : Nat) {f : Cluster → Cluster} (keeps : ∀ k, (f k).store = k.store)
    (h : Home) : (s.modCluster n f).storeAt h = s.storeAt h := by
  cases h with
  | scratch m =>
    show ((s.modCluster n f).cluster m).store = (s.cluster m).store
    by_cases same : m = n
    · rw [same, State.cluster_modCluster_self, keeps]
    · rw [State.cluster_modCluster_ne _ _ _ _ same]
  | localMem c => rfl
  | channel ch => rfl
  | peer id => rfl

theorem State.setStore_frame (s : State) (h : Home) (m : Store) :
    (s.setStore h m).net = s.net ∧ (s.setStore h m).replies = s.replies := by
  cases h <;> exact ⟨rfl, rfl⟩

theorem State.storeAt_setStore_same (s : State) {h : Home} (chip : h.onChip) (m : Store) :
    (s.setStore h m).storeAt h = m := by
  obtain ⟨noChannel, noPeer⟩ := chip
  cases h with
  | localMem c => exact congrArg Core.store (s.core_modCore_self c _)
  | scratch n => exact congrArg Cluster.store (s.cluster_modCluster_self n _)
  | channel ch => exact absurd rfl (noChannel ch)
  | peer id => exact absurd rfl (noPeer id)

theorem State.storeAt_setStore_ne (s : State) {h g : Home} (other : g ≠ h) (m : Store) :
    (s.setStore h m).storeAt g = s.storeAt g := by
  cases h with
  | localMem c =>
    cases g with
    | localMem d =>
      exact congrArg Core.store (s.core_modCore_ne c d _ fun same => other (congrArg Home.localMem same))
    | _ => rfl
  | scratch n =>
    cases g with
    | scratch m =>
      exact congrArg Cluster.store (s.cluster_modCluster_ne n m _ fun same => other (congrArg Home.scratch same))
    | _ => rfl
  | channel ch => rfl
  | peer id => rfl

/-- The trace ring is all that recording a remote store changes. -/
theorem State.traceStore_frame (s : State) (p : Packet) :
    (s.traceStore p).net = s.net ∧ (s.traceStore p).replies = s.replies ∧
      ∀ h, (s.traceStore p).storeAt h = s.storeAt h := by
  unfold State.traceStore
  split
  · split
    · exact ⟨rfl, rfl, fun _ => rfl⟩
    · unfold State.traceAt
      dsimp only
      split
      · exact ⟨rfl, rfl, fun _ => rfl⟩
      · split
        · exact ⟨rfl, rfl, State.storeAt_modCore _ _ fun _ => rfl⟩
        · exact ⟨rfl, rfl, State.storeAt_modCluster _ _ fun _ => rfl⟩
  · exact ⟨rfl, rfl, fun _ => rfl⟩

/-! ### The bytes of a handle -/

/-- A request that reaches its handle is the act on its bytes, answered. -/
theorem State.perform_handle (chip : p.home.onChip) (lost : u.lostAt p = false) (refused : u.refusedAt p = false)
    {e : TileEntry} (tile : u.tileOf p = some e) (act : ∀ old t, p.act ≠ .watch old t) :
    u.perform p =
      let r := ((u.without p).traceStore p).actChip p.home
        (e.physAll (chipLevel p.loc) (p.rot.getD e.rot) (chipOff p.loc) p.act.size) p.act p.poison p.releaseOf
      r.1.answer p .done r.2.1 r.2.2.1 r.2.2.2 := by
  rw [State.perform_onChip chip, if_neg (ne_true_of_eq_false lost), if_neg (ne_true_of_eq_false refused), tile]
  dsimp only
  split
  · next old t watch => exact absurd watch (act old t)
  · rfl

theorem State.perform_handle_read (chip : p.home.onChip) (lost : u.lostAt p = false) (refused : u.refusedAt p = false)
    {e : TileEntry} (tile : u.tileOf p = some e) {n : Nat} (act : p.act = .read n) :
    let found := (u.storeAt p.home).load (e.physAll (chipLevel p.loc) (p.rot.getD e.rot) (chipOff p.loc) p.act.size)
    (u.perform p).storeAt p.home = u.storeAt p.home ∧ u.Responded (u.perform p) p .done found.1 found.2 := by
  obtain ⟨net, replies, store⟩ := (u.without p).traceStore_frame p
  rw [State.perform_handle chip lost refused tile fun old t => by rw [act]; exact Act.noConfusion]
  generalize e.physAll (chipLevel p.loc) (p.rot.getD e.rot) (chipOff p.loc) p.act.size = offs
  rw [act, State.actChip, store]
  exact ⟨store p.home, State.responded_answer _ net replies⟩

/-- What an unmasked write leaves of the bytes of a store. -/
theorem Store.putBytes_unmasked {m : Store} {offs : List Nat} {data : List Byte} (ok : m.ok = true)
    (len : offs.length = data.length) (distinct : offs.Nodup) (bad : Bool) (rel : Option Release) :
    let new := putBytes 8 m.bytes m.poison m.releases offs data (fullMask [] data.length) bad rel
    offs.map new.1.byte = data ∧ ∀ a, a ∉ offs → new.1.byte a = m.bytes.byte a := by
  obtain ⟨wf, marks, rels⟩ := (Store.ok_iff _).mp ok
  obtain ⟨-, -, -, outside, inside, -⟩ := putBytes_spec (unit := 8) (offs := offs) (data := data)
    (mask := fullMask [] data.length) (poison := bad) (rel := rel) wf marks rels
  have full : mergeBytes (offs.map m.bytes.byte) data (fullMask [] data.length) = data :=
    mergeBytes_full _ _ (by rw [List.length_map, len])
  exact ⟨(inside distinct).trans full, outside⟩

/-- An unmasked write at offsets of an on-chip store. -/
theorem State.actChip_write {v : State} {h : Home} {offs : List Nat} {act : Act} {data : List Byte} (bad : Bool)
    (rel : Option Release) (write : act = .write data []) (free : ∀ q, q ∈ (v.net) → q.armed = none) (ok : (v.storeAt h).ok = true)
    (len : offs.length = data.length) (distinct : offs.Nodup) :
    ∃ old m, v.actChip h offs act bad rel =
        (v.setStore h m, ((v.storeAt h).load offs).1, ((v.storeAt h).load offs).2, old) ∧
      offs.map m.bytes.byte = data ∧ ∀ a, a ∉ offs → m.bytes.byte a = (v.storeAt h).bytes.byte a := by
  subst write
  obtain ⟨inside, outside⟩ := Store.putBytes_unmasked ok len distinct bad rel
  have still : ∀ m, (v.setStore h m).fireMonitors h = v.setStore h m := fun m =>
    State.fireMonitors_unarmed h fun q hq => free q (by cases h <;> exact hq)
  exact ⟨_, _, Prod.ext (still _) rfl, inside, outside⟩

/-- An unmasked write replaces the bytes of the handle and no others. -/
theorem State.perform_handle_write (chip : p.home.onChip) (lost : u.lostAt p = false) (refused : u.refusedAt p = false)
    {e : TileEntry} (tile : u.tileOf p = some e) {data : List Byte} (act : p.act = .write data [])
    (free : ∀ q, q ∈ u.net → q.armed = none) (ok : (u.storeAt p.home).ok = true) :
    let offs := e.physAll (chipLevel p.loc) (p.rot.getD e.rot) (chipOff p.loc) p.act.size
    let found := (u.storeAt p.home).load offs
    offs.Nodup → u.Responded (u.perform p) p .done found.1 found.2 ∧
      offs.map ((u.perform p).storeAt p.home).bytes.byte = data ∧
      (∀ a, a ∉ offs → ((u.perform p).storeAt p.home).bytes.byte a = (u.storeAt p.home).bytes.byte a) ∧
      ∀ h, h ≠ p.home → (u.perform p).storeAt h = u.storeAt h := by
  intro offs found distinct
  obtain ⟨net, replies, store⟩ := (u.without p).traceStore_frame p
  have len : offs.length = data.length := (length_physAll ..).trans (congrArg Act.size act)
  have free' : ∀ q, q ∈ ((u.without p).traceStore p).net → q.armed = none := fun q hq => by
    rw [net] at hq
    exact free q (List.mem_filter.mp hq).1
  obtain ⟨old, m, acted, inside, outside⟩ := State.actChip_write (h := p.home) p.poison p.releaseOf act free'
    (by rw [store]; exact ok) len distinct
  rw [store] at acted outside
  have performed : u.perform p = (((u.without p).traceStore p).setStore p.home m).answer p .done found.1 found.2 old :=
    (State.perform_handle chip lost refused tile fun old t => by rw [act]; exact Act.noConfusion).trans
      (congrArg (fun r => State.answer r.1 p .done r.2.1 r.2.2.1 r.2.2.2) acted)
  have stored (h : Home) : (u.perform p).storeAt h = (((u.without p).traceStore p).setStore p.home m).storeAt h := by
    rw [performed]
    exact (State.answer_frame _ old).2.2.2 h
  rw [stored, State.storeAt_setStore_same _ chip]
  refine ⟨?_, inside, outside, fun h other => ?_⟩
  · rw [performed]
    exact State.responded_answer old ((State.setStore_frame _ _ _).1.trans net) ((State.setStore_frame _ _ _).2.trans replies)
  · rw [stored, State.storeAt_setStore_ne _ other]
    exact store h

/-! ### WAITA -/

/-- What is watched is there, so a request of the own core for it is admitted. -/
theorem State.tileOf_of_watched (at' : p.pa = none) (whole : p.whole = none) {old : Word} {time : Nat}
    (act : p.act = .watch old time) {w : Word × Bool × Option Release} (watched : u.watched p = some w) :
    ∃ e, u.tileOf p = some e := by
  rw [State.watched, at'] at watched
  obtain ⟨e, tile, -⟩ := Option.map_eq_some_iff.mp watched
  rw [State.tileOf, whole, act]
  exact ⟨e, tile⟩

theorem State.perform_watch (chip : p.home.onChip) (alive : (u.core (namedCore p.core p.loc)).killed = false)
    (own : p.isLocal = true) (at' : p.pa = none) (whole : p.whole = none) {old : Word} {time : Nat}
    (act : p.act = .watch old time) {w : Word × Bool × Option Release} (watched : u.watched p = some w) :
    u.perform p = if w.1 != old then u.endWatch p w else u.arm p time := by
  obtain ⟨e, tile⟩ := State.tileOf_of_watched at' whole act watched
  have lost : u.lostAt p = false := by rw [State.lostAt, alive, Bool.and_false, Bool.false_and]
  have refused : u.refusedAt p = false := by rw [State.refusedAt, own]; rfl
  rw [State.perform_onChip chip, if_neg (ne_true_of_eq_false lost), if_neg (ne_true_of_eq_false refused), tile, act,
    watched]

/-- A WAITA that is armed stays under way with its time limit. -/
theorem State.arm_keeps (under : p ∈ u.net) (time : Nat) :
    ∃ q, q ∈ (u.arm p time).net ∧ q.id = p.id ∧ q.armed ≠ none ∧
      q.timeout = (if time = 0 then 0 else u.cycle + time) ∧ (u.arm p time).replies = u.replies ∧
      (u.arm p time).cores = u.cores := by
  refine ⟨_, List.mem_map_of_mem under, ?_, ?_, ?_, rfl, rfl⟩
  all_goals rw [if_pos (beq_self_eq_true p.id)]
  exact Option.some_ne_none _

end

/-! ### The statement -/

section
variable {s : State} {p : Packet} {ch pa : Nat}

/-- A masked write of main memory. -/
theorem State.perform_owned_write (home : p.home = .channel ch) (at' : p.pa = some pa)
    (own : s.owned p.odi pa = true) (free : ∀ q, q ∈ s.net → q.armed = none) (wf : s.dram.wf = true)
    {data mask : List Byte} (act : p.act = .write data mask) (masked : mask = [] ∨ mask.length = data.length) :
    let t := s.perform p
    t.cores = s.cores ∧ t.clusters = s.clusters ∧
      s.Responded t p .done (s.dram.read pa p.act.size) ((span pa p.act.size).any fun a => Tab.get false s.dramBad (a / 64)) ∧
      (∀ a, a < pa ∨ pa + data.length ≤ a → t.dram.byte a = s.dram.byte a) ∧
      ∀ j, j < data.length → t.dram.byte (pa + j) =
        if mask = [] then data.getD j 0
        else (data.getD j 0 &&& mask.getD j 0) ||| (s.dram.byte (pa + j) &&& ~~~(mask.getD j 0)) := by
  intro t
  obtain ⟨responded, cores, clusters, dram⟩ := State.perform_owned home at' own free fun old time => by
    rw [act]; exact Act.noConfusion
  rw [act] at dram
  dsimp only [Act.writes, Act.size] at dram
  have len : (s.dram.read pa data.length).length = data.length := Memory.length_read ..
  refine ⟨cores, clusters, responded, fun a outside => ?_, fun j hj => ?_⟩
  · rw [dram]
    exact byte_putBytes_outside _ _ _ _ _ _ wf outside
  · rw [← Memory.getD_read _ pa data.length hj, dram, read_putBytes _ _ _ _ _ _ wf]
    by_cases plain : mask = []
    · rw [if_pos plain, fullMask, if_pos plain, mergeBytes_full _ _ len.symm]
    · have full : mask.length = data.length := masked.resolve_left plain
      rw [if_neg plain, fullMask, if_neg plain, mergeBytes_getD _ _ _ _ len.symm (full.trans len.symm) (len.symm ▸ hj),
        Memory.getD_read _ _ _ hj]

/-- An atomic of main memory: what it writes over the word it finds, or nothing when its compare fails. -/
theorem State.perform_owned_atomic (home : p.home = .channel ch) (at' : p.pa = some pa)
    (own : s.owned p.odi pa = true) (free : ∀ q, q ∈ s.net → q.armed = none) (wf : s.dram.wf = true)
    {op n : Nat} {v e : Word} (act : p.act = .atomic op n v e) :
    (s.perform p).dram.read pa n =
      ((atomicNew op n (leNat (s.dram.read pa n)) (v.toNat % 2 ^ (8 * n)) (e.toNat % 2 ^ (8 * n))).map (leBytes n)).getD
        (s.dram.read pa n) := by
  obtain ⟨-, -, -, dram⟩ := State.perform_owned home at' own free fun old time => by rw [act]; exact Act.noConfusion
  rw [act] at dram
  dsimp only [Act.writes, Act.size] at dram
  have len : (s.dram.read pa n).length = n := Memory.length_read ..
  rw [dram]
  cases new : atomicNew op n (leNat (s.dram.read pa n)) (v.toNat % 2 ^ (8 * n)) (e.toNat % 2 ^ (8 * n)) with
  | none =>
    dsimp only
    rw [read_putBytes _ _ _ _ _ _ wf]
    exact mergeBytes_clear _ _ _
  | some y =>
    dsimp only
    rw [read_putBytes _ _ _ _ _ _ wf]
    have full := mergeBytes_full (s.dram.read pa n) (leBytes n y) ((leBytes_length n y).trans len.symm)
    rw [leBytes_length] at full
    exact full

end

/-- Settles O43: by the branches of the home's act, main memory first, then its checks on chip in their order. -/
theorem homePerforms : Obligations.HomePerforms := by
  intro s p found done
  have under : p ∈ s.net := List.mem_of_find?_eq_some found
  refine ⟨homeAccessPerform_notNext found, fun next free wf ch pa home at' => ?_, fun next free noChannel noPeer => ?_,
    fun next old time w act at' noPeer noChannel alive own whole watched => ?_⟩
  · have step := homeAccessPerform_next found next
    refine ⟨fun own => ⟨fun n act => ?_, fun data mask act masked => ?_, fun op n v e act => ?_⟩, fun own act => ?_⟩
    · obtain ⟨responded, cores, -, dram⟩ := State.perform_owned (u := s.reached p) home at' own free fun old time => by
        rw [act]; exact Act.noConfusion
      rw [act] at responded dram
      exact ⟨_, step, dram, cores, by rw [act]; exact responded⟩
    · obtain ⟨cores, clusters, responded, outside, inside⟩ :=
        State.perform_owned_write (s := s.reached p) home at' own free wf act masked
      exact ⟨_, _, step, cores, clusters, responded, outside, inside⟩
    · obtain ⟨responded, -, -, -⟩ := State.perform_owned (u := s.reached p) home at' own free fun old time => by
        rw [act]; exact Act.noConfusion
      rw [act] at responded
      exact ⟨_, step, by rw [act]; exact responded,
        State.perform_owned_atomic (s := s.reached p) home at' own free wf act⟩
    · exact ⟨_, step, State.perform_disowned (u := s.reached p) home at' own act⟩
  · have step := homeAccessPerform_next found next
    have chip : p.home.onChip := ⟨noChannel, noPeer⟩
    intro c lvl lost refused m
    have lost_iff : (s.reached p).lostAt p = true ↔ lost := State.lostAt_iff
    have refused_iff : (s.reached p).refusedAt p = true ↔ refused := State.refusedAt_iff
    refine ⟨fun hl => ?_, fun hl hr => ?_, fun hl hr gone => ?_, fun hl hr e tile => ⟨fun n act => ?_, fun data act => ?_⟩⟩
    · exact ⟨_, step, State.perform_lost chip (lost_iff.mpr hl)⟩
    all_goals have alive : (s.reached p).lostAt p = false := Bool.eq_false_iff.mpr fun h => hl (lost_iff.mp h)
    · exact ⟨_, step, State.perform_refused chip alive (refused_iff.mpr hr)⟩
    all_goals have admitted : (s.reached p).refusedAt p = false := Bool.eq_false_iff.mpr fun h => hr (refused_iff.mp h)
    · exact ⟨_, step, State.perform_dropped chip alive admitted gone⟩
    · exact ⟨_, step, State.perform_handle_read chip alive admitted tile act⟩
    · exact fun ok distinct => ⟨_, step, State.perform_handle_write chip alive admitted tile act free ok distinct⟩
  · have step := homeAccessPerform_next found next
    have performed := State.perform_watch (u := s.reached p) ⟨noChannel, noPeer⟩ alive own at' whole act watched
    refine ⟨fun differs => ?_, fun same => ?_⟩
    · rw [if_pos (bne_iff_ne.mpr differs)] at performed
      exact ⟨_, step, by rw [performed]; exact ⟨State.responded_answer _ rfl rfl, rfl⟩⟩
    · rw [if_neg (by simpa using same)] at performed
      obtain ⟨q, member, kept⟩ := State.arm_keeps (u := s.reached p) under time
      rw [← performed] at member kept
      exact ⟨_, q, step, member, kept⟩

end Sys2Proof.Machine
end

section
/-! O27: fences, and the releases that near stores and acquires meet. -/
namespace Sys2Proof.Machine

/-! ### The state that a fence leaves -/

theorem exec_fence (p : BitVec 4) (k : BitVec 2) (s : State) : exec (.fence p k) s = execFence p k s := rfl

/-- Every release that earlier loads have read synchronises with the context at the scope. -/
def State.seenMeet (s : State) (p : BitVec 4) : Bool :=
  s.seenNow.all fun r => s.synchronises s.cur.1 s.cur.2 p r (s.inScope r.scope r.core r.ctx r.isEngine s.cur.1 s.cur.2)

/-- What a fence does to its context: the mark of a release, and chk bit 1 for an acquire that does not synchronise. -/
def Context.fenced (p : BitVec 4) (k : BitVec 2) (meets : Bool) (x : Context) : Context :=
  { x with relMark := if k = 0 ∨ k = 2 then some p else x.relMark,
           chk := if (k = 0 ∨ k = 1) ∧ meets = false then x.chk ||| 2 else x.chk }

def State.fenced (s : State) (p : BitVec 4) (k : BitVec 2) : State := s.modMe (Context.fenced p k (s.seenMeet p))

section
variable {s : State} {p : BitVec 4} {k : BitVec 2}

theorem fence_waits (clear : s.clear (.fence p k) = true) (unmet : s.fenceMet p k = false) :
    exec (.fence p k) s = .next s := by
  rw [exec_fence, execFence]
  refine issue_stall clear ?_
  rw [unmet]
  rfl

theorem fence_done (clear : s.clear (.fence p k) = true) (met : s.fenceMet p k = true) :
    let v := if k = 0 || k = 1 then s.fenceAcquire p else s
    exec (.fence p k) s = .next (s.retires (.fence p k)
      (if k = 0 || k = 2 then v.modMe fun x => { x with relMark := some p } else v) (s.after (.fence p k))) := by
  rw [exec_fence, execFence]
  refine issue_done clear ?_
  rw [met]
  rfl

/-- Acquiring sets chk bit 1 when a release does not synchronise. -/
theorem State.fenceAcquire_eq (s : State) (p : BitVec 4) :
    s.fenceAcquire p = s.modMe (Context.fenced p 1 (s.seenMeet p)) := by
  show s.modMe _ = s.modMe _
  congr 1
  funext x
  cases h : s.seenMeet p with
  | true => exact if_pos h
  | false => exact if_neg (ne_true_of_eq_false h)

/-- A change of the context to what it already is. -/
theorem State.Keeps.modMe_id {s : State} {f : Context → Context} (same : f s.me = s.me) (regs : List Reg) :
    (s.modMe f).Keeps s regs where
  outside := rfl
  cores c hc := (State.core_modCtx_ne s _ _ c f hc).symm
  here := by rw [State.here_modMe]; rfl
  unpaired h := by rw [State.here_modMe] at h; exact h
  siblings x hx := by rw [State.here_modMe]; exact (Core.ctx_modCtx_ne _ _ _ _ hx).symm
  own := by rw [State.me_modMe, same]; exact Context.Keeps.refl _ _

/-- The effect of a fence is `State.fenced`; of the fence that only orders, kind 3, it is nothing. -/
theorem fence_effect (s : State) (p : BitVec 4) (k : BitVec 2) :
    let v := if k = 0 || k = 1 then s.fenceAcquire p else s
    let w := if k = 0 || k = 2 then v.modMe fun x => { x with relMark := some p } else v
    w = s.fenced p k ∨ (w = s ∧ (Context.fenced p k (s.seenMeet p)) s.me = s.me) := by
  have kinds : k = 0 ∨ k = 1 ∨ k = 2 ∨ k = 3 := by
    revert k
    decide
  rw [State.fenceAcquire_eq]
  rcases kinds with rfl | rfl | rfl | rfl
  · refine .inl ((State.modMe_modMe s _ _).trans (congrArg s.modMe (funext fun x => ?_)))
    cases s.seenMeet p <;> rfl
  · exact .inl rfl
  · exact .inl rfl
  · exact .inr ⟨rfl, rfl⟩

theorem fence_completes (clear : s.clear (.fence p k) = true) (met : s.fenceMet p k = true) :
    ∃ t, exec (.fence p k) s = .next t ∧ (s.fenced p k).Completes t (.fence p k) [] := by
  have pc : (s.fenced p k).me.pc = s.me.pc := by rw [State.fenced, State.me_modMe]; rfl
  refine ⟨_, fence_done clear met, ?_⟩
  show State.CompletesAt _ _ _ _ ((s.fenced p k).me.pc + BitVec.ofNat 64 (instrLen (.fence p k)))
  rw [pc]
  rcases fence_effect s p k with effect | ⟨effect, same⟩
  · rw [effect]
    exact State.CompletesAt.of_effect _ rfl rfl
  · rw [effect]
    have me : (s.fenced p k).me = s.me := (State.me_modMe s _).trans same
    exact State.CompletesAt.of_retires _ rfl rfl (State.Keeps.modMe_id same []) (by rw [me]) (by rw [me])
      fun _ => by rw [me]

end

/-! ### What a fence waits for -/

section
variable {s : State} {p : BitVec 4} {q : Packet}

/-- Nothing of the context is on its way to another home. -/
theorem fenceMet_three (quiet : ∀ q, q ∈ s.net → s.mine q = false) : s.fenceMet p 3 = true := by
  refine List.all_eq_true.mpr fun q hq => ?_
  rw [quiet q hq]
  rfl

/-- An access of the context on its way to a home of the scope holds a release back. -/
theorem released_of_own (under : q ∈ s.net) (core : q.core = s.cur.1) (ctx : q.ctx = s.cur.2) (row : q.row = none)
    (scope : s.homeInScope p s.cur.1 q.home = true) : s.released p s.cur.1 s.cur.2 = false := by
  rw [State.released, Bool.and_eq_false_iff, List.all_eq_false]
  refine .inl ⟨q, under, ?_⟩
  simp [core, ctx, row, scope]

end

/-! ### The record that a release leaves at the bytes it writes -/

/-- The bytes of a line among those written. -/
def ownBytes (offs : List Nat) (line : Nat) : BitVec 64 :=
  (offs.filter fun b => b / 64 == line).foldl (init := (0 : BitVec 64)) fun m b => m ||| ((1 : BitVec 64) <<< (b % 64))

theorem getLsbD_foldl_or (l : List Nat) (m : BitVec 64) {i : Nat} (hi : i < 64)
    (found : m.getLsbD i = true ∨ ∃ b, b ∈ l ∧ b % 64 = i) :
    (l.foldl (init := m) fun m b => m ||| ((1 : BitVec 64) <<< (b % 64))).getLsbD i = true := by
  induction l generalizing m with
  | nil => exact found.resolve_right fun ⟨b, hb, _⟩ => nomatch hb
  | cons b bs ih =>
    refine ih _ ?_
    rcases found with h | ⟨c, hc, rfl⟩
    · left
      rw [BitVec.getLsbD_or, h, Bool.true_or]
    · rcases List.mem_cons.mp hc with rfl | h
      · left
        simp [hi]
      · exact .inr ⟨c, h, rfl⟩

theorem getLsbD_ownBytes {offs : List Nat} {a : Nat} (ha : a ∈ offs) :
    (ownBytes offs (a / 64)).getLsbD (a % 64) = true :=
  getLsbD_foldl_or _ _ (Nat.mod_lt _ (by decide))
    (.inr ⟨a, List.mem_filter.mpr ⟨ha, beq_self_eq_true _⟩, rfl⟩)

/-- Setting every line of a list to a value of its own. -/
theorem get_foldl_set (f : Nat → Option Release) (l : List Nat) (t : Tab (Option Release)) {n : Nat}
    (found : Tab.get none t n = f n ∨ ∃ a, a ∈ l ∧ a / 64 = n) :
    Tab.get none (l.foldl (init := t) fun t a => Tab.set none t (a / 64) (f (a / 64))) n = f n := by
  induction l generalizing t with
  | nil => exact found.resolve_right fun ⟨a, ha, _⟩ => nomatch ha
  | cons b bs ih =>
    refine ih _ ?_
    rw [Tab.get_set_any]
    rcases found with h | ⟨a, ha, rfl⟩
    · left
      split
      · next same => rw [same]
      · exact h
    · rcases List.mem_cons.mp ha with rfl | h
      · exact .inl (if_pos rfl)
      · exact .inr ⟨a, h, rfl⟩

/-- The record that a release leaves is read at each byte it wrote. -/
theorem readRelease_markRelease (t : Tab (Option Release)) (r : Release) {offs : List Nat} {a : Nat} (ha : a ∈ offs) :
    readRelease (markRelease t (some r) offs) a 1 = some { r with wrote := ownBytes offs (a / 64) } := by
  have line : Tab.get none (markRelease t (some r) offs) (a / 64) = some { r with wrote := ownBytes offs (a / 64) } :=
    get_foldl_set (fun n => some { r with wrote := ownBytes offs n }) offs t (.inr ⟨a, ha, rfl⟩)
  have own : ((span (a % 64) 1).any (ownBytes offs (a / 64)).getLsbD) = true := by
    simp [span, getLsbD_ownBytes ha]
  rw [readRelease, line]
  exact if_pos own

theorem maskedAt_full (offs : List Nat) : maskedAt (· != 0) offs (List.replicate offs.length 0xFF) = offs := by
  induction offs with
  | nil => rfl
  | cons a as ih =>
    rw [List.length_cons, List.replicate_succ]
    unfold maskedAt
    rw [ih]
    rfl

/-- The record of a release of the issuing context, whatever bytes it wrote. -/
def Release.ofContext (r : Release) (s : State) (scope : BitVec 4) : Prop :=
  r.core = s.cur.1 ∧ r.ctx = s.cur.2 ∧ r.isEngine = false ∧ r.scope = scope

section
variable {s : State}

/-- Monitors that see a new own store leave it. -/
theorem State.store_setStore_fired (s : State) (m : Store) :
    ((s.setStore (.localMem s.cur.1) m).fireMonitors (.localMem s.cur.1)).here.store = m := by
  obtain ⟨net, replies, replay, fired, -, -⟩ := fireMonitors_chip (s.setStore (.localMem s.cur.1) m)
    (h := .localMem s.cur.1) (fun _ e => nomatch e)
  rw [fired]
  exact congrArg Core.store (s.core_modCore_self s.cur.1 fun k => { k with store := m })

/-- A release that writes own local memory records itself at each byte. -/
theorem actChip_records (offs : List Nat) {data : List Byte} (len : data.length = offs.length) (bad : Bool) (r : Release)
    {a : Nat} (ha : a ∈ offs) :
    readRelease (s.actChip (.localMem s.cur.1) offs (.write data []) bad (some r)).1.here.store.releases a 1 =
      some { r with wrote := ownBytes offs (a / 64) } := by
  have full : maskedAt (· != 0) offs (fullMask [] data.length) = offs := by
    rw [fullMask, if_pos rfl, len]
    exact maskedAt_full offs
  unfold State.actChip
  dsimp only [Act.writes]
  rw [State.store_setStore_fired]
  dsimp only [putBytes]
  rw [full]
  exact readRelease_markRelease _ r ha

theorem Packet.releaseOf_release {p : Packet} (release : p.order = 2 ∨ p.order = 3) :
    p.releaseOf = some { core := p.core, ctx := p.ctx, isEngine := false, scope := p.scope } := by
  rw [Packet.releaseOf, if_pos (by simpa using release)]

/-- A store that is a release records itself at each byte. -/
theorem post_records {w : Word} {pl : Place} {data : List Byte} {bad : Bool} {order : BitVec 2} {scope : BitVec 4}
    {u : State} {offs : List Nat} (near : ∃ n g off, pl = .chip 0 s.cur.1 n g off true)
    (at' : offs = s.offsetsOf pl data.length) (release : order = 2 ∨ order = 3)
    (post : s.post w pl (.write data []) bad order scope none = some u) {a : Nat} (ha : a ∈ offs) :
    ∃ r, readRelease u.here.store.releases a 1 = some r ∧ r.ofContext s scope := by
  obtain ⟨n, g, off, rfl⟩ := near
  have v := State.ReadsNear.recordStore s w data
  have same : (s.recordStore w data).offsetsOf (.chip 0 s.cur.1 n g off true) data.length = offs := by
    have here : (s.recordStore w data).core s.cur.1 = (s.recordStore w data).here := by rw [State.here, v.1.cur]
    simp only [at', State.offsetsOf, Place.home, State.storeAt]
    rw [here, v.2.1]
    rfl
  have len : data.length = offs.length := by rw [at']; exact (length_physAll ..).symm
  unfold State.post at post
  dsimp only [Act.size] at post
  rw [if_pos (show (Place.chip 0 s.cur.1 n g off true).atIssue = true from rfl), Packet.releaseOf_release release,
    same] at post
  split at post
  · cases post
  · obtain ⟨t, logged, acted⟩ := Option.map_eq_some_iff.mp post
    have cur : t.cur = s.cur := (State.ReadsNear.of_logUndo logged).1.cur.trans v.1.cur
    rw [← acted, show (Place.chip 0 s.cur.1 n g off true).home = .localMem t.cur.1 by rw [cur]; rfl]
    exact ⟨_, actChip_records offs len bad _ ha, rfl, rfl, rfl, rfl⟩

/-- A mark makes an access without an order a release at its scope (R366). -/
theorem State.orderOf_marked {m : BitVec 4} (mark : s.me.relMark = some m) : s.orderOf 0 0 = (2, m) := by
  rw [State.orderOf, mark]
  rfl

section
variable {d b : BitVec 6} {c : BitVec 5} {o : BitVec 7} {offs : List Nat} {m : BitVec 4}

/-- A store that a mark makes a release waits for what it releases. -/
theorem st_marked_waits (mark : s.me.relMark = some m)
    (near : s.nearAt (s.formatM b o (classSize c)) (classSize c) (classSize c) .write offs)
    (clear : s.clear (.st d b c o) = true) (waits : s.released m s.cur.1 s.cur.2 = false) :
    exec (.st d b c o) s = .next s := by
  obtain ⟨pl, check, here, free, -⟩ := near
  refine (exec_st d b c o s).trans (issue_stall clear ((locate_near check here free).trans ?_))
  rw [State.ordered, State.orderOf_marked mark, waits]
  rfl

theorem State.here_unmarked (s : State) :
    s.unmarked.here = s.here.modCtx s.cur.2 fun x => { x with relMark := none } := State.here_modMe s _

theorem logUndo_unmarked (room : (s.logUndo offs).isSome) : (s.unmarked.logUndo offs).isSome := by
  unfold State.logUndo at room ⊢
  rw [State.here_unmarked]
  dsimp only [Core.modCtx]
  cases pair : s.here.pairing with
  | none => rfl
  | some q =>
    rw [pair] at room
    dsimp only at room ⊢
    split at room
    · cases room
    · next fits => rw [if_neg fits]; rfl

theorem heldBack_unmarked (s : State) (scope : BitVec 4) : s.unmarked.heldBack scope = s.heldBack scope := by
  have core : s.unmarked.core s.cur.1 = s.here.modCtx s.cur.2 fun x => { x with relMark := none } :=
    State.core_modCtx_self s _ _ _
  have home : ∀ h, s.unmarked.homeInScope scope s.cur.1 h = s.homeInScope scope s.cur.1 h := by
    intro h
    unfold State.homeInScope
    rw [core]
    rfl
  unfold State.heldBack
  rw [State.here_unmarked, show s.unmarked.cur = s.cur from rfl]
  simp only [home]
  rfl

theorem offsetsOf_unmarked {pl : Place} {n : Nat} (near : ∃ n g off, pl = .chip 0 s.cur.1 n g off true) :
    s.unmarked.offsetsOf pl n = s.offsetsOf pl n := by
  obtain ⟨h, g, off, rfl⟩ := near
  have core : s.unmarked.core s.cur.1 = s.here.modCtx s.cur.2 fun x => { x with relMark := none } :=
    State.core_modCtx_self s _ _ _
  simp only [State.offsetsOf, Place.home, State.storeAt]
  rw [core]
  rfl

theorem State.Keeps.store {s t : State} {regs : List Reg} (h : s.Keeps t regs) : t.here.store = s.here.store := by
  have here := congrArg Core.store h.here
  exact here

/-- A near store that is a release consumes the mark and records itself at each byte it writes. -/
theorem st_marked_records (mark : s.me.relMark = some m) (ok : s.here.store.ok = true)
    (near : s.nearAt (s.formatM b o (classSize c)) (classSize c) (classSize c) .write offs)
    (room : (s.logUndo offs).isSome) (clear : s.clear (.st d b c o) = true) (may : s.mayStore 0 0 = true) :
    ∃ t, exec (.st d b c o) s = .next t ∧ t.me.relMark = none ∧
      ∀ a, a ∈ offs → ∃ r, readRelease t.here.store.releases a 1 = some r ∧ r.ofContext s m := by
  obtain ⟨pl, check, here, free, at'⟩ := near
  have plain := check_near check here
  have order := State.orderOf_marked mark
  have touched : s.Touches s.unmarked [] := State.Touches.modMe rfl rfl
  have held : s.released m s.cur.1 s.cur.2 = true ∧ s.heldBack m = false := by
    rw [State.mayStore, order] at may
    simpa using may
  have size : (bytesOf (classSize c) (s.me.readG d.toNat).bits).length = classSize c := leBytes_length _ _
  have at'' : offs = s.unmarked.offsetsOf pl (Act.write (bytesOf (classSize c) (s.me.readG d.toNat).bits) []).size := by
    rw [Act.size, size, offsetsOf_unmarked plain, at']
  obtain ⟨u, post, wrote, -, me, -⟩ := post_near (s := s.unmarked) (w := s.formatM b o (classSize c)) (order := 2)
    (scope := m) (bad := (s.me.readG d.toNat).poison) plain at'' (by rw [State.here_unmarked]; exact ok)
    (logUndo_unmarked room) (fun _ => (heldBack_unmarked s m).trans held.2) rfl
  have effect : s.doSt d b c o = .done u := by
    refine (locate_near check here free).trans ((ordered_mayStore may _).trans ?_)
    have read : s.unmarked.me.readG d.toNat = s.me.readG d.toNat := by rw [State.me_unmarked]; rfl
    dsimp only
    rw [order, read]
    exact congrArg Res.ofPost post
  have completes := State.Completes.of_touches (i := .st d b c o) (touched.trans wrote) (State.Keeps.refl u []) rfl rfl
    fun _ => rfl
  have kept := completes.1
  refine ⟨_, (exec_st d b c o s).trans (issue_done clear effect), ?_, fun a ha => ?_⟩
  · rw [kept.own.marks.1, me, State.me_unmarked]
  · rw [kept.store]
    exact post_records (s := s.unmarked) plain at'' (.inl rfl) post ha

end

/-! ### An acquire that reads a recorded release -/

theorem exec_ldaq (d a : BitVec 6) (p : BitVec 4) (o : BitVec 2) (s : State) :
    exec (.ldaq d a p o) s = execLdaq d a p o s := rfl

/-- Scopes read the peers, and of a core its gang and its plot. -/
theorem State.inScope_congr {t : State} (peers : t.peers = s.peers)
    (core : ∀ c, t.core c = { s.core c with pairing := (t.core c).pairing }) (scope : BitVec 4) (a x : Nat)
    (engine : Bool) (b y : Nat) : t.inScope scope a x engine b y = s.inScope scope a x engine b y := by
  unfold State.inScope State.peer
  rw [peers, core]
  rfl

/-- Logging for a rollback changes the record of a pair alone. -/
theorem State.logUndo_frame {t : State} {offs : List Nat} (logged : s.logUndo offs = some t) :
    t.peers = s.peers ∧ ∀ c, t.core c = { s.core c with pairing := (t.core c).pairing } := by
  unfold State.logUndo at logged
  split at logged
  · cases logged
    exact ⟨rfl, fun _ => rfl⟩
  · dsimp only at logged
    split at logged
    · cases logged
    · cases logged
      refine ⟨rfl, fun c => ?_⟩
      rw [State.modHere, State.core_modCore]
      split
      · next same => rw [same]
      · rfl

/-- A load of one part from the own local memory notes the release that it reads and delivers. -/
theorem ask_near_read {t : State} {w : Word} {pl : Place} {n : Nat} {dest : Dest} {acq : Option (BitVec 4)}
    {order : BitVec 2} {scope : BitVec 4} {bad hold taint : Bool}
    (near : ∃ h g off, pl = .chip 0 s.cur.1 h g off true) (logged : s.logUndo [] = some t)
    (apart : s.meetsHeld [(0, w, pl, .read n)] = false) :
    let found := readRelease s.here.store.releases ((s.offsetsOf pl n).headD 0) n
    ∃ op, s.ask [(0, w, pl, .read n)] dest acq order scope bad hold taint false =
        .done ((t.noteRelease s.cur.1 s.cur.2 true acq
          (found.map fun r => (r, t.inScope r.scope r.core r.ctx r.isEngine s.cur.1 s.cur.2))).deliver op) ∧
      op.dest = dest ∧ op.core = s.cur.1 ∧ op.ctx = s.cur.2 := by
  obtain ⟨h, g, off, rfl⟩ := near
  have reads := State.ReadsNear.of_logUndo logged
  have store : t.storeAt (.localMem s.cur.1) = s.here.store := by
    rw [← reads.2.1, State.here, reads.1.cur]
    rfl
  have offs : t.offsetsOf (.chip 0 s.cur.1 h g off true) n = s.offsetsOf (.chip 0 s.cur.1 h g off true) n := by
    simp only [State.offsetsOf, Place.home, store]
    rfl
  unfold State.ask
  rw [if_neg (ne_true_of_eq_false apart)]
  simp only [List.filter_cons, List.filter_nil, Place.atIssue, Bool.not_true, Bool.not_false, Bool.and_true, Bool.or_false,
    Bool.false_eq_true, if_true, if_false, List.flatMap_cons, List.flatMap_nil, List.append_nil]
  rw [logged]
  simp only [List.foldl_cons, List.foldl_nil, List.nil_append, Act.size, offs, Place.home, State.actChip, Act.writes,
    store, Act.isLoad]
  exact ⟨_, rfl, rfl, rfl, rfl⟩

/-- An acquire that reads a release sets chk bit 1 when the two do not synchronise. -/
theorem State.noteRelease_chk (s : State) (load : Bool) (p : BitVec 4) (r : Release) (home : Bool) :
    (s.noteRelease s.cur.1 s.cur.2 load (some p) (some (r, home))).me.chk.getLsbD 1 =
      (s.me.chk.getLsbD 1 || !s.synchronises s.cur.1 s.cur.2 p r home) := by
  have noted : (s.noteRelease s.cur.1 s.cur.2 load (some p) (some (r, home))).me.chk =
      (if !s.synchronises s.cur.1 s.cur.2 p r home then s.me.setChk 1 else s.me).chk := by
    have seen (y : Context) : (if !load || y.seen.contains r then y else { y with seen := y.seen ++ [r] }).chk = y.chk := by
      split
      · rfl
      · rfl
    exact (congrArg Context.chk (State.me_modMe s _)).trans (seen _)
  rw [noted]
  cases s.synchronises s.cur.1 s.cur.2 p r home with
  | true => simp
  | false => simp [Context.setChk]

/-- A word is delivered to a g register of the access's context. -/
theorem State.deliver_word (u : State) {op : Op} {d : Nat} (dest : op.dest = .word d) :
    u.deliver op = u.modCtx op.core op.ctx fun x =>
      x.writeG d (BitVec.ofNat 64 (leNat op.data.1)) (op.data.2 || op.taint) := by
  unfold State.deliver
  dsimp only
  rw [dest]

theorem State.deliver_word_chk {u : State} {op : Op} {d : Nat} (dest : op.dest = .word d) (core : op.core = u.cur.1)
    (ctx : op.ctx = u.cur.2) : (u.deliver op).cur = u.cur ∧ (u.deliver op).me.chk = u.me.chk := by
  rw [State.deliver_word u dest, core, ctx]
  exact ⟨rfl, (congrArg Context.chk (State.me_modMe u _)).trans (Context.writeG_chk ..)⟩

/-- An acquiring load of the own local memory that reads a recorded release checks its scope. -/
theorem ldaq_checks {d a : BitVec 6} {p : BitVec 4} {o : BitVec 2} {offs : List Nat} {r : Release}
    (near : s.nearAt (s.g a.toNat) 8 8 .atomic offs) (room : (s.logUndo []).isSome) (apart : s.apart (s.g a.toNat) 8)
    (clear : s.clear (.ldaq d a p o) = true)
    (found : readRelease s.here.store.releases (offs.headD 0) 8 = some r) (acquire : o = 1 ∨ o = 3) :
    ∃ t, exec (.ldaq d a p o) s = .next t ∧ t.me.chk.getLsbD 1 = (s.me.chk.getLsbD 1 ||
      !(s.inScope r.scope r.core r.ctx r.isEngine s.cur.1 s.cur.2 && s.inScope p s.cur.1 s.cur.2 false r.core r.ctx)) := by
  obtain ⟨pl, check, here, free, at'⟩ := near
  obtain ⟨t, logged⟩ := Option.isSome_iff_exists.mp room
  have cur : t.cur = s.cur := (State.ReadsNear.of_logUndo logged).1.cur
  obtain ⟨peers, cores⟩ := State.logUndo_frame logged
  have acq : acquireOf o p = some p := by rw [acquireOf, if_pos (by simpa using acquire)]
  obtain ⟨op, asked, dest, core, ctx⟩ := ask_near_read (dest := .word d.toNat) (acq := acquireOf o p) (order := 0)
    (scope := p) (bad := false) (hold := holds pl (acquireOf o p)) (taint := poisonedSource (.ldaq d a p o) s)
    (check_near check here) logged (apart pl (.read 8) here rfl)
  rw [← at', found] at asked
  dsimp only [Option.map] at asked
  generalize noted : t.noteRelease _ _ _ _ _ = u at asked
  rw [acq] at noted
  have still : u.cur = s.cur := by rw [← noted]; exact cur
  obtain ⟨placed, kept⟩ := State.deliver_word_chk (u := u) dest (by rw [core, still]) (by rw [ctx, still])
  refine ⟨_, (exec_ldaq d a p o s).trans (issue_done clear ((locate_near check here free).trans asked)), ?_⟩
  have home : t.synchronises s.cur.1 s.cur.2 p r (t.inScope r.scope r.core r.ctx r.isEngine s.cur.1 s.cur.2) =
      (s.inScope r.scope r.core r.ctx r.isEngine s.cur.1 s.cur.2 && s.inScope p s.cur.1 s.cur.2 false r.core r.ctx) := by
    rw [State.synchronises, State.inScope_congr peers cores, State.inScope_congr peers cores]
  have chk : u.me.chk.getLsbD 1 = (t.me.chk.getLsbD 1 ||
      !t.synchronises s.cur.1 s.cur.2 p r (t.inScope r.scope r.core r.ctx r.isEngine s.cur.1 s.cur.2)) := by
    rw [← noted, ← cur]
    exact State.noteRelease_chk t true p r _
  rw [State.retires_chk _ (placed.trans still), kept, ← home, ← logUndo_me logged, ← chk]
  split
  · simp
  · rfl

end

/-- Settles O27: a fence by its kinds, then its condition, the near store that a mark makes a release, and the acquire. -/
theorem fences : Obligations.Fences :=
  ⟨fun _ _ _ clear => ⟨fence_waits clear, fence_completes clear⟩,
    fun _ _ => ⟨rfl, rfl, fenceMet_three⟩,
    fun _ _ _ under core ctx row scope => released_of_own under core ctx row scope,
    fun _ _ _ _ _ _ _ mark ok near room clear =>
      ⟨st_marked_waits mark near clear, st_marked_records mark ok near room clear⟩,
    fun _ _ _ _ _ _ _ near room apart clear found acquire => ldaq_checks near room apart clear found acquire⟩

end Sys2Proof.Machine
end

section
/-! O45: the instructions of the copy engines: joins, shadow fields, CPYGO and CPYST. -/
namespace Sys2Proof.Machine

theorem exec_eqf (a : BitVec 6) (s : State) : exec (.eqf a) s = execEqf a s := rfl
theorem exec_cpyset (a : BitVec 6) (f : BitVec 4) (s : State) : exec (.cpyset a f) s = execCpyset a f s := rfl
theorem exec_cpygo (d : BitVec 6) (s : State) : exec (.cpygo d) s = execCpygo d s := rfl
theorem exec_cpyst (d a : BitVec 6) (s : State) : exec (.cpyst d a) s = execCpyst d a s := rfl

/-! ### EQF -/

/-- Appending the same to each of several different entries of a table. -/
theorem Tab.get_foldl_append {α : Type} (points : List α) {named : List Nat} (distinct : named.Nodup) (t : Tab (List α))
    (q : Nat) :
    Tab.get [] (named.foldl (init := t) fun t q => Tab.put t q (Tab.get [] t q ++ points)) q =
      if q ∈ named then Tab.get [] t q ++ points else Tab.get [] t q := by
  induction named generalizing t with
  | nil => rfl
  | cons n ns ih =>
    obtain ⟨new, rest⟩ := List.nodup_cons.mp distinct
    rw [List.foldl_cons, ih rest, Tab.get_put]
    by_cases same : q = n
    · subst same
      rw [if_neg new, if_pos rfl, if_pos List.mem_cons_self]
    · simp [same]

/-- The queues that an EQF mask names, and their last entries. -/
def eqfNamed (mask : Word) : List Nat := (span 0 5).filter mask.getLsbD
def Core.eqfPoints (k : Core) (mask : Word) : List (Nat × Nat) :=
  (eqfNamed mask).filterMap fun q => ((k.serials q).getLast?).map fun n => (q, n)
def Core.eqfJoin (k : Core) (at' : Core) (mask : Word) : Core :=
  { k with joins := (eqfNamed mask).foldl (init := k.joins) fun t q => Tab.put t q (Tab.get [] t q ++ at'.eqfPoints mask) }

theorem mem_eqfNamed (mask : Word) (q : Nat) : q ∈ eqfNamed mask ↔ q < 5 ∧ mask.getLsbD q = true := by
  rw [eqfNamed, List.mem_filter, mem_span]
  simp

theorem Core.mem_eqfPoints (k : Core) (mask : Word) (j : Nat × Nat) : j ∈ k.eqfPoints mask ↔
    j.1 < 5 ∧ mask.getLsbD j.1 = true ∧ (k.serials j.1).getLast? = some j.2 := by
  rw [Core.eqfPoints, List.mem_filterMap]
  constructor
  · rintro ⟨q, named, last⟩
    obtain ⟨n, found, rfl⟩ := Option.map_eq_some_iff.mp last
    obtain ⟨low, bit⟩ := (mem_eqfNamed mask q).mp named
    exact ⟨low, bit, found⟩
  · rintro ⟨low, bit, found⟩
    exact ⟨j.1, (mem_eqfNamed mask j.1).mpr ⟨low, bit⟩, by rw [found]; rfl⟩

theorem Core.mem_takeJoins_eqfJoin (k : Core) (mask : Word) {q : Nat} (hq : q < 5) (j : Nat × Nat) :
    j ∈ (k.eqfJoin k mask).takeJoins q ↔ j ∈ k.takeJoins q ∨ (mask.getLsbD q = true ∧ j.1 < 5 ∧
      mask.getLsbD j.1 = true ∧ (k.serials j.1).getLast? = some j.2) := by
  have distinct : (eqfNamed mask).Nodup := (by decide : (span 0 5).Nodup).filter _
  have joins : (k.eqfJoin k mask).takeJoins q =
      if q ∈ eqfNamed mask then k.takeJoins q ++ k.eqfPoints mask else k.takeJoins q :=
    Tab.get_foldl_append _ distinct _ q
  rw [joins]
  by_cases bit : mask.getLsbD q = true
  · rw [if_pos ((mem_eqfNamed mask q).mpr ⟨hq, bit⟩), List.mem_append, Core.mem_eqfPoints, bit]
    simp
  · rw [if_neg fun named => bit ((mem_eqfNamed mask q).mp named).2]
    simp [bit]

section
variable {s : State}

/-- A change of the own core that keeps its contexts leaves what an instruction reads of registers. -/
theorem poisonedSource_congr {u : State} {i : Instr} (hi : ∀ t : State, t.reads i = sources i)
    (same : u.me.poison = s.me.poison) : poisonedSource i u = poisonedSource i s := by
  unfold poisonedSource
  rw [hi, hi, same]

/-- EQF makes later entries of each named queue wait for the last entry now in any of them. -/
theorem eqf_joins {a : BitVec 6} (clear : s.clear (.eqf a) = true) :
    ∃ u t, exec (.eqf a) s = .next t ∧ u.Completes t (.eqf a) [] ∧
      s.OnlyCore u s.cur.1 ∧ u.here = { s.here with joins := u.here.joins } ∧
      ∀ q j, q < 5 → (j ∈ u.here.takeJoins q ↔ j ∈ s.here.takeJoins q ∨ ((s.g a.toNat).getLsbD q = true ∧ j.1 < 5 ∧
        (s.g a.toNat).getLsbD j.1 = true ∧ (s.here.serials j.1).getLast? = some j.2)) := by
  have me : (s.modHere fun k => k.eqfJoin s.here (s.g a.toNat)).me = s.me := State.me_modHere s _
  have here : (s.modHere fun k => k.eqfJoin s.here (s.g a.toNat)).here = s.here.eqfJoin s.here (s.g a.toNat) :=
    State.here_modHere s _
  have pc : (s.modHere fun k => k.eqfJoin s.here (s.g a.toNat)).me.pc + BitVec.ofNat 64 (instrLen (.eqf a)) =
      s.after (.eqf a) := by rw [me]; rfl
  refine ⟨s.modHere fun k => k.eqfJoin s.here (s.g a.toNat), _, (exec_eqf a s).trans (issue_done clear rfl), ?_,
    State.onlyCore_modCore s _ _, ?_, fun q j hq => ?_⟩
  · rw [← pc]
    exact State.CompletesAt.of_effect _ rfl (poisonedSource_congr (fun _ => List.append_nil _) (by rw [me]))
  · rw [here]
    rfl
  · rw [here]
    exact s.here.mem_takeJoins_eqfJoin _ hq j

/-! ### CPYSET -/

/-- A shadow field takes the value of a g register. -/
def Context.takeField (a f : Nat) (x : Context) : Context := { x with shadow := Tab.put x.shadow f (x.readG a) }

/-- CPYSET sets a shadow field. -/
theorem cpyset_field {a : BitVec 6} {f : BitVec 4} (clear : s.clear (.cpyset a f) = true) :
    ∃ u t, exec (.cpyset a f) s = .next t ∧ u.Completes t (.cpyset a f) [] ∧ s.OnlyCore u s.cur.1 ∧
      u.here = { s.here with ctxs := u.here.ctxs } ∧ (∀ x, x ≠ s.cur.2 → u.here.ctx x = s.here.ctx x) ∧
      u.me = { s.me with shadow := u.me.shadow } ∧
      ∀ n, u.me.field n = if n = f.toNat then s.me.readG a.toNat else s.me.field n := by
  have me := State.me_modMe s (Context.takeField a.toNat f.toNat)
  have here := State.here_modMe s (Context.takeField a.toNat f.toNat)
  have pc : (s.modMe (Context.takeField a.toNat f.toNat)).me.pc + BitVec.ofNat 64 (instrLen (.cpyset a f)) = s.after (.cpyset a f) := by rw [me]; rfl
  refine ⟨s.modMe (Context.takeField a.toNat f.toNat), _, (exec_cpyset a f s).trans (issue_done clear rfl), ?_, State.onlyCore_modMe s _, ?_,
    fun x hx => ?_, ?_, fun n => ?_⟩
  · rw [← pc]
    exact State.CompletesAt.of_effect _ rfl (poisonedSource_congr (fun _ => List.append_nil _) (by rw [me]; rfl))
  · rw [here]
    rfl
  · rw [here]
    exact Core.ctx_modCtx_ne _ _ _ _ hx
  · rw [me]
    rfl
  · rw [me]
    exact Tab.get_put _ _ _ _ _

/-! ### CPYGO: the flags -/

/-- A field of a word is 0 when each of its bits is. -/
theorem bitsN_eq_zero {w : Nat} (x : BitVec w) (hi lo : Nat) :
    bitsN x hi lo = 0 ↔ ∀ i, lo ≤ i → i ≤ hi → x.getLsbD i = false := by
  have bit (j : Nat) : (bitsN x hi lo).testBit j = (decide (j < hi + 1 - lo) && x.getLsbD (j + lo)) := by
    rw [bitsN, Nat.testBit_mod_two_pow, Nat.testBit_div_two_pow]
    rfl
  constructor
  · intro zero i low high
    have := bit (i - lo)
    rw [zero, Nat.zero_testBit, Nat.sub_add_cancel low, decide_eq_true (by omega), Bool.true_and] at this
    exact this.symm
  · intro clear
    refine Nat.eq_of_testBit_eq fun j => ?_
    rw [bit, Nat.zero_testBit]
    by_cases inside : j < hi + 1 - lo
    · rw [clear (j + lo) (by omega) (by omega), Bool.and_false]
    · rw [decide_eq_false inside, Bool.false_and]

/-- The reserved bits of the flags (Table 5.2). -/
theorem reserved_bits : ∀ i : Fin 64, (0x0000F000E000F0CC : Word).getLsbD i = true ↔
    (2 ≤ i.val ∧ i.val ≤ 3) ∨ (6 ≤ i.val ∧ i.val ≤ 7) ∨ (12 ≤ i.val ∧ i.val ≤ 15) ∨ (29 ≤ i.val ∧ i.val ≤ 31) ∨
      (44 ≤ i.val ∧ i.val ≤ 47) := by decide

/-- Two words have no bit in common. -/
theorem and_eq_zero_iff (x m : Word) : x &&& m = 0 ↔ ∀ i : Fin 64, m.getLsbD i = true → x.getLsbD i = false := by
  constructor
  · intro zero i set
    have bit : (x &&& m).getLsbD i = (0#64).getLsbD i := congrArg (fun y : Word => y.getLsbD i) zero
    rw [BitVec.getLsbD_and, set, Bool.and_true, BitVec.getLsbD_zero] at bit
    exact bit
  · intro clear
    refine BitVec.eq_of_getLsbD_eq fun i hi => ?_
    show (x &&& m).getLsbD i = (0#64).getLsbD i
    rw [BitVec.getLsbD_and, BitVec.getLsbD_zero, Bool.and_eq_false_iff]
    by_cases set : m.getLsbD i = true
    · exact .inl (clear ⟨i, hi⟩ set)
    · exact .inr (Bool.eq_false_iff.mpr set)

theorem reserved_iff (fl : Word) : fl &&& 0x0000F000E000F0CC ≠ 0 ↔
    bitsN fl 3 2 ≠ 0 ∨ bitsN fl 7 6 ≠ 0 ∨ bitsN fl 15 12 ≠ 0 ∨ bitsN fl 31 29 ≠ 0 ∨ bitsN fl 47 44 ≠ 0 := by
  have fields : fl &&& 0x0000F000E000F0CC = 0 ↔
      bitsN fl 3 2 = 0 ∧ bitsN fl 7 6 = 0 ∧ bitsN fl 15 12 = 0 ∧ bitsN fl 31 29 = 0 ∧ bitsN fl 47 44 = 0 := by
    simp only [and_eq_zero_iff, reserved_bits, bitsN_eq_zero]
    constructor
    · intro clear
      refine ⟨?_, ?_, ?_, ?_, ?_⟩ <;> exact fun i low high => clear ⟨i, by omega⟩ (by dsimp only; omega)
    · rintro ⟨h1, h2, h3, h4, h5⟩ i (⟨low, high⟩ | ⟨low, high⟩ | ⟨low, high⟩ | ⟨low, high⟩ | ⟨low, high⟩)
      · exact h1 i low high
      · exact h2 i low high
      · exact h3 i low high
      · exact h4 i low high
      · exact h5 i low high
  rw [ne_eq, fields]
  simp only [not_and_or, ne_eq]

/-! ### CPYGO -/

/-- The checks of CPYGO on the flags. -/
def copyFlagsBad (fl : Word) : Bool :=
  fl &&& 0x0000F000E000F0CC ≠ 0 || bitsN fl 5 4 = 3 || bitsN fl 43 40 > 5 || bitsN fl 39 36 > 5 ||
    (4095 < bitsN fl 28 16 && bitsN fl 28 16 ≠ 0x1FFF)
def State.copyAway (s : State) (fl : Word) : Bool :=
  bitsN fl 28 16 ≤ 4095 && s.partOf (bitsN fl 28 16) ≠ s.partOf s.cur.1

theorem copyFlagsBad_iff (fl : Word) : copyFlagsBad fl = true ↔
    bitsN fl 3 2 ≠ 0 ∨ bitsN fl 5 4 = 3 ∨ bitsN fl 7 6 ≠ 0 ∨ bitsN fl 15 12 ≠ 0 ∨ bitsN fl 31 29 ≠ 0 ∨
      bitsN fl 47 44 ≠ 0 ∨ 5 < bitsN fl 43 40 ∨ 5 < bitsN fl 39 36 ∨
      (4095 < bitsN fl 28 16 ∧ bitsN fl 28 16 ≠ 0x1FFF) := by
  have reserved := reserved_iff fl
  simp only [copyFlagsBad, Bool.or_eq_true, Bool.and_eq_true, decide_eq_true_eq, gt_iff_lt, reserved]
  exact iff_of_eq (by ac_rfl)

/-- The core after CPYGO: the entry at the tail of the queue that its flags name. -/
def State.launched (s : State) : State :=
  s.modHere fun k => k.enqueueCopy (bitsN (s.me.field 6).bits 1 0) ((List.range 10).map fun n => (s.me.field n).bits)
    ((s.me.field 6).bits.extractLsb' 32 4) s.cur.2 s.me.life none
def State.fieldsBad (s : State) : Bool := (List.range 10).any fun n => (s.me.field n).poison

/-- What CPYGO does on an unpaired core. -/
def State.doCpygo (s : State) (d : BitVec 6) : Res :=
  let fl := (s.me.field 6).bits
  let scope : BitVec 4 := fl.extractLsb' 32 4
  if s.scopeFault s.cur.1 scope then .trap 0x13 0 (scope.setWidth 64)
  else if copyFlagsBad fl then .trap 0x0A 6 fl
  else if s.copyAway fl then .trap 0x06 0 fl
  else if 16 ≤ (s.here.serials (bitsN fl 1 0)).length then .stall s
  else .done ((s.launched.notePoison s.fieldsBad).writeG d.toNat (s.here.nextId.setWidth 64) false)

/-- What the core holds after CPYGO. -/
theorem State.here_launched (s : State) : s.launched.here =
    s.here.enqueueCopy (bitsN (s.me.field 6).bits 1 0) ((List.range 10).map fun n => (s.me.field n).bits)
      ((s.me.field 6).bits.extractLsb' 32 4) s.cur.2 s.me.life none := State.here_modHere s _
theorem State.me_launched (s : State) : s.launched.me = s.me := State.me_modHere s _

theorem exec_cpygo_unpaired (d : BitVec 6) (unpaired : s.here.pairing = none) :
    exec (.cpygo d) s = issue (.cpygo d) s fun _ s => s.doCpygo d := by
  have alone : (s.launched.core s.launched.cur.1).pairing = none := by
    have here := congrArg Core.pairing s.here_launched
    exact here.trans unpaired
  have passed := State.passOn_unpaired alone s.launched.cur.2 (bytesOf 8 (s.here.nextId.setWidth 64 : Word)) false
  unfold State.launched at passed
  rw [exec_cpygo, execCpygo]
  refine issue_congr ?_
  dsimp only
  rw [State.isOdd_unpaired unpaired, span_zero, passed]
  rfl

/-- A queued entry stands at the tail of its queue alone. -/
theorem Core.enqueueCopy_eq (k : Core) (q : Nat) (fields : List Word) (scope : BitVec 4) (ctx life : Nat)
    (from_ : Option Nat) (n : Nat) : (k.enqueueCopy q fields scope ctx life from_).eq n =
      if n = q then { k.eq q with entries := (k.eq q).entries ++
        [{ fields := fields, id := k.nextId, ctx := ctx, life := life, era := k.era, serial := k.serial,
           joins := k.takeJoins q, queue := from_ }] }
      else k.eq n :=
  Tab.get_put _ _ _ _ _

section
variable {d : BitVec 6}

/-- Queueing completes: the id is in the register, and poisoned fields set chk bit 0. -/
theorem cpygo_completes (unpaired : s.here.pairing = none) (clear : s.clear (.cpygo d) = true)
    (effect : s.doCpygo d = .done ((s.launched.notePoison s.fieldsBad).writeG d.toNat (s.here.nextId.setWidth 64) false)) :
    ∃ t, exec (.cpygo d) s = .next t ∧ s.launched.Completes t (.cpygo d) [.g d.toNat, .status 0x0A] ∧
      t.me.readG d.toNat = writtenG d.toNat (s.here.nextId.setWidth 64) false ∧
      t.me.chk = if s.fieldsBad then s.me.chk ||| 1 else s.me.chk := by
  have noted : (s.launched.notePoison s.fieldsBad).me = if s.fieldsBad then s.me.setChk 0 else s.me := by
    rw [State.notePoison_eq]
    split
    · rw [State.me_modMe, State.me_launched]
    · exact s.me_launched
  have kept : s.launched.Keeps ((s.launched.notePoison s.fieldsBad).writeG d.toNat (s.here.nextId.setWidth 64) false)
      [.g d.toNat, .status 0x0A] :=
    (State.Keeps.notePoison _ _ _).trans (State.Keeps.modMe (Context.Keeps.writeG _ _ _ _ _ List.mem_cons_self))
  have cur : ((s.launched.notePoison s.fieldsBad).writeG d.toNat (s.here.nextId.setWidth 64) false).cur = s.cur := kept.cur
  have pc : s.launched.me.pc + BitVec.ofNat 64 (instrLen (.cpygo d)) = s.after (.cpygo d) := by
    rw [State.me_launched]
    rfl
  refine ⟨_, (exec_cpygo_unpaired d unpaired).trans (issue_done clear effect), ?_, ?_, ?_⟩
  · rw [← pc]
    refine State.CompletesAt.of_retires _ rfl rfl kept ?_ ?_ fun absent => absurd (by simp) absent
    all_goals rw [State.me_writeG, noted, State.me_launched]; split <;> simp
  · rw [State.retires_readG _ cur, State.me_writeG, Context.readG_writeG]
    simp [writtenG]
  · rw [State.retires_chk _ cur, State.me_writeG, Context.writeG_chk, noted]
    cases s.fieldsBad <;> rfl

/-- CPYGO on an unpaired core: its traps in order, the full queue, and the entry that it queues. -/
theorem cpygo_launches (unpaired : s.here.pairing = none) :
    let fl := (s.me.field 6).bits
    let scope : BitVec 4 := fl.extractLsb' 32 4
    let q := bitsN fl 1 0
    let badScope := s.scopeFault s.cur.1 scope = true
    (badScope → s.Traps (.cpygo d) 0x13 0 (scope.setWidth 64)) ∧
    (¬badScope → copyFlagsBad fl = true → s.Traps (.cpygo d) 0x0A 6 fl) ∧
    (¬badScope → copyFlagsBad fl = false → s.copyAway fl = true → s.Traps (.cpygo d) 0x06 0 fl) ∧
    (¬badScope → copyFlagsBad fl = false → s.copyAway fl = false → s.clear (.cpygo d) = true →
      (16 ≤ (s.here.serials q).length → exec (.cpygo d) s = .next s) ∧
      ((s.here.serials q).length < 16 →
        ∃ t, exec (.cpygo d) s = .next t ∧ s.launched.Completes t (.cpygo d) [.g d.toNat, .status 0x0A] ∧
          t.me.readG d.toNat = writtenG d.toNat (s.here.nextId.setWidth 64) false ∧
          t.me.chk = if s.fieldsBad then s.me.chk ||| 1 else s.me.chk)) := by
  intro fl scope q badScope
  have step := exec_cpygo_unpaired d unpaired
  refine ⟨fun fault clear idle => ?_, fun valid bad clear idle => ?_, fun valid good away clear idle => ?_,
    fun valid good stays clear => ⟨fun full => ?_, fun room => ?_⟩⟩
  · exact step.trans (issue_trap clear (if_pos fault) idle)
  · exact step.trans (issue_trap clear ((if_neg valid).trans (if_pos bad)) idle)
  · refine step.trans (issue_trap clear ((if_neg valid).trans ?_) idle)
    rw [if_neg (ne_true_of_eq_false good), if_pos away]
  · refine step.trans (issue_stall clear ((if_neg valid).trans ?_))
    rw [if_neg (ne_true_of_eq_false good), if_neg (ne_true_of_eq_false stays), if_pos full]
  · refine cpygo_completes unpaired clear ((if_neg valid).trans ?_)
    rw [if_neg (ne_true_of_eq_false good), if_neg (ne_true_of_eq_false stays), if_neg (Nat.not_le.mpr room)]

end

/-! ### CPYST -/

/-- What CPYST reports of a transfer. -/
def CopyState.word : CopyState → Word
  | .queued => 0
  | .running => 1 <<< 62
  | .done status => (1 <<< 63) ||| BitVec.ofNat 64 status

/-- The context as an acquire of a completed copy may leave it. -/
def State.Acquired (s u : State) : Prop := u = s ∨ u = s.modMe fun x => x.setChk 1

theorem State.acquired_acquireCopy (s : State) (scope : BitVec 4) (src ctx : Nat) :
    s.Acquired (s.acquireCopy s.cur.1 s.cur.2 scope src ctx) := by
  unfold State.acquireCopy
  split
  · exact .inl rfl
  · exact .inr rfl

/-- The state in which CPYST reports a transfer: a completion is an acquire. -/
def State.reported (s : State) (t : Transfer) : State :=
  match t.state with
  | .done _ => s.acquireCopy s.cur.1 s.cur.2 t.scope s.cur.1 t.ctx
  | _ => s

theorem State.acquired_reported (s : State) (t : Transfer) : s.Acquired (s.reported t) := by
  unfold State.reported
  split
  · exact s.acquired_acquireCopy _ _ _
  · exact .inl rfl

/-- Setting a bit of chk keeps everything else. -/
theorem Context.Keeps.setChk (x : Context) (bit : Nat) {regs : List Reg} (listed : Reg.status 0x0A ∈ regs) :
    x.Keeps (x.setChk bit) regs where
  live := rfl
  g _ _ := rfl
  v _ _ := rfl
  k _ _ := rfl
  q _ _ := rfl
  e _ _ := rfl
  fm _ _ := rfl
  km _ := rfl
  rmode _ := rfl
  fpf _ := rfl
  efr _ := rfl
  chk absent := absurd listed absent
  det _ := rfl
  shadow := rfl
  meet := rfl
  marks := ⟨rfl, rfl⟩
  loads := rfl
  frozen := rfl
  life := rfl

section
variable {d a : BitVec 6} {u : State}

theorem State.Acquired.keeps {regs : List Reg} (h : s.Acquired u) (listed : Reg.status 0x0A ∈ regs) :
    s.Keeps u regs ∧ u.me.chk ||| 3 = s.me.chk ||| 3 ∧ u.me.lp = s.me.lp ∧ u.me.lpd = s.me.lpd := by
  rcases h with rfl | rfl
  · exact ⟨State.Keeps.refl _ _, rfl, rfl, rfl⟩
  · rw [State.me_modMe]
    refine ⟨State.Keeps.modMe (Context.Keeps.setChk _ _ listed), ?_, rfl, rfl⟩
    exact BitVec.or_assoc _ _ _

/-- A report in a register completes CPYST. -/
theorem cpyst_gives {w : Word} (acquired : s.Acquired u)
    (step : exec (.cpyst d a) s = .next (s.retires (.cpyst d a) (u.writeG d.toNat w (poisonedSource (.cpyst d a) s))
      (s.after (.cpyst d a)))) :
    ∃ t, exec (.cpyst d a) s = .next t ∧ s.Completes t (.cpyst d a) [.g d.toNat, .status 0x0A] ∧
      t.me.chk ||| 3 = s.me.chk ||| 3 ∧ t.me.readG d.toNat = writtenG d.toNat w (poisonedSource (.cpyst d a) s) := by
  obtain ⟨kept, chk, lp, lpd⟩ := acquired.keeps (regs := [.g d.toNat, .status 0x0A]) (by simp)
  have wrote := kept.trans (State.Keeps.modMe (s := u)
    (f := fun x => x.writeG d.toNat w (poisonedSource (.cpyst d a) s)) (Context.Keeps.writeG _ _ _ _ _ List.mem_cons_self))
  have cur : (u.writeG d.toNat w (poisonedSource (.cpyst d a) s)).cur = s.cur := wrote.cur
  refine ⟨_, step, State.Completes.of_done wrote ?_ ?_ fun absent => absurd (by simp) absent, ?_, ?_⟩
  · rw [← lp]
    exact (congrArg Context.lp (State.me_writeG u _ _ _)).trans (Context.writeG_lp ..)
  · rw [← lpd]
    exact (congrArg Context.lpd (State.me_writeG u _ _ _)).trans (Context.writeG_lpd ..)
  · rw [State.retires_chk _ cur, State.me_writeG, Context.writeG_chk, ← chk]
    split
    · rw [BitVec.or_assoc]
      rfl
    · rfl
  · rw [State.retires_readG _ cur, State.me_writeG, Context.readG_writeG]
    simp [writtenG]

/-- What CPYST does on an unpaired core. -/
theorem exec_cpyst_unpaired (unpaired : s.here.pairing = none) :
    exec (.cpyst d a) s = issue (.cpyst d a) s fun p s =>
      match s.here.transfers.find? fun t => t.id == (s.g a.toNat).setWidth 16 && (s.g a.toNat).setWidth 16 != 0#16 with
      | none => .done (s.writeG d.toNat (1 <<< 61) p)
      | some t => .done ((s.reported t).writeG d.toNat t.state.word p) := by
  rw [exec_cpyst, execCpyst]
  refine issue_congr ?_
  have alone {u : State} (acquired : s.Acquired u) (w : Word) : u.passOn u.cur.1 u.cur.2 (bytesOf 8 w) false = u :=
    State.passOn_unpaired ((acquired.keeps (regs := [.status 0x0A]) List.mem_cons_self).1.unpaired unpaired) _ _ _
  dsimp only
  rw [State.isOdd_unpaired unpaired, if_neg Bool.false_ne_true]
  cases s.here.transfers.find? fun t => t.id == (s.g a.toNat).setWidth 16 && (s.g a.toNat).setWidth 16 != 0#16 with
  | none => exact congrArg (fun u : State => Res.done (u.writeG d.toNat _ _)) (alone (.inl rfl) _)
  | some t =>
    have told := alone (s.acquired_reported t) t.state.word
    revert told
    unfold State.reported
    dsimp only
    cases t.state with
    | queued => exact fun told => congrArg (fun u : State => Res.done (u.writeG d.toNat _ _)) told
    | running => exact fun told => congrArg (fun u : State => Res.done (u.writeG d.toNat _ _)) told
    | done status => exact fun told => congrArg (fun u : State => Res.done (u.writeG d.toNat _ _)) told

/-- CPYST reports an id that no recent transfer has as unknown, and else the transfer's state. -/
theorem cpyst_reports (unpaired : s.here.pairing = none) (clear : s.clear (.cpyst d a) = true) :
    let id : BitVec 16 := (s.g a.toNat).setWidth 16
    let found := s.here.transfers.find? fun t => t.id == id
    let gives := fun (w : Word) => ∃ t, exec (.cpyst d a) s = .next t ∧
      s.Completes t (.cpyst d a) [.g d.toNat, .status 0x0A] ∧ t.me.chk ||| 3 = s.me.chk ||| 3 ∧
      t.me.readG d.toNat = writtenG d.toNat w (poisonedSource (.cpyst d a) s)
    (id = 0 ∨ found = none → gives (1 <<< 61)) ∧ ∀ x, id ≠ 0 → found = some x → gives x.state.word := by
  intro id found gives
  have step := exec_cpyst_unpaired (d := d) (a := a) unpaired
  refine ⟨fun unknown => ?_, fun x valid known => ?_⟩
  · refine cpyst_gives (.inl rfl) (step.trans (issue_done clear ?_))
    have missing : (s.here.transfers.find? fun t => t.id == id && id != 0#16) = none := by
      refine List.find?_eq_none.mpr fun t ht => ?_
      rcases unknown with zero | absent
      · simp [zero]
      · have other := List.find?_eq_none.mp absent t ht
        simp [other]
    rw [missing]
  · refine cpyst_gives (s.acquired_reported x) (step.trans (issue_done clear ?_))
    have present : (s.here.transfers.find? fun t => t.id == id && id != 0#16) = some x := by
      rw [← known]
      congr 1
      funext t
      exact Bool.and_eq_left_iff_imp.mpr fun _ => bne_iff_ne.mpr valid
    rw [present]

end
end
end Sys2Proof.Machine
end

section
/-! O45: COPY_START: what an engine's bookkeeping leaves unchanged, the head entry that it takes, and the pieces. -/
namespace Sys2Proof.Machine

/-! ### What an engine leaves unchanged -/

/-- The copy queues of the cores, the stores of the homes and main memory are as before. -/
structure State.KeepsMemory (s t : State) : Prop where
  eqs   : ∀ m, (t.core m).eqs = (s.core m).eqs
  store : ∀ h, t.storeAt h = s.storeAt h
  dram  : t.dram = s.dram

section
variable {s t u : State}

theorem State.KeepsMemory.refl (s : State) : s.KeepsMemory s := ⟨fun _ => rfl, fun _ => rfl, rfl⟩
theorem State.KeepsMemory.trans (h : s.KeepsMemory t) (k : t.KeepsMemory u) : s.KeepsMemory u :=
  ⟨fun m => (k.eqs m).trans (h.eqs m), fun g => (k.store g).trans (h.store g), k.dram.trans h.dram⟩

theorem State.KeepsMemory.of_tables (cores : t.cores = s.cores) (clusters : t.clusters = s.clusters)
    (dram : t.dram = s.dram) : s.KeepsMemory t := by
  refine ⟨fun m => ?_, fun h => ?_, dram⟩
  · rw [State.core, cores]
    rfl
  · cases h with
    | localMem m =>
      rw [State.storeAt, State.core, cores]
      rfl
    | scratch n =>
      rw [State.storeAt, State.cluster, clusters]
      rfl
    | channel ch => rfl
    | peer id => rfl

theorem State.KeepsMemory.modCore (s : State) (c : Nat) {f : Core → Core}
    (keeps : ∀ k, (f k).eqs = k.eqs ∧ (f k).store = k.store) : s.KeepsMemory (s.modCore c f) := by
  refine ⟨fun m => ?_, s.storeAt_modCore c fun k => (keeps k).2, rfl⟩
  rw [State.core_modCore]
  split
  · next same => rw [(keeps _).1, same]
  · rfl

theorem State.KeepsMemory.addPending (s : State) (c : Nat) (bs : List Nat) (n : Nat) :
    s.KeepsMemory (s.addPending c bs n) := by
  unfold State.addPending
  split
  · exact .refl s
  · exact .modCore s c fun _ => ⟨rfl, rfl⟩

theorem State.KeepsMemory.spendPacket (s : State) (c : Nat) (h : Home) (near back : Bool) (n : Nat) :
    s.KeepsMemory (s.spendPacket c h near back n) := by
  obtain ⟨b, spent⟩ := s.spendPacket_frame c h near back n
  rw [spent]
  exact .of_tables rfl rfl rfl

theorem State.KeepsMemory.cutIsolated (s : State) (p : Packet) : s.KeepsMemory (s.cutIsolated p) := by
  unfold State.cutIsolated
  split
  · split
    · unfold State.cutOff
      dsimp only
      split <;> exact .of_tables rfl rfl rfl
    · exact .refl s
  · exact .refl s

/-- A packet of no group that leaves. -/
theorem State.KeepsMemory.launchPacket (s : State) {p : Packet} (group : p.group = none) :
    s.KeepsMemory (s.launchPacket p) := by
  unfold State.launchPacket
  rw [group]
  dsimp only
  refine (State.KeepsMemory.trans (State.KeepsMemory.trans ?_ (.addPending _ _ _ _)) (.spendPacket _ _ _ _ _ _)).trans
    (.cutIsolated _ _)
  split
  · split
    · exact .of_tables rfl rfl rfl
    · exact .of_tables rfl rfl rfl
  · exact .of_tables rfl rfl rfl

theorem State.KeepsMemory.engineAsk (s : State) (c q : Nat) (w : Word) (h : Home) (pa : Option Nat) (rot n : Nat)
    (dest : Dest) (counted : List Nat) : s.KeepsMemory (s.engineAsk c q w h pa rot n dest counted) := by
  unfold State.engineAsk
  dsimp only
  refine State.KeepsMemory.trans ?_ (.launchPacket _ rfl)
  exact .of_tables rfl rfl rfl

theorem State.KeepsMemory.engineArrives (s : State) (at' : EngineAt) (rank : Nat) :
    s.KeepsMemory (s.engineArrives at' rank) := by
  unfold State.engineArrives
  split
  · exact .of_tables rfl rfl rfl
  · exact .refl s

theorem State.KeepsMemory.walkFailed (s : State) (die space : Nat) (w : Word) :
    s.KeepsMemory (s.walkFailed die space w) := by
  unfold State.walkFailed
  split
  · exact .refl s
  · split
    · exact .of_tables rfl rfl rfl
    · exact .refl s

theorem State.KeepsMemory.engineNote (s : State) (c : Nat) (w : Word) (n : Nat) (write : Bool) (status : Nat) :
    s.KeepsMemory (s.engineNote c w n write status) := by
  unfold State.engineNote
  dsimp only
  split
  · split
    · exact .of_tables rfl rfl rfl
    · exact .refl s
  · exact .walkFailed s _ _ _
  · split
    · exact .of_tables rfl rfl rfl
    · exact .refl s
  · exact .refl s

theorem Core.eq_modEq (k : Core) (q n : Nat) (f : CopyQueue → CopyQueue) :
    (k.modEq q f).eq n = if n = q then f (k.eq q) else k.eq n := Tab.get_put _ _ _ _ _

end

/-! ### The head entry of a queue -/

theorem exec_copyStart (c : Nat) (turn : CopyTurn) (s : State) : exec (.copyStart c turn) s = execCopyStart c turn s := rfl

theorem Core.markTransfer_frame (k : Core) (id : BitVec 16) (st : CopyState) :
    (k.markTransfer id st).eqs = k.eqs ∧ (k.markTransfer id st).store = k.store ∧
      (k.markTransfer id st).ctxs = k.ctxs ∧ (k.markTransfer id st).pairing = k.pairing ∧
      (k.markTransfer id st).era = k.era := by
  unfold Core.markTransfer
  split
  · exact ⟨rfl, rfl, rfl, rfl, rfl⟩
  · exact ⟨rfl, rfl, rfl, rfl, rfl⟩

theorem Core.eq_congr {k m : Core} (h : k.eqs = m.eqs) (q : Nat) : k.eq q = m.eq q := by rw [Core.eq, h]; rfl

/-- An engine takes an entry: it runs, and the entries after it stay. -/
def State.takeEntry (s : State) (c q : Nat) (e : CopyEntry) (rest : List CopyEntry) (r : CopyRun) : State :=
  s.modCore c fun k => (k.modEq q fun _ => { entries := rest, running := some r }).markTransfer e.id .running

/-- From `s`, a run has begun and no memory has changed. -/
def State.Begins (s t : State) (c q : Nat) (rest : List CopyEntry) (r : CopyRun) : Prop :=
  t.dram = s.dram ∧ (∀ m, (t.core m).store = (s.core m).store) ∧
    (t.core c).eq q = { entries := rest, running := some r }

section
variable {s t u : State} {c q engine piece : Nat} {e : CopyEntry} {rest : List CopyEntry} {r : CopyRun}

theorem State.Begins.then_keeps (h : s.Begins t c q rest r) (k : t.KeepsMemory u) : s.Begins u c q rest r := by
  obtain ⟨dram, store, queue⟩ := h
  refine ⟨k.dram.trans dram, fun m => (k.store (.localMem m)).trans (store m), ?_⟩
  rw [Core.eq, k.eqs]
  exact queue

theorem State.Begins.takeEntry (k : s.KeepsMemory u) (e : CopyEntry) : s.Begins (u.takeEntry c q e rest r) c q rest r := by
  have frame (x : Core) := (x.modEq q fun _ => { entries := rest, running := some r }).markTransfer_frame e.id .running
  refine ⟨k.dram, fun m => ?_, ?_⟩
  · exact (u.storeAt_modCore c (fun x => (frame x).2.1) (.localMem m)).trans (k.store (.localMem m))
  · rw [State.takeEntry, State.core_modCore_self, Core.eq_congr (frame _).1, Core.eq_modEq, if_pos rfl]

/-- What COPY_START does with the head entry of an idle queue. -/
theorem copyStart_head (queue : (s.core c).eq q = { entries := e :: rest, running := none })
    (free : s.freeEngine (dieOf c) = some engine) (unsaved : (s.core c).saved = none) :
    exec (.copyStart c ⟨q, piece⟩) s =
      .next (if (s.core c).joined e.joins then s.beginCopy c q engine e rest else s) := by
  rw [exec_copyStart, execCopyStart]
  dsimp only
  rw [queue, free, unsaved]
  show Host.Outcome.next (if (s.core c).joined e.joins && true then s.beginCopy c q engine e rest else s) = _
  rw [Bool.and_true]

/-- The run of an entry that has not begun, and of one that had begun before a pre-emption. -/
def CopyEntry.run (e : CopyEntry) (engine : Nat) : CopyRun :=
  match e.begun with
  | some b => { entry := e, engine := engine, status := b.2.1, bytes := b.2.2, left := 0, todo := b.1 }
  | none => { entry := e, engine := engine, status := 0, bytes := 0, left := 0,
              todo := List.range (copyPieces e.fields).length }

/-- Where the guard word of an entry lies. -/
def CopyEntry.guardAt (e : CopyEntry) : Word := e.fields.getD 7 0
def CopyEntry.guardOff (e : CopyEntry) : Nat := if isChip e.guardAt then chipOff e.guardAt else bitsN e.guardAt 56 0

/-- What an engine does with a guarded entry that it takes, by where the guard word lies. -/
def State.readGuard (s : State) (c q engine : Nat) (e : CopyEntry) (rest : List CopyEntry) : State :=
  match s.engineAt c e.guardAt 8 0 false with
  | .fail n => (s.engineNote c e.guardAt 8 false n).takeEntry c q e rest ((e.run engine).fail n)
  | .ask va => s.seek (dieOf c) (s.spaceOf c) va .read
  | .far h pa =>
    match s.engineStall (.far h pa) false with
    | some b => s.budgetStall b.1 b.2
    | none => (s.takeEntry c q e rest { e.run engine with guard := true }).engineAsk c q e.guardAt h pa 0 8 (.guard q) []
  | at' =>
    if !s.engineFree at' (engineRank (dieOf c) engine) then s
    else (s.engineArrives at' (engineRank (dieOf c) engine)).takeEntry c q e rest
      (if leBits 64 (s.engineRead c at' 8).1 = e.fields.getD 8 0 then e.run engine else (e.run engine).fail 1)

/-- What an engine does with an entry that it takes, by its checks in order. -/
theorem beginCopy_eq (s : State) (c q engine : Nat) (e : CopyEntry) (rest : List CopyEntry) :
    s.beginCopy c q engine e rest =
      if (s.core c).killed then s.takeEntry c q e rest ((e.run engine).fail 8)
      else if e.begun.isSome || e.guardAt = 0 then s.takeEntry c q e rest (e.run engine)
      else if e.guardOff % 8 ≠ 0 then s.takeEntry c q e rest ((e.run engine).fail 9)
      else s.readGuard c q engine e rest := by
  have pieces : span 0 (copyPieces e.fields).length = List.range (copyPieces e.fields).length := span_zero _
  unfold State.beginCopy
  rw [pieces]
  rfl

theorem beginCopy_guarded (alive : (s.core c).killed = false) (fresh : e.begun = none) (guarded : e.guardAt ≠ 0) :
    s.beginCopy c q engine e rest =
    if e.guardOff % 8 ≠ 0 then s.takeEntry c q e rest ((e.run engine).fail 9) else s.readGuard c q engine e rest := by
  rw [beginCopy_eq, if_neg (ne_true_of_eq_false alive), if_neg (by simpa [fresh] using guarded)]

/-- The queue's run after COPY_START has been performed with its head entry due. -/
def State.StartsCopy (s : State) (c q piece : Nat) (rest : List CopyEntry) (r : CopyRun) : Prop :=
  ∃ t, exec (.copyStart c ⟨q, piece⟩) s = .next t ∧ s.Begins t c q rest r

section
variable (queue : (s.core c).eq q = { entries := e :: rest, running := none }) (free : s.freeEngine (dieOf c) = some engine)
  (unsaved : (s.core c).saved = none) (joined : (s.core c).joined e.joins = true)
include queue free unsaved joined

theorem startsCopy_of_begins {r : CopyRun} (h : s.Begins (s.beginCopy c q engine e rest) c q rest r) :
    s.StartsCopy c q piece rest r := by
  refine ⟨_, copyStart_head queue free unsaved, ?_⟩
  rw [if_pos joined]
  exact h

theorem copyStart_killed (killed : (s.core c).killed = true) :
    s.StartsCopy c q piece rest ((e.run engine).fail 8) := by
  refine startsCopy_of_begins queue free unsaved joined ?_
  rw [beginCopy_eq, if_pos killed]
  exact .takeEntry (.refl s) e

/-- Without a guard, or when it had begun before, an entry has its pieces to do. -/
theorem copyStart_runs (alive : (s.core c).killed = false) (plain : e.begun.isSome = true ∨ e.guardAt = 0) :
    s.StartsCopy c q piece rest (e.run engine) := by
  refine startsCopy_of_begins queue free unsaved joined ?_
  rw [beginCopy_eq, if_neg (ne_true_of_eq_false alive), if_pos (by simpa using plain)]
  exact .takeEntry (.refl s) e

section
variable (alive : (s.core c).killed = false) (fresh : e.begun = none) (guarded : e.guardAt ≠ 0)
include alive fresh guarded

theorem copyStart_crooked (crooked : e.guardOff % 8 ≠ 0) : s.StartsCopy c q piece rest ((e.run engine).fail 9) := by
  refine startsCopy_of_begins queue free unsaved joined ?_
  rw [beginCopy_guarded alive fresh guarded, if_pos crooked]
  exact .takeEntry (.refl s) e

section
variable (straight : e.guardOff % 8 = 0)
include straight

theorem startsCopy_of_guard {r : CopyRun} (h : s.Begins (s.readGuard c q engine e rest) c q rest r) :
    s.StartsCopy c q piece rest r := by
  refine startsCopy_of_begins queue free unsaved joined ?_
  rw [beginCopy_guarded alive fresh guarded, if_neg (not_not.mpr straight)]
  exact h

theorem copyStart_guardFails {n : Nat} (fails : s.engineAt c e.guardAt 8 0 false = .fail n) :
    s.StartsCopy c q piece rest ((e.run engine).fail n) := by
  refine startsCopy_of_guard queue free unsaved joined alive fresh guarded straight ?_
  rw [State.readGuard, fails]
  exact .takeEntry (.engineNote ..) e

/-- A guard word on this die decides at once. -/
theorem copyStart_guardHere (at' : (∃ h offs, s.engineAt c e.guardAt 8 0 false = .chip h offs) ∨
      ∃ pa, s.engineAt c e.guardAt 8 0 false = .mem pa)
    (served : s.engineFree (s.engineAt c e.guardAt 8 0 false) (engineRank (dieOf c) engine) = true) :
    let word := leBits 64 (s.engineRead c (s.engineAt c e.guardAt 8 0 false) 8).1
    (word = e.fields.getD 8 0 → s.StartsCopy c q piece rest (e.run engine)) ∧
      (word ≠ e.fields.getD 8 0 → s.StartsCopy c q piece rest ((e.run engine).fail 1)) := by
  have started : s.StartsCopy c q piece rest
      (if leBits 64 (s.engineRead c (s.engineAt c e.guardAt 8 0 false) 8).1 = e.fields.getD 8 0 then e.run engine
        else (e.run engine).fail 1) := by
    refine startsCopy_of_guard queue free unsaved joined alive fresh guarded straight ?_
    rcases at' with ⟨h, offs, place⟩ | ⟨pa, place⟩
    all_goals
      rw [place] at served ⊢
      rw [State.readGuard, place]
      dsimp only
      rw [served]
      exact .takeEntry (.engineArrives ..) e
  exact ⟨fun equal => by rwa [if_pos equal] at started, fun differs => by rwa [if_neg differs] at started⟩

/-- A guard word beyond the die is asked for. -/
theorem copyStart_guardFar {h : Home} {pa : Option Nat} (far : s.engineAt c e.guardAt 8 0 false = .far h pa)
    (budget : s.engineStall (.far h pa) false = none) :
    s.StartsCopy c q piece rest { e.run engine with guard := true } := by
  refine startsCopy_of_guard queue free unsaved joined alive fresh guarded straight ?_
  rw [State.readGuard, far]
  dsimp only
  rw [budget]
  exact (State.Begins.takeEntry (.refl s) e).then_keeps (.engineAsk ..)

end
end
end
end
end Sys2Proof.Machine
end

section
/-! O45: COPY_START: the pieces of a running copy. -/
namespace Sys2Proof.Machine

/-! ### What a piece takes before it is performed -/

/-- Budgets, ports and the cores' copy queues apart, the device is as before. -/
structure State.Spends (s t : State) : Prop where
  outside : t = { s with cores := t.cores, budgets := t.budgets, ports := t.ports }
  core    : ∀ m, t.core m = { s.core m with eqs := (t.core m).eqs }

section
variable {s t u : State}

theorem State.Spends.trans (h : s.Spends t) (k : t.Spends u) : s.Spends u := by
  refine ⟨?_, fun m => ?_⟩
  · have later := k.outside
    rw [h.outside] at later
    exact later
  · have later := k.core m
    rw [h.core m] at later
    exact later

theorem State.Spends.spend (s : State) (activity consumer n : Nat) : s.Spends (s.spend activity consumer n) := by
  obtain ⟨b, spent⟩ := s.spend_frame activity consumer n
  rw [spent]
  exact ⟨rfl, fun _ => rfl⟩

theorem State.Spends.modRun (s : State) (c q : Nat) (f : CopyRun → CopyRun) : s.Spends (s.modRun c q f) := by
  refine ⟨rfl, fun m => ?_⟩
  rw [State.modRun, State.core_modCore]
  split
  · next same => rw [same]; rfl
  · rfl

theorem State.Spends.engineArrives (s : State) (at' : EngineAt) (rank : Nat) : s.Spends (s.engineArrives at' rank) := by
  unfold State.engineArrives
  split
  · exact ⟨rfl, fun _ => rfl⟩
  · exact ⟨rfl, fun _ => rfl⟩

section
variable (h : s.Spends t)
include h

theorem State.Spends.partOf (c : Nat) : t.partOf c = s.partOf c := by
  unfold State.partOf State.inColumn
  rw [h.core, h.outside]
theorem State.Spends.odiOf (c : Nat) : t.odiOf c = s.odiOf c := by
  unfold State.odiOf
  rw [h.partOf, h.outside]
  rfl
theorem State.Spends.storeAt (g : Home) : t.storeAt g = s.storeAt g := by
  cases g with
  | localMem m =>
    have store := congrArg Core.store (h.core m)
    exact store
  | scratch n =>
    rw [h.outside]
    rfl
  | channel ch => rfl
  | peer id => rfl
theorem State.Spends.dram : t.dram = s.dram := by rw [h.outside]
theorem State.Spends.net : t.net = s.net := by rw [h.outside]
theorem State.Spends.owned (odi pa : Nat) : t.owned odi pa = s.owned odi pa := by
  rw [h.outside]
  rfl
theorem State.Spends.engineCounts (c : Nat) (at' : EngineAt) : t.engineCounts c at' = s.engineCounts c at' := by
  unfold State.engineCounts State.plotsHolding
  rw [h.core]
theorem State.Spends.engineRead (c n : Nat) (at' : EngineAt) : t.engineRead c at' n = s.engineRead c at' n := by
  cases at' with
  | chip g offs =>
    show (t.storeAt g).load offs = (s.storeAt g).load offs
    rw [h.storeAt]
  | mem pa =>
    unfold State.engineRead
    dsimp only
    rw [h.odiOf]
    unfold State.actDram
    dsimp only
    rw [h.owned, h.outside]
    cases s.owned (s.odiOf c) pa <;> rfl
  | far g pa => rfl
  | fail n => rfl
  | ask va => rfl
  | wait => rfl

end
end

/-! ### The run of a queue -/

/-- A queue's run, with the entries after it as in `s`. -/
def State.RunsCopy (s t : State) (c q : Nat) (r : CopyRun) : Prop :=
  ((t.core c).eq q).running = some r ∧ ((t.core c).eq q).entries = ((s.core c).eq q).entries

section
variable {s t u : State} {c q : Nat} {r : CopyRun}

theorem State.RunsCopy.of_running (running : ((s.core c).eq q).running = some r) : s.RunsCopy s c q r := ⟨running, rfl⟩

theorem State.RunsCopy.modRun (h : s.RunsCopy t c q r) (f : CopyRun → CopyRun) : s.RunsCopy (t.modRun c q f) c q (f r) := by
  obtain ⟨running, entries⟩ := h
  have queue : ((t.modRun c q f).core c).eq q =
      { (t.core c).eq q with running := ((t.core c).eq q).running.map f } := by
    rw [State.modRun, State.core_modCore_self, Core.eq_modEq, if_pos rfl]
  rw [State.RunsCopy, queue]
  exact ⟨by rw [running]; rfl, entries⟩

theorem State.RunsCopy.of_eqs (h : s.RunsCopy t c q r) (eqs : (u.core c).eqs = (t.core c).eqs) : s.RunsCopy u c q r := by
  rw [State.RunsCopy, Core.eq_congr eqs]
  exact h

theorem State.RunsCopy.then_keeps (h : s.RunsCopy t c q r) (k : t.KeepsMemory u) : s.RunsCopy u c q r := h.of_eqs (k.eqs c)

theorem State.RunsCopy.spend (h : s.RunsCopy t c q r) (activity consumer n : Nat) :
    s.RunsCopy (t.spend activity consumer n) c q r := by
  obtain ⟨b, spent⟩ := t.spend_frame activity consumer n
  rw [spent]
  exact h

end

/-! ### Where an engine finds bytes -/

section
variable {s : State} {c n rot : Nat} {w : Word} {write : Bool}

/-- The branch of a main memory address. -/
theorem engineAt_mem {pa : Nat} (at' : s.engineAt c w n rot write = .mem pa) : s.owned (s.odiOf c) pa = true := by
  unfold State.engineAt at at'
  dsimp only at at'
  split at at'
  · repeat' split at at'
    all_goals cases at'
  · split at at'
    · cases at'
    · split at at'
      · cases at'
      · cases at'
      · split at at'
        · split at at' <;> cases at'
        · split at at'
          · cases at'
          · split at at'
            · next own =>
              cases at'
              exact own
            · cases at'

theorem State.engineHome_onChip (s : State) (c : Nat) (w : Word) : (s.engineHome c w).onChip := by
  unfold State.engineHome
  split
  · exact ⟨fun _ => Home.noConfusion, fun _ => Home.noConfusion⟩
  · exact ⟨fun _ => Home.noConfusion, fun _ => Home.noConfusion⟩

/-- The branch of a handle on this die: the offsets of its bytes. -/
theorem engineAt_chip {h : Home} {offs : List Nat} (at' : s.engineAt c w n rot write = .chip h offs) :
    h.onChip ∧ offs.length = n := by
  unfold State.engineAt at at'
  dsimp only at at'
  generalize (if write = true then Want.write else Want.read) = want at at'
  split at at'
  · iterate 6
      split at at'
      · cases at'
    split at at'
    · cases at'
    · cases at'
      exact ⟨s.engineHome_onChip c w, length_physAll ..⟩
  · repeat' split at at'
    all_goals cases at'

/-- As many bytes are read as were asked for. -/
theorem length_engineRead {v : State} {at' : EngineAt} (found : s.engineAt c w n rot write = at')
    (here : (∃ h offs, at' = .chip h offs) ∨ ∃ pa, at' = .mem pa) : (v.engineRead c at' n).1.length = n := by
  rcases here with ⟨h, offs, rfl⟩ | ⟨pa, rfl⟩
  · exact (List.length_map _).trans (engineAt_chip found).2
  · unfold State.engineRead State.actDram
    dsimp only
    split
    · exact List.length_replicate
    · exact (List.length_map _).trans (span_length ..)

end

/-! ### Writing a line on this die -/

section
variable {v : State} {h : Home} {offs : List Nat} {data : List Byte}

/-- An unmasked write of an on-chip store, whatever monitors see it. -/
theorem State.actChip_written (chip : h.onChip) (ok : (v.storeAt h).ok = true) (len : data.length = offs.length)
    (distinct : offs.Nodup) (bad : Bool) (rel : Option Release) :
    ∃ m net replies replay, (v.actChip h offs (.write data []) bad rel).1 =
        { v.setStore h m with net := net, replies := replies, replay := replay } ∧
      offs.map m.bytes.byte = data ∧ ∀ a, a ∉ offs → m.bytes.byte a = (v.storeAt h).bytes.byte a := by
  obtain ⟨inside, outside⟩ := Store.putBytes_unmasked ok len.symm distinct bad rel
  unfold State.actChip
  dsimp only [Act.writes]
  generalize putBytes 8 (v.storeAt h).bytes (v.storeAt h).poison (v.storeAt h).releases offs data
    (fullMask [] data.length) bad rel = put at inside outside
  obtain ⟨net, replies, replay, fired, -, -⟩ := fireMonitors_chip (v.setStore h
    { v.storeAt h with bytes := put.1, poison := put.2.1, releases := put.2.2 }) chip.1
  exact ⟨_, net, replies, replay, fired, inside, outside⟩

theorem State.setStore_eqs (v : State) (h : Home) (m : Store) (d : Nat) :
    ((v.setStore h m).core d).eqs = (v.core d).eqs := by
  cases h with
  | localMem c =>
    show ((v.modCore c _).core d).eqs = _
    rw [State.core_modCore]
    split
    · next same => rw [same]
    · rfl
  | scratch n => rfl
  | channel ch => rfl
  | peer id => rfl

theorem State.KeepsMemory.traceAt (s : State) (src : Nat) (loc : Word) : s.KeepsMemory (s.traceAt src loc) := by
  unfold State.traceAt
  dsimp only
  split
  · exact .refl s
  · split
    · exact .modCore s _ fun _ => ⟨rfl, rfl⟩
    · exact ⟨fun _ => rfl, s.storeAt_modCluster _ fun _ => rfl, rfl⟩

/-- A line written to an on-chip store replaces its bytes and no others. -/
theorem State.engineWrite_chip (chip : h.onChip) (ok : (v.storeAt h).ok = true) (len : data.length = offs.length)
    (distinct : offs.Nodup) (c : Nat) (w : Word) (bad : Bool) :
    let t := v.engineWrite c w (.chip h offs) data bad
    (∀ m, (t.core m).eqs = (v.core m).eqs) ∧ t.dram = v.dram ∧ offs.map (t.storeAt h).bytes.byte = data ∧
      (∀ a, a ∉ offs → (t.storeAt h).bytes.byte a = (v.storeAt h).bytes.byte a) ∧
      ∀ g, g ≠ h → t.storeAt g = v.storeAt g := by
  have traced : v.KeepsMemory (if v.engineNear c w then v else v.traceAt c w) := by
    split
    · exact .refl v
    · exact .traceAt v c w
  unfold State.engineWrite
  dsimp only
  generalize (if v.engineNear c w then v else v.traceAt c w) = u at traced
  obtain ⟨m, net, replies, replay, written, inside, outside⟩ :=
    State.actChip_written chip (by rw [traced.store]; exact ok) len distinct bad none
  rw [written]
  have store (g : Home) : State.storeAt { u.setStore h m with net := net, replies := replies, replay := replay } g =
      (u.setStore h m).storeAt g := by cases g <;> rfl
  rw [store, State.storeAt_setStore_same _ chip]
  refine ⟨fun d => (u.setStore_eqs h m d).trans (traced.eqs d), ?_, inside, fun a ha => ?_, fun g other => ?_⟩
  · refine Eq.trans ?_ traced.dram
    cases h <;> rfl
  · rw [outside a ha, traced.store]
  · rw [store, State.storeAt_setStore_ne _ other, traced.store]

/-- A line written to main memory of the domain replaces its bytes and no others. -/
theorem State.engineWrite_mem {c pa : Nat} (own : v.owned (v.odiOf c) pa = true) (wf : v.dram.wf = true) (w : Word)
    (bad : Bool) :
    let t := v.engineWrite c w (.mem pa) data bad
    t.cores = v.cores ∧ t.dram.read pa data.length = data ∧
      ∀ a, a < pa ∨ pa + data.length ≤ a → t.dram.byte a = v.dram.byte a := by
  have full : mergeBytes (v.dram.read pa data.length) data (fullMask [] data.length) = data :=
    mergeBytes_full _ _ (Memory.length_read ..).symm
  have inside := read_putBytes (unit := 64) (marks := v.dramBad) (rels := v.releases) pa data.length data
    (fullMask [] data.length) bad none wf
  have outside (a : Nat) := byte_putBytes_outside (unit := 64) (marks := v.dramBad) (rels := v.releases) pa data.length
    data (fullMask [] data.length) bad none wf (x := a)
  unfold State.engineWrite State.actDram
  dsimp only [Act.size, Act.writes]
  rw [own, if_neg (by simp)]
  dsimp only
  generalize putBytes 64 v.dram v.dramBad v.releases (span pa data.length) data (fullMask [] data.length) bad none = put
    at inside outside ⊢
  obtain ⟨net, replies, replay, f, fired, -, -, -⟩ := fireMonitors_spec { v with
    dram := put.1, dramBad := put.2.1, releases := put.2.2 } (.channel (channelOf pa))
  rw [fired]
  exact ⟨rfl, inside.trans full, outside⟩

end

/-! ### One piece -/

/-- A place that an engine reads or writes, at once or by a packet. -/
def EngineAt.ready : EngineAt → Bool
  | .chip _ _ | .mem _ | .far _ _ => true
  | _ => false

/-- What a piece of `n` bytes takes before it is read. -/
def State.pieceTaken (s : State) (c q rank i n : Nat) (from_ : EngineAt) : State :=
  ((s.spend 0 (s.odiOf c) n).modRun c q fun r => { r with todo := r.todo.filter (· != i) }).engineArrives from_ rank

/-- A piece that is read at once goes on to where it is written; another is asked for. -/
def State.pieceGoes (v : State) (c q rank n : Nat) (src dst : Word) (rs rd : Nat) (from_ dest : EngineAt) : State :=
  match from_ with
  | .far h pa =>
    (v.engineAsk c q src h pa rs n (.copied q dst rd) (v.engineCounts c dest)).modRun c q fun r =>
      { r with left := r.left + 1 }
  | _ =>
    let got := v.engineRead c from_ n
    v.putLine c q rank dst rd dest got.1 got.2 (v.engineCounts c dest) none

section
variable {s : State} {c q piece n row : Nat} {src dst : Word} {r : CopyRun} {from_ to_ : EngineAt}

theorem copyStart_notDue (running : ((s.core c).eq q).running = some r) (rest : piece ∉ r.todo) :
    exec (.copyStart c ⟨q, piece⟩) s = .next s := by
  have absent : r.todo.contains piece = false := by simpa using rest
  rw [exec_copyStart, execCopyStart]
  dsimp only
  rw [running]
  dsimp only
  rw [absent]
  simp

theorem copyStart_piece (running : ((s.core c).eq q).running = some r) (unguarded : r.guard = false)
    (unsaved : (s.core c).saved = none) (cut : (copyPieces r.entry.fields)[piece]? = some (row, src, dst, n))
    (due : piece ∈ r.todo) : exec (.copyStart c ⟨q, piece⟩) s = .next (s.copyPiece c q r piece src dst n) := by
  have present : r.todo.contains piece = true := by simpa using due
  rw [exec_copyStart, execCopyStart]
  dsimp only
  rw [running]
  dsimp only
  rw [unguarded, present, unsaved, cut]
  rfl

/-- The flags of a run, their rotation codes, and the rank of its engine. -/
def CopyRun.flags (r : CopyRun) : Word := r.entry.fields.getD 6 0
def CopyRun.srcRot (r : CopyRun) : Nat := bitsN r.flags 39 36
def CopyRun.dstRot (r : CopyRun) : Nat := bitsN r.flags 43 40

section
variable (budget : s.budgetLeft 0 (s.odiOf c) = true) (source : s.engineAt c src n r.srcRot false = from_)
  (target : s.engineAt c dst n r.dstRot true = to_)
include budget source

theorem copyPiece_sourceFails {st : Nat} (fails : from_ = .fail st) :
    s.copyPiece c q r piece src dst n = (s.engineNote c src n false st).modRun c q fun r => r.fail st := by
  have source' : s.engineAt c src n (bitsN (r.entry.fields.getD 6 0) 39 36) false = .fail st := source.trans fails
  unfold State.copyPiece
  dsimp only
  rw [budget, source']
  rfl

include target

theorem copyPiece_targetFails {st : Nat} (here : from_.ready = true) (fails : to_ = .fail st) :
    s.copyPiece c q r piece src dst n = (s.engineNote c dst n true st).modRun c q fun r => r.fail st := by
  have source' : s.engineAt c src n (bitsN (r.entry.fields.getD 6 0) 39 36) false = from_ := source
  have target' : s.engineAt c dst n (bitsN (r.entry.fields.getD 6 0) 43 40) true = .fail st := target.trans fails
  unfold State.copyPiece
  dsimp only
  rw [budget, source', target']
  cases from_ with
  | chip h offs => rfl
  | mem pa => rfl
  | far h pa => rfl
  | fail e => cases here
  | ask va => cases here
  | wait => cases here

/-- With both places found, served and within budget a piece goes. -/
theorem copyPiece_goes (here : from_.ready = true) (there : to_.ready = true)
    (served : s.engineFree from_ (engineRank (dieOf c) r.engine) = true)
    (serves : s.engineFree to_ (engineRank (dieOf c) r.engine) = true)
    (unstalled : s.engineStall from_ false = none) (within : s.engineStall to_ true = none) :
    s.copyPiece c q r piece src dst n =
      (s.pieceTaken c q (engineRank (dieOf c) r.engine) piece n from_).pieceGoes c q (engineRank (dieOf c) r.engine) n
        src dst r.srcRot r.dstRot from_ to_ := by
  have source' : s.engineAt c src n (bitsN (r.entry.fields.getD 6 0) 39 36) false = from_ := source
  have target' : s.engineAt c dst n (bitsN (r.entry.fields.getD 6 0) 43 40) true = to_ := target
  unfold State.copyPiece
  dsimp only
  rw [budget, source', target']
  cases from_ with
  | fail e => cases here
  | ask va => cases here
  | wait => cases here
  | _ =>
    cases to_ with
    | fail e => cases there
    | ask va => cases there
    | wait => cases there
    | _ =>
      dsimp only
      rw [served, serves, unstalled, within]
      rfl

end

theorem CopyRun.fail_eq (unguarded : r.guard = false) (st : Nat) :
    r.fail st = { r with status := if r.status = 0 ∨ r.status = 5 then st else r.status, todo := [] } := by
  have same : (if r.status = 0 || r.status = 5 then st else r.status) =
      if r.status = 0 ∨ r.status = 5 then st else r.status := by simp
  rw [CopyRun.fail, same, ← unguarded]

/-- A piece that fails ends the run and leaves memory. -/
theorem State.RunsCopy.failed (running : ((s.core c).eq q).running = some r) (w : Word) (write : Bool) (st : Nat) :
    let t := (s.engineNote c w n write st).modRun c q fun r => r.fail st
    s.RunsCopy t c q (r.fail st) ∧ t.dram = s.dram :=
  ⟨((State.RunsCopy.of_running running).then_keeps (.engineNote ..)).modRun _, (State.KeepsMemory.engineNote ..).dram⟩

/-- The run with a piece less to do. -/
def CopyRun.without (r : CopyRun) (piece : Nat) : CopyRun := { r with todo := r.todo.filter (· != piece) }

theorem State.Spends.pieceTaken (s : State) (c q rank i n : Nat) (at' : EngineAt) :
    s.Spends (s.pieceTaken c q rank i n at') :=
  ((State.Spends.spend ..).trans (.modRun ..)).trans (.engineArrives ..)

theorem State.RunsCopy.pieceTaken (running : ((s.core c).eq q).running = some r) (rank n : Nat) (at' : EngineAt) :
    s.RunsCopy (s.pieceTaken c q rank piece n at') c q (r.without piece) :=
  (((State.RunsCopy.of_running running).spend _ _ _).modRun _).then_keeps (.engineArrives ..)

theorem EngineAt.ready_of_free {at' : EngineAt} {rank : Nat} (noFail : ∀ st, at' ≠ .fail st) (noAsk : ∀ va, at' ≠ .ask va)
    (free : s.engineFree at' rank = true) : at'.ready = true := by
  cases at' with
  | chip h offs => rfl
  | mem pa => rfl
  | far h pa => rfl
  | fail st => exact absurd rfl (noFail st)
  | ask va => exact absurd rfl (noAsk va)
  | wait => cases free

theorem engineStall_device {h : Home} (device : ∀ id, h ≠ .peer id) (pa : Option Nat) (write : Bool) :
    s.engineStall (.far h pa) write = none := by
  unfold State.engineStall
  split
  · next id pa' far =>
    cases far
    exact absurd rfl (device id)
  · rfl

/-! ### A piece that a home is asked for, and one that is sent -/

/-- The request of an engine to a home of this device joins what is on its way. -/
theorem State.engineAsk_net (v : State) (c q : Nat) (w : Word) {h : Home} (device : ∀ id, h ≠ .peer id)
    (pa : Option Nat) (rot n : Nat) (dest : Dest) (counted : List Nat) :
    ∃ p, (v.engineAsk c q w h pa rot n dest counted).net = v.net ++ [p] ∧ p.home = h ∧ p.act = .read n ∧ p.core = c ∧
      p.counted = counted := by
  unfold State.engineAsk
  dsimp only
  exact ⟨_, (State.launchPacket_joins _ _ device rfl).1, rfl, rfl, rfl, rfl⟩

theorem pieceGoes_asks {v : State} {h : Home} {pa : Option Nat} {u : CopyRun} (runs : s.RunsCopy v c q u)
    (device : ∀ id, h ≠ .peer id) (rank rs rd : Nat) (dest : EngineAt) :
    let t := v.pieceGoes c q rank n src dst rs rd (.far h pa) dest
    ∃ p, s.RunsCopy t c q { u with left := u.left + 1 } ∧ t.dram = v.dram ∧ t.net = v.net ++ [p] ∧ p.home = h ∧
      p.act = .read n ∧ p.core = c ∧ p.counted = v.engineCounts c dest := by
  obtain ⟨p, net, request⟩ := v.engineAsk_net c q src device pa rs n (.copied q dst rd) (v.engineCounts c dest)
  exact ⟨p, (runs.then_keeps (.engineAsk ..)).modRun _, (State.KeepsMemory.engineAsk ..).dram, net, request⟩

/-- What is read at once goes on to where it is written. -/
theorem pieceGoes_read {v : State} {from_ : EngineAt} (here : (∃ h offs, from_ = .chip h offs) ∨ ∃ pa, from_ = .mem pa)
    (rank rs rd : Nat) (dest : EngineAt) :
    v.pieceGoes c q rank n src dst rs rd from_ dest =
      v.putLine c q rank dst rd dest (v.engineRead c from_ n).1 (v.engineRead c from_ n).2 (v.engineCounts c dest) none := by
  rcases here with ⟨h, offs, rfl⟩ | ⟨pa, rfl⟩
  · rfl
  · rfl

theorem putLine_sends {v : State} {h : Home} {pa : Option Nat} {u : CopyRun} (runs : s.RunsCopy v c q u)
    (device : ∀ id, h ≠ .peer id) (rank rd : Nat) (data : List Byte) (bad : Bool) (counted : List Nat) :
    let t := v.putLine c q rank dst rd (.far h pa) data bad counted none
    ∃ p, s.RunsCopy t c q { u with left := u.left + 1 } ∧ t.dram = v.dram ∧ t.net = v.net ++ [p] ∧ p.home = h ∧
      p.act = .write data [] ∧ p.poison = bad ∧ p.counted = counted :=
  ⟨_, (runs.then_keeps (.launchPacket v rfl)).modRun _, (State.KeepsMemory.launchPacket v rfl).dram,
    (State.launchPacket_joins v _ device rfl).1, rfl, rfl, rfl, rfl⟩

/-! ### A piece that is written at once -/

theorem putLine_chip {v : State} {h : Home} {offs : List Nat} {u : CopyRun} {data : List Byte} (runs : s.RunsCopy v c q u)
    (chip : h.onChip) (ok : (v.storeAt h).ok = true) (len : data.length = offs.length) (distinct : offs.Nodup)
    (rank rd : Nat) (bad : Bool) (counted : List Nat) :
    let t := v.putLine c q rank dst rd (.chip h offs) data bad counted none
    s.RunsCopy t c q (u.wrote data.length bad) ∧ t.dram = v.dram ∧ offs.map (t.storeAt h).bytes.byte = data ∧
      (∀ a, a ∉ offs → (t.storeAt h).bytes.byte a = (v.storeAt h).bytes.byte a) ∧
      ∀ g, g ≠ h → t.storeAt g = v.storeAt g := by
  have arrives := State.KeepsMemory.engineArrives v (.chip h offs) rank
  obtain ⟨eqs, dram, inside, outside, others⟩ := State.engineWrite_chip (v := v.engineArrives (.chip h offs) rank) chip
    (by rw [arrives.store]; exact ok) len distinct c dst bad
  have store (t : State) (g : Home) : (t.modRun c q fun r => r.wrote data.length bad).storeAt g = t.storeAt g :=
    (State.Spends.modRun ..).storeAt g
  unfold State.putLine
  dsimp only
  simp only [store]
  refine ⟨((runs.then_keeps arrives).of_eqs (eqs c)).modRun _, dram.trans arrives.dram, inside, fun a ha => ?_,
    fun g other => ?_⟩
  · rw [outside a ha, arrives.store]
  · rw [others g other, arrives.store]

theorem putLine_mem {v : State} {pa : Nat} {u : CopyRun} {data : List Byte} (runs : s.RunsCopy v c q u)
    (own : v.owned (v.odiOf c) pa = true) (wf : v.dram.wf = true) (rank rd : Nat) (bad : Bool) (counted : List Nat) :
    let t := v.putLine c q rank dst rd (.mem pa) data bad counted none
    s.RunsCopy t c q (u.wrote data.length bad) ∧ t.dram.read pa data.length = data ∧
      ∀ a, a < pa ∨ pa + data.length ≤ a → t.dram.byte a = v.dram.byte a := by
  have arrives := State.KeepsMemory.engineArrives v (.mem pa) rank
  have spends := State.Spends.engineArrives v (.mem pa) rank
  obtain ⟨cores, inside, outside⟩ := State.engineWrite_mem (v := v.engineArrives (.mem pa) rank) (c := c) (data := data)
    (by rw [spends.odiOf, spends.owned]; exact own) (by rw [arrives.dram]; exact wf) dst bad
  have eqs : (((v.engineArrives (.mem pa) rank).engineWrite c dst (.mem pa) data bad).core c).eqs =
      ((v.engineArrives (.mem pa) rank).core c).eqs := by rw [State.core, cores]; rfl
  refine ⟨((runs.then_keeps arrives).of_eqs eqs).modRun _, inside, fun a ha => (outside a ha).trans ?_⟩
  rw [arrives.dram]

end

end Sys2Proof.Machine
end

section
/-! O45: COPY_COMPLETION, and the statement. -/
namespace Sys2Proof.Machine

/-! ### The transfer that CPYST knows -/

theorem takeFirst_fst {α : Type} (p : α → Bool) (l : List α) : (takeFirst p l).map (·.1) = l.find? p := by
  induction l with
  | nil => rfl
  | cons a l ih =>
    unfold takeFirst
    cases h : p a with
    | true => rw [List.find?_cons_of_pos h]; rfl
    | false =>
      rw [List.find?_cons_of_neg (by simp [h]), ← ih]
      cases takeFirst p l <;> rfl

/-- Changing the first element that a test picks, in a way that the test does not see. -/
theorem find?_map_zipIdx {α : Type} (p : α → Bool) {g : α → α} (same : ∀ a, p (g a) = p a) (l : List α) (n : Nat) :
    ((l.zipIdx n).map fun t => if t.2 == n + l.findIdx p then g t.1 else t.1).find? p = (l.find? p).map g := by
  induction l generalizing n with
  | nil => rfl
  | cons a l ih =>
    rw [List.zipIdx_cons, List.map_cons, List.findIdx_cons]
    cases h : p a with
    | true =>
      rw [List.find?_cons_of_pos h]
      dsimp only [cond_true]
      have here : (n == n + 0) = true := by simp
      rw [if_pos here, List.find?_cons_of_pos (by rw [same, h])]
      rfl
    | false =>
      have later : ¬(n == n + (l.findIdx p + 1)) = true := by simp
      have next : n + (l.findIdx p + 1) = n + 1 + l.findIdx p := by omega
      dsimp only [cond_false]
      rw [if_neg later, List.find?_cons_of_neg (by simp [h]), List.find?_cons_of_neg (by simp [h]),
        ← ih (n + 1)]
      simp only [next]

/-- The first transfer of an id takes a new state. -/
theorem Core.find?_markTransfer {k : Core} {id : BitVec 16} {y : Transfer} (st : CopyState)
    (found : k.transfers.find? (fun t => t.id == id) = some y) :
    (k.markTransfer id st).transfers.find? (fun t => t.id == id) = some { y with state := st } := by
  have taken : (takeFirst (fun t : Transfer => t.id == id) k.transfers).isSome = true := by
    have first := takeFirst_fst (fun t : Transfer => t.id == id) k.transfers
    rw [found] at first
    obtain ⟨e, he, -⟩ := Option.map_eq_some_iff.mp first
    exact Option.isSome_of_eq_some he
  obtain ⟨e, he⟩ := Option.isSome_iff_exists.mp taken
  have changed := find?_map_zipIdx (fun t : Transfer => t.id == id) (g := fun t => { t with state := st }) (fun _ => rfl)
    k.transfers 0
  rw [Nat.zero_add, found] at changed
  unfold Core.markTransfer
  rw [he]
  exact changed

/-! ### The run is over -/

theorem exec_copyCompletion (c q : Nat) (s : State) : exec (.copyCompletion c q) s = execCopyCompletion c q s := rfl

/-- The queue after a completed run, with the transfer's status for CPYST. -/
def State.runEnded (s : State) (c q : Nat) (r : CopyRun) : State :=
  s.dropTables.modCore c fun k =>
    (k.modEq q fun p => { p with running := none }).markTransfer r.entry.id (.done r.status)

/-- With chk bit 4 for an error other than a guard's. -/
def State.copyEnded (s : State) (c q : Nat) (r : CopyRun) : State :=
  if r.status > 1 then (s.runEnded c q r).chkEvent c r.entry.ctx r.entry.life r.entry.era 4 else s.runEnded c q r

section
variable {s : State} {c q : Nat} {r : CopyRun}

theorem State.core_runEnded (s : State) (c q : Nat) (r : CopyRun) : (s.runEnded c q r).core c =
    ((s.core c).modEq q fun p => { p with running := none }).markTransfer r.entry.id (.done r.status) :=
  State.core_modCore_self _ _ _

theorem State.ctx_runEnded (s : State) (c q : Nat) (r : CopyRun) (d x : Nat) : (s.runEnded c q r).ctx d x = s.ctx d x :=
  State.ctx_modCore_same s.dropTables c (f := fun k =>
    (k.modEq q fun p => { p with running := none }).markTransfer r.entry.id (.done r.status))
    (fun _ => (Core.markTransfer_frame _ _ _).2.2.1) d x

/-- An event for chk changes contexts, or what a core keeps for helpers that have ended. -/
theorem State.chkEvent_frame (s : State) (c x life era bit : Nat) :
    let t := s.chkEvent c x life era bit
    (t.core c).eqs = (s.core c).eqs ∧ (t.core c).transfers = (s.core c).transfers ∧
      (t.core c).pairing = (s.core c).pairing ∧ t.msgs = s.msgs ∧ t.clusters = s.clusters ∧ t.nextNum = s.nextNum ∧
      t.cycle = s.cycle := by
  unfold State.chkEvent
  dsimp only
  split
  · exact ⟨rfl, rfl, rfl, rfl, rfl, rfl, rfl⟩
  · split
    · rw [State.core_modCtx_self]
      exact ⟨rfl, rfl, rfl, rfl, rfl, rfl, rfl⟩
    · rw [State.core_modCore_self]
      exact ⟨rfl, rfl, rfl, rfl, rfl, rfl, rfl⟩

/-- What the end of a copy leaves outside its core. -/
theorem State.copyEnded_frame (s : State) (c q : Nat) (r : CopyRun) :
    ((s.copyEnded c q r).core c).pairing = (s.core c).pairing ∧ (s.copyEnded c q r).msgs = s.msgs ∧
      (s.copyEnded c q r).clusters = s.clusters ∧ (s.copyEnded c q r).nextNum = s.nextNum ∧
      (s.copyEnded c q r).cycle = s.cycle := by
  have pair : ((s.runEnded c q r).core c).pairing = (s.core c).pairing := by
    rw [State.core_runEnded]
    exact (Core.markTransfer_frame _ _ _).2.2.2.1
  unfold State.copyEnded
  split
  · obtain ⟨-, -, pairing, msgs, clusters, nextNum, cycle⟩ :=
      (s.runEnded c q r).chkEvent_frame c r.entry.ctx r.entry.life r.entry.era 4
    exact ⟨pairing.trans pair, msgs, clusters, nextNum, cycle⟩
  · exact ⟨pair, rfl, rfl, rfl, rfl⟩

/-- The queue is idle, and its transfer has the run's status. -/
theorem State.copyEnded_queue (s : State) (c q : Nat) (r : CopyRun) :
    ((s.copyEnded c q r).core c).eq q = { (s.core c).eq q with running := none } ∧
      ∀ y, (s.core c).transfers.find? (fun t => t.id == r.entry.id) = some y →
        ((s.copyEnded c q r).core c).transfers.find? (fun t => t.id == r.entry.id) =
          some { y with state := .done r.status } := by
  have same : ((s.copyEnded c q r).core c).eqs = ((s.runEnded c q r).core c).eqs ∧
      ((s.copyEnded c q r).core c).transfers = ((s.runEnded c q r).core c).transfers := by
    unfold State.copyEnded
    split
    · obtain ⟨eqs, transfers, -⟩ := (s.runEnded c q r).chkEvent_frame c r.entry.ctx r.entry.life r.entry.era 4
      exact ⟨eqs, transfers⟩
    · exact ⟨rfl, rfl⟩
  rw [Core.eq_congr same.1, same.2, State.core_runEnded]
  refine ⟨?_, fun y found => Core.find?_markTransfer _ found⟩
  rw [Core.eq_congr (Core.markTransfer_frame _ _ _).1, Core.eq_modEq, if_pos rfl]

/-- A copy without an error, or that its guard has ended, leaves every context. -/
theorem State.copyEnded_ctx (clean : r.status ≤ 1) (x : Nat) : (s.copyEnded c q r).ctx c x = s.ctx c x := by
  rw [State.copyEnded, if_neg (by omega)]
  exact s.ctx_runEnded c q r c x

/-- An error sets chk bit 4 of the context that issued the copy, as long as that lives. -/
theorem State.copyEnded_error (error : 1 < r.status) (era : (s.core c).era = r.entry.era)
    (live : (s.ctx c r.entry.ctx).live = true) (life : (s.ctx c r.entry.ctx).life = r.entry.life) :
    (s.copyEnded c q r).ctx c r.entry.ctx =
      { s.ctx c r.entry.ctx with chk := (s.ctx c r.entry.ctx).chk ||| 0x10 } := by
  have era' : ((s.runEnded c q r).core c).era = r.entry.era := by
    rw [State.core_runEnded]
    exact (Core.markTransfer_frame _ _ _).2.2.2.2.trans era
  have ctx : ((s.runEnded c q r).core c).ctx r.entry.ctx = s.ctx c r.entry.ctx := s.ctx_runEnded c q r c r.entry.ctx
  rw [State.copyEnded, if_pos error]
  unfold State.chkEvent
  dsimp only
  rw [if_neg (not_not.mpr era'), if_pos (by simp [ctx, live, life]), State.ctx_modCtx_self]
  rw [show (s.runEnded c q r).ctx c r.entry.ctx = s.ctx c r.entry.ctx from ctx]
  rfl

/-! ### The report -/

/-- The message that reports a copy. -/
def CopyRun.flight (r : CopyRun) (c q : Nat) : MsgFlight :=
  { dst := if bitsN r.flags 28 16 = 0x1FFF then c else bitsN r.flags 28 16,
    msg := { w0 := copyMessage q r, w1 := BitVec.ofNat 64 (bitsN r.flags 63 48), poison := false, src := c,
             ctx := r.entry.ctx, copy := some (r.flags.extractLsb' 32 4) },
    era := r.entry.era, engine := some (16 * dieOf c + r.engine) }

/-- The release that a copy leaves at a stage that it commits. -/
def CopyRun.release (r : CopyRun) (c : Nat) : Release :=
  { core := c, ctx := r.entry.ctx, isEngine := true, scope := r.flags.extractLsb' 32 4 }

/-- A copy that has ended sends its message, commits a stage or does neither. -/
def State.reportCopy (u : State) (c q : Nat) (r : CopyRun) : State :=
  match bitsN r.flags 5 4 with
  | 0 => u.sendMsg (r.flight c q)
  | 2 => match u.cb (clusterOf c) (bitsN r.flags 11 8) with
    | some b => u.commitStage (clusterOf c) (bitsN r.flags 11 8) b (r.release c)
    | none => u.count Count.idleCommit (clusterOf c)
  | _ => u

theorem State.sendMsg_frame (u : State) (m : MsgFlight) : ∃ replay budgets, u.sendMsg m =
    { u with msgs := u.msgs ++ [{ m with id := u.nextNum, since := u.cycle }], nextNum := u.nextNum + 1,
             replay := replay, budgets := budgets } := by
  unfold State.sendMsg State.launchMsg
  obtain ⟨b, spent⟩ := State.spendPacket_frame (({ u with nextNum := u.nextNum + 1, msgs := u.msgs ++
      [{ m with id := u.nextNum, since := u.cycle }] } : State).takeSlots .message u.nextNum
        (linksAcross (dieOfSource m.msg.src) (dieOf m.dst))) m.msg.src (.localMem m.dst) false false 16
  exact ⟨_, b, spent⟩

section
variable (u : State)

theorem State.reportCopy_cores : (u.reportCopy c q r).cores = u.cores := by
  unfold State.reportCopy
  split
  · obtain ⟨replay, budgets, sent⟩ := u.sendMsg_frame (r.flight c q)
    rw [sent]
  · split
    · unfold State.commitStage
      split
      · rfl
      · rfl
    · rfl
  · rfl

/-- The completion's message, for a copy that sends one. -/
theorem State.reportCopy_sends (send : bitsN r.flags 5 4 = 0) :
    (u.reportCopy c q r).msgs = u.msgs ++ [{ r.flight c q with id := u.nextNum, since := u.cycle }] := by
  obtain ⟨replay, budgets, sent⟩ := u.sendMsg_frame (r.flight c q)
  rw [State.reportCopy, send]
  exact congrArg State.msgs sent

theorem State.reportCopy_quiet (silent : bitsN r.flags 5 4 ≠ 0) : (u.reportCopy c q r).msgs = u.msgs := by
  unfold State.reportCopy
  split
  · next send => exact absurd send silent
  · split
    · unfold State.commitStage
      split
      · rfl
      · rfl
    · rfl
  · rfl

theorem State.reportCopy_clusters (keeps : bitsN r.flags 5 4 ≠ 2) : (u.reportCopy c q r).clusters = u.clusters := by
  unfold State.reportCopy
  split
  · obtain ⟨replay, budgets, sent⟩ := u.sendMsg_frame (r.flight c q)
    rw [sent]
  · next commit => exact absurd commit keeps
  · rfl

/-- A copy that commits fills the oldest acquired stage, which then carries its release. -/
theorem State.reportCopy_commits (commit : bitsN r.flags 5 4 = 2) {b : CircBuf} {i : Nat}
    (buffer : u.cb (clusterOf c) (bitsN r.flags 11 8) = some b) (stage : b.oldest b.head .acquired = some i) :
    (u.reportCopy c q r).cb (clusterOf c) (bitsN r.flags 11 8) =
      some { b with stages := setAt b.stages i .filled, commits := Tab.put b.commits i (some (r.release c)) } := by
  have report : u.reportCopy c q r = u.commitStage (clusterOf c) (bitsN r.flags 11 8) b (r.release c) := by
    rw [State.reportCopy, commit, buffer]
    rfl
  rw [report, State.commitStage, stage]
  dsimp only
  rw [State.cb, State.setCb, State.cluster_modCluster_self]
  exact Tab.get_put_self _ _ _ _

end

section
variable (running : ((s.core c).eq q).running = some r)
include running

theorem copyCompletion_waits (unfinished : r.left ≠ 0 ∨ r.todo ≠ [] ∨ r.guard = true) :
    exec (.copyCompletion c q) s = .next s := by
  have waits : (r.left ≠ 0 || r.todo ≠ [] || r.guard) = true := by simpa [or_assoc] using unfinished
  rw [exec_copyCompletion, execCopyCompletion, running]
  dsimp only
  rw [if_pos waits]

theorem copyCompletion_reports (answered : r.left = 0) (finished : r.todo = []) (unguarded : r.guard = false)
    (own : r.entry.queue = none) (unpaired : (s.core c).pairing = none) :
    exec (.copyCompletion c q) s = .next ((s.copyEnded c q r).reportCopy c q r) := by
  have ended : (r.left ≠ 0 || r.todo ≠ [] || r.guard) = false := by simp [answered, finished, unguarded]
  have alone : (((s.copyEnded c q r).sendMsg (r.flight c q)).core c).pairing = none := by
    obtain ⟨replay, budgets, sent⟩ := (s.copyEnded c q r).sendMsg_frame (r.flight c q)
    rw [sent]
    exact (s.copyEnded_frame c q r).1.trans unpaired
  rw [exec_copyCompletion, execCopyCompletion, running]
  dsimp only
  rw [if_neg (ne_true_of_eq_false ended), own]
  simp only [Option.isNone, Bool.and_true, decide_eq_true_eq]
  change (match bitsN r.flags 5 4 with
    | 0 => Host.Outcome.next (match (((s.copyEnded c q r).sendMsg (r.flight c q)).core c).pairing with
      | some p => _
      | none => (s.copyEnded c q r).sendMsg (r.flight c q))
    | 2 => match (s.copyEnded c q r).cb (clusterOf c) (bitsN r.flags 11 8) with
      | some b => .next ((s.copyEnded c q r).commitStage (clusterOf c) (bitsN r.flags 11 8) b (r.release c))
      | none => .next ((s.copyEnded c q r).count Count.idleCommit (clusterOf c))
    | _ => .next (s.copyEnded c q r)) = _
  rw [alone]
  unfold State.reportCopy
  split
  · rfl
  · split
    · rfl
    · rfl
  · rfl

end
end
end Sys2Proof.Machine
end

section
/-! O45: the statement. -/
namespace Sys2Proof.Machine

/-! ### A copy of one piece -/

theorem addOffset_zero (w : Word) : addOffset w 0 = w := by
  unfold addOffset
  split
  · have low : w.setWidth 32 + (0 : Word).setWidth 32 = w.extractLsb' 0 32 :=
      (BitVec.add_zero _).trans (BitVec.setWidth_eq_extractLsb' (by decide))
    rw [low]
    exact (append_extract w 0 32 32).trans BitVec.extractLsb'_eq_self
  · exact BitVec.add_zero w

/-- What lies within a line of either side is one piece. -/
theorem rowPieces_single {n : Nat} {src dst : Word} (positive : 0 < n) (fromLine : n ≤ lineRoom src)
    (toLine : n ≤ lineRoom dst) : rowPieces n src dst n = [(src, dst, n)] := by
  have all : min n (min (lineRoom src) (lineRoom dst)) = n := Nat.min_eq_left (Nat.le_min.mpr ⟨fromLine, toLine⟩)
  obtain ⟨fuel, hn⟩ : ∃ fuel, n = fuel + 1 := ⟨n - 1, by omega⟩
  conv_lhs => rw [hn]
  rw [rowPieces, ← hn, if_neg positive.ne']
  dsimp only
  rw [all, Nat.sub_self]
  cases fuel with
  | zero => rfl
  | succ fuel => rfl

theorem copyPieces_single (fields : List Word) :
    let f := fun n => fields.getD n 0
    let low := fun n => (f n).toNat % 2 ^ 32
    low 9 * low 3 = 1 → 0 < low 2 → low 2 ≤ lineRoom (f 0) → low 2 ≤ lineRoom (f 1) →
      copyPieces fields = [(0, f 0, f 1, low 2)] := by
  intro f low rows positive fromLine toLine
  have piece := rowPieces_single positive fromLine toLine
  unfold copyPieces
  dsimp only
  rw [show span 0 ((fields.getD 9 0).toNat % 2 ^ 32 * ((fields.getD 3 0).toNat % 2 ^ 32)) = [0] by
    rw [rows]
    rfl]
  rw [List.flatMap_singleton, Nat.zero_mul, Nat.zero_mul, show BitVec.ofNat 64 0 = (0 : Word) from rfl, addOffset_zero,
    addOffset_zero]
  exact congrArg (List.map _) piece

/-! ### What a piece comes to -/

section
variable {s : State} {c q piece n row : Nat} {src dst : Word} {r : CopyRun} {from_ to_ : EngineAt}

/-- The run after a piece has been copied at once. -/
def CopyRun.copied (r : CopyRun) (piece n : Nat) (bad : Bool) : CopyRun :=
  { r with todo := r.todo.filter (· != piece), bytes := r.bytes + n, status := if r.status = 0 && bad then 5 else r.status }

/-- The run after a piece has been asked for or sent. -/
def CopyRun.asked (r : CopyRun) (piece : Nat) : CopyRun :=
  { r with todo := r.todo.filter (· != piece), left := r.left + 1 }

/-- A piece whose bytes lie on this die goes with those bytes to where it is written. -/
theorem copyPiece_reads (budget : s.budgetLeft 0 (s.odiOf c) = true) (source : s.engineAt c src n r.srcRot false = from_)
    (target : s.engineAt c dst n r.dstRot true = to_) (here : (∃ h offs, from_ = .chip h offs) ∨ ∃ pa, from_ = .mem pa)
    (served : s.engineFree from_ (engineRank (dieOf c) r.engine) = true) (there : to_.ready = true) (serves : s.engineFree to_ (engineRank (dieOf c) r.engine) = true)
    (within : s.engineStall to_ true = none) :
    s.copyPiece c q r piece src dst n =
      (s.pieceTaken c q (engineRank (dieOf c) r.engine) piece n from_).putLine c q (engineRank (dieOf c) r.engine) dst
        r.dstRot to_ (s.engineRead c from_ n).1 (s.engineRead c from_ n).2 (s.engineCounts c to_) none := by
  have spends := State.Spends.pieceTaken s c q (engineRank (dieOf c) r.engine) piece n from_
  have ready : from_.ready = true ∧ s.engineStall from_ false = none := by
    rcases here with ⟨h, offs, rfl⟩ | ⟨pa, rfl⟩
    · exact ⟨rfl, rfl⟩
    · exact ⟨rfl, rfl⟩
  rw [copyPiece_goes budget source target ready.1 there served serves ready.2 within, pieceGoes_read here,
    spends.engineRead, spends.engineCounts]

section
variable (running : ((s.core c).eq q).running = some r) (budget : s.budgetLeft 0 (s.odiOf c) = true)
  (source : s.engineAt c src n r.srcRot false = from_) (target : s.engineAt c dst n r.dstRot true = to_)
include running budget source target

/-- A piece across a link is asked for, and the packet carries the barriers that count it. -/
theorem copyPiece_asks {h : Home} {pa : Option Nat} (far : from_ = .far h pa) (device : ∀ id, h ≠ .peer id)
    (there : to_.ready = true) (serves : s.engineFree to_ (engineRank (dieOf c) r.engine) = true)
    (within : s.engineStall to_ true = none) :
    let t := s.copyPiece c q r piece src dst n
    ∃ p, s.RunsCopy t c q (r.asked piece) ∧ t.dram = s.dram ∧ t.net = s.net ++ [p] ∧ p.home = h ∧ p.act = .read n ∧
      p.core = c ∧ p.counted = s.engineCounts c to_ := by
  subst far
  have spends := State.Spends.pieceTaken s c q (engineRank (dieOf c) r.engine) piece n (.far h pa)
  have runs := State.RunsCopy.pieceTaken (piece := piece) running (engineRank (dieOf c) r.engine) n (.far h pa)
  obtain ⟨p, asked, dram, net, home, act, core, counted⟩ := pieceGoes_asks (src := src) (dst := dst) (n := n) (pa := pa) runs device
    (engineRank (dieOf c) r.engine) r.srcRot r.dstRot to_
  rw [copyPiece_goes budget source target rfl there rfl serves (engineStall_device device pa false) within]
  exact ⟨p, asked, dram.trans spends.dram, net.trans (by rw [spends.net]), home, act, core,
    counted.trans (spends.engineCounts c to_)⟩

section
variable (here : (∃ h offs, from_ = .chip h offs) ∨ ∃ pa, from_ = .mem pa)
  (served : s.engineFree from_ (engineRank (dieOf c) r.engine) = true)
include here served

theorem copyPiece_sends {h : Home} {pa : Option Nat} (far : to_ = .far h pa) (device : ∀ id, h ≠ .peer id) :
    let t := s.copyPiece c q r piece src dst n
    ∃ p, s.RunsCopy t c q (r.asked piece) ∧ t.dram = s.dram ∧ t.net = s.net ++ [p] ∧ p.home = h ∧
      p.act = .write (s.engineRead c from_ n).1 [] ∧ p.poison = (s.engineRead c from_ n).2 ∧
      p.counted = s.engineCounts c to_ := by
  subst far
  have spends := State.Spends.pieceTaken s c q (engineRank (dieOf c) r.engine) piece n from_
  have runs := State.RunsCopy.pieceTaken (piece := piece) running (engineRank (dieOf c) r.engine) n from_
  obtain ⟨p, asked, dram, net, request⟩ := putLine_sends (dst := dst) (pa := pa) runs device
    (engineRank (dieOf c) r.engine) r.dstRot (s.engineRead c from_ n).1 (s.engineRead c from_ n).2
    (s.engineCounts c (.far h pa))
  rw [copyPiece_reads budget source target here served rfl rfl (engineStall_device device pa true)]
  exact ⟨p, asked, dram.trans spends.dram, net.trans (by rw [spends.net]), request⟩

section
variable (serves : s.engineFree to_ (engineRank (dieOf c) r.engine) = true)
include serves

theorem copyPiece_mem {pa : Nat} (place : to_ = .mem pa) (wf : s.dram.wf = true) :
    let t := s.copyPiece c q r piece src dst n
    s.RunsCopy t c q (r.copied piece n (s.engineRead c from_ n).2) ∧
      t.dram.read pa n = (s.engineRead c from_ n).1 ∧ ∀ a, a < pa ∨ pa + n ≤ a → t.dram.byte a = s.dram.byte a := by
  subst place
  have len := length_engineRead (v := s) source here
  have spends := State.Spends.pieceTaken s c q (engineRank (dieOf c) r.engine) piece n from_
  have runs := State.RunsCopy.pieceTaken (piece := piece) running (engineRank (dieOf c) r.engine) n from_
  obtain ⟨copied, inside, outside⟩ := putLine_mem (dst := dst) (pa := pa) (data := (s.engineRead c from_ n).1) runs
    (by rw [spends.odiOf, spends.owned]; exact engineAt_mem target) (by rw [spends.dram]; exact wf)
    (engineRank (dieOf c) r.engine) r.dstRot (s.engineRead c from_ n).2 (s.engineCounts c (.mem pa))
  rw [copyPiece_reads budget source target here served rfl serves rfl]
  rw [len, spends.dram] at *
  exact ⟨copied, inside, outside⟩

theorem copyPiece_chip {h : Home} {offs : List Nat} (place : to_ = .chip h offs) (distinct : offs.Nodup)
    (ok : (s.storeAt h).ok = true) :
    let t := s.copyPiece c q r piece src dst n
    s.RunsCopy t c q (r.copied piece n (s.engineRead c from_ n).2) ∧ t.dram = s.dram ∧
      offs.map (t.storeAt h).bytes.byte = (s.engineRead c from_ n).1 ∧
      (∀ a, a ∉ offs → (t.storeAt h).bytes.byte a = (s.storeAt h).bytes.byte a) ∧
      ∀ g, g ≠ h → t.storeAt g = s.storeAt g := by
  subst place
  have len := length_engineRead (v := s) source here
  obtain ⟨chip, long⟩ := engineAt_chip target
  have spends := State.Spends.pieceTaken s c q (engineRank (dieOf c) r.engine) piece n from_
  have runs := State.RunsCopy.pieceTaken (piece := piece) running (engineRank (dieOf c) r.engine) n from_
  obtain ⟨copied, dram, inside, outside, others⟩ := putLine_chip (dst := dst) (data := (s.engineRead c from_ n).1) runs
    chip (by rw [spends.storeAt]; exact ok) (len.trans long.symm) distinct (engineRank (dieOf c) r.engine) r.dstRot
    (s.engineRead c from_ n).2 (s.engineCounts c (.chip h offs))
  rw [copyPiece_reads budget source target here served rfl serves rfl]
  rw [len] at copied
  refine ⟨copied, dram.trans spends.dram, inside, fun a ha => ?_, fun g other => ?_⟩
  · rw [outside a ha, spends.storeAt]
  · rw [others g other, spends.storeAt]

end
end
end

/-! ### The runs of an entry -/

theorem CopyEntry.run_fresh {e : CopyEntry} (fresh : e.begun = none) (engine : Nat) : e.run engine =
    { entry := e, engine := engine, status := 0, bytes := 0, left := 0,
      todo := List.range (copyPieces e.fields).length } := by
  rw [CopyEntry.run, fresh]

theorem CopyEntry.run_begun {e : CopyEntry} {todo : List Nat} {status bytes : Nat}
    (begun : e.begun = some (todo, status, bytes)) (engine : Nat) : e.run engine =
    { entry := e, engine := engine, status := status, bytes := bytes, left := 0, todo := todo } := by
  rw [CopyEntry.run, begun]

/-- A fresh entry that fails before its first piece. -/
theorem CopyEntry.run_fails {e : CopyEntry} (fresh : e.begun = none) (engine status : Nat) :
    (e.run engine).fail status =
      { entry := e, engine := engine, status := status, bytes := 0, left := 0, todo := [], guard := false } := by
  rw [CopyEntry.run_fresh fresh]
  rfl

end

/-! ### The statement -/

section
variable {s : State}

theorem State.copyAway_iff (fl : Word) : s.copyAway fl = true ↔
    bitsN fl 28 16 ≤ 4095 ∧ s.partOf (bitsN fl 28 16) ≠ s.partOf s.cur.1 := by
  simp [State.copyAway]

/-- The entry that CPYGO queues. -/
def State.copyEntry (s : State) : CopyEntry :=
  { fields := (List.range 10).map fun n => (s.me.field n).bits, id := s.here.nextId, ctx := s.cur.2, life := s.me.life,
    era := s.here.era, serial := s.here.serial, joins := s.here.takeJoins (bitsN (s.me.field 6).bits 1 0), queue := none }

theorem State.launched_eq (s : State) (n : Nat) : s.launched.here.eq n =
    if n = bitsN (s.me.field 6).bits 1 0 then
      { s.here.eq n with entries := (s.here.eq n).entries ++ [s.copyEntry] }
    else s.here.eq n := by
  rw [State.here_launched, Core.enqueueCopy_eq]
  split
  · next same => rw [same]; rfl
  · rfl

theorem State.onlyCore_launched (s : State) : s.OnlyCore s.launched s.cur.1 := by
  unfold State.launched State.modHere
  exact s.onlyCore_modCore _ _

/-- What CPYGO leaves in the core: the entry at the tail of its queue, its transfer, and the next id. -/
theorem State.launched_core (s : State) :
    let q := bitsN (s.me.field 6).bits 1 0
    let u := s.launched
    s.OnlyCore u s.cur.1 ∧
      u.here = { s.here with eqs := u.here.eqs, serial := u.here.serial, nextId := u.here.nextId,
                             transfers := u.here.transfers } ∧
      (u.here.eq q).entries = (s.here.eq q).entries ++ [s.copyEntry] ∧ (u.here.eq q).running = (s.here.eq q).running ∧
      (∀ n, n ≠ q → u.here.eq n = s.here.eq n) ∧
      u.here.nextId = (if s.here.nextId = 0xFFFF then 1 else s.here.nextId + 1) ∧
      u.here.transfers = ({ id := s.copyEntry.id, state := .queued, scope := (s.me.field 6).bits.extractLsb' 32 4,
                            ctx := s.cur.2 } :: s.here.transfers).take 64 := by
  intro q u
  have tail : u.here.eq q = { s.here.eq q with entries := (s.here.eq q).entries ++ [s.copyEntry] } :=
    (s.launched_eq q).trans (if_pos rfl)
  refine ⟨s.onlyCore_launched, ?_, by rw [tail], by rw [tail], fun n other => (s.launched_eq n).trans (if_neg other),
    ?_, ?_⟩
  all_goals rw [s.here_launched]; rfl

end

/-- Settles O45: instruction by instruction, then COPY_START by what its queue holds, a piece by where it is read and
written, and COPY_COMPLETION by its flags. -/
theorem copies : Obligations.Copies := by
  refine ⟨fun s a => eqf_joins, fun s a f => cpyset_field, fun s d unpaired => ?_, fun s d a unpaired clear => ?_,
    fun s c q engine piece e rest queue free unsaved => ⟨fun unjoined => ?_, fun joined => ?_⟩,
    fun s c q piece n row src dst r running unguarded unsaved cut => ⟨copyStart_notDue running, fun due budget => ?_⟩,
    copyPieces_single,
    fun s c q r running => ⟨copyCompletion_waits running, fun answered finished unguarded own unpaired => ?_⟩⟩
  · intro fl scope core q badScope bad away
    have bad_iff : copyFlagsBad fl = true ↔ bad := copyFlagsBad_iff fl
    have away_iff : s.copyAway fl = true ↔ away := State.copyAway_iff fl
    obtain ⟨faults, flags, leaves, launches⟩ := cpygo_launches (d := d) unpaired
    have good (h : ¬bad) : copyFlagsBad fl = false := Bool.eq_false_iff.mpr fun k => h (bad_iff.mp k)
    have stays (h : ¬away) : s.copyAway fl = false := Bool.eq_false_iff.mpr fun k => h (away_iff.mp k)
    refine ⟨faults, fun valid h => flags valid (bad_iff.mpr h), fun valid h k => leaves valid (good h) (away_iff.mpr k),
      fun valid h k clear => ?_⟩
    obtain ⟨full, room⟩ := launches valid (good h) (stays k) clear
    refine ⟨full, fun fits => ?_⟩
    obtain ⟨t, step, completes, id, chk⟩ := room fits
    obtain ⟨only, here, entries, run, others, nextId, transfers⟩ := s.launched_core
    exact ⟨s.launched, t, s.copyEntry, step, completes, only, here, entries, run, others, rfl, rfl, rfl, rfl, nextId,
      transfers, id, chk⟩
  · intro id found gives
    obtain ⟨unknown, known⟩ := cpyst_reports unpaired clear
    refine ⟨unknown, fun x valid here => ?_⟩
    have report := known x valid here
    refine ⟨fun state => ?_, fun state => ?_, fun status state => ?_⟩
    all_goals
      rw [state] at report
      exact report
  · rw [copyStart_head queue free unsaved, unjoined]
    rfl
  · intro f all runs
    have begins {r : CopyRun} {status bytes : Nat} {todo : List Nat} {guard : Bool}
        (h : s.StartsCopy c q piece rest r)
        (same : r = { entry := e, engine := engine, status := status, bytes := bytes, left := 0, todo := todo,
                      guard := guard }) : runs status bytes todo guard := by
      subst same
      exact h
    refine ⟨fun fresh killed => begins (copyStart_killed queue free unsaved joined killed) (CopyEntry.run_fails fresh _ _),
      fun alive => ⟨fun todo status bytes begun => ?_, fun fresh => ⟨fun plain => ?_, fun guarded crooked => ?_,
        fun guarded straight w place => ⟨fun n fails => ?_, fun here served => ?_, fun h pa far within => ?_⟩⟩⟩⟩
    · exact begins (copyStart_runs queue free unsaved joined alive (.inl (by rw [begun]; rfl)))
        (CopyEntry.run_begun begun _)
    · exact begins (copyStart_runs queue free unsaved joined alive (.inr plain)) (CopyEntry.run_fresh fresh _)
    · exact begins (copyStart_crooked queue free unsaved joined alive fresh guarded crooked)
        (CopyEntry.run_fails fresh _ _)
    · exact begins (copyStart_guardFails queue free unsaved joined alive fresh guarded straight (place.trans fails))
        (CopyEntry.run_fails fresh _ _)
    · subst place
      obtain ⟨agrees, fails⟩ := copyStart_guardHere (piece := piece) queue free unsaved joined alive fresh guarded straight
        here served
      split
      · next equal => exact begins (agrees equal) (CopyEntry.run_fresh fresh _)
      · next differs => exact begins (fails differs) (CopyEntry.run_fails fresh _ _)
    · subst place
      refine begins (copyStart_guardFar queue free unsaved joined alive fresh guarded straight far ?_) ?_
      · rw [← far]
        exact within
      · rw [CopyEntry.run_fresh fresh]
  · intro fl rank failed asked runs from_ to_ source target
    have step := copyStart_piece running unguarded unsaved cut due
    have ended (st : Nat) : r.fail st = failed st := CopyRun.fail_eq unguarded st
    refine ⟨fun st fails => ?_, fun h pa far device noFail noAsk serves within => ?_, fun here => ?_⟩
    · rw [copyPiece_sourceFails budget source fails] at step
      obtain ⟨run, dram⟩ := State.RunsCopy.failed running src false st
      exact ⟨_, step, (ended st) ▸ run, dram⟩
    · obtain ⟨p, run, request⟩ := copyPiece_asks (piece := piece) running budget source target far device
        (EngineAt.ready_of_free noFail noAsk serves) serves within
      exact ⟨_, p, step, run, request⟩
    · intro got after
      refine ⟨fun st fails => ?_, fun h pa far device served => ?_, fun served serves => ⟨fun pa place wf => ?_,
        fun h offs place distinct ok => ?_⟩⟩
      · have ready : from_.ready = true := by
          rcases here with ⟨h, offs, rfl⟩ | ⟨pa, rfl⟩
          · rfl
          · rfl
        rw [copyPiece_targetFails budget source target ready fails] at step
        obtain ⟨run, dram⟩ := State.RunsCopy.failed running dst true st
        exact ⟨_, step, (ended st) ▸ run, dram⟩
      · obtain ⟨p, run, sent⟩ := copyPiece_sends (piece := piece) running budget source target here served far device
        exact ⟨_, p, step, run, sent⟩
      · exact ⟨_, step, copyPiece_mem running budget source target here served serves place wf⟩
      · exact ⟨_, step, copyPiece_chip running budget source target here served serves place distinct ok⟩
  · intro fl scope n x w0 msg rel
    obtain ⟨-, msgs, clusters, nextNum, cycle⟩ := s.copyEnded_frame c q r
    obtain ⟨queue, transfers⟩ := s.copyEnded_queue c q r
    have cores := (s.copyEnded c q r).reportCopy_cores (c := c) (q := q) (r := r)
    have core (d : Nat) : ((s.copyEnded c q r).reportCopy c q r).core d = (s.copyEnded c q r).core d := by
      rw [State.core, cores]
      rfl
    have ctx (d y : Nat) : ((s.copyEnded c q r).reportCopy c q r).ctx d y = (s.copyEnded c q r).ctx d y :=
      congrArg (Core.ctx · y) (core d)
    refine ⟨_, copyCompletion_reports running answered finished unguarded own unpaired, ?_, fun y found => ?_,
      fun clean y => ?_, fun error era live life => ?_, fun send => ?_, fun silent => ?_, fun keeps => ?_,
      fun commit b i buffer stage => ?_⟩
    · rw [core]
      exact queue
    · rw [core]
      exact transfers y found
    · rw [ctx]
      exact State.copyEnded_ctx clean y
    · rw [ctx]
      exact State.copyEnded_error error era live life
    · rw [State.reportCopy_sends _ send, msgs, nextNum, cycle]
      rfl
    · exact (State.reportCopy_quiet _ silent).trans msgs
    · exact (State.reportCopy_clusters _ keeps).trans clusters
    · refine State.reportCopy_commits _ commit ?_ stage
      rw [State.cb, State.cluster, clusters]
      exact buffer

end Sys2Proof.Machine
end
